-- ==== Sys2Proof/Word.lean ====
section
/-!
DEFINITION. The words of the Skegal: bytes, instruction words, uniform registers, lane masks and capabilities' bits,
and the plainest operations on them.
-/

namespace Sys2Proof

abbrev Byte := BitVec 8
abbrev Word := BitVec 32
abbrev DWord := BitVec 64
/-- One bit for each of the 64 lanes of a group, lane i at bit i. -/
abbrev Lanes := BitVec 64
abbrev CapBits := BitVec 128

/-- A sparse table from natural keys, keys strictly rising. -/
abbrev Tab (α : Type) := List (Nat × α)

/-- The bits [hi:lo] of a number, read as a number. -/
def bits (x hi lo : Nat) : Nat := x / 2 ^ lo % 2 ^ (hi + 1 - lo)

/-- The bit i of a number. -/
def bit (x i : Nat) : Bool := x / 2 ^ i % 2 == 1

end Sys2Proof
end

