-- ==== Sys2Proof/Syntax.lean ====
section
/-!
DEFINITION. The instruction set as syntax: one constructor of Instr for each row of the opcode table. An instruction
word's fields are its operands (R55 to R57); an event's operands name the unit it happens at and carry what reaches the
package from outside at that event.
-/

namespace Sys2Proof

/-- Execution scope (R29, Table 1.4). -/
inductive Scope where | lane | group | set | block
  deriving DecidableEq, Repr

/-- Engine class of a clause (R48, Table 3.2). -/
inductive Eng where | ctl | uni | vint | vflt | mem | asy | sys
  deriving DecidableEq, Repr

/-- Rounding mode (R61, R83). -/
inductive Rnd where | rn | rz | ru | rd
  deriving DecidableEq, Repr

/-- Ordering of an atomic (R61, R215). -/
inductive AOrd where | rlx | acq | rel | ar
  deriving DecidableEq, Repr

/-- Type codes (Table 3.9), in the order of the codes. -/
inductive Ty where
  | f32 | f16 | bf16 | f8a | f8b | f4 | s8 | n8 | s4 | s16 | n16 | s32 | n32 | b32 | b64 | cf32
  deriving DecidableEq, Repr

/-- A source in the vector value role (R56, R57): a register with its last-use mark, or a channel popped or peeked. -/
inductive VSrc where
  | reg (n : BitVec 6) (last : Bool)
  | chan (c : BitVec 6) (peek : Bool)
  deriving DecidableEq, Repr

/-- A destination in the vector value role (R56, R57). -/
inductive VDst where
  | reg (n : BitVec 6)
  | chan (c : BitVec 6)
  deriving DecidableEq, Repr

/-- A source that accepts the register class only: uniform, pair, quad (R57), with its last-use mark. -/
structure RSrc where
  n : BitVec 6
  last : Bool
  deriving DecidableEq, Repr

/-- A predicate source: its index and its negate mark (R57). -/
structure Pred where
  n : BitVec 3
  neg : Bool
  deriving DecidableEq, Repr

/-- The limits of `wait` (R54). -/
structure WaitLim where
  l : BitVec 4
  s : BitVec 4
  c : BitVec 3
  t : BitVec 3
  deriving DecidableEq, Repr

/-- Special registers (R70, Table 3.18). -/
inductive SReg where
  | lvl (k : BitVec 3)
  | gidx | bidx | cyc | reft | fstep | wsref | eacc | ebkt | world | ctx
  | view (k : BitVec 2)
  deriving DecidableEq, Repr

/-- A group: its block's number and its index in the block. -/
structure GRef where
  blk : Nat
  gidx : Nat
  deriving DecidableEq, Repr

/-- An issuer of a group: 0 the broadcast stream, k + 1 the diverged lane k (R23). -/
structure IRef where
  blk : Nat
  gidx : Nat
  iss : Nat
  deriving DecidableEq, Repr

/-- A span of an object of a context (R111). -/
structure SpanRef where
  pasid : Nat
  obn : Nat
  idx : Nat
  deriving DecidableEq, Repr

/-- What a span that moves brings (R120, R121): its bytes by offset, the times of the moves that it has completed among other packages,
and the package that is its home then, where it went to another. -/
structure SpanLoad where
  bytes : List (Nat × Byte)
  times : List Nat := []
  home : Nat := 0
  deriving DecidableEq, Repr

/-- Where a command came from and its sequence number (R343). -/
structure Cmd where
  iface : Nat
  seq : Word
  deriving DecidableEq, Repr

/-- A packet on an Iscor link or a fabric port: its world, the context it bears, and whether its check holds (R324). -/
structure LinkPacket where
  unit : Nat
  world : Nat
  pasid : Nat
  op : Nat
  lane : Nat
  ok : Bool
  deriving DecidableEq, Repr

/-- What a packet from a fabric peer carries (R120, R121, R344, R347). -/
inductive FabricPacket where
  /-- one element for a queue of a port -/
  | element (port queue pasid : Nat) (w : Word)
  /-- credit returned for a queue of a port -/
  | credit (port queue n : Nat)
  /-- the physical function's route of a queue: peer package, peer queue and PASID -/
  | route (port queue : Nat) (peer : Option (Nat × Nat × Nat))
  /-- the answer to a request sent to the home package of a span with REM = 1 -/
  | response (op lane : Nat) (value : Nat) (tag : Bool)
  /-- the home package has translated a request that a wide scope holds (R207) -/
  | translated (op lane : Nat)
  /-- the home package's translation of a request met a fault -/
  | fault (op lane code : Nat)
  /-- the words of a clause from the home package of its span, or the fault of their translation there -/
  | code (r : IRef) (ws : List Word)
  | codeFault (r : IRef) (code : Nat)
  /-- a peer's read of a span homed here -/
  | remoteRead (pasid : Nat) (cap : CapBits) (x n : Nat)
  /-- a peer's write to a span homed here, with the granules of it whose tag is set; `peer` is the writing package -/
  | remoteWrite (pasid : Nat) (cap : CapBits) (x : Nat) (data : List Byte) (tags : List Nat) (peer : Nat)
  /-- a peer's atomic of Table 15.5, by its number, on a word homed here -/
  | remoteAtomic (pasid : Nat) (cap : CapBits) (x op : Nat) (ty : Ty) (data cmp peer : Nat)
  /-- a peer's span query, and its question whether an access translates -/
  | remoteQuery (pasid : Nat) (cap : CapBits) (x : Nat)
  | remoteTranslate (pasid : Nat) (cap : CapBits) (x n : Nat) (writer : Option Nat)
  /-- the home package of a part of a reading's region has written it, where the code is 0, or its translation met that fault -/
  | meter (world code : Nat)
  /-- the bytes of a weight copy's source from the home package of its spans, where the code is 0, or its translation met that fault -/
  | wscopy (copy code : Nat) (data : List Byte)
  /-- another package's revocation sets the object's generation here (R117) -/
  | revoke (pasid obn gen : Nat)
  deriving DecidableEq, Repr

/-- A non-posted request to a peer package (R345): of an operation, a code fetch of a group, or a meter reading; beside it
stands the lane, the issuer, or the world. -/
inductive Asked where
  | op (op : Nat)
  | code (blk gidx : Nat)
  | meter
  | wscopy
  deriving DecidableEq, Repr

/-- Where an uncorrectable error was found (R322, R330, Table 25.5). `badMac`: the line's authentication fails;
`corrected`: the check corrected the error. -/
inductive ErrPlace where
  | regs (core : Nat) (pasid : Nat)
  | near (core : Nat) (pasid : Nat)
  | llc (addr : Nat) (pasid : Nat)
  | ws (die off : Nat) (pasid : Nat)
  | hbm (addr : Nat) (pasid : Nat)
  | badMac (addr : Nat)
  | corrected
  deriving DecidableEq, Repr

/-- One firmware image offered at boot (R316, R329, R348): its digest, its signature's verdict, the counter it names,
the least counter value it declares and its version. -/
structure BootImage where
  digest : BitVec 256
  sigOk : Bool
  counter : Nat
  minCtr : Nat
  version : Nat
  deriving DecidableEq, Repr

/-- What a boot finds (R348, R350): the firmware images in their order, and the physical cores, 34 to a cluster, that the self-test
found bad. -/
structure BootRun where
  images : List BootImage
  failed : List Nat
  deriving DecidableEq, Repr

/-- The opcode table, one constructor a row: the instruction words, then the events, each in the table's order. -/
inductive Instr where
  /-- NOP, R159: Has no effect, or forms a pure rendezvous at wide scope. -/
  | nop (e : Scope)
  /-- JMP, R154: Transfers to a word offset from the clause header. -/
  | jmp (t : BitVec 16)
  /-- BRA, R154: Branches per lane on a vector predicate. -/
  | bra (p : Pred) (t : BitVec 16)
  /-- BRU, R154: Branches on a uniform predicate, alike in every lane. -/
  | bru (q : Pred) (t : BitVec 16)
  /-- JMPC, R155: Installs a code capability from a quad and continues at its cursor. -/
  | jmpc (a : RSrc)
  /-- CALL, R154: Writes a sealed link capability and transfers to a word offset. -/
  | call (a : BitVec 6) (t : BitVec 16)
  /-- CALLC, R155: Installs a code capability from a quad and writes a sealed link. -/
  | callc (a : BitVec 6) (b : RSrc)
  /-- RET, R155: Installs a link capability unsealed and continues at its cursor. -/
  | ret (a : RSrc)
  /-- EXIT, R157: Makes the active lanes exited, freeing their registers and ending the group when all lanes have exited. -/
  | exit
  /-- BAR, R161: Barrier of the group, set or block with release on arrival and acquire on leaving. -/
  | bar (e : Scope)
  /-- BARA, R162: Arrives at split barrier K expecting N groups, flipping its phase when the count is reached. -/
  | bara (e : Scope) (k : BitVec 4) (n : BitVec 6)
  /-- BARW, R162: Waits for the phase of the group's pending arrival at split barrier K to complete, then acquires. -/
  | barw (e : Scope) (k : BitVec 4)
  /-- GBAR, R164: Barrier of the blocks of the issuer's gang. -/
  | gbar
  /-- GRDBAR, R164: Barrier of every block of a co-resident grid. -/
  | grdbar
  /-- SSTEP_CLUSTER, R134: Cluster-wide superstep barrier of the issuer's cluster unit. -/
  | sstepCluster
  /-- SSTEP_DIE, R134: Die-wide superstep barrier of the issuer's die unit. -/
  | sstepDie
  /-- FORK, R166: Submits a child launch record from scratchpad and suspends the block until the child grid completes. -/
  | fork (a : BitVec 6) (b : RSrc)
  /-- WAIT, R54: Tightens its clause's gating at lane scope, or waits at wide scope until every member's counters drain to the limits. -/
  | wait (e : Scope) (lim : WaitLim)
  /-- YIELD, R159: Gives the other issuers of the group a turn and places the group after its world's other groups. -/
  | yield
  /-- TRAP, R160: Raises the terminal fault SOFT_TRAP with its immediate as code. -/
  | trap (e : Scope) (code : BitVec 16)
  /-- LOOP, R154: Decrements a counter register and branches while it is nonzero. -/
  | loop (a : BitVec 6) (t : BitVec 16)
  /-- HINT, R69: CTL opcodes 0x38 to 0x3F execute as nop at lane scope whatever their fields hold. -/
  | hint (o : BitVec 3) (e : Scope) (a : Byte) (b : Byte) (c : Byte)
  /-- RDSR, R167: Writes a sampled half of a special register into a vector register of each active lane. -/
  | rdsr (e : Scope) (a : VDst) (r : SReg) (hi : Bool)
  /-- RDSU, R167: Writes a sampled half of a special register, zero-extended, into a uniform register. -/
  | rdsu (e : Scope) (a : BitVec 6) (r : SReg) (hi : Bool)
  /-- OPREQ, R170: Requests a step for the die's crown domain and returns the clamped result word. -/
  | opreq (e : Scope) (a : BitVec 6) (n : BitVec 7)
  /-- MTRQ, R171: Requests a signed meter reading of the world into a checked region and returns a request number. -/
  | mtrq (e : Scope) (a : RSrc) (b : BitVec 6)
  /-- MSAMP, R172: Sets the group's meter sample period and sample ring channel. -/
  | msamp (e : Scope) (a : RSrc) (c : BitVec 6)
  /-- RPUSH, R173: Pushes a label on the group's label stack, or counts an overflow. -/
  | rpush (e : Scope) (label : BitVec 16)
  /-- RPOP, R173: Lowers the overflow count or pops a label. -/
  | rpop (e : Scope)
  /-- TRMARK, R174: Appends a marker record to the trace when capture is active for the group. -/
  | trmark (e : Scope) (v : BitVec 16)
  /-- BKPT, R175: Stops the context as a debug stop when breakpoint n is enabled. -/
  | bkpt (e : Scope) (n : BitVec 8)
  /-- CHKPT, R175: Ends the current interval of a replayable context after enough instructions have retired. -/
  | chkpt (e : Scope)
  /-- DBGSTOP, R175: Stops the context as a debug stop when self-stop is enabled. -/
  | dbgstop (e : Scope)
  /-- TRCTL_START, R174: Starts the context's capture when self-control is permitted. -/
  | trctlStart (e : Scope)
  /-- TRCTL_STOP, R174: Stops the context's capture when self-control is permitted. -/
  | trctlStop (e : Scope)
  /-- TRCTL_FREEZE, R174: Freezes the context's capture when self-control is permitted. -/
  | trctlFreeze (e : Scope)
  /-- TRCTL_THAW, R174: Thaws the context's capture when self-control is permitted. -/
  | trctlThaw (e : Scope)
  /-- PLWR, R67: Writes a place table entry of a suspended context. -/
  | plwr (a : RSrc) (b : RSrc) (c : RSrc)
  /-- QTWR, R278: Writes a quantum table entry of a function, used from the next slice boundary. -/
  | qtwr (a : RSrc) (b : RSrc) (c : RSrc)
  /-- LIMWR, R124: Writes a partition's PMLIM. -/
  | limwr (a : RSrc) (b : RSrc) (c : RSrc)
  /-- WTWR, R176: Writes one weight table entry of a die. -/
  | wtwr (a : RSrc) (b : RSrc) (c : RSrc)
  /-- SRWR, R169: Writes a half of one of the group's VIEW registers and its shadow. -/
  | srwr (e : Scope) (v : BitVec 2) (hi : Bool) (a : RSrc)
  /-- SADD_B64, R181: Uniform 64-bit add. -/
  | saddB64 (e : Scope) (a : BitVec 6) (b : RSrc) (c : RSrc)
  /-- SSUB_B64, R181: Uniform 64-bit subtract. -/
  | ssubB64 (e : Scope) (a : BitVec 6) (b : RSrc) (c : RSrc)
  /-- SMUL_B64, R181: Uniform 64-bit multiply, low half. -/
  | smulB64 (e : Scope) (a : BitVec 6) (b : RSrc) (c : RSrc)
  /-- SMULH_S64, R181: Uniform signed multiply, high half. -/
  | smulhS64 (e : Scope) (a : BitVec 6) (b : RSrc) (c : RSrc)
  /-- SMULH_N64, R181: Uniform unsigned multiply, high half. -/
  | smulhN64 (e : Scope) (a : BitVec 6) (b : RSrc) (c : RSrc)
  /-- SADDI_B64, R181: Adds a sign-extended immediate to a uniform register. -/
  | saddiB64 (e : Scope) (a : BitVec 6) (i : BitVec 16)
  /-- SMOVI_B64, R181: Moves a sign-extended immediate into a uniform register. -/
  | smoviB64 (e : Scope) (a : BitVec 6) (i : BitVec 16)
  /-- SMOVL_B64, R181: Moves a 32-bit literal into a uniform register by selector. -/
  | smovlB64 (e : Scope) (a : BitVec 6) (sel : BitVec 2) (lit : Word)
  /-- SAND_B64, R181: Uniform bitwise and. -/
  | sandB64 (e : Scope) (a : BitVec 6) (b : RSrc) (c : RSrc)
  /-- SOR_B64, R181: Uniform bitwise or. -/
  | sorB64 (e : Scope) (a : BitVec 6) (b : RSrc) (c : RSrc)
  /-- SXOR_B64, R181: Uniform bitwise exclusive or. -/
  | sxorB64 (e : Scope) (a : BitVec 6) (b : RSrc) (c : RSrc)
  /-- SNOT_B64, R181: Uniform bitwise not. -/
  | snotB64 (e : Scope) (a : BitVec 6) (b : RSrc)
  /-- SSHL_B64, R181: Uniform shift left. -/
  | sshlB64 (e : Scope) (a : BitVec 6) (b : RSrc) (c : RSrc)
  /-- SSHR_N64, R181: Uniform logical shift right. -/
  | sshrN64 (e : Scope) (a : BitVec 6) (b : RSrc) (c : RSrc)
  /-- SSHR_S64, R181: Uniform arithmetic shift right. -/
  | sshrS64 (e : Scope) (a : BitVec 6) (b : RSrc) (c : RSrc)
  /-- SMOV_B64, R181: Uniform register move. -/
  | smovB64 (e : Scope) (a : BitVec 6) (b : RSrc)
  /-- SMIN_S64, R181: Uniform signed minimum. -/
  | sminS64 (e : Scope) (a : BitVec 6) (b : RSrc) (c : RSrc)
  /-- SMIN_N64, R181: Uniform unsigned minimum. -/
  | sminN64 (e : Scope) (a : BitVec 6) (b : RSrc) (c : RSrc)
  /-- SMAX_S64, R181: Uniform signed maximum. -/
  | smaxS64 (e : Scope) (a : BitVec 6) (b : RSrc) (c : RSrc)
  /-- SMAX_N64, R181: Uniform unsigned maximum. -/
  | smaxN64 (e : Scope) (a : BitVec 6) (b : RSrc) (c : RSrc)
  /-- SCLZ_B64, R181: Counts the leading zero bits of a uniform register. -/
  | sclzB64 (e : Scope) (a : BitVec 6) (b : RSrc)
  /-- SPOPC_B64, R181: Counts the set bits of a uniform register. -/
  | spopcB64 (e : Scope) (a : BitVec 6) (b : RSrc)
  /-- SEXT_S32, R181: Sign-extends the low 32 bits to 64. -/
  | sextS32 (e : Scope) (a : BitVec 6) (b : RSrc)
  /-- SEXT_N32, R181: Zero-extends the low 32 bits to 64. -/
  | sextN32 (e : Scope) (a : BitVec 6) (b : RSrc)
  /-- SCEQ_B64, R182: Writes a uniform predicate with the equality of two uniform registers. -/
  | sceqB64 (e : Scope) (a : BitVec 3) (b : RSrc) (c : RSrc)
  /-- SCNE_B64, R182: Writes a uniform predicate with the inequality of two uniform registers. -/
  | scneB64 (e : Scope) (a : BitVec 3) (b : RSrc) (c : RSrc)
  /-- SCLT_S64, R182: Uniform signed less-than compare into a q predicate. -/
  | scltS64 (e : Scope) (a : BitVec 3) (b : RSrc) (c : RSrc)
  /-- SCLT_N64, R182: Uniform unsigned less-than compare into a q predicate. -/
  | scltN64 (e : Scope) (a : BitVec 3) (b : RSrc) (c : RSrc)
  /-- SCLE_S64, R182: Uniform signed less-or-equal compare into a q predicate. -/
  | scleS64 (e : Scope) (a : BitVec 3) (b : RSrc) (c : RSrc)
  /-- SCLE_N64, R182: Uniform unsigned less-or-equal compare into a q predicate. -/
  | scleN64 (e : Scope) (a : BitVec 3) (b : RSrc) (c : RSrc)
  /-- SSEL_B64, R183: Selects one of two uniform registers by a q predicate. -/
  | sselB64 (e : Scope) (a : BitVec 6) (b : RSrc) (c : RSrc) (d : Pred)
  /-- QAND, R182: Uniform predicate and. -/
  | qand (e : Scope) (a : BitVec 3) (b : Pred) (c : Pred)
  /-- QOR, R182: Uniform predicate or. -/
  | qor (e : Scope) (a : BitVec 3) (b : Pred) (c : Pred)
  /-- QXOR, R182: Uniform predicate exclusive or. -/
  | qxor (e : Scope) (a : BitVec 3) (b : Pred) (c : Pred)
  /-- QNOT, R182: Uniform predicate not. -/
  | qnot (e : Scope) (a : BitVec 3) (b : Pred)
  /-- VADD_B32, R181: Lane-wise 32-bit add. -/
  | vaddB32 (e : Scope) (a : VDst) (b : VSrc) (c : VSrc)
  /-- VSUB_B32, R181: Lane-wise 32-bit subtract. -/
  | vsubB32 (e : Scope) (a : VDst) (b : VSrc) (c : VSrc)
  /-- VMUL_B32, R181: Lane-wise 32-bit multiply, low half. -/
  | vmulB32 (e : Scope) (a : VDst) (b : VSrc) (c : VSrc)
  /-- VMULH_S32, R181: Lane-wise signed multiply, high half. -/
  | vmulhS32 (e : Scope) (a : VDst) (b : VSrc) (c : VSrc)
  /-- VMULH_N32, R181: Lane-wise unsigned multiply, high half. -/
  | vmulhN32 (e : Scope) (a : VDst) (b : VSrc) (c : VSrc)
  /-- VADDI_B32, R181: Adds a sign-extended immediate to a vector register. -/
  | vaddiB32 (e : Scope) (a : BitVec 6) (i : BitVec 16)
  /-- VMOVI_B32, R181: Moves a sign-extended immediate into a vector register. -/
  | vmoviB32 (e : Scope) (a : VDst) (i : BitVec 16)
  /-- VMOVL_B32, R181: Moves a 32-bit literal into a vector register. -/
  | vmovlB32 (e : Scope) (a : VDst) (lit : Word)
  /-- VADDS_S32, R181: Lane-wise signed saturating add. -/
  | vaddsS32 (e : Scope) (a : VDst) (b : VSrc) (c : VSrc)
  /-- VADDS_N32, R181: Lane-wise unsigned saturating add. -/
  | vaddsN32 (e : Scope) (a : VDst) (b : VSrc) (c : VSrc)
  /-- VSUBS_S32, R181: Lane-wise signed saturating subtract. -/
  | vsubsS32 (e : Scope) (a : VDst) (b : VSrc) (c : VSrc)
  /-- VSUBS_N32, R181: Lane-wise unsigned saturating subtract. -/
  | vsubsN32 (e : Scope) (a : VDst) (b : VSrc) (c : VSrc)
  /-- VMIN_S32, R181: Lane-wise signed minimum. -/
  | vminS32 (e : Scope) (a : VDst) (b : VSrc) (c : VSrc)
  /-- VMIN_N32, R181: Lane-wise unsigned minimum. -/
  | vminN32 (e : Scope) (a : VDst) (b : VSrc) (c : VSrc)
  /-- VMAX_S32, R181: Lane-wise signed maximum. -/
  | vmaxS32 (e : Scope) (a : VDst) (b : VSrc) (c : VSrc)
  /-- VMAX_N32, R181: Lane-wise unsigned maximum. -/
  | vmaxN32 (e : Scope) (a : VDst) (b : VSrc) (c : VSrc)
  /-- VAND_B32, R181: Lane-wise bitwise and. -/
  | vandB32 (e : Scope) (a : VDst) (b : VSrc) (c : VSrc)
  /-- VOR_B32, R181: Lane-wise bitwise or. -/
  | vorB32 (e : Scope) (a : VDst) (b : VSrc) (c : VSrc)
  /-- VXOR_B32, R181: Lane-wise bitwise exclusive or. -/
  | vxorB32 (e : Scope) (a : VDst) (b : VSrc) (c : VSrc)
  /-- VNOT_B32, R181: Lane-wise bitwise not. -/
  | vnotB32 (e : Scope) (a : VDst) (b : VSrc)
  /-- VSHL_B32, R181: Lane-wise shift left. -/
  | vshlB32 (e : Scope) (a : VDst) (b : VSrc) (c : VSrc)
  /-- VSHR_N32, R181: Lane-wise logical shift right. -/
  | vshrN32 (e : Scope) (a : VDst) (b : VSrc) (c : VSrc)
  /-- VSHR_S32, R181: Lane-wise arithmetic shift right. -/
  | vshrS32 (e : Scope) (a : VDst) (b : VSrc) (c : VSrc)
  /-- VMOV_B32, R181: Lane-wise register move. -/
  | vmovB32 (e : Scope) (a : VDst) (b : VSrc)
  /-- VABS_S32, R181: Lane-wise absolute value. -/
  | vabsS32 (e : Scope) (a : VDst) (b : VSrc)
  /-- VNEG_S32, R181: Lane-wise negation. -/
  | vnegS32 (e : Scope) (a : VDst) (b : VSrc)
  /-- VPOPC_B32, R181: Lane-wise count of set bits. -/
  | vpopcB32 (e : Scope) (a : VDst) (b : VSrc)
  /-- VCLZ_B32, R181: Lane-wise count of leading zero bits. -/
  | vclzB32 (e : Scope) (a : VDst) (b : VSrc)
  /-- VBREV_B32, R181: Lane-wise bit reversal. -/
  | vbrevB32 (e : Scope) (a : VDst) (b : VSrc)
  /-- VBFX_N32, R184: Lane-wise unsigned bit field extract. -/
  | vbfxN32 (e : Scope) (a : VDst) (b : VSrc) (c : VSrc) (len : BitVec 6)
  /-- VBFX_S32, R184: Lane-wise signed bit field extract. -/
  | vbfxS32 (e : Scope) (a : VDst) (b : VSrc) (c : VSrc) (len : BitVec 6)
  /-- VBFI_B32, R184: Lane-wise bit field insert. -/
  | vbfiB32 (e : Scope) (a : BitVec 6) (b : VSrc) (c : VSrc) (len : BitVec 6)
  /-- VCEQ_B32, R182: Lane-wise equality compare into a p predicate. -/
  | vceqB32 (e : Scope) (a : BitVec 3) (b : VSrc) (c : VSrc)
  /-- VCNE_B32, R182: Lane-wise inequality compare into a p predicate. -/
  | vcneB32 (e : Scope) (a : BitVec 3) (b : VSrc) (c : VSrc)
  /-- VCLT_S32, R182: Lane-wise signed less-than compare. -/
  | vcltS32 (e : Scope) (a : BitVec 3) (b : VSrc) (c : VSrc)
  /-- VCLT_N32, R182: Lane-wise unsigned less-than compare. -/
  | vcltN32 (e : Scope) (a : BitVec 3) (b : VSrc) (c : VSrc)
  /-- VCLE_S32, R182: Lane-wise signed less-or-equal compare. -/
  | vcleS32 (e : Scope) (a : BitVec 3) (b : VSrc) (c : VSrc)
  /-- VCLE_N32, R182: Lane-wise unsigned less-or-equal compare. -/
  | vcleN32 (e : Scope) (a : BitVec 3) (b : VSrc) (c : VSrc)
  /-- VSEL_B32, R183: Lane-wise select by a p predicate. -/
  | vselB32 (e : Scope) (a : VDst) (b : VSrc) (c : VSrc) (d : Pred)
  /-- VEXT, R185: Packs or unpacks narrow integer elements, or converts between 32-bit integer formats. -/
  | vext (e : Scope) (ty : Ty) (st : Ty) (a : VDst) (b : VSrc) (i : BitVec 8)
  /-- PAND, R182: Lane-wise predicate and. -/
  | pand (e : Scope) (a : BitVec 3) (b : Pred) (c : Pred)
  /-- POR, R182: Lane-wise predicate or. -/
  | por (e : Scope) (a : BitVec 3) (b : Pred) (c : Pred)
  /-- PXOR, R182: Lane-wise predicate exclusive or. -/
  | pxor (e : Scope) (a : BitVec 3) (b : Pred) (c : Pred)
  /-- PNOT, R182: Lane-wise predicate not. -/
  | pnot (e : Scope) (a : BitVec 3) (b : Pred)
  /-- VBCAST, R186: Broadcasts the low 32 bits of a uniform register to a vector register. -/
  | vbcast (e : Scope) (a : VDst) (b : RSrc)
  /-- VFIRST, R187: Writes the value of the lowest active element into a uniform register. -/
  | vfirst (e : Scope) (a : BitVec 6) (b : VSrc)
  /-- VLANE, R187: Writes the value of a chosen active element into a uniform register, or 0. -/
  | vlane (e : Scope) (a : BitVec 6) (b : VSrc) (c : RSrc)
  /-- VVOTE, R188: Writes each group's mask of active lanes whose predicate is true. -/
  | vvote (e : Scope) (a : BitVec 6) (b : Pred)
  /-- VSHFL_B32, R189: Cross-lane shuffle by an index per element. -/
  | vshflB32 (e : Scope) (a : VDst) (b : VSrc) (c : VSrc)
  /-- VRSUM_B32, R190: Integer sum reduction over the active set. -/
  | vrsumB32 (e : Scope) (a : VDst) (b : VSrc)
  /-- VRMIN_S32, R190: Signed minimum reduction over the active set. -/
  | vrminS32 (e : Scope) (a : VDst) (b : VSrc)
  /-- VRMIN_N32, R190: Unsigned minimum reduction over the active set. -/
  | vrminN32 (e : Scope) (a : VDst) (b : VSrc)
  /-- VRMAX_S32, R190: Signed maximum reduction over the active set. -/
  | vrmaxS32 (e : Scope) (a : VDst) (b : VSrc)
  /-- VRMAX_N32, R190: Unsigned maximum reduction over the active set. -/
  | vrmaxN32 (e : Scope) (a : VDst) (b : VSrc)
  /-- VSCAN_B32, R190: Inclusive prefix sum over the active set. -/
  | vscanB32 (e : Scope) (a : VDst) (b : VSrc)
  /-- VROTL_B32, R181: Lane-wise rotate left. -/
  | vrotlB32 (e : Scope) (a : VDst) (b : VSrc) (c : VSrc)
  /-- FADD, R237: FP32 add rounded to nearest, short form. -/
  | fadd (e : Scope) (a : VDst) (b : VSrc) (c : VSrc)
  /-- FADD_X, R237: Floating-point add with type and rounding mode from the modifier word. -/
  | faddX (e : Scope) (ty : Ty) (m : Rnd) (a : VDst) (b : VSrc) (c : VSrc)
  /-- FSUB, R237: FP32 subtract rounded to nearest, short form. -/
  | fsub (e : Scope) (a : VDst) (b : VSrc) (c : VSrc)
  /-- FSUB_X, R237: Floating-point subtract with type and mode from the modifier word. -/
  | fsubX (e : Scope) (ty : Ty) (m : Rnd) (a : VDst) (b : VSrc) (c : VSrc)
  /-- FMUL, R237: FP32 multiply rounded to nearest, short form. -/
  | fmul (e : Scope) (a : VDst) (b : VSrc) (c : VSrc)
  /-- FMUL_X, R237: Floating-point multiply with type and mode from the modifier word. -/
  | fmulX (e : Scope) (ty : Ty) (m : Rnd) (a : VDst) (b : VSrc) (c : VSrc)
  /-- FFMA, R237: FP32 fused multiply-add with the addend in A, short form. -/
  | ffma (e : Scope) (a : BitVec 6) (b : VSrc) (c : VSrc)
  /-- FFMA_X, R237: Fused multiply-add with the addend in D and type and mode from the modifier word. -/
  | ffmaX (e : Scope) (ty : Ty) (m : Rnd) (a : VDst) (b : VSrc) (c : VSrc) (d : VSrc)
  /-- FDIV, R237: FP32 divide rounded to nearest, short form. -/
  | fdiv (e : Scope) (a : VDst) (b : VSrc) (c : VSrc)
  /-- FDIV_X, R237: Floating-point divide with type and mode from the modifier word. -/
  | fdivX (e : Scope) (ty : Ty) (m : Rnd) (a : VDst) (b : VSrc) (c : VSrc)
  /-- FSQRT, R237: FP32 square root rounded to nearest, short form. -/
  | fsqrt (e : Scope) (a : VDst) (b : VSrc)
  /-- FSQRT_X, R237: Floating-point square root with type and mode from the modifier word. -/
  | fsqrtX (e : Scope) (ty : Ty) (m : Rnd) (a : VDst) (b : VSrc)
  /-- FMIN, R239: FP32 minimum under R82. -/
  | fmin (e : Scope) (a : VDst) (b : VSrc) (c : VSrc)
  /-- FMAX, R239: FP32 maximum under R82. -/
  | fmax (e : Scope) (a : VDst) (b : VSrc) (c : VSrc)
  /-- FABS, R239: Clears the sign bit. -/
  | fabs (e : Scope) (a : VDst) (b : VSrc)
  /-- FNEG, R239: Inverts the sign bit. -/
  | fneg (e : Scope) (a : VDst) (b : VSrc)
  /-- FCEQ, R239: FP32 equality compare into a p predicate. -/
  | fceq (e : Scope) (a : BitVec 3) (b : VSrc) (c : VSrc)
  /-- FCLT, R239: FP32 less-than compare into a p predicate. -/
  | fclt (e : Scope) (a : BitVec 3) (b : VSrc) (c : VSrc)
  /-- FCLE, R239: FP32 less-or-equal compare into a p predicate. -/
  | fcle (e : Scope) (a : BitVec 3) (b : VSrc) (c : VSrc)
  /-- FCUN, R239: FP32 unordered compare into a p predicate. -/
  | fcun (e : Scope) (a : BitVec 3) (b : VSrc) (c : VSrc)
  /-- FCVT, R240: Converts between numeric formats, with element selection and packing. -/
  | fcvt (e : Scope) (ty : Ty) (st : Ty) (m : Rnd) (a : VDst) (b : VSrc) (i : BitVec 8) (j : BitVec 8)
  /-- FSCL, R241: Scales an FP32 value by 2^k, rounded to nearest, short form. -/
  | fscl (e : Scope) (a : VDst) (b : VSrc) (c : VSrc)
  /-- FSCL_X, R241: Scales an FP32 value by 2^k under the mode of the modifier word. -/
  | fsclX (e : Scope) (m : Rnd) (a : VDst) (b : VSrc) (c : VSrc)
  /-- PDOT4, R242: Exact dot product of four packed 8-bit elements plus an addend, rounded once. -/
  | pdot4 (e : Scope) (ty : Ty) (st : Ty) (m : Rnd) (a : VDst) (b : VSrc) (c : VSrc) (d : VSrc)
  /-- PDOT8, R242: Exact dot product of eight packed 4-bit elements plus an addend, rounded once. -/
  | pdot8 (e : Scope) (ty : Ty) (st : Ty) (m : Rnd) (a : VDst) (b : VSrc) (c : VSrc) (d : VSrc)
  /-- HADD2, R243: Packed add of two 16-bit elements. -/
  | hadd2 (e : Scope) (ty : Ty) (m : Rnd) (a : VDst) (b : VSrc) (c : VSrc)
  /-- HMUL2, R243: Packed multiply of two 16-bit elements. -/
  | hmul2 (e : Scope) (ty : Ty) (m : Rnd) (a : VDst) (b : VSrc) (c : VSrc)
  /-- HFMA2, R243: Packed fused multiply-add of two 16-bit elements. -/
  | hfma2 (e : Scope) (ty : Ty) (m : Rnd) (a : VDst) (b : VSrc) (c : VSrc) (d : VSrc)
  /-- FRED, R244: Floating-point add, min or max reduction over the active set in a fixed tree. -/
  | fred (e : Scope) (m : Rnd) (a : VDst) (b : VSrc) (op : BitVec 2)
  /-- CFADD, R245: Adds an FP32 value to a CF32 pair with CfAdd. -/
  | cfadd (e : Scope) (a : BitVec 6) (b : RSrc) (c : VSrc)
  /-- CFRED, R245: Reduces CF32 pairs over the active set with CfMerge. -/
  | cfred (e : Scope) (a : BitVec 6) (b : RSrc)
  /-- CFNORM, R245: Rounds a CF32 sum and compensation to FP32 under round to nearest. -/
  | cfnorm (e : Scope) (a : VDst) (b : VSrc) (c : VSrc)
  /-- CFNORM_X, R245: Rounds a CF32 sum and compensation into the type and mode of the modifier word. -/
  | cfnormX (e : Scope) (ty : Ty) (m : Rnd) (a : VDst) (b : VSrc) (c : VSrc)
  /-- LD_S8, R208: Loads a sign-extended byte through a capability. -/
  | ldS8 (e : Scope) (a : BitVec 6) (b : RSrc) (c : VSrc)
  /-- LD_N8, R208: Loads a zero-extended byte through a capability. -/
  | ldN8 (e : Scope) (a : BitVec 6) (b : RSrc) (c : VSrc)
  /-- LD_S16, R208: Loads a sign-extended half-word through a capability. -/
  | ldS16 (e : Scope) (a : BitVec 6) (b : RSrc) (c : VSrc)
  /-- LD_N16, R208: Loads a zero-extended half-word through a capability. -/
  | ldN16 (e : Scope) (a : BitVec 6) (b : RSrc) (c : VSrc)
  /-- LD_B32, R208: Loads a word through a capability. -/
  | ldB32 (e : Scope) (a : BitVec 6) (b : RSrc) (c : VSrc)
  /-- LD_B64, R208: Loads 8 bytes into a register pair through a capability. -/
  | ldB64 (e : Scope) (a : BitVec 6) (b : RSrc) (c : VSrc)
  /-- LD_B128, R208: Loads 16 bytes into a quad with its tag clear. -/
  | ldB128 (e : Scope) (a : BitVec 6) (b : RSrc) (c : VSrc)
  /-- LDC, R210: Loads a capability with its tag, masked by LC and the stale check. -/
  | ldc (e : Scope) (a : BitVec 6) (b : RSrc) (c : VSrc)
  /-- ST_B8, R209: Stores a byte through a capability. -/
  | stB8 (e : Scope) (a : VSrc) (b : RSrc) (c : VSrc)
  /-- ST_B16, R209: Stores a half-word through a capability. -/
  | stB16 (e : Scope) (a : VSrc) (b : RSrc) (c : VSrc)
  /-- ST_B32, R209: Stores a word through a capability. -/
  | stB32 (e : Scope) (a : VSrc) (b : RSrc) (c : VSrc)
  /-- ST_B64, R209: Stores a register pair through a capability. -/
  | stB64 (e : Scope) (a : RSrc) (b : RSrc) (c : VSrc)
  /-- ST_B128, R209: Stores a quad through a capability, clearing the granule's tag. -/
  | stB128 (e : Scope) (a : RSrc) (b : RSrc) (c : VSrc)
  /-- STC, R210: Stores a capability with its tag, subject to SC, GLB and the stale check. -/
  | stc (e : Scope) (a : RSrc) (b : RSrc) (c : VSrc)
  /-- WLD_B32, R211: Reads a word from the die's weight window. -/
  | wldB32 (e : Scope) (a : BitVec 6) (b : VSrc) (c : VSrc)
  /-- WLD_B128, R211: Reads 16 bytes from the die's weight window into a quad. -/
  | wldB128 (e : Scope) (a : BitVec 6) (b : VSrc) (c : VSrc)
  /-- LDS_B32, R212: Loads a word from the block's scratchpad. -/
  | ldsB32 (e : Scope) (a : BitVec 6) (b : VSrc)
  /-- LDS_B64, R212: Loads 8 bytes from scratchpad into a pair. -/
  | ldsB64 (e : Scope) (a : BitVec 6) (b : VSrc)
  /-- LDS_B128, R212: Loads a granule from scratchpad into a quad with its tag. -/
  | ldsB128 (e : Scope) (a : BitVec 6) (b : VSrc)
  /-- STS_B32, R212: Stores a word to scratchpad. -/
  | stsB32 (e : Scope) (a : VSrc) (b : VSrc)
  /-- STS_B64, R212: Stores a pair to scratchpad. -/
  | stsB64 (e : Scope) (a : RSrc) (b : VSrc)
  /-- STS_B128, R212: Stores a quad to scratchpad with its tag. -/
  | stsB128 (e : Scope) (a : RSrc) (b : VSrc)
  /-- PUT, R213: Copies bytes from the local scratchpad to another block's scratchpad through a window address. -/
  | put (e : Scope) (a : VSrc) (b : VSrc) (c : VSrc)
  /-- GET, R213: Copies bytes from another block's scratchpad into the local scratchpad through a window address. -/
  | get (e : Scope) (a : VSrc) (b : VSrc) (c : VSrc)
  /-- AADD, R214: Atomic add returning the old value. -/
  | aadd (e : Scope) (ty : Ty) (o : AOrd) (a : BitVec 6) (b : RSrc) (c : VSrc) (d : VSrc)
  /-- AMIN, R214: Atomic minimum returning the old value. -/
  | amin (e : Scope) (ty : Ty) (o : AOrd) (a : BitVec 6) (b : RSrc) (c : VSrc) (d : VSrc)
  /-- AMAX, R214: Atomic maximum returning the old value. -/
  | amax (e : Scope) (ty : Ty) (o : AOrd) (a : BitVec 6) (b : RSrc) (c : VSrc) (d : VSrc)
  /-- AAND, R214: Atomic and returning the old value. -/
  | aand (e : Scope) (ty : Ty) (o : AOrd) (a : BitVec 6) (b : RSrc) (c : VSrc) (d : VSrc)
  /-- AOR, R214: Atomic or returning the old value. -/
  | aor (e : Scope) (ty : Ty) (o : AOrd) (a : BitVec 6) (b : RSrc) (c : VSrc) (d : VSrc)
  /-- AXOR, R214: Atomic exclusive or returning the old value. -/
  | axor (e : Scope) (ty : Ty) (o : AOrd) (a : BitVec 6) (b : RSrc) (c : VSrc) (d : VSrc)
  /-- AXCHG, R214: Atomic exchange returning the old value. -/
  | axchg (e : Scope) (ty : Ty) (o : AOrd) (a : BitVec 6) (b : RSrc) (c : VSrc) (d : VSrc)
  /-- ACAS, R214: Atomic compare and swap, writing the word in both outcomes. -/
  | acas (e : Scope) (ty : Ty) (o : AOrd) (a : BitVec 6) (b : RSrc) (c : VSrc) (d : VSrc)
  /-- ACQUIRE, R216: Acquire: invalidates unowned L1 words. -/
  | acquire (e : Scope)
  /-- RELEASE, R216: Release: waits until earlier stores have registered and write-combining lines have drained. -/
  | release (e : Scope)
  /-- FENCE, R216: Release followed by acquire. -/
  | fence (e : Scope)
  /-- CBND, R217: Derives a capability with narrowed bounds. -/
  | cbnd (e : Scope) (a : BitVec 6) (b : RSrc) (c : RSrc)
  /-- CPERM, R217: Masks a capability's permissions with an immediate. -/
  | cperm (e : Scope) (a : BitVec 6) (i : BitVec 12)
  /-- CADD, R217: Adds a signed value to a capability's cursor. -/
  | cadd (e : Scope) (a : BitVec 6) (b : RSrc) (c : RSrc)
  /-- CSET, R217: Sets a capability's cursor. -/
  | cset (e : Scope) (a : BitVec 6) (b : RSrc) (c : RSrc)
  /-- CSEAL, R217: Sets a capability's cursor and seals it. -/
  | cseal (e : Scope) (a : BitVec 6) (b : RSrc) (c : RSrc)
  /-- CMOV, R218: Copies a quad with its tag. -/
  | cmov (e : Scope) (a : BitVec 6) (b : RSrc)
  /-- CGET, R219: Reads a 32-bit field of a capability. -/
  | cget (e : Scope) (a : VDst) (b : RSrc) (sel : BitVec 3)
  /-- CTAG, R220: Tests a quad's tag, form and rights into a p predicate. -/
  | ctag (e : Scope) (a : BitVec 3) (b : RSrc) (c : VSrc)
  /-- CBCAST, R218: Copies a uniform capability pair with its tag to a quad of each active lane. -/
  | cbcast (e : Scope) (a : BitVec 6) (b : RSrc)
  /-- CHBIND, R221: Binds a channel to a ring endpoint and initialises its control granule. -/
  | chbind (e : Scope) (ch : BitVec 6) (b : RSrc) (c : RSrc)
  /-- CHFREE, R225: Unbinds a channel and returns the number of elements discarded. -/
  | chfree (e : Scope) (a : BitVec 6) (ch : BitVec 6)
  /-- CHSTAT, R225: Returns a channel's status word. -/
  | chstat (e : Scope) (a : BitVec 6) (ch : BitVec 6)
  /-- SPANQ, R226: Returns the span status word of the span holding a checked offset. -/
  | spanq (e : Scope) (a : BitVec 6) (b : RSrc) (c : VSrc)
  /-- CPY, R227: Starts a copy engine transfer between two memory objects. -/
  | cpy (e : Scope) (a : RSrc) (b : RSrc) (c : VSrc) (d : VSrc)
  /-- CPYS_IN, R228: Starts a copy from a memory object into the block's scratchpad. -/
  | cpysIn (e : Scope) (a : VSrc) (b : RSrc) (c : VSrc) (d : VSrc)
  /-- CPYS_OUT, R228: Starts a copy from the block's scratchpad into a memory object. -/
  | cpysOut (e : Scope) (a : VSrc) (b : RSrc) (c : VSrc) (d : VSrc)
  /-- MCAST, R229: Starts a fill of the scratchpads of selected gang blocks from one memory source. -/
  | mcast (e : Scope) (a : VSrc) (b : RSrc) (c : VSrc) (d : VSrc)
  /-- CPYQ, R232: Reports whether no copy of the lane with a given ticket is outstanding. -/
  | cpyq (e : Scope) (a : VDst) (b : VSrc)
  /-- OCLAIM, R250: Claims operand slots and accumulator tiles for the block. -/
  | oclaim (e : Scope) (a : RSrc) (b : RSrc)
  /-- OREL, R250: Releases slots and tiles once no queued or running operation names them. -/
  | orel (e : Scope) (a : RSrc) (b : RSrc)
  /-- OLOAD, R252: Fills an operand slot with 128 self-describing blocks from memory or scratchpad. -/
  | oload (e : Scope) (o : BitVec 5) (b : RSrc) (c : RSrc) (src : Bool)
  /-- MFENCE, R257: Orders earlier register and scratchpad writes before later matrix reads. -/
  | mfence (e : Scope)
  /-- MPAIR, R254: Queues a paired matrix operation on the leader and follower cores. -/
  | mpair (e : Scope) (ty : Ty) (st : Ty) (a : RSrc) (b : RSrc) (place : BitVec 8) (acc : Bool)
  /-- ACCRD, R259: Queues a read of tile elements into registers through a view. -/
  | accrd (e : Scope) (ty : Ty) (m : Rnd) (v : BitVec 2) (tile : BitVec 4) (c : RSrc)
  /-- ACCWR, R260: Queues a write of tile elements from registers through a view. -/
  | accwr (e : Scope) (ty : Ty) (tile : BitVec 4) (v : BitVec 2) (c : RSrc)
  /-- ACCCLR, R260: Queues a clear of a tile at an expected version. -/
  | accclr (e : Scope) (tile : BitVec 4) (ver : BitVec 16)
  /-- ACCWT, R261: Waits until a tile's version has reached a given value. -/
  | accwt (e : Scope) (tile : BitVec 4) (ver : BitVec 16)
  /-- ACCVER, R261: Reads a tile's version into a uniform register. -/
  | accver (e : Scope) (a : BitVec 6) (tile : BitVec 4)
  /-- SCLW_SET, R262: Sets a scale register to a clamped value. -/
  | sclwSet (e : Scope) (m : BitVec 3) (b : RSrc)
  /-- SCLW_ADD, R262: Adds a value to a scale register, clamped. -/
  | sclwAdd (e : Scope) (m : BitVec 3) (b : RSrc)
  /-- SCLR, R262: Reads a scale register, sign-extended, into a uniform register. -/
  | sclr (e : Scope) (a : BitVec 6) (m : BitVec 3)
  /-- CLAUSE_ISSUE, R53: A clause is fetched whole and issues for an issuer once its header gating, its room check and its symbol-table room allow. -/
  | clauseIssue (core : Nat)
  /-- RCV_HOLD_TIMEOUT, R26: An RCV hold ends once 256 core cycles have passed since it began. -/
  | rcvHoldTimeout (g : GRef)
  /-- TIMING_ERROR_REPLAY, R296: A timing error caught before the commit gate replays the instruction onwards within its clause, with its writes suppressed and its charge taken as partition overhead. -/
  | timingErrorReplay (r : IRef)
  /-- BLOCK_EXIT, R158: Once its last group has ended and every counter and matrix operation has drained, a block releases its slots, tiles, scratchpad and channel bindings. -/
  | blockExit (b : Nat)
  /-- CHILD_GRID_COMPLETE, R39: When every block of a child grid has exited, the suspended parent block is resumed with its fork status. -/
  | childGridComplete (grid : Nat)
  /-- MEMORY_REQUEST, R113: A request that has passed CapCheck arrives at the translation unit of the die's memory port and is translated through the object, span and stage-2 tables. -/
  | memoryRequest (op lane : Nat) (cached : Bool)
  /-- STORE_REGISTER, R139: A store's data reaches its line's home, is written there and registers the issuing core as owner of each word, lowering ST. -/
  | storeRegister (op lane : Nat)
  /-- LOSS_NOTICE, R139: A loss notice from a line's home makes the previous owner core mark its L1 copy of the word invalid. -/
  | lossNotice (core word : Nat)
  /-- ATOMIC_PERFORM, R215: An atomic is performed indivisibly at the line's home or the device target after its release part and any write-combining drain, and its old value returns. -/
  | atomicPerform (op word : Nat)
  /-- LOAD_ARRIVAL, R196: The value for a load's symbol arrives and every register lane referring to it is resolved at one instant, lowering LD. -/
  | loadArrival (op k : Nat)
  /-- WC_DRAIN_TIMEOUT, R140: A write-combining buffer line drains 1 µs after its first merge. -/
  | wcDrainTimeout (core line : Nat)
  /-- REFRESH_WINDOW_START, R138: At every REFT multiple of 250 ns a 120 ns refresh window begins on weight-store bank k mod 32 of every die. -/
  | refreshWindowStart
  /-- REFRESH_WINDOW_END, R138: A refresh window ends after 120 ns and the wld reads that it stalled proceed. -/
  | refreshWindowEnd
  /-- WINDOW_TRANSFER_COMPLETE, R133: Every byte of a put or get has landed in the target scratchpad, and the issuer's ST or LD falls. -/
  | windowTransferComplete (op lane : Nat)
  /-- COPY_PART, R231: The copy engine translates and performs one part of a copy, multicast fill or oload, in no defined order among parts. -/
  | copyPart (op lane part : Nat) (cached : Bool)
  /-- COPY_COMPLETE, R227: Once every part of a copy or multicast has been written and registered, its completion is posted and CP falls. -/
  | copyComplete (op lane : Nat)
  /-- OLOAD_COMPLETE, R252: Every block of an oload has been read, the slot is filled and TL falls. -/
  | oloadComplete (op : Nat)
  /-- TILE_OP_START, R253: A queued tile operation whose tiles hold their expected versions, and whose arrays are free, starts in issue order. -/
  | tileOpStart (core : Nat)
  /-- MPAIR_RETIRE, R256: A paired matrix operation retires after 62 clocks, writes both tiles, advances both versions and releases the slaved array. -/
  | mpairRetire (op : Nat)
  /-- TILE_OP_COMPLETE, R253: An accrd, accwr or accclr completes its tile or register writes, advancing the version where it writes a tile, and TL falls. -/
  | tileOpComplete (op : Nat)
  /-- BAR_COMPLETE, R161: A bar completes when its rendezvous has completed and every earlier store of its active lanes has registered. -/
  | barComplete (g : GRef)
  /-- GANG_BARRIER_ARRIVAL, R164: A block arrives at a gbar or grdbar instance once its release is done, and the instance completes when every non-exited member has arrived. -/
  | gangBarrierArrival (b : Nat)
  /-- SSTEP_ARRIVAL, R134: A block arrives at a superstep barrier once its puts, gets and scratchpad stores are performed, and the instance completes when all members have arrived. -/
  | sstepArrival (b : Nat)
  /-- SPAN_MOVE_COMPLETE, R120: A span move finishes copying the span and its tags, and sets REM and HOME in both packages' tables. -/
  | spanMoveComplete (span : SpanRef) (data : SpanLoad) (tags : List Nat)
  /-- SETTLE_EXPIRY, R121: A settled span's 64 ms settled interval runs out and the span may move again. -/
  | settleExpiry (span : SpanRef)
  /-- REVOKE_PROCEED, R117: A revoke held because its new OGEN would equal SWG proceeds once a later-begun sweep has completed. -/
  | revokeProceed (rev : Nat)
  /-- REVOCATION_POINT, R117: Once every request translated under the old generation has been performed, the revocation reports completion and starts or extends a sweep. -/
  | revocationPoint (rev : Nat)
  /-- SWEEP_REGISTER_SCAN, R119: At a clause boundary with no clause of the group in issue, a sweep applies the stale check to all of the group's quads and pairs. -/
  | sweepRegisterScan (g : GRef)
  /-- SWEEP_COMPLETE, R119: A sweep that has visited every tagged granule, scratchpad and register completes and sets each object's SWG. -/
  | sweepComplete (pasid : Nat)
  /-- INVALIDATION_COMPLETE, R115: A translation invalidation completes once every request translated by the old entry has been performed. -/
  | invalidationComplete (inv : Nat)
  /-- FRAME_SCRUB, R328: The device zeroes a queued frame with SCR set, invalidates its cached copies and translations, and reports it free. -/
  | frameScrub (frame : Nat)
  /-- WORLD_END_COMPLETE, R317: Once an ending world's frames have been scrubbed, its key slots are emptied and the world ends. -/
  | worldEndComplete (world : Nat)
  /-- KEYRET_COMPLETE, R319: A retired key slot is emptied once its requests have drained and no HBM line records it. -/
  | keyretComplete (world : Nat)
  /-- PMLIM_APPLY, R124: A written PMLIM takes effect on a core of the partition once no block is resident there. -/
  | pmlimApply (core : Nat)
  /-- WSCOPY_PROCEED, R137: A weight-store copy held while a kernel of the context ran on the die proceeds once none runs there. -/
  | wscopyProceed (id : Nat)
  /-- LAUNCH_RECORD, R266: The Milliner takes a submission entry whose byte 0 is 0x01 as a launch record, checks it and queues it for its context. -/
  | launchRecord (iface : Nat) (rec : BitVec 512)
  /-- BLOCK_PLACEMENT, R273: When a core has room, the Milliner picks the candidate context with the greatest L × WT and places the first ready block with its whole die unit. -/
  | blockPlacement (core : Nat)
  /-- LAUNCH_COMPLETE, R269: Once a launch's whole grid tree has completed and its ticks are corrected, its completion record is posted and launches waiting on it via DEP are settled. -/
  | launchComplete (pasid seq : Nat)
  /-- SLICE_END, R279: A slice's QUS expires, its contexts stop issuing and are saved, and the next slice of the partition begins. -/
  | sliceEnd (die : Nat)
  /-- BLOCK_SAVE, R290: A block's issue stops, its non-preemptible work completes, and its image is written to its slot in the save area. -/
  | blockSave (b : Nat)
  /-- BLOCK_RESTORE, R290: A block's image is written back, recorded copies restart, recorded loads are reissued, and issue resumes. -/
  | blockRestore (b core : Nat)
  /-- GANG_READY, R281: A package posts its ready signal for a gang slice once it has restored the context and its bucket is not empty. -/
  | gangReady (die : Nat)
  /-- GANG_DEADLINE, R281: At slice start plus GDL, a gang slice runs if every package has posted ready, and is otherwise abandoned on every package. -/
  | gangDeadline (die : Nat) (othersReady : Bool)
  /-- FAULT_RECORD_POST, R286: A fault record is written to its ring, in weighted round robin, once the ring has room. -/
  | faultRecordPost
  /-- TICK, R303: At every REFT multiple of 10,000 ns, each domain corrects the previous tick and refills the buckets. -/
  | tick (sensors : List Int)
  /-- MARGIN_RELAX, R309: After 1,000 ticks without excess replays, a die's raised supply margin is relaxed. -/
  | marginRelax (die : Nat)
  /-- POWER_CEILING_EXPIRY, R313: The 1 ms power ceiling of a crown domain expires. -/
  | powerCeilingExpiry (die : Nat)
  /-- DIE_RETIRE, R314: A derated die whose condition persists for 100 ms is retired: its blocks are saved, its partition leaves service and its lines are rehomed. -/
  | dieRetire (die : Nat)
  /-- CHARGE_REPORT, R299: A memory-side event's charge report reaches the meter and is applied to its account. -/
  | chargeReport
  /-- STEP_CHANGE_BEGIN, R305: A decided step change begins its supply ramp for a raise, or its relock for a lowering, after the previous change has ended. -/
  | stepChangeBegin (die : Nat)
  /-- SUPPLY_RAMP_END, R305: The supply ramp of a raise ends and the relock is begun. -/
  | supplyRampEnd (die : Nat)
  /-- RELOCK_END, R305: A 1,500 ns relock ends, the new step is in force, FSTEP updates and a trace entry is written in each cluster. -/
  | relockEnd (die : Nat)
  /-- SUPPLY_LOWER_END, R305: The supply lowering after a lowering relock ends, and the change is over. -/
  | supplyLowerEnd (die : Nat)
  /-- LEASE_GRANT, R312: A rack lease grant or renewal arrives over the fabric and the lease ceilings are recomputed. -/
  | leaseGrant (watts ms : Nat)
  /-- LEASE_EXPIRY, R312: A lease expires without renewal and P_L falls to the sideband floor. -/
  | leaseExpiry
  /-- METER_SAMPLE, R172: At the end of each sample period the meter appends four elements to the group's meter sample ring, or discards the sample. -/
  | meterSample (g : GRef)
  /-- METER_READING_WRITE, R171: After the tick holding T1 is corrected, the meter writes the signed reading and then DONE to the requested region. -/
  | meterReadingWrite (world : Nat)
  /-- CHECKPOINT, R333: At a replayable block's first instruction and at each interval end, the block's state is captured to its checkpoint slot and IV advances. -/
  | checkpoint (b : Nat)
  /-- LINK_PACKET_RECEIVE, R324: A packet arriving on an Iscor link or fabric port is checked under its world's link key, and a failure stops the context and posts an integrity event. -/
  | linkPacketReceive (p : LinkPacket)
  /-- FABRIC_PACKET_ARRIVAL, R347: A fabric packet for a queue is delivered to its bound ring, or discarded and credited when its PASID mismatches. -/
  | fabricPacketArrival (p : FabricPacket)
  /-- COMPLETION_TIMEOUT, R345: A non-posted request with no completion within 1 ms is ended, its context stopped and an integrity event posted. -/
  | completionTimeout (q : Asked) (n : Nat)
  /-- UNCORRECTABLE_ERROR, R330: An uncorrectable parity or ECC error in a store stops the context or poisons the line, and posts an event. -/
  | uncorrectableError (place : ErrPlace)
  /-- LINK_CRC_ERROR, R330: A CRC failure on a link flit is retried through the link's own replay. -/
  | linkCrcError (link : Nat)
  /-- CORE_REMAP, R350: A retired physical core's logical core is mapped to a spare once no block is resident on it, or is marked absent. -/
  | coreRemap (core : Nat)
  /-- BOOT, R348: On sideband power-good and reset release, the package runs the boot order from fuses to READY. -/
  | boot (run : BootRun)
  /-- SQT, R343: A write to a notify page's submission tail doorbell makes the device take the new submission entries in ring order. -/
  | sqt (iface : Nat) (tail : Word)
  /-- COMPLETION_POST, R343: A completion record is written to the completion ring when it has room, and a message is sent if IEN is set. -/
  | completionPost (iface : Nat)
  /-- CQH, R343: A write to CQH is taken only when it lies within CQN of CQT, and frees room in the completion ring. -/
  | cqh (iface : Nat) (v : Word)
  /-- RH, R343: A write to a ring block's RH is taken only when it lies within RN of RT, and frees room for held records. -/
  | rh (ring : Nat) (v : Word)
  /-- TREJ, R346: A read of TREJ returns the ticket-reject count and clears it. -/
  | trej (fn : Nat)
  /-- LATCHED_HALF_READ, R346: Reading the low half of a 128-bit device page field latches its high half for the reading function. -/
  | latchedHalfRead (fn off : Nat)
  /-- REGISTER_WRITE, R342: A write to a function-window register that has no behaviour of its own stores the value, or is ignored on an unassigned page. -/
  | registerWrite (fn off : Nat) (v : DWord)
  /-- CTXNEW, R265: The physical function creates a context from a descriptor, binds an interface to it and fills its default place table. -/
  | ctxnew (q : Cmd) (desc ifc : DWord)
  /-- CTXWR, R265: Rewrites a bound context's IW, WT, RATE and CAPB, in force from the die's next tick. -/
  | ctxwr (q : Cmd) (iw wt rate capb : DWord)
  /-- CTXEND, R344: Ends a context: cancels its pending launches, discards its blocks, queues its frames for scrubbing and unbinds its interfaces. -/
  | ctxend (q : Cmd) (pasid : DWord)
  /-- REVOKE, R117: Revokes an object by advancing its generation in every package, invalidating translations and sweeping stale capabilities. -/
  | revoke (q : Cmd) (obn : DWord)
  /-- INVAL_OBJECT, R115: Invalidates the cached translations of an object. -/
  | invalObject (q : Cmd) (obn : DWord)
  /-- INVAL_SPAN, R115: Invalidates the cached translation of one span of an object. -/
  | invalSpan (q : Cmd) (obn span : DWord)
  /-- INVAL_STAGE2, R115: Invalidates the cached translations of a stage-2 guest-physical frame. -/
  | invalStage2 (q : Cmd) (frame : DWord)
  /-- RETRY, R287: Retries a request waiting on a SPAN_MISS or S2_MISS fault, named by its handle. -/
  | retry (q : Cmd) (sub : DWord)
  /-- DISPOSE, R289: Applies a disposition word to a parked sub-group or suspended unit whose record was posted to a ring. -/
  | dispose (q : Cmd) (sub word : DWord)
  /-- HANDLER, R288: Installs or replaces the context's trap handler kernel and its root. -/
  | handler (q : Cmd) (code entry rootLo rootHi : DWord)
  /-- WSCOPY, R137: Copies bytes from a memory object into a die's weight window, held while a kernel of the context runs there. -/
  | wscopy (q : Cmd) (obn off die woff len : DWord)
  /-- PARTWR, R277: Writes a die's partition entry while no block is resident, apart from a change of PSTEP alone. -/
  | partwr (q : Cmd) (die entry : DWord)
  /-- VACATE, R280: Vacates a set of cores of a partition by saving, folding or pre-empting their blocks, and completes when every save has completed. -/
  | vacate (q : Cmd) (die mask : DWord)
  /-- VACATE_REOPEN, R280: Returns vacated cores to placement at once. -/
  | vacateReopen (q : Cmd) (die mask : DWord)
  /-- KEYREL, R318: Decapsulates, opens and checks a release blob, and installs its keys into a world's key slot. -/
  | keyrel (q : Cmd) (blob : DWord)
  /-- KEYRET, R319: Retires a non-current key slot of a world, waiting until its requests drain and no line records it. -/
  | keyret (q : Cmd) (world slot : DWord)
  /-- DBGWR, R331: Writes a context's debug descriptor, in force at its next slice boundary. -/
  | dbgwr (q : Cmd) (desc : DWord)
  /-- STOP_NOW, R336: Stops every block of the context at once as a consistent cut. -/
  | stopNow (q : Cmd)
  /-- STOP_AT, R336: Arms a target so that the context stops when a block reaches a given interval and retired count. -/
  | stopAt (q : Cmd) (b i n : DWord)
  /-- VIEW, R337: Re-executes a stopped replayable block from its checkpoint to a given retired count, using logged values, to build a separate view. -/
  | view (q : Cmd) (b i n image : DWord)
  /-- RESUME, R336: Continues a debug-stopped context from its state at the stop. -/
  | resume (q : Cmd)
  /-- FNCFG, R343: Configures a function's interfaces, stage-2 base, remap table base and fault ring weight. -/
  | fncfg (q : Cmd) (fn ifcs s2 remap weight : DWord)
  /-- WORLDNEW, R317: Creates a world with a policy digest and computes its measurement. -/
  | worldnew (q : Cmd) (world p0 p1 p2 p3 : DWord)
  /-- WORLDEND, R317: Ends a world with no context by queueing its frames for scrubbing, then emptying its key slots. -/
  | worldend (q : Cmd) (world : DWord)
  /-- QTRD, R278: Returns a function's quantum table entry as held, CL included. -/
  | qtrd (q : Cmd) (fn idx : DWord)
  /-- SIDEBAND_READ_IDENTITY, R351: A sideband request returns the identity public keys, certificate chain, KID and FM. -/
  | sidebandReadIdentity
  /-- SIDEBAND_READ_TELEMETRY, R351: A sideband request returns power, temperature and supply telemetry. -/
  | sidebandReadTelemetry
  /-- SIDEBAND_READ_LOGS, R351: A sideband request returns the fuse-fault and boot-fault logs. -/
  | sidebandReadLogs
  /-- SIDEBAND_LEASE_FLOOR, R351: A sideband request writes the lease floor used when a lease expires. -/
  | sidebandLeaseFloor (watts : Nat)
  /-- SIDEBAND_RETIRE, R351: A sideband request retires a core or a die. -/
  | sidebandRetire (die core : Nat) (wholeDie : Bool)
  /-- SIDEBAND_RESET, R351: A sideband request resets the package. -/
  | sidebandReset
  /-- RETURN_TO_SERVICE, R306: A crown domain or die returns to service and takes a step, and a trace entry with CAUSE 6 is written at index (NCHG + 1) mod 256. -/
  | returnToService (die step : Nat)
  deriving DecidableEq, Repr

end Sys2Proof
end

