-- ==== Sys2Proof/WellFormed.lean ====
section
/-!
DEFINITION. Which instructions are well formed: the scopes each accepts (R33), the roles of its register fields (R57),
the ranges of its selectors and the types it accepts (R62, R179, R203, R235, R240, R249).
-/

namespace Sys2Proof

/-- Scopes `l g` of an instruction's row. -/
def Scope.laneOrGroup : Scope → Bool
  | .lane | .group => true
  | .set | .block => false

/-- Scopes `g s b` of an instruction's row. -/
def Scope.wide : Scope → Bool
  | .lane => false
  | .group | .set | .block => true

/-- The quad role accepts a register number divisible by 4 (Table 3.6). -/
def quadOk (n : BitVec 6) : Bool := n.toNat % 4 == 0

/-- The pair role accepts an even register number (Table 3.6). -/
def pairOk (n : BitVec 6) : Bool := n.toNat % 2 == 0

/-- A predicate destination is not p7 or q7 (Table 3.6). -/
def pdstOk (n : BitVec 3) : Bool := n != 7#3

/-- f32, f16 or bf16. -/
def isF3 : Ty → Bool
  | .f32 | .f16 | .bf16 => true
  | _ => false

/-- f16 or bf16. -/
def isH2 : Ty → Bool
  | .f16 | .bf16 => true
  | _ => false

/-- Element types of `pdot4` (R242). -/
def isD4 : Ty → Bool
  | .f8a | .f8b | .s8 | .n8 => true
  | _ => false

/-- Element types of `pdot8` (R242). -/
def isD8 : Ty → Bool
  | .f4 | .s4 => true
  | _ => false

/-- Types of `aadd` (Table 15.5). -/
def isAadd : Ty → Bool
  | .b32 | .b64 | .f32 => true
  | _ => false

/-- Types of `amin` and `amax` (Table 15.5). -/
def isAmm : Ty → Bool
  | .s32 | .n32 => true
  | _ => false

/-- Types of the bitwise atomics, `axchg` and `acas` (Table 15.5). -/
def isA2 : Ty → Bool
  | .b32 | .b64 => true
  | _ => false

/-- Types of `accrd` and `accwr` (R259, R260). -/
def isAcc : Ty → Bool
  | .f32 | .f16 | .bf16 | .cf32 => true
  | _ => false

/-- The floating-point formats of codes 0 to 5. -/
def Ty.isFloat : Ty → Bool
  | .f32 | .f16 | .bf16 | .f8a | .f8b | .f4 => true
  | _ => false

/-- The width of a format in bits (Tables 5.1 and 5.2). -/
def Ty.width : Ty → Nat
  | .f4 | .s4 => 4
  | .f8a | .f8b | .s8 | .n8 => 8
  | .f16 | .bf16 | .s16 | .n16 => 16
  | .f32 | .s32 | .n32 | .b32 => 32
  | .b64 | .cf32 => 64

/-- The narrow integer formats of `vext` (R185). -/
def Ty.narrowInt : Ty → Bool
  | .s4 | .s8 | .n8 | .s16 | .n16 => true
  | _ => false

/-- The 32-bit integer formats of `vext` (R185). -/
def Ty.wideInt : Ty → Bool
  | .s32 | .n32 | .b32 => true
  | _ => false

/-- A destination of the register class. -/
def VDst.isReg : VDst → Bool
  | .reg _ => true
  | .chan _ => false

/-- The three cases of `vext` (R185). -/
def vextTypes (t s : Ty) : Bool :=
  (s.narrowInt && t.wideInt) || (s.wideInt && t.narrowInt) || (s.wideInt && t.wideInt && s != t)

/-- The selector of `vext`, and its A when it packs (R179, R185). -/
def vextFields (t s : Ty) (a : VDst) (i : BitVec 8) : Bool :=
  if s.narrowInt then decide (i.toNat < 32 / s.width)
  else if t.narrowInt then decide (i.toNat < 32 / t.width) && a.isReg
  else i == 0#8

def vextOk (t s : Ty) (a : VDst) (i : BitVec 8) : Bool := vextTypes t s && vextFields t s a i

/-- Codes 0 to 12, different, at least one floating point (R240). -/
def fcvtTypes (t s : Ty) : Bool :=
  (t.isFloat || s.isFloat) && t != s && decide (t.width ≤ 32) && decide (s.width ≤ 32) && t != .b32 && s != .b32

/-- The selectors of `fcvt`, and its A when it packs (R240). -/
def fcvtFields (t s : Ty) (a : VDst) (i j : BitVec 8) : Bool :=
  (if s.width == 32 then i == 0#8 else decide (i.toNat < 32 / s.width)) &&
  (if t.width == 32 then j == 0#8 else decide (j.toNat ≤ 32 / t.width)) && (j == 0#8 || a.isReg)

def fcvtOk (t s : Ty) (a : VDst) (i j : BitVec 8) : Bool := fcvtTypes t s && fcvtFields t s a i j

/-- A and D of a 64-bit atomic are pairs (R203). -/
def atomOk (t : Ty) (a : BitVec 6) (d : VSrc) : Bool :=
  t != .b64 || (pairOk a && (match d with | .reg n _ => pairOk n | .chan _ _ => false))

/-- TYPE and STYPE of `mpair` lie in one class (R254). -/
def mpairOk (t s : Ty) : Bool :=
  ((t == .f8a || t == .f8b) && (s == .f8a || s == .f8b)) || (t == .f4 && s == .f4) || (t == .s8 && s == .s8) ||
  (t == .s4 && s == .s4) || ((t == .f16 || t == .bf16) && (s == .f16 || s == .bf16))

/-- The well-formed instructions. -/
def Instr.wf : Instr → Bool
  | .nop _ => true
  | .jmp _ => true
  | .bra _ _ => true
  | .bru _ _ => true
  | .jmpc a => quadOk a.n
  | .call a _ => quadOk a
  | .callc a b => quadOk a && quadOk b.n
  | .ret a => quadOk a.n
  | .exit => true
  | .bar e => e.wide
  | .bara e _ n => e.wide && decide (n.toNat < 32)
  | .barw e _ => e.wide
  | .gbar => true
  | .grdbar => true
  | .sstepCluster => true
  | .sstepDie => true
  | .fork _ _ => true
  | .wait _ _ => true
  | .yield => true
  | .trap _ _ => true
  | .loop _ _ => true
  | .hint _ _ _ _ _ => true
  | .rdsr _ _ _ _ => true
  | .rdsu e _ _ _ => e.laneOrGroup
  | .opreq _ _ n => decide (n.toNat ≤ 64)
  | .mtrq e a _ => e.laneOrGroup && pairOk a.n
  | .msamp e _ _ => e.laneOrGroup
  | .rpush _ _ => true
  | .rpop _ => true
  | .trmark _ _ => true
  | .bkpt _ _ => true
  | .chkpt _ => true
  | .dbgstop _ => true
  | .trctlStart _ => true
  | .trctlStop _ => true
  | .trctlFreeze _ => true
  | .trctlThaw _ => true
  | .plwr _ _ _ => true
  | .qtwr _ _ _ => true
  | .limwr _ _ _ => true
  | .wtwr _ _ _ => true
  | .srwr e _ _ _ => e.laneOrGroup
  | .saddB64 e _ _ _ => e.laneOrGroup
  | .ssubB64 e _ _ _ => e.laneOrGroup
  | .smulB64 e _ _ _ => e.laneOrGroup
  | .smulhS64 e _ _ _ => e.laneOrGroup
  | .smulhN64 e _ _ _ => e.laneOrGroup
  | .saddiB64 e _ _ => e.laneOrGroup
  | .smoviB64 e _ _ => e.laneOrGroup
  | .smovlB64 e _ sel _ => e.laneOrGroup && decide (sel.toNat < 3)
  | .sandB64 e _ _ _ => e.laneOrGroup
  | .sorB64 e _ _ _ => e.laneOrGroup
  | .sxorB64 e _ _ _ => e.laneOrGroup
  | .snotB64 e _ _ => e.laneOrGroup
  | .sshlB64 e _ _ _ => e.laneOrGroup
  | .sshrN64 e _ _ _ => e.laneOrGroup
  | .sshrS64 e _ _ _ => e.laneOrGroup
  | .smovB64 e _ _ => e.laneOrGroup
  | .sminS64 e _ _ _ => e.laneOrGroup
  | .sminN64 e _ _ _ => e.laneOrGroup
  | .smaxS64 e _ _ _ => e.laneOrGroup
  | .smaxN64 e _ _ _ => e.laneOrGroup
  | .sclzB64 e _ _ => e.laneOrGroup
  | .spopcB64 e _ _ => e.laneOrGroup
  | .sextS32 e _ _ => e.laneOrGroup
  | .sextN32 e _ _ => e.laneOrGroup
  | .sceqB64 e a _ _ => e.laneOrGroup && pdstOk a
  | .scneB64 e a _ _ => e.laneOrGroup && pdstOk a
  | .scltS64 e a _ _ => e.laneOrGroup && pdstOk a
  | .scltN64 e a _ _ => e.laneOrGroup && pdstOk a
  | .scleS64 e a _ _ => e.laneOrGroup && pdstOk a
  | .scleN64 e a _ _ => e.laneOrGroup && pdstOk a
  | .sselB64 e _ _ _ _ => e.laneOrGroup
  | .qand e a _ _ => e.laneOrGroup && pdstOk a
  | .qor e a _ _ => e.laneOrGroup && pdstOk a
  | .qxor e a _ _ => e.laneOrGroup && pdstOk a
  | .qnot e a _ => e.laneOrGroup && pdstOk a
  | .vaddB32 _ _ _ _ => true
  | .vsubB32 _ _ _ _ => true
  | .vmulB32 _ _ _ _ => true
  | .vmulhS32 _ _ _ _ => true
  | .vmulhN32 _ _ _ _ => true
  | .vaddiB32 _ _ _ => true
  | .vmoviB32 _ _ _ => true
  | .vmovlB32 _ _ _ => true
  | .vaddsS32 _ _ _ _ => true
  | .vaddsN32 _ _ _ _ => true
  | .vsubsS32 _ _ _ _ => true
  | .vsubsN32 _ _ _ _ => true
  | .vminS32 _ _ _ _ => true
  | .vminN32 _ _ _ _ => true
  | .vmaxS32 _ _ _ _ => true
  | .vmaxN32 _ _ _ _ => true
  | .vandB32 _ _ _ _ => true
  | .vorB32 _ _ _ _ => true
  | .vxorB32 _ _ _ _ => true
  | .vnotB32 _ _ _ => true
  | .vshlB32 _ _ _ _ => true
  | .vshrN32 _ _ _ _ => true
  | .vshrS32 _ _ _ _ => true
  | .vmovB32 _ _ _ => true
  | .vabsS32 _ _ _ => true
  | .vnegS32 _ _ _ => true
  | .vpopcB32 _ _ _ => true
  | .vclzB32 _ _ _ => true
  | .vbrevB32 _ _ _ => true
  | .vbfxN32 _ _ _ _ len => decide (1 ≤ len.toNat && len.toNat ≤ 32)
  | .vbfxS32 _ _ _ _ len => decide (1 ≤ len.toNat && len.toNat ≤ 32)
  | .vbfiB32 _ _ _ _ len => decide (1 ≤ len.toNat && len.toNat ≤ 32)
  | .vceqB32 _ a _ _ => pdstOk a
  | .vcneB32 _ a _ _ => pdstOk a
  | .vcltS32 _ a _ _ => pdstOk a
  | .vcltN32 _ a _ _ => pdstOk a
  | .vcleS32 _ a _ _ => pdstOk a
  | .vcleN32 _ a _ _ => pdstOk a
  | .vselB32 _ _ _ _ _ => true
  | .vext _ ty st a _ i => vextOk ty st a i
  | .pand _ a _ _ => pdstOk a
  | .por _ a _ _ => pdstOk a
  | .pxor _ a _ _ => pdstOk a
  | .pnot _ a _ => pdstOk a
  | .vbcast _ _ _ => true
  | .vfirst _ _ _ => true
  | .vlane _ _ _ _ => true
  | .vvote _ _ _ => true
  | .vshflB32 e _ _ _ => e.wide
  | .vrsumB32 e _ _ => e.wide
  | .vrminS32 e _ _ => e.wide
  | .vrminN32 e _ _ => e.wide
  | .vrmaxS32 e _ _ => e.wide
  | .vrmaxN32 e _ _ => e.wide
  | .vscanB32 e _ _ => e.wide
  | .vrotlB32 _ _ _ _ => true
  | .fadd _ _ _ _ => true
  | .faddX _ ty _ _ _ _ => isF3 ty
  | .fsub _ _ _ _ => true
  | .fsubX _ ty _ _ _ _ => isF3 ty
  | .fmul _ _ _ _ => true
  | .fmulX _ ty _ _ _ _ => isF3 ty
  | .ffma _ _ _ _ => true
  | .ffmaX _ ty _ _ _ _ _ => isF3 ty
  | .fdiv _ _ _ _ => true
  | .fdivX _ ty _ _ _ _ => isF3 ty
  | .fsqrt _ _ _ => true
  | .fsqrtX _ ty _ _ _ => isF3 ty
  | .fmin _ _ _ _ => true
  | .fmax _ _ _ _ => true
  | .fabs _ _ _ => true
  | .fneg _ _ _ => true
  | .fceq _ a _ _ => pdstOk a
  | .fclt _ a _ _ => pdstOk a
  | .fcle _ a _ _ => pdstOk a
  | .fcun _ a _ _ => pdstOk a
  | .fcvt _ ty st _ a _ i j => fcvtOk ty st a i j
  | .fscl _ _ _ _ => true
  | .fsclX _ _ _ _ _ => true
  | .pdot4 _ ty st _ _ _ _ _ => isD4 ty && isD4 st
  | .pdot8 _ ty st _ _ _ _ _ => isD8 ty && isD8 st
  | .hadd2 _ ty _ _ _ _ => isH2 ty
  | .hmul2 _ ty _ _ _ _ => isH2 ty
  | .hfma2 _ ty _ _ _ _ _ => isH2 ty
  | .fred e _ _ _ op => e.wide && decide (op.toNat < 3)
  | .cfadd _ a b _ => pairOk a && pairOk b.n
  | .cfred e a b => e.wide && pairOk a && pairOk b.n
  | .cfnorm _ _ _ _ => true
  | .cfnormX _ ty _ _ _ _ => isF3 ty
  | .ldS8 _ _ b _ => quadOk b.n
  | .ldN8 _ _ b _ => quadOk b.n
  | .ldS16 _ _ b _ => quadOk b.n
  | .ldN16 _ _ b _ => quadOk b.n
  | .ldB32 _ _ b _ => quadOk b.n
  | .ldB64 _ a b _ => pairOk a && quadOk b.n
  | .ldB128 _ a b _ => quadOk a && quadOk b.n
  | .ldc _ a b _ => quadOk a && quadOk b.n
  | .stB8 _ _ b _ => quadOk b.n
  | .stB16 _ _ b _ => quadOk b.n
  | .stB32 _ _ b _ => quadOk b.n
  | .stB64 _ a b _ => pairOk a.n && quadOk b.n
  | .stB128 _ a b _ => quadOk a.n && quadOk b.n
  | .stc _ a b _ => quadOk a.n && quadOk b.n
  | .wldB32 _ _ _ _ => true
  | .wldB128 _ a _ _ => quadOk a
  | .ldsB32 _ _ _ => true
  | .ldsB64 _ a _ => pairOk a
  | .ldsB128 _ a _ => quadOk a
  | .stsB32 _ _ _ => true
  | .stsB64 _ a _ => pairOk a.n
  | .stsB128 _ a _ => quadOk a.n
  | .put _ _ _ _ => true
  | .get _ _ _ _ => true
  | .aadd _ ty _ a b _ d => quadOk b.n && isAadd ty && atomOk ty a d
  | .amin _ ty _ a b _ d => quadOk b.n && isAmm ty && atomOk ty a d
  | .amax _ ty _ a b _ d => quadOk b.n && isAmm ty && atomOk ty a d
  | .aand _ ty _ a b _ d => quadOk b.n && isA2 ty && atomOk ty a d
  | .aor _ ty _ a b _ d => quadOk b.n && isA2 ty && atomOk ty a d
  | .axor _ ty _ a b _ d => quadOk b.n && isA2 ty && atomOk ty a d
  | .axchg _ ty _ a b _ d => quadOk b.n && isA2 ty && atomOk ty a d
  | .acas _ ty _ a b _ d => quadOk b.n && isA2 ty && atomOk ty a d
  | .acquire _ => true
  | .release _ => true
  | .fence _ => true
  | .cbnd _ a b c => quadOk a && quadOk b.n && pairOk c.n
  | .cperm _ a _ => quadOk a
  | .cadd _ a b c => quadOk a && quadOk b.n && pairOk c.n
  | .cset _ a b c => quadOk a && quadOk b.n && pairOk c.n
  | .cseal _ a b c => quadOk a && quadOk b.n && pairOk c.n
  | .cmov _ a b => quadOk a && quadOk b.n
  | .cget _ _ b _ => quadOk b.n
  | .ctag _ a b _ => pdstOk a && quadOk b.n
  | .cbcast _ a b => quadOk a && pairOk b.n
  | .chbind e _ _ _ => e.laneOrGroup
  | .chfree e _ _ => e.laneOrGroup
  | .chstat e _ _ => e.laneOrGroup
  | .spanq _ a b _ => pairOk a && quadOk b.n
  | .cpy _ a b _ _ => quadOk a.n && quadOk b.n
  | .cpysIn _ _ b _ _ => quadOk b.n
  | .cpysOut _ _ b _ _ => quadOk b.n
  | .mcast _ _ b _ _ => quadOk b.n
  | .cpyq _ _ _ => true
  | .oclaim _ _ _ => true
  | .orel _ _ _ => true
  | .oload e _ b _ src => e.laneOrGroup && (src || pairOk b.n)
  | .mfence _ => true
  | .mpair e ty st _ _ _ _ => e.laneOrGroup && mpairOk ty st
  | .accrd e ty m _ _ _ => e.laneOrGroup && isAcc ty && (ty != .cf32 || m == .rn)
  | .accwr e ty _ _ _ => e.laneOrGroup && isAcc ty
  | .accclr _ _ _ => true
  | .accwt _ _ _ => true
  | .accver e _ _ => e.laneOrGroup
  | .sclwSet _ _ _ => true
  | .sclwAdd _ _ _ => true
  | .sclr e _ _ => e.laneOrGroup
  | .clauseIssue _ => true
  | .rcvHoldTimeout _ => true
  | .timingErrorReplay _ => true
  | .blockExit _ => true
  | .childGridComplete _ => true
  | .memoryRequest _ _ _ => true
  | .storeRegister _ _ => true
  | .lossNotice _ _ => true
  | .atomicPerform _ _ => true
  | .loadArrival _ _ => true
  | .wcDrainTimeout _ _ => true
  | .refreshWindowStart => true
  | .refreshWindowEnd => true
  | .windowTransferComplete _ _ => true
  | .copyPart _ _ _ _ => true
  | .copyComplete _ _ => true
  | .oloadComplete _ => true
  | .tileOpStart _ => true
  | .mpairRetire _ => true
  | .tileOpComplete _ => true
  | .barComplete _ => true
  | .gangBarrierArrival _ => true
  | .sstepArrival _ => true
  | .spanMoveComplete _ _ _ => true
  | .settleExpiry _ => true
  | .revokeProceed _ => true
  | .revocationPoint _ => true
  | .sweepRegisterScan _ => true
  | .sweepComplete _ => true
  | .invalidationComplete _ => true
  | .frameScrub _ => true
  | .worldEndComplete _ => true
  | .keyretComplete _ => true
  | .pmlimApply _ => true
  | .wscopyProceed _ => true
  | .launchRecord _ _ => true
  | .blockPlacement _ => true
  | .launchComplete _ _ => true
  | .sliceEnd _ => true
  | .blockSave _ => true
  | .blockRestore _ _ => true
  | .gangReady _ => true
  | .gangDeadline _ _ => true
  | .faultRecordPost => true
  | .tick _ => true
  | .marginRelax _ => true
  | .powerCeilingExpiry _ => true
  | .dieRetire _ => true
  | .chargeReport => true
  | .stepChangeBegin _ => true
  | .supplyRampEnd _ => true
  | .relockEnd _ => true
  | .supplyLowerEnd _ => true
  | .leaseGrant _ _ => true
  | .leaseExpiry => true
  | .meterSample _ => true
  | .meterReadingWrite _ => true
  | .checkpoint _ => true
  | .linkPacketReceive p => p.unit < 2 || (16 ≤ p.unit && p.unit < 24)
  | .fabricPacketArrival p => match p with
    | .element port queue _ _ => port < 8 && queue < 256
    | .credit port queue _ => port < 8 && queue < 256
    | _ => true
  | .completionTimeout _ _ => true
  | .uncorrectableError _ => true
  | .linkCrcError l => l < 48
  | .coreRemap _ => true
  | .boot _ => true
  | .sqt _ _ => true
  | .completionPost _ => true
  | .cqh _ _ => true
  | .rh _ _ => true
  | .trej _ => true
  | .latchedHalfRead _ _ => true
  | .registerWrite _ _ _ => true
  | .ctxnew _ _ _ => true
  | .ctxwr _ _ _ _ _ => true
  | .ctxend _ _ => true
  | .revoke _ _ => true
  | .invalObject _ _ => true
  | .invalSpan _ _ _ => true
  | .invalStage2 _ _ => true
  | .retry _ _ => true
  | .dispose _ _ _ => true
  | .handler _ _ _ _ _ => true
  | .wscopy _ _ _ _ _ _ => true
  | .partwr _ _ _ => true
  | .vacate _ _ _ => true
  | .vacateReopen _ _ _ => true
  | .keyrel _ _ => true
  | .keyret _ _ _ => true
  | .dbgwr _ _ => true
  | .stopNow _ => true
  | .stopAt _ _ _ _ => true
  | .view _ _ _ _ _ => true
  | .resume _ => true
  | .fncfg _ _ _ _ _ _ => true
  | .worldnew _ _ _ _ _ _ => true
  | .worldend _ _ => true
  | .qtrd _ _ _ => true
  | .sidebandReadIdentity => true
  | .sidebandReadTelemetry => true
  | .sidebandReadLogs => true
  | .sidebandLeaseFloor _ => true
  | .sidebandRetire _ _ _ => true
  | .sidebandReset => true
  | .returnToService _ _ => true

end Sys2Proof
end

