-- ==== Sys2Proof/Config.lean ====
section
/-!
DEFINITION. What one implementation fixes and the spec does not state, and the free values: opaque constants without a
body, so that nothing proved here can rest on a value of theirs. Each carries its mark and its log entry.
-/

namespace Sys2Proof.Config

/-- Free value n of the counter State.free: undefined values of R147 and R291, the choice of R46 (assumption 2). -/
opaque freeNat : Nat → Nat

/-- Draw n from the device's random source: gang and die unit tickets (R326), world 0's keys (R318, R320)
(assumption 2). -/
opaque random : Nat → Nat

/-- The factory weight of a die at a step for an event class (R297), loaded at step 6 of boot (assumption 8). -/
opaque factoryWeight : (die step cls : Nat) → BitVec 32

/-- The modelled static energy of the brim domain (domain 24) and of the HBM supplies (25 to 40) in one tick, in 1/16 pJ
(R302; assumption 16). -/
opaque staticEnergy : (domain : Nat) → Nat

/-- The modelled maximum power of a crown domain at a step, in milliwatts (R312; assumption 16). -/
opaque maxPower : (die step : Nat) → Nat

/-- The greatest supply margin level of a die (R309; assumption 16). -/
opaque maxMargin : Nat

/-- The 256-bit unique secret of the fuses (R315; assumption 17). -/
opaque deviceSecret : BitVec 256

/-- SHA3-256 of a byte string (R315, R316, R318, R320, R310): FIPS 202 is outside the spec (assumption 17). -/
opaque sha3 : List Byte → BitVec 256

/-- SHAKE256 of a byte string, 64 bytes (R315; assumption 17). -/
opaque shake64 : List Byte → List Byte

/-- ML-DSA-44: the public key of a seed, and the signature of a digest under a seed (R315, R310; assumption 17). -/
opaque mldsaPublic : BitVec 256 → List Byte
opaque mldsaSign : BitVec 256 → BitVec 256 → List Byte

/-- ML-KEM-1024: the public key of the two seeds, and decapsulation of a ciphertext to the shared secret (R315, R318;
assumption 17). -/
opaque mlkemPublic : List Byte → List Byte
opaque mlkemDecaps : List Byte → List Byte → List Byte

/-- AES-GCM-256 opening: key, nonce, additional data, ciphertext, tag; none when the tag fails (R318; assumption 17). -/
opaque gcmOpen : BitVec 256 → List Byte → List Byte → List Byte → List Byte → Option (List Byte)

/-- The certificate chain from Rilari (R315; assumption 17). -/
opaque certificateChain : List Byte

/-- Where the physical function's window gives the identity public keys and the certificate chain (R315; assumption 88). -/
opaque identityOffset : Nat

/-- The image slot layout is the device's own (R291): the bytes of a save image (assumption 18). -/
opaque imageByte : (save address : Nat) → Byte

/-- AES-XTS-256 of a 64-byte line under two XTS keys with its tweak, and GMAC of the ciphertext and the tag bits
(R321; assumption 17). -/
opaque xtsLine : (keys tweak : Nat) → List Byte → List Byte
opaque gmac : (key nonce : Nat) → List Byte → Nat → BitVec 56

/-- This package's number within its fabric domain (HOME, Table 7.6; assumption 20). -/
opaque packageId : BitVec 8

/-- Access events that depend on what the LLC holds and on the route: HBM bursts and UCIe flits of access n
(R298; assumption 19). -/
opaque hbmEvents : Nat → Nat
opaque ucieEvents : Nat → Nat

/-- The bank events (Table 23.1) of an issue, which depend on the bank window (R96; assumption 19). -/
opaque bankEvents : (issue : Nat) → Nat

/-- The bytes of log pages that a number of log entries takes (R333): their layout is the device's own (assumption 27). -/
opaque logBytes : (entries : Nat) → Nat

/-- Line accesses of save or restore n of a block (R290, R299): the image's layout is the device's own (assumption 18). -/
opaque saveEvents : (n : Nat) → Nat
end Sys2Proof.Config
end

