-- ==== Sys2Proof/Machine/Floor.lean ====
section
/-!
DEFINITION. The package's composition (R2 to R8, R12): the grid of dies with the links between them, the stacks, the I/O dies with what they
carry, the capacities, and the power limits.
-/

namespace Sys2Proof.Machine

/-! ### The grid (R2, R5) -/

/-- Row and column of a die: row 0 is the north edge, column 0 the west edge (R2). -/
def dieRow (d : Nat) : Nat := d / 6
def dieCol (d : Nat) : Nat := d % 6

/-- The die in a row and a column. -/
def dieAt (r c : Nat) : Option Nat := if r < 4 ∧ c < 6 then some (6 * r + c) else none

/-- The sides of a die. -/
inductive Side where | north | south | east | west
  deriving DecidableEq, Repr

/-- The neighbour of a die on a side, to which one UCIe link joins it (R5). -/
def neighbour (d : Nat) : Side → Option Nat
  | .north => if dieRow d = 0 then none else dieAt (dieRow d - 1) (dieCol d)
  | .south => dieAt (dieRow d + 1) (dieCol d)
  | .east => dieAt (dieRow d) (dieCol d + 1)
  | .west => if dieCol d = 0 then none else dieAt (dieRow d) (dieCol d - 1)

def neighbours (d : Nat) : List Nat := [neighbour d .north, neighbour d .south, neighbour d .east, neighbour d .west].filterMap id

/-- The UCIe links between dies, each by its two ends, the lower first (R5). -/
def ucieLinks : List (Nat × Nat) := (List.range 24).flatMap fun d => (neighbours d).filterMap fun e => if d < e then some (d, e) else none

/-- The links that a cut between columns c and c + 1 crosses, each of 2 TB/s in each direction (R5). -/
def cutLinks (c : Nat) : List (Nat × Nat) := ucieLinks.filter fun l => dieCol l.1 == c && dieCol l.2 == c + 1

/-- The fewest links that a request crosses from one die to another. -/
def dieDistance (a b : Nat) : Nat :=
  (max (dieRow a) (dieRow b) - min (dieRow a) (dieRow b)) + (max (dieCol a) (dieCol b) - min (dieCol a) (dieCol b))

/-! ### Stacks (R3) -/

/-- A perimeter die lies in row 0, row 3, column 0 or column 5. -/
def perimeter (d : Nat) : Bool := decide (d < 24) && (dieRow d == 0 || dieRow d == 3 || dieCol d == 0 || dieCol d == 5)

/-- The die of each stack, in ascending order (Table 0.1). -/
def stackDies : List Nat := (List.range 24).filter perimeter

/-- The die that carries a stack, and the stack that a die carries (Table 0.1). -/
def stackDie (k : Nat) : Nat := stackDies.getD k 0
def stackOf (d : Nat) : Option Nat := if perimeter d then some (stackDies.idxOf d) else none

/-! ### I/O dies (R4) -/

inductive IoDie where | west | east
  deriving DecidableEq, Repr

/-- The dies that an I/O die adjoins. -/
def IoDie.adjoins : IoDie → List Nat
  | .west => (List.range 24).filter fun d => dieCol d == 0
  | .east => (List.range 24).filter fun d => dieCol d == 5

/-- The host link and the fabric ports that an I/O die carries; REFT enters at the west one. -/
def IoDie.link : IoDie → Nat
  | .west => 0
  | .east => 1
def IoDie.ports : IoDie → List Nat
  | .west => [0, 1, 2, 3]
  | .east => [4, 5, 6, 7]
def refClock : IoDie := .west

/-- The I/O die of a host link and of a fabric port; none for a number that the package does not have (R4, R7). -/
def ioOfLink (n : Nat) : Option IoDie := [IoDie.west, .east].find? fun d => d.link == n
def ioOfPort (p : Nat) : Option IoDie := [IoDie.west, .east].find? fun d => d.ports.contains p

/-- The I/O die of a unit of Table 29.7: 0 and 1 name the host links, 16 to 23 the fabric ports. -/
def ioOfUnit (u : Nat) : Option IoDie := if u < 16 then ioOfLink u else ioOfPort (u - 16)

/-- A link of the package by number: the UCIe links between dies in their order, then the host links, then the fabric ports. -/
def linkThere (n : Nat) : Bool :=
  decide (n < ucieLinks.length) || (ioOfLink (n - ucieLinks.length)).isSome || (ioOfPort (n - ucieLinks.length - 2)).isSome

/-! ### Capacities (R2, R7, R8) -/

/-- Bytes of a die's LLC slice, of its weight store, and of a stack; lines of 64 bytes in a slice. -/
def llcBytes : Nat := 2 ^ 28
def llcLines : Nat := llcBytes / 64
def wsBytes : Nat := 2 ^ 29
def stackBytes : Nat := 2 ^ 36

/-- The top eighth of each stack is the metadata carve-out (R8); programs have the rest (Table 0.3). -/
def carveBytes : Nat := stackBytes / 8
def openBytes : Nat := stackBytes - carveBytes

/-- Packages that a fabric domain joins at most (R8). -/
def fabricPackages : Nat := 256

/-! ### Power limits in watts (R12) -/

def crownLimit : Nat := 190
def brimLimit : Nat := 150
def hbmLimit : Nat := 40
def packageLimit : Nat := 5400

/-- Watts over one tick of 10 µs in 1/16 pJ. -/
def tickEnergy (watts : Nat) : Nat := watts * 160000000

/-- The limit of a charge domain: 24 crown domains, the brim domain, 16 stacks (R12, R302). -/
def domainLimit (d : Nat) : Nat := if d < 24 then crownLimit else if d = 24 then brimLimit else hbmLimit

end Sys2Proof.Machine
end

