-- ==== Sys2Proof/Decode.lean ====
section
/-!
DEFINITION. Clause headers and instruction words as bits: the decoder (R47 to R70, Tables 3.1 to 3.18 and the
encoding tables of each class) and, after it, the encoder written from the same tables.
-/

namespace Sys2Proof

/-- Why a word is rejected, one name for each step of R65 that the word alone can fail. `unassigned` is step 1,
`scope` step 3, `form` step 4 (form, reserved values), `operand` step 5. -/
inductive DecErr where | unassigned | scope | form | operand
  deriving DecidableEq, Repr

abbrev Dec (α : Type) := Except DecErr α



/-- A clause header (Table 3.1); `eng` is none for the reserved class 7. -/
structure Header where
  cnt : Nat
  eng : Option Eng
  rcv : Bool
  wl : Nat
  ws : Nat
  wc : Nat
  wt : Nat
  guard : Pred
  sym : Bool
  res : Nat
  deriving DecidableEq, Repr

/-- Engine class codes (Table 3.2). -/
def engOf : Nat → Option Eng
  | 0 => some .ctl
  | 1 => some .uni
  | 2 => some .vint
  | 3 => some .vflt
  | 4 => some .mem
  | 5 => some .asy
  | 6 => some .sys
  | _ => none

/-- The engine class's code. -/
def Eng.code : Eng → Nat
  | .ctl => 0
  | .uni => 1
  | .vint => 2
  | .vflt => 3
  | .mem => 4
  | .asy => 5
  | .sys => 6

/-- R47. -/
def decodeHeader (h : Word) : Header :=
  { cnt := (h.extractLsb' 0 4).toNat, eng := engOf (h.extractLsb' 4 3).toNat, rcv := h.getLsbD 7
    wl := (h.extractLsb' 8 4).toNat, ws := (h.extractLsb' 12 4).toNat, wc := (h.extractLsb' 16 3).toNat
    wt := (h.extractLsb' 19 3).toNat, guard := ⟨h.extractLsb' 22 3, h.getLsbD 25⟩, sym := h.getLsbD 26
    res := (h.extractLsb' 27 5).toNat }

/-- R49: a header with CNT = 0, ENG = 7 or a bit of [31:27] set traps ILLEGAL_CLAUSE. -/
def Header.legal (h : Header) : Bool := h.cnt != 0 && h.eng.isSome && h.res == 0

/-- The unguarded header of a class with no waits. -/
def plainHeader (e : Eng) (cnt : Nat) : Word := BitVec.ofNat 32 (0x01FFFF00 + e.code * 16 + cnt)

/-! ### Fields of a word (Tables 3.4, 3.5, 3.8) -/

def opc (w : Word) : Nat := (w.extractLsb' 26 6).toNat
def fA (w : Word) : Byte := w.extractLsb' 16 8
def fB (w : Word) : Byte := w.extractLsb' 8 8
def fC (w : Word) : Byte := w.extractLsb' 0 8
def imm (w : Word) : BitVec 16 := w.extractLsb' 0 16
def mD (x : Word) : Byte := x.extractLsb' 16 8

/-- SCOPE codes (Table 1.4). -/
def scopeOf (w : Word) : Scope :=
  match (w.extractLsb' 24 2).toNat with
  | 0 => .lane
  | 1 => .group
  | 2 => .set
  | _ => .block

/-- Type codes (Table 3.9). -/
def tyOf (c : BitVec 4) : Ty :=
  match c.toNat with
  | 0 => .f32
  | 1 => .f16
  | 2 => .bf16
  | 3 => .f8a
  | 4 => .f8b
  | 5 => .f4
  | 6 => .s8
  | 7 => .n8
  | 8 => .s4
  | 9 => .s16
  | 10 => .n16
  | 11 => .s32
  | 12 => .n32
  | 13 => .b32
  | 14 => .b64
  | _ => .cf32

def mT (x : Word) : Ty := tyOf (x.extractLsb' 2 4)
def mS (x : Word) : Ty := tyOf (x.extractLsb' 6 4)

/-- MODE as a rounding mode (Table 3.8). -/
def mM (x : Word) : Rnd :=
  match (x.extractLsb' 0 2).toNat with
  | 0 => .rn
  | 1 => .rz
  | 2 => .ru
  | _ => .rd

/-- MODE as an ordering (Table 3.8). -/
def mO (x : Word) : AOrd :=
  match (x.extractLsb' 0 2).toNat with
  | 0 => .rlx
  | 1 => .acq
  | 2 => .rel
  | _ => .ar

/-- A step 4 check of R65. -/
def need (b : Bool) : Dec Unit := if b then .ok () else .error .form

/-- A step 5 check of R65. -/
def needOp (b : Bool) : Dec Unit := if b then .ok () else .error .operand

/-- A step 3 check of R65. -/
def needScope (b : Bool) : Dec Unit := if b then .ok () else .error .scope

/-- Reserved bits of a modifier word, and the parts of it that the instruction does not use (R62). -/
def modOk (x : Word) (mode stype d : Bool) : Dec Unit :=
  need (x.extractLsb' 10 6 == 0#6 && x.extractLsb' 24 8 == 0#8 && (mode || x.extractLsb' 0 2 == 0#2) &&
    (stype || x.extractLsb' 6 4 == 0#4) && (d || x.extractLsb' 16 8 == 0#8))

def sAll (w : Word) : Dec Scope := .ok (scopeOf w)
def sLG (w : Word) : Dec Scope := do needScope (scopeOf w).laneOrGroup; return scopeOf w
def sGSB (w : Word) : Dec Scope := do needScope (scopeOf w).wide; return scopeOf w
def sL (w : Word) : Dec Unit := needScope (scopeOf w == .lane)
def sB (w : Word) : Dec Unit := needScope (scopeOf w == .block)

/-! ### Field roles (R56, R57, Table 3.6) -/

def dVs (b : Byte) : Dec VSrc :=
  .ok (if b.getLsbD 7 then .chan (b.extractLsb' 0 6) (b.getLsbD 6) else .reg (b.extractLsb' 0 6) (b.getLsbD 6))
def dVd (b : Byte) : Dec VDst := do
  needOp (!b.getLsbD 6)
  return if b.getLsbD 7 then .chan (b.extractLsb' 0 6) else .reg (b.extractLsb' 0 6)
def dRs (b : Byte) : Dec RSrc := do needOp (!b.getLsbD 7); return ⟨b.extractLsb' 0 6, b.getLsbD 6⟩
def dRd (b : Byte) : Dec (BitVec 6) := do needOp (!b.getLsbD 7 && !b.getLsbD 6); return b.extractLsb' 0 6
def dQs (b : Byte) : Dec RSrc := do let r ← dRs b; needOp (quadOk r.n); return r
def dQd (b : Byte) : Dec (BitVec 6) := do let r ← dRd b; needOp (quadOk r); return r
def dPs (b : Byte) : Dec RSrc := do let r ← dRs b; needOp (pairOk r.n); return r
def dPd (b : Byte) : Dec (BitVec 6) := do let r ← dRd b; needOp (pairOk r); return r
def dPrs (b : Byte) : Dec Pred := do
  needOp (b.extractLsb' 4 4 == 0#4)
  return ⟨b.extractLsb' 0 3, b.getLsbD 3⟩
def dPrd (b : Byte) : Dec (BitVec 3) := do
  needOp (b.extractLsb' 3 5 == 0#5 && pdstOk (b.extractLsb' 0 3))
  return b.extractLsb' 0 3
def dCh (b : Byte) : Dec (BitVec 6) := do needOp (b.getLsbD 7 && !b.getLsbD 6); return b.extractLsb' 0 6
def dByte (b : Byte) : Dec (BitVec 8) := .ok b
def dZero (b : Byte) : Dec Unit := needOp (b == 0#8)
/-- A selector of width n with values below m. -/
def dSel (n m : Nat) (b : Byte) : Dec (BitVec n) := do needOp (decide (b.toNat < m)); return b.setWidth n
def dLen (b : Byte) : Dec (BitVec 6) := do
  needOp (decide (1 ≤ b.toNat) && decide (b.toNat ≤ 32))
  return b.setWidth 6
def dBit (b : Byte) : Dec Bool := do needOp (decide (b.toNat < 2)); return b.getLsbD 0

/-! ### Immediates with zero bits and ranges (R150, R203) -/

def dImm12 (i : BitVec 16) : Dec (BitVec 12) := do need (i.extractLsb' 12 4 == 0#4); return i.extractLsb' 0 12
def dImm8 (i : BitVec 16) : Dec (BitVec 8) := do need (i.extractLsb' 8 8 == 0#8); return i.extractLsb' 0 8
def dStep (i : BitVec 16) : Dec (BitVec 7) := do need (decide (i.toNat ≤ 64)); return i.extractLsb' 0 7
def dK (i : BitVec 16) : Dec (BitVec 4) := do need (i.extractLsb' 4 12 == 0#12); return i.extractLsb' 0 4
def dKn (i : BitVec 16) : Dec (BitVec 4) := .ok (i.extractLsb' 0 4)
def dBn (i : BitVec 16) : Dec (BitVec 6) := do
  need (i.extractLsb' 10 6 == 0#6 && decide ((i.extractLsb' 4 6).toNat < 32))
  return i.extractLsb' 4 6
def dWait (i : BitVec 16) : Dec WaitLim := do
  need (i.extractLsb' 14 2 == 0#2)
  return ⟨i.extractLsb' 0 4, i.extractLsb' 4 4, i.extractLsb' 8 3, i.extractLsb' 11 3⟩

/-- Special register numbers (Table 3.18). -/
def sregOf (n : BitVec 7) : Option SReg :=
  if n.extractLsb' 3 4 == 0#4 then some (.lvl (n.extractLsb' 0 3))
  else match n.toNat with
  | 0x08 => some .gidx
  | 0x09 => some .bidx
  | 0x0A => some .cyc
  | 0x0B => some .reft
  | 0x0C => some .fstep
  | 0x0D => some .wsref
  | 0x0E => some .eacc
  | 0x0F => some .ebkt
  | 0x10 => some .world
  | 0x11 => some .ctx
  | 0x12 => some (.view 0#2)
  | 0x13 => some (.view 1#2)
  | 0x14 => some (.view 2#2)
  | 0x15 => some (.view 3#2)
  | _ => none

/-- R70: bits [6:0] the number, [7] the half, [15:8] zero; an unlisted number is refused. -/
def dSr (i : BitVec 16) : Dec SReg := do
  need (i.extractLsb' 8 8 == 0#8)
  match sregOf (i.extractLsb' 0 7) with
  | some r => return r
  | none => .error .form

/-- R169: a register that `srwr` may write. -/
def dSrv (i : BitVec 16) : Dec (BitVec 2) := do
  match (← dSr i) with
  | .view k => return k
  | _ => .error .form

/-- The opcodes 0x38 to 0x3F of CTL (R69). -/
def hintOf (w : Word) : Instr := .hint (w.extractLsb' 26 3) (scopeOf w) (fA w) (fB w) (fC w)

/-- Assigned opcodes that only the world 0 supervisor may issue (R69, R176). -/
def privileged (e : Eng) (o : Nat) : Bool := e == .sys && decide (0x20 ≤ o) && decide (o ≤ 0x23)

/-- Opcodes of forms L and X, whose instruction takes a second word (R60). -/
def isLong : Eng → Nat → Bool
  | .ctl, _ => false
  | .uni, o => [0x07, 0x1E].contains o
  | .vint, o => [0x07, 0x1D, 0x1E, 0x1F, 0x26, 0x27].contains o
  | .vflt, o => [0x01, 0x03, 0x05, 0x07, 0x09, 0x0B, 0x14, 0x16, 0x18, 0x19, 0x1A, 0x1B, 0x1C, 0x1D, 0x23].contains o
  | .mem, o => [0x18, 0x19, 0x1A, 0x1B, 0x1C, 0x1D, 0x1E, 0x1F].contains o
  | .asy, o => [0x00, 0x01, 0x02, 0x0A, 0x10, 0x11, 0x12].contains o
  | .sys, _ => false

/-- The CTL class: the word w, and the literal or modifier word that follows it where there is one. -/
def decCtl (w : Word) (_ext : Dec Word) : Dec Instr :=
  match opc w with
  | 0x00 => do let e ← sAll w; dZero (fA w); dZero (fB w); dZero (fC w); return .nop e
  | 0x01 => do sL w; dZero (fA w); return .jmp (imm w)
  | 0x02 => do sL w; let p ← dPrs (fA w); return .bra p (imm w)
  | 0x03 => do sL w; let q ← dPrs (fA w); return .bru q (imm w)
  | 0x04 => do sL w; dZero (fB w); dZero (fC w); let a ← dQs (fA w); return .jmpc a
  | 0x05 => do sL w; let a ← dQd (fA w); return .call a (imm w)
  | 0x06 => do sL w; dZero (fC w); let a ← dQd (fA w); let b ← dQs (fB w); return .callc a b
  | 0x07 => do sL w; dZero (fB w); dZero (fC w); let a ← dQs (fA w); return .ret a
  | 0x08 => do sL w; dZero (fA w); dZero (fB w); dZero (fC w); return .exit
  | 0x09 => do let e ← sGSB w; dZero (fA w); dZero (fB w); dZero (fC w); return .bar e
  | 0x0A => do let e ← sGSB w; let k ← dKn (imm w); let n ← dBn (imm w); dZero (fA w); return .bara e k n
  | 0x0B => do let e ← sGSB w; let k ← dK (imm w); dZero (fA w); return .barw e k
  | 0x0C => do sB w; dZero (fA w); dZero (fB w); dZero (fC w); return .gbar
  | 0x0D => do sB w; dZero (fA w); dZero (fB w); dZero (fC w); return .grdbar
  | 0x0E => do sB w; need (decide ((imm w).toNat < 2)); dZero (fA w); return (if imm w == 0#16 then .sstepCluster else .sstepDie)
  | 0x0F => do sB w; dZero (fC w); let a ← dRd (fA w); let b ← dRs (fB w); return .fork a b
  | 0x10 => do let e ← sAll w; let lim ← dWait (imm w); dZero (fA w); return .wait e lim
  | 0x11 => do sL w; dZero (fA w); dZero (fB w); dZero (fC w); return .yield
  | 0x12 => do let e ← sAll w; dZero (fA w); return .trap e (imm w)
  | 0x13 => do sL w; let a ← dRd (fA w); return .loop a (imm w)
  | 0x38 => return hintOf w
  | 0x39 => return hintOf w
  | 0x3A => return hintOf w
  | 0x3B => return hintOf w
  | 0x3C => return hintOf w
  | 0x3D => return hintOf w
  | 0x3E => return hintOf w
  | 0x3F => return hintOf w
  | _ => .error .unassigned

/-- The UNI class: the word w, and the literal or modifier word that follows it where there is one. -/
def decUni (w : Word) (ext : Dec Word) : Dec Instr :=
  match opc w with
  | 0x00 => do let e ← sLG w; let a ← dRd (fA w); let b ← dRs (fB w); let c ← dRs (fC w); return .saddB64 e a b c
  | 0x01 => do let e ← sLG w; let a ← dRd (fA w); let b ← dRs (fB w); let c ← dRs (fC w); return .ssubB64 e a b c
  | 0x02 => do let e ← sLG w; let a ← dRd (fA w); let b ← dRs (fB w); let c ← dRs (fC w); return .smulB64 e a b c
  | 0x03 => do let e ← sLG w; let a ← dRd (fA w); let b ← dRs (fB w); let c ← dRs (fC w); return .smulhS64 e a b c
  | 0x04 => do let e ← sLG w; let a ← dRd (fA w); let b ← dRs (fB w); let c ← dRs (fC w); return .smulhN64 e a b c
  | 0x05 => do let e ← sLG w; let a ← dRd (fA w); return .saddiB64 e a (imm w)
  | 0x06 => do let e ← sLG w; let a ← dRd (fA w); return .smoviB64 e a (imm w)
  | 0x07 => do let x ← ext; let e ← sLG w; dZero (fC w); let a ← dRd (fA w); let sel ← dSel 2 3 (fB w); return .smovlB64 e a sel x
  | 0x08 => do let e ← sLG w; let a ← dRd (fA w); let b ← dRs (fB w); let c ← dRs (fC w); return .sandB64 e a b c
  | 0x09 => do let e ← sLG w; let a ← dRd (fA w); let b ← dRs (fB w); let c ← dRs (fC w); return .sorB64 e a b c
  | 0x0A => do let e ← sLG w; let a ← dRd (fA w); let b ← dRs (fB w); let c ← dRs (fC w); return .sxorB64 e a b c
  | 0x0B => do let e ← sLG w; dZero (fC w); let a ← dRd (fA w); let b ← dRs (fB w); return .snotB64 e a b
  | 0x0C => do let e ← sLG w; let a ← dRd (fA w); let b ← dRs (fB w); let c ← dRs (fC w); return .sshlB64 e a b c
  | 0x0D => do let e ← sLG w; let a ← dRd (fA w); let b ← dRs (fB w); let c ← dRs (fC w); return .sshrN64 e a b c
  | 0x0E => do let e ← sLG w; let a ← dRd (fA w); let b ← dRs (fB w); let c ← dRs (fC w); return .sshrS64 e a b c
  | 0x0F => do let e ← sLG w; dZero (fC w); let a ← dRd (fA w); let b ← dRs (fB w); return .smovB64 e a b
  | 0x10 => do let e ← sLG w; let a ← dRd (fA w); let b ← dRs (fB w); let c ← dRs (fC w); return .sminS64 e a b c
  | 0x11 => do let e ← sLG w; let a ← dRd (fA w); let b ← dRs (fB w); let c ← dRs (fC w); return .sminN64 e a b c
  | 0x12 => do let e ← sLG w; let a ← dRd (fA w); let b ← dRs (fB w); let c ← dRs (fC w); return .smaxS64 e a b c
  | 0x13 => do let e ← sLG w; let a ← dRd (fA w); let b ← dRs (fB w); let c ← dRs (fC w); return .smaxN64 e a b c
  | 0x14 => do let e ← sLG w; dZero (fC w); let a ← dRd (fA w); let b ← dRs (fB w); return .sclzB64 e a b
  | 0x15 => do let e ← sLG w; dZero (fC w); let a ← dRd (fA w); let b ← dRs (fB w); return .spopcB64 e a b
  | 0x16 => do let e ← sLG w; dZero (fC w); let a ← dRd (fA w); let b ← dRs (fB w); return .sextS32 e a b
  | 0x17 => do let e ← sLG w; dZero (fC w); let a ← dRd (fA w); let b ← dRs (fB w); return .sextN32 e a b
  | 0x18 => do let e ← sLG w; let a ← dPrd (fA w); let b ← dRs (fB w); let c ← dRs (fC w); return .sceqB64 e a b c
  | 0x19 => do let e ← sLG w; let a ← dPrd (fA w); let b ← dRs (fB w); let c ← dRs (fC w); return .scneB64 e a b c
  | 0x1A => do let e ← sLG w; let a ← dPrd (fA w); let b ← dRs (fB w); let c ← dRs (fC w); return .scltS64 e a b c
  | 0x1B => do let e ← sLG w; let a ← dPrd (fA w); let b ← dRs (fB w); let c ← dRs (fC w); return .scltN64 e a b c
  | 0x1C => do let e ← sLG w; let a ← dPrd (fA w); let b ← dRs (fB w); let c ← dRs (fC w); return .scleS64 e a b c
  | 0x1D => do let e ← sLG w; let a ← dPrd (fA w); let b ← dRs (fB w); let c ← dRs (fC w); return .scleN64 e a b c
  | 0x1E => do let x ← ext; let e ← sLG w; modOk x false false true; need (mT x == .b64); let a ← dRd (fA w); let b ← dRs (fB w); let c ← dRs (fC w); let d ← dPrs (mD x); return .sselB64 e a b c d
  | 0x20 => do let e ← sLG w; let a ← dPrd (fA w); let b ← dPrs (fB w); let c ← dPrs (fC w); return .qand e a b c
  | 0x21 => do let e ← sLG w; let a ← dPrd (fA w); let b ← dPrs (fB w); let c ← dPrs (fC w); return .qor e a b c
  | 0x22 => do let e ← sLG w; let a ← dPrd (fA w); let b ← dPrs (fB w); let c ← dPrs (fC w); return .qxor e a b c
  | 0x23 => do let e ← sLG w; dZero (fC w); let a ← dPrd (fA w); let b ← dPrs (fB w); return .qnot e a b
  | _ => .error .unassigned

/-- The VINT class: the word w, and the literal or modifier word that follows it where there is one. -/
def decVint (w : Word) (ext : Dec Word) : Dec Instr :=
  match opc w with
  | 0x00 => do let e ← sAll w; let a ← dVd (fA w); let b ← dVs (fB w); let c ← dVs (fC w); return .vaddB32 e a b c
  | 0x01 => do let e ← sAll w; let a ← dVd (fA w); let b ← dVs (fB w); let c ← dVs (fC w); return .vsubB32 e a b c
  | 0x02 => do let e ← sAll w; let a ← dVd (fA w); let b ← dVs (fB w); let c ← dVs (fC w); return .vmulB32 e a b c
  | 0x03 => do let e ← sAll w; let a ← dVd (fA w); let b ← dVs (fB w); let c ← dVs (fC w); return .vmulhS32 e a b c
  | 0x04 => do let e ← sAll w; let a ← dVd (fA w); let b ← dVs (fB w); let c ← dVs (fC w); return .vmulhN32 e a b c
  | 0x05 => do let e ← sAll w; let a ← dRd (fA w); return .vaddiB32 e a (imm w)
  | 0x06 => do let e ← sAll w; let a ← dVd (fA w); return .vmoviB32 e a (imm w)
  | 0x07 => do let x ← ext; let e ← sAll w; dZero (fB w); dZero (fC w); let a ← dVd (fA w); return .vmovlB32 e a x
  | 0x08 => do let e ← sAll w; let a ← dVd (fA w); let b ← dVs (fB w); let c ← dVs (fC w); return .vaddsS32 e a b c
  | 0x09 => do let e ← sAll w; let a ← dVd (fA w); let b ← dVs (fB w); let c ← dVs (fC w); return .vaddsN32 e a b c
  | 0x0A => do let e ← sAll w; let a ← dVd (fA w); let b ← dVs (fB w); let c ← dVs (fC w); return .vsubsS32 e a b c
  | 0x0B => do let e ← sAll w; let a ← dVd (fA w); let b ← dVs (fB w); let c ← dVs (fC w); return .vsubsN32 e a b c
  | 0x0C => do let e ← sAll w; let a ← dVd (fA w); let b ← dVs (fB w); let c ← dVs (fC w); return .vminS32 e a b c
  | 0x0D => do let e ← sAll w; let a ← dVd (fA w); let b ← dVs (fB w); let c ← dVs (fC w); return .vminN32 e a b c
  | 0x0E => do let e ← sAll w; let a ← dVd (fA w); let b ← dVs (fB w); let c ← dVs (fC w); return .vmaxS32 e a b c
  | 0x0F => do let e ← sAll w; let a ← dVd (fA w); let b ← dVs (fB w); let c ← dVs (fC w); return .vmaxN32 e a b c
  | 0x10 => do let e ← sAll w; let a ← dVd (fA w); let b ← dVs (fB w); let c ← dVs (fC w); return .vandB32 e a b c
  | 0x11 => do let e ← sAll w; let a ← dVd (fA w); let b ← dVs (fB w); let c ← dVs (fC w); return .vorB32 e a b c
  | 0x12 => do let e ← sAll w; let a ← dVd (fA w); let b ← dVs (fB w); let c ← dVs (fC w); return .vxorB32 e a b c
  | 0x13 => do let e ← sAll w; dZero (fC w); let a ← dVd (fA w); let b ← dVs (fB w); return .vnotB32 e a b
  | 0x14 => do let e ← sAll w; let a ← dVd (fA w); let b ← dVs (fB w); let c ← dVs (fC w); return .vshlB32 e a b c
  | 0x15 => do let e ← sAll w; let a ← dVd (fA w); let b ← dVs (fB w); let c ← dVs (fC w); return .vshrN32 e a b c
  | 0x16 => do let e ← sAll w; let a ← dVd (fA w); let b ← dVs (fB w); let c ← dVs (fC w); return .vshrS32 e a b c
  | 0x17 => do let e ← sAll w; dZero (fC w); let a ← dVd (fA w); let b ← dVs (fB w); return .vmovB32 e a b
  | 0x18 => do let e ← sAll w; dZero (fC w); let a ← dVd (fA w); let b ← dVs (fB w); return .vabsS32 e a b
  | 0x19 => do let e ← sAll w; dZero (fC w); let a ← dVd (fA w); let b ← dVs (fB w); return .vnegS32 e a b
  | 0x1A => do let e ← sAll w; dZero (fC w); let a ← dVd (fA w); let b ← dVs (fB w); return .vpopcB32 e a b
  | 0x1B => do let e ← sAll w; dZero (fC w); let a ← dVd (fA w); let b ← dVs (fB w); return .vclzB32 e a b
  | 0x1C => do let e ← sAll w; dZero (fC w); let a ← dVd (fA w); let b ← dVs (fB w); return .vbrevB32 e a b
  | 0x1D => do let x ← ext; let e ← sAll w; modOk x false false true; need (mT x == .n32); let a ← dVd (fA w); let b ← dVs (fB w); let c ← dVs (fC w); let len ← dLen (mD x); return .vbfxN32 e a b c len
  | 0x1E => do let x ← ext; let e ← sAll w; modOk x false false true; need (mT x == .s32); let a ← dVd (fA w); let b ← dVs (fB w); let c ← dVs (fC w); let len ← dLen (mD x); return .vbfxS32 e a b c len
  | 0x1F => do let x ← ext; let e ← sAll w; modOk x false false true; need (mT x == .b32); let a ← dRd (fA w); let b ← dVs (fB w); let c ← dVs (fC w); let len ← dLen (mD x); return .vbfiB32 e a b c len
  | 0x20 => do let e ← sAll w; let a ← dPrd (fA w); let b ← dVs (fB w); let c ← dVs (fC w); return .vceqB32 e a b c
  | 0x21 => do let e ← sAll w; let a ← dPrd (fA w); let b ← dVs (fB w); let c ← dVs (fC w); return .vcneB32 e a b c
  | 0x22 => do let e ← sAll w; let a ← dPrd (fA w); let b ← dVs (fB w); let c ← dVs (fC w); return .vcltS32 e a b c
  | 0x23 => do let e ← sAll w; let a ← dPrd (fA w); let b ← dVs (fB w); let c ← dVs (fC w); return .vcltN32 e a b c
  | 0x24 => do let e ← sAll w; let a ← dPrd (fA w); let b ← dVs (fB w); let c ← dVs (fC w); return .vcleS32 e a b c
  | 0x25 => do let e ← sAll w; let a ← dPrd (fA w); let b ← dVs (fB w); let c ← dVs (fC w); return .vcleN32 e a b c
  | 0x26 => do let x ← ext; let e ← sAll w; modOk x false false true; need (mT x == .b32); let a ← dVd (fA w); let b ← dVs (fB w); let c ← dVs (fC w); let d ← dPrs (mD x); return .vselB32 e a b c d
  | 0x27 => do let x ← ext; let e ← sAll w; modOk x false true false; need (vextTypes (mT x) (mS x)); let a ← dVd (fA w); let b ← dVs (fB w); let i ← dByte (fC w); needOp (vextFields (mT x) (mS x) a i); return .vext e (mT x) (mS x) a b i
  | 0x28 => do let e ← sAll w; let a ← dPrd (fA w); let b ← dPrs (fB w); let c ← dPrs (fC w); return .pand e a b c
  | 0x29 => do let e ← sAll w; let a ← dPrd (fA w); let b ← dPrs (fB w); let c ← dPrs (fC w); return .por e a b c
  | 0x2A => do let e ← sAll w; let a ← dPrd (fA w); let b ← dPrs (fB w); let c ← dPrs (fC w); return .pxor e a b c
  | 0x2B => do let e ← sAll w; dZero (fC w); let a ← dPrd (fA w); let b ← dPrs (fB w); return .pnot e a b
  | 0x2C => do let e ← sAll w; dZero (fC w); let a ← dVd (fA w); let b ← dRs (fB w); return .vbcast e a b
  | 0x2D => do let e ← sAll w; dZero (fC w); let a ← dRd (fA w); let b ← dVs (fB w); return .vfirst e a b
  | 0x2E => do let e ← sAll w; let a ← dRd (fA w); let b ← dVs (fB w); let c ← dRs (fC w); return .vlane e a b c
  | 0x2F => do let e ← sAll w; dZero (fC w); let a ← dRd (fA w); let b ← dPrs (fB w); return .vvote e a b
  | 0x30 => do let e ← sGSB w; let a ← dVd (fA w); let b ← dVs (fB w); let c ← dVs (fC w); return .vshflB32 e a b c
  | 0x31 => do let e ← sGSB w; dZero (fC w); let a ← dVd (fA w); let b ← dVs (fB w); return .vrsumB32 e a b
  | 0x32 => do let e ← sGSB w; dZero (fC w); let a ← dVd (fA w); let b ← dVs (fB w); return .vrminS32 e a b
  | 0x33 => do let e ← sGSB w; dZero (fC w); let a ← dVd (fA w); let b ← dVs (fB w); return .vrminN32 e a b
  | 0x34 => do let e ← sGSB w; dZero (fC w); let a ← dVd (fA w); let b ← dVs (fB w); return .vrmaxS32 e a b
  | 0x35 => do let e ← sGSB w; dZero (fC w); let a ← dVd (fA w); let b ← dVs (fB w); return .vrmaxN32 e a b
  | 0x36 => do let e ← sGSB w; dZero (fC w); let a ← dVd (fA w); let b ← dVs (fB w); return .vscanB32 e a b
  | 0x37 => do let e ← sAll w; let a ← dVd (fA w); let b ← dVs (fB w); let c ← dVs (fC w); return .vrotlB32 e a b c
  | _ => .error .unassigned

/-- The VFLT class: the word w, and the literal or modifier word that follows it where there is one. -/
def decVflt (w : Word) (ext : Dec Word) : Dec Instr :=
  match opc w with
  | 0x00 => do let e ← sAll w; let a ← dVd (fA w); let b ← dVs (fB w); let c ← dVs (fC w); return .fadd e a b c
  | 0x01 => do let x ← ext; let e ← sAll w; modOk x true false false; need (isF3 (mT x)); let a ← dVd (fA w); let b ← dVs (fB w); let c ← dVs (fC w); return .faddX e (mT x) (mM x) a b c
  | 0x02 => do let e ← sAll w; let a ← dVd (fA w); let b ← dVs (fB w); let c ← dVs (fC w); return .fsub e a b c
  | 0x03 => do let x ← ext; let e ← sAll w; modOk x true false false; need (isF3 (mT x)); let a ← dVd (fA w); let b ← dVs (fB w); let c ← dVs (fC w); return .fsubX e (mT x) (mM x) a b c
  | 0x04 => do let e ← sAll w; let a ← dVd (fA w); let b ← dVs (fB w); let c ← dVs (fC w); return .fmul e a b c
  | 0x05 => do let x ← ext; let e ← sAll w; modOk x true false false; need (isF3 (mT x)); let a ← dVd (fA w); let b ← dVs (fB w); let c ← dVs (fC w); return .fmulX e (mT x) (mM x) a b c
  | 0x06 => do let e ← sAll w; let a ← dRd (fA w); let b ← dVs (fB w); let c ← dVs (fC w); return .ffma e a b c
  | 0x07 => do let x ← ext; let e ← sAll w; modOk x true false true; need (isF3 (mT x)); let a ← dVd (fA w); let b ← dVs (fB w); let c ← dVs (fC w); let d ← dVs (mD x); return .ffmaX e (mT x) (mM x) a b c d
  | 0x08 => do let e ← sAll w; let a ← dVd (fA w); let b ← dVs (fB w); let c ← dVs (fC w); return .fdiv e a b c
  | 0x09 => do let x ← ext; let e ← sAll w; modOk x true false false; need (isF3 (mT x)); let a ← dVd (fA w); let b ← dVs (fB w); let c ← dVs (fC w); return .fdivX e (mT x) (mM x) a b c
  | 0x0A => do let e ← sAll w; dZero (fC w); let a ← dVd (fA w); let b ← dVs (fB w); return .fsqrt e a b
  | 0x0B => do let x ← ext; let e ← sAll w; modOk x true false false; need (isF3 (mT x)); dZero (fC w); let a ← dVd (fA w); let b ← dVs (fB w); return .fsqrtX e (mT x) (mM x) a b
  | 0x0C => do let e ← sAll w; let a ← dVd (fA w); let b ← dVs (fB w); let c ← dVs (fC w); return .fmin e a b c
  | 0x0D => do let e ← sAll w; let a ← dVd (fA w); let b ← dVs (fB w); let c ← dVs (fC w); return .fmax e a b c
  | 0x0E => do let e ← sAll w; dZero (fC w); let a ← dVd (fA w); let b ← dVs (fB w); return .fabs e a b
  | 0x0F => do let e ← sAll w; dZero (fC w); let a ← dVd (fA w); let b ← dVs (fB w); return .fneg e a b
  | 0x10 => do let e ← sAll w; let a ← dPrd (fA w); let b ← dVs (fB w); let c ← dVs (fC w); return .fceq e a b c
  | 0x11 => do let e ← sAll w; let a ← dPrd (fA w); let b ← dVs (fB w); let c ← dVs (fC w); return .fclt e a b c
  | 0x12 => do let e ← sAll w; let a ← dPrd (fA w); let b ← dVs (fB w); let c ← dVs (fC w); return .fcle e a b c
  | 0x13 => do let e ← sAll w; let a ← dPrd (fA w); let b ← dVs (fB w); let c ← dVs (fC w); return .fcun e a b c
  | 0x14 => do let x ← ext; let e ← sAll w; modOk x true true true; need (fcvtTypes (mT x) (mS x)); let a ← dVd (fA w); let b ← dVs (fB w); let i ← dByte (fC w); let j ← dByte (mD x); needOp (fcvtFields (mT x) (mS x) a i j); return .fcvt e (mT x) (mS x) (mM x) a b i j
  | 0x15 => do let e ← sAll w; let a ← dVd (fA w); let b ← dVs (fB w); let c ← dVs (fC w); return .fscl e a b c
  | 0x16 => do let x ← ext; let e ← sAll w; modOk x true false false; need (mT x == .f32); let a ← dVd (fA w); let b ← dVs (fB w); let c ← dVs (fC w); return .fsclX e (mM x) a b c
  | 0x18 => do let x ← ext; let e ← sAll w; modOk x true true true; need (isD4 (mT x)); need (isD4 (mS x)); let a ← dVd (fA w); let b ← dVs (fB w); let c ← dVs (fC w); let d ← dVs (mD x); return .pdot4 e (mT x) (mS x) (mM x) a b c d
  | 0x19 => do let x ← ext; let e ← sAll w; modOk x true true true; need (isD8 (mT x)); need (isD8 (mS x)); let a ← dVd (fA w); let b ← dVs (fB w); let c ← dVs (fC w); let d ← dVs (mD x); return .pdot8 e (mT x) (mS x) (mM x) a b c d
  | 0x1A => do let x ← ext; let e ← sAll w; modOk x true false false; need (isH2 (mT x)); let a ← dVd (fA w); let b ← dVs (fB w); let c ← dVs (fC w); return .hadd2 e (mT x) (mM x) a b c
  | 0x1B => do let x ← ext; let e ← sAll w; modOk x true false false; need (isH2 (mT x)); let a ← dVd (fA w); let b ← dVs (fB w); let c ← dVs (fC w); return .hmul2 e (mT x) (mM x) a b c
  | 0x1C => do let x ← ext; let e ← sAll w; modOk x true false true; need (isH2 (mT x)); let a ← dVd (fA w); let b ← dVs (fB w); let c ← dVs (fC w); let d ← dVs (mD x); return .hfma2 e (mT x) (mM x) a b c d
  | 0x1D => do let x ← ext; let e ← sGSB w; modOk x true false false; need (mT x == .f32); let a ← dVd (fA w); let b ← dVs (fB w); let op ← dSel 2 3 (fC w); return .fred e (mM x) a b op
  | 0x20 => do let e ← sAll w; let a ← dPd (fA w); let b ← dPs (fB w); let c ← dVs (fC w); return .cfadd e a b c
  | 0x21 => do let e ← sGSB w; dZero (fC w); let a ← dPd (fA w); let b ← dPs (fB w); return .cfred e a b
  | 0x22 => do let e ← sAll w; let a ← dVd (fA w); let b ← dVs (fB w); let c ← dVs (fC w); return .cfnorm e a b c
  | 0x23 => do let x ← ext; let e ← sAll w; modOk x true false false; need (isF3 (mT x)); let a ← dVd (fA w); let b ← dVs (fB w); let c ← dVs (fC w); return .cfnormX e (mT x) (mM x) a b c
  | _ => .error .unassigned

/-- The MEM class: the word w, and the literal or modifier word that follows it where there is one. -/
def decMem (w : Word) (ext : Dec Word) : Dec Instr :=
  match opc w with
  | 0x00 => do let e ← sAll w; let a ← dRd (fA w); let b ← dQs (fB w); let c ← dVs (fC w); return .ldS8 e a b c
  | 0x01 => do let e ← sAll w; let a ← dRd (fA w); let b ← dQs (fB w); let c ← dVs (fC w); return .ldN8 e a b c
  | 0x02 => do let e ← sAll w; let a ← dRd (fA w); let b ← dQs (fB w); let c ← dVs (fC w); return .ldS16 e a b c
  | 0x03 => do let e ← sAll w; let a ← dRd (fA w); let b ← dQs (fB w); let c ← dVs (fC w); return .ldN16 e a b c
  | 0x04 => do let e ← sAll w; let a ← dRd (fA w); let b ← dQs (fB w); let c ← dVs (fC w); return .ldB32 e a b c
  | 0x05 => do let e ← sAll w; let a ← dPd (fA w); let b ← dQs (fB w); let c ← dVs (fC w); return .ldB64 e a b c
  | 0x06 => do let e ← sAll w; let a ← dQd (fA w); let b ← dQs (fB w); let c ← dVs (fC w); return .ldB128 e a b c
  | 0x07 => do let e ← sAll w; let a ← dQd (fA w); let b ← dQs (fB w); let c ← dVs (fC w); return .ldc e a b c
  | 0x08 => do let e ← sAll w; let a ← dVs (fA w); let b ← dQs (fB w); let c ← dVs (fC w); return .stB8 e a b c
  | 0x09 => do let e ← sAll w; let a ← dVs (fA w); let b ← dQs (fB w); let c ← dVs (fC w); return .stB16 e a b c
  | 0x0A => do let e ← sAll w; let a ← dVs (fA w); let b ← dQs (fB w); let c ← dVs (fC w); return .stB32 e a b c
  | 0x0B => do let e ← sAll w; let a ← dPs (fA w); let b ← dQs (fB w); let c ← dVs (fC w); return .stB64 e a b c
  | 0x0C => do let e ← sAll w; let a ← dQs (fA w); let b ← dQs (fB w); let c ← dVs (fC w); return .stB128 e a b c
  | 0x0D => do let e ← sAll w; let a ← dQs (fA w); let b ← dQs (fB w); let c ← dVs (fC w); return .stc e a b c
  | 0x0E => do let e ← sAll w; let a ← dRd (fA w); let b ← dVs (fB w); let c ← dVs (fC w); return .wldB32 e a b c
  | 0x0F => do let e ← sAll w; let a ← dQd (fA w); let b ← dVs (fB w); let c ← dVs (fC w); return .wldB128 e a b c
  | 0x10 => do let e ← sAll w; dZero (fC w); let a ← dRd (fA w); let b ← dVs (fB w); return .ldsB32 e a b
  | 0x11 => do let e ← sAll w; dZero (fC w); let a ← dPd (fA w); let b ← dVs (fB w); return .ldsB64 e a b
  | 0x12 => do let e ← sAll w; dZero (fC w); let a ← dQd (fA w); let b ← dVs (fB w); return .ldsB128 e a b
  | 0x13 => do let e ← sAll w; dZero (fC w); let a ← dVs (fA w); let b ← dVs (fB w); return .stsB32 e a b
  | 0x14 => do let e ← sAll w; dZero (fC w); let a ← dPs (fA w); let b ← dVs (fB w); return .stsB64 e a b
  | 0x15 => do let e ← sAll w; dZero (fC w); let a ← dQs (fA w); let b ← dVs (fB w); return .stsB128 e a b
  | 0x16 => do let e ← sAll w; let a ← dVs (fA w); let b ← dVs (fB w); let c ← dVs (fC w); return .put e a b c
  | 0x17 => do let e ← sAll w; let a ← dVs (fA w); let b ← dVs (fB w); let c ← dVs (fC w); return .get e a b c
  | 0x18 => do let x ← ext; let e ← sAll w; modOk x true false true; need (isAadd (mT x)); let a ← dRd (fA w); let b ← dQs (fB w); let c ← dVs (fC w); let d ← dVs (mD x); needOp (atomOk (mT x) a d); return .aadd e (mT x) (mO x) a b c d
  | 0x19 => do let x ← ext; let e ← sAll w; modOk x true false true; need (isAmm (mT x)); let a ← dRd (fA w); let b ← dQs (fB w); let c ← dVs (fC w); let d ← dVs (mD x); needOp (atomOk (mT x) a d); return .amin e (mT x) (mO x) a b c d
  | 0x1A => do let x ← ext; let e ← sAll w; modOk x true false true; need (isAmm (mT x)); let a ← dRd (fA w); let b ← dQs (fB w); let c ← dVs (fC w); let d ← dVs (mD x); needOp (atomOk (mT x) a d); return .amax e (mT x) (mO x) a b c d
  | 0x1B => do let x ← ext; let e ← sAll w; modOk x true false true; need (isA2 (mT x)); let a ← dRd (fA w); let b ← dQs (fB w); let c ← dVs (fC w); let d ← dVs (mD x); needOp (atomOk (mT x) a d); return .aand e (mT x) (mO x) a b c d
  | 0x1C => do let x ← ext; let e ← sAll w; modOk x true false true; need (isA2 (mT x)); let a ← dRd (fA w); let b ← dQs (fB w); let c ← dVs (fC w); let d ← dVs (mD x); needOp (atomOk (mT x) a d); return .aor e (mT x) (mO x) a b c d
  | 0x1D => do let x ← ext; let e ← sAll w; modOk x true false true; need (isA2 (mT x)); let a ← dRd (fA w); let b ← dQs (fB w); let c ← dVs (fC w); let d ← dVs (mD x); needOp (atomOk (mT x) a d); return .axor e (mT x) (mO x) a b c d
  | 0x1E => do let x ← ext; let e ← sAll w; modOk x true false true; need (isA2 (mT x)); let a ← dRd (fA w); let b ← dQs (fB w); let c ← dVs (fC w); let d ← dVs (mD x); needOp (atomOk (mT x) a d); return .axchg e (mT x) (mO x) a b c d
  | 0x1F => do let x ← ext; let e ← sAll w; modOk x true false true; need (isA2 (mT x)); let a ← dRd (fA w); let b ← dQs (fB w); let c ← dVs (fC w); let d ← dVs (mD x); needOp (atomOk (mT x) a d); return .acas e (mT x) (mO x) a b c d
  | 0x20 => do let e ← sAll w; dZero (fA w); dZero (fB w); dZero (fC w); return .acquire e
  | 0x21 => do let e ← sAll w; dZero (fA w); dZero (fB w); dZero (fC w); return .release e
  | 0x22 => do let e ← sAll w; dZero (fA w); dZero (fB w); dZero (fC w); return .fence e
  | 0x24 => do let e ← sAll w; let a ← dQd (fA w); let b ← dQs (fB w); let c ← dPs (fC w); return .cbnd e a b c
  | 0x25 => do let e ← sAll w; let i ← dImm12 (imm w); let a ← dQd (fA w); return .cperm e a i
  | 0x26 => do let e ← sAll w; let a ← dQd (fA w); let b ← dQs (fB w); let c ← dPs (fC w); return .cadd e a b c
  | 0x27 => do let e ← sAll w; let a ← dQd (fA w); let b ← dQs (fB w); let c ← dPs (fC w); return .cset e a b c
  | 0x28 => do let e ← sAll w; let a ← dQd (fA w); let b ← dQs (fB w); let c ← dPs (fC w); return .cseal e a b c
  | 0x29 => do let e ← sAll w; dZero (fC w); let a ← dQd (fA w); let b ← dQs (fB w); return .cmov e a b
  | 0x2A => do let e ← sAll w; let a ← dVd (fA w); let b ← dQs (fB w); let sel ← dSel 3 8 (fC w); return .cget e a b sel
  | 0x2B => do let e ← sAll w; let a ← dPrd (fA w); let b ← dQs (fB w); let c ← dVs (fC w); return .ctag e a b c
  | 0x2C => do let e ← sAll w; dZero (fC w); let a ← dQd (fA w); let b ← dPs (fB w); return .cbcast e a b
  | 0x30 => do let e ← sLG w; let ch ← dCh (fA w); let b ← dRs (fB w); let c ← dRs (fC w); return .chbind e ch b c
  | 0x31 => do let e ← sLG w; dZero (fC w); let a ← dRd (fA w); let ch ← dCh (fB w); return .chfree e a ch
  | 0x32 => do let e ← sLG w; dZero (fC w); let a ← dRd (fA w); let ch ← dCh (fB w); return .chstat e a ch
  | 0x34 => do let e ← sAll w; let a ← dPd (fA w); let b ← dQs (fB w); let c ← dVs (fC w); return .spanq e a b c
  | _ => .error .unassigned

/-- The ASY class: the word w, and the literal or modifier word that follows it where there is one. -/
def decAsy (w : Word) (ext : Dec Word) : Dec Instr :=
  match opc w with
  | 0x00 => do let x ← ext; let e ← sAll w; modOk x false false true; need (mT x == .f32); let a ← dQs (fA w); let b ← dQs (fB w); let c ← dVs (fC w); let d ← dVs (mD x); return .cpy e a b c d
  | 0x01 => do let x ← ext; let e ← sAll w; modOk x true false true; need (mM x == .rn || mM x == .rz); need (mT x == .f32); let a ← dVs (fA w); let b ← dQs (fB w); let c ← dVs (fC w); let d ← dVs (mD x); return (if mM x == .rn then .cpysIn e a b c d else .cpysOut e a b c d)
  | 0x02 => do let x ← ext; let e ← sAll w; modOk x false false true; need (mT x == .f32); let a ← dVs (fA w); let b ← dQs (fB w); let c ← dVs (fC w); let d ← dVs (mD x); return .mcast e a b c d
  | 0x03 => do let e ← sAll w; dZero (fC w); let a ← dVd (fA w); let b ← dVs (fB w); return .cpyq e a b
  | 0x08 => do let e ← sAll w; dZero (fC w); let a ← dRs (fA w); let b ← dRs (fB w); return .oclaim e a b
  | 0x09 => do let e ← sAll w; dZero (fC w); let a ← dRs (fA w); let b ← dRs (fB w); return .orel e a b
  | 0x0A => do let x ← ext; let e ← sLG w; modOk x false false true; need (mT x == .f32); let o ← dSel 5 32 (fA w); let b ← dRs (fB w); let c ← dRs (fC w); let src ← dBit (mD x); needOp (src || pairOk b.n); return .oload e o b c src
  | 0x0B => do let e ← sAll w; dZero (fA w); dZero (fB w); dZero (fC w); return .mfence e
  | 0x10 => do let x ← ext; let e ← sLG w; modOk x false true true; need (mpairOk (mT x) (mS x)); let a ← dRs (fA w); let b ← dRs (fB w); let place ← dByte (fC w); let acc ← dBit (mD x); return .mpair e (mT x) (mS x) a b place acc
  | 0x11 => do let x ← ext; let e ← sLG w; modOk x true false false; need (isAcc (mT x)); need (mT x != .cf32 || mM x == .rn); let v ← dSel 2 4 (fA w); let tile ← dSel 4 16 (fB w); let c ← dRs (fC w); return .accrd e (mT x) (mM x) v tile c
  | 0x12 => do let x ← ext; let e ← sLG w; modOk x false false false; need (isAcc (mT x)); let tile ← dSel 4 16 (fA w); let v ← dSel 2 4 (fB w); let c ← dRs (fC w); return .accwr e (mT x) tile v c
  | 0x13 => do let e ← sAll w; let tile ← dSel 4 16 (fA w); return .accclr e tile (imm w)
  | 0x14 => do let e ← sAll w; let tile ← dSel 4 16 (fA w); return .accwt e tile (imm w)
  | 0x15 => do let e ← sLG w; dZero (fC w); let a ← dRd (fA w); let tile ← dSel 4 16 (fB w); return .accver e a tile
  | 0x18 => do let e ← sAll w; let m ← dSel 3 8 (fA w); let b ← dRs (fB w); let k ← dSel 1 2 (fC w); return (if k == 0#1 then .sclwSet e m b else .sclwAdd e m b)
  | 0x19 => do let e ← sLG w; dZero (fC w); let a ← dRd (fA w); let m ← dSel 3 8 (fB w); return .sclr e a m
  | _ => .error .unassigned

/-- The SYS class: the word w, and the literal or modifier word that follows it where there is one. -/
def decSys (w : Word) (_ext : Dec Word) : Dec Instr :=
  match opc w with
  | 0x00 => do let e ← sAll w; let r ← dSr (imm w); let a ← dVd (fA w); return .rdsr e a r ((imm w).getLsbD 7)
  | 0x01 => do let e ← sLG w; let r ← dSr (imm w); let a ← dRd (fA w); return .rdsu e a r ((imm w).getLsbD 7)
  | 0x02 => do let e ← sAll w; let n ← dStep (imm w); let a ← dRd (fA w); return .opreq e a n
  | 0x03 => do let e ← sLG w; dZero (fC w); let a ← dPs (fA w); let b ← dRd (fB w); return .mtrq e a b
  | 0x04 => do let e ← sLG w; dZero (fC w); let a ← dRs (fA w); let c ← dCh (fB w); return .msamp e a c
  | 0x05 => do let e ← sAll w; dZero (fA w); return .rpush e (imm w)
  | 0x06 => do let e ← sAll w; dZero (fA w); dZero (fB w); dZero (fC w); return .rpop e
  | 0x07 => do let e ← sAll w; dZero (fA w); return .trmark e (imm w)
  | 0x08 => do let e ← sAll w; let n ← dImm8 (imm w); dZero (fA w); return .bkpt e n
  | 0x09 => do let e ← sAll w; dZero (fA w); dZero (fB w); dZero (fC w); return .chkpt e
  | 0x0A => do let e ← sAll w; dZero (fA w); dZero (fB w); dZero (fC w); return .dbgstop e
  | 0x0B => do let e ← sAll w; need (decide ((imm w).toNat < 4)); dZero (fA w); return (if imm w == 0#16 then .trctlStart e else if imm w == 1#16 then .trctlStop e else if imm w == 2#16 then .trctlFreeze e else .trctlThaw e)
  | 0x20 => do sL w; let a ← dRs (fA w); let b ← dRs (fB w); let c ← dRs (fC w); return .plwr a b c
  | 0x21 => do sL w; let a ← dRs (fA w); let b ← dRs (fB w); let c ← dRs (fC w); return .qtwr a b c
  | 0x22 => do sL w; let a ← dRs (fA w); let b ← dRs (fB w); let c ← dRs (fC w); return .limwr a b c
  | 0x23 => do sL w; let a ← dRs (fA w); let b ← dRs (fB w); let c ← dRs (fC w); return .wtwr a b c
  | 0x24 => do let e ← sLG w; let v ← dSrv (imm w); let a ← dRs (fA w); return .srwr e v ((imm w).getLsbD 7) a
  | _ => .error .unassigned

/-- R48: a word is decoded in the class its clause's header names. -/
def decodeWord (e : Eng) (w : Word) (ext : Dec Word) : Dec Instr :=
  match e with
  | .ctl => decCtl w ext
  | .uni => decUni w ext
  | .vint => decVint w ext
  | .vflt => decVflt w ext
  | .mem => decMem w ext
  | .asy => decAsy w ext
  | .sys => decSys w ext

/-- The instruction at the head of a clause's remaining words, and how many words it takes (R63). An instruction of
form L or X with no word after it is refused as a matter of form. -/
def decodeAt (e : Eng) (ws : List Word) : Dec (Instr × Nat) :=
  match ws with
  | [] => .error .form
  | w :: rest => do
    let i ← decodeWord e w (match rest with | x :: _ => .ok x | [] => .error .form)
    return (i, if isLong e (opc w) then 2 else 1)

/-- The four bytes of a word, little-endian (R44). -/
def wordBytes (w : Word) : List Byte := [w.extractLsb' 0 8, w.extractLsb' 8 8, w.extractLsb' 16 8, w.extractLsb' 24 8]

/-- Words from bytes, little-endian; a tail of fewer than four bytes is dropped. -/
def bytesWords : List Byte → List Word
  | a :: b :: c :: d :: r => (d ++ c ++ b ++ a) :: bytesWords r
  | _ => []

/-- Decoding from bytes: an instruction of class e and the bytes after it. -/
def decodeBytes (e : Eng) (bs : List Byte) : Dec (Instr × List Byte) := do
  let (i, n) ← decodeAt e (bytesWords bs)
  return (i, bs.drop (4 * n))

/-- The classes in the order of their codes. -/
def engines : List Eng := [.ctl, .uni, .vint, .vflt, .mem, .asy, .sys]

/-- The first two words of a number laid out as the opcode table numbers bits. -/
def tableWords (w : Nat) : List Word := [BitVec.ofNat 32 w, BitVec.ofNat 32 (w / 2 ^ 32)]

/-- DESIGN CHOICE (assumption 15): a word alone names no class (R48), so the first class in the order of Table 3.2
whose decoder accepts it is taken. -/
def tableEng (w : Nat) : Option (Eng × Instr) :=
  engines.findSome? fun e =>
    match decodeAt e (tableWords w) with
    | .ok (i, _) => some (e, i)
    | .error _ => none

/-- The instruction read from a word, or two, numbered as the opcode table numbers bits; bits above `nbits` are 0. -/
def decodeTableWord (nbits w : Nat) : Option Instr := (tableEng (w % 2 ^ nbits)).map (·.2)

/-! ### The encoder (R55, R56, R60, R61 and the encoding tables) -/

def eScope : Scope → BitVec 2
  | .lane => 0#2
  | .group => 1#2
  | .set => 2#2
  | .block => 3#2
def eBool (b : Bool) : BitVec 1 := if b then 1#1 else 0#1
def eVs : VSrc → Byte
  | .reg n l => 0#1 ++ eBool l ++ n
  | .chan c p => 1#1 ++ eBool p ++ c
def eVd : VDst → Byte
  | .reg n => 0#2 ++ n
  | .chan c => 2#2 ++ c
def eRs (r : RSrc) : Byte := 0#1 ++ eBool r.last ++ r.n
def eRd (r : BitVec 6) : Byte := 0#2 ++ r
def ePrs (p : Pred) : Byte := 0#4 ++ eBool p.neg ++ p.n
def ePrd (p : BitVec 3) : Byte := 0#5 ++ p
def eCh (c : BitVec 6) : Byte := 2#2 ++ c
def eBit (b : Bool) : Byte := 0#7 ++ eBool b
def eRnd : Rnd → BitVec 2
  | .rn => 0#2
  | .rz => 1#2
  | .ru => 2#2
  | .rd => 3#2
def eOrd : AOrd → BitVec 2
  | .rlx => 0#2
  | .acq => 1#2
  | .rel => 2#2
  | .ar => 3#2
def eTy : Ty → BitVec 4
  | .f32 => 0#4
  | .f16 => 1#4
  | .bf16 => 2#4
  | .f8a => 3#4
  | .f8b => 4#4
  | .f4 => 5#4
  | .s8 => 6#4
  | .n8 => 7#4
  | .s4 => 8#4
  | .s16 => 9#4
  | .n16 => 10#4
  | .s32 => 11#4
  | .n32 => 12#4
  | .b32 => 13#4
  | .b64 => 14#4
  | .cf32 => 15#4
def sregNum : SReg → BitVec 7
  | .lvl k => 0#4 ++ k
  | .gidx => 0x08#7
  | .bidx => 0x09#7
  | .cyc => 0x0A#7
  | .reft => 0x0B#7
  | .fstep => 0x0C#7
  | .wsref => 0x0D#7
  | .eacc => 0x0E#7
  | .ebkt => 0x0F#7
  | .world => 0x10#7
  | .ctx => 0x11#7
  | .view k => 0x12#7 + (0#5 ++ k)
def eSr (r : SReg) (hi : Bool) : BitVec 16 := 0#8 ++ eBool hi ++ sregNum r
def encT (o : Nat) (e : Scope) (a b c : Byte) : Word := BitVec.ofNat 6 o ++ eScope e ++ a ++ b ++ c
def encI (o : Nat) (e : Scope) (a : Byte) (i : BitVec 16) : Word := BitVec.ofNat 6 o ++ eScope e ++ a ++ i
def encM (mode : BitVec 2) (t s : BitVec 4) (d : Byte) : Word := 0#8 ++ d ++ 0#6 ++ s ++ t ++ mode

/-- The words of an instruction; an event of the table has none. -/
def encode : Instr → List Word
  | .nop e => [encT 0x00 e 0#8 0#8 0#8]
  | .jmp t => [encI 0x01 .lane 0#8 t]
  | .bra p t => [encI 0x02 .lane (ePrs p) t]
  | .bru q t => [encI 0x03 .lane (ePrs q) t]
  | .jmpc a => [encT 0x04 .lane (eRs a) 0#8 0#8]
  | .call a t => [encI 0x05 .lane (eRd a) t]
  | .callc a b => [encT 0x06 .lane (eRd a) (eRs b) 0#8]
  | .ret a => [encT 0x07 .lane (eRs a) 0#8 0#8]
  | .exit => [encT 0x08 .lane 0#8 0#8 0#8]
  | .bar e => [encT 0x09 e 0#8 0#8 0#8]
  | .bara e k n => [encI 0x0A e 0#8 (0#6 ++ n ++ k)]
  | .barw e k => [encI 0x0B e 0#8 (k.zeroExtend 16)]
  | .gbar => [encT 0x0C .block 0#8 0#8 0#8]
  | .grdbar => [encT 0x0D .block 0#8 0#8 0#8]
  | .sstepCluster => [encI 0x0E .block 0#8 0#16]
  | .sstepDie => [encI 0x0E .block 0#8 1#16]
  | .fork a b => [encT 0x0F .block (eRd a) (eRs b) 0#8]
  | .wait e lim => [encI 0x10 e 0#8 (0#2 ++ lim.t ++ lim.c ++ lim.s ++ lim.l)]
  | .yield => [encT 0x11 .lane 0#8 0#8 0#8]
  | .trap e code => [encI 0x12 e 0#8 code]
  | .loop a t => [encI 0x13 .lane (eRd a) t]
  | .hint o e a b c => [0b111#3 ++ o ++ eScope e ++ a ++ b ++ c]
  | .rdsr e a r hi => [encI 0x00 e (eVd a) (eSr r hi)]
  | .rdsu e a r hi => [encI 0x01 e (eRd a) (eSr r hi)]
  | .opreq e a n => [encI 0x02 e (eRd a) (n.zeroExtend 16)]
  | .mtrq e a b => [encT 0x03 e (eRs a) (eRd b) 0#8]
  | .msamp e a c => [encT 0x04 e (eRs a) (eCh c) 0#8]
  | .rpush e label => [encI 0x05 e 0#8 label]
  | .rpop e => [encT 0x06 e 0#8 0#8 0#8]
  | .trmark e v => [encI 0x07 e 0#8 v]
  | .bkpt e n => [encI 0x08 e 0#8 (n.zeroExtend 16)]
  | .chkpt e => [encT 0x09 e 0#8 0#8 0#8]
  | .dbgstop e => [encT 0x0A e 0#8 0#8 0#8]
  | .trctlStart e => [encI 0x0B e 0#8 0#16]
  | .trctlStop e => [encI 0x0B e 0#8 1#16]
  | .trctlFreeze e => [encI 0x0B e 0#8 2#16]
  | .trctlThaw e => [encI 0x0B e 0#8 3#16]
  | .plwr a b c => [encT 0x20 .lane (eRs a) (eRs b) (eRs c)]
  | .qtwr a b c => [encT 0x21 .lane (eRs a) (eRs b) (eRs c)]
  | .limwr a b c => [encT 0x22 .lane (eRs a) (eRs b) (eRs c)]
  | .wtwr a b c => [encT 0x23 .lane (eRs a) (eRs b) (eRs c)]
  | .srwr e v hi a => [encI 0x24 e (eRs a) (eSr (.view v) hi)]
  | .saddB64 e a b c => [encT 0x00 e (eRd a) (eRs b) (eRs c)]
  | .ssubB64 e a b c => [encT 0x01 e (eRd a) (eRs b) (eRs c)]
  | .smulB64 e a b c => [encT 0x02 e (eRd a) (eRs b) (eRs c)]
  | .smulhS64 e a b c => [encT 0x03 e (eRd a) (eRs b) (eRs c)]
  | .smulhN64 e a b c => [encT 0x04 e (eRd a) (eRs b) (eRs c)]
  | .saddiB64 e a i => [encI 0x05 e (eRd a) i]
  | .smoviB64 e a i => [encI 0x06 e (eRd a) i]
  | .smovlB64 e a sel lit => [encT 0x07 e (eRd a) (sel.zeroExtend 8) 0#8, lit]
  | .sandB64 e a b c => [encT 0x08 e (eRd a) (eRs b) (eRs c)]
  | .sorB64 e a b c => [encT 0x09 e (eRd a) (eRs b) (eRs c)]
  | .sxorB64 e a b c => [encT 0x0A e (eRd a) (eRs b) (eRs c)]
  | .snotB64 e a b => [encT 0x0B e (eRd a) (eRs b) 0#8]
  | .sshlB64 e a b c => [encT 0x0C e (eRd a) (eRs b) (eRs c)]
  | .sshrN64 e a b c => [encT 0x0D e (eRd a) (eRs b) (eRs c)]
  | .sshrS64 e a b c => [encT 0x0E e (eRd a) (eRs b) (eRs c)]
  | .smovB64 e a b => [encT 0x0F e (eRd a) (eRs b) 0#8]
  | .sminS64 e a b c => [encT 0x10 e (eRd a) (eRs b) (eRs c)]
  | .sminN64 e a b c => [encT 0x11 e (eRd a) (eRs b) (eRs c)]
  | .smaxS64 e a b c => [encT 0x12 e (eRd a) (eRs b) (eRs c)]
  | .smaxN64 e a b c => [encT 0x13 e (eRd a) (eRs b) (eRs c)]
  | .sclzB64 e a b => [encT 0x14 e (eRd a) (eRs b) 0#8]
  | .spopcB64 e a b => [encT 0x15 e (eRd a) (eRs b) 0#8]
  | .sextS32 e a b => [encT 0x16 e (eRd a) (eRs b) 0#8]
  | .sextN32 e a b => [encT 0x17 e (eRd a) (eRs b) 0#8]
  | .sceqB64 e a b c => [encT 0x18 e (ePrd a) (eRs b) (eRs c)]
  | .scneB64 e a b c => [encT 0x19 e (ePrd a) (eRs b) (eRs c)]
  | .scltS64 e a b c => [encT 0x1A e (ePrd a) (eRs b) (eRs c)]
  | .scltN64 e a b c => [encT 0x1B e (ePrd a) (eRs b) (eRs c)]
  | .scleS64 e a b c => [encT 0x1C e (ePrd a) (eRs b) (eRs c)]
  | .scleN64 e a b c => [encT 0x1D e (ePrd a) (eRs b) (eRs c)]
  | .sselB64 e a b c d => [encT 0x1E e (eRd a) (eRs b) (eRs c), encM 0#2 (eTy .b64) 0#4 (ePrs d)]
  | .qand e a b c => [encT 0x20 e (ePrd a) (ePrs b) (ePrs c)]
  | .qor e a b c => [encT 0x21 e (ePrd a) (ePrs b) (ePrs c)]
  | .qxor e a b c => [encT 0x22 e (ePrd a) (ePrs b) (ePrs c)]
  | .qnot e a b => [encT 0x23 e (ePrd a) (ePrs b) 0#8]
  | .vaddB32 e a b c => [encT 0x00 e (eVd a) (eVs b) (eVs c)]
  | .vsubB32 e a b c => [encT 0x01 e (eVd a) (eVs b) (eVs c)]
  | .vmulB32 e a b c => [encT 0x02 e (eVd a) (eVs b) (eVs c)]
  | .vmulhS32 e a b c => [encT 0x03 e (eVd a) (eVs b) (eVs c)]
  | .vmulhN32 e a b c => [encT 0x04 e (eVd a) (eVs b) (eVs c)]
  | .vaddiB32 e a i => [encI 0x05 e (eRd a) i]
  | .vmoviB32 e a i => [encI 0x06 e (eVd a) i]
  | .vmovlB32 e a lit => [encT 0x07 e (eVd a) 0#8 0#8, lit]
  | .vaddsS32 e a b c => [encT 0x08 e (eVd a) (eVs b) (eVs c)]
  | .vaddsN32 e a b c => [encT 0x09 e (eVd a) (eVs b) (eVs c)]
  | .vsubsS32 e a b c => [encT 0x0A e (eVd a) (eVs b) (eVs c)]
  | .vsubsN32 e a b c => [encT 0x0B e (eVd a) (eVs b) (eVs c)]
  | .vminS32 e a b c => [encT 0x0C e (eVd a) (eVs b) (eVs c)]
  | .vminN32 e a b c => [encT 0x0D e (eVd a) (eVs b) (eVs c)]
  | .vmaxS32 e a b c => [encT 0x0E e (eVd a) (eVs b) (eVs c)]
  | .vmaxN32 e a b c => [encT 0x0F e (eVd a) (eVs b) (eVs c)]
  | .vandB32 e a b c => [encT 0x10 e (eVd a) (eVs b) (eVs c)]
  | .vorB32 e a b c => [encT 0x11 e (eVd a) (eVs b) (eVs c)]
  | .vxorB32 e a b c => [encT 0x12 e (eVd a) (eVs b) (eVs c)]
  | .vnotB32 e a b => [encT 0x13 e (eVd a) (eVs b) 0#8]
  | .vshlB32 e a b c => [encT 0x14 e (eVd a) (eVs b) (eVs c)]
  | .vshrN32 e a b c => [encT 0x15 e (eVd a) (eVs b) (eVs c)]
  | .vshrS32 e a b c => [encT 0x16 e (eVd a) (eVs b) (eVs c)]
  | .vmovB32 e a b => [encT 0x17 e (eVd a) (eVs b) 0#8]
  | .vabsS32 e a b => [encT 0x18 e (eVd a) (eVs b) 0#8]
  | .vnegS32 e a b => [encT 0x19 e (eVd a) (eVs b) 0#8]
  | .vpopcB32 e a b => [encT 0x1A e (eVd a) (eVs b) 0#8]
  | .vclzB32 e a b => [encT 0x1B e (eVd a) (eVs b) 0#8]
  | .vbrevB32 e a b => [encT 0x1C e (eVd a) (eVs b) 0#8]
  | .vbfxN32 e a b c len => [encT 0x1D e (eVd a) (eVs b) (eVs c), encM 0#2 (eTy .n32) 0#4 (len.zeroExtend 8)]
  | .vbfxS32 e a b c len => [encT 0x1E e (eVd a) (eVs b) (eVs c), encM 0#2 (eTy .s32) 0#4 (len.zeroExtend 8)]
  | .vbfiB32 e a b c len => [encT 0x1F e (eRd a) (eVs b) (eVs c), encM 0#2 (eTy .b32) 0#4 (len.zeroExtend 8)]
  | .vceqB32 e a b c => [encT 0x20 e (ePrd a) (eVs b) (eVs c)]
  | .vcneB32 e a b c => [encT 0x21 e (ePrd a) (eVs b) (eVs c)]
  | .vcltS32 e a b c => [encT 0x22 e (ePrd a) (eVs b) (eVs c)]
  | .vcltN32 e a b c => [encT 0x23 e (ePrd a) (eVs b) (eVs c)]
  | .vcleS32 e a b c => [encT 0x24 e (ePrd a) (eVs b) (eVs c)]
  | .vcleN32 e a b c => [encT 0x25 e (ePrd a) (eVs b) (eVs c)]
  | .vselB32 e a b c d => [encT 0x26 e (eVd a) (eVs b) (eVs c), encM 0#2 (eTy .b32) 0#4 (ePrs d)]
  | .vext e ty st a b i => [encT 0x27 e (eVd a) (eVs b) i, encM 0#2 (eTy ty) (eTy st) 0#8]
  | .pand e a b c => [encT 0x28 e (ePrd a) (ePrs b) (ePrs c)]
  | .por e a b c => [encT 0x29 e (ePrd a) (ePrs b) (ePrs c)]
  | .pxor e a b c => [encT 0x2A e (ePrd a) (ePrs b) (ePrs c)]
  | .pnot e a b => [encT 0x2B e (ePrd a) (ePrs b) 0#8]
  | .vbcast e a b => [encT 0x2C e (eVd a) (eRs b) 0#8]
  | .vfirst e a b => [encT 0x2D e (eRd a) (eVs b) 0#8]
  | .vlane e a b c => [encT 0x2E e (eRd a) (eVs b) (eRs c)]
  | .vvote e a b => [encT 0x2F e (eRd a) (ePrs b) 0#8]
  | .vshflB32 e a b c => [encT 0x30 e (eVd a) (eVs b) (eVs c)]
  | .vrsumB32 e a b => [encT 0x31 e (eVd a) (eVs b) 0#8]
  | .vrminS32 e a b => [encT 0x32 e (eVd a) (eVs b) 0#8]
  | .vrminN32 e a b => [encT 0x33 e (eVd a) (eVs b) 0#8]
  | .vrmaxS32 e a b => [encT 0x34 e (eVd a) (eVs b) 0#8]
  | .vrmaxN32 e a b => [encT 0x35 e (eVd a) (eVs b) 0#8]
  | .vscanB32 e a b => [encT 0x36 e (eVd a) (eVs b) 0#8]
  | .vrotlB32 e a b c => [encT 0x37 e (eVd a) (eVs b) (eVs c)]
  | .fadd e a b c => [encT 0x00 e (eVd a) (eVs b) (eVs c)]
  | .faddX e ty m a b c => [encT 0x01 e (eVd a) (eVs b) (eVs c), encM (eRnd m) (eTy ty) 0#4 0#8]
  | .fsub e a b c => [encT 0x02 e (eVd a) (eVs b) (eVs c)]
  | .fsubX e ty m a b c => [encT 0x03 e (eVd a) (eVs b) (eVs c), encM (eRnd m) (eTy ty) 0#4 0#8]
  | .fmul e a b c => [encT 0x04 e (eVd a) (eVs b) (eVs c)]
  | .fmulX e ty m a b c => [encT 0x05 e (eVd a) (eVs b) (eVs c), encM (eRnd m) (eTy ty) 0#4 0#8]
  | .ffma e a b c => [encT 0x06 e (eRd a) (eVs b) (eVs c)]
  | .ffmaX e ty m a b c d => [encT 0x07 e (eVd a) (eVs b) (eVs c), encM (eRnd m) (eTy ty) 0#4 (eVs d)]
  | .fdiv e a b c => [encT 0x08 e (eVd a) (eVs b) (eVs c)]
  | .fdivX e ty m a b c => [encT 0x09 e (eVd a) (eVs b) (eVs c), encM (eRnd m) (eTy ty) 0#4 0#8]
  | .fsqrt e a b => [encT 0x0A e (eVd a) (eVs b) 0#8]
  | .fsqrtX e ty m a b => [encT 0x0B e (eVd a) (eVs b) 0#8, encM (eRnd m) (eTy ty) 0#4 0#8]
  | .fmin e a b c => [encT 0x0C e (eVd a) (eVs b) (eVs c)]
  | .fmax e a b c => [encT 0x0D e (eVd a) (eVs b) (eVs c)]
  | .fabs e a b => [encT 0x0E e (eVd a) (eVs b) 0#8]
  | .fneg e a b => [encT 0x0F e (eVd a) (eVs b) 0#8]
  | .fceq e a b c => [encT 0x10 e (ePrd a) (eVs b) (eVs c)]
  | .fclt e a b c => [encT 0x11 e (ePrd a) (eVs b) (eVs c)]
  | .fcle e a b c => [encT 0x12 e (ePrd a) (eVs b) (eVs c)]
  | .fcun e a b c => [encT 0x13 e (ePrd a) (eVs b) (eVs c)]
  | .fcvt e ty st m a b i j => [encT 0x14 e (eVd a) (eVs b) i, encM (eRnd m) (eTy ty) (eTy st) j]
  | .fscl e a b c => [encT 0x15 e (eVd a) (eVs b) (eVs c)]
  | .fsclX e m a b c => [encT 0x16 e (eVd a) (eVs b) (eVs c), encM (eRnd m) (eTy .f32) 0#4 0#8]
  | .pdot4 e ty st m a b c d => [encT 0x18 e (eVd a) (eVs b) (eVs c), encM (eRnd m) (eTy ty) (eTy st) (eVs d)]
  | .pdot8 e ty st m a b c d => [encT 0x19 e (eVd a) (eVs b) (eVs c), encM (eRnd m) (eTy ty) (eTy st) (eVs d)]
  | .hadd2 e ty m a b c => [encT 0x1A e (eVd a) (eVs b) (eVs c), encM (eRnd m) (eTy ty) 0#4 0#8]
  | .hmul2 e ty m a b c => [encT 0x1B e (eVd a) (eVs b) (eVs c), encM (eRnd m) (eTy ty) 0#4 0#8]
  | .hfma2 e ty m a b c d => [encT 0x1C e (eVd a) (eVs b) (eVs c), encM (eRnd m) (eTy ty) 0#4 (eVs d)]
  | .fred e m a b op => [encT 0x1D e (eVd a) (eVs b) (op.zeroExtend 8), encM (eRnd m) (eTy .f32) 0#4 0#8]
  | .cfadd e a b c => [encT 0x20 e (eRd a) (eRs b) (eVs c)]
  | .cfred e a b => [encT 0x21 e (eRd a) (eRs b) 0#8]
  | .cfnorm e a b c => [encT 0x22 e (eVd a) (eVs b) (eVs c)]
  | .cfnormX e ty m a b c => [encT 0x23 e (eVd a) (eVs b) (eVs c), encM (eRnd m) (eTy ty) 0#4 0#8]
  | .ldS8 e a b c => [encT 0x00 e (eRd a) (eRs b) (eVs c)]
  | .ldN8 e a b c => [encT 0x01 e (eRd a) (eRs b) (eVs c)]
  | .ldS16 e a b c => [encT 0x02 e (eRd a) (eRs b) (eVs c)]
  | .ldN16 e a b c => [encT 0x03 e (eRd a) (eRs b) (eVs c)]
  | .ldB32 e a b c => [encT 0x04 e (eRd a) (eRs b) (eVs c)]
  | .ldB64 e a b c => [encT 0x05 e (eRd a) (eRs b) (eVs c)]
  | .ldB128 e a b c => [encT 0x06 e (eRd a) (eRs b) (eVs c)]
  | .ldc e a b c => [encT 0x07 e (eRd a) (eRs b) (eVs c)]
  | .stB8 e a b c => [encT 0x08 e (eVs a) (eRs b) (eVs c)]
  | .stB16 e a b c => [encT 0x09 e (eVs a) (eRs b) (eVs c)]
  | .stB32 e a b c => [encT 0x0A e (eVs a) (eRs b) (eVs c)]
  | .stB64 e a b c => [encT 0x0B e (eRs a) (eRs b) (eVs c)]
  | .stB128 e a b c => [encT 0x0C e (eRs a) (eRs b) (eVs c)]
  | .stc e a b c => [encT 0x0D e (eRs a) (eRs b) (eVs c)]
  | .wldB32 e a b c => [encT 0x0E e (eRd a) (eVs b) (eVs c)]
  | .wldB128 e a b c => [encT 0x0F e (eRd a) (eVs b) (eVs c)]
  | .ldsB32 e a b => [encT 0x10 e (eRd a) (eVs b) 0#8]
  | .ldsB64 e a b => [encT 0x11 e (eRd a) (eVs b) 0#8]
  | .ldsB128 e a b => [encT 0x12 e (eRd a) (eVs b) 0#8]
  | .stsB32 e a b => [encT 0x13 e (eVs a) (eVs b) 0#8]
  | .stsB64 e a b => [encT 0x14 e (eRs a) (eVs b) 0#8]
  | .stsB128 e a b => [encT 0x15 e (eRs a) (eVs b) 0#8]
  | .put e a b c => [encT 0x16 e (eVs a) (eVs b) (eVs c)]
  | .get e a b c => [encT 0x17 e (eVs a) (eVs b) (eVs c)]
  | .aadd e ty o a b c d => [encT 0x18 e (eRd a) (eRs b) (eVs c), encM (eOrd o) (eTy ty) 0#4 (eVs d)]
  | .amin e ty o a b c d => [encT 0x19 e (eRd a) (eRs b) (eVs c), encM (eOrd o) (eTy ty) 0#4 (eVs d)]
  | .amax e ty o a b c d => [encT 0x1A e (eRd a) (eRs b) (eVs c), encM (eOrd o) (eTy ty) 0#4 (eVs d)]
  | .aand e ty o a b c d => [encT 0x1B e (eRd a) (eRs b) (eVs c), encM (eOrd o) (eTy ty) 0#4 (eVs d)]
  | .aor e ty o a b c d => [encT 0x1C e (eRd a) (eRs b) (eVs c), encM (eOrd o) (eTy ty) 0#4 (eVs d)]
  | .axor e ty o a b c d => [encT 0x1D e (eRd a) (eRs b) (eVs c), encM (eOrd o) (eTy ty) 0#4 (eVs d)]
  | .axchg e ty o a b c d => [encT 0x1E e (eRd a) (eRs b) (eVs c), encM (eOrd o) (eTy ty) 0#4 (eVs d)]
  | .acas e ty o a b c d => [encT 0x1F e (eRd a) (eRs b) (eVs c), encM (eOrd o) (eTy ty) 0#4 (eVs d)]
  | .acquire e => [encT 0x20 e 0#8 0#8 0#8]
  | .release e => [encT 0x21 e 0#8 0#8 0#8]
  | .fence e => [encT 0x22 e 0#8 0#8 0#8]
  | .cbnd e a b c => [encT 0x24 e (eRd a) (eRs b) (eRs c)]
  | .cperm e a i => [encI 0x25 e (eRd a) (i.zeroExtend 16)]
  | .cadd e a b c => [encT 0x26 e (eRd a) (eRs b) (eRs c)]
  | .cset e a b c => [encT 0x27 e (eRd a) (eRs b) (eRs c)]
  | .cseal e a b c => [encT 0x28 e (eRd a) (eRs b) (eRs c)]
  | .cmov e a b => [encT 0x29 e (eRd a) (eRs b) 0#8]
  | .cget e a b sel => [encT 0x2A e (eVd a) (eRs b) (sel.zeroExtend 8)]
  | .ctag e a b c => [encT 0x2B e (ePrd a) (eRs b) (eVs c)]
  | .cbcast e a b => [encT 0x2C e (eRd a) (eRs b) 0#8]
  | .chbind e ch b c => [encT 0x30 e (eCh ch) (eRs b) (eRs c)]
  | .chfree e a ch => [encT 0x31 e (eRd a) (eCh ch) 0#8]
  | .chstat e a ch => [encT 0x32 e (eRd a) (eCh ch) 0#8]
  | .spanq e a b c => [encT 0x34 e (eRd a) (eRs b) (eVs c)]
  | .cpy e a b c d => [encT 0x00 e (eRs a) (eRs b) (eVs c), encM 0#2 (eTy .f32) 0#4 (eVs d)]
  | .cpysIn e a b c d => [encT 0x01 e (eVs a) (eRs b) (eVs c), encM 0#2 (eTy .f32) 0#4 (eVs d)]
  | .cpysOut e a b c d => [encT 0x01 e (eVs a) (eRs b) (eVs c), encM 1#2 (eTy .f32) 0#4 (eVs d)]
  | .mcast e a b c d => [encT 0x02 e (eVs a) (eRs b) (eVs c), encM 0#2 (eTy .f32) 0#4 (eVs d)]
  | .cpyq e a b => [encT 0x03 e (eVd a) (eVs b) 0#8]
  | .oclaim e a b => [encT 0x08 e (eRs a) (eRs b) 0#8]
  | .orel e a b => [encT 0x09 e (eRs a) (eRs b) 0#8]
  | .oload e o b c src => [encT 0x0A e (o.zeroExtend 8) (eRs b) (eRs c), encM 0#2 (eTy .f32) 0#4 (eBit src)]
  | .mfence e => [encT 0x0B e 0#8 0#8 0#8]
  | .mpair e ty st a b place acc => [encT 0x10 e (eRs a) (eRs b) place, encM 0#2 (eTy ty) (eTy st) (eBit acc)]
  | .accrd e ty m v tile c => [encT 0x11 e (v.zeroExtend 8) (tile.zeroExtend 8) (eRs c), encM (eRnd m) (eTy ty) 0#4 0#8]
  | .accwr e ty tile v c => [encT 0x12 e (tile.zeroExtend 8) (v.zeroExtend 8) (eRs c), encM 0#2 (eTy ty) 0#4 0#8]
  | .accclr e tile ver => [encI 0x13 e (tile.zeroExtend 8) ver]
  | .accwt e tile ver => [encI 0x14 e (tile.zeroExtend 8) ver]
  | .accver e a tile => [encT 0x15 e (eRd a) (tile.zeroExtend 8) 0#8]
  | .sclwSet e m b => [encT 0x18 e (m.zeroExtend 8) (eRs b) 0#8]
  | .sclwAdd e m b => [encT 0x18 e (m.zeroExtend 8) (eRs b) 1#8]
  | .sclr e a m => [encT 0x19 e (eRd a) (m.zeroExtend 8) 0#8]
  | .clauseIssue _ => []
  | .rcvHoldTimeout _ => []
  | .timingErrorReplay _ => []
  | .blockExit _ => []
  | .childGridComplete _ => []
  | .memoryRequest _ _ _ => []
  | .storeRegister _ _ => []
  | .lossNotice _ _ => []
  | .atomicPerform _ _ => []
  | .loadArrival _ _ => []
  | .wcDrainTimeout _ _ => []
  | .refreshWindowStart => []
  | .refreshWindowEnd => []
  | .windowTransferComplete _ _ => []
  | .copyPart _ _ _ _ => []
  | .copyComplete _ _ => []
  | .oloadComplete _ => []
  | .tileOpStart _ => []
  | .mpairRetire _ => []
  | .tileOpComplete _ => []
  | .barComplete _ => []
  | .gangBarrierArrival _ => []
  | .sstepArrival _ => []
  | .spanMoveComplete _ _ _ => []
  | .settleExpiry _ => []
  | .revokeProceed _ => []
  | .revocationPoint _ => []
  | .sweepRegisterScan _ => []
  | .sweepComplete _ => []
  | .invalidationComplete _ => []
  | .frameScrub _ => []
  | .worldEndComplete _ => []
  | .keyretComplete _ => []
  | .pmlimApply _ => []
  | .wscopyProceed _ => []
  | .launchRecord _ _ => []
  | .blockPlacement _ => []
  | .launchComplete _ _ => []
  | .sliceEnd _ => []
  | .blockSave _ => []
  | .blockRestore _ _ => []
  | .gangReady _ => []
  | .gangDeadline _ _ => []
  | .faultRecordPost => []
  | .tick _ => []
  | .marginRelax _ => []
  | .powerCeilingExpiry _ => []
  | .dieRetire _ => []
  | .chargeReport => []
  | .stepChangeBegin _ => []
  | .supplyRampEnd _ => []
  | .relockEnd _ => []
  | .supplyLowerEnd _ => []
  | .leaseGrant _ _ => []
  | .leaseExpiry => []
  | .meterSample _ => []
  | .meterReadingWrite _ => []
  | .checkpoint _ => []
  | .linkPacketReceive _ => []
  | .fabricPacketArrival _ => []
  | .completionTimeout _ _ => []
  | .uncorrectableError _ => []
  | .linkCrcError _ => []
  | .coreRemap _ => []
  | .boot _ => []
  | .sqt _ _ => []
  | .completionPost _ => []
  | .cqh _ _ => []
  | .rh _ _ => []
  | .trej _ => []
  | .latchedHalfRead _ _ => []
  | .registerWrite _ _ _ => []
  | .ctxnew _ _ _ => []
  | .ctxwr _ _ _ _ _ => []
  | .ctxend _ _ => []
  | .revoke _ _ => []
  | .invalObject _ _ => []
  | .invalSpan _ _ _ => []
  | .invalStage2 _ _ => []
  | .retry _ _ => []
  | .dispose _ _ _ => []
  | .handler _ _ _ _ _ => []
  | .wscopy _ _ _ _ _ _ => []
  | .partwr _ _ _ => []
  | .vacate _ _ _ => []
  | .vacateReopen _ _ _ => []
  | .keyrel _ _ => []
  | .keyret _ _ _ => []
  | .dbgwr _ _ => []
  | .stopNow _ => []
  | .stopAt _ _ _ _ => []
  | .view _ _ _ _ _ => []
  | .resume _ => []
  | .fncfg _ _ _ _ _ _ => []
  | .worldnew _ _ _ _ _ _ => []
  | .worldend _ _ => []
  | .qtrd _ _ _ => []
  | .sidebandReadIdentity => []
  | .sidebandReadTelemetry => []
  | .sidebandReadLogs => []
  | .sidebandLeaseFloor _ => []
  | .sidebandRetire _ _ _ => []
  | .sidebandReset => []
  | .returnToService _ _ => []

/-- The engine class of an instruction; an event has none. -/
def Instr.eng : Instr → Option Eng
  | .nop _ => some .ctl
  | .jmp _ => some .ctl
  | .bra _ _ => some .ctl
  | .bru _ _ => some .ctl
  | .jmpc _ => some .ctl
  | .call _ _ => some .ctl
  | .callc _ _ => some .ctl
  | .ret _ => some .ctl
  | .exit => some .ctl
  | .bar _ => some .ctl
  | .bara _ _ _ => some .ctl
  | .barw _ _ => some .ctl
  | .gbar => some .ctl
  | .grdbar => some .ctl
  | .sstepCluster => some .ctl
  | .sstepDie => some .ctl
  | .fork _ _ => some .ctl
  | .wait _ _ => some .ctl
  | .yield => some .ctl
  | .trap _ _ => some .ctl
  | .loop _ _ => some .ctl
  | .hint _ _ _ _ _ => some .ctl
  | .rdsr _ _ _ _ => some .sys
  | .rdsu _ _ _ _ => some .sys
  | .opreq _ _ _ => some .sys
  | .mtrq _ _ _ => some .sys
  | .msamp _ _ _ => some .sys
  | .rpush _ _ => some .sys
  | .rpop _ => some .sys
  | .trmark _ _ => some .sys
  | .bkpt _ _ => some .sys
  | .chkpt _ => some .sys
  | .dbgstop _ => some .sys
  | .trctlStart _ => some .sys
  | .trctlStop _ => some .sys
  | .trctlFreeze _ => some .sys
  | .trctlThaw _ => some .sys
  | .plwr _ _ _ => some .sys
  | .qtwr _ _ _ => some .sys
  | .limwr _ _ _ => some .sys
  | .wtwr _ _ _ => some .sys
  | .srwr _ _ _ _ => some .sys
  | .saddB64 _ _ _ _ => some .uni
  | .ssubB64 _ _ _ _ => some .uni
  | .smulB64 _ _ _ _ => some .uni
  | .smulhS64 _ _ _ _ => some .uni
  | .smulhN64 _ _ _ _ => some .uni
  | .saddiB64 _ _ _ => some .uni
  | .smoviB64 _ _ _ => some .uni
  | .smovlB64 _ _ _ _ => some .uni
  | .sandB64 _ _ _ _ => some .uni
  | .sorB64 _ _ _ _ => some .uni
  | .sxorB64 _ _ _ _ => some .uni
  | .snotB64 _ _ _ => some .uni
  | .sshlB64 _ _ _ _ => some .uni
  | .sshrN64 _ _ _ _ => some .uni
  | .sshrS64 _ _ _ _ => some .uni
  | .smovB64 _ _ _ => some .uni
  | .sminS64 _ _ _ _ => some .uni
  | .sminN64 _ _ _ _ => some .uni
  | .smaxS64 _ _ _ _ => some .uni
  | .smaxN64 _ _ _ _ => some .uni
  | .sclzB64 _ _ _ => some .uni
  | .spopcB64 _ _ _ => some .uni
  | .sextS32 _ _ _ => some .uni
  | .sextN32 _ _ _ => some .uni
  | .sceqB64 _ _ _ _ => some .uni
  | .scneB64 _ _ _ _ => some .uni
  | .scltS64 _ _ _ _ => some .uni
  | .scltN64 _ _ _ _ => some .uni
  | .scleS64 _ _ _ _ => some .uni
  | .scleN64 _ _ _ _ => some .uni
  | .sselB64 _ _ _ _ _ => some .uni
  | .qand _ _ _ _ => some .uni
  | .qor _ _ _ _ => some .uni
  | .qxor _ _ _ _ => some .uni
  | .qnot _ _ _ => some .uni
  | .vaddB32 _ _ _ _ => some .vint
  | .vsubB32 _ _ _ _ => some .vint
  | .vmulB32 _ _ _ _ => some .vint
  | .vmulhS32 _ _ _ _ => some .vint
  | .vmulhN32 _ _ _ _ => some .vint
  | .vaddiB32 _ _ _ => some .vint
  | .vmoviB32 _ _ _ => some .vint
  | .vmovlB32 _ _ _ => some .vint
  | .vaddsS32 _ _ _ _ => some .vint
  | .vaddsN32 _ _ _ _ => some .vint
  | .vsubsS32 _ _ _ _ => some .vint
  | .vsubsN32 _ _ _ _ => some .vint
  | .vminS32 _ _ _ _ => some .vint
  | .vminN32 _ _ _ _ => some .vint
  | .vmaxS32 _ _ _ _ => some .vint
  | .vmaxN32 _ _ _ _ => some .vint
  | .vandB32 _ _ _ _ => some .vint
  | .vorB32 _ _ _ _ => some .vint
  | .vxorB32 _ _ _ _ => some .vint
  | .vnotB32 _ _ _ => some .vint
  | .vshlB32 _ _ _ _ => some .vint
  | .vshrN32 _ _ _ _ => some .vint
  | .vshrS32 _ _ _ _ => some .vint
  | .vmovB32 _ _ _ => some .vint
  | .vabsS32 _ _ _ => some .vint
  | .vnegS32 _ _ _ => some .vint
  | .vpopcB32 _ _ _ => some .vint
  | .vclzB32 _ _ _ => some .vint
  | .vbrevB32 _ _ _ => some .vint
  | .vbfxN32 _ _ _ _ _ => some .vint
  | .vbfxS32 _ _ _ _ _ => some .vint
  | .vbfiB32 _ _ _ _ _ => some .vint
  | .vceqB32 _ _ _ _ => some .vint
  | .vcneB32 _ _ _ _ => some .vint
  | .vcltS32 _ _ _ _ => some .vint
  | .vcltN32 _ _ _ _ => some .vint
  | .vcleS32 _ _ _ _ => some .vint
  | .vcleN32 _ _ _ _ => some .vint
  | .vselB32 _ _ _ _ _ => some .vint
  | .vext _ _ _ _ _ _ => some .vint
  | .pand _ _ _ _ => some .vint
  | .por _ _ _ _ => some .vint
  | .pxor _ _ _ _ => some .vint
  | .pnot _ _ _ => some .vint
  | .vbcast _ _ _ => some .vint
  | .vfirst _ _ _ => some .vint
  | .vlane _ _ _ _ => some .vint
  | .vvote _ _ _ => some .vint
  | .vshflB32 _ _ _ _ => some .vint
  | .vrsumB32 _ _ _ => some .vint
  | .vrminS32 _ _ _ => some .vint
  | .vrminN32 _ _ _ => some .vint
  | .vrmaxS32 _ _ _ => some .vint
  | .vrmaxN32 _ _ _ => some .vint
  | .vscanB32 _ _ _ => some .vint
  | .vrotlB32 _ _ _ _ => some .vint
  | .fadd _ _ _ _ => some .vflt
  | .faddX _ _ _ _ _ _ => some .vflt
  | .fsub _ _ _ _ => some .vflt
  | .fsubX _ _ _ _ _ _ => some .vflt
  | .fmul _ _ _ _ => some .vflt
  | .fmulX _ _ _ _ _ _ => some .vflt
  | .ffma _ _ _ _ => some .vflt
  | .ffmaX _ _ _ _ _ _ _ => some .vflt
  | .fdiv _ _ _ _ => some .vflt
  | .fdivX _ _ _ _ _ _ => some .vflt
  | .fsqrt _ _ _ => some .vflt
  | .fsqrtX _ _ _ _ _ => some .vflt
  | .fmin _ _ _ _ => some .vflt
  | .fmax _ _ _ _ => some .vflt
  | .fabs _ _ _ => some .vflt
  | .fneg _ _ _ => some .vflt
  | .fceq _ _ _ _ => some .vflt
  | .fclt _ _ _ _ => some .vflt
  | .fcle _ _ _ _ => some .vflt
  | .fcun _ _ _ _ => some .vflt
  | .fcvt _ _ _ _ _ _ _ _ => some .vflt
  | .fscl _ _ _ _ => some .vflt
  | .fsclX _ _ _ _ _ => some .vflt
  | .pdot4 _ _ _ _ _ _ _ _ => some .vflt
  | .pdot8 _ _ _ _ _ _ _ _ => some .vflt
  | .hadd2 _ _ _ _ _ _ => some .vflt
  | .hmul2 _ _ _ _ _ _ => some .vflt
  | .hfma2 _ _ _ _ _ _ _ => some .vflt
  | .fred _ _ _ _ _ => some .vflt
  | .cfadd _ _ _ _ => some .vflt
  | .cfred _ _ _ => some .vflt
  | .cfnorm _ _ _ _ => some .vflt
  | .cfnormX _ _ _ _ _ _ => some .vflt
  | .ldS8 _ _ _ _ => some .mem
  | .ldN8 _ _ _ _ => some .mem
  | .ldS16 _ _ _ _ => some .mem
  | .ldN16 _ _ _ _ => some .mem
  | .ldB32 _ _ _ _ => some .mem
  | .ldB64 _ _ _ _ => some .mem
  | .ldB128 _ _ _ _ => some .mem
  | .ldc _ _ _ _ => some .mem
  | .stB8 _ _ _ _ => some .mem
  | .stB16 _ _ _ _ => some .mem
  | .stB32 _ _ _ _ => some .mem
  | .stB64 _ _ _ _ => some .mem
  | .stB128 _ _ _ _ => some .mem
  | .stc _ _ _ _ => some .mem
  | .wldB32 _ _ _ _ => some .mem
  | .wldB128 _ _ _ _ => some .mem
  | .ldsB32 _ _ _ => some .mem
  | .ldsB64 _ _ _ => some .mem
  | .ldsB128 _ _ _ => some .mem
  | .stsB32 _ _ _ => some .mem
  | .stsB64 _ _ _ => some .mem
  | .stsB128 _ _ _ => some .mem
  | .put _ _ _ _ => some .mem
  | .get _ _ _ _ => some .mem
  | .aadd _ _ _ _ _ _ _ => some .mem
  | .amin _ _ _ _ _ _ _ => some .mem
  | .amax _ _ _ _ _ _ _ => some .mem
  | .aand _ _ _ _ _ _ _ => some .mem
  | .aor _ _ _ _ _ _ _ => some .mem
  | .axor _ _ _ _ _ _ _ => some .mem
  | .axchg _ _ _ _ _ _ _ => some .mem
  | .acas _ _ _ _ _ _ _ => some .mem
  | .acquire _ => some .mem
  | .release _ => some .mem
  | .fence _ => some .mem
  | .cbnd _ _ _ _ => some .mem
  | .cperm _ _ _ => some .mem
  | .cadd _ _ _ _ => some .mem
  | .cset _ _ _ _ => some .mem
  | .cseal _ _ _ _ => some .mem
  | .cmov _ _ _ => some .mem
  | .cget _ _ _ _ => some .mem
  | .ctag _ _ _ _ => some .mem
  | .cbcast _ _ _ => some .mem
  | .chbind _ _ _ _ => some .mem
  | .chfree _ _ _ => some .mem
  | .chstat _ _ _ => some .mem
  | .spanq _ _ _ _ => some .mem
  | .cpy _ _ _ _ _ => some .asy
  | .cpysIn _ _ _ _ _ => some .asy
  | .cpysOut _ _ _ _ _ => some .asy
  | .mcast _ _ _ _ _ => some .asy
  | .cpyq _ _ _ => some .asy
  | .oclaim _ _ _ => some .asy
  | .orel _ _ _ => some .asy
  | .oload _ _ _ _ _ => some .asy
  | .mfence _ => some .asy
  | .mpair _ _ _ _ _ _ _ => some .asy
  | .accrd _ _ _ _ _ _ => some .asy
  | .accwr _ _ _ _ _ => some .asy
  | .accclr _ _ _ => some .asy
  | .accwt _ _ _ => some .asy
  | .accver _ _ _ => some .asy
  | .sclwSet _ _ _ => some .asy
  | .sclwAdd _ _ _ => some .asy
  | .sclr _ _ _ => some .asy
  | .clauseIssue _ => none
  | .rcvHoldTimeout _ => none
  | .timingErrorReplay _ => none
  | .blockExit _ => none
  | .childGridComplete _ => none
  | .memoryRequest _ _ _ => none
  | .storeRegister _ _ => none
  | .lossNotice _ _ => none
  | .atomicPerform _ _ => none
  | .loadArrival _ _ => none
  | .wcDrainTimeout _ _ => none
  | .refreshWindowStart => none
  | .refreshWindowEnd => none
  | .windowTransferComplete _ _ => none
  | .copyPart _ _ _ _ => none
  | .copyComplete _ _ => none
  | .oloadComplete _ => none
  | .tileOpStart _ => none
  | .mpairRetire _ => none
  | .tileOpComplete _ => none
  | .barComplete _ => none
  | .gangBarrierArrival _ => none
  | .sstepArrival _ => none
  | .spanMoveComplete _ _ _ => none
  | .settleExpiry _ => none
  | .revokeProceed _ => none
  | .revocationPoint _ => none
  | .sweepRegisterScan _ => none
  | .sweepComplete _ => none
  | .invalidationComplete _ => none
  | .frameScrub _ => none
  | .worldEndComplete _ => none
  | .keyretComplete _ => none
  | .pmlimApply _ => none
  | .wscopyProceed _ => none
  | .launchRecord _ _ => none
  | .blockPlacement _ => none
  | .launchComplete _ _ => none
  | .sliceEnd _ => none
  | .blockSave _ => none
  | .blockRestore _ _ => none
  | .gangReady _ => none
  | .gangDeadline _ _ => none
  | .faultRecordPost => none
  | .tick _ => none
  | .marginRelax _ => none
  | .powerCeilingExpiry _ => none
  | .dieRetire _ => none
  | .chargeReport => none
  | .stepChangeBegin _ => none
  | .supplyRampEnd _ => none
  | .relockEnd _ => none
  | .supplyLowerEnd _ => none
  | .leaseGrant _ _ => none
  | .leaseExpiry => none
  | .meterSample _ => none
  | .meterReadingWrite _ => none
  | .checkpoint _ => none
  | .linkPacketReceive _ => none
  | .fabricPacketArrival _ => none
  | .completionTimeout _ _ => none
  | .uncorrectableError _ => none
  | .linkCrcError _ => none
  | .coreRemap _ => none
  | .boot _ => none
  | .sqt _ _ => none
  | .completionPost _ => none
  | .cqh _ _ => none
  | .rh _ _ => none
  | .trej _ => none
  | .latchedHalfRead _ _ => none
  | .registerWrite _ _ _ => none
  | .ctxnew _ _ _ => none
  | .ctxwr _ _ _ _ _ => none
  | .ctxend _ _ => none
  | .revoke _ _ => none
  | .invalObject _ _ => none
  | .invalSpan _ _ _ => none
  | .invalStage2 _ _ => none
  | .retry _ _ => none
  | .dispose _ _ _ => none
  | .handler _ _ _ _ _ => none
  | .wscopy _ _ _ _ _ _ => none
  | .partwr _ _ _ => none
  | .vacate _ _ _ => none
  | .vacateReopen _ _ _ => none
  | .keyrel _ _ => none
  | .keyret _ _ _ => none
  | .dbgwr _ _ => none
  | .stopNow _ => none
  | .stopAt _ _ _ _ => none
  | .view _ _ _ _ _ => none
  | .resume _ => none
  | .fncfg _ _ _ _ _ _ => none
  | .worldnew _ _ _ _ _ _ => none
  | .worldend _ _ => none
  | .qtrd _ _ _ => none
  | .sidebandReadIdentity => none
  | .sidebandReadTelemetry => none
  | .sidebandReadLogs => none
  | .sidebandLeaseFloor _ => none
  | .sidebandRetire _ _ _ => none
  | .sidebandReset => none
  | .returnToService _ _ => none

end Sys2Proof
end

