-- ==== Sys2Proof/Machine/State.lean ====
section
/-!
DEFINITION. The state of the package: everything the spec gives the machine, as plain data, and State.reset.
Tables are sparse: a key that is absent stands for the entry's reset value. INVENTORY.md gives each field's rule, width
and reset value; a line here names the rule. Fields marked "model" are the model's own (assumptions 1 to 4).
-/

namespace Sys2Proof.Machine

/-- Why the machine stops. No rule of the spec stops the package: every fault of Table 21.1 is taken by parking lanes or
suspending a unit, and the machine goes on. -/
inductive Fault where
  /-- raised by nobody; the type is kept for the interface (safe) -/
  | none
  deriving DecidableEq, Repr

/-- Why an instruction is refused. -/
inductive Refusal where
  /-- an arm without a meaning, rejected by name (safe: nothing is claimed of it) -/
  | notModelled (mnemonic : String)
  deriving DecidableEq, Repr

/-- A capability: 128 bits and a hidden tag (R97, R100). -/
structure Cap where
  bits : CapBits
  tag : Bool
  deriving DecidableEq, Repr

/-- Byte storage with one tag for each 16-byte granule (R100). `tags` lists the granules whose tag is set, rising.
`bytes` lists no byte that is zero: an unlisted byte reads zero. -/
structure Ram where
  bytes : List Host.Cell
  tags : List Nat
  deriving DecidableEq, Repr

/-! ### Registers -/

/-- Floating-point operations that may be deferred (R246). -/
inductive FOp where | add | sub | mul | fma | div | sqrt | min | max | abs | neg | scl
  deriving DecidableEq, Repr

/-- One recorded operation of a deferred state: which source field is the pending one, and the others' values
(R246). -/
structure DOp where
  op : FOp
  ty : Ty
  m : Rnd
  hole : Nat
  known : List Word
  deriving DecidableEq, Repr

/-- What a lane of a vector register holds when it holds something: a value, a composed state (σ, a, b), or a deferred
state (R191, R194, R246). -/
inductive VCell where
  | val (w : Word)
  | aff (sym : Nat) (a b : Word)
  | dfr (sym : Nat) (ops : List DOp)
  deriving DecidableEq, Repr

/-- The outstanding-operation counters of a lane (R52). -/
structure Ctr where
  ld : Nat
  st : Nat
  cp : Nat
  tl : Nat
  deriving DecidableEq, Repr

/-! ### Issuers -/

/-- A clause in issue: its address, header, words, the lanes whose guard is true (R50), the position (word index, R22)
of its next instruction and the place of that instruction's word. -/
structure Clause where
  addr : Nat
  hdr : Word
  words : List Word
  guard : Lanes
  idx : Nat
  off : Nat
  deriving DecidableEq, Repr

/-- Why an issuer does not go on (R26, Table 1.5). -/
inductive Wait where
  /-- it may issue -/
  | go
  /-- a pending register, a room in the symbol table -/
  | pend
  /-- a channel -/
  | chan (c : BitVec 6)
  /-- a `wait`, `accwt`, `orel` or a clause gate -/
  | lim
  /-- a split barrier (R163) -/
  | barw
  /-- a rendezvous at the scope of the word at its position -/
  | rdv (e : Scope)
  /-- a completed rendezvous that waits for stores to register (`bar`, R161; a release, R145; `mfence`) -/
  | rel
  /-- a gang, grid or superstep barrier (R134, R164) -/
  | inst
  /-- a wide-scope operation held until all of it has passed translation (R198, R207) -/
  | xlate
  /-- a code fetch held by a retryable fault, with its handle (R287) -/
  | fetch (sub : Nat)
  /-- a code fetch sent to the home package of its span at the time given, with the clause address and the key slot (R113, R120, R325) -/
  | code (time a ks : Nat)
  deriving DecidableEq, Repr

/-- An issuer: its lanes, their code capability with CUR at the next clause address (R154), the clause in issue.
`closed`: the rendezvous instance at its position has completed, and its instruction has yet to issue or to leave the point
(R31, R32). `buf`: whole clauses fetched, latest use first: the loop buffer of a diverged lane (R23), for the stream the clause
that it has fetched and that has yet to issue; each under the code capability with CUR at the clause, with header and words. -/
structure Issuer where
  lanes : Lanes
  code : Cap
  cl : Option Clause
  wait : Wait
  closed : Bool := false
  buf : List (Cap × Word × List Word) := []
  deriving DecidableEq, Repr

/-- A bound channel: the ring endpoint of R221. `peer` is the receiver's block for kind 2. -/
structure Chan where
  kind : Nat
  place : Nat
  slot : Nat
  off : Nat
  rlen : Nat
  peer : Option Nat
  deriving DecidableEq, Repr

/-- One member group's arrival at a split barrier (R162). -/
structure Arr where
  arr : Bool
  aph : Bool
  deriving DecidableEq, Repr

/-- A sample whose period has ended: its channel, whether its last tick is still to be corrected, its energy so far, and whether a ratio
was bounded. -/
structure Due where
  chan : BitVec 6
  wait : Bool
  start : Int
  bounded : Bool
  deriving DecidableEq, Repr

/-- Meter sampling of a group (R172): period in ticks, channel, ticks still to be corrected in the period, corrected
energy of those that have been, samples discarded, whether a ratio was bounded, and the sample of a period that ended under an earlier
`msamp`. Period 0: stopped. -/
structure MSamp where
  period : Nat
  chan : BitVec 6
  left : Nat
  start : Int
  drops : Nat
  bounded : Bool
  due : Option Due := none
  deriving DecidableEq, Repr

/-- A group (R17, R22, R23). -/
structure Group where
  /-- v0 to v63: register, then lane; an absent lane holds nothing and reads zero (R268, R270) -/
  v : Tab (Tab VCell)
  /-- set tags of quads: quad number, then lanes (R100) -/
  vt : Tab Lanes
  /-- quads that still stand as an outstanding load left them, by quad number, then lanes: such a quad takes the load's tag
  (R192, R196) -/
  vl : Tab Lanes
  /-- s0 to s63 that are not zero -/
  s : Tab DWord
  /-- pairs whose tag is set -/
  st : List Nat
  /-- p0 to p6 and q0 to q6 (R50) -/
  p : Tab Lanes
  q : BitVec 8
  /-- counters of each lane (R52) -/
  ctr : Tab Ctr
  /-- shadows by special register number (R168) -/
  shadow : Tab DWord
  /-- VIEW0 to VIEW3 (R258) -/
  views : Tab DWord
  /-- label stack, top first, and its overflow count (R173) -/
  labels : List (BitVec 16)
  lovf : Nat
  /-- channel table (R148) -/
  chans : Tab Chan
  /-- split-barrier arrivals (R162) -/
  arr : Tab Arr
  msamp : Option MSamp
  /-- the broadcast stream and the diverged lanes (R23) -/
  stream : Issuer
  div : Tab Issuer
  exited : Lanes
  parked : Lanes
  /-- handles of suspended units that hold this group (R35) -/
  susp : List Nat
  /-- RCV hold: the core cycle it began, and whether its 256 cycles are over (R26) -/
  hold : Option (Nat × Bool)
  /-- the lane whose turn comes next: 0 the stream, k + 1 lane k (R28); a yield's mark (R159) -/
  turn : Nat
  yielded : List Nat
  /-- cycles lost to carding (R276), and the order of residence -/
  passed : Nat
  since : Nat
  /-- model: vector registers written, and not fenced, since the last `mfence` (R147) -/
  vDirty : List Nat
  /-- model: uniform registers that an instruction wrote since the last `mfence`, bit r of register r (R147) -/
  sDirty : BitVec 64 := 0#64
  deriving DecidableEq, Repr

/-! ### Blocks -/

/-- A split barrier (R162). -/
structure SB where
  ph : Bool
  cnta : Nat
  exp : Nat
  deriving DecidableEq, Repr

/-- An accumulator tile: elements by 64 × row + column as raw pairs, zero ones absent, and the version (R250, R253). -/
structure Tile where
  el : Tab DWord
  ver : BitVec 16
  deriving DecidableEq, Repr

/-- Where a block stands (R39, R279, R290). -/
inductive Phase where
  /-- running on a core -/
  | resident
  /-- its save has begun: issue stops at clause boundaries (R290 step 1) -/
  | saving
  /-- saved; ready to be restored -/
  | saved
  /-- saved, and waiting for a child grid, or for the status word of a rejected record (R39) -/
  | forked (child : Option Nat)
  /-- its last group has ended; draining (R158) -/
  | draining
  deriving DecidableEq, Repr

/-- A barrier that a block has come to (R134, R164): its kind, whether it has arrived, and its active lanes. -/
inductive BarKind where | gang | grid | cluster | die
  deriving DecidableEq, Repr

structure BarWait where
  kind : BarKind
  arrived : Bool
  act : List (Nat × Lanes)
  deriving DecidableEq, Repr

/-- What a handle names (R283, R284, R287). -/
inductive Held where
  /-- a parked sub-group: its lanes with the issuer state of each -/
  | lanes (blk gidx : Nat) (ls : List (Nat × Issuer))
  /-- a suspended unit: the groups it holds and the scope -/
  | unit (blk : Nat) (gs : List Nat) (e : Scope)
  /-- a waiting request of an operation -/
  | request (op lane : Nat)
  /-- a code fetch of an issuer -/
  | fetch (r : IRef)
  deriving DecidableEq, Repr

/-- One entry of a replay log (R335, Table 27.2). -/
inductive LogEnt where
  | value (rc : Nat) (kind : Nat) (lane : Nat) (addr value : Nat) (tag : Bool)
  | fault (rc : Nat) (lane code : Nat)
  /-- bytes written into the scratchpad from outside, and whether they are a granule whose tag is set -/
  | bytes (rc : Nat) (off : Nat) (data : List Byte) (tag : Bool)
  | sync (rc : Nat)
  /-- a copy of a lane with a ticket completed -/
  | copies (rc lane : Nat) (ticket : Word)
  /-- the 8,192 bytes of a slot -/
  | oload (rc slot v : Nat)
  /-- an element that came to a fabric queue bound by the block -/
  | elem (rc key : Nat) (w : Word)
  /-- a disposition of what a handle named -/
  | dispo (rc : Nat) (held : Held) (w : DWord)
  /-- the 256 cycles of a group's RCV hold were over (R26) -/
  | hold (rc gidx : Nat)
  deriving DecidableEq, Repr

/-- A block (R17, R20). Its coordinates follow from BIDX and its grid's fan-outs (Table 1.3). -/
structure Block where
  grid : Nat
  bidx : Nat
  pasid : Nat
  /-- the handle a handler block serves (R288) -/
  serves : Option Nat
  /-- the logical core it was placed on, kept under fold (R280), and the core it runs on; core ids are
  64 × die + 32 × cluster + n -/
  core : Nat
  home : Nat
  /-- the core onto which the fold that its save is part of restores it (R280) -/
  foldTo : Option Nat := none
  /-- first core of its cluster unit (R20) -/
  base : Nat
  phase : Phase
  /-- scratchpad allocation in bytes, and its bytes (R126) -/
  spmLen : Nat
  spm : Ram
  /-- claimed slots with their nonzero bytes, claimed tiles, scale registers (R250, R262) -/
  slots : Tab (Tab Byte)
  tiles : Tab Tile
  scl : Tab Int
  sbs : Tab SB
  barw : Option BarWait
  /-- gang ticket and die unit ticket (R326) -/
  ticket : Nat
  dieTicket : Nat
  /-- position: interval number and retired count (R332); a `chkpt` that has retired (R333) -/
  iv : Nat
  rc : Nat
  chk : Bool
  log : List LogEnt
  /-- bytes of the log that stand in the log area (R331) -/
  logOut : Nat := 0
  /-- the group whose turn comes next in a replayable block (R334) -/
  turn : Nat
  /-- accepted forks (R21) and the fork waiting for its status: destination and groups (R166) -/
  forks : Nat
  forkDst : Option (BitVec 6 × List Nat × Nat)
  /-- image slots reserved in the save area (R291), and whether a store has reached the image since the save -/
  slot0 : Option Nat
  slot1 : Option Nat
  imgHit : Bool
  /-- model: scratchpad stores not fenced since the last `mfence` (R147): writer (64 × group + lane), offset, length, and what
  the bytes held before -/
  spmDirty : List (Nat × Nat × Nat × Nat)
  /-- model: when each slot was last filled, and when the block last fenced (R147) -/
  slotAt : Tab Nat
  fenceAt : Nat
  /-- model: elements of bound rings that stores of the program reached, by their offset, each with the number of the free value
  that stands for it (R149) -/
  ringDirty : Tab Nat
  /-- the ready order of a saved block (R271) -/
  since : Nat
  /-- restored in a gang slice that has yet to run: its state is still that of its image (R281) -/
  asSaved : Bool := false
  /-- the die's cycle count, in thousandths, when it was last placed: residency is counted from there (R298) -/
  cyc0 : Nat
  deriving DecidableEq, Repr

/-! ### Outstanding operations -/

/-- What an outstanding operation is (R52). -/
inductive OpKind where
  | load (n : Nat) (signed : Bool) | loadCap
  | store (n : Nat) | storeCap
  | wld (n : Nat)
  | lds (n : Nat) | sts (n : Nat)
  | put | get
  | atomic (op : Nat) (ty : Ty) (o : AOrd)
  | spanq
  | cpy | cpysIn | cpysOut | mcast
  | oload
  deriving DecidableEq, Repr

/-- How far one lane's request has come. -/
inductive Ph where
  /-- on its way to translation, or to the unit that performs it -/
  | sent
  /-- translated; a load of it has its value, a store waits to register -/
  | xlated
  /-- sent to the home package of its span (R113) -/
  | remote
  /-- met a retryable fault; waits under its handle (R287) -/
  | retry (sub : Nat)
  /-- met a terminal fault after issue (R198, R207) -/
  | faulted (code : Nat)
  /-- performed; for a load, all but the delivery -/
  | done
  deriving DecidableEq, Repr

/-- One lane's request of an outstanding operation. -/
structure LReq where
  lane : Nat
  ph : Ph
  /-- the capability used, the checked offset (R105), and for a copy the destination's -/
  cap : Cap
  x : Nat
  cap2 : Cap
  x2 : Nat
  /-- bytes; data operand, comparand; tag of the data -/
  n : Nat
  data : Nat
  data2 : Nat
  tag : Bool
  /-- translated parts: host address, bytes, memory type -/
  parts : List (Nat × Nat × Nat)
  /-- value performed or read, with its tag -/
  val : Nat
  vtag : Bool
  /-- a load: its registers that have arrived for this lane (R196) -/
  got : List Nat
  /-- a copy: the parts not yet written, and destination bytes as they were before it wrote them (R227) -/
  todo : List Nat
  old : Tab Byte
  oldTags : List Nat
  /-- ticket of a copy, or the target block of a window transfer; target blocks of an `mcast` -/
  ticket : Word
  targets : List Nat
  /-- the key slot of a request off the package (R325), its issue time (R345), a probe's header (R340) -/
  ks : Nat
  time : Nat
  probe : Bool
  /-- when it was sent to another package (R345) -/
  sent : Nat := 0
  /-- the parts of a copy or an oload begun and not done, each with whether it bears a probe header (R340) -/
  marks : List (Nat × Bool) := []
  /-- when it met its terminal fault (TIME of the fault's record, R283) -/
  ftime : Nat := 0
  deriving DecidableEq, Repr

/-- An outstanding operation: one for each issue in each group. -/
structure Op where
  kind : OpKind
  blk : Nat
  gidx : Nat
  /-- first destination register, how many, whether they still receive (false after `exit`), and their symbols -/
  dst : Option (BitVec 6)
  syms : List Nat
  closed : Bool
  lanes : List LReq
  /-- a wide scope's unit held until every request has passed translation (R198, R207) -/
  wide : Option Scope
  /-- position of the issue: clause address and word index (R283) -/
  addr : Nat
  idx : Nat
  e : Scope
  /-- the accounts: core that issued it, for L1 ownership and charges -/
  core : Nat
  /-- slot of an `oload`, with its stride -/
  slot : Nat
  stride : Nat
  /-- interval and retired count at issue (R340) -/
  iv : Nat
  rc : Nat
  order : Nat
  deriving DecidableEq, Repr

/-- A request sent to another package whose operation, fetch or reading is gone, or starts over after a restore: it drains with its
answer or its timeout (R199, R325, R345). -/
structure Orphan where
  asked : Asked
  n : Nat
  /-- its context, while it lives -/
  pasid : Option Nat
  world : Nat
  ks : Nat
  sent : Nat
  deriving DecidableEq, Repr

/-- What an operation of the tile queue does (R253). -/
inductive TKind where
  | mpair (as bs fbs t : Nat) (sx : Int) (vl vf : Nat) (acc : Bool) (ta tb : Ty) (follower : Nat)
  | accrd (t ver row col : Nat) (view : DWord) (ty : Ty) (m : Rnd)
  | accwr (t ver row col : Nat) (view : DWord) (ty : Ty)
  | accclr (t ver : Nat)
  deriving DecidableEq, Repr

/-- An operation in a tile queue. `unfenced`: operands written without an `mfence` since (R147). -/
structure TOp where
  kind : TKind
  blk : Nat
  gidx : Nat
  lanes : List (Nat × Lanes)
  running : Bool
  unfenced : Bool
  /-- blocks whose columns alone are undefined: only their own slot was (R255) -/
  sides : List Nat := []
  /-- core cycle at which it started -/
  start : Nat
  order : Nat
  /-- uniform registers that it reads, its descriptor, versions and position, of its first group (R147, R254, R259) -/
  us : List Nat := []
  deriving DecidableEq, Repr

/-! ### Faults -/

/-- A parked sub-group, suspended unit or waiting request, with its records (Table 21.2) and, for a fault found after
issue, the faulted requests (R198). `headless`: its header word could not be fetched (R289). -/
structure Park where
  code : Nat
  pasid : Nat
  held : Held
  recs : List (BitVec 512)
  defer : List (Nat × Nat)
  headless : Bool
  handled : Bool
  /-- a disposition that arrived while the context was saved (R285) -/
  dispo : Option DWord
  deriving DecidableEq, Repr

/-- A ring block (Table 29.6). -/
structure Ring where
  rb : DWord
  rn : BitVec 16
  rt : Word
  rh : Word
  riv : BitVec 16
  rien : Bool
  held : List (List Byte)
  deriving DecidableEq, Repr

/-! ### Contexts, launches, grids -/

/-- A trap handler (R288). -/
structure Handler where
  code : Nat
  entry : Nat
  root : BitVec 128
  deriving DecidableEq, Repr

/-- Capture states (R338). -/
inductive Capture where | off | on | frozen
  deriving DecidableEq, Repr

/-- A sweep of a context in progress (R119): the generations at its start of the objects revoked since, and the groups it
has yet to scan. -/
structure Sweep where
  gens : Tab Nat
  groups : List Nat
  deriving DecidableEq, Repr

/-- A context (Table 19.1). -/
structure Ctx where
  world : Nat
  func : Nat
  spu : Nat
  gng : Bool
  iw : Nat
  wt : Nat
  otbase : Nat
  otlen : Nat
  rate : Nat
  capb : Int
  saveb : Nat
  savel : Nat
  /-- bucket level and lifetime meter (R272, R300) -/
  level : Int
  meter : Int
  /-- values of CTXWR that wait for the tick (R265) -/
  newIw : Option (Nat × Nat × Nat × Int)
  places : Tab Word
  handler : Option Handler
  /-- stopped by an integrity event (R322, R330, R345), by a debug stop (R336); an armed target (R336) -/
  stopped : Bool
  dbgStop : Bool
  armed : Option (Cmd × Nat × Nat × Nat)
  /-- debug descriptor of 96 bytes, a write that waits, capture, trace and sample pointers, probe count (R331, R338,
  R340) -/
  dbg : BitVec 768
  newDbg : Option (BitVec 768)
  cap : Capture
  trp : Nat
  smp : Nat
  probes : Tab Nat
  sweep : Option Sweep
  /-- descheduled by gang misses (R281) -/
  desch : Bool
  deriving DecidableEq, Repr

/-- A host launch (R266, R271). `dep` is the launch it waits on. -/
structure Launch where
  pasid : Nat
  seq : Nat
  iface : Nat
  record : BitVec 512
  dep : Option Nat
  pri : Nat
  grid : Option Nat
  energy : Int
  /-- the code of its completion, with the tick whose correction it waits for (R303) -/
  done : Option (Nat × Nat)
  /-- its completion record waits to be written: the code, and the number of the record in its interface's ring; until then the
  launch is pending (R271) -/
  posted : Option (Nat × Nat) := none
  deriving DecidableEq, Repr

/-- A grid (R17, R18, R38). -/
structure Grid where
  launch : Nat
  pasid : Nat
  parent : Option Nat
  depth : Nat
  setg : Nat
  setn : Nat
  gngb : Nat
  clug : Nat
  diec : Nat
  grdd : Nat
  cor : Bool
  rpl : Bool
  regs : Nat
  spm : Nat
  pri : Nat
  code : Cap
  roots : List Cap
  views : List DWord
  lvl7 : Nat
  /-- die units placed so far, blocks exited so far -/
  placed : Nat
  exited : Nat
  deriving DecidableEq, Repr

/-! ### Dies and cores -/

/-- Why a step changes (Table 23.5 CAUSE). -/
abbrev Cause := Nat

/-- A change of step in progress (R305). -/
inductive Chg where
  | ramp (target : Nat) (cause : Cause) (start : Nat)
  | relock (target : Nat) (cause : Cause) (start : Nat) (lowering : Bool)
  | lower (start : Nat)
  deriving DecidableEq, Repr

/-- A translation cache entry (R115): its tag, the span entry, and the stage-2 results of frames by their number in the
span: host frame, and whether writes are permitted. -/
structure TlbEnt where
  func : Nat
  pasid : Nat
  obn : Nat
  ogen : Nat
  span : Nat
  entry : Nat
  frames : Tab (Nat × Bool)
  deriving DecidableEq, Repr

/-- A die: its crown domain, partition, weight store and translation cache. -/
structure Die where
  step : Nat
  pstep : Nat
  tchg : Word
  /-- changes since reset; NCHG is this number mod 256 -/
  chgs : Nat
  chg : Option Chg
  want : Option (Nat × Cause × Nat)
  /-- ramp or relock that must still begin: target, cause, decision time (R305) -/
  pceil : Nat
  pceilEnd : Nat
  derate : Nat
  lceil : Nat
  margin : Nat
  replays : Nat
  quiet : Nat
  drops : Nat
  derated : Nat
  weights : Tab Word
  newWeights : Tab Word
  factory : Bool
  part : DWord
  pmlim : DWord
  ws : List Host.Cell
  /-- poisoned 64-byte lines of the weight store (R322, R330), and the scramble key under which each line was filled (R320) -/
  wsBad : List Nat
  wsSk : Tab (BitVec 128) := []
  /-- the 64-byte lines that the die's LLC slice holds, by number, rising; at most 4,194,304 (R7, R139) -/
  llc : List Nat := []
  refresh : Option Nat
  trace0 : Tab (BitVec 128)
  trace1 : Tab (BitVec 128)
  povh : Int
  /-- the quantum entries that named the die at its last slice boundary, which give the running slice its quantum and kind; the
  running slice: function and entry, its start and end; gang readiness, and whether a gang slice runs; missed gang slices by function
  and entry (R278, R281) -/
  ents : List (Nat × Nat × Word)
  slice : Option (Nat × Nat)
  sliceStart : Nat
  sliceEnd : Nat
  gangReady : Bool
  gangRuns : Bool
  /-- the blocks of the running slice have been restored, so that its issue may begin (R279) -/
  restored : Bool := true
  inService : Bool
  skew : Int
  cyc : Nat
  tlb : List TlbEnt
  deriving DecidableEq, Repr

/-- A line of a write-combining buffer (R140): when its first byte was merged, the bytes, the stores they are of, and the
granules of the line whose tag a merged capability store sets (R210). -/
structure WcLine where
  time : Nat
  bytes : Tab Byte
  op : List (Nat × Nat)
  tags : List Nat := []
  deriving DecidableEq, Repr

/-- An exposed logical core. -/
structure Core where
  /-- physical core, or absent (R350), and its uncorrectable register-file errors -/
  phys : Option Nat
  errs : Nat
  remap : Bool
  /-- PMLIM as this core applies it (R124), near-memory split in force (R125) -/
  pmlim : DWord
  split : Option Nat
  l1 : Tab (Word × Bool)
  /-- the blocks that fills brought into the L1, by first word and number of words, latest use first (R135) -/
  l1Order : List (Nat × Nat) := []
  wc : Tab WcLine
  /-- deficit counters, pointer, batch class, cycle of the last opportunity (R275, R276) -/
  dc : Tab Nat
  ptr : Nat
  batch : Option Eng
  lastOpp : Nat
  /-- issuers whose clauses wait for the shared entries of the symbol table, in the order of their requests (R193) -/
  symQ : List IRef
  /-- tile queue, in issue order; array busy with an operation (R253, R256) -/
  tileQ : List Nat
  busy : Option Nat
  trej : Nat
  vacated : Bool
  deriving DecidableEq, Repr

/-! ### Memory -/

/-- Metadata of a 64-byte line (Table 25.2, R322): the key slot, SCR, whether it is poisoned, whether its MAC fails, and the MAC of
the last write (R321). The capability tags stand with the bytes. -/
structure Line where
  ks : Nat
  scr : Bool
  poison : Bool
  bad : Bool
  mac : BitVec 56 := 0#56
  deriving DecidableEq, Repr

/-- Moves of a span homed or moving here (R120, R121). -/
structure SpanSt where
  moving : Option Nat
  times : List Nat
  settled : Nat
  deriving DecidableEq, Repr

structure Mem where
  hbm : Ram
  /-- lines whose metadata differs from the state after boot: SCR = 1 (R322) -/
  lines : Tab Line
  owner : Tab Nat
  scrubQ : List Nat
  /-- owner core of each word at its home (R139) -/
  wordOwner : Tab Nat
  /-- keyed by PASID × 2^48 + OBN × 2^20 + span -/
  spans : Tab SpanSt
  /-- save images in memory: base, length, and 2^32 × save + block (R290) -/
  images : List (Nat × Nat × Nat)
  /-- the host frames that stage 2 has given, or named before a write of its table, for a function's guest frame since its last
  invalidation (R115, R327); key:
  function × 2^27 + frame -/
  maps : Tab (List Nat)
  /-- frames reported free after their scrub, first one first (R328) -/
  freed : List Nat := []
  /-- model: for a word of HBM the identifier counter at its last store, which tells the stores to code that came after a
  kernel's launch (R46) -/
  stamp : Tab Nat
  deriving DecidableEq, Repr

/-! ### Energy and trust -/

/-- A charge entry of a tick: domain, account (a PASID, or none for overhead), launch, amount (R302). -/
structure Charge where
  dom : Nat
  acct : Option Nat
  launch : Nat
  amt : Nat
  deriving DecidableEq, Repr

/-- A memory-side charge whose report has not reached the meter (R299): its tick, and the charge. -/
structure Report where
  tick : Nat
  c : Charge
  deriving DecidableEq, Repr

structure Energy where
  kovh : Int
  lease : Option (Nat × Nat)
  floor : Nat
  /-- measured package power, and brim and HBM power, of the last 10 ticks, in 1/16 pJ a tick, newest first -/
  power : List Int
  brimHbm : List Int
  tick : Nat
  now : List Charge
  prev : List Charge
  /-- static charges of the previous tick by domain (R301, R302), and its measured energies -/
  prevS : List Nat
  prevM : List Int
  reports : List Report
  bounded : Tab Bool
  deriving DecidableEq, Repr

/-- An outstanding meter reading (R171, R310): request number, region, T1 and its tick, the world meter at T1 with what has
been corrected since, the charges made before T1 in the two ticks still to be corrected, the dies charged since the request
before, each die's trace entry in force at T1 and its changes before T1, and the record of a fault of its write; where the home
package of a part of the region has been sent its part (R113), when, under which key slot (R325), and the parts of the region. -/
structure Reading where
  req : Nat
  pasid : Nat
  cap : Cap
  t1 : Nat
  tick : Nat
  meter : Int
  part : List Charge
  prevPart : List Charge
  dies : List Nat
  snap : List (Nat × Nat)
  fault : BitVec 512
  sent : Option (Nat × Nat × List (Nat × Nat × Nat)) := none
  deriving DecidableEq, Repr

/-- A world (R317 to R320, R300, R310). -/
structure World where
  pol : BitVec 256
  wm : BitVec 256
  slots : Tab (BitVec 1024)
  cur : Nat
  retire : Option (Nat × Nat × Word)
  /-- the scramble key, and those before it, whose masks still stand on lines filled earlier (R320) -/
  sk : BitVec 128
  sks : List (BitVec 128) := []
  /-- world meter; the part that the last reading gave as LIFE, its T1, the trace entries and changes of the dies then, its number;
  requests; outstanding readings; ticks whose correction was bounded; dies charged since the last request -/
  meter : Int
  lastMeter : Int
  t0 : Nat
  snap : List (Nat × Nat)
  rseq : Nat
  reqs : Nat
  readings : List Reading
  bounded : List Nat
  dies : List Nat
  ending : Option (Nat × Word)
  deriving DecidableEq, Repr

/-- What stopped a boot (R329, R348): a fuse fault of a counter, or a failed check at a step of Table 29.4. -/
inductive BootFault where
  | fuse (counter : Nat)
  | check (step : Nat)
  deriving DecidableEq, Repr

structure Trust where
  /-- fuse pairs: counter × 64 + pair, value 1 to 3 (R329) -/
  fuses : Tab (BitVec 2)
  bootLog : List BootFault
  fm : BitVec 256
  /-- link keys agreed for world 0 (R324) -/
  links : Bool
  /-- errors that the checks of Table 25.5 have corrected (R330) -/
  corrected : Nat := 0
  deriving DecidableEq, Repr

/-! ### Host side -/

/-- A function's configuration (FNCFG, R278). -/
structure Func where
  s2 : Nat
  remap : Nat
  weight : Nat
  quantum : Tab Word
  /-- consecutive abandoned gang slices of each entry (R281) -/
  misses : Tab Nat := []
  deriving DecidableEq, Repr

/-- A queue interface (Table 29.1). `held` are completion records for which there is no room. -/
structure Iface where
  func : Nat
  sqb : DWord
  sqn : BitVec 16
  sqh : Word
  cqb : DWord
  cqn : BitVec 16
  cqt : Word
  cqh : Word
  ivec : BitVec 16
  ien : Bool
  pasid : Option Nat
  sqt : Word
  held : List (BitVec 128)
  deriving DecidableEq, Repr

/-- A fabric queue of a port (R347): route, credits, elements received, elements to send. -/
structure FQueue where
  route : Option (Nat × Nat × Nat)
  bound : Option Nat
  credits : Nat
  elems : List Word
  sent : List Word
  /-- credit to be returned to the sender: elements popped, dropped or discarded here -/
  owed : Nat := 0
  deriving DecidableEq, Repr

/-- A revocation in progress (R117): the command that made it, or none where another package did; its object, whether it is held
for a sweep, and the generation that it ends. -/
structure Rev where
  cmd : Option Cmd
  pasid : Nat
  obn : Nat
  held : Bool
  gen : Nat
  deriving DecidableEq, Repr

/-- An invalidation in progress (R115): of an object, of one of its spans, or of a guest-physical frame. -/
structure Inval where
  cmd : Cmd
  func : Nat
  pasid : Nat
  obn : Option Nat
  span : Option Nat
  frame : Option Nat
  deriving DecidableEq, Repr

/-- A weight copy that waits or runs (R137). -/
structure WsCopy where
  cmd : Cmd
  pasid : Nat
  obn : Nat
  off : Nat
  die : Nat
  woff : Nat
  len : Nat
  /-- where a part of the source is asked of its home package: when, under which key slot, and the parts of the source (R113, R325) -/
  sent : Option (Nat × Nat × List (Nat × Nat × Nat)) := none
  deriving DecidableEq, Repr

/-- A VACATE that waits for its saves (R280). -/
structure Vac where
  cmd : Cmd
  blks : List Nat
  deriving DecidableEq, Repr

/-- A block's image: the block, its groups, its outstanding operations, its faults (Table 21.5). -/
structure Image where
  blk : Block
  groups : Tab Group
  ops : Tab Op
  tops : Tab TOp
  parks : Tab Park
  deriving DecidableEq, Repr

/-- A view being built (R337): its command, the block, the count to reach, where it is written; the image so far, the log
left, and the faults and fabric queues of the re-execution. -/
structure ViewJob where
  cmd : Cmd
  b : Nat
  n : Nat
  addr : Nat
  img : Image
  log : List LogEnt
  parks : Tab Park
  fqs : Tab FQueue
  deriving DecidableEq, Repr

/-- The word now being run: who issues it and for which lanes (model). `arr` are the issuers at the point, `act` the
active set by group (R31), `k` the words the instruction takes. -/
structure Cur where
  blk : Nat
  e : Scope
  arr : List IRef
  act : List (Nat × Lanes)
  addr : Nat
  idx : Nat
  k : Nat
  sym : Bool
  eng : Eng
  /-- the lowest group of the unit that holds a lane in the active set, or the issuing group (R151) -/
  lead : Nat
  deriving DecidableEq, Repr

/-- A turn of the schedule (model). -/
inductive Turn where
  | event (i : Instr)
  | word (r : IRef)
  | submission (iface : Nat)
  | elapse (ns : Nat)
  deriving DecidableEq, Repr

structure State where
  /-- model: the turns to come (assumption 1), the free-value counter (2), the identifier counter (3), the word in
  execution (4) -/
  agenda : List Turn
  free : Nat
  nextId : Nat
  cur : Option Cur
  reft : Nat
  ready : Bool
  boot : Nat
  trust : Trust
  energy : Energy
  dies : Tab Die
  cores : Tab Core
  /-- retired physical cores: 34 × cluster + number (R350) -/
  retired : List Nat
  mem : Mem
  worlds : Tab World
  ctxs : Tab Ctx
  launches : Tab Launch
  grids : Tab Grid
  blocks : Tab Block
  groups : Tab Group
  ops : Tab Op
  /-- requests off the package that nothing here waits for any longer (R325) -/
  orphans : List Orphan := []
  tops : Tab TOp
  parks : Tab Park
  revs : Tab Rev
  invals : Tab Inval
  wscopies : Tab WsCopy
  vacs : List Vac
  funcs : Tab Func
  ifaces : Tab Iface
  rings : Tab Ring
  rr : Nat × Nat
  msgs : List (Nat × Nat)
  dropped : Nat
  fqs : Tab FQueue
  latch : Tab DWord
  /-- model: the bytes last answered to a host read or a sideband request (R343, R346, R351) -/
  reply : List Byte
  discards : Nat
  ckpts : Tab Image
  views : Tab Image
  viewJob : Option ViewJob
  /-- model: re-execution for a view, whose reads come from this log (R337) -/
  sandbox : Option (List LogEnt)
  deriving DecidableEq, Repr

/-! ### Reset -/

/-- A counter set at zero. -/
def Ctr.zero : Ctr := ⟨0, 0, 0, 0⟩

/-- The null capability (R103). -/
def Cap.null : Cap := ⟨0#128, false⟩

def Ram.empty : Ram := ⟨[], []⟩

/-- A crown domain before boot (assumptions 6 to 8; Tables 9.2, 29.3 give PMLIM and the partition entry). -/
def Die.reset : Die :=
  { step := 0, pstep := 0, tchg := 0#32, chgs := 0, chg := none, want := none, pceil := 64, pceilEnd := 0, derate := 64
    lceil := 64, margin := 0, replays := 0, quiet := 0, drops := 0, derated := 0, weights := [], newWeights := []
    factory := false, part := 0x7000000E0000#64, pmlim := 0x48#64, ws := [], wsBad := [], refresh := none, trace0 := [], trace1 := []
    povh := 0, ents := [], slice := none, sliceStart := 0, sliceEnd := 0, gangReady := false, gangRuns := false, inService := true
    skew := 0, cyc := 0, tlb := [] }

/-- Core n of a cluster, mapped to physical core n (assumption 11). -/
def Core.reset (id : Nat) : Core :=
  { phys := some (id % 32), errs := 0, remap := false, pmlim := 0x48#64, split := none, l1 := [], wc := [], dc := []
    ptr := 0, batch := none, lastOpp := 0, symQ := [], tileQ := [], busy := none, trej := 0, vacated := false }

/-- Table 29.1's Reset column; every interface belongs to the physical function (assumption 14). -/
def Iface.reset : Iface :=
  { func := 0, sqb := 0#64, sqn := 0x10#16, sqh := 0#32, cqb := 0#64, cqn := 0x10#16, cqt := 0#32, cqh := 0#32
    ivec := 0#16, ien := false, pasid := none, sqt := 0#32, held := [] }

/-- Table 29.6's Reset column. -/
def Ring.reset : Ring :=
  { rb := 0#64, rn := 0x10#16, rt := 0#32, rh := 0#32, riv := 0#16, rien := false, held := [] }

/-- Fault ring weight 1 until FNCFG (assumption 13). -/
def Func.reset : Func := ⟨0, 0, 1, [], []⟩

/-- The debug descriptor's Reset column: ILOG 0x10, every other field 0 (Table 27.1). -/
def dbgReset : BitVec 768 := 0x40#768

def SB.reset : SB := ⟨false, 0, 0⟩

def FQueue.reset : FQueue := ⟨none, none, 64, [], [], 0⟩

def Line.reset : Line := ⟨0, true, false, false, 0#56⟩

def SpanSt.reset : SpanSt := ⟨none, [], 0⟩

def Energy.reset : Energy :=
  { kovh := 0, lease := none, floor := packageLimit, power := [], brimHbm := [], tick := 0, now := [], prev := [], prevS := []
    prevM := [], reports := [], bounded := [] }

def Trust.reset : Trust := { fuses := [], bootLog := [], fm := 0#256, links := false }

/-- The package right after reset: REFT 0, READY 0, no world, no context, nothing placed (R348 step 1). -/
def State.reset : State :=
  { agenda := [], free := 0, nextId := 1, cur := none, reft := 0, ready := false, boot := 0, trust := Trust.reset
    energy := Energy.reset, dies := [], cores := [], retired := [], mem := ⟨Ram.empty, [], [], [], [], [], [], [], [], []⟩, worlds := [], ctxs := []
    launches := [], grids := [], blocks := [], groups := [], ops := [], tops := [], parks := [], revs := [], invals := []
    wscopies := [], vacs := [], funcs := [], ifaces := [], rings := [], rr := (0, 0), msgs := [], dropped := 0, fqs := []
    latch := [], reply := [], discards := 0, ckpts := [], views := [], viewJob := none, sandbox := none }

end Sys2Proof.Machine
end

