-- ==== Sys2Proof/Machine/Num.lean ====
section
/-!
DEFINITION. Number formats and arithmetic (R76 to R96): exact values, Decode, Round, conversions, self-describing
blocks, CF32 and the order of summation. Exact reals are rationals with a sign, so that zero keeps its sign.
-/

namespace Sys2Proof.Machine

/-- An exact value: NaN, an infinity, or ± num / den. -/
inductive XR where
  | nan
  | inf (neg : Bool)
  | fin (neg : Bool) (num den : Nat)
  deriving DecidableEq, Repr

def XR.zero (neg : Bool) : XR := .fin neg 0 1

/-- A floating-point format (Table 5.2): widths of exponent and fraction, bias, infinities, the canonical NaN and the
greatest finite code without its sign. -/
structure Fmt where
  e : Nat
  m : Nat
  bias : Nat
  hasInf : Bool
  nan : Nat
  maxCode : Nat
  deriving DecidableEq, Repr

def Fmt.width (F : Fmt) : Nat := 1 + F.e + F.m

def fp32 : Fmt := ⟨8, 23, 127, true, 0x7FC00000, 0x7F7FFFFF⟩
def fp16 : Fmt := ⟨5, 10, 15, true, 0x7E00, 0x7BFF⟩
def bf16 : Fmt := ⟨8, 7, 127, true, 0x7FC0, 0x7F7F⟩
def f8a : Fmt := ⟨4, 3, 7, false, 0x7F, 0x7E⟩
def f8b : Fmt := ⟨5, 2, 15, true, 0x7E, 0x7B⟩
/-- F4 has no NaN: a NaN converted to it gives +0 (R80). -/
def f4 : Fmt := ⟨2, 1, 1, false, 0, 7⟩

/-- The format of a type code; integer codes give FP32, which no caller uses. -/
def fmtOf : Ty → Fmt
  | .f16 => fp16
  | .bf16 => bf16
  | .f8a => f8a
  | .f8b => f8b
  | .f4 => f4
  | _ => fp32

/-- x × 2^k exactly. -/
def scale2 (num den : Nat) (k : Int) : Nat × Nat :=
  match k with
  | .ofNat n => (num * 2 ^ n, den)
  | .negSucc n => (num, den * 2 ^ (n + 1))

def XR.scale : XR → Int → XR
  | .fin s n d, k => .fin s (scale2 n d k).1 (scale2 n d k).2
  | x, _ => x

/-- Decode (R79). -/
def decodeF (F : Fmt) (code : Nat) : XR :=
  let s := bit code (F.e + F.m)
  let E := bits code (F.e + F.m - 1) F.m
  let M := code % 2 ^ F.m
  if !F.hasInf && F.nan != 0 && code % 2 ^ (F.e + F.m) == F.nan then .nan
  else if F.hasInf && E == 2 ^ F.e - 1 then (if M == 0 then .inf s else .nan)
  else if E == 0 then (XR.fin s M 1).scale (1 - (F.bias : Int) - F.m)
  else (XR.fin s (2 ^ F.m + M) 1).scale ((E : Int) - F.bias - F.m)

/-- Floor(Log2(num / den)) for nonzero num. -/
def ilog2 (num den : Nat) : Int :=
  let k : Int := (Nat.log2 num : Int) - Nat.log2 den
  let (a, b) := scale2 num den (-k)
  if a < b then k - 1 else if 2 * b ≤ a then k + 1 else k

/-- Whether a magnitude between m and m + 1 spacings rounds up (R83); rem / d is the part above m. -/
def roundsUp (mode : Rnd) (neg : Bool) (m rem d : Nat) : Bool :=
  match mode with
  | .rn => decide (2 * rem > d) || (decide (2 * rem = d) && m % 2 == 1)
  | .rz => false
  | .ru => decide (rem ≠ 0) && !neg
  | .rd => decide (rem ≠ 0) && neg

def signBit (F : Fmt) (neg : Bool) : Nat := if neg then 2 ^ (F.e + F.m) else 0

/-- Overflow (R84, Table 5.3). -/
def overflowCode (F : Fmt) (mode : Rnd) (neg : Bool) : Nat :=
  let inf := (2 ^ F.e - 1) * 2 ^ F.m
  signBit F neg +
    (if !F.hasInf then F.maxCode
     else match mode with
      | .rn => inf
      | .rz => F.maxCode
      | .ru => if neg then F.maxCode else inf
      | .rd => if neg then inf else F.maxCode)

/-- Round a nonzero magnitude (R83): the code of the result. The code of m spacings of 2^eq is built from the exponent
of the spacing, and compared with the greatest finite code with the exponent unbounded. -/
def roundMag (F : Fmt) (mode : Rnd) (neg : Bool) (num den : Nat) : Nat :=
  let emin : Int := 1 - (F.bias : Int)
  let k := max (ilog2 num den) emin
  let eq : Int := k - F.m
  let (a, d) := scale2 num den (-eq)
  let m := a / d
  let m' := if roundsUp mode neg m (a % d) d then m + 1 else m
  let mag : Nat := ((k - emin).toNat) * 2 ^ F.m + m'
  if mag > F.maxCode then overflowCode F mode neg else signBit F neg + mag

/-- The code of an exact value rounded once into a format (R83 to R85). -/
def roundF (F : Fmt) (mode : Rnd) : XR → Nat
  | .nan => F.nan
  | .inf s => signBit F s + (if F.hasInf then (2 ^ F.e - 1) * 2 ^ F.m else F.maxCode)
  | .fin s 0 _ => signBit F s
  | .fin s n d => roundMag F mode s n d

/-! ### Exact operations -/

def XR.neg : XR → XR
  | .nan => .nan
  | .inf s => .inf (!s)
  | .fin s n d => .fin (!s) n d

/-- A magnitude with its sign. -/
def sgn (neg : Bool) (n : Nat) : Int := if neg then -(n : Int) else n

/-- Addition: an exact zero sum is −0 when both are −0, or under `.rd` (R85). -/
def XR.add (mode : Rnd) : XR → XR → XR
  | .nan, _ => .nan
  | _, .nan => .nan
  | .inf s, .inf t => if s = t then .inf s else .nan
  | .inf s, _ => .inf s
  | _, .inf t => .inf t
  | .fin s n d, .fin t m e =>
    let x := sgn s (n * e) + sgn t (m * d)
    if x = 0 then .zero ((decide (n = 0) && decide (m = 0) && s && t) || mode == .rd)
    else .fin (decide (x < 0)) x.natAbs (d * e)

def XR.mul : XR → XR → XR
  | .nan, _ => .nan
  | _, .nan => .nan
  | .inf s, .inf t => .inf (s != t)
  | .inf s, .fin t m _ => if m = 0 then .nan else .inf (s != t)
  | .fin s n _, .inf t => if n = 0 then .nan else .inf (s != t)
  | .fin s n d, .fin t m e => .fin (s != t) (n * m) (d * e)

def XR.div : XR → XR → XR
  | .nan, _ => .nan
  | _, .nan => .nan
  | .inf _, .inf _ => .nan
  | .inf s, .fin t _ _ => .inf (s != t)
  | .fin s _ _, .inf t => .zero (s != t)
  | .fin s n d, .fin t m e =>
    if m = 0 then (if n = 0 then .nan else .inf (s != t)) else .fin (s != t) (n * e) (d * m)

/-- The integer square root, by bits. -/
def isqrt : Nat → Nat → Nat → Nat
  | 0, _, r => r
  | i + 1, n, r => isqrt i n (if (r + 2 ^ i) * (r + 2 ^ i) ≤ n then r + 2 ^ i else r)

/-- The square root with 200 fraction bits; an inexact root is given as the midpoint above it, which every rounding of
this chapter takes to the same side as the root. -/
def XR.sqrt : XR → XR
  | .nan => .nan
  | .inf s => if s then .nan else .inf false
  | .fin s n d =>
    if n = 0 then .zero s
    else if s then .nan
    else
      let x := n * 2 ^ 400 / d
      let r := isqrt 300 x 0
      if r * r = x ∧ n * 2 ^ 400 % d = 0 then .fin false r (2 ^ 200) else .fin false (2 * r + 1) (2 ^ 201)

/-- Less than on values that are not NaN; −0 equals +0 (R82). -/
def XR.lt : XR → XR → Bool
  | .nan, _ => false
  | _, .nan => false
  | .inf s, .inf t => s && !t
  | .inf s, .fin _ _ _ => s
  | .fin _ _ _, .inf t => !t
  | .fin s n d, .fin t m e =>
    decide (sgn s (n * e) < sgn t (m * d))

def XR.isNan : XR → Bool
  | .nan => true
  | _ => false

def XR.eq (a b : XR) : Bool := !a.isNan && !b.isNan && !a.lt b && !b.lt a

/-- The sign of a value. -/
def XR.sign : XR → Bool
  | .nan => false
  | .inf s => s
  | .fin s _ _ => s

/-- Round to an integer under a mode (R86). -/
def XR.toInt (mode : Rnd) : XR → Int
  | .fin s n d =>
    let m := n / d
    let m' := if roundsUp mode s m (n % d) d then m + 1 else m
    if s then -(m' : Int) else m'
  | _ => 0

/-! ### Integer formats (R76, Table 5.1) -/

/-- Least and greatest value of an integer format; a B format is read as N. -/
def intRange : Ty → Int × Int
  | .s4 => (-8, 7)
  | .s8 => (-128, 127)
  | .n8 => (0, 255)
  | .s16 => (-32768, 32767)
  | .n16 => (0, 65535)
  | .s32 => (-2147483648, 2147483647)
  | _ => (0, 4294967295)

def isSigned : Ty → Bool
  | .s4 | .s8 | .s16 | .s32 => true
  | _ => false

def clampInt (lo hi x : Int) : Int := if x < lo then lo else if hi < x then hi else x

/-- The low w bits of an integer. -/
def intBits (w : Nat) (x : Int) : Nat := (x % (2 ^ w : Nat)).toNat

/-- An integer format's value of a code. -/
def intOf (t : Ty) (code : Nat) : Int :=
  let w := t.width
  let c := code % 2 ^ w
  if isSigned t && bit c (w - 1) then (c : Int) - (2 ^ w : Nat) else c

/-- An integer as an exact value. -/
def XR.ofInt (x : Int) : XR := .fin (decide (x < 0)) x.natAbs 1

/-! ### Conversions (R86, Table 5.5) -/

/-- Code of the source, code of the destination. -/
def convert (dst src : Ty) (mode : Rnd) (code : Nat) : Nat :=
  if src.isFloat then
    let x := decodeF (fmtOf src) code
    if dst.isFloat then roundF (fmtOf dst) mode x
    else
      let (lo, hi) := intRange dst
      match x with
      | .nan => 0
      | .inf s => intBits dst.width (if s then lo else hi)
      | _ => intBits dst.width (clampInt lo hi (x.toInt mode))
  else
    let v := intOf src code
    if dst.isFloat then roundF (fmtOf dst) mode (.ofInt v)
    else if dst == .b32 then intBits 32 v
    else intBits dst.width (clampInt (intRange dst).1 (intRange dst).2 v)

/-- A scalar result narrower than 32 bits in a register (R77). -/
def placeScalar (t : Ty) (code : Nat) : Word :=
  if isSigned t then BitVec.ofInt 32 (intOf t code) else BitVec.ofNat 32 code

/-! ### FP32 operations on words -/

def d32 (w : Word) : XR := decodeF fp32 w.toNat
def r32 (mode : Rnd) (x : XR) : Word := BitVec.ofNat 32 (roundF fp32 mode x)

def fadd32 (mode : Rnd) (a b : Word) : Word := r32 mode ((d32 a).add mode (d32 b))
def fsub32 (mode : Rnd) (a b : Word) : Word := r32 mode ((d32 a).add mode (d32 b).neg)

/-- Minimum or maximum of two codes of a format (R82). -/
def minmaxF (F : Fmt) (wantMax : Bool) (a b : Nat) : Nat :=
  let x := decodeF F a
  let y := decodeF F b
  if x.isNan then (if y.isNan then F.nan else b)
  else if y.isNan then a
  else
    let less := x.lt y || (x.eq y && x.sign && !y.sign)
    if less != wantMax then a else b

/-! ### CF32 (R91, R92) -/

structure CF where
  s : Word
  c : Word
  deriving DecidableEq, Repr

def CF.ofBits (x : DWord) : CF := ⟨x.extractLsb' 0 32, x.extractLsb' 32 32⟩
def CF.toBits (x : CF) : DWord := x.c ++ x.s

def twoSum (a b : Word) : Word × Word :=
  let t := fadd32 .rn a b
  let bb := fsub32 .rn t a
  (t, fadd32 .rn (fsub32 .rn a (fsub32 .rn t bb)) (fsub32 .rn b bb))

def isFinite32 (w : Word) : Bool :=
  match d32 w with
  | .fin _ _ _ => true
  | _ => false

def cfAdd (x : CF) (a : Word) : CF :=
  let (t, e) := twoSum x.s a
  if isFinite32 t then ⟨t, fadd32 .rn x.c e⟩ else ⟨t, 0#32⟩

def cfMerge (x y : CF) : CF :=
  let (t, e) := twoSum x.s y.s
  if isFinite32 t then ⟨t, fadd32 .rn (fadd32 .rn x.c y.c) e⟩ else ⟨t, 0#32⟩

/-- CfValue's exact value in a format: S itself when it is not finite, canonical when NaN (R92, R80). -/
def cfRound (F : Fmt) (mode : Rnd) (x : CF) : Nat :=
  if isFinite32 x.s then roundF F mode ((d32 x.s).add mode (d32 x.c)) else roundF F mode (d32 x.s)

def cfValue (x : CF) (mode : Rnd) : Word := BitVec.ofNat 32 (cfRound fp32 mode x)

/-! ### Dot products (R93) -/

/-- −0. -/
def XR.isNegZero : XR → Bool
  | .fin true 0 _ => true
  | _ => false

/-- The exact sum of terms; an exact zero is −0 when every term is −0, or under `.rd`. -/
def sumXR (mode : Rnd) (ts : List XR) : XR :=
  if ts.any XR.isNan then .nan
  else
    let pos := ts.any fun x => x == .inf false
    let ng := ts.any fun x => x == .inf true
    if pos && ng then .nan
    else if pos then .inf false
    else if ng then .inf true
    else
      match ts.foldl (fun acc x => XR.add .rn acc x) (XR.zero false) with
      | .fin _ 0 _ => .zero (ts.all XR.isNegZero || mode == .rd)
      | x => x

def dotRound (a b : List XR) (addend : XR) (mode : Rnd) : Word :=
  r32 mode (sumXR mode (List.zipWith XR.mul a b ++ [addend]))

/-- Element i of a packed word, or of bytes, as a code (R77). -/
def elemOf (w : Word) (width i : Nat) : Nat := w.toNat / 2 ^ (width * i) % 2 ^ width

/-- A packed element's exact value. -/
def elemVal (t : Ty) (code : Nat) : XR := if t.isFloat then decodeF (fmtOf t) code else .ofInt (intOf t code)

/-! ### Self-describing blocks (R87 to R89) -/

/-- Format codes (Table 5.7); none for raw and malformed. -/
def blockTy : Nat → Option Ty
  | 1 => some .f8a
  | 2 => some .f8b
  | 3 => some .f4
  | 4 => some .s8
  | 5 => some .s4
  | 6 => some .f16
  | 7 => some .bf16
  | _ => none

def blockCode : Ty → Nat
  | .f8a => 1
  | .f8b => 2
  | .f4 => 3
  | .s8 => 4
  | .s4 => 5
  | .f16 => 6
  | .bf16 => 7
  | _ => 0

/-- Elements of a block (Table 5.7). -/
def blockElems (t : Ty) : Nat := 62 * 8 / t.width

/-- The element codes of a payload, as the format packs them. -/
def payloadCode (t : Ty) (payload : Nat) (i : Nat) : Nat := payload / 2 ^ (t.width * i) % 2 ^ t.width

/-- EMAXF (R89). -/
def emaxF : Ty → Int
  | .f8a => 8
  | .f8b => 15
  | .f4 => 2
  | .s8 => 6
  | .s4 => 2
  | .f16 => 15
  | _ => 127

/-- SatConvert (R89): every overflow and infinity saturates. -/
def satConvert (t : Ty) (mode : Rnd) (x : XR) : Nat :=
  if t.isFloat then
    let F := fmtOf t
    match x with
    | .nan => F.nan
    | .inf s => signBit F s + F.maxCode
    | _ =>
      let c := roundF F mode x
      if F.hasInf && c % 2 ^ (F.e + F.m) > F.maxCode then signBit F x.sign + F.maxCode else c
  else
    let (lo, hi) := intRange t
    match x with
    | .nan => 0
    | .inf s => intBits t.width (if s then lo else hi)
    | _ => intBits t.width (clampInt lo hi (x.toInt mode))

/-- The scale of EncodeBlock (R89). -/
inductive BScale where | auto | nan | at (scl : Nat)
  deriving DecidableEq, Repr

def XR.gt (a b : XR) : Bool := b.lt a

/-- The scale chosen under `auto`: none for a NaN block. -/
def autoScale (xs : List XR) (t : Ty) : Option Nat :=
  if xs.any XR.isNan then none
  else
    let mags := xs.map fun x => match x with
      | .fin _ n d => XR.fin false n d
      | .inf _ => .inf false
      | .nan => .nan
    match mags.foldl (fun m x => if x.gt m then x else m) (XR.zero false) with
    | .fin _ n d => if n = 0 then some 127 else some (clampInt 0 254 (ilog2 n d - emaxF t + 127)).toNat
    | _ => some 254

/-- EncodeBlock (R89): the bytes FMT, SCL and the payload as one little-endian number of 64 bytes. -/
def encodeBlock (xs : List XR) (t : Ty) (mode : Rnd) (sc : BScale) : Nat :=
  let scl := match sc with
    | .auto => autoScale xs t
    | .nan => none
    | .at n => some n
  match scl with
  | none => blockCode t + 0xFF00
  | some k =>
    let cs := xs.map fun x => satConvert t mode (x.scale (127 - (k : Int)))
    blockCode t + 256 * k + 65536 * (cs.foldr (fun c acc => c + 2 ^ t.width * acc) 0)

/-! ### Matrix halves (R95, R255) -/

/-- One block of a line of a slot: format code, scale, payload. -/
structure Half where
  fmt : Nat
  scl : Nat
  payload : Nat
  deriving DecidableEq, Repr

/-- Half (R255): e is the scale register's exponent. The sum has no addend (R93). -/
def halfSum (ta tb : Ty) (a b : Half) (e : Int) : Word :=
  if blockTy a.fmt != some ta || blockTy b.fmt != some tb || a.scl == 255 || b.scl == 255 then 0x7FC00000#32
  else
    let n := blockElems ta
    let ps := (List.range n).map fun i =>
      (elemVal ta (payloadCode ta a.payload i)).mul (elemVal tb (payloadCode tb b.payload i))
    r32 .rn ((sumXR .rn ps).scale ((a.scl : Int) + b.scl - 254 + e))

/-! ### Floating-point operations on registers (R237 to R241, R246) -/

/-- An operand read in a format: bits [15:0] when it is 16 bits wide (R238). -/
def fval (t : Ty) (w : Word) : XR := decodeF (fmtOf t) (w.toNat % 2 ^ (fmtOf t).width)

/-- A result placed in a register, upper bits zero (R238). -/
def fput (t : Ty) (m : Rnd) (x : XR) : Word := BitVec.ofNat 32 (roundF (fmtOf t) m x)

/-- The shift of `fscl`: S32 clamped to −512 to 512 (R241). -/
def sclShift (w : Word) : Int := clampInt (-512) 512 w.toInt

/-- One operation of R246 on its operands in order. -/
def applyF (op : FOp) (t : Ty) (m : Rnd) (xs : List Word) : Word :=
  let x := xs.getD 0 0#32
  let y := xs.getD 1 0#32
  let z := xs.getD 2 0#32
  match op with
  | .add => fput t m ((fval t x).add m (fval t y))
  | .sub => fput t m ((fval t x).add m (fval t y).neg)
  | .mul => fput t m ((fval t x).mul (fval t y))
  | .fma => fput t m (((fval t x).mul (fval t y)).add m (fval t z))
  | .div => fput t m ((fval t x).div (fval t y))
  | .sqrt => fput t m (fval t x).sqrt
  | .min => BitVec.ofNat 32 (minmaxF fp32 false x.toNat y.toNat)
  | .max => BitVec.ofNat 32 (minmaxF fp32 true x.toNat y.toNat)
  | .abs => x &&& 0x7FFFFFFF#32
  | .neg => x ^^^ 0x80000000#32
  | .scl => fput .f32 m ((fval .f32 x).scale (sclShift y))

/-- The operands of a recorded operation, with the pending one put in its place. -/
def DOp.fill (d : DOp) (v : Word) : List Word := d.known.take d.hole ++ v :: d.known.drop d.hole

def DOp.apply (d : DOp) (v : Word) : Word := applyF d.op d.ty d.m (d.fill v)

/-- A register lane's value when v arrives for its symbol (R196, R247). -/
def VCell.resolve (c : VCell) (v : Word) : Word :=
  match c with
  | .val w => w
  | .aff _ a b => a * v + b
  | .dfr _ ops => ops.foldl (fun x d => d.apply x) v

end Sys2Proof.Machine
end

