-- ==== Sys2Proof/Machine/Ops.lean ====
section
/-!
DEFINITION. Named operations over tables, byte storage, registers and issuers, shared by every meaning: reading and
writing one home for each piece of state, charging an event, advancing and blocking issuers.
-/

namespace Sys2Proof.Machine

abbrev Out := Host.Outcome State Fault Refusal

/-! ### Tables -/

def tget? {α : Type} : Tab α → Nat → Option α
  | [], _ => none
  | (a, v) :: r, k => if a = k then some v else tget? r k

def tset {α : Type} : Tab α → Nat → α → Tab α
  | [], k, v => [(k, v)]
  | (a, w) :: r, k, v => if k < a then (k, v) :: (a, w) :: r else if k = a then (k, v) :: r else (a, w) :: tset r k v

def tdel {α : Type} : Tab α → Nat → Tab α
  | [], _ => []
  | (a, w) :: r, k => if a = k then tdel r k else (a, w) :: tdel r k

/-- The entry, or the value that an absent key stands for. -/
def tgetD {α : Type} (t : Tab α) (k : Nat) (d : α) : α := (tget? t k).getD d

/-- Set an entry, keeping entries equal to the absent value out of the table. -/
def tput {α : Type} [DecidableEq α] (t : Tab α) (k : Nat) (v d : α) : Tab α := if v = d then tdel t k else tset t k v

def tmod {α : Type} (t : Tab α) (k : Nat) (f : α → α) : Tab α :=
  match tget? t k with
  | some v => tset t k (f v)
  | none => t

/-- Insert into a rising list of numbers without repeats. -/
def ninsert : List Nat → Nat → List Nat
  | [], k => [k]
  | a :: r, k => if k < a then k :: a :: r else if k = a then a :: r else a :: ninsert r k

/-- Insert into a list in order, before the first element that is not lower. -/
def insertBy {α : Type} (le : α → α → Bool) (x : α) : List α → List α
  | [] => [x]
  | y :: r => if le x y then x :: y :: r else y :: insertBy le x r

/-- A stable sort. -/
def sortBy {α : Type} (le : α → α → Bool) (l : List α) : List α := l.foldr (insertBy le) []

/-- The natural numbers below n that satisfy f. -/
def below (n : Nat) (f : Nat → Bool) : List Nat := (List.range n).filter f

/-! ### Lane masks -/

/-- The lanes of a mask, rising. -/
def lanesOf (m : Lanes) : List Nat := if m = 0#64 then [] else below 64 fun i => m.getLsbD i

def laneBit (i : Nat) : Lanes := BitVec.ofNat 64 (2 ^ i)

def maskOf (ls : List Nat) : Lanes := ls.foldl (fun m i => m ||| laneBit i) 0#64

/-! ### Byte storage -/

/-- The byte at an address: 0 when unlisted. -/
def cellsGet (m : List Host.Cell) (a : Nat) : Byte := tgetD m a 0#8

/-- Write a byte: storing 0 removes the entry, so that equal memories are equal lists. -/
def cellsPut (m : List Host.Cell) (a : Nat) (b : Byte) : List Host.Cell := tput m a b 0#8

def Ram.get (r : Ram) (a : Nat) : Byte := cellsGet r.bytes a

/-- n bytes from an address, lowest first. -/
def Ram.read (r : Ram) (a n : Nat) : List Byte := (List.range n).map fun i => r.get (a + i)

/-- Little-endian value of bytes. -/
def leNat (bs : List Byte) : Nat := bs.foldr (fun b acc => b.toNat + 256 * acc) 0

/-- The n low bytes of a number, little-endian. -/
def natBytes (n v : Nat) : List Byte := (List.range n).map fun i => BitVec.ofNat 8 (v / 256 ^ i)

/-- Bytes from a rising list of write positions. -/
def cellsWrite (m : List Host.Cell) (a : Nat) : List Byte → List Host.Cell
  | [] => m
  | b :: r => cellsWrite (cellsPut m a b) (a + 1) r

/-- The granules that n bytes from a touch. -/
def granules (a n : Nat) : List Nat := if n = 0 then [] else (List.range ((a + n - 1) / 16 - a / 16 + 1)).map (a / 16 + ·)

/-- Write bytes and clear the tag of every granule touched (R101). -/
def Ram.write (r : Ram) (a : Nat) (bs : List Byte) : Ram :=
  { bytes := cellsWrite r.bytes a bs, tags := r.tags.filter fun g => !(granules a bs.length).contains g }

def Ram.tag (r : Ram) (a : Nat) : Bool := r.tags.contains (a / 16)

/-- Write a 16-byte granule with its tag (R101). -/
def Ram.writeCap (r : Ram) (a : Nat) (bs : List Byte) (t : Bool) : Ram :=
  let r' := r.write a bs
  if t then { r' with tags := ninsert r'.tags (a / 16) } else r'

def Ram.clearTag (r : Ram) (g : Nat) : Ram := { r with tags := r.tags.filter (· != g) }

/-- The canonical form of byte cells: addresses strictly rising, no entry equal to what an unlisted address reads as. -/
def cellsWf : List Host.Cell → Bool
  | [] => true
  | (_, b) :: [] => b != 0#8
  | (a, b) :: (a', b') :: r => b != 0#8 && decide (a < a') && cellsWf ((a', b') :: r)

/-- A list of numbers strictly rising. -/
def rising : List Nat → Bool
  | [] => true
  | _ :: [] => true
  | a :: b :: r => decide (a < b) && rising (b :: r)

/-- The canonical form of byte storage: its cells', and its tagged granules strictly rising. -/
def Ram.wf (r : Ram) : Bool := cellsWf r.bytes && rising r.tags

/-- The canonical form of the machine's byte storages: HBM, weight stores and scratchpads. -/
def Memory.wf (s : State) : Bool :=
  s.mem.hbm.wf && s.dies.all (fun d => cellsWf d.2.ws) && s.blocks.all (fun b => b.2.spm.wf)

/-! ### Parts of the state -/

def State.die (s : State) (d : Nat) : Die := tgetD s.dies d Die.reset
def State.setDie (s : State) (d : Nat) (x : Die) : State := { s with dies := tset s.dies d x }
def State.modDie (s : State) (d : Nat) (f : Die → Die) : State := s.setDie d (f (s.die d))

def State.core (s : State) (c : Nat) : Core := tgetD s.cores c (Core.reset c)
def State.setCore (s : State) (c : Nat) (x : Core) : State := { s with cores := tset s.cores c x }
def State.modCore (s : State) (c : Nat) (f : Core → Core) : State := s.setCore c (f (s.core c))

def State.func (s : State) (f : Nat) : Func := tgetD s.funcs f Func.reset
def State.modFunc (s : State) (f : Nat) (g : Func → Func) : State := { s with funcs := tset s.funcs f (g (s.func f)) }
def State.iface (s : State) (n : Nat) : Iface := tgetD s.ifaces n Iface.reset
def State.modIface (s : State) (n : Nat) (g : Iface → Iface) : State := { s with ifaces := tset s.ifaces n (g (s.iface n)) }
def State.ring (s : State) (n : Nat) : Ring := tgetD s.rings n Ring.reset
def State.modRing (s : State) (n : Nat) (g : Ring → Ring) : State := { s with rings := tset s.rings n (g (s.ring n)) }

def State.modCtx (s : State) (p : Nat) (f : Ctx → Ctx) : State := { s with ctxs := tmod s.ctxs p f }
def State.modWorld (s : State) (w : Nat) (f : World → World) : State := { s with worlds := tmod s.worlds w f }
def State.modBlock (s : State) (b : Nat) (f : Block → Block) : State := { s with blocks := tmod s.blocks b f }
def State.modOp (s : State) (o : Nat) (f : Op → Op) : State := { s with ops := tmod s.ops o f }
def State.modLaunch (s : State) (l : Nat) (f : Launch → Launch) : State := { s with launches := tmod s.launches l f }
def State.modGrid (s : State) (g : Nat) (f : Grid → Grid) : State := { s with grids := tmod s.grids g f }
def State.modPark (s : State) (h : Nat) (f : Park → Park) : State := { s with parks := tmod s.parks h f }

/-- Whether a block occupies a core. -/
def Phase.onCore : Phase → Bool
  | .resident | .saving | .draining => true
  | _ => false

/-- The key of a group in State.groups. -/
def gkey (b g : Nat) : Nat := 32 * b + g

def State.grp? (s : State) (b g : Nat) : Option Group := tget? s.groups (gkey b g)
def State.modGroup (s : State) (b g : Nat) (f : Group → Group) : State := { s with groups := tmod s.groups (gkey b g) f }

/-- The groups of a block, rising. -/
def State.groupsOf (s : State) (b : Nat) : List Nat := (s.groups.filter fun kg => kg.1 / 32 == b).map fun kg => kg.1 % 32

/-- A fresh identifier. -/
def State.fresh (s : State) : Nat × State := (s.nextId, { s with nextId := s.nextId + 1 })

/-- A fresh free value. -/
def State.draw (s : State) : Nat × State := (Config.freeNat s.free, { s with free := s.free + 1 })

/-- A fresh random draw. -/
def State.drawRandom (s : State) : Nat × State := (Config.random s.free, { s with free := s.free + 1 })

/-! ### Coordinates (R21, Table 1.3) -/

/-- An empty grid of one block, which stands where a block's grid is unknown. -/
def Grid.unit : Grid :=
  { launch := 0, pasid := 0, parent := none, depth := 0, setg := 1, setn := 1, gngb := 1, clug := 1, diec := 1, grdd := 1
    cor := false, rpl := false, regs := 64, spm := 0, pri := 0, code := Cap.null, roots := [], views := [], lvl7 := 0
    placed := 0, exited := 0 }

def State.gridOf (s : State) (b : Block) : Grid := tgetD s.grids b.grid Grid.unit

def Grid.groups (g : Grid) : Nat := g.setg * g.setn
/-- Blocks of a die unit, and of the grid. -/
def Grid.duBlocks (g : Grid) : Nat := g.diec * g.clug * g.gngb
def Grid.blocks (g : Grid) : Nat := g.grdd * g.duBlocks
/-- Cluster-unit index of a block (R131). -/
def Grid.cuIndex (g : Grid) (bidx : Nat) : Nat := bidx % (g.clug * g.gngb)

def Grid.lvl (g : Grid) (bidx gidx : Nat) : Nat → Nat
  | 1 => gidx % g.setg
  | 2 => gidx / g.setg
  | 3 => bidx % g.gngb
  | 4 => bidx / g.gngb % g.clug
  | 5 => bidx / (g.gngb * g.clug) % g.diec
  | 6 => bidx / g.duBlocks
  | _ => g.lvl7

def dieOf (core : Nat) : Nat := core / 64
def clusterOf (core : Nat) : Nat := core / 32

/-- The members of a unit of the block, as group indices (Table 1.4). -/
def unitGroups (s : State) (b gidx : Nat) (e : Scope) : List Nat :=
  match e with
  | .lane | .group => [gidx]
  | .set =>
    match tget? s.blocks b with
    | some blk => let g := s.gridOf blk; (s.groupsOf b).filter fun k => k / g.setg == gidx / g.setg
    | none => [gidx]
  | .block => s.groupsOf b

/-! ### Registers -/

/-- The cell of a register lane; none where it holds nothing. -/
def Group.cell (g : Group) (r lane : Nat) : Option VCell := tget? (tgetD g.v r []) lane

/-- A register lane as a known word, reading zero where it holds nothing; none while pending. -/
def Group.word? (g : Group) (r lane : Nat) : Option Word :=
  match g.cell r lane with
  | none => some 0#32
  | some (.val w) => some w
  | some _ => none

/-- The symbol a register lane refers to. -/
def Group.symOf (g : Group) (r lane : Nat) : Option Nat :=
  match g.cell r lane with
  | some (.aff σ _ _) => some σ
  | some (.dfr σ _) => some σ
  | _ => none

def Group.setCell (g : Group) (r lane : Nat) (c : VCell) : Group :=
  { g with v := tset g.v r (tset (tgetD g.v r []) lane c) }

/-- A register lane holds nothing any longer (R58, R157). -/
def Group.freeCell (g : Group) (r lane : Nat) : Group :=
  let row := tdel (tgetD g.v r []) lane
  { g with v := if row.isEmpty then tdel g.v r else tset g.v r row }

def Group.vtag (g : Group) (q lane : Nat) : Bool := (tgetD g.vt q 0#64).getLsbD lane

def Group.setVtag (g : Group) (q lane : Nat) (t : Bool) : Group :=
  let m := tgetD g.vt q 0#64
  { g with vt := tput g.vt q (if t then m ||| laneBit lane else m &&& ~~~(laneBit lane)) 0#64
           vl := tput g.vl q (tgetD g.vl q 0#64 &&& ~~~(laneBit lane)) 0#64 }

/-- A lane of a quad stands as an outstanding load left it, until it is written or freed (R196). -/
def Group.awaitTag (g : Group) (q lane : Nat) : Group := { g with vl := tput g.vl q (tgetD g.vl q 0#64 ||| laneBit lane) 0#64 }

/-- Write a cell; the quad's tag is cleared (R101). -/
def Group.putCell (g : Group) (r lane : Nat) (c : VCell) : Group := (g.setCell r lane c).setVtag (r / 4) lane false

def Group.putWord (g : Group) (r lane : Nat) (w : Word) : Group := g.putCell r lane (.val w)

/-- Write a pair, low half first (R77). -/
def Group.putPair (g : Group) (r lane : Nat) (v : DWord) : Group :=
  (g.putWord r lane (v.extractLsb' 0 32)).putWord (r + 1) lane (v.extractLsb' 32 32)

/-- Write a quad with its tag (R100). -/
def Group.putQuad (g : Group) (r lane : Nat) (c : Cap) : Group :=
  ((List.range 4).foldl (fun g j => g.putWord (r + j) lane (c.bits.extractLsb' (32 * j) 32)) g).setVtag (r / 4) lane c.tag

/-- Free a register lane and clear its quad's tag (R58, R101). -/
def Group.freeReg (g : Group) (r lane : Nat) : Group := (g.freeCell r lane).setVtag (r / 4) lane false

/-- n registers from r as one little-endian number, zero where pending (callers block first). -/
def Group.regsNat (g : Group) (r n lane : Nat) : Nat :=
  (List.range n).foldr (fun j acc => ((g.word? (r + j) lane).getD 0#32).toNat + 2 ^ 32 * acc) 0

def Group.quad (g : Group) (r lane : Nat) : Cap := ⟨BitVec.ofNat 128 (g.regsNat r 4 lane), g.vtag (r / 4) lane⟩

def Group.sreg (g : Group) (r : Nat) : DWord := tgetD g.s r 0#64

/-- Write an s register; the pair's tag is cleared (R101). -/
def Group.putS (g : Group) (r : Nat) (v : DWord) : Group :=
  { g with s := tput g.s r v 0#64, st := g.st.filter (· != r / 2) }

/-- An instruction writes a uniform register: until the next `mfence` a matrix operation may find another value there (R147). -/
def Group.setS (g : Group) (r : Nat) (v : DWord) : Group := { g.putS r v with sDirty := g.sDirty ||| 1#64 <<< r }

def Group.sPair (g : Group) (r : Nat) : Cap := ⟨g.sreg (r + 1) ++ g.sreg r, g.st.contains (r / 2)⟩

def Group.putSPair (g : Group) (r : Nat) (c : Cap) : Group :=
  let g' := (g.putS r (c.bits.extractLsb' 0 64)).putS (r + 1) (c.bits.extractLsb' 64 64)
  if c.tag then { g' with st := ninsert g'.st (r / 2) } else g'

/-- A vector predicate's lanes; p7 reads true (R50). -/
def Group.pred (g : Group) (p : Pred) : Lanes :=
  let m := if p.n = 7#3 then ~~~(0#64) else tgetD g.p p.n.toNat 0#64
  if p.neg then ~~~m else m

/-- A uniform predicate; q7 reads true (R50). -/
def Group.qpred (g : Group) (p : Pred) : Bool :=
  let b := p.n == 7#3 || g.q.getLsbD p.n.toNat
  if p.neg then !b else b

/-- Write the bits of a predicate for the lanes of a mask; p7 is never a destination (R57). -/
def Group.putPred (g : Group) (p : BitVec 3) (m v : Lanes) : Group :=
  let old := tgetD g.p p.toNat 0#64
  { g with p := tput g.p p.toNat ((old &&& ~~~m) ||| (v &&& m)) 0#64 }

def Group.putQ (g : Group) (p : BitVec 3) (v : Bool) : Group :=
  let m := BitVec.ofNat 8 (2 ^ p.toNat)
  { g with q := if v then g.q ||| m else g.q &&& ~~~m }

def Group.ctrs (g : Group) (lane : Nat) : Ctr := tgetD g.ctr lane Ctr.zero

def Group.modCtr (g : Group) (lane : Nat) (f : Ctr → Ctr) : Group :=
  { g with ctr := tput g.ctr lane (f (g.ctrs lane)) Ctr.zero }

/-- Which counter (R52). -/
inductive CK where | ld | st | cp | tl
  deriving DecidableEq, Repr

def Ctr.get (c : Ctr) : CK → Nat
  | .ld => c.ld
  | .st => c.st
  | .cp => c.cp
  | .tl => c.tl

def Ctr.add (c : Ctr) (k : CK) (n : Nat) : Ctr :=
  match k with
  | .ld => { c with ld := c.ld + n }
  | .st => { c with st := c.st + n }
  | .cp => { c with cp := c.cp + n }
  | .tl => { c with tl := c.tl + n }

def Ctr.sub (c : Ctr) (k : CK) (n : Nat) : Ctr :=
  match k with
  | .ld => { c with ld := c.ld - n }
  | .st => { c with st := c.st - n }
  | .cp => { c with cp := c.cp - n }
  | .tl => { c with tl := c.tl - n }

/-- Raise or lower a counter of some lanes of a group. -/
def raiseCtr (s : State) (b g : Nat) (ls : List Nat) (k : CK) : State :=
  s.modGroup b g fun G => ls.foldl (fun G l => G.modCtr l fun c => c.add k 1) G
def lowerCtr (s : State) (b g : Nat) (ls : List Nat) (k : CK) : State :=
  s.modGroup b g fun G => ls.foldl (fun G l => G.modCtr l fun c => c.sub k 1) G

/-! ### Issuers -/

def Group.issuer? (g : Group) (k : Nat) : Option Issuer :=
  match k with
  | 0 => some g.stream
  | l + 1 => tget? g.div l

def Group.setIssuer (g : Group) (k : Nat) (i : Issuer) : Group :=
  match k with
  | 0 => { g with stream := i }
  | l + 1 => { g with div := tset g.div l i }

def State.issuer? (s : State) (r : IRef) : Option Issuer := (s.grp? r.blk r.gidx).bind fun g => g.issuer? r.iss

def State.modIssuer (s : State) (r : IRef) (f : Issuer → Issuer) : State :=
  s.modGroup r.blk r.gidx fun g =>
    match g.issuer? r.iss with
    | some i => g.setIssuer r.iss (f i)
    | none => g

/-- Code capability fields needed here: CUR (Table 7.1). -/
def Cap.cur (c : Cap) : Nat := (c.bits.extractLsb' 0 44).toNat
def Cap.setCur (c : Cap) (a : Nat) : Cap := { c with bits := c.bits.extractLsb' 44 84 ++ BitVec.ofNat 44 a }

/-- The fall-through address of a clause (R154). -/
def Clause.fall (c : Clause) : Nat := c.addr + 4 * (1 + c.words.length)

/-- The position of an issuer (R22). -/
def Issuer.pos (i : Issuer) : Nat × Nat :=
  match i.cl with
  | some c => (c.addr, c.idx)
  | none => (i.code.cur, 0)

/-- Past an instruction of k words: the next position of the clause, or the clause boundary after its last word. -/
def Issuer.past (i : Issuer) (k : Nat) : Issuer :=
  match i.cl with
  | some c =>
    if c.off + k < c.words.length then
      { i with cl := some { c with idx := c.idx + 1, off := c.off + k }, wait := .go, closed := false }
    else { i with cl := none, code := i.code.setCur c.fall, wait := .go, closed := false }
  | none => i

/-- RC rises by one for each group of the issue (R332); it saturates when the block is not replayable. -/
def bumpRc (s : State) (b n : Nat) : State :=
  s.modBlock b fun B => { B with rc := min (B.rc + n) (2 ^ 32 - 1) }

/-- The word in execution has retired: its issuers move past it. -/
def retire (s : State) : State :=
  match s.cur with
  | none => s
  | some c =>
    let s := c.arr.foldl (fun s r => s.modIssuer r fun i => i.past c.k) s
    let gs := match c.e with
      | .lane => 1
      | e => (unitGroups s c.blk c.lead e).length
    { bumpRc s c.blk gs with cur := none }

/-- The word in execution cannot go on yet: its issuers wait at its position. -/
def block (w : Wait) (s : State) : State :=
  match s.cur with
  | none => s
  | some c => { c.arr.foldl (fun s r => s.modIssuer r fun i => { i with wait := w }) s with cur := none }

/-! ### Elements of the active set -/

/-- The elements of the active set in ascending element index (R94): group index and lane. -/
def Cur.elems (c : Cur) : List (Nat × Nat) := c.act.flatMap fun (g, m) => (lanesOf m).map fun l => (g, l)

def Cur.empty (c : Cur) : Bool := c.act.all fun (_, m) => m == 0#64

/-- The groups of the unit with a lane in the active set. -/
def Cur.live (c : Cur) : List Nat := (c.act.filter fun (_, m) => m != 0#64).map (·.1)

/-- Lanes of each group among some elements. -/
def groupLanes (els : List (Nat × Nat)) : List (Nat × Lanes) :=
  (els.map (·.1)).dedup.map fun g => (g, maskOf ((els.filter fun e => e.1 == g).map (·.2)))

/-! ### Energy: charging an event (R297 to R300) -/

/-- The account and launch of a block's charges. -/
def acctOf (s : State) (b : Nat) : Option Nat × Nat :=
  match tget? s.blocks b with
  | some B => (some B.pasid, (s.gridOf B).launch)
  | none => (none, 0)

/-- One weight table entry in force (R297): the factory value unless `wtwr` replaced it. -/
def weight (s : State) (die step cls : Nat) : Nat :=
  let d := s.die die
  match tget? d.weights (256 * step + cls) with
  | some w => w.toNat
  | none => if d.factory then (Config.factoryWeight die step cls).toNat else 0

/-- The world of an account: a PASID, or for charges of a context that has ended 2^20 + its world. -/
def worldOfAcct (s : State) (acct : Nat) : Option Nat :=
  if 2 ^ 20 ≤ acct then some (acct - 2 ^ 20) else (tget? s.ctxs acct).map (·.world)

/-- Add to an account: lifetime and world meters and the launch's energy rise, the bucket falls (R300, R302). -/
def adjust (s : State) (acct : Nat) (launch : Nat) (amt : Int) : State :=
  let w := worldOfAcct s acct
  let s := s.modCtx acct fun c => { c with level := c.level - amt, meter := c.meter + amt }
  let s := match w with
    | some w => s.modWorld w fun W => { W with meter := W.meter + amt }
    | none => s
  s.modLaunch launch fun l => { l with energy := l.energy + amt }

/-- Add to an overhead account: of a crown domain, or of the package (R300). -/
def adjustOver (s : State) (dom : Nat) (amt : Int) : State :=
  if dom < 24 then s.modDie dom fun d => { d with povh := d.povh + amt }
  else { s with energy := { s.energy with kovh := s.energy.kovh + amt } }

def addCharge (l : List Charge) (c : Charge) : List Charge :=
  match l with
  | [] => [c]
  | x :: r =>
    if x.dom = c.dom ∧ x.acct = c.acct ∧ x.launch = c.launch then { x with amt := x.amt + c.amt } :: r
    else x :: addCharge r c

/-- Apply a charge to its account at once (R272, R300). -/
def applyCharge (s : State) (c : Charge) : State :=
  if c.amt = 0 then s
  else
    let s := { s with energy := { s.energy with now := addCharge s.energy.now c } }
    match c.acct with
    | some p =>
      let w := (worldOfAcct s p).getD 0
      let s := s.modWorld w fun W => { W with dies := if c.dom < 24 then ninsert W.dies c.dom else W.dies }
      adjust s p c.launch c.amt
    | none => adjustOver s c.dom c.amt

/-- The sensor domain of an event (R302): hbm the stack's supply, ucie, fab and cpy64 the brim, otherwise the die's. -/
def domainOf (die cls stack : Nat) : Nat := if cls = 0x3C then 25 + stack else if 0x3D ≤ cls ∧ cls ≤ 0x3F then 24 else die

/-- Charge n events of a class at a die to a block's context. -/
def charge (s : State) (die cls n : Nat) (acct : Option Nat) (launch : Nat) : State :=
  let step := if 0x3C ≤ cls ∧ cls ≤ 0x3F then 0 else (s.die die).step
  applyCharge s { dom := domainOf die cls 0, acct, launch, amt := weight s die step cls * n }

/-- Charge a memory-side event: it reaches its account with its report (R299). -/
def chargeFar (s : State) (die cls n stack : Nat) (acct : Option Nat) (launch : Nat) : State :=
  let step := if 0x3C ≤ cls ∧ cls ≤ 0x3F then 0 else (s.die die).step
  let amt := weight s die step cls * n
  if amt = 0 then s
  else { s with energy := { s.energy with
    reports := s.energy.reports ++ [⟨s.energy.tick, { dom := domainOf die cls stack, acct, launch, amt }⟩] } }

/-- How many events of its class an instruction is (Table 23.1). -/
inductive Per where | issue | lane | group
  deriving DecidableEq, Repr

/-- Charge the word in execution: an empty active set is charged nothing (R298); in a sandbox the charge is the
re-execution's (R337). -/
def chargeWord (cls : Nat) (per : Per) (s : State) : State :=
  match s.cur with
  | none => s
  | some c =>
    if c.empty then s
    else
      match tget? s.blocks c.blk with
      | none => s
      | some B =>
        let n := match per with
          | .issue => 1
          | .lane => c.elems.length
          | .group => c.live.length
        let die := dieOf B.home
        let la := (s.gridOf B).launch
        let s := charge s die cls n (some B.pasid) la
        -- register rows moved, which the bank window decides (R96; assumption 19)
        if weight s die (s.die die).step 0x02 = 0 then s
        else charge { s with free := s.free + 1 } die 0x02 (Config.bankEvents s.free) (some B.pasid) la

/-- Retire the word in execution after charging it. -/
def done (cls : Nat) (per : Per) (s : State) : Out := .next (retire (chargeWord cls per s))

/-! ### Time -/

/-- Whether a relock is running on a die (R305): no core cycle occurs. -/
def Die.relocking (d : Die) (now : Nat) : Bool :=
  match d.chg with
  | some (.relock _ _ st _) => decide (st ≤ now ∧ now < st + 1500)
  | _ => false

/-- How much of the next ns nanoseconds a relock takes (R305). -/
def Die.relockPart (d : Die) (now ns : Nat) : Nat :=
  match d.chg with
  | some (.relock _ _ st _) => min (now + ns) (st + 1500) - max now st
  | _ => 0

/-- The crown frequency at a step in MHz: 400 + 25 n (R10). -/
def stepMHz (n : Nat) : Nat := 400 + 25 * n

/-- The step at which a die counts its next cycle: in a relock, the one the relock brings into force (R305). -/
def Die.countStep (d : Die) : Nat :=
  match d.chg with
  | some (.relock t _ _ _) => t
  | _ => d.step

/-- Core cycles counted on a die since reset (R307). -/
def State.cycles (s : State) (die : Nat) : Nat := (s.die die).cyc / 1000

/-- The weight-store bank under refresh at a moment of REFT: windows of 120 ns, every 250 ns, on bank after bank (R138). -/
def refreshBank (reft : Nat) : Option Nat := if reft % 250 < 120 then some (reft / 250 % 32) else none

/-- Place a value in bits [hi:lo] of a word being built. -/
def field (hi lo v : Nat) : Nat := v % 2 ^ (hi + 1 - lo) * 2 ^ lo

/-- Write a trace entry in both clusters of a die (Table 23.5) and advance NCHG: a new step in force at time t. -/
def Die.record (d : Die) (die n cause t : Nat) : Die :=
  let e : BitVec 128 := BitVec.ofNat 128 (field 63 0 t + field 68 64 die + field 78 72 n + field 83 80 cause)
  let k := (d.chgs + 1) % 256
  { d with pstep := d.step, step := n, tchg := BitVec.ofNat 32 t, chgs := d.chgs + 1, trace0 := tset d.trace0 k e
           trace1 := tset d.trace1 k e }

/-- A relock that has lasted its 1,500 ns by a moment ends then: the new step is in force, and after a lowering the supply follows
(R305, R306). -/
def Die.relocked (d : Die) (die now : Nat) : Die :=
  match d.chg with
  | some (.relock t cause st lowering) =>
    if st + 1500 ≤ now then { d.record die t cause (st + 1500) with chg := if lowering then some (.lower (st + 1500)) else none } else d
  | _ => d

/-- Let REFT advance: each die's cycle count advances unless it relocks (R305, R307), a relock ends 1,500 ns after it began (R305),
and refresh windows come and go (R138). -/
def elapse (s : State) (ns : Nat) : State :=
  let dies := (List.range 24).foldl (fun t d =>
    let x := tgetD t d Die.reset
    tset t d (Die.relocked { x with cyc := x.cyc + stepMHz x.countStep * (ns - x.relockPart s.reft ns), refresh := refreshBank (s.reft + ns) } d
      (s.reft + ns))) s.dies
  { s with reft := s.reft + ns, dies }

/-! ### Fault codes (Table 21.1) -/

namespace Code
def illegalClause := 0x01
def illegalOp := 0x02
def illegalOperand := 0x03
def privOp := 0x04
def scopeSplit := 0x05
def softTrap := 0x06
def forkDenied := 0x07
def forkDepth := 0x08
def placeFault := 0x09
def placeLive := 0x0A
def limitBad := 0x0B
def handlerBad := 0x0C
def regLimit := 0x0D
def capTag := 0x10
def capSealed := 0x11
def capPerm := 0x12
def capBounds := 0x13
def capAlign := 0x14
def capGlobal := 0x15
def capRevoked := 0x16
def objInvalid := 0x17
def s2Perm := 0x18
def spanMiss := 0x19
def spanMigrating := 0x1A
def s2Miss := 0x1B
def memAlign := 0x20
def spmAlign := 0x21
def spmBounds := 0x22
def wsBounds := 0x23
def wsReadonly := 0x24
def copyLen := 0x25
def winTarget := 0x26
def winTicket := 0x27
def winBounds := 0x28
def barOrder := 0x30
def barCount := 0x31
def gridNotcor := 0x32
def sstepMix := 0x33
def chanUnbound := 0x34
def chanDir := 0x35
def chanDesc := 0x36
def chanPeer := 0x37
def chanSize := 0x38
def opBusy := 0x40
def mtxClaim := 0x41
def mtxDesc := 0x42
def mtxTarget := 0x43
def viewBad := 0x44
def accBounds := 0x45
end Code

/-- The three retryable codes (R282). -/
def retryable (code : Nat) : Bool := 0x19 ≤ code && code ≤ 0x1B

/-! ### Fault records (R283, Table 21.2) -/

/-- A fault record by its fields. -/
structure FaultRec where
  code : Nat
  retry : Bool := false
  defer : Bool := false
  exited : Bool := false
  mtr : Bool := false
  mix : Bool := false
  last : Bool := true
  scope : Scope := .lane
  unit : Nat := 0
  part : Nat := 0
  sub : Nat := 0
  pasid : Nat := 0
  world : Nat := 0
  func : Nat := 0
  bidx : Nat := 0
  gidx : Nat := 0
  grid : Nat := 0
  paddr : Nat := 0
  pword : Nat := 0
  qaddr : Nat := 0
  qword : Nat := 0
  lanes : Lanes := 0#64
  data : Nat := 0
  time : Option Nat := none
  deriving DecidableEq, Repr

def FaultRec.bits (r : FaultRec) : BitVec 512 :=
  let b (x : Bool) : Nat := if x then 1 else 0
  BitVec.ofNat 512 <|
    field 7 0 r.code + field 8 8 (b r.retry) + field 9 9 (b r.defer) + field 10 10 (b r.exited) + field 11 11 (b r.mtr) +
    field 12 12 (b r.mix) + field 16 16 (b r.last) + field 18 17 (eScope r.scope).toNat + field 20 19 r.unit +
    field 26 21 r.part + field 63 32 r.sub + field 83 64 r.pasid + field 89 84 r.world + field 95 90 r.func +
    field 127 96 r.bidx + field 132 128 r.gidx + field 191 160 r.grid + field 235 192 r.paddr + field 239 236 r.pword +
    field 299 256 r.qaddr + field 303 300 r.qword + field 383 320 r.lanes.toNat + field 447 384 r.data +
    field 511 448 (r.time.getD 0)

/-- A record's 64 bytes in memory. -/
def recBytes (r : BitVec 512) : List Byte := natBytes 64 r.toNat

/-- The fields of a record that the block, its context and its grid give; TIME is now, where the fault was not detected before. -/
def recFor (s : State) (b : Nat) (r : FaultRec) : FaultRec :=
  match tget? s.blocks b with
  | none => { r with time := some (r.time.getD s.reft) }
  | some B =>
    let (w, f) := match tget? s.ctxs B.pasid with
      | some c => (c.world, c.func)
      | none => (0, 0)
    { r with pasid := B.pasid, world := w, func := f, bidx := B.bidx, grid := (s.gridOf B).lvl7, time := some (r.time.getD s.reft) }

/-! ### Delivery (R286, R288) -/

/-- The ring a record goes to: 0 and 1 the physical function's retryable and terminal rings, 1 + f the ring of virtual
function f (R286). -/
def ringOf (code func : Nat) : Nat :=
  if code = Code.s2Miss then 0 else if func = 0 then (if retryable code then 0 else 1) else 1 + func

/-- Give records to the reporting port: a ring's records wait in order (R286). -/
def toRing (s : State) (ring : Nat) (recs : List (BitVec 512)) : State :=
  s.modRing ring fun R => { R with held := R.held ++ recs.map recBytes }

/-- Whether a handler receives the terminal faults of a block: one is installed and the block is no handler (R288). -/
def handles (s : State) (b : Nat) : Bool :=
  match tget? s.blocks b with
  | some B => B.serves.isNone && ((tget? s.ctxs B.pasid).bind (·.handler)).isSome
  | none => false

/-- Deliver the records of a fault, under its handle: to the context's handler, or to a ring (R286, R288). A fault
taken in a view's re-execution reports nothing (R337). -/
def deliver (s : State) (b h : Nat) (p : Park) : State :=
  if s.sandbox.isSome then { s with parks := tset s.parks h p }
  else if !retryable p.code && handles s b then { s with parks := tset s.parks h { p with handled := true } }
  else
    let f := ((tget? s.ctxs p.pasid).map (·.func)).getD 0
    toRing { s with parks := tset s.parks h p } (ringOf p.code f) p.recs

/-! ### Taking a fault: parking a sub-group, suspending a unit (R35, R284) -/

/-- Take lanes out of an issuer: an emptied stream has no clause, an emptied diverged issuer is gone. -/
def Group.dropLanes (g : Group) (k : Nat) (m : Lanes) : Group :=
  match g.issuer? k with
  | none => g
  | some i =>
    let ls := i.lanes &&& ~~~m
    match k with
    | 0 => { g with stream :=
        if ls == 0#64 then { i with lanes := ls, cl := none, wait := .go, closed := false, buf := [] } else { i with lanes := ls } }
    | l + 1 => if ls == 0#64 then { g with div := tdel g.div l } else { g with div := tset g.div l { i with lanes := ls } }

/-- The scope of the word at an issuer's position. -/
def Issuer.scope (i : Issuer) : Scope :=
  match i.cl with
  | some c => if c.idx = 0 then .lane else scopeOf (c.words.getD c.off 0#32)
  | none => .lane

/-- Faults of one kind that are found after issue: the operation's position, when they were found, and its requests (R198, R207). -/
structure Late where
  addr : Nat
  idx : Nat
  time : Nat
  reqs : List (Nat × Nat)
  deriving DecidableEq, Repr

/-- Park lanes of one issue that take one terminal code at one position (R284); `ks` gives the lanes by issuer. -/
def parkMany (s : State) (b g : Nat) (ks : List (Nat × Lanes)) (code data : Nat) (late : Option Late) (headless : Bool) : State :=
  match ks.head?.bind fun k => s.issuer? ⟨b, g, k.1⟩ with
  | none => s
  | some i =>
    let m := ks.foldl (fun m k => m ||| k.2) 0#64
    let (h, s) := s.fresh
    let rec0 : FaultRec :=
      { code, scope := i.scope, sub := h, gidx := g, paddr := i.pos.1, pword := i.pos.2, lanes := m, data }
    let rec1 := match late with
      | some q => { rec0 with defer := true, qaddr := q.addr, qword := q.idx, time := some q.time }
      | none => rec0
    let ls := ks.flatMap fun (k, m) => match s.issuer? ⟨b, g, k⟩ with
      | some i => (lanesOf m).map fun l => (l, { i with lanes := laneBit l, wait := .go, closed := false })
      | none => []
    let s := s.modGroup b g fun G => { ks.foldl (fun G k => G.dropLanes k.1 k.2) G with parked := G.parked ||| m }
    deliver s b h
      { code, pasid := ((tget? s.blocks b).map (·.pasid)).getD 0, held := .lanes b g (sortBy (fun x y => decide (x.1 ≤ y.1)) ls)
        recs := [(recFor s b rec1).bits], defer := (late.map (·.reqs)).getD [], headless, handled := false, dispo := none }

/-- Park the lanes of one issuer that take one terminal code (R284). -/
def parkLanes (s : State) (r : IRef) (m : Lanes) (code data : Nat) (late : Option Late) (headless : Bool) : State :=
  parkMany s r.blk r.gidx [(r.iss, m)] code data late headless

def unitCode : Scope → Nat
  | .lane => 0
  | .group => 1
  | .set => 2
  | .block => 3

/-- Number the records of one fault: PART from 0, LAST on the final one (R283). -/
def numberRecs (rs : List FaultRec) : List FaultRec :=
  rs.mapIdx fun k r => { r with part := k, last := k + 1 == rs.length }

/-- Suspend a unit with the records given (R35). -/
def suspendUnit (s : State) (b : Nat) (gs : List Nat) (e : Scope) (code : Nat) (rs : List FaultRec) : State :=
  let (h, s) := s.fresh
  let recs := (numberRecs rs).map fun r => (recFor s b { r with code, sub := h, unit := unitCode e }).bits
  let s := gs.foldl (fun s g => s.modGroup b g fun G => { G with susp := G.susp ++ [h] }) s
  deliver s b h
    { code, pasid := ((tget? s.blocks b).map (·.pasid)).getD 0, held := .unit b gs e, recs, defer := [], headless := false
      handled := false, dispo := none }

/-- The charge class of an instruction and how it is counted (Tables 11.1, 11.2, 13.1, 13.2, 15.1, 15.2, 17.1, 17.5); an
`mpair` has none of its own, as its MAC events occur at retirement (R299). -/
def classOf (e : Eng) (o : Nat) : Option (Nat × Per) :=
  let within (a b : Nat) : Bool := decide (a ≤ o) && decide (o ≤ b)
  match e with
  | .ctl => if within 0x09 0x0F then some (0x09, .issue) else some (0x08, .issue)
  | .sys =>
    if within 0x20 0x23 then some (0x0D, .issue)
    else if o ≤ 0x01 ∨ o = 0x24 then some (0x0A, .issue)
    else if o ≤ 0x04 then some (0x0B, .issue)
    else some (0x0C, .issue)
  | .uni => if within 0x02 0x04 then some (0x11, .issue) else if within 0x20 0x23 then some (0x12, .issue) else some (0x10, .issue)
  | .vint =>
    if within 0x02 0x04 then some (0x15, .lane)
    else if within 0x28 0x2B then some (0x12, .issue)
    else if within 0x2D 0x36 then some (0x16, .lane)
    else some (0x14, .lane)
  | .vflt =>
    if within 0x06 0x07 then some (0x19, .lane)
    else if within 0x08 0x0B then some (0x1A, .lane)
    else if within 0x18 0x19 then some (0x1B, .lane)
    else if within 0x1A 0x1C then some (0x1C, .lane)
    else if o = 0x1D ∨ o = 0x21 then some (0x16, .lane)
    else if within 0x20 0x23 then some (0x1D, .lane)
    else some (0x18, .lane)
  | .mem =>
    if o ≤ 0x07 then some (0x20, .lane)
    else if o ≤ 0x0D then some (0x21, .lane)
    else if o ≤ 0x0F then some (0x23, .lane)
    else if o ≤ 0x15 then some (0x24, .lane)
    else if o ≤ 0x17 then some (0x25, .lane)
    else if o ≤ 0x1F then some (0x22, .lane)
    else if o ≤ 0x22 then some (0x26, .issue)
    else if o ≤ 0x2C then some (0x27, .lane)
    else if o ≤ 0x32 then some (0x28, .issue)
    else some (0x20, .lane)
  | .asy =>
    if o ≤ 0x02 then some (0x29, .lane)
    else if o = 0x03 then some (0x27, .issue)
    else if o = 0x0A then some (0x2D, .issue)
    else if o = 0x10 then none
    else if within 0x11 0x13 then some (0x2E, .issue)
    else some (0x2C, .issue)

/-- Charge an issue some of whose elements meet a terminal fault (R298): only an issue without active lanes is free. The events counted by
lane are those of the elements that fault; the one of an issue at lane scope falls to the lanes left, where there are any, as they issue
the word again (assumptions 21, 107). At a wide scope the whole active set issued. -/
def chargeFault (els : List (Nat × Nat)) (s : State) : State :=
  match s.cur with
  | none => s
  | some c =>
    match (c.arr.head?.bind s.issuer?).bind fun i => i.cl.bind fun cl => classOf c.eng (opc (cl.words.getD cl.off 0#32)) with
    | none => s
    | some (cls, per) =>
      if c.e == .lane && per != .lane && c.elems.any fun x => !els.contains x then s
      else
        let act := if c.e == .lane then c.act.map fun (g, m) => (g, m &&& maskOf ((els.filter fun x => x.1 == g).map (·.2))) else c.act
        { chargeWord cls per { s with cur := some { c with act } } with cur := s.cur }

/-- A lane's terminal code: group, lane, code, data. -/
structure LFault where
  g : Nat
  l : Nat
  code : Nat
  data : Nat
  deriving DecidableEq, Repr

/-- A wide-scope fault: the code of the lowest element, the lanes that met it, MIX for the others (R35), detected now or at a time
given. -/
def wideFault (s : State) (c : Cur) (fs : List LFault) (time : Option Nat := none) : State :=
  match fs with
  | [] => s
  | f :: _ =>
    let same := fs.filter fun x => x.code == f.code
    let gs := groupLanes (same.map fun x => (x.g, x.l))
    let mix := same.length != fs.length
    let rs := gs.map fun (g, m) =>
      let d := (same.find? fun x => x.g == g).map (·.data)
      { code := f.code, mix, scope := c.e, gidx := g, paddr := c.addr, pword := c.idx, lanes := m, data := d.getD 0, time : FaultRec }
    let s := c.arr.foldl (fun s r => s.modIssuer r fun i => { i with wait := .rdv c.e, closed := false }) s
    { suspendUnit s c.blk (unitGroups s c.blk c.lead c.e) c.e f.code rs with cur := none }

/-- TAKING A FAULT. The elements of the word in execution that meet a terminal code: at lane scope each code parks its
lanes (R284), at a wider scope the unit is suspended and nothing takes effect (R35). The lanes left stay current. -/
def raiseFault (fs : List LFault) (s : State) : State :=
  match s.cur, fs with
  | none, _ => s
  | _, [] => s
  | some c, _ =>
    match c.e with
    | .lane =>
      match c.arr with
      | r :: _ =>
        let s := ((fs.map (·.code)).dedup).foldl (fun s code =>
          let same := fs.filter fun x => x.code == code
          parkLanes s r (maskOf (same.map (·.l))) code ((same.head?.map (·.data)).getD 0) none false) s
        let m := maskOf (fs.map (·.l))
        if (s.issuer? r).isNone || ((s.issuer? r).map fun i => i.lanes == 0#64) == some true then { s with cur := none }
        else { s with cur := some { c with act := c.act.map fun (g, x) => (g, x &&& ~~~m) } }
      | [] => s
    | _ => wideFault s c fs

/-- A fault of every lane of the active set, where no instruction is charged: a word that does not decode, and `trap`, which is charged
before it. -/
def faultAll (code data : Nat) (s : State) : Out :=
  match s.cur with
  | none => .next s
  | some c => .next (retire (raiseFault (c.elems.map fun (g, l) => ⟨g, l, code, data⟩) s))

/-- A fault of an instruction by every lane of the active set. -/
def faultWord (code data : Nat) (s : State) : Out := faultAll code data (chargeFault ((s.cur.map Cur.elems).getD []) s)

/-! ### Symbols (R196) -/

def VCell.refers (c : VCell) (σ : Nat) : Bool :=
  match c with
  | .val _ => false
  | .aff x _ _ => x == σ
  | .dfr x _ => x == σ

/-- Resolve every register lane that refers to σ among the lanes given with their values (R196). -/
def Group.resolve (g : Group) (σ : Nat) (vals : Tab Word) : Group :=
  { g with v := g.v.map fun (r, row) => (r, row.map fun (l, c) =>
      if c.refers σ then (match tget? vals l with | some v => (l, .val (c.resolve v)) | none => (l, c)) else (l, c)) }

/-- Register lanes that refer to σ among some lanes: the events of class symr (R200). -/
def Group.refsOf (g : Group) (σ : Nat) (lanes : List Nat) : Nat :=
  g.v.foldl (fun n (_, row) => n + (row.filter fun (l, c) => c.refers σ && lanes.contains l).length) 0

/-- The operation that a symbol belongs to. -/
def opOfSym (s : State) (σ : Nat) : Option (Nat × Op) := s.ops.find? fun (_, o) => o.syms.contains σ

def Op.req? (o : Op) (lane : Nat) : Option LReq := o.lanes.find? fun q => q.lane == lane

def Op.modReq (o : Op) (lane : Nat) (f : LReq → LReq) : Op :=
  { o with lanes := o.lanes.map fun q => if q.lane == lane then f q else q }

/-- Remove a lane's request; an operation with none left is gone. -/
def dropReq (s : State) (op lane : Nat) : State :=
  match tget? s.ops op with
  | none => s
  | some o =>
    let ls := o.lanes.filter fun q => q.lane != lane
    if ls.isEmpty then { s with ops := tdel s.ops op } else { s with ops := tset s.ops op { o with lanes := ls } }

/-- The counter an operation raises (Table 3.3). -/
def OpKind.ctr : OpKind → CK
  | .store _ | .storeCap | .sts _ | .put => .st
  | .cpy | .cpysIn | .cpysOut | .mcast => .cp
  | .oload => .tl
  | _ => .ld

/-- Charge the resolution of register lanes of a block, in the class symr, at the die it runs on or was saved from (R200). -/
def chargeSymr (s : State) (b n : Nat) : State :=
  let (acct, la) := acctOf s b
  charge s (dieOf (((tget? s.blocks b).map (·.home)).getD 0)) 0x04 n acct la

/-- Resolve a faulted request as if it had returned zero, its counter having fallen at the park (R289, ACT 1). -/
def zeroReq (s : State) (op lane : Nat) : State :=
  match tget? s.ops op with
  | none => s
  | some o =>
    let refs := ((s.grp? o.blk o.gidx).map fun G => (o.syms.map fun σ => G.refsOf σ [lane]).sum).getD 0
    let s := chargeSymr s o.blk refs
    let s := s.modGroup o.blk o.gidx fun g => o.syms.foldl (fun g σ => g.resolve σ [(lane, 0#32)]) g
    dropReq s op lane

/-! ### Ending lanes and groups (R157, R158) -/

/-- The issuers of a group that have lanes. -/
def Group.issuers (g : Group) : List Nat :=
  (if g.stream.lanes == 0#64 then [] else [0]) ++ (g.div.filter fun d => d.2.lanes != 0#64).map fun d => d.1 + 1

/-- The members of a closed instance: every member that was not excluded when it closed, so that no other instance closes in its
unit before they have left the point (R32). -/
def closedPeers (s : State) (b : Nat) (gs : List Nat) : List IRef :=
  gs.flatMap fun g =>
    match s.grp? b g with
    | none => []
    | some G => (G.issuers.filter fun k => ((G.issuer? k).map (·.closed)) == some true).map fun k => ⟨b, g, k⟩

/-- The lanes of an issuer whose guard is true. -/
def Issuer.guarded (i : Issuer) : Lanes := i.lanes &&& ((i.cl.map (·.guard)).getD 0#64)

/-- An issuer that waits inside a word meets a terminal fault there, in the groups that some test picks: at lane scope its active lanes
park, at a wider scope the unit of the instance is suspended (R35, R233). -/
def faultWaiting (s : State) (r : IRef) (code : Nat) (hit : Nat → Bool) : State :=
  match s.issuer? r with
  | none => s
  | some i =>
    match i.scope with
    | .lane => parkLanes s r i.guarded code 0 none false
    | e =>
      let rs := closedPeers s r.blk (unitGroups s r.blk r.gidx e)
      let fs : List LFault := (rs.filter fun x => hit x.gidx).flatMap fun x => (lanesOf (((s.issuer? x).map Issuer.guarded).getD 0#64)).map fun l => ⟨x.gidx, l, code, 0⟩
      let c : Cur := { blk := r.blk, e, arr := rs, act := [], addr := i.pos.1, idx := i.pos.2, k := 1, sym := false, eng := .mem, lead := r.gidx }
      { wideFault s c fs with cur := s.cur }

/-- Elements leave a fabric queue from its front: the credit of each goes back to the sender (R347). -/
def FQueue.takes (q : FQueue) (n : Nat) : FQueue := { q with elems := q.elems.drop n, owed := q.owed + min n q.elems.length }

/-- A fabric queue whose binding has gone: what it held is discarded, with its credit. -/
def FQueue.unbind (q : FQueue) : FQueue := { q.takes q.elems.length with bound := none }

/-- Whether a group's channel sends to the ring at an offset of a block, or, with no offset, to any ring of it. -/
def sendsTo (G : Group) (c : Nat) (peer : Nat) (off : Option Nat) : Bool :=
  match tget? G.chans c with
  | some ch => ch.kind == 2 && ch.peer == some peer && (off == none || off == some ch.off)
  | none => false

/-- Lanes that wait on a channel whose peer is gone fault CHAN_PEER (R223): those that send to the ring at an offset of a block, or,
with no offset, to any ring of it. -/
def chanPeerGone (s : State) (peer : Nat) (off : Option Nat) : State :=
  s.groups.foldl (fun s (k, _) =>
    let b := k / 32
    let g := k % 32
    match s.grp? b g with
    | none => s
    | some G =>
      (0 :: G.div.map fun d => d.1 + 1).foldl (fun s iss =>
        match s.issuer? ⟨b, g, iss⟩ with
        | some i =>
          match i.wait with
          | .chan c =>
            if sendsTo G c.toNat peer off then
              faultWaiting s ⟨b, g, iss⟩ Code.chanPeer fun g' => ((s.grp? b g').map fun H => sendsTo H c.toNat peer off) == some true
            else s
          | _ => s
        | none => s) s) s

/-- A group whose lanes have all exited ends: its uniform state and its channel bindings are released (R157). -/
def endGroup (s : State) (b g : Nat) : State :=
  match s.grp? b g with
  | none => s
  | some G =>
    let offs := (G.chans.filter fun c => c.2.kind == 3).map fun c => c.2.off
    let s := s.modGroup b g fun G => { G with s := [], st := [], p := [], q := 0#8, shadow := [], chans := [], msamp := none }
    let free (t : Tab FQueue) (c : Chan) : Tab FQueue :=
      if c.kind == 5 then tmod t (256 * c.slot + c.rlen) FQueue.unbind else t
    let s := { s with fqs := G.chans.foldl (fun t c => free t c.2) s.fqs }
    offs.foldl (fun s off => chanPeerGone s b (some off)) s

/-- Every lane of every group of the block has exited. -/
def blockEnded (s : State) (b : Nat) : Bool :=
  (s.groupsOf b).all fun g => ((s.grp? b g).map (·.exited)) == some (~~~0#64)

/-- Report the faulted requests of lanes that exit before parking: a record with EXITED set for the lanes of one issue that
met one code, and the counters fall (R198, R207, R283). A copy's lanes are reported once each of those has an outcome. -/
def reportExited (s : State) (b g : Nat) (m : Lanes) : State :=
  s.ops.foldl (fun s (k, o) =>
    let mine := o.lanes.filter fun q => m.getLsbD q.lane
    let moving := o.kind.ctr == .cp && mine.any fun q => q.ph == .sent || q.ph == .remote
    if o.blk != b || o.gidx != g || moving then s
    else
      let codes := (mine.filterMap fun q => match q.ph with | .faulted code => some code | _ => none).eraseDups
      codes.foldl (fun s code =>
        let qs := mine.filter fun q => q.ph == .faulted code
        let ls := qs.map (·.lane)
        let (h, s) := s.fresh
        let r : FaultRec :=
          { code, defer := true, exited := true, scope := o.e, sub := h, gidx := g, paddr := o.addr, pword := o.idx
            qaddr := o.addr, qword := o.idx, lanes := maskOf ls, time := qs.head?.map (·.ftime)
            data := if 0x10 ≤ code && code ≤ 0x1B then (qs.head?.map (·.x)).getD 0 else 0 }
        let s := lowerCtr (ls.foldl (fun s l => dropReq s k l) s) b g ls o.kind.ctr
        deliver s b h { code, pasid := ((tget? s.blocks b).map (·.pasid)).getD 0, held := .lanes b g []
                        recs := [(recFor s b r).bits], defer := [], headless := false, handled := false, dispo := none }) s) s

/-- End lanes as by `exit` (R157): their registers are freed, their outstanding operations go on, load results for
them are discarded at arrival. The last lane ends the group, the last group sets the block draining (R158). -/
def exitLanes (s : State) (b g : Nat) (m : Lanes) : State :=
  let ls := lanesOf m
  let s := s.modGroup b g fun G =>
    { G with exited := G.exited ||| m, parked := G.parked &&& ~~~m
             v := G.v.map fun (r, row) => (r, row.filter fun c => !ls.contains c.1)
             vt := G.vt.map fun (q, t) => (q, t &&& ~~~m)
             vl := G.vl.map fun (q, t) => (q, t &&& ~~~m) }
  let s := reportExited s b g m
  let s := if ((s.grp? b g).map (·.exited)) == some (~~~0#64) then endGroup s b g else s
  -- with the block's exit every sender that waits on a ring of it faults (R223)
  if blockEnded s b then (chanPeerGone s b none).modBlock b fun B => { B with phase := .draining } else s

/-! ### Return from a fault: dispositions (R289, Table 21.4) -/

/-- Words of the instruction at a clause's position. -/
def Clause.wordsAt (c : Clause) : Nat :=
  match engOf (c.hdr.extractLsb' 4 3).toNat with
  | some e => if isLong e (opc (c.words.getD c.off 0#32)) then 2 else 1
  | none => 1

/-- The position after the one an issuer is at. A position (clause, 0) with the header held is skipped to the clause's
fall-through address (Table 21.4, ACT 1). -/
def Issuer.skip (i : Issuer) : Issuer :=
  match i.cl with
  | none => i
  | some c =>
    if c.idx = 0 then
      { i with cl := none, code := i.code.setCur (c.addr + 4 * (1 + (decodeHeader c.hdr).cnt)), wait := .go, closed := false }
    else i.past c.wordsAt

/-- Issue again at the position; a clause at (clause, 0) is fetched again. -/
def Issuer.again (i : Issuer) : Issuer :=
  match i.cl with
  | some c =>
    if c.idx = 0 then { i with cl := none, code := i.code.setCur c.addr, wait := .go, closed := false }
    else { i with wait := .go, closed := false }
  | none => { i with wait := .go, closed := false }

def Issuer.goto (i : Issuer) (a : Nat) : Issuer :=
  { i with cl := none, code := i.code.setCur a, wait := .go, closed := false }

/-- Whether a disposition is one that is applied to what a handle names (R289). -/
def dispoOk (p : Park) (w : DWord) : Bool :=
  let act := bits w.toNat 1 0
  bits w.toNat 7 2 == 0 && bits w.toNat 63 52 == 0 && !(act == 3 && bits w.toNat 51 8 % 4 != 0) && !(act == 1 && p.headless)

/-- A runnable issuer (R26). One that its clause gate holds at its boundary waits on a `wait`, and one that waits for symbol
entries on a pending register (R53, R193): each opportunity of its core records that in `wait` (`regate`). A fetch, and what a word
of lane scope releases, are none of the waits that R26 names; past a completed rendezvous the wait is that instruction's own. -/
def Issuer.runnable (i : Issuer) : Bool :=
  i.lanes != 0#64 && (match i.wait with | .go | .fetch _ | .code _ _ _ => true | .rel => !i.closed | _ => false)

/-- A runnable issuer that can take a turn: its clause is not held by a fetch. -/
def Issuer.canTurn (i : Issuer) : Bool := i.lanes != 0#64 && i.wait == .go

/-- At a clause boundary, whether its gate lets it issue or holds it (R25, R53). -/
def Issuer.atGate (i : Issuer) : Bool :=
  i.cl.isNone && (match i.wait with | .go | .lim | .pend => true | _ => false)

/-- Two issuers at one PC under one code capability; members of a closed instance of a rendezvous there are apart from lanes that have come
to the point since (R32). -/
def samePc (i j : Issuer) : Bool :=
  i.code == j.code && i.closed == j.closed && match i.cl, j.cl with
    | some a, some b => a.addr == b.addr && a.idx == b.idx
    | none, none => true
    | _, _ => false

/-- An issuer whose clause is in issue and whose next word nothing holds back. -/
def Issuer.midway (i : Issuer) : Bool :=
  i.lanes != 0#64 && i.wait == .go && (match i.cl with | some c => c.idx != 0 | none => false)

/-- The issuers of a group from the one that took the last turn on, in rotation. -/
def Group.fromTurn (G : Group) : List Nat :=
  let ks := G.issuers
  (ks.filter fun k => G.turn ≤ k + 1) ++ ks.filter fun k => k + 1 < G.turn

/-- The issuer that holds its group's turn: the one whose clause is in issue and not held inside it. A turn ends at the clause's
boundary, or where the clause waits inside (R22, R28, R168); until then no other issuer of the group issues. -/
def Group.holder (G : Group) : Option Nat := G.fromTurn.find? fun k => ((G.issuer? k).map Issuer.midway) == some true

/-- The stream passes to the lowest runnable diverged lane when none of its own lanes is runnable (R27). -/
def Group.handoff (G : Group) : Group :=
  if G.stream.runnable then G
  else match G.div.find? fun d => d.2.runnable with
    | none => G
    | some (_, i) =>
      let (same, rest) := G.div.partition fun d => samePc i d.2
      let lanes := same.foldl (fun m d => m ||| d.2.lanes) 0#64
      let guard := same.foldl (fun m d => m ||| ((d.2.cl.map (·.guard)).getD 0#64)) 0#64
      let old := (lanesOf G.stream.lanes).map fun l => (l, { G.stream with lanes := laneBit l, buf := [] })
      { G with stream := { i with lanes, cl := i.cl.map fun c => { c with guard }, buf := [] }
               div := old.foldl (fun t (l, j) => tset t l j) rest, hold := none
               -- an issuer inside its clause keeps the turn under its new number
               turn := match G.holder with
                 | some k => if same.any fun d => d.1 + 1 == k then 1 else k + 1
                 | none => G.turn }

/-- The turn stays with the issuer that holds it, whoever comes to be inside a clause beside it (R28, R168). -/
def Group.pinTurn (G : Group) : Group := match G.holder with
  | some k => { G with turn := k + 1 }
  | none => G

/-- Resumed lanes become diverged issuers at their positions; the stream passes to them where it has no runnable lane (R27). -/
def resumeLanes (s : State) (b g : Nat) (ls : List (Nat × Issuer)) (f : Issuer → Issuer) : State :=
  s.modGroup b g fun G => (ls.foldl (fun G (l, i) =>
    { G with parked := G.parked &&& ~~~(laneBit l), div := tset G.div l (f i) }) G.pinTurn).handoff

/-- Apply f to every issuer of a group. -/
def Group.mapIssuers (g : Group) (f : Issuer → Issuer) : Group :=
  { g with stream := f g.stream, div := g.div.map fun (l, i) => (l, f i) }

/-- Move every issuer of a suspended unit that waits at the rendezvous of its fault. -/
def Issuer.ifWaiting (f : Issuer → Issuer) (i : Issuer) : Issuer :=
  match i.wait with
  | .rdv _ => f i
  | _ => i

/-- A request of a faulted operation that is reissued: a copy starts over, and a lane of an `oload` that reads no block of it
has nothing to do. -/
def LReq.reissue (k : OpKind) (q : LReq) : LReq :=
  if k = .oload then { q with ph := if q.todo.isEmpty then .done else .sent }
  else { q with ph := .sent, got := [], todo := if k.ctr = .cp then List.range ((q.n + 63) / 64) else q.todo
                -- source bytes that were read ahead are read again (R146)
                old := q.old.filter fun e => decide (e.1 < 2 ^ 64) }

/-- RETURN FROM A FAULT: apply a disposition word to a handle (Table 21.4). ACT 2 on a suspended unit ends its lanes that are in an
issuer: whether "every lane of the unit" takes in lanes that stand parked in sub-groups of their own is not said, and the model leaves
those parked, each for the disposition of its own handle (DESIGN CHOICE, assumption 90). -/
def applyDispo (s : State) (h : Nat) (w : DWord) : State :=
  match tget? s.parks h with
  | none => s
  | some p =>
    let s := { s with parks := tdel s.parks h }
    let act := bits w.toNat 1 0
    let tgt := bits w.toNat 51 8
    let defer := !p.defer.isEmpty
    match p.held with
    | .lanes b g ls =>
      let s :=
        if act == 0 then
          p.defer.foldl (fun s (op, lane) =>
            match tget? s.ops op with
            | some o => raiseCtr (s.modOp op fun o => o.modReq lane (LReq.reissue o.kind)) b g [lane] o.kind.ctr
            | none => s) s
        else p.defer.foldl (fun s (op, lane) => zeroReq s op lane) s
      if act == 2 then exitLanes s b g (maskOf (ls.map (·.1)))
      else if act == 3 then resumeLanes s b g ls fun i => i.goto tgt
      else if (act == 1 && !defer) || p.code == Code.softTrap then resumeLanes s b g ls Issuer.skip
      else resumeLanes s b g ls Issuer.again
    | .unit b gs _ =>
      let s := gs.foldl (fun s g => s.modGroup b g fun G => { G with susp := G.susp.filter (· != h) }) s
      if act == 2 then
        gs.foldl (fun s g =>
          match s.grp? b g with
          | some G => exitLanes (s.modGroup b g fun G =>
              { G with stream := { G.stream with lanes := 0#64, cl := none, wait := .go, closed := false, buf := [] }, div := [] }) b g (~~~(G.exited ||| G.parked))
          | none => s) s
      else if act == 3 then gs.foldl (fun s g => s.modGroup b g fun G => G.mapIssuers fun i => i.goto tgt) s
      else if act == 1 || p.code == Code.softTrap then
        gs.foldl (fun s g => s.modGroup b g fun G => G.mapIssuers (Issuer.ifWaiting Issuer.skip)) s
      else
        -- an issuer that took the unit's fault at a lane-scope word issues that word again
        gs.foldl (fun s g => s.modGroup b g fun G => G.mapIssuers fun i => if i.wait == .rdv .lane then { i with wait := .go } else i) s
    | _ => s

end Sys2Proof.Machine
end

