-- ==== Sys2Proof/Machine/Cap.lean ====
section
/-!
DEFINITION. Capabilities, objects and translation (R97 to R122): fields, derivation, the check at the core, the stale
check, physical memory, stage 2 and frame owners, and Translate.
-/

namespace Sys2Proof.Machine

/-! ### Fields (Table 7.1) -/

def Cap.n (c : Cap) : Nat := c.bits.toNat
def Cap.bexp (c : Cap) : Nat := Sys2Proof.bits c.n 49 44
def Cap.blo (c : Cap) : Nat := Sys2Proof.bits c.n 63 50
def Cap.bhi (c : Cap) : Nat := Sys2Proof.bits c.n 77 64
def Cap.obn (c : Cap) : Nat := Sys2Proof.bits c.n 105 78
def Cap.perm (c : Cap) : Nat := Sys2Proof.bits c.n 117 106
def Cap.ogen (c : Cap) : Nat := Sys2Proof.bits c.n 121 118
def Cap.base (c : Cap) : Nat := c.blo * 2 ^ c.bexp
def Cap.top (c : Cap) : Nat := c.bhi * 2 ^ c.bexp

/-! Permission bits (Table 7.2). -/
namespace Perm
def r := 1
def w := 2
def x := 4
def lc := 8
def sc := 16
def at' := 32
def cpy := 64
def fab := 128
def glb := 256
def sealBit := 512
end Perm

/-- Whether every permission of a set is held. -/
def Cap.has (c : Cap) (p : Nat) : Bool := p &&& c.perm == p

def Cap.sealed (c : Cap) : Bool := c.has Perm.sealBit

/-- A capability from its fields, each truncated to its width, reserved bits zero. -/
def mkCap (cur bexp blo bhi obn perm ogen : Nat) (tag : Bool) : Cap :=
  ⟨BitVec.ofNat 128 (field 43 0 cur + field 49 44 bexp + field 63 50 blo + field 77 64 bhi + field 105 78 obn +
    field 117 106 perm + field 121 118 ogen), tag⟩

/-- Replace bits [hi:lo] of a capability. -/
def Cap.set (c : Cap) (hi lo v : Nat) : Cap :=
  { c with bits := BitVec.ofNat 128 (c.n - field hi lo (Sys2Proof.bits c.n hi lo) + field hi lo v) }

/-- R99. -/
def Cap.wellFormed (c : Cap) : Bool := c.bexp ≤ 30 && c.blo ≤ c.bhi && Sys2Proof.bits c.n 127 122 == 0 && Sys2Proof.bits c.perm 11 10 == 0

/-! ### Derivation (R102) -/

/-- Ceiling division. -/
def cdiv (a b : Nat) : Nat := (a + b - 1) / b

/-- Ceiling division of a number that may be negative. -/
def icdiv (a : Int) (b : Nat) : Int := -((-a) / (b : Int))

/-- The least exponent that admits a top (R102); none when no exponent up to 30 does. A negative top needs exponent 0. -/
def boundExp (top : Nat) : Option Nat := (List.range 31).find? fun e => cdiv top (2 ^ e) ≤ 16383

inductive DOpc where | bnd | perm | add | set | sealOp
  deriving DecidableEq, Repr

/-- Derive (R102); v is the operand as a signed number. -/
def derive (k : Cap) (op : DOpc) (v : Int) : Cap :=
  let t := k.tag && k.wellFormed && !k.sealed
  match op with
  | .bnd =>
    let b := k.cur
    let top : Int := b + v
    let (e, fits) := match boundExp top.toNat with
      | some e => (e, true)
      | none => (30, false)
    let blo := b / 2 ^ e
    let bhi := icdiv top (2 ^ e)
    let j := ((k.set 49 44 e).set 63 50 blo).set 77 64 (intBits 14 bhi)
    { j with tag := t && decide (0 ≤ v) && fits && decide (k.base ≤ blo * 2 ^ e) && decide (bhi * 2 ^ e ≤ k.top) }
  | .perm => { k.set 117 106 (k.perm &&& bits v.toNat 11 0 &&& 0x1FF) with tag := t }
  | .add | .set =>
    let c : Int := if op = .add then k.cur + v else v
    { k.set 43 0 (intBits 44 c) with tag := t && decide (0 ≤ c) && decide (c < 2 ^ 44) }
  | .sealOp => { k.set 117 106 (k.perm ||| Perm.sealBit) with tag := t }

/-- A root (R103): bounds formed as the first lines of bnd form them, with no source; null when they do not fit. -/
def rootCap (obn ogen perm base len : Nat) : Cap :=
  match boundExp (base + len) with
  | none => Cap.null
  | some e => mkCap base e (base / 2 ^ e) (cdiv (base + len) (2 ^ e)) obn perm ogen true

/-! ### The check at the core (R105) -/

/-- CapCheck: the offset, or the fault code and its data (the offset, Table 21.2). -/
def capCheck (k : Cap) (d : Int) (n need : Nat) : Except (Nat × Nat) Nat :=
  let x : Int := k.cur + d
  let dat := intBits 64 x
  if !k.tag then .error (Code.capTag, dat)
  else if k.sealed then .error (Code.capSealed, dat)
  else if !k.has need then .error (Code.capPerm, dat)
  else if x < k.base ∨ (k.top : Int) < x + n then .error (Code.capBounds, dat)
  else .ok x.toNat

/-! ### Physical memory -/

/-- A byte of HBM: within a save image the layout is the device's own (R291, assumption 18). -/
def physByte (s : State) (h : Nat) : Byte :=
  match s.mem.images.find? fun (b, n, _) => b ≤ h && h < b + n with
  | some (_, _, k) => Config.imageByte k h
  | none => s.mem.hbm.get h

def physRead (s : State) (h n : Nat) : List Byte := (List.range n).map fun i => physByte s (h + i)


/-- The lines that n bytes from h touch. -/
def linesOf (h n : Nat) : List Nat := if n = 0 then [] else (List.range ((h + n - 1) / 64 - h / 64 + 1)).map (h / 64 + ·)

/-- The world that owns a frame's lines, with its current slot (R323, R322). -/
def slotOfFrame (s : State) (frame : Nat) : Nat :=
  match tget? s.mem.owner frame with
  | some w => ((tget? s.worlds w).map (·.cur)).getD 0
  | none => 0

/-- The first write to a line clears SCR, records the current slot and clears the poison (R322). -/
def touchLines (s : State) (h n : Nat) : State :=
  (linesOf h n).foldl (fun s l =>
    { s with mem := { s.mem with lines := tset s.mem.lines l ⟨slotOfFrame s (l * 64 / 2 ^ 21), false, false, false, 0#56⟩ } }) s

/-- The keys of a world's slot: two for XTS, one for line MACs, one for links, from the low end (R318, R319). -/
def slotKeys (s : State) (world slot : Nat) : BitVec 1024 := ((tget? s.worlds world).bind fun W => tget? W.slots slot).getD 0#1024

/-- A line's capability tag bits, granule 0 lowest (Table 25.2, CT). -/
def lineCt (s : State) (l : Nat) : Nat :=
  (List.range 4).foldl (fun n i => n + if s.mem.hbm.tag (64 * l + 16 * i) then 2 ^ i else 0) 0

/-- The key slot under which a line of an image was written, as its save wrote it (R291, R321). -/
def imageKs? (s : State) (l : Nat) : Option Nat :=
  (s.mem.images.find? fun (b, n, _) => b ≤ 64 * l && 64 * l < b + n).map fun m => m.2.2 / 2 ^ 32 % 2

/-- KS of a line. -/
def lineKs (s : State) (l : Nat) : Nat := match tget? s.mem.lines l with
  | some x => x.ks
  | none => (imageKs? s l).getD 0

/-- What HBM holds of a line: its bytes encrypted under the XTS keys of its slot, with h[47:6] as the tweak (R321). -/
def lineCipher (s : State) (l : Nat) : List Byte :=
  let keys := slotKeys s ((tget? s.mem.owner (l / 2 ^ 15)).getD 0) (lineKs s l)
  Config.xtsLine (keys.extractLsb' 0 512).toNat l ((List.range 64).map fun i => physByte s (64 * l + i))

/-- The MAC of a line: over the ciphertext and the tag bits, under the line MAC key, with nonce h[47:6] ‖ world ‖ slot (R321). -/
def lineMac (s : State) (l : Nat) : BitVec 56 :=
  let world := (tget? s.mem.owner (l / 2 ^ 15)).getD 0
  let slot := lineKs s l
  Config.gmac ((slotKeys s world slot).extractLsb' 512 256).toNat ((64 * l + world) * 2 + slot) (lineCipher s l) (lineCt s l)

/-- The metadata of a line: as its last write left it; a line of an image has that of the save, which formed its MAC over what it wrote
(R291, R321). -/
def lineAt (s : State) (l : Nat) : Line := match tget? s.mem.lines l with
  | some x => x
  | none => match imageKs? s l with
    | some ks => ⟨ks, false, false, false, lineMac s l⟩
    | none => Line.reset

/-- The metadata word of a line, which stands in the carve-out (Table 25.2). -/
def lineWord (s : State) (l : Nat) : DWord :=
  let x := lineAt s l
  let b (v : Bool) : Nat := if v then 1 else 0
  BitVec.ofNat 64 (field 55 0 x.mac.toNat + field 59 56 (lineCt s l) + field 60 60 x.ks + field 61 61 (b x.scr))

/-- The lines that a write touched get their MAC, in one operation with the data (R321). -/
def sealLines (s : State) (h n : Nat) : State :=
  { s with mem := { s.mem with lines := (linesOf h n).foldl (fun t l => tmod t l fun x => { x with mac := lineMac s l }) s.mem.lines } }

/-- Parts of images outside a range. -/
def cutImages (s : State) (h n : Nat) : State :=
  { s with mem := { s.mem with images := s.mem.images.flatMap fun m =>
      if h < m.1 + m.2.1 && m.1 < h + n then
        ([(m.1, h - m.1, m.2.2), (h + n, m.1 + m.2.1 - (h + n), m.2.2)]).filter fun x => x.2.1 != 0
      else [m] } }

/-- A store into a save image makes the restored values undefined, and the bytes stored are memory again (R291). The image of a
checkpoint names no block: a store into its slot leaves the checkpoint as it was taken (DESIGN CHOICE, assumption 85). -/
def hitImages (s : State) (h n : Nat) : State :=
  let hit (m : Nat × Nat × Nat) : Bool := decide (h < m.1 + m.2.1) && decide (m.1 < h + n)
  let s := (s.mem.images.filter hit).foldl (fun s m => s.modBlock (m.2.2 % 2 ^ 32) fun B => { B with imgHit := true }) s
  cutImages s h n

/-- An entry of a function's stage-2 table is about to be written: the frame that it names stays noted for its guest frame. -/
def noteEntry (f base : Nat) (s : State) (e : Nat) : State :=
  if 8 * e < base ∨ !bit (leNat (physRead s (8 * e) 8)) 0 then s
  else
    let key := f * 2 ^ 27 + (8 * e - base) / 8
    let frames := ninsert (tgetD s.mem.maps key []) (bits (leNat (physRead s (8 * e) 8)) 39 21)
    { s with mem := { s.mem with maps := tset s.mem.maps key frames } }

/-- A write that changes stage-2 tables: the frames that the entries named before stay noted for their guest frames until the
invalidation of their removal (R327). -/
def noteTable (h n : Nat) (s : State) (f : Nat × Func) : State :=
  if f.1 = 0 ∨ n = 0 ∨ h + n ≤ f.2.s2 ∨ f.2.s2 + 2 ^ 30 ≤ h then s
  else ((List.range ((h + n - 1) / 8 - h / 8 + 1)).map (h / 8 + ·)).foldl (noteEntry f.1 f.2.s2) s
def noteTables (s : State) (h n : Nat) : State := s.funcs.foldl (noteTable h n) s

/-- A store's words are marked with the moment of the store (R46). -/
def stampWords (s : State) (h n : Nat) : State :=
  if n = 0 then s
  else { s with mem := { s.mem with stamp :=
    ((List.range ((h + n - 1) / 4 - h / 4 + 1)).map (h / 4 + ·)).foldl (fun t w => tset t w s.nextId) s.mem.stamp } }

def physWrite (s : State) (h : Nat) (bs : List Byte) : State :=
  let s := stampWords (hitImages (touchLines (noteTables s h bs.length) h bs.length) h bs.length) h bs.length
  sealLines { s with mem := { s.mem with hbm := s.mem.hbm.write h bs } } h bs.length


/-- A line that would be delivered poisoned: poison, or a MAC that fails on a line that is not scrubbed (R322). -/
def badLine (s : State) (h n : Nat) : Option Nat :=
  (linesOf h n).find? fun l =>
    match tget? s.mem.lines l with
    | some x => x.poison || (x.bad && !x.scr)
    | none => false

/-- The metadata carve-out (R139). -/
def carveOut (h : Nat) : Bool := bits h 35 33 == 7

/-- The home die of a line (R139); a retired die's lines are homed at the next die in service (R350). -/
def homeDie (s : State) (h : Nat) : Nat :=
  let d := h / 2 ^ 12 % 2 ^ 28 % 24
  ((List.range 24).map fun i => (d + i) % 24).find? (fun d => (s.die d).inService) |>.getD d

/-! ### Stage 2 (R112) and frame owners (R323) -/

/-- Stage 2 of a guest-physical address: the host-physical address and whether writes are permitted. -/
def stage2 (s : State) (f g : Nat) : Except Nat (Nat × Bool) :=
  if f = 0 then
    if carveOut g || 2 ^ 40 ≤ g then .error Code.s2Perm
    else if s.mem.scrubQ.contains (g / 2 ^ 21) then .error Code.s2Miss
    else .ok (g, true)
  else
    let e := leNat (physRead s ((s.func f).s2 + 8 * bits g 47 21) 8)
    let hfr := bits e 39 21
    if !bit e 0 || carveOut (hfr * 2 ^ 21) || s.mem.scrubQ.contains hfr then .error Code.s2Miss
    else .ok (hfr * 2 ^ 21 + g % 2 ^ 21, bit e 1)

/-- Bytes at a guest-physical address of a function, frame by frame, for the device's own accesses (table walks, rings,
descriptors, records). Stage 2 must permit a write (R112). -/
def guestParts (s : State) (f : Nat) (write : Bool) : Nat → Nat → Nat → Except Nat (List (Nat × Nat))
  | 0, _, _ => .ok []
  | fuel + 1, g, n =>
    if n = 0 then .ok []
    else do
      let (h, w) ← stage2 s f g
      if write && !w then .error Code.s2Perm
      let c := min n (2 ^ 21 - g % 2 ^ 21)
      let r ← guestParts s f write fuel (g + c) (n - c)
      return (h, c) :: r

/-- A line of a range of a function's guest-physical space that may not be delivered (R322). -/
def guestBad (s : State) (f g n : Nat) : Option Nat :=
  match guestParts s f false (n / 2 ^ 21 + 2) g n with
  | .ok ps => ps.findSome? fun (h, c) => badLine s h c
  | .error _ => none

def guestRead (s : State) (f g n : Nat) : Except Nat (List Byte) := do
  let ps ← guestParts s f false (n / 2 ^ 21 + 2) g n
  return ps.flatMap fun (h, c) => physRead s h c

/-- Write bytes over translated parts. -/
def writeParts (s : State) : List (Nat × Nat) → List Byte → State
  | [], _ => s
  | (h, c) :: r, bs => writeParts (physWrite s h (bs.take c)) r (bs.drop c)

def guestWrite (s : State) (f g : Nat) (bs : List Byte) : Except Nat State := do
  let ps ← guestParts s f true (bs.length / 2 ^ 21 + 2) g bs.length
  return writeParts s ps bs

/-! ### Tags in memory (R101, R107) -/

/-- Whether a host address lies in the save area of some context, [SAVEB, SAVEB + SAVEL) of its guest-physical space (R291). -/
def inSaveArea (s : State) (h : Nat) : Bool :=
  s.ctxs.any fun (_, c) =>
    if c.func = 0 then decide (c.saveb ≤ h) && decide (h < c.saveb + c.savel)
    else (List.range ((c.saveb % 2 ^ 21 + c.savel + 2 ^ 21 - 1) / 2 ^ 21)).any fun i =>
      let g := (c.saveb / 2 ^ 21 + i) * 2 ^ 21
      match stage2 s c.func g with
      | .ok (a, _) => a / 2 ^ 21 == h / 2 ^ 21 && decide (c.saveb ≤ g + h % 2 ^ 21) && decide (g + h % 2 ^ 21 < c.saveb + c.savel)
      | .error _ => false

/-- A tag of HBM: an access through an object finds no tag in a save area (R107). -/
def physTag (s : State) (h : Nat) : Bool := s.mem.hbm.tag h && !inSaveArea s h

/-- Write a granule with a tag; a write that reaches a save area through an object sets none (R291), and no tag is set on a
value that is not well formed (R99). -/
def physWriteCap (s : State) (h : Nat) (bs : List Byte) (t : Bool) : State :=
  let t := t && Cap.wellFormed ⟨BitVec.ofNat 128 (leNat bs), t⟩ && !inSaveArea s h
  let s := stampWords (hitImages (touchLines (noteTables s h bs.length) h bs.length) h bs.length) h bs.length
  sealLines { s with mem := { s.mem with hbm := s.mem.hbm.writeCap h bs t } } h bs.length

/-- The first request to a frame gives it the requesting context's world as owner; a request of another world faults
S2_PERM (R323). -/
def claimFrame (s : State) (world h : Nat) : Except Nat State :=
  let fr := h / 2 ^ 21
  match tget? s.mem.owner fr with
  | some w => if w = world then .ok s else .error Code.s2Perm
  | none => .ok { s with mem := { s.mem with owner := tset s.mem.owner fr world } }

/-! ### Objects and spans (R110, R111) -/

/-- The object table entry of a context (Table 7.5), as a number of 128 bits. -/
def objectEntry (s : State) (c : Ctx) (obn : Nat) : Except Nat Nat := do
  return leNat (← guestRead s c.func (c.otbase + 16 * obn) 16)

/-- A line of an object's entry that may not be delivered (R322). -/
def objectBad (s : State) (c : Ctx) (obn : Nat) : Option Nat := if c.otlen ≤ obn then none else guestBad s c.func (c.otbase + 16 * obn) 16

def objV (o : Nat) : Bool := bit o 0
def objGen (o : Nat) : Nat := bits o 7 4
def objSwg (o : Nat) : Nat := bits o 11 8
def objMaxp (o : Nat) : Nat := bits o 23 12
def objNspan (o : Nat) : Nat := bits o 43 24
def objStab (o : Nat) : Nat := bits o 111 76 * 2 ^ 12

def spanEntry (s : State) (c : Ctx) (o i : Nat) : Except Nat Nat := do
  return leNat (← guestRead s c.func (objStab o + 8 * i) 8)

/-- A line of the table entries of an offset that may not be delivered (R322). -/
def entryBad (s : State) (c : Ctx) (obn x : Nat) : Option Nat :=
  match objectBad s c obn, objectEntry s c obn with
  | some l, _ => some l
  | none, .ok o => if c.otlen ≤ obn || !objV o || decide (objNspan o ≤ x / 2 ^ 25) then none else guestBad s c.func (objStab o + 8 * (x / 2 ^ 25)) 8
  | none, .error _ => none

def spanV (e : Nat) : Bool := bit e 0
def spanMigr (e : Nat) : Bool := bit e 1
def spanRem (e : Nat) : Bool := bit e 2
def spanMt (e : Nat) : Nat := bits e 4 3
def spanHome (e : Nat) : Nat := bits e 12 5
def spanGfr (e : Nat) : Nat := bits e 47 21

/-- The key of a span's move state. -/
def spanKey (pasid obn i : Nat) : Nat := pasid * 2 ^ 48 + obn * 2 ^ 20 + i

def spanSt (s : State) (k : Nat) : SpanSt := tgetD s.mem.spans k SpanSt.reset

def setSpan (s : State) (k : Nat) (x : SpanSt) : State :=
  { s with mem := { s.mem with spans := tput s.mem.spans k x SpanSt.reset } }

/-- Settled at this moment (R121). -/
def settledNow (s : State) (k : Nat) : Bool := s.reft < (spanSt s k).settled

/-! ### Translate (R113) -/

/-- What translating one part gives. -/
inductive Tr where
  /-- host address, memory type, writes permitted -/
  | ok (h mt : Nat) (w : Bool)
  /-- homed on another package, with the memory type -/
  | remote (home mt : Nat)
  | fault (code : Nat)
  deriving DecidableEq, Repr

def ofExcept (f : α → Tr) : Except Nat α → Tr
  | .ok a => f a
  | .error c => .fault c

/-- The walk below the object entry, for one offset. An access to a span homed elsewhere is sent to its home package, which knows
whether the span is settled: a write to one that is not and has MIGR set finds there that the span moves to its writer, and comes back
as SPAN_MIGRATING (R113, R120, R121). -/
def walkSpan (s : State) (c : Ctx) (pasid : Nat) (k : Cap) (x : Nat) (write : Bool) (e : Nat) : Tr :=
  if !spanV e then .fault Code.spanMiss
  else if (spanSt s (spanKey pasid k.obn (x / 2 ^ 25))).moving.isSome then .fault Code.spanMigrating
  else if spanRem e then .remote (spanHome e) (spanMt e)
  else ofExcept (fun (h, w) => if write && !w then .fault Code.s2Perm else .ok h (spanMt e) w)
    (stage2 s c.func (spanGfr e * 2 ^ 21 + x % 2 ^ 25))

/-- Translate one offset through the tables (R113). -/
def walk (s : State) (c : Ctx) (pasid : Nat) (k : Cap) (x : Nat) (write : Bool) : Tr :=
  if c.otlen ≤ k.obn then .fault Code.objInvalid
  else ofExcept (fun o =>
      if !objV o then .fault Code.objInvalid
      else if k.ogen ≠ objGen o then .fault Code.capRevoked
      else if objNspan o ≤ x / 2 ^ 25 then .fault Code.objInvalid
      else ofExcept (walkSpan s c pasid k x write) (spanEntry s c o (x / 2 ^ 25)))
    (objectEntry s c k.obn)

/-- The translation cache entry for an offset. -/
def tlbFind (d : Die) (c : Ctx) (pasid : Nat) (k : Cap) (x : Nat) : Option TlbEnt :=
  d.tlb.find? fun t => t.func == c.func && t.pasid == pasid && t.obn == k.obn && t.ogen == k.ogen && t.span == x / 2 ^ 25

/-- Translate through the cache where it holds the frame: the old entry until an invalidation completes (R115). -/
def walkCached (s : State) (die : Nat) (c : Ctx) (pasid : Nat) (k : Cap) (x : Nat) (write cached : Bool) : Tr :=
  let hit := if cached then tlbFind (s.die die) c pasid k x else none
  match hit.bind fun t => (tget? t.frames (x / 2 ^ 21 % 16)).map fun f => (t, f) with
  | some (t, f) =>
    if (spanSt s (spanKey pasid k.obn (x / 2 ^ 25))).moving.isSome then .fault Code.spanMigrating
    else if write && !f.2 then .fault Code.s2Perm
    else .ok (f.1 * 2 ^ 21 + x % 2 ^ 21) (spanMt t.entry) f.2
  | none => walk s c pasid k x write

/-- The host frame of a guest frame is kept beside those that stage 2 gave for it before, for a function with a stage-2 table
(R115, R327). -/
def noteMap (s : State) (func g h : Nat) : State :=
  if func = 0 then s
  else { s with mem := { s.mem with maps := tset s.mem.maps (func * 2 ^ 27 + g) (ninsert (tgetD s.mem.maps (func * 2 ^ 27 + g) []) h) } }

/-- Keep a translation in the die's cache: at most 32,768 entries, oldest first out (R115). -/
def tlbFill (s : State) (die : Nat) (c : Ctx) (pasid : Nat) (k : Cap) (x h : Nat) (w : Bool) : State :=
  let fr := x / 2 ^ 21 % 16
  match tlbFind (s.die die) c pasid k x with
  | some t =>
    (noteMap s c.func (spanGfr t.entry + fr) (h / 2 ^ 21)).modDie die fun d =>
      { d with tlb := d.tlb.map fun u => if u = t then { t with frames := tset t.frames fr (h / 2 ^ 21, w) } else u }
  | none =>
    let e := match objectEntry s c k.obn with
      | .ok o => (match spanEntry s c o (x / 2 ^ 25) with | .ok e => e | .error _ => 0)
      | .error _ => 0
    let t : TlbEnt := { func := c.func, pasid, obn := k.obn, ogen := k.ogen, span := x / 2 ^ 25, entry := e
                        frames := [(fr, (h / 2 ^ 21, w))] }
    (noteMap s c.func (spanGfr e + fr) (h / 2 ^ 21)).modDie die fun d => { d with tlb := (t :: d.tlb).take 32768 }

/-- An access of several bytes, translated for each part (R113): host address, bytes, memory type. A part of a span homed on
another package stands by its object and offset in place of a host address, with 4 added to its type. -/
inductive TrAll where
  | ok (parts : List (Nat × Nat × Nat)) (s : State)
  /-- some part goes to its home package -/
  | remote (home : Nat) (parts : List (Nat × Nat × Nat)) (s : State)
  | fault (code : Nat) (s : State)

/-- A part that its home package performs. -/
def farPart (p : Nat × Nat × Nat) : Bool := decide (4 ≤ p.2.2)

/-- What stands for the place of a byte of a span homed on another package. -/
def farPlace (k : Cap) (x : Nat) : Nat := 2 ^ 80 + k.obn * 2 ^ 44 + x

/-- What stands for a package that is not known: the one that a span moves to among others. -/
def elsewhere : Nat := 256

/-- A home package has answered SPAN_MIGRATING: the spans of the access that are homed elsewhere are moving, to this package where it
writes them, else to one that the answer does not name (R120, R287). -/
def noteMoving (s : State) (pasid : Nat) (k : Cap) (x n : Nat) (write : Bool) : State :=
  match tget? s.ctxs pasid with
  | none => s
  | some c =>
    ([x / 2 ^ 25, (x + n - 1) / 2 ^ 25].dedup).foldl (fun s i =>
      let key := spanKey pasid k.obn i
      match (objectEntry s c k.obn).bind fun o => spanEntry s c o i with
      | .ok e =>
        if spanV e && spanRem e && ((spanSt s key).moving.isNone || (write && (spanSt s key).moving == some elsewhere)) then
          setSpan s key { spanSt s key with moving := some (if write then Config.packageId.toNat else elsewhere) }
        else s
      | .error _ => s) s

def translateGo (die : Nat) (c : Ctx) (pasid : Nat) (k : Cap) (write cached : Bool) :
    Nat → Nat → Nat → Option Nat → List (Nat × Nat × Nat) → State → TrAll
  | 0, _, _, none, acc, s => .ok acc.reverse s
  | 0, _, _, some p, acc, s => .remote p acc.reverse s
  | fuel + 1, x, n, far, acc, s =>
    if n = 0 then (match far with
      | none => .ok acc.reverse s
      | some p => .remote p acc.reverse s)
    else
      match walkCached s die c pasid k x write cached with
      | .fault code => .fault code s
      | .remote p mt =>
        let m := min n (2 ^ 25 - x % 2 ^ 25)
        translateGo die c pasid k write cached fuel (x + m) (n - m) (some (far.getD p)) ((farPlace k x, m, mt + 4) :: acc) s
      | .ok h mt w =>
        match claimFrame s c.world h with
        | .error code => .fault code s
        | .ok s =>
          let m := min n (2 ^ 21 - x % 2 ^ 21)
          translateGo die c pasid k write cached fuel (x + m) (n - m) far ((h, m, mt) :: acc)
            (tlbFill s die c pasid k x h w)

/-- Translate n bytes at an offset. If any part faults, nothing is performed; frames are claimed by the access as one. -/
def translate (s : State) (die pasid : Nat) (k : Cap) (x n : Nat) (write cached : Bool) : TrAll :=
  match tget? s.ctxs pasid with
  | none => .fault Code.objInvalid s
  | some c =>
    match translateGo die c pasid k write cached (n / 2 ^ 21 + 2) x n none [] s with
    | .fault code _ => .fault code s
    | r => r

/-! ### The stale check (R118) -/

/-- Whether a capability's object has gone or moved on. Where stage 2 does not give the object's entry the spec names no outcome:
the model takes the capability as stale, so that its tag is cleared (DESIGN CHOICE; assumption 77). -/
def isStale (s : State) (pasid : Nat) (k : Cap) : Bool :=
  match tget? s.ctxs pasid with
  | none => true
  | some c =>
    if c.otlen ≤ k.obn then true
    else match objectEntry s c k.obn with
      | .ok o => !objV o || k.ogen != objGen o
      | .error _ => true

/-- The check in transit through a translation unit: the tag is cleared, with no fault. -/
def staleCheck (s : State) (pasid : Nat) (k : Cap) : Cap := if k.tag && isStale s pasid k then { k with tag := false } else k

/-- The check on writes that would set a tag, while a sweep of the context is in progress. -/
def sweepCheck (s : State) (pasid : Nat) (k : Cap) : Cap :=
  if ((tget? s.ctxs pasid).bind (·.sweep)).isSome then staleCheck s pasid k else k

/-! ### Code fetch (R45) -/

/-- What a code fetch gives. -/
inductive Fetch where
  | ok (ws : List Word) (s : State)
  | fault (code : Nat) (s : State)
  /-- a line that may not be delivered (R322) -/
  | bad (line : Nat)
  /-- a span homed on another package: the words are asked of it over the fabric (R113, R120) -/
  | remote (home : Nat)

/-- A word of code at a host address: undefined where it was stored to after the kernel's launch (R46). -/
def codeWord (s : State) (h grid : Nat) : Word × State :=
  if tgetD s.mem.stamp (h / 4) 0 ≤ grid then (BitVec.ofNat 32 (leNat (physRead s h 4)), s)
  else let (v, s) := s.draw; (BitVec.ofNat 32 v, s)

/-- Fetch n words of code at an offset through a code capability. X is needed; the capability held as a lane's code
capability is unsealed (R155). The words of a span homed on another package come from there. -/
def fetchWords (s : State) (die pasid grid : Nat) (k : Cap) (a n : Nat) : Fetch :=
  match capCheck (k.setCur a) 0 (4 * n) Perm.x with
  | .error (c, _) => .fault c s
  | .ok x =>
    match translate s die pasid k x (4 * n) false true with
    | .fault c s => .fault c s
    | .remote p _ _ => .remote p
    | .ok ps s' =>
      match ps.findSome? fun (h, m, _) => badLine s' h m with
      | some l => .bad l
      | none =>
        let host := ps.flatMap fun (h, m, _) => (List.range (m / 4)).map fun i => h + 4 * i
        let (ws, s') := host.foldl (fun (acc : List Word × State) h => let (w, s) := codeWord acc.2 h grid; (acc.1 ++ [w], s)) ([], s')
        .ok ws s'

end Sys2Proof.Machine
end

