-- ==== Sys2Proof/Machine/Point.lean ====
section
/-!
DEFINITION. Rendezvous points (R31, R32, R37): which issuers have arrived at a point, the active set, and the word in
execution that follows from them.
-/

namespace Sys2Proof.Machine

/-- The issuer that a lane of a group belongs to. -/
def Group.issuerOf (g : Group) (lane : Nat) : Nat := if g.stream.lanes.getLsbD lane then 0 else lane + 1

/-- Two issuers at one point: equal positions and code capabilities equal in every bit (R31). -/
def samePoint (i j : Issuer) : Bool :=
  match i.cl, j.cl with
  | some a, some b => a.addr == b.addr && a.idx == b.idx && a.words == b.words && a.hdr == b.hdr && i.code == j.code
  | _, _ => false

/-- The issuers of a unit that have arrived at an issuer's point and wait there, or none when a member that is not excluded has
not (R31, R37). A member at the point in an instance that has closed has not arrived in this one (R32). -/
def arrivals (s : State) (b : Nat) (gs : List Nat) (i : Issuer) : Option (List IRef) :=
  let all := gs.flatMap fun g =>
    match s.grp? b g with
    | none => []
    | some G => G.issuers.map fun k => (IRef.mk b g k, G)
  if all.all fun (r, G) => G.susp.isEmpty && (match G.issuer? r.iss with | some j => samePoint i j && !j.closed && (match j.wait with | .rdv _ => true | _ => false) | none => false)
  then some (all.map (·.1)) else none

/-- The lanes of some issuers by group, each masked by a mask of its issuer. -/
def lanesBy (s : State) (rs : List IRef) (f : Issuer → Lanes) : List (Nat × Lanes) :=
  ((rs.map (·.gidx)).dedup).map fun g =>
    (g, (rs.filter fun r => r.gidx == g).foldl (fun m r => m ||| ((s.issuer? r).map f).getD 0#64) 0#64)

/-- The active set by group: the lanes of the issuers whose guard is true (R31). -/
def activeOf (s : State) (rs : List IRef) : List (Nat × Lanes) :=
  lanesBy s rs fun i => i.lanes &&& ((i.cl.map (·.guard)).getD 0#64)

/-- Two issuers at one place: at one point of a clause in issue, or at one clause boundary. -/
def atOne (i j : Issuer) : Bool :=
  match i.cl, j.cl with
  | none, none => i.code == j.code
  | _, _ => samePoint i j

/-- The issuers of a group at one place with an issuer. -/
def peersOf (s : State) (b g : Nat) (i : Issuer) : List Nat :=
  match s.grp? b g with
  | some G => G.issuers.filter fun k => ((G.issuer? k).map fun j => atOne i j) == some true
  | none => []

/-- A lane-scope word's elements with those of the other issuers of its group that are at the same point. -/
def Cur.withPeers (s : State) (c : Cur) : Cur :=
  match c.e, c.arr with
  | .lane, r :: _ =>
    (match s.issuer? r with
     | some i =>
       let rs : List IRef := (peersOf s r.blk r.gidx i).map fun k => ⟨r.blk, r.gidx, k⟩
       { c with act := lanesBy s rs fun j => j.lanes &&& ((j.cl.map (·.guard)).getD 0#64) }
     | none => c)
  | _, _ => c

/-- Park the lanes whose wait is on an operation that met a terminal fault after issue (R198, R207); the park lowers
the counter. The lanes of one issue that take one code at one place form one sub-group (R283, R284): they park once every
request of theirs there has an outcome. `ws` gives group, lane and operation. -/
def parkLate (s : State) (b : Nat) (ws : List (Nat × Nat × Nat)) : State :=
  let bad : List (Nat × Nat × Nat × Nat × Op × LReq) := ws.filterMap fun (g, l, op) =>
    match (tget? s.ops op).bind fun o => (o.req? l).map fun q => (o, q) with
    | some (o, q) => match q.ph with
      | .faulted code => some (g, l, op, code, o, q)
      | _ => Option.none
    | Option.none => Option.none
  let issOf (g l : Nat) : Nat := match s.grp? b g with
    | some G => Group.issuerOf G l
    | Option.none => 0
  -- the first issuer at the place of a lane's issuer
  let placeOf (g l : Nat) : Nat := match s.issuer? ⟨b, g, issOf g l⟩ with
    | some i => (peersOf s b g i).headD (issOf g l)
    | Option.none => issOf g l
  let moving (o : Op) (g l : Nat) : Bool := o.lanes.any fun q =>
    (q.ph == .sent || q.ph == .xlated || q.ph == .remote) && placeOf g q.lane == placeOf g l
  let bad := bad.filter fun (g, l, _, _, o, _) => !moving o g l
  -- a lane parks for the first of its faulted operations
  let bad := bad.foldl (fun (acc : List (Nat × Nat × Nat × Nat × Op × LReq)) x =>
    if acc.any fun y => y.1 == x.1 && y.2.1 == x.2.1 then acc else acc ++ [x]) []
  let keys := (bad.map fun (g, l, op, code, _, _) => (g, placeOf g l, op, code)).dedup
  keys.foldl (fun t (g, place, op, code) =>
    let ls := (bad.filter fun (g', l, op', code', _, _) => g' == g && op' == op && code' == code && placeOf g' l == place)
    match ls with
    | [] => t
    | (_, _, _, _, o, q) :: _ =>
      let lanes : List Nat := ls.map fun (_, l, _) => l
      let ks := ((lanes.map (issOf g)).dedup).map fun k => (k, maskOf (lanes.filter fun l => issOf g l == k))
      let dat := if 0x10 ≤ code && code ≤ 0x1B then q.x else 0
      let t := parkMany t b g ks code dat (some ⟨o.addr, o.idx, q.ftime, lanes.map fun l => (op, l)⟩) false
      lowerCtr t b g lanes o.kind.ctr) s

/-- The word in execution of issuers that are all at one point of a clause. -/
def mkCur (s : State) (r : IRef) (rs : List IRef) (c : Clause) (eng : Eng) (e : Scope) (k : Nat) : Cur :=
  let act := activeOf s rs
  { blk := r.blk, e, arr := rs, act, addr := c.addr, idx := c.idx, k
    sym := c.hdr.getLsbD 26 && (eng == .uni || eng == .vint || eng == .vflt), eng
    lead := ((act.filter fun x => x.2 != 0#64).head?.map (·.1)).getD r.gidx }

/-- The scope a word is executed at: hints are lane-scope whatever SCOPE holds (R69). -/
def wordScope (e : Eng) (w : Word) : Scope := if e == .ctl && decide (0x38 ≤ opc w) then .lane else scopeOf w

/-- The issuers that run an issuer's word now: itself at lane scope; at a wide scope the members of the closed instance it is in,
else all that have arrived, or none. -/
def pointOf (s : State) (r : IRef) (i : Issuer) (e : Scope) : Option (List IRef) :=
  match e with
  | .lane => some [r]
  | e => if i.closed then some (closedPeers s r.blk (unitGroups s r.blk r.gidx e)) else arrivals s r.blk (unitGroups s r.blk r.gidx e) i

/-- Close the instance of a rendezvous point whose members some issuers are (R32). -/
def closeAt (s : State) (rs : List IRef) : State := rs.foldl (fun s r => s.modIssuer r fun i => { i with closed := true }) s

/-- Whether no other issuer of the group holds its turn. -/
def Group.mayWord (G : Group) (k : Nat) : Bool := match G.holder with
  | some h => h == k
  | none => true

/-- Faults of some elements of the word in execution. The lanes left at the word issue it again as an issue of their own
(assumption 21); at a wide scope nothing takes effect (R35). -/
def faultSome (fs : List LFault) (s : State) : Out :=
  .next { raiseFault fs (chargeFault (fs.map fun f => (f.g, f.l)) s) with cur := none }

/-- A fault of the unit as a whole, by every element of the active set, or by the arrived lanes when it is empty, where no instruction is
charged. -/
def faultUnit (code data : Nat) (s : State) : Out :=
  match s.cur with
  | none => .next s
  | some c =>
    let c := if c.empty then { c with act := lanesBy s c.arr fun i => i.lanes } else c
    faultAll code data { s with cur := some c }

/-- A fault of an instruction by the unit as a whole. -/
def faultUnitWord (code data : Nat) (s : State) : Out := faultUnit code data (chargeFault ((s.cur.map Cur.elems).getD []) s)

end Sys2Proof.Machine
end

