-- ==== Sys2Proof/Machine/Access.lean ====
section
/-!
DEFINITION. Accesses after issue (R113, R135 to R146, R196 to R199, R207 to R215): translating a lane's request,
performing it at its home, L1 and write-combining buffers, releases and acquires, arrival, and the block's log.
-/

namespace Sys2Proof.Machine

/-! ### The block's surroundings -/

def blockOf (s : State) (b : Nat) : Option Block := tget? s.blocks b
def pasidOf (s : State) (b : Nat) : Nat := ((tget? s.blocks b).map (·.pasid)).getD 0
def ctxOf (s : State) (b : Nat) : Option Ctx := tget? s.ctxs (pasidOf s b)
def worldOf (s : State) (b : Nat) : Nat := ((ctxOf s b).map (·.world)).getD 0
def worldOfPasid (s : State) (p : Nat) : Nat := ((tget? s.ctxs p).map (·.world)).getD 0
/-- Whether two blocks bear one gang ticket and world (R326). -/
def sameTicket (s : State) (a b : Nat) : Bool :=
  ((tget? s.blocks a).map (·.ticket)) == ((tget? s.blocks b).map (·.ticket)) && worldOf s a == worldOf s b
def homeOf (s : State) (b : Nat) : Nat := ((tget? s.blocks b).map (·.home)).getD 0
def gridOfB (s : State) (b : Nat) : Grid := ((tget? s.blocks b).map fun B => s.gridOf B).getD Grid.unit
def replayable (s : State) (b : Nat) : Bool := (gridOfB s b).rpl
def curSlot (s : State) (w : Nat) : Nat := ((tget? s.worlds w).map (·.cur)).getD 0

/-- Add an entry to a replayable block's log (R335); a view's re-execution logs nothing. -/
def logAdd (s : State) (b : Nat) (e : LogEnt) : State :=
  if s.sandbox.isNone && replayable s b then s.modBlock b fun B => { B with log := B.log ++ [e] } else s

/-- The retired count of a block. -/
def rcOf (s : State) (b : Nat) : Nat := ((tget? s.blocks b).map (·.rc)).getD 0

/-- Where an operation's log entries are kept: at the retired count of its issue, or under its own number when it was issued
in an interval before the block's checkpoint. -/
def opKey (s : State) (o : Op) : Nat :=
  if ((tget? s.blocks o.blk).map (·.iv)) == some o.iv then o.rc else 2 ^ 32 + o.order

/-! ### Integrity events (R322, R330, R345, Table 29.7) -/

/-- Whether a context is stopped. -/
def Ctx.halted (c : Ctx) : Bool := c.stopped || c.dbgStop

/-- Issue of a block stops at its clause boundaries: its save begins (R290). Folds of its grid that had not ended yet are off, unless
the VACATE that saves it promises them anew (R280). -/
def beginSave (s : State) (b : Nat) : State :=
  let s := s.modBlock b fun B => if B.phase == .resident || B.phase == .draining then { B with phase := .saving } else B
  match tget? s.blocks b with
  | none => s
  | some B => (s.blocks.filter fun x => x.2.grid == B.grid && x.2.foldTo.isSome).foldl (fun s x => s.modBlock x.1 fun T => { T with foldTo := none }) s

/-- Stop a context as at a slice end: its issue stops, and its blocks are saved (R279, R322). -/
def stopCtx (s : State) (pasid : Nat) : State :=
  (s.blocks.filter fun b => b.2.pasid == pasid && b.2.phase.onCore).foldl (fun s b => beginSave s b.1)
    (s.modCtx pasid fun c => { c with stopped := true })

/-- Post an integrity event to the physical function's error log, and stop the context it names. -/
def integrity (s : State) (kind unit core : Nat) (pasid : Option Nat) (addr : Nat) : State :=
  let s := match pasid with
    | some p => stopCtx s p
    | none => s
  let v := field 7 0 kind + field 15 8 unit + field 23 16 core + field 43 24 (pasid.getD 0) + field 127 64 addr + field 191 128 s.reft
  s.modRing 65 fun R => { R with held := R.held ++ [natBytes 32 v] }

/-- A line that may not be delivered: its context stops, and the event names it (R322). A failing MAC poisons the
line. -/
def lineEvent (s : State) (l pasid : Nat) : State :=
  let x := lineAt s l
  let s := { s with mem := { s.mem with lines := tset s.mem.lines l { x with poison := true } } }
  integrity s (if x.bad && !x.poison then 1 else 2) (l * 64 / 2 ^ 36) 0 (some pasid) (l * 64)

/-! ### L1, ownership and write-combining buffers (R135, R139, R140, R145) -/

/-- The words that n bytes from h touch. -/
def wordsOf (h n : Nat) : List Nat := if n = 0 then [] else (List.range ((h + n - 1) / 4 - h / 4 + 1)).map (h / 4 + ·)

def homeWord (s : State) (w : Nat) : Word := BitVec.ofNat 32 (leNat (physRead s (4 * w) 4))

/-- The two words of the aligned 8 bytes that hold a word: no access may tear within them (R144). -/
def pairOf (w : Nat) : List Nat := [w / 2 * 2, w / 2 * 2 + 1]

/-- The L1 copies of some words that a core holds take the home's value, and those beside them in their aligned 8 bytes with
them, so that the two never differ in age (R135, R144). -/
def refreshL1 (s : State) (core : Nat) (ws : List Nat) : State :=
  s.modCore core fun c => { c with l1 := (ws.flatMap pairOf).foldl (fun t w =>
    if (tget? t w).isSome then tset t w (homeWord s w, tget? s.mem.wordOwner w == some core) else t) c.l1 }

/-- Register a core as owner of the words written; its own L1 copies take the new value (R139, R135). -/
def ownWords (s : State) (core : Nat) (ws : List Nat) : State :=
  refreshL1 { s with mem := { s.mem with wordOwner := ws.foldl (fun t w => tset t w core) s.mem.wordOwner } } core ws

/-- Write bytes at their home and register their owner; an atomic's core keeps no L1 copy (R215). -/
def homeWrite (s : State) (core h : Nat) (bs : List Byte) : State :=
  ownWords (physWrite s h bs) core (wordsOf h bs.length)

def dropL1 (s : State) (core : Nat) (ws : List Nat) : State :=
  s.modCore core fun c => { c with l1 := ws.foldl (fun t w => tdel t w) c.l1 }

/-- An acquire invalidates every L1 word that the core does not own (R145). -/
def acquireCore (s : State) (core : Nat) : State :=
  s.modCore core fun c => { c with l1 := c.l1.filter fun e => tget? s.mem.wordOwner e.1 == some core }

/-- The block that a fill for a word brings: 1 to 8 consecutive words of its 32-byte sector, which the predictor chooses: a free
value (R135). -/
def l1Block (w k : Nat) : List Nat :=
  let lo := w - k % (w % 8 + 1)
  (List.range (w + k / 8 % (8 - w % 8) - lo + 1)).map (lo + ·)

/-- Whether a load of n bytes at h takes a word from the L1: every word it touches of the word's aligned 8 bytes is present, so
that the load does not tear there (R144). -/
def l1Hit (s : State) (core h n w : Nat) : Bool :=
  (wordsOf h n).all fun x => x / 2 != w / 2 || (tget? (s.core core).l1 x).isSome

/-- The words that a core's L1 has room for: its share of the near memory, in words (R124, R125). -/
def Core.l1Room (c : Core) : Nat := (12 - c.split.getD 0) * 16384

/-- Whether a word lies in a block. -/
def inL1Block (w : Nat) (b : Nat × Nat) : Bool := decide (b.1 ≤ w) && decide (w < b.1 + b.2)

/-- The blocks that a core keeps, latest use first, and those that make room: `n` words are kept so far (R135). -/
def l1Split (l1 : Tab (Word × Bool)) (room : Nat) : List (Nat × Nat) → List (Nat × Nat) → List (Nat × Nat) × List (Nat × Nat)
  | kept, [] => (kept, [])
  | kept, b :: r =>
    if (l1.filter fun e => (b :: kept).any (inL1Block e.1)).length ≤ room then l1Split l1 room (kept ++ [b]) r else (kept, b :: r)

/-- Some blocks of a core are used: they become the latest; where the L1 then holds more words than it has room for, the blocks used
longest ago leave it (R135). A store is no use of a block (DESIGN CHOICE, assumption 103). -/
def l1Use (c : Core) (used : List (Nat × Nat)) : Core :=
  let rest := c.l1Order.filter fun b => !used.contains b && c.l1.any fun e => inL1Block e.1 b
  if c.l1.length ≤ c.l1Room then { c with l1Order := used ++ rest }
  else
    let (kept, out) := l1Split c.l1 c.l1Room used rest
    { c with l1Order := kept, l1 := c.l1.filter fun e => kept.any (inL1Block e.1) || !out.any (inL1Block e.1) }

/-- Bytes of a load of normal memory by a core: L1 words where they are present and used, otherwise the home's, which
fill the L1. -/
def l1Read (s : State) (core h n : Nat) (use : Bool) : List Byte × State :=
  let word (w : Nat) : Word := match (if use && l1Hit s core h n w then tget? (s.core core).l1 w else none) with
    | some (v, _) => v
    | none => homeWord s w
  let bs := (List.range n).map fun i => (word ((h + i) / 4)).extractLsb' (8 * ((h + i) % 4)) 8
  let miss := (wordsOf h n).filter fun w => !(use && l1Hit s core h n w)
  let fill := miss.mapIdx fun i w => l1Block w (Config.freeNat (s.free + i))
  let s := { s with free := s.free + miss.length }
  let s' := refreshL1 (s.modCore core fun c =>
    { c with l1 := fill.flatten.foldl (fun t w => tset t w (homeWord s w, tget? s.mem.wordOwner w == some core)) c.l1 }) core fill.flatten
  let hits := (s.core core).l1Order.filter fun b => (wordsOf h n).any fun w => inL1Block w b && !miss.contains w
  (bs, s'.modCore core fun c => l1Use c ((fill.filterMap fun ws => ws.head?.map fun w => (w, ws.length)) ++ hits))

/-- A line leaves a die's LLC slice: the owners of its words get loss notices, their L1 copies go, and they are no longer owners
(R139). -/
def llcLeave (s : State) (die l : Nat) : State :=
  let s := s.modDie die fun D => { D with llc := D.llc.filter (· != l) }
  ((List.range 16).map (16 * l + ·)).foldl (fun s w => match tget? s.mem.wordOwner w with
    | some k =>
      let s := dropL1 s k [w]
      { s with mem := { s.mem with wordOwner := tdel s.mem.wordOwner w } }
    | none => s) s

/-- A slice takes a line in. -/
def llcAdd (s : State) (die l : Nat) : State := s.modDie die fun D => { D with llc := ninsert D.llc l }

/-- An access to a line at its home slice: whether the slice held it, the line that makes room for it where the slice is full, which is
a free choice (assumption 69), and the state, with the line in the slice. -/
def llcTouch (s : State) (l : Nat) : Bool × Option Nat × State :=
  let d := homeDie s (64 * l)
  let D := s.die d
  if D.llc.contains l then (true, none, s)
  else if D.llc.length < llcLines then (false, none, llcAdd s d l)
  else
    let v := D.llc.getD (Config.freeNat s.free % D.llc.length) 0
    (false, some v, llcAdd (llcLeave { s with free := s.free + 1 } d v) d l)

/-- Access some lines at their home slices: those missed, those that made room, and the state. -/
def llcAccess (s : State) (ls : List Nat) : List Nat × List Nat × State :=
  ls.foldl (fun (miss, out, s) l =>
    let (hit, v, s) := llcTouch s l
    (if hit then miss else miss ++ [l], out ++ v.toList, s)) ([], [], s)

/-- Charge an access to memory that leaves its core, or that a die makes for a context: the lines at their home slice, the bursts of
lines that the slice did not hold or that made room, and the flits of an access that leaves the die (assumption 19). Memory types 2
and 3 are cached nowhere (R140). The brim and HBM classes take the issuing die's table (R297). -/
def chargeLines (s : State) (acct : Option Nat) (la die h n mt : Nat) : State :=
  let lines := if mt % 4 < 2 then linesOf h n else []
  let hd := homeDie s h
  let s := chargeFar s hd 0x3A lines.length 0 acct la
  let (miss, out, s) := llcAccess s lines
  if weight s die 0 0x3C = 0 ∧ weight s die 0 0x3D = 0 then s
  else
    let (k, s) := (s.free, { s with free := s.free + 1 + out.length })
    let bursts := !(miss.isEmpty && !lines.isEmpty)
    let s := if bursts then chargeFar s die 0x3C (Config.hbmEvents k) (h / 2 ^ 36) acct la else s
    let s := (out.mapIdx fun i v => (i, v)).foldl (fun s (i, v) =>
      chargeFar s die 0x3C (Config.hbmEvents (k + 1 + i)) (64 * v / 2 ^ 36) acct la) s
    if hd == die && (!bursts || stackDie (h / 2 ^ 36) == die) then s
    else chargeFar s die 0x3D (Config.ucieEvents k) 0 acct la

/-- Charge an access to memory by a block's core: its L1 sectors, and its lines where it leaves the core. -/
def chargeAccess (s : State) (b core h n : Nat) (l1 far : Bool) (mt : Nat := 0) : State :=
  let (acct, la) := acctOf s b
  let s := if l1 then charge s (dieOf core) 0x39 ((h + n - 1) / 32 - h / 32 + 1) acct la else s
  if far then chargeLines s acct la (dieOf core) h n mt else s

/-! ### Probe samples (R340) -/

/-- The frames of some parts that have no owner become a world's; none where another world owns one of them (R323). -/
def claimParts (s : State) (world : Nat) : List (Nat × Nat) → Option State
  | [] => some s
  | (h, _) :: r => match claimFrame s world h with
    | .ok s => claimParts s world r
    | .error _ => none

/-- Write bytes of the device to a function's guest-physical memory, translated through stage 2; where stage 2 does not give a
frame of it for writing, nothing is written. A write for a context acts for its world, which frames without an owner then have; where
another world owns a frame of it the access is not made (R323). -/
def devWrite (s : State) (world : Option Nat) (func g : Nat) (bs : List Byte) : State :=
  match guestParts s func true (bs.length / 2 ^ 21 + 2) g bs.length with
  | .error _ => s
  | .ok ps =>
    match (match world with
      | some w => claimParts s w ps
      | none => some s) with
    | none => s
    | some s =>
    let s' := writeParts s ps bs
    { s' with mem := { s'.mem with wordOwner := (ps.flatMap fun (h, n) => wordsOf h n).foldl (fun t w => tdel t w) s'.mem.wordOwner } }

/-- Fields of the debug descriptor (Table 27.1). -/
def dbgBit (c : Ctx) (i : Nat) : Bool := c.dbg.getLsbD i
def dbgField (c : Ctx) (hi lo : Nat) : Nat := bits c.dbg.toNat hi lo

/-- The kinds of request that probing counts, with the KIND of their records (Table 27.6). -/
def OpKind.probeKind : OpKind → Nat
  | .load _ _ | .loadCap => 1
  | .store _ | .storeCap => 2
  | .atomic _ _ _ => 3
  | .wld _ => 4
  | .put | .get => 5
  | .cpy | .cpysIn | .cpysOut | .mcast | .oload => 6
  | _ => 0

/-- The queueing times of a sample at its stops, of which `passed` says which the request passes: free values that saturate at 65,535
and whose sum leaves no less than nothing of the whole time (R340). -/
def queueTimes (free total : Nat) (passed : List Bool) : List Nat :=
  ((passed.mapIdx fun i p => (i, p)).foldl (fun (acc : Nat × List Nat) (i, p) =>
    let v := if p then min 65535 (Config.freeNat (free + i) % (total - acc.1 + 1)) else 0
    (acc.1 + v, acc.2 ++ [v])) (0, [])).2

/-- Write a sample record (Table 27.6) to the circular buffer: the times at the stops that the request passes are free values. The
record's write is partition overhead (R299). -/
def probeSample (s : State) (o : Op) (q : LReq) : State :=
  match tget? s.blocks o.blk with
  | none => s
  | some B =>
    match tget? s.ctxs B.pasid with
    | none => s
    | some c =>
      let pages := dbgField c 63 48
      if !q.probe || pages == 0 || s.sandbox.isSome then s
      else
        let win := o.kind == .put || o.kind == .get
        let far := match o.kind with | .wld _ | .put | .get => false | _ => true
        -- the links crossed are those of the shortest way to the line's home and back; to another package they are open (assumption 83)
        let hops := if !far then 0 else match q.parts with
          | (h, _, mt) :: _ => if 4 ≤ mt then Config.freeNat s.free else 2 * dieDistance (dieOf o.core) (homeDie s h)
          | [] => Config.freeNat s.free
        let total := (s.reft - q.time) % 2 ^ 32
        let qt := queueTimes (s.free + 1) total [far, true, hops % 256 != 0, far, far, q.parts.any fun p => decide (4 ≤ p.2.2)]
        let v := field 7 0 o.kind.probeKind + field 12 8 o.gidx + field 18 13 q.lane + field 31 24 hops + field 63 32 B.bidx +
          field 95 64 o.iv + field 127 96 o.rc + field 171 128 o.addr + field 175 172 o.idx +
          field 203 176 (if far then q.cap.obn else 0) + field 251 208 (if win then q.ticket.toNat else q.x) +
          field 271 256 (qt.getD 0 0) + field 287 272 (qt.getD 1 0) + field 303 288 (qt.getD 2 0) + field 319 304 (qt.getD 3 0) +
          field 335 320 (qt.getD 4 0) + field 351 336 (qt.getD 5 0) + field 415 384 total + field 511 448 q.time
        let a := dbgField c 255 192 + 64 * (c.smp % (64 * pages))
        let s := devWrite { s with free := s.free + 7 } (some c.world) c.func a (natBytes 64 v)
        let s := charge s (dieOf o.core) 0x3A 1 none 0
        s.modCtx B.pasid fun c => { c with smp := c.smp + 1 }

/-- Give a performed store's lane back: ST falls and its request is gone. -/
def storeDone (s : State) (op lane : Nat) : State :=
  match tget? s.ops op with
  | none => s
  | some o =>
    let s := match o.req? lane with
      | some q => probeSample s o q
      | none => s
    lowerCtr (dropReq s op lane) o.blk o.gidx [lane] o.kind.ctr

/-- Whether the home die of a line of some parts held here relocks (R305). -/
def homesStill (s : State) (parts : List (Nat × Nat × Nat)) : Bool :=
  parts.any fun (h, n, mt) => decide (mt < 4) && (linesOf h n).any fun l => (s.die (homeDie s (64 * l))).relocking s.reft

/-- Whether the device's near side or a line's home waits out a relock: no access of the core crosses then (R305). -/
def relockWait (s : State) (core : Nat) (parts : List (Nat × Nat × Nat)) : Bool :=
  (s.die (dieOf core)).relocking s.reft || homesStill s parts

/-- The capability in 16 bytes. -/
def capOf (bs : List Byte) (t : Bool) : Cap := ⟨BitVec.ofNat 128 (leNat bs), t⟩

/-- The stale check on a tag in transit, for a piece's bytes: no tag is set on a value that is not well formed (R99). -/
def pieceTag (s : State) (pasid : Nat) (bs : List Byte) (t : Bool) (need : Nat) : Bool :=
  t && (capOf bs true).wellFormed && (capOf bs true).has need && (staleCheck s pasid (capOf bs true)).tag

/-- Whether bytes of a lane's store stand in a line of the core's write-combining buffer. -/
def isMerged (s : State) (core op lane : Nat) : Bool := (s.core core).wc.any fun e => e.2.op.contains (op, lane)

/-- Drain a write-combining line, unless a relock holds the access (R305): its bytes are written at the home, with the tags of the
capability stores merged in it that pass the stale check (R118, R210), charged to the context that issued its first store; of its
stores those with no bytes left in another line are performed (R140). -/
def drainLine (s : State) (core line : Nat) : State :=
  match tget? (s.core core).wc line with
  | none => s
  | some w =>
    if relockWait s core [(64 * line, 64, 1)] then s else
    let pasid := ((w.op.findSome? fun x => tget? s.ops x.1).map fun o => pasidOf s o.blk).getD 0
    let s := s.modCore core fun c => { c with wc := tdel c.wc line }
    let s := match w.op.head?.bind fun x => tget? s.ops x.1 with
      | some o => chargeAccess s o.blk core (64 * line) 64 false true
      | none => s
    let s := w.bytes.foldl (fun s (i, x) => homeWrite s core (64 * line + i) [x]) s
    let s := w.tags.foldl (fun s g =>
      let bs := physRead s (64 * line + 16 * g) 16
      ownWords (physWriteCap s (64 * line + 16 * g) bs (pieceTag s pasid bs true 0)) core (wordsOf (64 * line + 16 * g) 16)) s
    w.op.foldl (fun s (o, l) => if isMerged s core o l then s else storeDone s o l) s

/-- Merge bytes of a store into the core's buffer for their line; the tag of a granule that they touch is that of the last store
to it, set only by a capability store (R101, R210). -/
def mergeWc (s : State) (core h : Nat) (bs : List Byte) (who : Nat × Nat) (tag : Bool) : State :=
  let s := (bs.mapIdx fun i x => (h + i, x)).foldl (fun s (a, x) =>
    s.modCore core fun c =>
      let w := (tget? c.wc (a / 64)).getD ⟨s.reft, [], [], []⟩
      { c with wc := tset c.wc (a / 64) { w with bytes := tset w.bytes (a % 64) x, op := if w.op.contains who then w.op else w.op ++ [who]
                                                 tags := w.tags.filter (· != a % 64 / 16) } }) s
  if tag then s.modCore core fun c => { c with wc := tmod c.wc (h / 64) fun w => { w with tags := ninsert w.tags (h % 64 / 16) } } else s

/-! ### Order of one lane's accesses (R140, R144, R199, R215) -/

def OpKind.isLoad : OpKind → Bool
  | .load _ _ | .loadCap => true
  | _ => false

def OpKind.isWrite : OpKind → Bool
  | .store _ | .storeCap | .atomic _ _ _ => true
  | _ => false

def OpKind.isAtomic : OpKind → Bool
  | .atomic _ _ _ => true
  | _ => false

/-- Window transfers (R133). -/
def OpKind.isWindow : OpKind → Bool
  | .put | .get => true
  | _ => false

/-- Kinds that reach memory through a capability, one access a lane. -/
def OpKind.isMem (k : OpKind) : Bool := k.isLoad || k.isWrite

def OpKind.acquires : OpKind → Bool
  | .atomic _ _ .acq | .atomic _ _ .ar => true
  | _ => false

def OpKind.releases : OpKind → Bool
  | .atomic _ _ .rel | .atomic _ _ .ar => true
  | _ => false

def Ph.settled : Ph → Bool
  | .done | .faulted _ => true
  | _ => false

/-- The memory type of translated parts, the strictest of them. -/
def partsMt (ps : List (Nat × Nat × Nat)) : Nat := ps.foldl (fun m p => max m (p.2.2 % 4)) 0

/-- The memory type a request has, or would have now; one that waits on a retryable fault counts as strongly ordered. -/
def reqMt (s : State) (o : Op) (q : LReq) : Nat :=
  match q.ph with
  | .xlated | .remote | .done => partsMt q.parts
  | .retry _ => 3
  | .sent =>
    (match ctxOf s o.blk with
     | some c => (match walk s c (pasidOf s o.blk) q.cap q.x false with
       | .ok _ mt _ => mt
       | .remote _ mt => mt
       | .fault code => if retryable code then 3 else 0)
     | none => 0)
  | _ => 0

def overlap (a n b m : Nat) : Bool := decide (a < b + m) && decide (b < a + n)

def reqsOverlap (p q : LReq) : Bool :=
  (p.cap.obn == q.cap.obn && overlap p.x p.n q.x q.n) ||
    p.parts.any fun (h, n, _) => q.parts.any fun (h', n', _) => overlap h n h' n'

/-- Whether an earlier request of the lane must be performed before this one. Two atomics of a lane, of any order, are performed in
program order, as sequential consistency of race-free programs asks (R143). -/
def mustPrecede (s : State) (ka : Nat) (a : Op) (p : LReq) (b : Op) (q : LReq) : Bool :=
  let ma := reqMt s a p
  let mb := partsMt q.parts
  let merged := isMerged s a.core ka p.lane
  !p.ph.settled && a.kind.isMem &&
    (ma == 3 || mb == 3 || (ma == 2 && mb == 2) || (a.kind.isLoad && b.kind.isWrite) || a.kind.acquires || (a.kind.isAtomic && b.kind.isAtomic) ||
      (b.kind.releases && a.kind.isWrite) || (reqsOverlap p q && !merged))

/-- Whether a translated request may be performed now. A later access waits for its own lane's earlier ones, and a store
for those of lower elements of its issue to the same bytes, or that have yet to be translated and may be (R209); one whose issuing or
home die relocks waits (R305). -/
def mayPerform (s : State) (o : Op) (q : LReq) : Bool :=
  o.wide.isNone && !relockWait s o.core q.parts && s.ops.all fun (ka, a) =>
    if a.blk != o.blk then true
    else if a.order == o.order then
      a.lanes.all fun p => p.ph.settled || !o.kind.isWrite || !(decide (a.gidx < o.gidx) || (a.gidx == o.gidx && decide (p.lane < q.lane))) ||
        o.kind.isAtomic || !(reqsOverlap p q || (match p.ph with | .sent | .retry _ => true | _ => false))
    else if a.gidx != o.gidx || o.order < a.order then true
    else a.lanes.all fun p => p.lane != q.lane || !mustPrecede s ka a p o q

/-- Charge the fabric flits of a request that a die sends to another package (assumption 19). -/
def chargeFab' (s : State) (acct : Option Nat) (la die : Nat) : State :=
  if weight s die 0 0x3E = 0 then s else chargeFar { s with free := s.free + 1 } die 0x3E (Config.ucieEvents s.free) 0 acct la

/-- Charge the fabric flits of a block's request from a core. -/
def chargeFlits (s : State) (b core : Nat) : State := chargeFab' s (acctOf s b).1 (acctOf s b).2 (dieOf core)

def chargeFab (s : State) (o : Op) : State := chargeFlits s o.blk o.core

/-! ### Translating a request (R113, R198, R206, R207, R287) -/

/-- The requests of one issue that met one code, by operation: each lane with its offset. -/
abbrev Hit := List (Nat × Op × List (Nat × Nat))

/-- Lanes that a record of a fault found after issue covers: an `oload` is one operation of all its lanes. -/
def hitLanes (o : Op) (ls : List (Nat × Nat)) : List Nat := if o.kind = .oload then o.lanes.map (·.lane) else ls.map (·.1)

/-- Requests of one issue that met one retryable code wait under one handle, with a record for each group (R283, R287), and the fault is
logged (R335). It was found after issue, unless a wide scope still holds the operation (R207). -/
def raiseRetry (s : State) (hit : Hit) (code : Nat) : State :=
  match hit with
  | [] => s
  | (k0, o0, ls0) :: _ =>
    let (h, s) := s.fresh
    let rs : List FaultRec := hit.map fun (_, o, ls) =>
      let r : FaultRec :=
        { code, retry := true, scope := o.e, sub := h, gidx := o.gidx, paddr := o.addr, pword := o.idx
          lanes := maskOf (hitLanes o ls), data := (ls.head?.map (·.2)).getD 0 }
      if o.wide.isNone then { r with defer := true, qaddr := o.addr, qword := o.idx } else r
    let s := hit.foldl (fun s (k, o, ls) => ls.foldl (fun s l =>
      (logAdd s o.blk (.fault (opKey s o) (64 * o.gidx + l.1) code)).modOp k fun o => o.modReq l.1 fun q => { q with ph := .retry h }) s) s
    deliver s o0.blk h
      { code, pasid := pasidOf s o0.blk, held := .request k0 ((ls0.head?.map (·.1)).getD 0)
        recs := (numberRecs rs).map fun r => (recFor s o0.blk r).bits, defer := [], headless := false, handled := false, dispo := none }

/-- Requests of one issue that met one terminal code are marked with it, and logged (R198, R207, R335). Lanes that have exited are
reported now. -/
def raiseLate (s : State) (hit : Hit) (code : Nat) : State :=
  hit.foldl (fun s (k, o, ls) =>
    let s := (hitLanes o ls).foldl (fun s l =>
      (logAdd s o.blk (.fault (opKey s o) (64 * o.gidx + l) code)).modOp k fun o => o.modReq l fun q => { q with ph := .faulted code, ftime := s.reft }) s
    reportExited s o.blk o.gidx (((s.grp? o.blk o.gidx).map (·.exited)).getD 0#64)) s

/-- A fault found after issue (R198, R207). -/
def raiseHit (s : State) (hit : Hit) (code : Nat) : State := if retryable code then raiseRetry s hit code else raiseLate s hit code

/-- A fault of one lane's request alone. -/
def faultReq (s : State) (k : Nat) (o : Op) (lane code x : Nat) : State := raiseHit s [(k, o, [(lane, x)])] code

/-- A fault of a lane's request with every other request of the issue not yet past translation for which `now` gives the same
code (R283): of its own group at lane scope, of its unit at a wide scope. -/
def faultIssue (s : State) (k : Nat) (o : Op) (lane code x : Nat) (now : Op → LReq → Option (Nat × Nat)) : State :=
  let ops := s.ops.filter fun (k', a) => k' == k || (o.e != .lane && a.blk == o.blk && a.order == o.order)
  let hit : Hit := ops.map fun (k', a) => (k', a, a.lanes.filterMap fun q =>
    if k' == k && q.lane == lane then some (lane, x)
    else if q.ph == .sent then (now a q).bind fun f => if f.1 == code then some (q.lane, f.2) else none
    else none)
  raiseHit s (sortBy (fun a b => decide (a.2.1.gidx ≤ b.2.1.gidx)) (hit.filter fun h => !h.2.2.isEmpty)) code

/-- The span status word (Table 7.9). -/
def spanStatus (s : State) (key e : Nat) : Nat :=
  let st := spanSt s key
  let b (x : Bool) : Nat := if x then 1 else 0
  let setl := settledNow s key
  let recent := (st.times.filter fun t => decide (s.reft < t + 1000000)).length
  field 0 0 (b (spanV e)) + field 1 1 (b (spanRem e)) + field 2 2 (b (spanMigr e)) + field 3 3 (b st.moving.isSome) +
    field 4 4 (b setl) + field 12 5 (spanHome e) + field 17 16 (min recent 3) +
    field 63 32 (if setl then cdiv (st.settled - s.reft) 1000 else 0)

/-- A span query as far as the span entry (R226): the status word, the home package, or a fault. -/
def querySpan (s : State) (c : Ctx) (pasid : Nat) (k : Cap) (x : Nat) : Except Nat (Nat ⊕ Nat) := do
  if c.otlen ≤ k.obn then .error Code.objInvalid
  let o ← objectEntry s c k.obn
  if !objV o then .error Code.objInvalid
  if k.ogen ≠ objGen o then .error Code.capRevoked
  if objNspan o ≤ x / 2 ^ 25 then .error Code.objInvalid
  let e ← spanEntry s c o (x / 2 ^ 25)
  if spanV e && spanRem e && (spanSt s (spanKey pasid k.obn (x / 2 ^ 25))).moving.isNone then return .inr (spanHome e)
  return .inl (if spanV e then spanStatus s (spanKey pasid k.obn (x / 2 ^ 25)) e else 0)

/-- The fault that a lane's request would meet at its translation now, with the offset. -/
def faultNow (s : State) (cached : Bool) (o : Op) (q : LReq) : Option (Nat × Nat) :=
  match ctxOf s o.blk with
  | none => none
  | some c =>
    let pasid := pasidOf s o.blk
    (match o.kind with
     | .spanq => (match querySpan s c pasid q.cap q.x with
       | .error code => some code
       | .ok _ => none)
     | kind => match translate s (dieOf o.core) pasid q.cap q.x q.n kind.isWrite cached with
       | .fault code _ => some code
       | .remote _ parts _ | .ok parts _ => if 2 ≤ partsMt parts && q.x % q.n != 0 then some Code.memAlign else none).map fun code => (code, q.x)

/-- Send a lane's request to the home package of the span it names: under the key slot of its world, at this time (R113, R325,
R345). The packet keeps the tag of a capability only with FAB and GLB (R107, R109). -/
def sendFar (s : State) (k lane : Nat) : State :=
  match tget? s.ops k with
  | none => s
  | some o =>
    (chargeFab s o).modOp k fun o => o.modReq lane fun q =>
      { q with ph := .remote, ks := curSlot s (worldOf s o.blk), sent := s.reft
               tag := q.tag && Cap.has ⟨BitVec.ofNat 128 q.data, true⟩ (Perm.fab + Perm.glb) }

/-- A lane's request has its parts. A device or strongly ordered span closes the operation's symbols (R191) and needs alignment
(R206); a store of a capability passes the stale check (R118). A request with a part homed elsewhere that a wide scope holds asks
the home package for its translation first; any other is sent when it may be performed (R199, R207). -/
def passParts (s : State) (k lane : Nat) (o : Op) (q : LReq) (parts : List (Nat × Nat × Nat)) (cached : Bool) : State :=
  let pasid := pasidOf s o.blk
  let mt := partsMt parts
  let s := s.modOp k fun o => { o with closed := o.closed || decide (2 ≤ mt) }
  if 2 ≤ mt && q.x % q.n != 0 then faultIssue s k o lane Code.memAlign q.x (faultNow s cached)
  else
    let tag := match o.kind with
      | .storeCap => q.tag && (staleCheck s pasid ⟨BitVec.ofNat 128 q.data, q.tag⟩).tag
      | _ => q.tag
    let s := s.modOp k fun o => o.modReq lane fun q => { q with ph := .xlated, parts, tag }
    if parts.any farPart && o.wide.isSome then sendFar s k lane else s

/-- Translate one lane's request. -/
def translateReq (s : State) (k lane : Nat) (cached : Bool) : State :=
  match tget? s.ops k with
  | none => s
  | some o =>
    match o.req? lane, ctxOf s o.blk with
    | some q, some c =>
      let pasid := pasidOf s o.blk
      match o.kind with
      | .spanq =>
        -- a table entry in a line that may not be delivered stops the context (R322)
        (match entryBad s c q.cap.obn q.x with
         | some l => lineEvent s l pasid
         | none =>
         match querySpan s c pasid q.cap q.x with
         | .error code => faultIssue s k o lane code q.x (faultNow s cached)
         | .ok (.inr _) => sendFar s k lane
         | .ok (.inl v) => s.modOp k fun o => o.modReq lane fun q => { q with ph := .done, val := v })
      | kind =>
        (match translate s (dieOf o.core) pasid q.cap q.x q.n kind.isWrite cached with
         | .fault code s => faultIssue s k o lane code q.x (faultNow s cached)
         | .remote _ parts s | .ok parts s => passParts s k lane o q parts cached)
    | _, _ => s

/-! ### Performing a request -/

/-- Read a translated load's bytes: write-combining lines drain first, a bad line stops the context (R140, R322). A load with a
part homed elsewhere is sent there. A capability and its tag are read at the home as one (R144). -/
def performLoad (s : State) (k lane : Nat) (cached : Bool) : State :=
  match tget? s.ops k with
  | none => s
  | some o =>
    match o.req? lane with
    | none => s
    | some q =>
      let pasid := pasidOf s o.blk
      let cached := cached && o.kind != .loadCap
      if q.parts.any farPart then sendFar s k lane
      else match q.parts.findSome? fun (h, n, _) => badLine s h n with
      | some l => lineEvent s l pasid
      | none =>
        let s := q.parts.foldl (fun s (h, n, mt) => if mt = 1 then (linesOf h n).foldl (fun s l => drainLine s o.core l) s else s) s
        let (bs, s) := q.parts.foldl (fun (acc, s) (h, n, mt) =>
          if mt = 0 then
            let hit := cached && (wordsOf h n).all fun w => (tget? (s.core o.core).l1 w).isSome
            let (bs, s) := l1Read (chargeAccess s o.blk o.core h n true (!hit)) o.core h n cached
            (acc ++ bs, s)
          else (acc ++ physRead s h n, chargeAccess s o.blk o.core h n false true mt)) ([], s)
        let v := leNat bs
        let tag := match o.kind, q.parts with
          | .loadCap, (h, _, _) :: _ => physTag s h && q.cap.has Perm.lc
          | _, _ => false
        let tag := (staleCheck s pasid ⟨BitVec.ofNat 128 v, tag⟩).tag
        s.modOp k fun o => o.modReq lane fun q => { q with ph := .done, val := v, vtag := tag }

/-- Put the bytes of a store's parts where they go: those of a write-combining span in the core's buffer, any others at their homes
(R139, R140). A capability store is one granule in one part (R210). -/
def placeStore (s : State) (k : Nat) (o : Op) (q : LReq) : List (Nat × Nat × Nat) → List Byte → State
  | [], _ => s
  | (h, n, mt) :: r, bs =>
    let here := bs.take n
    let cap := q.tag && o.kind == .storeCap
    let s :=
      if mt = 1 then mergeWc s o.core h here (k, q.lane) cap
      else
        let s := chargeAccess s o.blk o.core h n false true mt
        if cap then ownWords (physWriteCap s h here true) o.core (wordsOf h n) else homeWrite s o.core h here
    placeStore s k o q r (bs.drop n)

/-- Perform a translated store (R139, R209, R210): write-combining bytes merge in the core's buffer, which drains when
full; any others are written and registered at their home; ST falls with the last of them. A store with a part homed elsewhere is sent
there. -/
def performStore (s : State) (k lane : Nat) : State :=
  match tget? s.ops k with
  | none => s
  | some o =>
    match o.req? lane with
    | none => s
    | some q =>
      let bs := natBytes q.n q.data
      if q.parts.any farPart then sendFar s k lane
      else
        let s := placeStore s k o q q.parts bs
        if q.parts.all fun p => p.2.2 ≠ 1 then storeDone s k lane
        else ((q.parts.filter fun p => p.2.2 = 1).flatMap fun (h, n, _) => linesOf h n).foldl (fun s l =>
          match tget? (s.core o.core).wc l with
          | some w => if w.bytes.length = 64 then drainLine s o.core l else s
          | none => s) s

/-- The computation of an atomic (Table 15.5): kind, type, old word, operand, comparand. -/
def atomicNew (op : Nat) (t : Ty) (old d cmp : Nat) : Nat :=
  let w := 2 ^ t.width
  let a : Word := BitVec.ofNat 32 old
  let b : Word := BitVec.ofNat 32 d
  match op with
  | 0 => if t = .f32 then (applyF .add .f32 .rn [a, b]).toNat else (old + d) % w
  | 1 => if t = .s32 then (if a.slt b then old else d) else min old d
  | 2 => if t = .s32 then (if a.slt b then d else old) else max old d
  | 3 => old &&& d
  | 4 => old ||| d
  | 5 => old ^^^ d
  | 6 => d
  | _ => if old = cmp then d else old

/-- Whether every translated lane of an atomic's issue may be performed. -/
def atomicReady (s : State) (o : Op) (q : LReq) : Bool := q.ph == .xlated && mayPerform s o q

/-- Perform one lane's atomic at its word (R215): the line's buffer drains, the word is read and written as one access
that clears the granule's tag, and the old value returns. An acquire part follows. One homed elsewhere is sent there. -/
def performAtomic (s : State) (k lane : Nat) : State :=
  match tget? s.ops k with
  | none => s
  | some o =>
    match o.req? lane, o.kind with
    | some q, .atomic op t ord =>
      (match q.parts with
       | (h, _, mt) :: _ =>
         if 4 ≤ mt then sendFar s k lane
         else
         (match badLine s h q.n with
          | some l => lineEvent s l (pasidOf s o.blk)
          | none =>
            let s := if mt = 1 then (linesOf h q.n).foldl (fun s l => drainLine s o.core l) s else s
            let old := leNat (physRead s h q.n)
            let s := chargeAccess s o.blk o.core h q.n false true mt
            let s := dropL1 (homeWrite s o.core h (natBytes q.n (atomicNew op t old q.data q.data2))) o.core (wordsOf h q.n)
            let s := s.modOp k fun o => o.modReq lane fun q => { q with ph := .done, val := old }
            if ord = .acq ∨ ord = .ar then acquireCore s o.core else s)
       | [] => s)
    | _, _ => s

/-- A request is translated, and a load or span query that may be performed is. -/
def attempt (s : State) (k lane : Nat) (cached : Bool) : State :=
  let ph (s : State) : Option Ph := ((tget? s.ops k).bind fun o => o.req? lane).map (·.ph)
  let s := if ph s == some .sent then translateReq s k lane cached else s
  match tget? s.ops k with
  | none => s
  | some o =>
    match o.req? lane with
    | some q => if q.ph == .xlated && o.kind.isLoad && mayPerform s o q then performLoad s k lane cached else s
    | none => s

/-! ### Releases and acquires (R145) -/

/-- What a release does at once for some lanes: their write-combining lines drain, and their outstanding loads are
performed where they can be, so that none is performed after it (R144, assumption 22). -/
def releaseStart (s : State) (b : Nat) (els : List (Nat × Nat)) : State :=
  let mine (s : State) : List (Nat × Op × LReq) := s.ops.flatMap fun (k, o) =>
    if o.blk == b then (o.lanes.filter fun q => els.contains (o.gidx, q.lane)).map fun q => (k, o, q) else []
  let s := (mine s).foldl (fun s (k, o, q) => if o.kind.isLoad && !q.ph.settled && o.wide.isNone then attempt s k q.lane false else s) s
  let core := homeOf s b
  let lines := ((s.core core).wc.filter fun e => e.2.op.any fun (k, l) =>
    match tget? s.ops k with
    | some o => o.blk == b && els.contains (o.gidx, l)
    | none => false).map (·.1)
  lines.foldl (fun s l => drainLine s core l) s

/-- Whether every earlier access of some lanes is done: stores and atomics have registered at their homes (R145), window transfers are
complete (R133, R141), and no load is left that could return a store which comes after the release (R144, assumption 22). -/
def released (s : State) (b : Nat) (els : List (Nat × Nat)) : Bool :=
  s.ops.all fun (_, o) => o.blk != b || !(o.kind.isMem || o.kind.isWindow) ||
    o.lanes.all fun q => !els.contains (o.gidx, q.lane) || q.ph.settled

/-- The elements among some that hold an operation which met a terminal fault after issue, with the operation. -/
def faultedOf (s : State) (b : Nat) (els : List (Nat × Nat)) (f : Op → Bool) : List (Nat × Nat × Nat) :=
  s.ops.flatMap fun (k, o) =>
    if o.blk == b && f o then
      o.lanes.filterMap fun q => match q.ph with
        | .faulted _ => if els.contains (o.gidx, q.lane) then some (o.gidx, q.lane, k) else none
        | _ => none
    else []

/-- Park the lanes among some that hold an operation which met a terminal fault, at a release of theirs that is not the instruction
they are at (R198, R207); a lane that is parked or in a rendezvous that has closed is left. -/
def parkReleasing (s : State) (b : Nat) (ws : List (Nat × Nat × Nat)) : State :=
  parkLate s b (ws.filter fun (g, l, _) => match s.grp? b g with
    | some G => G.susp.isEmpty && !G.parked.getLsbD l && !G.exited.getLsbD l && ((G.issuer? (G.issuerOf l)).map (·.closed)) == some false
    | none => false)

/-- A release by the active set of the word in execution: lanes with a faulted operation park (R198, R207); the word
waits until the release is done, and then goes on. -/
def releaseThen (go : State → Cur → Out) (s : State) : Out :=
  match s.cur with
  | none => .next s
  | some c =>
    let s := releaseStart s c.blk c.elems
    let bad := faultedOf s c.blk c.elems fun _ => true
    if !bad.isEmpty then .next (block .rel (parkLate s c.blk (faultedOf s c.blk (c.withPeers s).elems fun _ => true)))
    else if released s c.blk c.elems then go s c
    else .next (block .rel s)

/-- An acquire by the active set: it follows the lanes' own earlier atomics (R142), then invalidates (R145). -/
def acquireNow (s : State) (c : Cur) : State := if c.empty then s else acquireCore s (homeOf s c.blk)

def atomicsDone (s : State) (b : Nat) (els : List (Nat × Nat)) : Bool :=
  s.ops.all fun (_, o) => o.blk != b || !o.kind.isAtomic || o.lanes.all fun q => !els.contains (o.gidx, q.lane) || q.ph.settled

/-- An atomic with an acquire of one of some lanes has yet to be performed: what the lane does at issue comes after it (R141, R142). -/
def acquiresPending (s : State) (b : Nat) (els : List (Nat × Nat)) : Bool :=
  s.ops.any fun (_, o) => o.blk == b && o.kind.acquires && o.lanes.any fun q => els.contains (o.gidx, q.lane) && !q.ph.settled

/-! ### Arrival (R191, R196) -/

/-- The lanes of a load whose value is there. -/
def Op.doneLanes (o : Op) : List LReq := o.lanes.filter fun q => q.ph == .done

/-- Registers of a load that have not arrived for a lane of it (R196). -/
def Op.missing (o : Op) (q : LReq) : List Nat := (List.range o.syms.length).filter fun j => !q.got.contains j

/-- Whether a load's values may arrive: no lane of it is still under way. -/
def arrivable (o : Op) : Bool :=
  o.wide.isNone && o.lanes.any (fun q => q.ph == .done) && o.lanes.all fun q => q.ph.settled

/-- Register j of what a lane's request returned. -/
def LReq.piece (q : LReq) (kind : OpKind) (j : Nat) : Word :=
  match kind with
  | .load 1 true => (BitVec.ofNat 8 q.val).signExtend 32
  | .load 2 true => (BitVec.ofNat 16 q.val).signExtend 32
  | _ => BitVec.ofNat 32 (q.val / 2 ^ (32 * j))

/-- The kind number of a logged value. -/
def OpKind.logKind : OpKind → Nat
  | .load _ _ => 1
  | .loadCap => 2
  | .atomic _ _ _ => 3
  | .wld _ => 4
  | .lds _ => 5
  | .get => 6
  | .spanq => 7
  | _ => 0

/-- Log the values that a load's lanes return, but for the block's own scratchpad. -/
def logArrival (s : State) (o : Op) : State :=
  match o.kind with
  | .lds _ => s
  | k => o.doneLanes.foldl (fun s q => logAdd s o.blk (.value (opKey s o) k.logKind (64 * o.gidx + q.lane) q.x q.val q.vtag)) s

/-- The lanes of a load that have all their registers leave it: LD falls, the others stay. -/
def finishLoad (s : State) (k : Nat) : State :=
  match tget? s.ops k with
  | none => s
  | some o =>
    let full (q : LReq) : Bool := q.ph == .done && (o.missing q).isEmpty
    let out := o.lanes.filter full
    let rest := o.lanes.filter fun q => !full q
    let s := out.foldl (fun s q => probeSample s o q) s
    let s := logArrival (lowerCtr s o.blk o.gidx (out.map (·.lane)) o.kind.ctr) { o with lanes := out }
    if rest.isEmpty then { s with ops := tdel s.ops k } else { s with ops := tset s.ops k { o with lanes := rest } }

/-- Deliver register j of a load to the lanes that lack it: every register lane that refers to its symbol is resolved at one
instant (R196). -/
def deliverReg (s : State) (k j : Nat) : State :=
  match tget? s.ops k with
  | none => s
  | some o =>
    match o.syms[j]? with
    | none => s
    | some σ =>
      let vals : Tab Word := (o.doneLanes.filter fun q => !q.got.contains j).map fun q => (q.lane, q.piece o.kind j)
      let refs := ((s.grp? o.blk o.gidx).map fun G => G.refsOf σ (vals.map (·.1))).getD 0
      let s := chargeSymr s o.blk refs
      let s := s.modGroup o.blk o.gidx fun G => G.resolve σ vals
      s.modOp k fun o => { o with lanes := o.lanes.map fun q => if q.ph == .done then { q with got := ninsert q.got j } else q }

/-- Whether a lane's destination quad is still the load's own: nothing has written it since, not even with the state it holds, so
that it takes the tag that the load would have given it at once (R192, R196). -/
def ownDst (G : Group) (o : Op) (lane : Nat) : Bool :=
  match o.dst with
  | some d => (tgetD G.vl (d.toNat / 4) 0#64).getLsbD lane &&
      (o.syms.mapIdx fun j σ => G.cell (d.toNat + j) lane == some (.aff σ 1#32 0#32)).all id
  | none => false

/-- The value of destination register j of a load arrives. A load that brings a tag delivers its whole quad at one
instant (assumption 23). -/
def arrive (s : State) (k j : Nat) : State :=
  match tget? s.ops k with
  | none => s
  | some o =>
    if !arrivable o || o.doneLanes.all (fun q => q.got.contains j) then s
    else if o.syms.isEmpty then finishLoad s k
    else
      let tagged := o.doneLanes.filter (·.vtag)
      let js := if tagged.isEmpty then [j] else (List.range o.syms.length).filter fun i => o.doneLanes.any fun q => !q.got.contains i
      let own : List Nat := match s.grp? o.blk o.gidx with
        | some G => (o.doneLanes.filter fun (q : LReq) => ownDst G o q.lane).map (·.lane)
        | none => []
      let s := js.foldl (fun s i => deliverReg s k i) s
      let s := match o.dst with
        | some d => s.modGroup o.blk o.gidx fun G => own.foldl (fun G l => G.setVtag (d.toNat / 4) l (tagged.any fun q => q.lane == l)) G
        | none => s
      match tget? s.ops k with
      | some o => if o.doneLanes.all (fun q => (o.missing q).isEmpty) then finishLoad s k else s
      | none => s

end Sys2Proof.Machine
end

