-- ==== Sys2Proof/Machine/Operands.lean ====
section
/-!
DEFINITION. Operand forms (R56 to R59, R149, R151, R191 to R197, R222, R270): vector values in registers and channels,
pairs and quads, uniform registers, last use, pending registers, ring channels and the register limit.
-/

namespace Sys2Proof.Machine

/-! ### Rings and channels (R148, R149, R221 to R223) -/

/-- Control granule of a ring (Table 15.8): HEAD, TAIL, CAPY, DROP. -/
structure RingCtl where
  head : Nat
  tail : Nat
  capy : Nat
  drop : Nat
  deriving DecidableEq, Repr

def blockSpm (s : State) (b : Nat) : Ram := ((tget? s.blocks b).map (·.spm)).getD Ram.empty

def modSpm (s : State) (b : Nat) (f : Ram → Ram) : State := s.modBlock b fun B => { B with spm := f B.spm }

def ringCtl (s : State) (b off : Nat) : RingCtl :=
  let n := leNat ((blockSpm s b).read off 16)
  ⟨bits n 31 0, bits n 63 32, bits n 95 64, bits n 103 96⟩

/-- Write a control granule; its tag is cleared. -/
def putRingCtl (s : State) (b off : Nat) (r : RingCtl) : State :=
  modSpm s b fun m => m.write off (natBytes 16 (field 31 0 r.head + field 63 32 r.tail + field 95 64 r.capy +
    field 103 96 r.drop))

def RingCtl.count (r : RingCtl) : Nat := (r.tail + 2 ^ 32 - r.head) % 2 ^ 32

/-- Element j after the head (R222); undefined where a store of the program reached it (R149). Where HEAD + j passes 2^32 and CAPY
does not divide 2^32, R222 does not say whether the sum is taken mod 2^32 before mod CAPY: the model takes HEAD + j exactly
(DESIGN CHOICE; assumption 78). -/
def ringElem (s : State) (b off : Nat) (r : RingCtl) (j : Nat) : Word :=
  let at_ := off + 16 + 4 * ((r.head + j) % max r.capy 1)
  match (tget? s.blocks b).bind fun B => tget? B.ringDirty at_ with
  | some k => BitVec.ofNat 32 (Config.freeNat k)
  | none => BitVec.ofNat 32 (leNat ((blockSpm s b).read at_ 4))

/-- The device writes an element of a ring. -/
def ringPut (s : State) (b at_ : Nat) (w : Word) : State :=
  s.modBlock b fun B => { B with spm := B.spm.write at_ (natBytes 4 w.toNat), ringDirty := tdel B.ringDirty at_ }

/-- A store of the program to n bytes of a scratchpad races with the rings bound there: the elements that it reaches are
undefined, and every element of a ring whose control granule it reaches (R149). -/
def raceRings (s : State) (b x n : Nat) : State :=
  let rs := (s.groupsOf b).flatMap fun g => (((s.grp? b g).map (·.chans)).getD []).filterMap fun (_, c) =>
    if c.kind = 2 ∨ c.kind = 5 then none else some (c.off, c.rlen)
  let ws := (rs.flatMap fun (off, rlen) => ((List.range ((rlen - 16) / 4)).map (off + 16 + 4 * ·)).filter fun w =>
    overlap x n off 16 || overlap x n w 4).dedup
  if ws.isEmpty then s
  else
    let k := s.free
    { s with free := s.free + ws.length }.modBlock b fun B =>
      { B with ringDirty := (ws.mapIdx fun i w => (w, k + i)).foldl (fun t (w, k) => tset t w k) B.ringDirty }

/-- Whether a block binds a kind 3 channel at an offset (R223). -/
def boundPop (s : State) (b off : Nat) : Bool :=
  s.groups.any fun (k, G) => k / 32 == b && G.chans.any fun c => c.2.kind == 3 && c.2.off == off

/-- The block and offset of a channel's ring; none where a send end has no receiver yet. -/
def chanRing (s : State) (b : Nat) (ch : Chan) : Option (Nat × Nat) :=
  match ch.kind with
  | 2 => (ch.peer.bind fun p => if boundPop s p ch.off then some (p, ch.off) else none)
  | 5 => none
  | _ => some (b, ch.off)

/-- Whether a receiver has exited: no send of a kind 2 channel to it can end (R223; DEDUCED, assumption 114). -/
def peerLeft (s : State) (p : Nat) : Bool := (tget? s.blocks p).all fun B => B.phase == .draining

/-- Key of a fabric queue: port × 256 + queue; the binding holds them in place and rlen (R347). -/
def fqKey (port queue : Nat) : Nat := 256 * port + queue

def fabricQ (s : State) (ch : Chan) : FQueue := tgetD s.fqs (fqKey ch.slot ch.rlen) FQueue.reset

/-- Capacity in elements, where it is known (R149). -/
def chanCapacity (s : State) (b : Nat) (ch : Chan) : Option Nat :=
  if ch.kind = 5 then some 64 else (chanRing s b ch).map fun (p, o) => (ringCtl s p o).capy

def chanPresent (s : State) (b : Nat) (ch : Chan) : Nat :=
  if ch.kind = 5 then (fabricQ s ch).elems.length
  else match chanRing s b ch with
    | some (p, o) => (ringCtl s p o).count
    | none => 0

def chanRoom (s : State) (b : Nat) (ch : Chan) : Nat :=
  if ch.kind = 5 then (fabricQ s ch).credits
  else match chanRing s b ch with
    | some (p, o) => let r := ringCtl s p o; r.capy - r.count
    | none => 0

/-- Elements i to i + n − 1 after the head. -/
def chanPeek (s : State) (b : Nat) (ch : Chan) (i n : Nat) : List Word :=
  if ch.kind = 5 then ((fabricQ s ch).elems.drop i).take n
  else match chanRing s b ch with
    | some (p, o) => let r := ringCtl s p o; (List.range n).map fun j => ringElem s p o r (i + j)
    | none => []

/-- Remove n elements; a fabric receiver returns their credit (R347). -/
def chanPop (s : State) (b : Nat) (ch : Chan) (n : Nat) : State :=
  if n = 0 then s
  else if ch.kind = 5 then
    let q := fabricQ s ch
    { s with fqs := tset s.fqs (fqKey ch.slot ch.rlen) (q.takes n) }
  else match chanRing s b ch with
    | some (p, o) => let r := ringCtl s p o; putRingCtl s p o { r with head := (r.head + n) % 2 ^ 32 }
    | none => s

/-- Append elements: one scratchpad operation of the ring's block (R222). Sends to others are suppressed in a view
(R337). -/
def chanSend (s : State) (b : Nat) (ch : Chan) (ws : List Word) : State :=
  if ch.kind = 5 then
    if s.sandbox.isSome then s
    else
      let q := fabricQ s ch
      let q' := { q with credits := q.credits - ws.length, sent := q.sent ++ ws }
      { s with fqs := tset s.fqs (fqKey ch.slot ch.rlen) q' }
  else if ch.kind = 2 && s.sandbox.isSome then s
  else match chanRing s b ch with
    | some (p, o) =>
      let r := ringCtl s p o
      let s := (ws.mapIdx fun j w => (j, w)).foldl (fun s (j, w) =>
        let at_ := o + 16 + 4 * ((r.tail + j) % max r.capy 1)
        let s := ringPut s p at_ w
        -- elements that another block sends are logged (R335)
        if p = b then s else logAdd s p (.bytes (rcOf s p) at_ (natBytes 4 w.toNat) false)) s
      let s := putRingCtl s p o { r with tail := (r.tail + ws.length) % 2 ^ 32 }
      if p = b then s else logAdd s p (.bytes (rcOf s p) o ((blockSpm s p).read o 16) false)
    | none => s

/-- Append to a device-written ring (kinds 4 and 6), or count the sample or ticket in DROP when room is short (R224). -/
def ringPost (s : State) (b off : Nat) (ws : List Word) : State :=
  let r := ringCtl s b off
  if r.count + ws.length ≤ r.capy then
    let s := (ws.mapIdx fun j w => (j, w)).foldl (fun s (j, w) =>
      ringPut s b (off + 16 + 4 * ((r.tail + j) % max r.capy 1)) w) s
    putRingCtl s b off { r with tail := (r.tail + ws.length) % 2 ^ 32 }
  else putRingCtl s b off { r with drop := min 255 (r.drop + 1) }

def Chan.canSend (c : Chan) : Bool := c.kind == 1 || c.kind == 2 || c.kind == 5
def Chan.canPop (c : Chan) : Bool := c.kind != 2

/-! ### Operands -/

/-- A source operand: a vector value, or n registers from a register field (pair, quad). -/
inductive Opd where
  | v (s : VSrc)
  | r (s : RSrc) (n : Nat)
  deriving DecidableEq, Repr

/-- A field that is read and written, read without freeing. -/
def Opd.old (n : BitVec 6) (k : Nat) : Opd := .r ⟨n, false⟩ k

/-- The registers an operand names. -/
def Opd.regs : Opd → List Nat
  | .v (.reg n _) => [n.toNat]
  | .v (.chan _ _) => []
  | .r s n => (List.range n).map (s.n.toNat + ·)

def Opd.last : Opd → Bool
  | .v (.reg _ l) => l
  | .v (.chan _ _) => false
  | .r s _ => s.last

/-- The channel of a destination. -/
def dstChan? : VDst → Option Nat
  | .chan c => some c.toNat
  | .reg _ => none

/-- A destination: a vector value, n registers, or none in the vector file. -/
inductive Dst where
  | v (d : VDst)
  | r (n : BitVec 6) (k : Nat)
  | none
  deriving DecidableEq, Repr

def Dst.regs : Dst → List Nat
  | .v (.reg n) => [n.toNat]
  | .v (.chan _) => []
  | .r n k => (List.range k).map (n.toNat + ·)
  | .none => []

def Dst.chan? : Dst → Option Nat
  | .v d => dstChan? d
  | _ => Option.none

/-- The ring that a channel of a group ends in, as a number; none where it has none yet. -/
def ringKey (s : State) (b : Nat) (G : Group) (c : Nat) : Option Nat :=
  (tget? G.chans c).bind fun ch =>
    if ch.kind = 5 then some (2 ^ 70 + fqKey ch.slot ch.rlen) else (chanRing s b ch).map fun (p, o) => 2 ^ 20 * p + o

/-- Whether an operand of a group takes elements from a ring; a peek leaves them. -/
def Opd.takes (s : State) (b : Nat) (G : Group) (key : Nat) (peeks : Bool) : Opd → Bool
  | .v (.chan c peek) => (peeks || !peek) && ringKey s b G c.toNat == some key
  | _ => false

/-- The groups of an issue that have a lane in its active set, with how many. -/
abbrev Takers := List (Nat × Group × Nat)

/-- How many elements some groups take from a ring through an operand. -/
def Takers.count (gs : Takers) (s : State) (b key : Nat) (peeks : Bool) (o : Opd) : Nat :=
  (gs.map fun x => if o.takes s b x.2.1 key peeks then x.2.2 else 0).sum

/-- For each operand of a group, its channel and the place after the ring's head where its elements begin: past what the earlier
operands of the issue have popped from that ring (R59), and past the elements of the issue's lower groups (R149). -/
def chanStarts (s : State) (b : Nat) (gs : Takers) (g : Nat) (G : Group) (ops : List Opd) : List (Option (Nat × Nat)) :=
  ops.mapIdx fun j o => match o with
    | .v (.chan c _) => some (c.toNat, match ringKey s b G c.toNat with
      | none => 0
      | some key => ((ops.take j).map (gs.count s b key false)).sum + Takers.count (gs.filter fun x => x.1 < g) s b key true o)
    | _ => none

/-- The channels that the operands of n lanes pop, with how many elements each time. -/
def chanPops (n : Nat) (ops : List Opd) : List (Nat × Nat) :=
  ops.filterMap fun o => match o with
    | .v (.chan c false) => some (c.toNat, n)
    | _ => none

/-- What the lower groups of an issue send to the ring of a channel. -/
def sentBelow (s : State) (b : Nat) (gs : Takers) (g : Nat) (G : Group) (c : Nat) : Nat :=
  ((gs.filter fun x => decide (x.1 < g) && (ringKey s b x.2.1 c).isSome && ringKey s b x.2.1 c == ringKey s b G c).map fun x => x.2.2).sum

/-- The channel faults of an issue in one group (R148, R149): unbound, direction, size. -/
def chanFault (s : State) (b : Nat) (gs : Takers) (g : Nat) (G : Group) (n : Nat) (ops : List Opd) (d : Dst) : Option Nat :=
  let bad := ((chanStarts s b gs g G ops).filterMap id).findSome? fun (c, st) =>
    match tget? G.chans c with
    | Option.none => some Code.chanUnbound
    | some ch =>
      if !ch.canPop then some Code.chanDir
      else match chanCapacity s b ch with
        | some k => if k < st + n then some Code.chanSize else Option.none
        | Option.none => Option.none
  match bad with
  | some f => some f
  | Option.none =>
    d.chan?.bind fun c =>
      match tget? G.chans c with
      | Option.none => some Code.chanUnbound
      | some ch =>
        if !ch.canSend then some Code.chanDir
        else if ch.kind == 2 && ch.peer.any (fun p => (tget? s.blocks p).isSome && !sameTicket s p b) then some Code.winTicket
        else if ch.kind == 2 && s.sandbox.isNone && ch.peer.any (peerLeft s) then some Code.chanPeer
        else match chanCapacity s b ch with
          | some k => if k < sentBelow s b gs g G c + n then some Code.chanSize else Option.none
          | Option.none => Option.none

/-- The channel that an issue waits for in one group: too few elements, or too little room (R149). Elements that the issue pops
make room in a ring that it sends to, but not in a fabric queue, whose two directions are apart (R347). -/
def chanShort (s : State) (b : Nat) (gs : Takers) (g : Nat) (G : Group) (n : Nat) (ops : List Opd) (d : Dst) : Option Nat :=
  match ((chanStarts s b gs g G ops).filterMap id).find? fun (c, st) =>
      match tget? G.chans c with
      | some ch => chanPresent s b ch < st + n
      | Option.none => false with
  | some (c, _) => some c
  | Option.none =>
    d.chan?.bind fun c =>
      match tget? G.chans c with
      | some ch =>
        let freed := match ringKey s b G c with
          | some key => if ch.kind = 5 then 0 else (ops.map (gs.count s b key false)).sum
          | none => 0
        -- a view sends nothing to others, and waits for no room of theirs (R337)
        if s.sandbox.isSome && ch.kind != 1 then Option.none
        else if chanRoom s b ch + freed < sentBelow s b gs g G c + n then some c else Option.none
      | Option.none => Option.none

/-- Physical vector registers held: those with a lane that holds something (R270). -/
def Group.held (g : Group) : List Nat := (g.v.filter fun r => !r.2.isEmpty).map (·.1)

/-- Free the last-use registers of some operands for some lanes, each once (R58). -/
def Group.freeOps (g : Group) (ops : List Opd) (lanes : List Nat) : Group :=
  ((ops.filter Opd.last).flatMap Opd.regs).dedup.foldl (fun g r => lanes.foldl (fun g l => g.freeReg r l) g) g

/-- Whether a word would make its group hold more than REGS registers (R270). -/
def overLimit (regs : Nat) (g : Group) (ops : List Opd) (d : Dst) (lanes : List Nat) : Bool :=
  if 64 ≤ regs then false
  else
    let after := ((g.freeOps ops lanes).held ++ d.regs).dedup.length
    decide (regs < after) && decide (g.held.length < after)

/-- REG_LIMIT (R270): at lane and group scope the group is suspended with a record of the issuer's lanes, at a wider
scope the unit as R35 states. -/
def regLimit (s : State) (gs : List Nat) : Out :=
  match s.cur with
  | Option.none => .next s
  | some c =>
    let s := chargeFault c.elems s
    match c.e with
    | .lane | .group =>
      let m := c.arr.foldl (fun m r => m ||| ((s.issuer? r).map (·.lanes)).getD 0#64) 0#64
      let r : FaultRec := { code := Code.regLimit, scope := c.e, gidx := c.lead, paddr := c.addr, pword := c.idx, lanes := m }
      -- the issuer is at the position that a disposition passes
      let s := c.arr.foldl (fun s r => s.modIssuer r fun i => { i with wait := .rdv c.e, closed := false }) s
      .next { suspendUnit s c.blk [c.lead] .group Code.regLimit [r] with cur := Option.none }
    | _ =>
      .next { wideFault s c ((c.elems.filter fun e => gs.contains e.1).map fun (g, l) => ⟨g, l, Code.regLimit, 0⟩) with
              cur := Option.none }

/-- Wait on pending registers; a lane that waits on a faulted operation parks instead. -/
def blockPend (s : State) (b : Nat) (ws : List (Nat × Nat × Nat)) : Out :=
  -- ws: group, lane, symbol
  let s' := parkLate s b (ws.filterMap fun (g, l, σ) => (opOfSym s σ).map fun o => (g, l, o.1))
  .next (block .pend s')

/-- The pending register lanes among those an instruction reads. -/
def pendingOf (s : State) (c : Cur) (ops : List Opd) : List (Nat × Nat × Nat) :=
  let rs := ops.flatMap Opd.regs
  c.act.flatMap fun (g, m) =>
    match s.grp? c.blk g with
    | Option.none => []
    | some G => (lanesOf m).flatMap fun l => rs.filterMap fun r => (G.symOf r l).map fun σ => (g, l, σ)

/-- Whether the issuers of the word already wait on a pending register. -/
def waitedPend (s : State) (c : Cur) : Bool := c.arr.any fun r => ((s.issuer? r).map (·.wait)) == some .pend

/-- The groups of the word in execution that have a lane in its active set. -/
def Cur.takers (c : Cur) (s : State) : Takers :=
  c.act.filterMap fun (g, m) => if m == 0#64 then Option.none else (s.grp? c.blk g).map fun G => (g, G, (lanesOf m).length)

/-- The checks and waits before any operand is read: channel faults, pending registers (unless the word composes),
channel contents, the register limit. None: the word may read its operands. -/
def ready? (s : State) (c : Cur) (ops : List Opd) (d : Dst) (composes : Bool) : Option Out :=
  let gs := c.act.filterMap fun (g, m) => if m == 0#64 then Option.none else (s.grp? c.blk g).map fun G => (g, m, G)
  let ts := c.takers s
  let faults := gs.filterMap fun (g, m, G) => (chanFault s c.blk ts g G (lanesOf m).length ops d).map fun f => (g, m, f)
  if !faults.isEmpty then
    let fs : List LFault := faults.flatMap fun (g, m, f) => (lanesOf m).map fun l => ⟨g, l, f, 0⟩
    some (.next (retire (raiseFault fs (chargeFault (fs.map fun f => (f.g, f.l)) s))))
  else
    let ws := if composes then [] else pendingOf s c ops
    if !ws.isEmpty then some (blockPend s c.blk (pendingOf s (c.withPeers s) ops))
    else
      match gs.findSome? fun (g, m, G) => chanShort s c.blk ts g G (lanesOf m).length ops d with
      | some ch => some (.next (block (.chan (BitVec.ofNat 6 ch)) s))
      | Option.none =>
        -- a send is a release (Table 9.7)
        if d.chan?.isSome && s.sandbox.isNone && (!released s c.blk c.elems || !(faultedOf s c.blk c.elems fun _ => true).isEmpty) then
          let s := releaseStart s c.blk c.elems
          some (.next (block .rel (parkLate s c.blk (faultedOf s c.blk (c.withPeers s).elems fun _ => true))))
        else
        let regs := ((tget? s.blocks c.blk).map fun B => (s.gridOf B).regs).getD 64
        let big := gs.filter fun (_, m, G) => overLimit regs G ops d (lanesOf m)
        if big.isEmpty then Option.none else some (regLimit s (big.map fun (g, _, _) => g))

/-- The cells an operand gives one lane: k is the lane's place among the active lanes of its group. -/
def opdCells (s : State) (b : Nat) (G : Group) (lane k : Nat) (o : Opd) (start : Option (Nat × Nat)) (n : Nat) : List VCell :=
  match o, start with
  | .v (.chan c _), some (_, st) =>
    match tget? G.chans c.toNat with
    | some ch => (chanPeek s b ch (st + k) 1).map VCell.val
    | Option.none => List.replicate (min n 1) (.val 0#32)
  | o, _ => o.regs.map fun r => (G.cell r lane).getD (.val 0#32)

/-- Every operand of every active lane: group, then lane with its cells in field order. -/
def readOps (s : State) (c : Cur) (ops : List Opd) : List (Nat × List (Nat × List VCell)) :=
  c.act.filterMap fun (g, m) =>
    if m == 0#64 then Option.none
    else (s.grp? c.blk g).map fun G =>
      let ls := lanesOf m
      let starts := chanStarts s c.blk (c.takers s) g G ops
      (g, ls.mapIdx fun k l =>
        (l, (List.zipWith (fun o st => opdCells s c.blk G l k o st ls.length) ops starts).flatten))

/-- A cell as a word; pending cells are read only by composing instructions. -/
def VCell.word : VCell → Word
  | .val w => w
  | _ => 0#32

/-- Whether an operand is an element of a channel, popped or peeked. -/
def Opd.isChan : Opd → Bool
  | .v (.chan _ _) => true
  | _ => false

/-- Take what the sources give: pops happen, last-use registers are freed (R58, R59). -/
def consume (s : State) (c : Cur) (ops : List Opd) : State :=
  c.act.foldl (fun s (g, m) =>
    if m == 0#64 then s
    else match s.grp? c.blk g with
      | Option.none => s
      | some G =>
        let ls := lanesOf m
        let pops := chanPops ls.length ops
        let s := pops.foldl (fun s (ch, n) =>
          match tget? G.chans ch with
          | some x => chanPop s c.blk x n
          | Option.none => s) s
        -- a pop or peek acquires its element's send (Table 9.7)
        let s := if ops.all fun o => !o.isChan then s else acquireCore s (homeOf s c.blk)
        s.modGroup c.blk g fun G => G.freeOps ops ls) s

def Group.dirty (g : Group) (rs : List Nat) : Group := { g with vDirty := rs.foldl ninsert g.vDirty }

/-- Write one cell to each active lane's destination (R101), or send the words (R149). -/
def writeCells (s : State) (b : Nat) (d : VDst) (res : List (Nat × List (Nat × VCell))) : State :=
  res.foldl (fun s (g, ls) =>
    match d with
    | .reg n => s.modGroup b g fun G => (ls.foldl (fun G (l, x) => G.putCell n.toNat l x) G).dirty [n.toNat]
    | .chan ch =>
      match (s.grp? b g).bind fun G => tget? G.chans ch.toNat with
      | some x => chanSend s b x (ls.map fun y => y.2.word)
      | Option.none => s) s

/-- Write the same number of registers to each active lane. -/
def writeRegs (s : State) (b : Nat) (r : BitVec 6) (k : Nat) (res : List (Nat × List (Nat × List Word))) : State :=
  res.foldl (fun s (g, ls) => s.modGroup b g fun G =>
    (ls.foldl (fun G (l, ws) => (ws.mapIdx fun j w => (j, w)).foldl (fun G (j, w) => G.putWord (r.toNat + j) l w) G) G).dirty
      ((List.range k).map (r.toNat + ·))) s

/-! ### Uniform operands (R57, R58, R151) -/

/-- The uniform register of the group that R151 names. -/
def Cur.src (c : Cur) (s : State) (r : RSrc) : DWord := ((s.grp? c.blk c.lead).map fun G => G.sreg r.n.toNat).getD 0#64

def Cur.srcPair (c : Cur) (s : State) (r : RSrc) : Cap :=
  ((s.grp? c.blk c.lead).map fun G => G.sPair r.n.toNat).getD Cap.null

/-- Free last-use uniform sources in the group they were read from (R58): k registers each. -/
def freeS (s : State) (c : Cur) (rs : List (RSrc × Nat)) : State :=
  if c.empty then s
  else s.modGroup c.blk c.lead fun G => (rs.filter fun r => r.1.last).foldl (fun G (r, k) =>
    (List.range k).foldl (fun G j => G.putS (r.n.toNat + j) 0#64) G) G

/-! ### Lane-wise instructions -/

/-- A vector instruction of one result word a lane: `f` is given the group, the lane and its operands' words. An
instruction without an active lane has no effect (R31). `us` are its uniform sources, read by the caller. -/
def laneOpU (cls : Nat) (per : Per) (d : VDst) (ops : List Opd) (us : List (RSrc × Nat)) (f : Group → Nat → List Word → Word) (s : State) : Out :=
  match s.cur with
  | none => .next s
  | some c =>
    if c.empty then .next (retire s)
    else match ready? s c ops (.v d) false with
      | some o => o
      | none =>
        let vals := readOps s c ops
        let res := vals.map fun (g, ls) =>
          match s.grp? c.blk g with
          | some G => (g, ls.map fun (l, xs) => (l, VCell.val (f G l (xs.map VCell.word))))
          | none => (g, [])
        done cls per (writeCells (freeS (consume s c ops) c us) c.blk d res)

def laneOp (cls : Nat) (d : VDst) (ops : List Opd) (f : Group → Nat → List Word → Word) (s : State) : Out :=
  laneOpU cls .lane d ops [] f s

/-- A vector instruction whose result is k registers a lane. -/
def laneOpK (cls : Nat) (d : BitVec 6) (k : Nat) (ops : List Opd) (f : Group → Nat → List Word → List Word) (s : State) : Out :=
  match s.cur with
  | none => .next s
  | some c =>
    if c.empty then .next (retire s)
    else match ready? s c ops (.r d k) false with
      | some o => o
      | none =>
        let res := (readOps s c ops).map fun (g, ls) =>
          match s.grp? c.blk g with
          | some G => (g, ls.map fun (l, xs) => (l, f G l (xs.map VCell.word)))
          | none => (g, [])
        done cls .lane (writeRegs (consume s c ops) c.blk d k res)

/-- A vector instruction that writes bit LANE of a predicate for each active lane (R182, R239). -/
def predOp (cls : Nat) (d : BitVec 3) (ops : List Opd) (f : Group → Nat → List Word → Bool) (s : State) : Out :=
  match s.cur with
  | none => .next s
  | some c =>
    if c.empty then .next (retire s)
    else match ready? s c ops .none false with
      | some o => o
      | none =>
        let s' := (readOps s c ops).foldl (fun s (g, ls) =>
          s.modGroup c.blk g fun G =>
            G.putPred d (maskOf (ls.map (·.1))) (maskOf ((ls.filter fun (l, xs) => f G l (xs.map VCell.word)).map (·.1)))) (consume s c ops)
        done cls .lane s'

/-- A lane-wise instruction that may compose (R194) or defer (R246): `comp` gives the destination's cell from the
operands' cells, or none when the instruction must wait. A closed symbol is never composed (R191); an instruction that
has waited waits until every register it reads is resolved (R195). -/
def compOp (cls : Nat) (d : VDst) (ops : List Opd) (comp : List VCell → Option VCell) (f : List Word → Word) (s : State) : Out :=
  match s.cur with
  | none => .next s
  | some c =>
    if c.empty then .next (retire s)
    else
      let ws := pendingOf s c ops
      let res : List (Nat × List (Nat × Option VCell)) :=
        (readOps s c ops).map fun (g, ls) => (g, ls.map fun (l, xs) => (l, comp xs))
      let may : Bool := c.sym && d.isReg && !ws.isEmpty && !waitedPend s c &&
        (ws.all fun (_, _, σ) => match opOfSym s σ with | some (_, o) => !o.closed | none => false) &&
        res.all fun (_, ls) => ls.all fun x => x.2.isSome
      if may then
        match ready? s c ops (.v d) true with
        | some o => o
        | none =>
          let out := res.map fun (g, ls) => (g, ls.map fun (l, x) => (l, x.getD (.val 0#32)))
          done cls .lane (writeCells (consume s c ops) c.blk d out)
      else laneOp cls d ops (fun _ _ xs => f xs) s

/-! ### Uniform instructions -/

/-- Write a uniform destination in every group of the unit with an active lane (R151). -/
def putUni (s : State) (c : Cur) (r : BitVec 6) (v : DWord) : State :=
  c.live.foldl (fun s g => s.modGroup c.blk g fun G => G.setS r.toNat v) s

/-- A uniform instruction: one execution per issue, from uniform sources to a uniform destination. -/
def uniOp (cls : Nat) (d : BitVec 6) (srcs : List RSrc) (f : Group → List DWord → DWord) (s : State) : Out :=
  match s.cur with
  | none => .next s
  | some c =>
    if c.empty then .next (retire s)
    else match s.grp? c.blk c.lead with
      | none => .next (retire s)
      | some G =>
        let v := f G (srcs.map fun r => c.src s r)
        done cls .issue (putUni (freeS s c (srcs.map fun r => (r, 1))) c d v)

/-- A uniform instruction that writes a uniform predicate (R182). -/
def uniPredOp (cls : Nat) (d : BitVec 3) (srcs : List RSrc) (f : Group → List DWord → Bool) (s : State) : Out :=
  match s.cur with
  | none => .next s
  | some c =>
    if c.empty then .next (retire s)
    else match s.grp? c.blk c.lead with
      | none => .next (retire s)
      | some G =>
        let v := f G (srcs.map fun r => c.src s r)
        let s' := freeS s c (srcs.map fun r => (r, 1))
        done cls .issue (c.live.foldl (fun s g => s.modGroup c.blk g fun G => G.putQ d v) s')

/-- Per-lane checks at issue (R205): the elements that fail take their faults; none is left when the scope is wide.
The rest of the instruction acts on the elements that pass. -/
def splitFaults (s : State) (c : Cur) (fs : List LFault) (go : State → Cur → Out) : Out :=
  if fs.isEmpty then go s c
  else
    let s' := raiseFault fs (chargeFault (fs.map fun f => (f.g, f.l)) s)
    match s'.cur with
    | none => .next s'
    | some c' => if c'.empty then .next (retire s') else go s' c'

end Sys2Proof.Machine
end

