-- ==== Sys2Proof/Machine/Issue.lean ====
section
/-!
DEFINITION. Issuing operations that stay outstanding (R52, R191, R193, R198, R207): symbol-table room, the wide-scope
hold, raising counters and marking destinations, windows (R130 to R133), scratchpad checks and passes (R127, R128).
-/

namespace Sys2Proof.Machine

/-! ### Requests -/

/-- A request of a lane with nothing in it. -/
def req0 (lane : Nat) : LReq :=
  { lane, ph := .sent, cap := Cap.null, x := 0, cap2 := Cap.null, x2 := 0, n := 0, data := 0, data2 := 0, tag := false
    parts := [], val := 0, vtag := false, got := [], todo := [], old := [], oldTags := [], ticket := 0#32, targets := [], ks := 0, time := 0
    probe := false, sent := 0, marks := [], ftime := 0 }

/-- A capability operand: four words from place i of the lane's operands, with its quad's tag. -/
def capAt (G : Group) (l : Nat) (b : RSrc) (xs : List Word) (i : Nat) : Cap :=
  ⟨xs.getD (i + 3) 0#32 ++ xs.getD (i + 2) 0#32 ++ xs.getD (i + 1) 0#32 ++ xs.getD i 0#32, G.vtag (b.n.toNat / 4) l⟩

/-- Words as one little-endian number. -/
def wordsNat (ws : List Word) : Nat := ws.foldr (fun w acc => w.toNat + 2 ^ 32 * acc) 0

/-! ### The symbol table (R193) -/

/-- What a word of a clause raises, how many destination registers it leaves symbols in, and whether it enters the tile
queue (Table 3.3, R193, R253). -/
def raiseOf (e : Eng) (w ext : Word) : Option (CK × Nat × Bool) :=
  let o := opc w
  match e with
  | .mem =>
    if o ≤ 0x04 ∨ o = 0x0E ∨ o = 0x10 then some (.ld, 1, false)
    else if o = 0x05 ∨ o = 0x11 ∨ o = 0x34 then some (.ld, 2, false)
    else if o = 0x06 ∨ o = 0x07 ∨ o = 0x0F ∨ o = 0x12 then some (.ld, 4, false)
    else if o = 0x17 then some (.ld, 0, false)
    else if 0x18 ≤ o ∧ o ≤ 0x1F then some (.ld, if mT ext = .b64 then 2 else 1, false)
    else if (0x08 ≤ o ∧ o ≤ 0x0D) ∨ (0x13 ≤ o ∧ o ≤ 0x16) then some (.st, 0, false)
    else none
  | .asy =>
    if o ≤ 0x02 then some (.cp, 0, false)
    else if o = 0x0A then some (.tl, 0, false)
    else if 0x10 ≤ o ∧ o ≤ 0x13 then some (.tl, 0, true)
    else none
  | _ => none

/-- What the words of a clause raise, with each word's scope. -/
def raises (e : Eng) : List Word → List (Scope × CK × Nat × Bool)
  | [] => []
  | [w] => (raiseOf e w 0#32).toList.map fun x => (scopeOf w, x)
  | w :: x :: r =>
    if isLong e (opc w) then (raiseOf e w x).toList.map (fun y => (scopeOf w, y)) ++ raises e r
    else (raiseOf e w x).toList.map (fun y => (scopeOf w, y)) ++ raises e (x :: r)

/-- What the words that an issuer's clause in issue still holds raise. -/
def Issuer.pendingRaises (i : Issuer) : List (Scope × CK × Nat × Bool) :=
  match i.cl with
  | some c =>
    if c.idx = 0 then []
    else match engOf (c.hdr.extractLsb' 4 3).toNat with
      | some e => raises e (c.words.drop c.off)
      | none => []
  | none => []

/-- Symbol-table entries that lane-scope words of some raises take; those of a wide word are taken when its rendezvous completes
(R193). -/
def symNeed (l : List (Scope × CK × Nat × Bool)) : Nat := ((l.filter fun x => x.1 == .lane).map fun x => x.2.2.1).sum

/-- Whether an operation's request has freed its symbol entries by the park of its lane (R198). -/
def symFreed (s : State) (k : Nat) (q : LReq) : Bool :=
  match q.ph with
  | .faulted _ => s.parks.any fun p => p.2.defer.contains (k, q.lane)
  | _ => false

/-- Entries that a group holds: destination registers of its outstanding operations that some lane still waits for, and those
that the lane-scope words of its clauses in issue have been given room for. -/
def groupSyms (s : State) (b g : Nat) : Nat :=
  s.ops.foldl (fun n (k, o) =>
    if o.blk == b && o.gidx == g then
      n + ((List.range o.syms.length).filter fun j => o.lanes.any fun q => !symFreed s k q && !q.got.contains j).length else n)
    (match s.grp? b g with
     | some G => (G.issuers.map fun k => symNeed (((G.issuer? k).map Issuer.pendingRaises).getD [])).sum
     | none => 0)

/-- Shared entries in use on a core, with those that some groups would add: of a group's entries the first 4 are its own. The
groups of blocks that are not on a core hold none, as a save frees them (R193, R199). -/
def symShared (s : State) (core : Nat) (adds : List (Nat × Nat × Nat)) : Nat :=
  -- adds: block, group, entries
  let gs := s.groups.filter fun (k, _) => homeOf s (k / 32) == core && ((blockOf s (k / 32)).map (·.phase.onCore)) == some true
  gs.foldl (fun (n : Nat) (k, _) =>
    let more := (adds.filter fun a => gkey a.1 a.2.1 == k).foldl (fun (m : Nat) a => m + a.2.2) 0
    n + (groupSyms s (k / 32) (k % 32) + more - 4)) 0

/-- Whether an issuer's request for entries can be met: from its groups' own entries, or from the shared ones once every request
made before it has been (R193). -/
def symRoom (s : State) (core : Nat) (r : IRef) (adds : List (Nat × Nat × Nat)) : Bool :=
  let first := ((s.core core).symQ.takeWhile fun x => x != r).all fun x => ((s.issuer? x).map fun i => i.wait == .pend) != some true
  (adds.all fun a => a.2.2 == 0 || decide (groupSyms s a.1 a.2.1 + a.2.2 ≤ 4)) || (first && decide (symShared s core adds ≤ 512))

/-- An issuer's request for entries is kept in order while it waits, and leaves when it has been met (R193). -/
def symAsk (s : State) (core : Nat) (r : IRef) (waits : Bool) : State :=
  if waits then s.modCore core fun c => { c with symQ := if c.symQ.contains r then c.symQ else c.symQ ++ [r] }
  else if (s.core core).symQ.contains r then s.modCore core fun c => { c with symQ := c.symQ.filter (· != r) }
  else s

/-! ### Issue -/

/-- Kinds whose destination quad may take a tag with the value (R101). -/
def OpKind.bringsTag : OpKind → Bool
  | .loadCap | .lds 16 => true
  | _ => false

/-- What an outstanding operation does at issue: its class, kind, destination registers, operands, uniform sources to
free, and whether a wide scope holds its members until translation has passed. -/
structure Issue where
  cls : Nat
  per : Per := .lane
  kind : OpKind
  dst : Option (BitVec 6 × Nat)
  ops : List Opd
  us : List (RSrc × Nat) := []
  hold : Bool
  slot : Nat := 0
  stride : Nat := 0
  deriving DecidableEq, Repr

def Issue.d (I : Issue) : Dst :=
  match I.dst with
  | some (a, k) => .r a k
  | none => .none

/-- Give every 2^PPER-th memory request of the context on a core a probe header (R340). -/
def probeMark (s : State) (b core : Nat) (k : OpKind) (q : LReq) : LReq × State :=
  match ctxOf s b with
  | none => (q, s)
  | some c =>
    let d := c.dbg.toNat
    if bit d 576 && s.sandbox.isNone && k.probeKind != 0 then
      let n := tgetD c.probes core 0 + 1
      ({ q with probe := n % 2 ^ bits d 581 577 == 0 }, s.modCtx (pasidOf s b) fun c => { c with probes := tset c.probes core n })
    else (q, s)

/-- The entry of a log for a request: at a retired count, for a lane. A retryable fault is none: the request went on after it. -/
def LogEnt.answers (rc lane : Nat) : LogEnt → Bool
  | .value r _ l _ _ _ => r == rc && l == lane
  | .fault r l code => r == rc && l == lane && !retryable code
  | _ => false

/-- Mark a view's re-execution as one that has asked for something else than its log holds (R337). -/
def diverge (s : State) : State := { s with sandbox := s.sandbox.map fun log => .sync (2 ^ 32) :: log }

/-- Remove the first entry that meets a test. -/
def takeFirst (f : LogEnt → Bool) : List LogEnt → Option (LogEnt × List LogEnt)
  | [] => none
  | e :: r => if f e then some (e, r) else (takeFirst f r).map fun x => (x.1, e :: x.2)

/-- The log kinds of results that a block takes from outside it at once (Table 27.2); the last is the room that `chstat` finds at
another block or a port. -/
def kRd : Nat := 8
def kOpreq : Nat := 9
def kMtrq : Nat := 10
def kChstat : Nat := 11

/-- A value that a block takes from outside: logged, or in a view taken from the log, whose next entry it must be (R335, R337). -/
def logged (s : State) (b kind lane addr v : Nat) : Nat × State :=
  match s.sandbox with
  | none => (v, logAdd s b (.value (rcOf s b) kind lane addr v false))
  | some log =>
    match takeFirst (LogEnt.answers (rcOf s b) lane) log with
    | some (.value _ k _ a v' _, rest) => if k == kind && a == addr then (v', { s with sandbox := some rest }) else (v, diverge s)
    | _ => (v, diverge s)

/-- A request of a view's re-execution takes the logged value of its position, which leaves the log; one that differs from the log in
kind, lane or address marks the view diverged (R337). One without an entry had no answer before the stop. -/
def replayReq (s : State) (rc g : Nat) (k : OpKind) (q : LReq) : LReq × State :=
  match s.sandbox with
  | none => (q, s)
  | some log =>
    match k with
    | .lds _ => (q, s)
    | k =>
      match takeFirst (LogEnt.answers rc (64 * g + q.lane)) log with
      | some (.value _ kind _ addr v t, rest) =>
        if kind == k.logKind && addr == q.x then ({ q with ph := .done, val := v, vtag := t }, { s with sandbox := some rest }) else (q, diverge s)
      | some (.fault _ _ code, rest) => ({ q with ph := .faulted code }, { s with sandbox := some rest })
      | _ => (q, s)

/-- Create the operations of an issue, one for each group. -/
def createOps (I : Issue) (s : State) (c : Cur) (reqs : List (Nat × List LReq)) (hold : Bool) : List Nat × State :=
  let (order, s) := s.fresh
  let core := homeOf s c.blk
  let B := blockOf s c.blk
  reqs.foldl (fun (ids, s) (g, qs) =>
    let nd := match I.dst with
      | some (_, k) => k
      | none => 0
    let (id, s) := s.fresh
    let (qs, s) := qs.foldl (fun (acc, s) q =>
      let q := { q with time := s.reft }
      let (q, s) := if I.kind.probeKind = 6 then (q, s) else probeMark s c.blk core I.kind q
      let (q, s) := replayReq s (rcOf s c.blk) g I.kind q
      (acc ++ [q], s)) (([] : List LReq), s)
    let syms := (List.range nd).map (s.nextId + ·)
    let o : Op := { kind := I.kind, blk := c.blk, gidx := g, dst := I.dst.map (·.1), syms, closed := false
                    lanes := qs, wide := if hold then some c.e else none, addr := c.addr, idx := c.idx, e := c.e, core
                    slot := I.slot, stride := I.stride, iv := (B.map (·.iv)).getD 0, rc := (B.map (·.rc)).getD 0, order }
    (ids ++ [id], { s with nextId := s.nextId + nd, ops := tset s.ops id o })) ([], s)

/-- Passes of a scratchpad instruction (R128): the active lanes by element index and word offset, in portions of 32, 16
or 8 lanes by access width. -/
def passes (n : Nat) (els : List (Nat × Nat)) : Nat :=
  let p := if n ≤ 4 then 32 else if n = 8 then 16 else 8
  let portions := (els.map fun e => e.1 / p).dedup
  portions.foldl (fun t q =>
    let ws := ((els.filter fun e => e.1 / p == q).flatMap fun e => (List.range (cdiv n 4)).map (e.2 / 4 + ·)).dedup
    t + ((List.range 32).map fun bank => (ws.filter fun w => w % 32 == bank).length).foldl max 0) 0

/-- Charge the passes of an access by a block. -/
def chargePasses (s : State) (b n : Nat) (els : List (Nat × Nat)) : State :=
  let (acct, la) := acctOf s b
  if weight s (dieOf (homeOf s b)) (s.die (dieOf (homeOf s b))).step 0x38 = 0 then s
  else charge s (dieOf (homeOf s b)) 0x38 (passes n els) acct la

/-- Passes of a block's scratchpad access, or lines read from the weight store, charged (R128, R298). -/
def chargeLds (s : State) (I : Issue) (ids : List Nat) : State :=
  match I.kind with
  | .lds n =>
    let os := ids.filterMap fun k => tget? s.ops k
    (match os with
     | o :: _ => chargePasses s o.blk n (os.flatMap fun o => o.lanes.map fun q => (64 * o.gidx + q.lane, q.x))
     | [] => s)
  | .wld _ =>
    let os := ids.filterMap fun k => tget? s.ops k
    (match os with
     | o :: _ =>
       let die := dieOf o.core
       let (acct, la) := acctOf s o.blk
       charge s die 0x3B ((os.flatMap fun o => o.lanes.map fun q => q.x / 64).dedup).length acct la
     | [] => s)
  | _ => s

/-- The issue takes effect: sources are consumed, counters rise, destinations hold their symbols, and the word
retires. A view's re-execution sends nothing (R337). -/
def commitOps (I : Issue) (s : State) (c : Cur) (ids : List Nat) : Out :=
  let s := chargeLds (freeS (consume s c I.ops) c I.us) I ids
  let s := ids.foldl (fun s k =>
    match tget? s.ops k with
    | none => s
    | some o =>
      -- a view keeps what its log completes: loads, copies and oloads (R337)
    if s.sandbox.isSome && (o.kind.ctr == .st || o.kind == .get) then { s with ops := tdel s.ops k } else
      let ls := o.lanes.map (·.lane)
      let s := raiseCtr s o.blk o.gidx ls o.kind.ctr
      -- a copy that has passed translation now starts
      let s := s.modOp k fun o =>
        { o with wide := none
                 lanes := if o.kind.isMem then o.lanes else o.lanes.map fun q =>
                   if q.ph == .xlated then { q with ph := .sent, parts := [] } else q }
      match o.dst with
      | some d =>
        let rs := o.syms.mapIdx fun j σ => (d.toNat + j, σ)
        s.modGroup o.blk o.gidx fun G =>
          let G := (rs.foldl (fun G (r, σ) => ls.foldl (fun G l => G.putCell r l (.aff σ 1#32 0#32)) G) G).dirty (rs.map (·.1))
          if o.kind.bringsTag then ls.foldl (fun G l => G.awaitTag (d.toNat / 4) l) G else G
      | none => s) s
  done I.cls I.per s

/-- The operations of this word that a wide scope holds until translation has passed. -/
def heldOps (s : State) (c : Cur) : List (Nat × Op) :=
  s.ops.filter fun (_, o) => o.blk == c.blk && o.wide == some c.e && o.addr == c.addr && o.idx == c.idx && c.act.any fun a => a.1 == o.gidx

/-- Past translation in full, at this package and at the home package of its span, or performed. -/
def Ph.passed : Ph → Bool
  | .xlated | .done => true
  | _ => false

/-- A block whose save has begun and that is not restored yet (R295). -/
def saveBegun (s : State) (b : Nat) : Bool :=
  match tget? s.blocks b with
  | some B => B.phase != .resident && B.phase != .draining
  | none => true

/-- Go on with a held word: a fault found in translation is taken under R35 and nothing remains of the issue; when every
request has passed, the issue takes effect. A fill held so far is issued only then: a target whose save has begun faults
WIN_TARGET (R295). -/
def resumeHeld (I : Issue) (s : State) (c : Cur) (held : List (Nat × Op)) : Out :=
  let fs : List LFault := held.flatMap fun (_, o) => o.lanes.filterMap fun q =>
    match q.ph with
    | .faulted code => some ⟨o.gidx, q.lane, code, if 0x10 ≤ code && code ≤ 0x1B then q.x else 0⟩
    | _ => if o.kind == .mcast && q.targets.any (saveBegun s) then some ⟨o.gidx, q.lane, Code.winTarget, 0⟩ else none
  if held.any fun (_, o) => o.lanes.any fun q => q.ph == .sent || q.ph == .remote then .next (block .xlate s)
  else if !fs.isEmpty then
    let found := held.findSome? fun (_, o) => o.lanes.findSome? fun q => match q.ph with
      | .faulted _ => some q.ftime
      | _ => none
    .next { wideFault { chargeFault c.elems s with ops := s.ops.filter fun (k, _) => !(held.map (·.1)).contains k } c fs found with cur := none }
  else if held.all fun (_, o) => o.lanes.all fun q => q.ph.passed then commitOps I s c (held.map (·.1))
  else .next (block .xlate s)

/-- Issue an operation for every lane of the active set. `build` makes a lane's request from its operands, or gives the
fault that its checks meet, with the fault's DATA. -/
def issueOp (I : Issue) (build : Group → Nat → List Word → Except (Nat × Nat) LReq) (s : State) : Out :=
  match s.cur with
  | none => .next s
  | some c =>
    if c.empty then .next (retire s)
    else
      let held := heldOps s c
      if !held.isEmpty then resumeHeld I s c held
      else match ready? s c I.ops I.d false with
      | some o => o
      | none =>
        let built : List (Nat × List (Nat × Except (Nat × Nat) LReq)) := (readOps s c I.ops).map fun (g, ls) =>
          (g, ls.map fun (l, xs) => (l, match s.grp? c.blk g with
            | some G => build G l (xs.map VCell.word)
            | none => .error (0, 0)))
        let faults : List LFault := built.flatMap fun (g, ls) => ls.filterMap fun (l, r) => match r with
          | .error (code, d) => some ⟨g, l, code, d⟩
          | .ok _ => none
        if !faults.isEmpty then faultSome faults s
        else
          let reqs := built.map fun (g, ls) => (g, ls.filterMap fun (_, r) => match r with | .ok q => some q | .error _ => none)
          let nd := match I.dst with | some (_, k) => k | none => 0
          let wide := c.e != .lane
          let core := homeOf s c.blk
          let me : IRef := c.arr.headD ⟨c.blk, c.lead, 0⟩
          if wide && !symRoom s core me (reqs.map fun (g, _) => (c.blk, g, nd)) then .next (block .pend (symAsk s core me true))
          else
            let s := symAsk s core me false
            let hold := I.hold && wide && s.sandbox.isNone
            let (ids, s) := createOps I s c reqs hold
            -- in a view a fault that translation found while the unit was held is the unit's
            let bad := ids.any fun k => (tget? s.ops k).any fun o => o.lanes.any fun q => match q.ph with | .faulted _ => true | _ => false
            if hold then .next (block .xlate s)
            else if I.hold && wide && bad then
              resumeHeld I s c (ids.filterMap fun k => (tget? s.ops k).map fun o =>
                (k, { o with lanes := o.lanes.map fun q => if q.ph == .sent then { q with ph := .xlated } else q }))
            else commitOps I s c ids

/-! ### Scratchpad (R127, R128) -/

/-- Alignment and bounds of a scratchpad access, or the fault. -/
def spmCheck (s : State) (b x n align : Nat) : Except (Nat × Nat) Unit :=
  if x % align ≠ 0 then .error (Code.spmAlign, 0)
  else if (((tget? s.blocks b).map (·.spmLen)).getD 0) < x + n then .error (Code.spmBounds, 0)
  else .ok ()

/-- Store bytes into a block's scratchpad. -/
def spmStore (s : State) (b x : Nat) (bs : List Byte) : State := modSpm s b fun m => m.write x bs

def spmStoreCap (s : State) (b x : Nat) (bs : List Byte) (t : Bool) : State := modSpm s b fun m => m.writeCap x bs t

/-- A lane's store is unfenced until the next `mfence` (R147); what the bytes held before is kept with it. -/
def spmUnfenced (s : State) (b g l x n : Nat) : State :=
  s.modBlock b fun B => { B with spmDirty :=
    if (B.spmDirty.any fun d => d.1 == 64 * g + l && d.2.1 == x && d.2.2.1 == n) = true then B.spmDirty
    else (64 * g + l, x, n, leNat (B.spm.read x n)) :: B.spmDirty }

/-- Bytes that others write into a block's scratchpad are logged (R335). -/
def spmFrom (s : State) (b x : Nat) (bs : List Byte) : State :=
  raceRings (logAdd (spmStore s b x bs) b (.bytes (rcOf s b) x bs false)) b x bs.length

/-! ### Place table and cluster windows (R66, R67, R130 to R132, R326) -/

/-- Look a place up: its UNIT, when the entry is valid and of the kind. -/
def placeUnit (s : State) (b place kind : Nat) : Option Nat :=
  let e := ((ctxOf s b).map fun c => (tgetD c.places place 0#32).toNat).getD 0
  if bit e 31 && bits e 19 16 == kind then some (bits e 11 0) else none

/-- The block with a cluster-unit index in a block's own cluster unit. -/
def clusterPeer (s : State) (b i : Nat) : Option Nat :=
  match tget? s.blocks b with
  | none => none
  | some B =>
    let g := s.gridOf B
    (s.blocks.find? fun (_, T) => T.grid == B.grid && T.serves.isNone && T.bidx / (g.clug * g.gngb) == B.bidx / (g.clug * g.gngb) &&
      g.cuIndex T.bidx == i).map (·.1)

/-- The target of a window address by PLACE and SLOT (R131, R132): PLACE_FAULT, WIN_TARGET or WIN_TICKET otherwise. -/
def windowTarget (s : State) (b place slot : Nat) : Except Nat Nat :=
  match placeUnit s b place 1 with
  | none => .error Code.placeFault
  | some n =>
    if 32 ≤ n then .error Code.winTarget
    else match clusterPeer s b (32 * slot + n) with
      | none => .error Code.winTarget
      | some t =>
        if sameTicket s t b then .ok t
        else .error Code.winTicket

/-- The checks of R132 on a window access of n bytes with its local offset. -/
def windowCheck (s : State) (b wa loc n : Nat) : Except (Nat × Nat) Nat :=
  match windowTarget s b (bits wa 31 24) (bits wa 23 20) with
  | .error code => .error (code, wa)
  | .ok t =>
    let lenOf (x : Nat) : Nat := ((tget? s.blocks x).map (·.spmLen)).getD 0
    if lenOf t < bits wa 19 0 + n ∨ lenOf b < loc + n then .error (Code.winBounds, wa) else .ok t

/-- A put or get may be performed: no earlier put of the lane to the same target is outstanding (R133). -/
def windowTurn (s : State) (o : Op) (q : LReq) : Bool :=
  s.ops.all fun (_, a) => a.blk != o.blk || a.gidx != o.gidx || o.order ≤ a.order || a.kind != .put || o.kind != .put ||
    a.lanes.all fun p => p.lane != q.lane || p.targets != q.targets

end Sys2Proof.Machine
end

