-- ==== Sys2Proof/Machine/Mem.lean ====
section
/-!
DEFINITION. The MEM class (Table 15.1; R201 to R226): loads, stores, the weight store, the scratchpad, windows, atomics,
ordering, capabilities, channels and the span query.
-/

namespace Sys2Proof.Machine

/-! ### Loads and stores (R205 to R210) -/

/-- CapCheck of a capability operand and displacement, giving a request of n bytes. -/
def capReq (l : Nat) (k : Cap) (d : Int) (n need : Nat) : Except (Nat × Nat) LReq :=
  match capCheck k d n need with
  | .error e => .error e
  | .ok x => .ok { req0 l with cap := k, x, n }

/-- A load of n bytes into k registers. -/
def loadOp (n : Nat) (sgn : Bool) (a : BitVec 6) (k : Nat) (b : RSrc) (c : VSrc) (s : State) : Out :=
  issueOp { cls := 0x20, kind := .load n sgn, dst := some (a, k), ops := [.r b 4, .v c], hold := true }
    (fun G l xs => capReq l (capAt G l b xs 0) (xs.getD 4 0#32).toInt n Perm.r) s

/-- A store of the low n bytes of a data operand of w registers. -/
def storeOp (n : Nat) (data : Opd) (w : Nat) (b : RSrc) (c : VSrc) (s : State) : Out :=
  issueOp { cls := 0x21, kind := .store n, dst := none, ops := [data, .r b 4, .v c], hold := true }
    (fun G l xs => do
      let q ← capReq l (capAt G l b xs w) (xs.getD (w + 4) 0#32).toInt n Perm.w
      return { q with data := wordsNat (xs.take w) % 2 ^ (8 * n) }) s

/-- R208. -/
def execLdS8 (_e : Scope) (a : BitVec 6) (b : RSrc) (c : VSrc) (s : State) : Out :=
  loadOp 1 true a 1 b c s

/-- R208. -/
def execLdN8 (_e : Scope) (a : BitVec 6) (b : RSrc) (c : VSrc) (s : State) : Out :=
  loadOp 1 false a 1 b c s

/-- R208. -/
def execLdS16 (_e : Scope) (a : BitVec 6) (b : RSrc) (c : VSrc) (s : State) : Out :=
  loadOp 2 true a 1 b c s

/-- R208. -/
def execLdN16 (_e : Scope) (a : BitVec 6) (b : RSrc) (c : VSrc) (s : State) : Out :=
  loadOp 2 false a 1 b c s

/-- R208. -/
def execLdB32 (_e : Scope) (a : BitVec 6) (b : RSrc) (c : VSrc) (s : State) : Out :=
  loadOp 4 false a 1 b c s

/-- R208. -/
def execLdB64 (_e : Scope) (a : BitVec 6) (b : RSrc) (c : VSrc) (s : State) : Out :=
  loadOp 8 false a 2 b c s

/-- R208. -/
def execLdB128 (_e : Scope) (a : BitVec 6) (b : RSrc) (c : VSrc) (s : State) : Out :=
  loadOp 16 false a 4 b c s

/-- R210. -/
def execLdc (_e : Scope) (a : BitVec 6) (b : RSrc) (c : VSrc) (s : State) : Out :=
  issueOp { cls := 0x20, kind := .loadCap, dst := some (a, 4), ops := [.r b 4, .v c], hold := true }
    (fun G l xs => do
      let q ← capReq l (capAt G l b xs 0) (xs.getD 4 0#32).toInt 16 Perm.r
      if q.x % 16 ≠ 0 then .error (Code.capAlign, q.x) else return q) s

/-- R209. -/
def execStB8 (_e : Scope) (a : VSrc) (b : RSrc) (c : VSrc) (s : State) : Out :=
  storeOp 1 (.v a) 1 b c s

/-- R209. -/
def execStB16 (_e : Scope) (a : VSrc) (b : RSrc) (c : VSrc) (s : State) : Out :=
  storeOp 2 (.v a) 1 b c s

/-- R209. -/
def execStB32 (_e : Scope) (a : VSrc) (b : RSrc) (c : VSrc) (s : State) : Out :=
  storeOp 4 (.v a) 1 b c s

/-- R209. -/
def execStB64 (_e : Scope) (a b : RSrc) (c : VSrc) (s : State) : Out :=
  storeOp 8 (.r a 2) 2 b c s

/-- R209. -/
def execStB128 (_e : Scope) (a b : RSrc) (c : VSrc) (s : State) : Out :=
  storeOp 16 (.r a 4) 4 b c s

/-- R210, R107: a tagged value needs SC, and GLB of its own. -/
def execStc (_e : Scope) (a b : RSrc) (c : VSrc) (s : State) : Out :=
  issueOp { cls := 0x21, kind := .storeCap, dst := none, ops := [.r a 4, .r b 4, .v c], hold := true }
    (fun G l xs => do
      let v := capAt G l a xs 0
      let q ← capReq l (capAt G l b xs 4) (xs.getD 8 0#32).toInt 16 (if v.tag then Perm.w + Perm.sc else Perm.w)
      if q.x % 16 ≠ 0 then .error (Code.capAlign, q.x)
      else if v.tag && !v.has Perm.glb then .error (Code.capGlobal, q.x)
      else return { q with data := v.n, tag := v.tag }) s

/-! ### The weight store (R136, R138, R211, R320) -/

/-- The mask of word j of a line, a being the line's number (R320). -/
def maskWord (sk : BitVec 128) (a j : Nat) : Word :=
  let key (i : Nat) : Word := sk.extractLsb' (32 * (i % 4)) 32
  let x := (BitVec.ofNat 32 a ^^^ key j) + BitVec.ofNat 32 (j * 0x01000193) + BitVec.ofNat 32 (bits a 33 32 * 0x9E3779B9)
  let x := x ^^^ (x >>> 15)
  let x := x * 0x2C1B3C6D#32
  let x := x ^^^ (x >>> 12)
  x ^^^ key (j + 1)

/-- The mask byte at an address under a world's scramble key. -/
def maskByte (sk : BitVec 128) (h : Nat) : Byte := (maskWord sk (h / 64) (h % 64 / 4)).extractLsb' (8 * (h % 4)) 8

def worldKey (s : State) (w : Nat) : BitVec 128 := ((tget? s.worlds w).map (·.sk)).getD 0#128

/-- The key under which a world reads a line of a weight store: the one that the line was filled under if that is the world's, also
one of before its last key release, and otherwise the world's own, which then yields masked bytes (R320). -/
def wsKey (s : State) (die w line : Nat) : BitVec 128 :=
  match tget? (s.die die).wsSk line, tget? s.worlds w with
  | some k, some W => if W.sks.contains k then k else W.sk
  | _, _ => worldKey s w

/-- The key under which a world's fill of n bytes from an offset masks a line that it touches: a line filled in part keeps the key that
its other bytes stand under. -/
def fillKey (s : State) (die w off n line : Nat) : BitVec 128 :=
  if off ≤ 64 * line ∧ 64 * line + 64 ≤ off + n then worldKey s w else wsKey s die w line

/-- Bytes of a die's weight store as a world reads them. -/
def wsRead (s : State) (die w off n : Nat) : List Byte :=
  (List.range n).map fun i => cellsGet (s.die die).ws (off + i) ^^^ maskByte (wsKey s die w ((off + i) / 64)) (off + i)

/-- A line as the LLC's array holds it, masked under its owner's key (R320). -/
def llcLine (s : State) (l : Nat) : List Byte :=
  let key := worldKey s ((tget? s.mem.owner (l / 2 ^ 15)).getD 0)
  (physRead s (64 * l) 64).mapIdx fun i x => x ^^^ maskByte key (64 * l + i)

/-- A line of the LLC as a world reads it: its own mask is removed (R320). -/
def llcRead (s : State) (world l : Nat) : List Byte := (llcLine s l).mapIdx fun i x => x ^^^ maskByte (worldKey s world) (64 * l + i)

/-- The weight window of the core a block runs on: first byte and length (Table 9.2). -/
def wsWindow (s : State) (b : Nat) : Nat × Nat :=
  let p := (s.core (homeOf s b)).pmlim.toNat
  (bits p 24 16 * 2 ^ 20, bits p 34 25 * 2 ^ 20)

/-- The bank of a die offset (R138). -/
def wsBank (off : Nat) : Nat := bits off 16 12

/-- A poisoned line of a weight store that n bytes from an offset touch (R330). -/
def wsBadLine (s : State) (die off n : Nat) : Option Nat := (linesOf off n).find? fun l => (s.die die).wsBad.contains l

/-- A poisoned line is never delivered: the accessing context stops, and the event names the line (R322). -/
def wsEvent (s : State) (die line pasid : Nat) : State := integrity s 2 die 0 (some pasid) (64 * line)

/-- Reads of poisoned lines among the operations issued since an identifier stay without a value. -/
def wsCheck (s : State) (from_ : Nat) : State :=
  s.ops.foldl (fun s (k, o) =>
    match o.kind with
    | .wld _ =>
      if o.order < from_ then s
      else
        let die := dieOf o.core
        let base := (wsWindow s o.blk).1
        o.lanes.foldl (fun s q => match wsBadLine s die (base + q.x) q.n with
          | some l => wsEvent (s.modOp k fun o => o.modReq q.lane fun q => { q with ph := .sent }) die l (pasidOf s o.blk)
          | none => s) s
    | _ => s) s

/-- A weight-store read of n bytes. A bank under refresh stalls it. -/
def wldOp (n : Nat) (a : BitVec 6) (k : Nat) (b c : VSrc) (s : State) : Out :=
  match s.cur with
  | none => .next s
  | some cu =>
    let from_ := s.nextId
    let o := issueOp { cls := 0x23, kind := .wld n, dst := some (a, k), ops := [.v b, .v c], hold := false }
      (fun _ l xs =>
        let y := (xs.getD 0 0#32).toNat + (xs.getD 1 0#32).toNat
        let (base, len) := wsWindow s cu.blk
        let die := dieOf (homeOf s cu.blk)
        if y % n ≠ 0 then .error (Code.spmAlign, 0)
        else if len < y + n then .error (Code.wsBounds, 0)
        else
          let stall := (s.die die).refresh == some (wsBank (base + y))
          .ok { req0 l with x := y, n, ph := if stall then .sent else .done
                            val := leNat (wsRead s die (worldOf s cu.blk) (base + y) n) }) s
    match o with
    | .next s => .next (wsCheck s from_)
    | o => o

/-- R211. -/
def execWldB32 (_e : Scope) (a : BitVec 6) (b c : VSrc) (s : State) : Out :=
  wldOp 4 a 1 b c s

/-- R211. -/
def execWldB128 (_e : Scope) (a : BitVec 6) (b c : VSrc) (s : State) : Out :=
  wldOp 16 a 4 b c s

/-! ### The scratchpad (R127 to R129, R212) -/

/-- Charge a scratchpad instruction's passes from its first operand that holds the offset. -/
def spmPasses (n : Nat) (ops : List Opd) (at_ : Nat) (s : State) : State :=
  match s.cur with
  | none => s
  | some c => chargePasses s c.blk n ((readOps s c ops).flatMap fun (g, ls) => ls.map fun (l, xs) =>
      (64 * g + l, (xs.map VCell.word |>.getD at_ 0#32).toNat))

/-- A scratchpad load: performed at issue, its value arrives later (assumption 24). -/
def ldsOp (n : Nat) (a : BitVec 6) (k : Nat) (b : VSrc) (s : State) : Out :=
  match s.cur with
  | none => .next s
  | some cu =>
    if acquiresPending s cu.blk cu.elems then .next (block .rel s) else
    issueOp { cls := 0x24, kind := .lds n, dst := some (a, k), ops := [.v b], hold := false }
      (fun _ l xs => do
        let x := (xs.getD 0 0#32).toNat
        spmCheck s cu.blk x n n
        let m := blockSpm s cu.blk
        let v := leNat (m.read x n)
        let tag := n == 16 && (sweepCheck s (pasidOf s cu.blk) ⟨BitVec.ofNat 128 v, m.tag x⟩).tag
        return { req0 l with x, n, ph := .done, val := v, vtag := tag }) s

/-- A scratchpad store: written at issue, in ascending element order (R129; assumption 24). `w` registers of data come
first. -/
def stsOp (n : Nat) (data : Opd) (w : Nat) (b : VSrc) (s : State) : Out :=
  match s.cur with
  | none => .next s
  | some c =>
    if c.empty then .next (retire s)
    else if acquiresPending s c.blk c.elems then .next (block .rel s)
    else match ready? s c [data, .v b] .none false with
      | some o => o
      | none =>
        let vals := readOps s c [data, .v b]
        let els : List (Nat × Nat × List Word) := vals.flatMap fun (g, ls) => ls.map fun (l, xs) => (g, l, xs.map VCell.word)
        let faults : List LFault := els.filterMap fun (g, l, xs) =>
          match spmCheck s c.blk (xs.getD w 0#32).toNat n n with
          | .error (code, d) => some ⟨g, l, code, d⟩
          | .ok _ => none
        if !faults.isEmpty then faultSome faults s
        else
          let s' := spmPasses n [data, .v b] w s
          -- ST rises for each lane, and falls as the lane's element is written (Table 3.3)
          let s' := els.foldl (fun s' (g, l, _) => raiseCtr s' c.blk g [l] .st) (consume s' c [data, .v b])
          let s' := els.foldl (fun s' (g, l, xs) =>
            let x := (xs.getD w 0#32).toNat
            let v := wordsNat (xs.take w)
            let s' := lowerCtr (raceRings (spmUnfenced s' c.blk g l x n) c.blk x n) c.blk g [l] .st
            if n = 16 then
              let tag := match data, s.grp? c.blk g with
                | .r r _, some G => G.vtag (r.n.toNat / 4) l
                | _, _ => false
              spmStoreCap s' c.blk x (natBytes 16 v) (sweepCheck s (pasidOf s c.blk) ⟨BitVec.ofNat 128 v, tag⟩).tag
            else spmStore s' c.blk x (natBytes n v)) s'
          done 0x24 .lane s'

/-- R212. -/
def execLdsB32 (_e : Scope) (a : BitVec 6) (b : VSrc) (s : State) : Out :=
  ldsOp 4 a 1 b s

/-- R212. -/
def execLdsB64 (_e : Scope) (a : BitVec 6) (b : VSrc) (s : State) : Out :=
  ldsOp 8 a 2 b s

/-- R212. -/
def execLdsB128 (_e : Scope) (a : BitVec 6) (b : VSrc) (s : State) : Out :=
  ldsOp 16 a 4 b s

/-- R212. -/
def execStsB32 (_e : Scope) (a b : VSrc) (s : State) : Out :=
  stsOp 4 (.v a) 1 b s

/-- R212. -/
def execStsB64 (_e : Scope) (a : RSrc) (b : VSrc) (s : State) : Out :=
  stsOp 8 (.r a 2) 2 b s

/-- R212. -/
def execStsB128 (_e : Scope) (a : RSrc) (b : VSrc) (s : State) : Out :=
  stsOp 16 (.r a 4) 4 b s

/-! ### Windows (R130 to R133, R213) -/

/-- A put or get. A put reads its local bytes at issue. -/
def windowOp (kind : OpKind) (a b c : VSrc) (s : State) : Out :=
  match s.cur with
  | none => .next s
  | some cu =>
    if acquiresPending s cu.blk cu.elems then .next (block .rel s) else
    issueOp { cls := 0x25, kind, dst := none, ops := [.v a, .v b, .v c], hold := false }
      (fun _ l xs => do
        let wa := (xs.getD 0 0#32).toNat
        let loc := (xs.getD 1 0#32).toNat
        let n := (xs.getD 2 0#32).toNat
        let t ← windowCheck s cu.blk wa loc n
        if loc % 4 ≠ 0 ∨ bits wa 19 0 % 4 ≠ 0 ∨ n % 4 ≠ 0 then .error (Code.spmAlign, 0)
        else if n < 4 ∨ 4096 < n then .error (Code.winBounds, wa)
        else return { req0 l with x := loc, x2 := bits wa 19 0, n, targets := [t], ticket := BitVec.ofNat 32 wa
                                  data := leNat ((blockSpm s cu.blk).read loc n) }) s

/-- R213. -/
def execPut (_e : Scope) (a b c : VSrc) (s : State) : Out :=
  windowOp .put a b c s

/-- R213. -/
def execGet (_e : Scope) (a b c : VSrc) (s : State) : Out :=
  windowOp .get a b c s

/-! ### Atomics (R214, R215) -/

/-- The operand field of an atomic: a pair at 64 bits, a vector value otherwise. -/
def atomOpd (t : Ty) (d : VSrc) : Opd :=
  match d with
  | .reg n last => if t = .b64 then .r ⟨n, last⟩ 2 else .v d
  | .chan _ _ => .v d

/-- An atomic of Table 15.5. `cas` reads A as its comparand first. One that releases parks the lanes that hold an operation which
met a terminal fault (R198, R207). -/
def atomicOp (op : Nat) (cas : Bool) (t : Ty) (o : AOrd) (a : BitVec 6) (b : RSrc) (c d : VSrc) (s : State) : Out :=
  let k := if t = .b64 then 2 else 1
  let n := 4 * k
  let w := if cas then k else 0
  let bad := match s.cur with
    | some cu =>
      if (o == .rel || o == .ar) && (heldOps s cu).isEmpty && !(faultedOf s cu.blk cu.elems fun _ => true).isEmpty then
        faultedOf s cu.blk (cu.withPeers s).elems fun _ => true
      else []
    | none => []
  if !bad.isEmpty then .next (block .rel (parkLate s ((s.cur.map (·.blk)).getD 0) bad))
  else
  issueOp { cls := 0x22, kind := .atomic op t o, dst := some (a, k)
            ops := (if cas then [Opd.old a k] else []) ++ [.r b 4, .v c, atomOpd t d], hold := true }
    (fun G l xs => do
      let q ← capReq l (capAt G l b xs w) (xs.getD (w + 4) 0#32).toInt n (Perm.r + Perm.w + Perm.at')
      if q.x % n ≠ 0 then .error (Code.memAlign, 0)
      else return { q with data := wordsNat (xs.drop (w + 5)), data2 := wordsNat (xs.take w) }) s

/-- R214. -/
def execAadd (_e : Scope) (ty : Ty) (o : AOrd) (a : BitVec 6) (b : RSrc) (c d : VSrc) (s : State) : Out :=
  atomicOp 0 false ty o a b c d s

/-- R214. -/
def execAmin (_e : Scope) (ty : Ty) (o : AOrd) (a : BitVec 6) (b : RSrc) (c d : VSrc) (s : State) : Out :=
  atomicOp 1 false ty o a b c d s

/-- R214. -/
def execAmax (_e : Scope) (ty : Ty) (o : AOrd) (a : BitVec 6) (b : RSrc) (c d : VSrc) (s : State) : Out :=
  atomicOp 2 false ty o a b c d s

/-- R214. -/
def execAand (_e : Scope) (ty : Ty) (o : AOrd) (a : BitVec 6) (b : RSrc) (c d : VSrc) (s : State) : Out :=
  atomicOp 3 false ty o a b c d s

/-- R214. -/
def execAor (_e : Scope) (ty : Ty) (o : AOrd) (a : BitVec 6) (b : RSrc) (c d : VSrc) (s : State) : Out :=
  atomicOp 4 false ty o a b c d s

/-- R214. -/
def execAxor (_e : Scope) (ty : Ty) (o : AOrd) (a : BitVec 6) (b : RSrc) (c d : VSrc) (s : State) : Out :=
  atomicOp 5 false ty o a b c d s

/-- R214. -/
def execAxchg (_e : Scope) (ty : Ty) (o : AOrd) (a : BitVec 6) (b : RSrc) (c d : VSrc) (s : State) : Out :=
  atomicOp 6 false ty o a b c d s

/-- R214. -/
def execAcas (_e : Scope) (ty : Ty) (o : AOrd) (a : BitVec 6) (b : RSrc) (c d : VSrc) (s : State) : Out :=
  atomicOp 7 true ty o a b c d s

/-! ### Ordering (R141, R145, R216) -/

/-- An acquire of the active set: it follows the lanes' earlier atomics. -/
def acquireOp (go : State → Cur → Out) (s : State) : Out :=
  match s.cur with
  | none => .next s
  | some c =>
    if c.empty then .next (retire s)
    else if atomicsDone s c.blk c.elems then go (acquireNow s c) c
    else .next (block .rel s)

/-- A release of the active set. -/
def releaseOp (go : State → Cur → Out) (s : State) : Out :=
  match s.cur with
  | none => .next s
  | some c => if c.empty then .next (retire s) else releaseThen go s

/-- R216. -/
def execAcquire (_e : Scope) (s : State) : Out := acquireOp (fun s _ => done 0x26 .issue s) s

/-- R216. -/
def execRelease (_e : Scope) (s : State) : Out := releaseOp (fun s _ => done 0x26 .issue s) s

/-- R216: a release, then an acquire. -/
def execFence (_e : Scope) (s : State) : Out := releaseOp (fun s c => done 0x26 .issue (acquireNow s c)) s

/-! ### Capabilities (R217 to R220) -/

/-- An instruction that writes one capability to a quad of each active lane, after the sweep's check. -/
def quadOp (cls : Nat) (a : BitVec 6) (ops : List Opd) (us : List (RSrc × Nat)) (f : Group → Nat → List Word → Cap) (s : State) : Out :=
  match s.cur with
  | none => .next s
  | some c =>
    if c.empty then .next (retire s)
    else match ready? s c ops (.r a 4) false with
      | some o => o
      | none =>
        let p := pasidOf s c.blk
        let res : List (Nat × List (Nat × Cap)) := (readOps s c ops).map fun (g, ls) =>
          match s.grp? c.blk g with
          | some G => (g, ls.map fun (l, xs) => (l, sweepCheck s p (f G l (xs.map VCell.word))))
          | none => (g, [])
        let s' := res.foldl (fun s (g, ls) => s.modGroup c.blk g fun G =>
          (ls.foldl (fun G (l, k) => G.putQuad a.toNat l k) G).dirty ((List.range 4).map (a.toNat + ·)))
          (freeS (consume s c ops) c us)
        done cls .lane s'

/-- A derivation from the quad B and the pair C, read as a signed 64-bit value. -/
def deriveOp (a : BitVec 6) (b c : RSrc) (f : Cap → Int → Cap) (s : State) : Out :=
  quadOp 0x27 a [.r b 4, .r c 2] [] (fun G l xs =>
    f (capAt G l b xs 0) ((xs.getD 5 0#32 ++ xs.getD 4 0#32 : DWord).toInt)) s

/-- R217. -/
def execCbnd (_e : Scope) (a : BitVec 6) (b c : RSrc) (s : State) : Out :=
  deriveOp a b c (fun k v => derive k .bnd v) s

/-- R217: the source is A itself. -/
def execCperm (_e : Scope) (a : BitVec 6) (i : BitVec 12) (s : State) : Out :=
  quadOp 0x27 a [Opd.old a 4] [] (fun G l xs => derive (capAt G l ⟨a, false⟩ xs 0) .perm i.toNat) s

/-- R217. -/
def execCadd (_e : Scope) (a : BitVec 6) (b c : RSrc) (s : State) : Out :=
  deriveOp a b c (fun k v => derive k .add v) s

/-- R217. -/
def execCset (_e : Scope) (a : BitVec 6) (b c : RSrc) (s : State) : Out :=
  deriveOp a b c (fun k v => derive k .set v) s

/-- R217: set, then seal. -/
def execCseal (_e : Scope) (a : BitVec 6) (b c : RSrc) (s : State) : Out :=
  deriveOp a b c (fun k v => derive (derive k .set v) .sealOp 0) s

/-- R218. -/
def execCmov (_e : Scope) (a : BitVec 6) (b : RSrc) (s : State) : Out :=
  quadOp 0x27 a [.r b 4] [] (fun G l xs => capAt G l b xs 0) s

/-- Table 15.6. -/
def cgetField (k : Cap) (sel : Nat) : Nat :=
  match sel with
  | 0 => k.cur
  | 1 => k.cur / 2 ^ 32
  | 2 => k.base
  | 3 => k.base / 2 ^ 32
  | 4 => k.top
  | 5 => k.top / 2 ^ 32
  | 6 => k.perm
  | _ => k.obn + k.ogen * 2 ^ 28

/-- R219. -/
def execCget (_e : Scope) (a : VDst) (b : RSrc) (sel : BitVec 3) (s : State) : Out :=
  laneOp 0x27 a [.r b 4] (fun G l xs => BitVec.ofNat 32 (cgetField (capAt G l b xs 0) sel.toNat)) s

/-- R220. -/
def execCtag (_e : Scope) (a : BitVec 3) (b : RSrc) (c : VSrc) (s : State) : Out :=
  predOp 0x27 a [.r b 4, .v c] (fun G l xs =>
    let k := capAt G l b xs 0
    k.tag && k.wellFormed && k.has (bits (xs.getD 4 0#32).toNat 11 0)) s

/-- R218: a uniform pair to a quad of each active lane. -/
def execCbcast (_e : Scope) (a : BitVec 6) (b : RSrc) (s : State) : Out :=
  match s.cur with
  | none => .next s
  | some c => let k := c.srcPair s b; quadOp 0x27 a [] [(b, 2)] (fun _ _ _ => k) s

/-! ### Channels (R221 to R225) -/

/-- Lanes of a group that wait on a channel fault (R225, R223). -/
def faultWaiters (s : State) (b g c code : Nat) : State :=
  match s.grp? b g with
  | none => s
  | some G => G.issuers.foldl (fun s k =>
      match s.issuer? ⟨b, g, k⟩ with
      | some i => if i.wait == .chan (BitVec.ofNat 6 c) then faultWaiting s ⟨b, g, k⟩ code (· == g) else s
      | none => s) s

/-- Unbind a channel (R225): the elements it held, for the kinds with a region. Waiting lanes fault; a receiver's
senders fault CHAN_PEER. -/
def freeChan (s : State) (b g c : Nat) : Nat × State :=
  match (s.grp? b g).bind fun G => tget? G.chans c with
  | none => (0, s)
  | some ch =>
    let n := if ch.kind = 2 ∨ ch.kind = 5 then 0 else (ringCtl s b ch.off).count
    let s := s.modGroup b g fun G => { G with chans := tdel G.chans c }
    let s := if ch.kind = 5 then
        { s with fqs := tmod s.fqs (fqKey ch.slot ch.rlen) FQueue.unbind }
      else s
    let s := faultWaiters s b g c Code.chanUnbound
    (n, if ch.kind = 3 then chanPeerGone s b (some ch.off) else s)

/-- The binding that a descriptor and a length describe, or its fault (R221, R223, R347). -/
def chanOf (s : State) (b : Nat) (G : Group) (c : Nat) (desc len : DWord) : Except Nat Chan :=
  let d := desc.toNat
  let n := len.toNat
  let kind := bits d 3 0
  let off := bits d 51 32
  let rlen := bits n 16 0
  let spmLen := ((tget? s.blocks b).map (·.spmLen)).getD 0
  let place := bits d 15 8
  let slot := bits d 19 16
  let ring := kind == 1 || kind == 3 || kind == 4 || kind == 6
  if kind = 0 ∨ 7 ≤ kind ∨ bits d 7 4 ≠ 0 ∨ bits d 31 20 ≠ 0 ∨ bits d 63 52 ≠ 0 ∨ bits n 63 17 ≠ 0 then .error Code.chanDesc
  else if kind = 5 then
    if off ≠ 0 ∨ slot ≠ 0 ∨ bits n 16 8 ≠ 0 ∨ 240 ≤ bits n 7 0 then .error Code.chanDesc
    else match placeUnit s b place 3 with
      | none => .error Code.placeFault
      | some port =>
        if (fabricQ s ⟨5, place, port, 0, bits n 7 0, none⟩).route.isNone then .error Code.chanDesc
        else .ok ⟨5, place, port, 0, bits n 7 0, none⟩
  else if off % 16 ≠ 0 ∨ rlen % 16 ≠ 0 ∨ rlen < 32 ∨ 65536 < rlen then .error Code.chanDesc
  else if ring && (place != 0 || slot != 0 || decide (spmLen < off + rlen)) then .error Code.chanDesc
  else if (kind == 4 || kind == 6) && G.chans.any (fun x => x.1 != c && x.2.kind == kind) then .error Code.chanDesc
  else if kind = 2 then
    match windowTarget s b place slot with
    | .error f => .error f
    | .ok t => if ((tget? s.blocks t).map (·.spmLen)).getD 0 < off + rlen then .error Code.winBounds else .ok ⟨2, place, slot, off, rlen, some t⟩
  else .ok ⟨kind, place, slot, off, rlen, none⟩

/-- A new ring holds no element that a store could have raced with. -/
def clearRaces (s : State) (b off rlen : Nat) : State :=
  s.modBlock b fun B => { B with ringDirty := B.ringDirty.filter fun e => e.1 < off || off + rlen ≤ e.1 }

/-- R221. -/
def execChbind (_e : Scope) (ch : BitVec 6) (b c : RSrc) (s : State) : Out :=
  match s.cur with
  | none => .next s
  | some cu =>
    if cu.empty then .next (retire s)
    else match s.grp? cu.blk cu.lead with
      | none => .next (retire s)
      | some G =>
        match chanOf s cu.blk G ch.toNat (cu.src s b) (cu.src s c) with
        | .error code => faultWord code 0 s
        | .ok x =>
          let (_, s) := freeChan (freeS s cu [(b, 1), (c, 1)]) cu.blk cu.lead ch.toNat
          let s := s.modGroup cu.blk cu.lead fun G => { G with chans := tset G.chans ch.toNat x }
          let s := if x.kind = 2 then s
            else if x.kind = 5 then
              { s with fqs := tset s.fqs (fqKey x.slot x.rlen) { fabricQ s x with bound := some (pasidOf s cu.blk) } }
            else putRingCtl (clearRaces s cu.blk x.off x.rlen) cu.blk x.off ⟨0, 0, (x.rlen - 16) / 4, 0⟩
          done 0x28 .issue s

/-- R225. -/
def execChfree (_e : Scope) (a ch : BitVec 6) (s : State) : Out :=
  match s.cur with
  | none => .next s
  | some c =>
    if c.empty then .next (retire s)
    else
      let (n, s) := freeChan s c.blk c.lead ch.toNat
      done 0x28 .issue (putUni s c a (BitVec.ofNat 64 n))

/-- The status word (Table 15.9). -/
def chanStatus (s : State) (b : Nat) (ch : Option Chan) : Nat :=
  match ch with
  | none => 0
  | some x =>
    let drop := if x.kind = 2 ∨ x.kind = 5 then 0 else (ringCtl s b x.off).drop
    field 31 0 (if x.kind = 2 then 0 else chanPresent s b x) +
      field 47 32 (if x.canSend then min 65535 (chanRoom s b x) else 0) + field 51 48 x.kind + field 59 52 drop

/-- R225. -/
def execChstat (_e : Scope) (a ch : BitVec 6) (s : State) : Out :=
  match s.cur with
  | none => .next s
  | some c =>
    if c.empty then .next (retire s)
    else
      let x := (s.grp? c.blk c.lead).bind fun G => tget? G.chans ch.toNat
      let v := chanStatus s c.blk x
      -- the room in another block's ring, and a port's credit, come from outside the block (R335)
      let (v, s) := if (x.any fun y => y.kind == 2 || y.kind == 5) = true then logged s c.blk kChstat (64 * c.lead) ch.toNat v else (v, s)
      done 0x28 .issue (putUni s c a (BitVec.ofNat 64 v))

/-! ### The span query (R226) -/

/-- R226. -/
def execSpanq (_e : Scope) (a : BitVec 6) (b : RSrc) (c : VSrc) (s : State) : Out :=
  issueOp { cls := 0x20, kind := .spanq, dst := some (a, 2), ops := [.r b 4, .v c], hold := true }
    (fun G l xs => capReq l (capAt G l b xs 0) (xs.getD 4 0#32).toInt 1 0) s

end Sys2Proof.Machine
end

