-- ==== Sys2Proof/Machine/Asy.lean ====
section
/-!
DEFINITION. The copy instructions of the ASY class (Table 15.2; R227 to R232) and the copy engine's part: one 64-byte
part of a copy, a multicast fill or an oload (R231, R274).
-/

namespace Sys2Proof.Machine

/-! ### Issue -/

/-- OBN of the weight window in copy commands (R110, R227). -/
def weightObn : Nat := 0xFFFFFFF

/-- The 64-byte parts of n bytes. -/
def partsOf (n : Nat) : List Nat := List.range (cdiv n 64)

/-- R227. A source range of the weight window that passes WSLEN: neither the checks of R227 nor Table 15.10 place its fault. The
model raises WS_BOUNDS at issue, after both capability checks (DESIGN CHOICE; assumption 79). -/
def execCpy (_e : Scope) (a b : RSrc) (c d : VSrc) (s : State) : Out :=
  match s.cur with
  | none => .next s
  | some cu =>
    issueOp { cls := 0x29, kind := .cpy, dst := none, ops := [.r a 4, .r b 4, .v c, .v d], hold := true }
      (fun G l xs => do
        let dst := capAt G l a xs 0
        let src := capAt G l b xs 4
        let n := (xs.getD 8 0#32).toNat
        if n < 1 ∨ 16777216 < n then .error (Code.copyLen, 0)
        else if dst.obn = weightObn then .error (Code.wsReadonly, 0)
        else
          let y ← capCheck dst 0 n (Perm.w + Perm.cpy)
          let x ← capCheck src 0 n (Perm.r + Perm.cpy)
          if src.obn = weightObn ∧ (wsWindow s cu.blk).2 < x + n then .error (Code.wsBounds, 0)
          else return { req0 l with cap := src, x, cap2 := dst, x2 := y, n, todo := partsOf n, ticket := xs.getD 9 0#32 }) s

/-- R228, into the scratchpad. -/
def execCpysIn (_e : Scope) (a : VSrc) (b : RSrc) (c d : VSrc) (s : State) : Out :=
  match s.cur with
  | none => .next s
  | some cu =>
    issueOp { cls := 0x29, kind := .cpysIn, dst := none, ops := [.v a, .r b 4, .v c, .v d], hold := true }
      (fun G l xs => do
        let off := (xs.getD 0 0#32).toNat
        let src := capAt G l b xs 1
        let n := (xs.getD 5 0#32).toNat
        if off % 4 ≠ 0 ∨ n % 4 ≠ 0 then .error (Code.spmAlign, 0)
        else if n < 4 then .error (Code.spmBounds, 0)
        else
          spmCheck s cu.blk off n 4
          let x ← capCheck src 0 n (Perm.r + Perm.cpy)
          return { req0 l with cap := src, x, x2 := off, n, todo := partsOf n, ticket := xs.getD 6 0#32 }) s

/-- R228, out of the scratchpad. -/
def execCpysOut (_e : Scope) (a : VSrc) (b : RSrc) (c d : VSrc) (s : State) : Out :=
  match s.cur with
  | none => .next s
  | some cu =>
    issueOp { cls := 0x29, kind := .cpysOut, dst := none, ops := [.v a, .r b 4, .v c, .v d], hold := true }
      (fun G l xs => do
        let off := (xs.getD 0 0#32).toNat
        let dst := capAt G l b xs 1
        let n := (xs.getD 5 0#32).toNat
        if off % 4 ≠ 0 ∨ n % 4 ≠ 0 then .error (Code.spmAlign, 0)
        else if n < 4 then .error (Code.spmBounds, 0)
        else
          spmCheck s cu.blk off n 4
          let y ← capCheck dst 0 n (Perm.w + Perm.cpy)
          return { req0 l with x := off, cap2 := dst, x2 := y, n, todo := partsOf n, ticket := xs.getD 6 0#32 }) s

/-- The blocks of a block's gang by rank. -/
def gangPeer (s : State) (b r : Nat) : Option Nat :=
  match tget? s.blocks b with
  | none => none
  | some B => let g := s.gridOf B; clusterPeer s b (g.cuIndex B.bidx / g.gngb * g.gngb + r)

/-- R229. Its window faults have DATA 0: Table 21.2 gives them the window address, and an `mcast` has none (DESIGN CHOICE;
assumption 80). -/
def execMcast (_e : Scope) (a : VSrc) (b : RSrc) (c d : VSrc) (s : State) : Out :=
  match s.cur with
  | none => .next s
  | some cu =>
    issueOp { cls := 0x29, kind := .mcast, dst := none, ops := [.v a, .r b 4, .v c, .v d], hold := true }
      (fun G l xs => do
        let off := (xs.getD 0 0#32).toNat
        let src := capAt G l b xs 1
        let n := (xs.getD 5 0#32).toNat
        let m := (xs.getD 6 0#32).toNat
        let ranks := below 32 fun r => bit m r
        let ts := ranks.filterMap fun r => gangPeer s cu.blk r
        if m / 2 ^ 16 ≠ 0 ∨ m = 0 ∨ ranks.any (fun r => (gridOfB s cu.blk).gngb ≤ r) ∨ ts.length ≠ ranks.length ∨ ts.any (saveBegun s) then
          .error (Code.winTarget, 0)
        else if ts.any fun t => !sameTicket s t cu.blk then
          .error (Code.winTicket, 0)
        else if off % 4 ≠ 0 ∨ n % 4 ≠ 0 then .error (Code.spmAlign, 0)
        else if n < 4 ∨ 65536 < n ∨ ts.any (fun t => ((tget? s.blocks t).map (·.spmLen)).getD 0 < off + n) then
          .error (Code.winBounds, 0)
        else
          let x ← capCheck src 0 n (Perm.r + Perm.cpy)
          return { req0 l with cap := src, x, x2 := off, n, todo := partsOf n, ticket := xs.getD 6 0#32, targets := ts }) s

/-- Whether a copy of a lane with a ticket is outstanding (R232). -/
def copyOut (s : State) (b g l : Nat) (t : Word) : Bool :=
  s.ops.any fun (_, o) => o.blk == b && o.gidx == g && o.kind.ctr == .cp && o.lanes.any fun q => q.lane == l && q.ticket == t

/-- R232: charged for each issue (Table 23.1). -/
def execCpyq (_e : Scope) (a : VDst) (b : VSrc) (s : State) : Out :=
  match s.cur with
  | none => .next s
  | some c =>
    -- lanes of one group share the answer's state, which the group of each active lane gives
    if c.empty then .next (retire s)
    else match ready? s c [.v b] (.v a) false with
      | some o => o
      | none =>
        let res := (readOps s c [.v b]).map fun (g, ls) =>
          (g, ls.map fun (l, xs) => (l, VCell.val (if copyOut s c.blk g l (xs.headD (.val 0#32)).word then 0#32 else 1#32)))
        done 0x27 .issue (writeCells (consume s c [.v b]) c.blk a res)

/-! ### The engine's part -/

/-- A context whose bucket is empty, or that is stopped, starts no further part (R274). -/
def ctxRuns (s : State) (pasid : Nat) : Bool :=
  match tget? s.ctxs pasid with
  | some c => !c.halted && decide (0 < c.level)
  | none => false

/-- Bytes of 16-byte granules with the tags they carry: offset in the destination, bytes, tag. -/
structure Piece where
  off : Nat
  bs : List Byte
  tag : Bool
  deriving DecidableEq, Repr

/-- Cut the bytes of a part into pieces at the granules of the destination; a whole granule may carry a tag. -/
def cutPieces (dst : Nat) (bs : List Byte) (aligned : Bool) (tagOf : Nat → Bool) : List Piece :=
  if aligned then
    (List.range (cdiv bs.length 16)).map fun i =>
      let p := (bs.drop (16 * i)).take 16
      ⟨dst + 16 * i, p, p.length == 16 && tagOf i⟩
  else [⟨dst, bs, false⟩]

/-- A copy's write to memory: registered at the home with no core as owner of the words (R146). -/
def copyWrite (s : State) (h : Nat) (bs : List Byte) (tag : Bool) : State :=
  let s := if tag then physWriteCap s h bs true else physWrite s h bs
  { s with mem := { s.mem with wordOwner := (wordsOf h bs.length).foldl (fun t w => tdel t w) s.mem.wordOwner } }

/-- The host address of offset v among parts that begin at offset x; none where another package holds it. -/
def hostOf (parts : List (Nat × Nat × Nat)) (x v : Nat) : Option Nat :=
  (parts.foldl (fun (acc : Nat × Option Nat) p =>
    -- (bytes passed, host address found)
    (acc.1 + p.2.1, if acc.1 ≤ v - x ∧ v - x < acc.1 + p.2.1 ∧ !farPart p then some (p.1 + (v - x - acc.1)) else acc.2)) (0, none)).2

/-- Write pieces over the parts translated for offset x on that are held here. -/
def writePieces (s : State) (parts : List (Nat × Nat × Nat)) (x : Nat) (ps : List Piece) : State :=
  ps.foldl (fun s p =>
    match (if p.tag then hostOf parts x p.off else none) with
    | some h => copyWrite s h p.bs true
    | none => (p.bs.mapIdx fun i y => (p.off + i, y)).foldl (fun s (v, y) => match hostOf parts x v with
      | some h => copyWrite s h [y] false
      | none => s) s) s

/-- The earlier accesses of a lane are done: its stores have registered (R146, R252), and what a copy writes comes after its loads and
its window transfers too (R142). -/
def storesDone (s : State) (o : Op) (lanes : List Nat) : Bool :=
  s.ops.all fun (_, a) => a.blk != o.blk || a.gidx != o.gidx || o.order ≤ a.order || !(a.kind.isMem || a.kind.isWindow) ||
    a.lanes.all fun p => !lanes.contains p.lane || p.ph.settled

/-- Send a part of a copy or an oload to another package: it goes to the head of those to come, and waits for its answer. -/
def waitRemote (s : State) (k lane part : Nat) (f : LReq → LReq) : State :=
  let s := match tget? s.ops k with
    | some o => chargeFab s o
    | none => s
  s.modOp k fun o => o.modReq lane fun q =>
    { f q with ph := .remote, todo := part :: q.todo.filter (· != part), ks := curSlot s (worldOf s o.blk), sent := s.reft }

/-- Whether both places of a copy are aligned to granules, so that it moves tags (R108, R230): judged once, for the command as a whole
(DEDUCED, assumption 104). -/
def copyAligned (q : LReq) : Bool := q.x % 16 == 0 && q.x2 % 16 == 0

/-- Whether the two ranges of a copy in memory lie in one object and overlap (R227). -/
def selfCopy (k : OpKind) (q : LReq) : Bool :=
  k == .cpy && q.cap.obn == q.cap2.obn && q.cap.ogen == q.cap2.ogen && q.cap.obn != weightObn && overlap q.x q.n q.x2 q.n

/-- The bytes of a copy that a part moves: where they begin in the copy, and how many. The 64-byte parts are cut between words of
a destination in memory, so that none is written in two (R146). -/
def partRange (k : OpKind) (q : LReq) (part : Nat) : Nat × Nat :=
  let a := if k = .cpy ∨ k = .cpysOut then q.x2 % 4 else 0
  let lo := if part = 0 then 0 else 64 * part - a
  let hi := if cdiv q.n 64 ≤ part + 1 then q.n else 64 * (part + 1) - a
  (lo, hi - lo)

/-- The source bytes that a part reads: its own, with the rest of the copy's bytes in the words at its ends, so that no word is
read in two (R146). -/
def readRange (q : LReq) (src m : Nat) : Nat × Nat :=
  let lo := max q.x (src / 4 * 4)
  (lo, min (q.x + q.n) ((src + m + 3) / 4 * 4) - lo)

/-- Where a source byte that was read for a word shared with another part is kept. -/
def edgeKey (v : Nat) : Nat := 2 ^ 64 + v

/-- Charge a part's scratchpad passes (R128, R228), 16 words at once. -/
def chargePart (s : State) (b x m : Nat) : State := chargePasses s b 4 ((List.range (cdiv m 4)).map fun i => (i, x + 4 * i))

/-- Charge what a part's access to translated memory causes (R298). -/
def chargeParts (s : State) (o : Op) (parts : List (Nat × Nat × Nat)) : State :=
  parts.foldl (fun s p => if farPart p then s else chargeAccess s o.blk o.core p.1 p.2.1 false true p.2.2) s

/-- A part of a copy has been written: it is charged (R202). -/
def finishPart (s : State) (k : Nat) (o : Op) (lane part : Nat) : State :=
  let (acct, la) := acctOf s o.blk
  let s := charge s (dieOf o.core) 0x3F 1 acct la
  s.modOp k fun o => o.modReq lane fun q =>
    { q with todo := q.todo.filter (· != part), ph := .sent, val := 0, data := 0, data2 := 0, parts := [] }

/-- Write a part's pieces over the parts of memory that are here; where the copy overlaps itself, what the destination held is
kept first (R227). -/
def landPart (s : State) (k lane dst : Nat) (parts : List (Nat × Nat × Nat)) (ps : List Piece) : State :=
  match (tget? s.ops k).bind fun o => (o.req? lane).map fun q => (o, q) with
  | none => s
  | some (o, q) =>
    let s := if selfCopy o.kind q then
        let n := parts.foldl (fun n p => n + p.2.1) 0
        let fresh := (List.range n).filterMap fun i =>
          (hostOf parts dst (dst + i)).bind fun h => if (tget? q.old (dst + i)).isNone then some (dst + i, h) else none
        let tags := (fresh.filter fun v => v.1 % 16 == 0 && physTag s v.2).map fun v => v.1 / 16
        s.modOp k fun o => o.modReq lane fun q =>
          { q with old := fresh.foldl (fun t v => tset t v.1 (physByte s v.2)) q.old, oldTags := q.oldTags ++ tags }
      else s
    writePieces s parts dst ps

/-- Put a part of a copy where it goes: its bytes with the tag of each granule. A destination on another package needs FAB in its
capability, and so does a tag that goes there (R109, R227). -/
def placePart (s : State) (k : Nat) (o : Op) (q : LReq) (part : Nat) (bs : List Byte) (tagOf : Nat → Bool) (cached : Bool) : State :=
  let pasid := pasidOf s o.blk
  let st := (partRange o.kind q part).1
  let dst := q.x2 + st
  let aligned := copyAligned q
  match o.kind with
  | .cpysIn | .mcast =>
    let ps := cutPieces dst bs aligned fun i =>
      pieceTag s pasid ((bs.drop (16 * i)).take 16) (tagOf i && q.cap.has Perm.lc) 0
    let ts := if o.kind = .mcast then q.targets else [o.blk]
    let s := if o.kind = .cpysIn then chargePart s o.blk dst bs.length else s
    finishPart (ts.foldl (fun s t => ps.foldl (fun s p =>
      if p.tag then raceRings (logAdd (spmStoreCap s t p.off p.bs true) t (.bytes (rcOf s t) p.off p.bs true)) t p.off 16
      else spmFrom s t p.off p.bs) s) s) k o q.lane part
  | _ =>
    let tagged (need i : Nat) : Bool :=
      pieceTag s pasid ((bs.drop (16 * i)).take 16) (tagOf i && q.cap2.has Perm.sc && (o.kind == .cpysOut || q.cap.has Perm.lc)) need
    match translate s (dieOf o.core) pasid q.cap2 dst bs.length true cached with
    | .fault code s => faultReq s k o q.lane code dst
    | .remote _ parts s =>
      if q.cap2.has Perm.fab then
        let need (i : Nat) : Nat := if (hostOf parts dst (dst + 16 * i)).isSome then Perm.glb else Perm.glb + Perm.fab
        let tags := (List.range 4).foldl (fun n i => n + if aligned && tagged (need i) i then 2 ^ i else 0) 0
        waitRemote s k q.lane part fun q => { q with val := 1, parts, data := leNat bs, data2 := tags }
      else faultReq s k o q.lane Code.capPerm dst
    | .ok parts s =>
      finishPart (landPart (chargeParts s o parts) k q.lane dst parts (cutPieces dst bs aligned (tagged Perm.glb))) k o q.lane part

/-- The source bytes of a part have been read, with those of the words at its ends: they go where the part goes. A copy that
overlaps itself takes each byte as it was before it wrote any (R227). -/
def gotSource (s : State) (k : Nat) (o : Op) (q : LReq) (part : Nat) (bs : List Byte) (tagOf : Nat → Bool) (cached : Bool) : State :=
  let (st, m) := partRange o.kind q part
  let src := q.x + st
  let (lo, len) := readRange q src m
  let byte (v : Nat) : Byte :=
    ((if selfCopy o.kind q then tget? q.old v else none).orElse fun _ => tget? q.old (edgeKey v)).getD (bs.getD (v - lo) 0#8)
  let edges := ((List.range len).map (lo + ·)).filter fun v => v < src || src + m ≤ v
  let old := edges.foldl (fun t v => tset t (edgeKey v) (byte v)) q.old
  let s := if edges.isEmpty then s else s.modOp k fun o => o.modReq q.lane fun q => { q with old }
  let tag (i : Nat) : Bool :=
    let v := src + 16 * i
    if selfCopy o.kind q && (tget? q.old v).isSome then q.oldTags.contains (v / 16) else tagOf i
  placePart s k o { q with old } part ((List.range m).map fun i => byte (src + i)) tag cached

/-- Perform one part of a copy: read its source, write its destination (R227 to R231). -/
def performPart (s : State) (k : Nat) (o : Op) (q : LReq) (part : Nat) (cached : Bool) : State :=
  let pasid := pasidOf s o.blk
  let (st, m) := partRange o.kind q part
  let src := q.x + st
  let (lo, len) := readRange q src m
  match o.kind with
  | .cpysOut =>
    let r := blockSpm s o.blk
    gotSource (chargePart s o.blk src m) k o q part (r.read lo len) (fun i => r.tag (src + 16 * i)) cached
  | _ =>
    if q.cap.obn = weightObn ∧ o.kind = .cpy then
      let base := (wsWindow s o.blk).1
      match wsBadLine s (dieOf o.core) (base + lo) len with
      | some l => wsEvent s (dieOf o.core) l pasid
      | none =>
        let (acct, la) := acctOf s o.blk
        let s := charge s (dieOf o.core) 0x3B (linesOf (base + src) m).length acct la
        gotSource s k o q part (wsRead s (dieOf o.core) (worldOf s o.blk) (base + lo) len) (fun _ => false) cached
    else match translate s (dieOf o.core) pasid q.cap lo len false cached with
      | .fault code s => faultReq s k o q.lane code src
      | .remote _ parts s =>
        if q.cap.has Perm.fab || o.kind == .mcast then waitRemote s k q.lane part fun q => { q with val := 0, parts }
        else faultReq s k o q.lane Code.capPerm src
      | .ok parts s =>
        match parts.findSome? fun (h, n, _) => badLine s h n with
        | some l => lineEvent s l pasid
        | none =>
          gotSource (chargeParts s o parts) k o q part (parts.flatMap fun (h, n, _) => physRead s h n)
            (fun i => physTag s ((hostOf parts lo (src + 16 * i)).getD 0)) cached

/-- The accesses that a part of a copy translates: its capability, its offset, and whether it is a write. -/
def partAccesses (o : Op) (q : LReq) (part : Nat) : List (Cap × Nat × Bool) :=
  let srcMem := o.kind != .cpysOut && !(o.kind == .cpy && q.cap.obn == weightObn)
  let dstMem := o.kind == .cpy || o.kind == .cpysOut
  let st := (partRange o.kind q part).1
  (if srcMem then [(q.cap, q.x + st, false)] else []) ++ if dstMem then [(q.cap2, q.x2 + st, true)] else []

/-- Translate the accesses of a part of m bytes in turn: the first fault with its offset, whether one of them goes to another
package, and the state. -/
def translateAll (s : State) (o : Op) (m : Nat) (cached : Bool) : List (Cap × Nat × Bool) → Bool → Option (Nat × Nat) × Bool × State
  | [], far => (none, far, s)
  | (k, x, w) :: r, far =>
    match translate s (dieOf o.core) (pasidOf s o.blk) k x m w cached with
    | .fault code s => (some (code, x), far, s)
    | .remote _ _ s => if k.has Perm.fab || o.kind == .mcast then translateAll s o m cached r true else (some (Code.capPerm, x), far, s)
    | .ok _ s => translateAll s o m cached r far

/-- The first fault that the parts of a held copy would meet now. -/
def copyFaultNow (s : State) (cached : Bool) (o : Op) (q : LReq) : Option (Nat × Nat) :=
  (partsOf q.n).findSome? fun p => (translateAll s o (partRange o.kind q p).2 cached (partAccesses o q p) false).1

/-- A part of a held copy or oload of n parts has passed translation. -/
def notePart (s : State) (k lane part n : Nat) : State :=
  s.modOp k fun o => o.modReq lane fun q =>
    let ps := if q.parts.any fun p => p.1 == part then q.parts else (part, 0, 0) :: q.parts
    { q with parts := ps, ph := if ps.length = n then .xlated else .sent }

/-- Translate every address of a part without performing it, for a held wide-scope copy (R207). A part that goes to another package
asks for its translation there. -/
def translatePart (s : State) (k : Nat) (o : Op) (q : LReq) (part : Nat) (cached : Bool) : State :=
  match translateAll s o (partRange o.kind q part).2 cached (partAccesses o q part) false with
  | (some (code, x), _, s) => faultIssue s k o q.lane code x (copyFaultNow s cached)
  | (none, true, s) => waitRemote s k q.lane part id
  | (none, false, s) => notePart s k q.lane part (partsOf q.n).length

/-- Post a completed copy's ticket to the group's copy completion ring (R224). -/
def postTicket (s : State) (o : Op) (t : Word) : State :=
  match (s.grp? o.blk o.gidx).bind fun G => G.chans.find? fun c => c.2.kind == 4 with
  | some (_, ch) =>
    let s := ringPost s o.blk ch.off [t]
    logAdd s o.blk (.bytes (rcOf s o.blk) ch.off ((blockSpm s o.blk).read ch.off ch.rlen) false)
  | none => s

end Sys2Proof.Machine
end

