-- ==== Sys2Proof/Machine/Mtx.lean ====
section
/-!
DEFINITION. Operand memory and the matrix instructions (Table 17.5; R247 to R262), the tile queue and what its
operations do when they run (R253 to R260), and undefined values of R147.
-/

namespace Sys2Proof.Machine

/-! ### Undefined values (R147) -/

/-- Words of the block's own data, from which undefined values are drawn beside zero. -/
def ownWordsOf (s : State) (b : Nat) : List Word :=
  ((s.groups.filter fun kg => kg.1 / 32 == b).flatMap fun (_, G) => G.v.flatMap fun (_, row) => row.filterMap fun (_, c) =>
      match c with | .val w => some w | _ => none) ++
    (match tget? s.blocks b with
     | none => []
     | some B => (B.tiles.flatMap fun (_, t) => t.el.flatMap fun (_, e) => [e.extractLsb' 0 32, e.extractLsb' 32 32]) ++
         (bytesWords ((B.slots.flatMap fun (_, t) => t).map (·.2))) ++ (bytesWords (B.spm.bytes.map (·.2))))

/-- An undefined value: a word of the block's own data or zero, by a free value (assumption 2). -/
def drawOwn (s : State) (b k : Nat) : Word :=
  let ws := ownWordsOf s b
  ws.getD (Config.freeNat k % (ws.length + 1)) 0#32

/-- Two undefined words. -/
def drawPair (s : State) (b k : Nat) : DWord := drawOwn s b k ++ drawOwn s b (k + 1)

/-! ### Slots, tiles, claims (R250, R251) -/

/-- Whether another block on a block's core holds a resource. A fold is not observed (R280): a folded block counts on its logical core,
beside the blocks of its grid that were placed on it, and on the core that it shares it meets none. -/
def heldElsewhere (s : State) (b : Nat) (slot : Bool) (i : Nat) : Bool :=
  let me := tget? s.blocks b
  s.blocks.any fun (k, B) => k != b && some B.core == me.map (·.core) && (some B.home == me.map (·.home) || some B.grid == me.map (·.grid)) &&
    (B.phase == .resident || B.phase == .draining || B.phase == .saving) &&
    (if slot then (tget? B.slots i).isSome else (tget? B.tiles i).isSome)

/-- The slots and tiles that an operation names in a block. -/
def opNames (t : TOp) (b : Nat) : List Nat × List Nat :=
  match t.kind with
  | .mpair as bs fbs tl _ _ _ _ _ _ fol =>
    ((if t.blk = b then [as, bs] else []) ++ (if fol = b then [fbs] else []), if t.blk = b ∨ fol = b then [tl] else [])
  | .accrd tl _ _ _ _ _ _ | .accwr tl _ _ _ _ _ | .accclr tl _ => ([], if t.blk = b then [tl] else [])

/-- Whether a queued or running operation, or an oload, names a slot or tile of a block. -/
def named (s : State) (b : Nat) (slots tiles : List Nat) : Bool :=
  (s.tops.any fun (_, t) => let (a, c) := opNames t b; a.any slots.contains || c.any tiles.contains) ||
    s.ops.any fun (_, o) => o.blk == b && o.kind == .oload && slots.contains o.slot

/-- A uniform instruction with an effect on the block: performed once, when an element is active. -/
def blockOp (cls : Nat) (us : List RSrc) (go : State → Cur → Except Nat State) (s : State) : Out :=
  match s.cur with
  | none => .next s
  | some c =>
    if c.empty then .next (retire s)
    else match go s c with
      | .error code => faultWord code 0 s
      | .ok s' => done cls .issue (freeS s' c (us.map fun r => (r, 1)))

def maskBits (n v : Nat) : List Nat := below n fun i => bit v i

/-- R250. -/
def execOclaim (_e : Scope) (a b : RSrc) (s : State) : Out :=
  blockOp 0x2C [a, b] (fun s c =>
    let ss := maskBits 32 (c.src s a).toNat
    let ts := maskBits 16 (c.src s b).toNat
    if ss.any (heldElsewhere s c.blk true) || ts.any (heldElsewhere s c.blk false) then .error Code.opBusy
    else .ok (s.modBlock c.blk fun B =>
      { B with slots := ss.foldl (fun t i => if (tget? t i).isSome then t else tset t i []) B.slots
               tiles := ts.foldl (fun t i => if (tget? t i).isSome then t else tset t i ⟨[], 0#16⟩) B.tiles })) s

/-- R250: waits until nothing of the block names what is released. -/
def execOrel (_e : Scope) (a b : RSrc) (s : State) : Out :=
  match s.cur with
  | none => .next s
  | some c =>
    let ss := maskBits 32 (c.src s a).toNat
    let ts := maskBits 16 (c.src s b).toNat
    if !c.empty && named s c.blk ss ts then .next (block .lim s)
    else blockOp 0x2C [a, b] (fun s c => .ok (s.modBlock c.blk fun B =>
      { B with slots := ss.foldl (fun t i => tdel t i) B.slots, tiles := ts.foldl (fun t i => tdel t i) B.tiles })) s

/-! ### oload (R252) -/

/-- R252: one operation for the issue, whose first lane carries it; TL rises for every active lane. The spec gives no order where
several checks fail: the model takes the alignment, then the capability or the bounds of the scratchpad, then MTX_DESC, then MTX_CLAIM
(DESIGN CHOICE, assumption 113). -/
def execOload (_e : Scope) (o : BitVec 5) (b c : RSrc) (src : Bool) (s : State) : Out :=
  match s.cur with
  | none => .next s
  | some cu =>
    let stride := (cu.src s c).toNat % 2 ^ 32
    let ext := 63 * stride + 128
    let chk : Except (Nat × Nat) (Cap × Nat) :=
      if src then
        let x := (cu.src s b).toNat % 2 ^ 32
        if x % 64 ≠ 0 then .error (Code.spmAlign, 0)
        else match spmCheck s cu.blk x ext 1 with
          | .error e => .error e
          | .ok _ => .ok (Cap.null, x)
      else
        let k := cu.srcPair s b
        if k.cur % 64 ≠ 0 then .error (Code.memAlign, 0)
        else match capCheck k 0 ext Perm.r with
          | .error e => .error e
          | .ok x => .ok (k, x)
    let slots := ((tget? s.blocks cu.blk).map (·.slots)).getD []
    let chk := chk.bind fun r =>
      if stride % 64 ≠ 0 ∨ stride < 128 ∨ 2 ^ 26 < stride then .error (Code.mtxDesc, 0)
      else if (tget? slots o.toNat).isNone then .error (Code.mtxClaim, 0)
      else .ok r
    let first := cu.elems.head?.map (·.2)
    issueOp { cls := 0x2D, per := .issue, kind := .oload, dst := none, ops := [], us := [(b, if src then 1 else 2), (c, 1)]
              hold := !src, slot := o.toNat, stride }
      (fun _ l _ =>
        match chk with
        | .error e => .error e
        | .ok (k, x) => .ok { req0 l with cap := k, x, n := 64, tag := src, ph := if some l = first then .sent else .done
                                          todo := if some l = first then List.range 128 else [] }) s

/-- Words of the scratchpad from x on as an unfenced read of some lanes may find them: each word as it is, or as a store of another
lane with no `mfence` since found it; a free value chooses (R146, R252). -/
def racedWords (s : State) (b x n : Nat) (mine : List Nat) (k : Nat) : List Byte :=
  let dirty := (((tget? s.blocks b).map (·.spmDirty)).getD []).filter fun d => !mine.contains d.1 && overlap x (4 * n) d.2.1 d.2.2.1
  (List.range n).flatMap fun i =>
    let w := x + 4 * i
    let now := (blockSpm s b).read w 4
    let olds := (dirty.filter fun d => overlap w 4 d.2.1 d.2.2.1).map fun d =>
      (List.range 4).map fun j => if d.2.1 ≤ w + j ∧ w + j < d.2.1 + d.2.2.1 then BitVec.ofNat 8 (d.2.2.2 / 256 ^ (w + j - d.2.1)) else now.getD j 0#8
    (now :: olds).getD (Config.freeNat (k + i) % (olds.length + 1)) now

/-- Where block p of an oload begins: it is the half of a line, half 0 first (Table 17.7). -/
def blockAt (o : Op) (q : LReq) (p : Nat) : Nat := q.x + p / 2 * o.stride + 64 * (p % 2)

/-- The bytes of a block of an oload have come; it is charged (R252). -/
def landBlock (s : State) (k : Nat) (o : Op) (lane p : Nat) (bs : List Byte) : State :=
  let (acct, la) := acctOf s o.blk
  let s := charge s (dieOf o.core) 0x3F 1 acct la
  s.modOp k fun o => o.modReq lane fun q =>
    { q with val := q.val + leNat bs * 2 ^ (512 * p), todo := q.todo.filter (· != p)
             ph := if (q.todo.filter (· != p)).isEmpty then .done else .sent }

/-- Read one block of an oload. -/
def loadBlock (s : State) (k : Nat) (o : Op) (q : LReq) (p : Nat) (cached : Bool) : State :=
  let x := blockAt o q p
  let mine := o.lanes.map fun q => 64 * o.gidx + q.lane
  if q.tag then
    let s := chargePart s o.blk x 64
    landBlock { s with free := s.free + 16 } k o q.lane p (racedWords s o.blk x 16 mine s.free)
  else
    let pasid := pasidOf s o.blk
    match translate s (dieOf o.core) pasid q.cap x 64 false cached with
    | .fault code s => faultReq s k o q.lane code x
    | .remote _ parts s => waitRemote s k q.lane p fun q => if o.wide.isSome then q else { q with parts }
    | .ok parts s =>
      if o.wide.isSome then notePart s k q.lane p 128
      else match parts.findSome? fun (h, n, _) => badLine s h n with
        | some l => lineEvent s l pasid
        | none => landBlock (chargeParts s o parts) k o q.lane p (parts.flatMap fun (h, n, _) => physRead s h n)

/-- The bytes of a slot from 128 blocks (Table 17.7): payloads of 62 bytes, then FMT and SCL of each. -/
def slotBytes (v : Nat) : Tab Byte :=
  let blk (p : Nat) : Nat := v / 2 ^ (512 * p) % 2 ^ 512
  let pay := (List.range 128).flatMap fun p => (List.range 62).map fun i => (62 * p + i, BitVec.ofNat 8 (blk p / 2 ^ (8 * (i + 2))))
  let hdr := (List.range 128).flatMap fun p =>
    [(7936 + 2 * p, BitVec.ofNat 8 (blk p)), (7937 + 2 * p, BitVec.ofNat 8 (blk p / 256))]
  (pay ++ hdr).filter fun e => e.2 != 0#8

/-- A queued operation whose slot is filled before its end takes undefined values (R147): everything where it is the A slot, the columns
of the slot's own core where it is a B slot (R255). -/
def TOp.spoil (t : TOp) (b slot : Nat) : TOp :=
  match t.kind with
  | .mpair as bs fbs _ _ _ _ _ _ _ fol =>
    let t := if t.blk = b ∧ as = slot then { t with unfenced := true } else t
    if (t.blk = b ∧ bs = slot) ∨ (fol = b ∧ fbs = slot) then { t with sides := ninsert t.sides b } else t
  | _ => t

/-- Fill an oload's slot (R252): the operation ends and TL falls. The slot is not fenced until the next `mfence`. -/
def fillSlot (s : State) (k : Nat) (o : Op) : State :=
  match o.lanes.find? fun q => decide (q.val ≠ 0) with
  | q? =>
    let v := (q?.map (·.val)).getD 0
    let (at_, s) := s.fresh
    let s := s.modBlock o.blk fun B =>
      { B with slots := if (tget? B.slots o.slot).isSome then tset B.slots o.slot (slotBytes v) else B.slots
               slotAt := tset B.slotAt o.slot at_ }
    let s := { s with tops := s.tops.map fun (i, t) => (i, TOp.spoil t o.blk o.slot) }
    lowerCtr { s with ops := tdel s.ops k } o.blk o.gidx (o.lanes.map (·.lane)) .tl

/-! ### Views (R258) -/

structure View where
  base : Nat
  rows : Nat
  cols : Nat
  elem : Nat
  deriving DecidableEq, Repr

def viewOf (v : DWord) : View := ⟨bits v.toNat 13 0, bits v.toNat 21 16 + 1, bits v.toNat 29 24 + 1, bits v.toNat 35 32⟩

def View.size (v : View) : Nat := if v.elem = 0 then 4 else if v.elem = 15 then 8 else 2

def View.valid (v : View) : Bool :=
  (v.elem == 0 || v.elem == 1 || v.elem == 2 || v.elem == 15) && v.base % v.size == 0 &&
    decide (v.base + v.rows * v.cols * v.size ≤ 16384)

/-- Register and lane of a byte of the register space. -/
def regByte (k : Nat) : Nat × Nat × Nat := (k / 256, k % 256 / 4, k % 4)

def View.at (v : View) (r c : Nat) : Nat := v.base + (r * v.cols + c) * v.size

/-- The registers that a view covers. -/
def View.regs (v : View) : List Nat :=
  (List.range 64).filter fun k => decide (256 * k < v.base + v.rows * v.cols * v.size) && decide (v.base < 256 * (k + 1))

/-- The type code of a view's ELEM (R258). -/
def tyCode : Ty → Nat := fun t => (eTy t).toNat

/-- Registers of a group that were written, and not fenced. -/
def viewDirty (s : State) (b g : Nat) (w : DWord) : Bool :=
  match s.grp? b g with
  | some G => (viewOf w).regs.any G.vDirty.contains
  | none => false

/-- Whether one of some uniform registers of a group was written, and not fenced (R147). -/
def uniDirty (s : State) (b g : Nat) (us : List Nat) : Bool :=
  match s.grp? b g with
  | some G => us.any fun r => G.sDirty.getLsbD r
  | none => false

/-- Whether the operands of a queued operation were written with no `mfence` since (R147): at its issue, or after it. -/
def TOp.unfencedNow (s : State) (t : TOp) : Bool := t.unfenced || uniDirty s t.blk t.gidx t.us

/-! ### mfence (R257) -/

/-- Whether a queued `accrd` of some lanes has yet to write its registers (R257). -/
def accrdLeft (s : State) (c : Cur) : Bool :=
  s.tops.any fun (_, t) => t.blk == c.blk && (match t.kind with | .accrd _ _ _ _ _ _ _ => true | _ => false) &&
    t.lanes.any fun (g, m) => c.act.any fun (g', m') => g == g' && m &&& m' != 0#64

/-- R257: the register writes of the model are performed at issue, but for those of an `accrd`, which the fence waits for as on a
`wait`; scratchpad stores are performed at issue. Writes made since the last fence are fenced. -/
def execMfence (_e : Scope) (s : State) : Out :=
  if (s.cur.map fun c => !c.empty && accrdLeft s c) == some true then .next (block .lim s)
  else blockOp 0x2C [] (fun s c =>
    -- registers written since an operation that reads them was queued make its values undefined (R147)
    let s := { s with tops := s.tops.map fun (i, (t : TOp)) => (i, match t.kind with
      | .accwr _ _ _ _ w _ => if t.blk == c.blk && (t.unfencedNow s || viewDirty s t.blk t.gidx w) then { t with unfenced := true } else t
      | _ => if t.blk == c.blk && t.unfencedNow s then { t with unfenced := true } else t) }
    let s := c.live.foldl (fun s g => s.modGroup c.blk g fun G => { G with vDirty := [], sDirty := 0#64 }) s
    let ls := c.elems.map fun (g, l) => 64 * g + l
    let (at_, s) := s.fresh
    .ok (s.modBlock c.blk fun B => { B with spmDirty := B.spmDirty.filter fun d => !ls.contains d.1, fenceAt := at_ })) s

/-! ### The tile queue (R253) -/

def tileOf (s : State) (b t : Nat) : Option Tile := (tget? s.blocks b).bind fun B => tget? B.tiles t

/-- Queue an operation for the lanes of the active set. -/
def enqueue (s : State) (c : Cur) (kind : TKind) (unfenced : Bool) (sides : List Nat) (us : List Nat) : State :=
  let (id, s) := s.fresh
  let (order, s) := s.fresh
  let s := c.act.foldl (fun s (g, m) => raiseCtr s c.blk g (lanesOf m) .tl) s
  let t : TOp := { kind, blk := c.blk, gidx := c.lead, lanes := c.act, running := false, unfenced := unfenced || uniDirty s c.blk c.lead us, sides,
                   start := 0, order, us }
  { s with tops := tset s.tops id t }.modCore (homeOf s c.blk) fun k => { k with tileQ := k.tileQ ++ [id] }

/-- A queue instruction: waits while the core's queue of 32 is full. In a view's re-execution as well, the operation is
the block's own. -/
def queueOp (cls : Option Nat) (us : List RSrc) (go : State → Cur → Except Nat (TKind × Bool × List Nat)) (s : State) : Out :=
  match s.cur with
  | none => .next s
  | some c =>
    if c.empty then .next (retire s)
    else if 32 ≤ (s.core (homeOf s c.blk)).tileQ.length then .next (block .lim s)
    else match go s c with
      | .error code => faultWord code 0 s
      | .ok (k, u, x) =>
        let s' := freeS (enqueue s c k u x (us.map fun r => r.n.toNat)) c (us.map fun r => (r, 1))
        match cls with
        | some n => done n .issue s'
        | none => .next (retire s')

/-- The follower's block that a place names (R254, R280): by its logical core. -/
def followerOf (s : State) (b unit t : Nat) : Except Nat Nat :=
  match tget? s.blocks b with
  | none => .error Code.mtxTarget
  | some B =>
    let g := s.gridOf B
    let core := B.core / 32 * 32 + unit
    if 32 ≤ unit ∨ core = B.core then .error Code.mtxTarget
    else match s.blocks.find? fun (k, T) => k != b && T.grid == B.grid && T.serves.isNone && T.bidx / g.gngb == B.bidx / g.gngb &&
        T.core == core && (tget? T.tiles t).isSome with
      | some (k, _) => if sameTicket s k b then .ok k else .error Code.winTicket
      | none => .error Code.mtxTarget

/-- Whether an operation that a leader issues reads undefined values from a slot of some block (R147): an oload still fills it, or has
filled it with no `mfence` since, of that block or of the leader. The notes' program has no `mfence` at the follower, whose slot is
fenced by the leader's (18_float_matrix_notes.md, lines 53 to 62 and 87 to 89; DEDUCED, assumption 43). -/
def slotOpen (s : State) (leader x slot : Nat) : Bool :=
  let fence (b : Nat) : Nat := ((tget? s.blocks b).map (·.fenceAt)).getD 0
  (s.ops.any fun (_, o) => o.blk == x && o.kind == .oload && o.slot == slot) ||
    decide (max (fence leader) (fence x) < tgetD (((tget? s.blocks x).map (·.slotAt)).getD []) slot 0)

/-- R254. -/
def execMpair (_e : Scope) (ty st : Ty) (a b : RSrc) (place : BitVec 8) (acc : Bool) (s : State) : Out :=
  queueOp none [a, b] (fun s c =>
    let d := (c.src s a).toNat
    let v := (c.src s b).toNat
    match placeUnit s c.blk place.toNat 2 with
    | none => .error Code.placeFault
    | some u =>
      let t := bits d 27 24
      match followerOf s c.blk u t with
      | .error code => .error code
      | .ok f =>
        let as := bits d 4 0
        let bs := bits d 12 8
        let fbs := bits d 20 16
        let has (x slot : Nat) : Bool := ((tget? s.blocks x).bind fun B => tget? B.slots slot).isSome
        if bits d 7 5 ≠ 0 ∨ bits d 15 13 ≠ 0 ∨ bits d 23 21 ≠ 0 ∨ bits d 63 31 ≠ 0 then .error Code.mtxDesc
        else if !has c.blk as || !has c.blk bs || (tileOf s c.blk t).isNone || !has f fbs then .error Code.mtxClaim
        else
          let sx := (tgetD (((tget? s.blocks c.blk).map (·.scl)).getD []) (bits d 30 28) 0)
          let sides := (if slotOpen s c.blk c.blk bs then [c.blk] else []) ++ (if slotOpen s c.blk f fbs then [f] else [])
          .ok (.mpair as bs fbs t sx (bits v 15 0) (bits v 31 16) acc ty st f, slotOpen s c.blk c.blk as, sides)) s

/-- The checks that `accrd` and `accwr` make at issue (R259). The spec gives no order where several fail: the model takes VIEW_BAD, then
ACC_BOUNDS, then MTX_CLAIM (DESIGN CHOICE, assumption 113). -/
def accCheck (s : State) (c : Cur) (v : BitVec 2) (tile : BitVec 4) (pos : DWord) (ty : Ty) : Except Nat (DWord × Nat × Nat × Nat) :=
  let w := ((s.grp? c.blk c.lead).map fun G => tgetD G.views v.toNat 0#64).getD 0#64
  let V := viewOf w
  let row := bits pos.toNat 21 16
  let col := bits pos.toNat 29 24
  if !V.valid || V.elem != tyCode ty then .error Code.viewBad
  else if 64 < row + V.rows ∨ 64 < col + V.cols then .error Code.accBounds
  else if (tileOf s c.blk tile.toNat).isNone then .error Code.mtxClaim
  else .ok (w, bits pos.toNat 15 0, row, col)

/-- The register lanes that a view covers, and whether it covers all four bytes of each. -/
def View.lanes (v : View) : List (Nat × Nat × Bool) :=
  let stop := v.base + v.rows * v.cols * v.size
  ((List.range 4096).filter fun k => decide (4 * k < stop) && decide (v.base < 4 * k + 4)).map fun k =>
    (k / 64, k % 64, decide (v.base ≤ 4 * k) && decide (4 * k + 4 ≤ stop))

/-- The register lanes of a view that are pending, with their symbols: all, or those it covers in part (R195). -/
def viewPend (s : State) (b g : Nat) (w : DWord) (whole : Bool) : List (Nat × Nat × Nat) :=
  match s.grp? b g with
  | none => []
  | some G => (viewOf w).lanes.filterMap fun (r, l, full) =>
      if whole || !full then (G.symOf r l).map fun σ => (g, l, σ) else none

/-- Pending register lanes that an `accrd` writes in part. -/
def partPend (s : State) (t : TOp) : List (Nat × Nat × Nat) :=
  match t.kind with
  | .accrd _ _ _ _ w _ _ => viewPend s t.blk t.gidx w false
  | _ => []

/-- Wait on pending register lanes of a view; the lanes that are active park where their operation is faulted (R195). -/
def blockView (s : State) (c : Cur) (ws : List (Nat × Nat × Nat)) : Out :=
  blockPend s c.blk (ws.filter fun x => c.elems.contains (x.1, x.2.1))

/-- Put bytes into the register space of a group: each register touched takes them as an integer write does. -/
def putView (G : Group) (k n v : Nat) : Group :=
  (List.range n).foldl (fun G i =>
    let (r, l, y) := regByte (k + i)
    let old := ((G.word? r l).getD 0#32).toNat
    G.putWord r l (BitVec.ofNat 32 (old - old / 2 ^ (8 * y) % 256 * 2 ^ (8 * y) + v / 256 ^ i % 256 * 2 ^ (8 * y)))) G

/-- What an `accrd` or `accwr` waits for, or the register limit it meets, before it enters the queue (R195, R270); none where it
may, and where a check of R259 fails first. -/
def accHeld (s : State) (c : Cur) (w : DWord) (reads : Bool) : Option Out :=
  let ws := viewPend s c.blk c.lead w reads
  if !ws.isEmpty then some (blockView s c ws)
  else if reads then none
  else match s.grp? c.blk c.lead, (viewOf w).regs with
    | some G, r :: rs =>
      if overLimit (gridOfB s c.blk).regs G [] (.r (BitVec.ofNat 6 r) (rs.length + 1)) [] then some (regLimit s [c.lead]) else none
    | _, _ => none

/-- R259. The registers hold undefined values until the operation completes (R147). -/
def execAccrd (_e : Scope) (ty : Ty) (m : Rnd) (v : BitVec 2) (tile : BitVec 4) (c : RSrc) (s : State) : Out :=
  match s.cur with
  | none => .next s
  | some cu =>
    let k := s.free
    let chk := accCheck s cu v tile (cu.src s c) ty
    let full := decide (32 ≤ (s.core (homeOf s cu.blk)).tileQ.length)
    let go (s : State) : Out := queueOp (some 0x2E) [c] (fun _ _ => chk.map fun (w, ver, row, col) =>
      (.accrd tile.toNat ver row col w ty m, false, [])) s
    match chk with
    | .error _ => go s
    | .ok (w, _, _, _) =>
      if cu.empty || full then go s
      else match accHeld s cu w false with
        | some o => o
        | none =>
          let V := viewOf w
          let s := { s with free := s.free + 8192 }
          go (s.modGroup cu.blk cu.lead fun G => (List.range (V.rows * V.cols)).foldl (fun G i =>
            putView G (V.base + i * V.size) V.size (drawPair s cu.blk (k + 2 * i)).toNat) G)

/-- R260. -/
def execAccwr (_e : Scope) (ty : Ty) (tile : BitVec 4) (v : BitVec 2) (c : RSrc) (s : State) : Out :=
  match s.cur with
  | none => .next s
  | some cu =>
    let go (s : State) : Out := queueOp (some 0x2E) [c] (fun s cu => (accCheck s cu v tile (cu.src s c) ty).map fun (w, ver, row, col) =>
      (.accwr tile.toNat ver row col w ty, viewDirty s cu.blk cu.lead w, [])) s
    match accCheck s cu v tile (cu.src s c) ty with
    | .error _ => go s
    | .ok (w, _, _, _) => if cu.empty then go s else (accHeld s cu w true).getD (go s)

/-- R260. -/
def execAccclr (_e : Scope) (tile : BitVec 4) (ver : BitVec 16) (s : State) : Out :=
  queueOp (some 0x2E) [] (fun s c =>
    if (tileOf s c.blk tile.toNat).isNone then .error Code.mtxClaim else .ok (.accclr tile.toNat ver.toNat, false, [])) s

/-- R261: waits until the tile's version has reached ver. -/
def execAccwt (_e : Scope) (tile : BitVec 4) (ver : BitVec 16) (s : State) : Out :=
  match s.cur with
  | none => .next s
  | some c =>
    match tileOf s c.blk tile.toNat with
    | some t => if !c.empty && decide (2 ^ 15 ≤ (t.ver - ver).toNat) then .next (block .lim s) else blockOp 0x2C [] (fun s _ => .ok s) s
    | none => blockOp 0x2C [] (fun _ _ => .error Code.mtxClaim) s

/-- R261. -/
def execAccver (_e : Scope) (a : BitVec 6) (tile : BitVec 4) (s : State) : Out :=
  blockOp 0x2C [] (fun s c =>
    match tileOf s c.blk tile.toNat with
    | some t => .ok (putUni s c a (BitVec.ofNat 64 t.ver.toNat))
    | none => .error Code.mtxClaim) s

/-! ### Scale registers (R262) -/

def sclOf (s : State) (b : Nat) (m : BitVec 3) : Int := tgetD (((tget? s.blocks b).map (·.scl)).getD []) m.toNat 0

def putScl (s : State) (b : Nat) (m : BitVec 3) (v : Int) : State :=
  s.modBlock b fun B => { B with scl := tput B.scl m.toNat (clampInt (-127) 127 v) 0 }

/-- R262. -/
def execSclwSet (_e : Scope) (m : BitVec 3) (b : RSrc) (s : State) : Out :=
  blockOp 0x2C [b] (fun s c => .ok (putScl s c.blk m (c.src s b).toInt)) s

/-- R262. -/
def execSclwAdd (_e : Scope) (m : BitVec 3) (b : RSrc) (s : State) : Out :=
  blockOp 0x2C [b] (fun s c => .ok (putScl s c.blk m (sclOf s c.blk m + (c.src s b).toInt))) s

/-- R262. -/
def execSclr (_e : Scope) (a : BitVec 6) (m : BitVec 3) (s : State) : Out :=
  blockOp 0x2C [] (fun s c => .ok (putUni s c a (BitVec.ofInt 64 (sclOf s c.blk m)))) s

/-! ### Running the queue's operations -/

/-- The tiles an operation touches, with the versions it expects: block, tile, version. -/
def TOp.tiles (t : TOp) : List (Nat × Nat × Nat) :=
  match t.kind with
  | .mpair _ _ _ tl _ vl vf _ _ _ fol => [(t.blk, tl, vl), (fol, tl, vf)]
  | .accrd tl ver _ _ _ _ _ | .accwr tl ver _ _ _ _ | .accclr tl ver => [(t.blk, tl, ver)]

/-- Every tile holds the version expected (R253). -/
def TOp.ready (s : State) (t : TOp) : Bool :=
  t.tiles.all fun (b, tl, ver) => match tileOf s b tl with
    | some x => x.ver.toNat == ver
    | none => false

/-- No operation that is running, and no earlier one that is ready, touches one of its tiles: ready operations on one tile are
performed in issue order, one after the other. -/
def TOp.first (s : State) (t : TOp) : Bool :=
  s.tops.all fun (_, u) => u.order == t.order || !(u.running || (decide (u.order < t.order) && u.ready s)) ||
    u.tiles.all fun (b, tl, _) => t.tiles.all fun (b', tl', _) => !(b == b' && tl == tl')

def isMpair : TKind → Bool
  | .mpair _ _ _ _ _ _ _ _ _ _ _ => true
  | _ => false

/-- The cores whose arrays an operation uses. -/
def TOp.cores (s : State) (t : TOp) : List Nat :=
  match t.kind with
  | .mpair _ _ _ _ _ _ _ _ _ _ fol => [homeOf s t.blk, homeOf s fol]
  | _ => []

/-- Whether an operation of the queue may start: its context's bucket is not empty, its tiles are ready, it is first on
them, and the arrays it needs are free (R253, R255, R256, R274). One of a block whose save has begun is saved with it (R263,
R279). -/
def startable (s : State) (t : TOp) : Bool :=
  !t.running && ctxRuns s (pasidOf s t.blk) && t.ready s && t.first s && (t.cores s).all (fun k => (s.core k).busy.isNone) &&
    t.tiles.all fun (b, _, _) => match tget? s.blocks b with
      | some B => B.phase == .resident || B.phase == .draining || (B.phase == .saving && b != t.blk)
      | none => false

/-- Block h of line L of a slot (Table 17.7). -/
def slotHalf (sl : Tab Byte) (L h : Nat) : Half :=
  let at_ (i : Nat) : Nat := (tgetD sl i 0#8).toNat
  ⟨at_ (7936 + 4 * L + 2 * h), at_ (7937 + 4 * L + 2 * h), (List.range 62).foldr (fun i acc => at_ (124 * L + 62 * h + i) + 256 * acc) 0⟩

def slotOf (s : State) (b i : Nat) : Tab Byte := ((tget? s.blocks b).bind fun B => tget? B.slots i).getD []

/-- Write a tile's elements and advance its version. -/
def putTile (s : State) (b t : Nat) (f : Tab DWord → Tab DWord) : State :=
  s.modBlock b fun B => { B with tiles := tmod B.tiles t fun x => ⟨f x.el, x.ver + 1#16⟩ }

/-- One core's half of a paired operation (R255). -/
def mpairTile (as bs : Tab Byte) (ta tb : Ty) (e : Int) (acc : Bool) (el : Tab DWord) : Tab DWord :=
  (List.range 4096).foldl (fun t k =>
    let i := k / 64
    let j := k % 64
    let x0 : CF := if acc then CF.ofBits (tgetD el k 0#64) else ⟨0#32, 0#32⟩
    let x := [0, 1].foldl (fun x h => cfAdd x (halfSum ta tb (slotHalf as i h) (slotHalf bs j h) e)) x0
    tput t k x.toBits 0#64) []

/-- Every element undefined, drawn from the block's own data and zero. -/
def undefTile (s : State) (b k : Nat) : Tab DWord :=
  (List.range 4096).foldl (fun t i => tput t i (drawPair s b (k + 2 * i)) 0#64) []

/-- Take an operation out of its queue: TL falls for the lanes of its issue. -/
def endTop (s : State) (id : Nat) (t : TOp) : State :=
  let s := t.lanes.foldl (fun s (g, m) => lowerCtr s t.blk g (lanesOf m) .tl) s
  let s := { s with tops := tdel s.tops id }
  s.modCore (homeOf s t.blk) fun k => { k with tileQ := k.tileQ.filter (· != id) }

/-- The MAC class of a format (Table 23.1). -/
def macClass : Ty → Nat
  | .f8a | .f8b => 0x30
  | .f4 => 0x31
  | .s8 => 0x32
  | .s4 => 0x33
  | _ => 0x34

/-- A paired operation retires (R255, R256): both tiles are written, each undefined where its operands were (Table 18.8), both versions advance, both arrays are free, and
its MACs are charged to the leader. -/
def retirePair (s : State) (id : Nat) (t : TOp) : State :=
  match t.kind with
  | .mpair as bs fbs tl e _ _ acc ta tb fol =>
    let k := s.free
    let bad := t.unfencedNow s
    let run (s : State) (b : Nat) (bslot : Tab Byte) (k : Nat) : State :=
      if bad || t.sides.contains b then putTile s b tl fun _ => undefTile s b k
      else putTile s b tl fun el => mpairTile (slotOf s t.blk as) bslot ta tb e acc el
    let s := run s t.blk (slotOf s t.blk bs) k
    let s := run s fol (slotOf s fol fbs) (k + 8192)
    let s := if bad || !t.sides.isEmpty then { s with free := s.free + 16384 } else s
    let (acct, la) := acctOf s t.blk
    let s := charge s (dieOf (homeOf s t.blk)) (macClass ta) (4 * 64 * 64 * blockElems ta) acct la
    let s := (t.cores s).foldl (fun s c => s.modCore c fun k => { k with busy := none }) s
    endTop s id t
  | _ => s

/-- The value of a view element as it is written into a tile (R260). -/
def toTile (ty : Ty) (v : Nat) : DWord :=
  match ty with
  | .cf32 => BitVec.ofNat 64 v
  | .f32 => BitVec.ofNat 64 v
  | t => BitVec.ofNat 64 (roundF fp32 .rn (decodeF (fmtOf t) v))

/-- The value that a tile element gives a view element (R259). -/
def fromTile (ty : Ty) (m : Rnd) (x : DWord) : Nat :=
  match ty with
  | .cf32 => x.toNat
  | t => cfRound (fmtOf t) m (CF.ofBits x)

/-- Whether a register lane of some bytes of a group's register space is pending. -/
def viewWaits (G : Group) (k n : Nat) : Bool :=
  (List.range n).any fun i => let (r, l, _) := regByte (k + i); (G.symOf r l).isSome

/-- Bytes of a group's register space. -/
def viewNat (G : Group) (k n : Nat) : Nat :=
  (List.range n).foldr (fun i acc => let (r, l, y) := regByte (k + i); ((G.word? r l).getD 0#32).toNat / 2 ^ (8 * y) % 256 + 256 * acc) 0

/-- An accumulator operation completes (R259, R260). -/
def finishAcc (s : State) (id : Nat) (t : TOp) : State :=
  let s := match t.kind with
    | .accrd tl _ row col w ty m =>
      let V := viewOf w
      let el := ((tileOf s t.blk tl).map (·.el)).getD []
      let k := s.free
      let bad := t.unfencedNow s
      let s := if bad then { s with free := s.free + 8192 } else s
      s.modGroup t.blk t.gidx fun G => (List.range (V.rows * V.cols)).foldl (fun G i =>
        let r := i / V.cols
        let c := i % V.cols
        putView G (V.at r c) V.size (if bad then (drawPair s t.blk (k + 2 * i)).toNat else fromTile ty m (tgetD el (64 * (row + r) + col + c) 0#64))) (G.dirty V.regs)
    | .accwr tl _ row col w ty =>
      let V := viewOf w
      let k := s.free
      let s := { s with free := s.free + 8192 }
      let bad := t.unfencedNow s || viewDirty s t.blk t.gidx w
      (match s.grp? t.blk t.gidx with
       | none => s
       | some G => putTile s t.blk tl fun el => (List.range (V.rows * V.cols)).foldl (fun el i =>
           let r := i / V.cols
           let c := i % V.cols
           -- a load into the view since the issue is a write before the TL wait (R147)
           let v := if bad || viewWaits G (V.at r c) V.size then (drawPair s t.blk (k + 2 * i)).toNat % 2 ^ (8 * V.size) else viewNat G (V.at r c) V.size
           tput el (64 * (row + r) + col + c) (toTile ty v) 0#64) el)
    | .accclr tl _ => putTile s t.blk tl fun _ => []
    | _ => s
  endTop s id t

end Sys2Proof.Machine
end

