-- ==== Sys2Proof/Machine/Launch.lean ====
section
/-!
DEFINITION. The Milliner's shared operations (R17 to R21, R38, R39, R265 to R281, R291): completion records, partitions
and slices, launch records and their checks, roots, grids, residency, and the placement of blocks on cores.
-/

namespace Sys2Proof.Machine

/-! ### Completion records (Table 19.4, R343) -/

/-- A completion record that waits to be written to its interface's ring. -/
def post (s : State) (iface : Nat) (seq : Word) (code result : Nat) : State :=
  s.modIface iface fun I =>
    { I with held := I.held ++ [BitVec.ofNat 128 (field 31 0 seq.toNat + field 39 32 code + field 127 64 result)] }

/-! ### Partitions and slices (R277, R278) -/

/-- Fields of a partition entry (Table 29.3). -/
def partDed (p : DWord) : Bool := bit p.toNat 0
def partFunc (p : DWord) : Nat := bits p.toNat 6 1
def partSmin (p : DWord) : Nat := bits p.toNat 13 7
def partSmax (p : DWord) : Nat := bits p.toNat 20 14
def partResp (p : DWord) : Nat := bits p.toNat 40 21
def partPstep (p : DWord) : Nat := bits p.toNat 47 41

/-- Fields of a quantum entry (Table 19.6). -/
def qQus (w : Word) : Nat := bits w.toNat 15 0
def qDie (w : Word) : Nat := bits w.toNat 20 16
def qGng (w : Word) : Bool := bit w.toNat 21
def qGdl (w : Word) : Nat := bits w.toNat 29 22
def qValid (w : Word) : Bool := qQus w != 0

def quantumOf (s : State) (f e : Nat) : Word := tgetD (s.func f).quantum e 0#32

/-- Every valid quantum entry that names a die: function, index, entry, in ascending function and then index. -/
def entriesOf (s : State) (d : Nat) : List (Nat × Nat × Word) :=
  s.funcs.flatMap fun (f, F) => (F.quantum.filter fun e => qValid e.2 && qDie e.2 == d).map fun (i, w) => (f, i, w)

/-- The slices of a partition, in their cycle, by the valid entries (R278). -/
def slicesOf (s : State) (d : Nat) : List (Nat × Nat × Word) :=
  let D := s.die d
  (entriesOf s d).filter fun (f, _, _) => !partDed D.part || partFunc D.part == f

/-- A valid entry of any function names the die. -/
def named? (s : State) (d : Nat) : Bool := !(entriesOf s d).isEmpty

/-- An entry of a die as the slice that it gave began under it. -/
def entryOf (s : State) (d f e : Nat) : Word :=
  (((s.die d).ents.find? fun x => x.1 == f && x.2.1 == e).map (·.2.2)).getD 0#32

/-- Whether a die's partition entry lets a context run there (R277). -/
def admits (s : State) (c : Ctx) (d : Nat) : Bool :=
  let D := s.die d
  D.inService && (!partDed D.part || partFunc D.part == c.func)

/-- Whether a die is one of the context's partitions (R277). -/
def inPartitions (s : State) (c : Ctx) (d : Nat) : Bool :=
  let mine := (entriesOf s d).any fun (f, _, w) => f == c.func && (!c.gng || qGng w)
  admits s c d && (mine || (!c.gng && !named? s d))

def partitions (s : State) (c : Ctx) : List Nat := below 24 (inPartitions s c)

/-- Whether the running slice of a die runs a context: its function's slice, a gang slice once it has begun to run, or
the standing slice of a partition that no entry names (R278, R281). -/
def inSlice (s : State) (c : Ctx) (d : Nat) : Bool :=
  match (s.die d).slice with
  | some (f, e) => f == c.func && (!c.gng || qGng (entryOf s d f e)) && admits s c d
  | none => !named? s d && !c.gng && admits s c d

/-- Whether contexts of the die's running slice may issue: once its restore has completed (R279), and in a gang slice once every
package was ready (R281). -/
def sliceRuns (s : State) (d : Nat) : Bool :=
  match (s.die d).slice with
  | some (f, e) => (s.die d).restored && (!qGng (entryOf s d f e) || (s.die d).gangRuns)
  | none => true

/-- A gang slice of a die that has yet to run: what is restored in it stays as it was saved (R281). -/
def gangHeld (s : State) (d : Nat) : Bool :=
  match (s.die d).slice with
  | some (f, e) => qGng (entryOf s d f e) && !(s.die d).gangRuns
  | none => false

/-- Whether an engine may begin work of a block: in its die's slice (R279, R281). -/
def blockRuns (s : State) (b : Nat) : Bool :=
  match tget? s.blocks b, ctxOf s b with
  | some B, some c => inSlice s c (dieOf B.home) && sliceRuns s (dieOf B.home) && !B.asSaved
  | _, _ => false

/-- The bucket is empty (R272). -/
def Ctx.dry (c : Ctx) : Bool := decide (c.level ≤ 0)

/-! ### Launch records (Tables 1.2, 19.2) -/

/-- A launch record as a number of 512 bits. -/
abbrev LRec := Nat

namespace LRec
def ver (r : LRec) : Nat := bits r 7 0
def pri (r : LRec) : Nat := bits r 9 8
def rpl (r : LRec) : Bool := bit r 10
def nroot (r : LRec) : Nat := bits r 14 11
def regs (r : LRec) : Nat := bits r 21 15
def spm (r : LRec) : Nat := bits r 63 32
def seq (r : LRec) : Nat := bits r 95 64
def dep (r : LRec) : Nat := bits r 127 96
def setg (r : LRec) : Nat := bits r 131 128
def setn (r : LRec) : Nat := bits r 137 132
def gngb (r : LRec) : Nat := bits r 142 138
def clug (r : LRec) : Nat := bits r 151 144
def diec (r : LRec) : Nat := bits r 159 152
def grdd (r : LRec) : Nat := bits r 191 160
def cor (r : LRec) : Bool := bit r 192
def code (r : LRec) : Nat := bits r 283 256
def entry (r : LRec) : Nat := bits r 363 320
def rtab (r : LRec) : Nat := bits r 447 384
def groups (r : LRec) : Nat := LRec.setg r * LRec.setn r
def cuBlocks (r : LRec) : Nat := LRec.clug r * LRec.gngb r
def duBlocks (r : LRec) : Nat := LRec.diec r * LRec.cuBlocks r
end LRec

/-- Scratchpad bytes as allocated (R126). -/
def spmRound (n : Nat) : Nat := cdiv n 256 * 256

/-- R19's first case and the limits of Table 19.2 and R333: a field outside its limits or a reserved bit set. -/
def LRec.malformed (r : LRec) (fork : Bool) (logp : Nat) : Bool :=
  r.ver != 1 || bits r 31 22 != 0 || decide (r.regs < 8) || decide (64 < r.regs) || decide (786432 < r.spm) ||
  r.setg == 0 || decide (8 < r.setg) || r.setn == 0 || decide (32 < r.setn) || decide (32 < r.groups) ||
  r.gngb == 0 || decide (16 < r.gngb) || bit r 143 || r.clug == 0 || r.diec == 0 || r.grdd == 0 || bits r 255 193 != 0 ||
  (r.rpl && logp == 0) ||
  (if fork then r.nroot != 0
   else r.seq == 0 || bits r 287 284 != 0 || bits r 319 288 != 0 || bits r 383 364 != 0 || r.rtab % 64 != 0 ||
     decide (2 ^ 48 ≤ r.rtab) || bits r 511 448 != 0)

/-! ### Residency against empty partitions (R19, R269) -/

def pmSpmax (p : DWord) : Nat := bits p.toNat 3 0

/-- Blocks of a shape that an empty core holds: 128 groups, 6,144 registers, the scratchpad share (R269). -/
def coreCap (groups regs spm share : Nat) : Nat :=
  let m := min (128 / max groups 1) (6144 / max (regs * groups) 1)
  if spm = 0 then m else min m (share / spmRound spm)

/-- Lengths of the runs of cores in service of a cluster, counted cyclically. -/
def runsOf (ok : List Bool) : List Nat :=
  let fold := ok.foldl (fun (acc : List Nat × Nat) b => if b then (acc.1, acc.2 + 1) else (acc.2 :: acc.1, 0)) ([], 0)
  -- the run at the end joins the run at the start
  match fold.1.reverse with
  | [] => [fold.2]
  | a :: r => (a + fold.2) :: r

/-- How many cluster units of n blocks a cluster holds when each core in service holds `cap` blocks. -/
def clusterCap (s : State) (cl cap n : Nat) : Nat :=
  let ok := (List.range 32).map fun i => (s.core (32 * cl + i)).phys.isSome
  if ok.all id then 32 * cap / max n 1
  else if 32 < n then 0 else cap * ((runsOf ok).map fun l => l / max n 1).sum

/-- How many die units a die holds. -/
def dieCap (s : State) (c : Ctx) (r : LRec) (d : Nat) : Nat :=
  let cap := coreCap r.groups r.regs r.spm (min c.spu (pmSpmax (s.die d).pmlim) * 65536)
  (clusterCap s (2 * d) cap r.cuBlocks + clusterCap s (2 * d + 1) cap r.cuBlocks) / max r.diec 1

/-- LOGP of the context's debug descriptor (Table 27.1). -/
def Ctx.logp (c : Ctx) : Nat := bits c.dbg.toNat 23 8

/-- The first case of R19 that applies to a record, 0 when none does. -/
def recordCode (s : State) (c : Ctx) (r : LRec) (fork : Bool) : Nat :=
  let ps := partitions s c
  let share := (ps.map fun d => min c.spu (pmSpmax (s.die d).pmlim) * 65536).foldl max 0
  if r.malformed fork c.logp then 1
  else if 0xFFFFFFFF < r.grdd * r.duBlocks then 2
  else if share < r.spm ∨ 6144 < r.regs * r.groups ∨ (ps.all fun d => dieCap s c r d == 0) then 3
  else if r.cor ∧ (ps.map (dieCap s c r)).sum < r.grdd then 4
  else 0

/-! ### Roots (R103, R267) -/

/-- A root formed from a request; null when its object is not valid. -/
def formRoot (s : State) (c : Ctx) (obn perm base len : Nat) : Cap :=
  if c.otlen ≤ obn then Cap.null
  else match objectEntry s c obn with
    | .ok o => if objV o then rootCap obn (objGen o) (perm &&& objMaxp o &&& 0x3FF) base len else Cap.null
    | .error _ => Cap.null

/-- A root from its table entry (Table 19.3). -/
def rootEntry (s : State) (c : Ctx) (e : Nat) : Cap :=
  formRoot s c (bits e 115 88) (bits e 127 116) (bits e 43 0) (bits e 87 44)

/-- A code capability: X and R over the whole object, its cursor at the entry. -/
def codeRoot (s : State) (c : Ctx) (obn entry : Nat) : Cap :=
  let n := match objectEntry s c obn with
    | .ok o => objNspan o
    | .error _ => 0
  let k := formRoot s c obn (Perm.x + Perm.r) 0 (n * 2 ^ 25)
  if k.tag then k.setCur entry else k

/-- VIEW0 to VIEW3 from a view block; reserved bits read as zero (R258). -/
def viewsOf (bs : List Byte) : List DWord :=
  (List.range 4).map fun i => BitVec.ofNat 64 (leNat ((bs.drop (8 * i)).take 8)) &&& 0xF3F3F3FFF#64

/-! ### Grids -/

/-- A grid of a record. -/
def gridOfRec (r : LRec) (launch pasid : Nat) (parent : Option Nat) (depth pri lvl7 : Nat) (code : Cap) (roots : List Cap)
    (views : List DWord) : Grid :=
  { launch, pasid, parent, depth, setg := r.setg, setn := r.setn, gngb := r.gngb, clug := r.clug, diec := r.diec
    grdd := r.grdd, cor := r.cor, rpl := r.rpl, regs := r.regs, spm := r.spm, pri, code, roots, views, lvl7, placed := 0
    exited := 0 }

/-- Create a grid. -/
def addGrid (s : State) (g : Grid) : Nat × State :=
  let (id, s) := s.fresh
  (id, { s with grids := tset s.grids id g })

/-- A launch becomes ready: its root table and view block are read, and its grid is made (R267). A part of them that
stage 2 does not give reads as zero, so that its roots are null (assumption 25); so does one in a line that may not be delivered, which
stops the context (R322). -/
def makeReady (s : State) (id : Nat) : State :=
  match tget? s.launches id with
  | none => s
  | some l =>
    match tget? s.ctxs l.pasid with
    | none => s
    | some c =>
      let r : LRec := l.record.toNat
      let rd (a n : Nat) : List Byte := match guestBad s c.func a n, guestRead s c.func a n with
        | none, .ok bs => bs
        | _, _ => List.replicate n 0#8
      let entries := (List.range r.nroot).map fun i => leNat (rd (r.rtab + 16 * i) 16)
      let bad := (guestBad s c.func r.rtab (16 * r.nroot + 32)).toList ++ (r.code :: entries.map fun e => bits e 115 88).filterMap (objectBad s c)
      let roots := entries.map fun e => if (objectBad s c (bits e 115 88)).isSome then Cap.null else rootEntry s c e
      let code := if (objectBad s c r.code).isSome then Cap.null else codeRoot s c r.code r.entry
      let g := gridOfRec r id l.pasid none 0 r.pri 0 code roots (viewsOf (rd (r.rtab + 16 * r.nroot) 32))
      let s := match bad with
        | l' :: _ => lineEvent s l' l.pasid
        | [] => s
      let (gid, s) := addGrid s g
      s.modLaunch id fun l => { l with dep := none, grid := some gid }

/-- The completion record of a launch goes to its interface. The launch is pending until the record has been written
(R269, R271). -/
def endLaunch (s : State) (id code : Nat) : State :=
  match tget? s.launches id with
  | none => s
  | some l =>
    if l.posted.isSome then s
    else
      let I := s.iface l.iface
      let s := post s l.iface (BitVec.ofNat 32 l.seq) code (intBits 64 l.energy)
      s.modLaunch id fun l => { l with posted := some (code, (I.cqt.toNat + I.held.length) % 2 ^ 32) }

/-- A launch whose record has been written is pending no longer: launches that wait on it become ready or are cancelled (R271). -/
def settleLaunch (s : State) (id code : Nat) : State :=
  let s := { s with launches := tdel s.launches id }
  (s.launches.filter fun x => x.2.dep == some id).foldl (fun s (k, _) =>
    if code = 0 then makeReady s k else endLaunch (s.modLaunch k fun l => { l with dep := none }) k 5) s

/-! ### Blocks -/

def onCore (s : State) (core : Nat) : List (Nat × Block) := s.blocks.filter fun b => b.2.home == core && b.2.phase.onCore

/-- A group at its first instruction (R268). -/
def newGroup (code : Cap) (roots : List Cap) (views : List DWord) (since : Nat) : Group :=
  let g0 : Group :=
    { v := [], vt := [], vl := [], s := [], st := [], p := [], q := 0#8, ctr := [], shadow := []
      views := (views.mapIdx fun i v => (i, v)).filter fun x => x.2 != 0#64, labels := [], lovf := 0, chans := [], arr := []
      msamp := none, stream := { lanes := ~~~0#64, code, cl := none, wait := .go }, div := [], exited := 0#64
      parked := 0#64, susp := [], hold := none, turn := 0, yielded := [], passed := 0, since, vDirty := [] }
  (roots.mapIdx fun i k => (i, k)).foldl (fun g (i, k) => g.putSPair (2 * i) k) g0

/-- A block at its dispatch. -/
def newBlock (grid pasid bidx core base spm : Nat) (serves : Option Nat) (ticket dieTicket slot0 : Nat) (slot1 : Option Nat)
    (since : Nat) : Block :=
  { grid, bidx, pasid, serves, core, home := core, base, phase := .resident, spmLen := spmRound spm, spm := Ram.empty
    slots := [], tiles := [], scl := [], sbs := [], barw := none, ticket, dieTicket, iv := 0, rc := 0, chk := false, log := []
    turn := 0, forks := 0, forkDst := none, slot0 := some slot0, slot1, imgHit := false, spmDirty := [], slotAt := [], fenceAt := 0, ringDirty := [], since, cyc0 := 0 }

/-- Bytes of an image slot (R291). -/
def imageSize (groups regs spm : Nat) : Nat := 65536 * cdiv (groups * (256 * regs + 1024) + spm + 786432 + 12288) 65536

def blockIsz (s : State) (B : Block) : Nat :=
  let g := s.gridOf B
  imageSize g.groups g.regs B.spmLen

/-- The first gap of n bytes in a context's save area, beside the slots that its blocks hold and some more (R291). -/
def reserveBeside (s : State) (pasid n : Nat) (more : List (Nat × Nat)) : Option Nat :=
  match tget? s.ctxs pasid with
  | none => none
  | some c =>
    let held := ((s.blocks.filter fun b => b.2.pasid == pasid).flatMap fun (_, B) =>
      (B.slot0.toList ++ B.slot1.toList).map fun a => (a, blockIsz s B)) ++ more
    let starts := 0 :: held.map fun (a, m) => a + m
    starts.find? fun a => decide (a + n ≤ c.savel) && held.all fun (a', m) => !overlap a n a' m

def reserve (s : State) (pasid n : Nat) : Option Nat := reserveBeside s pasid n []

/-- A ticket: a random draw, neither zero nor borne by a gang or die unit here (R326). -/
def drawTicket (s : State) (avoid : List Nat) : Nat × State :=
  let (r, s) := s.drawRandom
  let used := avoid ++ s.blocks.flatMap fun (_, B) => [B.ticket, B.dieTicket]
  let t := ((List.range (used.length + 2)).map fun i => (r + i) % 2 ^ 32).find? fun t => t != 0 && !used.contains t
  (t.getD 1, s)

/-! ### Placement (R20, R125, R273) -/

/-- What a block asks of a core. -/
structure Shape where
  groups : Nat
  regs : Nat
  spm : Nat
  spu : Nat
  deriving DecidableEq, Repr

def shapeOf (c : Ctx) (g : Grid) : Shape := ⟨g.groups, g.regs, g.spm, c.spu⟩

/-- The split a context would have on a core (R125). -/
def effSplit (s : State) (core spu : Nat) : Nat := min spu (pmSpmax (s.core core).pmlim)

/-- Whether n blocks of a shape fit on a core beside those resident there. -/
def fitsCore (s : State) (h : Shape) (core n : Nat) : Bool :=
  let C := s.core core
  let res := onCore s core
  let gs (B : Block) : Nat := (s.gridOf B).groups
  let eff := effSplit s core h.spu
  C.phys.isSome && !C.vacated && !C.remap && (s.die (dieOf core)).inService && (res.isEmpty || C.split == some eff) &&
    decide ((res.map fun b => gs b.2).sum + n * h.groups ≤ 128) &&
    decide ((res.map fun b => gs b.2 * (s.gridOf b.2).regs).sum + n * (h.groups * h.regs) ≤ 6144) &&
    decide ((res.map fun b => b.2.spmLen).sum + n * spmRound h.spm ≤ eff * 65536)

/-- A plan: block, core, first core of its cluster unit. -/
abbrev Plan := List (Nat × Nat × Nat)

/-- Put the blocks (key, index in the cluster unit) of one cluster unit with its first core at place b of a cluster. -/
def planUnit (s : State) (h : Shape) (acc : Plan) (cl b : Nat) (blks : List (Nat × Nat)) : Option Plan :=
  let more := blks.map fun (k, i) => (k, 32 * cl + (b + i) % 32, 32 * cl + b)
  let all := acc ++ more
  if (more.map (·.2.1)).dedup.all fun core => fitsCore s h core (all.filter fun x => x.2.1 == core).length then some all else none

/-- Places for a cluster unit on a die, the one given first. -/
def places (die cl b : Nat) : List (Nat × Nat) :=
  let other := if cl % 2 = 0 then 2 * die + 1 else 2 * die
  ((List.range 32).map fun i => (cl, (b + i) % 32)) ++ (List.range 32).map fun i => (other, i)

/-- Plan the cluster units of a die unit on one die, and go on. R20 leaves the first core of each to the Milliner ("may be any"): the
model takes the first places, from the end of the last unit on, with which everything that is placed at once has a place (DESIGN CHOICE,
assumption 115). -/
def planDie (s : State) (h : Shape) (die : Nat) (next : Plan → Option Plan) : List (List (Nat × Nat)) → Nat × Nat → Plan → Option Plan
  | [], _, acc => next acc
  | u :: r, (cl, b), acc =>
    let n := (u.map fun x => x.2 + 1).foldl max 0
    (places die cl b).findSome? fun (cl, b) => (planUnit s h acc cl b u).bind (planDie s h die next r (cl, (b + n) % 32))

/-- Plan further die units on any of some dies. -/
def planMany (s : State) (h : Shape) (dies : List Nat) : List (List (List (Nat × Nat))) → Plan → Option Plan
  | [], acc => some acc
  | u :: r, acc => dies.findSome? fun d => planDie s h d (planMany s h dies r) u (2 * d, 0) acc

/-- Plan die units of which the first is to have its first block on a given core, and the others may lie on any of some dies. -/
def planAt (s : State) (h : Shape) (core : Nat) (dies : List Nat) (us : List (List (List (Nat × Nat)))) : Option Plan :=
  match us with
  | [] => none
  | [] :: more => planMany s h dies more []
  | ([] :: r) :: more => planDie s h (dieOf core) (planMany s h dies more) r (clusterOf core, 0) []
  | (((k, i) :: u) :: r) :: more =>
    let b := (core % 32 + 32 - i % 32) % 32
    let v := (k, i) :: u
    (planUnit s h [] (clusterOf core) b v).bind
      (planDie s h (dieOf core) (planMany s h dies more) r (clusterOf core, (b + (v.map fun x => x.2 + 1).foldl max 0) % 32))

/-- The cluster units of die unit u of a grid, with block numbers BIDX. -/
def dieUnit (g : Grid) (u : Nat) : List (List (Nat × Nat)) :=
  (List.range g.diec).map fun j => (List.range (g.clug * g.gngb)).map fun i => (u * g.duBlocks + j * (g.clug * g.gngb) + i, i)

/-- The saved blocks of a grid by die unit and cluster unit, with block numbers of the state. -/
def savedUnits (s : State) (gid : Nat) (g : Grid) (u : Option Nat) : List (List (List (Nat × Nat))) :=
  let bs := s.blocks.filter fun b => b.2.grid == gid && b.2.serves.isNone && b.2.phase == .saved
  let dus := (bs.map fun b => b.2.bidx / g.duBlocks).dedup
  (dus.filter fun d => u.isNone || u == some d).map fun d =>
    let mine := bs.filter fun b => b.2.bidx / g.duBlocks == d
    ((mine.map fun b => b.2.bidx / (g.clug * g.gngb)).dedup).map fun cu =>
      (mine.filter fun b => b.2.bidx / (g.clug * g.gngb) == cu).map fun b => (b.1, g.cuIndex b.2.bidx)

/-! ### The ready order (R271) and the choice (R273) -/

/-- What a context has ready: a fault for its handler, a saved block, or the next die unit of a grid. -/
inductive Ready where
  | handler (h : Nat)
  | saved (b : Nat)
  | fresh (grid : Nat)
  deriving DecidableEq, Repr

/-- Grids in the order of R271: priority, SEQ of the launch, then age, so that a child follows its parent's launch. -/
def gridOrder (s : State) (x y : Nat × Grid) : Bool :=
  let sq (g : Grid) : Nat := ((tget? s.launches g.launch).map (·.seq)).getD 0
  let k (x : Nat × Grid) : Nat × Nat × Nat := (3 - x.2.pri, sq x.2, x.1)
  let (a, b, c) := k x
  let (a', b', c') := k y
  decide (a < a') || (a == a' && (decide (b < b') || (b == b' && decide (c ≤ c'))))

/-- The release that a park was has been done: the stores and atomics of the parked lanes have registered, so that a handler which starts
sees them (R284). -/
def parkReleased (s : State) (p : Park) : Bool :=
  match p.held with
  | .lanes b g ls => released s b (ls.map fun x => (g, x.1))
  | _ => true

/-- The ready work of a context, in order; handler blocks are ahead of the others (R288). -/
def readyOf (s : State) (pasid : Nat) : List Ready :=
  let hs := s.parks.filterMap fun (h, p) =>
    if p.pasid == pasid && p.handled && parkReleased s p && !(s.blocks.any fun b => b.2.serves == some h) then some (Ready.handler h) else none
  let savedH := s.blocks.filterMap fun (b, B) => if B.pasid == pasid && B.serves.isSome && B.phase == .saved then some (Ready.saved b) else none
  let gs := sortBy (gridOrder s) (s.grids.filter fun g => g.2.pasid == pasid)
  hs ++ savedH ++ gs.flatMap fun (id, g) =>
    (sortBy (fun x y : Nat × Nat => decide (x.2 ≤ y.2)) (s.blocks.filterMap fun (b, B) =>
        if B.grid == id && B.serves.isNone && B.phase == .saved then some (b, B.bidx) else none)).map (fun x => Ready.saved x.1) ++
      (if g.placed < g.grdd then [Ready.fresh id] else [])

/-- The blocks that are resident together whenever a block runs: those of its die unit, or of a co-resident grid, that have not
exited (R42). -/
def unitOf (s : State) (B : Block) : List (Nat × Block) :=
  let g := s.gridOf B
  s.blocks.filter fun (_, T) => T.grid == B.grid && T.serves.isNone && (g.cor || T.bidx / max g.duBlocks 1 == B.bidx / max g.duBlocks 1)

def Phase.runs : Phase → Bool
  | .resident | .draining => true
  | _ => false

/-- Whether every block of a block's unit is resident (R42). -/
def unitRuns (s : State) (B : Block) : Bool := B.serves.isSome || (unitOf s B).all fun x => x.2.phase.runs

/-- Whether the saves of a saved block's unit have completed, so that the unit may be placed again as one (R20, R42, R273). -/
def unitSaved (s : State) (B : Block) : Bool := (unitOf s B).all fun x => x.2.phase != .saving

/-- A core that a fold has been promised: nothing else is placed there meanwhile, so that the room which the fold was found to have
remains (R42, R280). -/
def foldRoom (s : State) (core : Nat) : Bool := s.blocks.any fun (_, B) => B.foldTo == some core

/-- n slots of one size can be reserved beside some more (R291). -/
def slotsFor (s : State) (pasid isz : Nat) : Nat → List (Nat × Nat) → Bool
  | 0, _ => true
  | n + 1, more =>
    match reserveBeside s pasid isz more with
    | none => false
    | some a => slotsFor s pasid isz n (more ++ [(a, isz)])

/-- Whether the symbol tables of the cores of a plan have room for the entries that the recorded loads of the plan's blocks take again
(R193, R199). -/
def symFits (s : State) (plan : Plan) : Bool :=
  let t := plan.foldl (fun s (b, core, _) => s.modBlock b fun B => { B with home := core, phase := .resident }) s
  ((plan.map fun x => x.2.1).dedup).all fun core => decide (symShared t core [] ≤ 512)

/-- A plan of a ready item with its first block on a core, where it fits there (R20, R42, R269, R291). -/
def planFits (s : State) (pasid : Nat) (c : Ctx) (core : Nat) (r : Ready) : Option Plan :=
  let dies := below 24 fun d => inSlice s c d
  match r with
  | .handler _ =>
    if (reserve s pasid (imageSize 1 64 4352)).isSome && fitsCore s ⟨1, 64, 4352, c.spu⟩ core 1 then some [(0, core, core)] else none
  | .saved b =>
    (match tget? s.blocks b with
     | none => none
     | some B =>
       let g := s.gridOf B
       let h := shapeOf c g
       if !unitSaved s B then none
       else if B.serves.isSome then (if fitsCore s ⟨1, 64, 4352, c.spu⟩ core 1 then some [(b, core, core)] else none)
       else if B.foldTo.isSome then (if B.foldTo == some core && fitsCore s h core 1 then some [(b, core, B.base)] else none)
       else planAt s h core dies (savedUnits s B.grid g (if g.cor then none else some (B.bidx / g.duBlocks))))
  | .fresh gid =>
    match tget? s.grids gid with
    | none => none
    | some g =>
      let h := shapeOf c g
      let n := if g.cor then g.blocks else g.duBlocks
      if !slotsFor s pasid (imageSize g.groups g.regs (spmRound g.spm)) (if g.rpl then 2 * n else n) [] then none
      else planAt s h core dies (if g.cor then (List.range g.grdd).map (dieUnit g) else [dieUnit g g.placed])

/-- Whether a ready item is the fold of a saved block. -/
def Ready.isFold (s : State) : Ready → Bool
  | .saved b => match tget? s.blocks b with
    | some B => B.foldTo.isSome
    | none => false
  | _ => false

/-- The plan of a ready item with its first block on a core, where it may be placed there: the loads of a saved one find their symbol
entries, and no block but a folded one comes to a core whose room a fold needs. -/
def planOf (s : State) (pasid : Nat) (c : Ctx) (core : Nat) (r : Ready) : Option Plan :=
  (planFits s pasid c core r).bind fun p =>
    let room := match r with
      | .saved _ => symFits s p
      | _ => true
    if room && (r.isFold s || p.all fun x => !foldRoom s x.2.1) then some p else none

/-- The choice for a core: the context, its first ready item that may be placed there, and the plan (R273). -/
def choose (s : State) (core : Nat) : Option (Nat × Ready × Plan) :=
  let d := dieOf core
  let cands := s.ctxs.filterMap fun (p, c) =>
    if inSlice s c d && !c.dry && !c.halted && !c.desch then
      ((readyOf s p).findSome? fun r => (planOf s p c core r).map fun pl => (r, pl)).map fun (r, pl) => (p, c.level * c.wt, r, pl)
    else none
  (cands.foldl (fun (best : Option (Nat × Int × Ready × Plan)) x =>
    match best with
    | none => some x
    | some y => if y.2.1 < x.2.1 then some x else best) none).map fun (p, _, r, pl) => (p, r, pl)

/-- Whether what the running slice of a die has to save and to restore there has been: no save is in progress on the die, and no saved
block of the slice's contexts may be placed on it (R279). -/
def restoreDone (s : State) (d : Nat) : Bool :=
  s.blocks.all fun (b, B) =>
    !(B.phase == .saving && dieOf B.home == d) && (B.phase != .saved || match tget? s.ctxs B.pasid with
      | some c => !inSlice s c d || c.dry || c.halted || c.desch || (List.range 64).all fun n => (planOf s B.pasid c (64 * d + n) (.saved b)).isNone
      | none => true)

/-- The restore of the running slice of a die has completed: its issue begins, and goes on until the slice ends (R279). -/
def noteRestored (s : State) (d : Nat) : State :=
  if (s.die d).restored || !restoreDone s d then s else s.modDie d fun D => { D with restored := true }

/-- Put the near-memory split of a context in force on a core; a change discards the L1's contents (R125). -/
def setSplit (s : State) (core spu : Nat) : State :=
  let eff := effSplit s core spu
  if (s.core core).split = some eff then s else s.modCore core fun C => { C with split := some eff, l1 := [] }

/-- The world of a context becomes resident on a core: its deficit counter starts at its weight (R275). -/
def enterWorld (s : State) (core : Nat) (c : Ctx) : State :=
  if (onCore s core).any fun b => worldOf s b.1 == c.world then s
  else s.modCore core fun C => { C with dc := tset C.dc c.world c.iw }

/-- The groups of a block that comes to a core while a sweep of its context is in progress are to be scanned (R119). -/
def sweepJoin (s : State) (b : Nat) : State :=
  s.modCtx (pasidOf s b) fun c => { c with sweep := c.sweep.map fun w =>
    { w with groups := ((s.groupsOf b).map (gkey b)).foldl ninsert w.groups } }

/-- Dispatch one new block of a grid. It acquires on its core, so that it sees what its parent did before a `fork` (R40, R141); a
sweep in progress checks its roots and is to scan its groups (R118, R119). -/
def dispatchBlock (s : State) (gid : Nat) (g : Grid) (c : Ctx) (bidx core base ticket dieTicket : Nat) : State :=
  let s := acquireCore (enterWorld (setSplit s core c.spu) core c) core
  let roots := g.roots.map (sweepCheck s g.pasid)
  let isz := imageSize g.groups g.regs (spmRound g.spm)
  let (id, s) := s.fresh
  let a := (reserve s g.pasid isz).getD 0
  let B := { newBlock gid g.pasid bidx core base g.spm none ticket dieTicket a none s.nextId with cyc0 := (s.die (dieOf core)).cyc }
  let s := { s with blocks := tset s.blocks id B, nextId := s.nextId + 1 }
  let s := if g.rpl then s.modBlock id fun B => { B with slot1 := reserve s g.pasid isz } else s
  sweepJoin ((List.range g.groups).foldl (fun s k =>
    { s with groups := tset s.groups (gkey id k) (newGroup g.code roots g.views (s.nextId + k)), nextId := s.nextId + 1 }) s) id

/-- Dispatch new blocks by a plan: each gang and each die unit has a ticket of its own (R326). -/
def dispatch (s : State) (gid : Nat) (plan : Plan) : State :=
  match tget? s.grids gid with
  | none => s
  | some g =>
    match tget? s.ctxs g.pasid with
    | none => s
    | some c =>
      let dus := (plan.map fun x => x.1 / g.duBlocks).dedup
      let s := dus.foldl (fun s u =>
        let (dt, s) := drawTicket s []
        let mine := plan.filter fun x => x.1 / g.duBlocks == u
        ((mine.map fun x => x.1 / g.gngb).dedup).foldl (fun s gang =>
          let (t, s) := drawTicket s [dt]
          (mine.filter fun x => x.1 / g.gngb == gang).foldl (fun s (b, core, base) => dispatchBlock s gid g c b core base t dt) s) s) s
      s.modGrid gid fun g => { g with placed := g.placed + dus.length }

/-- A handler block for a fault (R288): one group, the record in s0 to s7, the root in s8 and s9, the records in its
scratchpad; it has a grid of its own, of one block. It acquires as it starts (R284). No rule gives the REGS of a handler block: the
model takes 64, which fixes its register limit, its room on a core and its image slot (DESIGN CHOICE, assumption 47). -/
def dispatchHandler (s : State) (pasid h core : Nat) : State :=
  match tget? s.ctxs pasid, tget? s.parks h with
  | some c, some p =>
    (match c.handler with
     | none => s
     | some H =>
       let blk := match p.held with
         | .lanes b _ _ | .unit b _ _ => b
         | _ => 0
       let launch := (gridOfB s blk).launch
       let g : Grid := { Grid.unit with launch, pasid, regs := 64, spm := 4352, pri := 3, code := codeRoot s c H.code H.entry, placed := 1 }
       let (gid, s) := addGrid s g
       let s := acquireCore (enterWorld (setSplit s core c.spu) core c) core
       let (t, s) := drawTicket s []
       let (dt, s) := drawTicket s [t]
       let (id, s) := s.fresh
       let a := (reserve s pasid (imageSize 1 64 4352)).getD 0
       let first := (p.recs.headD 0#512)
       let spm := ((p.recs.mapIdx fun i r => (i, r)).foldl (fun (m : Ram) (i, r) => m.write (0x100 + 64 * i) (recBytes r))
         (Ram.empty.write 0 (recBytes first)))
       let B := { newBlock gid pasid 0 core core 4352 (some h) t dt a none s.nextId with spm, cyc0 := (s.die (dieOf core)).cyc }
       let G := newGroup g.code [] [] s.nextId
       let G := (List.range 8).foldl (fun G i => G.putS i (first.extractLsb' (64 * i) 64)) G
       let G := G.putSPair 8 (sweepCheck s pasid (rootEntry s c H.root.toNat))
       sweepJoin { s with blocks := tset s.blocks id B, groups := tset s.groups (gkey id 0) G, nextId := s.nextId + 1 } id)
  | _, _ => s

end Sys2Proof.Machine
end

