-- ==== Sys2Proof/Machine/Ctl.lean ====
section
/-!
DEFINITION. The CTL class (Table 11.1; R154 to R166, R54, R69): control transfers, exit, barriers, split barriers, fork,
wait, yield and trap.
-/

namespace Sys2Proof.Machine

/-! ### No effect -/

/-- R159: no effect; at a wide scope a pure rendezvous. -/
def execNop (_e : Scope) (s : State) : Out := done 0x08 .issue s

/-- R69: opcodes 0x38 to 0x3F act as nop at lane scope, whatever their fields hold. -/
def execHint (_o : BitVec 3) (_e : Scope) (_a _b _c : Byte) (s : State) : Out := done 0x08 .issue s

/-! ### Control transfers (R24, R154 to R156) -/

/-- Lanes of an issuer go to their next clauses. `next` gives each lane's code capability with CUR there. The stream
goes with the lowest lane that issued the transfer, and the lanes that go elsewhere diverge (R24). -/
def Group.spread (G : Group) (k : Nat) (i : Issuer) (active : Lanes) (next : Nat → Cap) : Group :=
  let at' (ls : Lanes) (c : Cap) : Issuer := { lanes := ls, code := c, cl := none, wait := .go }
  match k, lanesOf active with
  | 0, l :: _ =>
    let home := next l
    let ls := lanesOf i.lanes
    let stay := ls.filter fun x => next x == home
    let go := ls.filter fun x => next x != home
    { G with stream := at' (maskOf stay) home, div := go.foldl (fun t x => tset t x (at' (laneBit x) (next x))) G.div }
  | l + 1, _ => { G with div := tset G.div l { at' i.lanes (next l) with buf := i.buf } }
  | 0, [] => G

/-- A control transfer: `go` gives an active lane's next code capability and its register writes, or the fault of R155
with its DATA. -/
def transferOp (ops : List Opd) (d : Dst)
    (go : Issuer → Clause → Group → Nat → List Word → Except (Nat × Nat) (Cap × (Group → Group))) (s : State) : Out :=
  match s.cur with
  | none => .next s
  | some c =>
    if c.empty then .next (retire s)
    else match ready? s c ops d false with
      | some o => o
      | none =>
        match c.arr, s.issuer? (c.arr.headD ⟨0, 0, 0⟩) with
        | r :: _, some i =>
          (match i.cl, s.grp? r.blk r.gidx with
           | some cl, some G =>
             let res : List (Nat × Nat × Except (Nat × Nat) (Cap × (Group → Group))) :=
               (readOps s c ops).flatMap fun (g, ls) => ls.map fun (l, xs) => (g, l, go i cl G l (xs.map VCell.word))
             let faults : List LFault := res.filterMap fun (g, l, x) => match x with
               | .error (code, dat) => some ⟨g, l, code, dat⟩
               | .ok _ => none
             if !faults.isEmpty then faultSome faults s
             else
               let s := chargeWord 0x08 .issue (consume s c ops)
               let s := s.modGroup r.blk r.gidx fun G =>
                 let G := res.foldl (fun G (_, _, x) => match x with | .ok (_, f) => f G | .error _ => G) G
                 let G := G.dirty d.regs
                 let next (l : Nat) : Cap :=
                   match res.find? fun x => x.2.1 == l with
                   | some (_, _, .ok (k, _)) => k
                   | _ => i.code.setCur cl.fall
                 G.spread r.iss i ((c.act.find? fun a => a.1 == r.gidx).map (·.2) |>.getD 0#64) next
               .next { bumpRc s r.blk 1 with cur := none }
           | _, _ => .next s)
        | _, _ => .next s

/-- The target of a transfer of form I: a word offset from the clause header. -/
def target (cl : Clause) (t : BitVec 16) : Nat := intBits 44 (cl.addr + 4 * t.toInt)

/-- A link (R155): the lane's code capability at an address, sealed and tagged; a sweep in progress checks it (R119). -/
def linkCap (s : State) (b : Nat) (i : Issuer) (a : Nat) : Cap :=
  let k := i.code.setCur a
  sweepCheck s (pasidOf s b) { k.set 117 106 (k.perm ||| Perm.sealBit) with tag := true }

/-- InstallCode (R155): the checks in order, and the capability unsealed. -/
def installCode (k : Cap) : Except (Nat × Nat) Cap :=
  if !k.tag then .error (Code.capTag, k.cur)
  else if !k.has Perm.x then .error (Code.capPerm, k.cur)
  else if k.cur % 4 ≠ 0 then .error (Code.capAlign, k.cur)
  else if k.cur < k.base ∨ k.top < k.cur + 8 then .error (Code.capBounds, k.cur)
  else .ok (k.set 115 115 0)

/-- The block of the word in execution. -/
def curBlk (s : State) : Nat := (s.cur.map (·.blk)).getD 0

/-- R154. -/
def execJmp (t : BitVec 16) (s : State) : Out :=
  transferOp [] .none (fun i cl _ _ _ => .ok (i.code.setCur (target cl t), id)) s

/-- R154: per lane. -/
def execBra (p : Pred) (t : BitVec 16) (s : State) : Out :=
  transferOp [] .none (fun i cl G l _ =>
    .ok (i.code.setCur (if (G.pred p).getLsbD l then target cl t else cl.fall), id)) s

/-- R154: alike in every lane. -/
def execBru (q : Pred) (t : BitVec 16) (s : State) : Out :=
  transferOp [] .none (fun i cl G _ _ => .ok (i.code.setCur (if G.qpred q then target cl t else cl.fall), id)) s

/-- R155. -/
def execJmpc (a : RSrc) (s : State) : Out :=
  transferOp [.r a 4] .none (fun _ _ G l xs => (installCode (capAt G l a xs 0)).map fun k => (k, id)) s

/-- R154, R155: the link names the fall-through address. -/
def execCall (a : BitVec 6) (t : BitVec 16) (s : State) : Out :=
  transferOp [] (.r a 4) (fun i cl _ l _ =>
    .ok (i.code.setCur (target cl t), fun G => G.putQuad a.toNat l (linkCap s (curBlk s) i cl.fall))) s

/-- R155: the target is read first, and the link is written after it has been installed. -/
def execCallc (a : BitVec 6) (b : RSrc) (s : State) : Out :=
  transferOp [.r b 4] (.r a 4) (fun i cl G l xs =>
    (installCode (capAt G l b xs 0)).map fun k => (k, fun G => G.putQuad a.toNat l (linkCap s (curBlk s) i cl.fall))) s

/-- R155. -/
def execRet (a : RSrc) (s : State) : Out :=
  transferOp [.r a 4] .none (fun _ _ G l xs => (installCode (capAt G l a xs 0)).map fun k => (k, id)) s

/-- R154: the counter falls by one, and the lane branches while it is not zero. -/
def execLoop (a : BitVec 6) (t : BitVec 16) (s : State) : Out :=
  transferOp [.r ⟨a, false⟩ 1] (.r a 1) (fun i cl _ l xs =>
    let n := xs.headD 0#32 - 1#32
    .ok (i.code.setCur (if n = 0#32 then cl.fall else target cl t), fun G => G.putWord a.toNat l n)) s

/-- R157: the active lanes are exited; the others fall through. -/
def execExit (s : State) : Out :=
  match s.cur with
  | none => .next s
  | some c =>
    if c.empty then .next (retire s)
    else match c.arr with
      | [] => .next s
      | r :: _ =>
        let m := (c.act.find? fun a => a.1 == r.gidx).map (·.2) |>.getD 0#64
        let s := chargeWord 0x08 .issue s
        let s := s.modGroup r.blk r.gidx fun G => G.dropLanes r.iss m
        let s := s.modIssuer r fun i => i.past c.k
        .next (exitLanes { bumpRc s r.blk 1 with cur := none } r.blk r.gidx m)

/-! ### Barriers (R161 to R165, R134) -/

/-- R161: a release on arrival, an acquire on leaving. -/
def execBar (_e : Scope) (s : State) : Out := releaseOp (fun s c => done 0x09 .issue (acquireNow s c)) s

def sbOf (s : State) (b k : Nat) : SB := tgetD (((tget? s.blocks b).map (·.sbs)).getD []) k SB.reset

def putSb (s : State) (b k : Nat) (x : SB) : State := s.modBlock b fun B => { B with sbs := tput B.sbs k x SB.reset }

def Group.arrOf (g : Group) (k : Nat) : Arr := tgetD g.arr k ⟨false, false⟩

def arrOf (s : State) (b g k : Nat) : Arr := ((s.grp? b g).map fun G => G.arrOf k).getD ⟨false, false⟩

def putArr (s : State) (b g k : Nat) (x : Arr) : State :=
  s.modGroup b g fun G => { G with arr := tput G.arr k x ⟨false, false⟩ }

/-- R162: the fault that a bara meets before any change. -/
def baraFault (s : State) (c : Cur) (k n : Nat) : Option Nat :=
  let b := sbOf s c.blk k
  if c.live.any fun g => (arrOf s c.blk g k).arr then some Code.barOrder
  else if (gridOfB s c.blk).groups < n ∨ (b.exp ≠ 0 ∧ b.exp ≠ n) ∨ n < b.cnta + c.live.length then some Code.barCount
  else none

/-- R162: the arrival of the live groups at a split barrier of count n. -/
def arriveSb (s : State) (c : Cur) (k n : Nat) : State :=
  let b := sbOf s c.blk k
  let s := c.live.foldl (fun s g => putArr s c.blk g k ⟨true, b.ph⟩) s
  let a := b.cnta + c.live.length
  putSb s c.blk k (if a = n then ⟨!b.ph, 0, 0⟩ else ⟨b.ph, a, n⟩)

/-- R162. The field n holds N − 1. -/
def execBara (_e : Scope) (k : BitVec 4) (n : BitVec 6) (s : State) : Out :=
  match s.cur with
  | none => .next s
  | some c =>
    if c.empty then .next (retire s)
    else match baraFault s c k.toNat (n.toNat + 1) with
      | some code => faultUnitWord code 0 s
      | none => releaseThen (fun s c => done 0x09 .issue (arriveSb s c k.toNat (n.toNat + 1))) s

/-- R162: waits for the phases of the groups' arrivals, then acquires. -/
def execBarw (_e : Scope) (k : BitVec 4) (s : State) : Out :=
  match s.cur with
  | none => .next s
  | some c =>
    if c.empty then .next (retire s)
    else if c.live.all fun g =>
        let a := arrOf s c.blk g k.toNat
        !a.arr || a.aph != (sbOf s c.blk k.toNat).ph then
      acquireOp (fun s c => done 0x09 .issue (c.live.foldl (fun s g =>
        putArr s c.blk g k.toNat { arrOf s c.blk g k.toNat with arr := false }) s)) s
    else .next (block .barw s)

/-- The members of a barrier instance of a block: its gang, its grid, its cluster unit or its die unit, without those
that have exited. -/
def barMembers (s : State) (B : Block) (k : BarKind) : List (Nat × Block) :=
  let g := s.gridOf B
  s.blocks.filter fun (_, T) => T.grid == B.grid && T.serves.isNone &&
    match k with
    | .gang => T.bidx / g.gngb == B.bidx / g.gngb
    | .grid => true
    | .cluster => T.bidx / (g.clug * g.gngb) == B.bidx / (g.clug * g.gngb)
    | .die => T.bidx / g.duBlocks == B.bidx / g.duBlocks

/-- A debug stop of a context holds its blocks where they stand (R336). -/
def dbgHeld (s : State) (pasid : Nat) : Bool := ((tget? s.ctxs pasid).map (·.dbgStop)) == some true

/-- Leave a barrier: the block's waiting lanes pass it, its active lanes acquire, and its completion is logged. -/
def leaveBar (s : State) (b : Nat) : State :=
  match tget? s.blocks b with
  | none => s
  | some B =>
    match B.barw with
    | none => s
    | some w =>
      let gs := s.groupsOf b
      let s := gs.foldl (fun s g => s.modGroup b g fun G => G.mapIssuers fun i => if i.wait == .inst then i.past 1 else i) s
      let s := s.modBlock b fun B => { B with barw := none }
      let s := logAdd (bumpRc s b gs.length) b (.sync (rcOf s b))
      if w.act.all fun a => a.2 == 0#64 then s else acquireCore s (homeOf s b)

/-- A barrier among blocks: after its release the block waits for the instance. A view's re-execution passes it at once,
as the log's completion entry stands for the instance (R337). -/
def instOp (k : BarKind) (s : State) : Out :=
  releaseThen (fun s c =>
    let s := chargeWord 0x09 .issue s
    let s := s.modBlock c.blk fun B => { B with barw := some ⟨k, false, c.act⟩ }
    let s := block .inst s
    .next (if s.sandbox.isSome then leaveBar s c.blk else s)) s

/-- R164: the blocks of the gang. -/
def execGbar (s : State) : Out := instOp .gang s

/-- R164: every block of a co-resident grid. -/
def execGrdbar (s : State) : Out :=
  match s.cur with
  | none => .next s
  | some c => if (gridOfB s c.blk).cor then instOp .grid s else faultUnitWord Code.gridNotcor 0 s

/-- R134, R165. -/
def execSstepCluster (s : State) : Out := instOp .cluster s

/-- R134, R165. -/
def execSstepDie (s : State) : Out := instOp .die s

/-! ### Work creation (R38, R39, R166) -/

/-- The fault of a fork (R166, R38), in the order of R166. -/
def forkFault (s : State) (b off : Nat) : Option Nat :=
  let g := gridOfB s b
  if off % 64 ≠ 0 then some Code.spmAlign
  else if ((tget? s.blocks b).map (·.spmLen)).getD 0 < off + 96 then some Code.spmBounds
  else if 1 < g.gngb ∨ 1 < g.clug ∨ 1 < g.diec ∨ g.cor then some Code.forkDenied
  else if 8 ≤ g.depth then some Code.forkDepth
  else none

/-- The capability of a granule of a block's scratchpad. -/
def spmCap (s : State) (b off : Nat) : Cap :=
  let m := blockSpm s b
  ⟨BitVec.ofNat 128 (leNat (m.read off 16)), m.tag off⟩

/-- The child grid of an accepted record. -/
def childGrid (s : State) (b off : Nat) (B : Block) : Grid :=
  let g := s.gridOf B
  let r : LRec := leNat ((blockSpm s b).read off 64)
  let root := spmCap s b (off + 48)
  gridOfRec r g.launch B.pasid (some b) (g.depth + 1) g.pri (1 + B.forks) (spmCap s b (off + 32))
    [if root.tag then root else Cap.null] (viewsOf ((blockSpm s b).read (off + 64) 32))

/-- The release of a `fork`: every store that the block has made is visible to the child, whichever lane made it (R40). -/
def releaseBlock (go : State → Cur → Out) (s : State) : Out :=
  match s.cur with
  | none => .next s
  | some c =>
    let els := (s.groupsOf c.blk).flatMap fun g => (List.range 64).map fun l => (g, l)
    let s := releaseStart s c.blk els
    let bad := faultedOf s c.blk ((lanesBy s c.arr (·.lanes)).flatMap fun x => (lanesOf x.2).map fun l => (x.1, l)) fun _ => true
    if !bad.isEmpty then .next (block .rel (parkLate s c.blk bad))
    else if released s c.blk els then go s c
    else .next (block .rel s)

/-- R166. An accepted fork begins the save of its block (R39); a rejected one, and one of a view's re-execution, gives its
status at once. -/
def execFork (a : BitVec 6) (b : RSrc) (s : State) : Out :=
  match s.cur with
  | none => .next s
  | some c =>
    if c.empty then .next (retire s)
    else
      let off := (c.src s b).toNat
      match forkFault s c.blk off with
      | some code => faultUnitWord code 0 s
      | none => releaseBlock (fun s c =>
          match tget? s.blocks c.blk, ctxOf s c.blk with
          | some B, some x =>
            let code := recordCode s x (leNat ((blockSpm s c.blk).read off 64)) true
            if code ≠ 0 ∨ s.sandbox.isSome then
              done 0x09 .issue (putUni (freeS s c [(b, 1)]) c a (BitVec.ofNat 64 code))
            else
              let (gid, s) := addGrid s (childGrid s c.blk off B)
              let s := s.modBlock c.blk fun B =>
                { B with forks := B.forks + 1, forkDst := some (a, c.live, gid), phase := .saving }
              done 0x09 .issue (freeS s c [(b, 1)])
          | _, _ => .next s) s

/-! ### wait, yield, trap (R54, R159, R160) -/

/-- Limits of the four counters, none for no limit (R53, R54). -/
abbrev Lims := CK → Option Nat

def limOf (w : WaitLim) : Lims
  | .ld => if w.l = 15#4 then none else some w.l.toNat
  | .st => if w.s = 15#4 then none else some w.s.toNat
  | .cp => if w.c = 7#3 then none else some w.c.toNat
  | .tl => if w.t = 7#3 then none else some w.t.toNat

/-- The counters of a lane that are above their limits. -/
def overLims (w : Lims) (c : Ctr) : List CK :=
  [CK.ld, .st, .cp, .tl].filter fun k => match w k with | some n => decide (n < c.get k) | none => false

/-- Lanes that wait on the counter of an operation that met a terminal fault after issue: the faulted ones alone, which
never complete, exceed the limit (R198, R207). -/
def stuckOf (s : State) (b : Nat) (els : List (Nat × Nat × Lims)) : List (Nat × Nat × Nat) :=
  els.flatMap fun (g, l, w) =>
    let mine := s.ops.filter fun (_, o) => o.blk == b && o.gidx == g && o.lanes.any fun q =>
      q.lane == l && match q.ph with | .faulted _ => true | _ => false
    (mine.filter fun (_, o) => match w o.kind.ctr with
      | some n => decide (n < (mine.filter fun x => x.2.kind.ctr == o.kind.ctr).length)
      | none => false).map fun (k, _) => (g, l, k)

/-- Elements of the active set that the limits hold back, with the counters. -/
def waiting (s : State) (c : Cur) (w : WaitLim) : List (Nat × Nat × List CK) :=
  c.elems.filterMap fun (g, l) =>
    let o := ((s.grp? c.blk g).map fun G => overLims (limOf w) (G.ctrs l)).getD []
    if o.isEmpty then none else some (g, l, o)

/-- R54: at lane scope the limits have tightened the gating of the clause, and the word has no further effect; at a wide
scope it waits. A lane whose wait is on a faulted operation parks (R198, R207). A view waits on no counter (R337). -/
def execWait (e : Scope) (lim : WaitLim) (s : State) : Out :=
  match s.cur with
  | none => .next s
  | some c =>
    let ws := waiting s c lim
    if e = .lane ∨ ws.isEmpty ∨ s.sandbox.isSome then
      -- a copy completion that a wide wait observes is acquired (Table 9.7)
      done 0x08 .issue (if e ≠ .lane ∧ lim.c ≠ 7#3 then acquireNow s c else s)
    else
      let bad := stuckOf s c.blk (c.elems.map fun (g, l) => (g, l, limOf lim))
      .next (block .lim (parkLate s c.blk bad))

/-- R159: the issuer owes a turn to every other runnable issuer of its group, and the group is placed last at the core's
next choice. An entry 65 × y + k of `yielded` says that issuer y waits for a turn of issuer k; 4225 marks the group. -/
def execYield (s : State) : Out :=
  match s.cur with
  | none => .next s
  | some c =>
    match c.arr with
    | r :: _ =>
      let s := if c.empty then s else s.modGroup r.blk r.gidx fun G =>
        let others := G.issuers.filter fun k => k != r.iss && ((G.issuer? k).map Issuer.runnable) == some true
        { G with yielded := ninsert (others.foldl (fun t k => ninsert t (65 * r.iss + k)) G.yielded) 4225 }
      done 0x08 .issue s
    | [] => .next s

/-- R160: each issue is charged (Table 11.1), and takes its fault. -/
def execTrap (_e : Scope) (code : BitVec 16) (s : State) : Out := faultAll Code.softTrap code.toNat (chargeWord 0x08 .issue s)

end Sys2Proof.Machine
end

