-- ==== Sys2Proof/Machine/Sys.lean ====
section
/-!
DEFINITION. The SYS class (Table 11.2; R167 to R176): special registers, operating-point and meter requests, labels, trace
and debug, and the supervisor's privileged writes. Shared with the events: the trace stream, debug stops, capture.
-/

namespace Sys2Proof.Machine

/-! ### Special registers (R21, R70, R167 to R169, Table 11.6) -/

/-- Numbers of Table 3.18. -/
def sregNum : SReg → Nat
  | .lvl k => k.toNat
  | .gidx => 0x08
  | .bidx => 0x09
  | .cyc => 0x0A
  | .reft => 0x0B
  | .fstep => 0x0C
  | .wsref => 0x0D
  | .eacc => 0x0E
  | .ebkt => 0x0F
  | .world => 0x10
  | .ctx => 0x11
  | .view k => 0x12 + k.toNat

/-- Shadowed registers (Table 11.6). -/
def sregShadowed : SReg → Bool
  | .cyc | .reft | .fstep | .wsref | .eacc | .ebkt | .view _ => true
  | _ => false

/-- FSTEP (Table 23.4). -/
def fstepWord (d : Die) : DWord :=
  BitVec.ofNat 64 (field 6 0 d.step + field 7 7 (if d.chg.isSome then 1 else 0) + field 14 8 d.pstep +
    field 47 16 d.tchg.toNat + field 55 48 (d.chgs % 256))

/-- WSREF (Table 9.5): the next window begins at the next multiple of 250 ns. -/
def wsrefWord (reft : Nat) : DWord :=
  let k := reft / 250 + 1
  BitVec.ofNat 64 (field 31 0 (250 * k) + field 36 32 (k % 32) + field 47 40 0x78 + field 63 48 0xFA)

/-- REFT as a die's copy shows it (R307). -/
def reftAt (s : State) (die : Nat) : Nat := ((s.reft : Int) + (s.die die).skew).toNat

/-- The value of a special register at a lane. -/
def sregValue (s : State) (b g lane : Nat) (r : SReg) : DWord :=
  match tget? s.blocks b with
  | none => 0#64
  | some B =>
    let die := dieOf B.home
    let c := tget? s.ctxs B.pasid
    match r with
    | .lvl k => BitVec.ofNat 64 (if k = 0#3 then lane else (s.gridOf B).lvl B.bidx g k.toNat)
    | .gidx => BitVec.ofNat 64 g
    | .bidx => BitVec.ofNat 64 B.bidx
    | .cyc => BitVec.ofNat 64 (s.cycles die)
    | .reft => BitVec.ofNat 64 (reftAt s die)
    | .fstep => fstepWord (s.die die)
    | .wsref => wsrefWord (reftAt s die)
    | .eacc => BitVec.ofInt 64 ((c.map (·.meter)).getD 0)
    | .ebkt => BitVec.ofInt 64 ((c.map (·.level)).getD 0)
    | .world => BitVec.ofNat 64 ((c.map (·.world)).getD 0)
    | .ctx => BitVec.ofNat 64 B.pasid
    | .view k => ((s.grp? b g).map fun G => tgetD G.views k.toNat 0#64).getD 0#64

/-- Whether a register's sample comes from outside the block. -/
def sregOutside : SReg → Bool
  | .cyc | .reft | .fstep | .wsref | .eacc | .ebkt => true
  | _ => false

/-- Sample a register once for an issue: a `.LO` read of a shadowed register stores the sample in the shadow of every
group that reads it (R168). -/
def sample (s : State) (c : Cur) (r : SReg) (hi : Bool) : State :=
  if hi || !sregShadowed r then s
  else if sregOutside r then
    let (v, s) := logged s c.blk kRd (64 * c.lead) (sregNum r) (sregValue s c.blk c.lead 0 r).toNat
    c.live.foldl (fun s g => s.modGroup c.blk g fun G => { G with shadow := tput G.shadow (sregNum r) (BitVec.ofNat 64 v) 0#64 }) s
  else c.live.foldl (fun s g => s.modGroup c.blk g fun G =>
    { G with shadow := tput G.shadow (sregNum r) (sregValue s c.blk g 0 r) 0#64 }) s

/-- The half that a lane reads, after the sample. -/
def halfAt (s : State) (b g lane : Nat) (r : SReg) (hi : Bool) : Word :=
  let v := if sregShadowed r then ((s.grp? b g).map fun G => tgetD G.shadow (sregNum r) 0#64).getD 0#64 else sregValue s b g lane r
  if hi then v.extractLsb' 32 32 else v.extractLsb' 0 32

/-- R167. -/
def execRdsr (_e : Scope) (a : VDst) (r : SReg) (hi : Bool) (s : State) : Out :=
  match s.cur with
  | none => .next s
  | some c =>
    if c.empty then .next (retire s)
    else match ready? s c [] (.v a) false with
      | some o => o
      | none =>
        let s := sample s c r hi
        let res := c.act.filterMap fun (g, m) =>
          if m == 0#64 then none else some (g, (lanesOf m).map fun l => (l, VCell.val (halfAt s c.blk g l r hi)))
        done 0x0A .issue (writeCells s c.blk a res)

/-- R167: of LVL0 the lowest-numbered lane of the active set. -/
def execRdsu (_e : Scope) (a : BitVec 6) (r : SReg) (hi : Bool) (s : State) : Out :=
  match s.cur with
  | none => .next s
  | some c =>
    if c.empty then .next (retire s)
    else
      let s := sample s c r hi
      let lane := ((c.elems.head?).map (·.2)).getD 0
      done 0x0A .issue (putUni s c a ((halfAt s c.blk c.lead lane r hi).zeroExtend 64))

/-- Write a half of a VIEW register and its shadow; reserved bits read as zero (R169, Table 17.9). -/
def putViewHalf (G : Group) (k num : Nat) (hi : Bool) (v : Word) : Group :=
  let old := tgetD G.views k 0#64
  let w := (if hi then v ++ old.extractLsb' 0 32 else old.extractLsb' 32 32 ++ v) &&& 0xF3F3F3FFF#64
  { G with views := tput G.views k w 0#64, shadow := tput G.shadow num w 0#64 }

/-- R169. -/
def execSrwr (_e : Scope) (k : BitVec 2) (hi : Bool) (a : RSrc) (s : State) : Out :=
  match s.cur with
  | none => .next s
  | some c =>
    if c.empty then .next (retire s)
    else
      let v := (c.src s a).extractLsb' 0 32
      let s := freeS s c [(a, 1)]
      done 0x0A .issue (c.live.foldl (fun s g => s.modGroup c.blk g fun G => putViewHalf G k.toNat (0x12 + k.toNat) hi v) s)

/-! ### Operating points (R170, R304, Table 11.8) -/

/-- The ceiling of a crown domain (R304). -/
def Die.ceiling (d : Die) : Nat := min d.lceil (min d.pceil d.derate)

/-- The allowance, then the ceiling. -/
def clampStep (d : Die) (n ceil : Nat) : Nat := min (max (min n (partSmax d.part)) (partSmin d.part)) ceil

/-- The step in force once every change that has begun has taken effect. -/
def Die.begun (d : Die) : Nat :=
  match d.chg with
  | some (.ramp t _ _) => t
  | some (.relock t _ _ _) => t
  | some (.lower _) => d.step
  | none => d.step

/-- The current step of R170. -/
def Die.current (d : Die) : Nat :=
  match d.want with
  | some (t, _, _) => t
  | none => d.begun

/-- Ask for a step: a request for the step that will be in force withdraws one that has not begun. -/
def Die.request (d : Die) (t : Nat) (cause : Cause) (now : Nat) : Die :=
  if t = d.begun then { d with want := none } else { d with want := some (t, cause, now) }

/-- The result word and the domain afterwards. -/
def opreq (d : Die) (may : Bool) (n now : Nat) : Nat × Die :=
  if !may then (field 6 0 d.current + field 9 8 2, d)
  else
    let t := clampStep d n d.ceiling
    if t = d.current then (field 6 0 t + field 9 8 3, d)
    else (field 6 0 t + field 9 8 (if t = n then 0 else 1), d.request t 0 now)

/-- R170. -/
def execOpreq (_e : Scope) (a : BitVec 6) (n : BitVec 7) (s : State) : Out :=
  match s.cur with
  | none => .next s
  | some c =>
    if c.empty then .next (retire s)
    else
      let die := dieOf (homeOf s c.blk)
      let d := s.die die
      let may := partDed d.part && ((ctxOf s c.blk).map (·.func)) == some (partFunc d.part)
      let (v, d') := opreq d may n.toNat s.reft
      let (v, s) := logged s c.blk kOpreq (64 * c.lead) n.toNat v
      let s := if s.sandbox.isSome then s else s.setDie die d'
      done 0x0B .issue (putUni s c a (BitVec.ofNat 64 v))

/-! ### Meter requests (R171, R172) -/

/-- The number after a request number: counted from 1, skipping 0 at the wrap. -/
def nextReq (n : Nat) : Nat := if n + 1 = 2 ^ 32 then 1 else n + 1

/-- Charges of a world in a list. -/
def worldCharges (s : State) (w : Nat) (l : List Charge) : List Charge :=
  l.filter fun c => match c.acct with
    | some p => worldOfAcct s p == some w
    | none => false

/-- The trace entry in force of every die, and how many of its changes came before now: one that is recorded at this very time lies in
the interval that begins now (R311). -/
def stepSnap (s : State) : List (Nat × Nat) := (List.range 24).map fun d =>
  let D := s.die d
  ((tgetD D.trace0 (D.chgs % 256) 0#128).toNat, D.chgs - (D.trace0.filter fun e => bits e.2.toNat 63 0 == s.reft && bits e.2.toNat 83 80 != 0xF).length)

/-- R171: a request takes the next number, or none while four of the world are outstanding. -/
def requestReading (s : State) (c : Cur) (k : Cap) : Nat × State :=
  let w := worldOf s c.blk
  match tget? s.worlds w with
  | none => (0, s)
  | some W =>
    if 4 ≤ W.readings.length then (0, s)
    else
      let n := nextReq W.reqs
      let lanes := ((c.act.find? fun a => a.1 == c.lead).map (·.2)).getD 0#64
      let f : FaultRec := { code := 0, mtr := true, scope := c.e, gidx := c.lead, paddr := c.addr, pword := c.idx, lanes, data := n }
      let r : Reading := { req := n, pasid := pasidOf s c.blk, cap := k, t1 := s.reft, tick := s.energy.tick, meter := W.meter
                           part := worldCharges s w s.energy.now, prevPart := worldCharges s w s.energy.prev, dies := W.dies
                           snap := stepSnap s, fault := (recFor s c.blk f).bits }
      (n, s.modWorld w fun W => { W with reqs := n, readings := W.readings ++ [r], dies := [] })

/-- R171. The request follows the charge of the instruction, which counts before T1 (R310). -/
def execMtrq (_e : Scope) (a : RSrc) (b : BitVec 6) (s : State) : Out :=
  match s.cur with
  | none => .next s
  | some c =>
    if c.empty then .next (retire s)
    else
      let k := c.srcPair s a
      match capCheck k 0 4096 Perm.w with
      | .error (code, dat) => faultWord code dat s
      | .ok x =>
        if x % 64 ≠ 0 then faultWord Code.capAlign x s
        else
          let s := chargeWord 0x0B .issue s
          let (n, t) := requestReading s c k
          let (n, s) := logged (if s.sandbox.isSome then s else t) c.blk kMtrq (64 * c.lead) x n
          .next (retire (putUni (freeS s c [(a, 2)]) c b (BitVec.ofNat 64 n)))

/-- The sampling that an `msamp` sets: period and channel are replaced, and a new period begins; the samples discarded since the last
one delivered still count, and a period that has ended keeps its sample (R172, Table 11.9). -/
def resample (old : Option MSamp) (n : Nat) (ch : BitVec 6) : Option MSamp :=
  let drops := (old.map (·.drops)).getD 0
  let due := old.bind fun m =>
    if m.period ≠ 0 ∧ m.left ≤ 1 then some ⟨m.chan, m.left == 1, m.start, m.bounded⟩ else m.due
  if n = 0 ∧ drops = 0 ∧ due.isNone then none else some ⟨n, ch, n + 2, 0, drops, false, due⟩

/-- R172. A period covers whole ticks, from the first that begins after the instruction; a tick's energy is known one tick
after its end (assumption 26). -/
def execMsamp (_e : Scope) (a : RSrc) (ch : BitVec 6) (s : State) : Out :=
  match s.cur with
  | none => .next s
  | some c =>
    if c.empty then .next (retire s)
    else match s.grp? c.blk c.lead with
      | none => .next s
      | some G =>
        match tget? G.chans ch.toNat with
        | none => faultWord Code.chanUnbound 0 s
        | some x =>
          if x.kind ≠ 6 then faultWord Code.chanDir 0 s
          else
            let n := min (c.src s a).toNat 65535
            let s := freeS s c [(a, 1)]
            done 0x0B .issue (s.modGroup c.blk c.lead fun G =>
              { G with msamp := resample G.msamp n ch })

/-! ### The trace (R173, R174, R338, R339) -/

/-- A group's records are written: the capture is on, and the group is selected (Table 27.4). -/
def traced (c : Ctx) (G : Group) : Bool :=
  c.cap == .on && dbgField c 47 32 != 0 && (!dbgBit c (512 + 48) || G.labels.contains (BitVec.ofNat 16 (dbgField c (512 + 47) (512 + 32))))

/-- Write a trace record (Table 27.5) to the circular buffer, when the capture is on. -/
def traceRec (s : State) (b g kind val : Nat) : State :=
  match tget? s.blocks b with
  | none => s
  | some B =>
    match tget? s.ctxs B.pasid with
    | none => s
    | some c =>
      let pages := dbgField c 47 32
      if c.cap != .on || pages == 0 || s.sandbox.isSome then s
      else
        let r := field 3 0 kind + field 12 8 g + field 31 16 val + field 63 32 B.bidx + field 95 64 B.iv + field 127 96 B.rc
        let s := devWrite s (some c.world) c.func (dbgField c 191 128 + 16 * (c.trp % (256 * pages))) (natBytes 16 r)
        s.modCtx B.pasid fun c => { c with trp := c.trp + 1 }

/-- A record of a group, when the group is selected. -/
def traceGroup (s : State) (b g kind val : Nat) : State :=
  match ctxOf s b, s.grp? b g with
  | some c, some G => if traced c G then traceRec s b g kind val else s
  | _, _ => s

/-- Requests to the capture (R338): 0 start, 1 stop, 2 freeze, 3 thaw. -/
def capture (s : State) (pasid act : Nat) : State :=
  if s.sandbox.isSome then s
  else s.modCtx pasid fun c =>
    match act with
    | 0 => { c with trp := 0, cap := .on }
    | 1 => { c with cap := .off }
    | 2 => if c.cap == .on then { c with cap := .frozen } else c
    | _ => if c.cap == .frozen then { c with cap := .on } else c

/-- The label filter at a push that placed a label (Table 27.4). -/
def filterPush (s : State) (b : Nat) (label : BitVec 16) : State :=
  match ctxOf s b with
  | none => s
  | some c =>
    let s := if dbgBit c (512 + 49) && dbgField c (512 + 15) 512 == label.toNat then capture s (pasidOf s b) 0 else s
    if dbgBit c (512 + 50) && dbgField c (512 + 31) (512 + 16) == label.toNat then
      capture s (pasidOf s b) (if dbgBit c (512 + 51) then 2 else 1) else s

/-- A label instruction: it takes effect once for each group with an active lane, in ascending GIDX, after it has
retired. How many marker records a `trmark` of several groups appends is not said in R174: the model appends one for each group with an
active lane for which capture is active, as a record names a group (DESIGN CHOICE, assumption 89). -/
def labelOp (f : State → Nat → Nat → State) (s : State) : Out :=
  match s.cur with
  | none => .next s
  | some c => .next (c.live.foldl (fun s g => f s c.blk g) (retire (chargeWord 0x0C .issue s)))

/-- R173. -/
def execRpush (_e : Scope) (l : BitVec 16) (s : State) : Out :=
  labelOp (fun s b g =>
    match s.grp? b g with
    | none => s
    | some G =>
      if G.labels.length < 16 then
        let s := s.modGroup b g fun G => { G with labels := l :: G.labels }
        traceGroup (filterPush s b l) b g 2 l.toNat
      else s.modGroup b g fun G => { G with lovf := min 255 (G.lovf + 1) }) s

/-- R173. -/
def execRpop (_e : Scope) (s : State) : Out :=
  labelOp (fun s b g =>
    match s.grp? b g with
    | none => s
    | some G =>
      if G.lovf ≠ 0 then s.modGroup b g fun G => { G with lovf := G.lovf - 1 }
      else match G.labels with
        | [] => s
        | l :: r => (traceGroup s b g 3 l.toNat).modGroup b g fun G => { G with labels := r }) s

/-- R174. -/
def execTrmark (_e : Scope) (v : BitVec 16) (s : State) : Out := labelOp (fun s b g => traceGroup s b g 1 v.toNat) s

/-- A trctl action: it acts only where self-control is permitted, and is otherwise nop (R174). -/
def trctlOp (act : Nat) (s : State) : Out :=
  match s.cur with
  | none => .next s
  | some c =>
    let self := !c.empty && ((ctxOf s c.blk).map fun x => dbgBit x 0) == some true
    done 0x0C .issue (if self then capture s (pasidOf s c.blk) act else s)

/-- R174. -/
def execTrctlStart (_e : Scope) (s : State) : Out := trctlOp 0 s
/-- R174. -/
def execTrctlStop (_e : Scope) (s : State) : Out := trctlOp 1 s
/-- R174. -/
def execTrctlFreeze (_e : Scope) (s : State) : Out := trctlOp 2 s
/-- R174. -/
def execTrctlThaw (_e : Scope) (s : State) : Out := trctlOp 3 s

/-! ### Debug stops (R175, R336) -/

/-- A debug stop of a context: every block stops, and a record of kind 5 names the position of each (R339). -/
def debugStop (s : State) (pasid : Nat) : State :=
  let s := s.modCtx pasid fun c => { c with dbgStop := true }
  (s.blocks.filter fun b => b.2.pasid == pasid).foldl (fun s (b, _) => traceRec s b 0 5 0) s

/-- A stop after the word has retired, where it is enabled; in a view it does not stop (R337). -/
def stopOp (enabled : Ctx → Bool) (s : State) : Out :=
  match s.cur with
  | none => .next s
  | some c =>
    let on := !c.empty && s.sandbox.isNone && ((ctxOf s c.blk).map enabled) == some true
    let s := retire (chargeWord 0x0C .issue s)
    .next (if on then debugStop s (pasidOf s c.blk) else s)

/-- R175: breakpoint n. -/
def execBkpt (_e : Scope) (n : Byte) (s : State) : Out := stopOp (fun x => dbgBit x (256 + n.toNat)) s

/-- R175. -/
def execDbgstop (_e : Scope) (s : State) : Out := stopOp (fun x => dbgBit x 1) s

/-- R175: the interval of a replayable block ends after it, once 2^16 group-instructions have retired in it. -/
def execChkpt (_e : Scope) (s : State) : Out :=
  match s.cur with
  | none => .next s
  | some c =>
    let s := retire (chargeWord 0x0C .issue s)
    .next (if !c.empty && replayable s c.blk && decide (2 ^ 16 ≤ rcOf s c.blk) then
      s.modBlock c.blk fun B => { B with chk := true } else s)

/-! ### Privileged writes (R69, R176, Table 11.10) -/

/-- The world 0 supervisor (R69): a context of world 0 whose FUNC is 0. -/
def supervisor (s : State) (pasid : Nat) : Bool :=
  match tget? s.ctxs pasid with
  | some c => c.world == 0 && c.func == 0
  | none => false

/-- A privileged write: PRIV_OP for any other issuer, LIMIT_BAD or PLACE_LIVE by its own checks, and otherwise one write.
A view's re-execution writes nothing (R337). -/
def privOp (a b c : RSrc) (go : State → Nat → Nat → Nat → Except Nat State) (s : State) : Out :=
  match s.cur with
  | none => .next s
  | some cu =>
    if !supervisor s (pasidOf s cu.blk) then faultAll Code.privOp 0 s
    else if cu.empty then .next (retire s)
    else match go s (cu.src s a).toNat (cu.src s b).toNat (cu.src s c).toNat with
      | .error code => faultWord code 0 s
      | .ok t =>
        let s := if s.sandbox.isSome then s else t
        done 0x0D .issue (freeS s cu [(a, 1), (b, 1), (c, 1)])

/-- A suspended context, for `plwr`: no block of it on a core, and nothing outstanding. R67 says when an entry may be written, "with no
group resident and no operation outstanding", and nowhere what else makes a context suspended: the model asks nothing else, so that one
with a launch in progress of which nothing is resident counts as suspended (DESIGN CHOICE, assumption 87). -/
def suspended (s : State) (p : Nat) : Bool :=
  (s.blocks.all fun b => b.2.pasid != p || !b.2.phase.onCore) && s.ops.all (fun o => pasidOf s o.2.blk != p) &&
    s.tops.all (fun o => pasidOf s o.2.blk != p)

/-- The place table entry as written: reserved fields are zero (Table 3.10). -/
def placeEntry (v : Nat) : Word := BitVec.ofNat 32 (field 11 0 v + field 19 16 (bits v 19 16) + field 31 31 (bits v 31 31))

/-- R67, R176: plwr. -/
def plwrGo (s : State) (x y z : Nat) : Except Nat State :=
  if 2 ^ 20 ≤ x ∨ 256 ≤ y ∨ 2 ^ 32 ≤ z ∨ (tget? s.ctxs x).isNone then .error Code.limitBad
  else if !suspended s x then .error Code.placeLive
  else .ok (s.modCtx x fun c => { c with places := tput c.places y (placeEntry z) 0#32 })

/-- R67, R176. -/
def execPlwr (a b c : RSrc) (s : State) : Out := privOp a b c plwrGo s

/-- A quantum entry as held: QUS raised to 64, with CL set when it was (Table 19.6). -/
def quantumHeld (v : Nat) : Word :=
  let q := bits v 15 0
  let r := q != 0 && decide (q < 64)
  BitVec.ofNat 32 (field 15 0 (if r then 64 else q) + field 20 16 (bits v 20 16) + field 21 21 (bits v 21 21) +
    field 29 22 (bits v 29 22) + field 31 31 (if r then 1 else 0))

/-- R278: qtwr. An entry written with QUS 0 is cleared, which ends a descheduling by gang misses (R281). The slice that runs keeps the
entry that it began under (`Die.ents`); the written one is used from the next slice boundary (Table 11.10). -/
def qtwrGo (s : State) (f i v : Nat) : Except Nat State :=
  if 64 ≤ f ∨ 16 ≤ i ∨ 2 ^ 32 ≤ v ∨ 24 ≤ bits v 20 16 ∨ bit v 30 ∨ (bit v 21 ∧ bits v 29 22 = 0) then .error Code.limitBad
  else
    let s := s.modFunc f fun F => { F with quantum := tput F.quantum i (quantumHeld v) 0#32 }
    let s := if bits v 15 0 ≠ 0 then s
      else
        let missed := tgetD (s.func f).misses i 0
        let s := s.modFunc f fun F => { F with misses := tdel F.misses i }
        if missed < 3 then s
        else { s with ctxs := s.ctxs.map fun (p, c) => (p, if c.func == f && c.gng then { c with desch := false } else c) }
    .ok s

/-- R278. -/
def execQtwr (a b c : RSrc) (s : State) : Out := privOp a b c qtwrGo s

/-- R124: limwr. -/
def limwrGo (s : State) (d sel v : Nat) : Except Nat State :=
  let spmax := bits v 3 0
  let l1min := bits v 7 4
  if 24 ≤ d ∨ sel ≠ 0 ∨ 12 < spmax + l1min ∨ l1min = 0 ∨ 512 < bits v 24 16 + bits v 34 25 then .error Code.limitBad
  else .ok (s.modDie d fun D => { D with pmlim := BitVec.ofNat 64 (field 3 0 spmax + field 7 4 l1min +
    field 24 16 (bits v 24 16) + field 34 25 (bits v 34 25)) })

/-- R124. It takes effect on each core once no block is resident there: at PMLIM_APPLY. -/
def execLimwr (a b c : RSrc) (s : State) : Out := privOp a b c limwrGo s

/-- The event classes that Table 23.1 defines. -/
def eventClass (c : Nat) : Bool :=
  decide (c ≤ 0x04) || (decide (0x08 ≤ c) && decide (c ≤ 0x0D)) || (decide (0x10 ≤ c) && decide (c ≤ 0x12)) ||
  (decide (0x14 ≤ c) && decide (c ≤ 0x16)) || (decide (0x18 ≤ c) && decide (c ≤ 0x1D)) || (decide (0x20 ≤ c) && decide (c ≤ 0x29)) ||
  (decide (0x2C ≤ c) && decide (c ≤ 0x2E)) || (decide (0x30 ≤ c) && decide (c ≤ 0x34)) || (decide (0x38 ≤ c) && decide (c ≤ 0x40))

/-- R176: wtwr. -/
def wtwrGo (s : State) (d y v : Nat) : Except Nat State :=
  if 24 ≤ d ∨ 64 < bits y 6 0 ∨ bit y 7 ∨ 2 ^ 16 ≤ y ∨ 2 ^ 32 ≤ v ∨ !eventClass (bits y 15 8) then .error Code.limitBad
  else .ok (s.modDie d fun D => { D with newWeights := tset D.newWeights (256 * bits y 6 0 + bits y 15 8) (BitVec.ofNat 32 v) })

/-- R176: in force from the die's next tick. -/
def execWtwr (a b c : RSrc) (s : State) : Out := privOp a b c wtwrGo s

end Sys2Proof.Machine
end

