-- ==== Sys2Proof/Machine/Carder.lean ====
section
/-!
DEFINITION. Issue at a core (R23 to R28, R36, R45, R49, R50, R53, R193, R253, R274 to R276, R333, R334): what goes on in a
group at its clause boundaries, the choice of the issuer, and the issue of a clause; the RCV hold's timeout and the replay
of a timing error.
-/

namespace Sys2Proof.Machine

/-! ### Streams and diverged lanes (R25, R27) -/

/-- Take in the diverged lanes that stand at the stream's next clause under the same code capability (R25, R156); what their gates
hold is looked at again. -/
def Group.resubscribe (G : Group) : Group :=
  if G.stream.lanes = 0#64 ∨ G.stream.atGate = false then G
  else
    let (here, there) := G.div.partition fun d => d.2.atGate && d.2.code == G.stream.code
    if here.isEmpty then G
    else { G with div := there
                  stream := { G.stream with wait := .go, lanes := here.foldl (fun m d => m ||| d.2.lanes) G.stream.lanes } }

/-! ### Loop buffers (R23) -/

/-- The clause at an issuer's boundary as its buffer holds it: header and words. -/
def Issuer.buffered (i : Issuer) : Option (Word × List Word) := (i.buf.find? fun e => e.1 == i.code).map (·.2)

/-- The whole clauses, latest use first, that fit in a number of words. -/
def bufKeep : Nat → List (Cap × Word × List Word) → List (Cap × Word × List Word)
  | _, [] => []
  | room, e :: r => if 1 + e.2.2.length ≤ room then e :: bufKeep (room - (1 + e.2.2.length)) r else []

/-- Keep a clause that has been fetched or found: a diverged lane's buffer of 48 words displaces whole clauses, least recently
used first (R23); the stream, whose clauses are fetched once for the group, keeps the one that it has yet to issue. -/
def Issuer.keep (k : Nat) (hdr : Word) (ws : List Word) (i : Issuer) : Issuer :=
  { i with buf := if k = 0 then [(i.code, hdr, ws)] else bufKeep 48 ((i.code, hdr, ws) :: i.buf.filter fun e => e.1 != i.code) }

/-! ### A clause at its boundary -/

/-- Limits of a clause's gating: its header's, tightened by a lane-scope `wait` at word index 1 (R53, R54). -/
def clauseLims (h : Header) (ws : List Word) : Lims := fun k =>
  let w := ws.headD 0#32
  let hd := match k with
    | .ld => if h.wl = 15 then none else some h.wl
    | .st => if h.ws = 15 then none else some h.ws
    | .cp => if h.wc = 7 then none else some h.wc
    | .tl => if h.wt = 7 then none else some h.wt
  let lim : WaitLim := ⟨w.extractLsb' 0 4, w.extractLsb' 4 4, w.extractLsb' 8 3, w.extractLsb' 11 3⟩
  let wt := if h.eng = some .ctl ∧ opc w = 0x10 ∧ scopeOf w = .lane then limOf lim k else none
  match hd, wt with
  | some a, some b => some (min a b)
  | some a, none => some a
  | none, b => b

/-- A counter's capacity (Table 3.3). -/
def capacity : CK → Nat
  | .ld | .st => 63
  | .cp | .tl => 15

/-- The limits of a clause with the room that its own words need. -/
def issueLims (lims : Lims) (rs : List (Scope × CK × Nat × Bool)) : Lims := fun k =>
  let n := (rs.filter fun r => r.2.1 == k).length
  let room := capacity k - n
  match lims k with
  | some a => some (min a room)
  | none => if n = 0 then none else some room

/-- What an issuer at a clause boundary would do at an issue opportunity. -/
inductive Want where
  /-- its clause fetched, to be issued -/
  | issue (h : Header) (ws : List Word) (hdr : Word) (s : State)
  /-- a fault at (clause, 0), and whether the header could not be fetched -/
  | fault (code : Nat) (headless : Bool) (s : State)
  /-- the context is stopped by a line (R322) -/
  | bad (line : Nat)
  /-- its clause fetched, and held at the boundary: by its gate as in a `wait` (R53), or for symbol entries as on a pending
  register (R193) -/
  | wait (w : Wait) (ws : List Word) (hdr : Word) (s : State)
  /-- lanes park at the gate for operations that met a terminal fault -/
  | park (ws : List (Nat × Nat × Nat))
  /-- its words are asked of another package (R113) -/
  | remote

/-- The tile-queue entries that words of a clause from a word offset on will make, each named by its block, its unit, and its
place: a word of a wide scope makes one, whichever issuers of the unit come to it (R31, R253). -/
def tileKeys (unit : Scope → Nat) (b a : Nat) (e : Eng) : Nat → List Word → List (Nat × Nat × Nat × Nat)
  | _, [] => []
  | off, [w] => if (raiseOf e w 0#32).any fun x => x.2.2 then [(b, unit (scopeOf w), a, off)] else []
  | off, w :: x :: r =>
    (if (raiseOf e w x).any fun x => x.2.2 then [(b, unit (scopeOf w), a, off)] else []) ++
      if isLong e (opc w) then tileKeys unit b a e (off + 2) r else tileKeys unit b a e (off + 1) (x :: r)

/-- A number for the unit of an issuer's word: the issuer, its group, its set or its block. -/
def unitKey (s : State) (r : IRef) : Scope → Nat
  | .lane => 128 + 65 * r.gidx + r.iss
  | .group => r.gidx
  | .set => 32 + r.gidx / (gridOfB s r.blk).setg
  | .block => 64

/-- The tile-queue entries that the clauses in issue on a core will make (R253). -/
def tilesToCome (s : State) (core : Nat) : List (Nat × Nat × Nat × Nat) :=
  (s.groups.filter fun k => homeOf s (k.1 / 32) == core).flatMap fun (k, G) => G.issuers.flatMap fun n =>
    match (G.issuer? n).bind (·.cl) with
    | some c => (match engOf (c.hdr.extractLsb' 4 3).toNat with
      | some e => if c.idx = 0 then [] else tileKeys (unitKey s ⟨k / 32, k % 32, n⟩) (k / 32) c.addr e c.off (c.words.drop c.off)
      | none => [])
    | none => []

/-- Whether the tile queue of a core has room for the entries of one more clause: 32 in all (R253). -/
def tileRoom (s : State) (core : Nat) (mine : List (Nat × Nat × Nat × Nat)) : Bool :=
  mine.isEmpty || decide ((s.core core).tileQ.length + (tilesToCome s core ++ mine).dedup.length ≤ 32)

/-- R53 with R193 and R253 for the lanes of an issuer. A view is gated by nothing (R337). -/
def gate (s : State) (r : IRef) (i : Issuer) (h : Header) (ws : List Word) (hdr : Word) (s' : State) : Want :=
  match h.eng with
  | none => .wait .lim ws hdr s'
  | some e =>
    let rs := raises e ws
    let lims := issueLims (clauseLims h ws) rs
    let ls := lanesOf i.lanes
    let stuck := stuckOf s r.blk (ls.map fun l => (r.gidx, l, lims))
    let peers := (lanesBy s ((peersOf s r.blk r.gidx i).map fun k => ⟨r.blk, r.gidx, k⟩) (·.lanes)).flatMap fun x => lanesOf x.2
    let ok := match s.grp? r.blk r.gidx with
      | some G => ls.all fun l => (overLims lims (G.ctrs l)).isEmpty
      | none => false
    let core := homeOf s r.blk
    if s.sandbox.isSome then .issue h ws hdr s'
    else if !stuck.isEmpty then .park (stuckOf s r.blk (peers.map fun l => (r.gidx, l, lims)))
    else if !ok || !tileRoom s core (tileKeys (unitKey s r) r.blk i.code.cur e 0 ws) then .wait .lim ws hdr s'
    else if !symRoom s core r [(r.blk, r.gidx, symNeed rs)] then .wait .pend ws hdr s'
    else .issue h ws hdr s'

/-- An issuer's next clause, from its buffer or fetched whole, and its header and its gates (R23, R45, R49, R53). Where the words
that an illegal header's CNT names cannot be fetched, the fetch's fault is taken: R45 fetches the clause whole before anything of
it is looked at, and no rule gives R49 the priority (DESIGN CHOICE, assumption 74). -/
def want (s : State) (r : IRef) (i : Issuer) : Want :=
  match i.buffered with
  | some (hdr, ws) =>
    let h := decodeHeader hdr
    if h.legal then gate s r i h ws hdr s else .fault Code.illegalClause false s
  | none =>
    let die := dieOf (homeOf s r.blk)
    let p := pasidOf s r.blk
    let g := ((tget? s.blocks r.blk).map (·.grid)).getD 0
    let a := i.code.cur
    match fetchWords s die p g i.code a 1 with
    | .fault code s => .fault code true s
    | .bad l => .bad l
    | .remote _ => .remote
    | .ok w1 s1 =>
      let hdr := w1.headD 0#32
      let h := decodeHeader hdr
      match fetchWords s1 die p g i.code a (1 + h.cnt) with
      | .fault code s => .fault code false s
      | .bad l => .bad l
      | .remote _ => .remote
      | .ok ws s' => if h.legal then gate s r i h (ws.drop 1) hdr s' else .fault Code.illegalClause false s'

/-- Look at an issuer that stands at a clause boundary: its clause is fetched into its buffer, and `wait` records what its gate
says: whether it is runnable, or blocked as in a `wait` or on a pending register (R26, R53, R193). -/
def regate (s : State) (r : IRef) : State :=
  match s.issuer? r with
  | none => s
  | some i =>
    if i.lanes == 0#64 || !i.atGate then s
    else
      let core := homeOf s r.blk
      match want s r i with
      | .issue _ ws hdr s' => (symAsk s' core r false).modIssuer r fun i => { i.keep r.iss hdr ws with wait := .go }
      | .wait w ws hdr s' => (symAsk s' core r (w == .pend)).modIssuer r fun i => { i.keep r.iss hdr ws with wait := w }
      | .park _ => s.modIssuer r fun i => { i with wait := .lim }
      | .remote => (chargeFlits s r.blk core).modIssuer r fun i => { i with wait := .code s.reft i.code.cur (curSlot s (worldOf s r.blk)) }
      | .fault _ _ _ | .bad _ => s.modIssuer r fun i => { i with wait := .go }

/-! ### Who may issue -/

/-- Replayable work that needs a checkpoint first: at the first instruction and at an interval's end (R333). -/
def checkpointDue (s : State) (b : Nat) (B : Block) : Bool :=
  (s.gridOf B).rpl && s.sandbox.isNone &&
    ((tget? s.ckpts b).isNone || B.chk ||
      match tget? s.ctxs B.pasid with
      | some c => decide (2 ^ dbgField c 6 2 ≤ B.rc) || decide (4096 * c.logp < Config.logBytes B.log.length + 4096)
      | none => false)

/-- A view's block runs under the view job alone (R337). -/
def viewing (s : State) (b : Nat) : Bool := s.sandbox.isSome && (s.viewJob.map (·.b)) == some b

/-- Whether the issuers of a block may start clauses: it runs with its whole unit (R42), in its slice (R278 to R281), and its context's
bucket is not empty (R274). -/
def mayIssue (s : State) (b : Nat) (B : Block) : Bool :=
  viewing s b ||
  (B.phase == .resident && !checkpointDue s b B && !B.asSaved && unitRuns s B &&
    match tget? s.ctxs B.pasid with
    | some c => !c.halted && !c.dry && !c.desch && inSlice s c (dieOf B.home) && sliceRuns s (dieOf B.home)
    | none => false)

/-- Whether an issuer waits for an arrival or an element that comes from elsewhere, so that a replayable block's turn
passes over it (R334): also in an RCV hold, which waits for diverged lanes (R26). One whose element or phase has come waits no longer
(`wakeWaits`). -/
def passable (s : State) (r : IRef) (i : Issuer) : Bool :=
  i.lanes == 0#64 || (r.iss == 0 && i.cl.isNone && (((s.grp? r.blk r.gidx).bind (·.hold)).map (·.2)) == some false) ||
    match i.wait with
    | .rdv e => !i.closed && (arrivals s r.blk (unitGroups s r.blk r.gidx e) i).isNone
    | .chan _ | .barw | .inst => true
    | _ => false

def Group.cyclic (G : Group) : List Nat :=
  let ks := G.issuers
  (ks.filter fun k => G.turn ≤ k) ++ ks.filter fun k => k < G.turn

/-- The issuer that holds the turn of a replayable block (R334): the one whose clause is in issue, else the next in the
rotation that is not passed over. -/
def turnOf (s : State) (b : Nat) (B : Block) : Option IRef :=
  let gs := s.groupsOf b
  let live (g : Nat) : Option Group := (s.grp? b g).bind fun G => if G.susp.isEmpty then some G else none
  let cur : Option IRef := (live B.turn).bind fun G =>
    let k := G.turn - 1
    match G.issuer? k with
    | some i => if i.cl.isSome && !passable s ⟨b, B.turn, k⟩ i then some ⟨b, B.turn, k⟩ else none
    | none => none
  match cur with
  | some r => some r
  | none =>
    let order := (gs.filter fun g => B.turn < g) ++ gs.filter fun g => g ≤ B.turn
    order.findSome? fun g => (live g).bind fun G =>
      (G.cyclic.find? fun k => match G.issuer? k with | some i => !passable s ⟨b, g, k⟩ i | none => false).map fun k => ⟨b, g, k⟩

/-- Whether an issuer may act by the fixed order of a replayable block. -/
def inTurn (s : State) (r : IRef) : Bool :=
  match tget? s.blocks r.blk with
  | some B => !(s.gridOf B).rpl || turnOf s r.blk B == some r
  | none => false

/-- Record that an issuer has taken its group's turn (R28), and its block's (R334). -/
def takeTurn (s : State) (r : IRef) : State :=
  let s := s.modGroup r.blk r.gidx fun G => { G with turn := r.iss + 1, yielded := G.yielded.filter fun y => y == 4225 || y % 65 != r.iss }
  s.modBlock r.blk fun B => { B with turn := r.gidx }

/-- Whether an issuer owes a turn after a yield (R159): to the others that can take one, so that it issues again in bounded time
(R41). One whose clause the gate or a fetch holds takes no turn until that has ended. -/
def owes (G : Group) (k : Nat) : Bool :=
  G.yielded.any fun y => y != 4225 && y / 65 == k && ((G.issuer? (y % 65)).map Issuer.canTurn) == some true

/-- Whether the stream holds before an RCV clause (R26). A hold that has ended does not begin again before the same clause. -/
def holds (G : Group) (k : Nat) (h : Header) : Bool :=
  k == 0 && h.rcv && (G.div.any fun d => d.2.runnable) && (match G.hold with | some (_, ended) => !ended | none => true)

/-- The next issuer of a group in rotation that has something to do at an issue opportunity (R28), with what it wants. While an
issuer holds the group's turn inside its clause, no other begins one; a replayable block has its own order (R334). -/
def pickIssuer (s : State) (b g : Nat) (G : Group) : Option (IRef × Want) :=
  if G.holder.isSome && !replayable s b then none
  else G.cyclic.findSome? fun k =>
    match G.issuer? k with
    | none => none
    | some i =>
      let r : IRef := ⟨b, g, k⟩
      if i.cl.isSome || i.wait != .go || owes G k || !inTurn s r then none
      else match want s r i with
        | .wait _ _ _ _ | .park _ | .remote => none
        | .issue h ws hdr s' => if holds G k h then none else some (r, .issue h ws hdr s')
        | w => some (r, w)

/-! ### Parks, holds and SCOPE_SPLIT at a core -/

/-- Points that lanes of some issuers wait at, when every one of them waits at a rendezvous. -/
def waitPoints (s : State) (b g : Nat) (wide : Scope → Bool) : Option (List (Nat × Nat × Scope × Nat × Lanes × Cap)) :=
  -- address, index, scope, group, lanes, code capability
  match s.grp? b g with
  | none => none
  | some G =>
    if !G.susp.isEmpty then none
    else G.issuers.foldl (fun acc k =>
      match acc, G.issuer? k with
      | some l, some i => match i.wait with
        | .rdv e => if wide e && !i.closed then some (l ++ [(i.pos.1, i.pos.2, e, g, i.lanes, i.code)]) else none
        | _ => none
      | _, _ => none) (some [])

/-- Distinct points, in ascending order of position. -/
def points (l : List (Nat × Nat × Scope × Nat × Lanes × Cap)) : List (Nat × Nat × Cap) :=
  sortBy (fun x y : Nat × Nat × Cap => decide (x.1 < y.1) || (x.1 == y.1 && (decide (x.2.1 < y.2.1) || (x.2.1 == y.2.1 && decide (x.2.2.n ≤ y.2.2.n)))))
    ((l.map fun (a, i, _, _, _, c) => (a, i, c)).dedup)

/-- Suspend a unit by SCOPE_SPLIT: one record for each position and group (R36, R283). -/
def splitUnit (s : State) (b : Nat) (gs : List Nat) (e : Scope) (l : List (Nat × Nat × Scope × Nat × Lanes × Cap)) : State :=
  let ps := points l
  let rs := ps.flatMap fun (a, i, c) =>
    let at' := l.filter fun (a', i', _, _, _, c') => a == a' && i == i' && c == c'
    ((at'.map fun (_, _, _, g, _, _) => g).dedup).map fun g =>
      let mine := at'.filter fun x => x.2.2.2.1 == g
      { code := Code.scopeSplit, scope := (mine.head?.map (·.2.2.1)).getD e, gidx := g, paddr := a, pword := i
        lanes := mine.foldl (fun m x => m ||| x.2.2.2.2.1) 0#64, data := ps.length : FaultRec }
  suspendUnit s b gs e Code.scopeSplit rs

/-- SCOPE_SPLIT in one block: the narrowest unit for which the condition holds (R36). -/
def scopeSplit (s : State) (b : Nat) : State :=
  let gs := s.groupsOf b
  let setg := (gridOfB s b).setg
  let alive (g : Nat) : Bool := ((s.grp? b g).map fun G => !G.issuers.isEmpty) == some true
  match gs.findSome? fun g => (waitPoints s b g fun _ => true).bind fun l => if 2 ≤ (points l).length then some (g, l) else none with
  | some (g, l) => splitUnit s b [g] .group l
  | none =>
    let unit (us : List Nat) (wide : Scope → Bool) : Option (List (Nat × Nat × Scope × Nat × Lanes × Cap)) :=
      let ls := (us.filter alive).map fun g => waitPoints s b g wide
      if ls.all (·.isSome) && ls.all fun l => (points (l.getD [])).length == 1 then some (ls.flatMap fun l => l.getD []) else none
    let sets := ((gs.map (· / setg)).dedup).map fun k => gs.filter fun g => g / setg == k
    match sets.findSome? fun us => (unit us fun e => e == .set || e == .block).bind fun l => if 2 ≤ (points l).length then some (us, l) else none with
    | some (us, l) => splitUnit s b us .set l
    | none =>
      match unit gs fun e => e == .block with
      | some l => if 2 ≤ (points l).length then splitUnit s b gs .block l else s
      | none => s

/-- The lanes of an issuer whose clause gate waits on a faulted operation park there (R198, R207). -/
def parkGates (s : State) (b g : Nat) : State :=
  match s.grp? b g with
  | none => s
  | some G =>
    G.issuers.foldl (fun s k =>
      match s.issuer? ⟨b, g, k⟩ with
      | some i =>
        if !i.atGate then s
        else match want s ⟨b, g, k⟩ i with
          | .park ws => parkLate s b ws
          | _ => s
      | none => s) s

/-- An RCV hold begins when the stream reaches an RCV clause with a diverged lane runnable; with none runnable it is over as it
begins (R26). -/
def beginHold (s : State) (b g : Nat) : State :=
  s.modGroup b g fun G =>
    if G.hold.isSome || G.stream.lanes == 0#64 || !G.stream.atGate then G
    else match G.stream.buffered with
      | some (hdr, _) =>
        if (decodeHeader hdr).rcv then { G with hold := some (s.cycles (dieOf (homeOf s b)), !(G.div.any fun d => d.2.runnable)) } else G
      | none => G

/-- A hold ends at the moment when no diverged lane is runnable, or none is left (R26). -/
def Group.endHold (G : Group) : Group :=
  match G.hold with
  | some (t, false) => if G.div.any fun d => d.2.runnable then G else { G with hold := some (t, true) }
  | _ => G

/-- What happens in a group at its clause boundaries: its issuers' gates are looked at, lanes rejoin the stream or take it over
(R25, R27), lanes park at their gates, and a hold begins or ends. -/
def groupBoundaries (s : State) (b g : Nat) : State :=
  let live (f : Group → Group) (s : State) : State := s.modGroup b g fun G => if G.susp.isEmpty then f G else G
  let gates (s : State) : State := match s.grp? b g with
    | some G => if G.susp.isEmpty then G.issuers.foldl (fun s k => regate s ⟨b, g, k⟩) s else s
    | none => s
  let s := gates (live Group.resubscribe s)
  let s := gates (live (fun G => G.handoff.resubscribe) s)
  live Group.endHold (beginHold (parkGates s b g) b g)

/-- What happens in the groups of a core's blocks at their clause boundaries. -/
def boundaries (s : State) (core : Nat) : State :=
  (s.blocks.filter fun b => b.2.home == core && mayIssue s b.1 b.2).foldl (fun s (b, _) =>
    scopeSplit ((s.groupsOf b).foldl (fun s g => groupBoundaries s b g) s) b) s

/-! ### The choice (R275, R276) -/

/-- A group that has something to issue: block, group, world, class, what it wants. -/
structure Offer where
  r : IRef
  world : Nat
  eng : Option Eng
  since : Nat
  passed : Nat
  marked : Bool
  w : Want

/-- The groups of a core with a ready issuer. -/
def offers (s : State) (core : Nat) : List Offer :=
  (s.blocks.filter fun b => b.2.home == core && mayIssue s b.1 b.2).flatMap fun (b, _) =>
    (s.groupsOf b).filterMap fun g =>
      (s.grp? b g).bind fun G =>
        if !G.susp.isEmpty then none
        else (pickIssuer s b g G).map fun (r, w) =>
          { r, world := worldOf s b, since := G.since, passed := G.passed, marked := G.yielded.contains 4225, w
            eng := match w with | .issue h _ _ _ => h.eng | _ => none }

/-- A world's weight on a core: the greatest IW among its resident contexts. -/
def worldWeight (s : State) (core w : Nat) : Nat :=
  ((onCore s core).filterMap fun (b, B) => if worldOf s b == w then (tget? s.ctxs B.pasid).map (·.iw) else none).foldl max 0

/-- ChooseWorld (R275) over the ready worlds: the world and the counters afterwards. -/
def chooseWorld (s : State) (core : Nat) (ready : List Nat) : Option (Nat × Core) :=
  let C := s.core core
  let res := (((onCore s core).map fun b => worldOf s b.1).dedup)
  let cyc (ws : List Nat) : List Nat := sortBy (fun a b : Nat => decide (a ≤ b)) (ws.filter (C.ptr ≤ ·)) ++ sortBy (fun a b : Nat => decide (a ≤ b)) (ws.filter (· < C.ptr))
  let take (dc : Tab Nat) : Option (Nat × Core) :=
    ((cyc ready).find? fun w => decide (0 < tgetD dc w 0)).map fun w =>
      (w, { C with dc := tset dc w (tgetD dc w 0 - 1), ptr := w + 1 })
  match take C.dc with
  | some x => some x
  | none =>
    if ready.isEmpty then none
    else take (res.foldl (fun t w => tset t w (min (tgetD t w 0 + worldWeight s core w) (worldWeight s core w))) C.dc)

def oldest (l : List Offer) : Option Offer :=
  l.foldl (fun (b : Option Offer) x => match b with
    | none => some x
    | some y => if x.since < y.since then some x else some y) none

/-- The Carder's choice within a world (R276): a group passed over for 256 cycles, else the longest resident of the batch
class, else the longest resident; groups marked by `yield` come after the others (R159). -/
def chooseGroup (batch : Option Eng) (l : List Offer) : Option Offer :=
  let l := if l.all (·.marked) then l else l.filter fun o => !o.marked
  match oldest (l.filter fun o => 256 ≤ o.passed) with
  | some o => some o
  | none =>
    match oldest (l.filter fun o => o.eng.isSome && o.eng == batch) with
    | some o => some o
    | none => oldest l

/-! ### Issue -/

/-- Put a clause in issue: its guard is read now (R50); the clause and its words are charged (R298). A gate on copies is an
acquire of their writes (Table 9.7). -/
def startClause (s : State) (r : IRef) (h : Header) (ws : List Word) (hdr : Word) : State :=
  match s.grp? r.blk r.gidx with
  | none => s
  | some G =>
    let guard : Lanes := match h.eng with
      | some .uni => if G.qpred h.guard then ~~~0#64 else 0#64
      | _ => G.pred h.guard
    let s := takeTurn s r
    let s := s.modIssuer r fun i => { i with cl := some ⟨i.code.cur, hdr, ws, guard &&& i.lanes, 1, 0⟩ }
    let s := if r.iss = 0 then s.modGroup r.blk r.gidx fun G => { G with hold := none, stream := { G.stream with buf := [] } } else s
    let (acct, la) := acctOf s r.blk
    let die := dieOf (homeOf s r.blk)
    let s := charge (charge s die 0x00 1 acct la) die 0x01 ws.length acct la
    if (clauseLims h ws .cp).isSome && s.sandbox.isNone then acquireCore s (homeOf s r.blk) else s

/-- A fault of a fetch or a header: a terminal one parks every lane of the issuer at (clause, 0); a retryable one holds it
there (R45, R49, R287). -/
def fetchFault (s : State) (r : IRef) (code : Nat) (headless : Bool) : State :=
  match s.issuer? r with
  | none => s
  | some i =>
    let dat := if 0x10 ≤ code ∧ code ≤ 0x1B then i.code.cur else 0
    if retryable code then
      let (h, s) := s.fresh
      let rec0 : FaultRec := { code, retry := true, sub := h, gidx := r.gidx, paddr := i.code.cur, lanes := i.lanes, data := dat }
      let s := s.modIssuer r fun i => { i with wait := .fetch h }
      deliver s r.blk h { code, pasid := pasidOf s r.blk, held := .fetch r, recs := [(recFor s r.blk rec0).bits], defer := []
                          headless := false, handled := false, dispo := none }
    else
      -- the header held, where it could be fetched, gives ACT 1 its fall-through address
      let hdr := match fetchWords s (dieOf (homeOf s r.blk)) (pasidOf s r.blk) (2 ^ 64) i.code i.code.cur 1 with
        | .ok ws _ => ws.headD 0#32
        | _ => 0#32
      let s := if headless then s else s.modIssuer r fun i => { i with cl := some ⟨i.code.cur, hdr, [], 0#64, 0, 0⟩ }
      parkLanes s r i.lanes code dat none headless

/-- Do what the chosen issuer wants. -/
def doWant (s : State) (r : IRef) (w : Want) : State :=
  match w with
  | .issue h ws hdr s' => startClause { s' with cores := s.cores } r h ws hdr
  | .fault code hl s' => fetchFault (takeTurn { s' with cores := s.cores } r) r code hl
  | .bad l => lineEvent s l (pasidOf s r.blk)
  | _ => s

/-- R53: an issue opportunity of a core. Choices where no rule speaks (DESIGN CHOICE, assumption 75): the cycles of a lost
opportunity (R276) are the core cycles since the core's last opportunity of any world, and at least 1; "the core's next choice among
groups" of a group that has yielded (R159) is the next choice in its world on that core, whether or not the group has something to
issue then. -/
def execClauseIssue (core : Nat) (s : State) : Out :=
  if !(s.die (dieOf core)).inService || ((s.die (dieOf core)).relocking s.reft && s.sandbox.isNone) then .next s
  else
    let s := boundaries (noteRestored s (dieOf core)) core
    let os := offers s core
    match chooseWorld s core ((os.map (·.world)).dedup) with
    | none => .next s
    | some (w, C) =>
      let mine := os.filter fun o => o.world == w
      match chooseGroup C.batch mine with
      | none => .next s
      | some o =>
        let now := s.cycles (dieOf core)
        let lost := max 1 (now - C.lastOpp)
        -- the choice was the batch's: the other candidates lost the opportunity because of their class
        let byClass := o.eng.isSome && o.eng == C.batch && decide (o.passed < 256)
        let cand (x : Offer) : Bool := !x.marked || mine.all (·.marked)
        let s := s.setCore core { C with batch := if o.eng.isSome then o.eng else C.batch, lastOpp := now }
        let s := mine.foldl (fun s x =>
          let others := x.r.blk != o.r.blk || x.r.gidx != o.r.gidx
          s.modGroup x.r.blk x.r.gidx fun G =>
            { G with passed := if others then (if byClass && cand x && x.eng != C.batch then G.passed + lost else G.passed) else 0 }) s
        let s := ((onCore s core).filter fun b => worldOf s b.1 == w).foldl (fun s b => (s.groupsOf b.1).foldl (fun s g =>
          s.modGroup b.1 g fun G => { G with yielded := G.yielded.filter (· != 4225) }) s) s
        -- what is wanted is looked at again, as the counters kept here have changed
        match s.issuer? o.r with
        | some i => .next (doWant s o.r (want s o.r i))
        | none => .next s

/-- R26: a hold ends once 256 core cycles have passed since it began. Time comes to a replayable block from outside, so that this is
logged, and a view takes it from there (R335; assumption 110). -/
def execRcvHoldTimeout (g : GRef) (s : State) : Out :=
  match s.grp? g.blk g.gidx with
  | some G =>
    match G.hold with
    | some (t, false) =>
      if t + 256 ≤ s.cycles (dieOf (homeOf s g.blk)) then
        .next ((logAdd s g.blk (.hold (rcOf s g.blk) g.gidx)).modGroup g.blk g.gidx fun G => { G with hold := some (t, true) })
      else .next s
    | _ => .next s
  | none => .next s

/-! ### Timing-error replay (R296) -/

/-- The first words of the instructions among some words. -/
def instrWords (e : Eng) : List Word → List Word
  | [] => []
  | [w] => [w]
  | w :: x :: r => w :: if isLong e (opc w) then instrWords e r else instrWords e (x :: r)

/-- Scratchpad passes of an `lds` or `sts` of some lanes by group whose offsets are known (R128). -/
def attemptPasses (s : State) (b : Nat) (act : List (Nat × Lanes)) (w : Word) : Nat :=
  let o := opc w
  if 0x10 ≤ o ∧ o ≤ 0x15 then
    passes (if o % 3 = 1 then 4 else if o % 3 = 2 then 8 else 16)
      (act.flatMap fun (g, m) => (lanesOf m).filterMap fun l => (s.grp? b g).bind fun G =>
        (G.word? (w.toNat / 256 % 64) l).map fun x => (64 * g + l, x.toNat))
  else 0

/-- Charge an attempt of an instruction that is replayed to the partition overhead: the events of its class, of the banks, and of
its passes, of its whole active set (R299). What R296 lists leaves the core only after the gate; loads are not in its list, and the model
lets no access of an attempt, a load's either, reach the L1, the weight store or a home (DESIGN CHOICE, assumption 108). -/
def chargeAttempt (s : State) (die b : Nat) (act : List (Nat × Lanes)) (e : Eng) (w : Word) : State :=
  let lanes := (act.map fun x => (lanesOf x.2).length).sum
  if lanes = 0 then s
  else
    let s := match classOf e (opc w) with
      | some (cls, per) => charge s die cls (if per = .lane then lanes else 1) none 0
      | none => s
    let s := if e = .mem then charge s die 0x38 (attemptPasses s b act w) none 0 else s
    charge { s with free := s.free + 1 } die 0x02 (Config.bankEvents s.free) none 0

/-- The lanes by group that execute the word an issuer is at: its own at lane scope; at a wide scope those of all that have arrived, once
every member has (R31). -/
def executing (s : State) (r : IRef) (i : Issuer) (e : Scope) : Option (List (Nat × Lanes)) :=
  match e, i.wait with
  | .lane, .go => some [(r.gidx, i.guarded)]
  | .lane, _ => none
  | e, .go | e, .rdv _ =>
    let s := if i.closed then s else s.modIssuer r fun i => { i with wait := .rdv e }
    (pointOf s r i e).map (activeOf s)
  | _, _ => none

/-- R296: the instruction at an issuer's position meets a timing error and is replayed, with those after it in its clause that had
begun: at most 3, as the gate is three cycles after the execute stage; how many is a free value (assumption 76), and an instruction of
another scope, which has yet to wait for its members, is not among them. Nothing changes but the charges of the attempts, which are
partition overhead, and the count of the instructions that the die has replayed (R309). -/
def execTimingErrorReplay (r : IRef) (s : State) : Out :=
  match s.issuer? r with
  | none => .next s
  | some i =>
    match i.cl with
    | none => .next s
    | some c =>
      match engOf (c.hdr.extractLsb' 4 3).toNat with
      | none => .next s
      | some eng =>
        let e := wordScope eng (c.words.getD c.off 0#32)
        match executing s r i e with
        | none => .next s
        | some act =>
          if c.idx = 0 then .next s
          else
            let die := dieOf (homeOf s r.blk)
            let (k, s) := s.draw
            let ws := ((instrWords eng (c.words.drop c.off)).take (1 + k % 4)).takeWhile fun w => wordScope eng w == e
            let s := ws.foldl (fun s w => chargeAttempt s die r.blk act eng w) s
            .next (s.modDie die fun d => { d with replays := d.replays + ws.length })

end Sys2Proof.Machine
end

