-- ==== Sys2Proof/Machine/Req.lean ====
section
/-!
DEFINITION. Requests after issue as events (R113, R133, R138 to R140, R196, R215, R340): translation and performance of a
lane's request, registration, loss notices, arrival, write-combining drains, refresh windows and window transfers. An event
that is not due leaves the state as it is.
-/

namespace Sys2Proof.Machine

/-- A saved block's requests wait for its restore (R290), and those of a block restored in a gang slice for the slice to run (R281). -/
def blockOn (s : State) (b : Nat) : Bool := ((tget? s.blocks b).map fun B => B.phase.onCore && !B.asSaved) == some true

/-- R113: a request reaches the translation unit; a load or span query that may be performed is (R144). -/
def execMemoryRequest (op lane : Nat) (cached : Bool) (s : State) : Out :=
  match tget? s.ops op with
  | some o => .next (if (o.kind.isMem || o.kind == .spanq) && blockOn s o.blk then attempt s op lane cached else s)
  | none => .next s

/-- Whether a kind is a store. -/
def OpKind.isStore : OpKind → Bool
  | .store _ | .storeCap => true
  | _ => false

/-- R139, R140: a translated store that may be performed is, at its home or in a write-combining buffer. -/
def execStoreRegister (op lane : Nat) (s : State) : Out :=
  match tget? s.ops op with
  | none => .next s
  | some o =>
    match o.req? lane with
    | none => .next s
    | some q =>
      if o.kind.isStore && q.ph == .xlated && blockOn s o.blk && mayPerform s o q && !isMerged s o.core op lane then .next (performStore s op lane)
      else .next s

/-- R139: the core's L1 copy of a word becomes invalid; one that is still its owner has it because the line leaves the LLC, whose
words then have no owner. -/
def execLossNotice (core word : Nat) (s : State) : Out :=
  let s := dropL1 s core [word]
  if tget? s.mem.wordOwner word == some core then .next (llcLeave s (homeDie s (4 * word)) (word / 16)) else .next s

/-- Requests of one issue's atomics to one word, in ascending element order: operation and lane. -/
def atomicsTo (s : State) (o : Op) (word : Nat) : List (Nat × Nat) :=
  (s.ops.filter fun x => x.2.order == o.order && x.2.blk == o.blk).flatMap fun (k, x) =>
    (x.lanes.filter fun q => (q.ph == .xlated) && match q.parts with | (h, _, _) :: _ => h / 4 == word | [] => false).map fun q => (k, q.lane)

/-- R215: the atomics of an issue to one word are performed consecutively, in ascending element index, once none of the issue has
yet to be translated, which could be to that word too. The release part of their ordering drains their lanes' buffers first, and
is where a lane parks for an earlier operation that met a terminal fault (R198, R207). -/
def execAtomicPerform (op word : Nat) (s : State) : Out :=
  match tget? s.ops op with
  | none => .next s
  | some o =>
    match o.kind with
    | .atomic _ _ ord =>
      let who := atomicsTo s o word
      let els := who.filterMap fun (k, l) => (tget? s.ops k).map fun x => (x.gidx, l)
      let rel := (ord == .rel || ord == .ar) && !who.isEmpty
      let s := if rel then releaseStart s o.blk els else s
      let bad := if rel then faultedOf s o.blk els fun a => decide (a.order < o.order) else []
      let s := parkReleasing s o.blk bad
      let unsent := !bad.isEmpty || s.ops.any fun (_, x) => x.order == o.order && x.blk == o.blk && x.lanes.any fun q =>
        match q.ph with | .sent | .retry _ => true | _ => false
      let ready := who.all fun (k, l) => match (tget? s.ops k).bind fun x => (x.req? l).map fun q => (x, q) with
        | some (x, q) => mayPerform s x q
        | none => false
      if unsent || !ready || !blockOn s o.blk then .next s else .next (who.foldl (fun s (k, l) => performAtomic s k l) s)
    | _ => .next s

/-- Kinds whose value arrives in registers. -/
def OpKind.returns : OpKind → Bool
  | .load _ _ | .loadCap | .wld _ | .lds _ | .atomic _ _ _ | .spanq => true
  | _ => false

/-- A read of the weight store proceeds when the window that stalled it has ended (R138). -/
def wldProceed (s : State) (o : Op) : Op :=
  match o.kind with
  | .wld _ => { o with lanes := o.lanes.map fun q =>
      if q.ph == .sent && decide (q.time / 250 * 250 + 120 ≤ s.reft) &&
        (wsBadLine s (dieOf o.core) ((wsWindow s o.blk).1 + q.x) q.n).isNone then { q with ph := .done } else q }
  | _ => o

/-- R196: the value of destination register k of a load arrives. -/
def execLoadArrival (op k : Nat) (s : State) : Out :=
  match tget? s.ops op with
  -- no cycle occurs on a die that relocks (R305)
  | some o => .next (if o.kind.returns && !(s.die (dieOf o.core)).relocking s.reft then arrive (s.modOp op (wldProceed s)) op k else s)
  | none => .next s

/-- R140: a line drains 1 µs after its first merge. -/
def execWcDrainTimeout (core line : Nat) (s : State) : Out :=
  match tget? (s.core core).wc line with
  | some w => if w.time + 1000 ≤ s.reft then .next (drainLine s core line) else .next s
  | none => .next s

/-- R138: at a REFT multiple of 250 ns a window begins on bank k mod 32 of every die. -/
def execRefreshWindowStart (s : State) : Out :=
  if s.reft % 250 ≠ 0 then .next s
  else .next ((List.range 24).foldl (fun s d => s.modDie d fun D => { D with refresh := refreshBank s.reft }) s)

/-- R138: the window ends after 120 ns, and the reads it stalled proceed. -/
def execRefreshWindowEnd (s : State) : Out :=
  if s.reft % 250 < 120 then .next s
  else
    let s := (List.range 24).foldl (fun s d => s.modDie d fun D => { D with refresh := none }) s
    .next { s with ops := s.ops.map fun (k, o) => (k, wldProceed s o) }

/-- R133: a put's bytes are in the target's scratchpad and ST falls, or a get's in the issuer's and LD falls. Tags that
are touched are cleared. -/
def execWindowTransferComplete (op lane : Nat) (s : State) : Out :=
  match tget? s.ops op with
  | none => .next s
  | some o =>
    match o.req? lane with
    | none => .next s
    | some q =>
      let t := q.targets.headD 0
      -- no byte moves on a die that relocks (R305)
      if relockWait s o.core [] then .next s else
      match o.kind with
      | .put =>
        if windowTurn s o q then .next (storeDone (spmFrom s t q.x2 (natBytes q.n q.data)) op lane) else .next s
      | .get => .next (storeDone (spmFrom s o.blk q.x ((blockSpm s t).read q.x2 q.n)) op lane)
      | _ => .next s

end Sys2Proof.Machine
end

