-- ==== Sys2Proof/Machine/Copies.lean ====
section
/-!
DEFINITION. The engines as events (R227, R231, R252, R253, R256): the parts and completions of copies and oloads, the start,
the retirement and the completion of tile operations. An event that is not due leaves the state as it is.
-/

namespace Sys2Proof.Machine

/-- Kinds that the copy engine serves. -/
def OpKind.isCopy : OpKind → Bool
  | .cpy | .cpysIn | .cpysOut | .mcast => true
  | _ => false

/-- A part counts once as a memory request of the context, when it is first tried (R340): its number gives it a header or none, and the
sample is written when it is done. -/
def probePart (s : State) (k : Nat) (o : Op) (q : LReq) (x part : Nat) (go : State → State) : State :=
  let (p, s) := match q.marks.find? fun m => m.1 == part with
    | some m => ({ q with probe := m.2 }, s)
    | none =>
      let (p, s) := probeMark s o.blk o.core o.kind q
      (p, s.modOp k fun o => o.modReq q.lane fun q => { q with marks := (part, p.probe) :: q.marks })
  let s := go s
  match (tget? s.ops k).bind fun o => o.req? q.lane with
  | some r =>
    if r.todo.contains part then s
    else probeSample (s.modOp k fun o => o.modReq q.lane fun q => { q with marks := q.marks.filter fun m => m.1 != part }) o { p with x }
  | none => s

/-- Whether a copy has started. -/
def copyBegun (q : LReq) : Bool := q.ph != .sent || decide (q.todo.length < (partsOf q.n).length)

/-- The commands of a lane start in program order (R231). -/
def copyTurn (s : State) (o : Op) (lane : Nat) : Bool :=
  s.ops.all fun (_, a) => a.blk != o.blk || a.gidx != o.gidx || o.order ≤ a.order || !a.kind.isCopy ||
    a.lanes.all fun p => p.lane != lane || copyBegun p

/-- A fill in flight to a block whose save has begun goes on, as the save waits for it (R294). -/
def fillDue (s : State) (o : Op) (q : LReq) : Bool :=
  o.kind == .mcast && o.wide.isNone && q.targets.any fun t => ((tget? s.blocks t).map (·.phase == .saving)) == some true

/-- An oload in progress: a block of it has been read, or asked for. -/
def oloadBegun (o : Op) : Bool := o.wide.isNone && o.lanes.any fun q => q.ph == .remote || (!q.todo.isEmpty && decide (q.todo.length < 128))

/-- The accesses to memory of a part of a copy or of a block of an oload: capability, offset, bytes, and whether it is a write. -/
def accessesOf (o : Op) (q : LReq) (part : Nat) : List (Cap × Nat × Nat × Bool) :=
  if o.kind = .oload then (if q.tag then [] else [(q.cap, blockAt o q part, 64, false)])
  else (partAccesses o q part).map fun (k, x, w) => (k, x, (partRange o.kind q part).2, w)

/-- A part waits out a relock of the issuing die or of the home of a line that it reads or writes (R305). -/
def partStill (s : State) (o : Op) (q : LReq) (part : Nat) (cached : Bool) : Bool :=
  relockWait s o.core [] || (accessesOf o q part).any fun (k, x, n, w) =>
    match translate s (dieOf o.core) (pasidOf s o.blk) k x n w cached with
    | .ok parts _ | .remote _ parts _ => relockWait s o.core parts
    | _ => false

/-- R231: one part of a copy, a fill or an oload. It starts once the lane's earlier stores have registered (R146) and its earlier
copies have started, and none begins while the context's bucket is empty (R274) or outside its slice (R279, R281); an oload in
progress goes on (R290), and so does a fill that a save waits for (R294). A held
wide-scope operation is only translated (R207). -/
def execCopyPart (op lane part : Nat) (cached : Bool) (s : State) : Out :=
  match tget? s.ops op with
  | none => .next s
  | some o =>
    match o.req? lane with
    | none => .next s
    | some q =>
      let due := fillDue s o q
      if q.ph != .sent || !q.todo.contains part || !(blockOn s o.blk || due) || s.sandbox.isSome || partStill s o q part cached then .next s
      else if o.kind.isCopy then
        if !due && (!ctxRuns s (pasidOf s o.blk) || !blockRuns s o.blk || !copyTurn s o lane) then .next s
        else if o.wide.isSome then .next (translatePart s op o q part cached)
        else if !storesDone s o [lane] then .next s
        else .next (probePart s op o q (q.x + 64 * part) part fun s => performPart s op o q part cached)
      else if o.kind == .oload then
        if !oloadBegun o && (!ctxRuns s (pasidOf s o.blk) || !blockRuns s o.blk) then .next s
        else if o.wide.isNone && !storesDone s o (o.lanes.map (·.lane)) then .next s
        else .next (if o.wide.isSome then loadBlock s op o q part cached
          else probePart s op o q (blockAt o q part) part fun s => loadBlock s op o q part cached)
      else .next s

/-- R227, R229: every part is written; the ticket is posted and CP falls. -/
def execCopyComplete (op lane : Nat) (s : State) : Out :=
  match tget? s.ops op with
  | none => .next s
  | some o =>
    match o.req? lane with
    | none => .next s
    | some q =>
      if !o.kind.isCopy || q.ph != .sent || !q.todo.isEmpty || o.wide.isSome then .next s
      else
        let s := postTicket s o q.ticket
        let s := logAdd s o.blk (.copies (rcOf s o.blk) (64 * o.gidx + lane) q.ticket)
        let s := lowerCtr (dropReq s op lane) o.blk o.gidx [lane] .cp
        .next (reportExited s o.blk o.gidx (((s.grp? o.blk o.gidx).map (·.exited)).getD 0#64))

/-- R252: every block has been read; the slot is filled and TL falls. -/
def execOloadComplete (op : Nat) (s : State) : Out :=
  match tget? s.ops op with
  | none => .next s
  | some o =>
    if o.kind == .oload && o.wide.isNone && o.lanes.all (fun q => q.ph == .done && q.todo.isEmpty) then
      let v := ((o.lanes.find? fun q => decide (q.val ≠ 0)).map (·.val)).getD 0
      .next (fillSlot (logAdd s o.blk (.oload (rcOf s o.blk) o.slot v)) op o)
    else .next s

/-- The operation of a core's queue that starts next, in issue order. -/
def nextTile (s : State) (core : Nat) : Option (Nat × TOp) :=
  (s.core core).tileQ.findSome? fun id => (tget? s.tops id).bind fun t =>
    if startable s t && blockRuns s t.blk && !(s.die (dieOf core)).relocking s.reft then some (id, t) else none

/-- Start an operation: it holds the arrays it needs (R256). -/
def startTile (s : State) (id : Nat) (t : TOp) : State :=
  let s := { s with tops := tset s.tops id { t with running := true, start := s.cycles (dieOf (homeOf s t.blk)) } }
  (t.cores s).foldl (fun s k => s.modCore k fun c => { c with busy := some id }) s

/-- R253. -/
def execTileOpStart (core : Nat) (s : State) : Out :=
  match nextTile s core with
  | some (id, t) => .next (startTile s id t)
  | none => .next s

/-- R256: after 62 clocks of the die's crown domain. -/
def execMpairRetire (op : Nat) (s : State) : Out :=
  match tget? s.tops op with
  | some t =>
    let d := dieOf (homeOf s t.blk)
    if t.running && isMpair t.kind && decide (t.start + 62 ≤ s.cycles d) && !(s.die d).relocking s.reft then .next (retirePair s op t) else .next s
  | none => .next s

/-- R253, R259, R260: a register that an `accrd` writes in part is known by then. -/
def execTileOpComplete (op : Nat) (s : State) : Out :=
  match tget? s.tops op with
  | some t => if t.running && !isMpair t.kind && (partPend s t).isEmpty && !(s.die (dieOf (homeOf s t.blk))).relocking s.reft then .next (finishAcc s op t) else .next s
  | none => .next s

end Sys2Proof.Machine
end

