-- ==== Sys2Proof/Machine/Barriers.lean ====
section
/-!
DEFINITION. Barriers among blocks and the ends of blocks and grids, as events (R39, R40, R134, R158, R161, R164, R165, R288,
R289, R326). An event that is not due leaves the state as it is.
-/

namespace Sys2Proof.Machine

/-- R161: the bar that a group waits at goes on once the earlier stores of its active lanes have registered. -/
def execBarComplete (g : GRef) (s : State) : Out :=
  match s.grp? g.blk g.gidx with
  | none => .next s
  | some G =>
    if dbgHeld s (pasidOf s g.blk) then .next s else
    match G.issuers.find? fun k => match G.issuer? k with
        | some i => i.wait == .rel && (match i.cl with
          | some c => c.hdr.extractLsb' 4 3 == 0#3 && opc (c.words.getD c.off 0#32) == 0x09
          | none => false)
        | none => false with
    | none => .next s
    | some k =>
      let r : IRef := ⟨g.blk, g.gidx, k⟩
      match s.issuer? r with
      | none => .next s
      | some i =>
        match i.cl with
        | none => .next s
        | some c =>
          let e := scopeOf (c.words.getD c.off 0#32)
          match pointOf s r i e with
          | none => .next s
          | some rs => execBar e { s with cur := some (mkCur s r rs c .ctl e 1) }

/-- Complete a barrier instance, when every member that has not exited has arrived: all leave together. -/
def completeBar (s : State) (B : Block) (k : BarKind) : State :=
  let ms := barMembers s B k
  if ms.all fun (_, T) => T.barw.any fun w => w.arrived && w.kind == k then ms.foldl (fun s m => leaveBar s m.1) s else s

/-- Whether an arrival's ticket and world are those of the other members (R326). -/
def ticketOk (s : State) (B : Block) (k : BarKind) : Bool :=
  (barMembers s B k).all fun (_, T) => match k with
    | .gang => T.ticket == B.ticket && worldOfPasid s T.pasid == worldOfPasid s B.pasid
    | .grid => true
    | _ => T.dieTicket == B.dieTicket && worldOfPasid s T.pasid == worldOfPasid s B.pasid

/-- Record an arrival, or count a rejected ticket at the target core, which is that of the instance's first member (DESIGN CHOICE,
assumption 106). -/
def arriveBar (s : State) (b : Nat) (B : Block) (w : BarWait) : State :=
  if !ticketOk s B w.kind then
    match barMembers s B w.kind with
    | (_, T) :: _ => s.modCore T.home fun c => { c with trej := c.trej + 1 }
    | [] => s
  else completeBar (s.modBlock b fun B => { B with barw := some { w with arrived := true } }) B w.kind

/-- R164. -/
def execGangBarrierArrival (b : Nat) (s : State) : Out :=
  match tget? s.blocks b with
  | none => .next s
  | some B =>
    match B.barw with
    | some w => if !w.arrived && !dbgHeld s B.pasid && (w.kind == .gang || w.kind == .grid) then .next (arriveBar s b B w) else .next s
    | none => .next s

/-- SSTEP_MIX (R134): a member of the open instance of the block's die unit, or of its cluster unit, used the other form. -/
def sstepMixed (s : State) (B : Block) (k : BarKind) : Bool :=
  let other : BarKind := if k = .cluster then .die else .cluster
  (barMembers s B other).any fun (_, T) => T.barw.any fun w => w.arrived && w.kind == other

/-- The block is suspended by SSTEP_MIX as by a wide-scope fault (R35): its issuers wait at the rendezvous again. -/
def sstepMix (s : State) (b : Nat) (w : BarWait) : State :=
  let gs := s.groupsOf b
  let pos := (gs.findSome? fun g => (s.grp? b g).bind fun G => (G.issuers.findSome? fun k => (G.issuer? k).bind fun i =>
    if i.wait == .inst then some i.pos else none)).getD (0, 0)
  let all := gs.filterMap fun g => (s.grp? b g).map fun G => (g, G.issuers.foldl (fun m k => m ||| ((G.issuer? k).map (·.lanes)).getD 0#64) 0#64)
  let act := if w.act.all fun a => a.2 == 0#64 then all else w.act.filter fun a => a.2 != 0#64
  let s := gs.foldl (fun s g => s.modGroup b g fun G => G.mapIssuers fun i => if i.wait == .inst then { i with wait := .rdv .block, closed := false } else i) s
  let s := s.modBlock b fun B => { B with barw := none }
  let rs := act.map fun (g, m) =>
    { code := Code.sstepMix, scope := .block, gidx := g, paddr := pos.1, pword := pos.2, lanes := m : FaultRec }
  suspendUnit s b gs .block Code.sstepMix rs

/-- R134: a block arrives once its puts and gets are performed; its scratchpad stores are, at issue. -/
def execSstepArrival (b : Nat) (s : State) : Out :=
  match tget? s.blocks b with
  | none => .next s
  | some B =>
    match B.barw with
    | none => .next s
    | some w =>
      if w.arrived || dbgHeld s B.pasid || w.kind == .gang || w.kind == .grid then .next s
      else if sstepMixed s B w.kind then .next (sstepMix s b w)
      else if s.ops.any fun (_, o) => o.blk == b && (o.kind == .put || o.kind == .get) then .next s
      else .next (arriveBar s b B w)

/-! ### Dispositions (R285, R289) -/

/-- The block of what a handle names. -/
def Held.blk (s : State) : Held → Nat
  | .lanes b _ _ | .unit b _ _ => b
  | .request op _ => ((tget? s.ops op).map (·.blk)).getD 0
  | .fetch r => r.blk

/-- Whether a handle names a parked sub-group or a suspended unit. -/
def Held.stands : Held → Bool
  | .lanes _ _ ls => !ls.isEmpty
  | .unit _ _ _ => true
  | _ => false

/-- Whether the loads that a disposition issues again find their symbol entries on the block's core (R193, R198). -/
def dispoRoom (s : State) (b h : Nat) (w : DWord) : Bool :=
  bits w.toNat 1 0 != 0 || decide (symShared (applyDispo s h w) (homeOf s b) [] ≤ 512)

/-- Apply the disposition that a handle has been given, once its block is on a core and the loads that it issues again find their symbol
entries: until then their lanes wait as on a pending register (R193). It is logged (R335). -/
def settleDispo (s : State) (h : Nat) : State :=
  match tget? s.parks h with
  | none => s
  | some p =>
    let b := p.held.blk s
    match p.dispo, tget? s.blocks b with
    | some w, some B =>
      if B.phase.onCore && (p.defer.isEmpty || dispoRoom s b h w) then applyDispo (logAdd s b (.dispo (rcOf s b) p.held w)) h w else s
    | _, _ => s

/-- Give a disposition that is one to apply: at once, or at the restore of a block that is saved (R285), which takes the first. -/
def disposeOf (s : State) (h : Nat) (w : DWord) : State :=
  match tget? s.parks h with
  | none => s
  | some p =>
    let b := p.held.blk s
    match tget? s.blocks b with
    | some B =>
      if B.phase.onCore && p.defer.isEmpty then applyDispo (logAdd s b (.dispo (rcOf s b) p.held w)) h w
      else settleDispo (s.modPark h fun p => { p with dispo := some (p.dispo.getD w) }) h
    | none => { s with parks := tdel s.parks h }

/-- A handler block gives its disposition (R288); one that is not applied posts HANDLER_BAD with the original SUB. -/
def handlerDispo (s : State) (h : Nat) (w : DWord) : State :=
  match tget? s.parks h with
  | none => s
  | some p =>
    if dispoOk p w then disposeOf s h w
    else
      let b := p.held.blk s
      let r : FaultRec := { code := Code.handlerBad, sub := h }
      let f := ((tget? s.ctxs p.pasid).map (·.func)).getD 0
      let first := p.recs.headD 0#512
      -- the record keeps the fields of the record it follows
      let r := { r with gidx := bits first.toNat 132 128, paddr := bits first.toNat 235 192, pword := bits first.toNat 239 236
                        lanes := first.extractLsb' 320 64, scope := scopeOf (first.extractLsb' 17 2 ++ 0#24 |>.zeroExtend 32), unit := bits first.toNat 20 19 }
      toRing (s.modPark h fun p => { p with handled := false }) (ringOf Code.handlerBad f) [(recFor s b r).bits]

/-! ### The end of a block (R158) -/

/-- Nothing of the block is outstanding, and no leader's operation names it as follower (R158, R263). -/
def drained (s : State) (b : Nat) : Bool :=
  s.ops.all (fun o => o.2.blk != b) && s.tops.all (fun t => t.2.blk != b && opNames t.2 b == ([], [])) &&
    (s.groupsOf b).all fun g => match s.grp? b g with
      | some G => G.ctr.all fun c => c.2 == Ctr.zero
      | none => true

/-- Release everything a block holds. -/
def removeBlock (s : State) (b : Nat) : State :=
  { s with blocks := tdel s.blocks b, groups := s.groups.filter fun k => k.1 / 32 != b, ckpts := tdel s.ckpts b, views := tdel s.views b }

/-- A VACATE completes once every save it waits for has completed (R280); a block that has gone needs none. -/
def settleVacs (s : State) : State :=
  let left (v : Vac) : List Nat := v.blks.filter fun b => ((tget? s.blocks b).map (·.phase)) == some .saving
  (s.vacs.filter fun v => (left v).isEmpty).foldl (fun s v => post s v.cmd.iface v.cmd.seq 0 0)
    { s with vacs := (s.vacs.map fun v => { v with blks := left v }).filter fun v => !v.blks.isEmpty }

/-- Every block of a grid has exited. -/
def Grid.ended (g : Grid) : Bool := g.placed == g.grdd && g.exited == g.blocks

/-- R158. A debug stop holds the block (R336). The exit can complete barriers that the block is a member of; a handler block's disposition is applied (R288). -/
def execBlockExit (b : Nat) (s : State) : Out :=
  match tget? s.blocks b with
  | none => .next s
  | some B =>
    if B.phase != .draining || !drained s b || dbgHeld s B.pasid then .next s
    else
      let word := BitVec.ofNat 64 (leNat (B.spm.read 0x40 8))
      let s := settleVacs (removeBlock s b)
      match B.serves with
      | some h => .next (handlerDispo { s with grids := tdel s.grids B.grid } h word)
      | none =>
        let s := s.modGrid B.grid fun g => { g with exited := g.exited + 1 }
        -- a host launch whose grid has ended awaits its corrections (R303)
        let s := match tget? s.grids B.grid with
          | some g => if g.ended && g.parent.isNone then s.modLaunch g.launch fun l => { l with done := some (0, s.energy.tick) } else s
          | none => s
        .next ([BarKind.gang, .grid, .cluster, .die].foldl (fun s k =>
          if (barMembers s B k).isEmpty then s else completeBar s B k) s)

/-- R39, R40: the parent of a child grid that has ended is ready again, with status 0 in s[A] of the groups that forked. -/
def execChildGridComplete (grid : Nat) (s : State) : Out :=
  match tget? s.grids grid with
  | none => .next s
  | some g =>
    match g.parent with
    | none => .next s
    | some b =>
      match tget? s.blocks b with
      | none => .next { s with grids := tdel s.grids grid }
      | some B =>
        match B.forkDst with
        | some (a, gs, child) =>
          if !g.ended || child != grid || B.phase != .forked (some grid) then .next s
          else
            let s := gs.foldl (fun s k => s.modGroup b k fun G => G.setS a.toNat 0#64) s
            .next { s.modBlock b (fun B => { B with forkDst := none, phase := .saved, since := s.nextId }) with
                    grids := tdel s.grids grid, nextId := s.nextId + 1 }
        | none => .next s

end Sys2Proof.Machine
end

