-- ==== Sys2Proof/Machine/Revoke.lean ====
section
/-!
DEFINITION. Invalidation, revocation, sweeps and span moves (R115, R117 to R121, R327): the commands and the events that
complete them. An event that is not due leaves the state as it is.
-/

namespace Sys2Proof.Machine

/-! ### Commands (R343) -/

/-- Post a command's completion record (Table 19.4). -/
def reply (s : State) (q : Cmd) (code result : Nat) : State := post s q.iface q.seq code result

/-- A command for the physical function only. -/
def pfOnly (s : State) (q : Cmd) (go : State) : Out := .next (if (s.iface q.iface).func = 0 then go else reply s q 7 0)

/-- A command on the context bound to its interface. -/
def ownCtx (s : State) (q : Cmd) (go : Nat → Ctx → State) : Out :=
  .next (match (s.iface q.iface).pasid with
    | some p => (match tget? s.ctxs p with
      | some c => go p c
      | none => reply s q 9 0)
    | none => reply s q 9 0)

/-- Replace bits [hi:lo] of a number. -/
def setField (n hi lo v : Nat) : Nat := n - field hi lo (bits n hi lo) + field hi lo v

/-! ### Requests under translation -/

/-- A range of an object with the parts that its translation gave. -/
structure Range where
  cap : Cap
  x : Nat
  n : Nat
  parts : List (Nat × Nat × Nat)
  deriving DecidableEq, Repr

/-- The ranges of memory that a lane's request is of. -/
def rangesOf (o : Op) (q : LReq) : List Range :=
  match o.kind with
  | .load _ _ | .loadCap | .store _ | .storeCap | .atomic _ _ _ | .spanq => [⟨q.cap, q.x, q.n, q.parts⟩]
  | .cpy => (if q.cap.obn = weightObn then [] else [⟨q.cap, q.x, q.n, q.parts⟩]) ++ [⟨q.cap2, q.x2, q.n, q.parts⟩]
  | .cpysIn | .mcast => [⟨q.cap, q.x, q.n, q.parts⟩]
  | .cpysOut => [⟨q.cap2, q.x2, q.n, q.parts⟩]
  | .oload => if q.tag then [] else [⟨q.cap, q.x, 63 * o.stride + 128, q.parts⟩]
  | .wld _ | .lds _ | .sts _ | .put | .get => []

/-- Whether a range reaches a span. -/
def Range.inSpan (r : Range) (span : Nat) : Bool := decide (r.x / 2 ^ 25 ≤ span) && decide (span ≤ (r.x + r.n - 1) / 2 ^ 25)

/-- The range of a code fetch that another package serves: a clause has at most 64 words. -/
def fetchRange (i : Issuer) : Option Range :=
  match i.wait with
  | .code _ a _ => some ⟨i.code, a, 256, []⟩
  | _ => none

/-- The range of a meter reading whose write another package serves (R171). -/
def Reading.range (r : Reading) : Option Range := r.sent.map fun (_, _, parts) => ⟨r.cap, r.cap.cur, 4096, parts⟩

/-- Whether some translated request that is not yet performed, or is served by another package, has a range that meets a test: a request
of an operation, a code fetch, a weight copy, or a meter reading. A copy or an oload translates each part as it performs it, so that only a part which
another package serves is in flight. -/
def inFlight (s : State) (f : Nat → Range → Bool) : Bool :=
  (s.ops.any fun (_, o) => o.lanes.any fun q =>
    (q.ph == .remote || (q.ph == .xlated && o.kind.isMem)) && (rangesOf o q).any fun r => f (pasidOf s o.blk) r) ||
  (s.groups.any fun (k, G) => G.issuers.any fun j => match (G.issuer? j).bind fetchRange with
    | some r => f (pasidOf s (k / 32)) r
    | none => false) ||
  (s.wscopies.any fun (_, w) => match w.sent with
    | some (_, _, parts) => f w.pasid ⟨rootCap w.obn 0 0 0 0, w.off, w.len, parts⟩
    | none => false) ||
  s.worlds.any fun (_, W) => W.readings.any fun m => match m.range with
    | some r => f m.pasid r
    | none => false

/-- Drop cached translations that meet a test, on every die. -/
def tlbDrop (s : State) (f : TlbEnt → Bool) : State :=
  { s with dies := s.dies.map fun (d, D) => (d, { D with tlb := D.tlb.filter fun t => !f t }) }

/-! ### Invalidation (R115, R327) -/

/-- Begin an invalidation. -/
def beginInval (s : State) (v : Inval) : State :=
  let (id, s) := s.fresh
  { s with invals := tset s.invals id v }

/-- R115. -/
def execInvalObject (q : Cmd) (obn : DWord) (s : State) : Out :=
  ownCtx s q fun p c => if 2 ^ 28 ≤ obn.toNat then reply s q 1 0
    else beginInval s { cmd := q, func := c.func, pasid := p, obn := some obn.toNat, span := none, frame := none }

/-- R115. -/
def execInvalSpan (q : Cmd) (obn span : DWord) (s : State) : Out :=
  ownCtx s q fun p c => if 2 ^ 28 ≤ obn.toNat ∨ 2 ^ 19 ≤ span.toNat then reply s q 1 0
    else beginInval s { cmd := q, func := c.func, pasid := p, obn := some obn.toNat, span := some span.toNat, frame := none }

/-- R115. -/
def execInvalStage2 (q : Cmd) (frame : DWord) (s : State) : Out :=
  ownCtx s q fun p c => if 2 ^ 27 ≤ frame.toNat then reply s q 1 0
    else beginInval s { cmd := q, func := c.func, pasid := p, obn := none, span := none, frame := some frame.toNat }

/-- Whether a cached translation is one that an invalidation names. -/
def Inval.hits (v : Inval) (t : TlbEnt) : Bool :=
  t.func == v.func &&
    match v.obn with
    | some o => t.pasid == v.pasid && t.obn == o && (v.span.isNone || v.span == some t.span)
    | none => match v.frame with
      | some g => t.frames.any fun f => spanGfr t.entry + f.1 == g
      | none => false

/-- Whether a range was translated by an entry that an invalidation names: for a frame, one of the host frames that stage 2 has
given for it. -/
def Inval.uses (s : State) (v : Inval) (pasid : Nat) (r : Range) : Bool :=
  match v.obn with
  | some o => pasid == v.pasid && r.cap.obn == o && (match v.span with | some i => r.inSpan i | none => true)
  | none => match v.frame with
    | some g => ((tget? s.ctxs pasid).map (·.func)) == some v.func &&
        r.parts.any fun p => !farPart p && (tgetD s.mem.maps (v.func * 2 ^ 27 + g) []).contains (p.1 / 2 ^ 21)
    | none => false

/-- Whether a guest frame of a function still maps a host frame. -/
def mapsTo (s : State) (key h : Nat) : Bool :=
  match stage2 s (key / 2 ^ 27) (key % 2 ^ 27 * 2 ^ 21) with
  | .ok (a, _) => a / 2 ^ 21 == h
  | .error _ => false

/-- Queue a frame for scrubbing (R327). -/
def queueFrame (s : State) (fr : Nat) : State :=
  if s.mem.scrubQ.contains fr then s else { s with mem := { s.mem with scrubQ := s.mem.scrubQ ++ [fr] } }

/-- Whether a stage-2 table maps a host frame: an entry with V = 1 has a byte that is listed. -/
def frameMapped (s : State) (fr : Nat) : Bool :=
  s.funcs.any fun (f, F) => f != 0 && s.mem.hbm.bytes.any fun (a, _) =>
    decide (F.s2 ≤ a) && decide (a < F.s2 + 2 ^ 30) && mapsTo s (f * 2 ^ 27 + (a - F.s2) / 8) fr

/-- After an invalidation of a guest frame: a host frame whose last mapping is gone is queued for scrubbing (R327). -/
def freeFrame (s : State) (func g : Nat) : State :=
  let key := func * 2 ^ 27 + g
  let (kept, gone) := (tgetD s.mem.maps key []).partition (mapsTo s key)
  let s := { s with mem := { s.mem with maps := tput s.mem.maps key kept [] } }
  gone.foldl (fun s h => if frameMapped s h then s else queueFrame s h) s

/-- A span that is no longer there has no history (R121). -/
def forgetSpans (s : State) (pasid : Nat) (f : Nat → Nat → Bool) : State :=
  let keep (k : Nat) (x : SpanSt) : Option (Nat × SpanSt) :=
    if k / 2 ^ 48 == pasid && f (k / 2 ^ 20 % 2 ^ 28) (k % 2 ^ 20) then
      (if x.moving.isSome then some (k, { x with times := [], settled := 0 }) else none)
    else some (k, x)
  { s with mem := { s.mem with spans := s.mem.spans.filterMap fun e => keep e.1 e.2 } }

/-- Whether a span has V = 1 in its tables. -/
def spanThere (s : State) (c : Ctx) (obn i : Nat) : Bool :=
  match objectEntry s c obn with
  | .ok o => objV o && (match spanEntry s c o i with
    | .ok e => spanV e
    | .error _ => true)
  | .error _ => true

/-- R115: every request translated by the old entry has been performed. -/
def execInvalidationComplete (inv : Nat) (s : State) : Out :=
  match tget? s.invals inv with
  | none => .next s
  | some v =>
    if inFlight s (v.uses s) then .next s
    else
      let s := tlbDrop { s with invals := tdel s.invals inv } v.hits
      let s := match v.frame with
        | some g => freeFrame s v.func g
        | none => s
      let s := match v.obn, tget? s.ctxs v.pasid with
        | some o, some c => forgetSpans s v.pasid fun o' i => o' == o && (v.span.isNone || v.span == some i) && !spanThere s c o i
        | _, _ => s
      .next (reply s v.cmd 0 0)

/-! ### Sweeps (R119) -/

/-- Start a sweep of a context, or extend the one in progress: it is to visit everything from now on. -/
def startSweep (s : State) (pasid : Nat) : State :=
  let gs := s.groups.filter fun (k, _) => match tget? s.blocks (k / 32) with
    | some B => B.pasid == pasid && B.phase.onCore
    | none => false
  s.modCtx pasid fun c => { c with sweep := some ⟨[], gs.map (·.1)⟩ }

/-- A group without the tags of its stale capabilities. -/
def freshGroup (s : State) (pasid : Nat) (G : Group) : Group :=
  let G := G.vt.foldl (fun G (q, m) => (lanesOf m).foldl (fun G l =>
    if isStale s pasid (G.quad (4 * q) l) then G.setVtag q l false else G) G) G
  { G with st := G.st.filter fun p => !isStale s pasid (G.sPair (2 * p)) }

/-- An operation whose requests carry no stale tag. -/
def freshOp (s : State) (pasid : Nat) (o : Op) : Op :=
  { o with lanes := o.lanes.map fun q =>
      { q with vtag := q.vtag && !isStale s pasid ⟨BitVec.ofNat 128 q.val, true⟩
               tag := q.tag && (o.kind != .storeCap || !isStale s pasid ⟨BitVec.ofNat 128 q.data, true⟩) } }

/-- A block whose scratchpad holds no stale tag. -/
def freshBlock (s : State) (pasid : Nat) (B : Block) : Block :=
  { B with spm := { B.spm with tags := B.spm.tags.filter fun g => !isStale s pasid (capOf (B.spm.read (16 * g) 16) true) } }

/-- Clear the tags of the stale capabilities of a group, and of those its requests carry. -/
def scanGroup (s : State) (pasid b g : Nat) : State :=
  let s := s.modGroup b g (freshGroup s pasid)
  { s with ops := s.ops.map fun (k, o) => (k, if o.blk == b && o.gidx == g then freshOp s pasid o else o) }

/-- Clear the stale tags of a block's scratchpad. -/
def scanSpm (s : State) (pasid b : Nat) : State := s.modBlock b (freshBlock s pasid)

/-- Clear the stale tags of an image of a context. -/
def scanImage (s : State) (pasid : Nat) (m : Image) : Image :=
  if m.blk.pasid != pasid then m
  else { m with blk := freshBlock s pasid m.blk, groups := m.groups.map fun (k, G) => (k, freshGroup s pasid G)
                ops := m.ops.map fun (k, o) => (k, freshOp s pasid o) }

/-- Checkpoints and views of a context lose their stale tags. -/
def scanImages (s : State) (pasid : Nat) : State :=
  let f (t : Tab Image) : Tab Image := t.map fun (k, m) => (k, scanImage s pasid m)
  { s with ckpts := f s.ckpts, views := f s.views }

/-- R119: the scan of a group, at a clause boundary at which none of its clauses is in issue. -/
def execSweepRegisterScan (g : GRef) (s : State) : Out :=
  match s.grp? g.blk g.gidx with
  | none => .next s
  | some G =>
    let p := pasidOf s g.blk
    match (tget? s.ctxs p).bind (·.sweep) with
    | none => .next s
    | some w =>
      if !w.groups.contains (gkey g.blk g.gidx) || G.issuers.any fun k => ((G.issuer? k).bind (·.cl)).isSome then .next s
      else
        let s := scanGroup s p g.blk g.gidx
        .next (s.modCtx p fun c => { c with sweep := some { w with groups := w.groups.filter (· != gkey g.blk g.gidx) } })

/-- Host frames that a context's objects reach, with those of its tables and save area on demand (R327). -/
def spanFrames (s : State) (c : Ctx) : List Nat :=
  ((List.range c.otlen).flatMap fun k =>
    match objectEntry s c k with
    | .ok o =>
      if objV o then (List.range (objNspan o)).flatMap fun i =>
        match spanEntry s c o i with
        | .ok e => if spanV e then (List.range 16).filterMap fun f =>
            match stage2 s c.func ((spanGfr e + f) * 2 ^ 21) with
            | .ok (h, _) => some (h / 2 ^ 21)
            | .error _ => none
          else []
        | .error _ => []
      else []
    | .error _ => []).dedup

/-- The granules of the context in memory lose their stale tags; the lines' MACs are formed over their new tag bits (R321). -/
def scanMemory (s : State) (pasid : Nat) (c : Ctx) : State :=
  let frames := if s.mem.hbm.tags.isEmpty then [] else spanFrames s c
  let tags := s.mem.hbm.tags.filter fun g =>
    !(frames.contains (16 * g / 2 ^ 21) && isStale s pasid (capOf (physRead s (16 * g) 16) true))
  let cleared := (s.mem.hbm.tags.filter fun g => !tags.contains g).map (16 * ·)
  cleared.foldl (fun s h => sealLines s h 16) { s with mem := { s.mem with hbm := { s.mem.hbm with tags } } }

/-- The roots of grids lose their stale tags. -/
def scanGrids (s : State) (pasid : Nat) : State :=
  { s with grids := s.grids.map fun (k, g) => (k, if g.pasid == pasid then
      { g with roots := g.roots.map (staleCheck s pasid) } else g) }

/-- Set SWG of every object to its generation at the sweep's start. -/
def setSwg (s : State) (c : Ctx) (gens : Tab Nat) : State :=
  (List.range c.otlen).foldl (fun s k =>
    match objectEntry s c k with
    | .ok o => if objV o then devWrite s (some c.world) c.func (c.otbase + 16 * k) (natBytes 16 (setField o 11 8 ((tget? gens k).getD (objGen o)))) else s
    | .error _ => s) s

/-- R119: everything has been visited. -/
def execSweepComplete (pasid : Nat) (s : State) : Out :=
  match tget? s.ctxs pasid with
  | none => .next s
  | some c =>
    match c.sweep with
    | none => .next s
    | some w =>
      let left := w.groups.filter fun k => match tget? s.blocks (k / 32), tget? s.groups k with
        | some B, some _ => B.phase.onCore
        | _, _ => false
      if !left.isEmpty then .next s
      else
        let s := scanImages (scanGrids (scanMemory s pasid c) pasid) pasid
        let mine := s.blocks.filter fun b => b.2.pasid == pasid
        let s := mine.foldl (fun s (b, B) =>
          let s := scanSpm s pasid b
          if B.phase.onCore then s else (s.groupsOf b).foldl (fun s g => scanGroup s pasid b g) s) s
        .next ((setSwg s c w.gens).modCtx pasid fun c => { c with sweep := none })

/-! ### Revocation (R117) -/

/-- Steps 2 and 3: the object's generation becomes another. A sweep in progress keeps the one at its start. -/
def advanceGen (s : State) (pasid : Nat) (c : Ctx) (obn o gen : Nat) : State :=
  let s := s.modCtx pasid fun c => { c with sweep := c.sweep.map fun w =>
    if (tget? w.gens obn).isSome then w else { w with gens := tset w.gens obn (objGen o) } }
  let s := devWrite s (some c.world) c.func (c.otbase + 16 * obn) (natBytes 16 (setField o 7 4 gen))
  forgetSpans s pasid fun o' _ => o' == obn

/-- R117. -/
def execRevoke (q : Cmd) (obn : DWord) (s : State) : Out :=
  ownCtx s q fun p c =>
    if c.otlen ≤ obn.toNat then reply s q 1 0
    else match objectEntry s c obn.toNat with
      | .error _ => reply s q 8 0
      | .ok o =>
        if !objV o then reply s q 8 0
        else
          let (id, s) := s.fresh
          if (objGen o + 1) % 16 = objSwg o then
            startSweep { s with revs := tset s.revs id ⟨some q, p, obn.toNat, true, objGen o⟩ } p
          else advanceGen { s with revs := tset s.revs id ⟨some q, p, obn.toNat, false, objGen o⟩ } p c obn.toNat o ((objGen o + 1) % 16)

/-- R117 step 2 in this package: a revocation in another package of the context sets the generation here, and what was translated
under the old one is waited for as for one of this package. An object that is not there is left. -/
def peerRevoke (s : State) (pasid obn gen : Nat) : State :=
  match tget? s.ctxs pasid with
  | none => s
  | some c =>
    if c.otlen ≤ obn then s
    else match objectEntry s c obn with
      | .error _ => s
      | .ok o =>
        if !objV o then s
        else
          let (id, s) := s.fresh
          advanceGen { s with revs := tset s.revs id ⟨none, pasid, obn, false, objGen o⟩ } pasid c obn o (gen % 16)

/-- R117 step 1: a held revocation goes on once a sweep begun later has completed. -/
def execRevokeProceed (rev : Nat) (s : State) : Out :=
  match tget? s.revs rev with
  | none => .next s
  | some r =>
    if !r.held then .next s
    else match tget? s.ctxs r.pasid with
      | none => .next { s with revs := tset s.revs rev { r with held := false } }
      | some c =>
        match objectEntry s c r.obn with
        | .ok o =>
          if objV o && (objGen o + 1) % 16 == objSwg o then .next s
          else .next (advanceGen { s with revs := tset s.revs rev { r with held := false, gen := objGen o } } r.pasid c r.obn o ((objGen o + 1) % 16))
        | .error _ => .next s

/-- R117 steps 4 to 6. -/
def execRevocationPoint (rev : Nat) (s : State) : Out :=
  match tget? s.revs rev with
  | none => .next s
  | some r =>
    if r.held || inFlight s fun p q => p == r.pasid && q.cap.obn == r.obn && q.cap.ogen == r.gen then .next s
    else
      let s := tlbDrop { s with revs := tdel s.revs rev } fun t => t.pasid == r.pasid && t.obn == r.obn
      .next (startSweep (match r.cmd with | some q => reply s q 0 0 | none => s) r.pasid)

/-! ### Span moves (R120, R121) -/

/-- Issue again what waits under a handle of a retryable fault (R287). -/
def reissue (s : State) (h : Nat) : State :=
  match tget? s.parks h with
  | none => s
  | some p =>
    let s := { s with parks := tdel s.parks h }
    match p.held with
    | .request _ _ => { s with ops := s.ops.map fun (k, o) =>
        (k, { o with lanes := o.lanes.map fun q => if q.ph == .retry h then { q with ph := .sent } else q }) }
    | .fetch r => s.modGroup r.blk r.gidx fun G => G.mapIssuers fun i => if i.wait == .fetch h then { i with wait := .go } else i
    | _ => s

/-- The ranges that what waits under a handle is of. -/
def waitsOn (s : State) (h : Nat) (p : Park) : List Range :=
  match p.held with
  | .request _ _ => s.ops.flatMap fun (_, o) => (o.lanes.filter fun q => q.ph == .retry h).flatMap (rangesOf o)
  | .fetch r => match s.grp? r.blk r.gidx with
    | some G => (G.issuers.filterMap G.issuer?).filterMap fun i => if i.wait == .fetch h then some ⟨i.code, i.code.cur, 4, []⟩ else none
    | none => []
  | _ => []

/-- SUB of a record as a ring holds it. -/
def recSub (r : List Byte) : Nat := leNat ((r.drop 4).take 4)

/-- A record under a handle waits in the device for room in its ring (R286). -/
def recHeld (s : State) (h : Nat) : Bool := s.rings.any fun (k, R) => k != 65 && R.held.any fun r => recSub r == h

/-- What waits under a handle is of a span that is moving. -/
def stillMoving (s : State) (h : Nat) (p : Park) : Bool :=
  s.mem.spans.any fun (k, x) => x.moving.isSome && k / 2 ^ 48 == p.pasid &&
    (waitsOn s h p).any fun r => r.cap.obn == k / 2 ^ 20 % 2 ^ 28 && r.inSpan (k % 2 ^ 20)

/-- The device retries what SPAN_MIGRATING holds of a context for a span, once its move completes (R287); what waits for another
move as well goes on waiting, and so does what a record covers that has yet to be posted (R286). -/
def retryMoved (s : State) (pasid obn span : Nat) : State :=
  (s.parks.filter fun p => p.2.pasid == pasid && p.2.code == Code.spanMigrating).foldl (fun s (h, p) =>
    if ((waitsOn s h p).any fun r => r.cap.obn == obn && r.inSpan span) && !stillMoving s h p && !recHeld s h then reissue s h else s) s

/-- The record of a SPAN_MIGRATING fault has been posted after its span's move had completed: the device retries now. -/
def retryPosted (s : State) (h : Nat) : State :=
  match tget? s.parks h with
  | some p => if p.code == Code.spanMigrating && !stillMoving s h p && !recHeld s h then reissue s h else s
  | none => s

/-- Bytes of storage without those of a range. -/
def Ram.clear (r : Ram) (a n : Nat) : Ram :=
  { bytes := r.bytes.filter fun c => !(a ≤ c.1 && c.1 < a + n), tags := r.tags.filter fun g => !(a ≤ 16 * g && 16 * g < a + n) }

/-- The cores hold no copy of the words of a frame, and own none (R139). -/
def dropFrame (s : State) (fr : Nat) : State :=
  let f {α : Type} (t : Tab α) : Tab α := t.filter fun e => e.1 / 2 ^ 19 != fr
  { s with cores := s.cores.map fun (k, c) => (k, { c with l1 := f c.l1 }), mem := { s.mem with wordOwner := f s.mem.wordOwner } }

/-- Write the bytes and tags that a move brings into a span's frames, where no core keeps a copy of what they held; a line it leaves
at zero is as a scrubbed one (assumption 28). A tag passes the stale check, and stands on a well-formed value (R99, R118). -/
def fillSpan (s : State) (pasid world func gfr : Nat) (data : List (Nat × Byte)) (tags : List Nat) : State :=
  let hosts := (List.range 16).map fun f => match stage2 s func ((gfr + f) * 2 ^ 21) with
    -- the move's writes act for the context's world: a frame that another owns is not written (R323)
    | .ok (h, _) => if tgetD s.mem.owner (h / 2 ^ 21) world == world then some h else none
    | .error _ => none
  let s := hosts.foldl (fun s h => match h with
    | some h =>
      let s := dropFrame s (h / 2 ^ 21)
      { s with mem := { s.mem with hbm := s.mem.hbm.clear h (2 ^ 21), owner := tset s.mem.owner (h / 2 ^ 21) world
                                   lines := s.mem.lines.filter fun l => l.1 / 2 ^ 15 != h / 2 ^ 21 } }
    | none => s) s
  let hostOf (x : Nat) : Option Nat := (hosts.getD (x / 2 ^ 21) none).map (· + x % 2 ^ 21)
  let s := data.foldl (fun s (x, b) => match hostOf (x % 2 ^ 25) with
    | some h => physWrite s h [b]
    | none => s) s
  tags.foldl (fun s g => match hostOf (16 * g % 2 ^ 25) with
    | some h => physWriteCap s h (physRead s h 16) (staleCheck s pasid (capOf (physRead s h 16) true)).tag
    | none => s) s

/-- The times of the moves that a span completed among other packages join those kept here (R121). -/
def joinTimes (x : SpanSt) (times : List Nat) : SpanSt :=
  { x with times := (sortBy (fun a b => decide (b ≤ a)) (x.times ++ times).dedup).take 3 }

/-- Record a completed move; the third within 1 ms settles the span for 64 ms (R121). -/
def countMove (x : SpanSt) (now : Nat) : SpanSt :=
  let recent := x.times.filter fun t => decide (now < t + 1000000)
  { moving := none, times := (now :: x.times).take 3, settled := if 2 ≤ recent.length then now + 64000000 else x.settled }

/-- R120: a move ends. `data` and `tags` are what a span that moves here brings, with the times of its moves among others (R121); a span that leaves does so once every request
translated to its old frames has been performed, so that each write is present at the new home. -/
def execSpanMoveComplete (span : SpanRef) (data : SpanLoad) (tags : List Nat) (s : State) : Out :=
  let key := spanKey span.pasid span.obn span.idx
  let x := spanSt s key
  match x.moving, tget? s.ctxs span.pasid with
  | some p, some c =>
    (match objectEntry s c span.obn with
     | .error _ => .next s
     | .ok o =>
       match spanEntry s c o span.idx with
       | .error _ => .next s
       | .ok e =>
         let here := p == Config.packageId.toNat
         if !here && inFlight s (fun w r => w == span.pasid && r.cap.obn == span.obn && r.inSpan span.idx && r.parts.any fun p => !farPart p) then
           .next s
         else
         let s := if here then fillSpan s span.pasid c.world c.func (spanGfr e) data.bytes tags else s
         let e' := setField (setField e 2 2 (if here then 0 else 1)) 12 5 (if p = elsewhere then data.home else p)
         let s := devWrite s (some c.world) c.func (objStab o + 8 * span.idx) (natBytes 8 e')
         let s := tlbDrop s fun t => t.pasid == span.pasid && t.obn == span.obn && t.span == span.idx
         .next (retryMoved (setSpan s key (countMove (joinTimes x data.times) s.reft)) span.pasid span.obn span.idx))
  | _, _ => .next s

/-- R121. -/
def execSettleExpiry (span : SpanRef) (s : State) : Out :=
  let key := spanKey span.pasid span.obn span.idx
  let x := spanSt s key
  if x.settled ≠ 0 ∧ x.settled ≤ s.reft then .next (setSpan s key { x with settled := 0 }) else .next s

end Sys2Proof.Machine
end

