-- ==== Sys2Proof/Machine/Power.lean ====
section
/-!
DEFINITION. Energy, power and time as events (R172, R272, R297 to R314, R171): ticks with their correction and refill,
charge reports, changes of step, ceilings, margins, the rack lease, meter samples and signed readings. An event that is not due
leaves the state as it is.
-/

namespace Sys2Proof.Machine

/-! ### The correction of a tick (R302) -/

/-- The ratio of a domain's tick in Q16, and whether it was bounded: measured energy, static charge, sum of charges. -/
def corrRatio (m : Int) (st e : Nat) : Nat × Bool :=
  let d := m - st
  if e = 0 then (65536, d != 0)
  else
    let q0 := (d * 65536).fdiv e
    let q := if q0 < 49152 then 49152 else if 81920 < q0 then 81920 else q0.toNat
    (q, (q : Int) != q0)

def sumAmt (l : List Charge) : Nat := (l.map (·.amt)).sum

/-- The charges of a domain. -/
def domCharges (l : List Charge) (d : Nat) : List Charge := l.filter fun c => c.dom == d

/-- Ratio of domain d in the tick to be corrected. -/
def prevRatio (s : State) (d : Nat) : Nat × Bool :=
  corrRatio (s.energy.prevM.getD d 0) (s.energy.prevS.getD d 0) (sumAmt (domCharges s.energy.prev d))

/-- What a list of charges of the tick gains by its correction: for each domain and account Floor(E × q / 65536) − E. -/
def corrGain (s : State) (l : List Charge) : Int :=
  ((List.range 41).map fun d =>
    let cs := domCharges l d
    let q := (prevRatio s d).1
    (((cs.map (·.acct)).dedup).map fun a =>
      let e := sumAmt (cs.filter fun c => c.acct == a)
      ((e * q / 65536 : Nat) : Int) - e).sum).sum

/-- Correct the previous tick of one domain: each account, then the overhead of the domain. -/
def correctDom (s : State) (d : Nat) : State :=
  let cs := domCharges s.energy.prev d
  let (q, bad) := prevRatio s d
  let corr (e : Nat) : Nat := e * q / 65536
  let accts := (cs.map (·.acct)).dedup
  let sumOf (a : Option Nat) : Nat := sumAmt (cs.filter fun c => c.acct == a)
  let s := accts.foldl (fun s a =>
    let e := sumOf a
    let gain : Int := (corr e : Int) - e
    match a with
    | none => adjustOver s d gain
    | some p =>
      let mine := cs.filter fun c => c.acct == a && c.launch != 0
      let s := mine.foldl (fun s c => s.modLaunch c.launch fun l => { l with energy := l.energy + ((corr c.amt : Int) - c.amt) }) s
      adjust s p 0 gain) s
  let total := (accts.map fun a => corr (sumOf a)).sum
  let s := adjustOver s d (s.energy.prevM.getD d 0 - (s.energy.prevS.getD d 0 : Nat) - total)
  { s with energy := { s.energy with bounded := tput s.energy.bounded d bad false } }

/-- Worlds charged in a domain whose correction was bounded note the tick (Table 23.6, NBND). -/
def noteBounded (s : State) : State :=
  let bad := (List.range 41).filter fun d => (prevRatio s d).2
  let ws := ((s.energy.prev.filter fun c => bad.contains c.dom).filterMap fun c => c.acct.bind fun p => worldOfAcct s p).dedup
  ws.foldl (fun s w => s.modWorld w fun W => { W with bounded := W.bounded ++ [s.energy.tick - 1] }) s

/-- Outstanding readings gain the correction of the charges made before their T1 (R310). -/
def correctReadings (s : State) : State :=
  let k := s.energy.tick
  { s with worlds := s.worlds.map fun (w, W) => (w, { W with readings := W.readings.map fun r =>
      if r.tick = k then { r with meter := r.meter + corrGain s r.prevPart }
      else if r.tick + 1 = k then { r with meter := r.meter + corrGain s r.part }
      else r }) }

/-- The energy of a context in the corrected tick, with its residency charge (R301). -/
def ctxTick (s : State) (p : Nat) : Int :=
  let mine := s.energy.prev.filter fun c => c.acct == some p
  let leak := ((List.range 24).map fun d =>
    let D := s.die d
    if partDed D.part && partResp D.part == p then s.energy.prevS.getD d 0 else 0).sum
  (sumAmt mine : Int) + corrGain s mine + leak

/-- The step of a die at a moment, from its trace. -/
def stepAt (d : Die) (t : Nat) : Nat :=
  let es := (d.trace0.filter fun e => bits e.2.toNat 63 0 ≤ t).map fun e => (bits e.2.toNat 63 0, bits e.2.toNat 78 72)
  ((es.foldl (fun (best : Option (Nat × Nat)) e => match best with
    | none => some e
    | some b => if b.1 ≤ e.1 then some e else best) none).map (·.2)).getD d.step

/-- Append a sample to a group's ring, or discard it (Table 11.9): the count of discarded samples that then stands. The work of the sample
is partition overhead (R299, assumption 82). A sample that falls due when the channel is no longer bound to a meter sample ring is
dropped and not counted: the spec says nothing of it (DESIGN CHOICE, assumption 113). -/
def postSample (s : State) (b g : Nat) (chan : BitVec 6) (start : Int) (bounded : Bool) (drops : Nat) : Nat × State :=
  let t := 10000 * (s.energy.tick - 1)
  let s := charge s (dieOf (homeOf s b)) 0x38 1 none 0
  let e := intBits 64 start
  let el3 := field 6 0 (stepAt (s.die (dieOf (homeOf s b))) t) + field 7 7 (if bounded then 1 else 0) + field 15 8 drops
  match (s.grp? b g).bind fun G => tget? G.chans chan.toNat with
  | some ch =>
    if ch.kind ≠ 6 then (drops, s)
    else
      let r := ringCtl s b ch.off
      let s' := ringPost s b ch.off [BitVec.ofNat 32 t, BitVec.ofNat 32 e, BitVec.ofNat 32 (e / 2 ^ 32), BitVec.ofNat 32 el3]
      let s' := logAdd s' b (.bytes (rcOf s' b) ch.off ((blockSpm s' b).read ch.off ch.rlen) false)
      (if r.count + 4 ≤ r.capy then 0 else min 255 (drops + 1), s')
  | none => (drops, s)

/-- Append the sample of a group that is ready, that of an earlier `msamp` first; the next period follows. -/
def emitSample (s : State) (b g : Nat) : State :=
  match (s.grp? b g).bind (·.msamp) with
  | none => s
  | some m =>
    match m.due with
    | some ⟨chan, false, start, bounded⟩ =>
      let (drops, s) := postSample s b g chan start bounded m.drops
      s.modGroup b g fun G => { G with msamp := some { m with due := none, drops } }
    | _ =>
      if m.left ≠ 0 then s
      else
        let (drops, s) := postSample s b g m.chan m.start m.bounded m.drops
        s.modGroup b g fun G => { G with msamp := some { m with left := m.period, start := 0, bounded := false, drops } }

/-- Every group's sampling takes in the corrected tick (R172); a sample not yet taken is, first. -/
def sampleTick (s : State) : State :=
  (s.groups.filter fun g => (g.2.msamp.map fun m => m.period != 0 || m.due.isSome) == some true).foldl (fun s (k, _) =>
    let b := k / 32
    let g := k % 32
    let s := emitSample s b g
    let p := pasidOf s b
    let bad := (List.range 41).any fun d => (prevRatio s d).2 && s.energy.prev.any fun c => c.dom == d && c.acct == some p
    let e := ctxTick s p
    s.modGroup b g fun G => { G with msamp := G.msamp.map fun m =>
      let m := { m with due := m.due.map fun u => if u.wait then { u with wait := false, start := u.start + e, bounded := u.bounded || bad } else u }
      if m.left = 0 ∨ m.period = 0 then m
      else if m.left ≤ m.period then { m with left := m.left - 1, start := m.start + e, bounded := m.bounded || bad }
      else { m with left := m.left - 1 } }) s

/-! ### Charge reports (R299) -/

/-- Apply a report: to the tick in which its event occurred. -/
def applyReport (s : State) (r : Report) : State :=
  if r.tick = s.energy.tick then applyCharge s r.c
  else
    let s := { s with energy := { s.energy with prev := addCharge s.energy.prev r.c } }
    match r.c.acct with
    | some p =>
      let w := (worldOfAcct s p).getD 0
      let s := s.modWorld w fun W => { W with dies := if r.c.dom < 24 then ninsert W.dies r.c.dom else W.dies }
      adjust s p r.c.launch r.c.amt
    | none => adjustOver s r.c.dom r.c.amt

/-- R299: the oldest report reaches the meter. -/
def execChargeReport (s : State) : Out :=
  match s.energy.reports with
  | [] => .next s
  | r :: rest => .next (applyReport { s with energy := { s.energy with reports := rest } } r)

/-- Reports of ticks that have ended have all arrived by the next boundary. -/
def oldReports (s : State) : State :=
  let (old, rest) := s.energy.reports.partition fun r => decide (r.tick < s.energy.tick)
  old.foldl applyReport { s with energy := { s.energy with reports := rest } }

/-! ### Ceilings and steps (R304, R305, R308, R312 to R314) -/

/-- A ceiling that has fallen below the step in force or asked for lowers it. -/
def Die.enforce (d : Die) (cause now : Nat) : Die :=
  if d.ceiling < d.current then d.request d.ceiling cause now else d

/-- Lease power in watts (R312). -/
def leaseWatts (s : State) : Nat :=
  min packageLimit (match s.energy.lease with
    | some (w, _) => w
    | none => s.energy.floor)

/-- The lease ceiling of a die (R312): the greatest step whose modelled power fits the equal share. A crown domain out of service has
no share (DESIGN CHOICE, assumption 117). -/
def leaseCeiling (s : State) (die : Nat) : Nat :=
  let n := s.energy.brimHbm.length
  let off : Int := if n = 0 then 0 else s.energy.brimHbm.sum / ((160000 * n : Nat) : Int)
  let dies := ((List.range 24).filter fun d => (s.die d).inService).length
  let share := (1000 * (leaseWatts s : Int) - off) / ((max dies 1 : Nat) : Int)
  ((List.range 65).filter fun k => decide ((Config.maxPower die k : Int) ≤ share)).foldl max 0

/-- Recompute every lease ceiling. -/
def leaseChanged (s : State) : State :=
  let cs := (List.range 24).map fun d => leaseCeiling s d
  (List.range 24).foldl (fun s d => s.modDie d fun D => { D with lceil := cs.getD d 0 }.enforce 2 s.reft) s

/-- R312. -/
def execLeaseGrant (watts ms : Nat) (s : State) : Out :=
  if ms < 1 ∨ 1000 < ms then .next s
  else .next (leaseChanged { s with energy := { s.energy with lease := some (watts, s.reft + 1000000 * ms) } })

/-- R312. -/
def execLeaseExpiry (s : State) : Out :=
  match s.energy.lease with
  | some (_, e) => if e ≤ s.reft then .next (leaseChanged { s with energy := { s.energy with lease := none } }) else .next s
  | none => .next s

/-- R313. -/
def execPowerCeilingExpiry (die : Nat) (s : State) : Out :=
  let d := s.die die
  if d.pceil < 64 ∧ d.pceilEnd ≤ s.reft then .next (s.setDie die { d with pceil := 64 }) else .next s

/-- R309: after 1,000 ticks without excess replays the margin falls by one level. -/
def execMarginRelax (die : Nat) (s : State) : Out :=
  let d := s.die die
  if d.margin ≠ 0 ∧ 1000 ≤ d.quiet then .next (s.setDie die { d with margin := d.margin - 1, quiet := 0 }) else .next s

/-- R305: a decided change begins once the one before it has ended. -/
def execStepChangeBegin (die : Nat) (s : State) : Out :=
  let d := s.die die
  match d.want, d.chg with
  | some (t, cause, _), none =>
    if t = d.step then .next (s.setDie die { d with want := none })
    else if d.step < t then .next (s.setDie die { d with want := none, chg := some (.ramp t cause s.reft) })
    else .next (s.setDie die { d with want := none, chg := some (.relock t cause s.reft true) })
  | _, _ => .next s

/-- R305: the relock of a raise begins. -/
def execSupplyRampEnd (die : Nat) (s : State) : Out :=
  let d := s.die die
  match d.chg with
  | some (.ramp t cause _) => .next (s.setDie die { d with chg := some (.relock t cause s.reft false) })
  | _ => .next s

/-- R305, R306, R308: the new step is in force 1,500 ns after the relock began; time that passes over that moment brings it about by
itself. -/
def execRelockEnd (die : Nat) (s : State) : Out :=
  let d := s.die die
  match d.chg with
  | some (.relock _ _ st _) => if st + 1500 ≤ s.reft then .next (s.setDie die (d.relocked die s.reft)) else .next s
  | _ => .next s

/-- R305. -/
def execSupplyLowerEnd (die : Nat) (s : State) : Out :=
  let d := s.die die
  match d.chg with
  | some (.lower _) => .next (s.setDie die { d with chg := none })
  | _ => .next s

/-- R306: a die out of service returns with a step; its entry is written at index (NCHG + 1) mod 256. -/
def execReturnToService (die step : Nat) (s : State) : Out :=
  let d := s.die die
  if d.inService ∨ 24 ≤ die ∨ 64 < step then .next s
  else .next (s.setDie die { d.record die step 6 s.reft with inService := true, derate := 64, drops := 0, derated := 0, chg := none, want := none })

/-- The save of every block on some cores begins. -/
def beginSaves (s : State) (f : Nat → Block → Bool) : State :=
  (s.blocks.filter fun b => b.2.phase.onCore && f b.1 b.2).foldl (fun s b => beginSave s b.1) s

/-- The blocks that leave their cores with those that meet a test: a co-resident grid leaves whole, and otherwise a die
unit leaves whole (R37, R42, R280). -/
def saveWith (s : State) (f : Nat → Block → Bool) : State :=
  let hit := s.blocks.filter fun b => b.2.phase.onCore && f b.1 b.2
  beginSaves s fun k T => hit.any fun (b, B) => b == k ||
    (B.serves.isNone && T.serves.isNone && T.grid == B.grid &&
      ((s.gridOf B).cor || T.bidx / max (s.gridOf B).duBlocks 1 == B.bidx / max (s.gridOf B).duBlocks 1))

/-- Every line that a slice holds leaves it (R139, R314). -/
def leaveSlice (s : State) (die : Nat) : State := (s.die die).llc.foldl (fun s l => llcLeave s die l) s

/-- R314: a die whose condition has persisted for 100 ms at the derated step is retired. -/
def execDieRetire (die : Nat) (s : State) : Out :=
  let d := s.die die
  if !d.inService || d.derated < 10000 then .next s
  else
    let s := leaveSlice (s.setDie die { d with inService := false }) die
    .next (integrity (saveWith s fun _ B => dieOf B.home == die) 6 die 0 none 0)

/-! ### The tick (R303) -/

/-- The residency charge of a crown domain at the end of a tick (R301). -/
def chargeLeak (s : State) (d : Nat) : Nat × State :=
  let D := s.die d
  let amt := weight s d D.step 0x40
  let owner := if partDed D.part && (tget? s.ctxs (partResp D.part)).isSome then some (partResp D.part) else none
  (amt, if amt = 0 then s else match owner with
    | some p =>
      let w := (worldOfAcct s p).getD 0
      (adjust s p 0 amt).modWorld w fun W => { W with dies := ninsert W.dies d }
    | none => adjustOver s d amt)

/-- Static charges of every domain. -/
def chargeStatic (s : State) : List Nat × State :=
  (List.range 41).foldl (fun (acc, s) d =>
    if d < 24 then let (a, s) := chargeLeak s d; (acc ++ [a], s)
    else (acc ++ [Config.staticEnergy d], adjustOver s 24 (Config.staticEnergy d))) (([] : List Nat), s)

/-- The refill of a context at a tick, scaled while the package exceeds its lease (R312). -/
def refillRate (s : State) (rate : Nat) : Nat :=
  let n := s.energy.power.length
  let e := s.energy.power.sum
  let pl : Int := (leaseWatts s : Int) * 160000000 * n
  if n ≠ 0 ∧ pl < e then rate * (65536 * pl / e).toNat / 65536 else rate

/-- Refill a context, after what CTXWR asked for has come into force (R265, R272). -/
def refill (s : State) (c : Ctx) : Ctx :=
  let c := match c.newIw with
    | some (iw, wt, rate, capb) => { c with iw, wt, rate, capb, newIw := none }
    | none => c
  { c with level := min (c.level + refillRate s c.rate) c.capb }

/-- A die at the end of a tick: weights come into force; replays raise its margin or lower its step (R309); energy above
190 W lowers its power ceiling (R313); supply drops mark a cracked connection (R314). -/
def tickDie (s : State) (d : Nat) (m : Int) (drop : Bool) : State :=
  let D := s.die d
  let D : Die := { D with weights := D.newWeights.foldl (fun (t : Tab Word) (e : Nat × Word) => tset t e.1 e.2) D.weights, newWeights := [] }
  let D := if 64 < D.replays then
      (if D.margin < Config.maxMargin then { D with margin := D.margin + 1, quiet := 0, replays := 0 }
       else { D.request (D.current - 1) 4 s.reft with quiet := 0, replays := 0 })
    else { D with quiet := D.quiet + 1, replays := 0 }
  let D : Die := if m > tickEnergy crownLimit then { D with pceil := D.step - 1, pceilEnd := s.reft + 1000000 }.enforce 3 s.reft else D
  let drops := if drop then D.drops + 1 else 0
  let crack := decide (8 ≤ drops) && D.derate != 32
  let D := { D with drops, derated := if drop && D.derate == 32 && decide (D.step ≤ 32) then D.derated + 1 else 0 }
  let D := if crack then { D with derate := 32 }.enforce 5 s.reft else D
  let s := s.setDie d D
  if crack then integrity s 5 d 0 none 0 else s

/-- R303: the boundary that ends a tick. `sensors` are the measured energies of the 41 domains in the tick that ends, then
for each die whether its supply drop exceeded 1.25 times the model (R314). -/
def execTick (sensors : List Int) (s : State) : Out :=
  if s.reft < 10000 * (s.energy.tick + 1) then .next s
  else
    let s := oldReports s
    let s := if s.energy.tick = 0 then s
      else
        let s := sampleTick (correctReadings (noteBounded s))
        (List.range 41).foldl correctDom s
    let (st, s) := chargeStatic s
    let ms := (List.range 41).map fun d => sensors.getD d 0
    let e := s.energy
    let s := { s with energy := { e with prev := e.now, now := [], prevS := st, prevM := ms, tick := e.tick + 1
                                         power := (ms.sum :: e.power).take 10, brimHbm := ((ms.drop 24).sum :: e.brimHbm).take 10 } }
    let s := (List.range 24).foldl (fun s d => tickDie s d (ms.getD d 0) (sensors.getD (41 + d) 0 != 0)) s
    .next { s with ctxs := s.ctxs.map fun (p, c) => (p, refill s c) }

/-! ### Time and residency (R298, R307) -/

/-- Let time pass: each resident group is charged for every 1,024 cycles since its block's placement. -/
def passTime (s : State) (ns : Nat) : State :=
  let s' := elapse s ns
  (s'.blocks.filter fun b => b.2.phase.onCore).foldl (fun t (b, B) =>
    let d := dieOf B.home
    let n := ((s'.die d).cyc - B.cyc0) / 1024000 - ((s.die d).cyc - B.cyc0) / 1024000
    if n = 0 then t
    else
      let (acct, la) := acctOf t b
      charge t d 0x03 (n * (t.groupsOf b).length) acct la) s'

/-! ### The meter's writes (R171, R172, R310, R311) -/

/-- R172. -/
def execMeterSample (g : GRef) (s : State) : Out := .next (emitSample s g.blk g.gidx)

/-- The seed of the identity signing key (R315). -/
def idSeed : BitVec 256 := Config.sha3 (natBytes 32 Config.deviceSecret.toNat ++ [0x41#8, 0x58#8, 0x4E#8, 0x2D#8, 0x49#8, 0x44#8])

/-- KID (R315). -/
def kid : BitVec 256 := Config.sha3 (Config.mldsaPublic idSeed)

/-- The history of a reading (R311): for each die charged the entry in force at T0 with cause 7, then the changes of those
dies in [T0, T1), in order of time; the entries kept, and how many changes were left out. -/
def history (s : State) (W : World) (r : Reading) (dies : List Nat) : List Nat × Nat :=
  let trace (d : Nat) : List Nat := (s.die d).trace0.map fun e => e.2.toNat
  let start (d : Nat) : Nat := ((trace d).find? fun e => bits e 63 0 == W.t0).getD (W.snap.getD d (0, 0)).1
  let first := dies.map fun d => setField (start d) 83 80 7
  let count := (dies.map fun d => (r.snap.getD d (0, 0)).2 - (W.snap.getD d (0, 0)).2).sum
  let chg := sortBy (fun a b : Nat => decide (bits a 63 0 ≤ bits b 63 0)) (dies.flatMap fun d =>
    (trace d).filter fun e => decide (W.t0 ≤ bits e 63 0) && decide (bits e 63 0 < r.t1) && bits e 83 80 != 0xF)
  let room := 64 - first.length
  let kept := chg.drop (chg.length - min chg.length room)
  (first ++ kept, count - kept.length)

/-- The 4,088 bytes of a signed reading (Table 23.6). -/
def readingBytes (s : State) (w : Nat) (W : World) (r : Reading) : List Byte :=
  let (hist, hovf) := history s W r r.dies
  let nbnd := (W.bounded.filter fun k => decide (10000 * k < r.t1) && decide (W.t0 < 10000 * (k + 1))).length
  let body := natBytes 2 (1 + 256 * w) ++ natBytes 2 hist.length ++ natBytes 4 hovf ++ natBytes 8 (W.rseq + 1) ++
    natBytes 8 W.t0 ++ natBytes 8 r.t1 ++ natBytes 16 (intBits 128 (r.meter - W.lastMeter)) ++ natBytes 16 (intBits 128 r.meter) ++
    natBytes 32 kid.toNat ++ natBytes 4 r.req ++ natBytes 4 nbnd ++ List.replicate 24 0#8 ++
    (List.range 64).flatMap fun i => natBytes 16 (hist.getD i 0)
  let dig := Config.sha3 body
  let sig := (List.range 2420).map fun i => (Config.mldsaSign idSeed dig).getD i 0#8
  body ++ natBytes 32 dig.toNat ++ sig ++ List.replicate 484 0#8

/-- The dies of a reading that could not be written count for the next (R171). -/
def passDies (W : World) (dies : List Nat) : World :=
  match W.readings with
  | r :: rest => { W with readings := { r with dies := dies.foldl ninsert r.dies } :: rest }
  | [] => { W with dies := dies.foldl ninsert W.dies }

/-- A record of a meter write that faulted: to the terminal ring of the context (R171). -/
def meterFault (s : State) (r : Reading) (code : Nat) : State :=
  let (h, s) := s.fresh
  let v := setField (setField (setField r.fault.toNat 7 0 code) 63 32 h) 511 448 s.reft
  let f := ((tget? s.ctxs r.pasid).map (·.func)).getD 0
  toRing s (if f = 0 then 1 else 1 + f) [BitVec.ofNat 512 v]

/-- A reading has been written: its world's next one begins at its T1, under the next number. -/
def readingDone (s : State) (world : Nat) (W : World) (r : Reading) (rest : List Reading) : State :=
  s.modWorld world fun _ =>
    { W with readings := rest, rseq := W.rseq + 1, t0 := r.t1, lastMeter := r.meter, snap := r.snap
             bounded := W.bounded.filter fun k => decide (r.t1 < 10000 * (k + 1)) }

/-- Write a reading, then its number at DONE, over the parts of its region that are held here. The work is partition overhead
(R299, assumption 82). -/
def writeReading (s : State) (world : Nat) (W : World) (r : Reading) (parts : List (Nat × Nat × Nat)) : State :=
  let bs := readingBytes s world W r ++ natBytes 8 r.req
  let s := parts.foldl (fun s p => if farPart p then s else chargeFar s (homeDie s p.1) 0x3A (linesOf p.1 p.2.1).length 0 none 0) s
  (parts.foldl (fun (acc : State × List Byte) p =>
    (if farPart p then acc.1 else copyWrite acc.1 p.1 (acc.2.take p.2.1) false, acc.2.drop p.2.1)) (s, bs)).1

/-- R171, R310: once the tick that holds T1 has been corrected, the reading is written, then DONE. If translation faults,
nothing is written and the next reading covers the interval. A region with a part homed elsewhere is written once its home package
has written that part (R113); a relock of a home die holds the write (R305). -/
def execMeterReadingWrite (world : Nat) (s : State) : Out :=
  match tget? s.worlds world with
  | none => .next s
  | some W =>
    match W.readings with
    | [] => .next s
    | r :: rest =>
      if s.energy.tick < r.tick + 2 ∨ r.sent.isSome then .next s
      else
        match translate s 0 r.pasid r.cap r.cap.cur 4096 true true with
        | .fault code s => .next (meterFault (s.modWorld world fun _ => passDies { W with readings := rest } r.dies) r code)
        | .remote _ parts s =>
          .next (s.modWorld world fun _ => { W with readings := { r with sent := some (s.reft, curSlot s world, parts) } :: rest })
        | .ok parts t => if homesStill t parts then .next s else .next (readingDone (writeReading t world W r parts) world W r rest)

end Sys2Proof.Machine
end

