-- ==== Sys2Proof/Machine/Milliner.lean ====
section
/-!
DEFINITION. The Milliner's events (R37, R39, R199, R263, R266 to R273, R285, R288, R290 to R294, R303): launch records and their
completion, the placement of blocks, save and restore. An event that is not due leaves the state as it is.
-/

namespace Sys2Proof.Machine

/-! ### Launch records (R266, R267, R269, R271) -/

/-- The pending launch of a context that bears a sequence number (R271). -/
def pendingSeq (s : State) (pasid seq : Nat) : Option Nat :=
  (s.launches.find? fun l => l.2.pasid == pasid && l.2.seq == seq).map (·.1)

/-- R266, R271: a launch record is taken from an interface. It is refused without a context (R344), rejected by R19, Table
19.2 or a sequence number that a pending launch bears, and otherwise accepted. -/
def launchRecord (iface : Nat) (rec : BitVec 512) (s : State) : State :=
  let r : LRec := rec.toNat
  let seq := BitVec.ofNat 32 r.seq
  match (s.iface iface).pasid with
  | none => post s iface seq 9 0
  | some p =>
    match tget? s.ctxs p with
    | none => post s iface seq 9 0
    | some c =>
      let code := recordCode s c r false
      if code ≠ 0 then post s iface seq code 0
      else if (pendingSeq s p r.seq).isSome then post s iface seq 1 0
      else
        let dep := if r.dep = 0 ∨ r.dep = r.seq then none else pendingSeq s p r.dep
        let (id, s) := s.fresh
        let l : Launch := { pasid := p, seq := r.seq, iface, record := rec, dep, pri := r.pri, grid := none, energy := 0, done := none }
        -- the capture of the context is OFF at launch (R338)
        let s := { s with launches := tset s.launches id l }.modCtx p fun c => { c with cap := .off }
        if dep.isNone then makeReady s id else s

/-- R266. -/
def execLaunchRecord (iface : Nat) (rec : BitVec 512) (s : State) : Out := .next (launchRecord iface rec s)

/-- R269, R303: the completion record of a launch whose grid has ended, once every tick that holds its charges has been
corrected. Launches that wait on it do so until the record has been written (R271). -/
def execLaunchComplete (pasid seq : Nat) (s : State) : Out :=
  match s.launches.find? fun l => l.2.pasid == pasid && l.2.seq == seq && l.2.done.isSome && l.2.posted.isNone with
  | none => .next s
  | some (id, l) =>
    match l.done with
    | some (code, t) =>
      if s.energy.tick < t + 2 then .next s
      else .next (endLaunch { s with grids := s.grids.filter fun g => g.2.launch != id } id code)
    | none => .next s

/-! ### Save (R290, R294) -/

/-- Whether an issuer of the block has a clause in issue that may go on; in a debug stop none may (R336), and none past an accepted
`fork`, at which the block stops between two instructions (R39). -/
def midClause (s : State) (b : Nat) : Bool :=
  ((ctxOf s b).map (·.dbgStop)) != some true && ((tget? s.blocks b).bind (·.forkDst)).isNone && (s.groupsOf b).any fun g => match s.grp? b g with
    | some G => G.susp.isEmpty && G.issuers.any fun k => match G.issuer? k with
      | some i => i.cl.isSome && i.wait == .go
      | none => false
    | none => false

/-- A request of a lane that cannot go on by itself: it waits on a retryable fault, or its line may not be delivered, which has stopped its
context (R287, R322). -/
def jammed (s : State) (q : LReq) : Bool :=
  match q.ph with
  | .retry _ => true
  | .xlated => q.parts.any fun p => !farPart p && (badLine s p.1 p.2.1).isSome
  | _ => false

/-- Whether a store or an atomic past the commit gate is still to be performed, and will be before the block is saved: it is neither
jammed nor behind a jammed access of its lane or its issue (R290). -/
def yetToLand (s : State) (k : Nat) (o : Op) (q : LReq) : Bool :=
  o.kind.isWrite && o.wide.isNone && !q.ph.settled && !isMerged s o.core k q.lane && !jammed s q &&
    s.ops.all fun (_, a) => a.blk != o.blk || !a.kind.isMem || o.order < a.order ||
      if a.order == o.order then
        a.lanes.all fun p => !jammed s p || (match o.kind with | .atomic _ _ _ => false | _ => !reqsOverlap p q)
      else a.gidx != o.gidx || a.lanes.all fun p => p.lane != q.lane || !jammed s p

/-- Work that a save waits for (R290, R294): puts and gets of the block or aimed at it, an oload of it in progress, fills aimed at it,
its stores and atomics past the commit gate, and a running mpair that touches it. A fill that waits on a retryable fault is not waited for:
no bound is known for it, and a save waits for no longer than one fill; its bytes come into the image later (DESIGN CHOICE, assumption
120). -/
def unsaved (s : State) (b : Nat) : Bool :=
  (s.ops.any fun (k, o) => match o.kind with
    | .put | .get => o.blk == b || o.lanes.any fun q => q.targets.contains b
    | .oload => o.blk == b && o.wide.isNone && (oloadBegun o || ctxRuns s (pasidOf s b) && blockRuns s b)
    | .mcast => o.wide.isNone && o.lanes.any fun q => (q.ph == .sent || q.ph == .remote) && q.targets.contains b
    | .store _ | .storeCap | .atomic _ _ _ => o.blk == b && o.lanes.any fun q => yetToLand s k o q
    | _ => false) ||
  s.tops.any fun (_, t) => t.running && isMpair t.kind && (t.blk == b || opNames t b != ([], []))

/-- Drain the write-combining lines that hold stores of a block. -/
def drainBlock (s : State) (b : Nat) : State :=
  s.cores.foldl (fun s (k, C) => C.wc.foldl (fun s (line, w) =>
    if w.op.any fun (o, _) => ((tget? s.ops o).map (·.blk)) == some b then drainLine s k line else s) s) s

/-- Whether a write-combining line still holds a store of a block: a relock keeps it (R305). -/
def stillMerged (s : State) (b : Nat) : Bool :=
  s.cores.any fun (_, C) => C.wc.any fun (_, w) => w.op.any fun (o, _) => ((tget? s.ops o).map (·.blk)) == some b

/-- Each load that has been performed completes into the image. -/
def deliverLoads (s : State) (b : Nat) : State :=
  s.ops.foldl (fun s (k, o) =>
    if o.blk == b && o.kind.returns then (List.range o.syms.length).foldl (fun s i => arrive s k i) s else s) s

/-- A load or a span query that has not been performed is recorded wherever it stands, and issued again after the restore (R199, R290,
R293); so is what else has been translated and not performed. -/
def LReq.recorded (k : OpKind) (q : LReq) : LReq :=
  let again := q.ph == .xlated || ((k.isLoad || k == .spanq) && match q.ph with
    | .remote | .retry _ => true
    | _ => false)
  if again then { q with ph := .sent, parts := [] } else q

/-- The requests off the package of a block's operations that meet a test, as nothing waits for them any longer (R325). -/
def farRequests (s : State) (b : Nat) (f : OpKind → Bool) : List Orphan :=
  (s.ops.filter fun o => o.2.blk == b && f o.2.kind).flatMap fun (k, o) => (o.lanes.filter fun q => q.ph == .remote).map fun q =>
    { asked := .op k, n := q.lane, pasid := some (pasidOf s b), world := worldOf s b, ks := q.ks, sent := q.sent }

/-- The code fetches off the package of a block's issuers. -/
def farFetches (s : State) (b : Nat) : List Orphan :=
  (s.groupsOf b).flatMap fun g => match s.grp? b g with
    | none => []
    | some G => G.issuers.filterMap fun i => match (G.issuer? i).map Issuer.wait with
      | some (Wait.code t _ ks) => some { asked := .code b g, n := i, pasid := some (pasidOf s b), world := worldOf s b, ks, sent := t }
      | _ => none

/-- Handles of requests that nothing waits under any longer are gone. -/
def dropHandles (s : State) (b : Nat) : State :=
  { s with parks := s.parks.filter fun (h, p) => match p.held with
      | .request k _ => !(((tget? s.ops k).map (·.blk)) == some b) || s.ops.any fun o => o.2.lanes.any fun q => q.ph == .retry h
      | _ => true }

/-- What the lines of a range held is gone: their metadata, their tags, and every copy of their words. -/
def wipeLines (s : State) (h n : Nat) : State :=
  let inWord (w : Nat) : Bool := decide (h ≤ 4 * w) && decide (4 * w < h + n)
  { s with mem := { s.mem with
      lines := s.mem.lines.filter fun l => !(decide (h ≤ 64 * l.1) && decide (64 * l.1 < h + n))
      hbm := { s.mem.hbm with tags := s.mem.hbm.tags.filter fun g => !(decide (h ≤ 16 * g) && decide (16 * g < h + n)) }
      wordOwner := s.mem.wordOwner.filter fun w => !inWord w.1 } }

/-- The bytes of a block's image, or of its checkpoint (b = 2^32 − 2), stand in a slot of its own: those parts of it that stage 2 gives. What an image there
before left goes, with the metadata of its lines, their poison and their tags: the image's lines are written under the current slot, with
a MAC each (`lineAt`, R321, R322). They stay the image's until something else is written to them, also after the block's restore or exit
(R291, R319). -/
def placeImage (s : State) (b : Nat) (B : Block) (slot : Option Nat) : State :=
  match tget? s.ctxs B.pasid, slot with
  | some c, some a =>
    (match guestParts s c.func true (blockIsz s B / 2 ^ 21 + 2) (c.saveb + a) (blockIsz s B) with
     | .ok ps =>
       let (id, s) := s.fresh
       let key := 2 ^ 33 * id + 2 ^ 32 * curSlot s c.world + b
       -- the write acts for the context's world: a frame that another owns is not written (R323)
       let mine := ps.filter fun (h, _) => (tgetD s.mem.owner (h / 2 ^ 21) c.world) == c.world
       let s := mine.foldl (fun s (h, n) => wipeLines (cutImages (noteTables s h n) h n) h n) ((claimParts s c.world mine).getD s)
       { s with mem := { s.mem with images := s.mem.images ++ mine.map fun (h, n) => (h, n, key) } }
     | .error _ => s)
  | _, _ => s

/-- Charge the line accesses of a save or restore to the context served (R299). -/
def chargeSave (s : State) (b core : Nat) : State :=
  let (acct, la) := acctOf s b
  if weight s (dieOf core) (s.die (dieOf core)).step 0x3A = 0 then s
  else chargeFar { s with free := s.free + 1 } (dieOf core) 0x3A (Config.saveEvents s.free) 0 acct la

/-- Loop buffers are not saved, and the words that an issuer has asked another package for are asked again (Table 21.5). -/
def Issuer.unbuffered (i : Issuer) : Issuer :=
  { i with buf := [], wait := match i.wait with
    | .code _ _ _ => .go
    | w => w }

/-- R290: the save of a block whose issue has stopped and whose non-preemptible work has completed. -/
def execBlockSave (b : Nat) (s : State) : Out :=
  match tget? s.blocks b with
  | none => .next s
  | some B =>
    if B.phase != .saving || midClause s b || unsaved s b || stillMerged (drainBlock s b) b then .next s
    else
      let s := deliverLoads (drainBlock s b) b
      let s : State := { s with
        orphans := s.orphans ++ farRequests s b (fun k => k.isLoad || k == .spanq) ++ farFetches s b
        ops := s.ops.map fun (k, o) => (k, if o.blk == b then { o with lanes := o.lanes.map (LReq.recorded o.kind) } else o)
        tops := s.tops.map fun (k, t) => (k, if t.blk == b then { t with running := false } else t) }
      let s := dropHandles s b
      let mine := (s.tops.filter fun t => t.2.blk == b).map (·.1)
      let s := s.modCore B.home fun C => { C with tileQ := C.tileQ.filter fun k => !mine.contains k }
      let s := s.modCore B.home fun C => { C with symQ := C.symQ.filter fun r => r.blk != b }
      let s := (s.groupsOf b).foldl (fun s g => s.modGroup b g fun G => G.mapIssuers Issuer.unbuffered) s
      let s := chargeSave (placeImage s b B B.slot0) b B.home
      let phase := match B.forkDst with
        | some (_, _, child) => Phase.forked (some child)
        | none => .saved
      .next (settleVacs { s.modBlock b (fun B => { B with phase, imgHit := false, asSaved := false, since := s.nextId }) with nextId := s.nextId + 1 })

/-! ### Restore (R199, R263, R285, R290, R291) -/

/-- The values of an image that a store of the context has reached: drawn from the context's own data and zero, with no
tag (R291). The model keeps what the device itself put into the image to go on by: positions, counters, channel tables, arrivals, parked
sub-groups and outstanding work (DESIGN CHOICE, assumption 85). -/
def spoil (s : State) (b : Nat) : State :=
  let n := s.free
  let dr (i : Nat) : Word := drawOwn s b (n + i)
  let gs := s.groupsOf b
  -- one free value for each register lane, uniform half, scratchpad word, slot byte and tile element
  let spoilG (g : Nat) (G : Group) : Group :=
    { G with
      v := G.v.map fun (r, row) => (r, row.map fun (l, x) => (l, match x with
        | .val _ => .val (dr (4096 * g + 64 * r + l))
        | y => y))
      vt := [], vl := [], st := []
      p := (List.range 7).foldl (fun t i => tput t i (dr (210000 + 128 * g + 2 * i) ++ dr (210001 + 128 * g + 2 * i)) 0#64) []
      q := (dr (220000 + g)).extractLsb' 0 7 |>.zeroExtend 8
      shadow := G.shadow.mapIdx fun i (r, _) => (r, dr (230000 + 512 * g + 2 * i) ++ dr (230001 + 512 * g + 2 * i))
      views := (List.range 4).foldl (fun t i =>
        tput t i ((dr (250000 + 16 * g + 2 * i) ++ dr (250001 + 16 * g + 2 * i)) &&& 0xF3F3F3FFF#64) 0#64) []
      labels := G.labels.mapIdx fun i _ => (dr (260000 + 64 * g + i)).extractLsb' 0 16
      s := (List.range 64).foldl (fun t r => tput t r (dr (200000 + 128 * g + 2 * r) ++ dr (200001 + 128 * g + 2 * r)) 0#64) [] }
  let words := ((tget? s.blocks b).map (·.spmLen)).getD 0 / 4
  let s' := gs.foldl (fun t g => t.modGroup b g (spoilG g)) s
  let s' := s'.modBlock b fun B =>
    { B with spm := (List.range words).foldl (fun (m : Ram) i => m.write (4 * i) (natBytes 4 (dr (300000 + i)).toNat)) Ram.empty
             scl := B.scl.mapIdx fun i (k, _) => (k, (dr (590000 + i)).toInt)
             slots := B.slots.map fun (k, _) => (k, (List.range 8192).foldl (fun t i =>
               tput t i ((dr (600000 + 8192 * k + i)).extractLsb' 0 8) 0#8) [])
             tiles := B.tiles.map fun (k, T) => (k, { T with el := (List.range 4096).foldl (fun t i =>
               tput t i (dr (900000 + 8192 * k + 2 * i) ++ dr (900001 + 8192 * k + 2 * i)) 0#64) [] }) }
  { s' with free := n + 1100000 }

/-- A line of a block's image that may not be delivered (R322). -/
def imageBad (s : State) (b : Nat) : Option Nat :=
  (s.mem.images.filter fun m => m.2.2 % 2 ^ 32 == b).findSome? fun (h, n, _) =>
    (s.mem.lines.find? fun (l, x) => (x.poison || (x.bad && !x.scr)) && decide (h ≤ 64 * l) && decide (64 * l < h + n)).map (·.1)

/-- Restore one block on a core. An image with a line that may not be delivered stops the context, and the block stays saved (R322). -/
def restoreBlock (s : State) (b core base : Nat) (fold : Bool) : State :=
  match tget? s.blocks b with
  | none => s
  | some B =>
    match tget? s.ctxs B.pasid with
    | none => s
    | some c =>
      match imageBad s b with
      | some l => lineEvent s l B.pasid
      | none =>
      let s := acquireCore (enterWorld (setSplit s core c.spu) core c) core
      let s := if B.imgHit then spoil s b else s
      let s := s.modBlock b fun B =>
        { B with home := core, foldTo := none, core := if fold then B.core else core, base := if fold then B.base else base
                 phase := if blockEnded s b then .draining else .resident, imgHit := false
                 asSaved := gangHeld s (dieOf core), cyc0 := (s.die (dieOf core)).cyc }
      let s : State := { s with ops := s.ops.map fun (k, o) => (k, if o.blk == b then { o with core } else o) }
      let s := (s.groupsOf b).foldl (fun s g =>
        { s.modGroup b g (fun G => { G with since := s.nextId, passed := 0, hold := none }) with nextId := s.nextId + 1 }) s
      let q := sortBy (fun x y : Nat × TOp => decide (x.2.order ≤ y.2.order)) (s.tops.filter fun t => t.2.blk == b)
      let s := s.modCore core fun C => { C with tileQ := C.tileQ ++ q.map (·.1) }
      -- a sweep in progress is to scan the groups restored, and reaches the scratchpad (R119)
      let s := if c.sweep.isSome then scanSpm (sweepJoin s b) B.pasid b else s
      -- dispositions that arrived meanwhile (R285)
      let s := (s.parks.filter fun p => p.2.held.stands && p.2.held.blk s == b && p.2.dispo.isSome).foldl (fun s (h, _) => settleDispo s h) s
      chargeSave s b core

/-- Restore every block of a plan. -/
def restorePlan (s : State) (plan : Plan) (fold : Bool) : State :=
  plan.foldl (fun s (b, core, base) => restoreBlock s b core base fold) s

/-! ### Pre-emption -/

/-- R274: cores that another context's ready work needs. The blocks of empty contexts there give them up: a ready item could be placed
from `core` on if they were gone, and can be placed on no core as things are. -/
def yieldDry (s : State) (core : Nat) : State :=
  let dry (B : Block) : Bool := match tget? s.ctxs B.pasid with
    | some c => c.dry || c.halted || c.desch
    | none => false
  if (choose s core).isSome || !(onCore s core).any fun b => dry b.2 then s
  else
    let gone := { s with blocks := s.blocks.map fun (k, B) => (k, if dieOf B.home == dieOf core && dry B && B.phase.onCore then { B with phase := .saved } else B) }
    match choose gone core with
    | some (p, r, plan) =>
      let elsewhere := match tget? s.ctxs p with
        | some c => (List.range (24 * 64)).any fun k => inSlice s c (dieOf k) && (planOf s p c k r).isSome
        | none => true
      if elsewhere then s else saveWith s fun _ B => dry B && plan.any fun x => x.2.1 == B.home
    | none => s

/-- Debug descriptors that were written come into force: at a slice boundary, or when no block is resident (R331). -/
def newDebug (s : State) (f : Nat → Ctx → Bool) : State :=
  { s with ctxs := s.ctxs.map fun (p, c) => (p, match c.newDbg with
    | some v => if f p c then { c with dbg := v, newDbg := none } else c
    | none => c) }

/-- A ready item is placed by its plan. -/
def place (s : State) (core pasid : Nat) (r : Ready) (plan : Plan) : State :=
  let s := if s.blocks.any fun b => b.2.pasid == pasid && b.2.phase.onCore then s else newDebug s fun p _ => p == pasid
  match r with
  | .handler h => dispatchHandler s pasid h core
  | .fresh gid => dispatch s gid plan
  | .saved b => restorePlan s plan (((tget? s.blocks b).bind (·.foldTo)).isSome)

/-- R273: new blocks, and blocks for handlers (R288), where the choice for the core falls on them. Where nothing can be
placed and blocks of an empty context stand in the way, they are saved (R274). -/
def execBlockPlacement (core : Nat) (s : State) : Out :=
  if 24 * 64 ≤ core then .next s
  else match choose s core with
    | some (p, .fresh g, plan) => .next (place s core p (.fresh g) plan)
    | some (p, .handler h, plan) => .next (place s core p (.handler h) plan)
    | some _ => .next s
    | none => .next (yieldDry s core)

/-- R290, R279, R280: saved blocks, where the choice for the core falls on block b's placement unit. -/
def execBlockRestore (b core : Nat) (s : State) : Out :=
  if 24 * 64 ≤ core then .next s
  else match choose s core with
    | some (p, .saved a, plan) => if plan.any fun x => x.1 == b then .next (place s core p (.saved a) plan) else .next s
    | _ => .next s

end Sys2Proof.Machine
end

