-- ==== Sys2Proof/Machine/Slices.lean ====
section
/-!
DEFINITION. Slices, gang slices and what the supervisor asks of partitions (R124, R137, R277 to R281, R304, R331): slice ends,
gang readiness and deadlines, VACATE, PARTWR, QTRD, weight copies, and PMLIM's coming into force. An event that is not due leaves
the state as it is.
-/

namespace Sys2Proof.Machine

/-! ### Slices (R278, R279) -/

/-- Whether an entry's slice is not skipped when its turn comes on a die (R278): a context of its function has a block resident there or
work that is ready, and the buckets of its contexts are not all empty. An empty bucket does not skip a gang slice: at its deadline it is
a miss (R281, Table 20.4; DEDUCED, assumption 116). -/
def sliceLive (s : State) (d : Nat) (e : Nat × Nat × Word) : Bool :=
  let cs := s.ctxs.filter fun (_, c) => c.func == e.1 && (!c.gng || qGng e.2.2) && admits s c d && !c.halted && !c.desch
  (cs.any fun (p, _) => (s.blocks.any fun (_, B) => B.pasid == p && B.phase.onCore && dieOf B.home == d) || !(readyOf s p).isEmpty) &&
    (qGng e.2.2 || cs.any fun (_, c) => !c.dry)

/-- The entries of a partition in the order of their cycle after the running one. -/
def cycleOf (s : State) (d : Nat) : List (Nat × Nat × Word) :=
  let es := slicesOf s d
  match (s.die d).slice with
  | none => es
  | some (f, i) =>
    let later (x : Nat × Nat × Word) : Bool := decide (f < x.1) || (x.1 == f && decide (i < x.2.1))
    es.filter later ++ es.filter fun x => !later x

/-- The next slice of a partition starts; blocks of contexts that it does not run are saved whole, and its issue begins once what it
restores has been (R279). -/
def nextSlice (s : State) (d : Nat) : State :=
  let s := newDebug s fun _ c => inPartitions s c d
  let s := s.modDie d fun D => { D with ents := entriesOf s d }
  match (cycleOf s d).find? (sliceLive s d) with
  | none => s.modDie d fun D => { D with slice := none, gangReady := false, gangRuns := false, restored := true }
  | some (f, i, w) =>
    let s := s.modDie d fun D =>
      { D with slice := some (f, i), sliceStart := s.reft, sliceEnd := s.reft + 1000 * qQus w, gangReady := false, gangRuns := false
               restored := false }
    saveWith s fun _ B => dieOf B.home == d && match tget? s.ctxs B.pasid with
      | some c => !inSlice s c d
      | none => false

/-- R279: the running slice has come to its end; or none runs and one could. -/
def execSliceEnd (die : Nat) (s : State) : Out :=
  let D := s.die die
  let due := match D.slice with
    | some _ => decide (D.sliceEnd ≤ s.reft)
    | none => (slicesOf s die).any (sliceLive s die)
  .next (if due then nextSlice s die else s)

/-! ### Gang slices (R281) -/

/-- The running slice of a die, when it is a gang slice: function, entry, deadline. -/
def gangSlice (s : State) (d : Nat) : Option (Nat × Nat × Nat) :=
  match (s.die d).slice with
  | some (f, i) =>
    let w := entryOf s d f i
    if qGng w then some (f, i, (s.die d).sliceStart + 1000 * qGdl w) else none
  | none => none

/-- R281: this package has restored the gang contexts' blocks in the slice, and their buckets are not empty. -/
def execGangReady (die : Nat) (s : State) : Out :=
  match gangSlice s die with
  | none => .next s
  | some (f, _, dl) =>
    let ready := s.ctxs.all fun (_, c) => c.func != f || !c.gng || c.desch ||
      !admits s c die || !c.dry
    if s.reft ≤ dl ∧ ready ∧ restoreDone s die then .next (s.modDie die fun D => { D with gangReady := true }) else .next s

/-- The blocks of contexts that meet a test go, with everything they hold, their grids and their parked lanes. -/
def discard (s : State) (f : Nat → Bool) : State :=
  let bs := (s.blocks.filter fun b => f b.2.pasid).map (·.1)
  let gone (b : Nat) : Bool := bs.contains b
  let s := bs.foldl (fun s b => drainBlock s b) s
  let s := { s with orphans := s.orphans ++ bs.flatMap fun b => farRequests s b (fun _ => true) ++ farFetches s b }
  let tops := (s.tops.filter fun t => gone t.2.blk).map (·.1)
  let s : State := { s with
    cores := s.cores.map fun (k, C) => (k, { C with
      tileQ := C.tileQ.filter fun t => !tops.contains t
      busy := match C.busy with | some t => if tops.contains t then none else some t | none => none }) }
  let s : State := { s with parks := s.parks.filter fun p => !f p.2.pasid }
  let s : State := { s with ops := s.ops.filter fun o => !gone o.2.blk, tops := s.tops.filter fun t => !gone t.2.blk }
  let free (t : Tab FQueue) (c : Chan) : Tab FQueue :=
    if c.kind == 5 then tmod t (fqKey c.slot c.rlen) FQueue.unbind else t
  let s : State := { s with fqs := s.groups.foldl (fun t g => if gone (g.1 / 32) then g.2.chans.foldl (fun t c => free t c.2) t else t) s.fqs }
  let s := bs.foldl removeBlock s
  settleVacs { s with grids := s.grids.filter fun g => !f g.2.pasid }

/-- Every pending launch of some contexts ends with one code; none that waits on another is left to it. The record of one that ran waits
until the ticks that hold its charges have been corrected (R303). -/
def endAll (s : State) (f : Nat → Bool) (code : Nat) : State :=
  let ids := (s.launches.filter fun l => f l.2.pasid && l.2.posted.isNone).map (·.1)
  let s := ids.foldl (fun s id => s.modLaunch id fun l => { l with dep := none }) s
  ids.foldl (fun s id => match (tget? s.launches id).bind (·.grid) with
    | some _ => s.modLaunch id fun l => { l with done := some (code, s.energy.tick) }
    | none => endLaunch s id code) s

/-- R281: the third abandonment in succession deschedules the gang contexts of a function. -/
def deschedule (s : State) (f : Nat) : State :=
  let hit (p : Nat) : Bool := match tget? s.ctxs p with
    | some c => c.func == f && c.gng && !c.desch
    | none => false
  let s' := endAll (discard s hit) hit 6
  { s' with ctxs := s'.ctxs.map fun (p, c) => (p, if hit p then { c with desch := true } else c) }

/-- R281: what an abandoned gang slice restored is discarded unchanged: its image stands as it was saved. -/
def backToImage (s : State) (b : Nat) (B : Block) : State :=
  let mine := (s.tops.filter fun t => t.2.blk == b).map (·.1)
  let s := s.modCore B.home fun C => { C with tileQ := C.tileQ.filter fun k => !mine.contains k }
  s.modBlock b fun B => { B with phase := .saved, asSaved := false }

/-- The blocks of a die that a gang slice has restored and that it has not run. -/
def heldBlocks (s : State) (die : Nat) : List (Nat × Block) := s.blocks.filter fun (_, B) => B.asSaved && B.phase.onCore && dieOf B.home == die

/-- R281: at the deadline the slice runs if every package has posted its ready signal, and is otherwise abandoned. -/
def execGangDeadline (die : Nat) (othersReady : Bool) (s : State) : Out :=
  match gangSlice s die with
  | none => .next s
  | some (f, i, dl) =>
    let D := s.die die
    if s.reft < dl ∨ D.gangRuns then .next s
    else if D.gangReady && othersReady then
      let s := (s.setDie die { D with gangRuns := true, restored := true }).modFunc f fun F => { F with misses := tdel F.misses i }
      .next ((heldBlocks s die).foldl (fun s (b, _) => s.modBlock b fun B => { B with asSaved := false }) s)
    else
      let n := tgetD (s.func f).misses i 0 + 1
      let s := s.modFunc f fun F => { F with misses := tset F.misses i n }
      let s := (heldBlocks s die).foldl (fun s (b, B) => backToImage s b B) s
      .next (nextSlice (if n = 3 then deschedule s f else s) die)

/-! ### VACATE (R280) -/

/-- The mask bits above a cluster's cores are within 64; a die is 0 to 23. -/
def dieOk (d : DWord) : Bool := decide (d.toNat < 24)

/-- The logical cores of a die that a mask names. -/
def coresOf (d : Nat) (mask : DWord) : List Nat := (List.range 64).filterMap fun i => if mask.getLsbD i then some (64 * d + i) else none

/-- The surviving cores onto which a block of a co-resident grid may fold: those that hold a block of its gang or cluster unit and have
room. -/
def foldCores (s : State) (B : Block) : List Nat :=
  let g := s.gridOf B
  match tget? s.ctxs B.pasid with
  | none => []
  | some c =>
    (((s.blocks.filter fun (_, T) => T.grid == B.grid && T.serves.isNone && T.phase.runs &&
        T.bidx / (g.clug * g.gngb) == B.bidx / (g.clug * g.gngb)).map fun x => x.2.home).dedup).filter fun k => fitsCore s (shapeOf c g) k 1

/-- A surviving core for each of some blocks, beside the ones already put; none where there is no room for all (R280). -/
def foldPlan : List (Nat × Block) → State → Option (List (Nat × Nat))
  | [], _ => some []
  | (b, B) :: r, s => (foldCores s B).findSome? fun k =>
      (foldPlan r (s.modBlock b fun B => { B with home := k, phase := .draining })).map ((b, k) :: ·)

/-- The folds of a co-resident grid when the blocks on some cores are to leave: of those blocks and of those whose fold has not ended
yet. None where there is no room, or where the kernel is being saved whole. -/
def refold (s : State) (g : Nat) (hit : List (Nat × Block)) : Option (List (Nat × Nat)) :=
  let mine := s.blocks.filter fun b => b.2.grid == g && b.2.serves.isNone
  let leaves (b : Nat × Block) : Bool := b.2.foldTo.isSome || hit.any fun h => h.1 == b.1
  if mine.all fun b => b.2.phase.runs || b.2.foldTo.isSome then
    let go := mine.filter leaves
    foldPlan go (go.foldl (fun s b => s.modBlock b.1 fun B => { B with phase := .saved }) s)
  else none

/-- R280. -/
def vacate (q : Cmd) (d : Nat) (mask : DWord) (s : State) : State :=
  let cores := coresOf d mask
  let s := cores.foldl (fun s k => s.modCore k fun C => { C with vacated := true }) s
  let hit := s.blocks.filter fun b => b.2.phase.onCore && cores.contains b.2.home
  -- the co-resident kernels that have a block there, or were to fold one there; those whose leaving blocks fold, and the others
  let cor := ((s.blocks.filter fun (b, B) => B.serves.isNone && (s.gridOf B).cor &&
    ((hit.any fun h => h.1 == b) || B.foldTo.any cores.contains)).map fun b => b.2.grid).dedup
  let plans := cor.filterMap fun g => (refold s g hit).map fun p => (g, p)
  let folded (g : Nat) : Bool := plans.any fun x => x.1 == g
  let s := beginSaves s fun k B => (hit.any fun b => b.1 == k) && folded B.grid
  let s := saveWith s fun k B => ((hit.any fun b => b.1 == k) && !folded B.grid) || (cor.contains B.grid && !folded B.grid)
  let s := plans.foldl (fun s (_, p) => p.foldl (fun s (b, k) => s.modBlock b fun B => { B with foldTo := some k }) s) s
  settleVacs { s with vacs := s.vacs ++ [⟨q, (s.blocks.filter fun b => b.2.phase == .saving &&
    ((hit.any fun h => h.1 == b.1 || h.2.grid == b.2.grid) || cor.contains b.2.grid)).map (·.1)⟩] }

/-- R280. -/
def execVacate (q : Cmd) (die mask : DWord) (s : State) : Out :=
  pfOnly s q (if dieOk die then vacate q die.toNat mask s else reply s q 1 0)

/-- R280: reopen. -/
def execVacateReopen (q : Cmd) (die mask : DWord) (s : State) : Out :=
  pfOnly s q (if dieOk die then
    reply ((coresOf die.toNat mask).foldl (fun s k => s.modCore k fun C => { C with vacated := false }) s) q 0 0 else reply s q 1 0)

/-! ### Partition entries (R277, R304) -/

/-- A partition entry within its limits (Table 29.3): SMIN ≤ SMAX ≤ 64, PSTEP ≤ 64. -/
def partOk (p : DWord) : Bool :=
  decide (partSmin p ≤ partSmax p) && decide (partSmax p ≤ 64) && decide (partPstep p ≤ 64)

/-- R277, R304: a pooled partition's provider step is asked for when the entry is written. -/
def execPartwr (q : Cmd) (die entry : DWord) (s : State) : Out :=
  pfOnly s q (
    if !dieOk die || !partOk entry then reply s q 1 0
    else
      let d := die.toNat
      let D := s.die d
      -- what is written to the reserved bits is ignored (R14)
      let entry := entry &&& 0xFFFFFFFFFFFF#64
      let only := (entry ^^^ D.part) &&& ~~~(0xFE0000000000#64) == 0#64
      if !only && s.blocks.any (fun b => b.2.phase.onCore && dieOf b.2.home == d) then reply s q 8 0
      else
        let D := { D with part := entry }
        let D := if partDed entry then D else D.request (clampStep D (partPstep entry) D.ceiling) 1 s.reft
        reply (s.setDie d D) q 0 0)

/-- R278. -/
def execQtrd (q : Cmd) (fn idx : DWord) (s : State) : Out :=
  pfOnly s q (if 64 ≤ fn.toNat ∨ 16 ≤ idx.toNat then reply s q 1 0 else reply s q 0 (quantumOf s fn.toNat idx.toNat).toNat)

/-! ### PMLIM and the weight store (R124, R137) -/

/-- R124: the limits of the partition apply to a core once no block is resident there. -/
def execPmlimApply (core : Nat) (s : State) : Out :=
  if (onCore s core).isEmpty && core < 24 * 64 then .next (s.modCore core fun C => { C with pmlim := (s.die (dieOf core)).pmlim })
  else .next s

/-- The source capability of a weight copy: R and CPY over the whole object. -/
def wscopyCap (s : State) (c : Ctx) (obn : Nat) : Cap :=
  let n := match objectEntry s c obn with
    | .ok o => objNspan o
    | .error _ => 0
  formRoot s c obn (Perm.r + Perm.cpy) 0 (n * 2 ^ 25)

/-- R137: a weight copy is checked, and waits until no kernel of the context runs on the die. -/
def execWscopy (q : Cmd) (obn off die woff len : DWord) (s : State) : Out :=
  ownCtx s q fun p c =>
    let win := bits (s.die die.toNat).pmlim.toNat 34 25 * 2 ^ 20
    if !dieOk die || decide (c.otlen ≤ obn.toNat) || decide (win < woff.toNat + len.toNat) then reply s q 1 0
    else
      let k := wscopyCap s c obn.toNat
      match capCheck k off.toNat len.toNat (Perm.r + Perm.cpy) with
      | .error (code, _) => reply s q (if code = Code.capBounds then 1 else 8) 0
      | .ok _ =>
        let (id, s) := s.fresh
        let w : WsCopy :=
          { cmd := q, pasid := p, obn := obn.toNat, off := off.toNat, die := die.toNat, woff := woff.toNat, len := len.toNat }
        { s with wscopies := tset s.wscopies id w }

/-- The bytes of a weight copy are stored under the mask of the context's world (R137, R320), and the command is done. -/
def wscopyStore (t : State) (w : WsCopy) (world : Nat) (bs : List Byte) : State :=
  let base := bits (t.die w.die).pmlim.toNat 24 16 * 2 ^ 20 + w.woff
  let key (l : Nat) : BitVec 128 := fillKey t w.die world base w.len l
  let masked := bs.mapIdx fun i b => b ^^^ maskByte (key ((base + i) / 64)) (base + i)
  reply (t.modDie w.die fun D => { D with
    ws := cellsWrite D.ws base masked, wsBad := D.wsBad.filter fun l => !(linesOf base w.len).contains l
    wsSk := (linesOf base w.len).foldl (fun t l => tset t l (key l)) D.wsSk }) w.cmd 0 0

/-- The accesses of a weight copy to the parts of its source held here are charged to its context (R299). -/
def wscopyCharge (s : State) (w : WsCopy) (parts : List (Nat × Nat × Nat)) : State :=
  parts.foldl (fun s p => if farPart p then s else chargeLines s (some w.pasid) 0 w.die p.1 p.2.1 p.2.2) s

/-- R137, R328: a weight copy reads its source and stores it. Parts homed on another package are asked of it (R113, R120). A copy whose
source is held by a retryable fault waits, as does one that a relock holds (R305); one whose source is refused ends with CODE 0x08. The
rule does not say whether a kernel whose blocks on the die are saved, or wait in a `fork`, still runs there: the model counts the blocks
on a core alone, so that the copy may be made between the kernel's slices (DESIGN CHOICE, assumption 84). -/
def execWscopyProceed (id : Nat) (s : State) : Out :=
  match tget? s.wscopies id with
  | none => .next s
  | some w =>
    let s0 := { s with wscopies := tdel s.wscopies id }
    match tget? s.ctxs w.pasid with
    | none => .next (reply s0 w.cmd 9 0)
    | some c =>
      if w.sent.isSome || (s.die w.die).relocking s.reft || s.blocks.any fun b => b.2.pasid == w.pasid && b.2.phase.onCore && dieOf b.2.home == w.die then
        .next s
      else
        match translate s0 w.die w.pasid (wscopyCap s c w.obn) w.off w.len false true with
        | .fault code _ => if retryable code then .next s else .next (reply s0 w.cmd 8 0)
        | .remote _ parts t =>
          .next { chargeFab' t (some w.pasid) 0 w.die with wscopies := tset s.wscopies id { w with sent := some (s.reft, curSlot s c.world, parts) } }
        | .ok parts t =>
          if homesStill t parts then .next s
          else match (parts.findSome? fun (h, n, _) => badLine t h n) with
          | some l => .next (reply (lineEvent t l w.pasid) w.cmd 8 0)
          | none => .next (wscopyStore (wscopyCharge t w parts) w c.world (parts.flatMap fun (h, n, _) => physRead t h n))

end Sys2Proof.Machine
end

