-- ==== Sys2Proof/Machine/Faults.lean ====
section
/-!
DEFINITION. Fault delivery and return as events and commands (R285 to R289, R343, R345, R346): the reporting port, interrupt
messages, RETRY, DISPOSE and HANDLER.
-/

namespace Sys2Proof.Machine

/-! ### Interrupt messages (R345) -/

/-- Send a message through an entry of a function's remap table: an entry with V = 0, or with a reserved bit set, drops it
and counts it. -/
def interrupt (s : State) (func idx : Nat) : State :=
  let e := leNat (physRead s ((s.func func).remap + 16 * idx) 16)
  if bit e 96 && bits e 127 97 == 0 then { s with msgs := s.msgs ++ [(bits e 63 0, bits e 95 64)] }
  else { s with dropped := s.dropped + 1 }

/-! ### The reporting port (R286, R346) -/

/-- The function whose page holds a ring: 0 and 1 the physical function's fault rings, 1 + f the ring of function f, 65 the
error log. -/
def ringFunc (k : Nat) : Nat := if k ≤ 1 ∨ k = 65 then 0 else k - 1

/-- Bytes of a ring's entries. -/
def ringEntry (k : Nat) : Nat := if k = 65 then 32 else 64

/-- The guest-physical address of a ring's next entry. -/
def ringSlot (s : State) (k : Nat) : Nat :=
  let R := s.ring k
  R.rb.toNat + ringEntry k * (R.rt.toNat % max R.rn.toNat 1)

/-- Whether a ring has a record to post and room for it, and stage 2 gives its place. -/
def ringReady (s : State) (k : Nat) : Bool :=
  let R := s.ring k
  !R.held.isEmpty && (R.rt - R.rh != R.rn.zeroExtend 32) &&
    match guestParts s (ringFunc k) true 2 (ringSlot s k) (ringEntry k) with
    | .ok _ => true
    | .error _ => false

/-- Post the oldest record that a ring holds, and send its message. What the device is to retry by itself waits no longer for the record
(R286, R287). -/
def ringWrite (s : State) (k : Nat) : State :=
  let R := s.ring k
  match R.held with
  | [] => s
  | r :: rest =>
    let s := devWrite s none (ringFunc k) (ringSlot s k) r
    let s := s.modRing k fun R => { R with rt := R.rt + 1#32, held := rest }
    let s := if k = 65 then s else retryPosted s (recSub r)
    if R.rien then interrupt s (ringFunc k) R.riv.toNat else s

/-- The weight of a fault ring. -/
def ringWeight (s : State) (k : Nat) : Nat := (s.func (ringFunc k)).weight

/-- The fault ring served next, with how many records it has had in this round: weighted round robin in ascending order. -/
def nextRing (s : State) : Option (Nat × Nat) :=
  let (r, n) := s.rr
  if ringReady s r && decide (n < ringWeight s r) then some (r, n + 1)
  else match ((List.range 65).filter fun k => decide (r < k)).find? (ringReady s) with
    | some k => some (k, 1)
    | none => ((List.range 65).find? (ringReady s)).map fun k => (k, 1)

/-- R286, R346: one record is posted; the error log's go first. -/
def execFaultRecordPost (s : State) : Out :=
  if ringReady s 65 then .next (ringWrite s 65)
  else match nextRing s with
    | some (k, n) => .next (ringWrite { s with rr := (k, n) } k)
    | none => .next s

/-! ### RETRY, DISPOSE, HANDLER (R287 to R289, R343) -/

/-- A command names the SUB of a record that has been posted: until it has, the lanes that it covers wait (R286). -/
def toldOf (s : State) (h : Nat) : Bool := !recHeld s h

/-- R287. -/
def execRetry (q : Cmd) (sub : DWord) (s : State) : Out :=
  ownCtx s q fun p _ =>
    if 2 ^ 32 ≤ sub.toNat then reply s q 1 0
    else match tget? s.parks sub.toNat with
      | some k =>
        if k.pasid = p ∧ retryable k.code ∧ toldOf s sub.toNat then reply (reissue s sub.toNat) q 0 0 else reply s q 8 0
      | none => reply s q 8 0

/-- R288, R289. A handle whose record has not been posted, or whose disposition waits for a restore, names nothing for the command: it
completes with CODE 0x08 (R285, R286; DESIGN CHOICE, assumption 86). -/
def execDispose (q : Cmd) (sub word : DWord) (s : State) : Out :=
  ownCtx s q fun p _ =>
    if 2 ^ 32 ≤ sub.toNat then reply s q 1 0
    else match tget? s.parks sub.toNat with
      | some k =>
        if k.pasid ≠ p ∨ !k.held.stands ∨ k.dispo.isSome ∨ !toldOf s sub.toNat then reply s q 8 0
        else if !dispoOk k word then reply s q 1 0
        else reply (disposeOf s sub.toNat word) q 0 0
      | none => reply s q 8 0

/-- R288. -/
def execHandler (q : Cmd) (code entry rootLo rootHi : DWord) (s : State) : Out :=
  ownCtx s q fun p _ =>
    if 2 ^ 28 ≤ code.toNat ∨ 2 ^ 44 ≤ entry.toNat then reply s q 1 0
    else reply (s.modCtx p fun c => { c with handler := some ⟨code.toNat, entry.toNat, rootHi ++ rootLo⟩ }) q 0 0

end Sys2Proof.Machine
end

