-- ==== Sys2Proof/Machine/Trust.lean ====
section
/-!
DEFINITION. Trust as events and commands (R317 to R319, R322 to R330): worlds, key release and retirement, scrubbing,
packets off the package, and uncorrectable errors. An event that is not due leaves the state as it is.
-/

namespace Sys2Proof.Machine

/-! ### Worlds (R316, R317) -/

/-- A world as WORLDNEW or boot makes it: both key slots empty. -/
def World.make (fm pol : BitVec 256) (n reft : Nat) : World :=
  { pol, wm := Config.sha3 (natBytes 32 fm.toNat ++ natBytes 32 pol.toNat ++ [BitVec.ofNat 8 n]), slots := [], cur := 0, retire := none
    sk := 0#128, meter := 0, lastMeter := 0, t0 := reft, snap := [], rseq := 0, reqs := 0, readings := [], bounded := [], dies := []
    ending := none }

/-- Frames that a world owns. -/
def framesOf (s : State) (w : Nat) : List Nat := (s.mem.owner.filter fun e => e.2 == w).map (·.1)

/-- R317. -/
def execWorldnew (q : Cmd) (world p0 p1 p2 p3 : DWord) (s : State) : Out :=
  pfOnly s q (
    let w := world.toNat
    if w = 0 ∨ 64 ≤ w then reply s q 1 0
    else if (tget? s.worlds w).isSome || (framesOf s w).any fun f => s.mem.scrubQ.contains f then reply s q 8 0
    else reply { s with worlds := tset s.worlds w { World.make s.trust.fm (p3 ++ p2 ++ p1 ++ p0) w s.reft with snap := stepSnap s } } q 0 0)

/-- R317: every frame of the world is queued for scrubbing; the command completes when the world has ended. -/
def execWorldend (q : Cmd) (world : DWord) (s : State) : Out :=
  pfOnly s q (
    let w := world.toNat
    if w = 0 ∨ 64 ≤ w then reply s q 1 0
    else match tget? s.worlds w with
      | none => reply s q 8 0
      | some W =>
        if W.ending.isSome || s.ctxs.any fun c => c.2.world == w then reply s q 8 0
        else ((framesOf s w).foldl queueFrame s).modWorld w fun W => { W with ending := some (q.iface, q.seq) })

/-- The charges of a world that has ended stay in their ticks, under the account of no world, so that a world created again under its
number starts from zero (R317); so do its launches whose records wait. -/
def closeAccount (s : State) (w n : Nat) : State :=
  let dead (p : Nat) : Nat := if p = 2 ^ 20 + w then 2 ^ 20 + 64 + n else p
  let off (c : Charge) : Charge := { c with acct := c.acct.map dead }
  let e := s.energy
  { s with launches := s.launches.map fun (k, l) => (k, { l with pasid := dead l.pasid })
           energy := { e with now := e.now.map off, prev := e.prev.map off, reports := e.reports.map fun r => { r with c := off r.c } } }

/-- R317, R319: once its frames have been scrubbed the world's key slots are emptied and it ends. -/
def execWorldEndComplete (world : Nat) (s : State) : Out :=
  match tget? s.worlds world with
  | none => .next s
  | some W =>
    match W.ending with
    | none => .next s
    | some (i, seq) =>
      if !(framesOf s world).isEmpty then .next s
      else
        let (n, s) := s.fresh
        let s := closeAccount { s with worlds := tdel s.worlds world } world n
        let s := match W.retire with
          | some (_, j, q) => post s j q 0 0
          | none => s
        .next (post s i seq 0 0)

/-! ### Key release and retirement (R318 to R320) -/

/-- Bytes a to b − 1 of a list as a number. -/
def bytesNat (bs : List Byte) (a b : Nat) : Nat := leNat ((bs.drop a).take (b - a))

/-- The status of a release blob, and the keys that it installs (R318). A SLOT above 1 gives status 0x01 and a world that does not exist
0x03, which the pseudocode leaves open (DESIGN CHOICE, assumption 118). -/
def release (s : State) (blob : List Byte) : Nat ⊕ (Nat × Nat × BitVec 1024) :=
  let w := bytesNat blob 1 2
  let slot := bytesNat blob 2 3
  if bytesNat blob 0 1 ≠ 1 ∨ 64 ≤ w ∨ 2 ≤ slot ∨ bytesNat blob 3 16 ≠ 0 ∨ bytesNat blob 0x3C 0x40 ≠ 0 ∨ bytesNat blob 0x6F0 0x700 ≠ 0 then .inl 1
  else
    let secret := natBytes 32 Config.deviceSecret.toNat
    let seeds := Config.shake64 (secret ++ [0x41#8, 0x58#8, 0x4E#8, 0x2D#8, 0x4B#8, 0x45#8, 0x4D#8])
    let ss := Config.mlkemDecaps seeds ((blob.drop 0x40).take 1568)
    let kek := Config.sha3 (ss ++ blob.take 64)
    match Config.gcmOpen kek ((blob.drop 0x30).take 12) (blob.take 64) ((blob.drop 0x660).take 128) ((blob.drop 0x6E0).take 16) with
    | none => .inl 2
    | some km =>
      match tget? s.worlds w with
      | none => .inl 3
      | some W =>
        if w = 0 ∨ bytesNat blob 0x10 0x30 ≠ W.wm.toNat then .inl 3
        else if (tget? W.slots slot).isSome then .inl 4
        else .inr (w, slot, BitVec.ofNat 1024 (leNat km))

/-- The scramble key of a line MAC key (R320). -/
def scrambleKey (keys : BitVec 1024) : BitVec 128 :=
  (Config.sha3 (natBytes 32 (keys.extractLsb' 512 256).toNat ++ [0x53#8, 0x43#8, 0x52#8])).extractLsb' 0 128

/-- R318: the slot that a blob fills becomes current (Table 25.3). A blob that cannot be read is refused. -/
def execKeyrel (q : Cmd) (blob : DWord) (s : State) : Out :=
  pfOnly s q (match guestRead s 0 blob.toNat 1792 with
    | .error _ => reply s q 8 0
    | .ok bs =>
      match release s bs with
      | .inl st => reply s q 0 st
      | .inr (w, slot, keys) =>
        reply (s.modWorld w fun W => { W with slots := tset W.slots slot keys, cur := slot, sk := scrambleKey keys, sks := W.sk :: W.sks }) q 0 0)

/-- R319: accepted only for a slot that is not current. While another retire of the world waits, it completes with CODE 0x08 (DESIGN
CHOICE, assumption 119). -/
def execKeyret (q : Cmd) (world slot : DWord) (s : State) : Out :=
  pfOnly s q (
    if 64 ≤ world.toNat ∨ 2 ≤ slot.toNat then reply s q 1 0
    else match tget? s.worlds world.toNat with
      | none => reply s q 8 0
      | some W =>
        if W.cur = slot.toNat ∨ W.retire.isSome then reply s q 8 0
        else s.modWorld world.toNat fun W => { W with retire := some (slot.toNat, q.iface, q.seq) })

/-- Whether a key slot of a world is still in use: a request under it has not drained, or a line records it. -/
def slotUsed (s : State) (world slot : Nat) : Bool :=
  let mine (h : Nat) : Bool := tget? s.mem.owner (h / 2 ^ 21) == some world
  (s.ops.any fun (_, o) => worldOf s o.blk == world && o.lanes.any fun q => q.ph == .remote && q.ks == slot) ||
  (s.groups.any fun (k, G) => worldOf s (k / 32) == world && G.issuers.any fun i => match (G.issuer? i).map Issuer.wait with
    | some (Wait.code _ _ ks) => ks == slot
    | _ => false) ||
  (match tget? s.worlds world with
    | some W => W.readings.any fun r => match r.sent with
      | some (_, ks, _) => ks == slot
      | none => false
    | none => false) ||
  (s.wscopies.any fun (_, w) => worldOfPasid s w.pasid == world && match w.sent with
    | some (_, ks, _) => ks == slot
    | none => false) ||
  (s.orphans.any fun x => x.world == world && x.ks == slot) ||
  (s.mem.lines.any fun (l, x) => !x.scr && x.ks == slot && mine (64 * l)) ||
  s.mem.images.any fun (h, _, k) => k / 2 ^ 32 % 2 == slot && mine h

/-- R319, R325. -/
def execKeyretComplete (world : Nat) (s : State) : Out :=
  match (tget? s.worlds world).bind (·.retire) with
  | none => .next s
  | some (slot, i, seq) =>
    if slotUsed s world slot then .next s
    else .next (post (s.modWorld world fun W => { W with slots := tdel W.slots slot, retire := none }) i seq 0 0)

/-! ### Scrubbing (R327, R328) -/

/-- R328: every line of a queued frame becomes a scrubbed line, every copy of it is invalidated, and the frame is reported free. -/
def execFrameScrub (frame : Nat) (s : State) : Out :=
  if !s.mem.scrubQ.contains frame then .next s
  else
    let h := frame * 2 ^ 21
    let inWord (w : Nat) : Bool := 4 * w / 2 ^ 21 == frame
    -- an image that lay there is no longer what was saved (R291)
    let s := hitImages s h (2 ^ 21)
    let s := { s with mem := { s.mem with
      hbm := s.mem.hbm.clear h (2 ^ 21), lines := s.mem.lines.filter fun l => l.1 / 2 ^ 15 != frame
      owner := tdel s.mem.owner frame, scrubQ := s.mem.scrubQ.filter (· != frame), freed := s.mem.freed ++ [frame]
      wordOwner := s.mem.wordOwner.filter fun w => !inWord w.1, stamp := s.mem.stamp.filter fun w => !inWord w.1
      maps := (s.mem.maps.map fun (m : Nat × List Nat) => (m.1, m.2.filter (· != frame))).filter fun m => !m.2.isEmpty } }
    let s : State := { s with cores := s.cores.map fun (k, C) => (k, { C with l1 := C.l1.filter fun w => !inWord w.1 }) }
    .next { s with dies := s.dies.map fun (d, D) => (d, { D with tlb := D.tlb.map fun t =>
      { t with frames := t.frames.filter fun f => f.2.1 != frame }, llc := D.llc.filter fun l => l / 2 ^ 15 != frame }) }

/-! ### Packets (R324, R325, R344) -/

/-- The context of a number, none where there is none. -/
def liveCtx (s : State) (p : Nat) : Option Nat := if (tget? s.ctxs p).isSome then some p else none

/-- R324: a packet that fails its check is discarded and counted; its context stops, and an event is posted. One that
bears a context that does not exist is refused (R344). What a packet that passes brings is its own event's. -/
def execLinkPacketReceive (p : LinkPacket) (s : State) : Out :=
  -- a unit that the package does not have brings nothing (R4, R7)
  if (ioOfUnit p.unit).isNone then .next s
  else if !p.ok then .next (integrity { s with discards := s.discards + 1 } 3 p.unit 0 (liveCtx s p.pasid) 0)
  else if (liveCtx s p.pasid).isNone then .next { s with discards := s.discards + 1 }
  else .next s

/-! ### Uncorrectable errors (R322, R330, R350) -/

/-- A line becomes poisoned. -/
def poisonLine (s : State) (l : Nat) : State :=
  { s with mem := { s.mem with lines := tset s.mem.lines l { lineAt s l with poison := true } } }

/-- R330: an uncorrectable error in a store of Table 25.5; `badMac` makes a line's authentication fail at its next read. An error that
was corrected is counted. -/
def execUncorrectableError (place : ErrPlace) (s : State) : Out :=
  .next (match place with
    | .regs core p =>
      let s := integrity s 2 (dieOf core) 0 (liveCtx s p) 0
      s.modCore core fun C => { C with errs := C.errs + 1, remap := C.remap || decide (16 ≤ C.errs + 1) }
    | .near core p => integrity s 2 (dieOf core) 0 (liveCtx s p) 0
    | .llc h p => integrity (poisonLine s (h / 64)) 2 (homeDie s h) 0 (liveCtx s p) (h / 64 * 64)
    | .ws d off p => integrity (s.modDie d fun D => { D with wsBad := ninsert D.wsBad (off / 64) }) 2 d 0 (liveCtx s p) (off / 64 * 64)
    | .hbm h p => integrity (poisonLine s (h / 64)) 2 (h / 2 ^ 36) 0 (liveCtx s p) (h / 64 * 64)
    | .badMac h =>
      let x := lineAt s (h / 64)
      { s with mem := { s.mem with lines := tset s.mem.lines (h / 64) { x with bad := true } } }
    | .corrected => { s with trust := { s.trust with corrected := s.trust.corrected + 1 } })

/-- R330: the link's own replay retries the flits, and nothing else changes. -/
def execLinkCrcError (_link : Nat) (s : State) : Out := .next s

end Sys2Proof.Machine
end

