-- ==== Sys2Proof/Machine/Fabric.lean ====
section
/-!
DEFINITION. The fabric and other packages (R109, R113, R114, R117, R120, R121, R325, R344, R345, R347): the answers to what was sent to a
home package, the requests of peers to spans homed here, elements and credit of fabric queues, and the completion timeout.
-/

namespace Sys2Proof.Machine

/-! ### Answers (R113) -/

/-- The bytes of an access with parts elsewhere: those that its home package answered for them, and this package's for the others. -/
def joinParts (s : State) : List (Nat × Nat × Nat) → List Byte → List Byte
  | [], _ => []
  | p :: r, bs => (if farPart p then bs.take p.2.1 else physRead s p.1 p.2.1) ++ joinParts s r (bs.drop p.2.1)

/-- The first line among the parts held here that may not be delivered (R322). -/
def badNear (s : State) (parts : List (Nat × Nat × Nat)) : Option Nat :=
  parts.findSome? fun p => if farPart p then none else badLine s p.1 p.2.1

/-- Write the parts of a store that are held here, at their homes. -/
def writeNear (s : State) (core : Nat) : List (Nat × Nat × Nat) → List Byte → State
  | [], _ => s
  | p :: r, bs => writeNear (if farPart p then s else homeWrite s core p.1 (bs.take p.2.1)) core r (bs.drop p.2.1)

/-- A capability keeps its tag in a packet only with FAB and GLB, and is checked against this package's tables as it arrives (R107, R109,
R118). -/
def arrives (s : State) (pasid : Nat) (k : Cap) : Bool := k.tag && pieceTag s pasid (natBytes 16 k.bits.toNat) true (Perm.fab + Perm.glb)

/-- The answer for the part of a copy that waits: the bytes of its source, with a bit for each granule whose tag is set above them, or
the acknowledgement of its destination. -/
def copyAnswer (s : State) (k : Nat) (o : Op) (q : LReq) (value : Nat) : State :=
  let part := q.todo.headD 0
  let (st, m) := partRange o.kind q part
  let s := s.modOp k fun o => o.modReq q.lane fun q => { q with ph := .sent }
  if q.val = 0 then
    let src := q.x + st
    let (lo, len) := readRange q src m
    match badNear s q.parts with
    | some l => lineEvent s l (pasidOf s o.blk)
    | none =>
      let s := chargeParts s o q.parts
      let bs := joinParts s q.parts (natBytes len value)
      let tagOf (i : Nat) : Bool := match hostOf q.parts lo (src + 16 * i) with
        | some h => physTag s h
        | none => bit (value / 2 ^ (8 * len)) i && (capOf ((bs.drop (src + 16 * i - lo)).take 16) true).has (Perm.fab + Perm.glb)
      gotSource s k o { q with ph := .sent, parts := [] } part bs tagOf true
  else
    let dst := q.x2 + st
    let bs := natBytes m q.data
    -- a tag that was held for the answer passes the stale check again as it is set (R118)
    let tagOf (i : Nat) : Bool := pieceTag s (pasidOf s o.blk) ((bs.drop (16 * i)).take 16) (bit q.data2 i) 0
    finishPart (landPart (chargeParts s o q.parts) k q.lane dst q.parts (cutPieces dst bs (copyAligned q) tagOf)) k o q.lane part

/-- A request that nothing here waits for any longer has its answer: it has drained (R325). Answers come in the order of the
requests, so that the first of two answers to one operation is the older one's. -/
def orphanDone (s : State) (a : Asked) (n : Nat) : State :=
  { s with orphans := s.orphans.eraseP fun x => x.asked == a && x.n == n }

def isOrphan (s : State) (a : Asked) (n : Nat) : Bool := s.orphans.any fun x => x.asked == a && x.n == n

/-- The answer of the home package: a value arrives, or a write is acknowledged. It stands for every part of the access that is homed
there; the parts held here are performed with it, once no die that they touch relocks (R305). -/
def remoteDone (s : State) (k lane value : Nat) (tag : Bool) : State :=
  if isOrphan s (.op k) lane then orphanDone s (.op k) lane else
  match tget? s.ops k with
  | none => s
  | some o =>
    match o.req? lane with
    | none => s
    | some q =>
      let got (s : State) (v : Nat) (t : Bool) : State := s.modOp k fun o => o.modReq lane fun q => { q with ph := .done, val := v, vtag := t }
      if q.ph != .remote || relockWait s o.core (if o.wide.isSome then [] else q.parts) ||
          (o.wide.isNone && o.kind.isCopy && partStill s o q (q.todo.headD 0) true) then s
      else if o.kind == .spanq then got s (value % 2 ^ 64) false
      else if o.wide.isSome then s
      else if o.kind.isStore then storeDone (writeNear (chargeParts s o q.parts) o.core q.parts (natBytes q.n q.data)) k lane
      else if o.kind == .oload then
        (match badNear s q.parts with
         | some l => lineEvent (s.modOp k fun o => o.modReq lane fun q => { q with ph := .sent }) l (pasidOf s o.blk)
         | none =>
           let p := q.todo.headD 0
           probePart s k o q (blockAt o q p) p fun s =>
             landBlock (chargeParts s o q.parts) k o lane p (joinParts s q.parts (natBytes 64 value)))
      else if o.kind.isCopy then
        let p := q.todo.headD 0
        probePart s k o q (q.x + 64 * p) p fun s => copyAnswer s k o q value
      else match o.kind with
        | .atomic _ _ ord =>
          let s := got s (value % 2 ^ (8 * q.n)) false
          if ord = .acq ∨ ord = .ar then acquireCore s o.core else s
        | _ =>
          match badNear s q.parts with
          | some l => lineEvent (s.modOp k fun o => o.modReq lane fun q => { q with ph := .xlated }) l (pasidOf s o.blk)
          | none =>
            let s := chargeParts s o q.parts
            let v := leNat (joinParts s q.parts (natBytes q.n value))
            got s v (tag && o.kind == .loadCap && q.cap.has Perm.lc && arrives s (pasidOf s o.blk) ⟨BitVec.ofNat 128 v, true⟩)

/-- The home package has translated what a wide scope holds (R207). -/
def remotePassed (s : State) (k lane : Nat) : State :=
  if isOrphan s (.op k) lane then orphanDone s (.op k) lane else
  match (tget? s.ops k).bind fun o => (o.req? lane).map fun q => (o, q) with
  | none => s
  | some (o, q) =>
    if q.ph != .remote || o.wide.isNone then s
    else if o.kind.isMem then s.modOp k fun o => o.modReq lane fun q => { q with ph := .xlated }
    else if o.kind.isCopy || o.kind == .oload then
      notePart s k lane (q.todo.headD 0) (if o.kind == .oload then 128 else (partsOf q.n).length)
    else s

/-- The faults that a home package's translation may meet from "i" on (R113). -/
def homeFault (code : Nat) : Bool :=
  [Code.objInvalid, Code.capRevoked, Code.spanMiss, Code.spanMigrating, Code.s2Miss, Code.s2Perm].contains code

/-- The home package's translation of a request met a fault: it is the request's own (R113, R114, R207). -/
def remoteFault (s : State) (k lane code : Nat) : State :=
  if isOrphan s (.op k) lane then orphanDone s (.op k) lane else
  match (tget? s.ops k).bind fun o => (o.req? lane).map fun q => (o, q) with
  | none => s
  | some (o, q) =>
    if q.ph != .remote || !homeFault code then s
    else
      let p := q.todo.headD 0
      let x := if o.kind == .oload then blockAt o q p
        else if o.kind.isCopy then (if q.val = 1 ∨ o.kind = .cpysOut then q.x2 else q.x) + (partRange o.kind q p).1
        else q.x
      let write := o.kind.isWrite || (o.kind.isCopy && (q.val = 1 ∨ o.kind = .cpysOut))
      let n := if o.kind == .oload then 64 else if o.kind.isCopy then (partRange o.kind q p).2 else q.n
      let cap := if o.kind.isCopy && (q.val = 1 ∨ o.kind = .cpysOut) then q.cap2 else q.cap
      let s := if code = Code.spanMigrating then noteMoving s (pasidOf s o.blk) cap x n write else s
      faultReq s k o lane code x

/-- The words of a clause have come from the home package of their span: the issuer holds them, once the whole clause has passed the check
of its code capability (R45, R113). -/
def codeArrives (s : State) (r : IRef) (ws : List Word) : State :=
  if isOrphan s (.code r.blk r.gidx) r.iss then orphanDone s (.code r.blk r.gidx) r.iss else
  match s.issuer? r with
  | none => s
  | some i =>
    match i.wait with
    | .code _ a _ =>
      let hdr := ws.headD 0#32
      if i.code.cur ≠ a ∨ ws.length ≠ 1 + (decodeHeader hdr).cnt then s
      else match capCheck i.code 0 (4 * ws.length) Perm.x with
        | .error (code, _) => fetchFault (s.modIssuer r fun i => { i with wait := .go }) r code false
        | .ok _ => s.modIssuer r fun i => { i.keep r.iss hdr (ws.drop 1) with wait := .go }
    | _ => s

/-- The home package's translation of a code fetch met a fault. -/
def codeFails (s : State) (r : IRef) (code : Nat) : State :=
  if isOrphan s (.code r.blk r.gidx) r.iss then orphanDone s (.code r.blk r.gidx) r.iss else
  match s.issuer? r with
  | none => s
  | some i =>
    match i.wait with
    | .code _ _ _ => if homeFault code then
        let s := if code = Code.spanMigrating then noteMoving s (pasidOf s r.blk) i.code i.code.cur 4 false else s
        fetchFault (s.modIssuer r fun i => { i with wait := .go }) r code true
      else s
    | _ => s

/-- The home package has written its part of a reading's region, or its translation met a fault (R171). -/
def meterAnswer (s : State) (world code : Nat) : State :=
  if isOrphan s .meter world then orphanDone s .meter world else
  match tget? s.worlds world with
  | none => s
  | some W =>
    match W.readings with
    | r :: rest => (match r.sent with
      | some (_, _, parts) =>
        if code = 0 then readingDone (writeReading s world W r parts) world W r rest
        else if homeFault code then meterFault (s.modWorld world fun _ => passDies { W with readings := rest } r.dies) r code
        else s
      | none => s)
    | [] => s

/-- The home package of a weight copy's source has answered: with the bytes of the whole copy, of which the parts held here are read now,
or with the fault of its translation (R113, R137). A retryable one leaves the copy to ask again. -/
def wscopyAnswer (s : State) (id code : Nat) (data : List Byte) : State :=
  if isOrphan s .wscopy id then orphanDone s .wscopy id else
  match tget? s.wscopies id with
  | none => s
  | some w =>
    match w.sent, tget? s.ctxs w.pasid with
    | some (_, _, parts), some c =>
      let s0 := { s with wscopies := tdel s.wscopies id }
      if code = 0 then
        if data.length ≠ w.len ∨ homesStill s parts then s
        else match badNear s parts with
          | some l => reply (lineEvent s0 l w.pasid) w.cmd 8 0
          | none => wscopyStore (wscopyCharge s0 w parts) w c.world (joinParts s parts data)
      else if !homeFault code then s
      else if retryable code then
        let s := if code = Code.spanMigrating then noteMoving s w.pasid (wscopyCap s c w.obn) w.off w.len false else s
        { s with wscopies := tset s.wscopies id { w with sent := none } }
      else reply s0 w.cmd 8 0
    | _, _ => s

/-! ### A peer's requests (R113, R114, R120) -/

/-- The capability that a peer's request bears. -/
def peerCap (b : CapBits) : Cap := ⟨b, true⟩

/-- What is answered to a peer: a code, 0 where it was performed, then the bytes. -/
def answer (s : State) (code : Nat) (bs : List Byte) : State := { s with reply := BitVec.ofNat 8 code :: bs }

/-- The spans of an access by another package that it moves there: MIGR set, not settled, not moving yet (R120). -/
def spansToMove (s : State) (c : Ctx) (pasid : Nat) (k : Cap) (x n : Nat) : List Nat :=
  ([x / 2 ^ 25, (x + n - 1) / 2 ^ 25].dedup).filter fun i =>
    match objectEntry s c k.obn with
    | .ok o => (match spanEntry s c o i with
      | .ok e => spanV e && !spanRem e && spanMigr e && !settledNow s (spanKey pasid k.obn i)
      | .error _ => false)
    | .error _ => false

/-- Translate a peer's access through this package's tables: the parts, or a fault, which is the answer. A write moves the spans
that migrate to the writer, and meets SPAN_MIGRATING (R120). A span that is homed elsewhere here too is a mismatch of the tables: the
spec names no code, and the model answers OBJ_INVALID (R114; DESIGN CHOICE, assumption 81). -/
def peerAccess (s : State) (pasid : Nat) (k : Cap) (x n : Nat) (write : Option Nat) : Except State (List (Nat × Nat × Nat) × State) :=
  match tget? s.ctxs pasid with
  | none => .error (answer { s with discards := s.discards + 1 } 9 [])
  | some c =>
    match translate s 0 pasid k x n write.isSome true with
    | .fault code s => .error (answer s code [])
    | .remote _ _ s => .error (answer s Code.objInvalid [])
    | .ok parts s' =>
      -- the access waits out a relock of a home die (R305)
      if homesStill s' parts then .error s
      else
      let s := s'
      match write, spansToMove s c pasid k x n with
      | some peer, i :: is =>
        .error (answer ((i :: is).foldl (fun s i =>
          setSpan s (spanKey pasid k.obn i) { spanSt s (spanKey pasid k.obn i) with moving := some peer }) s) Code.spanMigrating [])
      | _, _ => .ok (parts, s)

/-- A peer's read: the bytes, then a bit for each granule whose tag travels (R109). -/
def peerRead (s : State) (pasid : Nat) (k : Cap) (x n : Nat) : State :=
  match peerAccess s pasid k x n none with
  | .error s => s
  | .ok (parts, s) =>
    match parts.findSome? fun (h, n, _) => badLine s h n with
    | some l => { lineEvent s l pasid with reply := [] }
    | none =>
      let bs := parts.flatMap fun (h, n, _) => physRead s h n
      let tags := (List.range (n / 16)).map fun i =>
        let h := (hostOf parts x (x + 16 * i)).getD 0
        if x % 16 == 0 && physTag s h && k.has Perm.lc && (capOf (physRead s h 16) true).has (Perm.fab + Perm.glb) then 1#8 else 0#8
      answer s 0 (bs ++ tags)

/-- A peer's write of bytes, with the tags of whole granules that may travel (R109, R118). -/
def peerWrite (s : State) (pasid : Nat) (k : Cap) (x : Nat) (data : List Byte) (tags : List Nat) (peer : Nat) : State :=
  match peerAccess s pasid k x data.length (some peer) with
  | .error s => s
  | .ok (parts, s) =>
    let tagOf (i : Nat) : Bool := tags.contains i && k.has Perm.sc && arrives s pasid (capOf ((data.drop (16 * i)).take 16) true)
    answer (writePieces s parts x (cutPieces x data (x % 16 == 0) tagOf)) 0 []

/-- A peer's atomic: performed at its word, which answers the old value (R215). -/
def peerAtomic (s : State) (pasid : Nat) (k : Cap) (x op : Nat) (ty : Ty) (data cmp peer : Nat) : State :=
  let n := ty.width / 8
  match peerAccess s pasid k x n (some peer) with
  | .error s => s
  | .ok ((h, _, _) :: _, s) =>
    (match badLine s h n with
     | some l => { lineEvent s l pasid with reply := [] }
     | none =>
       let old := physRead s h n
       answer (copyWrite s h (natBytes n (atomicNew op ty (leNat old) data cmp)) false) 0 old)
  | .ok ([], s) => s

/-- A peer's span query (R226): the state here, with REM = 1, since the home is another package than the reader (Table 7.9; DEDUCED from
Table 8.5 of the notes, assumption 105). -/
def peerQuery (s : State) (pasid : Nat) (k : Cap) (x : Nat) : State :=
  match tget? s.ctxs pasid with
  | none => answer { s with discards := s.discards + 1 } 9 []
  | some c =>
    match entryBad s c k.obn x with
    | some l => { lineEvent s l pasid with reply := [] }
    | none =>
    match querySpan s c pasid k x with
    | .error code => answer s code []
    | .ok (.inl v) => answer s 0 (natBytes 8 (if bit v 0 then setField v 1 1 1 else v))
    | .ok (.inr _) => answer s Code.objInvalid []

/-! ### Queues (R347) -/

/-- An element for a queue of a port: it is delivered to its bound ring's store, or discarded and counted where the PASID is not that of
the binding, and its credit goes back to the sender (R224, R347). -/
def elementArrives (s : State) (port queue pasid : Nat) (w : Word) : State :=
  let k := fqKey port queue
  let q := tgetD s.fqs k FQueue.reset
  if (tget? s.ctxs pasid).isNone || q.bound != some pasid then { s with discards := s.discards + 1, fqs := tset s.fqs k { q with owed := q.owed + 1 } }
  else
    let s := { s with fqs := tset s.fqs k { q with elems := q.elems ++ [w] } }
    -- a replayable block that binds the queue logs the element (R335)
    let bs := (s.groups.filter fun (g, G) => pasidOf s (g / 32) == pasid &&
      G.chans.any fun c => c.2.kind == 5 && fqKey c.2.slot c.2.rlen == k).map fun g => g.1 / 32
    bs.dedup.foldl (fun s b => logAdd s b (.elem (rcOf s b) k w)) s

/-- Credit returned for a queue of a port: at most 64 elements. -/
def creditArrives (s : State) (port queue n : Nat) : State :=
  let k := fqKey port queue
  let q := tgetD s.fqs k FQueue.reset
  { s with fqs := tset s.fqs k { q with credits := min 64 (q.credits + n) } }

/-- The physical function routes a queue, other than the device's own, to a peer package's queue and a PASID, or takes its route away
(R347). The spec gives no register or command for it: the model takes it as a message on the port (DESIGN CHOICE, assumption 112). -/
def routeQueue (s : State) (port queue : Nat) (route : Option (Nat × Nat × Nat)) : State :=
  if 240 ≤ queue then s else { s with fqs := tset s.fqs (fqKey port queue) { tgetD s.fqs (fqKey port queue) FQueue.reset with route } }

/-- A port and a queue that the package has (R7, R347). -/
def portThere (port queue : Nat) : Bool := (ioOfPort port).isSome && decide (queue < 256)

/-- R113, R114, R117, R120, R344, R347. -/
def execFabricPacketArrival (p : FabricPacket) (s : State) : Out :=
  .next (match p with
    | .element port queue pasid w => if portThere port queue then elementArrives s port queue pasid w else s
    | .credit port queue n => if portThere port queue then creditArrives s port queue n else s
    | .route port queue route => if portThere port queue then routeQueue s port queue route else s
    | .response op lane v t => remoteDone s op lane v t
    | .translated op lane => remotePassed s op lane
    | .fault op lane code => remoteFault s op lane code
    | .code r ws => codeArrives s r ws
    | .codeFault r code => codeFails s r code
    | .meter world code => meterAnswer s world code
    | .wscopy id code data => wscopyAnswer s id code data
    | .remoteRead pasid cap x n => peerRead s pasid (peerCap cap) x n
    | .remoteWrite pasid cap x data tags peer => peerWrite s pasid (peerCap cap) x data tags peer
    | .remoteAtomic pasid cap x op ty data cmp peer => peerAtomic s pasid (peerCap cap) x op ty data cmp peer
    | .remoteQuery pasid cap x => peerQuery s pasid (peerCap cap) x
    | .remoteTranslate pasid cap x n writer =>
      (match peerAccess s pasid (peerCap cap) x n writer with
       | .error s => s
       | .ok (_, s) => answer s 0 [])
    | .revoke pasid obn gen => if (tget? s.ctxs pasid).isSome then peerRevoke s pasid obn gen else { s with discards := s.discards + 1 })

/-! ### The completion timeout (R345) -/

/-- An unanswered request ends: its context stops, and an event is posted. Which port carried it is not kept (assumption 29). -/
def timedOut (s : State) (pasid : Option Nat) : State :=
  let (n, s) := s.draw
  integrity s 4 (16 + n % 8) 0 pasid 0

/-- A request that nothing here waits for, and that has had no completion for 1 ms. -/
def orphanLate (s : State) (a : Asked) (n : Nat) : Option Orphan :=
  s.orphans.find? fun x => x.asked == a && x.n == n && decide (x.sent + 1000000 ≤ s.reft)

/-- R345: a request off the package that has had no completion for 1 ms is ended. -/
def execCompletionTimeout (q : Asked) (n : Nat) (s : State) : Out :=
  match orphanLate s q n with
  | some x => .next (timedOut (orphanDone s q n) x.pasid)
  | none => .next (match q with
    | .op k =>
      (match (tget? s.ops k).bind fun o => (o.req? n).map fun q => (o, q) with
       | some (o, q) => if q.ph != .remote || s.reft < q.sent + 1000000 then s else timedOut (dropReq s k n) (some (pasidOf s o.blk))
       | none => s)
    | .code b g =>
      (match (s.issuer? ⟨b, g, n⟩).map Issuer.wait with
       | some (Wait.code t _ _) =>
         if s.reft < t + 1000000 then s else timedOut (s.modIssuer ⟨b, g, n⟩ fun i => { i with wait := .go }) (some (pasidOf s b))
       | _ => s)
    | .wscopy => (match tget? s.wscopies n with
      | some w => (match w.sent with
        | some (t, _, _) =>
          if s.reft < t + 1000000 then s else reply (timedOut { s with wscopies := tdel s.wscopies n } (some w.pasid)) w.cmd 8 0
        | none => s)
      | none => s)
    | .meter =>
      match tget? s.worlds n with
      | none => s
      | some W =>
        match W.readings with
        | r :: rest => (match r.sent with
          | some (t, _) =>
            if s.reft < t + 1000000 then s
            else timedOut (s.modWorld n fun _ => passDies { W with readings := rest } r.dies) (some r.pasid)
          | none => s)
        | [] => s)

end Sys2Proof.Machine
end

