-- ==== Sys2Proof/Machine/Debug.lean ====
section
/-!
DEFINITION. Debug requests and checkpoints (R331, R333, R336, R337): CHECKPOINT, DBGWR, and DBGCTL's stop-now, stop-at, view and
resume. A view is built by the steps of its job (Sys2Proof.Machine.viewStep). An event that is not due leaves the state as it is.
-/

namespace Sys2Proof.Machine

/-! ### Checkpoints (R333) -/

/-- A block's image now. -/
def imageOf (s : State) (b : Nat) (B : Block) : Image :=
  { blk := B, groups := s.groups.filter fun g => g.1 / 32 == b
    ops := (s.ops.filter fun o => o.2.blk == b).map fun (k, o) => (k, { o with lanes := o.lanes.map (LReq.recorded o.kind) })
    tops := s.tops.filter fun t => t.2.blk == b, parks := s.parks.filter fun p => p.2.held.stands && p.2.held.blk s == b }

/-- A target that lies in an interval that has ended is no longer held (Table 27.3). -/
def dropArmed (s : State) (b : Nat) (B : Block) : State :=
  match (ctxOf s b).bind (·.armed) with
  | some (q, t, i, _) =>
    if t = B.bidx ∧ i ≤ B.iv then post (s.modCtx B.pasid fun c => { c with armed := none }) q.iface q.seq 0 2 else s
  | none => s

/-- Whether a clause of the block is in issue that its issuer can complete without another's: a checkpoint stands at clause boundaries, but
for issuers that wait inside a clause for what others bring (R333, R37). -/
def clauseOpen (s : State) (b : Nat) : Bool :=
  (s.groupsOf b).any fun g => match s.grp? b g with
    | some G => G.susp.isEmpty && G.issuers.any fun k => match G.issuer? k with
      | some i => i.cl.isSome && (match i.wait with
        | .go | .pend | .lim | .rel | .xlate => true
        | .rdv _ => i.closed
        | _ => false)
      | none => false
    | none => false

/-- R333: at its first instruction, and at each interval's end, a block's state is captured as for a save (R290), merged stores drained
and performed loads completed, and it goes on. The first checkpoint begins interval 0; a debug stop holds it back (R336). -/
def execCheckpoint (b : Nat) (s : State) : Out :=
  match tget? s.blocks b with
  | none => .next s
  | some B =>
    if B.phase != .resident || !checkpointDue s b B || dbgHeld s B.pasid || clauseOpen s b || unsaved s b || stillMerged (drainBlock s b) b then .next s
    else
      let first := (tget? s.ckpts b).isNone
      let s := deliverLoads (drainBlock s b) b
      let s := traceRec s b 0 4 0
      let s := chargeSave (if first then s else dropArmed s b B) b B.home
      -- elements that the block's fabric queues hold are the first entries of the new log
      let keys := ((s.groupsOf b).flatMap fun g => ((s.grp? b g).map fun G =>
        (G.chans.filter fun c => c.2.kind == 5).map fun c => fqKey c.2.slot c.2.rlen).getD []).dedup
      let log := keys.flatMap fun k => ((tgetD s.fqs k FQueue.reset).elems.map fun w => LogEnt.elem 0 k w)
      let s := s.modBlock b fun B =>
        { B with iv := if first then B.iv else (B.iv + 1) % 2 ^ 32, rc := 0, chk := false, log, logOut := 0 }
      match tget? s.blocks b with
      | some B =>
        let s := placeImage s (2 ^ 32 - 2) B B.slot1
        .next { s with ckpts := tset s.ckpts b (imageOf s b B) }
      | none => .next s

/-! ### DBGWR (R331) -/

/-- A debug descriptor with no reserved bit set and every value within its limits (Tables 27.1, 27.4). -/
def dbgOk (v : Nat) : Bool :=
  !bit v 7 && bits v 31 24 == 0 && decide (16 ≤ bits v 6 2) && decide (bits v 6 2 ≤ 28) && bits v 127 64 % 4096 == 0 &&
    bits v 575 564 == 0 && bits v 639 582 == 0 && bits v 767 640 == 0 &&
    (decide (6 ≤ bits v 581 577) && decide (bits v 581 577 ≤ 24) || (!bit v 576 && bits v 581 577 == 0))

/-- A command of the physical function on the context bound to its interface. -/
def pfCtx (s : State) (q : Cmd) (go : Nat → Ctx → State) : Out :=
  if (s.iface q.iface).func = 0 then ownCtx s q go else .next (reply s q 7 0)

/-- R331. -/
def execDbgwr (q : Cmd) (desc : DWord) (s : State) : Out :=
  pfCtx s q fun p _ =>
    match guestRead s 0 desc.toNat 96 with
    | .error _ => reply s q 8 0
    | .ok bs =>
      let v := leNat bs
      if !dbgOk v then reply s q 1 0
      else
        let here := s.blocks.any fun b => b.2.pasid == p && b.2.phase.onCore
        reply (s.modCtx p fun c =>
          if here then { c with newDbg := some (BitVec.ofNat 768 v) } else { c with dbg := BitVec.ofNat 768 v, newDbg := none }) q 0 0

/-! ### DBGCTL (R336, R337) -/

/-- The block of a context that a block number names: the oldest one. -/
def blockNamed (s : State) (pasid bidx : Nat) : Option (Nat × Block) :=
  s.blocks.find? fun b => b.2.pasid == pasid && b.2.bidx == bidx && b.2.serves.isNone

def narrow (l : List DWord) : Bool := l.all fun w => decide (w.toNat < 2 ^ 32)

/-- R336. -/
def execStopNow (q : Cmd) (s : State) : Out :=
  pfCtx s q fun p c => reply (if c.dbgStop then s else debugStop s p) q 0 0

/-- R336: a running context takes the target, and the command completes when the block's position reaches it. A position
that has been passed, or a second target, is refused. -/
def execStopAt (q : Cmd) (b i n : DWord) (s : State) : Out :=
  pfCtx s q fun p c =>
    if !narrow [b, i, n] then reply s q 1 0
    else
      match blockNamed s p b.toNat with
      | some (_, B) =>
        if i.toNat < B.iv then reply s q 0 2
        else if c.dbgStop then
          (if B.iv < i.toNat then reply s q 0 2 else if B.rc < n.toNat then reply s q 0 3 else reply s q 0 0)
        else if i.toNat = B.iv ∧ n.toNat = B.rc then reply (debugStop s p) q 0 0
        else if c.armed.isSome ∨ (i.toNat = B.iv ∧ n.toNat < B.rc) then reply s q 8 0
        else s.modCtx p fun c => { c with armed := some (q, b.toNat, i.toNat, n.toNat) }
      | none =>
        if c.dbgStop ∨ c.armed.isSome then reply s q 8 0
        else s.modCtx p fun c => { c with armed := some (q, b.toNat, i.toNat, n.toNat) }

/-- R336: the context stops when the armed block's position reaches its target. -/
def stopAtTarget (s : State) (b : Nat) : State :=
  match tget? s.blocks b with
  | none => s
  | some B =>
    match (tget? s.ctxs B.pasid).bind (·.armed) with
    | some (q, t, i, n) =>
      if t = B.bidx ∧ i = B.iv ∧ n ≤ B.rc ∧ s.sandbox.isNone then
        reply (debugStop (s.modCtx B.pasid fun c => { c with armed := none }) B.pasid) q 0 0
      else s
    | none => s

/-- A recorded load of a checkpoint has the value that its log gives (R335). -/
def loggedOp (log : List LogEnt) (o : Op) : Op :=
  if !o.kind.returns then o
  else
    { o with lanes := o.lanes.map fun q =>
        match log.find? (LogEnt.answers (2 ^ 32 + o.order) (64 * o.gidx + q.lane)) with
        | some (.value _ _ _ _ v t) => { q with ph := .done, val := v, vtag := t }
        | some (.fault _ _ code) => { q with ph := .faulted code }
        | _ => q }

/-- R337: a view of a stopped, replayable context begins from the block's checkpoint. -/
def execView (q : Cmd) (b i n image : DWord) (s : State) : Out :=
  pfCtx s q fun p c =>
    if !narrow [b, i, n] then reply s q 1 0
    else if !c.dbgStop ∨ s.viewJob.isSome then reply s q 8 0
    else match blockNamed s p b.toNat with
      | none => reply s q 0 2
      | some (k, B) =>
        if !(s.gridOf B).rpl then reply s q 0 1
        else if i.toNat ≠ B.iv then reply s q 0 2
        else if B.rc < n.toNat then reply s q 0 3
        else match tget? s.ckpts k with
          | none => reply s q 0 2
          | some I =>
            let I := { I with ops := I.ops.map fun (k, o) => (k, loggedOp B.log o) }
            let j : ViewJob := { cmd := q, b := k, n := n.toNat, addr := image.toNat, img := I, log := B.log, parks := I.parks, fqs := [] }
            { s with viewJob := some j }

/-- R336: from the state at the stop. -/
def execResume (q : Cmd) (s : State) : Out :=
  pfCtx s q fun p c =>
    if c.dbgStop then reply (s.modCtx p fun c => { c with dbgStop := false }) q 0 0 else reply s q 8 0

end Sys2Proof.Machine
end

