-- ==== Sys2Proof/Machine/Queues.lean ====
section
/-!
DEFINITION. The host's side (R265, R266, R286, R327, R341 to R346, R349): submission entries and their commands, completion rings,
contexts and functions, register pages and their reads. The host reaches the device over a trained link alone (R348). An event that is not due leaves the state as it is.
-/

namespace Sys2Proof.Machine

/-! ### Contexts (R265, R349, R344) -/

/-- The default place table (R349). -/
def defaultPlaces : Tab Word :=
  (List.range 72).map fun n =>
    (n, BitVec.ofNat 32 (field 31 31 1 + field 19 16 (n / 32 + 1) + field 11 0 (n % 32)))

/-- A context descriptor within its limits (Table 19.1). -/
def descOk (d : Nat) : Bool :=
  decide (bits d 35 32 ≤ 11) && bits d 39 37 == 0 && bits d 47 40 != 0 && bits d 63 48 != 0 &&
    bits d 127 64 % 4096 == 0 && decide (bits d 127 64 < 2 ^ 48) && bits d 159 128 != 0 && decide (bits d 159 128 < 2 ^ 28) &&
    bits d 255 192 != 0 && decide (bits d 255 192 ≤ 2 ^ 62) && bits d 383 320 % 65536 == 0 && decide (bits d 383 320 < 2 ^ 48) &&
    bits d 447 384 % 65536 == 0 && decide (bits d 447 384 ≤ 2 ^ 40) && bits d 511 448 == 0

/-- The context that a descriptor describes. -/
def ctxOfDesc (d : Nat) : Ctx :=
  { world := bits d 25 20, func := bits d 31 26, spu := bits d 35 32, gng := bit d 36, iw := bits d 47 40, wt := bits d 63 48
    otbase := bits d 127 64, otlen := bits d 159 128, rate := bits d 191 160, capb := bits d 255 192, saveb := bits d 383 320
    savel := bits d 447 384, level := (BitVec.ofNat 64 (bits d 319 256)).toInt, meter := 0, newIw := none, places := defaultPlaces
    handler := none, stopped := false, dbgStop := false, armed := none, dbg := dbgReset, newDbg := none, cap := .off, trp := 0, smp := 0
    probes := [], sweep := none, desch := false }

/-- R265, R349. -/
def execCtxnew (q : Cmd) (desc ifc : DWord) (s : State) : Out :=
  pfOnly s q (
    if 256 ≤ ifc.toNat then reply s q 1 0
    else match guestRead s 0 desc.toNat 64 with
      | .error _ => reply s q 8 0
      | .ok bs =>
        let d := leNat bs
        let p := bits d 19 0
        let c := ctxOfDesc d
        let I := s.iface ifc.toNat
        if !descOk d then reply s q 1 0
        else if (tget? s.ctxs p).isSome || I.pasid.isSome || I.func != c.func ||
            !(((tget? s.worlds c.world).map (·.ending.isNone)).getD false) then reply s q 8 0
        else reply ({ s with ctxs := tset s.ctxs p c }.modIface ifc.toNat fun I => { I with pasid := some p }) q 0 0)

/-- R265: taken at the next tick. -/
def execCtxwr (q : Cmd) (iw wt rate capb : DWord) (s : State) : Out :=
  ownCtx s q fun p _ =>
    if iw.toNat = 0 ∨ 256 ≤ iw.toNat ∨ wt.toNat = 0 ∨ 65536 ≤ wt.toNat ∨ 2 ^ 32 ≤ rate.toNat ∨ capb.toNat = 0 ∨ 2 ^ 62 < capb.toNat then reply s q 1 0
    else reply (s.modCtx p fun c => { c with newIw := some (iw.toNat, wt.toNat, rate.toNat, capb.toNat) }) q 0 0

/-- The host frames of a range of a function's guest-physical space that stage 2 gives. -/
def rangeFrames (s : State) (func g n : Nat) : List Nat :=
  if n = 0 then []
  else ((List.range ((g + n - 1) / 2 ^ 21 - g / 2 ^ 21 + 1)).filterMap fun i =>
    match stage2 s func ((g / 2 ^ 21 + i) * 2 ^ 21) with
    | .ok (h, _) => some (h / 2 ^ 21)
    | .error _ => none)

/-- The frames of a context (R327): its spans, its object table and span tables, and its save area. -/
def ctxFrames (s : State) (c : Ctx) : List Nat :=
  let tables := (List.range c.otlen).flatMap fun k => match objectEntry s c k with
    | .ok o => if objV o then rangeFrames s c.func (objStab o) (8 * objNspan o) else []
    | .error _ => []
  (spanFrames s c ++ rangeFrames s c.func c.otbase (16 * c.otlen) ++ tables ++ rangeFrames s c.func c.saveb c.savel).dedup

/-- Charges of a context that has ended stay with its world (Table 23.2). -/
def orphan (p w : Nat) (c : Charge) : Charge := if c.acct = some p then { c with acct := some (2 ^ 20 + w) } else c

/-- Readings that an ended context asked for are not written; the next one covers their interval. -/
def dropReadings (W : World) (p : Nat) : World :=
  let gone := W.readings.filter fun r => r.pasid == p
  passDies { W with readings := W.readings.filter fun r => r.pasid != p } (gone.flatMap (·.dies))

/-- R343, R344, R327: a context ends. -/
def endCtx (s : State) (p : Nat) (c : Ctx) : State :=
  let frames := ctxFrames s c
  let s := endAll (discard s fun x => x == p) (fun x => x == p) 5
  let s := match c.armed with
    | some (q, _) => reply s q 8 0
    | none => s
  let s := match s.viewJob with
    | some j => if j.img.blk.pasid = p then reply { s with viewJob := none } j.cmd 8 0 else s
    | none => s
  let s := frames.foldl queueFrame s
  let s : State := { s with
    mem := { s.mem with spans := s.mem.spans.filter fun x => x.1 / 2 ^ 48 != p }
    ifaces := s.ifaces.map fun (k, I) => (k, if I.pasid = some p then { I with pasid := none } else I) }
  let s := tlbDrop s fun t => t.pasid == p && t.func == c.func
  let e := s.energy
  let e : Energy := { e with
    now := e.now.map (orphan p c.world), prev := e.prev.map (orphan p c.world)
    reports := e.reports.map fun r => { r with c := orphan p c.world r.c } }
  -- launches that wait for their corrections, or for room in their ring, stay with the world too
  let s : State := { s with energy := e, launches := s.launches.map fun (k, l) =>
    (k, if l.pasid = p then { l with pasid := 2 ^ 20 + c.world } else l) }
  -- what it asked of other packages drains all the same (R325)
  let asked : List Orphan := (s.wscopies.filterMap fun (k, w) => if w.pasid != p then none else w.sent.map fun x =>
      { asked := .wscopy, n := k, pasid := none, world := c.world, ks := x.2.1, sent := x.1 }) ++
    ((tget? s.worlds c.world).map fun W => W.readings.filterMap fun r => if r.pasid != p then none else r.sent.map fun x =>
      ({ asked := .meter, n := c.world, pasid := none, world := c.world, ks := x.2.1, sent := x.1 } : Orphan)).getD []
  let s : State := { s with
    orphans := (s.orphans.map fun (x : Orphan) => if x.pasid == some p then { x with pasid := none } else x) ++ asked
    wscopies := s.wscopies.map fun (k, w) => (k, if w.pasid == p then { w with sent := none } else w) }
  let s := s.modWorld c.world fun W => dropReadings W p
  { s with ctxs := tdel s.ctxs p }

/-- R343. -/
def execCtxend (q : Cmd) (pasid : DWord) (s : State) : Out :=
  pfOnly s q (
    if 2 ^ 20 ≤ pasid.toNat then reply s q 1 0
    else match tget? s.ctxs pasid.toNat with
      | none => reply s q 8 0
      | some c => reply (endCtx s pasid.toNat c) q 0 0)

/-- R286, R342. -/
def execFncfg (q : Cmd) (fn ifcs s2 remap weight : DWord) (s : State) : Out :=
  pfOnly s q (
    let first := bits ifcs.toNat 7 0
    let count := bits ifcs.toNat 16 8
    let mine := (List.range count).map (first + ·)
    if 64 ≤ fn.toNat ∨ bits ifcs.toNat 63 17 ≠ 0 ∨ 256 < first + count ∨ weight.toNat = 0 ∨ 15 < weight.toNat then reply s q 1 0
    else if mine.any fun k => match (s.iface k).pasid with
        | some p => ((tget? s.ctxs p).map (·.func)) != some fn.toNat
        | none => false then reply s q 8 0
    else
      let s := mine.foldl (fun s k => s.modIface k fun I => { I with func := fn.toNat }) s
      reply (s.modFunc fn.toNat fun F => { F with s2 := s2.toNat, remap := remap.toNat, weight := weight.toNat }) q 0 0)

/-! ### Submission entries (R343) -/

/-- Operand words of a command (Table 29.2). -/
def cmdWords (code : Nat) : Nat :=
  [2, 4, 1, 1, 3, 1, 2, 4, 5, 2, 3, 1, 2, 1, 5, 5, 5, 1, 2].getD (code - 0x80) 0

/-- The state that an outcome goes on with. -/
def onward (s : State) : Out → State
  | .next t => t
  | _ => s

/-- A command by its code and operand words. -/
def command (s : State) (q : Cmd) (code : Nat) (w : Nat → DWord) : State :=
  let z (d : DWord) : Bool := d == 0#64
  onward s (match code with
    | 0x80 => execCtxnew q (w 0) (w 1) s
    | 0x81 => execCtxwr q (w 0) (w 1) (w 2) (w 3) s
    | 0x82 => execCtxend q (w 0) s
    | 0x83 => execRevoke q (w 0) s
    | 0x84 =>
      if w 0 = 0#64 ∧ z (w 2) then execInvalObject q (w 1) s
      else if w 0 = 1#64 then execInvalSpan q (w 1) (w 2) s
      else if w 0 = 2#64 ∧ z (w 2) then execInvalStage2 q (w 1) s
      else ownCtx s q fun _ _ => reply s q 1 0
    | 0x85 => execRetry q (w 0) s
    | 0x86 => execDispose q (w 0) (w 1) s
    | 0x87 => execHandler q (w 0) (w 1) (w 2) (w 3) s
    | 0x88 => execWscopy q (w 0) (w 1) (w 2) (w 3) (w 4) s
    | 0x89 => execPartwr q (w 0) (w 1) s
    | 0x8A =>
      if w 2 = 0#64 then execVacate q (w 0) (w 1) s
      else if w 2 = 1#64 then execVacateReopen q (w 0) (w 1) s
      else pfOnly s q (reply s q 1 0)
    | 0x8B => execKeyrel q (w 0) s
    | 0x8C => execKeyret q (w 0) (w 1) s
    | 0x8D => execDbgwr q (w 0) s
    | 0x8E =>
      if w 0 = 0#64 ∧ z (w 4) then execStopNow q s
      else if w 0 = 1#64 ∧ z (w 4) then execStopAt q (w 1) (w 2) (w 3) s
      else if w 0 = 2#64 then execView q (w 1) (w 2) (w 3) (w 4) s
      else if w 0 = 3#64 ∧ z (w 4) then execResume q s
      else pfCtx s q fun _ _ => reply s q 1 0
    | 0x8F => execFncfg q (w 0) (w 1) (w 2) (w 3) (w 4) s
    | 0x90 => execWorldnew q (w 0) (w 1) (w 2) (w 3) (w 4) s
    | 0x91 => execWorldend q (w 0) s
    | _ => execQtrd q (w 0) (w 1) s)

/-- One submission entry of 64 bytes. -/
def submit (s : State) (iface : Nat) (bs : List Byte) : State :=
  let e := leNat bs
  let code := bits e 7 0
  let seq := BitVec.ofNat 32 (bits e 95 64)
  let w (i : Nat) : DWord := BitVec.ofNat 64 (e / 2 ^ (128 + 64 * i))
  if code = 1 then launchRecord iface (BitVec.ofNat 512 e) s
  else if code < 0x80 ∨ 0x92 < code then post s iface seq 1 0
  else if bits e 63 8 ≠ 0 ∨ bits e 127 96 ≠ 0 ∨ e / 2 ^ (128 + 64 * cmdWords code) ≠ 0 then post s iface seq 1 0
  else command s ⟨iface, seq⟩ code w

/-- The completion ring has no room. -/
def Iface.full (I : Iface) : Bool := I.cqt - I.cqh == I.cqn.zeroExtend 32

/-- A command of an interface that has yet to take effect: a weight copy that waits, or a revocation that is held for a sweep. The next
command of the interface waits for it (R343, assumption 111). -/
def cmdHeld (s : State) (iface : Nat) : Bool :=
  (s.wscopies.any fun w => w.2.cmd.iface == iface) || s.revs.any fun r => r.2.held && ((r.2.cmd.map (·.iface)) == some iface)

/-- Take the next entry of an interface's submission ring; none while its doorbell has not passed one, while its completion
ring is full, while stage 2 does not give the entry, or while it is a command and one before it has yet to take effect (R343). -/
def takeEntry (s : State) (iface : Nat) : Option State :=
  let I := s.iface iface
  if I.sqh == I.sqt || I.full then none
  else match guestRead s I.func (I.sqb.toNat + 64 * (I.sqh.toNat % max I.sqn.toNat 1)) 64 with
    | .error _ => none
    | .ok bs =>
      if decide (0x80 ≤ (bs.headD 0#8).toNat) && cmdHeld s iface then none
      else some (submit (s.modIface iface fun I => { I with sqh := I.sqh + 1#32 }) iface bs)

/-- Take every entry that can be taken. -/
def takeAll : Nat → State → Nat → State
  | 0, s, _ => s
  | n + 1, s, iface => match takeEntry s iface with
    | some t => takeAll n t iface
    | none => s

/-- R343: the submission doorbell; a tail more than SQN beyond SQH is taken as SQH + SQN. -/
def execSqt (iface : Nat) (tail : Word) (s : State) : Out :=
  if 256 ≤ iface || !s.trust.links then .next s
  else
    let I := s.iface iface
    let n := I.sqn.zeroExtend 32
    let t := if tail - I.sqh > n then I.sqh + n else tail
    .next (takeAll I.sqn.toNat (s.modIface iface fun I => { I with sqt := t }) iface)

/-- R343: a completion record is written where there is room; a message is sent if IEN is set. -/
def execCompletionPost (iface : Nat) (s : State) : Out :=
  let I := s.iface iface
  match I.held with
  | [] => .next s
  | r :: rest =>
    let a := I.cqb.toNat + 16 * (I.cqt.toNat % max I.cqn.toNat 1)
    match guestParts s I.func true 2 a 16 with
    | .error _ => .next s
    | .ok _ =>
      if I.full then .next s
      else
        let s := devWrite s none I.func a (natBytes 16 r.toNat)
        let s := s.modIface iface fun I => { I with cqt := I.cqt + 1#32, held := rest }
        -- a launch is pending until now (R271)
        let s := match s.launches.find? fun l => l.2.iface == iface && (l.2.posted.map (·.2)) == some I.cqt.toNat with
          | some (id, l) => settleLaunch s id ((l.posted.map (·.1)).getD 0)
          | none => s
        .next (if I.ien then interrupt s I.func I.ivec.toNat else s)

/-- R343: the host's count of records consumed; the entries that the full ring held back are taken. -/
def execCqh (iface : Nat) (v : Word) (s : State) : Out :=
  let I := s.iface iface
  if 256 ≤ iface || !s.trust.links || I.cqn.zeroExtend 32 < I.cqt - v then .next s
  else .next (takeAll I.sqn.toNat (s.modIface iface fun I => { I with cqh := v }) iface)

/-- R343. -/
def execRh (ring : Nat) (v : Word) (s : State) : Out :=
  let R := s.ring ring
  if 66 ≤ ring || !s.trust.links || R.rn.zeroExtend 32 < R.rt - v then .next s
  else .next (s.modRing ring fun R => { R with rh := v })

/-! ### Register pages (R341, R342, R346, Tables 29.1, 29.6, 29.8) -/

/-- The ring block at an offset of a function's page; there are 64 functions (R341). -/
def ringAt (fn off : Nat) : Option (Nat × Nat) :=
  if 64 ≤ fn then none
  else if 0x100 ≤ off ∧ off < 0x140 then some (if fn = 0 then 0 else 1 + fn, off - 0x100)
  else if fn = 0 ∧ 0x140 ≤ off ∧ off < 0x180 then some (1, off - 0x140)
  else if fn = 0 ∧ 0x180 ≤ off ∧ off < 0x1C0 then some (65, off - 0x180)
  else none

/-- The queue interface whose page, from a base, an offset of a function's window names. -/
def ifaceAt (s : State) (fn base off : Nat) : Option (Nat × Nat) :=
  if base ≤ off ∧ off < base + 4096 * 256 then
    let n := (off - base) / 4096
    if (s.iface n).func = fn then some (n, (off - base) % 4096) else none
  else none

/-- A ring size: a power of two from 16 to 32,768. Bits above the field are reserved, and what is written to them is ignored (R14). -/
def sizeOk (v : DWord) : Bool := (List.range 12).any fun i => v.extractLsb' 0 16 == BitVec.ofNat 16 (16 * 2 ^ i)

/-- A write of a register of a ring block. A value of a field that breaks its limits is ignored, and so are reserved bits (R14). -/
def writeRing (s : State) (k off : Nat) (v : DWord) : State :=
  match off with
  | 0x00 => if v.toNat % 4096 = 0 then s.modRing k fun R => { R with rb := v } else s
  | 0x08 => if sizeOk v then s.modRing k fun R => { R with rn := v.extractLsb' 0 16 } else s
  | 0x18 => onward s (execRh k (v.extractLsb' 0 32) s)
  | 0x20 => s.modRing k fun R => { R with riv := v.extractLsb' 0 16, rien := v.getLsbD 16 }
  | _ => s

/-- A write of a register of an interface page (R14). -/
def writeIface (s : State) (n off : Nat) (v : DWord) : State :=
  match off with
  | 0x00 => if v.toNat % 4096 = 0 then s.modIface n fun I => { I with sqb := v } else s
  | 0x08 => if sizeOk v then s.modIface n fun I => { I with sqn := v.extractLsb' 0 16 } else s
  | 0x18 => if v.toNat % 4096 = 0 then s.modIface n fun I => { I with cqb := v } else s
  | 0x20 => if sizeOk v then s.modIface n fun I => { I with cqn := v.extractLsb' 0 16 } else s
  | 0x30 => onward s (execCqh n (v.extractLsb' 0 32) s)
  | 0x38 => s.modIface n fun I => { I with ivec := v.extractLsb' 0 16, ien := v.getLsbD 16 }
  | _ => s

/-- R341: a write of 8 bytes in a function's window; an unassigned page, and a read-only register, ignore it. -/
def execRegisterWrite (fn off : Nat) (v : DWord) (s : State) : Out :=
  .next (if !s.trust.links then s else match ringAt fn off with
    | some (k, o) => writeRing s k o v
    | none => match ifaceAt s fn 0x100000 off with
      | some (n, o) => writeIface s n o v
      | none => match ifaceAt s fn 0x200000 off with
        | some (n, 0) => onward s (execSqt n (v.extractLsb' 0 32) s)
        | _ => s)

/-- The 64-bit value of a register of a ring block; RHLD counts the records that find no room (R286). -/
def readRing (s : State) (k off : Nat) : Nat :=
  let R := s.ring k
  match off with
  | 0x00 => R.rb.toNat
  | 0x08 => R.rn.toNat
  | 0x10 => R.rt.toNat
  | 0x18 => R.rh.toNat
  | 0x20 => R.riv.toNat + (if R.rien then 2 ^ 16 else 0)
  | 0x28 => R.held.length - (R.rn.toNat - (R.rt - R.rh).toNat)
  | _ => 0

/-- The 64-bit value of a register of an interface page. -/
def readIface (s : State) (n off : Nat) : Nat :=
  let I := s.iface n
  match off with
  | 0x00 => I.sqb.toNat
  | 0x08 => I.sqn.toNat
  | 0x10 => I.sqh.toNat
  | 0x18 => I.cqb.toNat
  | 0x20 => I.cqn.toNat
  | 0x28 => I.cqt.toNat
  | 0x30 => I.cqh.toNat
  | 0x38 => I.ivec.toNat + (if I.ien then 2 ^ 16 else 0)
  | 0x40 => I.pasid.getD 0
  | _ => 0

/-- A 128-bit field of the device pages (Table 29.8). -/
def wideField (s : State) (off : Nat) : Option Nat :=
  if 0x300000 ≤ off ∧ off < 0x300000 + 4096 * 48 then
    let c := (off - 0x300000) / 4096
    let d := s.die (c / 2)
    some ((tgetD (if c % 2 = 0 then d.trace0 else d.trace1) (off % 4096 / 16) 0#128).toNat)
  else if 0x400000 ≤ off ∧ off < 0x400180 then some (intBits 128 (s.die ((off - 0x400000) / 16)).povh)
  else if 0x400180 ≤ off ∧ off < 0x400190 then some (intBits 128 s.energy.kovh)
  else none

/-- Ticket rejects, summed over every core. -/
def rejects (s : State) : Nat := (s.cores.map fun c => c.2.trej).sum

/-- The identity that the host can read (R315): both public keys, then the certificate chain. -/
def identityBytes : List Byte :=
  let secret := natBytes 32 Config.deviceSecret.toNat
  let seeds := Config.shake64 (secret ++ [0x41#8, 0x58#8, 0x4E#8, 0x2D#8, 0x4B#8, 0x45#8, 0x4D#8])
  Config.mldsaPublic idSeed ++ Config.mlkemPublic seeds ++ Config.certificateChain

/-- Where the identity begins in the physical function's window: past every page that R341 and Table 29.8 name, which read zero where they
give nothing. The spec gives it no place (assumption 88). -/
def identityBase : Nat := 0x401000 + Config.identityOffset % 2 ^ 20 * 8

/-- 8 bytes of the identity at an offset of the physical function's window. -/
def identityAt (off : Nat) : List Byte := if identityBase ≤ off then (identityBytes.drop (off - identityBase)).take 8 else []

/-- TREJ as a read gives it and clears it (Table 29.8). -/
def readTrej (s : State) : State := { s with reply := natBytes 8 (rejects s), cores := s.cores.map fun (k, C) => (k, { C with trej := 0 }) }

/-- R346: TREJ is read and cleared, by the physical function; another function reads zero. -/
def execTrej (fn : Nat) (s : State) : Out :=
  if !s.trust.links then .next s
  else if fn ≠ 0 then .next { s with reply := natBytes 8 0 }
  else .next (readTrej s)

/-- R315, R341, R346: a read of 8 bytes in a function's window. The low half of a 128-bit field latches its high half for the
function, whose next read of the high half gives it. -/
def execLatchedHalfRead (fn off : Nat) (s : State) : Out :=
  .next (if !s.trust.links then s else if fn = 0 ∧ off = 0x400190 then readTrej s else match if fn = 0 then wideField s (off / 16 * 16) else none with
    | some v =>
      if off % 16 = 0 then
        { s with reply := natBytes 8 v, latch := tput s.latch fn (BitVec.ofNat 64 (v / 2 ^ 64)) 0#64 }
      else { s with reply := natBytes 8 (tgetD s.latch fn 0#64).toNat }
    | none =>
      { s with reply := natBytes 8 (match ringAt fn off with
        | some (k, o) => readRing s k o
        | none => match ifaceAt s fn 0x100000 off with
          | some (n, o) => readIface s n o
          | none => if off = 0 ∧ s.ready then 1 else if fn = 0 ∧ off ≠ 0 then leNat (identityAt off) else 0) })

end Sys2Proof.Machine
end

