-- ==== Sys2Proof/Machine/Boot.lean ====
section
/-!
DEFINITION. Bring-up and spares (R306, R315, R316, R317, R329, R348, R350): boot, and the remap of a retired core. An event that is
not due leaves the state as it is.
-/

namespace Sys2Proof.Machine

/-! ### Anti-rollback fuses (R329) -/

/-- Fuse pair i of a counter. -/
def fusePair (t : Trust) (c i : Nat) : BitVec 2 := tgetD t.fuses (64 * c + i) 0#2

/-- The half-blown pairs are completed. -/
def completeFuses (t : Trust) : Trust := { t with fuses := t.fuses.map fun (k, v) => (k, if v = 0#2 then 0#2 else 3#2) }

/-- Complete pairs of a counter. -/
def counterValue (t : Trust) (c : Nat) : Nat := ((List.range 64).filter fun i => fusePair t c i == 3#2).length

/-- An unblown pair below a later one that is not. -/
def outOfOrder (t : Trust) (c : Nat) : Bool :=
  (List.range 63).any fun i => fusePair t c i == 0#2 && fusePair t c (i + 1) != 0#2

/-- Whether a firmware stage may run: its signature holds, and it is not older than its counter. -/
def stageOk (t : Trust) (i : BootImage) : Bool :=
  i.sigOk && decide (i.counter < 16) && decide (i.minCtr ≤ counterValue t i.counter) && decide (counterValue t i.counter ≤ i.version)

/-! ### Boot (R348) -/

/-- FM takes in an image (R316). -/
def measure (t : Trust) (i : BootImage) : Trust :=
  { t with fm := Config.sha3 (natBytes 32 t.fm.toNat ++ natBytes 32 i.digest.toNat) }

/-- A boot that stops at a step: the links stay untrained. -/
def bootStop (s : State) (step : Nat) (f : BootFault) : State :=
  { s with boot := step, trust := { s.trust with bootLog := s.trust.bootLog ++ [f] } }

/-- Step 5: every crown domain comes to step 56, with its initial trace entry at index 0 in each cluster (R306). -/
def bootDie (s : State) (d : Nat) : State :=
  s.modDie d fun D =>
    let e : BitVec 128 := BitVec.ofNat 128 (field 63 0 s.reft + field 68 64 d + field 78 72 56 + field 83 80 6)
    { D with step := 56, pstep := 56, tchg := BitVec.ofNat 32 s.reft, chgs := 0, trace0 := [(0, e)], trace1 := [(0, e)], chg := none, want := none }

/-- Step 5: HBM is initialised; every line is written with SCR = 1, and no frame has an owner (R321, R323). -/
def bootMem (s : State) : State :=
  { s with mem := { s.mem with hbm := Ram.empty, lines := [], owner := [], scrubQ := [], wordOwner := [], stamp := [] } }

/-- World 0, with POL of zeros and keys from the device's random source (R317, R318, R320). -/
def bootWorld (s : State) : State :=
  let (k, s) := s.drawRandom
  let (sk, s) := s.drawRandom
  let W : World := { World.make s.trust.fm 0#256 0 s.reft with
    slots := [(0, BitVec.ofNat 1024 k)], sk := BitVec.ofNat 128 sk, snap := stepSnap s }
  { s with worlds := tset s.worlds 0 W }

/-- A physical core of a cluster is to be retired: the logical core on it waits for its remap, and an unused one is a spare no longer
(R350). -/
def retirePhys (s : State) (cluster p : Nat) : State :=
  match (List.range 32).find? fun n => (s.core (32 * cluster + n)).phys == some p with
  | some n => s.modCore (32 * cluster + n) fun C => { C with remap := true }
  | none => { s with retired := (34 * cluster + p) :: s.retired }

/-- R348: the steps of Table 29.4 in their order. The images are stage 1, the 24 weight tables as one, and the Milliner's
firmware; the self-test has found some physical cores bad (R350). -/
def execBoot (run : BootRun) (s : State) : Out :=
  if s.boot ≠ 0 ∨ s.ready then .next s
  else
    let t := completeFuses s.trust
    match (List.range 16).find? (outOfOrder s.trust) with
    | some c => .next (bootStop s 2 (.fuse c))
    | none =>
      let s := { s with trust := { t with fm := 0#256 } }
      match run.images with
      | stage :: tables :: firmware :: _ =>
        if !stageOk s.trust stage then .next (bootStop s 3 (.check 3))
        else
          let s := { s with trust := measure s.trust stage }
          let s := (List.range 24).foldl bootDie (bootMem s)
          let s := (List.range 24).foldl (fun s d => s.modDie d fun D => { D with factory := true }) s
          let s := { s with trust := measure s.trust tables }
          if !stageOk s.trust firmware then .next (bootStop s 7 (.check 7))
          else
            let s := { s with trust := { measure s.trust firmware with links := true } }
            let s := (run.failed.filter (· < 34 * 48)).foldl (fun s x => retirePhys s (x / 34) (x % 34)) s
            .next { bootWorld s with boot := 9, ready := true }
      | _ => .next (bootStop s 3 (.check 3))

/-! ### Spares (R350) -/

/-- A physical core of a cluster that no logical core uses and that has not been retired. -/
def spareOf (s : State) (cluster : Nat) : Option Nat :=
  (List.range 34).find? fun p => !s.retired.contains (34 * cluster + p) &&
    (List.range 32).all fun n => (s.core (32 * cluster + n)).phys != some p

/-- R350: the blocks of a core to be retired are saved; once none is resident the logical core is mapped to a spare, or is
absent. -/
def execCoreRemap (core : Nat) (s : State) : Out :=
  let C := s.core core
  if !C.remap || 24 * 64 ≤ core then .next s
  else if !(onCore s core).isEmpty then .next (saveWith s fun _ B => B.home == core)
  else
    let s := C.wc.foldl (fun s e => drainLine s core e.1) s
    let gone := C.phys.map fun p => 34 * clusterOf core + p
    let s := { s with retired := gone.toList ++ s.retired }
    let s := s.setCore core { Core.reset core with
      phys := spareOf (s.modCore core fun C => { C with phys := none }) (clusterOf core), pmlim := C.pmlim, dc := C.dc, trej := C.trej
      vacated := C.vacated }
    .next (integrity s 7 (dieOf core) (clusterOf core % 2 * 34 + C.phys.getD 0) none 0)

end Sys2Proof.Machine
end

