-- ==== Sys2Proof/Machine/Device.lean ====
section
/-!
DEFINITION. The management sideband (R315, R350, R351). `reply` holds what a request reads.
-/

namespace Sys2Proof.Machine

/-- R351: the identity public keys, the certificate chain, KID and FM. -/
def execSidebandReadIdentity (s : State) : Out :=
  let hashes := natBytes 32 kid.toNat ++ natBytes 32 s.trust.fm.toNat
  .next { s with reply := identityBytes ++ hashes }

/-- R351: power as last measured in each domain; temperatures and supplies are free values, one for each domain. -/
def execSidebandReadTelemetry (s : State) : Out :=
  let power := (List.range 41).flatMap fun d => natBytes 8 (intBits 64 (s.energy.prevM.getD d 0))
  let k := s.free
  let rest := (List.range 82).flatMap fun i => natBytes 4 (Config.freeNat (k + i))
  .next { s with reply := power ++ rest, free := k + 82 }

/-- R351: the fuse-fault and boot-fault logs. -/
def execSidebandReadLogs (s : State) : Out :=
  .next { s with reply := s.trust.bootLog.flatMap fun f => match f with
    | .fuse c => [1#8, BitVec.ofNat 8 c]
    | .check n => [2#8, BitVec.ofNat 8 n] }

/-- R351, R312. -/
def execSidebandLeaseFloor (watts : Nat) (s : State) : Out :=
  .next (leaseChanged { s with energy := { s.energy with floor := watts } })

/-- R351, R350: a die goes out of service with its blocks saved; a core, named by its physical number within the die, is to be
remapped. -/
def execSidebandRetire (die core : Nat) (wholeDie : Bool) (s : State) : Out :=
  if 24 ≤ die then .next s
  else if wholeDie then
    if (s.die die).inService then
      .next (integrity (saveWith (leaveSlice (s.modDie die fun D => { D with inService := false }) die) fun _ B => dieOf B.home == die) 6 die 0 none 0)
    else .next s
  else .next (if core < 68 then retirePhys s (2 * die + core / 34) (core % 34) else s)

/-- R351: the package is reset; the fuses keep their state. -/
def execSidebandReset (s : State) : Out :=
  .next { State.reset with agenda := s.agenda, free := s.free, nextId := s.nextId, trust := { Trust.reset with fuses := s.trust.fuses } }

end Sys2Proof.Machine
end

