-- ==== Sys2Proof/Machine/Flags.lean ====
section
/-!
DEFINITION. Predicates: the machine's only flags. Comparison relations (R182, R239) and predicate logic on p and q
(R50, R182).
-/

namespace Sys2Proof.Machine

/-- The six integer relations: equal, not equal, less than (S, N), less or equal (S, N). -/
inductive Rel where | eq | ne | ltS | ltN | leS | leN
  deriving DecidableEq, Repr

def Rel.holds {n : Nat} (r : Rel) (x y : BitVec n) : Bool :=
  match r with
  | .eq => x == y
  | .ne => x != y
  | .ltS => x.slt y
  | .ltN => x.ult y
  | .leS => x.sle y
  | .leN => x.ule y

/-- The four floating-point relations (R239): a NaN makes all but the unordered one false. -/
inductive FRel where | eq | lt | le | un
  deriving DecidableEq, Repr

def FRel.holds (r : FRel) (x y : Word) : Bool :=
  let a := d32 x
  let b := d32 y
  match r with
  | .eq => a.eq b
  | .lt => a.lt b
  | .le => a.lt b || a.eq b
  | .un => a.isNan || b.isNan

/-- Predicate logic lane by lane for the active set (R182). -/
def predLogic (d : BitVec 3) (ps : List Pred) (f : List Lanes → Lanes) (s : State) : Out :=
  match s.cur with
  | none => .next s
  | some c =>
    if c.empty then .next (retire s)
    else
      let s' := c.act.foldl (fun s (g, m) =>
        s.modGroup c.blk g fun G => G.putPred d m (f (ps.map G.pred))) s
      done 0x12 .issue s'

/-- Uniform predicate logic (R182). -/
def qLogic (d : BitVec 3) (ps : List Pred) (f : List Bool → Bool) (s : State) : Out :=
  uniPredOp 0x12 d [] (fun G _ => f (ps.map G.qpred)) s

/-- A vector compare. -/
def vcmp (r : Rel) (d : BitVec 3) (b c : VSrc) (s : State) : Out :=
  predOp 0x14 d [.v b, .v c] (fun _ _ xs => r.holds (xs.getD 0 0#32) (xs.getD 1 0#32)) s

/-- A uniform compare. -/
def scmp (r : Rel) (d : BitVec 3) (b c : RSrc) (s : State) : Out :=
  uniPredOp 0x10 d [b, c] (fun _ xs => r.holds (xs.getD 0 0#64) (xs.getD 1 0#64)) s

/-- A floating-point compare. -/
def fcmp (r : FRel) (d : BitVec 3) (b c : VSrc) (s : State) : Out :=
  predOp 0x18 d [.v b, .v c] (fun _ _ xs => r.holds (xs.getD 0 0#32) (xs.getD 1 0#32)) s

end Sys2Proof.Machine
end

