-- ==== Sys2Proof/Machine/Uni.lean ====
section
/-!
DEFINITION. The uniform integer instructions (Table 13.1; R181 to R183).
-/

namespace Sys2Proof.Machine

/-! ### Functions of Table 13.3 at any width -/

def mulhS {n : Nat} (x y : BitVec n) : BitVec n := BitVec.ofInt n (x.toInt * y.toInt / (2 ^ n : Nat))
def mulhN {n : Nat} (x y : BitVec n) : BitVec n := BitVec.ofNat n (x.toNat * y.toNat / 2 ^ n)
def minS {n : Nat} (x y : BitVec n) : BitVec n := if y.slt x then y else x
def maxS {n : Nat} (x y : BitVec n) : BitVec n := if x.slt y then y else x
def minN {n : Nat} (x y : BitVec n) : BitVec n := if y.ult x then y else x
def maxN {n : Nat} (x y : BitVec n) : BitVec n := if x.ult y then y else x

/-- The shift count: k low bits of y (6 in VINT, 7 in UNI). -/
def count {n : Nat} (k : Nat) (y : BitVec n) : Nat := y.toNat % 2 ^ k

def shl {n : Nat} (k : Nat) (x y : BitVec n) : BitVec n := BitVec.ofNat n (x.toNat * 2 ^ count k y)
def shrN {n : Nat} (k : Nat) (x y : BitVec n) : BitVec n := BitVec.ofNat n (x.toNat / 2 ^ count k y)
def shrS {n : Nat} (k : Nat) (x y : BitVec n) : BitVec n := BitVec.ofInt n (x.toInt / (2 ^ min (count k y) (n - 1) : Nat))

def popc {n : Nat} (x : BitVec n) : Nat := (below n fun i => x.getLsbD i).length
/-- Leading zeros: n less the place above the highest set bit. -/
def clz {n : Nat} (x : BitVec n) : Nat := n - (below n fun i => x.getLsbD i).foldl (fun _ i => i + 1) 0

def x0 (xs : List DWord) : DWord := xs.getD 0 0#64
def x1 (xs : List DWord) : DWord := xs.getD 1 0#64

/-! ### Meanings -/

/-- R181: add. -/
def execSaddB64 (_e : Scope) (a : BitVec 6) (b c : RSrc) (s : State) : Out :=
  uniOp 0x10 a [b, c] (fun _ xs => x0 xs + x1 xs) s

/-- R181: sub. -/
def execSsubB64 (_e : Scope) (a : BitVec 6) (b c : RSrc) (s : State) : Out :=
  uniOp 0x10 a [b, c] (fun _ xs => x0 xs - x1 xs) s

/-- R181: mul. -/
def execSmulB64 (_e : Scope) (a : BitVec 6) (b c : RSrc) (s : State) : Out :=
  uniOp 0x11 a [b, c] (fun _ xs => x0 xs * x1 xs) s

/-- R181: mulh.s. -/
def execSmulhS64 (_e : Scope) (a : BitVec 6) (b c : RSrc) (s : State) : Out :=
  uniOp 0x11 a [b, c] (fun _ xs => mulhS (x0 xs) (x1 xs)) s

/-- R181: mulh.n. -/
def execSmulhN64 (_e : Scope) (a : BitVec 6) (b c : RSrc) (s : State) : Out :=
  uniOp 0x11 a [b, c] (fun _ xs => mulhN (x0 xs) (x1 xs)) s

/-- R181: addi, A read and written. -/
def execSaddiB64 (_e : Scope) (a : BitVec 6) (i : BitVec 16) (s : State) : Out :=
  uniOp 0x10 a [⟨a, false⟩] (fun _ xs => x0 xs + i.signExtend 64) s

/-- R181: movi. -/
def execSmoviB64 (_e : Scope) (a : BitVec 6) (i : BitVec 16) (s : State) : Out :=
  uniOp 0x10 a [] (fun _ _ => i.signExtend 64) s

/-- R181: movl by selector: 0 sign-extended, 1 zero-extended, 2 the high half replaced. -/
def execSmovlB64 (_e : Scope) (a : BitVec 6) (sel : BitVec 2) (lit : Word) (s : State) : Out :=
  uniOp 0x10 a [⟨a, false⟩] (fun _ xs =>
    if sel == 0#2 then lit.signExtend 64 else if sel == 1#2 then lit.zeroExtend 64
    else lit ++ (x0 xs).extractLsb' 0 32) s

/-- R181: and. -/
def execSandB64 (_e : Scope) (a : BitVec 6) (b c : RSrc) (s : State) : Out :=
  uniOp 0x10 a [b, c] (fun _ xs => x0 xs &&& x1 xs) s

/-- R181: or. -/
def execSorB64 (_e : Scope) (a : BitVec 6) (b c : RSrc) (s : State) : Out :=
  uniOp 0x10 a [b, c] (fun _ xs => x0 xs ||| x1 xs) s

/-- R181: xor. -/
def execSxorB64 (_e : Scope) (a : BitVec 6) (b c : RSrc) (s : State) : Out :=
  uniOp 0x10 a [b, c] (fun _ xs => x0 xs ^^^ x1 xs) s

/-- R181: not. -/
def execSnotB64 (_e : Scope) (a : BitVec 6) (b : RSrc) (s : State) : Out :=
  uniOp 0x10 a [b] (fun _ xs => ~~~(x0 xs)) s

/-- R181: shl. -/
def execSshlB64 (_e : Scope) (a : BitVec 6) (b c : RSrc) (s : State) : Out :=
  uniOp 0x10 a [b, c] (fun _ xs => shl 7 (x0 xs) (x1 xs)) s

/-- R181: shr.n. -/
def execSshrN64 (_e : Scope) (a : BitVec 6) (b c : RSrc) (s : State) : Out :=
  uniOp 0x10 a [b, c] (fun _ xs => shrN 7 (x0 xs) (x1 xs)) s

/-- R181: shr.s. -/
def execSshrS64 (_e : Scope) (a : BitVec 6) (b c : RSrc) (s : State) : Out :=
  uniOp 0x10 a [b, c] (fun _ xs => shrS 7 (x0 xs) (x1 xs)) s

/-- R181: mov. -/
def execSmovB64 (_e : Scope) (a : BitVec 6) (b : RSrc) (s : State) : Out :=
  uniOp 0x10 a [b] (fun _ xs => x0 xs) s

/-- R181: min. -/
def execSminS64 (_e : Scope) (a : BitVec 6) (b c : RSrc) (s : State) : Out :=
  uniOp 0x10 a [b, c] (fun _ xs => minS (x0 xs) (x1 xs)) s

/-- R181: min. -/
def execSminN64 (_e : Scope) (a : BitVec 6) (b c : RSrc) (s : State) : Out :=
  uniOp 0x10 a [b, c] (fun _ xs => minN (x0 xs) (x1 xs)) s

/-- R181: max. -/
def execSmaxS64 (_e : Scope) (a : BitVec 6) (b c : RSrc) (s : State) : Out :=
  uniOp 0x10 a [b, c] (fun _ xs => maxS (x0 xs) (x1 xs)) s

/-- R181: max. -/
def execSmaxN64 (_e : Scope) (a : BitVec 6) (b c : RSrc) (s : State) : Out :=
  uniOp 0x10 a [b, c] (fun _ xs => maxN (x0 xs) (x1 xs)) s

/-- R181: clz. -/
def execSclzB64 (_e : Scope) (a : BitVec 6) (b : RSrc) (s : State) : Out :=
  uniOp 0x10 a [b] (fun _ xs => BitVec.ofNat 64 (clz (x0 xs))) s

/-- R181: popc. -/
def execSpopcB64 (_e : Scope) (a : BitVec 6) (b : RSrc) (s : State) : Out :=
  uniOp 0x10 a [b] (fun _ xs => BitVec.ofNat 64 (popc (x0 xs))) s

/-- R181: sext.s32. -/
def execSextS32 (_e : Scope) (a : BitVec 6) (b : RSrc) (s : State) : Out :=
  uniOp 0x10 a [b] (fun _ xs => ((x0 xs).extractLsb' 0 32).signExtend 64) s

/-- R181: sext.n32. -/
def execSextN32 (_e : Scope) (a : BitVec 6) (b : RSrc) (s : State) : Out :=
  uniOp 0x10 a [b] (fun _ xs => ((x0 xs).extractLsb' 0 32).zeroExtend 64) s

/-- R182. -/
def execSceqB64 (_e : Scope) (a : BitVec 3) (b c : RSrc) (s : State) : Out := scmp .eq a b c s

/-- R182. -/
def execScneB64 (_e : Scope) (a : BitVec 3) (b c : RSrc) (s : State) : Out := scmp .ne a b c s

/-- R182. -/
def execScltS64 (_e : Scope) (a : BitVec 3) (b c : RSrc) (s : State) : Out := scmp .ltS a b c s

/-- R182. -/
def execScltN64 (_e : Scope) (a : BitVec 3) (b c : RSrc) (s : State) : Out := scmp .ltN a b c s

/-- R182. -/
def execScleS64 (_e : Scope) (a : BitVec 3) (b c : RSrc) (s : State) : Out := scmp .leS a b c s

/-- R182. -/
def execScleN64 (_e : Scope) (a : BitVec 3) (b c : RSrc) (s : State) : Out := scmp .leN a b c s

/-- R183. -/
def execSselB64 (_e : Scope) (a : BitVec 6) (b c : RSrc) (d : Pred) (s : State) : Out :=
  uniOp 0x10 a [b, c] (fun G xs => if G.qpred d then x0 xs else x1 xs) s

/-- R182. -/
def execQand (_e : Scope) (a : BitVec 3) (b c : Pred) (s : State) : Out :=
  qLogic a [b, c] (fun xs => let p := xs.getD 0 false; let q := xs.getD 1 false; p && q) s

/-- R182. -/
def execQor (_e : Scope) (a : BitVec 3) (b c : Pred) (s : State) : Out :=
  qLogic a [b, c] (fun xs => let p := xs.getD 0 false; let q := xs.getD 1 false; p || q) s

/-- R182. -/
def execQxor (_e : Scope) (a : BitVec 3) (b c : Pred) (s : State) : Out :=
  qLogic a [b, c] (fun xs => let p := xs.getD 0 false; let q := xs.getD 1 false; p != q) s

/-- R182. -/
def execQnot (_e : Scope) (a : BitVec 3) (b : Pred) (s : State) : Out := qLogic a [b] (fun xs => !(xs.getD 0 false)) s

end Sys2Proof.Machine
end

