-- ==== Sys2Proof/Machine/Vint.lean ====
section
/-!
DEFINITION. The vector integer instructions (Table 13.2; R181 to R190), with affine composition (R194).
-/

namespace Sys2Proof.Machine

/-! ### Affine composition (R194, Table 13.5) -/

/-- A cell as (symbol, a, b): a known value has no symbol and a = 0; a deferred state is none. -/
def VCell.affine : VCell → Option (Option Nat × Word × Word)
  | .val w => some (none, 0#32, w)
  | .aff σ a b => some (some σ, a, b)
  | .dfr _ _ => none

/-- A state with a ≡ 0 is the known value b. -/
def mkAff (σ : Option Nat) (a b : Word) : VCell :=
  match σ with
  | some t => if a = 0#32 then .val b else .aff t a b
  | none => .val b

/-- Two operands that refer to at most one symbol between them, combined. -/
def compBin (f : Word → Word → Word) : List VCell → Option VCell
  | [x, y] =>
    match x.affine, y.affine with
    | some (σ, a, b), some (τ, c, d) =>
      if σ = none ∨ τ = none ∨ σ = τ then some (mkAff (σ <|> τ) (f a c) (f b d)) else none
    | _, _ => none
  | _ => none

/-- A product of one pending operand and a known one. -/
def compMul : List VCell → Option VCell
  | [x, y] =>
    match x.affine, y.affine with
    | some (σ, a, b), some (none, _, k) => some (mkAff σ (a * k) (b * k))
    | some (none, _, k), some (σ, a, b) => some (mkAff σ (a * k) (b * k))
    | _, _ => none
  | _ => none

/-- A pending operand shifted by a known count. -/
def compShl : List VCell → Option VCell
  | [x, y] =>
    match x.affine, y.affine with
    | some (σ, a, b), some (none, _, k) => some (mkAff σ (shl 6 a k) (shl 6 b k))
    | _, _ => none
  | _ => none

def compUn (f g : Word → Word) : List VCell → Option VCell
  | [x] => x.affine.map fun (σ, a, b) => mkAff σ (f a) (g b)
  | _ => none

def w0 (xs : List Word) : Word := xs.getD 0 0#32
def w1 (xs : List Word) : Word := xs.getD 1 0#32
def w2 (xs : List Word) : Word := xs.getD 2 0#32

/-! ### Functions of Table 13.3 at 32 bits -/

def satS (x : Int) : Word := BitVec.ofInt 32 (clampInt (-2147483648) 2147483647 x)
def satN (x : Int) : Word := BitVec.ofInt 32 (clampInt 0 4294967295 x)
def absS (x : Word) : Word := if x.msb then -x else x
def brev (x : Word) : Word := BitVec.ofNat 32 ((below 32 fun i => x.getLsbD i).foldl (fun acc i => acc + 2 ^ (31 - i)) 0)
def rotl (x y : Word) : Word := x.rotateLeft (y.toNat % 32)

/-- Bfx (R184). -/
def bfx (x c : Word) (len : Nat) (signed : Bool) : Word :=
  let w : Int := if signed then x.toInt else x.toNat
  let f := (w / (2 ^ (c.toNat % 64) : Nat)) % (2 ^ len : Nat)
  BitVec.ofInt 32 (if signed && decide ((2 ^ (len - 1) : Nat) ≤ f) then f - (2 ^ len : Nat) else f)

/-- Bfi (R184). -/
def bfi (d x c : Word) (len : Nat) : Word :=
  let pos := c.toNat % 64
  let m := BitVec.ofNat 32 ((2 ^ len - 1) * 2 ^ pos)
  (d &&& ~~~m) ||| (BitVec.ofNat 32 (x.toNat * 2 ^ pos) &&& m)

/-- A word with element i of width w replaced. -/
def putElem (d : Word) (w i code : Nat) : Word :=
  BitVec.ofNat 32 (d.toNat - elemOf d w i * 2 ^ (w * i) + code % 2 ^ w * 2 ^ (w * i))

/-- Vext (R185); a B32 source is read as N32. -/
def vext (t st : Ty) (i : Nat) (d x : Word) : Word :=
  if st.narrowInt then placeScalar t (convert t st .rn (elemOf x st.width i))
  else if t.narrowInt then putElem d t.width i (convert t st .rn x.toNat)
  else BitVec.ofNat 32 (convert t st .rn x.toNat)

/-! ### Elements of the unit (R94, R187) -/

/-- The element index of a lane of a group. -/
def eidx (s : State) (c : Cur) (g l : Nat) : Nat :=
  match c.e with
  | .lane | .group => l
  | .set => 64 * (g % (((tget? s.blocks c.blk).map fun B => (s.gridOf B).setg).getD 1)) + l
  | .block => 64 * g + l

/-- How many elements the unit has. -/
def ecount (s : State) (c : Cur) : Nat :=
  match c.e with
  | .lane | .group => 64
  | .set => 64 * ((tget? s.blocks c.blk).map fun B => (s.gridOf B).setg).getD 1
  | .block => 64 * ((tget? s.blocks c.blk).map fun B => (s.gridOf B).groups).getD 1

/-- Every element of the active set with its operands: index, group, lane, words. -/
structure Elem where
  i : Nat
  g : Nat
  l : Nat
  xs : List Word
  deriving DecidableEq, Repr

def elemsOf (s : State) (c : Cur) (ops : List Opd) : List Elem :=
  (readOps s c ops).flatMap fun (g, ls) => ls.map fun (l, xs) => ⟨eidx s c g l, g, l, xs.map VCell.word⟩

/-- A cross-lane instruction: each element's result is a function of the whole active set (R189, R190). -/
def crossOp (cls : Nat) (d : VDst) (ops : List Opd) (f : Nat → List Elem → Elem → Word) (s : State) : Out :=
  match s.cur with
  | none => .next s
  | some c =>
    if c.empty then .next (retire s)
    else match ready? s c ops (.v d) false with
      | some o => o
      | none =>
        let es := elemsOf s c ops
        let n := ecount s c
        let res := c.live.map fun g => (g, (es.filter fun e => e.g == g).map fun e => (e.l, VCell.val (f n es e)))
        done cls .lane (writeCells (consume s c ops) c.blk d res)

/-- A reduction of one word an element, the same result in each (R190, R244). -/
def reduceOp (cls : Nat) (d : VDst) (b : VSrc) (f : List Elem → Word) (s : State) : Out :=
  match s.cur with
  | none => .next s
  | some c =>
    if c.empty then .next (retire s)
    else match ready? s c [.v b] (.v d) false with
      | some o => o
      | none =>
        let es := elemsOf s c [.v b]
        let r := f es
        let res := c.live.map fun g => (g, (es.filter fun e => e.g == g).map fun e => (e.l, VCell.val r))
        done cls .lane (writeCells (consume s c [.v b]) c.blk d res)

def foldElems (f : Word → Word → Word) (es : List Elem) : Word :=
  match es with
  | [] => 0#32
  | e :: r => r.foldl (fun acc x => f acc (w0 x.xs)) (w0 e.xs)

/-- A move from the vector file to a uniform register (R187, R188): `f` gives each group's value. -/
def toUni (a : BitVec 6) (ops : List Opd) (f : State → Cur → List Elem → Nat → DWord) (free : List (RSrc × Nat)) (s : State) : Out :=
  match s.cur with
  | none => .next s
  | some c =>
    if c.empty then .next (retire s)
    else match ready? s c ops .none false with
      | some o => o
      | none =>
        let es := elemsOf s c ops
        let s' := freeS (consume s c ops) c free
        done 0x16 .lane (c.live.foldl (fun s' g => s'.modGroup c.blk g fun G => G.setS a.toNat (f s c es g)) s')

/-! ### Meanings -/

/-- R181, R194. -/
def execVaddB32 (_e : Scope) (a : VDst) (b c : VSrc) (s : State) : Out :=
  compOp 0x14 a [.v b, .v c] (compBin (· + ·)) (fun xs => w0 xs + w1 xs) s

/-- R181, R194. -/
def execVsubB32 (_e : Scope) (a : VDst) (b c : VSrc) (s : State) : Out :=
  compOp 0x14 a [.v b, .v c] (compBin (· - ·)) (fun xs => w0 xs - w1 xs) s

/-- R181, R194. -/
def execVmulB32 (_e : Scope) (a : VDst) (b c : VSrc) (s : State) : Out :=
  compOp 0x15 a [.v b, .v c] compMul (fun xs => w0 xs * w1 xs) s

/-- R181. -/
def execVmulhS32 (_e : Scope) (a : VDst) (b c : VSrc) (s : State) : Out :=
  laneOp 0x15 a [.v b, .v c] (fun _ _ xs => mulhS (w0 xs) (w1 xs)) s

/-- R181. -/
def execVmulhN32 (_e : Scope) (a : VDst) (b c : VSrc) (s : State) : Out :=
  laneOp 0x15 a [.v b, .v c] (fun _ _ xs => mulhN (w0 xs) (w1 xs)) s

/-- R181, R194: addi, A read and written. -/
def execVaddiB32 (_e : Scope) (a : BitVec 6) (i : BitVec 16) (s : State) : Out :=
  compOp 0x14 (.reg a) [.old a 1] (fun xs => compBin (· + ·) (xs ++ [.val (i.signExtend 32)])) (fun xs => w0 xs + i.signExtend 32) s

/-- R181: movi. -/
def execVmoviB32 (_e : Scope) (a : VDst) (i : BitVec 16) (s : State) : Out :=
  laneOp 0x14 a [] (fun _ _ _ => i.signExtend 32) s

/-- R181: movl. -/
def execVmovlB32 (_e : Scope) (a : VDst) (lit : Word) (s : State) : Out := laneOp 0x14 a [] (fun _ _ _ => lit) s

/-- R181. -/
def execVaddsS32 (_e : Scope) (a : VDst) (b c : VSrc) (s : State) : Out :=
  laneOp 0x14 a [.v b, .v c] (fun _ _ xs => satS ((w0 xs).toInt + (w1 xs).toInt)) s

/-- R181. -/
def execVaddsN32 (_e : Scope) (a : VDst) (b c : VSrc) (s : State) : Out :=
  laneOp 0x14 a [.v b, .v c] (fun _ _ xs => satN ((w0 xs).toNat + (w1 xs).toNat)) s

/-- R181. -/
def execVsubsS32 (_e : Scope) (a : VDst) (b c : VSrc) (s : State) : Out :=
  laneOp 0x14 a [.v b, .v c] (fun _ _ xs => satS ((w0 xs).toInt - (w1 xs).toInt)) s

/-- R181. -/
def execVsubsN32 (_e : Scope) (a : VDst) (b c : VSrc) (s : State) : Out :=
  laneOp 0x14 a [.v b, .v c] (fun _ _ xs => satN ((w0 xs).toNat - (w1 xs).toNat)) s

/-- R181. -/
def execVminS32 (_e : Scope) (a : VDst) (b c : VSrc) (s : State) : Out :=
  laneOp 0x14 a [.v b, .v c] (fun _ _ xs => minS (w0 xs) (w1 xs)) s

/-- R181. -/
def execVminN32 (_e : Scope) (a : VDst) (b c : VSrc) (s : State) : Out :=
  laneOp 0x14 a [.v b, .v c] (fun _ _ xs => minN (w0 xs) (w1 xs)) s

/-- R181. -/
def execVmaxS32 (_e : Scope) (a : VDst) (b c : VSrc) (s : State) : Out :=
  laneOp 0x14 a [.v b, .v c] (fun _ _ xs => maxS (w0 xs) (w1 xs)) s

/-- R181. -/
def execVmaxN32 (_e : Scope) (a : VDst) (b c : VSrc) (s : State) : Out :=
  laneOp 0x14 a [.v b, .v c] (fun _ _ xs => maxN (w0 xs) (w1 xs)) s

/-- R181. -/
def execVandB32 (_e : Scope) (a : VDst) (b c : VSrc) (s : State) : Out :=
  laneOp 0x14 a [.v b, .v c] (fun _ _ xs => w0 xs &&& w1 xs) s

/-- R181. -/
def execVorB32 (_e : Scope) (a : VDst) (b c : VSrc) (s : State) : Out :=
  laneOp 0x14 a [.v b, .v c] (fun _ _ xs => w0 xs ||| w1 xs) s

/-- R181. -/
def execVxorB32 (_e : Scope) (a : VDst) (b c : VSrc) (s : State) : Out :=
  laneOp 0x14 a [.v b, .v c] (fun _ _ xs => w0 xs ^^^ w1 xs) s

/-- R181, R194. -/
def execVnotB32 (_e : Scope) (a : VDst) (b : VSrc) (s : State) : Out :=
  compOp 0x14 a [.v b] (compUn (fun a => -a) (fun b => -b - 1#32)) (fun xs => ~~~(w0 xs)) s

/-- R181, R194. -/
def execVshlB32 (_e : Scope) (a : VDst) (b c : VSrc) (s : State) : Out :=
  compOp 0x14 a [.v b, .v c] compShl (fun xs => shl 6 (w0 xs) (w1 xs)) s

/-- R181. -/
def execVshrN32 (_e : Scope) (a : VDst) (b c : VSrc) (s : State) : Out :=
  laneOp 0x14 a [.v b, .v c] (fun _ _ xs => shrN 6 (w0 xs) (w1 xs)) s

/-- R181. -/
def execVshrS32 (_e : Scope) (a : VDst) (b c : VSrc) (s : State) : Out :=
  laneOp 0x14 a [.v b, .v c] (fun _ _ xs => shrS 6 (w0 xs) (w1 xs)) s

/-- R181, R194. -/
def execVmovB32 (_e : Scope) (a : VDst) (b : VSrc) (s : State) : Out :=
  compOp 0x14 a [.v b] (compUn id id) (fun xs => w0 xs) s

/-- R181. -/
def execVabsS32 (_e : Scope) (a : VDst) (b : VSrc) (s : State) : Out :=
  laneOp 0x14 a [.v b] (fun _ _ xs => absS (w0 xs)) s

/-- R181, R194. -/
def execVnegS32 (_e : Scope) (a : VDst) (b : VSrc) (s : State) : Out :=
  compOp 0x14 a [.v b] (compUn (fun a => -a) (fun b => -b)) (fun xs => -(w0 xs)) s

/-- R181. -/
def execVpopcB32 (_e : Scope) (a : VDst) (b : VSrc) (s : State) : Out :=
  laneOp 0x14 a [.v b] (fun _ _ xs => BitVec.ofNat 32 (popc (w0 xs))) s

/-- R181. -/
def execVclzB32 (_e : Scope) (a : VDst) (b : VSrc) (s : State) : Out :=
  laneOp 0x14 a [.v b] (fun _ _ xs => BitVec.ofNat 32 (clz (w0 xs))) s

/-- R181. -/
def execVbrevB32 (_e : Scope) (a : VDst) (b : VSrc) (s : State) : Out :=
  laneOp 0x14 a [.v b] (fun _ _ xs => brev (w0 xs)) s

/-- R184. -/
def execVbfxN32 (_e : Scope) (a : VDst) (b c : VSrc) (len : BitVec 6) (s : State) : Out :=
  laneOp 0x14 a [.v b, .v c] (fun _ _ xs => bfx (w0 xs) (w1 xs) len.toNat false) s

/-- R184. -/
def execVbfxS32 (_e : Scope) (a : VDst) (b c : VSrc) (len : BitVec 6) (s : State) : Out :=
  laneOp 0x14 a [.v b, .v c] (fun _ _ xs => bfx (w0 xs) (w1 xs) len.toNat true) s

/-- R184: A read and written. -/
def execVbfiB32 (_e : Scope) (a : BitVec 6) (b c : VSrc) (len : BitVec 6) (s : State) : Out :=
  laneOp 0x14 (.reg a) [.old a 1, .v b, .v c] (fun _ _ xs => bfi (w0 xs) (w1 xs) (w2 xs) len.toNat) s

/-- R182. -/
def execVceqB32 (_e : Scope) (a : BitVec 3) (b c : VSrc) (s : State) : Out := vcmp .eq a b c s

/-- R182. -/
def execVcneB32 (_e : Scope) (a : BitVec 3) (b c : VSrc) (s : State) : Out := vcmp .ne a b c s

/-- R182. -/
def execVcltS32 (_e : Scope) (a : BitVec 3) (b c : VSrc) (s : State) : Out := vcmp .ltS a b c s

/-- R182. -/
def execVcltN32 (_e : Scope) (a : BitVec 3) (b c : VSrc) (s : State) : Out := vcmp .ltN a b c s

/-- R182. -/
def execVcleS32 (_e : Scope) (a : BitVec 3) (b c : VSrc) (s : State) : Out := vcmp .leS a b c s

/-- R182. -/
def execVcleN32 (_e : Scope) (a : BitVec 3) (b c : VSrc) (s : State) : Out := vcmp .leN a b c s

/-- R183. -/
def execVselB32 (_e : Scope) (a : VDst) (b c : VSrc) (d : Pred) (s : State) : Out :=
  laneOp 0x14 a [.v b, .v c] (fun G l xs => if (G.pred d).getLsbD l then w0 xs else w1 xs) s

/-- R185: A is read and written when it packs. -/
def execVext (_e : Scope) (ty st : Ty) (a : VDst) (b : VSrc) (i : BitVec 8) (s : State) : Out :=
  match a, ty.narrowInt with
  | .reg r, true => laneOp 0x14 a [.old r 1, .v b] (fun _ _ xs => vext ty st i.toNat (w0 xs) (w1 xs)) s
  | _, _ => laneOp 0x14 a [.v b] (fun _ _ xs => vext ty st i.toNat 0#32 (w0 xs)) s

/-- R182. -/
def execPand (_e : Scope) (a : BitVec 3) (b c : Pred) (s : State) : Out :=
  predLogic a [b, c] (fun xs => xs.getD 0 0#64 &&& xs.getD 1 0#64) s

/-- R182. -/
def execPor (_e : Scope) (a : BitVec 3) (b c : Pred) (s : State) : Out :=
  predLogic a [b, c] (fun xs => xs.getD 0 0#64 ||| xs.getD 1 0#64) s

/-- R182. -/
def execPxor (_e : Scope) (a : BitVec 3) (b c : Pred) (s : State) : Out :=
  predLogic a [b, c] (fun xs => xs.getD 0 0#64 ^^^ xs.getD 1 0#64) s

/-- R182. -/
def execPnot (_e : Scope) (a : BitVec 3) (b : Pred) (s : State) : Out := predLogic a [b] (fun xs => ~~~(xs.getD 0 0#64)) s

/-- R186: the uniform source is read as R151 states, then freed if marked. -/
def execVbcast (_e : Scope) (a : VDst) (b : RSrc) (s : State) : Out :=
  match s.cur with
  | none => .next s
  | some c =>
    let w := (c.src s b).extractLsb' 0 32
    laneOpU 0x14 .lane a [] [(b, 1)] (fun _ _ _ => w) s

/-- R187: the lowest element. -/
def execVfirst (_e : Scope) (a : BitVec 6) (b : VSrc) (s : State) : Out :=
  toUni a [.v b] (fun _ _ es _ => ((es.head?.map fun e => w0 e.xs).getD 0#32).zeroExtend 64) [] s

/-- R187: element s[C] of the unit, 0 when it is not in the active set or beyond the unit. -/
def execVlane (_e : Scope) (a : BitVec 6) (b : VSrc) (c : RSrc) (s : State) : Out :=
  toUni a [.v b] (fun s cu es _ =>
    let i := (cu.src s c).toNat
    if i < ecount s cu then ((es.find? fun e => e.i == i).map fun e => (w0 e.xs).zeroExtend 64).getD 0#64 else 0#64) [(c, 1)] s

/-- R188: each group's own mask. -/
def execVvote (_e : Scope) (a : BitVec 6) (b : Pred) (s : State) : Out :=
  toUni a [] (fun s cu _ g => ((s.grp? cu.blk g).map fun G => G.pred b &&& tgetD cu.act g 0#64).getD 0#64) [] s

/-- R189. -/
def execVshflB32 (_e : Scope) (a : VDst) (b c : VSrc) (s : State) : Out :=
  crossOp 0x16 a [.v b, .v c] (fun n es e =>
    ((es.find? fun x => x.i == (w1 e.xs).toNat % n).map fun x => w0 x.xs).getD 0#32) s

/-- R190. -/
def execVrsumB32 (_e : Scope) (a : VDst) (b : VSrc) (s : State) : Out := reduceOp 0x16 a b (foldElems (· + ·)) s

/-- R190. -/
def execVrminS32 (_e : Scope) (a : VDst) (b : VSrc) (s : State) : Out := reduceOp 0x16 a b (foldElems minS) s

/-- R190. -/
def execVrminN32 (_e : Scope) (a : VDst) (b : VSrc) (s : State) : Out := reduceOp 0x16 a b (foldElems minN) s

/-- R190. -/
def execVrmaxS32 (_e : Scope) (a : VDst) (b : VSrc) (s : State) : Out := reduceOp 0x16 a b (foldElems maxS) s

/-- R190. -/
def execVrmaxN32 (_e : Scope) (a : VDst) (b : VSrc) (s : State) : Out := reduceOp 0x16 a b (foldElems maxN) s

/-- R190: the sum over the elements up to each. -/
def execVscanB32 (_e : Scope) (a : VDst) (b : VSrc) (s : State) : Out :=
  crossOp 0x16 a [.v b] (fun _ es e => foldElems (· + ·) (es.filter fun x => x.i ≤ e.i)) s

/-- R181: rotl. -/
def execVrotlB32 (_e : Scope) (a : VDst) (b c : VSrc) (s : State) : Out :=
  laneOp 0x14 a [.v b, .v c] (fun _ _ xs => rotl (w0 xs) (w1 xs)) s

end Sys2Proof.Machine
end

