-- ==== Sys2Proof/Machine/Vflt.lean ====
section
/-!
DEFINITION. The floating-point, packed and CF32 instructions (Table 17.1; R236 to R245), with deferral (R246).
-/

namespace Sys2Proof.Machine

/-- Deferral (R246): exactly one operand is pending, in the load's own state or with one or two recorded operations. -/
def compF (op : FOp) (t : Ty) (m : Rnd) (cells : List VCell) : Option VCell :=
  let pend := (cells.mapIdx fun k c => (k, c)).filter fun (_, c) => match c with | .val _ => false | _ => true
  match pend with
  | [] => some (.val (applyF op t m (cells.map VCell.word)))
  | [(k, c)] =>
    let d : DOp := { op, ty := t, m, hole := k, known := (cells.eraseIdx k).map VCell.word }
    match c with
    | .aff σ a b => if a = 1#32 ∧ b = 0#32 then some (.dfr σ [d]) else none
    | .dfr σ ops => if ops.length ≤ 2 then some (.dfr σ (ops ++ [d])) else none
    | .val _ => none
  | _ => none

/-- An arithmetic instruction of Table 17.3, or one that R246 lists beside them. -/
def arithF (cls : Nat) (op : FOp) (t : Ty) (m : Rnd) (d : VDst) (ops : List Opd) (s : State) : Out :=
  compOp cls d ops (compF op t m) (applyF op t m) s

/-- Fcvt (R240). -/
def fcvtW (t st : Ty) (m : Rnd) (i j : Nat) (d x : Word) : Word :=
  let v := if st.width < 32 then elemOf x st.width i else x.toNat
  let y := convert t st m v
  if j = 0 then placeScalar t y else putElem d t.width (j - 1) y

/-- The n packed elements of a word as exact values. -/
def packed (t : Ty) (n : Nat) (w : Word) : List XR := (List.range n).map fun i => elemVal t (elemOf w t.width i)

/-- One operation on both 16-bit elements (R243). -/
def half2 (op : FOp) (t : Ty) (m : Rnd) (xs : List Word) : Word :=
  let lo := applyF op t m (xs.map fun (w : Word) => w &&& 0xFFFF#32)
  let hi := applyF op t m (xs.map fun (w : Word) => w >>> 16)
  lo ||| (hi <<< 16)

/-! ### The fixed tree of a reduction (R94) -/

/-- One level: nodes 2i and 2i + 1 combined; an absent node gives the other. -/
def treeLevel {α : Type} (f : α → α → α) : List (Option α) → List (Option α)
  | some x :: some y :: r => some (f x y) :: treeLevel f r
  | some x :: none :: r => some x :: treeLevel f r
  | none :: y :: r => y :: treeLevel f r
  | [x] => [x]
  | [] => []

/-- The root after enough levels: at most 2,048 leaves. -/
def treeRoot {α : Type} (f : α → α → α) : Nat → List (Option α) → Option α
  | 0, l => l.head?.join
  | n + 1, l => treeRoot f n (treeLevel f l)

/-- The leaves of the unit: leaf i is element i's operand, absent when it is not active. -/
def leaves {α : Type} (n : Nat) (es : List (Nat × α)) : List (Option α) :=
  (List.range n).map fun i => (es.find? fun e => e.1 == i).map (·.2)

/-- Min and max selectors ignore MODE (R235, R244). -/
def fredOp (op : BitVec 2) (m : Rnd) (x y : Word) : Word :=
  if op == 0#2 then fadd32 m x y else BitVec.ofNat 32 (minmaxF fp32 (op == 2#2) x.toNat y.toNat)

/-! ### Meanings -/

/-- R237. -/
def execFadd (_e : Scope) (a : VDst) (b c : VSrc) (s : State) : Out :=
  arithF 0x18 .add .f32 .rn a [.v b, .v c] s

/-- R237, R238. -/
def execFaddX (_e : Scope) (ty : Ty) (m : Rnd) (a : VDst) (b c : VSrc) (s : State) : Out :=
  arithF 0x18 .add ty m a [.v b, .v c] s

/-- R237. -/
def execFsub (_e : Scope) (a : VDst) (b c : VSrc) (s : State) : Out :=
  arithF 0x18 .sub .f32 .rn a [.v b, .v c] s

/-- R237, R238. -/
def execFsubX (_e : Scope) (ty : Ty) (m : Rnd) (a : VDst) (b c : VSrc) (s : State) : Out :=
  arithF 0x18 .sub ty m a [.v b, .v c] s

/-- R237. -/
def execFmul (_e : Scope) (a : VDst) (b c : VSrc) (s : State) : Out :=
  arithF 0x18 .mul .f32 .rn a [.v b, .v c] s

/-- R237, R238. -/
def execFmulX (_e : Scope) (ty : Ty) (m : Rnd) (a : VDst) (b c : VSrc) (s : State) : Out :=
  arithF 0x18 .mul ty m a [.v b, .v c] s

/-- R237: A is the addend. -/
def execFfma (_e : Scope) (a : BitVec 6) (b c : VSrc) (s : State) : Out :=
  arithF 0x19 .fma .f32 .rn (.reg a) [.v b, .v c, .old a 1] s

/-- R237, R238: D is the addend. -/
def execFfmaX (_e : Scope) (ty : Ty) (m : Rnd) (a : VDst) (b c d : VSrc) (s : State) : Out :=
  arithF 0x19 .fma ty m a [.v b, .v c, .v d] s

/-- R237. -/
def execFdiv (_e : Scope) (a : VDst) (b c : VSrc) (s : State) : Out :=
  arithF 0x1A .div .f32 .rn a [.v b, .v c] s

/-- R237, R238. -/
def execFdivX (_e : Scope) (ty : Ty) (m : Rnd) (a : VDst) (b c : VSrc) (s : State) : Out :=
  arithF 0x1A .div ty m a [.v b, .v c] s

/-- R237. -/
def execFsqrt (_e : Scope) (a : VDst) (b : VSrc) (s : State) : Out :=
  arithF 0x1A .sqrt .f32 .rn a [.v b] s

/-- R237, R238. -/
def execFsqrtX (_e : Scope) (ty : Ty) (m : Rnd) (a : VDst) (b : VSrc) (s : State) : Out :=
  arithF 0x1A .sqrt ty m a [.v b] s

/-- R239, R82. -/
def execFmin (_e : Scope) (a : VDst) (b c : VSrc) (s : State) : Out :=
  arithF 0x18 .min .f32 .rn a [.v b, .v c] s

/-- R239, R82. -/
def execFmax (_e : Scope) (a : VDst) (b c : VSrc) (s : State) : Out :=
  arithF 0x18 .max .f32 .rn a [.v b, .v c] s

/-- R239. -/
def execFabs (_e : Scope) (a : VDst) (b : VSrc) (s : State) : Out :=
  arithF 0x18 .abs .f32 .rn a [.v b] s

/-- R239. -/
def execFneg (_e : Scope) (a : VDst) (b : VSrc) (s : State) : Out :=
  arithF 0x18 .neg .f32 .rn a [.v b] s

/-- R239. -/
def execFceq (_e : Scope) (a : BitVec 3) (b c : VSrc) (s : State) : Out :=
  fcmp .eq a b c s

/-- R239. -/
def execFclt (_e : Scope) (a : BitVec 3) (b c : VSrc) (s : State) : Out :=
  fcmp .lt a b c s

/-- R239. -/
def execFcle (_e : Scope) (a : BitVec 3) (b c : VSrc) (s : State) : Out :=
  fcmp .le a b c s

/-- R239. -/
def execFcun (_e : Scope) (a : BitVec 3) (b c : VSrc) (s : State) : Out :=
  fcmp .un a b c s

/-- R240: A is read and written when j is not 0. -/
def execFcvt (_e : Scope) (ty st : Ty) (m : Rnd) (a : VDst) (b : VSrc) (i j : BitVec 8) (s : State) : Out :=
  match a, j == 0#8 with
  | .reg r, false => laneOp 0x18 a [.old r 1, .v b] (fun _ _ xs => fcvtW ty st m i.toNat j.toNat (w0 xs) (w1 xs)) s
  | _, _ => laneOp 0x18 a [.v b] (fun _ _ xs => fcvtW ty st m i.toNat 0 0#32 (w0 xs)) s

/-- R241. -/
def execFscl (_e : Scope) (a : VDst) (b c : VSrc) (s : State) : Out :=
  arithF 0x18 .scl .f32 .rn a [.v b, .v c] s

/-- R241. -/
def execFsclX (_e : Scope) (m : Rnd) (a : VDst) (b c : VSrc) (s : State) : Out :=
  arithF 0x18 .scl .f32 m a [.v b, .v c] s

/-- R242. -/
def execPdot4 (_e : Scope) (ty st : Ty) (m : Rnd) (a : VDst) (b c d : VSrc) (s : State) : Out :=
  laneOp 0x1B a [.v b, .v c, .v d] (fun _ _ xs =>
    dotRound (packed ty 4 (w0 xs)) (packed st 4 (w1 xs)) (d32 (w2 xs)) m) s

/-- R242. -/
def execPdot8 (_e : Scope) (ty st : Ty) (m : Rnd) (a : VDst) (b c d : VSrc) (s : State) : Out :=
  laneOp 0x1B a [.v b, .v c, .v d] (fun _ _ xs =>
    dotRound (packed ty 8 (w0 xs)) (packed st 8 (w1 xs)) (d32 (w2 xs)) m) s

/-- R243. -/
def execHadd2 (_e : Scope) (ty : Ty) (m : Rnd) (a : VDst) (b c : VSrc) (s : State) : Out :=
  laneOp 0x1C a [.v b, .v c] (fun _ _ xs => half2 .add ty m xs) s

/-- R243. -/
def execHmul2 (_e : Scope) (ty : Ty) (m : Rnd) (a : VDst) (b c : VSrc) (s : State) : Out :=
  laneOp 0x1C a [.v b, .v c] (fun _ _ xs => half2 .mul ty m xs) s

/-- R243. -/
def execHfma2 (_e : Scope) (ty : Ty) (m : Rnd) (a : VDst) (b c d : VSrc) (s : State) : Out :=
  laneOp 0x1C a [.v b, .v c, .v d] (fun _ _ xs => half2 .fma ty m xs) s

/-- R244. -/
def execFred (_e : Scope) (m : Rnd) (a : VDst) (b : VSrc) (op : BitVec 2) (s : State) : Out :=
  reduceOp 0x16 a b (fun es =>
    let n := (es.foldl (fun k e => max k e.i) 0) + 1
    ((treeRoot (fredOp op m) 11 (leaves n (es.map fun e => (e.i, w0 e.xs))))).getD 0#32) s

/-- R245, R92: CfAdd. -/
def execCfadd (_e : Scope) (a : BitVec 6) (b : RSrc) (c : VSrc) (s : State) : Out :=
  laneOpK 0x1D a 2 [.r b 2, .v c] (fun _ _ xs => let r := cfAdd ⟨w0 xs, w1 xs⟩ (w2 xs); [r.s, r.c]) s

/-- R245, R94: CfMerge in the fixed tree. -/
def execCfred (_e : Scope) (a : BitVec 6) (b : RSrc) (s : State) : Out :=
  match s.cur with
  | none => .next s
  | some c =>
    if c.empty then .next (retire s)
    else match ready? s c [.r b 2] (.r a 2) false with
      | some o => o
      | none =>
        let es := elemsOf s c [.r b 2]
        let n := (es.foldl (fun k e => max k e.i) 0) + 1
        let r := (treeRoot cfMerge 11 (leaves n (es.map fun e => (e.i, CF.mk (w0 e.xs) (w1 e.xs))))).getD ⟨0#32, 0#32⟩
        let res := c.live.map fun g => (g, (es.filter fun e => e.g == g).map fun e => (e.l, [r.s, r.c]))
        done 0x16 .lane (writeRegs (consume s c [.r b 2]) c.blk a 2 res)

/-- R245: CfValue under `.rn`. -/
def execCfnorm (_e : Scope) (a : VDst) (b c : VSrc) (s : State) : Out :=
  laneOp 0x1D a [.v b, .v c] (fun _ _ xs => cfValue ⟨w0 xs, w1 xs⟩ .rn) s

/-- R245: S + C rounded once into TYPE. -/
def execCfnormX (_e : Scope) (ty : Ty) (m : Rnd) (a : VDst) (b c : VSrc) (s : State) : Out :=
  laneOp 0x1D a [.v b, .v c] (fun _ _ xs => BitVec.ofNat 32 (cfRound (fmtOf ty) m ⟨w0 xs, w1 xs⟩)) s

end Sys2Proof.Machine
end

