-- ==== Sys2Proof/Machine/Dispatch.lean ====
section
/-! DEFINITION. The meaning of every instruction: one arm a constructor, each a direct call of its meaning. -/

namespace Sys2Proof.Machine

def exec (i : Instr) (s : State) : Host.Outcome State Fault Refusal :=
  match i with
  | .nop e => Sys2Proof.Machine.execNop e s
  | .jmp t => Sys2Proof.Machine.execJmp t s
  | .bra p t => Sys2Proof.Machine.execBra p t s
  | .bru q t => Sys2Proof.Machine.execBru q t s
  | .jmpc a => Sys2Proof.Machine.execJmpc a s
  | .call a t => Sys2Proof.Machine.execCall a t s
  | .callc a b => Sys2Proof.Machine.execCallc a b s
  | .ret a => Sys2Proof.Machine.execRet a s
  | .exit => Sys2Proof.Machine.execExit s
  | .bar e => Sys2Proof.Machine.execBar e s
  | .bara e k n => Sys2Proof.Machine.execBara e k n s
  | .barw e k => Sys2Proof.Machine.execBarw e k s
  | .gbar => Sys2Proof.Machine.execGbar s
  | .grdbar => Sys2Proof.Machine.execGrdbar s
  | .sstepCluster => Sys2Proof.Machine.execSstepCluster s
  | .sstepDie => Sys2Proof.Machine.execSstepDie s
  | .fork a b => Sys2Proof.Machine.execFork a b s
  | .wait e lim => Sys2Proof.Machine.execWait e lim s
  | .yield => Sys2Proof.Machine.execYield s
  | .trap e code => Sys2Proof.Machine.execTrap e code s
  | .loop a t => Sys2Proof.Machine.execLoop a t s
  | .hint o e a b c => Sys2Proof.Machine.execHint o e a b c s
  | .rdsr e a r hi => Sys2Proof.Machine.execRdsr e a r hi s
  | .rdsu e a r hi => Sys2Proof.Machine.execRdsu e a r hi s
  | .opreq e a n => Sys2Proof.Machine.execOpreq e a n s
  | .mtrq e a b => Sys2Proof.Machine.execMtrq e a b s
  | .msamp e a c => Sys2Proof.Machine.execMsamp e a c s
  | .rpush e label => Sys2Proof.Machine.execRpush e label s
  | .rpop e => Sys2Proof.Machine.execRpop e s
  | .trmark e v => Sys2Proof.Machine.execTrmark e v s
  | .bkpt e n => Sys2Proof.Machine.execBkpt e n s
  | .chkpt e => Sys2Proof.Machine.execChkpt e s
  | .dbgstop e => Sys2Proof.Machine.execDbgstop e s
  | .trctlStart e => Sys2Proof.Machine.execTrctlStart e s
  | .trctlStop e => Sys2Proof.Machine.execTrctlStop e s
  | .trctlFreeze e => Sys2Proof.Machine.execTrctlFreeze e s
  | .trctlThaw e => Sys2Proof.Machine.execTrctlThaw e s
  | .plwr a b c => Sys2Proof.Machine.execPlwr a b c s
  | .qtwr a b c => Sys2Proof.Machine.execQtwr a b c s
  | .limwr a b c => Sys2Proof.Machine.execLimwr a b c s
  | .wtwr a b c => Sys2Proof.Machine.execWtwr a b c s
  | .srwr e v hi a => Sys2Proof.Machine.execSrwr e v hi a s
  | .saddB64 e a b c => Sys2Proof.Machine.execSaddB64 e a b c s
  | .ssubB64 e a b c => Sys2Proof.Machine.execSsubB64 e a b c s
  | .smulB64 e a b c => Sys2Proof.Machine.execSmulB64 e a b c s
  | .smulhS64 e a b c => Sys2Proof.Machine.execSmulhS64 e a b c s
  | .smulhN64 e a b c => Sys2Proof.Machine.execSmulhN64 e a b c s
  | .saddiB64 e a ix => Sys2Proof.Machine.execSaddiB64 e a ix s
  | .smoviB64 e a ix => Sys2Proof.Machine.execSmoviB64 e a ix s
  | .smovlB64 e a sel lit => Sys2Proof.Machine.execSmovlB64 e a sel lit s
  | .sandB64 e a b c => Sys2Proof.Machine.execSandB64 e a b c s
  | .sorB64 e a b c => Sys2Proof.Machine.execSorB64 e a b c s
  | .sxorB64 e a b c => Sys2Proof.Machine.execSxorB64 e a b c s
  | .snotB64 e a b => Sys2Proof.Machine.execSnotB64 e a b s
  | .sshlB64 e a b c => Sys2Proof.Machine.execSshlB64 e a b c s
  | .sshrN64 e a b c => Sys2Proof.Machine.execSshrN64 e a b c s
  | .sshrS64 e a b c => Sys2Proof.Machine.execSshrS64 e a b c s
  | .smovB64 e a b => Sys2Proof.Machine.execSmovB64 e a b s
  | .sminS64 e a b c => Sys2Proof.Machine.execSminS64 e a b c s
  | .sminN64 e a b c => Sys2Proof.Machine.execSminN64 e a b c s
  | .smaxS64 e a b c => Sys2Proof.Machine.execSmaxS64 e a b c s
  | .smaxN64 e a b c => Sys2Proof.Machine.execSmaxN64 e a b c s
  | .sclzB64 e a b => Sys2Proof.Machine.execSclzB64 e a b s
  | .spopcB64 e a b => Sys2Proof.Machine.execSpopcB64 e a b s
  | .sextS32 e a b => Sys2Proof.Machine.execSextS32 e a b s
  | .sextN32 e a b => Sys2Proof.Machine.execSextN32 e a b s
  | .sceqB64 e a b c => Sys2Proof.Machine.execSceqB64 e a b c s
  | .scneB64 e a b c => Sys2Proof.Machine.execScneB64 e a b c s
  | .scltS64 e a b c => Sys2Proof.Machine.execScltS64 e a b c s
  | .scltN64 e a b c => Sys2Proof.Machine.execScltN64 e a b c s
  | .scleS64 e a b c => Sys2Proof.Machine.execScleS64 e a b c s
  | .scleN64 e a b c => Sys2Proof.Machine.execScleN64 e a b c s
  | .sselB64 e a b c d => Sys2Proof.Machine.execSselB64 e a b c d s
  | .qand e a b c => Sys2Proof.Machine.execQand e a b c s
  | .qor e a b c => Sys2Proof.Machine.execQor e a b c s
  | .qxor e a b c => Sys2Proof.Machine.execQxor e a b c s
  | .qnot e a b => Sys2Proof.Machine.execQnot e a b s
  | .vaddB32 e a b c => Sys2Proof.Machine.execVaddB32 e a b c s
  | .vsubB32 e a b c => Sys2Proof.Machine.execVsubB32 e a b c s
  | .vmulB32 e a b c => Sys2Proof.Machine.execVmulB32 e a b c s
  | .vmulhS32 e a b c => Sys2Proof.Machine.execVmulhS32 e a b c s
  | .vmulhN32 e a b c => Sys2Proof.Machine.execVmulhN32 e a b c s
  | .vaddiB32 e a ix => Sys2Proof.Machine.execVaddiB32 e a ix s
  | .vmoviB32 e a ix => Sys2Proof.Machine.execVmoviB32 e a ix s
  | .vmovlB32 e a lit => Sys2Proof.Machine.execVmovlB32 e a lit s
  | .vaddsS32 e a b c => Sys2Proof.Machine.execVaddsS32 e a b c s
  | .vaddsN32 e a b c => Sys2Proof.Machine.execVaddsN32 e a b c s
  | .vsubsS32 e a b c => Sys2Proof.Machine.execVsubsS32 e a b c s
  | .vsubsN32 e a b c => Sys2Proof.Machine.execVsubsN32 e a b c s
  | .vminS32 e a b c => Sys2Proof.Machine.execVminS32 e a b c s
  | .vminN32 e a b c => Sys2Proof.Machine.execVminN32 e a b c s
  | .vmaxS32 e a b c => Sys2Proof.Machine.execVmaxS32 e a b c s
  | .vmaxN32 e a b c => Sys2Proof.Machine.execVmaxN32 e a b c s
  | .vandB32 e a b c => Sys2Proof.Machine.execVandB32 e a b c s
  | .vorB32 e a b c => Sys2Proof.Machine.execVorB32 e a b c s
  | .vxorB32 e a b c => Sys2Proof.Machine.execVxorB32 e a b c s
  | .vnotB32 e a b => Sys2Proof.Machine.execVnotB32 e a b s
  | .vshlB32 e a b c => Sys2Proof.Machine.execVshlB32 e a b c s
  | .vshrN32 e a b c => Sys2Proof.Machine.execVshrN32 e a b c s
  | .vshrS32 e a b c => Sys2Proof.Machine.execVshrS32 e a b c s
  | .vmovB32 e a b => Sys2Proof.Machine.execVmovB32 e a b s
  | .vabsS32 e a b => Sys2Proof.Machine.execVabsS32 e a b s
  | .vnegS32 e a b => Sys2Proof.Machine.execVnegS32 e a b s
  | .vpopcB32 e a b => Sys2Proof.Machine.execVpopcB32 e a b s
  | .vclzB32 e a b => Sys2Proof.Machine.execVclzB32 e a b s
  | .vbrevB32 e a b => Sys2Proof.Machine.execVbrevB32 e a b s
  | .vbfxN32 e a b c len => Sys2Proof.Machine.execVbfxN32 e a b c len s
  | .vbfxS32 e a b c len => Sys2Proof.Machine.execVbfxS32 e a b c len s
  | .vbfiB32 e a b c len => Sys2Proof.Machine.execVbfiB32 e a b c len s
  | .vceqB32 e a b c => Sys2Proof.Machine.execVceqB32 e a b c s
  | .vcneB32 e a b c => Sys2Proof.Machine.execVcneB32 e a b c s
  | .vcltS32 e a b c => Sys2Proof.Machine.execVcltS32 e a b c s
  | .vcltN32 e a b c => Sys2Proof.Machine.execVcltN32 e a b c s
  | .vcleS32 e a b c => Sys2Proof.Machine.execVcleS32 e a b c s
  | .vcleN32 e a b c => Sys2Proof.Machine.execVcleN32 e a b c s
  | .vselB32 e a b c d => Sys2Proof.Machine.execVselB32 e a b c d s
  | .vext e ty st a b ix => Sys2Proof.Machine.execVext e ty st a b ix s
  | .pand e a b c => Sys2Proof.Machine.execPand e a b c s
  | .por e a b c => Sys2Proof.Machine.execPor e a b c s
  | .pxor e a b c => Sys2Proof.Machine.execPxor e a b c s
  | .pnot e a b => Sys2Proof.Machine.execPnot e a b s
  | .vbcast e a b => Sys2Proof.Machine.execVbcast e a b s
  | .vfirst e a b => Sys2Proof.Machine.execVfirst e a b s
  | .vlane e a b c => Sys2Proof.Machine.execVlane e a b c s
  | .vvote e a b => Sys2Proof.Machine.execVvote e a b s
  | .vshflB32 e a b c => Sys2Proof.Machine.execVshflB32 e a b c s
  | .vrsumB32 e a b => Sys2Proof.Machine.execVrsumB32 e a b s
  | .vrminS32 e a b => Sys2Proof.Machine.execVrminS32 e a b s
  | .vrminN32 e a b => Sys2Proof.Machine.execVrminN32 e a b s
  | .vrmaxS32 e a b => Sys2Proof.Machine.execVrmaxS32 e a b s
  | .vrmaxN32 e a b => Sys2Proof.Machine.execVrmaxN32 e a b s
  | .vscanB32 e a b => Sys2Proof.Machine.execVscanB32 e a b s
  | .vrotlB32 e a b c => Sys2Proof.Machine.execVrotlB32 e a b c s
  | .fadd e a b c => Sys2Proof.Machine.execFadd e a b c s
  | .faddX e ty m a b c => Sys2Proof.Machine.execFaddX e ty m a b c s
  | .fsub e a b c => Sys2Proof.Machine.execFsub e a b c s
  | .fsubX e ty m a b c => Sys2Proof.Machine.execFsubX e ty m a b c s
  | .fmul e a b c => Sys2Proof.Machine.execFmul e a b c s
  | .fmulX e ty m a b c => Sys2Proof.Machine.execFmulX e ty m a b c s
  | .ffma e a b c => Sys2Proof.Machine.execFfma e a b c s
  | .ffmaX e ty m a b c d => Sys2Proof.Machine.execFfmaX e ty m a b c d s
  | .fdiv e a b c => Sys2Proof.Machine.execFdiv e a b c s
  | .fdivX e ty m a b c => Sys2Proof.Machine.execFdivX e ty m a b c s
  | .fsqrt e a b => Sys2Proof.Machine.execFsqrt e a b s
  | .fsqrtX e ty m a b => Sys2Proof.Machine.execFsqrtX e ty m a b s
  | .fmin e a b c => Sys2Proof.Machine.execFmin e a b c s
  | .fmax e a b c => Sys2Proof.Machine.execFmax e a b c s
  | .fabs e a b => Sys2Proof.Machine.execFabs e a b s
  | .fneg e a b => Sys2Proof.Machine.execFneg e a b s
  | .fceq e a b c => Sys2Proof.Machine.execFceq e a b c s
  | .fclt e a b c => Sys2Proof.Machine.execFclt e a b c s
  | .fcle e a b c => Sys2Proof.Machine.execFcle e a b c s
  | .fcun e a b c => Sys2Proof.Machine.execFcun e a b c s
  | .fcvt e ty st m a b ix j => Sys2Proof.Machine.execFcvt e ty st m a b ix j s
  | .fscl e a b c => Sys2Proof.Machine.execFscl e a b c s
  | .fsclX e m a b c => Sys2Proof.Machine.execFsclX e m a b c s
  | .pdot4 e ty st m a b c d => Sys2Proof.Machine.execPdot4 e ty st m a b c d s
  | .pdot8 e ty st m a b c d => Sys2Proof.Machine.execPdot8 e ty st m a b c d s
  | .hadd2 e ty m a b c => Sys2Proof.Machine.execHadd2 e ty m a b c s
  | .hmul2 e ty m a b c => Sys2Proof.Machine.execHmul2 e ty m a b c s
  | .hfma2 e ty m a b c d => Sys2Proof.Machine.execHfma2 e ty m a b c d s
  | .fred e m a b op => Sys2Proof.Machine.execFred e m a b op s
  | .cfadd e a b c => Sys2Proof.Machine.execCfadd e a b c s
  | .cfred e a b => Sys2Proof.Machine.execCfred e a b s
  | .cfnorm e a b c => Sys2Proof.Machine.execCfnorm e a b c s
  | .cfnormX e ty m a b c => Sys2Proof.Machine.execCfnormX e ty m a b c s
  | .ldS8 e a b c => Sys2Proof.Machine.execLdS8 e a b c s
  | .ldN8 e a b c => Sys2Proof.Machine.execLdN8 e a b c s
  | .ldS16 e a b c => Sys2Proof.Machine.execLdS16 e a b c s
  | .ldN16 e a b c => Sys2Proof.Machine.execLdN16 e a b c s
  | .ldB32 e a b c => Sys2Proof.Machine.execLdB32 e a b c s
  | .ldB64 e a b c => Sys2Proof.Machine.execLdB64 e a b c s
  | .ldB128 e a b c => Sys2Proof.Machine.execLdB128 e a b c s
  | .ldc e a b c => Sys2Proof.Machine.execLdc e a b c s
  | .stB8 e a b c => Sys2Proof.Machine.execStB8 e a b c s
  | .stB16 e a b c => Sys2Proof.Machine.execStB16 e a b c s
  | .stB32 e a b c => Sys2Proof.Machine.execStB32 e a b c s
  | .stB64 e a b c => Sys2Proof.Machine.execStB64 e a b c s
  | .stB128 e a b c => Sys2Proof.Machine.execStB128 e a b c s
  | .stc e a b c => Sys2Proof.Machine.execStc e a b c s
  | .wldB32 e a b c => Sys2Proof.Machine.execWldB32 e a b c s
  | .wldB128 e a b c => Sys2Proof.Machine.execWldB128 e a b c s
  | .ldsB32 e a b => Sys2Proof.Machine.execLdsB32 e a b s
  | .ldsB64 e a b => Sys2Proof.Machine.execLdsB64 e a b s
  | .ldsB128 e a b => Sys2Proof.Machine.execLdsB128 e a b s
  | .stsB32 e a b => Sys2Proof.Machine.execStsB32 e a b s
  | .stsB64 e a b => Sys2Proof.Machine.execStsB64 e a b s
  | .stsB128 e a b => Sys2Proof.Machine.execStsB128 e a b s
  | .put e a b c => Sys2Proof.Machine.execPut e a b c s
  | .get e a b c => Sys2Proof.Machine.execGet e a b c s
  | .aadd e ty o a b c d => Sys2Proof.Machine.execAadd e ty o a b c d s
  | .amin e ty o a b c d => Sys2Proof.Machine.execAmin e ty o a b c d s
  | .amax e ty o a b c d => Sys2Proof.Machine.execAmax e ty o a b c d s
  | .aand e ty o a b c d => Sys2Proof.Machine.execAand e ty o a b c d s
  | .aor e ty o a b c d => Sys2Proof.Machine.execAor e ty o a b c d s
  | .axor e ty o a b c d => Sys2Proof.Machine.execAxor e ty o a b c d s
  | .axchg e ty o a b c d => Sys2Proof.Machine.execAxchg e ty o a b c d s
  | .acas e ty o a b c d => Sys2Proof.Machine.execAcas e ty o a b c d s
  | .acquire e => Sys2Proof.Machine.execAcquire e s
  | .release e => Sys2Proof.Machine.execRelease e s
  | .fence e => Sys2Proof.Machine.execFence e s
  | .cbnd e a b c => Sys2Proof.Machine.execCbnd e a b c s
  | .cperm e a ix => Sys2Proof.Machine.execCperm e a ix s
  | .cadd e a b c => Sys2Proof.Machine.execCadd e a b c s
  | .cset e a b c => Sys2Proof.Machine.execCset e a b c s
  | .cseal e a b c => Sys2Proof.Machine.execCseal e a b c s
  | .cmov e a b => Sys2Proof.Machine.execCmov e a b s
  | .cget e a b sel => Sys2Proof.Machine.execCget e a b sel s
  | .ctag e a b c => Sys2Proof.Machine.execCtag e a b c s
  | .cbcast e a b => Sys2Proof.Machine.execCbcast e a b s
  | .chbind e ch b c => Sys2Proof.Machine.execChbind e ch b c s
  | .chfree e a ch => Sys2Proof.Machine.execChfree e a ch s
  | .chstat e a ch => Sys2Proof.Machine.execChstat e a ch s
  | .spanq e a b c => Sys2Proof.Machine.execSpanq e a b c s
  | .cpy e a b c d => Sys2Proof.Machine.execCpy e a b c d s
  | .cpysIn e a b c d => Sys2Proof.Machine.execCpysIn e a b c d s
  | .cpysOut e a b c d => Sys2Proof.Machine.execCpysOut e a b c d s
  | .mcast e a b c d => Sys2Proof.Machine.execMcast e a b c d s
  | .cpyq e a b => Sys2Proof.Machine.execCpyq e a b s
  | .oclaim e a b => Sys2Proof.Machine.execOclaim e a b s
  | .orel e a b => Sys2Proof.Machine.execOrel e a b s
  | .oload e o b c src => Sys2Proof.Machine.execOload e o b c src s
  | .mfence e => Sys2Proof.Machine.execMfence e s
  | .mpair e ty st a b place acc => Sys2Proof.Machine.execMpair e ty st a b place acc s
  | .accrd e ty m v tile c => Sys2Proof.Machine.execAccrd e ty m v tile c s
  | .accwr e ty tile v c => Sys2Proof.Machine.execAccwr e ty tile v c s
  | .accclr e tile ver => Sys2Proof.Machine.execAccclr e tile ver s
  | .accwt e tile ver => Sys2Proof.Machine.execAccwt e tile ver s
  | .accver e a tile => Sys2Proof.Machine.execAccver e a tile s
  | .sclwSet e m b => Sys2Proof.Machine.execSclwSet e m b s
  | .sclwAdd e m b => Sys2Proof.Machine.execSclwAdd e m b s
  | .sclr e a m => Sys2Proof.Machine.execSclr e a m s
  | .clauseIssue core => Sys2Proof.Machine.execClauseIssue core s
  | .rcvHoldTimeout g => Sys2Proof.Machine.execRcvHoldTimeout g s
  | .timingErrorReplay r => Sys2Proof.Machine.execTimingErrorReplay r s
  | .blockExit b => Sys2Proof.Machine.execBlockExit b s
  | .childGridComplete grid => Sys2Proof.Machine.execChildGridComplete grid s
  | .memoryRequest op lane cached => Sys2Proof.Machine.execMemoryRequest op lane cached s
  | .storeRegister op lane => Sys2Proof.Machine.execStoreRegister op lane s
  | .lossNotice core word => Sys2Proof.Machine.execLossNotice core word s
  | .atomicPerform op word => Sys2Proof.Machine.execAtomicPerform op word s
  | .loadArrival op k => Sys2Proof.Machine.execLoadArrival op k s
  | .wcDrainTimeout core line => Sys2Proof.Machine.execWcDrainTimeout core line s
  | .refreshWindowStart => Sys2Proof.Machine.execRefreshWindowStart s
  | .refreshWindowEnd => Sys2Proof.Machine.execRefreshWindowEnd s
  | .windowTransferComplete op lane => Sys2Proof.Machine.execWindowTransferComplete op lane s
  | .copyPart op lane part cached => Sys2Proof.Machine.execCopyPart op lane part cached s
  | .copyComplete op lane => Sys2Proof.Machine.execCopyComplete op lane s
  | .oloadComplete op => Sys2Proof.Machine.execOloadComplete op s
  | .tileOpStart core => Sys2Proof.Machine.execTileOpStart core s
  | .mpairRetire op => Sys2Proof.Machine.execMpairRetire op s
  | .tileOpComplete op => Sys2Proof.Machine.execTileOpComplete op s
  | .barComplete g => Sys2Proof.Machine.execBarComplete g s
  | .gangBarrierArrival b => Sys2Proof.Machine.execGangBarrierArrival b s
  | .sstepArrival b => Sys2Proof.Machine.execSstepArrival b s
  | .spanMoveComplete span data tags => Sys2Proof.Machine.execSpanMoveComplete span data tags s
  | .settleExpiry span => Sys2Proof.Machine.execSettleExpiry span s
  | .revokeProceed rev => Sys2Proof.Machine.execRevokeProceed rev s
  | .revocationPoint rev => Sys2Proof.Machine.execRevocationPoint rev s
  | .sweepRegisterScan g => Sys2Proof.Machine.execSweepRegisterScan g s
  | .sweepComplete pasid => Sys2Proof.Machine.execSweepComplete pasid s
  | .invalidationComplete inv => Sys2Proof.Machine.execInvalidationComplete inv s
  | .frameScrub frame => Sys2Proof.Machine.execFrameScrub frame s
  | .worldEndComplete world => Sys2Proof.Machine.execWorldEndComplete world s
  | .keyretComplete world => Sys2Proof.Machine.execKeyretComplete world s
  | .pmlimApply core => Sys2Proof.Machine.execPmlimApply core s
  | .wscopyProceed id => Sys2Proof.Machine.execWscopyProceed id s
  | .launchRecord iface rec => Sys2Proof.Machine.execLaunchRecord iface rec s
  | .blockPlacement core => Sys2Proof.Machine.execBlockPlacement core s
  | .launchComplete pasid seq => Sys2Proof.Machine.execLaunchComplete pasid seq s
  | .sliceEnd die => Sys2Proof.Machine.execSliceEnd die s
  | .blockSave b => Sys2Proof.Machine.execBlockSave b s
  | .blockRestore b core => Sys2Proof.Machine.execBlockRestore b core s
  | .gangReady die => Sys2Proof.Machine.execGangReady die s
  | .gangDeadline die othersReady => Sys2Proof.Machine.execGangDeadline die othersReady s
  | .faultRecordPost => Sys2Proof.Machine.execFaultRecordPost s
  | .tick sensors => Sys2Proof.Machine.execTick sensors s
  | .marginRelax die => Sys2Proof.Machine.execMarginRelax die s
  | .powerCeilingExpiry die => Sys2Proof.Machine.execPowerCeilingExpiry die s
  | .dieRetire die => Sys2Proof.Machine.execDieRetire die s
  | .chargeReport => Sys2Proof.Machine.execChargeReport s
  | .stepChangeBegin die => Sys2Proof.Machine.execStepChangeBegin die s
  | .supplyRampEnd die => Sys2Proof.Machine.execSupplyRampEnd die s
  | .relockEnd die => Sys2Proof.Machine.execRelockEnd die s
  | .supplyLowerEnd die => Sys2Proof.Machine.execSupplyLowerEnd die s
  | .leaseGrant watts ms => Sys2Proof.Machine.execLeaseGrant watts ms s
  | .leaseExpiry => Sys2Proof.Machine.execLeaseExpiry s
  | .meterSample g => Sys2Proof.Machine.execMeterSample g s
  | .meterReadingWrite world => Sys2Proof.Machine.execMeterReadingWrite world s
  | .checkpoint b => Sys2Proof.Machine.execCheckpoint b s
  | .linkPacketReceive p => Sys2Proof.Machine.execLinkPacketReceive p s
  | .fabricPacketArrival p => Sys2Proof.Machine.execFabricPacketArrival p s
  | .completionTimeout q n => Sys2Proof.Machine.execCompletionTimeout q n s
  | .uncorrectableError place => Sys2Proof.Machine.execUncorrectableError place s
  | .linkCrcError link => Sys2Proof.Machine.execLinkCrcError link s
  | .coreRemap core => Sys2Proof.Machine.execCoreRemap core s
  | .boot run => Sys2Proof.Machine.execBoot run s
  | .sqt iface tail => Sys2Proof.Machine.execSqt iface tail s
  | .completionPost iface => Sys2Proof.Machine.execCompletionPost iface s
  | .cqh iface v => Sys2Proof.Machine.execCqh iface v s
  | .rh ring v => Sys2Proof.Machine.execRh ring v s
  | .trej fn => Sys2Proof.Machine.execTrej fn s
  | .latchedHalfRead fn off => Sys2Proof.Machine.execLatchedHalfRead fn off s
  | .registerWrite fn off v => Sys2Proof.Machine.execRegisterWrite fn off v s
  | .ctxnew q desc ifc => Sys2Proof.Machine.execCtxnew q desc ifc s
  | .ctxwr q iw wt rate capb => Sys2Proof.Machine.execCtxwr q iw wt rate capb s
  | .ctxend q pasid => Sys2Proof.Machine.execCtxend q pasid s
  | .revoke q obn => Sys2Proof.Machine.execRevoke q obn s
  | .invalObject q obn => Sys2Proof.Machine.execInvalObject q obn s
  | .invalSpan q obn span => Sys2Proof.Machine.execInvalSpan q obn span s
  | .invalStage2 q frame => Sys2Proof.Machine.execInvalStage2 q frame s
  | .retry q sub => Sys2Proof.Machine.execRetry q sub s
  | .dispose q sub word => Sys2Proof.Machine.execDispose q sub word s
  | .handler q code entry rootLo rootHi => Sys2Proof.Machine.execHandler q code entry rootLo rootHi s
  | .wscopy q obn off die woff len => Sys2Proof.Machine.execWscopy q obn off die woff len s
  | .partwr q die entry => Sys2Proof.Machine.execPartwr q die entry s
  | .vacate q die mask => Sys2Proof.Machine.execVacate q die mask s
  | .vacateReopen q die mask => Sys2Proof.Machine.execVacateReopen q die mask s
  | .keyrel q blob => Sys2Proof.Machine.execKeyrel q blob s
  | .keyret q world slot => Sys2Proof.Machine.execKeyret q world slot s
  | .dbgwr q desc => Sys2Proof.Machine.execDbgwr q desc s
  | .stopNow q => Sys2Proof.Machine.execStopNow q s
  | .stopAt q b ix n => Sys2Proof.Machine.execStopAt q b ix n s
  | .view q b ix n image => Sys2Proof.Machine.execView q b ix n image s
  | .resume q => Sys2Proof.Machine.execResume q s
  | .fncfg q fn ifcs s2 remap weight => Sys2Proof.Machine.execFncfg q fn ifcs s2 remap weight s
  | .worldnew q world p0 p1 p2 p3 => Sys2Proof.Machine.execWorldnew q world p0 p1 p2 p3 s
  | .worldend q world => Sys2Proof.Machine.execWorldend q world s
  | .qtrd q fn idx => Sys2Proof.Machine.execQtrd q fn idx s
  | .sidebandReadIdentity => Sys2Proof.Machine.execSidebandReadIdentity s
  | .sidebandReadTelemetry => Sys2Proof.Machine.execSidebandReadTelemetry s
  | .sidebandReadLogs => Sys2Proof.Machine.execSidebandReadLogs s
  | .sidebandLeaseFloor watts => Sys2Proof.Machine.execSidebandLeaseFloor watts s
  | .sidebandRetire die core wholeDie => Sys2Proof.Machine.execSidebandRetire die core wholeDie s
  | .sidebandReset => Sys2Proof.Machine.execSidebandReset s
  | .returnToService die step => Sys2Proof.Machine.execReturnToService die step s

end Sys2Proof.Machine
end

