-- ==== Sys2Proof/Machine/Run.lean ====
section
/-!
DEFINITION. One word of a clause in issue: the checks of R65, the rendezvous of wide scopes (R31 to R33), and the call
of the instruction's meaning.
-/

namespace Sys2Proof.Machine

/-- Control transfers, which must stand last in their clause (R64). -/
def transfers (e : Eng) (o : Nat) : Bool := e == .ctl && ((decide (1 ≤ o) && decide (o ≤ 8)) || o == 0x13)

/-- The checks of a word at issue, in the order of R65: its instruction and how many words it takes, or a fault code. `ws`
are the words from it on, `idx` its word index. -/
def checkWord (e : Eng) (ws : List Word) (idx : Nat) (super : Bool) : Except Nat (Instr × Nat) :=
  let o := opc (ws.headD 0#32)
  match decodeAt e ws with
  | .error .unassigned => .error Code.illegalOp
  | r =>
    if privileged e o && !super then .error Code.privOp
    else match r with
      | .error .unassigned | .error .scope | .error .form => .error Code.illegalOp
      | r =>
        if (transfers e o && decide (1 < ws.length)) || (e == .ctl && o == 0x10 && idx != 1) then .error Code.illegalOp
        else match r with
          | .error _ => .error Code.illegalOperand
          | .ok x => .ok x

/-- Run a word whose issuers are all at it: take its decoding fault, or call its meaning. -/
def runAt (s : State) (r : IRef) (rs : List IRef) (c : Clause) (eng : Eng) (e : Scope) : Out :=
  let pasid := ((tget? s.blocks r.blk).map (·.pasid)).getD 0
  match checkWord eng (c.words.drop c.off) c.idx (supervisor s pasid) with
  | .error code =>
    -- every lane of the issuer at lane scope (R65); the active set of a wide scope (R283)
    let cur := mkCur s r rs c eng e 1
    if e == .lane then faultAll code 0 { s with cur := some { cur with act := lanesBy s rs fun i => i.lanes } }
    else faultUnit code 0 { s with cur := some cur }
  | .ok (i, k) => exec i { s with cur := some (mkCur s r rs c eng e k) }

/-- Whether the words of a block's clauses in issue may issue: it runs, and the slice of its die has begun to (R279, R281), or its save
has begun and its clauses complete (R274, R290), but not past an accepted fork (R39), in a debug stop (R336), or while its die has no core cycle (R305). A view runs its
own block alone (R337). -/
def mayRun (s : State) (b : Nat) : Bool :=
  viewing s b ||
    match tget? s.blocks b with
    | none => false
    | some B =>
      let D := s.die (dieOf B.home)
      s.sandbox.isNone && ((B.phase == .resident && sliceRuns s (dieOf B.home) && !B.asSaved) || (B.phase == .saving && B.forkDst.isNone)) && !D.relocking s.reft &&
        ((tget? s.ctxs B.pasid).map (·.dbgStop)) == some false

/-- Run the next word of an issuer. At a wide scope the issuer arrives, and the word issues when every member that is not
excluded has, which closes the instance (R31, R32). An issuer whose group is suspended, or that is at a clause boundary, issues
nothing, and so does one whose group's turn another holds (R28). In a replayable block the turn must be the issuer's (R334). -/
def runWord (r : IRef) (s : State) : Out :=
  match s.grp? r.blk r.gidx, s.issuer? r with
  | some G, some i =>
    match i.cl with
    | none => .next s
    | some c =>
      match engOf (c.hdr.extractLsb' 4 3).toNat with
      | none => .next s
      | some eng =>
        if !G.susp.isEmpty || i.lanes == 0#64 || c.idx == 0 || !mayRun s r.blk || !inTurn s r ||
            !(replayable s r.blk || G.mayWord r.iss) then .next s
        else
          let s := if replayable s r.blk then takeTurn s r else s
          let e := wordScope eng (c.words.getD c.off 0#32)
          let s := if e != .lane && i.wait == .go then s.modIssuer r fun i => { i with wait := .rdv e } else s
          match pointOf s r i e with
          | none => .next s
          | some rs => runAt (if e == .lane then s else closeAt s rs) r rs c eng e
  | _, _ => .next s

/-- Close the instance of the rendezvous that an issuer waits at, when every member that is not excluded has arrived. -/
def closePoint (s : State) (r : IRef) : State :=
  match s.issuer? r with
  | some i =>
    (match i.wait with
     | .rdv e =>
       if i.closed || e == .lane then s
       else match arrivals s r.blk (unitGroups s r.blk r.gidx e) i with
         | some rs => closeAt s rs
         | none => s
     | _ => s)
  | none => s

/-- The write-combining lines that hold stores of a sub-group drain as it parks: parking is a release (R284). -/
def drainParked (s : State) (p : Park) : State :=
  match p.held with
  | .lanes b g ls =>
    let core := homeOf s b
    (s.core core).wc.foldl (fun s (line, w) =>
      if w.op.any fun (k, l) => ls.any (fun x => x.1 == l) && (match tget? s.ops k with | some o => o.blk == b && o.gidx == g | none => false)
      then drainLine s core line else s) s
  | _ => s

/-- An issuer of a replayable block that waits inside a word for an element or a phase that has come waits no longer, so that its turn
comes again (R334): its word, tried here, would not wait there. -/
def wakeWait (s : State) (r : IRef) : State :=
  match s.issuer? r with
  | none => s
  | some i =>
    let elsewhere (w : Wait) : Bool := match w with
      | .chan _ | .barw => true
      | _ => false
    match i.cl with
    | none => s
    | some c =>
      if !elsewhere i.wait then s
      else match engOf (c.hdr.extractLsb' 4 3).toNat with
        | none => s
        | some eng =>
          let e := wordScope eng (c.words.getD c.off 0#32)
          match pointOf s r i e with
          | none => s
          | some rs => match runAt s r rs c eng e with
            | .next t => if ((t.issuer? r).map fun j => elsewhere j.wait && j.pos == i.pos) == some true then s
                else s.modIssuer r fun i => { i with wait := .go }
            | _ => s

/-- The issuers of the replayable blocks whose wait has ended. -/
def wakeWaits (s : State) : State :=
  (s.groups.filter fun g => replayable s (g.1 / 32)).foldl (fun s (k, G) =>
    G.issuers.foldl (fun s n => wakeWait s ⟨k / 32, k % 32, n⟩) s) s

/-- What a replayable block has logged since the last turn is written to its place in the log area: LOGP pages for each block, in BIDX
order, at LOGB (R331). The layout of the entries is the device's own: their bytes are free values (assumption 27), and the device goes
on by the log that it keeps (assumption 109). -/
def writeLog (s : State) (b : Nat) : State :=
  match tget? s.blocks b, ctxOf s b with
  | some B, some c =>
    let n := min (Config.logBytes B.log.length) (4096 * c.logp) - B.logOut
    let base := dbgField c 127 64 + 4096 * c.logp * B.bidx + B.logOut
    let bs := (List.range n).map fun i => BitVec.ofNat 8 (Config.freeNat (s.free + i))
    devWrite ({ s with free := s.free + n }.modBlock b fun B => { B with logOut := B.logOut + n }) (some c.world) c.func base bs
  | _, _ => s

/-- The logs of the replayable blocks; a view's re-execution logs nothing. -/
def writeLogs (s : State) : State :=
  if s.sandbox.isSome then s
  else (s.blocks.filter fun b => replayable s b.1 && !b.2.log.isEmpty).foldl (fun s (b, _) => writeLog s b) s

/-- The debug stop of a target that its block has reached (R336). -/
def stopAtTargets (s : State) : State :=
  if s.ctxs.all fun c => c.2.armed.isNone then s else s.blocks.foldl (fun s (b, _) => stopAtTarget s b) s

/-- What comes about at the end of every turn: an exit or a park can complete a rendezvous, whose instance closes at that moment,
over the lanes that have arrived; its instruction issues at a word turn of theirs (R31, Table 1.6); and a hold ends when no diverged
lane is runnable (R26). The stores of parked lanes leave their write-combining buffers (R284), a wait inside a replayable block's word
ends (R334), its log is written (R331), a disposition that waits for symbol entries is applied where there is room (R193), and a debug target that has been reached stops its context (R336). -/
def settle (s : State) : State :=
  let s := s.parks.foldl (fun s (_, p) => drainParked s p) s
  let s := s.groups.foldl (fun s (k, G) =>
    let s := if G.hold.isSome then s.modGroup (k / 32) (k % 32) Group.endHold else s
    G.issuers.foldl (fun s n => closePoint s ⟨k / 32, k % 32, n⟩) s) s
  let s := (s.parks.filter fun p => p.2.dispo.isSome).foldl (fun s (h, _) => settleDispo s h) s
  stopAtTargets (writeLogs (wakeWaits s))

/-- A turn's outcome with what comes about at its end. -/
def settled : Out → Out
  | .next t => .next (settle t)
  | o => o

end Sys2Proof.Machine
end

