-- ==== Sys2Proof/Machine/Sched.lean ====
section
/-!
DEFINITION. Which turn comes next where the state's agenda names none (assumption 1): words of clauses in issue, then events that
are due, then the issue of a clause, then the passing of time. Every other order is an agenda's. Here too is the building of a view
(R337).
-/

namespace Sys2Proof.Machine

/-! ### Views (R337) -/

/-- An external entry of a log at a retired count. -/
def LogEnt.isAt (rc : Nat) : LogEnt → Bool
  | .value _ _ _ _ _ _ => false
  | .fault _ _ _ => false
  | .bytes r _ _ _ => r == rc
  | .sync r => r == rc
  | .copies r _ _ => r == rc
  | .oload r _ _ => r == rc
  | .elem r _ _ => r == rc
  | .dispo r _ _ => r == rc
  | .hold r _ => r == rc

/-- Apply an external event of the log in the re-execution. -/
def applyLogged (s : State) (b : Nat) (e : LogEnt) : State :=
  match e with
  | .bytes _ off data t => if t then spmStoreCap s b off data true else spmStore s b off data
  | .copies _ l ticket =>
    (match s.ops.find? fun (_, o) => o.blk == b && o.kind.ctr == .cp && o.gidx == l / 64 && o.lanes.any fun q =>
        q.lane == l % 64 && q.ticket == ticket with
     | some (k, o) => lowerCtr (dropReq s k (l % 64)) b o.gidx [l % 64] .cp
     | none => s)
  | .oload _ slot v =>
    (match s.ops.find? fun (_, o) => o.blk == b && o.kind == .oload && o.slot == slot with
     | some (k, o) => fillSlot (s.modOp k fun o => { o with lanes := o.lanes.map fun q => { q with ph := .done, todo := [], val := v } }) k o
     | none => s)
  | .elem _ k w =>
    let q := tgetD s.fqs k FQueue.reset
    { s with fqs := tset s.fqs k { q with elems := q.elems ++ [w] } }
  | .dispo _ held w =>
    (match s.parks.find? fun (_, p) => p.held == held with
     | some (h, _) => applyDispo s h w
     | none => s)
  | .hold _ g => s.modGroup b g fun G => { G with hold := some (0, true) }
  | _ => s

/-- The state in which a view's block runs: its image in place of the block, the other blocks still, the log at hand. -/
def viewState (s : State) (j : ViewJob) : State :=
  let still (k : Nat) (B : Block) : Nat × Block := (k, if B.phase.onCore then { B with phase := .saved } else B)
  { s with
    blocks := tset ((s.blocks.filter fun b => b.1 != j.b).map fun b => still b.1 b.2) j.b { j.img.blk with phase := .resident }
    groups := j.img.groups.foldl (fun t g => tset t g.1 g.2) (s.groups.filter fun g => g.1 / 32 != j.b)
    ops := j.img.ops.foldl (fun t o => tset t o.1 o.2) (s.ops.filter fun o => o.2.blk != j.b)
    tops := j.img.tops.foldl (fun t o => tset t o.1 o.2) (s.tops.filter fun o => o.2.blk != j.b)
    parks := j.parks, fqs := j.fqs, sandbox := some j.log }

/-- The job after a piece of the re-execution. -/
def viewBack (j : ViewJob) (t : State) : ViewJob :=
  match tget? t.blocks j.b with
  | none => j
  | some B =>
    let img : Image := { blk := B, groups := t.groups.filter fun g => g.1 / 32 == j.b, ops := t.ops.filter fun o => o.2.blk == j.b
                         tops := t.tops.filter fun o => o.2.blk == j.b, parks := [] }
    { j with img, log := t.sandbox.getD [], parks := t.parks, fqs := t.fqs }

/-- Keep the charges of a re-execution, and nothing else of it. -/
def keepCharges (s t : State) : State :=
  { s with energy := t.energy, worlds := t.worlds, launches := t.launches, free := t.free, nextId := t.nextId
           ctxs := s.ctxs.map fun (p, c) => (p, match tget? t.ctxs p with
             | some d => { c with level := d.level, meter := d.meter }
             | none => c) }

/-- A view ends: its image can be read at the address given, and the command completes. -/
def endView (s : State) (j : ViewJob) (status : Nat) : State :=
  let f := ((tget? s.ctxs j.img.blk.pasid).map (·.func)).getD 0
  let n := blockIsz s j.img.blk
  let (id, s) := s.fresh
  let parts := match guestParts s f true (n / 2 ^ 21 + 2) j.addr n with
    | .ok ps => ps.map fun (h, m) => (h, m, 2 ^ 33 * id + (2 ^ 32 - 1))
    | .error _ => []
  let s := { s with views := tset s.views j.b j.img, viewJob := none, mem := { s.mem with images := s.mem.images ++ parts } }
  reply s j.cmd 0 status

/-- The log marks a re-execution that asked for something else than the log holds, or it holds an answer at a retired count that the
re-execution has passed without asking for it. -/
def diverged (log : List LogEnt) (rc : Nat) : Bool :=
  log.any fun e => match e with
    | .sync r => r == 2 ^ 32
    | .value r _ _ _ _ _ => decide (r < rc)
    | .fault r _ code => decide (r < rc) && !retryable code
    | _ => false

/-- One piece of a view's block: an external event of the log, an arrival, a tile operation, a word, or a clause. -/
def viewPiece (t : State) (b : Nat) (B : Block) : State :=
  let arrival := t.ops.find? fun (_, o) => o.blk == b && o.kind.returns && o.lanes.any fun q => q.ph == .done
  let tile := t.tops.find? fun (_, o) => o.blk == b
  match takeFirst (LogEnt.isAt B.rc) (t.sandbox.getD []) with
  | some (e, rest) => applyLogged { t with sandbox := some rest } b e
  | none =>
    let u := match arrival with
      | some (k, o) => (List.range o.syms.length).foldl (fun t i => arrive t k i) t
      | none => t
    if u != t then u
    else
      let u := match tile with
        | some (k, o) =>
          if !o.ready t then t
          else if isMpair o.kind then retirePair { t with tops := tset t.tops k { o with running := true } } k { o with running := true }
          else finishAcc { t with tops := tset t.tops k { o with running := true } } k { o with running := true }
        | none => t
      if u != t then u
      else match turnOf t b B with
        | some r =>
          if ((t.issuer? r).map fun i => i.cl.isSome) == some true then onward t (runWord r t)
          else onward t (execClauseIssue B.home t)
        | none => t

/-- A step of the view being built. -/
def viewStep (s : State) (j : ViewJob) : State :=
  if j.n ≤ j.img.blk.rc then endView s j 0
  else
    let t := viewState s j
    match tget? t.blocks j.b with
    | none => endView s j 4
    | some B =>
      let u := settle (viewPiece t j.b B)
      if u == t || diverged (u.sandbox.getD []) (rcOf u j.b) then endView (keepCharges s u) j 4
      else { keepCharges s u with viewJob := some (viewBack j u) }

/-! ### Turns in the default order -/

/-- The issuers whose clause is in issue and that meet a test of their wait. -/
def issuersIn (s : State) (f : Wait → Bool) : List IRef :=
  s.groups.flatMap fun (k, G) => G.issuers.filterMap fun n =>
    match G.issuer? n with
    | some i => if i.cl.isSome && f i.wait then some ⟨k / 32, k % 32, n⟩ else none
    | none => none

/-- Waits whose word is tried again. -/
def Wait.soft : Wait → Bool
  | .go | .inst | .fetch _ => false
  | _ => true

/-- The first word that can issue or arrive. -/
def nextWord (s : State) : Option Out :=
  let runs (r : IRef) : Bool := mayRun s r.blk && inTurn s r &&
    ((s.grp? r.blk r.gidx).map fun G => G.susp.isEmpty && (replayable s r.blk || G.mayWord r.iss)) == some true
  match (issuersIn s (· == .go)).find? runs with
  | some r => some (runWord r s)
  | none => (issuersIn s Wait.soft).findSome? fun r =>
      if !runs r then none
      else match runWord r s with
        | .next t => if t.grp? r.blk r.gidx != s.grp? r.blk r.gidx || t.parks != s.parks then some (.next t) else none
        | o => some o

/-- The first of some events that changes the state. -/
def firstChange (s : State) : List (State → Out) → Option Out
  | [] => none
  | f :: r => match f s with
    | .next t => if t != s then some (.next t) else firstChange s r
    | o => some o

/-- Events of outstanding operations. -/
def opEvents (s : State) : List (State → Out) :=
  s.ops.flatMap fun (k, o) =>
    let each : List (State → Out) := o.lanes.flatMap fun q => match q.ph with
      | .sent =>
        if o.kind.isMem || o.kind == .spanq then [execMemoryRequest k q.lane false]
        else if o.kind == .put || o.kind == .get then [execWindowTransferComplete k q.lane]
        else match q.todo.filter fun p => o.wide.isNone || q.parts.all fun r => r.1 != p with
          | p :: _ => [execCopyPart k q.lane p true]
          | [] => [execCopyComplete k q.lane]
      | .xlated =>
        if o.kind.isLoad then [execMemoryRequest k q.lane false]
        else if o.kind.isStore then [execStoreRegister k q.lane]
        else match q.parts with
          | (h, _, _) :: _ => [execAtomicPerform k (h / 4)]
          | [] => []
      | .remote => [execCompletionTimeout (.op k) q.lane]
      | _ => []
    let arrivals : List (State → Out) := if o.kind.returns && o.lanes.any fun q => q.ph == .done then (List.range o.syms.length).map fun i => execLoadArrival k i else []
    each ++ arrivals ++ if o.kind == .oload then [execOloadComplete k] else []

/-- The completion timeouts of code fetches and meter readings that another package has yet to answer (R345). -/
def remoteEvents (s : State) : List (State → Out) :=
  (s.groups.flatMap fun (k, G) => G.issuers.filterMap fun n => match (G.issuer? n).map Issuer.wait with
    | some (Wait.code _ _ _) => some (execCompletionTimeout (.code (k / 32) (k % 32)) n)
    | _ => none) ++
  (s.orphans.map fun x => execCompletionTimeout x.asked x.n) ++
  (s.wscopies.filterMap fun (k, w) => if w.sent.isSome then some (execCompletionTimeout .wscopy k) else none) ++
  s.worlds.filterMap fun (w, W) => match W.readings with
    | r :: _ => if r.sent.isSome then some (execCompletionTimeout (.meter) w) else none
    | [] => none

/-- Events of blocks, grids and tile queues. -/
def blockEvents (s : State) : List (State → Out) :=
  (s.tops.flatMap fun (k, t) =>
    if t.running then (if isMpair t.kind then [execMpairRetire k] else [execTileOpComplete k]) else [execTileOpStart (homeOf s t.blk)]) ++
  (s.blocks.flatMap fun (b, B) =>
    (match B.barw with
     | some w => if w.arrived then [] else [execGangBarrierArrival b, execSstepArrival b]
     | none => []) ++
    (match B.phase with
     | .draining => [execBlockExit b]
     | .saving => [execBlockSave b]
     | .forked (some g) => [execChildGridComplete g]
     | _ => []) ++ if (s.gridOf B).rpl then [execCheckpoint b] else []) ++
  s.groups.flatMap fun (k, G) => (if G.hold.isSome then [execRcvHoldTimeout ⟨k / 32, k % 32⟩] else []) ++
    if G.msamp.isSome then [execMeterSample ⟨k / 32, k % 32⟩] else []

/-- Events of commands that wait, of records, of worlds and frames. -/
def hostEvents (s : State) : List (State → Out) :=
  (s.launches.flatMap fun (_, l) => if l.done.isSome then [execLaunchComplete l.pasid l.seq] else []) ++
  (s.revs.flatMap fun (k, _) => [execRevokeProceed k, execRevocationPoint k]) ++ (s.invals.map fun x => execInvalidationComplete x.1) ++
  (s.ctxs.flatMap fun (p, c) => match c.sweep with
    | some w => (w.groups.map fun g => execSweepRegisterScan ⟨g / 32, g % 32⟩) ++ [execSweepComplete p]
    | none => []) ++
  (s.wscopies.map fun x => execWscopyProceed x.1) ++ (s.mem.scrubQ.take 1).map execFrameScrub ++
  (s.worlds.flatMap fun (w, W) => (if W.ending.isSome then [execWorldEndComplete w] else []) ++
    (if W.retire.isSome then [execKeyretComplete w] else []) ++ if W.readings.isEmpty then [] else [execMeterReadingWrite w]) ++
  (s.ifaces.flatMap fun (k, I) => if I.held.isEmpty then [] else [execCompletionPost k]) ++
  (if s.rings.any fun r => !r.2.held.isEmpty then [execFaultRecordPost] else []) ++
  s.ifaces.map fun x => fun (s : State) => .next ((takeEntry s x.1).getD s)

/-- Events of dies, of time and of the meter. -/
def dieEvents (s : State) : List (State → Out) :=
  (s.dies.flatMap fun (d, D) =>
    (match D.chg with
     | some (.ramp _ _ _) => [execSupplyRampEnd d]
     | some (.relock _ _ _ _) => [execRelockEnd d]
     | some (.lower _) => [execSupplyLowerEnd d]
     | none => if D.want.isSome then [execStepChangeBegin d] else []) ++
    (if D.pceil < 64 then [execPowerCeilingExpiry d] else []) ++ (if D.margin ≠ 0 then [execMarginRelax d] else []) ++
    (if D.derated ≠ 0 then [execDieRetire d] else []) ++
    if (slicesOf s d).isEmpty && D.slice.isNone then [] else [execGangReady d, execGangDeadline d true, execSliceEnd d]) ++
  (s.cores.flatMap fun (k, C) => (if C.remap then [execCoreRemap k] else []) ++
    (if C.pmlim != (s.die (dieOf k)).pmlim then [execPmlimApply k] else []) ++ C.wc.map fun w => execWcDrainTimeout k w.1) ++
  (s.mem.spans.map fun x => execSettleExpiry ⟨x.1 / 2 ^ 48, x.1 / 2 ^ 20 % 2 ^ 28, x.1 % 2 ^ 20⟩) ++
  (if s.energy.lease.isSome then [execLeaseExpiry] else []) ++ (if s.energy.reports.isEmpty then [] else [execChargeReport])

/-- The measured energies that make every correction exact. -/
def plainSensors (s : State) : List Int :=
  (List.range 41).map fun d =>
    let leak := if d < 24 then weight s d (s.die d).step 0x40 else Config.staticEnergy d
    ((sumAmt (domCharges s.energy.now d) + leak : Nat) : Int)

/-- The first core that something ready may be placed on. -/
def placement (s : State) : Option Out :=
  if s.ctxs.all fun (p, _) => (readyOf s p).isEmpty then none
  else (List.range (24 * 64)).findSome? fun k => match choose s k with
    | some (p, r, plan) => some (.next (place s k p r plan))
    | none => let t := yieldDry s k; if t != s then some (.next t) else none

/-- The first core that issues a clause; a nanosecond passes with it. -/
def nextClause (s : State) : Option Out :=
  (((s.blocks.filter fun b => b.2.phase == .resident).map fun b => b.2.home).dedup).findSome? fun k =>
    match execClauseIssue k s with
    | .next t => if t != s then some (.next (passTime t 1)) else none
    | o => some o

/-- The default turn. -/
def turnDefault (s : State) : Out :=
  match s.viewJob with
  | some j => .next (viewStep s j)
  | none =>
    match nextWord s with
    | some o => o
    | none =>
      match firstChange s (opEvents s ++ remoteEvents s ++ blockEvents s ++ hostEvents s ++ dieEvents s) with
      | some o => o
      | none =>
        if 10000 * (s.energy.tick + 1) ≤ s.reft then execTick (plainSensors s) s
        else match placement s with
          | some o => o
          | none =>
            match nextClause s with
            | some o => o
            | none =>
              -- the refresh window, and the time to its other edge
              let bank := s.reft / 250 % 32
              if s.reft % 250 = 0 ∧ (s.die 0).refresh ≠ some bank then execRefreshWindowStart s
              else if s.reft % 250 = 120 ∧ (s.die 0).refresh ≠ none then execRefreshWindowEnd s
              else .next (passTime s (if s.reft % 250 < 120 then 120 - s.reft % 250 else 250 - s.reft % 250))

end Sys2Proof.Machine
end

