-- ==== Sys2Proof/Machine/Step.lean ====
section
/-!
DEFINITION. One step of the package: the next turn of the agenda, or the default one; and the placing of an instruction where
the next step runs it.
-/

namespace Sys2Proof.Machine

/-- One turn: an event takes place, an issuer's next word runs, a submission entry is taken, or time passes. -/
def turn (t : Turn) (s : State) : Host.Outcome State Fault Refusal :=
  match t with
  | .event i => exec i s
  | .word r => runWord r s
  | .submission k => .next ((takeEntry s k).getD s)
  | .elapse ns => .next (passTime s ns)

/-- A step of the package (assumption 1): the first turn of the agenda; with none, the default turn. What comes about
at the end of a turn follows it. -/
def step (s : State) : Host.Outcome State Fault Refusal :=
  settled (match s.agenda with
    | t :: r => turn t { s with agenda := r }
    | [] => turnDefault s)

/-- A clause of one instruction, as it stands in issue: the words of the instruction after a header of its class that every
lane passes (R48, R50). -/
def oneWordClause (w : Nat) : Clause :=
  let e := ((tableEng w).map (·.1)).getD .ctl
  let ws := tableWords w
  let ws := if isLong e (opc (ws.headD 0#32)) then ws else ws.take 1
  { addr := 0, hdr := plainHeader e ws.length, words := ws, guard := ~~~0#64, idx := 1, off := 0 }

/-- A kernel of one block of one group under a context of the supervisor (R16, R17), on logical core 0, with a clause in
issue, and its word as the next turn. It stands for a host launch whose first clause has just issued (assumption 1). -/
def State.withClause (s : State) (c : Clause) : State :=
  let pasid := ((List.range (s.ctxs.length + 1)).find? fun p => (tget? s.ctxs p).isNone).getD s.ctxs.length
  let gid := s.nextId
  let b := s.nextId + 1
  let code := rootCap 0 0 (Perm.x + Perm.r) 0 (2 ^ 25)
  let grid : Grid :=
    { launch := 0, pasid, parent := none, depth := 0, setg := 1, setn := 1, gngb := 1, clug := 1, diec := 1, grdd := 1, cor := false
      rpl := false, regs := 64, spm := 4096, pri := 0, code, roots := [], views := [], lvl7 := 0, placed := 1, exited := 0 }
  let g := newGroup code [] [] 0
  let g := { g with stream := { g.stream with cl := some c } }
  { s with
    agenda := .word ⟨b, 0, 0⟩ :: s.agenda, nextId := s.nextId + 2, ctxs := tset s.ctxs pasid (ctxOfDesc 0)
    grids := tset s.grids gid grid, blocks := tset s.blocks b (newBlock gid pasid 0 0 0 4096 none 0 0 0 none 0)
    groups := tset s.groups (32 * b) g }

/-- `s` with an instruction where the next step runs it; bits above `nbits` are 0. -/
def State.withFetchWord (s : State) (nbits w : Nat) : State := s.withClause (oneWordClause (w % 2 ^ nbits))

end Sys2Proof.Machine
end

