-- ==== Sys2Proof/Safety.lean ====
section
/-!
DEFINITION. The terms that statements use. A safe run is one that goes on: the spec stops the package nowhere (Table 21.1: a fault
parks lanes, suspends a unit or makes a request wait, and the rest goes on). Then reads of one register, one predicate, one byte;
and frames: what an instruction leaves as it was.
-/

namespace Sys2Proof

/-- A step of this state answers a next state. -/
def goesOn (s : Machine.State) : Prop := ∃ t, Machine.step s = .next t

/-- n steps from this state all answer next states. -/
def runsOn (n : Nat) (s : Machine.State) : Prop := ∃ t, core.run n s = .next t

namespace Machine

/-! ### Reads of one place -/

/-- What lane l of vector register r of a group holds (R268), none where it holds nothing. `k` is the group's key. -/
def State.cellAt (s : State) (k r l : Nat) : Option VCell := (tget? s.groups k).bind fun G => G.cell r l

/-- The tag of quad q in lane l (R100). -/
def State.tagAt (s : State) (k q l : Nat) : Bool := ((tget? s.groups k).map fun G => G.vtag q l).getD false

/-- s register r of a group. -/
def State.sAt (s : State) (k r : Nat) : DWord := ((tget? s.groups k).map fun G => G.sreg r).getD 0#64

/-- The tag of pair n of the s registers of a group (R100). -/
def State.sTagAt (s : State) (k n : Nat) : Bool := ((tget? s.groups k).map fun G => G.st.contains n).getD false

/-- p register n of a group, by lanes. -/
def State.pAt (s : State) (k n : Nat) : Lanes := ((tget? s.groups k).map fun G => tgetD G.p n 0#64).getD 0#64

/-- q register n of a group. -/
def State.qAt (s : State) (k n : Nat) : Bool := ((tget? s.groups k).map fun G => G.q.getLsbD n).getD false

/-- A place of one byte: HBM, a block's scratchpad, a die's weight store. -/
inductive Place where
  | hbm (a : Nat)
  | spm (b a : Nat)
  | ws (d a : Nat)
  deriving DecidableEq, Repr

/-- The byte at a place. -/
def State.byteAt (s : State) : Place → Byte
  | .hbm a => s.mem.hbm.get a
  | .spm b a => (blockSpm s b).get a
  | .ws d a => cellsGet (s.die d).ws a

/-! ### Frames -/

/-- A block without its retired count. -/
def Block.noRc (B : Block) : Block := { B with rc := 0 }

/-- A context, a world, a launch without what a charge moves (R300). -/
def Ctx.noMeter (c : Ctx) : Ctx := { c with level := 0, meter := 0 }
def World.noMeter (w : World) : World := { w with meter := 0, dies := [] }
def Launch.noEnergy (l : Launch) : Launch := { l with energy := 0 }

/-- A state without its groups, blocks and accounts, and without the word in execution. -/
def State.rest (s : State) : State :=
  { s with cur := none, free := 0, energy := Energy.reset, groups := [], blocks := [], ctxs := [], worlds := [], launches := [] }

/-- Nothing outside the groups changes but the word in execution, retired counts and accounts: no memory, no special register,
no fault, no accumulator, no control register. -/
def outside (s t : State) : Prop :=
  t.rest = s.rest ∧
  (∀ b, (tget? t.blocks b).map Block.noRc = (tget? s.blocks b).map Block.noRc) ∧
  (∀ p, (tget? t.ctxs p).map Ctx.noMeter = (tget? s.ctxs p).map Ctx.noMeter) ∧
  (∀ w, (tget? t.worlds w).map World.noMeter = (tget? s.worlds w).map World.noMeter) ∧
  (∀ l, (tget? t.launches l).map Launch.noEnergy = (tget? s.launches l).map Launch.noEnergy)

/-- No byte of memory changes. -/
def bytesKept (s t : State) : Prop := ∀ a, t.byteAt a = s.byteAt a

/-- An issuer that stands for any. -/
def Issuer.blank : Issuer := { lanes := 0#64, code := Cap.null, cl := none, wait := .go }

/-- A group without its positions (and the record, which is the model's, of unfenced uniform writes). -/
def Group.noPos (G : Group) : Group :=
  { G with stream := { G.stream with cl := none, wait := .go, code := Cap.null, closed := false }, div := [], sDirty := 0#64 }

/-- A group without its positions and uniform registers. -/
def Group.noS (G : Group) : Group := { G.noPos with s := [], st := [] }

/-- A group without its positions and q registers, or p registers. -/
def Group.noQ (G : Group) : Group := { G.noPos with q := 0#8 }
def Group.noP (G : Group) : Group := { G.noPos with p := [] }

/-- A group without its positions and vector registers (with the records of unfenced writes and of quads that await a load that the model keeps of them). -/
def Group.noV (G : Group) : Group := { G.noPos with v := [], vt := [], vl := [], vDirty := [] }

/-- Every group is as before but for what `f` leaves out. -/
def groupsKept (f : Group → Group) (s t : State) : Prop :=
  ∀ k, (tget? t.groups k).map f = (tget? s.groups k).map f

/-- The keys of the groups with a lane in the active set. -/
def Cur.keys (c : Cur) : List Nat := c.live.map (gkey c.blk)

/-- The word in execution names its issuers and its groups once each. -/
def Cur.sane (c : Cur) : Prop := c.arr.Nodup ∧ (c.act.map (·.1)).Nodup

/-! ### Effects -/

/-- `t` is `u` but for what retiring and charging move: positions, retired counts, accounts. -/
def effectIs (u t : State) : Prop := t.cur = none ∧ outside u t ∧ groupsKept Group.noPos u t

/-- A block without its retired count and log. -/
def Block.noLog (B : Block) : Block := { B.noRc with log := [] }

/-- `outside`, but for what `f` leaves out of the blocks. -/
def outsideBut (f : Block → Block) (s t : State) : Prop :=
  t.rest = s.rest ∧
  (∀ b, (tget? t.blocks b).map f = (tget? s.blocks b).map f) ∧
  (∀ p, (tget? t.ctxs p).map Ctx.noMeter = (tget? s.ctxs p).map Ctx.noMeter) ∧
  (∀ w, (tget? t.worlds w).map World.noMeter = (tget? s.worlds w).map World.noMeter) ∧
  (∀ l, (tget? t.launches l).map Launch.noEnergy = (tget? s.launches l).map Launch.noEnergy)

/-- `effectIs`, but for what `f` leaves out of the blocks and `g` of the groups. -/
def effectBut (f : Block → Block) (g : Group → Group) (u t : State) : Prop := t.cur = none ∧ outsideBut f u t ∧ groupsKept g u t

/-! ### Lane-wise results (R56 to R59, R77, R101, R149) -/

/-- A lane-wise instruction: its destination, its vector operands, its uniform sources, and one lane's result from the lane's
operand words. -/
structure LaneForm where
  dst : VDst
  ops : List Opd
  us : List (RSrc × Nat)
  f : State → Cur → Group → Nat → List Word → Word

/-- A result of the lane's words alone. -/
def LaneForm.of (d : VDst) (ops : List Opd) (f : List Word → Word) : LaneForm := ⟨d, ops, [], fun _ _ _ _ xs => f xs⟩

/-- The results of a lane-wise instruction, group by group and lane by lane. -/
def LaneForm.results (F : LaneForm) (s : State) (c : Cur) : List (Nat × List (Nat × VCell)) :=
  (readOps s c F.ops).map fun (g, ls) => match s.grp? c.blk g with
    | some G => (g, ls.map fun (l, xs) => (l, VCell.val (F.f s c G l (xs.map VCell.word))))
    | none => (g, [])

/-- The state after a lane-wise instruction has taken its operands and written its results. -/
def LaneForm.written (F : LaneForm) (s : State) (c : Cur) : State :=
  writeCells (freeS (consume s c F.ops) c F.us) c.blk F.dst (F.results s c)

/-- An operand that is a register, with its registers' number, mark and count. -/
def Opd.isReg : Opd → Bool
  | .v (.reg _ _) => true
  | .v (.chan _ _) => false
  | .r _ _ => true

/-- The words that register operands give a lane. -/
def State.regWords (s : State) (k l : Nat) (ops : List Opd) : List Word :=
  ops.flatMap fun o => o.regs.map fun r => ((s.cellAt k r l).getD (.val 0#32)).word

/-- Register r is freed by a last-use operand (R58). -/
def freedV (ops : List Opd) (r : Nat) : Prop := ∃ o ∈ ops, o.last = true ∧ r ∈ o.regs

/-- The words that operands give a lane of a group, none where it is not in the active set (R31, R59). -/
def State.opsOf (s : State) (c : Cur) (ops : List Opd) (g l : Nat) : Option (List Word) :=
  ((tget? (readOps s c ops) g).bind fun ls => tget? ls l).map fun xs => xs.map VCell.word

/-- The whole effect of a lane-wise instruction whose operands are registers and whose destination is register n. Each active
lane's result is in n; a last-use register holds nothing for those lanes; every other lane of every register, every other part of
every group but the positions, and everything outside the groups, every byte of memory among it, is as before. -/
def vecDone (s t : State) (c : Cur) (F : LaneForm) (n : Nat) : Prop :=
  t.cur = none ∧ outside s t ∧ bytesKept s t ∧ groupsKept (fun G => { G.noV with s := [], st := [] }) s t ∧
  (∀ g m l G, (g, m) ∈ c.act → l ∈ lanesOf m → s.grp? c.blk g = some G →
    t.cellAt (gkey c.blk g) n l = some (.val (F.f s c G l (s.regWords (gkey c.blk g) l F.ops)))) ∧
  (∀ k r l, ¬(∃ g m, k = gkey c.blk g ∧ (g, m) ∈ c.act ∧ l ∈ lanesOf m ∧ (r = n ∨ freedV F.ops r)) → t.cellAt k r l = s.cellAt k r l) ∧
  (∀ g m l r, (g, m) ∈ c.act → l ∈ lanesOf m → r ≠ n → freedV F.ops r → t.cellAt (gkey c.blk g) r l = none) ∧
  (∀ g m l r, (g, m) ∈ c.act → l ∈ lanesOf m → (r = n ∨ freedV F.ops r) → t.tagAt (gkey c.blk g) (r / 4) l = false) ∧
  (∀ k q l, ¬(∃ g m r, k = gkey c.blk g ∧ (g, m) ∈ c.act ∧ l ∈ lanesOf m ∧ r / 4 = q ∧ (r = n ∨ freedV F.ops r)) →
    t.tagAt k q l = s.tagAt k q l) ∧
  (∀ k r, (∃ x ∈ F.us, k = gkey c.blk c.lead ∧ x.1.last = true ∧ ∃ j < x.2, r = x.1.n.toNat + j) → t.sAt k r = 0#64 ∧ t.sTagAt k (r / 2) = false) ∧
  (∀ k r, ¬(∃ x ∈ F.us, k = gkey c.blk c.lead ∧ x.1.last = true ∧ ∃ j < x.2, r = x.1.n.toNat + j) → t.sAt k r = s.sAt k r)

/-! ### Predicate results (R182, R239) -/

/-- The effect on the p registers: bit l of register d of each active lane is `f`'s; every other bit of every p register is as before;
`u` is the state after the operands are taken, from which nothing else differs. -/
def predDone (s u t : State) (c : Cur) (ops : List Opd) (d : Nat) (f : Group → Nat → List Word → Bool) : Prop :=
  t.cur = none ∧ outside u t ∧ groupsKept Group.noP u t ∧
  (∀ g l xs G, s.opsOf c ops g l = some xs → s.grp? c.blk g = some G → (t.pAt (gkey c.blk g) d).getLsbD l = f G l xs) ∧
  (∀ k n l, ¬(n = d ∧ ∃ g, k = gkey c.blk g ∧ (s.opsOf c ops g l).isSome) → (t.pAt k n).getLsbD l = (s.pAt k n).getLsbD l)

/-! ### Cross-lane results (R94, R187 to R190) -/

/-- The results of a cross-lane instruction: `f` gives an element's word from the whole active set. -/
def crossResults (s : State) (c : Cur) (ops : List Opd) (f : List Elem → Elem → Word) : List (Nat × List (Nat × VCell)) :=
  c.live.map fun g => (g, ((elemsOf s c ops).filter fun e => e.g == g).map fun e => (e.l, .val (f (elemsOf s c ops) e)))

/-- Node i at level k of the fixed tree (R94): leaf i is element i, absent when it is not active; a node of one present child is
that child. -/
def treeNode {α : Type} (f : α → α → α) (leaf : Nat → Option α) : Nat → Nat → Option α
  | 0, i => leaf i
  | k + 1, i => match treeNode f leaf k (2 * i), treeNode f leaf k (2 * i + 1) with
    | some x, some y => some (f x y)
    | some x, none => some x
    | none, y => y

/-! ### Issuers (R22 to R24) -/

/-- The issuer that a lane of a group belongs to. -/
def Group.laneIssuer (G : Group) (l : Nat) : Option Issuer := G.issuer? (G.issuerOf l)

/-- A lane-scope word in execution by issuer r: its issuer i at clause cl, group G, active lanes m (not empty). -/
structure Cur.byOne (c : Cur) (s : State) (r : IRef) (i : Issuer) (cl : Clause) (G : Group) (m : Lanes) : Prop where
  cur : s.cur = some c
  arr : c.arr = [r]
  blk : c.blk = r.blk
  lead : c.lead = r.gidx
  e : c.e = .lane
  act : c.act = [(r.gidx, m)]
  nz : m ≠ 0#64
  sub : m &&& i.lanes = m
  grp : s.grp? r.blk r.gidx = some G
  iss : G.issuer? r.iss = some i
  at' : i.cl = some cl
  own : ∀ l, r.iss = l + 1 → i.lanes = laneBit l ∧ l < 64 ∧ G.stream.lanes.getLsbD l = false

/-- A group without its issuers. -/
def Group.noIss (G : Group) : Group := { G with stream := Issuer.blank, div := [] }

/-- Every group but the one with key k is as before. -/
def othersKept (k : Nat) (s t : State) : Prop := ∀ j, j ≠ k → tget? t.groups j = tget? s.groups j

/-- The quad of registers a to a + 3 of a lane holds a capability. -/
def Group.quadIs (G : Group) (a l : Nat) (k : Cap) : Prop :=
  (∀ j < 4, G.cell (a + j) l = some (.val (k.bits.extractLsb' (32 * j) 32))) ∧ G.vtag (a / 4) l = k.tag

/-! ### Taking a fault (R35, R284, R286, R288) -/

/-- The state with a handle's park entered and its records reported: to the handler, or to the function's ring; a view's
re-execution reports nothing. -/
def State.withPark (s : State) (b : Nat) (p : Park) : State :=
  let hd := s.sandbox.isNone && handles s b
  let f := ((tget? s.ctxs p.pasid).map (·.func)).getD 0
  { s with nextId := s.nextId + 1, parks := tset s.parks s.nextId { p with handled := hd }
           rings := if s.sandbox.isSome || hd then s.rings
                    else tset s.rings (ringOf p.code f) { s.ring (ringOf p.code f) with
                      held := (s.ring (ringOf p.code f)).held ++ p.recs.map fun r => natBytes 64 r.toNat } }

/-- At lane scope the active lanes of issuer r meet a terminal code that is not retryable: one handle, one record that names the
position and the lanes; the lanes are parked, and those of the issuer that are not active go on past the word. -/
def lanesPark (s t : State) (c : Cur) (r : IRef) (i : Issuer) (cl : Clause) (G : Group) (m : Lanes) (code data : Nat) : Prop :=
  let rc : FaultRec := { code, scope := i.scope, sub := s.nextId, gidx := r.gidx, paddr := cl.addr, pword := cl.idx, lanes := m, data }
  let p : Park := { code, pasid := ((tget? s.blocks r.blk).map (·.pasid)).getD 0
                    held := .lanes r.blk r.gidx ((lanesOf m).map fun l => (l, { i with lanes := laneBit l, wait := .go, closed := false }))
                    recs := [(recFor s r.blk rc).bits], defer := [], headless := false, handled := false, dispo := none }
  effectBut Block.noRc (fun G => { G.noIss with parked := 0 }) (s.withPark r.blk p) t ∧ othersKept (gkey r.blk r.gidx) s t ∧
  ∃ H, t.grp? r.blk r.gidx = some H ∧ H.parked = G.parked ||| m ∧
    (r.iss = 0 → H.div = G.div ∧ H.stream =
      if i.lanes &&& ~~~m = 0#64 then { i with lanes := 0#64, cl := none, wait := .go, closed := false, buf := [] } else { i.past c.k with lanes := i.lanes &&& ~~~m }) ∧
    ∀ l, r.iss = l + 1 → H.stream = G.stream ∧ ∀ x, tget? H.div x = if x = l then none else tget? G.div x

/-- At a wider scope every active element meets the code: one handle, one record for each group with an active lane, every group of
the unit suspended under it, and the issuers that arrived wait at the word. -/
def unitSuspends (s t : State) (c : Cur) (code data : Nat) : Prop :=
  let rs : List FaultRec := (groupLanes c.elems).map fun x =>
    { code, scope := c.e, sub := s.nextId, unit := unitCode c.e, gidx := x.1, paddr := c.addr, pword := c.idx, lanes := x.2, data }
  let p : Park := { code, pasid := ((tget? s.blocks c.blk).map (·.pasid)).getD 0, held := .unit c.blk (unitGroups s c.blk c.lead c.e) c.e
                    recs := (numberRecs rs).map fun x => (recFor s c.blk x).bits, defer := [], headless := false, handled := false
                    dispo := none }
  effectBut Block.noRc (fun G => { G.noPos with susp := [] }) (s.withPark c.blk p) t ∧
  (∀ k, (tget? t.groups k).map (·.susp) = (tget? s.groups k).map fun G =>
    if k ∈ (unitGroups s c.blk c.lead c.e).map (gkey c.blk) then G.susp ++ [s.nextId] else G.susp) ∧
  ∀ r ∈ c.arr, ∀ i, s.issuer? r = some i → t.issuer? r = some { i with wait := .rdv c.e, closed := false }

/-! ### Uniform results (R58, R151, R181) -/

/-- s register r of the leading group is freed by a last-use source. -/
def freedS (c : Cur) (srcs : List RSrc) (k r : Nat) : Prop :=
  k = gkey c.blk c.lead ∧ ∃ x ∈ srcs, x.last = true ∧ x.n.toNat = r

/-- A uniform instruction's whole effect: every group of the unit with an active lane has v in s[a], untagged; a last-use source
reads zero; every other s register, every other part of every group but the positions, and all outside the groups is as before. -/
def uniDone (s t : State) (c : Cur) (srcs : List RSrc) (a : Nat) (v : DWord) : Prop :=
  t.cur = none ∧ outside s t ∧ bytesKept s t ∧ groupsKept Group.noS s t ∧
  (∀ k ∈ c.keys, (tget? s.groups k).isSome → t.sAt k a = v) ∧
  (∀ k n, (∃ r, r / 2 = n ∧ (freedS c srcs k r ∨ (k ∈ c.keys ∧ r = a))) → t.sTagAt k n = false) ∧
  (∀ k n, ¬(∃ r, r / 2 = n ∧ (freedS c srcs k r ∨ (k ∈ c.keys ∧ r = a))) → t.sTagAt k n = s.sTagAt k n) ∧
  (∀ k r, freedS c srcs k r → ¬(k ∈ c.keys ∧ r = a) → t.sAt k r = 0#64) ∧
  (∀ k r, ¬freedS c srcs k r → ¬(k ∈ c.keys ∧ r = a) → t.sAt k r = s.sAt k r)

/-- The same for a uniform predicate: q[d] is v in those groups; every other q register, every s register and tag but those of the
last-use sources, every other part of every group but the positions, and all outside the groups is as before. -/
def uniPredDone (s t : State) (c : Cur) (srcs : List RSrc) (d : Nat) (v : Bool) : Prop :=
  t.cur = none ∧ outside s t ∧ bytesKept s t ∧ groupsKept (fun G => { G.noS with q := 0#8 }) s t ∧
  (∀ k ∈ c.keys, (tget? s.groups k).isSome → t.qAt k d = v) ∧
  (∀ k n, ¬(k ∈ c.keys ∧ n = d) → t.qAt k n = s.qAt k n) ∧
  (∀ k r, freedS c srcs k r → t.sAt k r = 0#64 ∧ t.sTagAt k (r / 2) = false) ∧
  (∀ k r, ¬freedS c srcs k r → t.sAt k r = s.sAt k r) ∧
  (∀ k n, (∀ r, r / 2 = n → ¬freedS c srcs k r) → t.sTagAt k n = s.sTagAt k n)

end Machine
end Sys2Proof
end

