-- ==== Sys2Proof/Certificates/Slice0/Obligations.lean ====
section
/-!
DEFINITION. The statements for the provers. A statement about words names its instructions in a table (a function of the
instruction beside it): the place of the result, the operands, and the result by a formula of its own. `s.cur = some c` says that
the word is in execution by the issuers of `c`; `effectIs u t` says that `t` is `u` but for positions, retired counts and accounts.
-/

section Statements

open Sys2Proof Sys2Proof.Machine

/-! ### Uniform instructions (R58, R151, R181 to R183) -/

namespace Sys2Proof

/-- The uniform arithmetic of Table 13.1: destination, sources, and the result of the sources. -/
def uniForm : Instr → Option (BitVec 6 × List RSrc × (Group → List DWord → DWord))
  | .saddB64 _ a b c => some (a, [b, c], fun _ xs => xs.getD 0 0 + xs.getD 1 0)
  | .ssubB64 _ a b c => some (a, [b, c], fun _ xs => xs.getD 0 0 - xs.getD 1 0)
  | .smulB64 _ a b c => some (a, [b, c], fun _ xs => BitVec.ofNat 64 ((xs.getD 0 0).toNat * (xs.getD 1 0).toNat))
  | .smulhS64 _ a b c => some (a, [b, c], fun _ xs => (BitVec.ofInt 128 ((xs.getD 0 0).toInt * (xs.getD 1 0).toInt)).extractLsb' 64 64)
  | .smulhN64 _ a b c => some (a, [b, c], fun _ xs => (BitVec.ofNat 128 ((xs.getD 0 0).toNat * (xs.getD 1 0).toNat)).extractLsb' 64 64)
  | .saddiB64 _ a i => some (a, [⟨a, false⟩], fun _ xs => xs.getD 0 0 + BitVec.ofInt 64 i.toInt)
  | .smoviB64 _ a i => some (a, [], fun _ _ => BitVec.ofInt 64 i.toInt)
  | .smovlB64 _ a sel lit => some (a, [⟨a, false⟩], fun _ xs =>
      if sel = 0 then BitVec.ofInt 64 lit.toInt else if sel = 1 then BitVec.ofNat 64 lit.toNat
      else BitVec.ofNat 64 ((xs.getD 0 0).toNat % 2 ^ 32 + 2 ^ 32 * lit.toNat))
  | .sandB64 _ a b c => some (a, [b, c], fun _ xs => xs.getD 0 0 &&& xs.getD 1 0)
  | .sorB64 _ a b c => some (a, [b, c], fun _ xs => xs.getD 0 0 ||| xs.getD 1 0)
  | .sxorB64 _ a b c => some (a, [b, c], fun _ xs => xs.getD 0 0 ^^^ xs.getD 1 0)
  | .snotB64 _ a b => some (a, [b], fun _ xs => ~~~ xs.getD 0 0)
  | .sshlB64 _ a b c => some (a, [b, c], fun _ xs => xs.getD 0 0 <<< ((xs.getD 1 0).toNat % 128))
  | .sshrN64 _ a b c => some (a, [b, c], fun _ xs => xs.getD 0 0 >>> ((xs.getD 1 0).toNat % 128))
  | .sshrS64 _ a b c => some (a, [b, c], fun _ xs => (xs.getD 0 0).sshiftRight ((xs.getD 1 0).toNat % 128))
  | .smovB64 _ a b => some (a, [b], fun _ xs => xs.getD 0 0)
  | .sminS64 _ a b c => some (a, [b, c], fun _ xs => BitVec.ofInt 64 (min (xs.getD 0 0).toInt (xs.getD 1 0).toInt))
  | .sminN64 _ a b c => some (a, [b, c], fun _ xs => BitVec.ofNat 64 (min (xs.getD 0 0).toNat (xs.getD 1 0).toNat))
  | .smaxS64 _ a b c => some (a, [b, c], fun _ xs => BitVec.ofInt 64 (max (xs.getD 0 0).toInt (xs.getD 1 0).toInt))
  | .smaxN64 _ a b c => some (a, [b, c], fun _ xs => BitVec.ofNat 64 (max (xs.getD 0 0).toNat (xs.getD 1 0).toNat))
  | .sclzB64 _ a b => some (a, [b], fun _ xs => BitVec.ofNat 64 (if xs.getD 0 0 = 0 then 64 else 63 - (xs.getD 0 0).toNat.log2))
  | .spopcB64 _ a b => some (a, [b], fun _ xs => BitVec.ofNat 64 ((List.range 64).countP fun i => (xs.getD 0 0).getLsbD i))
  | .sextS32 _ a b => some (a, [b], fun _ xs => BitVec.ofInt 64 ((xs.getD 0 0).setWidth 32).toInt)
  | .sextN32 _ a b => some (a, [b], fun _ xs => BitVec.ofNat 64 ((xs.getD 0 0).toNat % 2 ^ 32))
  | .sselB64 _ a b c p => some (a, [b, c], fun G xs => if G.qpred p then xs.getD 0 0 else xs.getD 1 0)
  | _ => none

end Sys2Proof

/-- R181, R183: the result in every group of the unit with an active lane, with the whole frame. -/
def Obligations.UniformArithmetic : Prop :=
  ∀ i a srcs f s c G, uniForm i = some (a, srcs, f) → s.cur = some c → c.empty = false → s.grp? c.blk c.lead = some G →
    ∃ t, exec i s = .next t ∧ uniDone s t c srcs a.toNat (f G (srcs.map fun r => s.sAt (gkey c.blk c.lead) r.n.toNat))

namespace Sys2Proof

/-- The instructions that write a q predicate. -/
def uniPredForm : Instr → Option (BitVec 3 × List RSrc × (Group → List DWord → Bool))
  | .sceqB64 _ a b c => some (a, [b, c], fun _ xs => decide (xs.getD 0 0 = xs.getD 1 0))
  | .scneB64 _ a b c => some (a, [b, c], fun _ xs => decide (xs.getD 0 0 ≠ xs.getD 1 0))
  | .scltS64 _ a b c => some (a, [b, c], fun _ xs => decide ((xs.getD 0 0).toInt < (xs.getD 1 0).toInt))
  | .scltN64 _ a b c => some (a, [b, c], fun _ xs => decide ((xs.getD 0 0).toNat < (xs.getD 1 0).toNat))
  | .scleS64 _ a b c => some (a, [b, c], fun _ xs => decide ((xs.getD 0 0).toInt ≤ (xs.getD 1 0).toInt))
  | .scleN64 _ a b c => some (a, [b, c], fun _ xs => decide ((xs.getD 0 0).toNat ≤ (xs.getD 1 0).toNat))
  | .qand _ a b c => some (a, [], fun G _ => G.qpred b && G.qpred c)
  | .qor _ a b c => some (a, [], fun G _ => G.qpred b || G.qpred c)
  | .qxor _ a b c => some (a, [], fun G _ => G.qpred b ^^ G.qpred c)
  | .qnot _ a b => some (a, [], fun G _ => !G.qpred b)
  | _ => none

end Sys2Proof

/-- R182 on q. -/
def Obligations.UniformPredicates : Prop :=
  ∀ i a srcs f s c G, uniPredForm i = some (a, srcs, f) → s.cur = some c → c.empty = false → s.grp? c.blk c.lead = some G →
    ∃ t, exec i s = .next t ∧ uniPredDone s t c srcs a.toNat (f G (srcs.map fun r => s.sAt (gkey c.blk c.lead) r.n.toNat))

/-! ### Vector integer instructions (R181 to R187) -/

namespace Sys2Proof

/-- Two vector sources. -/
def two (b c : VSrc) : List Opd := [.v b, .v c]

/-- An integer brought into a range. -/
def clampTo (lo hi x : Int) : Int := max lo (min hi x)

/-- The lane-wise integer instructions of Table 13.2. -/
def intForm : Instr → Option LaneForm
  | .vaddB32 _ a b c => some (.of a (two b c) fun xs => xs.getD 0 0 + xs.getD 1 0)
  | .vsubB32 _ a b c => some (.of a (two b c) fun xs => xs.getD 0 0 - xs.getD 1 0)
  | .vmulB32 _ a b c => some (.of a (two b c) fun xs => BitVec.ofNat 32 ((xs.getD 0 0).toNat * (xs.getD 1 0).toNat))
  | .vmulhS32 _ a b c => some (.of a (two b c) fun xs =>
      (BitVec.ofInt 64 ((xs.getD 0 0).toInt * (xs.getD 1 0).toInt)).extractLsb' 32 32)
  | .vmulhN32 _ a b c => some (.of a (two b c) fun xs =>
      (BitVec.ofNat 64 ((xs.getD 0 0).toNat * (xs.getD 1 0).toNat)).extractLsb' 32 32)
  | .vaddiB32 _ a i => some (.of (.reg a) [.old a 1] fun xs => xs.getD 0 0 + BitVec.ofInt 32 i.toInt)
  | .vmoviB32 _ a i => some (.of a [] fun _ => BitVec.ofInt 32 i.toInt)
  | .vmovlB32 _ a lit => some (.of a [] fun _ => lit)
  | .vaddsS32 _ a b c => some (.of a (two b c) fun xs => BitVec.ofInt 32 (clampTo (-2 ^ 31) (2 ^ 31 - 1) ((xs.getD 0 0).toInt + (xs.getD 1 0).toInt)))
  | .vaddsN32 _ a b c => some (.of a (two b c) fun xs => BitVec.ofInt 32 (clampTo 0 (2 ^ 32 - 1) ((xs.getD 0 0).toNat + (xs.getD 1 0).toNat)))
  | .vsubsS32 _ a b c => some (.of a (two b c) fun xs => BitVec.ofInt 32 (clampTo (-2 ^ 31) (2 ^ 31 - 1) ((xs.getD 0 0).toInt - (xs.getD 1 0).toInt)))
  | .vsubsN32 _ a b c => some (.of a (two b c) fun xs => BitVec.ofInt 32 (clampTo 0 (2 ^ 32 - 1) ((xs.getD 0 0).toNat - (xs.getD 1 0).toNat)))
  | .vminS32 _ a b c => some (.of a (two b c) fun xs => BitVec.ofInt 32 (min (xs.getD 0 0).toInt (xs.getD 1 0).toInt))
  | .vminN32 _ a b c => some (.of a (two b c) fun xs => BitVec.ofNat 32 (min (xs.getD 0 0).toNat (xs.getD 1 0).toNat))
  | .vmaxS32 _ a b c => some (.of a (two b c) fun xs => BitVec.ofInt 32 (max (xs.getD 0 0).toInt (xs.getD 1 0).toInt))
  | .vmaxN32 _ a b c => some (.of a (two b c) fun xs => BitVec.ofNat 32 (max (xs.getD 0 0).toNat (xs.getD 1 0).toNat))
  | .vandB32 _ a b c => some (.of a (two b c) fun xs => xs.getD 0 0 &&& xs.getD 1 0)
  | .vorB32 _ a b c => some (.of a (two b c) fun xs => xs.getD 0 0 ||| xs.getD 1 0)
  | .vxorB32 _ a b c => some (.of a (two b c) fun xs => xs.getD 0 0 ^^^ xs.getD 1 0)
  | .vnotB32 _ a b => some (.of a [.v b] fun xs => ~~~ xs.getD 0 0)
  | .vshlB32 _ a b c => some (.of a (two b c) fun xs => xs.getD 0 0 <<< ((xs.getD 1 0).toNat % 64))
  | .vshrN32 _ a b c => some (.of a (two b c) fun xs => xs.getD 0 0 >>> ((xs.getD 1 0).toNat % 64))
  | .vshrS32 _ a b c => some (.of a (two b c) fun xs => (xs.getD 0 0).sshiftRight ((xs.getD 1 0).toNat % 64))
  | .vrotlB32 _ a b c => some (.of a (two b c) fun xs =>
      (xs.getD 0 0 <<< ((xs.getD 1 0).toNat % 32)) ||| (xs.getD 0 0 >>> (32 - (xs.getD 1 0).toNat % 32)))
  | .vmovB32 _ a b => some (.of a [.v b] fun xs => xs.getD 0 0)
  | .vabsS32 _ a b => some (.of a [.v b] fun xs => BitVec.ofNat 32 (xs.getD 0 0).toInt.natAbs)
  | .vnegS32 _ a b => some (.of a [.v b] fun xs => BitVec.ofInt 32 (-(xs.getD 0 0).toInt))
  | .vpopcB32 _ a b => some (.of a [.v b] fun xs => BitVec.ofNat 32 ((List.range 32).countP fun i => (xs.getD 0 0).getLsbD i))
  | .vclzB32 _ a b => some (.of a [.v b] fun xs => BitVec.ofNat 32 (if xs.getD 0 0 = 0 then 32 else 31 - (xs.getD 0 0).toNat.log2))
  | .vbrevB32 _ a b => some (.of a [.v b] fun xs => (xs.getD 0 0).reverse)
  | .vbfxN32 _ a b c len => some (.of a (two b c) fun xs =>
      BitVec.ofNat 32 ((xs.getD 0 0).toNat / 2 ^ ((xs.getD 1 0).toNat % 64) % 2 ^ len.toNat))
  | .vbfxS32 _ a b c len => some (.of a (two b c) fun xs =>
      BitVec.ofInt 32 (BitVec.ofInt len.toNat ((xs.getD 0 0).toInt / 2 ^ ((xs.getD 1 0).toNat % 64))).toInt)
  | .vbfiB32 _ a b c len => some (.of (.reg a) (.old a 1 :: two b c) fun xs =>
      let p := (xs.getD 2 0).toNat % 64
      BitVec.ofFnLE fun i : Fin 32 => if p ≤ i ∧ i < p + len.toNat then (xs.getD 1 0).getLsbD (i - p) else (xs.getD 0 0).getLsbD i)
  | .vselB32 _ a b c p => some ⟨a, two b c, [], fun _ _ G l xs => if (G.pred p).getLsbD l then xs.getD 0 0 else xs.getD 1 0⟩
  | .vbcast _ a b => some ⟨a, [], [(b, 1)], fun s c _ _ _ => (s.sAt (gkey c.blk c.lead) b.n.toNat).setWidth 32⟩
  | _ => none

end Sys2Proof

/-- R181, R183, R184, R186: every active lane's result, written or sent after the operands are taken; nothing pending is read. -/
def Obligations.VectorInteger : Prop :=
  ∀ i F s c, intForm i = some F → s.cur = some c → c.empty = false → ready? s c F.ops (.v F.dst) false = none →
    ∃ t, exec i s = .next t ∧ effectIs (F.written s c) t

/-! ### Floating-point and packed instructions (R236 to R245) -/

namespace Sys2Proof

/-- The exact value of a word in a format, and a value rounded once into one. -/
def F32 (w : Word) : XR := decodeF fp32 w.toNat
def toF32 (m : Rnd) (x : XR) : Word := BitVec.ofNat 32 (roundF fp32 m x)
def Fty (t : Ty) (w : Word) : XR := decodeF (fmtOf t) (w.toNat % 2 ^ (fmtOf t).width)
def toFty (t : Ty) (m : Rnd) (x : XR) : Word := BitVec.ofNat 32 (roundF (fmtOf t) m x)

/-- The 16-bit elements of a word (R243). -/
def lowHalf (w : Word) : Word := BitVec.ofNat 32 (w.toNat % 2 ^ 16)
def highHalf (w : Word) : Word := BitVec.ofNat 32 (w.toNat / 2 ^ 16)
def halves (f : List Word → Word) (xs : List Word) : Word :=
  BitVec.ofNat 32 ((f (xs.map lowHalf)).toNat + 2 ^ 16 * (f (xs.map highHalf)).toNat)

/-- Element i of a packed word as an exact value (R77), and the exact sum of products with an addend, rounded once (R93). -/
def elemX (t : Ty) (w : Word) (i : Nat) : XR := elemVal t (w.toNat / 2 ^ (t.width * i) % 2 ^ t.width)
def dotOf (n : Nat) (ta tb : Ty) (m : Rnd) (xs : List Word) : Word :=
  toF32 m (sumXR m ((List.range n).map (fun i => (elemX ta (xs.getD 0 0) i).mul (elemX tb (xs.getD 1 0) i)) ++ [F32 (xs.getD 2 0)]))

/-- A scalar narrower than 32 bits in a register (R77), and an element put in a packed word. -/
def scalarOf (t : Ty) (code : Nat) : Word :=
  if isSigned t then (BitVec.ofNat t.width code).signExtend 32 else BitVec.ofNat 32 code
def elemInto (old : Word) (w i code : Nat) : Word :=
  BitVec.ofFnLE fun k : Fin 32 => if w * i ≤ k ∧ k < w * i + w then code.testBit (k - w * i) else old.getLsbD k

/-- A conversion reads its destination where it packs into it: `vext` by its type (R185), `fcvt` by j (R240). -/
def convForm (a : VDst) (ty : Ty) (b : VSrc) (f : List Word → Word → Word) : LaneForm :=
  match a, ty.narrowInt with
  | .reg r, true => .of a [.old r 1, .v b] fun xs => f (xs.drop 1) (xs.getD 0 0)
  | _, _ => .of a [.v b] fun xs => f xs 0
def cvtForm (a : VDst) (j : BitVec 8) (b : VSrc) (f : List Word → Word → Word) : LaneForm :=
  match a with
  | .reg r => if j = 0 then .of a [.v b] fun xs => f xs 0 else .of a [.old r 1, .v b] fun xs => f (xs.drop 1) (xs.getD 0 0)
  | _ => .of a [.v b] fun xs => f xs 0

/-- The lane-wise instructions of Table 17.1 and `vext`. -/
def fltForm : Instr → Option LaneForm
  | .fadd _ a b c => some (.of a (two b c) fun xs => toF32 .rn ((F32 (xs.getD 0 0)).add .rn (F32 (xs.getD 1 0))))
  | .faddX _ ty m a b c => some (.of a (two b c) fun xs => toFty ty m ((Fty ty (xs.getD 0 0)).add m (Fty ty (xs.getD 1 0))))
  | .fsub _ a b c => some (.of a (two b c) fun xs => toF32 .rn ((F32 (xs.getD 0 0)).add .rn (F32 (xs.getD 1 0)).neg))
  | .fsubX _ ty m a b c => some (.of a (two b c) fun xs => toFty ty m ((Fty ty (xs.getD 0 0)).add m (Fty ty (xs.getD 1 0)).neg))
  | .fmul _ a b c => some (.of a (two b c) fun xs => toF32 .rn ((F32 (xs.getD 0 0)).mul (F32 (xs.getD 1 0))))
  | .fmulX _ ty m a b c => some (.of a (two b c) fun xs => toFty ty m ((Fty ty (xs.getD 0 0)).mul (Fty ty (xs.getD 1 0))))
  | .ffma _ a b c => some (.of (.reg a) [.v b, .v c, .old a 1] fun xs =>
      toF32 .rn (((F32 (xs.getD 0 0)).mul (F32 (xs.getD 1 0))).add .rn (F32 (xs.getD 2 0))))
  | .ffmaX _ ty m a b c d => some (.of a [.v b, .v c, .v d] fun xs =>
      toFty ty m (((Fty ty (xs.getD 0 0)).mul (Fty ty (xs.getD 1 0))).add m (Fty ty (xs.getD 2 0))))
  | .fdiv _ a b c => some (.of a (two b c) fun xs => toF32 .rn ((F32 (xs.getD 0 0)).div (F32 (xs.getD 1 0))))
  | .fdivX _ ty m a b c => some (.of a (two b c) fun xs => toFty ty m ((Fty ty (xs.getD 0 0)).div (Fty ty (xs.getD 1 0))))
  | .fsqrt _ a b => some (.of a [.v b] fun xs => toF32 .rn (F32 (xs.getD 0 0)).sqrt)
  | .fsqrtX _ ty m a b => some (.of a [.v b] fun xs => toFty ty m (Fty ty (xs.getD 0 0)).sqrt)
  | .fmin _ a b c => some (.of a (two b c) fun xs => BitVec.ofNat 32 (minmaxF fp32 false (xs.getD 0 0).toNat (xs.getD 1 0).toNat))
  | .fmax _ a b c => some (.of a (two b c) fun xs => BitVec.ofNat 32 (minmaxF fp32 true (xs.getD 0 0).toNat (xs.getD 1 0).toNat))
  | .fabs _ a b => some (.of a [.v b] fun xs => BitVec.ofNat 32 ((xs.getD 0 0).toNat % 2 ^ 31))
  | .fneg _ a b => some (.of a [.v b] fun xs => BitVec.ofNat 32 ((xs.getD 0 0).toNat + 2 ^ 31))
  | .fscl _ a b c => some (.of a (two b c) fun xs => toF32 .rn ((F32 (xs.getD 0 0)).scale (clampTo (-512) 512 (xs.getD 1 0).toInt)))
  | .fsclX _ m a b c => some (.of a (two b c) fun xs => toF32 m ((F32 (xs.getD 0 0)).scale (clampTo (-512) 512 (xs.getD 1 0).toInt)))
  | .pdot4 _ ty st m a b c d => some (.of a [.v b, .v c, .v d] fun xs => dotOf 4 ty st m xs)
  | .pdot8 _ ty st m a b c d => some (.of a [.v b, .v c, .v d] fun xs => dotOf 8 ty st m xs)
  | .hadd2 _ ty m a b c => some (.of a (two b c) (halves fun xs => toFty ty m ((Fty ty (xs.getD 0 0)).add m (Fty ty (xs.getD 1 0)))))
  | .hmul2 _ ty m a b c => some (.of a (two b c) (halves fun xs => toFty ty m ((Fty ty (xs.getD 0 0)).mul (Fty ty (xs.getD 1 0)))))
  | .hfma2 _ ty m a b c d => some (.of a [.v b, .v c, .v d]
      (halves fun xs => toFty ty m (((Fty ty (xs.getD 0 0)).mul (Fty ty (xs.getD 1 0))).add m (Fty ty (xs.getD 2 0)))))
  | .vext _ ty st a b i => some (convForm a ty b fun xs old =>
      let v := if st.narrowInt then (xs.getD 0 0).toNat / 2 ^ (st.width * i.toNat) % 2 ^ st.width else (xs.getD 0 0).toNat
      if st.narrowInt then scalarOf ty (convert ty st .rn v)
      else if ty.narrowInt then elemInto old ty.width i.toNat (convert ty st .rn v) else BitVec.ofNat 32 (convert ty st .rn v))
  | .fcvt _ ty st m a b i j => some (cvtForm a j b fun xs old =>
      let v := if st.width < 32 then (xs.getD 0 0).toNat / 2 ^ (st.width * i.toNat) % 2 ^ st.width else (xs.getD 0 0).toNat
      if j = 0 then scalarOf ty (convert ty st m v) else elemInto old ty.width (j.toNat - 1) (convert ty st m v))
  | .cfnorm _ a b c => some (.of a (two b c) fun xs => BitVec.ofNat 32 (cfRound fp32 .rn ⟨xs.getD 0 0, xs.getD 1 0⟩))
  | .cfnormX _ ty m a b c => some (.of a (two b c) fun xs => BitVec.ofNat 32 (cfRound (fmtOf ty) m ⟨xs.getD 0 0, xs.getD 1 0⟩))
  | _ => none

end Sys2Proof

/-- R237 to R243, R245, R185: each result is the exact value of its operands rounded once (R83). -/
def Obligations.VectorFloat : Prop :=
  ∀ i F s c, i.wf → fltForm i = some F → s.cur = some c → c.empty = false → ready? s c F.ops (.v F.dst) false = none →
    ∃ t, exec i s = .next t ∧ effectIs (F.written s c) t

/-- The frame of every lane-wise instruction in its register forms. -/
def Obligations.VectorFrame : Prop :=
  ∀ i F s c n, i.wf → (intForm i = some F ∨ fltForm i = some F) → F.dst = .reg n → (∀ o ∈ F.ops, o.isReg = true) → s.cur = some c →
    c.sane → c.empty = false → ready? s c F.ops (.v F.dst) false = none → ∃ t, exec i s = .next t ∧ vecDone s t c F n.toNat

namespace Sys2Proof

/-- Of the vector registers only the pair at a changes, in the lanes of the active set; its quads are untagged there (R101). -/
def othersOfPair (u t : State) (c : Cur) (a : BitVec 6) : Prop :=
  (∀ k r l, ¬((r = a.toNat ∨ r = a.toNat + 1) ∧ ∃ g m, (g, m) ∈ c.act ∧ k = gkey c.blk g ∧ l ∈ lanesOf m) → t.cellAt k r l = u.cellAt k r l) ∧
  ∀ k q l, t.tagAt k q l = (u.tagAt k q l &&
    !(decide (q = a.toNat / 4 ∨ q = (a.toNat + 1) / 4) && c.act.any fun x => k == gkey c.blk x.1 && (lanesOf x.2).contains l))

/-- `cfadd`: CfAdd on the pair B and the value C (R92, R245), both words of each active lane's pair. -/
def CfAddWord : Prop :=
  ∀ e a b v s c, s.cur = some c → c.sane → c.empty = false → ready? s c [.r b 2, .v v] (.r a 2) false = none →
    ∃ t, exec (.cfadd e a b v) s = .next t ∧ t.cur = none ∧ outside (consume s c [.r b 2, .v v]) t ∧
      groupsKept Group.noV (consume s c [.r b 2, .v v]) t ∧
      (∀ g l x y z, s.opsOf c [.r b 2, .v v] g l = some [x, y, z] →
        let r := cfAdd ⟨x, y⟩ z
        t.cellAt (gkey c.blk g) a.toNat l = some (.val r.s) ∧ t.cellAt (gkey c.blk g) (a.toNat + 1) l = some (.val r.c)) ∧
      othersOfPair (consume s c [.r b 2, .v v]) t c a

/-! ### Predicates (R50, R182, R239) -/

/-- Four words of a lane as a capability, and whether it holds every permission of a set (R97, Table 7.2). -/
def wordsCap (xs : List Word) (i : Nat) (tag : Bool) : Cap :=
  ⟨BitVec.ofNat 128 (((List.range 4).map fun j => (xs.getD (i + j) 0).toNat * 2 ^ (32 * j)).sum), tag⟩
def holds (k : Cap) (need : Nat) : Bool := (List.range 12).all fun i => !need.testBit i || k.bits.getLsbD (106 + i)

/-- The instructions that write a p predicate: destination, operands, and a lane's bit. -/
def predForm : Instr → Option (BitVec 3 × List Opd × (Group → Nat → List Word → Bool))
  | .vceqB32 _ a b c => some (a, two b c, fun _ _ xs => decide (xs.getD 0 0 = xs.getD 1 0))
  | .vcneB32 _ a b c => some (a, two b c, fun _ _ xs => decide (xs.getD 0 0 ≠ xs.getD 1 0))
  | .vcltS32 _ a b c => some (a, two b c, fun _ _ xs => decide ((xs.getD 0 0).toInt < (xs.getD 1 0).toInt))
  | .vcltN32 _ a b c => some (a, two b c, fun _ _ xs => decide ((xs.getD 0 0).toNat < (xs.getD 1 0).toNat))
  | .vcleS32 _ a b c => some (a, two b c, fun _ _ xs => decide ((xs.getD 0 0).toInt ≤ (xs.getD 1 0).toInt))
  | .vcleN32 _ a b c => some (a, two b c, fun _ _ xs => decide ((xs.getD 0 0).toNat ≤ (xs.getD 1 0).toNat))
  | .fceq _ a b c => some (a, two b c, fun _ _ xs => (F32 (xs.getD 0 0)).eq (F32 (xs.getD 1 0)))
  | .fclt _ a b c => some (a, two b c, fun _ _ xs => (F32 (xs.getD 0 0)).lt (F32 (xs.getD 1 0)))
  | .fcle _ a b c => some (a, two b c, fun _ _ xs => (F32 (xs.getD 0 0)).lt (F32 (xs.getD 1 0)) || (F32 (xs.getD 0 0)).eq (F32 (xs.getD 1 0)))
  | .fcun _ a b c => some (a, two b c, fun _ _ xs => (F32 (xs.getD 0 0)).isNan || (F32 (xs.getD 1 0)).isNan)
  | .pand _ a b c => some (a, [], fun G l _ => (G.pred b).getLsbD l && (G.pred c).getLsbD l)
  | .por _ a b c => some (a, [], fun G l _ => (G.pred b).getLsbD l || (G.pred c).getLsbD l)
  | .pxor _ a b c => some (a, [], fun G l _ => (G.pred b).getLsbD l ^^ (G.pred c).getLsbD l)
  | .pnot _ a b => some (a, [], fun G l _ => !(G.pred b).getLsbD l)
  | .ctag _ a b c => some (a, [.r b 4, .v c], fun G l xs =>
      let k := wordsCap xs 0 (G.vtag (b.n.toNat / 4) l)
      k.tag && k.wellFormed && holds k ((xs.getD 4 0).toNat % 2 ^ 12))
  | _ => none

end Sys2Proof

/-- R182 on p, R239. -/
def Obligations.VectorPredicates : Prop :=
  ∀ i a ops f s c, predForm i = some (a, ops, f) → s.cur = some c → c.sane → c.empty = false → ready? s c ops .none false = none →
    ∃ t, exec i s = .next t ∧ predDone s (consume s c ops) t c ops a.toNat f

/-! ### Cross-lane instructions (R94, R187 to R190, R244, R245) -/

namespace Sys2Proof

/-- The cross-lane instructions with a vector result: an element's word from the whole active set. -/
def crossForm : Instr → Option (VDst × List Opd × (Nat → List Elem → Elem → Word))
  | .vshflB32 _ a b c => some (a, two b c, fun n es e =>
      ((es.find? fun x => x.i == (e.xs.getD 1 0).toNat % n).map fun x => x.xs.getD 0 0).getD 0)
  | .vrsumB32 _ a b => some (a, [.v b], fun _ es _ => BitVec.ofNat 32 (es.map fun x => (x.xs.getD 0 0).toNat).sum)
  | .vrminS32 _ a b => some (a, [.v b], fun _ es _ => BitVec.ofInt 32 ((es.map fun x => (x.xs.getD 0 0).toInt).min?.getD 0))
  | .vrminN32 _ a b => some (a, [.v b], fun _ es _ => BitVec.ofNat 32 ((es.map fun x => (x.xs.getD 0 0).toNat).min?.getD 0))
  | .vrmaxS32 _ a b => some (a, [.v b], fun _ es _ => BitVec.ofInt 32 ((es.map fun x => (x.xs.getD 0 0).toInt).max?.getD 0))
  | .vrmaxN32 _ a b => some (a, [.v b], fun _ es _ => BitVec.ofNat 32 ((es.map fun x => (x.xs.getD 0 0).toNat).max?.getD 0))
  | .vscanB32 _ a b => some (a, [.v b], fun _ es e =>
      BitVec.ofNat 32 ((es.filter fun x => decide (x.i ≤ e.i)).map fun x => (x.xs.getD 0 0).toNat).sum)
  | .fred _ m a b op => some (a, [.v b], fun _ es _ =>
      (treeNode (fun x y => if op = 0 then toF32 m ((F32 x).add m (F32 y)) else BitVec.ofNat 32 (minmaxF fp32 (op == 2) x.toNat y.toNat))
        (fun k => (es.find? fun x => x.i == k).map fun x => x.xs.getD 0 0) 11 0).getD 0)
  | _ => none

end Sys2Proof

/-- R189, R190, R244 over the elements of the active set; an element index is below 2,048 (R17, R94). -/
def Obligations.CrossLane : Prop :=
  ∀ i a ops f s c, crossForm i = some (a, ops, f) → s.cur = some c → c.empty = false → ready? s c ops (.v a) false = none →
    (∀ e ∈ elemsOf s c ops, e.i < 2048) →
    ∃ t, exec i s = .next t ∧ effectIs (writeCells (consume s c ops) c.blk a (crossResults s c ops (f (ecount s c)))) t

namespace Sys2Proof

/-- The moves from the vector file to a uniform register: each group's value (R187, R188). -/
def toUniForm : Instr → Option (BitVec 6 × List Opd × List (RSrc × Nat) × (State → Cur → List Elem → Nat → DWord))
  | .vfirst _ a b => some (a, [.v b], [], fun _ _ es _ => BitVec.ofNat 64 ((es.map fun x => (x.xs.getD 0 0).toNat).headD 0))
  | .vlane _ a b c => some (a, [.v b], [(c, 1)], fun s cu es _ =>
      let i := (s.sAt (gkey cu.blk cu.lead) c.n.toNat).toNat
      if i < ecount s cu then BitVec.ofNat 64 (((es.find? fun x => x.i == i).map fun x => (x.xs.getD 0 0).toNat).getD 0) else 0)
  | .vvote _ a b => some (a, [], [], fun s cu _ g => ((s.grp? cu.blk g).map fun G => G.pred b).getD 0 &&& tgetD cu.act g 0)
  | _ => none

end Sys2Proof

/-- R187, R188: the value is in s[a] of every group of the unit with an active lane; nothing else differs from the state in which the
operands have been taken. -/
def Obligations.VectorToUniform : Prop :=
  ∀ i a ops us f s c, toUniForm i = some (a, ops, us, f) → s.cur = some c → c.empty = false → ready? s c ops .none false = none →
    ∃ t, exec i s = .next t ∧ t.cur = none ∧ outside (freeS (consume s c ops) c us) t ∧ groupsKept Group.noS (freeS (consume s c ops) c us) t ∧
      (∀ g ∈ c.live, (s.grp? c.blk g).isSome → t.sAt (gkey c.blk g) a.toNat = f s c (elemsOf s c ops) g) ∧
      (∀ k r, ¬(r = a.toNat ∧ ∃ g ∈ c.live, k = gkey c.blk g) → t.sAt k r = (freeS (consume s c ops) c us).sAt k r) ∧
      ∀ k n, t.sTagAt k n = ((freeS (consume s c ops) c us).sTagAt k n && !(decide (n = a.toNat / 2) && c.live.any fun g => k == gkey c.blk g))

namespace Sys2Proof

/-- `cfred`: CfMerge over the fixed tree of the unit (R94, R245), in every active lane's pair. -/
def CfRedWord : Prop :=
  ∀ e a b s c, s.cur = some c → c.sane → c.empty = false → ready? s c [.r b 2] (.r a 2) false = none →
    (∀ x ∈ elemsOf s c [.r b 2], x.i < 2048) →
    ∃ t, exec (.cfred e a b) s = .next t ∧ t.cur = none ∧ outside (consume s c [.r b 2]) t ∧ groupsKept Group.noV (consume s c [.r b 2]) t ∧
      othersOfPair (consume s c [.r b 2]) t c a ∧
      ∀ g l xs, s.opsOf c [.r b 2] g l = some xs →
        let r := (treeNode cfMerge (fun k => ((elemsOf s c [.r b 2]).find? fun x => x.i == k).map fun x => CF.mk (x.xs.getD 0 0) (x.xs.getD 1 0))
          11 0).getD ⟨0, 0⟩
        t.cellAt (gkey c.blk g) a.toNat l = some (.val r.s) ∧ t.cellAt (gkey c.blk g) (a.toNat + 1) l = some (.val r.c)

end Sys2Proof

/-- R92, R94, R245: the compensated float words. -/
def Obligations.CompensatedFloat : Prop := CfAddWord ∧ CfRedWord

/-! ### Pending registers (R194 to R196, R246, R247) -/

namespace Sys2Proof

/-- A deferred operation (R246): the cell that it records, and its own result. -/
def defers (a : VDst) (ops : List Opd) (op : FOp) (t : Ty) (m : Rnd) (f : List Word → Word) :
    Option (VDst × List Opd × (List VCell → Option VCell) × (List Word → Word)) := some (a, ops, compF op t m, f)

/-- A composition that the word may make: for each instruction of Table 13.5 and R246, in any of their forms, the cell it composes. -/
def compForm : Instr → Option (VDst × List Opd × (List VCell → Option VCell) × (List Word → Word))
  | .vaddB32 _ a b c => some (a, two b c, compBin (· + ·), fun xs => xs.getD 0 0 + xs.getD 1 0)
  | .vsubB32 _ a b c => some (a, two b c, compBin (· - ·), fun xs => xs.getD 0 0 - xs.getD 1 0)
  | .vmulB32 _ a b c => some (a, two b c, compMul, fun xs => xs.getD 0 0 * xs.getD 1 0)
  | .vshlB32 _ a b c => some (a, two b c, compShl, fun xs => xs.getD 0 0 <<< ((xs.getD 1 0).toNat % 64))
  | .vmovB32 _ a b => some (a, [.v b], compUn id id, fun xs => xs.getD 0 0)
  | .vnegS32 _ a b => some (a, [.v b], compUn (fun x => -x) (fun x => -x), fun xs => -xs.getD 0 0)
  | .vnotB32 _ a b => some (a, [.v b], compUn (fun x => -x) (fun x => -x - 1), fun xs => ~~~ xs.getD 0 0)
  | .vaddiB32 _ a i => some (.reg a, [.old a 1], fun xs => compBin (· + ·) (xs ++ [.val (BitVec.ofInt 32 i.toInt)]),
      fun xs => xs.getD 0 0 + BitVec.ofInt 32 i.toInt)
  | .fadd _ a b c => defers a (two b c) .add .f32 .rn fun xs => toF32 .rn ((F32 (xs.getD 0 0)).add .rn (F32 (xs.getD 1 0)))
  | .faddX _ ty m a b c => defers a (two b c) .add ty m fun xs => toFty ty m ((Fty ty (xs.getD 0 0)).add m (Fty ty (xs.getD 1 0)))
  | .fsub _ a b c => defers a (two b c) .sub .f32 .rn fun xs => toF32 .rn ((F32 (xs.getD 0 0)).add .rn (F32 (xs.getD 1 0)).neg)
  | .fsubX _ ty m a b c => defers a (two b c) .sub ty m fun xs => toFty ty m ((Fty ty (xs.getD 0 0)).add m (Fty ty (xs.getD 1 0)).neg)
  | .fmul _ a b c => defers a (two b c) .mul .f32 .rn fun xs => toF32 .rn ((F32 (xs.getD 0 0)).mul (F32 (xs.getD 1 0)))
  | .fmulX _ ty m a b c => defers a (two b c) .mul ty m fun xs => toFty ty m ((Fty ty (xs.getD 0 0)).mul (Fty ty (xs.getD 1 0)))
  | .ffma _ a b c => defers (.reg a) [.v b, .v c, .old a 1] .fma .f32 .rn fun xs =>
      toF32 .rn (((F32 (xs.getD 0 0)).mul (F32 (xs.getD 1 0))).add .rn (F32 (xs.getD 2 0)))
  | .ffmaX _ ty m a b c d => defers a [.v b, .v c, .v d] .fma ty m fun xs =>
      toFty ty m (((Fty ty (xs.getD 0 0)).mul (Fty ty (xs.getD 1 0))).add m (Fty ty (xs.getD 2 0)))
  | .fdiv _ a b c => defers a (two b c) .div .f32 .rn fun xs => toF32 .rn ((F32 (xs.getD 0 0)).div (F32 (xs.getD 1 0)))
  | .fdivX _ ty m a b c => defers a (two b c) .div ty m fun xs => toFty ty m ((Fty ty (xs.getD 0 0)).div (Fty ty (xs.getD 1 0)))
  | .fsqrt _ a b => defers a [.v b] .sqrt .f32 .rn fun xs => toF32 .rn (F32 (xs.getD 0 0)).sqrt
  | .fsqrtX _ ty m a b => defers a [.v b] .sqrt ty m fun xs => toFty ty m (Fty ty (xs.getD 0 0)).sqrt
  | .fmin _ a b c => defers a (two b c) .min .f32 .rn fun xs => BitVec.ofNat 32 (minmaxF fp32 false (xs.getD 0 0).toNat (xs.getD 1 0).toNat)
  | .fmax _ a b c => defers a (two b c) .max .f32 .rn fun xs => BitVec.ofNat 32 (minmaxF fp32 true (xs.getD 0 0).toNat (xs.getD 1 0).toNat)
  | .fabs _ a b => defers a [.v b] .abs .f32 .rn fun xs => BitVec.ofNat 32 ((xs.getD 0 0).toNat % 2 ^ 31)
  | .fneg _ a b => defers a [.v b] .neg .f32 .rn fun xs => BitVec.ofNat 32 ((xs.getD 0 0).toNat + 2 ^ 31)
  | .fscl _ a b c => defers a (two b c) .scl .f32 .rn fun xs => toF32 .rn ((F32 (xs.getD 0 0)).scale (clampTo (-512) 512 (xs.getD 1 0).toInt))
  | .fsclX _ m a b c => defers a (two b c) .scl .f32 m fun xs => toF32 m ((F32 (xs.getD 0 0)).scale (clampTo (-512) 512 (xs.getD 1 0).toInt))
  | _ => none

/-- R194, R246, R247: whatever value arrives, the composed state resolves to what the instruction computes of the resolved operands. -/
def CompositionExact : Prop :=
  ∀ i a ops comp f (cells : List VCell) z (v : Word), compForm i = some (a, ops, comp, f) → cells.length = ops.length → comp cells = some z →
    z.resolve v = f (cells.map fun x => x.resolve v)

/-- R194, R195, R246: with a pending operand of an open symbol and SYM set, such a word composes and does not wait. -/
def CompositionIssues : Prop :=
  ∀ i a ops comp f s c, compForm i = some (a, ops, comp, f) → s.cur = some c → c.empty = false → c.sym = true → a.isReg = true →
    pendingOf s c ops ≠ [] → waitedPend s c = false → (∀ x ∈ pendingOf s c ops, ∃ k o, opOfSym s x.2.2 = some (k, o) ∧ o.closed = false) →
    (∀ x ∈ readOps s c ops, ∀ y ∈ x.2, (comp y.2).isSome) → ready? s c ops (.v a) true = none →
    ∃ t, exec i s = .next t ∧
      effectIs (writeCells (consume s c ops) c.blk a ((readOps s c ops).map fun x => (x.1, x.2.map fun y => (y.1, (comp y.2).getD (.val 0))))) t

end Sys2Proof

/-- R194 to R196, R246, R247: composing words go on without their values, and the values come out as they would have. -/
def Obligations.Composition : Prop := CompositionExact ∧ CompositionIssues

/-! ### Words without an effect of their own (R54, R69, R159) -/

namespace Sys2Proof

/-- `nop` and the hints, and a `wait` that need not wait: at lane scope, or with no lane of the active set above a limit. A wide wait
that observes copies is an acquire as well, and is stated with the acquires. -/
def plainWord (s : State) (c : Cur) : Instr → Bool
  | .nop _ => true
  | .hint _ _ _ _ _ => true
  | .wait e lim => e == .lane || (lim.c == 7 && (waiting s c lim).isEmpty)
  | _ => false

/-- The clause that follows (R44). -/
def fallOf (cl : Clause) : Nat := cl.addr + 4 * (1 + cl.words.length)

/-- Past an instruction of k words (R22): the next position of the clause, or the clause boundary after it. -/
def goneBy (j : Issuer) (cl : Clause) (k : Nat) : Issuer :=
  if cl.off + k < cl.words.length then { j with cl := some { cl with idx := cl.idx + 1, off := cl.off + k }, wait := .go, closed := false }
  else { j with cl := none, code := j.code.setCur (fallOf cl), wait := .go, closed := false }

/-- R22, R332: an instruction that retires takes the issuers that issued it, and no other, to the next position, and RC of the block
rises by one for each group of the unit of the issue (it saturates where the block is not replayable). -/
def retires (s t : State) (c : Cur) : Prop :=
  c.arr.Nodup → (∀ r ∈ c.arr, r.gidx < 32) →
    (∀ r ∈ c.arr, ∀ j cl, s.issuer? r = some j → j.cl = some cl → t.issuer? r = some (goneBy j cl c.k)) ∧
    (∀ r, r ∉ c.arr → r.gidx < 32 → t.issuer? r = s.issuer? r) ∧
    (tget? t.blocks c.blk).map (·.rc) = (tget? s.blocks c.blk).map fun B => min (B.rc + (match c.e with
      | .lane => 1
      | e => (unitGroups s c.blk c.lead e).length)) (2 ^ 32 - 1)

/-- R54, R69, R159: such a word only passes. -/
def PlainWordsPass : Prop :=
  ∀ i s c, plainWord s c i = true → s.cur = some c → ∃ t, exec i s = .next t ∧ effectIs s t ∧ retires s t c

/-- R31: with an empty active set an instruction has no effect: the tables of uniform, vector, predicate and cross-lane words. -/
def EmptyActiveSet : Prop :=
  ∀ i s c, (uniForm i).isSome ∨ (uniPredForm i).isSome ∨ (intForm i).isSome ∨ (fltForm i).isSome ∨ (predForm i).isSome ∨ (crossForm i).isSome ∨
      (toUniForm i).isSome →
    s.cur = some c → c.empty = true → ∃ t, exec i s = .next t ∧ effectIs s t ∧ retires s t c

/-- R41, R159: `yield` changes nothing but what the next choices of a turn remember of its group: that it yielded, and which of its
group's other issuers can issue and come before the one that yielded. -/
def YieldWord : Prop :=
  ∀ (s : State) (c : Cur) (r : IRef) (i : Issuer) (cl : Clause) (G : Group) (m : Lanes), c.byOne s r i cl G m →
    ∃ t, exec .yield s = .next t ∧ t.cur = none ∧ outside s t ∧ retires s t c ∧ groupsKept (fun G => { G.noPos with yielded := [] }) s t ∧
      (∀ k, k ≠ gkey r.blk r.gidx → (tget? t.groups k).map (·.yielded) = (tget? s.groups k).map (·.yielded)) ∧
      ∃ H, t.grp? r.blk r.gidx = some H ∧ ∀ x, x ∈ H.yielded ↔ x ∈ G.yielded ∨ x = 4225 ∨
        ∃ k j, k ≠ r.iss ∧ k ∈ G.issuers ∧ G.issuer? k = some j ∧ j.runnable = true ∧ x = 65 * r.iss + k

/-- The same of the word that does nothing else (R22, R332). -/
def WordsRetire : Prop :=
  ∀ e (s : State) (c : Cur), s.cur = some c → ∃ t, exec (.nop e) s = .next t ∧ retires s t c

end Sys2Proof

/-- R22, R31, R54, R69, R159, R332: words without an effect of their own, and how any word retires. -/
def Obligations.PlainWords : Prop := PlainWordsPass ∧ EmptyActiveSet ∧ YieldWord ∧ WordsRetire

/-! ### Control transfers (R24, R154 to R157) -/

namespace Sys2Proof

/-- The address a transfer of form I names. -/
def targetOf (cl : Clause) (t : BitVec 16) : Nat := (((cl.addr : Int) + 4 * t.toInt) % 2 ^ 44).toNat

/-- InstallCode (R155): the capability unsealed, or none where a check fails. -/
def installed (k : Cap) : Option Cap :=
  if k.tag ∧ k.has Perm.x ∧ k.cur % 4 = 0 ∧ k.base ≤ k.cur ∧ k.cur + 8 ≤ k.top then some (k.set 115 115 0) else none

/-- What the transfers do in a lane: operands, destination, the code capability it goes on with, and what it writes at d. -/
structure Transfer where
  ops : List Opd
  dst : Dst
  dest : Group → Issuer → Clause → Nat → List Word → Option Cap
  d : Nat
  words : List Word → List Word
  link : Bool

def transferForm : Instr → Option Transfer
  | .jmp t => some ⟨[], .none, fun _ i cl _ _ => some (i.code.setCur (targetOf cl t)), 0, fun _ => [], false⟩
  | .bra p t => some ⟨[], .none, fun G i cl l _ => some (i.code.setCur (if (G.pred p).getLsbD l then targetOf cl t else fallOf cl)), 0, fun _ => [], false⟩
  | .bru q t => some ⟨[], .none, fun G i cl _ _ => some (i.code.setCur (if G.qpred q then targetOf cl t else fallOf cl)), 0, fun _ => [], false⟩
  | .jmpc a => some ⟨[.r a 4], .none, fun G _ _ l xs => installed (capAt G l a xs 0), 0, fun _ => [], false⟩
  | .ret a => some ⟨[.r a 4], .none, fun G _ _ l xs => installed (capAt G l a xs 0), 0, fun _ => [], false⟩
  | .call a t => some ⟨[], .r a 4, fun _ i cl _ _ => some (i.code.setCur (targetOf cl t)), a.toNat, fun _ => [], true⟩
  | .callc a b => some ⟨[.r b 4], .r a 4, fun G _ _ l xs => installed (capAt G l b xs 0), a.toNat, fun _ => [], true⟩
  | .loop a t => some ⟨[.r ⟨a, false⟩ 1], .r a 1,
      fun _ i cl _ xs => some (i.code.setCur (if xs.getD 0 0 - 1 = 0 then fallOf cl else targetOf cl t)), a.toNat, fun xs => [xs.getD 0 0 - 1], false⟩
  | _ => none

/-- The link of a call (R155): the lane's own code capability at the fall-through address, sealed and tagged; a sweep in progress checks
it (R119). -/
def linkOf (s : State) (b : Nat) (i : Issuer) (cl : Clause) : Cap :=
  let k := i.code.setCur (fallOf cl)
  sweepCheck s (pasidOf s b) { k.set 117 106 (k.perm ||| 0x200) with tag := true }

end Sys2Proof

/-- R24, R154, R155: each active lane goes on at its own place, the lanes of the issuer that are not active at the clause that follows;
a call writes its link, a loop its counter; every other register lane and the tag of every other quad, but for those a last use frees, and
everything outside the groups is as before. -/
def Obligations.ControlTransfers : Prop :=
  ∀ ins T (s : State) (c : Cur) (r : IRef) (i : Issuer) (cl : Clause) (G : Group) (m : Lanes), transferForm ins = some T → c.byOne s r i cl G m → ready? s c T.ops T.dst false = none →
    (∀ l ∈ lanesOf m, ∀ xs, s.opsOf c T.ops r.gidx l = some xs → (T.dest G i cl l xs).isSome) →
    ∃ t H, exec ins s = .next t ∧ t.cur = none ∧ t.grp? r.blk r.gidx = some H ∧ outside s t ∧ othersKept (gkey r.blk r.gidx) s t ∧
      { H.noIss with v := [], vt := [], vl := [], vDirty := [] } = { G.noIss with v := [], vt := [], vl := [], vDirty := [] } ∧
      (∀ l ∈ lanesOf i.lanes, ∃ j, H.laneIssuer l = some j ∧ j.cl = none ∧ j.wait = .go ∧ j.lanes.getLsbD l = true ∧
        ∀ xs, s.opsOf c T.ops r.gidx l = some xs → some j.code = T.dest G i cl l xs) ∧
      (∀ l ∈ lanesOf i.lanes, l ∉ lanesOf m → ∃ j, H.laneIssuer l = some j ∧ j.code = i.code.setCur (fallOf cl)) ∧
      (∀ l ∈ lanesOf m, ∀ xs, s.opsOf c T.ops r.gidx l = some xs →
        (∀ j w, (T.words xs)[j]? = some w → H.cell (T.d + j) l = some (.val w)) ∧ (T.link = true → H.quadIs T.d l (linkOf s r.blk i cl))) ∧
      (∀ q l, ¬(l ∈ lanesOf m ∧ (q ∈ T.dst.regs ∨ freedV T.ops q)) → H.cell q l = G.cell q l) ∧
      (∀ n l, ¬(l ∈ lanesOf m ∧ ∃ q, q / 4 = n ∧ (q ∈ T.dst.regs ∨ freedV T.ops q)) → H.vtag n l = G.vtag n l) ∧
      ∀ q l, l ∈ lanesOf m → (q ∈ T.dst.regs ∧ T.link = false) ∨ (q ∉ T.dst.regs ∧ freedV T.ops q ∧ ¬(T.link = true ∧ q / 4 = T.d / 4)) →
        H.vtag (q / 4) l = false

/-- R24: of the stream, the part that goes where the lowest active lane goes stays the stream; every other lane diverges alone. -/
def Obligations.StreamSpreads : Prop :=
  ∀ ins T (s : State) (c : Cur) (r : IRef) (i : Issuer) (cl : Clause) (G : Group) (m : Lanes) (l0 : Nat), transferForm ins = some T → c.byOne s r i cl G m → r.iss = 0 → ready? s c T.ops T.dst false = none →
    (∀ l ∈ lanesOf m, ∀ xs, s.opsOf c T.ops r.gidx l = some xs → (T.dest G i cl l xs).isSome) → (lanesOf m).head? = some l0 →
    ∃ t H j0, exec ins s = .next t ∧ t.grp? r.blk r.gidx = some H ∧ H.stream.lanes.getLsbD l0 = true ∧ H.laneIssuer l0 = some j0 ∧
      ∀ l ∈ lanesOf i.lanes, ∃ j, H.laneIssuer l = some j ∧ (H.stream.lanes.getLsbD l = true ↔ j.code = j0.code) ∧
        (H.stream.lanes.getLsbD l = false → j.lanes = laneBit l)

namespace Sys2Proof

/-- No issuer of any group waits on a channel. -/
def noneAtChannel (s : State) : Prop :=
  ∀ k K, tget? s.groups k = some K → ∀ x j, K.issuer? x = some j → ∀ n, j.wait ≠ .chan n

end Sys2Proof

/-- R157, R158: `exit` ends its active lanes, whose registers hold nothing any longer; the others of the issuer fall through, and where
lanes of the group are left nothing else changes. A group whose lanes have all exited releases its uniform state and its channels; when
every lane of every group of the block has exited, the block drains. No operation of the lanes met a fault, and no issuer waits on a
channel (what such a waiter meets is R223's). -/
def Obligations.Exit : Prop :=
  ∀ (s : State) (c : Cur) (r : IRef) (i : Issuer) (cl : Clause) (G : Group) (m : Lanes), c.byOne s r i cl G m → (∀ x ∈ s.ops, x.2.blk = r.blk → ∀ q ∈ x.2.lanes, ∀ code, q.ph ≠ .faulted code) →
    noneAtChannel s →
    ∃ t H, exec .exit s = .next t ∧ t.cur = none ∧ bytesKept s t ∧ t.grp? r.blk r.gidx = some H ∧ othersKept (gkey r.blk r.gidx) s t ∧
      H.exited = G.exited ||| m ∧ H.parked = G.parked &&& ~~~m ∧
      (∀ q l, l ∈ lanesOf m → H.cell q l = none ∧ H.vtag (q / 4) l = false) ∧
      (∀ q l, l ∉ lanesOf m → H.cell q l = G.cell q l ∧ H.vtag (q / 4) l = G.vtag (q / 4) l) ∧
      (r.iss = 0 → H.div = G.div ∧ H.stream =
        if i.lanes &&& ~~~m = 0#64 then { i with lanes := 0#64, cl := none, wait := .go, closed := false, buf := [] }
        else { goneBy i cl c.k with lanes := i.lanes &&& ~~~m }) ∧
      (∀ l, r.iss = l + 1 → H.stream = G.stream ∧ ∀ x, tget? H.div x = if x = l then none else tget? G.div x) ∧
      (let bare (K : Group) : Group := { K.noIss with v := [], vt := [], vl := [], exited := 0, parked := 0 }
       if H.exited = ~~~0#64 then
         bare H = { bare G with s := [], st := [], p := [], q := 0#8, shadow := [], chans := [], msamp := none }
       else bare H = bare G) ∧
      { t.rest with fqs := [] } = { s.rest with fqs := [] } ∧
      (∀ k, tget? t.fqs k = if H.exited = ~~~0#64 ∧ ∃ x ∈ G.chans, x.2.kind = 5 ∧ k = 256 * x.2.slot + x.2.rlen then
        (tget? s.fqs k).map fun q => { q with bound := none, elems := [], owed := q.owed + q.elems.length } else tget? s.fqs k) ∧
      (∀ b, (tget? t.blocks b).map Block.noRc = (tget? s.blocks b).map fun B =>
        if b = r.blk ∧ (∀ g ∈ s.groupsOf r.blk, (t.grp? r.blk g).map (·.exited) = some (~~~0#64)) then { B.noRc with phase := .draining } else B.noRc) ∧
      (∀ p, (tget? t.ctxs p).map Ctx.noMeter = (tget? s.ctxs p).map Ctx.noMeter) ∧
      (∀ w, (tget? t.worlds w).map World.noMeter = (tget? s.worlds w).map World.noMeter) ∧
      ∀ la, (tget? t.launches la).map Launch.noEnergy = (tget? s.launches la).map Launch.noEnergy

/-! ### Traps (R160, R35, R283, R284) -/

/-- R160, R35, R284: `trap` gives its code as DATA of a SOFT_TRAP record; at lane scope its lanes park, at a wider scope the unit is
suspended. -/
def Obligations.SoftTrap : Prop :=
  (∀ e (code : BitVec 16) (s : State) (c : Cur) (r : IRef) (i : Issuer) (cl : Clause) (G : Group) (m : Lanes), c.byOne s r i cl G m →
    ∃ t, exec (.trap e code) s = .next t ∧ lanesPark s t c r i cl G m 0x06 code.toNat) ∧
  ∀ e (code : BitVec 16) (s : State) (c : Cur), s.cur = some c → c.e ≠ .lane → c.empty = false → c.sane → (unitGroups s c.blk c.lead c.e).Nodup →
    ∃ t, exec (.trap e code) s = .next t ∧ unitSuspends s t c 0x06 code.toNat

/-! ### Releases, acquires and barriers (R134, R145, R161 to R165, R216) -/

namespace Sys2Proof

/-- Nothing of the active lanes is left to release, after the release has drained what it drains. -/
def releasesNow (s : State) (c : Cur) : Prop :=
  faultedOf (releaseStart s c.blk c.elems) c.blk c.elems (fun _ => true) = [] ∧ released (releaseStart s c.blk c.elems) c.blk c.elems = true

/-- The synchronizing words: the state they leave, and when they need not wait. -/
def syncForm (s : State) (c : Cur) : Instr → Option (State × Prop)
  | .bar _ => some (acquireNow (releaseStart s c.blk c.elems) c, releasesNow s c)
  | .fence _ => some (acquireNow (releaseStart s c.blk c.elems) c, releasesNow s c)
  | .release _ => some (releaseStart s c.blk c.elems, releasesNow s c)
  | .acquire _ => some (acquireNow s c, atomicsDone s c.blk c.elems = true)
  | .wait e lim => if e ≠ .lane ∧ lim.c ≠ 7 then some (acquireNow s c, waiting s c lim = []) else none
  | _ => none

end Sys2Proof

/-- R145, R161, R216 and the acquire of a wide `wait` (Table 9.7): when the release is done the word goes on, and an acquire leaves in
the core's L1 only the words that the core owns. -/
def Obligations.ReleasesAndAcquires : Prop :=
  ∀ i s c u p, syncForm s c i = some (u, p) → s.cur = some c → c.empty = false → p →
    ∃ t, exec i s = .next t ∧ effectIs u t ∧
      ((∀ e, i ≠ .release e) → ∀ x ∈ (t.core (homeOf s c.blk)).l1, tget? t.mem.wordOwner x.1 = some (homeOf s c.blk)) ∧
      ((∀ e, i ≠ .acquire e) → (∀ e l, i ≠ .wait e l) → released t c.blk c.elems = true)

namespace Sys2Proof

/-- The two arrival flags of a group at a split barrier. -/
def arrAt (s : State) (k n : Nat) : Option Arr := (tget? s.groups k).map fun G => G.arrOf n

/-- R162: a `bara` that meets no fault arrives for each live group with the phase at its arrival, and the last arrival ends the phase; a
`barw` whose groups' phases have ended passes and acquires. Every other split barrier and flag is as before. -/
def SplitBarriers : Prop :=
  (∀ e (k : BitVec 4) (n : BitVec 6) s c, s.cur = some c → c.empty = false → (∃ B, tget? s.blocks c.blk = some B) →
    (∀ g ∈ c.live, (arrOf s c.blk g k.toNat).arr = false) → n.toNat + 1 ≤ (gridOfB s c.blk).groups →
    ((sbOf s c.blk k.toNat).exp = 0 ∨ (sbOf s c.blk k.toNat).exp = n.toNat + 1) → (sbOf s c.blk k.toNat).cnta + c.live.length ≤ n.toNat + 1 →
    releasesNow s c →
    let u := releaseStart s c.blk c.elems
    let b := sbOf u c.blk k.toNat
    ∃ t, exec (.bara e k n) s = .next t ∧ effectBut (fun B => { B.noRc with sbs := [] }) (fun G => { G.noPos with arr := [] }) u t ∧
      sbOf t c.blk k.toNat = (if b.cnta + c.live.length = n.toNat + 1 then ⟨!b.ph, 0, 0⟩ else ⟨b.ph, b.cnta + c.live.length, n.toNat + 1⟩) ∧
      (∀ x j, ¬(x = c.blk ∧ j = k.toNat) → sbOf t x j = sbOf u x j) ∧
      ∀ x j, arrAt t x j = if x ∈ c.keys ∧ j = k.toNat then (arrAt u x j).map fun _ => ⟨true, b.ph⟩ else arrAt u x j) ∧
  ∀ e (k : BitVec 4) s c, s.cur = some c → c.empty = false → atomicsDone s c.blk c.elems = true →
    (∀ g ∈ c.live, (arrOf s c.blk g k.toNat).arr = true → (arrOf s c.blk g k.toNat).aph ≠ (sbOf s c.blk k.toNat).ph) →
    ∃ t, exec (.barw e k) s = .next t ∧ effectBut Block.noRc (fun G => { G.noPos with arr := [] }) (acquireNow s c) t ∧
      ∀ x j, arrAt t x j = if x ∈ c.keys ∧ j = k.toNat then (arrAt s x j).map fun a => { a with arr := false } else arrAt s x j

/-- The barriers among blocks, and where each is permitted. -/
def instForm (s : State) (c : Cur) : Instr → Option BarKind
  | .gbar => some .gang
  | .grdbar => if (gridOfB s c.blk).cor then some .grid else none
  | .sstepCluster => some .cluster
  | .sstepDie => some .die
  | _ => none

/-- R134, R164, R165: after its release the block waits for its instance (its lanes leave with the instance, `InstanceArrivals`); in a
view's re-execution, where the log's completion stands for the instance, the issuers pass: that clause is the model's choice (assumption
48). -/
def InstanceBarriers : Prop :=
  ∀ i k s c B, instForm s c i = some k → s.cur = some c → tget? s.blocks c.blk = some B → releasesNow s c →
    let u := releaseStart s c.blk c.elems
    ∃ t, exec i s = .next t ∧ t.cur = none ∧
      (s.sandbox = none → effectBut (fun B => { B.noRc with barw := none }) Group.noPos u t ∧
        (∀ b, (tget? t.blocks b).map (·.barw) = (tget? u.blocks b).map fun T => if b = c.blk then some ⟨k, false, c.act⟩ else T.barw) ∧
        ∀ r ∈ c.arr, ∀ j, u.issuer? r = some j → t.issuer? r = some { j with wait := .inst }) ∧
      (s.sandbox.isSome → effectBut (fun B => { B.noRc with barw := none }) Group.noPos (if c.empty then u else acquireCore u (homeOf u c.blk)) t ∧
        (tget? t.blocks c.blk).map (·.barw) = some none ∧
        (c.arr.Nodup → ∀ r ∈ c.arr, r.blk = c.blk → r.gidx < 32 → ∀ j, u.issuer? r = some j → j.cl.isSome → t.issuer? r = some (j.past 1)))

end Sys2Proof

/-- R134, R162 to R165: split barriers, and barriers among blocks. That the issuers of a view's re-execution pass them is the model's
reading (DEDUCED, assumption 48). -/
def Obligations.Barriers : Prop := SplitBarriers ∧ InstanceBarriers

/-! ### Work creation (R38, R39, R166) -/

namespace Sys2Proof

/-- The release of a fork (R40): every lane of the block's groups; it waits for no faulted operation of its issuers' lanes. -/
def blockElems (s : State) (b : Nat) : List (Nat × Nat) := (s.groupsOf b).flatMap fun g => (List.range 64).map fun l => (g, l)
def blockReleased (s : State) (c : Cur) : Prop :=
  let u := releaseStart s c.blk (blockElems s c.blk)
  faultedOf u c.blk ((lanesBy u c.arr (·.lanes)).flatMap fun x => (lanesOf x.2).map fun l => (x.1, l)) (fun _ => true) = [] ∧
    released u c.blk (blockElems s c.blk) = true

end Sys2Proof

/-- R166, R38 to R40, R21: a fork whose checks pass and whose record is accepted makes the child grid and begins the save of its block,
which goes on when the child has ended; a rejected one gives its status in s[a]. -/
def Obligations.Fork : Prop :=
  ∀ (a : BitVec 6) (b : RSrc) s c B B' x, s.cur = some c → c.empty = false → tget? s.blocks c.blk = some B → s.sandbox = none →
    let off := (s.sAt (gkey c.blk c.lead) b.n.toNat).toNat
    let g := s.gridOf B
    off % 64 = 0 → off + 96 ≤ B.spmLen → g.gngb ≤ 1 → g.clug ≤ 1 → g.diec ≤ 1 → g.cor = false → g.depth < 8 → blockReleased s c →
    let u := releaseStart s c.blk (blockElems s c.blk)
    tget? u.blocks c.blk = some B' → ctxOf u c.blk = some x →
    let code := recordCode u x (leNat ((blockSpm u c.blk).read off 64)) true
    ∃ t, exec (.fork a b) s = .next t ∧ released t c.blk (blockElems s c.blk) = true ∧
      (code ≠ 0 → effectIs (putUni (freeS u c [(b, 1)]) c a (BitVec.ofNat 64 code)) t) ∧
      (code = 0 →
        let k := childGrid u c.blk off B'
        effectBut (fun B => { B.noRc with forks := 0, forkDst := none, phase := .resident, foldTo := none }) Group.noPos
          { freeS u c [(b, 1)] with grids := tset u.grids u.nextId k, nextId := u.nextId + 1 } t ∧
        k.depth = (u.gridOf B').depth + 1 ∧ k.parent = some c.blk ∧ k.launch = (u.gridOf B').launch ∧ k.pasid = B'.pasid ∧
        k.pri = (u.gridOf B').pri ∧ k.lvl7 = 1 + B'.forks ∧
        (tget? t.blocks c.blk).map (·.phase) = some .saving ∧
        (tget? t.blocks c.blk).map (·.forkDst) = some (some (a, c.live, u.nextId)) ∧
        (tget? t.blocks c.blk).map (·.forks) = some (B'.forks + 1) ∧
        ∀ y, y ≠ c.blk → (tget? t.blocks y).map (fun B => { B.noRc with foldTo := none }) = (tget? u.blocks y).map fun B => { B.noRc with foldTo := none })

/-! ### Special registers and operating points (R167 to R170, Tables 11.6 and 11.8) -/

namespace Sys2Proof

/-- Table 11.6 at a lane of a group: the value of a special register. -/
def specialReg (s : State) (b g l : Nat) (B : Block) : SReg → DWord
  | .lvl k =>
    let G := s.gridOf B
    let n : Nat := match k.toNat with
      | 0 => l
      | 1 => g % G.setg
      | 2 => g / G.setg
      | 3 => B.bidx % G.gngb
      | 4 => B.bidx / G.gngb % G.clug
      | 5 => B.bidx / (G.gngb * G.clug) % G.diec
      | 6 => B.bidx / (G.diec * G.clug * G.gngb)
      | _ => G.lvl7
    BitVec.ofNat 64 n
  | .gidx => BitVec.ofNat 64 g
  | .bidx => BitVec.ofNat 64 B.bidx
  | .cyc => BitVec.ofNat 64 ((s.die (B.home / 64)).cyc / 1000)
  | .reft => BitVec.ofInt 64 (max 0 ((s.reft : Int) + (s.die (B.home / 64)).skew))
  | .fstep =>
    let d := s.die (B.home / 64)
    BitVec.ofNat 64 (d.step % 128 + (if d.chg = none then 0 else 2 ^ 7) + 2 ^ 8 * (d.pstep % 128) + 2 ^ 16 * d.tchg.toNat + 2 ^ 48 * (d.chgs % 256))
  | .wsref =>
    let n := (max 0 ((s.reft : Int) + (s.die (B.home / 64)).skew)).toNat / 250 + 1
    BitVec.ofNat 64 (250 * n % 2 ^ 32 + 2 ^ 32 * (n % 32) + 2 ^ 40 * 120 + 2 ^ 48 * 250)
  | .eacc => BitVec.ofInt 64 (((tget? s.ctxs B.pasid).map (·.meter)).getD 0)
  | .ebkt => BitVec.ofInt 64 (((tget? s.ctxs B.pasid).map (·.level)).getD 0)
  | .world => BitVec.ofNat 64 (((tget? s.ctxs B.pasid).map (·.world)).getD 0)
  | .ctx => BitVec.ofNat 64 B.pasid
  | .view k => ((s.grp? b g).map fun G => tgetD G.views k.toNat 0#64).getD 0#64

/-- The sampled registers of R168 (those whose value can move between two reads), by their numbers in Table 3.18. -/
def shadowNo : SReg → Option Nat
  | .cyc => some 10
  | .reft => some 11
  | .fstep => some 12
  | .wsref => some 13
  | .eacc => some 14
  | .ebkt => some 15
  | .view k => some (18 + k.toNat)
  | _ => none

/-- The half that a read of a register gives at a lane, and the state after its sample (R168). -/
def halfOf (s : State) (b g l : Nat) (B : Block) (r : SReg) (hi : Bool) : Word :=
  match hi, shadowNo r with
  | false, _ => (specialReg s b g l B r).setWidth 32
  | true, none => (specialReg s b g l B r).extractLsb' 32 32
  | true, some n => (((s.grp? b g).map fun G => tgetD G.shadow n 0#64).getD 0#64).extractLsb' 32 32
def sampled (s : State) (c : Cur) (B : Block) (r : SReg) (hi : Bool) : State :=
  match hi, shadowNo r with
  | false, some n => c.live.foldl (fun t g => t.modGroup c.blk g fun G => { G with shadow := tput G.shadow n (specialReg s c.blk g 0 B r) 0#64 }) s
  | _, _ => s

/-- R167, R168: `rdsr` gives every active lane the half, `rdsu` every group of the unit the leading group's; a `.LO` read of a sampled
register keeps the sample for a later `.HI`. -/
def SpecialRegisterReads : Prop :=
  (∀ e a r hi s c B, s.cur = some c → c.sane → c.empty = false → tget? s.blocks c.blk = some B → s.sandbox = none → ready? s c [] (.v a) false = none →
    ∃ t, exec (.rdsr e a r hi) s = .next t ∧ effectBut Block.noLog Group.noPos (writeCells (sampled s c B r hi) c.blk a
      (c.live.map fun g => (g, (lanesOf (tgetD c.act g 0#64)).map fun l => (l, VCell.val (halfOf s c.blk g l B r hi))))) t) ∧
  ∀ e a r hi s c B, s.cur = some c → c.lead ∈ c.live → (s.grp? c.blk c.lead).isSome → tget? s.blocks c.blk = some B → s.sandbox = none →
    ∃ t, exec (.rdsu e a r hi) s = .next t ∧ effectBut Block.noLog Group.noPos
      (putUni (sampled s c B r hi) c a ((halfOf s c.blk c.lead ((c.elems.head?.map (·.2)).getD 0) B r hi).setWidth 64)) t

/-- R169: a half of a VIEW register; the bits that Table 17.9 reserves read as zero. -/
def ViewWrite : Prop :=
  ∀ e (v : BitVec 2) hi (a : RSrc) s c, s.cur = some c → c.empty = false →
    let w := (s.sAt (gkey c.blk c.lead) a.n.toNat).setWidth 32
    let val (k : Nat) : DWord :=
      let old := ((tget? s.groups k).map fun G => tgetD G.views v.toNat 0#64).getD 0#64
      (if hi then w ++ old.setWidth 32 else old.extractLsb' 32 32 ++ w) &&& 0xF3F3F3FFF#64
    ∃ t, exec (.srwr e v hi a) s = .next t ∧ effectIs (c.live.foldl (fun t g => t.modGroup c.blk g fun G =>
      { G with views := tput G.views v.toNat (val (gkey c.blk g)) 0#64, shadow := tput G.shadow (18 + v.toNat) (val (gkey c.blk g)) 0#64 })
      (freeS s c [(a, 1)])) t

/-- R170, R304: the answer to a request for a step and the domain after it. The step is brought into the partition's allowance, then
under the ceiling; status 0 as asked, 1 another step, 2 not the context's to ask, 3 no change. -/
def stepAnswer (d : Die) (may : Bool) (n now : Nat) : Nat × Die :=
  let cur := match d.want with | some w => w.1 | none => d.begun
  let t := min (max (min n (d.part.toNat / 2 ^ 14 % 128)) (d.part.toNat / 2 ^ 7 % 128)) (min d.lceil (min d.pceil d.derate))
  if may = false then (cur % 128 + 256 * 2, d)
  else if t = cur then (t % 128 + 256 * 3, d)
  else (t % 128 + 256 * (if t = n then 0 else 1), { d with want := if t = d.begun then none else some (t, 0, now) })
def StepRequest : Prop :=
  ∀ e a (n : BitVec 7) s c, s.cur = some c → c.empty = false → s.sandbox = none →
    let die := homeOf s c.blk / 64
    let may := (s.die die).part.toNat % 2 == 1 && ((ctxOf s c.blk).map (·.func)) == some ((s.die die).part.toNat / 2 % 64)
    let x := stepAnswer (s.die die) may n.toNat s.reft
    ∃ t, exec (.opreq e a n) s = .next t ∧ effectBut Block.noLog Group.noPos (putUni (s.setDie die x.2) c a (BitVec.ofNat 64 x.1)) t

/-! ### Meter requests, labels, trace, debug (R171 to R175) -/

/-- R171, R310, R172: `mtrq` reads the world's meter after its own charge (the model's choice, assumption 35), for a region of 4,096 bytes
that the pair gives W over at a multiple of 64; the number is 0 when four readings of the world are outstanding. `msamp` sets the
sampling of the leading group, whose first period begins with the first tick that begins after it: n + 2 ticks are still to be corrected
(the model's choice, assumption 26); a period that has ended keeps its sample. -/
def MeterRequests : Prop :=
  (∀ e (a : RSrc) b s c W, s.cur = some c → c.empty = false → s.sandbox = none → tget? s.worlds (worldOf s c.blk) = some W →
    let k := c.srcPair s a
    k.tag = true → k.sealed = false → holds k Perm.w = true → k.base ≤ k.cur → k.cur + 4096 ≤ k.top → k.cur % 64 = 0 →
    let s1 := chargeWord 0x0B .issue s
    let n := if 4 ≤ W.readings.length then 0 else if W.reqs + 1 = 2 ^ 32 then 1 else W.reqs + 1
    ∃ t, exec (.mtrq e a b) s = .next t ∧ effectBut Block.noLog Group.noPos
        (putUni (freeS (if n = 0 then s1 else (requestReading s1 c k).2) c [(a, 2)]) c b (BitVec.ofNat 64 n)) t ∧
      ∃ W' W1, tget? t.worlds (worldOf s c.blk) = some W' ∧ tget? s1.worlds (worldOf s c.blk) = some W1 ∧
        (n = 0 → W'.readings = W.readings ∧ W'.reqs = W.reqs) ∧
        (n ≠ 0 → W'.reqs = n ∧ W'.dies = [] ∧ ∃ r, W'.readings = W.readings ++ [r] ∧ r.req = n ∧ r.cap = k ∧ r.t1 = s.reft ∧ r.meter = W1.meter ∧
          r.pasid = pasidOf s c.blk)) ∧
  ∀ e (a : RSrc) (ch : BitVec 6) s c G x, s.cur = some c → c.empty = false → s.grp? c.blk c.lead = some G → tget? G.chans ch.toNat = some x → x.kind = 6 →
    let n := min (s.sAt (gkey c.blk c.lead) a.n.toNat).toNat 65535
    ∃ t, exec (.msamp e a ch) s = .next t ∧ effectIs ((freeS s c [(a, 1)]).modGroup c.blk c.lead fun G =>
      let drops := (G.msamp.map (·.drops)).getD 0
      let ended : Option Due := G.msamp.bind fun m =>
        if m.period ≠ 0 ∧ m.left ≤ 1 then some { chan := m.chan, wait := m.left == 1, start := m.start, bounded := m.bounded } else m.due
      let M : MSamp := { period := n, chan := ch, left := n + 2, start := 0, drops, bounded := false, due := ended }
      { G with msamp := if n = 0 ∧ drops = 0 ∧ ended = none then none else some M }) t

end Sys2Proof

/-- R167 to R172, R304: special registers, the step and the meter. That a reading follows the charge of its own issue (assumption 35), and
that the first period of `msamp` ends N + 2 ticks on (assumption 26), are the model's readings (DEDUCED). -/
def Obligations.SpecialRegisters : Prop := SpecialRegisterReads ∧ ViewWrite ∧ StepRequest ∧ MeterRequests

namespace Sys2Proof

/-- A context's debug setting writes and triggers nothing: the capture is not on and no label filter is enabled. -/
def quiet (s : State) (b : Nat) : Prop :=
  ∀ x, ctxOf s b = some x → x.cap ≠ .on ∧ x.dbg.getLsbD 561 = false ∧ x.dbg.getLsbD 562 = false

/-- R173: each group with an active lane pushes the label, or counts an overflow when it holds 16; a pop takes an overflow first. Nothing
else of any group changes, and where no trace or filter is set nothing else at all. -/
def Labels : Prop :=
  ∀ e (l : BitVec 16) s c, s.cur = some c → c.live.Nodup →
    (∃ t, exec (.rpush e l) s = .next t ∧ t.cur = none ∧ groupsKept (fun G => { G.noPos with labels := [], lovf := 0 }) s t ∧
      (∀ k, (tget? t.groups k).map (fun G => (G.labels, G.lovf)) = (tget? s.groups k).map fun G =>
        if k ∉ c.keys then (G.labels, G.lovf) else if G.labels.length < 16 then (l :: G.labels, G.lovf) else (G.labels, min 255 (G.lovf + 1))) ∧
      (quiet s c.blk → outside s t)) ∧
    ∃ t, exec (.rpop e) s = .next t ∧ t.cur = none ∧ groupsKept (fun G => { G.noPos with labels := [], lovf := 0 }) s t ∧
      (∀ k, (tget? t.groups k).map (fun G => (G.labels, G.lovf)) = (tget? s.groups k).map fun G =>
        if k ∉ c.keys then (G.labels, G.lovf) else if G.lovf ≠ 0 then (G.labels, G.lovf - 1) else (G.labels.drop 1, 0)) ∧
      (quiet s c.blk → outside s t)

/-- The capture requests of R338. -/
def capForm : Instr → Option (Ctx → Ctx)
  | .trctlStart _ => some fun x => { x with cap := .on, trp := 0 }
  | .trctlStop _ => some fun x => { x with cap := .off }
  | .trctlFreeze _ => some fun x => if x.cap = .on then { x with cap := .frozen } else x
  | .trctlThaw _ => some fun x => if x.cap = .frozen then { x with cap := .on } else x
  | _ => none

/-- The marker record of a group with value v (Table 27.5), written to the circular buffer where the group is traced: B is its block, rc
the retired count with the word. -/
def markerOf (s : State) (b : Nat) (B : Block) (v : BitVec 16) (rc : Nat) (u : State) (g : Nat) : State :=
  match tget? u.ctxs B.pasid, s.grp? b g with
  | some x, some G =>
    if traced x G then
      (devWrite u (some x.world) x.func (dbgField x 191 128 + 16 * (x.trp % (256 * dbgField x 47 32))) (natBytes 16
        (1 + 2 ^ 8 * (g % 32) + 2 ^ 16 * v.toNat + 2 ^ 32 * (B.bidx % 2 ^ 32) + 2 ^ 64 * (B.iv % 2 ^ 32) + 2 ^ 96 * rc))).modCtx B.pasid
        fun y => { y with trp := y.trp + 1 }
    else u
  | _, _ => u

/-- R174, R338, Table 27.5: `trctl` acts where the context's SELF bit is set and is a `nop` elsewhere; `trmark` writes a record of kind 1
for a traced group, and nothing where the capture is not on. At a wider scope it writes one for each group with an active lane, in
ascending order: that clause is the model's choice (assumption 89). -/
def TraceWords : Prop :=
  (∀ i f s c, capForm i = some f → s.cur = some c → c.empty = false → s.sandbox = none →
    ∃ t, exec i s = .next t ∧ effectIs
      (if ((ctxOf s c.blk).map fun x => x.dbg.getLsbD 0) = some true then s.modCtx (pasidOf s c.blk) f else s) t) ∧
  (∀ e (v : BitVec 16) s c, s.cur = some c → (∀ x, ctxOf s c.blk = some x → x.cap ≠ .on) → ∃ t, exec (.trmark e v) s = .next t ∧ effectIs s t) ∧
  ∀ e (v : BitVec 16) s c g B x G, s.cur = some c → c.e = .lane → c.live = [g] → s.sandbox = none → tget? s.blocks c.blk = some B →
    tget? s.ctxs B.pasid = some x → s.grp? c.blk g = some G → traced x G = true → x.cap = .on → dbgField x 47 32 ≠ 0 →
    let r := 1 + 2 ^ 8 * (g % 32) + 2 ^ 16 * v.toNat + 2 ^ 32 * (B.bidx % 2 ^ 32) + 2 ^ 64 * (B.iv % 2 ^ 32) + 2 ^ 96 * (min (B.rc + 1) (2 ^ 32 - 1))
    ∃ t, exec (.trmark e v) s = .next t ∧ effectIs ((devWrite s (some x.world) x.func (dbgField x 191 128 + 16 * (x.trp % (256 * dbgField x 47 32)))
      (natBytes 16 r)).modCtx B.pasid fun y => { y with trp := y.trp + 1 }) t

/-- R174, assumption 89: the markers of a wider scope. -/
def WideMarkers : Prop :=
  ∀ e (v : BitVec 16) s c B, s.cur = some c → c.e ≠ .lane → s.sandbox = none → tget? s.blocks c.blk = some B →
    ∃ t, exec (.trmark e v) s = .next t ∧
      effectIs (c.live.foldl (markerOf s c.blk B v (min (B.rc + (unitGroups s c.blk c.lead c.e).length) (2 ^ 32 - 1))) s) t

/-- The stops of R175, with the setting that enables each (Table 27.1). -/
def stopForm : Instr → Option Nat
  | .bkpt _ n => some (256 + n.toNat)
  | .dbgstop _ => some 1
  | _ => none

/-- R175, R336: an enabled stop stops every block of the context once the word has retired; another passes. -/
def DebugStops : Prop :=
  (∀ i n s c, stopForm i = some n → s.cur = some c → c.empty = false → s.sandbox = none →
    ∃ t, exec i s = .next t ∧ t.cur = none ∧ groupsKept Group.noPos s t ∧
      let on := ((ctxOf s c.blk).map fun x => x.dbg.getLsbD n) = some true
      (∀ p, (tget? t.ctxs p).map (·.dbgStop) = (tget? s.ctxs p).map fun x => x.dbgStop || (decide on && p == pasidOf s c.blk)) ∧
      (¬on → effectIs s t) ∧
      (on → (∀ x, ctxOf s c.blk = some x → x.cap ≠ .on) → effectIs (s.modCtx (pasidOf s c.blk) fun x => { x with dbgStop := true }) t)) ∧
  ∀ e s c, s.cur = some c → c.empty = false →
    ∃ t, exec (.chkpt e) s = .next t ∧ effectBut (fun B => { B.noRc with chk := false }) Group.noPos s t ∧
      ∀ b, (tget? t.blocks b).map (·.chk) = (tget? t.blocks b).bind fun T => (tget? s.blocks b).map fun B =>
        B.chk || (b == c.blk && replayable s c.blk && decide (2 ^ 16 ≤ T.rc))

end Sys2Proof

/-- R173 to R175, R332, R333, R336, R338: labels, trace and debug words. That a marker at a wider scope gives one record for each group with
an active lane is the model's choice (assumption 89). -/
def Obligations.DebugWords : Prop := Labels ∧ TraceWords ∧ WideMarkers ∧ DebugStops

/-! ### Privileged writes (R67, R69, R124, R176, R278) -/

namespace Sys2Proof

/-- The quantum entry that a value is held as: a slice is at least 64 microseconds, and CL says that it was raised (Table 19.6). -/
def heldQuantum (v : Nat) : Word :=
  if v % 2 ^ 16 = 0 ∨ 64 ≤ v % 2 ^ 16 then BitVec.ofNat 32 (v % 2 ^ 30) else BitVec.ofNat 32 (v % 2 ^ 30 - v % 2 ^ 16 + 64 + 2 ^ 31)

/-- The privileged words: what they write for the values of their three sources, none where LIMIT_BAD or PLACE_LIVE is taken. -/
def privForm (s : State) : Instr → Option ((RSrc × RSrc × RSrc) × (Nat → Nat → Nat → Option State))
  | .plwr a b c => some ((a, b, c), fun x y z =>
      if x < 2 ^ 20 ∧ y < 2 ^ 8 ∧ z < 2 ^ 32 ∧ (tget? s.ctxs x).isSome ∧ suspended s x = true then
        some (s.modCtx x fun X => { X with places := tput X.places y (BitVec.ofNat 32 z &&& 0x800F0FFF#32) 0#32 }) else none)
  | .limwr a b c => some ((a, b, c), fun d sel v =>
      if d < 24 ∧ sel = 0 ∧ v % 16 + v / 16 % 16 ≤ 12 ∧ v / 16 % 16 ≠ 0 ∧ v / 2 ^ 16 % 2 ^ 9 + v / 2 ^ 25 % 2 ^ 10 ≤ 512 then
        some (s.modDie d fun D => { D with pmlim := BitVec.ofNat 64 v &&& 0x7FFFF00FF#64 }) else none)
  | .wtwr a b c => some ((a, b, c), fun d y v =>
      if d < 24 ∧ y < 2 ^ 16 ∧ v < 2 ^ 32 ∧ y % 256 ≤ 64 ∧ eventClass (y / 256) = true then
        some (s.modDie d fun D => { D with newWeights := tset D.newWeights (256 * (y % 256) + y / 256) (BitVec.ofNat 32 v) }) else none)
  | .qtwr a b c => some ((a, b, c), fun f i v =>
      if f < 64 ∧ i < 16 ∧ v < 2 ^ 32 ∧ v / 2 ^ 16 % 32 < 24 ∧ v.testBit 30 = false ∧ (v.testBit 21 = true → v / 2 ^ 22 % 256 ≠ 0) ∧ v % 2 ^ 16 ≠ 0 then
        some (s.modFunc f fun F => { F with quantum := tset F.quantum i (heldQuantum v) }) else none)
  | _ => none

end Sys2Proof

/-- R69, R176: for the supervisor of world 0 the write takes place; a quantum entry of 0 clears the entry (R278). Anyone else takes
PRIV_OP. -/
def Obligations.PrivilegedWords : Prop :=
  (∀ i a b c f s cu u, privForm s i = some ((a, b, c), f) → s.cur = some cu → cu.empty = false → s.sandbox = none →
    supervisor s (pasidOf s cu.blk) = true → f (cu.src s a).toNat (cu.src s b).toNat (cu.src s c).toNat = some u →
    ∃ t, exec i s = .next t ∧ effectIs (freeS u cu [(a, 1), (b, 1), (c, 1)]) t) ∧
  (∀ a b c s cu, s.cur = some cu → cu.empty = false → s.sandbox = none → supervisor s (pasidOf s cu.blk) = true →
    (cu.src s a).toNat < 64 → (cu.src s b).toNat < 16 → (cu.src s c).toNat = 0 →
    ∃ t, exec (.qtwr a b c) s = .next t ∧ t.cur = none ∧ groupsKept Group.noS s t ∧ bytesKept s t ∧
      quantumOf t (cu.src s a).toNat (cu.src s b).toNat = 0#32 ∧
      ∀ f i, ¬(f = (cu.src s a).toNat ∧ i = (cu.src s b).toNat) → quantumOf t f i = quantumOf s f i) ∧
  (∀ i x (s : State) (c : Cur) (r : IRef) (j : Issuer) (cl : Clause) (G : Group) (m : Lanes), privForm s i = some x → c.byOne s r j cl G m →
    supervisor s (pasidOf s c.blk) = false → ∃ t, exec i s = .next t ∧ lanesPark s t c r j cl G m 0x04 0) ∧
  ∀ i x (s : State) (c : Cur), privForm s i = some x → s.cur = some c → c.e ≠ .lane → c.empty = false → c.sane →
    (unitGroups s c.blk c.lead c.e).Nodup → supervisor s (pasidOf s c.blk) = false → ∃ t, exec i s = .next t ∧ unitSuspends s t c 0x04 0

/-! ### Outstanding operations (R52, R105, R191, R198, R205 to R215, R226 to R230, R252) -/

namespace Sys2Proof

/-- R105: the offset that n bytes at a displacement from a capability are accessed at, where the access is allowed. -/
def accessOff (k : Cap) (d : Int) (n need : Nat) : Option Nat :=
  if k.tag = true ∧ k.bits.getLsbD 115 = false ∧ holds k need = true ∧ (k.base : Int) ≤ k.cur + d ∧ k.cur + d + n ≤ (k.top : Int) then
    some (k.cur + d).toNat else none

/-- Words as a little-endian number. -/
def leWords (xs : List Word) : Nat := xs.foldr (fun w acc => w.toNat + 2 ^ 32 * acc) 0

/-- An instruction whose operation stays outstanding: its kind, destination registers, operands, uniform sources, whether a wide scope is
held until translation has passed, slot and stride of an `oload`, and a lane's request, none where a check of it fails. -/
structure IssueForm where
  kind : OpKind
  dst : Option (BitVec 6 × Nat)
  ops : List Opd
  us : List (RSrc × Nat) := []
  hold : Bool
  slot : Nat := 0
  stride : Nat := 0
  req : Group → Nat → List Word → Option LReq

/-- The quad operand b of a lane, its words from place i on. -/
def quadOf (G : Group) (l : Nat) (b : RSrc) (xs : List Word) (i : Nat) : Cap := wordsCap xs i (G.vtag (b.n.toNat / 4) l)

/-- A request of n bytes of an object. -/
def objReq (l : Nat) (k : Cap) (d : Int) (n need : Nat) : Option LReq := (accessOff k d n need).map fun x => { req0 l with cap := k, x, n }

def ldForm (n : Nat) (sgn : Bool) (a : BitVec 6) (k : Nat) (b : RSrc) (c : VSrc) : IssueForm :=
  { kind := .load n sgn, dst := some (a, k), ops := [.r b 4, .v c], hold := true
    req := fun G l xs => objReq l (quadOf G l b xs 0) (xs.getD 4 0).toInt n Perm.r }
def stForm (n : Nat) (a : Opd) (w : Nat) (b : RSrc) (c : VSrc) : IssueForm :=
  { kind := .store n, dst := none, ops := [a, .r b 4, .v c], hold := true
    req := fun G l xs => (objReq l (quadOf G l b xs w) (xs.getD (w + 4) 0).toInt n Perm.w).map fun q =>
      { q with data := leWords (xs.take w) % 256 ^ n } }
/-- An atomic: its number in the order of Table 15.5; the comparand of `acas` is its destination. -/
def atForm (op : Nat) (ty : Ty) (o : AOrd) (a : BitVec 6) (b : RSrc) (c d : VSrc) : IssueForm :=
  let k := if ty = .b64 then 2 else 1
  let w := if op = 7 then k else 0
  let od : Opd := match d with | .reg n last => if ty = .b64 then .r ⟨n, last⟩ 2 else .v d | .chan _ _ => .v d
  { kind := .atomic op ty o, dst := some (a, k), ops := (if op = 7 then [.r ⟨a, false⟩ k] else []) ++ [.r b 4, .v c, od], hold := true
    req := fun G l xs => ((objReq l (quadOf G l b xs w) (xs.getD (w + 4) 0).toInt (4 * k) (Perm.r + Perm.w + Perm.at')).filter fun q =>
        q.x % (4 * k) == 0).map fun q => { q with data := leWords (xs.drop (w + 5)), data2 := leWords (xs.take w) } }
/-- A read of n bytes of the weight window of the block's core: the die's bytes, masked by the world's key; a bank under refresh stalls it.
A line that is poisoned is no part of this. -/
def wldForm (s : State) (c : Cur) (n : Nat) (a : BitVec 6) (k : Nat) (b d : VSrc) : IssueForm :=
  let die := homeOf s c.blk / 64
  let win := wsWindow s c.blk
  { kind := .wld n, dst := some (a, k), ops := [.v b, .v d], hold := false
    req := fun _ l xs =>
      let y := (xs.getD 0 0).toNat + (xs.getD 1 0).toNat
      if y % n = 0 ∧ y + n ≤ win.2 ∧ wsBadLine s die (win.1 + y) n = none then
        some { req0 l with x := y, n, ph := if (s.die die).refresh = some ((win.1 + y) / 2 ^ 12 % 32) then .sent else .done
                           val := leNat (wsRead s die (worldOf s c.blk) (win.1 + y) n) }
      else none }
/-- A scratchpad read: aligned to its width and inside the allocation; a granule keeps its tag, subject to a sweep in progress. -/
def ldsForm (s : State) (c : Cur) (n : Nat) (a : BitVec 6) (k : Nat) (b : VSrc) : IssueForm :=
  { kind := .lds n, dst := some (a, k), ops := [.v b], hold := false
    req := fun _ l xs =>
      let x := (xs.getD 0 0).toNat
      let v := leNat ((blockSpm s c.blk).read x n)
      if x % n = 0 ∧ x + n ≤ ((tget? s.blocks c.blk).map (·.spmLen)).getD 0 then
        some { req0 l with x, n, ph := .done, val := v
                           vtag := n == 16 && (sweepCheck s (pasidOf s c.blk) ⟨BitVec.ofNat 128 v, (blockSpm s c.blk).tag x⟩).tag }
      else none }
/-- A window transfer: the place and slot name a block of the cluster unit with the same ticket (R131, R132). -/
def winForm (s : State) (c : Cur) (kind : OpKind) (a b d : VSrc) : IssueForm :=
  { kind, dst := none, ops := [.v a, .v b, .v d], hold := false
    req := fun _ l xs =>
      let wa := (xs.getD 0 0).toNat
      let loc := (xs.getD 1 0).toNat
      let n := (xs.getD 2 0).toNat
      let off := wa % 2 ^ 20
      let len (x : Nat) : Nat := ((tget? s.blocks x).map (·.spmLen)).getD 0
      match windowTarget s c.blk (wa / 2 ^ 24) (wa / 2 ^ 20 % 16) with
      | .ok t =>
        if off + n ≤ len t ∧ loc + n ≤ len c.blk ∧ loc % 4 = 0 ∧ off % 4 = 0 ∧ n % 4 = 0 ∧ 4 ≤ n ∧ n ≤ 4096 then
          some { req0 l with x := loc, x2 := off, n, targets := [t], ticket := BitVec.ofNat 32 wa
                             data := leNat ((blockSpm s c.blk).read loc n) }
        else none
      | .error _ => none }
/-- A copy of n bytes goes by 64-byte parts, under a ticket. An `mcast` bears its D operand, the rank mask, as its ticket (the model's
choice, assumption 66); a `cpy` from the weight window is checked against WSLEN at issue (the model's choice, assumption 79). -/
def copyTodo (q : LReq) (n : Nat) (tk : Word) : LReq := { q with n, todo := List.range ((n + 63) / 64), ticket := tk }
def cpyReq (s : State) (c : Cur) (a b : RSrc) (G : Group) (l : Nat) (xs : List Word) : Option LReq :=
  let n := (xs.getD 8 0).toNat
  let k := quadOf G l a xs 0
  let j := quadOf G l b xs 4
  match accessOff k 0 n (Perm.w + Perm.cpy), accessOff j 0 n (Perm.r + Perm.cpy) with
  | some y, some x =>
    if 1 ≤ n ∧ n ≤ 2 ^ 24 ∧ k.obn ≠ 0xFFFFFFF ∧ (j.obn = 0xFFFFFFF → x + n ≤ (wsWindow s c.blk).2) then
      some (copyTodo { req0 l with cap := j, x, cap2 := k, x2 := y } n (xs.getD 9 0)) else none
  | _, _ => none
def cpysReq (s : State) (c : Cur) (into : Bool) (b : RSrc) (G : Group) (l : Nat) (xs : List Word) : Option LReq :=
  let n := (xs.getD 5 0).toNat
  let off := (xs.getD 0 0).toNat
  let k := quadOf G l b xs 1
  if off % 4 = 0 ∧ n % 4 = 0 ∧ 4 ≤ n ∧ off + n ≤ ((tget? s.blocks c.blk).map (·.spmLen)).getD 0 then
    (accessOff k 0 n ((if into then Perm.r else Perm.w) + Perm.cpy)).map fun y =>
      copyTodo (if into then { req0 l with cap := k, x := y, x2 := off } else { req0 l with x := off, cap2 := k, x2 := y }) n (xs.getD 6 0)
  else none
def mcastReq (s : State) (c : Cur) (b : RSrc) (G : Group) (l : Nat) (xs : List Word) : Option LReq :=
  let n := (xs.getD 5 0).toNat
  let off := (xs.getD 0 0).toNat
  let m := (xs.getD 6 0).toNat
  let k := quadOf G l b xs 1
  let ranks := (List.range 16).filter fun r => m.testBit r
  let ts := ranks.filterMap fun r => gangPeer s c.blk r
  if m < 2 ^ 16 ∧ m ≠ 0 ∧ (∀ r ∈ ranks, r < (gridOfB s c.blk).gngb) ∧ ts.length = ranks.length ∧ (∀ y ∈ ts, saveBegun s y = false) ∧
      (∀ y ∈ ts, (tget? s.blocks y).map (·.ticket) = (tget? s.blocks c.blk).map (·.ticket) ∧ worldOf s y = worldOf s c.blk) ∧ off % 4 = 0 ∧ n % 4 = 0 ∧ 4 ≤ n ∧ n ≤ 65536 ∧
      ∀ y ∈ ts, off + n ≤ ((tget? s.blocks y).map (·.spmLen)).getD 0 then
    (accessOff k 0 n (Perm.r + Perm.cpy)).map fun y =>
      { copyTodo { req0 l with cap := k, x := y, x2 := off } n (xs.getD 6 0) with targets := ts }
  else none
/-- `oload`: line L of 128 bytes at L times the stride from the source, a capability or a scratchpad offset; one request carries it. -/
def oloadForm (s : State) (c : Cur) (o : BitVec 5) (b d : RSrc) (src : Bool) : IssueForm :=
  let str := (s.sAt (gkey c.blk c.lead) d.n.toNat).toNat % 2 ^ 32
  let ext := 63 * str + 128
  let k := c.srcPair s b
  let x := (s.sAt (gkey c.blk c.lead) b.n.toNat).toNat % 2 ^ 32
  let start : Option (Cap × Nat) :=
    if src then (if x % 64 = 0 ∧ x + ext ≤ ((tget? s.blocks c.blk).map (·.spmLen)).getD 0 then some (Cap.null, x) else none)
    else if k.cur % 64 = 0 then (accessOff k 0 ext Perm.r).map fun y => (k, y) else none
  let req (l : Nat) : Option LReq :=
    match start with
    | some (k, x) =>
      if str % 64 = 0 ∧ 128 ≤ str ∧ str ≤ 2 ^ 26 ∧ ((tget? s.blocks c.blk).bind fun B => tget? B.slots o.toNat).isSome then
        some (if c.elems.head?.map (·.2) = some l then { req0 l with cap := k, x, n := 64, tag := src, todo := List.range 128 }
              else { req0 l with cap := k, x, n := 64, tag := src, ph := .done })
      else none
    | none => none
  { kind := .oload, dst := none, ops := [], us := [(b, if src then 1 else 2), (d, 1)], hold := !src, slot := o.toNat, stride := str
    req := fun _ l _ => req l }

def issueForm (s : State) (c : Cur) : Instr → Option IssueForm
  | .ldS8 _ a b d => some (ldForm 1 true a 1 b d)
  | .ldN8 _ a b d => some (ldForm 1 false a 1 b d)
  | .ldS16 _ a b d => some (ldForm 2 true a 1 b d)
  | .ldN16 _ a b d => some (ldForm 2 false a 1 b d)
  | .ldB32 _ a b d => some (ldForm 4 false a 1 b d)
  | .ldB64 _ a b d => some (ldForm 8 false a 2 b d)
  | .ldB128 _ a b d => some (ldForm 16 false a 4 b d)
  | .ldc _ a b d => some { ldForm 16 false a 4 b d with kind := .loadCap, req := fun G l xs =>
      (objReq l (quadOf G l b xs 0) (xs.getD 4 0).toInt 16 Perm.r).filter fun q => q.x % 16 == 0 }
  | .stB8 _ a b d => some (stForm 1 (.v a) 1 b d)
  | .stB16 _ a b d => some (stForm 2 (.v a) 1 b d)
  | .stB32 _ a b d => some (stForm 4 (.v a) 1 b d)
  | .stB64 _ a b d => some (stForm 8 (.r a 2) 2 b d)
  | .stB128 _ a b d => some (stForm 16 (.r a 4) 4 b d)
  | .stc _ a b d => some { stForm 16 (.r a 4) 4 b d with kind := .storeCap, req := fun G l xs =>
      let v := quadOf G l a xs 0
      ((objReq l (quadOf G l b xs 4) (xs.getD 8 0).toInt 16 (if v.tag then Perm.w + Perm.sc else Perm.w)).filter fun q =>
        q.x % 16 == 0 && (!v.tag || holds v Perm.glb)).map fun q => { q with data := v.bits.toNat, tag := v.tag } }
  | .wldB32 _ a b d => some (wldForm s c 4 a 1 b d)
  | .wldB128 _ a b d => some (wldForm s c 16 a 4 b d)
  | .ldsB32 _ a b => some (ldsForm s c 4 a 1 b)
  | .ldsB64 _ a b => some (ldsForm s c 8 a 2 b)
  | .ldsB128 _ a b => some (ldsForm s c 16 a 4 b)
  | .put _ a b d => some (winForm s c .put a b d)
  | .get _ a b d => some (winForm s c .get a b d)
  | .aadd _ ty o a b d x => some (atForm 0 ty o a b d x)
  | .amin _ ty o a b d x => some (atForm 1 ty o a b d x)
  | .amax _ ty o a b d x => some (atForm 2 ty o a b d x)
  | .aand _ ty o a b d x => some (atForm 3 ty o a b d x)
  | .aor _ ty o a b d x => some (atForm 4 ty o a b d x)
  | .axor _ ty o a b d x => some (atForm 5 ty o a b d x)
  | .axchg _ ty o a b d x => some (atForm 6 ty o a b d x)
  | .acas _ ty o a b d x => some (atForm 7 ty o a b d x)
  | .spanq _ a b d => some { kind := .spanq, dst := some (a, 2), ops := [.r b 4, .v d], hold := true
                             req := fun G l xs => objReq l (quadOf G l b xs 0) (xs.getD 4 0).toInt 1 0 }
  | .cpy _ a b d x => some { kind := .cpy, dst := none, ops := [.r a 4, .r b 4, .v d, .v x], hold := true, req := cpyReq s c a b }
  | .cpysIn _ a b d x => some { kind := .cpysIn, dst := none, ops := [.v a, .r b 4, .v d, .v x], hold := true, req := cpysReq s c true b }
  | .cpysOut _ a b d x => some { kind := .cpysOut, dst := none, ops := [.v a, .r b 4, .v d, .v x], hold := true, req := cpysReq s c false b }
  | .mcast _ a b d x => some { kind := .mcast, dst := none, ops := [.v a, .r b 4, .v d, .v x], hold := true, req := mcastReq s c b }
  | .oload _ o b d src => some (oloadForm s c o b d src)
  | _ => none

def IssueForm.count (F : IssueForm) : Nat := match F.dst with | some (_, k) => k | none => 0
def IssueForm.dest (F : IssueForm) : Dst := match F.dst with | some (a, k) => .r a k | none => .none

/-- Every active lane's request passes its checks. -/
def IssueForm.allowed (F : IssueForm) (s : State) (c : Cur) : Prop :=
  ∀ x ∈ readOps s c F.ops, ∀ G, s.grp? c.blk x.1 = some G → ∀ y ∈ x.2, (F.req G y.1 (y.2.map VCell.word)).isSome

/-- The operations of an issue, one for each group, with their identifiers: the requests of the active lanes, a symbol for each
destination register. -/
def IssueForm.made (F : IssueForm) (s : State) (c : Cur) (wide : Option Scope) : List (Nat × Op) :=
  (readOps s c F.ops).mapIdx fun j x =>
    (s.nextId + 1 + j * (F.count + 1),
     { kind := F.kind, blk := c.blk, gidx := x.1, dst := F.dst.map (·.1), syms := (List.range F.count).map (s.nextId + 2 + j * (F.count + 1) + ·)
       closed := false
       lanes := x.2.filterMap fun y => ((s.grp? c.blk x.1).bind fun G => F.req G y.1 (y.2.map VCell.word)).map fun q => { q with time := s.reft }
       wide, addr := c.addr, idx := c.idx, e := c.e, core := homeOf s c.blk, slot := F.slot, stride := F.stride
       iv := ((tget? s.blocks c.blk).map (·.iv)).getD 0, rc := ((tget? s.blocks c.blk).map (·.rc)).getD 0, order := s.nextId })

/-- An issue marks its lanes: their counter rises by one, and destination register j holds the operation's symbol j; a quad whose tag
comes with the value awaits it (R101). -/
def marked (s : State) (o : Op) : State :=
  let ls := o.lanes.map (·.lane)
  s.modGroup o.blk o.gidx fun G =>
    let G := ls.foldl (fun G l => G.modCtr l fun x => match o.kind.ctr with
      | .ld => { x with ld := x.ld + 1 }
      | .st => { x with st := x.st + 1 }
      | .cp => { x with cp := x.cp + 1 }
      | .tl => { x with tl := x.tl + 1 }) G
    match o.dst with
    | none => G
    | some d => (List.range o.syms.length).foldl (fun G j =>
        (ls.foldl (fun G l => G.putCell (d.toNat + j) l (.aff (o.syms.getD j 0) 1#32 0#32)) G).dirty [d.toNat + j])
        G |> fun G => if o.kind = .loadCap ∨ o.kind = .lds 16 then ls.foldl (fun G l => G.awaitTag (d.toNat / 4) l) G else G

/-- The issuer that asks for symbol entries in the name of an issue, and its core (R193). -/
def asker (c : Cur) : IRef := c.arr.headD ⟨c.blk, c.lead, 0⟩
def asked (s : State) (c : Cur) : State := symAsk s (homeOf s c.blk) (asker c) false
def entriesFree (F : IssueForm) (s : State) (c : Cur) : Prop :=
  symRoom s (homeOf s c.blk) (asker c) ((readOps s c F.ops).map fun x => (c.blk, x.1, F.count)) = true

/-- What a word does at issue comes after the acquires of its lanes' earlier atomics (R141, R142): `lds`, `put` and `get` wait for them. -/
def inOrder (F : IssueForm) (s : State) (c : Cur) : Prop :=
  (F.kind = .put ∨ F.kind = .get ∨ ∃ n, F.kind = .lds n) → acquiresPending s c.blk c.elems = false

/-- An atomic that releases meets no operation of its lanes that a fault ended (R198, R207). -/
def noneFaulted (F : IssueForm) (s : State) (c : Cur) : Prop :=
  ∀ op ty o, F.kind = .atomic op ty o → o = .rel ∨ o = .ar → faultedOf s c.blk c.elems (fun _ => true) = []

/-- `t` is `u` but for positions, accounts, retired counts and what probing records (R340). -/
def issuedIs (u t : State) : Prop :=
  let np (o : Nat × Op) : Nat × Op := (o.1, { o.2 with lanes := o.2.lanes.map fun q => { q with probe := false } })
  t.cur = none ∧ { t.rest with ops := t.ops.map np } = { u.rest with ops := u.ops.map np } ∧ groupsKept Group.noPos u t ∧
  (∀ b, (tget? t.blocks b).map Block.noRc = (tget? u.blocks b).map Block.noRc) ∧
  (∀ p, (tget? t.ctxs p).map (fun x => { x.noMeter with probes := [] }) = (tget? u.ctxs p).map fun x => { x.noMeter with probes := [] }) ∧
  (∀ w, (tget? t.worlds w).map World.noMeter = (tget? u.worlds w).map World.noMeter) ∧
  (∀ l, (tget? t.launches l).map Launch.noEnergy = (tget? u.launches l).map Launch.noEnergy)

end Sys2Proof

/-- R52, R105, R191, R205 to R215, R226 to R230, R252: at lane scope, and at any scope where translation is not waited for, the
instruction issues: its sources are taken, its requests are outstanding, the counters rise and the destinations hold symbols. No byte of
memory changes (a popped channel's head apart). That `lds` and `put` read their bytes at issue is the model's choice (assumption 24), as
are the ticket of an `mcast` (66) and the place of the WSLEN check of `cpy` (79). -/
def Obligations.OperationsIssue : Prop :=
  ∀ i F s c, issueForm s c i = some F → s.cur = some c → c.empty = false → c.sane → s.sandbox = none → (c.e = .lane ∨ F.hold = false) →
    (tget? s.blocks c.blk).isSome → (∀ x ∈ s.ops, x.2.order < s.nextId) → heldOps s c = [] → ready? s c F.ops F.dest false = none → F.allowed s c →
    (c.e ≠ .lane → entriesFree F s c) → noneFaulted F s c → inOrder F s c →
    ∃ t, exec i s = .next t ∧ ((∀ o ∈ F.ops, o.isReg = true) → bytesKept s t) ∧
      issuedIs ((F.made s c none).foldl (fun u x => marked u x.2) { freeS (consume (asked s c) c F.ops) c F.us with
        ops := (F.made s c none).foldl (fun T x => tset T x.1 x.2) s.ops
        nextId := s.nextId + 1 + (readOps s c F.ops).length * (F.count + 1) }) t

/-- R198, R207: at a wider scope such an instruction first sends its requests to translation, with nothing else changed and its members
held; when every request has passed, it issues as a whole. -/
def Obligations.WideIssueHeld : Prop :=
  (∀ i F s c, issueForm s c i = some F → s.cur = some c → c.empty = false → c.sane → s.sandbox = none → c.e ≠ .lane → F.hold = true →
    heldOps s c = [] → ready? s c F.ops F.dest false = none → F.allowed s c →
    entriesFree F s c → noneFaulted F s c →
    ∃ t, exec i s = .next t ∧ issuedIs { asked s c with
        ops := (F.made s c (some c.e)).foldl (fun T x => tset T x.1 x.2) s.ops
        nextId := s.nextId + 1 + (readOps s c F.ops).length * (F.count + 1) } t ∧
      ∀ r ∈ c.arr, ∀ j, s.issuer? r = some j → t.issuer? r = some { j with wait := .xlate }) ∧
  ∀ i F s c, issueForm s c i = some F → s.cur = some c → c.empty = false → s.sandbox = none → F.hold = true → heldOps s c ≠ [] →
    ((s.ops.map (·.1)).Nodup) → (∀ x ∈ heldOps s c, x.2.kind = F.kind ∧ x.2.dst.isSome = F.dst.isSome ∧ ∀ q ∈ x.2.lanes, q.ph.passed = true ∧
      (F.kind = .mcast → ∀ y ∈ q.targets, saveBegun s y = false)) →
    ∃ t, exec i s = .next t ∧ effectIs ((heldOps s c).foldl (fun u x => marked { u with ops := tset u.ops x.1 { x.2 with
        wide := none
        lanes := if x.2.kind.isMem then x.2.lanes else x.2.lanes.map fun q => if q.ph = .xlated then { q with ph := .sent, parts := [] } else q } } x.2)
        (freeS (consume s c F.ops) c F.us)) t

/-! ### Scratchpad stores (R127, R129, R212) -/

namespace Sys2Proof

/-- The stores: bytes, data operand of w registers, offset. -/
def stsForm : Instr → Option (Nat × Opd × Nat × VSrc)
  | .stsB32 _ a b => some (4, .v a, 1, b)
  | .stsB64 _ a b => some (8, .r a 2, 2, b)
  | .stsB128 _ a b => some (16, .r a 4, 4, b)
  | _ => none

end Sys2Proof

/-- R52, R129, R212, R101: the elements store in ascending order; a 16-byte store keeps its quad's tag, any other clears the tag of the granule
it touches. A lane's ST has risen and fallen again with its element written: that the bytes are written at issue, and ST moves in the
same turn, is the model's choice (assumption 24). Every byte outside the stored ones is as before. -/
def Obligations.ScratchpadStores : Prop :=
  ∀ i n d w b s c, stsForm i = some (n, d, w, b) → s.cur = some c → c.empty = false → acquiresPending s c.blk c.elems = false →
    ready? s c [d, .v b] .none false = none →
    let els := (readOps s c [d, .v b]).flatMap fun x => x.2.map fun y => (x.1, y.1, y.2.map VCell.word)
    (∀ e ∈ els, (e.2.2.getD w 0).toNat % n = 0 ∧ (e.2.2.getD w 0).toNat + n ≤ ((tget? s.blocks c.blk).map (·.spmLen)).getD 0) →
    let tag (e : Nat × Nat × List Word) : Bool := match d with
      | .r r _ => ((s.grp? c.blk e.1).map fun G => G.vtag (r.n.toNat / 4) e.2.1).getD false
      | _ => false
    let u0 := consume s c [d, .v b]
    ∃ t, exec i s = .next t ∧
      effectBut (fun B => { B.noRc with spmDirty := [], ringDirty := [] }) (fun G => { G.noPos with ctr := [] }) (els.foldl (fun u e => modSpm u c.blk fun m =>
        let v := leWords (e.2.2.take w)
        if n = 16 then m.writeCap (e.2.2.getD w 0).toNat (natBytes 16 v) (sweepCheck s (pasidOf s c.blk) ⟨BitVec.ofNat 128 v, tag e⟩).tag
        else m.write (e.2.2.getD w 0).toNat (natBytes n v)) u0) t ∧
      (∀ k l, (tget? t.groups k).map (fun G => G.ctrs l) = (tget? s.groups k).map fun G => G.ctrs l) ∧
      (∀ p, (∀ e ∈ els, ∀ j < n, p ≠ .spm c.blk ((e.2.2.getD w 0).toNat + j)) → t.byteAt p = u0.byteAt p)

/-! ### Capabilities (R98 to R103, R217 to R220) -/

namespace Sys2Proof

/-- The instructions that write a capability to a quad. -/
def quadForm : Instr → Option (BitVec 6 × List Opd × List (RSrc × Nat) × (State → Cur → Group → Nat → List Word → Cap))
  | .cbnd _ a b c => some (a, [.r b 4, .r c 2], [], fun _ _ G l xs => derive (quadOf G l b xs 0) .bnd (xs.getD 5 0 ++ xs.getD 4 0).toInt)
  | .cadd _ a b c => some (a, [.r b 4, .r c 2], [], fun _ _ G l xs => derive (quadOf G l b xs 0) .add (xs.getD 5 0 ++ xs.getD 4 0).toInt)
  | .cset _ a b c => some (a, [.r b 4, .r c 2], [], fun _ _ G l xs => derive (quadOf G l b xs 0) .set (xs.getD 5 0 ++ xs.getD 4 0).toInt)
  | .cseal _ a b c => some (a, [.r b 4, .r c 2], [], fun _ _ G l xs =>
      derive (derive (quadOf G l b xs 0) .set (xs.getD 5 0 ++ xs.getD 4 0).toInt) .sealOp 0)
  | .cperm _ a i => some (a, [.r ⟨a, false⟩ 4], [], fun _ _ G l xs => derive (quadOf G l ⟨a, false⟩ xs 0) .perm i.toNat)
  | .cmov _ a b => some (a, [.r b 4], [], fun _ _ G l xs => quadOf G l b xs 0)
  | .cbcast _ a b => some (a, [], [(b, 2)], fun s c _ _ _ => c.srcPair s b)
  | _ => none

/-- R217, R218, R119: every active lane's quad holds the capability, which a sweep in progress checks; nothing else changes but what the
operands free. -/
def QuadWords : Prop :=
  ∀ i a ops us f s c, quadForm i = some (a, ops, us, f) → s.cur = some c → c.sane → c.empty = false → ready? s c ops (.r a 4) false = none →
    let k (G : Group) (l : Nat) (xs : List VCell) : Cap := sweepCheck s (pasidOf s c.blk) (f s c G l (xs.map VCell.word))
    let u := freeS (consume s c ops) c us
    ∃ t, exec i s = .next t ∧ t.cur = none ∧ outside u t ∧ groupsKept Group.noV u t ∧
      (∀ x ∈ readOps s c ops, ∀ y ∈ x.2, ∀ G, s.grp? c.blk x.1 = some G → ∃ H, t.grp? c.blk x.1 = some H ∧ H.quadIs a.toNat y.1 (k G y.1 y.2)) ∧
      (∀ q r l, ¬(∃ x ∈ readOps s c ops, ∃ y ∈ x.2, q = gkey c.blk x.1 ∧ l = y.1 ∧ ∃ j < 4, r = a.toNat + j) → t.cellAt q r l = u.cellAt q r l) ∧
      ∀ q r l, ¬(∃ x ∈ readOps s c ops, ∃ y ∈ x.2, q = gkey c.blk x.1 ∧ l = y.1 ∧ ∃ j < 4, r = (a.toNat + j) / 4) → t.tagAt q r l = u.tagAt q r l

end Sys2Proof

/-- R98, R102: no derivation gives authority that its source does not hold: a tagged result has a tagged, well-formed, unsealed source of
the same object and generation, bounds inside the source's and no further permission but the seal. -/
def Obligations.DerivationIsMonotone : Prop :=
  ∀ k op v, (derive k op v).tag = true →
    k.tag = true ∧ k.wellFormed = true ∧ k.sealed = false ∧ (derive k op v).wellFormed = true ∧ (derive k op v).obn = k.obn ∧
    (derive k op v).ogen = k.ogen ∧ k.base ≤ (derive k op v).base ∧ (derive k op v).top ≤ k.top ∧
    ∀ i < 12, i ≠ 9 → (derive k op v).bits.getLsbD (106 + i) = true → k.bits.getLsbD (106 + i) = true

namespace Sys2Proof

/-- R219, Table 15.6: `cget`; R232: `cpyq` gives 0 while a copy of the lane with the ticket is outstanding, and 1 otherwise. -/
def LaneQueries : Prop :=
  (∀ e (a : VDst) (b : RSrc) (sel : BitVec 3) s c, s.cur = some c → c.empty = false → ready? s c [.r b 4] (.v a) false = none →
    ∃ t, exec (.cget e a b sel) s = .next t ∧ effectIs (LaneForm.written ⟨a, [.r b 4], [], fun _ _ G l xs =>
      let k := quadOf G l b xs 0
      let f : Nat := match sel.toNat with
        | 0 => k.bits.toNat % 2 ^ 44
        | 1 => k.bits.toNat % 2 ^ 44 / 2 ^ 32
        | 2 => k.base
        | 3 => k.base / 2 ^ 32
        | 4 => k.top
        | 5 => k.top / 2 ^ 32
        | 6 => k.bits.toNat / 2 ^ 106 % 2 ^ 12
        | _ => k.bits.toNat / 2 ^ 78 % 2 ^ 28 + 2 ^ 28 * (k.bits.toNat / 2 ^ 118 % 2 ^ 4)
      BitVec.ofNat 32 f⟩ s c) t) ∧
  ∀ e (a : VDst) (b : VSrc) s c, s.cur = some c → c.empty = false → ready? s c [.v b] (.v a) false = none →
    ∃ t, exec (.cpyq e a b) s = .next t ∧ effectIs (writeCells (consume s c [.v b]) c.blk a ((readOps s c [.v b]).map fun x =>
      (x.1, x.2.map fun y => (y.1, VCell.val (if ∃ o ∈ s.ops, o.2.blk = c.blk ∧ o.2.gidx = x.1 ∧ o.2.kind.ctr = .cp ∧
        ∃ q ∈ o.2.lanes, q.lane = y.1 ∧ q.ticket = ((y.2.map VCell.word).getD 0 0) then 0 else 1))))) t

end Sys2Proof

/-- R217 to R219, R232: capability words, and queries of a lane. -/
def Obligations.CapabilityWords : Prop := QuadWords ∧ LaneQueries

/-! ### Channels (R148, R221 to R225) -/

namespace Sys2Proof

/-- A channel released while no issuer waits on one (R225): the elements its ring held, and the state without the binding. -/
def unbound (s : State) (b g ch : Nat) : Nat × State :=
  match (s.grp? b g).bind fun G => tget? G.chans ch with
  | none => (0, s)
  | some x =>
    let u := s.modGroup b g fun G => { G with chans := tdel G.chans ch }
    (if x.kind = 2 ∨ x.kind = 5 then 0 else (ringCtl s b x.off).count,
     if x.kind = 5 then
       { u with fqs := tmod u.fqs (256 * x.slot + x.rlen) fun q => { q with bound := none, elems := [], owed := q.owed + q.elems.length } }
     else u)

end Sys2Proof

/-- R221, R225, Table 15.9: a valid descriptor binds the channel (what it bound before is released), with an empty ring for the kinds
that have one here; `chfree` releases it and gives the elements it held, and where no issuer waits on a channel nothing else changes but
that a fabric queue owes the credit of what it drops; `chstat` gives its state, which a replayable block logs where it comes from outside. -/
def Obligations.ChannelWords : Prop :=
  (∀ e (ch : BitVec 6) (b d : RSrc) s c G x, s.cur = some c → c.empty = false → s.grp? c.blk c.lead = some G →
    chanOf s c.blk G ch.toNat (c.src s b) (c.src s d) = .ok x →
    let u := ((freeChan (freeS s c [(b, 1), (d, 1)]) c.blk c.lead ch.toNat).2).modGroup c.blk c.lead fun G => { G with chans := tset G.chans ch.toNat x }
    ∃ t, exec (.chbind e ch b d) s = .next t ∧ effectIs (match x.kind with
      | 2 => u
      | 5 => { u with fqs := tset u.fqs (256 * x.slot + x.rlen) { fabricQ u x with bound := some (pasidOf u c.blk) } }
      | _ => (modSpm u c.blk fun m => m.write x.off (natBytes 16 (2 ^ 64 * ((x.rlen - 16) / 4)))).modBlock c.blk fun B =>
          { B with ringDirty := B.ringDirty.filter fun e => decide (e.1 < x.off) || decide (x.off + x.rlen ≤ e.1) }) t ∧
      ((t.grp? c.blk c.lead).bind fun H => tget? H.chans ch.toNat) = some x) ∧
  (∀ e (a ch : BitVec 6) s c, s.cur = some c → c.empty = false →
    ∃ t, exec (.chfree e a ch) s = .next t ∧
      effectIs (putUni (freeChan s c.blk c.lead ch.toNat).2 c a (BitVec.ofNat 64 (freeChan s c.blk c.lead ch.toNat).1)) t ∧
      ((t.grp? c.blk c.lead).bind fun H => tget? H.chans ch.toNat) = none) ∧
  (∀ s b g ch, noneAtChannel s → freeChan s b g ch = unbound s b g ch) ∧
  ∀ e (a ch : BitVec 6) s c, s.cur = some c → c.empty = false → s.sandbox = none →
    let v : Nat := match (s.grp? c.blk c.lead).bind fun G => tget? G.chans ch.toNat with
      | none => 0
      | some x => (if x.kind = 2 then 0 else chanPresent s c.blk x % 2 ^ 32) +
          2 ^ 32 * (if x.kind = 1 ∨ x.kind = 2 ∨ x.kind = 5 then min 65535 (chanRoom s c.blk x) else 0) + 2 ^ 48 * (x.kind % 16) +
          2 ^ 52 * (if x.kind = 2 ∨ x.kind = 5 then 0 else (ringCtl s c.blk x.off).drop % 256)
    ∃ t, exec (.chstat e a ch) s = .next t ∧ effectBut Block.noLog Group.noPos (putUni s c a (BitVec.ofNat 64 v)) t ∧
      (replayable s c.blk = false → uniDone s t c [] a.toNat (BitVec.ofNat 64 v))

/-! ### Operand memory and accumulators (R250, R253 to R262) -/

namespace Sys2Proof

/-- What the block-wide matrix words leave, and when they need not wait or fault. -/
def blockForm (s : State) (c : Cur) : Instr → Option (State × Prop)
  | .oclaim _ a b =>
    let ss := (List.range 32).filter fun i => (c.src s a).getLsbD i
    let ts := (List.range 16).filter fun i => (c.src s b).getLsbD i
    some (freeS (s.modBlock c.blk fun B => { B with slots := ss.foldl (fun T i => if (tget? T i).isSome then T else tset T i []) B.slots
                                                    tiles := ts.foldl (fun T i => if (tget? T i).isSome then T else tset T i ⟨[], 0#16⟩) B.tiles }) c [(a, 1), (b, 1)],
      ∀ x ∈ s.blocks, x.1 ≠ c.blk → some x.2.core = (tget? s.blocks c.blk).map (·.core) →
        (x.2.phase = .resident ∨ x.2.phase = .draining ∨ x.2.phase = .saving) →
        (∀ i ∈ ss, tget? x.2.slots i = none) ∧ ∀ i ∈ ts, tget? x.2.tiles i = none)
  | .orel _ a b =>
    let ss := (List.range 32).filter fun i => (c.src s a).getLsbD i
    let ts := (List.range 16).filter fun i => (c.src s b).getLsbD i
    some (freeS (s.modBlock c.blk fun B => { B with slots := ss.foldl tdel B.slots, tiles := ts.foldl tdel B.tiles }) c [(a, 1), (b, 1)],
      named s c.blk ss ts = false)
  | .sclwSet _ m b => some (freeS (s.modBlock c.blk fun B => { B with scl := tput B.scl m.toNat (clampTo (-127) 127 (c.src s b).toInt) 0 }) c [(b, 1)], True)
  | .sclwAdd _ m b => some (freeS (s.modBlock c.blk fun B =>
      { B with scl := tput B.scl m.toNat (clampTo (-127) 127 (tgetD B.scl m.toNat 0 + (c.src s b).toInt)) 0 }) c [(b, 1)], True)
  | .sclr _ a m => some (putUni s c a (BitVec.ofInt 64 (((tget? s.blocks c.blk).map fun B => tgetD B.scl m.toNat 0).getD 0)), True)
  | .accver _ a k => some (putUni s c a (BitVec.ofNat 64 (((tileOf s c.blk k.toNat).map fun x => x.ver.toNat).getD 0)), (tileOf s c.blk k.toNat).isSome)
  | .accwt _ k v => some (s, ∃ x, tileOf s c.blk k.toNat = some x ∧ (x.ver - v).toNat < 2 ^ 15)
  | _ => none

/-- An `accrd` of the block still has registers of active lanes to write (R257). -/
def readsLeft (s : State) (c : Cur) : Prop :=
  ∃ x ∈ s.tops, x.2.blk = c.blk ∧ (∃ tl v r k w ty m, x.2.kind = .accrd tl v r k w ty m) ∧
    ∃ y ∈ x.2.lanes, ∃ z ∈ c.act, y.1 = z.1 ∧ y.2 &&& z.2 ≠ 0#64

/-- R250, R261, R262: claims and releases, scale registers in −127 to 127, versions. `mfence` orders what was written before it, and
waits for an `accrd` that has yet to write: then it changes nothing but the model's record of what is not fenced (R147, R257). -/
def BlockWords : Prop :=
  (∀ i s c u p, blockForm s c i = some (u, p) → s.cur = some c → c.empty = false → p → ∃ t, exec i s = .next t ∧ effectIs u t) ∧
  ∀ e s c, s.cur = some c → c.empty = false → ¬readsLeft s c →
    ∃ t, exec (.mfence e) s = .next t ∧ bytesKept s t ∧ groupsKept (fun G => { G.noPos with vDirty := [] }) s t ∧
      outsideBut (fun B => { B.noRc with spmDirty := [], fenceAt := 0 }) { s with tops := t.tops, nextId := s.nextId + 1 } t ∧
      (∀ b, (tget? t.blocks b).map (·.fenceAt) = (tget? s.blocks b).map fun B => if b = c.blk then s.nextId else B.fenceAt) ∧
      (t.tops.map fun x => (x.1, { x.2 with unfenced := false })) = (s.tops.map fun x => (x.1, { x.2 with unfenced := false })) ∧
      ∀ k ∈ c.keys, ∀ G, tget? t.groups k = some G → G.vDirty = [] ∧ G.sDirty = 0#64

/-- The operations of the tile queue: what each asks for, and the claims and fields that must hold. -/
def queueForm (s : State) (c : Cur) : Instr → Option (TKind × List RSrc × Prop)
  | .mpair _ ty st a b place acc =>
    let d := (c.src s a).toNat
    let v := (c.src s b).toNat
    let t := d / 2 ^ 24 % 16
    let fol := match placeUnit s c.blk place.toNat 2 with
      | none => none
      | some n => (followerOf s c.blk n t).toOption
    let has (x slot : Nat) : Prop := ((tget? s.blocks x).bind fun B => tget? B.slots slot).isSome
    some (.mpair (d % 32) (d / 2 ^ 8 % 32) (d / 2 ^ 16 % 32) t (((tget? s.blocks c.blk).map fun B => tgetD B.scl (d / 2 ^ 28 % 8) 0).getD 0)
        (v % 2 ^ 16) (v / 2 ^ 16 % 2 ^ 16) acc ty st (fol.getD 0), [a, b],
      fol.isSome ∧ d / 2 ^ 5 % 8 = 0 ∧ d / 2 ^ 13 % 8 = 0 ∧ d / 2 ^ 21 % 8 = 0 ∧ d / 2 ^ 31 = 0 ∧ has c.blk (d % 32) ∧ has c.blk (d / 2 ^ 8 % 32) ∧
        (tileOf s c.blk t).isSome ∧ has (fol.getD 0) (d / 2 ^ 16 % 32))
  | .accwr _ ty k v p =>
    let w := ((s.grp? c.blk c.lead).map fun G => tgetD G.views v.toNat 0#64).getD 0#64
    let x := (c.src s p).toNat
    some (.accwr k.toNat (x % 2 ^ 16) (x / 2 ^ 16 % 64) (x / 2 ^ 24 % 64) w ty, [p],
      (viewOf w).valid = true ∧ (viewOf w).elem = (eTy ty).toNat ∧ x / 2 ^ 16 % 64 + (viewOf w).rows ≤ 64 ∧ x / 2 ^ 24 % 64 + (viewOf w).cols ≤ 64 ∧
        (tileOf s c.blk k.toNat).isSome ∧ viewPend s c.blk c.lead w true = [])
  | .accrd _ ty m v k p =>
    let w := ((s.grp? c.blk c.lead).map fun G => tgetD G.views v.toNat 0#64).getD 0#64
    let x := (c.src s p).toNat
    some (.accrd k.toNat (x % 2 ^ 16) (x / 2 ^ 16 % 64) (x / 2 ^ 24 % 64) w ty m, [p],
      (viewOf w).valid = true ∧ (viewOf w).elem = (eTy ty).toNat ∧ x / 2 ^ 16 % 64 + (viewOf w).rows ≤ 64 ∧ x / 2 ^ 24 % 64 + (viewOf w).cols ≤ 64 ∧
        (tileOf s c.blk k.toNat).isSome ∧ viewPend s c.blk c.lead w false = [] ∧
        ∀ G a as, s.grp? c.blk c.lead = some G → (viewOf w).regs = a :: as →
          overLimit (gridOfB s c.blk).regs G [] (.r (BitVec.ofNat 6 a) (as.length + 1)) [] = false)
  | .accclr _ k v => some (.accclr k.toNat v.toNat, [], (tileOf s c.blk k.toNat).isSome)
  | _ => none

/-- The registers that an instruction leaves undefined until its operation completes (R147, R259). -/
def undefRegs (s : State) (c : Cur) : Instr → List Nat
  | .accrd _ _ _ v _ _ => (viewOf (((s.grp? c.blk c.lead).map fun G => tgetD G.views v.toNat 0#64).getD 0#64)).regs
  | _ => []

/-- R253, R254, R259, R260: with room in the core's queue the operation joins its end and TL rises for every active lane; the registers that
`accrd` will write hold undefined values until then. Neither `accwr` nor `accrd` passes a register lane of its view that it needs and
that awaits a load (R195), nor `accrd` the register limit (R270). -/
def QueueWords : Prop :=
  ∀ i k us p s c, queueForm s c i = some (k, us, p) → s.cur = some c → c.sane → c.empty = false → (s.core (homeOf s c.blk)).tileQ.length < 32 → p →
    ∃ t o, exec i s = .next t ∧ t.cur = none ∧ o.kind = k ∧ o.blk = c.blk ∧ o.gidx = c.lead ∧ o.lanes = c.act ∧ o.running = false ∧
      t.tops = tset s.tops s.nextId o ∧ t.nextId = s.nextId + 2 ∧
      outside { s with tops := t.tops, nextId := t.nextId
                       cores := tset s.cores (homeOf s c.blk) { s.core (homeOf s c.blk) with tileQ := (s.core (homeOf s c.blk)).tileQ ++ [s.nextId] } } t ∧
      groupsKept (fun G => { G.noV with s := [], st := [], ctr := [] }) s t ∧
      (∀ q l G H, tget? s.groups q = some G → tget? t.groups q = some H → H.ctrs l =
        if c.act.any (fun x => q == gkey c.blk x.1 && (lanesOf x.2).contains l) then { G.ctrs l with tl := (G.ctrs l).tl + 1 } else G.ctrs l) ∧
      (∀ q r l, ¬(q = gkey c.blk c.lead ∧ r ∈ undefRegs s c i) → t.cellAt q r l = s.cellAt q r l) ∧
      (∀ q r, freedS c us q r → t.sAt q r = 0#64) ∧ ∀ q r, ¬freedS c us q r → t.sAt q r = s.sAt q r

end Sys2Proof

/-- R250, R253, R254, R257 to R262: operand memory, accumulators and the tile queue. -/
def Obligations.MatrixWords : Prop := BlockWords ∧ QueueWords

/-! ### Reset (R15, R307, R346, R348, Tables 9.2, 29.1, 29.3, 29.6) -/

/-- What reset leaves: REFT 0, READY 0, the Reset columns of the interface pages, ring blocks, PMLIM and partition entries, and TREJ 0
(Table 29.8); no world, context or block is there and no link carries packets (R348 makes world 0 and trains the links). That no step has
been counted and no trace entry is there is the model's choice (assumption 7): Tables 23.4 and 23.5 give these no reset value. The memory
that reset leaves has the canonical form. -/
def Obligations.ResetValues : Prop :=
  State.reset.reft = 0 ∧ State.reset.ready = false ∧ State.reset.trust.links = false ∧
  (∀ n, let I := State.reset.iface n
    I.sqb = 0#64 ∧ I.sqn = 0x10#16 ∧ I.sqh = 0#32 ∧ I.cqb = 0#64 ∧ I.cqn = 0x10#16 ∧ I.cqt = 0#32 ∧ I.cqh = 0#32 ∧ I.ivec = 0#16 ∧ I.ien = false ∧
    I.pasid = none ∧ I.sqt = 0#32) ∧
  (∀ k, let R := State.reset.ring k
    R.rb = 0#64 ∧ R.rn = 0x10#16 ∧ R.rt = 0#32 ∧ R.rh = 0#32 ∧ R.riv = 0#16 ∧ R.rien = false) ∧
  (∀ d, let D := State.reset.die d
    D.pmlim = 0x48#64 ∧ D.part = 0x7000000E0000#64 ∧ D.chgs = 0 ∧ D.trace0 = [] ∧ D.trace1 = []) ∧
  (∀ k, (State.reset.core k).pmlim = 0x48#64 ∧ (State.reset.core k).trej = 0) ∧
  (∀ w, tget? State.reset.worlds w = none) ∧ (∀ p, tget? State.reset.ctxs p = none) ∧ (∀ b, tget? State.reset.blocks b = none) ∧
  Memory.wf State.reset = true

/-! ### Decoding (R48, R55 to R63) -/

/-- Words written out from the tables, fields from the left: OPC, SCOPE, A, B, C (Table 3.4), a modifier word (Table 3.8): `jmp`, `bar` at
block scope, `sadd.b64`, `vadd.b32` with a last use and a popped channel, `vsel.b32`, `fadd`, `ffma` with `.rz`, `ld.b32`, an atomic with
`.rel`, `cpys.out`, `rdsr`, and a word whose opcode has no meaning. -/
def Obligations.DecodeSamples : Prop :=
  decodeAt .ctl [0b000001_00_00000000_1111111111111110#32] = .ok (.jmp (-2), 1) ∧
  decodeAt .ctl [0b001001_11_00000000_00000000_00000000#32] = .ok (.bar .block, 1) ∧
  decodeAt .uni [0b000000_01_00000001_00000010_01000011#32] = .ok (.saddB64 .group 1 ⟨2, false⟩ ⟨3, true⟩, 1) ∧
  decodeAt .vint [0b000000_00_00000001_01000010_10000011#32] = .ok (.vaddB32 .lane (.reg 1) (.reg 2 true) (.chan 3 false), 1) ∧
  decodeAt .vint [0b100110_00_00000001_00000010_00000011#32, 0b00000000_00001001_000000_0000_1101_00#32] =
    .ok (.vselB32 .lane (.reg 1) (.reg 2 false) (.reg 3 false) ⟨1, true⟩, 2) ∧
  decodeAt .vflt [0b000000_00_00000101_00000001_00000010#32] = .ok (.fadd .lane (.reg 5) (.reg 1 false) (.reg 2 false), 1) ∧
  decodeAt .vflt [0b000111_00_00000110_00000001_00000010#32, 0b00000000_00000011_000000_0000_0000_01#32] =
    .ok (.ffmaX .lane .f32 .rz (.reg 6) (.reg 1 false) (.reg 2 false) (.reg 3 false), 2) ∧
  decodeAt .mem [0b000100_00_00001000_00000100_00000010#32] = .ok (.ldB32 .lane 8 ⟨4, false⟩ (.reg 2 false), 1) ∧
  decodeAt .mem [0b011000_00_00000001_00000100_00000010#32, 0b00000000_00000011_000000_0000_1101_10#32] =
    .ok (.aadd .lane .b32 .rel 1 ⟨4, false⟩ (.reg 2 false) (.reg 3 false), 2) ∧
  decodeAt .asy [0b000001_00_00001010_00000100_00000010#32, 0b00000000_00000110_000000_0000_0000_01#32] =
    .ok (.cpysOut .lane (.reg 10 false) ⟨4, false⟩ (.reg 2 false) (.reg 6 false), 2) ∧
  decodeAt .sys [0b000000_00_00000010_00000000_10001010#32] = .ok (.rdsr .lane (.reg 2) .cyc true, 1) ∧
  decodeAt .uni [0b111111_00_00000000_00000000_00000000#32] = .error .unassigned

/-- R48, R55 to R63: whatever words follow, the words of a well-formed instruction decode in its class to that instruction, every operand at
every value that its fields admit, and to its number of words. -/
def Obligations.DecodeEncode : Prop :=
  ∀ i k rest, i.wf = true → i.eng = some k → decodeAt k (encode i ++ rest) = .ok (i, (encode i).length)

/-- R57, R62, R63, R203: words that decode are exactly the encoding of the instruction they decode to, which is well formed: no bit of a word
is ignored, and each instruction has one encoding. -/
def Obligations.AcceptedWordsAreEncodings : Prop :=
  ∀ k ws i n, decodeAt k ws = .ok (i, n) → i.wf = true ∧ i.eng = some k ∧ n = (encode i).length ∧ ws.take n = encode i

/-! ### Steps (R22, R31, R44, R45, R48, R65) -/

/-- R44, R45: a fetch gives the little-endian words that memory holds at the code address, for words stored before the kernel's launch
(R46); R49: what an issuer wants to issue has a legal header and the CNT words after it. R65, R67, R31: where the words at an issuer's
position decode, pass the checks, and every member has arrived, a step runs that instruction, for the active set, and nothing else; while a
member has not arrived it only waits. A turn of an event runs the event; turns name a submission or a time as well. What comes about at
the end of a turn (`settle`) follows it: an instance whose last member has arrived closes and a hold ends (R26, R31); where no sub-group
is parked, no block is replayable and no debug target is armed it touches nothing but these two marks of the groups. -/
def Obligations.StepRunsDecoded : Prop :=
  (∀ (s : State) die pasid grid k a n x h mt u, capCheck (k.setCur a) 0 (4 * n) Perm.x = .ok x →
    translate s die pasid k x (4 * n) false true = .ok [(h, 4 * n, mt)] u → badLine u h (4 * n) = none → u.mem.images = [] →
    (∀ j < n, tgetD u.mem.stamp ((h + 4 * j) / 4) 0 ≤ grid) →
    fetchWords s die pasid grid k a n = .ok ((List.range n).map fun j => BitVec.ofNat 32
      ((u.byteAt (.hbm (h + 4 * j))).toNat + 2 ^ 8 * (u.byteAt (.hbm (h + 4 * j + 1))).toNat + 2 ^ 16 * (u.byteAt (.hbm (h + 4 * j + 2))).toNat +
        2 ^ 24 * (u.byteAt (.hbm (h + 4 * j + 3))).toNat)) u) ∧
  (∀ (s : State) r i h ws hdr u, want s r i = .issue h ws hdr u → h = decodeHeader hdr ∧ h.legal = true ∧
    (i.buffered = some (hdr, ws) ∨ ws.length ≤ h.cnt)) ∧
  (∀ (s0 : State) r rest G i c eng ins k, s0.agenda = .word r :: rest →
    let s := { s0 with agenda := rest }
    let e := wordScope eng (c.words.getD c.off 0#32)
    let s1 := if replayable s r.blk then takeTurn s r else s
    let s2 := if e ≠ .lane ∧ i.wait = .go then s1.modIssuer r fun i => { i with wait := .rdv e } else s1
    let o := opc ((c.words.drop c.off).headD 0#32)
    s.grp? r.blk r.gidx = some G → s.issuer? r = some i → i.cl = some c → engOf (c.hdr.extractLsb' 4 3).toNat = some eng → G.susp = [] →
    i.lanes ≠ 0#64 → c.idx ≠ 0 → mayRun s r.blk = true → inTurn s r = true → (replayable s r.blk = true ∨ G.mayWord r.iss = true) →
    (pointOf s2 r i e = none → step s0 = .next (settle s2)) ∧
    (∀ rs, pointOf s2 r i e = some rs → decodeAt eng (c.words.drop c.off) = .ok (ins, k) →
      (privileged eng o = true → supervisor s2 (pasidOf s2 r.blk) = true) → (transfers eng o = true → (c.words.drop c.off).length ≤ 1) →
      ¬(eng = .ctl ∧ o = 0x10 ∧ c.idx ≠ 1) →
      let s3 := if e = .lane then s2 else closeAt s2 rs
      step s0 = settled (exec ins { s3 with cur := some (mkCur s3 r rs c eng e k) }))) ∧
  (∀ (s : State) i rest, s.agenda = .event i :: rest → step s = settled (exec i { s with agenda := rest })) ∧
  (∀ (s : State) n rest, s.agenda = .submission n :: rest →
    (takeEntry { s with agenda := rest } n = none → step s = .next (settle { s with agenda := rest })) ∧
    ∀ t, takeEntry { s with agenda := rest } n = some t → step s = .next (settle t)) ∧
  (∀ (s : State) n rest, s.agenda = .elapse n :: rest →
    ∃ t, step s = .next (settle t) ∧ t.reft = s.reft + n ∧ bytesKept s t ∧ t.groups = s.groups) ∧
  ∀ t : State, t.parks = [] → (∀ x ∈ t.groups, replayable t (x.1 / 32) = false) → (∀ x ∈ t.blocks, replayable t x.1 = false) →
    (∀ x ∈ t.ctxs, x.2.armed = none) → { settle t with groups := [] } = { t with groups := [] } ∧
    groupsKept (fun G => { G.noPos with hold := none }) t (settle t) ∧
    ((∀ x ∈ t.groups, x.2.hold = none ∧ ∀ n j e, x.2.issuer? n = some j → j.wait ≠ .rdv e) → settle t = t)

/-- No rule stops the package (R282, Table 21.1 end lanes and units): the model takes every fault by parking, suspending, holding or refusing, and
never stops, so that every state has a next one (DESIGN CHOICE, assumption 72). -/
def Obligations.StepNeverStops : Prop := ∀ s, goesOn s

/-- Every step keeps the canonical form of memory: byte cells strictly rising, none listed that an unlisted address reads as. -/
def Obligations.MemoryStaysCanonical : Prop := ∀ s t, Memory.wf s = true → step s = .next t → Memory.wf t = true

/-! ### Issue (R26, R53, R275, R276, R296) -/

namespace Sys2Proof

/-- The state in which a core takes up its one offer: the world's deficit counter has fallen, and the group is passed over no longer; where
a fault of a fetch is taken and no clause issues, the batch class stays. -/
def offered (s : State) (core : Nat) (o : Offer) : State :=
  (s.setCore core { s.core core with
    dc := tset (s.core core).dc o.world (tgetD (s.core core).dc o.world 0 - 1), ptr := o.world + 1
    batch := if o.eng.isSome then o.eng else (s.core core).batch
    lastOpp := s.cycles (dieOf core) }).modGroup o.r.blk o.r.gidx fun G => { G with passed := 0 }

/-- In the choice of a world, the groups of that world on the core are no longer last by a `yield` (R159, assumption 75). -/
def unmarked (s : State) (core w : Nat) : State :=
  ((onCore s core).filter fun b => worldOf s b.1 == w).foldl (fun s b => (s.groupsOf b.1).foldl (fun s g =>
    s.modGroup b.1 g fun G => { G with yielded := G.yielded.filter (· != 4225) }) s) s

/-- The lanes that a header's guard passes (R50): by the q predicate in a clause of the uniform class. -/
def guardLanes (G : Group) (h : Header) : Lanes :=
  if h.eng = some .uni then (if G.qpred h.guard then ~~~0#64 else 0#64) else G.pred h.guard

end Sys2Proof

/-- R53, R275: where one issuer wants to issue, its world's counter falls by one and its clause is in issue, at the first word, for the
lanes whose guard is true then (R50). R26: a hold ends after 256 cycles; a replayable block logs it (the model's choice, assumption 110).
R296: a replayed instruction changes nothing but the charge of the attempts (its own, and of those after it that had begun: at most four in
all), which is overhead, and the die's count of them. An attempt is that of the whole active set: at lane scope the issuer's guarded lanes. -/
def Obligations.IssueEvents : Prop :=
  (∀ core (s : State) o h ws hdr u i G, (s.die (dieOf core)).inService = true → (s.die (dieOf core)).relocking s.reft = false →
    boundaries (noteRestored s (dieOf core)) core = s → offers s core = [o] → 0 < tgetD (s.core core).dc o.world 0 →
    let v := unmarked (offered s core o) core o.world
    v.issuer? o.r = some i → want v o.r i = .issue h ws hdr u → u.grp? o.r.blk o.r.gidx = some G → G.issuer? o.r.iss = some i →
    ∃ t H, exec (.clauseIssue core) s = .next t ∧ t.grp? o.r.blk o.r.gidx = some H ∧ H.turn = o.r.iss + 1 ∧
      H.issuer? o.r.iss = some { i with
          cl := some ⟨i.code.cur, hdr, ws, guardLanes G h &&& i.lanes, 1, 0⟩, buf := if o.r.iss = 0 then [] else i.buf } ∧
      tgetD (t.core core).dc o.world 0 = tgetD (s.core core).dc o.world 0 - 1) ∧
  (∀ g (s : State) G n, s.grp? g.blk g.gidx = some G → G.hold = some (n, false) → n + 256 ≤ s.cycles (dieOf (homeOf s g.blk)) →
    exec (.rcvHoldTimeout g) s = .next ((if s.sandbox = none ∧ replayable s g.blk = true then s.modBlock g.blk fun B =>
        { B with log := B.log ++ [.hold (rcOf s g.blk) g.gidx] } else s).modGroup g.blk g.gidx fun G => { G with hold := some (n, true) })) ∧
  (∀ r (s : State) i c, s.issuer? r = some i → i.cl = some c → i.wait = .go → executing s r i .lane = some [(r.gidx, i.lanes &&& c.guard)]) ∧
  (∀ r (s : State) i c e act cls per, s.issuer? r = some i → i.cl = some c → engOf (c.hdr.extractLsb' 4 3).toNat = some e → c.idx ≠ 0 →
    c.off < c.words.length → executing s r i (wordScope e (c.words.getD c.off 0#32)) = some act →
    classOf e (opc (c.words.getD c.off 0#32)) = some (cls, per) →
    let lanes := (act.map fun x => (lanesOf x.2).length).sum
    let n := if lanes = 0 then 0 else if per = .lane then lanes else 1
    let d := dieOf (homeOf s r.blk)
    d < 24 →
    ∃ t m, exec (.timingErrorReplay r) s = .next t ∧ 1 ≤ m ∧ m ≤ 4 ∧ { t with free := s.free, energy := s.energy, dies := s.dies } = s ∧
      t.energy = { s.energy with now := t.energy.now } ∧ (∀ k, k ≠ d → t.die k = s.die k) ∧
      t.die d = { s.die d with povh := (t.die d).povh, replays := (s.die d).replays + m } ∧
      (s.die d).povh + ((weight s d (s.die d).step cls * n : Nat) : Int) ≤ (t.die d).povh)

/-! ### Launches, placement, save and restore (R266 to R273, R290, R303, R333) -/

namespace Sys2Proof

/-- The launch that a record asks for, before its grid. -/
def launchOf (p n : Nat) (rec : BitVec 512) (dep : Option Nat) : Launch :=
  { pasid := p, seq := (rec.extractLsb' 64 32).toNat, iface := n, record := rec, dep, pri := (rec.extractLsb' 8 2).toNat, grid := none
    energy := 0, done := none }

end Sys2Proof

/-- R266, R267, R269, R271: a record is refused without a context, rejected with the first code of R19 that applies or for a sequence
number in use, and otherwise accepted: a launch that waits on no other has its grid at once, and one that names a pending launch waits; the
capture of its context is OFF (R338). R303:
a launch whose grid has ended, and whose charges have been corrected, gets its completion record with its energy, and is pending until the
record has been written (`RingEvents`). -/
def Obligations.LaunchRecords : Prop :=
  (∀ n rec (s : State), (s.iface n).pasid = none → exec (.launchRecord n rec) s = .next (post s n (rec.extractLsb' 64 32) 9 0)) ∧
  (∀ n rec (s : State) p c, (s.iface n).pasid = some p → tget? s.ctxs p = some c → recordCode s c rec.toNat false ≠ 0 →
    exec (.launchRecord n rec) s = .next (post s n (rec.extractLsb' 64 32) (recordCode s c rec.toNat false) 0)) ∧
  (∀ n rec (s : State) p c, (s.iface n).pasid = some p → tget? s.ctxs p = some c → recordCode s c rec.toNat false = 0 →
    (pendingSeq s p (rec.extractLsb' 64 32).toNat).isSome → exec (.launchRecord n rec) s = .next (post s n (rec.extractLsb' 64 32) 1 0)) ∧
  (∀ n rec (s : State) p c d, (s.iface n).pasid = some p → tget? s.ctxs p = some c → recordCode s c rec.toNat false = 0 →
    pendingSeq s p (rec.extractLsb' 64 32).toNat = none → (rec.extractLsb' 96 32).toNat ≠ 0 → (rec.extractLsb' 96 32) ≠ rec.extractLsb' 64 32 →
    pendingSeq s p (rec.extractLsb' 96 32).toNat = some d →
    exec (.launchRecord n rec) s =
      .next ({ s with launches := tset s.launches s.nextId (launchOf p n rec (some d)), nextId := s.nextId + 1 }.modCtx p fun c => { c with cap := .off })) ∧
  (∀ n rec (s : State) p c, (s.iface n).pasid = some p → tget? s.ctxs p = some c → recordCode s c rec.toNat false = 0 →
    pendingSeq s p (rec.extractLsb' 64 32).toNat = none →
    ((rec.extractLsb' 96 32) = 0#32 ∨ (rec.extractLsb' 96 32) = rec.extractLsb' 64 32 ∨ pendingSeq s p (rec.extractLsb' 96 32).toNat = none) →
    (∀ a k, guestBad s c.func a k = none) →
    ∃ t g, exec (.launchRecord n rec) s = .next t ∧
      { t with launches := [], grids := [], nextId := 0 } =
        { (s.modCtx p fun c => { c with cap := .off }) with launches := [], grids := [], nextId := 0 } ∧
      tget? t.launches s.nextId = some { launchOf p n rec none with grid := some (s.nextId + 1) } ∧ tget? t.grids (s.nextId + 1) = some g ∧
      g.launch = s.nextId ∧ g.pasid = p ∧ g.parent = none ∧ g.placed = 0 ∧ g.exited = 0 ∧ g.code = codeRoot s c (rec.extractLsb' 256 28).toNat
        (rec.extractLsb' 320 44).toNat ∧
      g.setg = (rec.extractLsb' 128 4).toNat ∧ g.setn = (rec.extractLsb' 132 6).toNat ∧ g.gngb = (rec.extractLsb' 138 5).toNat ∧
      g.clug = (rec.extractLsb' 144 8).toNat ∧ g.diec = (rec.extractLsb' 152 8).toNat ∧ g.grdd = (rec.extractLsb' 160 32).toNat ∧
      g.regs = (rec.extractLsb' 15 7).toNat ∧ g.spm = (rec.extractLsb' 32 32).toNat ∧ g.roots.length = (rec.extractLsb' 11 4).toNat) ∧
  (∀ p q (s : State) id l code k, (s.launches.find? fun x => x.2.pasid == p && x.2.seq == q) = some (id, l) → tget? s.launches id = some l →
    l.done = some (code, k) → l.posted = none → k + 2 ≤ s.energy.tick →
    let I := s.iface l.iface
    exec (.launchComplete p q) s = .next ((post { s with grids := s.grids.filter fun g => g.2.launch != id } l.iface (BitVec.ofNat 32 l.seq) code
      (intBits 64 l.energy)).modLaunch id fun l => { l with posted := some (code, (I.cqt.toNat + I.held.length) % 2 ^ 32) }))

/-- R268, R273: a block that the choice for a core gives to it starts there with an empty scratchpad, and each of its groups at the grid's
entry with all 64 lanes on the broadcast stream; it has acquired (R40, R141). R290: a saved block is on no core, and its registers and bytes of
memory are as they were (loop buffers are not kept, Table 21.5; the lines of its image hold no tags); a restored block runs on its core. R333: a
checkpoint begins an interval and holds the block's image as a save makes it, merged stores drained and performed loads completed; none
is taken in a debug stop (R336). That the first checkpoint leaves the interval's number as it is, is the model's choice (assumption 61). -/
def Obligations.PlacementSaveRestore : Prop :=
  (∀ core (s : State) p gid g c b k base, core < 1536 → choose s core = some (p, .fresh gid, [(b, k, base)]) → tget? s.grids gid = some g →
    tget? s.ctxs g.pasid = some c → g.rpl = false →
    c.sweep = none →
    ∃ t B, exec (.blockPlacement core) s = .next t ∧ tget? t.blocks s.nextId = some B ∧ B.grid = gid ∧ B.bidx = b ∧ B.home = k ∧ B.core = k ∧
      B.base = base ∧ B.phase = .resident ∧ B.spm = Ram.empty ∧ B.spmLen = spmRound g.spm ∧ B.serves = none ∧
      (∀ j < g.groups, j < 32 → ∃ n, t.grp? s.nextId j = some (newGroup g.code g.roots g.views n)) ∧
      (∀ x ∈ (t.core k).l1, tget? t.mem.wordOwner x.1 = some k) ∧ (tget? t.grids gid).map (·.placed) = some (g.placed + 1)) ∧
  (∀ b (s : State) B, tget? s.blocks b = some B → B.phase = .saving → midClause s b = false → unsaved s b = false →
    (∀ o ∈ s.ops, o.2.blk ≠ b) → (∀ x ∈ s.cores, x.2.wc = []) →
    ∃ t n, exec (.blockSave b) s = .next t ∧ t.mem.hbm.bytes = s.mem.hbm.bytes ∧ (∀ h, t.mem.hbm.tag h = true → s.mem.hbm.tag h = true) ∧
      (∀ k, tget? t.groups k = (tget? s.groups k).map fun G => if k / 32 = b then G.mapIssuers Issuer.unbuffered else G) ∧
      (∀ k r l, t.cellAt k r l = s.cellAt k r l) ∧
      tget? t.blocks b = some { B with imgHit := false, asSaved := false, since := n, phase := match B.forkDst with
        | some (_, _, child) => .forked (some child)
        | none => .saved }) ∧
  (∀ b core (s : State) p c B a k base, core < 1536 → choose s core = some (p, .saved a, [(b, k, base)]) → tget? s.blocks b = some B →
    tget? s.ctxs B.pasid = some c → c.sweep = none → B.imgHit = false → imageBad s b = none → (∀ x ∈ s.parks, x.2.dispo = none) →
    ∃ t T, exec (.blockRestore b core) s = .next t ∧ tget? t.blocks b = some T ∧ T.home = k ∧ (T.phase = .resident ∨ T.phase = .draining) ∧
      T.spm = B.spm ∧ T.slots = B.slots ∧ T.tiles = B.tiles ∧ T.sbs = B.sbs ∧ T.rc = B.rc ∧ T.foldTo = none ∧ t.mem.hbm = s.mem.hbm ∧
      ∀ r l, ∀ g < 32, t.cellAt (gkey b g) r l = s.cellAt (gkey b g) r l) ∧
  (∀ b (s : State) B, tget? s.blocks b = some B → B.phase = .resident → checkpointDue s b B = true → dbgHeld s B.pasid = false →
    clauseOpen s b = false → unsaved s b = false → stillMerged (drainBlock s b) b = false →
    let u := deliverLoads (drainBlock s b) b
    ∃ t T img, exec (.checkpoint b) s = .next t ∧ tget? t.blocks b = some T ∧ T.rc = 0 ∧ T.chk = false ∧
      T.iv = (if (tget? s.ckpts b).isNone then B.iv else (B.iv + 1) % 2 ^ 32) ∧ tget? t.ckpts b = some img ∧ img.blk = T ∧
      t.groups = u.groups ∧ img.groups = u.groups.filter fun g => g.1 / 32 == b) ∧
  (∀ b (s : State) B, tget? s.blocks b = some B → dbgHeld s B.pasid = true → exec (.checkpoint b) s = .next s)

/-! ### Ends of blocks, and barriers among them (R39, R134, R158, R161, R164, R326) -/

/-- R158: a drained block goes with its groups, and its grid counts the exit. R39, R40: the parent of an ended child grid is ready again, with
status 0. R161: the bar of a group goes on when its release is done. In a debug stop a block does not end and a bar does not go on (R336). -/
def Obligations.BlockEnds : Prop :=
  (∀ b (s : State) B, tget? s.blocks b = some B → B.phase = .draining → drained s b = true → dbgHeld s B.pasid = false → B.serves = none → (∀ x ∈ s.blocks, x.2.barw = none) →
    ∃ t, exec (.blockExit b) s = .next t ∧ tget? t.blocks b = none ∧ (∀ k, k / 32 = b → tget? t.groups k = none) ∧
      (∀ k, k / 32 ≠ b → tget? t.groups k = tget? s.groups k) ∧ (∀ k, k ≠ b → tget? t.blocks k = tget? s.blocks k) ∧ t.mem.hbm = s.mem.hbm ∧
      (tget? t.grids B.grid).map (·.exited) = (tget? s.grids B.grid).map (·.exited + 1)) ∧
  (∀ gid (s : State) g b B (a : BitVec 6) gs, tget? s.grids gid = some g → g.parent = some b → tget? s.blocks b = some B →
    B.forkDst = some (a, gs, gid) → B.phase = .forked (some gid) → g.ended = true →
    ∃ t, exec (.childGridComplete gid) s = .next t ∧ t.grids = tdel s.grids gid ∧
      tget? t.blocks b = some { B with forkDst := none, phase := .saved, since := s.nextId } ∧
      (∀ k ∈ gs, k < 32 → (s.grp? b k).isSome → t.sAt (gkey b k) a.toNat = 0#64) ∧
      (∀ k r, r ≠ a.toNat → t.sAt k r = s.sAt k r) ∧ t.mem = s.mem) ∧
  (∀ g (s : State) G i c rs, s.grp? g.blk g.gidx = some G → G.div = [] → G.stream = i → i.lanes ≠ 0#64 → i.wait = .rel → i.cl = some c →
    dbgHeld s (pasidOf s g.blk) = false → c.hdr.extractLsb' 4 3 = 0#3 → opc (c.words.getD c.off 0#32) = 0x09 →
    pointOf s ⟨g.blk, g.gidx, 0⟩ i (scopeOf (c.words.getD c.off 0#32)) = some rs →
    let cu := mkCur s ⟨g.blk, g.gidx, 0⟩ rs c .ctl (scopeOf (c.words.getD c.off 0#32)) 1
    let u := { s with cur := some cu }
    cu.empty = false → releasesNow u cu →
    ∃ t, exec (.barComplete g) s = .next t ∧ effectIs (acquireNow (releaseStart u cu.blk cu.elems) cu) t) ∧
  (∀ b (s : State) B, tget? s.blocks b = some B → dbgHeld s B.pasid = true → exec (.blockExit b) s = .next s) ∧
  (∀ g (s : State), dbgHeld s (pasidOf s g.blk) = true → exec (.barComplete g) s = .next s)

/-- R134, R164, R326: a block's arrival at an instance whose other members bear its ticket and world is recorded while some member has not
arrived, and the last arrival lets every member leave; an arrival that bears another ticket is counted and does nothing else. R326 counts it at
the target core: that this is the core of the instance's first member is the model's choice (assumption 106). A superstep arrival also waits for
the block's puts and gets. None arrives in a debug stop (R336). -/
def Obligations.BarrierArrivals : Prop :=
  (∀ b (s : State) B i, tget? s.blocks b = some B → dbgHeld s B.pasid = true → i = .gangBarrierArrival b ∨ i = .sstepArrival b →
    exec i s = .next s) ∧
  ∀ b (s : State) B (w : BarWait) i, tget? s.blocks b = some B → B.barw = some w → w.arrived = false → dbgHeld s B.pasid = false →
    ((i = .gangBarrierArrival b ∧ (w.kind = .gang ∨ w.kind = .grid)) ∨
      (i = .sstepArrival b ∧ (w.kind = .cluster ∨ w.kind = .die) ∧ sstepMixed s B w.kind = false ∧
        ∀ o ∈ s.ops, o.2.blk = b → o.2.kind ≠ .put ∧ o.2.kind ≠ .get)) →
    let u := s.modBlock b fun B => { B with barw := some { w with arrived := true } }
    let all := (barMembers u B w.kind).all fun x => x.2.barw.any fun v => v.arrived && v.kind == w.kind
    (ticketOk s B w.kind = true → all = false → exec i s = .next u) ∧
    (ticketOk s B w.kind = true → all = true →
      exec i s = .next ((barMembers u B w.kind).foldl (fun s m => leaveBar s m.1) u)) ∧
    (ticketOk s B w.kind = false → ∀ k T r, barMembers s B w.kind = (k, T) :: r →
      exec i s = .next (s.modCore T.home fun C => { C with trej := C.trej + 1 }))

/-! ### Memory after issue (R113, R133, R138 to R140, R196, R208, R209, R215, R345, R347) -/

namespace Sys2Proof

/-- HBM after bytes are written at h. -/
def hbmWith (s : State) (h : Nat) (bs : List Byte) (a : Nat) : Byte := if h ≤ a ∧ a < h + bs.length then bs.getD (a - h) 0#8 else s.mem.hbm.get a

/-- A lane's request of an operation is gone. -/
def reqGone (t : State) (op lane : Nat) : Prop := (tget? t.ops op).bind (·.req? lane) = none

/-- Only counter `k` of a lane falls, by one; nothing else of any group changes. -/
def ctrFell (s t : State) (b g lane : Nat) (k : CK) : Prop :=
  groupsKept (fun G => { G with ctr := [] }) s t ∧
  (∀ q l x, ¬(q = gkey b g ∧ l = lane ∧ x = k) → (tget? t.groups q).map (fun G => (G.ctrs l).get x) = (tget? s.groups q).map fun G => (G.ctrs l).get x) ∧
  (t.grp? b g).map (fun G => (G.ctrs lane).get k) = (s.grp? b g).map fun G => (G.ctrs lane).get k - 1

/-- What a request that is performed at a home may touch: memory with its ownership, lines and stamps (and what the model notes of stage-2 tables
that are written), the slices and the L1s, the requests, the groups, accounts, and the mark of an image that is stored into. Nothing else
changes. -/
def memSide (s t : State) : Prop :=
  t.cur = s.cur ∧ { t.rest with mem := s.mem, dies := s.dies, cores := s.cores, ops := s.ops } = s.rest ∧
  { t.mem with
    hbm := s.mem.hbm, lines := s.mem.lines, wordOwner := s.mem.wordOwner, images := s.mem.images, maps := s.mem.maps, stamp := s.mem.stamp } = s.mem ∧
  (∀ d, { t.die d with llc := [], povh := 0 } = { s.die d with llc := [], povh := 0 }) ∧
  (∀ k, { t.core k with l1 := [], l1Order := [] } = { s.core k with l1 := [], l1Order := [] }) ∧
  (∀ b, (tget? t.blocks b).map (fun B => { B with imgHit := false }) = (tget? s.blocks b).map fun B => { B with imgHit := false }) ∧
  (∀ p, (tget? t.ctxs p).map Ctx.noMeter = (tget? s.ctxs p).map Ctx.noMeter) ∧
  (∀ w, (tget? t.worlds w).map World.noMeter = (tget? s.worlds w).map World.noMeter) ∧
  (∀ l, (tget? t.launches l).map Launch.noEnergy = (tget? s.launches l).map Launch.noEnergy)

/-- Every slice has room for two lines more, so that an access of two lines or fewer takes no line out (R139). -/
def roomy (s : State) : Prop := ∀ d, (s.die d).llc.length + 2 ≤ llcLines

/-- Every operation but one, and of that one every lane's request but one, is as before. -/
def otherReqs (s t : State) (op lane : Nat) : Prop :=
  (∀ k, k ≠ op → tget? t.ops k = tget? s.ops k) ∧
  ∀ l, l ≠ lane → (tget? t.ops op).bind (·.req? l) = (tget? s.ops op).bind (·.req? l)

/-- The tags of HBM after n bytes at h are written, which leave the tag `v` on the granule of h if they are a capability. -/
def tagsAfter (s t : State) (h n : Nat) (v : Bool) : Prop :=
  ∀ g, t.mem.hbm.tags.contains g = if v = true ∧ g = h / 16 then true
    else s.mem.hbm.tags.contains g && !(decide (16 * g < h + n) && decide (h < 16 * g + 16))

/-- R139, R209, R210: a translated store that may be performed, of a span that is not write-combining and is homed here, is written at its
home, whose owner of the words is now the core; ST falls. A capability keeps its tag where it is well formed and outside save areas. No other
byte, tag or register changes; where the slices have room, no other word's owner or copy does. -/
def StoresAtHome : Prop :=
  ∀ op lane (s : State) o q h n' mt, tget? s.ops op = some o → ((∃ n, o.kind = .store n) ∨ (o.kind = .storeCap ∧ q.n = 16 ∧ h % 16 = 0)) →
    o.req? lane = some q → q.ph = .xlated → blockOn s o.blk = true →
    mayPerform s o q = true → isMerged s o.core op lane = false → q.probe = false → q.parts = [(h, n', mt)] → mt ≠ 1 → mt < 4 → n' = q.n → 1 ≤ q.n →
    let tag := o.kind == .storeCap && q.tag && Cap.wellFormed ⟨BitVec.ofNat 128 q.data, true⟩ && !inSaveArea s h
    ∃ t, exec (.storeRegister op lane) s = .next t ∧ memSide s t ∧ (∀ a, t.byteAt (.hbm a) = hbmWith s h (natBytes q.n q.data) a) ∧
      (∀ b a, t.byteAt (.spm b a) = s.byteAt (.spm b a)) ∧ (∀ d a, t.byteAt (.ws d a) = s.byteAt (.ws d a)) ∧ tagsAfter s t h q.n tag ∧
      (∀ w ∈ wordsOf h q.n, tget? t.mem.wordOwner w = some o.core) ∧ reqGone t op lane ∧ otherReqs s t op lane ∧ ctrFell s t o.blk o.gidx lane .st ∧
      (∀ w ∈ wordsOf h q.n, ∀ x, tget? (t.core o.core).l1 w = some x → x = (homeWord t w, true)) ∧
      (roomy s → q.n ≤ 16 → (∀ w, w ∉ wordsOf h q.n → tget? t.mem.wordOwner w = tget? s.mem.wordOwner w) ∧
        ∀ k w, ¬(k = o.core ∧ ∃ v ∈ wordsOf h q.n, w / 2 = v / 2) → tget? (t.core k).l1 w = tget? (s.core k).l1 w)

/-- R140, R210: a store to a write-combining span that leaves the line's 64 bytes unfilled merges in the core's buffer: no byte of memory
changes, and it is still to be performed. -/
def StoresMerge : Prop :=
  ∀ op lane (s : State) o q n h, tget? s.ops op = some o → o.kind = .store n → o.req? lane = some q → q.ph = .xlated → blockOn s o.blk = true →
    mayPerform s o q = true → isMerged s o.core op lane = false → q.parts = [(h, q.n, 1)] → 1 ≤ q.n → h % 64 + q.n ≤ 64 →
    (((tget? (s.core o.core).wc (h / 64)).map (·.bytes.length)).getD 0) + q.n < 64 →
    let old := ((tget? (s.core o.core).wc (h / 64)).map (·.bytes)).getD []
    ∃ t w, exec (.storeRegister op lane) s = .next t ∧ { t with cores := s.cores } = s ∧ (∀ k, k ≠ o.core → t.core k = s.core k) ∧
      { t.core o.core with wc := [] } = { s.core o.core with wc := [] } ∧ tget? (t.core o.core).wc (h / 64) = some w ∧ (op, lane) ∈ w.op ∧
      (∀ l, l ≠ h / 64 → tget? (t.core o.core).wc l = tget? (s.core o.core).wc l) ∧
      ∀ i, tget? w.bytes i = if h % 64 ≤ i ∧ i < h % 64 + q.n then some (BitVec.ofNat 8 (q.data / 256 ^ (i - h % 64))) else tget? old i

end Sys2Proof

/-- R113, R139, R140, R209, R210: what becomes of a translated store that may be performed. -/
def Obligations.StoresRegister : Prop := StoresAtHome ∧ StoresMerge

/-- R113, R144, R208: a translated load of a span homed here that may be performed reads its bytes at the home, and changes no byte, no tag and
no register; in normal memory the words it read are in the core's L1. -/
def Obligations.LoadsRead : Prop :=
  ∀ op lane (s : State) o q n sg h n' mt, tget? s.ops op = some o → o.kind = .load n sg → o.req? lane = some q → q.ph = .xlated →
    blockOn s o.blk = true → mayPerform s o q = true → q.parts = [(h, n', mt)] → mt ≠ 1 → mt < 4 → badLine s h n' = none →
    ∃ t, exec (.memoryRequest op lane false) s = .next t ∧ memSide s t ∧ bytesKept s t ∧ t.mem.hbm = s.mem.hbm ∧ t.mem.lines = s.mem.lines ∧
      t.mem.images = s.mem.images ∧ t.mem.stamp = s.mem.stamp ∧ t.mem.maps = s.mem.maps ∧ t.blocks = s.blocks ∧ t.groups = s.groups ∧ otherReqs s t op lane ∧
      (tget? t.ops op).bind (·.req? lane) =
        some { q with ph := .done, val := leNat ((List.range n').map fun i => physByte s (h + i)), vtag := false } ∧
      (mt = 0 → ∀ w ∈ wordsOf h n', (tget? (t.core o.core).l1 w).map (·.1) = some (homeWord s w)) ∧
      (roomy s → n' ≤ 16 → t.mem.wordOwner = s.mem.wordOwner)

namespace Sys2Proof

/-- The results of the atomics of Table 15.5: kind, type, the old word, the operand, the comparand. -/
def atomicResult (k : Nat) (ty : Ty) (old d cmp : Nat) : Nat :=
  let i (x : Nat) : Int := (BitVec.ofNat 32 x).toInt
  match k with
  | 0 => if ty = .f32 then (applyF .add .f32 .rn [BitVec.ofNat 32 old, BitVec.ofNat 32 d]).toNat else (old + d) % 2 ^ ty.width
  | 1 => if ty = .s32 then (if i old < i d then old else d) else min old d
  | 2 => if ty = .s32 then (if i old < i d then d else old) else max old d
  | 3 => old &&& d
  | 4 => old ||| d
  | 5 => old ^^^ d
  | 6 => d
  | _ => if old = cmp then d else old

end Sys2Proof

/-- R101, R214, R215: the one atomic of its issue to a word homed here, without a release part, replaces the word by its result and returns what
was there; the granule's tag is cleared, the core owns the word and keeps no copy; with an acquire part its core keeps only the words it
owns. No other byte, tag or register changes. -/
def Obligations.AtomicsPerform : Prop :=
  ∀ op lane (s : State) o q k ty ord h n mt, tget? s.ops op = some o → o.kind = .atomic k ty ord → ord ≠ .rel → ord ≠ .ar → o.req? lane = some q →
    q.parts = [(h, n, mt)] → mt ≠ 1 → mt < 4 → n = q.n → 1 ≤ q.n → atomicsTo s o (h / 4) = [(op, lane)] → mayPerform s o q = true → blockOn s o.blk = true →
    (∀ x ∈ s.ops, x.2.order = o.order → x.2.blk = o.blk → ∀ p ∈ x.2.lanes, p.ph ≠ .sent ∧ ∀ k, p.ph ≠ .retry k) → badLine s h q.n = none →
    let old := leNat (physRead s h q.n)
    ∃ t, exec (.atomicPerform op (h / 4)) s = .next t ∧ (∀ a, t.byteAt (.hbm a) = hbmWith s h (natBytes q.n (atomicResult k ty old q.data q.data2)) a) ∧
      (∀ b a, t.byteAt (.spm b a) = s.byteAt (.spm b a)) ∧ (∀ d a, t.byteAt (.ws d a) = s.byteAt (.ws d a)) ∧ t.groups = s.groups ∧ memSide s t ∧
      tagsAfter s t h q.n false ∧ otherReqs s t op lane ∧ (tget? t.ops op).bind (·.req? lane) = some { q with ph := .done, val := old } ∧
      (∀ w ∈ wordsOf h q.n, tget? t.mem.wordOwner w = some o.core ∧ tget? (t.core o.core).l1 w = none) ∧
      (ord = .acq → ∀ x ∈ (t.core o.core).l1, tget? t.mem.wordOwner x.1 = some o.core) ∧
      (roomy s → q.n ≤ 16 → ∀ w, w ∉ wordsOf h q.n → tget? t.mem.wordOwner w = tget? s.mem.wordOwner w)

/-- R194, R196: when the value of a load of one register arrives, every register lane that refers to its symbol has a × value + b, and no other
register lane changes; the counter of the lanes falls, and they leave the operation, whose other lanes stay. Nothing else changes. No core
cycle passes on a die that relocks (R305). -/
def Obligations.LoadsArrive : Prop :=
  ∀ op (s : State) o σ G, tget? s.ops op = some o → o.kind.returns = true → arrivable o = true → (∀ q ∈ o.lanes, q.got = []) → o.syms = [σ] →
    (s.die (dieOf o.core)).relocking s.reft = false →
    (∀ q ∈ o.doneLanes, q.vtag = false) → (∀ q ∈ o.lanes, q.probe = false) → (o.lanes.map (·.lane)).Nodup → s.grp? o.blk o.gidx = some G →
    ∃ t, exec (.loadArrival op 0) s = .next t ∧ t.cur = s.cur ∧ bytesKept s t ∧ outsideBut (fun B => { B with log := [] }) { s with ops := t.ops } t ∧
      groupsKept (fun G => { G with v := [], vt := [], vl := [], ctr := [] }) s t ∧
      (∀ q ∈ o.doneLanes, ∀ r a b, G.cell r q.lane = some (.aff σ a b) →
        t.cellAt (gkey o.blk o.gidx) r q.lane = some (.val (a * q.piece o.kind 0 + b))) ∧
      (∀ k r l, ¬(k = gkey o.blk o.gidx ∧ (∃ q ∈ o.doneLanes, q.lane = l) ∧ ((s.cellAt k r l).map fun x => x.refers σ) = some true) →
        t.cellAt k r l = s.cellAt k r l) ∧
      (∀ k n l, t.tagAt k n l = true → s.tagAt k n l = true) ∧
      (∀ q ∈ o.doneLanes, reqGone t op q.lane ∧
        (t.grp? o.blk o.gidx).map (fun H => (H.ctrs q.lane).get o.kind.ctr) = some ((G.ctrs q.lane).get o.kind.ctr - 1)) ∧
      (∀ k l x, ¬(k = gkey o.blk o.gidx ∧ (∃ q ∈ o.doneLanes, q.lane = l) ∧ x = o.kind.ctr) →
        (tget? t.groups k).map (fun G => (G.ctrs l).get x) = (tget? s.groups k).map fun G => (G.ctrs l).get x) ∧
      (∀ q ∈ o.lanes, q.ph ≠ .done → (tget? t.ops op).bind (·.req? q.lane) = some q) ∧ ∀ k, k ≠ op → tget? t.ops k = tget? s.ops k

/-- What an unanswered request off the package leaves (R345): an integrity event of kind 4 for its context. Its unit is a port drawn by a free value
(the model's choice, assumption 29). -/
def portEvent (s : State) (pasid : Option Nat) : State :=
  integrity { s with free := s.free + 1 } 4 (16 + Config.freeNat s.free % 8) 0 pasid 0

/-- R133, R138 to R140, R210, R345, R347: a loss notice drops the core's copy, and with the ownership of the word that of its whole line, which has
left the slice (the model's reading of when a notice comes, assumption 69); a line of a write-combining buffer drains 1 µs after its
first merge, with the tags of the capability stores merged in it; refresh windows open and close on every die; a put's bytes come into the target's
scratchpad and ST falls, a get's into the issuer's and LD falls; a request off the package with no answer for 1 ms is ended with an event, whose
unit the model leaves free (assumption 29); elements, credits and answers come in. The form of what a peer is answered, and the routing of a queue
by a message, are the model's (assumptions 56, 81 and 112). -/
def Obligations.MemoryEvents : Prop :=
  (∀ core word (s : State), ∃ t, exec (.lossNotice core word) s = .next t ∧ bytesKept s t ∧ tget? (t.core core).l1 word = none ∧
    tget? t.mem.wordOwner word ≠ some core ∧
    (tget? s.mem.wordOwner word = some core → ∀ w, w / 16 = word / 16 → tget? t.mem.wordOwner w = none ∧
      ∀ k, tget? s.mem.wordOwner w = some k → tget? (t.core k).l1 w = none) ∧
    (∀ w, w ≠ word → (tget? s.mem.wordOwner word = some core → w / 16 ≠ word / 16) → tget? t.mem.wordOwner w = tget? s.mem.wordOwner w ∧
      ∀ k, tget? (t.core k).l1 w = tget? (s.core k).l1 w) ∧
    memSide s t ∧ { t.mem with wordOwner := s.mem.wordOwner } = s.mem ∧ t.blocks = s.blocks ∧ t.groups = s.groups ∧ t.ops = s.ops) ∧
  (∀ core line (s : State) w, tget? (s.core core).wc line = some w → w.time + 1000 ≤ s.reft → (w.bytes.map (·.1)).Nodup →
    (∀ x ∈ s.ops, ∀ q ∈ x.2.lanes, q.probe = false) → (w.tags = [] ∨ s.mem.images = []) → relockWait s core [(64 * line, 64, 1)] = false →
    (∀ i ∈ w.tags, i < 4) →
    let p := ((w.op.findSome? fun x => tget? s.ops x.1).map fun o => pasidOf s o.blk).getD 0
    ∃ t, exec (.wcDrainTimeout core line) s = .next t ∧ tget? (t.core core).wc line = none ∧
      (∀ a, t.byteAt (.hbm a) = ((if 64 * line ≤ a then tget? w.bytes (a - 64 * line) else none).getD (s.byteAt (.hbm a)))) ∧
      ∀ g, t.mem.hbm.tags.contains g = if 4 * line ≤ g ∧ g - 4 * line ∈ w.tags then
          pieceTag t p (physRead t (16 * g) 16) true 0 && !inSaveArea t (16 * g)
        else s.mem.hbm.tags.contains g && !(w.bytes.any fun x => (64 * line + x.1) / 16 == g)) ∧
  (∀ s : State, s.reft % 250 = 0 → ∃ t, exec .refreshWindowStart s = .next t ∧ { t with dies := s.dies } = s ∧
    (∀ d, 24 ≤ d → t.die d = s.die d) ∧ ∀ d < 24, t.die d = { s.die d with refresh := some (s.reft / 250 % 32) }) ∧
  (∀ s : State, 120 ≤ s.reft % 250 → (∀ d, (s.die d).wsBad = []) →
    ∃ t, exec .refreshWindowEnd s = .next t ∧ { t with dies := s.dies, ops := s.ops } = s ∧ (∀ d < 24, t.die d = { s.die d with refresh := none }) ∧
      ∀ k o n, tget? s.ops k = some o → o.kind = .wld n →
        tget? t.ops k = some { o with lanes := o.lanes.map fun q =>
          if q.ph = .sent ∧ q.time / 250 * 250 + 120 ≤ s.reft then { q with ph := .done } else q }) ∧
  (∀ op lane (s : State) o q k r T, tget? s.ops op = some o → o.req? lane = some q → q.probe = false → o.kind = .put → windowTurn s o q = true →
    relockWait s o.core [] = false →
    q.targets = k :: r → tget? s.blocks k = some T →
    ∃ t, exec (.windowTransferComplete op lane) s = .next t ∧ reqGone t op lane ∧ ctrFell s t o.blk o.gidx lane .st ∧
      ∀ b a, t.byteAt (.spm b a) = if b = k ∧ q.x2 ≤ a ∧ a < q.x2 + q.n then BitVec.ofNat 8 (q.data / 256 ^ (a - q.x2)) else s.byteAt (.spm b a)) ∧
  (∀ op lane (s : State) o q k r B, tget? s.ops op = some o → o.req? lane = some q → q.probe = false → o.kind = .get → q.targets = k :: r →
    relockWait s o.core [] = false →
    tget? s.blocks o.blk = some B →
    ∃ t, exec (.windowTransferComplete op lane) s = .next t ∧ reqGone t op lane ∧ ctrFell s t o.blk o.gidx lane .ld ∧
      ∀ b a, t.byteAt (.spm b a) = if b = o.blk ∧ q.x ≤ a ∧ a < q.x + q.n then s.byteAt (.spm k (q.x2 + (a - q.x))) else s.byteAt (.spm b a)) ∧
  (∀ op lane (s : State) o q, tget? s.ops op = some o → o.req? lane = some q → q.ph = .remote → q.sent + 1000000 ≤ s.reft →
    orphanLate s (.op op) lane = none →
    exec (.completionTimeout (.op op) lane) s = .next (portEvent (dropReq s op lane) (some (pasidOf s o.blk)))) ∧
  (∀ r (s : State) i n a ks, s.issuer? r = some i → i.wait = .code n a ks → n + 1000000 ≤ s.reft → orphanLate s (.code r.blk r.gidx) r.iss = none →
    exec (.completionTimeout (.code r.blk r.gidx) r.iss) s =
      .next (portEvent (s.modIssuer r fun i => { i with wait := .go }) (some (pasidOf s r.blk)))) ∧
  (∀ w (s : State) W r rest n ks ps, tget? s.worlds w = some W → W.readings = r :: rest → r.sent = some (n, ks, ps) → n + 1000000 ≤ s.reft →
    orphanLate s .meter w = none → exec (.completionTimeout .meter w) s =
      .next (portEvent (s.modWorld w fun _ => passDies { W with readings := rest } r.dies) (some r.pasid))) ∧
  (∀ k (s : State) w n ks ps, tget? s.wscopies k = some w → w.sent = some (n, ks, ps) → n + 1000000 ≤ s.reft → orphanLate s .wscopy k = none →
    exec (.completionTimeout .wscopy k) s =
      .next (reply (portEvent { s with wscopies := tdel s.wscopies k } (some w.pasid)) w.cmd 8 0)) ∧
  (∀ a n (s : State) x, orphanLate s a n = some x → exec (.completionTimeout a n) s =
    .next (portEvent { s with orphans := s.orphans.eraseP fun y => y.asked == a && y.n == n } x.pasid)) ∧
  (∀ port queue pasid w (s : State) q, tget? s.fqs (fqKey port queue) = some q → (tget? s.ctxs pasid).isSome → q.bound = some pasid → port < 8 → queue < 256 →
    ∃ t, exec (.fabricPacketArrival (.element port queue pasid w)) s = .next t ∧ bytesKept s t ∧ t.discards = s.discards ∧
      tget? t.fqs (fqKey port queue) = some { q with elems := q.elems ++ [w] }) ∧
  (∀ port queue pasid w (s : State), (tget? s.ctxs pasid = none ∨ (tgetD s.fqs (fqKey port queue) FQueue.reset).bound ≠ some pasid) →
    port < 8 → queue < 256 →
    let q := tgetD s.fqs (fqKey port queue) FQueue.reset
    exec (.fabricPacketArrival (.element port queue pasid w)) s = .next { s with
      discards := s.discards + 1, fqs := tset s.fqs (fqKey port queue) { q with owed := q.owed + 1 } }) ∧
  (∀ port queue pasid w n (s : State), 8 ≤ port → exec (.fabricPacketArrival (.element port queue pasid w)) s = .next s ∧
    exec (.fabricPacketArrival (.credit port queue n)) s = .next s) ∧
  (∀ port queue n (s : State) q, q = tgetD s.fqs (fqKey port queue) FQueue.reset → port < 8 → queue < 256 →
    exec (.fabricPacketArrival (.credit port queue n)) s =
      .next { s with fqs := tset s.fqs (fqKey port queue) { q with credits := min 64 (q.credits + n) } }) ∧
  (∀ port queue x (s : State) q, q = tgetD s.fqs (fqKey port queue) FQueue.reset → port < 8 → queue < 240 →
    exec (.fabricPacketArrival (.route port queue x)) s = .next { s with fqs := tset s.fqs (fqKey port queue) { q with route := x } }) ∧
  (∀ op lane v (s : State) o q n sg h mt, tget? s.ops op = some o → o.req? lane = some q → q.ph = .remote → o.kind = .load n sg →
    o.wide = none → q.parts = [(h, q.n, mt)] → 4 ≤ mt → isOrphan s (.op op) lane = false → relockWait s o.core q.parts = false →
    exec (.fabricPacketArrival (.response op lane v false)) s = .next (s.modOp op fun o => o.modReq lane fun r =>
      { r with ph := .done, val := v % 2 ^ (8 * q.n), vtag := false })) ∧
  (∀ pasid k x n (s : State), tget? s.ctxs pasid = none →
    exec (.fabricPacketArrival (.remoteRead pasid k x n)) s = .next { s with discards := s.discards + 1, reply := [9#8] }) ∧
  (∀ pasid k x bs tags p (s : State), tget? s.ctxs pasid = none →
    exec (.fabricPacketArrival (.remoteWrite pasid k x bs tags p)) s = .next { s with discards := s.discards + 1, reply := [9#8] })

/-! ### Engines (R227, R231, R252, R253, R255, R256, R259, R260) -/

namespace Sys2Proof

/-- A part of a copy, or a block of an oload, that goes on now, and that the probe takes no sample of: its lane waits for it, its block and
context run, what must come before it is done, no relock holds it, and the operation is held for no translation. -/
def partDue (s : State) (op lane part : Nat) (cached : Bool) (o : Op) (q : LReq) : Prop :=
  tget? s.ops op = some o ∧ o.req? lane = some q ∧ q.ph = .sent ∧ part ∈ q.todo ∧ o.wide = none ∧ s.sandbox = none ∧
  blockOn s o.blk = true ∧ blockRuns s o.blk = true ∧ ctxRuns s (pasidOf s o.blk) = true ∧ (o.kind.isCopy = true → copyTurn s o lane = true) ∧
  storesDone s o (if o.kind = .oload then o.lanes.map (·.lane) else [lane]) = true ∧ partStill s o q part cached = false ∧
  q.probe = false ∧ q.marks = [] ∧ ∀ c, ctxOf s o.blk = some c → c.dbg.getLsbD 576 = false

/-- n bytes at x of a capability are read from memory of this package, none of it poisoned: their bytes, and the tag of the granule at each
offset. Translating them leaves `u`. -/
def memSource (s u : State) (o : Op) (k : Cap) (x n : Nat) (cached : Bool) (bs : List Byte) (tag : Nat → Bool) : Prop :=
  ∃ ps, translate s (dieOf o.core) (pasidOf s o.blk) k x n false cached = .ok ps u ∧ (∀ p ∈ ps, badLine s p.1 p.2.1 = none) ∧
    bs = ps.flatMap (fun p => physRead s p.1 p.2.1) ∧ ∀ v, tag v = physTag s ((hostOf ps x v).getD 0)

/-- What a part of a copy reads: the bytes of its range, widened to whole words, of the scratchpad (`cpys.out`), of the weight window (a
`cpy` from it) or of memory, and the tag of the granule at each offset. -/
def partSource (s u : State) (o : Op) (q : LReq) (part : Nat) (cached : Bool) (bs : List Byte) (tag : Nat → Bool) : Prop :=
  let src := q.x + (partRange o.kind q part).1
  let rd := readRange q src (partRange o.kind q part).2
  if o.kind = .cpysOut then u = s ∧ bs = (blockSpm s o.blk).read rd.1 rd.2 ∧ ∀ v, tag v = (blockSpm s o.blk).tag v
  else if o.kind = .cpy ∧ q.cap.obn = weightObn then
    u = s ∧ wsBadLine s (dieOf o.core) ((wsWindow s o.blk).1 + rd.1) rd.2 = none ∧
    bs = wsRead s (dieOf o.core) (worldOf s o.blk) ((wsWindow s o.blk).1 + rd.1) rd.2 ∧ ∀ v, tag v = false
  else memSource s u o q.cap rd.1 rd.2 cached bs tag

/-- The byte of a part at a source offset: as it was before the copy wrote it, where the copy overlaps itself (R227); as another part read it,
in a word that two parts share (R146); else as it is read now. -/
def partByte (o : Op) (q : LReq) (part : Nat) (bs : List Byte) (v : Nat) : Byte :=
  ((if selfCopy o.kind q then tget? q.old v else none).orElse fun _ => tget? q.old (edgeKey v)).getD
    (bs.getD (v - (readRange q (q.x + (partRange o.kind q part).1) (partRange o.kind q part).2).1) 0#8)

/-- The bytes that a part writes. -/
def partBytes (o : Op) (q : LReq) (part : Nat) (bs : List Byte) : List Byte :=
  (List.range (partRange o.kind q part).2).map fun i => partByte o q part bs (q.x + (partRange o.kind q part).1 + i)

/-- Whether the granule that begins at byte i of a part comes with a tag: both ends of the copy are aligned, the part writes all of it, the
capabilities let tags pass, and what is written is a capability that is well formed, may be stored there and is not stale (R99, R108, R118,
R230). -/
def partTag (s : State) (o : Op) (q : LReq) (part : Nat) (bs : List Byte) (tag : Nat → Bool) (i : Nat) : Bool :=
  let v := q.x + (partRange o.kind q part).1 + i
  let fill := o.kind == .cpysIn || o.kind == .mcast
  copyAligned q && decide (i + 16 ≤ (partRange o.kind q part).2) &&
    pieceTag s (pasidOf s o.blk) (((partBytes o q part bs).drop i).take 16)
      ((if selfCopy o.kind q && (tget? q.old v).isSome then q.oldTags.contains (v / 16) else tag v) &&
        (if fill then q.cap.has Perm.lc else q.cap2.has Perm.sc && (o.kind == .cpysOut || q.cap.has Perm.lc)))
      (if fill then 0 else Perm.glb)

/-- A part of a copy leaves those that are still to come. -/
def partGone (t : State) (op lane part : Nat) (q : LReq) : Prop :=
  ((tget? t.ops op).bind (·.req? lane)).map (·.todo) = some (q.todo.filter (· != part))

end Sys2Proof

/-- R146, R227 to R231: a part of a `cpys.in` or of an `mcast` that reads memory of this package brings its bytes into the scratchpad of the
block, or of each target, with the tags that go with them; a part of a `cpy` or of a `cpys.out` brings its bytes, and their tags, to one frame
of memory of this package. They change no other byte or tag, and the part is no longer to come. R252: a block of an oload brings its bytes into
the operation. A copy whose parts are done ends, and CP falls; an oload whose blocks are read fills its slot, and TL falls. Which word of a
copy two parts share, and when a copy as a whole is aligned, are the model's readings (DEDUCED, assumption 104). -/
def Obligations.CopyEvents : Prop :=
  (∀ op lane part cached (s u : State) o q bs tag, partDue s op lane part cached o q → o.kind = .cpysIn ∨ o.kind = .mcast → 64 * part < q.n →
    partSource s u o q part cached bs tag →
    let dst := q.x2 + (partRange o.kind q part).1
    let n := (partRange o.kind q part).2
    let into (b : Nat) : Prop := (if o.kind = .mcast then b ∈ q.targets else b = o.blk) ∧ (tget? s.blocks b).isSome
    ∃ t, exec (.copyPart op lane part cached) s = .next t ∧ (∀ a, t.byteAt (.hbm a) = s.byteAt (.hbm a)) ∧ t.mem.hbm.tags = s.mem.hbm.tags ∧
      (∀ b a, into b → dst ≤ a → a < dst + n → t.byteAt (.spm b a) = (partBytes o q part bs).getD (a - dst) 0#8) ∧
      (∀ b a, ¬(into b ∧ dst ≤ a ∧ a < dst + n) → t.byteAt (.spm b a) = s.byteAt (.spm b a)) ∧
      (∀ b g, into b → 16 * g < dst + n → dst < 16 * g + 16 →
        ((blockSpm t b).tags.contains g = true ↔ dst ≤ 16 * g ∧ partTag s o q part bs tag (16 * g - dst) = true)) ∧
      (∀ b g, ¬(into b ∧ 16 * g < dst + n ∧ dst < 16 * g + 16) → (blockSpm t b).tags.contains g = (blockSpm s b).tags.contains g) ∧
      partGone t op lane part q) ∧
  (∀ op lane part cached (s u v : State) o q bs tag h mt, partDue s op lane part cached o q → o.kind = .cpy ∨ o.kind = .cpysOut → 64 * part < q.n →
    partSource s u o q part cached bs tag →
    let dst := q.x2 + (partRange o.kind q part).1
    let n := (partRange o.kind q part).2
    translate u (dieOf o.core) (pasidOf s o.blk) q.cap2 dst n true cached = .ok [(h, n, mt)] v → h % 16 = dst % 16 →
    (∀ c ∈ s.ctxs, c.2.func = 0 ∨ h + n ≤ (s.func c.2.func).s2 ∨ (s.func c.2.func).s2 + 2 ^ 30 ≤ h) →
    ∃ t, exec (.copyPart op lane part cached) s = .next t ∧ (∀ a, t.byteAt (.hbm a) = hbmWith s h (partBytes o q part bs) a) ∧
      (∀ b a, t.byteAt (.spm b a) = s.byteAt (.spm b a)) ∧ (∀ d a, t.byteAt (.ws d a) = s.byteAt (.ws d a)) ∧
      (∀ g, 16 * g < h + n → h < 16 * g + 16 →
        (t.mem.hbm.tags.contains g = true ↔ h ≤ 16 * g ∧ partTag s o q part bs tag (16 * g - h) = true ∧ inSaveArea s (16 * g) = false)) ∧
      (∀ g, ¬(16 * g < h + n ∧ h < 16 * g + 16) → t.mem.hbm.tags.contains g = s.mem.hbm.tags.contains g) ∧
      partGone t op lane part q) ∧
  (∀ op lane part cached (s u : State) o q bs tag, partDue s op lane part cached o q → o.kind = .oload →
    (q.tag = false ∧ memSource s u o q.cap (blockAt o q part) 64 cached bs tag ∨
      q.tag = true ∧ bs = racedWords s o.blk (blockAt o q part) 16 (o.lanes.map fun r => 64 * o.gidx + r.lane) s.free) →
    ∃ t, exec (.copyPart op lane part cached) s = .next t ∧ bytesKept s t ∧ (tget? t.ops op).bind (·.req? lane) = some
      { q with val := q.val + leNat bs * 2 ^ (512 * part), todo := q.todo.filter (· != part)
               ph := if (q.todo.filter (· != part)).isEmpty then .done else .sent }) ∧
  (∀ op lane (s : State) o q G, tget? s.ops op = some o → o.kind.isCopy = true → o.req? lane = some q → q.ph = .sent → q.todo = [] → o.wide = none →
    s.grp? o.blk o.gidx = some G → (∀ c ∈ G.chans, c.2.kind ≠ 4) → G.exited = 0#64 →
    ∃ t, exec (.copyComplete op lane) s = .next t ∧ bytesKept s t ∧ reqGone t op lane ∧ ctrFell s t o.blk o.gidx lane .cp) ∧
  (∀ op (s : State) o q B, tget? s.ops op = some o → o.kind = .oload → o.wide = none → (∀ p ∈ o.lanes, p.ph = .done ∧ p.todo = []) →
    o.lanes.find? (fun p => decide (p.val ≠ 0)) = some q → tget? s.blocks o.blk = some B → (tget? B.slots o.slot).isSome →
    ∃ t, exec (.oloadComplete op) s = .next t ∧ bytesKept s t ∧ tget? t.ops op = none ∧
      ((tget? t.blocks o.blk).bind fun T => tget? T.slots o.slot) = some (slotBytes q.val) ∧
      (∀ l, (o.lanes.map (·.lane)).Nodup → l ∈ o.lanes.map (·.lane) →
        (t.grp? o.blk o.gidx).map (fun G => (G.ctrs l).tl) = (s.grp? o.blk o.gidx).map fun G => (G.ctrs l).tl - 1))

/-- R253, R255, R256, R259, R260: an operation of the tile queue starts, and holds the arrays it needs; 62 clocks later a paired operation has
added both halves' products to every element of both tiles, or replaced it by them, and both versions have advanced; an accumulator operation
clears or writes its tile, or rounds elements into the registers of its view, of 16, 32 or 64 bits each; other bytes of those registers, and the
other registers, keep what they hold. -/
def Obligations.TileEvents : Prop :=
  (∀ core (s : State) id t, nextTile s core = some (id, t) →
    exec (.tileOpStart core) s = .next ((t.cores s).foldl (fun u k => u.modCore k fun C => { C with busy := some id })
      { s with tops := tset s.tops id { t with running := true, start := s.cycles (dieOf (homeOf s t.blk)) } })) ∧
  (∀ id (s : State) t as bs fbs tl e vl vf acc ta tb fol X Y, tget? s.tops id = some t →
    t.kind = .mpair as bs fbs tl e vl vf acc ta tb fol → t.running = true → t.unfencedNow s = false → t.sides = [] →
    t.start + 62 ≤ s.cycles (dieOf (homeOf s t.blk)) → (s.die (dieOf (homeOf s t.blk))).relocking s.reft = false → fol ≠ t.blk → tileOf s t.blk tl = some X → tileOf s fol tl = some Y →
    let result (W : Tile) (A B : Tab Byte) (i j : Nat) : DWord :=
      (cfAdd (cfAdd (if acc then CF.ofBits (tgetD W.el (64 * i + j) 0#64) else ⟨0#32, 0#32⟩) (halfSum ta tb (slotHalf A i 0) (slotHalf B j 0) e))
        (halfSum ta tb (slotHalf A i 1) (slotHalf B j 1) e)).toBits
    ∃ t' X' Y', exec (.mpairRetire id) s = .next t' ∧ tileOf t' t.blk tl = some X' ∧ tileOf t' fol tl = some Y' ∧
      X'.ver = X.ver + 1 ∧ Y'.ver = Y.ver + 1 ∧ bytesKept s t' ∧ tget? t'.tops id = none ∧
      (t'.core (homeOf s t.blk)).busy = none ∧ (t'.core (homeOf s fol)).busy = none ∧
      ∀ i < 64, ∀ j < 64, tgetD X'.el (64 * i + j) 0#64 = result X (slotOf s t.blk as) (slotOf s t.blk bs) i j ∧
        tgetD Y'.el (64 * i + j) 0#64 = result Y (slotOf s t.blk as) (slotOf s fol fbs) i j) ∧
  (∀ id (s : State) t tl ver X, tget? s.tops id = some t → t.running = true → t.kind = .accclr tl ver → tileOf s t.blk tl = some X →
    (s.die (dieOf (homeOf s t.blk))).relocking s.reft = false →
    ∃ t', exec (.tileOpComplete id) s = .next t' ∧ tileOf t' t.blk tl = some ⟨[], X.ver + 1⟩ ∧ tget? t'.tops id = none ∧ bytesKept s t') ∧
  (∀ id (s : State) t tl ver row col w ty X G, tget? s.tops id = some t → t.running = true → t.unfencedNow s = false →
    t.kind = .accwr tl ver row col w ty → (viewOf w).valid = true → tileOf s t.blk tl = some X → s.grp? t.blk t.gidx = some G → viewDirty s t.blk t.gidx w = false →
    (∀ r < (viewOf w).rows, ∀ c < (viewOf w).cols, viewWaits G ((viewOf w).at r c) (viewOf w).size = false) →
    col + (viewOf w).cols ≤ 64 → (s.die (dieOf (homeOf s t.blk))).relocking s.reft = false →
    ∃ t' X', exec (.tileOpComplete id) s = .next t' ∧ tileOf t' t.blk tl = some X' ∧ X'.ver = X.ver + 1 ∧ tget? t'.tops id = none ∧ bytesKept s t' ∧
      (∀ r < (viewOf w).rows, ∀ c < (viewOf w).cols,
        tgetD X'.el (64 * (row + r) + col + c) 0#64 = toTile ty (viewNat G ((viewOf w).at r c) (viewOf w).size)) ∧
      ∀ k, ¬(∃ r < (viewOf w).rows, ∃ c < (viewOf w).cols, k = 64 * (row + r) + col + c) → tgetD X'.el k 0#64 = tgetD X.el k 0#64) ∧
  (∀ id (s : State) t tl ver row col w ty m X G, tget? s.tops id = some t → t.running = true → t.unfencedNow s = false → t.kind = .accrd tl ver row col w ty m →
    (viewOf w).valid = true → tileOf s t.blk tl = some X → s.grp? t.blk t.gidx = some G →
    partPend s t = [] → (s.die (dieOf (homeOf s t.blk))).relocking s.reft = false →
    let g := gkey t.blk t.gidx
    let stop := (viewOf w).base + (viewOf w).rows * (viewOf w).cols * (viewOf w).size
    ∃ t', exec (.tileOpComplete id) s = .next t' ∧ tileOf t' t.blk tl = some X ∧ tget? t'.tops id = none ∧ bytesKept s t' ∧
      (∀ r < (viewOf w).rows, ∀ c < (viewOf w).cols, ∀ i < (viewOf w).size, let k := (viewOf w).at r c + i
        ∃ x, t'.cellAt g (k / 256) (k % 256 / 4) = some (.val x) ∧
          x.toNat / 256 ^ (k % 4) % 256 = fromTile ty m (tgetD X.el (64 * (row + r) + col + c) 0#64) / 256 ^ i % 256) ∧
      (∀ k x, k < 16384 → ¬((viewOf w).base ≤ k ∧ k < stop) → s.cellAt g (k / 256) (k % 256 / 4) = some (.val x) →
        ∃ y, t'.cellAt g (k / 256) (k % 256 / 4) = some (.val y) ∧ y.toNat / 256 ^ (k % 4) % 256 = x.toNat / 256 ^ (k % 4) % 256) ∧
      ∀ r < 64, ∀ l < 64, ¬(256 * r + 4 * l < stop ∧ (viewOf w).base < 256 * r + 4 * l + 4) → t'.cellAt g r l = s.cellAt g r l)

/-! ### Commands (R286, R343) -/

namespace Sys2Proof

/-- The commands of the physical function, and those on the context bound to their interface (Table 29.2). -/
def pfCmd : Instr → Option Cmd
  | .ctxnew q _ _ | .ctxend q _ | .partwr q _ _ | .vacate q _ _ | .vacateReopen q _ _ | .keyrel q _ | .keyret q _ _ | .fncfg q _ _ _ _ _
  | .worldnew q _ _ _ _ _ | .worldend q _ | .qtrd q _ _ | .dbgwr q _ | .stopNow q | .stopAt q _ _ _ | .view q _ _ _ _ | .resume q => some q
  | _ => none
def ctxCmd : Instr → Option Cmd
  | .ctxwr q _ _ _ _ | .revoke q _ | .invalObject q _ | .invalSpan q _ _ | .invalStage2 q _ | .retry q _ | .dispose q _ _ | .handler q _ _ _ _
  | .wscopy q _ _ _ _ _ | .dbgwr q _ | .stopNow q | .stopAt q _ _ _ | .view q _ _ _ _ | .resume q => some q
  | _ => none

/-- The context that a command acts on. -/
def actsOn (s : State) (q : Cmd) (p : Nat) (c : Ctx) : Prop := (s.iface q.iface).pasid = some p ∧ tget? s.ctxs p = some c

end Sys2Proof

/-- R343: a command of the physical function from another function's interface completes with code 7, and one that acts on a context with code 9
where its interface is bound to none; nothing else changes. -/
def Obligations.CommandsRefused : Prop :=
  (∀ i q (s : State), pfCmd i = some q → (s.iface q.iface).func ≠ 0 → exec i s = .next (reply s q 7 0)) ∧
  ∀ i q (s : State), ctxCmd i = some q → (pfCmd i = none ∨ (s.iface q.iface).func = 0) →
    ((s.iface q.iface).pasid.bind fun p => tget? s.ctxs p) = none → exec i s = .next (reply s q 9 0)

/-! ### Invalidation, revocation, sweeps, moves (R115, R117 to R121) -/

namespace Sys2Proof

/-- No cached translation of any die meets a test. -/
def noneCached (t : State) (f : TlbEnt → Bool) : Prop := ∀ d ∈ t.dies, ∀ e ∈ d.2.tlb, f e = false

/-- A completion record of a command waits on its interface behind those that waited. -/
def completed (s t : State) (q : Cmd) (code result : Nat) : Prop :=
  (t.iface q.iface).held = (s.iface q.iface).held ++
    [BitVec.ofNat 128 (field 31 0 q.seq.toNat + field 39 32 code + field 127 64 result)]

end Sys2Proof

/-- R115: an invalidation waits, and completes when every request translated by what it names has been performed: nothing of it is cached then.
R117: a revocation advances the object's generation, and its point comes when the requests under the old one have been performed; then no
translation of the object is cached, the command completes and a sweep runs. One whose next generation was never swept waits for a sweep. -/
def Obligations.RevocationEvents : Prop :=
  (∀ (q : Cmd) (o : DWord) (s : State) p c, actsOn s q p c → o.toNat < 2 ^ 28 → exec (.invalObject q o) s = .next { s with
    nextId := s.nextId + 1, invals := tset s.invals s.nextId ⟨q, c.func, p, some o.toNat, none, none⟩ }) ∧
  (∀ (q : Cmd) (o i : DWord) (s : State) p c, actsOn s q p c → o.toNat < 2 ^ 28 → i.toNat < 2 ^ 19 → exec (.invalSpan q o i) s = .next { s with
    nextId := s.nextId + 1, invals := tset s.invals s.nextId ⟨q, c.func, p, some o.toNat, some i.toNat, none⟩ }) ∧
  (∀ (q : Cmd) (g : DWord) (s : State) p c, actsOn s q p c → g.toNat < 2 ^ 27 → exec (.invalStage2 q g) s = .next { s with
    nextId := s.nextId + 1, invals := tset s.invals s.nextId ⟨q, c.func, p, none, none, some g.toNat⟩ }) ∧
  (∀ n (s : State) v, tget? s.invals n = some v → inFlight s (v.uses s) = false →
    ∃ t, exec (.invalidationComplete n) s = .next t ∧ tget? t.invals n = none ∧ noneCached t v.hits ∧ completed s t v.cmd 0 0 ∧ bytesKept s t ∧
      t.groups = s.groups) ∧
  (∀ (q : Cmd) (o : DWord) (s : State) p c e, actsOn s q p c → o.toNat < c.otlen → objectEntry s c o.toNat = .ok e → objV e = true →
    (objGen e + 1) % 16 = objSwg e →
    ∃ t, exec (.revoke q o) s = .next t ∧ tget? t.revs s.nextId = some ⟨some q, p, o.toNat, true, objGen e⟩ ∧ bytesKept s t ∧
      ((tget? t.ctxs p).bind (·.sweep)).isSome ∧ t.ifaces = s.ifaces) ∧
  (∀ (q : Cmd) (o : DWord) (s : State) p c e, actsOn s q p c → o.toNat < c.otlen → objectEntry s c o.toNat = .ok e → objV e = true →
    (objGen e + 1) % 16 ≠ objSwg e → c.func = 0 → c.otbase % 16 = 0 → s.mem.images = [] →
    (∀ w, tget? s.mem.owner ((c.otbase + 16 * o.toNat) / 2 ^ 21) = some w → w = c.world) →
    ∃ t, exec (.revoke q o) s = .next t ∧ tget? t.revs s.nextId = some ⟨some q, p, o.toNat, false, objGen e⟩ ∧ t.ifaces = s.ifaces ∧
      objectEntry t c o.toNat = .ok (setField e 7 4 ((objGen e + 1) % 16)) ∧
      ∀ a, ¬(c.otbase + 16 * o.toNat ≤ a ∧ a < c.otbase + 16 * o.toNat + 16) → t.byteAt (.hbm a) = s.byteAt (.hbm a)) ∧
  (∀ n (s : State) r c e, tget? s.revs n = some r → r.held = true → tget? s.ctxs r.pasid = some c → objectEntry s c r.obn = .ok e → objV e = true →
    (objGen e + 1) % 16 ≠ objSwg e →
    ∃ t, exec (.revokeProceed n) s = .next t ∧ tget? t.revs n = some { r with held := false, gen := objGen e }) ∧
  (∀ n (s : State) r c, tget? s.revs n = some r → r.held = false → tget? s.ctxs r.pasid = some c →
    inFlight s (fun p q => p == r.pasid && q.cap.obn == r.obn && q.cap.ogen == r.gen) = false →
    ∃ t, exec (.revocationPoint n) s = .next t ∧ tget? t.revs n = none ∧ noneCached t (fun e => e.pasid == r.pasid && e.obn == r.obn) ∧
      (match r.cmd with | some q => completed s t q 0 0 | none => t.ifaces = s.ifaces) ∧ ((tget? t.ctxs r.pasid).bind (·.sweep)).isSome ∧ bytesKept s t)

namespace Sys2Proof

/-- A group has lost the tags of its stale capabilities, and no other tag. -/
def freshTags (s : State) (p : Nat) (G H : Group) : Prop :=
  (∀ n l, l < 64 → (H.vtag n l = true ↔ G.vtag n l = true ∧ isStale s p (G.quad (4 * n) l) = false)) ∧
  (∀ n, n ∈ H.st ↔ n ∈ G.st ∧ isStale s p (G.sPair (2 * n)) = false) ∧
  ∀ n l, G.vtag n l = false → (tgetD H.vl n 0#64).getLsbD l = (tgetD G.vl n 0#64).getLsbD l

end Sys2Proof

/-- R119: the scan of a group clears the tags of the stale capabilities in its registers, and no other; no value changes; the sweep ends when no
group on a core is left to scan, and then no stale tag stands in the scratchpads of the context's blocks or in the groups of those that are off
their cores, where every tag that is not stale stays.
R120, R121, R287: when a move ends (for a span that leaves, once each request translated to its old frames is done), the span's translations are
dropped, what waits on it alone and is posted issues again, and the third move within 1 ms settles it for
64 ms, after which it is unsettled again. -/
def Obligations.SweepsAndMoves : Prop :=
  (∀ g (s : State) G w, s.grp? g.blk g.gidx = some G → ((tget? s.ctxs (pasidOf s g.blk)).bind (·.sweep)) = some w → gkey g.blk g.gidx ∈ w.groups →
    (∀ k ∈ G.issuers, ((G.issuer? k).bind (·.cl)) = none) →
    ∃ t H, exec (.sweepRegisterScan g) s = .next t ∧ bytesKept s t ∧ groupsKept (fun G => { G with vt := [], vl := [], st := [] }) s t ∧
      t.grp? g.blk g.gidx = some H ∧ freshTags s (pasidOf s g.blk) G H ∧
      ((tget? t.ctxs (pasidOf s g.blk)).bind (·.sweep)) = some { w with groups := w.groups.filter (· != gkey g.blk g.gidx) }) ∧
  (∀ p (s : State) c w, tget? s.ctxs p = some c → c.sweep = some w → w.groups = [] →
    ∃ t, exec (.sweepComplete p) s = .next t ∧ (tget? t.ctxs p).map (·.sweep) = some none ∧
      (∀ b B, tget? s.blocks b = some B → B.pasid = p → ∃ T, tget? t.blocks b = some T ∧
        ∀ n, n ∈ T.spm.tags ↔ n ∈ B.spm.tags ∧ isStale s p (capOf (B.spm.read (16 * n) 16) true) = false) ∧
      (∀ b a, t.byteAt (.spm b a) = s.byteAt (.spm b a)) ∧
      ∀ b B g G, tget? s.blocks b = some B → B.pasid = p → B.phase.onCore = false → g < 32 → s.grp? b g = some G →
        ∃ H, t.grp? b g = some H ∧ freshTags s p G H) ∧
  (∀ (x : SpanRef) d ts (s : State) p c o e, (spanSt s (spanKey x.pasid x.obn x.idx)).moving = some p → tget? s.ctxs x.pasid = some c →
    objectEntry s c x.obn = .ok o → spanEntry s c o x.idx = .ok e →
    (p = Config.packageId.toNat ∨ inFlight s (fun w r => w == x.pasid && r.cap.obn == x.obn && r.inSpan x.idx && r.parts.any fun p => !farPart p) = false) →
    ∃ t, exec (.spanMoveComplete x d ts) s = .next t ∧
      spanSt t (spanKey x.pasid x.obn x.idx) = countMove (joinTimes (spanSt s (spanKey x.pasid x.obn x.idx)) d.times) s.reft ∧
      noneCached t (fun e => e.pasid == x.pasid && e.obn == x.obn && e.span == x.idx) ∧
      (∀ k ∈ t.parks, k ∈ s.parks) ∧
      ∀ h k, tget? s.parks h = some k → k.pasid = x.pasid → k.code = Code.spanMigrating → recHeld s h = false →
        ((waitsOn s h k).any fun r => r.cap.obn == x.obn && r.inSpan x.idx) = true →
        (∀ m ∈ t.mem.spans, m.2.moving.isSome → m.1 / 2 ^ 48 = x.pasid →
          ((waitsOn s h k).any fun r => r.cap.obn == m.1 / 2 ^ 20 % 2 ^ 28 && r.inSpan (m.1 % 2 ^ 20)) = false) →
        tget? t.parks h = none) ∧
  (∀ (x : SpanRef) (s : State), let k := spanKey x.pasid x.obn x.idx
    (spanSt s k).settled ≠ 0 → (spanSt s k).settled ≤ s.reft →
    exec (.settleExpiry x) s = .next (setSpan s k { spanSt s k with settled := 0 }))

/-! ### Trust (R317 to R319, R322, R324, R327, R328, R330) -/

/-- R317 to R319, R327, R328: worlds begin, and end once their frames are scrubbed; a blob fills a key slot, which becomes current, and a retired
slot is emptied once nothing uses it; a scrubbed frame holds zeros, has no owner and no tag, is reported free, and what a block's image held in
it is lost. R322, R324, R330: events stop the context that they name and are posted. Four clauses rest on the model's choices: the scramble key
is that of the last release (DEDUCED, assumption 36), those before it are kept for the lines filled under them (DEDUCED, assumption 96), an error
that was corrected is only counted (DESIGN CHOICE, assumption 100), and the statuses that `release` gives where the rule gives none are those of
assumption 118 (DESIGN CHOICE). -/
def Obligations.TrustEvents : Prop :=
  (∀ (q : Cmd) (w p0 p1 p2 p3 : DWord) (s : State), (s.iface q.iface).func = 0 → 0 < w.toNat → w.toNat < 64 → tget? s.worlds w.toNat = none →
    (∀ f ∈ framesOf s w.toNat, f ∉ s.mem.scrubQ) →
    ∃ t W, exec (.worldnew q w p0 p1 p2 p3) s = .next t ∧ completed s t q 0 0 ∧ tget? t.worlds w.toNat = some W ∧ W.pol = p3 ++ p2 ++ p1 ++ p0 ∧
      W.slots = [] ∧ W.sks = [] ∧ W.meter = 0 ∧ W.wm = Config.sha3 (natBytes 32 s.trust.fm.toNat ++ natBytes 32 W.pol.toNat ++ [BitVec.ofNat 8 w.toNat]) ∧
      { t with worlds := s.worlds, ifaces := s.ifaces } = s) ∧
  (∀ (q : Cmd) (w : DWord) (s : State) W, (s.iface q.iface).func = 0 → 0 < w.toNat → w.toNat < 64 → tget? s.worlds w.toNat = some W → W.ending = none →
    (∀ c ∈ s.ctxs, c.2.world ≠ w.toNat) →
    ∃ t, exec (.worldend q w) s = .next t ∧ t.ifaces = s.ifaces ∧ tget? t.worlds w.toNat = some { W with ending := some (q.iface, q.seq) } ∧
      (∀ f ∈ framesOf s w.toNat, f ∈ t.mem.scrubQ) ∧ ∀ f ∈ s.mem.scrubQ, f ∈ t.mem.scrubQ) ∧
  (∀ w (s : State) W n seq, tget? s.worlds w = some W → W.ending = some (n, seq) → W.retire = none → framesOf s w = [] →
    ∃ t, exec (.worldEndComplete w) s = .next t ∧ tget? t.worlds w = none ∧ (∀ k, k ≠ w → tget? t.worlds k = tget? s.worlds k) ∧
      (t.iface n).held = (s.iface n).held ++ [BitVec.ofNat 128 (field 31 0 seq.toNat)] ∧ bytesKept s t ∧ t.groups = s.groups ∧
      (w < 64 → (∀ c ∈ t.energy.now ++ t.energy.prev, c.acct ≠ some (2 ^ 20 + w)) ∧ (∀ r ∈ t.energy.reports, r.c.acct ≠ some (2 ^ 20 + w)) ∧
        ∀ l ∈ t.launches, l.2.pasid ≠ 2 ^ 20 + w)) ∧
  (∀ (q : Cmd) (a : DWord) (s : State) bs, (s.iface q.iface).func = 0 → guestRead s 0 a.toNat 1792 = .ok bs →
    exec (.keyrel q a) s = .next (match release s bs with
      | .inl n => reply s q 0 n
      | .inr (w, k, keys) => reply (s.modWorld w fun W => { W with slots := tset W.slots k keys, cur := k, sk := scrambleKey keys, sks := W.sk :: W.sks }) q 0 0)) ∧
  (∀ (q : Cmd) (w k : DWord) (s : State) W, (s.iface q.iface).func = 0 → w.toNat < 64 → k.toNat < 2 → tget? s.worlds w.toNat = some W →
    W.cur ≠ k.toNat → W.retire = none →
    exec (.keyret q w k) s = .next (s.modWorld w.toNat fun W => { W with retire := some (k.toNat, q.iface, q.seq) })) ∧
  (∀ w (s : State) W k n seq, tget? s.worlds w = some W → W.retire = some (k, n, seq) → slotUsed s w k = false →
    exec (.keyretComplete w) s = .next (post (s.modWorld w fun W => { W with slots := tdel W.slots k, retire := none }) n seq 0 0)) ∧
  (∀ f (s : State), f ∈ s.mem.scrubQ →
    ∃ t, exec (.frameScrub f) s = .next t ∧ f ∉ t.mem.scrubQ ∧ tget? t.mem.owner f = none ∧
      (∀ a, t.byteAt (.hbm a) = if a / 2 ^ 21 = f then 0#8 else s.byteAt (.hbm a)) ∧
      (∀ n ∈ t.mem.hbm.tags, n ∈ s.mem.hbm.tags ∧ 16 * n / 2 ^ 21 ≠ f) ∧
      (∀ l, l / 2 ^ 15 = f → tgetD t.mem.lines l Line.reset = Line.reset) ∧ (∀ d ∈ t.dies, ∀ l ∈ d.2.llc, l / 2 ^ 15 ≠ f) ∧
      t.mem.freed = s.mem.freed ++ [f] ∧ (∀ b B, tget? s.blocks b = some B → tget? t.blocks b = some (
        let hit := s.mem.images.any fun m => m.2.2 % 2 ^ 32 == b && decide (f * 2 ^ 21 < m.1 + m.2.1) && decide (m.1 < f * 2 ^ 21 + 2 ^ 21)
        { B with imgHit := B.imgHit || hit })) ∧
      (∀ b a, t.byteAt (.spm b a) = s.byteAt (.spm b a)) ∧ (∀ d a, t.byteAt (.ws d a) = s.byteAt (.ws d a)) ∧ t.groups = s.groups) ∧
  (∀ (p : LinkPacket) (s : State), ioOfUnit p.unit = none → exec (.linkPacketReceive p) s = .next s) ∧
  (∀ (p : LinkPacket) (s : State), (ioOfUnit p.unit).isSome → p.ok = false → exec (.linkPacketReceive p) s =
    .next (integrity { s with discards := s.discards + 1 } 3 p.unit 0 (if (tget? s.ctxs p.pasid).isSome then some p.pasid else none) 0)) ∧
  (∀ (p : LinkPacket) (s : State), (ioOfUnit p.unit).isSome → p.ok = true → tget? s.ctxs p.pasid = none →
    exec (.linkPacketReceive p) s = .next { s with discards := s.discards + 1 }) ∧
  (∀ (p : LinkPacket) (s : State), p.ok = true → (tget? s.ctxs p.pasid).isSome → exec (.linkPacketReceive p) s = .next s) ∧
  (∀ h p (s : State) c, tget? s.ctxs p = some c →
    ∃ t, exec (.uncorrectableError (.hbm h p)) s = .next t ∧ bytesKept s t ∧ tget? t.ctxs p = some { c with stopped := true } ∧
      (tgetD t.mem.lines (h / 64) Line.reset).poison = true ∧
      (t.ring 65).held = (s.ring 65).held ++ [natBytes 32
        (field 7 0 2 + field 15 8 (h / 2 ^ 36) + field 23 16 0 + field 43 24 p + field 127 64 (h / 64 * 64) + field 191 128 s.reft)]) ∧
  (∀ k p (s : State), tget? s.ctxs p = none →
    ∃ t, exec (.uncorrectableError (.regs k p)) s = .next t ∧ bytesKept s t ∧ t.ctxs = s.ctxs ∧ (t.core k).errs = (s.core k).errs + 1 ∧
      ((t.core k).remap = true ↔ (s.core k).remap = true ∨ 16 ≤ (s.core k).errs + 1)) ∧
  (∀ s : State, exec (.uncorrectableError .corrected) s = .next { s with trust := { s.trust with corrected := s.trust.corrected + 1 } }) ∧
  (∀ l (s : State), exec (.linkCrcError l) s = .next s)

/-! ### Slices and partitions (R124, R137, R277 to R281, R304) -/

namespace Sys2Proof

/-- A die's partition at a slice boundary: descriptors and entries that were written are in force. -/
def atBoundary (s : State) (d : Nat) : State :=
  (newDebug s fun _ c => inPartitions s c d).modDie d fun D => { D with ents := entriesOf (newDebug s fun _ c => inPartitions s c d) d }

end Sys2Proof

/-- R278, R279: when a slice has come to its end, the next live entry's slice runs for its QUS, and each block on the die whose context the slice
does not run is saved; its issue begins when the slice's restore has completed. R281: a gang slice runs at its deadline only if every package is
ready, and what an abandoned one restored stands as it was saved. R280: the blocks of vacated cores are saved.
R277, R304: a partition entry comes into force, and a pooled partition's step is asked for. R124: a core without blocks takes the limits. R137:
the bytes of a weight copy are stored under the mask of the context's world, of which a line that is filled whole takes the present key (DEDUCED,
assumption 96), once no block of the context is on a core of the die (DESIGN CHOICE, assumption 84, of R137's 'no kernel runs'). -/
def Obligations.SliceEvents : Prop :=
  (∀ d (s : State) f0 i0 f i w, d < 24 → (s.die d).slice = some (f0, i0) → (s.die d).sliceEnd ≤ s.reft →
    (cycleOf (atBoundary s d) d).find? (sliceLive (atBoundary s d) d) = some (f, i, w) →
    ∃ t, exec (.sliceEnd d) s = .next t ∧ (t.die d).slice = some (f, i) ∧ (t.die d).sliceStart = s.reft ∧
      (t.die d).sliceEnd = s.reft + 1000 * (w.extractLsb' 0 16).toNat ∧ (t.die d).gangReady = false ∧ (t.die d).gangRuns = false ∧
      (t.die d).restored = false ∧ t.groups = s.groups ∧ bytesKept s t ∧
      ∀ b B c, tget? t.blocks b = some B → dieOf B.home = d → tget? t.ctxs B.pasid = some c → B.phase = .resident → inSlice t c d = true) ∧
  (∀ d (s : State), restoreDone s d = false → noteRestored s d = s) ∧
  (∀ d (s : State), (s.die d).restored = false → restoreDone s d = true → noteRestored s d = s.modDie d fun D => { D with restored := true }) ∧
  (∀ d (s : State) f i dl, gangSlice s d = some (f, i, dl) → s.reft ≤ dl → restoreDone s d = true →
    (∀ x ∈ s.ctxs, x.2.func = f → x.2.gng = true → x.2.desch = false → admits s x.2 d = true → 0 < x.2.level) →
    exec (.gangReady d) s = .next (s.modDie d fun D => { D with gangReady := true })) ∧
  (∀ d (s : State) f i dl, gangSlice s d = some (f, i, dl) → dl ≤ s.reft → (s.die d).gangRuns = false → (s.die d).gangReady = true →
    ∃ t, exec (.gangDeadline d true) s = .next t ∧ (t.die d).gangRuns = true ∧ (t.die d).restored = true ∧
      (t.func f).misses = tdel (s.func f).misses i ∧ t.groups = s.groups ∧ bytesKept s t ∧
      ∀ b B, tget? s.blocks b = some B → B.asSaved = true → B.phase.onCore = true → dieOf B.home = d →
        (tget? t.blocks b).map (·.asSaved) = some false) ∧
  (∀ d r (s : State) f i dl, gangSlice s d = some (f, i, dl) → dl ≤ s.reft → (s.die d).gangRuns = false → ((s.die d).gangReady && r) = false →
    tgetD (s.func f).misses i 0 ≠ 2 →
    ∃ t, exec (.gangDeadline d r) s = .next t ∧ (t.die d).gangRuns = false ∧
      tgetD (t.func f).misses i 0 = tgetD (s.func f).misses i 0 + 1 ∧ t.groups = s.groups ∧
      ∀ b B, tget? s.blocks b = some B → B.asSaved = true → B.phase.onCore = true → dieOf B.home = d →
        (tget? t.blocks b).map (·.phase) = some .saved) ∧
  (∀ (q : Cmd) (d m : DWord) (s : State), (s.iface q.iface).func = 0 → d.toNat < 24 →
    ∃ t, exec (.vacate q d m) s = .next t ∧ bytesKept s t ∧ t.groups = s.groups ∧
      (∀ k < 64, m.getLsbD k = true → (t.core (64 * d.toNat + k)).vacated = true) ∧
      (∀ k, ¬(∃ j < 64, m.getLsbD j = true ∧ k = 64 * d.toNat + j) → t.core k = s.core k) ∧
      ∀ b B, tget? s.blocks b = some B → B.phase = .resident → (∃ k < 64, m.getLsbD k = true ∧ B.home = 64 * d.toNat + k) →
        (tget? t.blocks b).map (·.phase) = some .saving) ∧
  (∀ (q : Cmd) (d m : DWord) (s : State), (s.iface q.iface).func = 0 → d.toNat < 24 →
    exec (.vacateReopen q d m) s = .next (reply ((coresOf d.toNat m).foldl (fun s k => s.modCore k fun C => { C with vacated := false }) s) q 0 0)) ∧
  (∀ (q : Cmd) (d e : DWord) (s : State), (s.iface q.iface).func = 0 → d.toNat < 24 → partOk e = true →
    (∀ b ∈ s.blocks, b.2.phase.onCore = true → dieOf b.2.home ≠ d.toNat) →
    let e' := e &&& 0xFFFFFFFFFFFF#64
    exec (.partwr q d e) s = .next (reply (s.modDie d.toNat fun D => if e.getLsbD 0 then { D with part := e' } else
      { D with part := e' }.request (min (max (min (e.extractLsb' 41 7).toNat (e.extractLsb' 14 7).toNat) (e.extractLsb' 7 7).toNat)
        D.ceiling) 1 s.reft) q 0 0)) ∧
  (∀ (q : Cmd) (f i : DWord) (s : State), (s.iface q.iface).func = 0 → f.toNat < 64 → i.toNat < 16 →
    exec (.qtrd q f i) s = .next (reply s q 0 (tgetD (s.func f.toNat).quantum i.toNat 0#32).toNat)) ∧
  (∀ k (s : State), k < 1536 → (∀ b ∈ s.blocks, b.2.home = k → b.2.phase.onCore = false) →
    exec (.pmlimApply k) s = .next (s.modCore k fun C => { C with pmlim := (s.die (dieOf k)).pmlim })) ∧
  (∀ (q : Cmd) (o x d y n : DWord) (s : State) p c v, actsOn s q p c → d.toNat < 24 → o.toNat < c.otlen →
    y.toNat + n.toNat ≤ ((s.die d.toNat).pmlim.extractLsb' 25 10).toNat * 2 ^ 20 →
    capCheck (wscopyCap s c o.toNat) x.toNat n.toNat (Perm.r + Perm.cpy) = .ok v →
    exec (.wscopy q o x d y n) s = .next { s with
      nextId := s.nextId + 1, wscopies := tset s.wscopies s.nextId ⟨q, p, o.toNat, x.toNat, d.toNat, y.toNat, n.toNat, none⟩ }) ∧
  (∀ k (s : State) w c h mt u, tget? s.wscopies k = some w → tget? s.ctxs w.pasid = some c →
    w.sent = none → (s.die w.die).relocking s.reft = false → homesStill u [(h, w.len, mt)] = false →
    (∀ b ∈ s.blocks, b.2.pasid = w.pasid → b.2.phase.onCore = true → dieOf b.2.home ≠ w.die) →
    translate { s with wscopies := tdel s.wscopies k } w.die w.pasid (wscopyCap s c w.obn) w.off w.len false true = .ok [(h, w.len, mt)] u →
    badLine u h w.len = none →
    let base := (((s.die w.die).pmlim.extractLsb' 16 9).toNat * 2 ^ 20) + w.woff
    ∃ t, exec (.wscopyProceed k) s = .next t ∧ completed s t w.cmd 0 0 ∧ tget? t.wscopies k = none ∧
      (∀ a, t.byteAt (.hbm a) = s.byteAt (.hbm a)) ∧
      (∀ d a, t.byteAt (.ws d a) = if d = w.die ∧ base ≤ a ∧ a < base + w.len then
          physByte s (h + (a - base)) ^^^ maskByte (fillKey s w.die c.world base w.len (a / 64)) a else s.byteAt (.ws d a)) ∧
      ∀ l, base ≤ 64 * l → 64 * l + 64 ≤ base + w.len → tget? (t.die w.die).wsSk l = some (worldKey s c.world))

/-! ### Reports and dispositions (R285 to R289, R343, R345, R346) -/

namespace Sys2Proof

/-- The issuer state that a disposition gives a parked lane of a sub-group (Table 21.4): ACT 0 issues again at its position, or after a
software trap; ACT 1 goes on after it, or, where the record has DEFER, at it; ACT 3 begins the clause at TGT. -/
def resumedAs (p : Park) (w : DWord) (i : Issuer) : Issuer :=
  if w.extractLsb' 0 2 = 3#2 then i.goto (w.extractLsb' 8 44).toNat
  else if w.extractLsb' 0 2 = 1#2 ∧ p.defer = [] ∨ p.code = Code.softTrap then i.skip
  else i.again

/-- The issuer state that a disposition gives an issuer of a suspended unit (Table 21.4): ACT 3 begins the clause at TGT; ACT 1, or ACT 0
after a software trap, goes on after the instruction that it waits at; else one that took the unit's fault at a word of lane scope issues that
word again, and the others stand at the rendezvous of theirs. -/
def unitResumed (p : Park) (w : DWord) (i : Issuer) : Issuer :=
  if w.extractLsb' 0 2 = 3#2 then i.goto (w.extractLsb' 8 44).toNat
  else if w.extractLsb' 0 2 = 1#2 ∨ p.code = Code.softTrap then (match i.wait with | .rdv _ => i.skip | _ => i)
  else if i.wait = .rdv .lane then { i with wait := .go }
  else i

/-- A command disposes of what a handle names: the command is one on a context whose parked lanes or suspended unit the handle names, its
record has been posted, no disposition has been given, and the word is one that is applied. -/
def disposes (s : State) (q : Cmd) (h w : DWord) (k : Park) : Prop :=
  ∃ p c, actsOn s q p c ∧ h.toNat < 2 ^ 32 ∧ tget? s.parks h.toNat = some k ∧ k.pasid = p ∧ k.held.stands = true ∧ k.dispo = none ∧
    toldOf s h.toNat = true ∧ dispoOk k w = true

/-- What was deferred to the record of a parked sub-group: requests of its lanes, each of an operation of the group. -/
def defersHere (s : State) (k : Park) (b g : Nat) (ls : List (Nat × Issuer)) : Prop :=
  k.defer.Nodup ∧ ∀ d ∈ k.defer, d.2 ∈ ls.map (·.1) ∧ ∃ o, tget? s.ops d.1 = some o ∧ o.blk = b ∧ o.gidx = g ∧ (o.req? d.2).isSome

/-- Whether a cell of a lane waits for a request that a record has deferred. -/
def deferred (s : State) (k : Park) (l : Nat) (x : VCell) : Bool :=
  k.defer.any fun d => d.2 == l && ((tget? s.ops d.1).map fun o => o.syms.any fun σ => x.refers σ) == some true

/-- A group without what DISPOSE may change in it: who is parked, the diverged lanes, the turn, and with deferred requests the counters
and the cells. -/
def Machine.Group.noParked (G : Group) : Group := { G with parked := 0, div := [], turn := 0, ctr := [], v := [] }

/-- Lanes `m` of a group have ended, and their cells hold nothing; of a group that is over, the uniform state and the channels are gone, and
a block all of whose groups are over drains. Who issues in the group is said beside it. -/
def lanesEnd (s t : State) (b g : Nat) (G H : Group) (m : Lanes) : Prop :=
  let bare (K : Group) : Group := { K.noIss with v := [], vt := [], vl := [], exited := 0, parked := 0 }
  H.exited = G.exited ||| m ∧ H.parked = G.parked &&& ~~~m ∧
  (∀ q l, l ∈ lanesOf m → H.cell q l = none ∧ H.vtag (q / 4) l = false) ∧
  (∀ q l, l ∉ lanesOf m → H.cell q l = G.cell q l ∧ H.vtag (q / 4) l = G.vtag (q / 4) l) ∧
  bare H = (if H.exited = ~~~0#64 then
    { bare G with s := [], st := [], p := [], q := 0#8, shadow := [], chans := [], msamp := none } else bare G) ∧
  (tget? t.blocks b).map (·.phase) = (tget? s.blocks b).map fun B => if blockEnded t b = true then .draining else B.phase

/-- No request of some lanes of a group has met a fault, but for those that a record has deferred. -/
def noFaults (s : State) (k : Park) (b g : Nat) (m : Lanes) : Prop :=
  ∀ x ∈ s.ops, x.2.blk = b → x.2.gidx = g → ∀ r ∈ x.2.lanes, r.lane ∈ lanesOf m → (x.1, r.lane) ∉ k.defer → ∀ code, r.ph ≠ .faulted code

end Sys2Proof

/-- R286, R346: the oldest record of a ring with room is posted at its tail, which advances; the error log's go first (DESIGN CHOICE,
assumption 64). R287: RETRY lets what waits under a handle issue again. R285, R288, R289: DISPOSE resumes or ends exactly the parked lanes of a
sub-group, or the issuers of a suspended unit, as Table 21.4; what a record with DEFER names is issued again with its counter (ACT 0) or
answers zero; a disposition of a block that is off its core waits for the restore, and one whose loads find no symbol entries for those (R193).
HANDLER installs the context's handler. A handle whose record has not been posted, or whose disposition waits for a restore, is named by no
command yet (R285, R286; DESIGN CHOICE, assumption 86). ACT 2 on a unit leaves the lanes that stand parked on their own (DESIGN CHOICE,
assumption 90). -/
def Obligations.FaultEvents : Prop :=
  (∀ (s : State) k n r rest, ringReady s 65 = false → nextRing s = some (k, n) → (s.ring k).held = r :: rest → ringReady s k = true →
    (∀ p, tget? s.parks (recSub r) = some p → p.code ≠ Code.spanMigrating) →
    ∃ t, exec .faultRecordPost s = .next t ∧ (t.ring k).rt = (s.ring k).rt + 1#32 ∧ (t.ring k).held = rest ∧ t.groups = s.groups ∧ t.rr = (k, n) ∧
      ((s.ring k).rien = false → t.msgs = s.msgs ∧ t.dropped = s.dropped) ∧
      (k ≤ 1 → r.length = 64 → ∀ i < 64, t.byteAt (.hbm (ringSlot s k + i)) = r.getD i 0#8)) ∧
  (∀ (s : State) r rest, ringReady s 65 = true → (s.ring 65).held = r :: rest →
    ∃ t, exec .faultRecordPost s = .next t ∧ (t.ring 65).rt = (s.ring 65).rt + 1#32 ∧ (t.ring 65).held = rest ∧ t.rr = s.rr) ∧
  (∀ (q : Cmd) (h : DWord) (s : State) p c k o l, actsOn s q p c → h.toNat < 2 ^ 32 → tget? s.parks h.toNat = some k → k.pasid = p →
    retryable k.code = true → k.held = .request o l → toldOf s h.toNat = true →
    exec (.retry q h) s = .next (reply { s with parks := tdel s.parks h.toNat, ops := s.ops.map fun x => (x.1, { x.2 with
      lanes := x.2.lanes.map fun r => if r.ph = .retry h.toNat then { r with ph := .sent } else r }) } q 0 0)) ∧
  (∀ (q : Cmd) (h w : DWord) (s : State) k b g ls B G, disposes s q h w k →
    k.held = .lanes b g ls → (ls.map (·.1)).Nodup → w.extractLsb' 0 2 ≠ 2#2 → defersHere s k b g ls →
    tget? s.blocks b = some B → B.phase.onCore = true → s.grp? b g = some G → G.stream.runnable = true →
    (k.defer = [] ∨ dispoRoom (s.modPark h.toNat fun p => { p with dispo := some w }) b h.toNat w = true) →
    ∃ t H, exec (.dispose q h w) s = .next t ∧ completed s t q 0 0 ∧ bytesKept s t ∧ tget? t.parks h.toNat = none ∧ t.grp? b g = some H ∧
      H.noParked = G.noParked ∧ H.turn = (G.holder.map (· + 1)).getD G.turn ∧ (∀ l i, (l, i) ∈ ls → tget? H.div l = some (resumedAs k w i)) ∧
      (∀ l, l ∉ ls.map (·.1) → tget? H.div l = tget? G.div l) ∧
      (∀ l < 64, H.parked.getLsbD l = (G.parked.getLsbD l && decide (l ∉ ls.map (·.1)))) ∧
      (∀ r l, H.cell r l = (G.cell r l).map fun x => if w.extractLsb' 0 2 ≠ 0#2 ∧ deferred s k l x = true then .val (x.resolve 0#32) else x) ∧
      (∀ l x, (H.ctrs l).get x = (G.ctrs l).get x + if w.extractLsb' 0 2 = 0#2 then
        (k.defer.filter fun d => d.2 == l && ((tget? s.ops d.1).map (·.kind.ctr)) == some x).length else 0) ∧
      (∀ d ∈ k.defer, (tget? t.ops d.1).bind (·.req? d.2) = if w.extractLsb' 0 2 = 0#2 then
        (tget? s.ops d.1).bind fun o => (o.req? d.2).map (LReq.reissue o.kind) else none) ∧
      ∀ j, j ≠ gkey b g → tget? t.groups j = tget? s.groups j) ∧
  (∀ (q : Cmd) (h w : DWord) (s : State) k b g ls B G, disposes s q h w k → k.held = .lanes b g ls → w.extractLsb' 0 2 = 2#2 → defersHere s k b g ls → (s.ops.map (·.1)).Nodup →
    tget? s.blocks b = some B → B.phase.onCore = true → s.grp? b g = some G → noFaults s k b g (maskOf (ls.map (·.1))) → noneAtChannel s →
    ∃ t H, exec (.dispose q h w) s = .next t ∧ completed s t q 0 0 ∧ bytesKept s t ∧ tget? t.parks h.toNat = none ∧ t.grp? b g = some H ∧
      lanesEnd s t b g G H (maskOf (ls.map (·.1))) ∧ H.stream = G.stream ∧ H.div = G.div ∧
      (∀ d ∈ k.defer, (tget? t.ops d.1).bind (·.req? d.2) = none) ∧ ∀ j, j ≠ gkey b g → tget? t.groups j = tget? s.groups j) ∧
  (∀ (q : Cmd) (h w : DWord) (s : State) k b gs e B, disposes s q h w k → k.held = .unit b gs e → gs.Nodup → (∀ g ∈ gs, g < 32) → k.defer = [] →
    tget? s.blocks b = some B → B.phase.onCore = true → w.extractLsb' 0 2 ≠ 2#2 →
    ∃ t, exec (.dispose q h w) s = .next t ∧ completed s t q 0 0 ∧ bytesKept s t ∧ tget? t.parks h.toNat = none ∧
      (∀ g ∈ gs, t.grp? b g = (s.grp? b g).map fun G => { G with susp := G.susp.filter (· != h.toNat) }.mapIssuers (unitResumed k w)) ∧
      ∀ j, (∀ g ∈ gs, j ≠ gkey b g) → tget? t.groups j = tget? s.groups j) ∧
  (∀ (q : Cmd) (h w : DWord) (s : State) k b gs e B, disposes s q h w k → k.held = .unit b gs e → gs.Nodup → (∀ g ∈ gs, g < 32) → k.defer = [] →
    tget? s.blocks b = some B → B.phase.onCore = true → w.extractLsb' 0 2 = 2#2 →
    (∀ g ∈ gs, ∀ G, s.grp? b g = some G → noFaults s k b g (~~~(G.exited ||| G.parked))) → noneAtChannel s →
    ∃ t, exec (.dispose q h w) s = .next t ∧ completed s t q 0 0 ∧ bytesKept s t ∧ tget? t.parks h.toNat = none ∧
      (∀ g ∈ gs, ∀ G, s.grp? b g = some G → ∃ H, t.grp? b g = some H ∧
        lanesEnd s t b g { G with susp := G.susp.filter (· != h.toNat) } H (~~~(G.exited ||| G.parked)) ∧ H.stream.lanes = 0#64 ∧ H.div = []) ∧
      ∀ j, (∀ g ∈ gs, j ≠ gkey b g) → tget? t.groups j = tget? s.groups j) ∧
  (∀ (q : Cmd) (h w : DWord) (s : State) k B, disposes s q h w k → tget? s.blocks (k.held.blk s) = some B →
    let u := s.modPark h.toNat fun p => { p with dispo := some w }
    (B.phase.onCore = false ∨ k.defer ≠ [] ∧ dispoRoom u (k.held.blk s) h.toNat w = false) → exec (.dispose q h w) s = .next (reply u q 0 0)) ∧
  (∀ (q : Cmd) (h w : DWord) (s : State) p c, actsOn s q p c → h.toNat < 2 ^ 32 →
    ((tget? s.parks h.toNat = none → exec (.dispose q h w) s = .next (reply s q 8 0)) ∧
      ∀ k, tget? s.parks h.toNat = some k →
        (k.pasid = p → k.held.stands = true → k.dispo = none → toldOf s h.toNat = true → dispoOk k w = false →
          exec (.dispose q h w) s = .next (reply s q 1 0)) ∧
        (k.pasid ≠ p ∨ k.held.stands = false ∨ k.dispo.isSome = true ∨ toldOf s h.toNat = false →
          exec (.dispose q h w) s = .next (reply s q 8 0)))) ∧
  (∀ (q : Cmd) (o e lo hi : DWord) (s : State) p c, actsOn s q p c → o.toNat < 2 ^ 28 → e.toNat < 2 ^ 44 →
    exec (.handler q o e lo hi) s = .next (reply (s.modCtx p fun c => { c with handler := some ⟨o.toNat, e.toNat, hi ++ lo⟩ }) q 0 0))

/-! ### Energy, steps and the lease (R171, R172, R272, R299, R303 to R314) -/

namespace Sys2Proof

/-- A trace entry (Table 23.5). -/
def traceEntry (die step cause time : Nat) : BitVec 128 := BitVec.ofNat 128 (field 63 0 time + field 68 64 die + field 78 72 step + field 83 80 cause)

/-- A die with a new step in force: both traces have the entry at index (NCHG + 1) mod 256. -/
def stepped (D : Die) (d n cause time : Nat) : Die :=
  { D with pstep := D.step, step := n, tchg := BitVec.ofNat 32 time, chgs := D.chgs + 1
           trace0 := tset D.trace0 ((D.chgs + 1) % 256) (traceEntry d n cause time)
           trace1 := tset D.trace1 ((D.chgs + 1) % 256) (traceEntry d n cause time) }

/-- The die after a decided change has begun (R305): a supply ramp to raise, the relock to lower, nothing where the step is in force. -/
def chgBegun (D : Die) (n cause now : Nat) : Option Chg :=
  if n = D.step then none else if D.step < n then some (.ramp n cause now) else some (.relock n cause now true)

end Sys2Proof

/-- R305, R306, R309, R313: a change of step begins, ramps, relocks for 1,500 ns and lowers; a margin relaxes after 1,000 quiet ticks, by one
level (DEDUCED, assumption 55); a power ceiling ends, which by itself asks for no step (DEDUCED, assumption 55); a die returns to service. -/
def Obligations.StepEvents : Prop :=
  (∀ d (s : State) n cause now, (s.die d).want = some (n, cause, now) → (s.die d).chg = none →
    exec (.stepChangeBegin d) s = .next (s.modDie d fun D => { D with want := none, chg := chgBegun D n cause s.reft })) ∧
  (∀ d (s : State) n cause now, (s.die d).chg = some (.ramp n cause now) →
    exec (.supplyRampEnd d) s = .next (s.modDie d fun D => { D with chg := some (.relock n cause s.reft false) })) ∧
  (∀ d (s : State) n cause now low, (s.die d).chg = some (.relock n cause now low) → now + 1500 ≤ s.reft →
    exec (.relockEnd d) s = .next (s.modDie d fun D => { stepped D d n cause (now + 1500) with chg := if low then some (.lower (now + 1500)) else none })) ∧
  (∀ d (s : State) n cause now low, (s.die d).chg = some (.relock n cause now low) → s.reft < now + 1500 → exec (.relockEnd d) s = .next s) ∧
  (∀ d (s : State) now, (s.die d).chg = some (.lower now) → exec (.supplyLowerEnd d) s = .next (s.modDie d fun D => { D with chg := none })) ∧
  (∀ d (s : State), (s.die d).margin ≠ 0 → 1000 ≤ (s.die d).quiet →
    exec (.marginRelax d) s = .next (s.modDie d fun D => { D with margin := D.margin - 1, quiet := 0 })) ∧
  (∀ d (s : State), (s.die d).pceil < 64 → (s.die d).pceilEnd ≤ s.reft →
    exec (.powerCeilingExpiry d) s = .next (s.modDie d fun D => { D with pceil := 64 })) ∧
  (∀ d n (s : State), d < 24 → n ≤ 64 → (s.die d).inService = false → exec (.returnToService d n) s = .next (s.modDie d fun D =>
    { stepped D d n 6 s.reft with inService := true, derate := 64, drops := 0, derated := 0, chg := none, want := none }))

/-- R272, R299, R303, R312, R314, R171, R172: a tick makes the running charges those of the tick to be corrected, and refills each bucket by its
rate, scaled while the package exceeds its lease, up to its cap, with what CTXWR asked for in force; a report reaches its account; a lease is
granted and expires, and every die's ceiling follows; a failing die is retired; samples and signed readings are written. The model's choices
here: a sample follows the correction of its last tick (DEDUCED, assumption 26), a reading covers the changes of [T0, T1) (DEDUCED, assumption
35), the leak of a die that no resident context owns is overhead (DEDUCED, assumption
59), and the work of a sample is charged as overhead, which is why the charges of no account may grow in the tick (DESIGN CHOICE, assumption
82). -/
def Obligations.PowerEvents : Prop :=
  (∀ xs (s : State), 10000 * (s.energy.tick + 1) ≤ s.reft →
    ∃ t, exec (.tick xs) s = .next t ∧ t.energy.tick = s.energy.tick + 1 ∧ t.energy.now = [] ∧ t.reft = s.reft ∧
      t.energy.prev.filter (·.acct.isSome) = s.energy.now.filter (·.acct.isSome) ∧ ((∀ g ∈ s.groups, g.2.msamp = none) → t.energy.prev = s.energy.now) ∧
      t.energy.power = (((List.range 41).map fun d => xs.getD d 0).sum :: s.energy.power).take 10 ∧
      t.energy.prevM = (List.range 41).map (fun d => xs.getD d 0) ∧ (∀ a, t.byteAt (.hbm a) = s.byteAt (.hbm a)) ∧
      ∀ p c, tget? t.ctxs p = some c → c.level ≤ c.capb ∧ c.newIw = none) ∧
  (∀ xs (s : State) p c, 10000 * (s.energy.tick + 1) ≤ s.reft → tget? s.ctxs p = some c → (∀ x ∈ s.energy.prev, x.acct ≠ some p) →
    (∀ r ∈ s.energy.reports, r.tick < s.energy.tick → r.c.acct ≠ some p) →
    (∀ d < 24, partDed (s.die d).part = true → partResp (s.die d).part ≠ p) →
    let new := c.newIw.getD (c.iw, c.wt, c.rate, c.capb)
    ∃ t, exec (.tick xs) s = .next t ∧
      let e := t.energy.power.sum
      let lease : Int := leaseWatts s * 160000000 * t.energy.power.length
      let rate := if lease < e then new.2.2.1 * (65536 * lease / e).toNat / 65536 else new.2.2.1
      tget? t.ctxs p = some { c with
        newIw := none, iw := new.1, wt := new.2.1, rate := new.2.2.1, capb := new.2.2.2, level := min (c.level + rate) new.2.2.2 }) ∧
  (∀ xs (s : State), s.reft < 10000 * (s.energy.tick + 1) → exec (.tick xs) s = .next s) ∧
  (∀ (s : State) r rest p c, s.energy.reports = r :: rest → r.tick = s.energy.tick → r.c.acct = some p → p < 2 ^ 20 → tget? s.ctxs p = some c →
    ∃ t c', exec .chargeReport s = .next t ∧ t.energy.reports = rest ∧ tget? t.ctxs p = some c' ∧ c' = { c with level := c.level - r.c.amt, meter := c.meter + r.c.amt } ∧
      bytesKept s t ∧ t.groups = s.groups) ∧
  (∀ w ms (s : State), 1 ≤ ms → ms ≤ 1000 →
    ∃ t, exec (.leaseGrant w ms) s = .next t ∧ t.energy.lease = some (w, s.reft + 1000000 * ms) ∧
      ∀ d < 24, (t.die d).lceil = leaseCeiling { s with energy := { s.energy with lease := some (w, s.reft + 1000000 * ms) } } d) ∧
  (∀ (s : State) w e, s.energy.lease = some (w, e) → e ≤ s.reft →
    ∃ t, exec .leaseExpiry s = .next t ∧ t.energy.lease = none ∧
      ∀ d < 24, (t.die d).lceil = leaseCeiling { s with energy := { s.energy with lease := none } } d) ∧
  (∀ d (s : State), (s.die d).inService = true → 10000 ≤ (s.die d).derated →
    ∃ t, exec (.dieRetire d) s = .next t ∧ (t.die d).inService = false ∧ bytesKept s t ∧ t.groups = s.groups ∧
      (t.ring 65).held = (s.ring 65).held ++ [natBytes 32 (field 7 0 6 + field 15 8 d + field 23 16 0 + field 43 24 0 + field 127 64 0 +
        field 191 128 s.reft)] ∧
      (t.die d).llc = [] ∧ ∀ b B, tget? t.blocks b = some B → dieOf B.home = d → B.phase ≠ .resident) ∧
  (∀ g (s : State) G m ch, s.grp? g.blk g.gidx = some G → G.msamp = some m → m.due = none → m.left = 0 →
    tget? G.chans m.chan.toNat = some ch → ch.kind = 6 → (ringCtl s g.blk ch.off).count + 4 ≤ (ringCtl s g.blk ch.off).capy →
    let el3 := field 6 0 (stepAt (s.die (dieOf (homeOf s g.blk))) (10000 * (s.energy.tick - 1))) + field 7 7 (if m.bounded then 1 else 0) + field 15 8 m.drops
    ∃ t, exec (.meterSample g) s = .next t ∧ (t.grp? g.blk g.gidx).map (·.msamp) = some (some { m with left := m.period, start := 0, bounded := false, drops := 0 }) ∧
      ∀ p, t.byteAt p = (ringPost s g.blk ch.off [BitVec.ofNat 32 (10000 * (s.energy.tick - 1)), BitVec.ofNat 32 (intBits 64 m.start),
        BitVec.ofNat 32 (intBits 64 m.start / 2 ^ 32), BitVec.ofNat 32 el3]).byteAt p) ∧
  (∀ g (s : State) G m chan x bad ch, s.grp? g.blk g.gidx = some G → G.msamp = some m → m.due = some ⟨chan, false, x, bad⟩ →
    tget? G.chans chan.toNat = some ch → ch.kind = 6 → (ringCtl s g.blk ch.off).count + 4 ≤ (ringCtl s g.blk ch.off).capy →
    let el3 := field 6 0 (stepAt (s.die (dieOf (homeOf s g.blk))) (10000 * (s.energy.tick - 1))) + field 7 7 (if bad then 1 else 0) + field 15 8 m.drops
    ∃ t, exec (.meterSample g) s = .next t ∧ (t.grp? g.blk g.gidx).map (·.msamp) = some (some { m with due := none, drops := 0 }) ∧
      ∀ p, t.byteAt p = (ringPost s g.blk ch.off [BitVec.ofNat 32 (10000 * (s.energy.tick - 1)), BitVec.ofNat 32 (intBits 64 x),
        BitVec.ofNat 32 (intBits 64 x / 2 ^ 32), BitVec.ofNat 32 el3]).byteAt p) ∧
  (∀ g (s : State) G m ch, s.grp? g.blk g.gidx = some G → G.msamp = some m → m.due = none → m.left = 0 →
    tget? G.chans m.chan.toNat = some ch → ch.kind = 6 → (ringCtl s g.blk ch.off).capy < (ringCtl s g.blk ch.off).count + 4 →
    ∃ t, exec (.meterSample g) s = .next t ∧ (t.grp? g.blk g.gidx).map (·.msamp) =
      some (some { m with left := m.period, start := 0, bounded := false, drops := min 255 (m.drops + 1) })) ∧
  (∀ w (s : State) W r rest h mt u, tget? s.worlds w = some W → W.readings = r :: rest → r.tick + 2 ≤ s.energy.tick → r.sent = none →
    translate s 0 r.pasid r.cap r.cap.cur 4096 true true = .ok [(h, 4096, mt)] u →
    homesStill u [(h, 4096, mt)] = false →
    ∃ t W', exec (.meterReadingWrite w) s = .next t ∧ tget? t.worlds w = some W' ∧ W'.readings = rest ∧ W'.rseq = W.rseq + 1 ∧ W'.t0 = r.t1 ∧
      W'.lastMeter = r.meter ∧ W'.snap = r.snap ∧
      ∀ a, t.byteAt (.hbm a) = hbmWith s h (readingBytes u w W r ++ natBytes 8 r.req) a)

/-! ### Debug requests (R331, R336, R337) -/

/-- R331, R336, R337: a descriptor is taken at once where no block of the context is resident; stop-now and a position that has been reached stop the
context; a target ahead is held; a view begins from the checkpoint of a stopped replayable block; resume goes on from the stop. That the commands
act on the context bound to their interface, and that a position already passed is refused with code 8, are the model's readings (DEDUCED,
assumption 62). -/
def Obligations.DebugEvents : Prop :=
  (∀ (q : Cmd) (a : DWord) (s : State) p c bs, (s.iface q.iface).func = 0 → actsOn s q p c → guestRead s 0 a.toNat 96 = .ok bs → dbgOk (leNat bs) = true →
    (∀ b ∈ s.blocks, b.2.pasid = p → b.2.phase.onCore = false) →
    exec (.dbgwr q a) s = .next (reply (s.modCtx p fun c => { c with dbg := BitVec.ofNat 768 (leNat bs), newDbg := none }) q 0 0)) ∧
  (∀ (q : Cmd) (a : DWord) (s : State) p c bs, (s.iface q.iface).func = 0 → actsOn s q p c → guestRead s 0 a.toNat 96 = .ok bs → dbgOk (leNat bs) = true →
    (∃ b ∈ s.blocks, b.2.pasid = p ∧ b.2.phase.onCore = true) →
    exec (.dbgwr q a) s = .next (reply (s.modCtx p fun c => { c with newDbg := some (BitVec.ofNat 768 (leNat bs)) }) q 0 0)) ∧
  (∀ (q : Cmd) (s : State) p c, (s.iface q.iface).func = 0 → actsOn s q p c →
    ∃ t, exec (.stopNow q) s = .next t ∧ completed s t q 0 0 ∧ t.groups = s.groups ∧ (tget? t.ctxs p).map (·.dbgStop) = some true) ∧
  (∀ (q : Cmd) (b i n : DWord) (s : State) p c k B, (s.iface q.iface).func = 0 → actsOn s q p c → b.toNat < 2 ^ 32 → i.toNat < 2 ^ 32 → n.toNat < 2 ^ 32 →
    blockNamed s p b.toNat = some (k, B) → c.dbgStop = false →
    ((i.toNat = B.iv ∧ n.toNat = B.rc →
      ∃ t, exec (.stopAt q b i n) s = .next t ∧ completed s t q 0 0 ∧ t.groups = s.groups ∧ (tget? t.ctxs p).map (·.dbgStop) = some true) ∧
    (i.toNat < B.iv → exec (.stopAt q b i n) s = .next (reply s q 0 2)) ∧
    (i.toNat = B.iv ∧ n.toNat < B.rc → exec (.stopAt q b i n) s = .next (reply s q 8 0)) ∧
    (c.armed = none → (B.iv < i.toNat ∨ (i.toNat = B.iv ∧ B.rc < n.toNat)) →
      exec (.stopAt q b i n) s = .next (s.modCtx p fun c => { c with armed := some (q, b.toNat, i.toNat, n.toNat) })))) ∧
  (∀ (q : Cmd) (b i n a : DWord) (s : State) p c k B I, (s.iface q.iface).func = 0 → actsOn s q p c → b.toNat < 2 ^ 32 → i.toNat < 2 ^ 32 →
    n.toNat < 2 ^ 32 → c.dbgStop = true → s.viewJob = none → blockNamed s p b.toNat = some (k, B) → (s.gridOf B).rpl = true → i.toNat = B.iv →
    n.toNat ≤ B.rc → tget? s.ckpts k = some I →
    ∃ j, exec (.view q b i n a) s = .next { s with viewJob := some j } ∧ j.cmd = q ∧ j.b = k ∧ j.n = n.toNat ∧ j.addr = a.toNat ∧ j.img.blk = I.blk ∧
      j.img.groups = I.groups ∧ j.log = B.log) ∧
  (∀ (q : Cmd) (s : State) p c, (s.iface q.iface).func = 0 → actsOn s q p c → c.dbgStop = true →
    exec (.resume q) s = .next (reply (s.modCtx p fun c => { c with dbgStop := false }) q 0 0)) ∧
  (∀ (q : Cmd) (s : State) p c, (s.iface q.iface).func = 0 → actsOn s q p c → c.dbgStop = false → exec (.resume q) s = .next (reply s q 8 0))

/-! ### The host (R265, R286, R341 to R346, R349) -/

namespace Sys2Proof

/-- The registers of an interface page, by offset (Table 29.1). -/
def ifaceWord (I : Iface) : Nat → Option Nat
  | 0x00 => some I.sqb.toNat
  | 0x08 => some I.sqn.toNat
  | 0x10 => some I.sqh.toNat
  | 0x18 => some I.cqb.toNat
  | 0x20 => some I.cqn.toNat
  | 0x28 => some I.cqt.toNat
  | 0x30 => some I.cqh.toNat
  | 0x38 => some (I.ivec.toNat + if I.ien then 65536 else 0)
  | 0x40 => some (I.pasid.getD 0)
  | _ => none

end Sys2Proof

namespace Sys2Proof

/-- The instruction that a command entry of a submission ring is, by its code and its operand words (Table 29.2). -/
def tableCmd (q : Cmd) (code : Nat) (w : Nat → DWord) (i : Instr) : Prop :=
  match code with
  | 0x80 => i = .ctxnew q (w 0) (w 1)
  | 0x81 => i = .ctxwr q (w 0) (w 1) (w 2) (w 3)
  | 0x82 => i = .ctxend q (w 0)
  | 0x83 => i = .revoke q (w 0)
  | 0x84 => w 0 = 0#64 ∧ w 2 = 0#64 ∧ i = .invalObject q (w 1) ∨ w 0 = 1#64 ∧ i = .invalSpan q (w 1) (w 2) ∨
      w 0 = 2#64 ∧ w 2 = 0#64 ∧ i = .invalStage2 q (w 1)
  | 0x85 => i = .retry q (w 0)
  | 0x86 => i = .dispose q (w 0) (w 1)
  | 0x87 => i = .handler q (w 0) (w 1) (w 2) (w 3)
  | 0x88 => i = .wscopy q (w 0) (w 1) (w 2) (w 3) (w 4)
  | 0x89 => i = .partwr q (w 0) (w 1)
  | 0x8A => w 2 = 0#64 ∧ i = .vacate q (w 0) (w 1) ∨ w 2 = 1#64 ∧ i = .vacateReopen q (w 0) (w 1)
  | 0x8B => i = .keyrel q (w 0)
  | 0x8C => i = .keyret q (w 0) (w 1)
  | 0x8D => i = .dbgwr q (w 0)
  | 0x8E => w 0 = 0#64 ∧ w 4 = 0#64 ∧ i = .stopNow q ∨ w 0 = 1#64 ∧ w 4 = 0#64 ∧ i = .stopAt q (w 1) (w 2) (w 3) ∨
      w 0 = 2#64 ∧ i = .view q (w 1) (w 2) (w 3) (w 4) ∨ w 0 = 3#64 ∧ w 4 = 0#64 ∧ i = .resume q
  | 0x8F => i = .fncfg q (w 0) (w 1) (w 2) (w 3) (w 4)
  | 0x90 => i = .worldnew q (w 0) (w 1) (w 2) (w 3) (w 4)
  | 0x91 => i = .worldend q (w 0)
  | 0x92 => i = .qtrd q (w 0) (w 1)
  | _ => False

/-- A doorbell finds an entry to take at the head of its ring: the links are trained, the tail is past the head, the completion ring has room,
and the entry's bytes are read. -/
def finds (s : State) (n : Nat) (v : Word) (bs : List Byte) : Prop :=
  n < 256 ∧ s.trust.links = true ∧ v ≠ (s.iface n).sqh ∧ v - (s.iface n).sqh ≤ (s.iface n).sqn.zeroExtend 32 ∧ (s.iface n).full = false ∧
  1 ≤ (s.iface n).sqn.toNat ∧ bs.length = 64 ∧
  guestRead s (s.iface n).func ((s.iface n).sqb.toNat + 64 * ((s.iface n).sqh.toNat % (s.iface n).sqn.toNat)) 64 = .ok bs

end Sys2Proof

/-- R343: a doorbell that brings one launch record has it taken. One that brings a command of Table 29.2 has it performed as the instruction
that it is; a malformed entry completes with code 1; the entries behind it are taken after it, in ring order. A command waits for one of its
interface that has yet to take effect (DEDUCED, assumption 111). A completion record is written at the completion tail, which advances, and a
consumer's count frees its room. R271: a launch is pending until its record is written; then those that wait on it have their grids, or are
cancelled. Until the links are trained no access of the host has an effect (the last clause: DESIGN CHOICE, assumption 67). -/
def Obligations.RingEvents : Prop :=
  (∀ n (v : Word) (s : State), n < 256 → s.trust.links = true → v = (s.iface n).sqh →
    exec (.sqt n v) s = .next (s.modIface n fun I => { I with sqt := v })) ∧
  (∀ n (v : Word) (s : State) bs, n < 256 → s.trust.links = true → v = (s.iface n).sqh + 1#32 → 1 ≤ (s.iface n).sqn.toNat → (s.iface n).full = false →
    guestRead s (s.iface n).func ((s.iface n).sqb.toNat + 64 * ((s.iface n).sqh.toNat % (s.iface n).sqn.toNat)) 64 = .ok bs → bs.getD 0 0#8 = 1#8 →
    exec (.sqt n v) s = .next (launchRecord n (BitVec.ofNat 512 (leNat bs)) (s.modIface n fun I => { I with sqt := v, sqh := v }))) ∧
  (∀ n (v : Word) (s : State) bs, finds s n v bs → 0x80 ≤ (bs.getD 0 0#8).toNat → cmdHeld s n = true →
    exec (.sqt n v) s = .next (s.modIface n fun I => { I with sqt := v })) ∧
  (∀ n (v : Word) (s t : State) bs i, finds s n v bs → 0x80 ≤ (bs.getD 0 0#8).toNat → cmdHeld s n = false →
    let e := leNat bs
    let w (k : Nat) : DWord := BitVec.ofNat 64 (e / 2 ^ (128 + 64 * k))
    let u := s.modIface n fun I => { I with sqt := v, sqh := I.sqh + 1#32 }
    bits e 63 8 = 0 → bits e 127 96 = 0 → e / 2 ^ (128 + 64 * cmdWords (e % 256)) = 0 →
    tableCmd ⟨n, BitVec.ofNat 32 (bits e 95 64)⟩ (e % 256) w i → exec i u = .next t →
    exec (.sqt n v) s = .next (takeAll ((s.iface n).sqn.toNat - 1) t n)) ∧
  (∀ n (v : Word) (s : State) bs, finds s n v bs → cmdHeld s n = false →
    let e := leNat bs
    let u := s.modIface n fun I => { I with sqt := v, sqh := I.sqh + 1#32 }
    e % 256 ≠ 1 ∧ (e % 256 < 0x80 ∨ 0x92 < e % 256) ∨
      0x80 ≤ e % 256 ∧ e % 256 ≤ 0x92 ∧ (bits e 63 8 ≠ 0 ∨ bits e 127 96 ≠ 0 ∨ e / 2 ^ (128 + 64 * cmdWords (e % 256)) ≠ 0) →
    exec (.sqt n v) s = .next (takeAll ((s.iface n).sqn.toNat - 1) (post u n (BitVec.ofNat 32 (bits e 95 64)) 1 0) n)) ∧
  (∀ n (s : State) r rest ps, (s.iface n).held = r :: rest → (s.iface n).full = false → (s.iface n).func = 0 →
    guestParts s 0 true 2 ((s.iface n).cqb.toNat + 16 * ((s.iface n).cqt.toNat % max (s.iface n).cqn.toNat 1)) 16 = .ok ps →
    (∀ l ∈ s.launches, l.2.iface = n → l.2.posted.map (·.2) ≠ some (s.iface n).cqt.toNat) →
    ∃ t, exec (.completionPost n) s = .next t ∧ (t.iface n).held = rest ∧ (t.iface n).cqt = (s.iface n).cqt + 1#32 ∧ t.groups = s.groups ∧
      ∀ a, t.byteAt (.hbm a) = hbmWith s ((s.iface n).cqb.toNat + 16 * ((s.iface n).cqt.toNat % max (s.iface n).cqn.toNat 1)) (natBytes 16 r.toNat) a) ∧
  (∀ n (s : State) r rest ps id l code, (s.iface n).held = r :: rest → (s.iface n).full = false →
    guestParts s (s.iface n).func true 2 ((s.iface n).cqb.toNat + 16 * ((s.iface n).cqt.toNat % max (s.iface n).cqn.toNat 1)) 16 = .ok ps →
    (s.launches.map (·.1)).Nodup → s.launches.find? (fun x => x.2.iface == n && (x.2.posted.map (·.2)) == some (s.iface n).cqt.toNat) = some (id, l) →
    l.posted = some (code, (s.iface n).cqt.toNat) →
    ∃ t, exec (.completionPost n) s = .next t ∧ (t.iface n).cqt = (s.iface n).cqt + 1#32 ∧ tget? t.launches id = none ∧
      ∀ k d, tget? s.launches k = some d → d.dep = some id → k ≠ id →
        (code = 0 → (tget? s.ctxs d.pasid).isSome → ∃ g, tget? t.launches k = some { d with dep := none, grid := some g }) ∧
        (code ≠ 0 → d.posted = none → ∃ x, tget? t.launches k = some { d with dep := none, posted := some (5, x) })) ∧
  (∀ n (v : Word) (s : State), n < 256 → s.trust.links = true → (s.iface n).cqt - v ≤ (s.iface n).cqn.zeroExtend 32 → (s.iface n).sqh = (s.iface n).sqt →
    exec (.cqh n v) s = .next (s.modIface n fun I => { I with cqh := v })) ∧
  (∀ k (v : Word) (s : State), k < 66 → s.trust.links = true → (s.ring k).rt - v ≤ (s.ring k).rn.zeroExtend 32 →
    exec (.rh k v) s = .next (s.modRing k fun R => { R with rh := v })) ∧
  (∀ i (s : State), s.trust.links = false → ((∃ n v, i = .sqt n v) ∨ (∃ n v, i = .cqh n v) ∨ (∃ n v, i = .rh n v) ∨ (∃ n, i = .trej n) ∨
    (∃ f n v, i = .registerWrite f n v) ∨ ∃ f n, i = .latchedHalfRead f n) → exec i s = .next s)

namespace Sys2Proof

/-- The registers of a ring block, by offset (Table 29.6); RHLD counts the records that find no room. -/
def ringWord (R : Ring) : Nat → Option Nat
  | 0x00 => some R.rb.toNat
  | 0x08 => some R.rn.toNat
  | 0x10 => some R.rt.toNat
  | 0x18 => some R.rh.toNat
  | 0x20 => some (R.riv.toNat + if R.rien then 65536 else 0)
  | 0x28 => some (R.held.length - (R.rn.toNat - (R.rt - R.rh).toNat))
  | _ => none

end Sys2Proof

/-- R341, R342, R346: TREJ is read and cleared by the physical function; the low half of a wide field latches its high half; the registers of a ring
block and of an interface page are written and read as their tables say, a value outside its limits and reserved bits of what is written are
ignored (R14), and what no table names reads zero. R315: the host reads the public keys and the certificate chain, from where they lie (the
model's place for them: DESIGN CHOICE, assumption 88). -/
def Obligations.RegisterPages : Prop :=
  (∀ i (s : State), i = .trej 0 ∨ i = .latchedHalfRead 0 0x400190 → s.trust.links = true → ∃ t, exec i s = .next t ∧ t.reply = natBytes 8 (s.cores.map fun c => c.2.trej).sum ∧
    (∀ c ∈ t.cores, c.2.trej = 0) ∧ { t with reply := s.reply, cores := s.cores } = s) ∧
  (∀ f (s : State), s.trust.links = true → f ≠ 0 → exec (.trej f) s = .next { s with reply := natBytes 8 0 }) ∧
  (∀ off (s : State) v, s.trust.links = true → wideField s (off / 16 * 16) = some v → off % 16 = 0 →
    ∃ t, exec (.latchedHalfRead 0 off) s = .next t ∧ t.reply = natBytes 8 v ∧ tgetD t.latch 0 0#64 = BitVec.ofNat 64 (v / 2 ^ 64) ∧
      { t with reply := s.reply, latch := s.latch } = s) ∧
  (∀ off (s : State) v, s.trust.links = true → wideField s (off / 16 * 16) = some v → off % 16 ≠ 0 →
    exec (.latchedHalfRead 0 off) s = .next { s with reply := natBytes 8 (tgetD s.latch 0 0#64).toNat }) ∧
  (∀ f off (s : State) n o v, s.trust.links = true → (f = 0 → wideField s (off / 16 * 16) = none) → ringAt f off = none →
    ifaceAt s f 0x100000 off = some (n, o) → ifaceWord (s.iface n) o = some v → exec (.latchedHalfRead f off) s = .next { s with reply := natBytes 8 v }) ∧
  (∀ f (s : State), s.trust.links = true → exec (.latchedHalfRead f 0) s = .next { s with reply := natBytes 8 (if s.ready then 1 else 0) }) ∧
  (∀ f off (s : State) k o v, s.trust.links = true → (f = 0 → wideField s (off / 16 * 16) = none) → ringAt f off = some (k, o) →
    ringWord (s.ring k) o = some v → exec (.latchedHalfRead f off) s = .next { s with reply := natBytes 8 v }) ∧
  (∀ off (s : State), s.trust.links = true → off ≠ 0 → off ≠ 0x400190 → wideField s (off / 16 * 16) = none → ringAt 0 off = none →
    ifaceAt s 0 0x100000 off = none → exec (.latchedHalfRead 0 off) s =
      .next { s with reply := natBytes 8 (if identityBase ≤ off then leNat ((identityBytes.drop (off - identityBase)).take 8) else 0) }) ∧
  (∀ f off (s : State), s.trust.links = true → f ≠ 0 → off ≠ 0 → ringAt f off = none → ifaceAt s f 0x100000 off = none →
    exec (.latchedHalfRead f off) s = .next { s with reply := natBytes 8 0 }) ∧
  (∀ f off (v : DWord) (s : State) n o, s.trust.links = true → ringAt f off = none → ifaceAt s f 0x100000 off = some (n, o) →
    (o = 0x00 → v.toNat % 4096 = 0 → exec (.registerWrite f off v) s = .next (s.modIface n fun I => { I with sqb := v })) ∧
    (o = 0x18 → v.toNat % 4096 = 0 → exec (.registerWrite f off v) s = .next (s.modIface n fun I => { I with cqb := v })) ∧
    (∀ i < 12, o = 0x08 → v.extractLsb' 0 16 = BitVec.ofNat 16 (16 * 2 ^ i) → exec (.registerWrite f off v) s = .next (s.modIface n fun I =>
      { I with sqn := BitVec.ofNat 16 (16 * 2 ^ i) })) ∧
    (∀ i < 12, o = 0x20 → v.extractLsb' 0 16 = BitVec.ofNat 16 (16 * 2 ^ i) → exec (.registerWrite f off v) s = .next (s.modIface n fun I =>
      { I with cqn := BitVec.ofNat 16 (16 * 2 ^ i) })) ∧
    ((o = 0x08 ∨ o = 0x20) → (∀ i < 12, v.extractLsb' 0 16 ≠ BitVec.ofNat 16 (16 * 2 ^ i)) → exec (.registerWrite f off v) s = .next s) ∧
    ((o = 0x00 ∨ o = 0x18) → v.toNat % 4096 ≠ 0 → exec (.registerWrite f off v) s = .next s) ∧
    (o = 0x30 → (s.iface n).cqt - v.extractLsb' 0 32 ≤ (s.iface n).cqn.zeroExtend 32 → (s.iface n).sqh = (s.iface n).sqt →
      exec (.registerWrite f off v) s = .next (s.modIface n fun I => { I with cqh := v.extractLsb' 0 32 })) ∧
    (o = 0x38 → exec (.registerWrite f off v) s = .next (s.modIface n fun I =>
      { I with ivec := v.extractLsb' 0 16, ien := v.getLsbD 16 })) ∧
    ((o = 0x10 ∨ o = 0x28 ∨ o = 0x40) → exec (.registerWrite f off v) s = .next s)) ∧
  (∀ f off (v : DWord) (s : State) k o, s.trust.links = true → ringAt f off = some (k, o) →
    (o = 0x00 → v.toNat % 4096 = 0 → exec (.registerWrite f off v) s = .next (s.modRing k fun R => { R with rb := v })) ∧
    (o = 0x00 → v.toNat % 4096 ≠ 0 → exec (.registerWrite f off v) s = .next s) ∧
    (∀ i < 12, o = 0x08 → v.extractLsb' 0 16 = BitVec.ofNat 16 (16 * 2 ^ i) → exec (.registerWrite f off v) s = .next (s.modRing k fun R =>
      { R with rn := BitVec.ofNat 16 (16 * 2 ^ i) })) ∧
    (o = 0x08 → (∀ i < 12, v.extractLsb' 0 16 ≠ BitVec.ofNat 16 (16 * 2 ^ i)) → exec (.registerWrite f off v) s = .next s) ∧
    (o = 0x18 → (s.ring k).rt - v.extractLsb' 0 32 ≤ (s.ring k).rn.zeroExtend 32 →
      exec (.registerWrite f off v) s = .next (s.modRing k fun R => { R with rh := v.extractLsb' 0 32 })) ∧
    (o = 0x18 → (s.ring k).rn.zeroExtend 32 < (s.ring k).rt - v.extractLsb' 0 32 → exec (.registerWrite f off v) s = .next s) ∧
    (o = 0x20 → exec (.registerWrite f off v) s = .next (s.modRing k fun R =>
      { R with riv := v.extractLsb' 0 16, rien := v.getLsbD 16 })) ∧
    ((o = 0x10 ∨ o = 0x28) → exec (.registerWrite f off v) s = .next s))

namespace Sys2Proof

/-- A context as its descriptor d says (Table 19.1), with the default place table: KIND 1 for IDs 0 to 31, KIND 2 for 32 to 63, KIND 3 for 64 to 71,
each with the UNIT that counts from the first of its kind, and no other entry valid (R349). It has not run, holds no handler, and is not
stopped. -/
def describes (d : Nat) (c : Ctx) : Prop :=
  c.world = bits d 25 20 ∧ c.func = bits d 31 26 ∧ c.spu = bits d 35 32 ∧ c.gng = bit d 36 ∧ c.iw = bits d 47 40 ∧ c.wt = bits d 63 48 ∧
  c.otbase = bits d 127 64 ∧ c.otlen = bits d 159 128 ∧ c.rate = bits d 191 160 ∧ c.capb = bits d 255 192 ∧
  c.level = (BitVec.ofNat 64 (bits d 319 256)).toInt ∧ c.saveb = bits d 383 320 ∧ c.savel = bits d 447 384 ∧ c.meter = 0 ∧ c.newIw = none ∧
  c.handler = none ∧ c.stopped = false ∧ c.dbgStop = false ∧ c.desch = false ∧
  (∀ n < 32, tgetD c.places n 0#32 = BitVec.ofNat 32 (2 ^ 31 + 2 ^ 16 + n)) ∧
  (∀ n < 32, tgetD c.places (32 + n) 0#32 = BitVec.ofNat 32 (2 ^ 31 + 2 * 2 ^ 16 + n)) ∧
  (∀ n < 8, tgetD c.places (64 + n) 0#32 = BitVec.ofNat 32 (2 ^ 31 + 3 * 2 ^ 16 + n)) ∧ ∀ n, 72 ≤ n → (tgetD c.places n 0#32).getLsbD 31 = false

end Sys2Proof

/-- R265, R343, R344, R349, R286, R342: a context is made, as its descriptor says and with the default place table, and bound to its interface; it
takes new rates at the next tick, and ends with its blocks, grids and launches, and with its parked lanes, of which no record is posted (the
last: DEDUCED, assumption 65); a function is configured, unless one of the interfaces is bound to a context of another function. -/
def Obligations.ContextCommands : Prop :=
  (∀ (q : Cmd) (a n : DWord) (s : State) bs, (s.iface q.iface).func = 0 → n.toNat < 256 → guestRead s 0 a.toNat 64 = .ok bs → descOk (leNat bs) = true →
    tget? s.ctxs (leNat bs % 2 ^ 20) = none → (s.iface n.toNat).pasid = none → (s.iface n.toNat).func = leNat bs / 2 ^ 26 % 64 →
    (tget? s.worlds (leNat bs / 2 ^ 20 % 64)).map (·.ending) = some none →
    ∃ c, describes (leNat bs) c ∧
      exec (.ctxnew q a n) s = .next (reply ({ s with ctxs := tset s.ctxs (leNat bs % 2 ^ 20) c }.modIface n.toNat fun I =>
        { I with pasid := some (leNat bs % 2 ^ 20) }) q 0 0)) ∧
  (∀ (q : Cmd) (a n : DWord) (s : State) bs, (s.iface q.iface).func = 0 → n.toNat < 256 → guestRead s 0 a.toNat 64 = .ok bs → descOk (leNat bs) = false →
    exec (.ctxnew q a n) s = .next (reply s q 1 0)) ∧
  (∀ (q : Cmd) (iw wt rate capb : DWord) (s : State) p c, actsOn s q p c → 1 ≤ iw.toNat → iw.toNat ≤ 255 → 1 ≤ wt.toNat → wt.toNat ≤ 65535 →
    rate.toNat < 2 ^ 32 → 1 ≤ capb.toNat → capb.toNat ≤ 2 ^ 62 → exec (.ctxwr q iw wt rate capb) s = .next (reply (s.modCtx p fun c =>
      { c with newIw := some (iw.toNat, wt.toNat, rate.toNat, capb.toNat) }) q 0 0)) ∧
  (∀ (q : Cmd) (p : DWord) (s : State) c, (s.iface q.iface).func = 0 → p.toNat < 2 ^ 20 → tget? s.ctxs p.toNat = some c →
    ∃ t, exec (.ctxend q p) s = .next t ∧ tget? t.ctxs p.toNat = none ∧ (∀ x ∈ t.blocks, x.2.pasid ≠ p.toNat) ∧ (∀ x ∈ t.grids, x.2.pasid ≠ p.toNat) ∧
      (∀ x ∈ t.launches, x.2.pasid ≠ p.toNat) ∧ (∀ x ∈ t.parks, x.2.pasid ≠ p.toNat) ∧ (∀ x ∈ t.ifaces, x.2.pasid ≠ some p.toNat)) ∧
  (∀ (q : Cmd) (f n s2 m w : DWord) (s : State), (s.iface q.iface).func = 0 → f.toNat < 64 → n.toNat < 2 ^ 17 → n.toNat % 256 + n.toNat / 256 ≤ 256 →
    1 ≤ w.toNat → w.toNat ≤ 15 → (∀ k, n.toNat % 256 ≤ k → k < n.toNat % 256 + n.toNat / 256 → ∀ p, (s.iface k).pasid = some p →
      (tget? s.ctxs p).map (·.func) = some f.toNat) →
    ∃ t, exec (.fncfg q f n s2 m w) s = .next t ∧ (t.func f.toNat).s2 = s2.toNat ∧ (t.func f.toNat).remap = m.toNat ∧ (t.func f.toNat).weight = w.toNat ∧
      (∀ k, n.toNat % 256 ≤ k → k < n.toNat % 256 + n.toNat / 256 → (t.iface k).func = f.toNat) ∧
      ∀ k, ¬(n.toNat % 256 ≤ k ∧ k < n.toNat % 256 + n.toNat / 256) → (t.iface k).func = (s.iface k).func) ∧
  (∀ (q : Cmd) (f n s2 m w : DWord) (s : State) k p, (s.iface q.iface).func = 0 → f.toNat < 64 → n.toNat < 2 ^ 17 →
    n.toNat % 256 + n.toNat / 256 ≤ 256 → 1 ≤ w.toNat → w.toNat ≤ 15 → n.toNat % 256 ≤ k → k < n.toNat % 256 + n.toNat / 256 →
    (s.iface k).pasid = some p → (tget? s.ctxs p).map (·.func) ≠ some f.toNat → exec (.fncfg q f n s2 m w) s = .next (reply s q 8 0))

/-! ### Boot, spares and the sideband (R306, R315 to R317, R329, R348, R350, R351) -/

namespace Sys2Proof

/-- A state in which boot has run to its end. -/
def booted (t : State) : Prop :=
  t.ready = true ∧ t.trust.links = true ∧ t.mem.hbm = Ram.empty ∧ t.mem.owner = [] ∧ (∃ W, tget? t.worlds 0 = some W ∧ W.pol = 0#256) ∧
  ∀ d < 24, (t.die d).step = 56 ∧ (t.die d).factory = true ∧ (t.die d).chgs = 0

end Sys2Proof

/-- R329, R348: images that hold and are not older than their counters bring the package up, with every crown domain at step 56, clean memory and
world 0; a fuse out of order, or an image that does not hold, stops the boot untrained. R350: a core to be retired loses its blocks, then its place
is taken by a spare. R351: what the management sideband reads and asks. The model's choices here: boot takes three images, of which the weight
tables need no signature, and the telemetry gives the powers measured and free values for what no register of the spec holds (DESIGN CHOICE,
assumption 67); the sideband reset leaves the fuses, the agenda and the model's counters, and the log's bytes are those given (DEDUCED,
assumption 68); the cores that fail the self-test are an operand of boot (DEDUCED, assumption 100). -/
def Obligations.BootAndSideband : Prop :=
  (∀ (s : State) a b c rest bad, s.boot = 0 → s.ready = false → (∀ k < 16, outOfOrder s.trust k = false) → stageOk (completeFuses s.trust) a = true →
    stageOk (completeFuses s.trust) c = true →
    ∃ t, exec (.boot ⟨a :: b :: c :: rest, bad⟩) s = .next t ∧ booted t ∧
      (∀ k < 1536, ∀ p, (s.core k).phys = some p → 34 * clusterOf k + p ∈ bad → p < 34 → (∀ j < 32, 32 * clusterOf k + j ≠ k →
        (s.core (32 * clusterOf k + j)).phys ≠ some p) → (t.core k).remap = true) ∧
      t.trust.fm = [a, b, c].foldl (fun m i => Config.sha3 (natBytes 32 m.toNat ++ natBytes 32 i.digest.toNat)) 0#256) ∧
  (∀ (s : State) l bad k, s.boot = 0 → s.ready = false → (List.range 16).find? (outOfOrder s.trust) = some k →
    exec (.boot ⟨l, bad⟩) s = .next { s with boot := 2, trust := { s.trust with bootLog := s.trust.bootLog ++ [.fuse k] } }) ∧
  (∀ (s : State) a b c rest bad, s.boot = 0 → s.ready = false → (∀ k < 16, outOfOrder s.trust k = false) → stageOk (completeFuses s.trust) a = false →
    ∃ t, exec (.boot ⟨a :: b :: c :: rest, bad⟩) s = .next t ∧ t.ready = false ∧ t.trust.links = s.trust.links ∧ t.boot = 3 ∧
      t.trust.bootLog = s.trust.bootLog ++ [.check 3]) ∧
  (∀ k (s : State), k < 1536 → (s.core k).remap = true → (∀ b ∈ s.blocks, b.2.home = k → b.2.phase.onCore = false) → (s.core k).wc = [] →
    ∃ t n, exec (.coreRemap k) s = .next t ∧ bytesKept s t ∧ (t.core k).remap = false ∧ (t.core k).phys = n ∧ (t.core k).errs = 0 ∧
      (∀ p, n = some p → p < 34 ∧ 34 * clusterOf k + p ∉ t.retired ∧ ∀ j < 32, 32 * clusterOf k + j ≠ k → (s.core (32 * clusterOf k + j)).phys ≠ some p) ∧
      ∀ p, (s.core k).phys = some p → 34 * clusterOf k + p ∈ t.retired) ∧
  (∀ k (s : State) b B, k < 1536 → (s.core k).remap = true → tget? s.blocks b = some B → B.phase = .resident → B.home = k →
    ∃ t, exec (.coreRemap k) s = .next t ∧ bytesKept s t ∧ (tget? t.blocks b).map (·.phase) = some .saving) ∧
  (∀ s : State, ∃ t, exec .sidebandReadIdentity s = .next t ∧ { t with reply := s.reply } = s ∧
    t.reply = Config.mldsaPublic idSeed ++ Config.mlkemPublic (Config.shake64 (natBytes 32 Config.deviceSecret.toNat ++
      [0x41#8, 0x58#8, 0x4E#8, 0x2D#8, 0x4B#8, 0x45#8, 0x4D#8])) ++ Config.certificateChain ++ natBytes 32 kid.toNat ++ natBytes 32 s.trust.fm.toNat) ∧
  (∀ s : State, ∃ t, exec .sidebandReadTelemetry s = .next t ∧ { t with reply := s.reply, free := s.free } = s ∧
    t.reply.take 328 = (List.range 41).flatMap fun d => natBytes 8 (intBits 64 (s.energy.prevM.getD d 0))) ∧
  (∀ s : State, ∃ t, exec .sidebandReadLogs s = .next t ∧ { t with reply := s.reply } = s ∧
    t.reply = s.trust.bootLog.flatMap fun f => match f with
      | .fuse c => [1#8, BitVec.ofNat 8 c]
      | .check n => [2#8, BitVec.ofNat 8 n]) ∧
  (∀ w (s : State), ∃ t, exec (.sidebandLeaseFloor w) s = .next t ∧ t.energy.floor = w ∧
    ∀ d < 24, (t.die d).lceil = leaseCeiling { s with energy := { s.energy with floor := w } } d) ∧
  (∀ d k (s : State), d < 24 → (s.die d).inService = true →
    ∃ t, exec (.sidebandRetire d k true) s = .next t ∧ (t.die d).inService = false ∧ bytesKept s t ∧
      ∀ b B, tget? t.blocks b = some B → dieOf B.home = d → B.phase ≠ .resident) ∧
  (∀ d k n (s : State), d < 24 → k < 68 → (List.range 32).find? (fun n => (s.core (32 * (2 * d + k / 34) + n)).phys == some (k % 34)) = some n →
    exec (.sidebandRetire d k false) s = .next (s.modCore (32 * (2 * d + k / 34) + n) fun C => { C with remap := true })) ∧
  (∀ s : State, exec .sidebandReset s = .next { State.reset with
    agenda := s.agenda, free := s.free, nextId := s.nextId, trust := { Trust.reset with fuses := s.trust.fuses } })

end Statements
end

