-- ==== Sys2Proof/Laws/Decode.lean ====
section
/-!
SUPPORT. The decoder's fields read back what the encoder puts there: one lemma for each field of a word and for each role.
-/

namespace Sys2Proof

theorem ex_hi {v w : Nat} (x : BitVec v) (y : BitVec w) (s n : Nat) (h : w ≤ s) :
    (x ++ y).extractLsb' s n = x.extractLsb' (s - w) n := BitVec.extractLsb'_append_eq_of_le h
theorem ex_lo {v w : Nat} (x : BitVec v) (y : BitVec w) (s n : Nat) (h : s + n ≤ w) :
    (x ++ y).extractLsb' s n = y.extractLsb' s n := BitVec.extractLsb'_append_eq_of_add_le h
theorem ex_self {w : Nat} (x : BitVec w) : x.extractLsb' 0 w = x := BitVec.extractLsb'_eq_self

/-! ### Words -/

section
variable (o : Nat) (e : Scope) (a b c : Byte) (i : BitVec 16)

theorem opc_encT (h : o < 64) : opc (encT o e a b c) = o := by
  have : (encT o e a b c).extractLsb' 26 6 = BitVec.ofNat 6 o := by
    change @BitVec.extractLsb' (6 + 2 + 8 + 8 + 8) 26 6 (BitVec.ofNat 6 o ++ eScope e ++ a ++ b ++ c) = _
    rw [ex_hi _ _ _ _ (by decide), ex_hi _ _ _ _ (by decide), ex_hi _ _ _ _ (by decide), ex_hi _ _ _ _ (by decide)]
    exact ex_self _
  simp [opc, this]; omega
theorem opc_encI (h : o < 64) : opc (encI o e a i) = o := by
  have : (encI o e a i).extractLsb' 26 6 = BitVec.ofNat 6 o := by
    change @BitVec.extractLsb' (6 + 2 + 8 + 16) 26 6 (BitVec.ofNat 6 o ++ eScope e ++ a ++ i) = _
    rw [ex_hi _ _ _ _ (by decide), ex_hi _ _ _ _ (by decide), ex_hi _ _ _ _ (by decide)]
    exact ex_self _
  simp [opc, this]; omega
theorem scopeOf_encT : scopeOf (encT o e a b c) = e := by
  have : (encT o e a b c).extractLsb' 24 2 = eScope e := by
    change @BitVec.extractLsb' (6 + 2 + 8 + 8 + 8) 24 2 (BitVec.ofNat 6 o ++ eScope e ++ a ++ b ++ c) = _
    rw [ex_hi _ _ _ _ (by decide), ex_hi _ _ _ _ (by decide), ex_hi _ _ _ _ (by decide), ex_lo _ _ _ _ (by decide)]
    exact ex_self _
  unfold scopeOf; rw [this]; cases e <;> rfl
theorem scopeOf_encI : scopeOf (encI o e a i) = e := by
  have : (encI o e a i).extractLsb' 24 2 = eScope e := by
    change @BitVec.extractLsb' (6 + 2 + 8 + 16) 24 2 (BitVec.ofNat 6 o ++ eScope e ++ a ++ i) = _
    rw [ex_hi _ _ _ _ (by decide), ex_hi _ _ _ _ (by decide), ex_lo _ _ _ _ (by decide)]
    exact ex_self _
  unfold scopeOf; rw [this]; cases e <;> rfl
theorem fA_encT : fA (encT o e a b c) = a := by
  change @BitVec.extractLsb' (6 + 2 + 8 + 8 + 8) 16 8 (BitVec.ofNat 6 o ++ eScope e ++ a ++ b ++ c) = _
  rw [ex_hi _ _ _ _ (by decide), ex_hi _ _ _ _ (by decide), ex_lo _ _ _ _ (by decide)]
  exact ex_self _
theorem fA_encI : fA (encI o e a i) = a := by
  change @BitVec.extractLsb' (6 + 2 + 8 + 16) 16 8 (BitVec.ofNat 6 o ++ eScope e ++ a ++ i) = _
  rw [ex_hi _ _ _ _ (by decide), ex_lo _ _ _ _ (by decide)]
  exact ex_self _
theorem fB_encT : fB (encT o e a b c) = b := by
  change @BitVec.extractLsb' (6 + 2 + 8 + 8 + 8) 8 8 (BitVec.ofNat 6 o ++ eScope e ++ a ++ b ++ c) = _
  rw [ex_hi _ _ _ _ (by decide), ex_lo _ _ _ _ (by decide)]
  exact ex_self _
theorem fC_encT : fC (encT o e a b c) = c := by
  change @BitVec.extractLsb' (6 + 2 + 8 + 8 + 8) 0 8 (BitVec.ofNat 6 o ++ eScope e ++ a ++ b ++ c) = _
  rw [ex_lo _ _ _ _ (by decide)]
  exact ex_self _
theorem imm_encI : imm (encI o e a i) = i := by
  change @BitVec.extractLsb' (6 + 2 + 8 + 16) 0 16 (BitVec.ofNat 6 o ++ eScope e ++ a ++ i) = _
  rw [ex_lo _ _ _ _ (by decide)]
  exact ex_self _
end

/-! ### Hints (R69) -/

section
variable (o : BitVec 3) (e : Scope) (a b c : Byte)

theorem hintOf_enc : hintOf (0b111#3 ++ o ++ eScope e ++ a ++ b ++ c) = .hint o e a b c := by
  have h1 : @BitVec.extractLsb' (3 + 3 + 2 + 8 + 8 + 8) 26 3 (0b111#3 ++ o ++ eScope e ++ a ++ b ++ c) = o := by
    rw [ex_hi _ _ _ _ (by decide), ex_hi _ _ _ _ (by decide), ex_hi _ _ _ _ (by decide), ex_hi _ _ _ _ (by decide),
      ex_lo _ _ _ _ (by decide)]
    exact ex_self _
  have h2 : @BitVec.extractLsb' (3 + 3 + 2 + 8 + 8 + 8) 24 2 (0b111#3 ++ o ++ eScope e ++ a ++ b ++ c) = eScope e := by
    rw [ex_hi _ _ _ _ (by decide), ex_hi _ _ _ _ (by decide), ex_hi _ _ _ _ (by decide), ex_lo _ _ _ _ (by decide)]
    exact ex_self _
  have h3 : @BitVec.extractLsb' (3 + 3 + 2 + 8 + 8 + 8) 16 8 (0b111#3 ++ o ++ eScope e ++ a ++ b ++ c) = a := by
    rw [ex_hi _ _ _ _ (by decide), ex_hi _ _ _ _ (by decide), ex_lo _ _ _ _ (by decide)]
    exact ex_self _
  have h4 : @BitVec.extractLsb' (3 + 3 + 2 + 8 + 8 + 8) 8 8 (0b111#3 ++ o ++ eScope e ++ a ++ b ++ c) = b := by
    rw [ex_hi _ _ _ _ (by decide), ex_lo _ _ _ _ (by decide)]
    exact ex_self _
  have h5 : @BitVec.extractLsb' (3 + 3 + 2 + 8 + 8 + 8) 0 8 (0b111#3 ++ o ++ eScope e ++ a ++ b ++ c) = c := by
    rw [ex_lo _ _ _ _ (by decide)]
    exact ex_self _
  have hs : scopeOf (0b111#3 ++ o ++ eScope e ++ a ++ b ++ c) = e := by
    unfold scopeOf
    change (match (@BitVec.extractLsb' (3 + 3 + 2 + 8 + 8 + 8) 24 2 (0b111#3 ++ o ++ eScope e ++ a ++ b ++ c)).toNat with
      | 0 => Scope.lane | 1 => Scope.group | 2 => Scope.set | _ => Scope.block) = e
    rw [h2]; cases e <;> rfl
  unfold hintOf fA fB fC
  rw [hs]
  exact congr (congr (congr (congr (congr rfl h1) rfl |> fun h => h) h3) h4) h5

theorem opc_hint : opc (0b111#3 ++ o ++ eScope e ++ a ++ b ++ c) = 56 + o.toNat := by
  have : @BitVec.extractLsb' (3 + 3 + 2 + 8 + 8 + 8) 26 6 (0b111#3 ++ o ++ eScope e ++ a ++ b ++ c) = 0b111#3 ++ o := by
    rw [ex_hi _ _ _ _ (by decide), ex_hi _ _ _ _ (by decide), ex_hi _ _ _ _ (by decide), ex_hi _ _ _ _ (by decide)]
    exact ex_self _
  unfold opc
  change (@BitVec.extractLsb' (3 + 3 + 2 + 8 + 8 + 8) 26 6 (0b111#3 ++ o ++ eScope e ++ a ++ b ++ c)).toNat = _
  rw [this]
  have key : ∀ o : BitVec 3, (7#3 ++ o).toNat = 56 + o.toNat := by decide
  exact key o
end

/-! ### The modifier word -/

section
variable (m : BitVec 2) (t s : BitVec 4) (d : Byte)

theorem mD_encM : mD (encM m t s d) = d := by
  change @BitVec.extractLsb' (8 + 8 + 6 + 4 + 4 + 2) 16 8 (0#8 ++ d ++ 0#6 ++ s ++ t ++ m) = _
  rw [ex_hi _ _ _ _ (by decide), ex_hi _ _ _ _ (by decide), ex_hi _ _ _ _ (by decide), ex_hi _ _ _ _ (by decide),
    ex_lo _ _ _ _ (by decide)]
  exact ex_self _
theorem encM_st : (encM m t s d).extractLsb' 6 4 = s := by
  change @BitVec.extractLsb' (8 + 8 + 6 + 4 + 4 + 2) 6 4 (0#8 ++ d ++ 0#6 ++ s ++ t ++ m) = _
  rw [ex_hi _ _ _ _ (by decide), ex_hi _ _ _ _ (by decide), ex_lo _ _ _ _ (by decide)]
  exact ex_self _
theorem encM_ty : (encM m t s d).extractLsb' 2 4 = t := by
  change @BitVec.extractLsb' (8 + 8 + 6 + 4 + 4 + 2) 2 4 (0#8 ++ d ++ 0#6 ++ s ++ t ++ m) = _
  rw [ex_hi _ _ _ _ (by decide), ex_lo _ _ _ _ (by decide)]
  exact ex_self _
theorem encM_mode : (encM m t s d).extractLsb' 0 2 = m := by
  change @BitVec.extractLsb' (8 + 8 + 6 + 4 + 4 + 2) 0 2 (0#8 ++ d ++ 0#6 ++ s ++ t ++ m) = _
  rw [ex_lo _ _ _ _ (by decide)]
  exact ex_self _
theorem encM_res : (encM m t s d).extractLsb' 10 6 = 0#6 := by
  change @BitVec.extractLsb' (8 + 8 + 6 + 4 + 4 + 2) 10 6 (0#8 ++ d ++ 0#6 ++ s ++ t ++ m) = _
  rw [ex_hi _ _ _ _ (by decide), ex_hi _ _ _ _ (by decide), ex_hi _ _ _ _ (by decide), ex_lo _ _ _ _ (by decide)]
  exact ex_self _
theorem encM_top : (encM m t s d).extractLsb' 24 8 = 0#8 := by
  change @BitVec.extractLsb' (8 + 8 + 6 + 4 + 4 + 2) 24 8 (0#8 ++ d ++ 0#6 ++ s ++ t ++ m) = _
  rw [ex_hi _ _ _ _ (by decide), ex_hi _ _ _ _ (by decide), ex_hi _ _ _ _ (by decide), ex_hi _ _ _ _ (by decide),
    ex_hi _ _ _ _ (by decide)]
  exact ex_self _

theorem tyOf_eTy (x : Ty) : tyOf (eTy x) = x := by cases x <;> rfl
theorem mT_encM (x : Ty) : mT (encM m (eTy x) s d) = x := by unfold mT; rw [encM_ty, tyOf_eTy]
theorem mS_encM (x : Ty) : mS (encM m t (eTy x) d) = x := by unfold mS; rw [encM_st, tyOf_eTy]
theorem mM_encM (x : Rnd) : mM (encM (eRnd x) t s d) = x := by unfold mM; rw [encM_mode]; cases x <;> rfl
theorem mM_rn : mM (encM 0#2 t s d) = .rn := mM_encM t s d .rn
theorem mM_rz : mM (encM 1#2 t s d) = .rz := mM_encM t s d .rz
theorem mO_encM (x : AOrd) : mO (encM (eOrd x) t s d) = x := by unfold mO; rw [encM_mode]; cases x <;> rfl
theorem modOk_encM (mode st dd : Bool) (h1 : mode = false → m = 0#2) (h2 : st = false → s = 0#4) (h3 : dd = false → d = 0#8) :
    modOk (encM m t s d) mode st dd = .ok () := by
  have hd : (encM m t s d).extractLsb' 16 8 = d := mD_encM m t s d
  unfold modOk
  rw [encM_res, encM_top, encM_mode, encM_st, hd]
  cases mode <;> cases st <;> cases dd <;> simp_all [need]
end

/-! ### Roles -/

theorem eBool_bit (x : Bool) : (eBool x).getLsbD 0 = x := by cases x <;> rfl

theorem byte_lo (p : BitVec 1) (l : Bool) (n : BitVec 6) : (p ++ eBool l ++ n).extractLsb' 0 6 = n := by
  rw [ex_lo _ _ _ _ (by decide)]; exact ex_self _
theorem byte_6 (p : BitVec 1) (l : Bool) (n : BitVec 6) : (p ++ eBool l ++ n).getLsbD 6 = l := by
  rw [BitVec.getLsbD_append, BitVec.getLsbD_append]; cases l <;> rfl
theorem byte_7 (p : BitVec 1) (l : Bool) (n : BitVec 6) : (p ++ eBool l ++ n).getLsbD 7 = p.getLsbD 0 := by
  rw [BitVec.getLsbD_append, BitVec.getLsbD_append]; rfl
theorem byte2_lo (p : BitVec 2) (n : BitVec 6) : (p ++ n).extractLsb' 0 6 = n := by
  rw [ex_lo _ _ _ _ (by decide)]; exact ex_self _
theorem byte2_6 (p : BitVec 2) (n : BitVec 6) : (p ++ n).getLsbD 6 = p.getLsbD 0 := by rw [BitVec.getLsbD_append]; rfl
theorem byte2_7 (p : BitVec 2) (n : BitVec 6) : (p ++ n).getLsbD 7 = p.getLsbD 1 := by rw [BitVec.getLsbD_append]; rfl

theorem dVs_eVs (v : VSrc) : dVs (eVs v) = .ok v := by
  cases v with
  | reg n l => unfold dVs eVs; rw [byte_7, byte_6]; exact congrArg (fun x => Except.ok (VSrc.reg x l)) (byte_lo 0#1 l n)
  | chan c p => unfold dVs eVs; rw [byte_7, byte_6]; exact congrArg (fun x => Except.ok (VSrc.chan x p)) (byte_lo 1#1 p c)
theorem dVd_eVd (v : VDst) : dVd (eVd v) = .ok v := by
  cases v with
  | reg n => unfold dVd eVd; rw [byte2_7, byte2_6]; exact congrArg (fun x => Except.ok (VDst.reg x)) (byte2_lo 0#2 n)
  | chan c => unfold dVd eVd; rw [byte2_7, byte2_6]; exact congrArg (fun x => Except.ok (VDst.chan x)) (byte2_lo 2#2 c)
theorem dRs_eRs (r : RSrc) : dRs (eRs r) = .ok r := by
  unfold dRs eRs; rw [byte_7, byte_6]; exact congrArg (fun x => Except.ok (RSrc.mk x r.last)) (byte_lo 0#1 r.last r.n)
theorem dRd_eRd (n : BitVec 6) : dRd (eRd n) = .ok n := by
  unfold dRd eRd; rw [byte2_7, byte2_6]; exact congrArg Except.ok (byte2_lo 0#2 n)
theorem dCh_eCh (n : BitVec 6) : dCh (eCh n) = .ok n := by
  unfold dCh eCh; rw [byte2_7, byte2_6]; exact congrArg Except.ok (byte2_lo 2#2 n)
theorem dQs_eRs (r : RSrc) (h : quadOk r.n = true) : dQs (eRs r) = .ok r := by
  unfold dQs; rw [dRs_eRs]; simp [bind, Except.bind, needOp, h, pure, Except.pure]
theorem dPs_eRs (r : RSrc) (h : pairOk r.n = true) : dPs (eRs r) = .ok r := by
  unfold dPs; rw [dRs_eRs]; simp [bind, Except.bind, needOp, h, pure, Except.pure]
theorem dQd_eRd (n : BitVec 6) (h : quadOk n = true) : dQd (eRd n) = .ok n := by
  unfold dQd; rw [dRd_eRd]; simp [bind, Except.bind, needOp, h, pure, Except.pure]
theorem dPd_eRd (n : BitVec 6) (h : pairOk n = true) : dPd (eRd n) = .ok n := by
  unfold dPd; rw [dRd_eRd]; simp [bind, Except.bind, needOp, h, pure, Except.pure]
theorem dPrs_ePrs (p : Pred) : dPrs (ePrs p) = .ok p := by
  obtain ⟨n, neg⟩ := p; revert n neg; decide
theorem dPrd_ePrd (p : BitVec 3) (h : pdstOk p = true) : dPrd (ePrd p) = .ok p := by revert p; decide
theorem dByte_self (b : Byte) : dByte b = .ok b := rfl
theorem dZero_zero : dZero 0#8 = .ok () := rfl
theorem dBit_eBit (b : Bool) : dBit (eBit b) = .ok b := by cases b <;> rfl
theorem dSel_ext (n m : Nat) (x : BitVec n) (hn : n ≤ 8) (h : x.toNat < m) : dSel n m (x.zeroExtend 8) = .ok x := by
  have h0 : x.toNat < 2 ^ 8 := Nat.lt_of_lt_of_le x.isLt (Nat.pow_le_pow_right (by decide) hn)
  have h256 : x.toNat < 256 := h0
  have h1 : (x.zeroExtend 8).toNat = x.toNat := by simp [Nat.mod_eq_of_lt h256]
  unfold dSel; rw [h1]
  simp only [needOp, h, decide_true, if_true, bind, Except.bind, pure, Except.pure]
  congr 1; apply BitVec.eq_of_toNat_eq; simp [Nat.mod_eq_of_lt h256, Nat.mod_eq_of_lt x.isLt]
theorem dSel_1 (x : BitVec 1) : dSel 1 2 (x.setWidth 8) = .ok x := dSel_ext 1 2 x (by decide) x.isLt
theorem dSel_2 (x : BitVec 2) : dSel 2 4 (x.setWidth 8) = .ok x := dSel_ext 2 4 x (by decide) x.isLt
theorem dSel_3 (x : BitVec 3) : dSel 3 8 (x.setWidth 8) = .ok x := dSel_ext 3 8 x (by decide) x.isLt
theorem dSel_4 (x : BitVec 4) : dSel 4 16 (x.setWidth 8) = .ok x := dSel_ext 4 16 x (by decide) x.isLt
theorem dSel_5 (x : BitVec 5) : dSel 5 32 (x.setWidth 8) = .ok x := dSel_ext 5 32 x (by decide) x.isLt
theorem dSel_set : dSel 1 2 0#8 = .ok 0#1 := rfl
theorem dSel_add : dSel 1 2 1#8 = .ok 1#1 := rfl
theorem dLen_ext (x : BitVec 6) (h : (decide (1 ≤ x.toNat) && decide (x.toNat ≤ 32)) = true) : dLen (x.zeroExtend 8) = .ok x := by
  revert x; decide

/-! ### Immediates -/

theorem dImm12_ext (x : BitVec 12) : dImm12 (x.zeroExtend 16) = .ok x := by
  have h1 : (x.zeroExtend 16).extractLsb' 12 4 = 0#4 := by ext i hi; simp
  have h2 : (x.zeroExtend 16).extractLsb' 0 12 = x := by apply BitVec.eq_of_toNat_eq; have := x.isLt; simp; omega
  unfold dImm12; rw [h1, h2]; rfl
theorem dImm8_ext (x : BitVec 8) : dImm8 (x.zeroExtend 16) = .ok x := by
  have h1 : (x.zeroExtend 16).extractLsb' 8 8 = 0#8 := by ext i hi; simp
  have h2 : (x.zeroExtend 16).extractLsb' 0 8 = x := by apply BitVec.eq_of_toNat_eq; have := x.isLt; simp; omega
  unfold dImm8; rw [h1, h2]; rfl
theorem dStep_ext (x : BitVec 7) (h : decide (x.toNat ≤ 64) = true) : dStep (x.zeroExtend 16) = .ok x := by revert x; decide
theorem dK_ext (x : BitVec 4) : dK (x.zeroExtend 16) = .ok x := by revert x; decide
theorem dKn_enc (k : BitVec 4) (n : BitVec 6) : dKn (0#6 ++ n ++ k) = .ok k := by
  unfold dKn; rw [ex_lo _ _ _ _ (by decide)]; exact congrArg Except.ok (ex_self _)
theorem dBn_enc (k : BitVec 4) (n : BitVec 6) (h : decide (n.toNat < 32) = true) : dBn (0#6 ++ n ++ k) = .ok n := by
  have h1 : (0#6 ++ n ++ k).extractLsb' 10 6 = 0#6 := by
    rw [ex_hi _ _ _ _ (by decide), ex_hi _ _ _ _ (by decide)]; exact ex_self _
  have h2 : (0#6 ++ n ++ k).extractLsb' 4 6 = n := by
    rw [ex_hi _ _ _ _ (by decide), ex_lo _ _ _ _ (by decide)]; exact ex_self _
  unfold dBn; rw [h1, h2]; simp [need, h, bind, Except.bind, pure, Except.pure]
theorem dWait_enc (w : WaitLim) : dWait (0#2 ++ w.t ++ w.c ++ w.s ++ w.l) = .ok w := by
  have h1 : (0#2 ++ w.t ++ w.c ++ w.s ++ w.l).extractLsb' 14 2 = 0#2 := by
    rw [ex_hi _ _ _ _ (by decide), ex_hi _ _ _ _ (by decide), ex_hi _ _ _ _ (by decide), ex_hi _ _ _ _ (by decide)]
    exact ex_self _
  have h2 : (0#2 ++ w.t ++ w.c ++ w.s ++ w.l).extractLsb' 11 3 = w.t := by
    rw [ex_hi _ _ _ _ (by decide), ex_hi _ _ _ _ (by decide), ex_hi _ _ _ _ (by decide), ex_lo _ _ _ _ (by decide)]
    exact ex_self _
  have h3 : (0#2 ++ w.t ++ w.c ++ w.s ++ w.l).extractLsb' 8 3 = w.c := by
    rw [ex_hi _ _ _ _ (by decide), ex_hi _ _ _ _ (by decide), ex_lo _ _ _ _ (by decide)]
    exact ex_self _
  have h4 : (0#2 ++ w.t ++ w.c ++ w.s ++ w.l).extractLsb' 4 4 = w.s := by
    rw [ex_hi _ _ _ _ (by decide), ex_lo _ _ _ _ (by decide)]
    exact ex_self _
  have h5 : (0#2 ++ w.t ++ w.c ++ w.s ++ w.l).extractLsb' 0 4 = w.l := by
    rw [ex_lo _ _ _ _ (by decide)]
    exact ex_self _
  unfold dWait; rw [h1, h2, h3, h4, h5]; rfl
theorem dSr_eSr (r : SReg) (hi : Bool) : dSr (eSr r hi) = .ok r := by
  cases r with
  | lvl k => revert k hi; decide
  | view k => revert k hi; decide
  | _ => cases hi <;> rfl
theorem dSrv_eSr (k : BitVec 2) (hi : Bool) : dSrv (eSr (.view k) hi) = .ok k := by unfold dSrv; rw [dSr_eSr]; rfl
theorem eSr_hi (r : SReg) (hi : Bool) : (eSr r hi).getLsbD 7 = hi := by
  cases r with
  | lvl k => revert k hi; decide
  | view k => revert k hi; decide
  | _ => cases hi <;> rfl
theorem eSr_bit (r : SReg) (hi : Bool) : (eSr r hi)[7] = hi := eSr_hi r hi

end Sys2Proof
end

