-- ==== Sys2Proof/Laws/Exec.lean ====
section
/-!
SUPPORT. One equation for each arm of exec, so that no proof unfolds its match.
-/

namespace Sys2Proof.Machine

@[simp] theorem exec_nop (s : State) {e} : exec (.nop e) s = execNop e s := rfl
@[simp] theorem exec_jmp (s : State) {t} : exec (.jmp t) s = execJmp t s := rfl
@[simp] theorem exec_bra (s : State) {p t} : exec (.bra p t) s = execBra p t s := rfl
@[simp] theorem exec_bru (s : State) {q t} : exec (.bru q t) s = execBru q t s := rfl
@[simp] theorem exec_jmpc (s : State) {a} : exec (.jmpc a) s = execJmpc a s := rfl
@[simp] theorem exec_call (s : State) {a t} : exec (.call a t) s = execCall a t s := rfl
@[simp] theorem exec_callc (s : State) {a b} : exec (.callc a b) s = execCallc a b s := rfl
@[simp] theorem exec_ret (s : State) {a} : exec (.ret a) s = execRet a s := rfl
@[simp] theorem exec_exit (s : State) : exec .exit s = execExit s := rfl
@[simp] theorem exec_bar (s : State) {e} : exec (.bar e) s = execBar e s := rfl
@[simp] theorem exec_bara (s : State) {e k n} : exec (.bara e k n) s = execBara e k n s := rfl
@[simp] theorem exec_barw (s : State) {e k} : exec (.barw e k) s = execBarw e k s := rfl
@[simp] theorem exec_gbar (s : State) : exec .gbar s = execGbar s := rfl
@[simp] theorem exec_grdbar (s : State) : exec .grdbar s = execGrdbar s := rfl
@[simp] theorem exec_sstepCluster (s : State) : exec .sstepCluster s = execSstepCluster s := rfl
@[simp] theorem exec_sstepDie (s : State) : exec .sstepDie s = execSstepDie s := rfl
@[simp] theorem exec_fork (s : State) {a b} : exec (.fork a b) s = execFork a b s := rfl
@[simp] theorem exec_wait (s : State) {e lim} : exec (.wait e lim) s = execWait e lim s := rfl
@[simp] theorem exec_yield (s : State) : exec .yield s = execYield s := rfl
@[simp] theorem exec_trap (s : State) {e code} : exec (.trap e code) s = execTrap e code s := rfl
@[simp] theorem exec_loop (s : State) {a t} : exec (.loop a t) s = execLoop a t s := rfl
@[simp] theorem exec_hint (s : State) {o e a b c} : exec (.hint o e a b c) s = execHint o e a b c s := rfl
@[simp] theorem exec_rdsr (s : State) {e a r hi} : exec (.rdsr e a r hi) s = execRdsr e a r hi s := rfl
@[simp] theorem exec_rdsu (s : State) {e a r hi} : exec (.rdsu e a r hi) s = execRdsu e a r hi s := rfl
@[simp] theorem exec_opreq (s : State) {e a n} : exec (.opreq e a n) s = execOpreq e a n s := rfl
@[simp] theorem exec_mtrq (s : State) {e a b} : exec (.mtrq e a b) s = execMtrq e a b s := rfl
@[simp] theorem exec_msamp (s : State) {e a c} : exec (.msamp e a c) s = execMsamp e a c s := rfl
@[simp] theorem exec_rpush (s : State) {e label} : exec (.rpush e label) s = execRpush e label s := rfl
@[simp] theorem exec_rpop (s : State) {e} : exec (.rpop e) s = execRpop e s := rfl
@[simp] theorem exec_trmark (s : State) {e v} : exec (.trmark e v) s = execTrmark e v s := rfl
@[simp] theorem exec_bkpt (s : State) {e n} : exec (.bkpt e n) s = execBkpt e n s := rfl
@[simp] theorem exec_chkpt (s : State) {e} : exec (.chkpt e) s = execChkpt e s := rfl
@[simp] theorem exec_dbgstop (s : State) {e} : exec (.dbgstop e) s = execDbgstop e s := rfl
@[simp] theorem exec_trctlStart (s : State) {e} : exec (.trctlStart e) s = execTrctlStart e s := rfl
@[simp] theorem exec_trctlStop (s : State) {e} : exec (.trctlStop e) s = execTrctlStop e s := rfl
@[simp] theorem exec_trctlFreeze (s : State) {e} : exec (.trctlFreeze e) s = execTrctlFreeze e s := rfl
@[simp] theorem exec_trctlThaw (s : State) {e} : exec (.trctlThaw e) s = execTrctlThaw e s := rfl
@[simp] theorem exec_plwr (s : State) {a b c} : exec (.plwr a b c) s = execPlwr a b c s := rfl
@[simp] theorem exec_qtwr (s : State) {a b c} : exec (.qtwr a b c) s = execQtwr a b c s := rfl
@[simp] theorem exec_limwr (s : State) {a b c} : exec (.limwr a b c) s = execLimwr a b c s := rfl
@[simp] theorem exec_wtwr (s : State) {a b c} : exec (.wtwr a b c) s = execWtwr a b c s := rfl
@[simp] theorem exec_srwr (s : State) {e v hi a} : exec (.srwr e v hi a) s = execSrwr e v hi a s := rfl
@[simp] theorem exec_saddB64 (s : State) {e a b c} : exec (.saddB64 e a b c) s = execSaddB64 e a b c s := rfl
@[simp] theorem exec_ssubB64 (s : State) {e a b c} : exec (.ssubB64 e a b c) s = execSsubB64 e a b c s := rfl
@[simp] theorem exec_smulB64 (s : State) {e a b c} : exec (.smulB64 e a b c) s = execSmulB64 e a b c s := rfl
@[simp] theorem exec_smulhS64 (s : State) {e a b c} : exec (.smulhS64 e a b c) s = execSmulhS64 e a b c s := rfl
@[simp] theorem exec_smulhN64 (s : State) {e a b c} : exec (.smulhN64 e a b c) s = execSmulhN64 e a b c s := rfl
@[simp] theorem exec_saddiB64 (s : State) {e a ix} : exec (.saddiB64 e a ix) s = execSaddiB64 e a ix s := rfl
@[simp] theorem exec_smoviB64 (s : State) {e a ix} : exec (.smoviB64 e a ix) s = execSmoviB64 e a ix s := rfl
@[simp] theorem exec_smovlB64 (s : State) {e a sel lit} : exec (.smovlB64 e a sel lit) s = execSmovlB64 e a sel lit s := rfl
@[simp] theorem exec_sandB64 (s : State) {e a b c} : exec (.sandB64 e a b c) s = execSandB64 e a b c s := rfl
@[simp] theorem exec_sorB64 (s : State) {e a b c} : exec (.sorB64 e a b c) s = execSorB64 e a b c s := rfl
@[simp] theorem exec_sxorB64 (s : State) {e a b c} : exec (.sxorB64 e a b c) s = execSxorB64 e a b c s := rfl
@[simp] theorem exec_snotB64 (s : State) {e a b} : exec (.snotB64 e a b) s = execSnotB64 e a b s := rfl
@[simp] theorem exec_sshlB64 (s : State) {e a b c} : exec (.sshlB64 e a b c) s = execSshlB64 e a b c s := rfl
@[simp] theorem exec_sshrN64 (s : State) {e a b c} : exec (.sshrN64 e a b c) s = execSshrN64 e a b c s := rfl
@[simp] theorem exec_sshrS64 (s : State) {e a b c} : exec (.sshrS64 e a b c) s = execSshrS64 e a b c s := rfl
@[simp] theorem exec_smovB64 (s : State) {e a b} : exec (.smovB64 e a b) s = execSmovB64 e a b s := rfl
@[simp] theorem exec_sminS64 (s : State) {e a b c} : exec (.sminS64 e a b c) s = execSminS64 e a b c s := rfl
@[simp] theorem exec_sminN64 (s : State) {e a b c} : exec (.sminN64 e a b c) s = execSminN64 e a b c s := rfl
@[simp] theorem exec_smaxS64 (s : State) {e a b c} : exec (.smaxS64 e a b c) s = execSmaxS64 e a b c s := rfl
@[simp] theorem exec_smaxN64 (s : State) {e a b c} : exec (.smaxN64 e a b c) s = execSmaxN64 e a b c s := rfl
@[simp] theorem exec_sclzB64 (s : State) {e a b} : exec (.sclzB64 e a b) s = execSclzB64 e a b s := rfl
@[simp] theorem exec_spopcB64 (s : State) {e a b} : exec (.spopcB64 e a b) s = execSpopcB64 e a b s := rfl
@[simp] theorem exec_sextS32 (s : State) {e a b} : exec (.sextS32 e a b) s = execSextS32 e a b s := rfl
@[simp] theorem exec_sextN32 (s : State) {e a b} : exec (.sextN32 e a b) s = execSextN32 e a b s := rfl
@[simp] theorem exec_sceqB64 (s : State) {e a b c} : exec (.sceqB64 e a b c) s = execSceqB64 e a b c s := rfl
@[simp] theorem exec_scneB64 (s : State) {e a b c} : exec (.scneB64 e a b c) s = execScneB64 e a b c s := rfl
@[simp] theorem exec_scltS64 (s : State) {e a b c} : exec (.scltS64 e a b c) s = execScltS64 e a b c s := rfl
@[simp] theorem exec_scltN64 (s : State) {e a b c} : exec (.scltN64 e a b c) s = execScltN64 e a b c s := rfl
@[simp] theorem exec_scleS64 (s : State) {e a b c} : exec (.scleS64 e a b c) s = execScleS64 e a b c s := rfl
@[simp] theorem exec_scleN64 (s : State) {e a b c} : exec (.scleN64 e a b c) s = execScleN64 e a b c s := rfl
@[simp] theorem exec_sselB64 (s : State) {e a b c d} : exec (.sselB64 e a b c d) s = execSselB64 e a b c d s := rfl
@[simp] theorem exec_qand (s : State) {e a b c} : exec (.qand e a b c) s = execQand e a b c s := rfl
@[simp] theorem exec_qor (s : State) {e a b c} : exec (.qor e a b c) s = execQor e a b c s := rfl
@[simp] theorem exec_qxor (s : State) {e a b c} : exec (.qxor e a b c) s = execQxor e a b c s := rfl
@[simp] theorem exec_qnot (s : State) {e a b} : exec (.qnot e a b) s = execQnot e a b s := rfl
@[simp] theorem exec_vaddB32 (s : State) {e a b c} : exec (.vaddB32 e a b c) s = execVaddB32 e a b c s := rfl
@[simp] theorem exec_vsubB32 (s : State) {e a b c} : exec (.vsubB32 e a b c) s = execVsubB32 e a b c s := rfl
@[simp] theorem exec_vmulB32 (s : State) {e a b c} : exec (.vmulB32 e a b c) s = execVmulB32 e a b c s := rfl
@[simp] theorem exec_vmulhS32 (s : State) {e a b c} : exec (.vmulhS32 e a b c) s = execVmulhS32 e a b c s := rfl
@[simp] theorem exec_vmulhN32 (s : State) {e a b c} : exec (.vmulhN32 e a b c) s = execVmulhN32 e a b c s := rfl
@[simp] theorem exec_vaddiB32 (s : State) {e a ix} : exec (.vaddiB32 e a ix) s = execVaddiB32 e a ix s := rfl
@[simp] theorem exec_vmoviB32 (s : State) {e a ix} : exec (.vmoviB32 e a ix) s = execVmoviB32 e a ix s := rfl
@[simp] theorem exec_vmovlB32 (s : State) {e a lit} : exec (.vmovlB32 e a lit) s = execVmovlB32 e a lit s := rfl
@[simp] theorem exec_vaddsS32 (s : State) {e a b c} : exec (.vaddsS32 e a b c) s = execVaddsS32 e a b c s := rfl
@[simp] theorem exec_vaddsN32 (s : State) {e a b c} : exec (.vaddsN32 e a b c) s = execVaddsN32 e a b c s := rfl
@[simp] theorem exec_vsubsS32 (s : State) {e a b c} : exec (.vsubsS32 e a b c) s = execVsubsS32 e a b c s := rfl
@[simp] theorem exec_vsubsN32 (s : State) {e a b c} : exec (.vsubsN32 e a b c) s = execVsubsN32 e a b c s := rfl
@[simp] theorem exec_vminS32 (s : State) {e a b c} : exec (.vminS32 e a b c) s = execVminS32 e a b c s := rfl
@[simp] theorem exec_vminN32 (s : State) {e a b c} : exec (.vminN32 e a b c) s = execVminN32 e a b c s := rfl
@[simp] theorem exec_vmaxS32 (s : State) {e a b c} : exec (.vmaxS32 e a b c) s = execVmaxS32 e a b c s := rfl
@[simp] theorem exec_vmaxN32 (s : State) {e a b c} : exec (.vmaxN32 e a b c) s = execVmaxN32 e a b c s := rfl
@[simp] theorem exec_vandB32 (s : State) {e a b c} : exec (.vandB32 e a b c) s = execVandB32 e a b c s := rfl
@[simp] theorem exec_vorB32 (s : State) {e a b c} : exec (.vorB32 e a b c) s = execVorB32 e a b c s := rfl
@[simp] theorem exec_vxorB32 (s : State) {e a b c} : exec (.vxorB32 e a b c) s = execVxorB32 e a b c s := rfl
@[simp] theorem exec_vnotB32 (s : State) {e a b} : exec (.vnotB32 e a b) s = execVnotB32 e a b s := rfl
@[simp] theorem exec_vshlB32 (s : State) {e a b c} : exec (.vshlB32 e a b c) s = execVshlB32 e a b c s := rfl
@[simp] theorem exec_vshrN32 (s : State) {e a b c} : exec (.vshrN32 e a b c) s = execVshrN32 e a b c s := rfl
@[simp] theorem exec_vshrS32 (s : State) {e a b c} : exec (.vshrS32 e a b c) s = execVshrS32 e a b c s := rfl
@[simp] theorem exec_vmovB32 (s : State) {e a b} : exec (.vmovB32 e a b) s = execVmovB32 e a b s := rfl
@[simp] theorem exec_vabsS32 (s : State) {e a b} : exec (.vabsS32 e a b) s = execVabsS32 e a b s := rfl
@[simp] theorem exec_vnegS32 (s : State) {e a b} : exec (.vnegS32 e a b) s = execVnegS32 e a b s := rfl
@[simp] theorem exec_vpopcB32 (s : State) {e a b} : exec (.vpopcB32 e a b) s = execVpopcB32 e a b s := rfl
@[simp] theorem exec_vclzB32 (s : State) {e a b} : exec (.vclzB32 e a b) s = execVclzB32 e a b s := rfl
@[simp] theorem exec_vbrevB32 (s : State) {e a b} : exec (.vbrevB32 e a b) s = execVbrevB32 e a b s := rfl
@[simp] theorem exec_vbfxN32 (s : State) {e a b c len} : exec (.vbfxN32 e a b c len) s = execVbfxN32 e a b c len s := rfl
@[simp] theorem exec_vbfxS32 (s : State) {e a b c len} : exec (.vbfxS32 e a b c len) s = execVbfxS32 e a b c len s := rfl
@[simp] theorem exec_vbfiB32 (s : State) {e a b c len} : exec (.vbfiB32 e a b c len) s = execVbfiB32 e a b c len s := rfl
@[simp] theorem exec_vceqB32 (s : State) {e a b c} : exec (.vceqB32 e a b c) s = execVceqB32 e a b c s := rfl
@[simp] theorem exec_vcneB32 (s : State) {e a b c} : exec (.vcneB32 e a b c) s = execVcneB32 e a b c s := rfl
@[simp] theorem exec_vcltS32 (s : State) {e a b c} : exec (.vcltS32 e a b c) s = execVcltS32 e a b c s := rfl
@[simp] theorem exec_vcltN32 (s : State) {e a b c} : exec (.vcltN32 e a b c) s = execVcltN32 e a b c s := rfl
@[simp] theorem exec_vcleS32 (s : State) {e a b c} : exec (.vcleS32 e a b c) s = execVcleS32 e a b c s := rfl
@[simp] theorem exec_vcleN32 (s : State) {e a b c} : exec (.vcleN32 e a b c) s = execVcleN32 e a b c s := rfl
@[simp] theorem exec_vselB32 (s : State) {e a b c d} : exec (.vselB32 e a b c d) s = execVselB32 e a b c d s := rfl
@[simp] theorem exec_vext (s : State) {e ty st a b ix} : exec (.vext e ty st a b ix) s = execVext e ty st a b ix s := rfl
@[simp] theorem exec_pand (s : State) {e a b c} : exec (.pand e a b c) s = execPand e a b c s := rfl
@[simp] theorem exec_por (s : State) {e a b c} : exec (.por e a b c) s = execPor e a b c s := rfl
@[simp] theorem exec_pxor (s : State) {e a b c} : exec (.pxor e a b c) s = execPxor e a b c s := rfl
@[simp] theorem exec_pnot (s : State) {e a b} : exec (.pnot e a b) s = execPnot e a b s := rfl
@[simp] theorem exec_vbcast (s : State) {e a b} : exec (.vbcast e a b) s = execVbcast e a b s := rfl
@[simp] theorem exec_vfirst (s : State) {e a b} : exec (.vfirst e a b) s = execVfirst e a b s := rfl
@[simp] theorem exec_vlane (s : State) {e a b c} : exec (.vlane e a b c) s = execVlane e a b c s := rfl
@[simp] theorem exec_vvote (s : State) {e a b} : exec (.vvote e a b) s = execVvote e a b s := rfl
@[simp] theorem exec_vshflB32 (s : State) {e a b c} : exec (.vshflB32 e a b c) s = execVshflB32 e a b c s := rfl
@[simp] theorem exec_vrsumB32 (s : State) {e a b} : exec (.vrsumB32 e a b) s = execVrsumB32 e a b s := rfl
@[simp] theorem exec_vrminS32 (s : State) {e a b} : exec (.vrminS32 e a b) s = execVrminS32 e a b s := rfl
@[simp] theorem exec_vrminN32 (s : State) {e a b} : exec (.vrminN32 e a b) s = execVrminN32 e a b s := rfl
@[simp] theorem exec_vrmaxS32 (s : State) {e a b} : exec (.vrmaxS32 e a b) s = execVrmaxS32 e a b s := rfl
@[simp] theorem exec_vrmaxN32 (s : State) {e a b} : exec (.vrmaxN32 e a b) s = execVrmaxN32 e a b s := rfl
@[simp] theorem exec_vscanB32 (s : State) {e a b} : exec (.vscanB32 e a b) s = execVscanB32 e a b s := rfl
@[simp] theorem exec_vrotlB32 (s : State) {e a b c} : exec (.vrotlB32 e a b c) s = execVrotlB32 e a b c s := rfl
@[simp] theorem exec_fadd (s : State) {e a b c} : exec (.fadd e a b c) s = execFadd e a b c s := rfl
@[simp] theorem exec_faddX (s : State) {e ty m a b c} : exec (.faddX e ty m a b c) s = execFaddX e ty m a b c s := rfl
@[simp] theorem exec_fsub (s : State) {e a b c} : exec (.fsub e a b c) s = execFsub e a b c s := rfl
@[simp] theorem exec_fsubX (s : State) {e ty m a b c} : exec (.fsubX e ty m a b c) s = execFsubX e ty m a b c s := rfl
@[simp] theorem exec_fmul (s : State) {e a b c} : exec (.fmul e a b c) s = execFmul e a b c s := rfl
@[simp] theorem exec_fmulX (s : State) {e ty m a b c} : exec (.fmulX e ty m a b c) s = execFmulX e ty m a b c s := rfl
@[simp] theorem exec_ffma (s : State) {e a b c} : exec (.ffma e a b c) s = execFfma e a b c s := rfl
@[simp] theorem exec_ffmaX (s : State) {e ty m a b c d} : exec (.ffmaX e ty m a b c d) s = execFfmaX e ty m a b c d s := rfl
@[simp] theorem exec_fdiv (s : State) {e a b c} : exec (.fdiv e a b c) s = execFdiv e a b c s := rfl
@[simp] theorem exec_fdivX (s : State) {e ty m a b c} : exec (.fdivX e ty m a b c) s = execFdivX e ty m a b c s := rfl
@[simp] theorem exec_fsqrt (s : State) {e a b} : exec (.fsqrt e a b) s = execFsqrt e a b s := rfl
@[simp] theorem exec_fsqrtX (s : State) {e ty m a b} : exec (.fsqrtX e ty m a b) s = execFsqrtX e ty m a b s := rfl
@[simp] theorem exec_fmin (s : State) {e a b c} : exec (.fmin e a b c) s = execFmin e a b c s := rfl
@[simp] theorem exec_fmax (s : State) {e a b c} : exec (.fmax e a b c) s = execFmax e a b c s := rfl
@[simp] theorem exec_fabs (s : State) {e a b} : exec (.fabs e a b) s = execFabs e a b s := rfl
@[simp] theorem exec_fneg (s : State) {e a b} : exec (.fneg e a b) s = execFneg e a b s := rfl
@[simp] theorem exec_fceq (s : State) {e a b c} : exec (.fceq e a b c) s = execFceq e a b c s := rfl
@[simp] theorem exec_fclt (s : State) {e a b c} : exec (.fclt e a b c) s = execFclt e a b c s := rfl
@[simp] theorem exec_fcle (s : State) {e a b c} : exec (.fcle e a b c) s = execFcle e a b c s := rfl
@[simp] theorem exec_fcun (s : State) {e a b c} : exec (.fcun e a b c) s = execFcun e a b c s := rfl
@[simp] theorem exec_fcvt (s : State) {e ty st m a b ix j} : exec (.fcvt e ty st m a b ix j) s = execFcvt e ty st m a b ix j s := rfl
@[simp] theorem exec_fscl (s : State) {e a b c} : exec (.fscl e a b c) s = execFscl e a b c s := rfl
@[simp] theorem exec_fsclX (s : State) {e m a b c} : exec (.fsclX e m a b c) s = execFsclX e m a b c s := rfl
@[simp] theorem exec_pdot4 (s : State) {e ty st m a b c d} : exec (.pdot4 e ty st m a b c d) s = execPdot4 e ty st m a b c d s := rfl
@[simp] theorem exec_pdot8 (s : State) {e ty st m a b c d} : exec (.pdot8 e ty st m a b c d) s = execPdot8 e ty st m a b c d s := rfl
@[simp] theorem exec_hadd2 (s : State) {e ty m a b c} : exec (.hadd2 e ty m a b c) s = execHadd2 e ty m a b c s := rfl
@[simp] theorem exec_hmul2 (s : State) {e ty m a b c} : exec (.hmul2 e ty m a b c) s = execHmul2 e ty m a b c s := rfl
@[simp] theorem exec_hfma2 (s : State) {e ty m a b c d} : exec (.hfma2 e ty m a b c d) s = execHfma2 e ty m a b c d s := rfl
@[simp] theorem exec_fred (s : State) {e m a b op} : exec (.fred e m a b op) s = execFred e m a b op s := rfl
@[simp] theorem exec_cfadd (s : State) {e a b c} : exec (.cfadd e a b c) s = execCfadd e a b c s := rfl
@[simp] theorem exec_cfred (s : State) {e a b} : exec (.cfred e a b) s = execCfred e a b s := rfl
@[simp] theorem exec_cfnorm (s : State) {e a b c} : exec (.cfnorm e a b c) s = execCfnorm e a b c s := rfl
@[simp] theorem exec_cfnormX (s : State) {e ty m a b c} : exec (.cfnormX e ty m a b c) s = execCfnormX e ty m a b c s := rfl
@[simp] theorem exec_ldS8 (s : State) {e a b c} : exec (.ldS8 e a b c) s = execLdS8 e a b c s := rfl
@[simp] theorem exec_ldN8 (s : State) {e a b c} : exec (.ldN8 e a b c) s = execLdN8 e a b c s := rfl
@[simp] theorem exec_ldS16 (s : State) {e a b c} : exec (.ldS16 e a b c) s = execLdS16 e a b c s := rfl
@[simp] theorem exec_ldN16 (s : State) {e a b c} : exec (.ldN16 e a b c) s = execLdN16 e a b c s := rfl
@[simp] theorem exec_ldB32 (s : State) {e a b c} : exec (.ldB32 e a b c) s = execLdB32 e a b c s := rfl
@[simp] theorem exec_ldB64 (s : State) {e a b c} : exec (.ldB64 e a b c) s = execLdB64 e a b c s := rfl
@[simp] theorem exec_ldB128 (s : State) {e a b c} : exec (.ldB128 e a b c) s = execLdB128 e a b c s := rfl
@[simp] theorem exec_ldc (s : State) {e a b c} : exec (.ldc e a b c) s = execLdc e a b c s := rfl
@[simp] theorem exec_stB8 (s : State) {e a b c} : exec (.stB8 e a b c) s = execStB8 e a b c s := rfl
@[simp] theorem exec_stB16 (s : State) {e a b c} : exec (.stB16 e a b c) s = execStB16 e a b c s := rfl
@[simp] theorem exec_stB32 (s : State) {e a b c} : exec (.stB32 e a b c) s = execStB32 e a b c s := rfl
@[simp] theorem exec_stB64 (s : State) {e a b c} : exec (.stB64 e a b c) s = execStB64 e a b c s := rfl
@[simp] theorem exec_stB128 (s : State) {e a b c} : exec (.stB128 e a b c) s = execStB128 e a b c s := rfl
@[simp] theorem exec_stc (s : State) {e a b c} : exec (.stc e a b c) s = execStc e a b c s := rfl
@[simp] theorem exec_wldB32 (s : State) {e a b c} : exec (.wldB32 e a b c) s = execWldB32 e a b c s := rfl
@[simp] theorem exec_wldB128 (s : State) {e a b c} : exec (.wldB128 e a b c) s = execWldB128 e a b c s := rfl
@[simp] theorem exec_ldsB32 (s : State) {e a b} : exec (.ldsB32 e a b) s = execLdsB32 e a b s := rfl
@[simp] theorem exec_ldsB64 (s : State) {e a b} : exec (.ldsB64 e a b) s = execLdsB64 e a b s := rfl
@[simp] theorem exec_ldsB128 (s : State) {e a b} : exec (.ldsB128 e a b) s = execLdsB128 e a b s := rfl
@[simp] theorem exec_stsB32 (s : State) {e a b} : exec (.stsB32 e a b) s = execStsB32 e a b s := rfl
@[simp] theorem exec_stsB64 (s : State) {e a b} : exec (.stsB64 e a b) s = execStsB64 e a b s := rfl
@[simp] theorem exec_stsB128 (s : State) {e a b} : exec (.stsB128 e a b) s = execStsB128 e a b s := rfl
@[simp] theorem exec_put (s : State) {e a b c} : exec (.put e a b c) s = execPut e a b c s := rfl
@[simp] theorem exec_get (s : State) {e a b c} : exec (.get e a b c) s = execGet e a b c s := rfl
@[simp] theorem exec_aadd (s : State) {e ty o a b c d} : exec (.aadd e ty o a b c d) s = execAadd e ty o a b c d s := rfl
@[simp] theorem exec_amin (s : State) {e ty o a b c d} : exec (.amin e ty o a b c d) s = execAmin e ty o a b c d s := rfl
@[simp] theorem exec_amax (s : State) {e ty o a b c d} : exec (.amax e ty o a b c d) s = execAmax e ty o a b c d s := rfl
@[simp] theorem exec_aand (s : State) {e ty o a b c d} : exec (.aand e ty o a b c d) s = execAand e ty o a b c d s := rfl
@[simp] theorem exec_aor (s : State) {e ty o a b c d} : exec (.aor e ty o a b c d) s = execAor e ty o a b c d s := rfl
@[simp] theorem exec_axor (s : State) {e ty o a b c d} : exec (.axor e ty o a b c d) s = execAxor e ty o a b c d s := rfl
@[simp] theorem exec_axchg (s : State) {e ty o a b c d} : exec (.axchg e ty o a b c d) s = execAxchg e ty o a b c d s := rfl
@[simp] theorem exec_acas (s : State) {e ty o a b c d} : exec (.acas e ty o a b c d) s = execAcas e ty o a b c d s := rfl
@[simp] theorem exec_acquire (s : State) {e} : exec (.acquire e) s = execAcquire e s := rfl
@[simp] theorem exec_release (s : State) {e} : exec (.release e) s = execRelease e s := rfl
@[simp] theorem exec_fence (s : State) {e} : exec (.fence e) s = execFence e s := rfl
@[simp] theorem exec_cbnd (s : State) {e a b c} : exec (.cbnd e a b c) s = execCbnd e a b c s := rfl
@[simp] theorem exec_cperm (s : State) {e a ix} : exec (.cperm e a ix) s = execCperm e a ix s := rfl
@[simp] theorem exec_cadd (s : State) {e a b c} : exec (.cadd e a b c) s = execCadd e a b c s := rfl
@[simp] theorem exec_cset (s : State) {e a b c} : exec (.cset e a b c) s = execCset e a b c s := rfl
@[simp] theorem exec_cseal (s : State) {e a b c} : exec (.cseal e a b c) s = execCseal e a b c s := rfl
@[simp] theorem exec_cmov (s : State) {e a b} : exec (.cmov e a b) s = execCmov e a b s := rfl
@[simp] theorem exec_cget (s : State) {e a b sel} : exec (.cget e a b sel) s = execCget e a b sel s := rfl
@[simp] theorem exec_ctag (s : State) {e a b c} : exec (.ctag e a b c) s = execCtag e a b c s := rfl
@[simp] theorem exec_cbcast (s : State) {e a b} : exec (.cbcast e a b) s = execCbcast e a b s := rfl
@[simp] theorem exec_chbind (s : State) {e ch b c} : exec (.chbind e ch b c) s = execChbind e ch b c s := rfl
@[simp] theorem exec_chfree (s : State) {e a ch} : exec (.chfree e a ch) s = execChfree e a ch s := rfl
@[simp] theorem exec_chstat (s : State) {e a ch} : exec (.chstat e a ch) s = execChstat e a ch s := rfl
@[simp] theorem exec_spanq (s : State) {e a b c} : exec (.spanq e a b c) s = execSpanq e a b c s := rfl
@[simp] theorem exec_cpy (s : State) {e a b c d} : exec (.cpy e a b c d) s = execCpy e a b c d s := rfl
@[simp] theorem exec_cpysIn (s : State) {e a b c d} : exec (.cpysIn e a b c d) s = execCpysIn e a b c d s := rfl
@[simp] theorem exec_cpysOut (s : State) {e a b c d} : exec (.cpysOut e a b c d) s = execCpysOut e a b c d s := rfl
@[simp] theorem exec_mcast (s : State) {e a b c d} : exec (.mcast e a b c d) s = execMcast e a b c d s := rfl
@[simp] theorem exec_cpyq (s : State) {e a b} : exec (.cpyq e a b) s = execCpyq e a b s := rfl
@[simp] theorem exec_oclaim (s : State) {e a b} : exec (.oclaim e a b) s = execOclaim e a b s := rfl
@[simp] theorem exec_orel (s : State) {e a b} : exec (.orel e a b) s = execOrel e a b s := rfl
@[simp] theorem exec_oload (s : State) {e o b c src} : exec (.oload e o b c src) s = execOload e o b c src s := rfl
@[simp] theorem exec_mfence (s : State) {e} : exec (.mfence e) s = execMfence e s := rfl
@[simp] theorem exec_mpair (s : State) {e ty st a b place acc} : exec (.mpair e ty st a b place acc) s = execMpair e ty st a b place acc s := rfl
@[simp] theorem exec_accrd (s : State) {e ty m v tile c} : exec (.accrd e ty m v tile c) s = execAccrd e ty m v tile c s := rfl
@[simp] theorem exec_accwr (s : State) {e ty tile v c} : exec (.accwr e ty tile v c) s = execAccwr e ty tile v c s := rfl
@[simp] theorem exec_accclr (s : State) {e tile ver} : exec (.accclr e tile ver) s = execAccclr e tile ver s := rfl
@[simp] theorem exec_accwt (s : State) {e tile ver} : exec (.accwt e tile ver) s = execAccwt e tile ver s := rfl
@[simp] theorem exec_accver (s : State) {e a tile} : exec (.accver e a tile) s = execAccver e a tile s := rfl
@[simp] theorem exec_sclwSet (s : State) {e m b} : exec (.sclwSet e m b) s = execSclwSet e m b s := rfl
@[simp] theorem exec_sclwAdd (s : State) {e m b} : exec (.sclwAdd e m b) s = execSclwAdd e m b s := rfl
@[simp] theorem exec_sclr (s : State) {e a m} : exec (.sclr e a m) s = execSclr e a m s := rfl
@[simp] theorem exec_clauseIssue (s : State) {core} : exec (.clauseIssue core) s = execClauseIssue core s := rfl
@[simp] theorem exec_rcvHoldTimeout (s : State) {g} : exec (.rcvHoldTimeout g) s = execRcvHoldTimeout g s := rfl
@[simp] theorem exec_timingErrorReplay (s : State) {r} : exec (.timingErrorReplay r) s = execTimingErrorReplay r s := rfl
@[simp] theorem exec_blockExit (s : State) {b} : exec (.blockExit b) s = execBlockExit b s := rfl
@[simp] theorem exec_childGridComplete (s : State) {grid} : exec (.childGridComplete grid) s = execChildGridComplete grid s := rfl
@[simp] theorem exec_memoryRequest (s : State) {op lane cached} : exec (.memoryRequest op lane cached) s = execMemoryRequest op lane cached s := rfl
@[simp] theorem exec_storeRegister (s : State) {op lane} : exec (.storeRegister op lane) s = execStoreRegister op lane s := rfl
@[simp] theorem exec_lossNotice (s : State) {core word} : exec (.lossNotice core word) s = execLossNotice core word s := rfl
@[simp] theorem exec_atomicPerform (s : State) {op word} : exec (.atomicPerform op word) s = execAtomicPerform op word s := rfl
@[simp] theorem exec_loadArrival (s : State) {op k} : exec (.loadArrival op k) s = execLoadArrival op k s := rfl
@[simp] theorem exec_wcDrainTimeout (s : State) {core line} : exec (.wcDrainTimeout core line) s = execWcDrainTimeout core line s := rfl
@[simp] theorem exec_refreshWindowStart (s : State) : exec .refreshWindowStart s = execRefreshWindowStart s := rfl
@[simp] theorem exec_refreshWindowEnd (s : State) : exec .refreshWindowEnd s = execRefreshWindowEnd s := rfl
@[simp] theorem exec_windowTransferComplete (s : State) {op lane} : exec (.windowTransferComplete op lane) s = execWindowTransferComplete op lane s := rfl
@[simp] theorem exec_copyPart (s : State) {op lane part cached} : exec (.copyPart op lane part cached) s = execCopyPart op lane part cached s := rfl
@[simp] theorem exec_copyComplete (s : State) {op lane} : exec (.copyComplete op lane) s = execCopyComplete op lane s := rfl
@[simp] theorem exec_oloadComplete (s : State) {op} : exec (.oloadComplete op) s = execOloadComplete op s := rfl
@[simp] theorem exec_tileOpStart (s : State) {core} : exec (.tileOpStart core) s = execTileOpStart core s := rfl
@[simp] theorem exec_mpairRetire (s : State) {op} : exec (.mpairRetire op) s = execMpairRetire op s := rfl
@[simp] theorem exec_tileOpComplete (s : State) {op} : exec (.tileOpComplete op) s = execTileOpComplete op s := rfl
@[simp] theorem exec_barComplete (s : State) {g} : exec (.barComplete g) s = execBarComplete g s := rfl
@[simp] theorem exec_gangBarrierArrival (s : State) {b} : exec (.gangBarrierArrival b) s = execGangBarrierArrival b s := rfl
@[simp] theorem exec_sstepArrival (s : State) {b} : exec (.sstepArrival b) s = execSstepArrival b s := rfl
@[simp] theorem exec_spanMoveComplete (s : State) {span data tags} : exec (.spanMoveComplete span data tags) s = execSpanMoveComplete span data tags s := rfl
@[simp] theorem exec_settleExpiry (s : State) {span} : exec (.settleExpiry span) s = execSettleExpiry span s := rfl
@[simp] theorem exec_revokeProceed (s : State) {rev} : exec (.revokeProceed rev) s = execRevokeProceed rev s := rfl
@[simp] theorem exec_revocationPoint (s : State) {rev} : exec (.revocationPoint rev) s = execRevocationPoint rev s := rfl
@[simp] theorem exec_sweepRegisterScan (s : State) {g} : exec (.sweepRegisterScan g) s = execSweepRegisterScan g s := rfl
@[simp] theorem exec_sweepComplete (s : State) {pasid} : exec (.sweepComplete pasid) s = execSweepComplete pasid s := rfl
@[simp] theorem exec_invalidationComplete (s : State) {inv} : exec (.invalidationComplete inv) s = execInvalidationComplete inv s := rfl
@[simp] theorem exec_frameScrub (s : State) {frame} : exec (.frameScrub frame) s = execFrameScrub frame s := rfl
@[simp] theorem exec_worldEndComplete (s : State) {world} : exec (.worldEndComplete world) s = execWorldEndComplete world s := rfl
@[simp] theorem exec_keyretComplete (s : State) {world} : exec (.keyretComplete world) s = execKeyretComplete world s := rfl
@[simp] theorem exec_pmlimApply (s : State) {core} : exec (.pmlimApply core) s = execPmlimApply core s := rfl
@[simp] theorem exec_wscopyProceed (s : State) {id} : exec (.wscopyProceed id) s = execWscopyProceed id s := rfl
@[simp] theorem exec_launchRecord (s : State) {iface rec} : exec (.launchRecord iface rec) s = execLaunchRecord iface rec s := rfl
@[simp] theorem exec_blockPlacement (s : State) {core} : exec (.blockPlacement core) s = execBlockPlacement core s := rfl
@[simp] theorem exec_launchComplete (s : State) {pasid seq} : exec (.launchComplete pasid seq) s = execLaunchComplete pasid seq s := rfl
@[simp] theorem exec_sliceEnd (s : State) {die} : exec (.sliceEnd die) s = execSliceEnd die s := rfl
@[simp] theorem exec_blockSave (s : State) {b} : exec (.blockSave b) s = execBlockSave b s := rfl
@[simp] theorem exec_blockRestore (s : State) {b core} : exec (.blockRestore b core) s = execBlockRestore b core s := rfl
@[simp] theorem exec_gangReady (s : State) {die} : exec (.gangReady die) s = execGangReady die s := rfl
@[simp] theorem exec_gangDeadline (s : State) {die othersReady} : exec (.gangDeadline die othersReady) s = execGangDeadline die othersReady s := rfl
@[simp] theorem exec_faultRecordPost (s : State) : exec .faultRecordPost s = execFaultRecordPost s := rfl
@[simp] theorem exec_tick (s : State) {sensors} : exec (.tick sensors) s = execTick sensors s := rfl
@[simp] theorem exec_marginRelax (s : State) {die} : exec (.marginRelax die) s = execMarginRelax die s := rfl
@[simp] theorem exec_powerCeilingExpiry (s : State) {die} : exec (.powerCeilingExpiry die) s = execPowerCeilingExpiry die s := rfl
@[simp] theorem exec_dieRetire (s : State) {die} : exec (.dieRetire die) s = execDieRetire die s := rfl
@[simp] theorem exec_chargeReport (s : State) : exec .chargeReport s = execChargeReport s := rfl
@[simp] theorem exec_stepChangeBegin (s : State) {die} : exec (.stepChangeBegin die) s = execStepChangeBegin die s := rfl
@[simp] theorem exec_supplyRampEnd (s : State) {die} : exec (.supplyRampEnd die) s = execSupplyRampEnd die s := rfl
@[simp] theorem exec_relockEnd (s : State) {die} : exec (.relockEnd die) s = execRelockEnd die s := rfl
@[simp] theorem exec_supplyLowerEnd (s : State) {die} : exec (.supplyLowerEnd die) s = execSupplyLowerEnd die s := rfl
@[simp] theorem exec_leaseGrant (s : State) {watts ms} : exec (.leaseGrant watts ms) s = execLeaseGrant watts ms s := rfl
@[simp] theorem exec_leaseExpiry (s : State) : exec .leaseExpiry s = execLeaseExpiry s := rfl
@[simp] theorem exec_meterSample (s : State) {g} : exec (.meterSample g) s = execMeterSample g s := rfl
@[simp] theorem exec_meterReadingWrite (s : State) {world} : exec (.meterReadingWrite world) s = execMeterReadingWrite world s := rfl
@[simp] theorem exec_checkpoint (s : State) {b} : exec (.checkpoint b) s = execCheckpoint b s := rfl
@[simp] theorem exec_linkPacketReceive (s : State) {p} : exec (.linkPacketReceive p) s = execLinkPacketReceive p s := rfl
@[simp] theorem exec_fabricPacketArrival (s : State) {p} : exec (.fabricPacketArrival p) s = execFabricPacketArrival p s := rfl
@[simp] theorem exec_completionTimeout (s : State) {q n} : exec (.completionTimeout q n) s = execCompletionTimeout q n s := rfl
@[simp] theorem exec_uncorrectableError (s : State) {place} : exec (.uncorrectableError place) s = execUncorrectableError place s := rfl
@[simp] theorem exec_linkCrcError (s : State) {link} : exec (.linkCrcError link) s = execLinkCrcError link s := rfl
@[simp] theorem exec_coreRemap (s : State) {core} : exec (.coreRemap core) s = execCoreRemap core s := rfl
@[simp] theorem exec_boot (s : State) {run} : exec (.boot run) s = execBoot run s := rfl
@[simp] theorem exec_sqt (s : State) {iface tail} : exec (.sqt iface tail) s = execSqt iface tail s := rfl
@[simp] theorem exec_completionPost (s : State) {iface} : exec (.completionPost iface) s = execCompletionPost iface s := rfl
@[simp] theorem exec_cqh (s : State) {iface v} : exec (.cqh iface v) s = execCqh iface v s := rfl
@[simp] theorem exec_rh (s : State) {ring v} : exec (.rh ring v) s = execRh ring v s := rfl
@[simp] theorem exec_trej (s : State) {fn} : exec (.trej fn) s = execTrej fn s := rfl
@[simp] theorem exec_latchedHalfRead (s : State) {fn off} : exec (.latchedHalfRead fn off) s = execLatchedHalfRead fn off s := rfl
@[simp] theorem exec_registerWrite (s : State) {fn off v} : exec (.registerWrite fn off v) s = execRegisterWrite fn off v s := rfl
@[simp] theorem exec_ctxnew (s : State) {q desc ifc} : exec (.ctxnew q desc ifc) s = execCtxnew q desc ifc s := rfl
@[simp] theorem exec_ctxwr (s : State) {q iw wt rate capb} : exec (.ctxwr q iw wt rate capb) s = execCtxwr q iw wt rate capb s := rfl
@[simp] theorem exec_ctxend (s : State) {q pasid} : exec (.ctxend q pasid) s = execCtxend q pasid s := rfl
@[simp] theorem exec_revoke (s : State) {q obn} : exec (.revoke q obn) s = execRevoke q obn s := rfl
@[simp] theorem exec_invalObject (s : State) {q obn} : exec (.invalObject q obn) s = execInvalObject q obn s := rfl
@[simp] theorem exec_invalSpan (s : State) {q obn span} : exec (.invalSpan q obn span) s = execInvalSpan q obn span s := rfl
@[simp] theorem exec_invalStage2 (s : State) {q frame} : exec (.invalStage2 q frame) s = execInvalStage2 q frame s := rfl
@[simp] theorem exec_retry (s : State) {q sub} : exec (.retry q sub) s = execRetry q sub s := rfl
@[simp] theorem exec_dispose (s : State) {q sub word} : exec (.dispose q sub word) s = execDispose q sub word s := rfl
@[simp] theorem exec_handler (s : State) {q code entry rootLo rootHi} : exec (.handler q code entry rootLo rootHi) s = execHandler q code entry rootLo rootHi s := rfl
@[simp] theorem exec_wscopy (s : State) {q obn off die woff len} : exec (.wscopy q obn off die woff len) s = execWscopy q obn off die woff len s := rfl
@[simp] theorem exec_partwr (s : State) {q die entry} : exec (.partwr q die entry) s = execPartwr q die entry s := rfl
@[simp] theorem exec_vacate (s : State) {q die mask} : exec (.vacate q die mask) s = execVacate q die mask s := rfl
@[simp] theorem exec_vacateReopen (s : State) {q die mask} : exec (.vacateReopen q die mask) s = execVacateReopen q die mask s := rfl
@[simp] theorem exec_keyrel (s : State) {q blob} : exec (.keyrel q blob) s = execKeyrel q blob s := rfl
@[simp] theorem exec_keyret (s : State) {q world slot} : exec (.keyret q world slot) s = execKeyret q world slot s := rfl
@[simp] theorem exec_dbgwr (s : State) {q desc} : exec (.dbgwr q desc) s = execDbgwr q desc s := rfl
@[simp] theorem exec_stopNow (s : State) {q} : exec (.stopNow q) s = execStopNow q s := rfl
@[simp] theorem exec_stopAt (s : State) {q b ix n} : exec (.stopAt q b ix n) s = execStopAt q b ix n s := rfl
@[simp] theorem exec_view (s : State) {q b ix n image} : exec (.view q b ix n image) s = execView q b ix n image s := rfl
@[simp] theorem exec_resume (s : State) {q} : exec (.resume q) s = execResume q s := rfl
@[simp] theorem exec_fncfg (s : State) {q fn ifcs s2 remap weight} : exec (.fncfg q fn ifcs s2 remap weight) s = execFncfg q fn ifcs s2 remap weight s := rfl
@[simp] theorem exec_worldnew (s : State) {q world p0 p1 p2 p3} : exec (.worldnew q world p0 p1 p2 p3) s = execWorldnew q world p0 p1 p2 p3 s := rfl
@[simp] theorem exec_worldend (s : State) {q world} : exec (.worldend q world) s = execWorldend q world s := rfl
@[simp] theorem exec_qtrd (s : State) {q fn idx} : exec (.qtrd q fn idx) s = execQtrd q fn idx s := rfl
@[simp] theorem exec_sidebandReadIdentity (s : State) : exec .sidebandReadIdentity s = execSidebandReadIdentity s := rfl
@[simp] theorem exec_sidebandReadTelemetry (s : State) : exec .sidebandReadTelemetry s = execSidebandReadTelemetry s := rfl
@[simp] theorem exec_sidebandReadLogs (s : State) : exec .sidebandReadLogs s = execSidebandReadLogs s := rfl
@[simp] theorem exec_sidebandLeaseFloor (s : State) {watts} : exec (.sidebandLeaseFloor watts) s = execSidebandLeaseFloor watts s := rfl
@[simp] theorem exec_sidebandRetire (s : State) {die core wholeDie} : exec (.sidebandRetire die core wholeDie) s = execSidebandRetire die core wholeDie s := rfl
@[simp] theorem exec_sidebandReset (s : State) : exec .sidebandReset s = execSidebandReset s := rfl
@[simp] theorem exec_returnToService (s : State) {die step} : exec (.returnToService die step) s = execReturnToService die step s := rfl

end Sys2Proof.Machine
end

