-- ==== Sys2Proof/Laws/Tables.lean ====
section
/-!
SUPPORT. Tables, lists of lanes and byte storage: what a read gives after a write, and the canonical form.
-/

namespace Sys2Proof.Machine

/-! ### Tables -/

section
variable {α : Type}

@[simp] theorem tget?_nil (k : Nat) : tget? ([] : Tab α) k = none := rfl
@[simp] theorem tgetD_nil (k : Nat) (d : α) : tgetD ([] : Tab α) k d = d := rfl

@[simp] theorem tget?_tset_self (t : Tab α) (k : Nat) (v : α) : tget? (tset t k v) k = some v := by
  induction t with
  | nil => simp [tset, tget?]
  | cons x r ih =>
    obtain ⟨a, w⟩ := x
    simp only [tset]; split
    · simp [tget?]
    · split
      · simp [tget?]
      · have : a ≠ k := fun h => by subst h; simp_all
        simp [tget?, this, ih]

theorem tget?_tset_ne (t : Tab α) {k j : Nat} (v : α) (h : j ≠ k) : tget? (tset t k v) j = tget? t j := by
  induction t with
  | nil => simp [tset, tget?, Ne.symm h]
  | cons x r ih =>
    obtain ⟨a, w⟩ := x
    simp only [tset]; split
    · simp [tget?, Ne.symm h]
    · split
      · next h2 => subst h2; simp [tget?, Ne.symm h]
      · simp only [tget?]; split
        · rfl
        · exact ih

theorem tget?_tset (t : Tab α) (k j : Nat) (v : α) : tget? (tset t k v) j = if j = k then some v else tget? t j := by
  split
  · next h => subst h; exact tget?_tset_self t j v
  · next h => exact tget?_tset_ne t v h

@[simp] theorem tget?_tdel_self (t : Tab α) (k : Nat) : tget? (tdel t k) k = none := by
  induction t with
  | nil => rfl
  | cons x r ih =>
    obtain ⟨a, w⟩ := x
    simp only [tdel]; split
    · exact ih
    · next h => simp [tget?, h, ih]

theorem tget?_tdel_ne (t : Tab α) {k j : Nat} (h : j ≠ k) : tget? (tdel t k) j = tget? t j := by
  induction t with
  | nil => rfl
  | cons x r ih =>
    obtain ⟨a, w⟩ := x
    simp only [tdel]; split
    · next h2 => subst h2; simp [tget?, Ne.symm h, ih]
    · simp only [tget?]; split
      · rfl
      · exact ih

theorem tget?_tdel (t : Tab α) (k j : Nat) : tget? (tdel t k) j = if j = k then none else tget? t j := by
  split
  · next h => subst h; exact tget?_tdel_self t j
  · next h => exact tget?_tdel_ne t h

theorem tgetD_tset (t : Tab α) (k j : Nat) (v d : α) : tgetD (tset t k v) j d = if j = k then v else tgetD t j d := by
  unfold tgetD; rw [tget?_tset]; split <;> rfl
@[simp] theorem tgetD_tset_self (t : Tab α) (k : Nat) (v d : α) : tgetD (tset t k v) k d = v := by simp [tgetD_tset]
theorem tgetD_tset_ne (t : Tab α) {k j : Nat} (v d : α) (h : j ≠ k) : tgetD (tset t k v) j d = tgetD t j d := by
  simp [tgetD_tset, h]

theorem tget?_tmod (t : Tab α) (k j : Nat) (f : α → α) :
    tget? (tmod t k f) j = if j = k then (tget? t k).map f else tget? t j := by
  unfold tmod
  cases h : tget? t k with
  | none =>
    by_cases e : j = k
    · subst e; simp [h]
    · simp [e]
  | some v => simp only [tget?_tset, Option.map_some]
@[simp] theorem tget?_tmod_self (t : Tab α) (k : Nat) (f : α → α) : tget? (tmod t k f) k = (tget? t k).map f := by simp [tget?_tmod]
theorem tget?_tmod_ne (t : Tab α) {k j : Nat} (f : α → α) (h : j ≠ k) : tget? (tmod t k f) j = tget? t j := by simp [tget?_tmod, h]

variable [DecidableEq α]

theorem tgetD_tput (t : Tab α) (k j : Nat) (v d : α) : tgetD (tput t k v d) j d = if j = k then v else tgetD t j d := by
  unfold tput
  by_cases hv : v = d
  · rw [if_pos hv]; unfold tgetD; rw [tget?_tdel]; split
    · exact hv.symm
    · rfl
  · rw [if_neg hv, tgetD_tset]
@[simp] theorem tgetD_tput_self (t : Tab α) (k : Nat) (v d : α) : tgetD (tput t k v d) k d = v := by simp [tgetD_tput]
theorem tgetD_tput_ne (t : Tab α) {k j : Nat} (v d : α) (h : j ≠ k) : tgetD (tput t k v d) j d = tgetD t j d := by
  simp [tgetD_tput, h]
end

/-! ### Byte storage -/

theorem cellsGet_cellsPut (m : List Host.Cell) (a x : Nat) (b : Byte) :
    cellsGet (cellsPut m a b) x = if x = a then b else cellsGet m x := tgetD_tput m a x b 0#8

theorem cellsGet_cellsWrite (m : List Host.Cell) (a : Nat) (bs : List Byte) (x : Nat) :
    cellsGet (cellsWrite m a bs) x = if a ≤ x ∧ x < a + bs.length then bs.getD (x - a) 0#8 else cellsGet m x := by
  induction bs generalizing m a with
  | nil =>
    have : ¬(a ≤ x ∧ x < a + ([] : List Byte).length) := by simp only [List.length_nil]; omega
    simp only [cellsWrite, if_neg this]
  | cons b r ih =>
    simp only [cellsWrite, ih, cellsGet_cellsPut, List.length_cons]
    by_cases h : x = a
    · subst h
      have : ¬(x + 1 ≤ x ∧ x < x + 1 + r.length) := by omega
      rw [if_neg this, if_pos rfl, if_pos ⟨by omega, by omega⟩]; simp
    · by_cases h2 : a + 1 ≤ x ∧ x < a + 1 + r.length
      · rw [if_pos h2, if_pos ⟨by omega, by omega⟩]
        have : x - a = (x - (a + 1)) + 1 := by omega
        rw [this]; rfl
      · rw [if_neg h2, if_neg h, if_neg (by omega)]

/-- A byte read after a write of bytes. -/
theorem Ram.get_write (r : Ram) (a : Nat) (bs : List Byte) (x : Nat) :
    (r.write a bs).get x = if a ≤ x ∧ x < a + bs.length then bs.getD (x - a) 0#8 else r.get x :=
  cellsGet_cellsWrite r.bytes a bs x

theorem Ram.get_writeCap (r : Ram) (a : Nat) (bs : List Byte) (t : Bool) (x : Nat) :
    (r.writeCap a bs t).get x = (r.write a bs).get x := by unfold Ram.writeCap; split <;> rfl

theorem mem_granules {a n g : Nat} (h : g ∈ granules a n) : a / 16 ≤ g := by
  unfold granules at h; split at h
  · simp at h
  · simp at h; omega

/-- A write clears the tags of the granules it touches (R101). -/
theorem Ram.tag_write (r : Ram) (a : Nat) (bs : List Byte) (x : Nat) :
    (r.write a bs).tag x = (r.tag x && !(granules a bs.length).contains (x / 16)) := by
  unfold Ram.tag Ram.write
  by_cases h : x / 16 ∈ granules a bs.length
  · simp [List.contains_iff_mem, List.mem_filter, h]
  · simp [List.contains_iff_mem, List.mem_filter, h]

/-! ### The canonical form -/

/-- No key of a table lies below a. -/
def above {α : Type} (a : Nat) (t : Tab α) : Prop := ∀ x ∈ t, a < x.1

theorem cellsWf_cons {a : Nat} {b : Byte} {r : List Host.Cell} : cellsWf ((a, b) :: r) = true ↔ b ≠ 0#8 ∧ above a r ∧ cellsWf r = true := by
  induction r generalizing a b with
  | nil => simp [cellsWf, above]
  | cons x r ih =>
    obtain ⟨a', b'⟩ := x
    constructor
    · intro h
      simp only [cellsWf, Bool.and_eq_true, bne_iff_ne, ne_eq, decide_eq_true_eq] at h
      obtain ⟨⟨hb, ha⟩, hr⟩ := h
      refine ⟨hb, ?_, hr⟩
      have := (ih.mp hr).2.1
      intro y hy
      rcases List.mem_cons.mp hy with rfl | hy
      · exact ha
      · exact Nat.lt_trans ha (this y hy)
    · rintro ⟨hb, ha, hr⟩
      simp only [cellsWf, Bool.and_eq_true, bne_iff_ne, ne_eq, decide_eq_true_eq]
      exact ⟨⟨hb, ha _ (List.mem_cons_self ..)⟩, hr⟩

theorem above_tdel {α : Type} {a : Nat} {t : Tab α} (k : Nat) (h : above a t) : above a (tdel t k) := by
  induction t with
  | nil => exact h
  | cons x r ih =>
    obtain ⟨c, w⟩ := x
    have hr : above a r := fun y hy => h y (List.mem_cons_of_mem _ hy)
    simp only [tdel]; split
    · exact ih hr
    · intro y hy
      rcases List.mem_cons.mp hy with rfl | hy
      · exact h _ (List.mem_cons_self ..)
      · exact ih hr y hy

theorem above_tset {α : Type} {a : Nat} {t : Tab α} (k : Nat) (v : α) (hk : a < k) (h : above a t) : above a (tset t k v) := by
  induction t with
  | nil => intro y hy; simp [tset] at hy; subst hy; exact hk
  | cons x r ih =>
    obtain ⟨c, w⟩ := x
    have hr : above a r := fun y hy => h y (List.mem_cons_of_mem _ hy)
    simp only [tset]; split
    · intro y hy
      rcases List.mem_cons.mp hy with rfl | hy
      · exact hk
      · exact h y hy
    · split
      · intro y hy
        rcases List.mem_cons.mp hy with rfl | hy
        · exact hk
        · exact hr y hy
      · intro y hy
        rcases List.mem_cons.mp hy with rfl | hy
        · exact h _ (List.mem_cons_self ..)
        · exact ih hr y hy

theorem cellsWf_tdel {m : List Host.Cell} (k : Nat) (h : cellsWf m = true) : cellsWf (tdel m k) = true := by
  induction m with
  | nil => rfl
  | cons x r ih =>
    obtain ⟨c, w⟩ := x
    have h' := cellsWf_cons.mp h
    simp only [tdel]; split
    · exact ih h'.2.2
    · exact cellsWf_cons.mpr ⟨h'.1, above_tdel k h'.2.1, ih h'.2.2⟩

theorem cellsWf_tset {m : List Host.Cell} (k : Nat) (b : Byte) (hb : b ≠ 0#8) (h : cellsWf m = true) : cellsWf (tset m k b) = true := by
  induction m with
  | nil => simp [tset, cellsWf, hb]
  | cons x r ih =>
    obtain ⟨c, w⟩ := x
    have h' := cellsWf_cons.mp h
    simp only [tset]; split
    · next hk =>
      refine cellsWf_cons.mpr ⟨hb, ?_, h⟩
      intro y hy
      rcases List.mem_cons.mp hy with rfl | hy
      · exact hk
      · exact Nat.lt_trans hk (h'.2.1 y hy)
    · split
      · next hk => subst hk; exact cellsWf_cons.mpr ⟨hb, h'.2.1, h'.2.2⟩
      · exact cellsWf_cons.mpr ⟨h'.1, above_tset k b (by omega) h'.2.1, ih h'.2.2⟩

/-- Writing a byte keeps the canonical form. -/
theorem cellsWf_cellsPut {m : List Host.Cell} (a : Nat) (b : Byte) (h : cellsWf m = true) : cellsWf (cellsPut m a b) = true := by
  unfold cellsPut tput; split
  · exact cellsWf_tdel a h
  · next hb => exact cellsWf_tset a b hb h

/-- Writing bytes keeps the canonical form. -/
theorem cellsWf_cellsWrite {m : List Host.Cell} (a : Nat) (bs : List Byte) (h : cellsWf m = true) : cellsWf (cellsWrite m a bs) = true := by
  induction bs generalizing m a with
  | nil => exact h
  | cons b r ih => exact ih (a + 1) (cellsWf_cellsPut a b h)

theorem cellsWf_write {r : Ram} (a : Nat) (bs : List Byte) (h : cellsWf r.bytes = true) : cellsWf (r.write a bs).bytes = true :=
  cellsWf_cellsWrite a bs h

theorem cellsWf_writeCap {r : Ram} (a : Nat) (bs : List Byte) (t : Bool) (h : cellsWf r.bytes = true) :
    cellsWf (r.writeCap a bs t).bytes = true := by unfold Ram.writeCap; split <;> exact cellsWf_write a bs h

theorem cellsWf_clearTag {r : Ram} (g : Nat) (h : cellsWf r.bytes = true) : cellsWf (r.clearTag g).bytes = true := h

end Sys2Proof.Machine
end

