-- ==== Sys2Proof/Laws/Frame.lean ====
section
/-!
SUPPORT. What the shared operations of every word leave as it was: charging, retiring, writing a group.
-/

namespace Sys2Proof.Machine

/-! ### Outside -/

theorem outside_refl (s : State) : outside s s := ⟨rfl, fun _ => rfl, fun _ => rfl, fun _ => rfl, fun _ => rfl⟩

theorem outside_trans {s t u : State} (h : outside s t) (h' : outside t u) : outside s u :=
  ⟨h'.1.trans h.1, fun b => (h'.2.1 b).trans (h.2.1 b), fun p => (h'.2.2.1 p).trans (h.2.2.1 p),
    fun w => (h'.2.2.2.1 w).trans (h.2.2.2.1 w), fun l => (h'.2.2.2.2 l).trans (h.2.2.2.2 l)⟩

theorem outside_ite {p : Prop} [Decidable p] {s a b : State} (ha : outside s a) (hb : outside s b) : outside s (if p then a else b) := by
  split
  · exact ha
  · exact hb

theorem rest_mem {s t : State} (h : t.rest = s.rest) : t.mem = s.mem :=
  (congrArg State.mem h : t.rest.mem = s.rest.mem)
theorem rest_dies {s t : State} (h : t.rest = s.rest) : t.dies = s.dies :=
  (congrArg State.dies h : t.rest.dies = s.rest.dies)

/-- What lies outside keeps every byte. -/
theorem outside_bytes {s t : State} (h : outside s t) : bytesKept s t := by
  intro a
  cases a with
  | hbm a => simp only [State.byteAt]; rw [rest_mem h.1]
  | ws d a => simp only [State.byteAt, State.die]; rw [rest_dies h.1]
  | spm b a =>
    have hb := h.2.1 b
    simp only [State.byteAt, blockSpm]
    cases h1 : tget? t.blocks b <;> cases h2 : tget? s.blocks b <;> rw [h1, h2] at hb <;> simp at hb
    · next x y =>
      have h3 : x.noRc.spm = y.noRc.spm := congrArg Block.spm hb
      exact congrArg (fun m => Ram.get m a) h3

@[simp] theorem groups_modCtx (s : State) (p : Nat) (f : Ctx → Ctx) : (s.modCtx p f).groups = s.groups := rfl
@[simp] theorem groups_modWorld (s : State) (p : Nat) (f : World → World) : (s.modWorld p f).groups = s.groups := rfl
@[simp] theorem groups_modLaunch (s : State) (p : Nat) (f : Launch → Launch) : (s.modLaunch p f).groups = s.groups := rfl
@[simp] theorem groups_modBlock (s : State) (p : Nat) (f : Block → Block) : (s.modBlock p f).groups = s.groups := rfl

theorem outside_modGroup (s : State) (b g : Nat) (f : Group → Group) : outside s (s.modGroup b g f) :=
  ⟨rfl, fun _ => rfl, fun _ => rfl, fun _ => rfl, fun _ => rfl⟩

theorem outside_modCtx (s : State) (p : Nat) (f : Ctx → Ctx) (h : ∀ c, (f c).noMeter = c.noMeter) : outside s (s.modCtx p f) := by
  refine ⟨rfl, fun _ => rfl, fun q => ?_, fun _ => rfl, fun _ => rfl⟩
  simp only [State.modCtx, tget?_tmod]
  split
  · next e => subst e; cases tget? s.ctxs q <;> simp [h]
  · rfl
theorem outside_modWorld (s : State) (p : Nat) (f : World → World) (h : ∀ c, (f c).noMeter = c.noMeter) : outside s (s.modWorld p f) := by
  refine ⟨rfl, fun _ => rfl, fun _ => rfl, fun q => ?_, fun _ => rfl⟩
  simp only [State.modWorld, tget?_tmod]
  split
  · next e => subst e; cases tget? s.worlds q <;> simp [h]
  · rfl
theorem outside_modLaunch (s : State) (p : Nat) (f : Launch → Launch) (h : ∀ c, (f c).noEnergy = c.noEnergy) : outside s (s.modLaunch p f) := by
  refine ⟨rfl, fun _ => rfl, fun _ => rfl, fun _ => rfl, fun q => ?_⟩
  simp only [State.modLaunch, tget?_tmod]
  split
  · next e => subst e; cases tget? s.launches q <;> simp [h]
  · rfl
theorem outside_modBlock (s : State) (p : Nat) (f : Block → Block) (h : ∀ c, (f c).noRc = c.noRc) : outside s (s.modBlock p f) := by
  refine ⟨rfl, fun q => ?_, fun _ => rfl, fun _ => rfl, fun _ => rfl⟩
  simp only [State.modBlock, tget?_tmod]
  split
  · next e => subst e; cases tget? s.blocks q <;> simp [h]
  · rfl

/-! ### Charging (R298 to R300) -/

theorem outside_adjust (s : State) (p la : Nat) (amt : Int) : outside s (adjust s p la amt) := by
  unfold adjust
  have h1 := outside_modCtx s p (fun c => { c with level := c.level - amt, meter := c.meter + amt }) fun c => rfl
  dsimp only
  split
  · exact outside_trans h1 (outside_trans (outside_modWorld _ _ _ (by intro _; rfl)) (outside_modLaunch _ _ _ (by intro _; rfl)))
  · exact outside_trans h1 (outside_modLaunch _ _ _ (by intro _; rfl))

theorem groups_adjust (s : State) (p la : Nat) (amt : Int) : (adjust s p la amt).groups = s.groups := by
  unfold adjust; dsimp only; split <;> rfl

theorem outside_applyCharge (s : State) (d p la n : Nat) : outside s (applyCharge s ⟨d, some p, la, n⟩) := by
  unfold applyCharge
  split
  · exact outside_refl s
  · have h0 : outside s { s with energy := { s.energy with now := addCharge s.energy.now ⟨d, some p, la, n⟩ } } :=
      ⟨rfl, fun _ => rfl, fun _ => rfl, fun _ => rfl, fun _ => rfl⟩
    exact outside_trans h0 (outside_trans (outside_modWorld _ _ _ (by intro _; rfl)) (outside_adjust _ _ _ _))

theorem groups_applyCharge (s : State) (d p la n : Nat) : (applyCharge s ⟨d, some p, la, n⟩).groups = s.groups := by
  unfold applyCharge
  split
  · rfl
  · exact groups_adjust _ _ _ _

theorem outside_charge (s : State) (die cls n p la : Nat) : outside s (charge s die cls n (some p) la) := outside_applyCharge ..
theorem groups_charge (s : State) (die cls n p la : Nat) : (charge s die cls n (some p) la).groups = s.groups := groups_applyCharge ..

theorem outside_chargeWord (cls : Nat) (per : Per) (s : State) : outside s (chargeWord cls per s) := by
  unfold chargeWord
  split
  · exact outside_refl s
  · split
    · exact outside_refl s
    · split
      · exact outside_refl s
      · have h0 : ∀ u : State, outside u { u with free := u.free + 1 } :=
          fun u => ⟨rfl, fun _ => rfl, fun _ => rfl, fun _ => rfl, fun _ => rfl⟩
        exact outside_ite (outside_charge ..) (outside_trans (outside_charge ..) (outside_trans (h0 _) (outside_charge ..)))

theorem groups_chargeWord (cls : Nat) (per : Per) (s : State) : (chargeWord cls per s).groups = s.groups := by
  unfold chargeWord
  split
  · rfl
  · split
    · rfl
    · split
      · rfl
      · rw [apply_ite State.groups, groups_charge, groups_charge]
        exact ite_self _

/-! ### Groups -/

theorem groupsKept_refl (f : Group → Group) (s : State) : groupsKept f s s := fun _ => rfl
theorem groupsKept_trans {f : Group → Group} {s t u : State} (h : groupsKept f s t) (h' : groupsKept f t u) : groupsKept f s u :=
  fun k => (h' k).trans (h k)
theorem groupsKept_of_eq {f : Group → Group} {s t : State} (h : t.groups = s.groups) : groupsKept f s t := fun k => by rw [h]

theorem groupsKept_modGroup (f : Group → Group) (s : State) (b g : Nat) (h : Group → Group) (hf : ∀ G, f (h G) = f G) :
    groupsKept f s (s.modGroup b g h) := by
  intro k
  simp only [State.modGroup, tget?_tmod]
  split
  · next e => subst e; cases tget? s.groups _ <;> simp [hf]
  · rfl

/-- Coarser views follow. -/
theorem groupsKept_map {f : Group → Group} (h : Group → Group) {s t : State} (hk : groupsKept f s t) : groupsKept (fun G => h (f G)) s t := by
  intro k
  have := congrArg (Option.map h) (hk k)
  simpa [Option.map_map, Function.comp_def] using this

theorem noPos_setIssuer (G : Group) (k : Nat) (i : Issuer) (h : k = 0 → i.lanes = G.stream.lanes ∧ i.buf = G.stream.buf) :
    (G.setIssuer k i).noPos = G.noPos := by
  cases k with
  | zero => simp [Group.setIssuer, Group.noPos, (h rfl).1, (h rfl).2]
  | succ l => rfl

theorem noPos_modIssuer (s : State) (r : IRef) (f : Issuer → Issuer) (h : ∀ i, (f i).lanes = i.lanes ∧ (f i).buf = i.buf) :
    groupsKept Group.noPos s (s.modIssuer r f) := by
  refine groupsKept_modGroup _ _ _ _ _ fun G => ?_
  cases hi : G.issuer? r.iss with
  | none => simp
  | some i =>
    simp
    refine noPos_setIssuer G r.iss (f i) fun e => ?_
    rw [e] at hi; simp [Group.issuer?] at hi; subst hi; exact h _

theorem outside_modIssuer (s : State) (r : IRef) (f : Issuer → Issuer) : outside s (s.modIssuer r f) := outside_modGroup ..

theorem past_lanes (i : Issuer) (k : Nat) : (i.past k).lanes = i.lanes := by
  unfold Issuer.past; split
  · split <;> rfl
  · rfl

theorem past_buf (i : Issuer) (k : Nat) : (i.past k).buf = i.buf := by
  unfold Issuer.past; split
  · split <;> rfl
  · rfl

theorem foldl_outside {α : Type} (l : List α) (f : State → α → State) (hf : ∀ s a, outside s (f s a)) (s : State) :
    outside s (l.foldl f s) := by
  induction l generalizing s with
  | nil => exact outside_refl s
  | cons a r ih => exact outside_trans (hf s a) (ih _)

theorem foldl_groupsKept {α : Type} {g : Group → Group} (l : List α) (f : State → α → State)
    (hf : ∀ s a, groupsKept g s (f s a)) (s : State) : groupsKept g s (l.foldl f s) := by
  induction l generalizing s with
  | nil => exact groupsKept_refl g s
  | cons a r ih => exact groupsKept_trans (hf s a) (ih _)

/-! ### Retiring -/

theorem outside_retire (s : State) : outside s (retire s) := by
  unfold retire
  split
  · exact outside_refl s
  · next c hc =>
    have h1 := foldl_outside c.arr (fun s r => s.modIssuer r fun i => i.past c.k) (fun s r => outside_modIssuer s r _) s
    refine outside_trans h1 ?_
    have h2 : ∀ (u : State) (n : Nat), outside u { bumpRc u c.blk n with cur := none } := by
      intro u n
      have h3 := outside_modBlock u c.blk (fun B => { B with rc := min (B.rc + n) (2 ^ 32 - 1) }) fun _ => rfl
      exact outside_trans h3 ⟨rfl, fun _ => rfl, fun _ => rfl, fun _ => rfl, fun _ => rfl⟩
    exact h2 _ _

theorem noPos_retire (s : State) : groupsKept Group.noPos s (retire s) := by
  unfold retire
  split
  · exact groupsKept_refl _ s
  · next c hc =>
    refine groupsKept_trans (foldl_groupsKept c.arr (fun s r => s.modIssuer r fun i => i.past c.k)
      (fun s r => noPos_modIssuer s r _ fun i => ⟨past_lanes i c.k, past_buf i c.k⟩) s) ?_
    exact groupsKept_of_eq rfl

@[simp] theorem cur_retire (s : State) : (retire s).cur = none := by
  unfold retire; split
  · next h => exact h
  · rfl

/-- Charging and retiring. -/
theorem done_eq (cls : Nat) (per : Per) (s : State) : done cls per s = .next (retire (chargeWord cls per s)) := rfl

theorem outside_done (cls : Nat) (per : Per) (s : State) : outside s (retire (chargeWord cls per s)) :=
  outside_trans (outside_chargeWord cls per s) (outside_retire _)

theorem noPos_done (cls : Nat) (per : Per) (s : State) : groupsKept Group.noPos s (retire (chargeWord cls per s)) :=
  groupsKept_trans (groupsKept_of_eq (groups_chargeWord cls per s)) (noPos_retire _)

/-- A read that positions do not change. -/
theorem read_noPos {α : Type} (f : Group → α) (hf : ∀ G, f G.noPos = f G) {s t : State} (h : groupsKept Group.noPos s t) (k : Nat) :
    (tget? t.groups k).map f = (tget? s.groups k).map f := by
  have h1 := congrArg (Option.map f) (h k)
  simpa [Option.map_map, Function.comp_def, hf] using h1

theorem sAt_noPos {s t : State} (h : groupsKept Group.noPos s t) (k r : Nat) : t.sAt k r = s.sAt k r := by
  unfold State.sAt; rw [read_noPos (fun G => G.sreg r) (fun G => rfl) h k]
theorem sTagAt_noPos {s t : State} (h : groupsKept Group.noPos s t) (k n : Nat) : t.sTagAt k n = s.sTagAt k n := by
  unfold State.sTagAt; rw [read_noPos (fun G => G.st.contains n) (fun G => rfl) h k]
theorem pAt_noPos {s t : State} (h : groupsKept Group.noPos s t) (k r : Nat) : t.pAt k r = s.pAt k r := by
  unfold State.pAt; rw [read_noPos (fun G => tgetD G.p r 0#64) (fun G => rfl) h k]
theorem qAt_noPos {s t : State} (h : groupsKept Group.noPos s t) (k r : Nat) : t.qAt k r = s.qAt k r := by
  unfold State.qAt; rw [read_noPos (fun G => G.q.getLsbD r) (fun G => rfl) h k]
theorem tagAt_noPos {s t : State} (h : groupsKept Group.noPos s t) (k q l : Nat) : t.tagAt k q l = s.tagAt k q l := by
  unfold State.tagAt; rw [read_noPos (fun G => G.vtag q l) (fun G => rfl) h k]
theorem cellAt_noPos {s t : State} (h : groupsKept Group.noPos s t) (k r l : Nat) : t.cellAt k r l = s.cellAt k r l := by
  unfold State.cellAt
  have := read_noPos (fun G => G.cell r l) (fun G => rfl) h k
  cases h1 : tget? t.groups k <;> cases h2 : tget? s.groups k <;> rw [h1, h2] at this <;> simp_all

end Sys2Proof.Machine
end

