-- ==== Sys2Proof/Laws/Uni.lean ====
section
/-!
SUPPORT. Everything a uniform instruction does (R58, R151, R181, R182): the shared operations uniOp and uniPredOp.
-/

namespace Sys2Proof.Machine

/-! ### One group -/

@[simp] theorem sreg_putS_self (G : Group) (r : Nat) (v : DWord) : (G.putS r v).sreg r = v := by simp [Group.putS, Group.sreg]
theorem sreg_putS_ne (G : Group) {r q : Nat} (v : DWord) (h : q ≠ r) : (G.putS r v).sreg q = G.sreg q := by
  simp [Group.putS, Group.sreg, tgetD_tput_ne _ _ _ h]
theorem sreg_putS (G : Group) (r q : Nat) (v : DWord) : (G.putS r v).sreg q = if q = r then v else G.sreg q := by
  split
  · next h => subst h; simp
  · next h => exact sreg_putS_ne G v h
theorem st_putS (G : Group) (r n : Nat) (v : DWord) : (G.putS r v).st.contains n = (G.st.contains n && n != r / 2) := by
  simp only [Group.putS]
  by_cases h : n = r / 2
  · subst h; simp
  · have : (n != r / 2) = true := by simpa using h
    rw [this, Bool.and_true, Bool.eq_iff_iff]
    simp [List.mem_filter, h]
@[simp] theorem sreg_setS_self (G : Group) (r : Nat) (v : DWord) : (G.setS r v).sreg r = v := sreg_putS_self G r v
theorem sreg_setS_ne (G : Group) {r q : Nat} (v : DWord) (h : q ≠ r) : (G.setS r v).sreg q = G.sreg q := sreg_putS_ne G v h
theorem st_setS (G : Group) (r n : Nat) (v : DWord) : (G.setS r v).st.contains n = (G.st.contains n && n != r / 2) := st_putS G r n v
@[simp] theorem noS_setS (G : Group) (r : Nat) (v : DWord) : (G.setS r v).noS = G.noS := rfl
@[simp] theorem noS_putS (G : Group) (r : Nat) (v : DWord) : (G.putS r v).noS = G.noS := rfl
@[simp] theorem noS_putQ (G : Group) (r : BitVec 3) (v : Bool) : ({ (G.putQ r v).noS with q := 0#8 } : Group) = { G.noS with q := 0#8 } := rfl

/-- The registers that last-use sources of one register each free. -/
def freedOne (srcs : List RSrc) (r : Nat) : Prop := ∃ x ∈ srcs, x.last = true ∧ x.n.toNat = r

theorem freeOne_step (G : Group) (x : RSrc) :
    (List.range 1).foldl (fun G j => Group.putS G (x.n.toNat + j) 0#64) G = G.putS x.n.toNat 0#64 := by simp [List.range_succ]

/-- A group after its last-use sources are freed. -/
def freeGroup (srcs : List RSrc) (G : Group) : Group :=
  ((srcs.map fun r => (r, 1)).filter fun r => r.1.last).foldl
    (fun G (r : RSrc × Nat) => (List.range r.2).foldl (fun G j => Group.putS G (r.1.n.toNat + j) 0#64) G) G

theorem freeGroup_cons (x : RSrc) (srcs : List RSrc) (G : Group) :
    freeGroup (x :: srcs) G = freeGroup srcs (if x.last then G.putS x.n.toNat 0#64 else G) := by
  unfold freeGroup
  cases h : x.last <;> simp [h, List.range_succ]

theorem freeGroup_spec (srcs : List RSrc) (G : Group) :
    (freeGroup srcs G).noS = G.noS ∧
    (∀ r, freedOne srcs r → (freeGroup srcs G).sreg r = 0#64) ∧
    (∀ r, ¬freedOne srcs r → (freeGroup srcs G).sreg r = G.sreg r) ∧
    (∀ n, (∃ r, r / 2 = n ∧ freedOne srcs r) → (freeGroup srcs G).st.contains n = false) ∧
    (∀ n, ¬(∃ r, r / 2 = n ∧ freedOne srcs r) → (freeGroup srcs G).st.contains n = G.st.contains n) := by
  induction srcs generalizing G with
  | nil => exact ⟨rfl, fun r h => by simp [freedOne] at h, fun _ _ => rfl, fun n h => by simp [freedOne] at h, fun _ _ => rfl⟩
  | cons x r ih =>
    rw [freeGroup_cons]
    obtain ⟨h1, h2, h3, h4, h5⟩ := ih (if x.last then G.putS x.n.toNat 0#64 else G)
    have key : ∀ q, freedOne (x :: r) q ↔ (x.last = true ∧ x.n.toNat = q) ∨ freedOne r q := by
      intro q; simp [freedOne]
    refine ⟨?_, ?_, ?_, ?_, ?_⟩
    · rw [h1]; split <;> simp
    · intro q hq
      by_cases hr : freedOne r q
      · exact h2 q hr
      · rw [h3 q hr]
        rcases (key q).mp hq with ⟨hl, hn⟩ | h
        · rw [if_pos hl, ← hn]; simp
        · exact absurd h hr
    · intro q hq
      have hq' : ¬(x.last = true ∧ x.n.toNat = q) ∧ ¬freedOne r q := by
        constructor
        · intro h; exact hq ((key q).mpr (.inl h))
        · intro h; exact hq ((key q).mpr (.inr h))
      rw [h3 q hq'.2]
      split
      · next hl => exact sreg_putS_ne _ _ fun e => hq'.1 ⟨hl, e.symm⟩
      · rfl
    · rintro n ⟨q, rfl, hq⟩
      by_cases hr : ∃ q', q' / 2 = q / 2 ∧ freedOne r q'
      · exact h4 _ hr
      · rw [h5 _ hr]
        rcases (key q).mp hq with ⟨hl, hn⟩ | h
        · rw [if_pos hl, st_putS, hn]; simp
        · exact absurd ⟨q, rfl, h⟩ hr
    · intro n hn
      have hn' : ¬(x.last = true ∧ x.n.toNat / 2 = n) ∧ ¬∃ q, q / 2 = n ∧ freedOne r q := by
        constructor
        · rintro ⟨hl, e⟩; exact hn ⟨_, e, (key _).mpr (.inl ⟨hl, rfl⟩)⟩
        · rintro ⟨q, e, h⟩; exact hn ⟨q, e, (key _).mpr (.inr h)⟩
      rw [h5 n hn'.2]
      split
      · next hl =>
        rw [st_putS]
        have : (n != x.n.toNat / 2) = true := by simp; exact fun e => hn'.1 ⟨hl, e.symm⟩
        rw [this, Bool.and_true]
      · rfl

theorem freeS_one (s : State) (c : Cur) (srcs : List RSrc) (he : c.empty = false) :
    freeS s c (srcs.map fun r => (r, 1)) = s.modGroup c.blk c.lead (freeGroup srcs) := by
  unfold freeS; rw [if_neg (by simp [he])]; rfl

/-! ### A write to every live group -/

theorem foldl_modGroup_groups (s : State) (b : Nat) (gs : List Nat) (f : Group → Group) (hf : ∀ G, f (f G) = f G) (k : Nat) :
    tget? (gs.foldl (fun s g => s.modGroup b g f) s).groups k =
      if k ∈ gs.map (gkey b) then (tget? s.groups k).map f else tget? s.groups k := by
  induction gs generalizing s with
  | nil => rfl
  | cons g r ih =>
    simp only [List.foldl_cons, ih]
    have h0 : tget? (s.modGroup b g f).groups k = if k = gkey b g then (tget? s.groups k).map f else tget? s.groups k := by
      simp only [State.modGroup, tget?_tmod]
      split
      · next e => rw [e]
      · rfl
    rw [h0]
    by_cases h1 : k ∈ r.map (gkey b)
    · have h3 : k ∈ (g :: r).map (gkey b) := by rw [List.map_cons]; exact List.mem_cons_of_mem _ h1
      rw [if_pos h1, if_pos h3]
      by_cases h2 : k = gkey b g
      · rw [if_pos h2, Option.map_map]; congr 1; funext G; exact hf G
      · rw [if_neg h2]
    · rw [if_neg h1]
      by_cases h2 : k = gkey b g
      · rw [if_pos h2, if_pos (by simp [h2])]
      · rw [if_neg h2, if_neg (by simp only [List.map_cons, List.mem_cons, not_or]; exact ⟨h2, h1⟩)]

theorem setS_idem (r : Nat) (v : DWord) (G : Group) : (G.setS r v).setS r v = G.setS r v := by
  have h1 : ∀ (t : Tab DWord), tset (tset t r v) r v = tset t r v := by
    intro t
    induction t with
    | nil => simp [tset]
    | cons x t ih =>
      obtain ⟨a, w⟩ := x
      simp only [tset]; split
      · simp [tset]
      · split
        · simp [tset]
        · next h1 h2 => simp [tset, h1, h2, ih]
  have h2 : ∀ (t : Tab DWord), tdel (tdel t r) r = tdel t r := by
    intro t
    induction t with
    | nil => rfl
    | cons x t ih =>
      obtain ⟨a, w⟩ := x
      simp only [tdel]; split
      · exact ih
      · next h => simp [tdel, h, ih]
  simp only [Group.setS, Group.putS, tput]
  split <;> simp [h1, h2, BitVec.or_assoc]

theorem putQ_idem (d : BitVec 3) (v : Bool) (G : Group) : (G.putQ d v).putQ d v = G.putQ d v := by
  cases v
  · simp only [Group.putQ, Bool.false_eq_true, if_false, BitVec.and_assoc, BitVec.and_self]
  · simp only [Group.putQ, if_true, BitVec.or_assoc, BitVec.or_self]

theorem q_putQ (G : Group) (d : BitVec 3) (v : Bool) (n : Nat) (hn : n < 8) :
    (G.putQ d v).q.getLsbD n = if n = d.toNat then v else G.q.getLsbD n := by
  have hb : ∀ (d : BitVec 3), ∀ n, n < 8 → (BitVec.ofNat 8 (2 ^ d.toNat)).getLsbD n = decide (n = d.toNat) := by decide
  have hbd := hb d n hn
  cases v
  · simp only [Group.putQ, Bool.false_eq_true, if_false, BitVec.getLsbD_and, BitVec.getLsbD_not, hbd, hn]
    by_cases h : n = d.toNat <;> simp [h]
  · simp only [Group.putQ, if_true, BitVec.getLsbD_or, hbd]
    by_cases h : n = d.toNat <;> simp [h]

theorem st_contains_map {s t : State} {f : Group → Group} {k : Nat} (h : tget? t.groups k = (tget? s.groups k).map f) :
    t.sTagAt k = fun n => ((tget? s.groups k).map fun G => (f G).st.contains n).getD false := by
  funext n; unfold State.sTagAt; rw [h, Option.map_map]; rfl

/-- Everything a uniform instruction with one destination register does. -/
theorem uniOp_done (cls : Nat) (d : BitVec 6) (srcs : List RSrc) (f : Group → List DWord → DWord) {s : State} {c : Cur} {G : Group}
    (hc : s.cur = some c) (he : c.empty = false) (hG : s.grp? c.blk c.lead = some G) :
    ∃ t, uniOp cls d srcs f s = .next t ∧ uniDone s t c srcs d.toNat (f G (srcs.map fun r => c.src s r)) := by
  generalize hv : f G (srcs.map fun r => c.src s r) = v
  let u := putUni (s.modGroup c.blk c.lead (freeGroup srcs)) c d v
  have hu : uniOp cls d srcs f s = .next (retire (chargeWord cls .issue u)) := by
    unfold uniOp; rw [hc]; simp only [he, hG, Bool.false_eq_true, if_false]
    rw [freeS_one s c srcs he, hv]; rfl
  refine ⟨_, hu, ?_⟩
  have hn : groupsKept Group.noPos u (retire (chargeWord cls .issue u)) := noPos_done cls .issue u
  have ho : outside s u := by
    refine outside_trans (outside_modGroup s c.blk c.lead (freeGroup srcs)) ?_
    exact foldl_outside _ _ (fun s g => outside_modGroup ..) _
  have hk : ∀ k, tget? u.groups k = if k ∈ c.keys then (tget? (s.modGroup c.blk c.lead (freeGroup srcs)).groups k).map (fun G => G.setS d.toNat v)
      else tget? (s.modGroup c.blk c.lead (freeGroup srcs)).groups k := by
    intro k
    exact foldl_modGroup_groups _ _ _ _ (setS_idem d.toNat v) k
  have hk1 : ∀ k, tget? (s.modGroup c.blk c.lead (freeGroup srcs)).groups k =
      if k = gkey c.blk c.lead then (tget? s.groups k).map (freeGroup srcs) else tget? s.groups k := by
    intro k; simp only [State.modGroup, tget?_tmod]
    split
    · next e => rw [e]
    · rfl
  have hs1 : ∀ k r, (s.modGroup c.blk c.lead (freeGroup srcs)).sAt k r =
      if k = gkey c.blk c.lead then ((tget? s.groups k).map fun G => (freeGroup srcs G).sreg r).getD 0#64 else s.sAt k r := by
    intro k r; unfold State.sAt; rw [hk1]; split
    · rw [Option.map_map]; rfl
    · rfl
  have ht1 : ∀ k n, (s.modGroup c.blk c.lead (freeGroup srcs)).sTagAt k n =
      if k = gkey c.blk c.lead then ((tget? s.groups k).map fun G => (freeGroup srcs G).st.contains n).getD false else s.sTagAt k n := by
    intro k n; unfold State.sTagAt; rw [hk1]; split
    · rw [Option.map_map]; rfl
    · rfl
  have hs2 : ∀ k r, u.sAt k r = if k ∈ c.keys ∧ r = d.toNat then (if (tget? s.groups k).isSome then v else 0#64)
      else (s.modGroup c.blk c.lead (freeGroup srcs)).sAt k r := by
    intro k r; unfold State.sAt; rw [hk]
    by_cases h : k ∈ c.keys
    · rw [if_pos h, Option.map_map]
      have hi : (tget? (s.modGroup c.blk c.lead (freeGroup srcs)).groups k).isSome = (tget? s.groups k).isSome := by
        rw [hk1]; split <;> simp
      by_cases hr : r = d.toNat
      · rw [if_pos ⟨h, hr⟩, ← hi]
        cases tget? (s.modGroup c.blk c.lead (freeGroup srcs)).groups k <;> simp [hr]
      · rw [if_neg (by simp [hr])]
        cases tget? (s.modGroup c.blk c.lead (freeGroup srcs)).groups k <;> simp [sreg_setS_ne _ _ hr]
    · rw [if_neg h, if_neg (by simp [h])]
  have ht2 : ∀ k n, u.sTagAt k n = ((s.modGroup c.blk c.lead (freeGroup srcs)).sTagAt k n && !(decide (k ∈ c.keys) && n == d.toNat / 2)) := by
    intro k n; unfold State.sTagAt; rw [hk]
    by_cases h : k ∈ c.keys
    · rw [if_pos h, Option.map_map]
      cases tget? (s.modGroup c.blk c.lead (freeGroup srcs)).groups k with
      | none => simp
      | some G => simp only [Option.map_some, Option.getD_some, Function.comp, st_setS, h, decide_true, Bool.true_and]; rfl
    · rw [if_neg h]; simp [h]
  have hspec := fun G => freeGroup_spec srcs G
  refine ⟨cur_retire _, outside_trans ho (outside_done ..), outside_bytes (outside_trans ho (outside_done ..)), ?_, ?_, ?_, ?_, ?_, ?_⟩
  · refine groupsKept_trans ?_ (groupsKept_map (fun G => { G with s := [], st := [] }) hn)
    refine groupsKept_trans (groupsKept_modGroup _ s c.blk c.lead (freeGroup srcs) fun G => (hspec G).1) ?_
    exact foldl_groupsKept _ _ (fun s g => groupsKept_modGroup _ _ _ _ _ fun G => noS_setS ..) _
  · intro k hk3 hsome
    rw [sAt_noPos hn, hs2, if_pos ⟨hk3, rfl⟩, if_pos hsome]
  · rintro k n ⟨r, rfl, hr⟩
    rw [sTagAt_noPos hn, ht2]
    rcases hr with ⟨rfl, hr⟩ | ⟨hk3, rfl⟩
    · rw [ht1, if_pos rfl]
      cases hg : tget? s.groups (gkey c.blk c.lead) with
      | none => rfl
      | some G => simp only [Option.map_some, Option.getD_some]; rw [(hspec G).2.2.2.1 _ ⟨r, rfl, hr⟩]; rfl
    · simp [hk3]
  · intro k n hkn
    rw [sTagAt_noPos hn, ht2]
    have h1 : (decide (k ∈ c.keys) && n == d.toNat / 2) = false := by
      by_contra hcon
      simp only [Bool.not_eq_false, Bool.and_eq_true, decide_eq_true_eq, beq_iff_eq] at hcon
      exact hkn ⟨d.toNat, hcon.2.symm, .inr ⟨hcon.1, rfl⟩⟩
    rw [h1, ht1]
    split
    · next e =>
      unfold State.sTagAt
      cases hg : tget? s.groups k with
      | none => rfl
      | some G =>
        simp only [Option.map_some, Option.getD_some, Bool.not_false, Bool.and_true]
        exact (hspec G).2.2.2.2 n fun ⟨r, hr, hf⟩ => hkn ⟨r, hr, .inl ⟨e, hf⟩⟩
    · simp
  · intro k r hf hkr
    rw [sAt_noPos hn, hs2, if_neg hkr, hs1, if_pos hf.1]
    cases hg : tget? s.groups k with
    | none => rfl
    | some G => exact (hspec G).2.1 r hf.2
  · intro k r hf hkr
    rw [sAt_noPos hn, hs2, if_neg hkr, hs1]
    split
    · next e =>
      unfold State.sAt
      cases hg : tget? s.groups k with
      | none => rfl
      | some G => exact (hspec G).2.2.1 r fun h => hf ⟨e, h⟩
    · rfl

theorem sreg_putQ (G : Group) (d : BitVec 3) (v : Bool) (r : Nat) : (G.putQ d v).sreg r = G.sreg r := rfl

/-- Everything a uniform instruction that writes a q predicate does. -/
theorem uniPredOp_done (cls : Nat) (d : BitVec 3) (srcs : List RSrc) (f : Group → List DWord → Bool) {s : State} {c : Cur} {G : Group}
    (hc : s.cur = some c) (he : c.empty = false) (hG : s.grp? c.blk c.lead = some G) :
    ∃ t, uniPredOp cls d srcs f s = .next t ∧ uniPredDone s t c srcs d.toNat (f G (srcs.map fun r => c.src s r)) := by
  generalize hv : f G (srcs.map fun r => c.src s r) = v
  let w := s.modGroup c.blk c.lead (freeGroup srcs)
  let u := c.live.foldl (fun s g => s.modGroup c.blk g fun G => G.putQ d v) w
  have hu : uniPredOp cls d srcs f s = .next (retire (chargeWord cls .issue u)) := by
    unfold uniPredOp; rw [hc]; simp only [he, hG, Bool.false_eq_true, if_false]
    rw [freeS_one s c srcs he, hv]; rfl
  refine ⟨_, hu, ?_⟩
  have hn : groupsKept Group.noPos u (retire (chargeWord cls .issue u)) := noPos_done cls .issue u
  have ho : outside s u := by
    refine outside_trans (outside_modGroup s c.blk c.lead (freeGroup srcs)) ?_
    exact foldl_outside _ _ (fun s g => outside_modGroup ..) _
  have hk : ∀ k, tget? u.groups k = if k ∈ c.keys then (tget? w.groups k).map (fun G => G.putQ d v) else tget? w.groups k := by
    intro k
    exact foldl_modGroup_groups _ _ _ _ (putQ_idem d v) k
  have hk1 : ∀ k, tget? w.groups k = if k = gkey c.blk c.lead then (tget? s.groups k).map (freeGroup srcs) else tget? s.groups k := by
    intro k; simp only [w, State.modGroup, tget?_tmod]
    split
    · next e => rw [e]
    · rfl
  have hq : ∀ G, (freeGroup srcs G).q = G.q := fun G =>
    (congrArg Group.q (freeGroup_spec srcs G).1 : (freeGroup srcs G).noS.q = G.noS.q)
  have hq1 : ∀ k n, w.qAt k n = s.qAt k n := by
    intro k n; unfold State.qAt; rw [hk1]; split
    · rw [Option.map_map]; simp only [Function.comp_def, hq]
    · rfl
  have hs1 : ∀ k r, u.sAt k r = w.sAt k r := by
    intro k r; unfold State.sAt; rw [hk]; split
    · rw [Option.map_map]; rfl
    · rfl
  have ht1' : ∀ k n, u.sTagAt k n = w.sTagAt k n := by
    intro k n; unfold State.sTagAt; rw [hk]; split
    · rw [Option.map_map]; rfl
    · rfl
  refine ⟨cur_retire _, outside_trans ho (outside_done ..), outside_bytes (outside_trans ho (outside_done ..)), ?_, ?_, ?_, ?_, ?_⟩
  · refine groupsKept_trans (f := fun G => { G.noS with q := 0#8 }) ?_ (groupsKept_map (f := Group.noPos) (fun G => { G with s := [], st := [], q := 0#8 }) hn)
    refine groupsKept_trans (groupsKept_modGroup _ s c.blk c.lead (freeGroup srcs) fun G => ?_) ?_
    · exact congrArg (fun G : Group => { G with q := 0#8 }) (freeGroup_spec srcs G).1
    · exact foldl_groupsKept _ _ (fun s g => groupsKept_modGroup _ _ _ _ _ (by intro G; rfl)) _
  · intro k hk3 hsome
    rw [qAt_noPos hn]; unfold State.qAt; rw [hk, if_pos hk3, Option.map_map]
    have hi : (tget? w.groups k).isSome = true := by rw [hk1]; split <;> simpa using hsome
    cases hw : tget? w.groups k with
    | none => rw [hw] at hi; cases hi
    | some G =>
      simp only [Option.map_some, Option.getD_some, Function.comp]
      rw [q_putQ _ _ _ _ (Nat.lt_of_lt_of_le d.isLt (by decide))]; simp
  · intro k n hkn
    rw [qAt_noPos hn, ← hq1]; unfold State.qAt; rw [hk]
    split
    · next h =>
      rw [Option.map_map]
      cases hw : tget? w.groups k with
      | none => rfl
      | some G =>
        simp only [Option.map_some, Option.getD_some, Function.comp]
        by_cases h8 : n < 8
        · rw [q_putQ _ _ _ _ h8, if_neg fun e => hkn ⟨h, e⟩]
        · rw [BitVec.getLsbD_of_ge _ _ (by omega), BitVec.getLsbD_of_ge _ _ (by omega)]
    · rfl
  · intro k r hf
    refine ⟨?_, ?_⟩
    · rw [sAt_noPos hn, hs1]; unfold State.sAt; rw [hk1, if_pos hf.1]
      cases hg : tget? s.groups k with
      | none => rfl
      | some G => exact (freeGroup_spec srcs G).2.1 r hf.2
    · rw [sTagAt_noPos hn, ht1']; unfold State.sTagAt; rw [hk1, if_pos hf.1]
      cases hg : tget? s.groups k with
      | none => rfl
      | some G =>
        simp only [Option.map_some, Option.getD_some]
        exact (freeGroup_spec srcs G).2.2.2.1 _ ⟨r, rfl, hf.2⟩
  · refine ⟨?_, ?_⟩
    · intro k r hf
      rw [sAt_noPos hn, hs1]; unfold State.sAt; rw [hk1]
      split
      · next e =>
        cases hg : tget? s.groups k with
        | none => rfl
        | some G => exact (freeGroup_spec srcs G).2.2.1 r fun h => hf ⟨e, h⟩
      · rfl
    · intro k n hf
      rw [sTagAt_noPos hn, ht1']; unfold State.sTagAt; rw [hk1]
      split
      · next e =>
        cases hg : tget? s.groups k with
        | none => rfl
        | some G =>
          simp only [Option.map_some, Option.getD_some]
          exact (freeGroup_spec srcs G).2.2.2.2 n fun ⟨r, h1, h2⟩ => hf r h1 ⟨e, h2⟩
      · rfl

end Sys2Proof.Machine
end

