-- ==== Sys2Proof/Laws/Lanes.lean ====
section
/-!
SUPPORT. Everything the shared operations of vector instructions do when their operands can be read: laneOp, compOp, predOp,
crossOp, reduceOp, toUni.
-/

namespace Sys2Proof.Machine

theorem effectIs_done (cls : Nat) (per : Per) (u : State) : effectIs u (retire (chargeWord cls per u)) :=
  ⟨cur_retire _, outside_done cls per u, noPos_done cls per u⟩

/-- Every shared operation ends so. -/
theorem done_effect (cls : Nat) (per : Per) (u : State) : ∃ t, done cls per u = .next t ∧ effectIs u t :=
  ⟨_, rfl, effectIs_done cls per u⟩

theorem laneOpU_done (cls : Nat) (per : Per) (d : VDst) (ops : List Opd) (us : List (RSrc × Nat)) (f : Group → Nat → List Word → Word)
    {s : State} {c : Cur} (hc : s.cur = some c) (he : c.empty = false) (hr : ready? s c ops (.v d) false = none) :
    ∃ t, laneOpU cls per d ops us f s = .next t ∧ effectIs ((LaneForm.mk d ops us fun _ _ => f).written s c) t := by
  unfold laneOpU; rw [hc]; simp only [he, hr]
  exact done_effect cls per _

theorem laneOp_done (cls : Nat) (d : VDst) (ops : List Opd) (f : Group → Nat → List Word → Word)
    {s : State} {c : Cur} (hc : s.cur = some c) (he : c.empty = false) (hr : ready? s c ops (.v d) false = none) :
    ∃ t, laneOp cls d ops f s = .next t ∧ effectIs ((LaneForm.mk d ops [] fun _ _ => f).written s c) t :=
  laneOpU_done cls .lane d ops [] f hc he hr

/-- A word that may read its operands reads none that is pending. -/
theorem ready_pending {s : State} {c : Cur} {ops : List Opd} {d : Dst} (hr : ready? s c ops d false = none) : pendingOf s c ops = [] := by
  unfold ready? at hr
  dsimp only at hr
  split at hr
  · cases hr
  · by_contra hne
    rw [if_pos (by simpa using hne)] at hr
    cases hr

theorem compOp_done (cls : Nat) (d : VDst) (ops : List Opd) (comp : List VCell → Option VCell) (f : List Word → Word)
    {s : State} {c : Cur} (hc : s.cur = some c) (he : c.empty = false) (hr : ready? s c ops (.v d) false = none) :
    ∃ t, compOp cls d ops comp f s = .next t ∧ effectIs ((LaneForm.mk d ops [] fun _ _ _ _ xs => f xs).written s c) t := by
  obtain ⟨t, h1, h2⟩ := laneOp_done cls d ops (fun _ _ xs => f xs) hc he hr
  refine ⟨t, ?_, h2⟩
  rw [← h1]
  unfold compOp; rw [hc]; simp only [he, ready_pending hr]
  simp

end Sys2Proof.Machine
end

