-- ==== Sys2Proof/Laws/Memory.lean ====
section
/-!
SUPPORT. Every operation that writes memory keeps its canonical form, and so does an update that touches no memory: what the
invariant `Memory.wf` needs of each shared operation, once.
-/

namespace Sys2Proof.Machine

/-! ### Rising lists -/

theorem rising_cons {a : Nat} {l : List Nat} : rising (a :: l) = true ↔ (∀ x ∈ l, a < x) ∧ rising l = true := by
  induction l generalizing a with
  | nil => simp [rising]
  | cons b r ih =>
    simp only [rising, Bool.and_eq_true, decide_eq_true_eq, List.mem_cons, forall_eq_or_imp]
    exact ⟨fun ⟨h, hr⟩ => ⟨⟨h, fun x hx => Nat.lt_trans h ((ih.mp hr).1 x hx)⟩, hr⟩, fun ⟨⟨h, _⟩, hr⟩ => ⟨h, hr⟩⟩

theorem rising_filter {l : List Nat} (f : Nat → Bool) (h : rising l = true) : rising (l.filter f) = true := by
  induction l with
  | nil => rfl
  | cons a r ih =>
    have h' := rising_cons.mp h
    simp only [List.filter]; split
    · exact rising_cons.mpr ⟨fun x hx => h'.1 x (List.mem_of_mem_filter hx), ih h'.2⟩
    · exact ih h'.2

theorem mem_ninsert {l : List Nat} {k x : Nat} (h : x ∈ ninsert l k) : x = k ∨ x ∈ l := by
  induction l with
  | nil => simpa [ninsert] using h
  | cons a r ih =>
    simp only [ninsert] at h; split at h
    · simpa using h
    · split at h
      · exact .inr h
      · rcases List.mem_cons.mp h with rfl | h
        · exact .inr (List.mem_cons_self ..)
        · exact (ih h).imp_right (List.mem_cons_of_mem _)

theorem rising_ninsert {l : List Nat} (k : Nat) (h : rising l = true) : rising (ninsert l k) = true := by
  induction l with
  | nil => rfl
  | cons a r ih =>
    have h' := rising_cons.mp h
    simp only [ninsert]; split
    · next hk =>
      refine rising_cons.mpr ⟨fun x hx => ?_, h⟩
      rcases List.mem_cons.mp hx with rfl | hx
      · exact hk
      · exact Nat.lt_trans hk (h'.1 x hx)
    · split
      · exact h
      · refine rising_cons.mpr ⟨fun x hx => ?_, ih h'.2⟩
        rcases mem_ninsert hx with rfl | hx
        · omega
        · exact h'.1 x hx

/-! ### One byte storage -/

theorem Ram.wf_iff {r : Ram} : r.wf = true ↔ cellsWf r.bytes = true ∧ rising r.tags = true := by simp [Ram.wf]
theorem Ram.wf_empty : Ram.empty.wf = true := rfl

theorem Ram.wf_write {r : Ram} (a : Nat) (bs : List Byte) (h : r.wf = true) : (r.write a bs).wf = true :=
  Ram.wf_iff.mpr ⟨cellsWf_write a bs (Ram.wf_iff.mp h).1, rising_filter _ (Ram.wf_iff.mp h).2⟩

theorem Ram.wf_writeCap {r : Ram} (a : Nat) (bs : List Byte) (t : Bool) (h : r.wf = true) : (r.writeCap a bs t).wf = true := by
  have hw := Ram.wf_write a bs h
  unfold Ram.writeCap; split
  · exact Ram.wf_iff.mpr ⟨(Ram.wf_iff.mp hw).1, rising_ninsert _ (Ram.wf_iff.mp hw).2⟩
  · exact hw

theorem Ram.wf_keepTags {r : Ram} (f : Nat → Bool) (h : r.wf = true) : ({ r with tags := r.tags.filter f } : Ram).wf = true :=
  Ram.wf_iff.mpr ⟨(Ram.wf_iff.mp h).1, rising_filter f (Ram.wf_iff.mp h).2⟩

theorem Ram.wf_clearTag {r : Ram} (g : Nat) (h : r.wf = true) : (r.clearTag g).wf = true := Ram.wf_keepTags _ h

theorem cellsWf_filter {m : List Host.Cell} (f : Host.Cell → Bool) (h : cellsWf m = true) : cellsWf (m.filter f) = true := by
  induction m with
  | nil => rfl
  | cons c r ih =>
    obtain ⟨a, b⟩ := c
    have h' := cellsWf_cons.mp h
    simp only [List.filter]; split
    · exact cellsWf_cons.mpr ⟨h'.1, fun x hx => h'.2.1 x (List.mem_of_mem_filter hx), ih h'.2.2⟩
    · exact ih h'.2.2

theorem Ram.wf_clear {r : Ram} (a n : Nat) (h : r.wf = true) : (r.clear a n).wf = true :=
  Ram.wf_iff.mpr ⟨cellsWf_filter _ (Ram.wf_iff.mp h).1, rising_filter _ (Ram.wf_iff.mp h).2⟩

/-! ### The machine's storages -/

theorem Memory.wf_iff {s : State} : Memory.wf s = true ↔
    s.mem.hbm.wf = true ∧ (∀ d ∈ s.dies, cellsWf d.2.ws = true) ∧ ∀ b ∈ s.blocks, b.2.spm.wf = true := by
  simp only [Memory.wf, Bool.and_eq_true, List.all_eq_true, and_assoc]

/-- An update that leaves HBM, the dies and the blocks as they were keeps the form. -/
theorem Memory.wf_of_eq {s t : State} (h : Memory.wf s = true) (hm : t.mem.hbm = s.mem.hbm) (hd : t.dies = s.dies) (hb : t.blocks = s.blocks) :
    Memory.wf t = true := by rw [← h]; simp only [Memory.wf, hm, hd, hb]

theorem mem_tset {α : Type} {t : Tab α} {k : Nat} {v : α} {x : Nat × α} (h : x ∈ tset t k v) : x = (k, v) ∨ x ∈ t := by
  induction t with
  | nil => simpa [tset] using h
  | cons y r ih =>
    obtain ⟨a, w⟩ := y
    simp only [tset] at h; split at h
    · simpa using h
    · split at h
      · rcases List.mem_cons.mp h with rfl | h
        · exact .inl rfl
        · exact .inr (List.mem_cons_of_mem _ h)
      · rcases List.mem_cons.mp h with rfl | h
        · exact .inr (List.mem_cons_self ..)
        · exact (ih h).imp_right (List.mem_cons_of_mem _)

theorem mem_tdel {α : Type} {t : Tab α} {k : Nat} {x : Nat × α} (h : x ∈ tdel t k) : x ∈ t := by
  induction t with
  | nil => exact h
  | cons y r ih =>
    obtain ⟨a, w⟩ := y
    simp only [tdel] at h; split at h
    · exact List.mem_cons_of_mem _ (ih h)
    · rcases List.mem_cons.mp h with rfl | h
      · exact List.mem_cons_self ..
      · exact List.mem_cons_of_mem _ (ih h)

theorem tget?_mem {α : Type} {t : Tab α} {k : Nat} {v : α} (h : tget? t k = some v) : (k, v) ∈ t := by
  induction t with
  | nil => simp [tget?] at h
  | cons y r ih =>
    obtain ⟨a, w⟩ := y
    simp only [tget?] at h; split at h
    · next e => subst e; cases h; exact List.mem_cons_self ..
    · exact List.mem_cons_of_mem _ (ih h)

theorem mem_tmod {α : Type} {t : Tab α} {k : Nat} {f : α → α} {x : Nat × α} (h : x ∈ tmod t k f) : x ∈ t ∨ ∃ v, (k, v) ∈ t ∧ x = (k, f v) := by
  unfold tmod at h
  split at h
  · next v hv => exact (mem_tset h).elim (fun e => .inr ⟨v, tget?_mem hv, e⟩) .inl
  · exact .inl h

/-- A change of a block that keeps the form of its scratchpad. -/
theorem Memory.wf_modBlock {s : State} (b : Nat) (f : Block → Block) (hf : ∀ B, B.spm.wf = true → (f B).spm.wf = true)
    (h : Memory.wf s = true) : Memory.wf (s.modBlock b f) = true := by
  have h' := Memory.wf_iff.mp h
  refine Memory.wf_iff.mpr ⟨h'.1, h'.2.1, fun x hx => ?_⟩
  rcases mem_tmod hx with hx | ⟨v, hv, rfl⟩
  · exact h'.2.2 x hx
  · exact hf v (h'.2.2 _ hv)

/-- A new block, or one put in another's place. -/
theorem Memory.wf_setBlock {s : State} (b : Nat) (B : Block) (hB : B.spm.wf = true) (h : Memory.wf s = true) :
    Memory.wf { s with blocks := tset s.blocks b B } = true := by
  have h' := Memory.wf_iff.mp h
  exact Memory.wf_iff.mpr ⟨h'.1, h'.2.1, fun x hx => (mem_tset hx).elim (fun e => e ▸ hB) (h'.2.2 x)⟩

/-- A change of a die that keeps the form of its weight store. -/
theorem Memory.wf_modDie {s : State} (d : Nat) (f : Die → Die) (hf : ∀ D, cellsWf D.ws = true → cellsWf (f D).ws = true)
    (h : Memory.wf s = true) : Memory.wf (s.modDie d f) = true := by
  have h' := Memory.wf_iff.mp h
  refine Memory.wf_iff.mpr ⟨h'.1, fun x hx => ?_, h'.2.2⟩
  rcases mem_tset hx with rfl | hx
  · refine hf _ ?_
    unfold State.die tgetD
    cases e : tget? s.dies d with
    | none => rfl
    | some D => exact h'.2.1 _ (tget?_mem e)
  · exact h'.2.1 x hx

theorem Memory.wf_foldl {α : Type} (l : List α) (f : State → α → State) (hf : ∀ s a, Memory.wf s = true → Memory.wf (f s a) = true) (s : State)
    (h : Memory.wf s = true) : Memory.wf (l.foldl f s) = true := by
  induction l generalizing s with
  | nil => exact h
  | cons a r ih => exact ih _ (hf s a h)

/-- An update of a part that holds no memory. -/
theorem Memory.wf_mem {s : State} (m : Mem) (hm : m.hbm.wf = true) (h : Memory.wf s = true) : Memory.wf { s with mem := m } = true := by
  have h' := Memory.wf_iff.mp h
  exact Memory.wf_iff.mpr ⟨hm, h'.2.1, h'.2.2⟩

/-! ### The operations that write HBM -/

theorem Memory.wf_touchLines {s : State} (a n : Nat) (h : Memory.wf s = true) : Memory.wf (touchLines s a n) = true :=
  Memory.wf_foldl (linesOf a n) (fun s l =>
    { s with mem := { s.mem with lines := tset s.mem.lines l ⟨slotOfFrame s (l * 64 / 2 ^ 21), false, false, false, 0#56⟩ } })
    (fun _ _ h => Memory.wf_mem _ (Memory.wf_iff.mp h).1 h) s h

theorem Memory.wf_noteEntry {s : State} (f base e : Nat) (h : Memory.wf s = true) : Memory.wf (noteEntry f base s e) = true := by
  unfold noteEntry; split
  · exact h
  · exact Memory.wf_mem _ (Memory.wf_iff.mp h).1 h

theorem Memory.wf_noteTables {s : State} (a n : Nat) (h : Memory.wf s = true) : Memory.wf (noteTables s a n) = true :=
  Memory.wf_foldl _ _ (fun s f h => by
    unfold noteTable; split
    · exact h
    · exact Memory.wf_foldl _ _ (fun _ e h => Memory.wf_noteEntry _ _ e h) _ h) s h

theorem Memory.wf_hitImages {s : State} (a n : Nat) (h : Memory.wf s = true) : Memory.wf (hitImages s a n) = true := by
  unfold hitImages
  have h1 := Memory.wf_foldl (s.mem.images.filter fun m => decide (a < m.1 + m.2.1) && decide (m.1 < a + n))
    (fun s m => s.modBlock (m.2.2 % 2 ^ 32) fun B => { B with imgHit := true }) (fun _ _ h => Memory.wf_modBlock _ _ (fun _ h => h) h) s h
  exact Memory.wf_mem _ (Memory.wf_iff.mp h1).1 h1

theorem Memory.wf_stampWords {s : State} (a n : Nat) (h : Memory.wf s = true) : Memory.wf (stampWords s a n) = true := by
  unfold stampWords; split
  · exact h
  · exact Memory.wf_mem _ (Memory.wf_iff.mp h).1 h

theorem Memory.wf_sealLines {s : State} (a n : Nat) (h : Memory.wf s = true) : Memory.wf (sealLines s a n) = true :=
  Memory.wf_of_eq h rfl rfl rfl

theorem Memory.wf_physWrite {s : State} (a : Nat) (bs : List Byte) (h : Memory.wf s = true) : Memory.wf (physWrite s a bs) = true := by
  have h1 := Memory.wf_stampWords a bs.length (Memory.wf_hitImages a bs.length (Memory.wf_touchLines a bs.length (Memory.wf_noteTables a bs.length h)))
  exact Memory.wf_sealLines _ _ (Memory.wf_mem _ (Ram.wf_write a bs (Memory.wf_iff.mp h1).1) h1)

theorem Memory.wf_physWriteCap {s : State} (a : Nat) (bs : List Byte) (t : Bool) (h : Memory.wf s = true) :
    Memory.wf (physWriteCap s a bs t) = true := by
  unfold physWriteCap; dsimp only
  have h1 := Memory.wf_stampWords a bs.length (Memory.wf_hitImages a bs.length (Memory.wf_touchLines a bs.length (Memory.wf_noteTables a bs.length h)))
  exact Memory.wf_sealLines _ _ (Memory.wf_mem _ (Ram.wf_writeCap a bs _ (Memory.wf_iff.mp h1).1) h1)

theorem Memory.wf_writeParts {s : State} (ps : List (Nat × Nat)) (bs : List Byte) (h : Memory.wf s = true) : Memory.wf (writeParts s ps bs) = true := by
  induction ps generalizing s bs with
  | nil => exact h
  | cons p r ih => exact ih _ (Memory.wf_physWrite _ _ h)

theorem Memory.wf_ownWords {s : State} (core : Nat) (ws : List Nat) (h : Memory.wf s = true) : Memory.wf (ownWords s core ws) = true :=
  Memory.wf_of_eq h rfl rfl rfl

theorem Memory.wf_homeWrite {s : State} (core a : Nat) (bs : List Byte) (h : Memory.wf s = true) : Memory.wf (homeWrite s core a bs) = true :=
  Memory.wf_ownWords _ _ (Memory.wf_physWrite a bs h)

theorem Memory.wf_claimFrame {s t : State} (w a : Nat) (h : Memory.wf s = true) (e : claimFrame s w a = .ok t) : Memory.wf t = true := by
  unfold claimFrame at e; dsimp only at e; split at e
  · split at e
    · cases e; exact h
    · cases e
  · cases e; exact Memory.wf_of_eq h rfl rfl rfl

theorem Memory.wf_claimParts {s t : State} (w : Nat) (ps : List (Nat × Nat)) (h : Memory.wf s = true) (e : claimParts s w ps = some t) :
    Memory.wf t = true := by
  induction ps generalizing s with
  | nil => cases e; exact h
  | cons p r ih =>
    obtain ⟨a, n⟩ := p
    unfold claimParts at e
    split at e
    · exact ih (Memory.wf_claimFrame _ _ h ‹_›) e
    · cases e

theorem Memory.wf_devWrite {s : State} (w : Option Nat) (f g : Nat) (bs : List Byte) (h : Memory.wf s = true) :
    Memory.wf (devWrite s w f g bs) = true := by
  unfold devWrite
  split
  · exact h
  · split
    · exact h
    · refine Memory.wf_of_eq (Memory.wf_writeParts _ bs ?_) rfl rfl rfl
      cases w with
      | none => rename_i e; cases e; exact h
      | some w => exact Memory.wf_claimParts w _ h ‹_›

/-! ### The LLC (R139) -/

theorem Memory.wf_dropL1 {s : State} (core : Nat) (ws : List Nat) (h : Memory.wf s = true) : Memory.wf (dropL1 s core ws) = true :=
  Memory.wf_of_eq h rfl rfl rfl

theorem Memory.wf_llcLeave {s : State} (d l : Nat) (h : Memory.wf s = true) : Memory.wf (llcLeave s d l) = true := by
  refine Memory.wf_foldl _ _ (fun s w h => ?_) _ (Memory.wf_modDie d _ (fun _ hD => hD) h)
  split
  · exact Memory.wf_of_eq (Memory.wf_dropL1 _ _ h) rfl rfl rfl
  · exact h

theorem Memory.wf_llcAdd {s : State} (d l : Nat) (h : Memory.wf s = true) : Memory.wf (llcAdd s d l) = true :=
  Memory.wf_modDie d _ (fun _ hD => hD) h

theorem Memory.wf_free {s : State} (n : Nat) (h : Memory.wf s = true) : Memory.wf { s with free := n } = true := Memory.wf_of_eq h rfl rfl rfl

theorem Memory.wf_llcTouch {s : State} (l : Nat) (h : Memory.wf s = true) : Memory.wf (llcTouch s l).2.2 = true := by
  unfold llcTouch; dsimp only; split
  · exact h
  · split
    · exact Memory.wf_llcAdd _ _ h
    · exact Memory.wf_llcAdd _ _ (Memory.wf_llcLeave _ _ (Memory.wf_free _ h))

/-! ### The operations that write a scratchpad -/

theorem Memory.wf_modSpm {s : State} (b : Nat) (f : Ram → Ram) (hf : ∀ r, r.wf = true → (f r).wf = true) (h : Memory.wf s = true) :
    Memory.wf (modSpm s b f) = true := Memory.wf_modBlock b _ (fun B hB => hf B.spm hB) h

theorem Memory.wf_spmStore {s : State} (b x : Nat) (bs : List Byte) (h : Memory.wf s = true) : Memory.wf (spmStore s b x bs) = true :=
  Memory.wf_modSpm b _ (fun _ => Ram.wf_write x bs) h

theorem Memory.wf_spmStoreCap {s : State} (b x : Nat) (bs : List Byte) (t : Bool) (h : Memory.wf s = true) :
    Memory.wf (spmStoreCap s b x bs t) = true := Memory.wf_modSpm b _ (fun _ => Ram.wf_writeCap x bs t) h

theorem Memory.wf_logAdd {s : State} (b : Nat) (e : LogEnt) (h : Memory.wf s = true) : Memory.wf (logAdd s b e) = true := by
  unfold logAdd; split
  · exact Memory.wf_modBlock b _ (fun _ h => h) h
  · exact h

theorem Memory.wf_raceRings {s : State} (b x n : Nat) (h : Memory.wf s = true) : Memory.wf (raceRings s b x n) = true := by
  unfold raceRings; dsimp only; split
  · exact h
  · exact Memory.wf_modBlock b _ (fun _ h => h) (Memory.wf_of_eq h rfl rfl rfl)

theorem Memory.wf_spmFrom {s : State} (b x : Nat) (bs : List Byte) (h : Memory.wf s = true) : Memory.wf (spmFrom s b x bs) = true :=
  Memory.wf_raceRings _ _ _ (Memory.wf_logAdd _ _ (Memory.wf_spmStore b x bs h))

theorem Memory.wf_ringPut {s : State} (b a : Nat) (w : Word) (h : Memory.wf s = true) : Memory.wf (ringPut s b a w) = true :=
  Memory.wf_modBlock b _ (fun _ hB => Ram.wf_write _ _ hB) h

theorem Memory.wf_putRingCtl {s : State} (b off : Nat) (r : RingCtl) (h : Memory.wf s = true) : Memory.wf (putRingCtl s b off r) = true :=
  Memory.wf_modSpm b _ (fun _ => Ram.wf_write _ _) h

theorem Memory.wf_ringPost {s : State} (b off : Nat) (ws : List Word) (h : Memory.wf s = true) : Memory.wf (ringPost s b off ws) = true := by
  unfold ringPost; dsimp only; split
  · exact Memory.wf_putRingCtl _ _ _ (Memory.wf_foldl _ _ (fun _ _ h => Memory.wf_ringPut _ _ _ h) s h)
  · exact Memory.wf_putRingCtl _ _ _ h

theorem Memory.wf_chanPop {s : State} (b : Nat) (ch : Chan) (n : Nat) (h : Memory.wf s = true) : Memory.wf (chanPop s b ch n) = true := by
  unfold chanPop; split
  · exact h
  · split
    · exact Memory.wf_of_eq h rfl rfl rfl
    · split
      · exact Memory.wf_putRingCtl _ _ _ h
      · exact h

theorem Memory.wf_chanSend {s : State} (b : Nat) (ch : Chan) (ws : List Word) (h : Memory.wf s = true) : Memory.wf (chanSend s b ch ws) = true := by
  unfold chanSend; split
  · split
    · exact h
    · exact Memory.wf_of_eq h rfl rfl rfl
  · split
    · exact h
    · split
      · dsimp only; split
        · exact Memory.wf_putRingCtl _ _ _ (Memory.wf_foldl _ _ (fun _ _ hu => Memory.wf_ringPut _ _ _ hu) s h)
        · exact Memory.wf_logAdd _ _ (Memory.wf_putRingCtl _ _ _
            (Memory.wf_foldl _ _ (fun _ _ hu => Memory.wf_logAdd _ _ (Memory.wf_ringPut _ _ _ hu)) s h))
      · exact h

/-! ### Weight stores, frames -/

/-- The bytes of a weight copy, or any bytes written into a die's weight store. -/
theorem Memory.wf_wsWrite {s : State} (d base : Nat) (bs : List Byte) (bad : List Nat → List Nat) (sk : Tab (BitVec 128) → Tab (BitVec 128))
    (h : Memory.wf s = true) :
    Memory.wf (s.modDie d fun D => { D with ws := cellsWrite D.ws base bs, wsBad := bad D.wsBad, wsSk := sk D.wsSk }) = true :=
  Memory.wf_modDie d _ (fun _ hD => cellsWf_cellsWrite base bs hD) h

theorem Memory.wf_dieOther {s : State} (d : Nat) (f : Die → Die) (hf : ∀ D, (f D).ws = D.ws) (h : Memory.wf s = true) :
    Memory.wf (s.modDie d f) = true := Memory.wf_modDie d f (fun D hD => by rw [hf D]; exact hD) h

theorem Memory.wf_mapDies {s : State} (f : Nat × Die → Nat × Die) (hf : ∀ x, (f x).2.ws = x.2.ws) (h : Memory.wf s = true) :
    Memory.wf { s with dies := s.dies.map f } = true := by
  have h' := Memory.wf_iff.mp h
  refine Memory.wf_iff.mpr ⟨h'.1, fun x hx => ?_, h'.2.2⟩
  obtain ⟨y, hy, rfl⟩ := List.mem_map.mp hx
  rw [hf y]; exact h'.2.1 y hy

/-- A scrubbed frame (R328). -/
theorem Memory.wf_frameScrub {s t : State} (f : Nat) (h : Memory.wf s = true) (e : execFrameScrub f s = .next t) : Memory.wf t = true := by
  unfold execFrameScrub at e
  split at e
  · cases e; exact h
  · cases e
    have h1 := Memory.wf_hitImages (f * 2 ^ 21) (2 ^ 21) h
    exact Memory.wf_mapDies _ (fun _ => rfl) (Memory.wf_of_eq (Memory.wf_mem _ (Ram.wf_clear (f * 2 ^ 21) (2 ^ 21) (Memory.wf_iff.mp h1).1) h1) rfl rfl rfl)

/-- The stale tags of HBM go (R119). -/
theorem Memory.wf_scanMemory {s : State} (p : Nat) (c : Ctx) (h : Memory.wf s = true) : Memory.wf (scanMemory s p c) = true :=
  Memory.wf_foldl _ _ (fun _ _ h => Memory.wf_sealLines _ _ h) _ (Memory.wf_mem _ (Ram.wf_keepTags _ (Memory.wf_iff.mp h).1) h)

theorem Memory.wf_reset : Memory.wf State.reset = true := rfl

end Sys2Proof.Machine
end

