-- ==== Sys2Proof/Laws/PerInstr.lean ====
section
/-!
SUPPORT. The family Encodes, one lemma for each constructor of Instr: a well-formed instruction's words, whatever words
follow them, decode in its class to the instruction with every operand, and to its number of words (R48, R55 to R63).
-/

namespace Sys2Proof.Laws.Encodes

/-- Decoding what the encoder writes gives the instruction back; an event of the table has no words. -/
def Statement (i : Instr) : Prop :=
  ∀ (k : Eng) (rest : List Word), i.wf = true → i.eng = some k → decodeAt k (encode i ++ rest) = .ok (i, (encode i).length)

theorem one {k : Eng} {w : Word} {i : Instr} (o : Nat) (ho : opc w = o) (hl : isLong k o = false)
    (h : ∀ ext, decodeWord k w ext = .ok i) (rest : List Word) : decodeAt k (w :: rest) = .ok (i, 1) := by
  change (decodeWord k w _).bind (fun i => .ok (i, if isLong k (opc w) then 2 else 1)) = _
  rw [h, ho, hl]; rfl
theorem two {k : Eng} {w x : Word} {i : Instr} (o : Nat) (ho : opc w = o) (hl : isLong k o = true)
    (h : decodeWord k w (.ok x) = .ok i) (rest : List Word) : decodeAt k (w :: x :: rest) = .ok (i, 2) := by
  change (decodeWord k w (.ok x)).bind (fun i => .ok (i, if isLong k (opc w) then 2 else 1)) = _
  rw [h, ho, hl]; rfl

theorem nop (e : Scope) : Statement (.nop e) := by
  intro k rest hw hk; cases hk
  refine one 0x00 (opc_encT _ _ _ _ _ (by decide)) rfl (fun ext => ?_) rest
  change decCtl _ ext = _
  rw [decCtl, opc_encT _ _ _ _ _ (by decide)]
  simp [scopeOf_encT, fA_encT, fB_encT, fC_encT, sAll, dZero_zero, need, needOp, needScope, bind, Except.bind, pure, Except.pure]
theorem jmp (t : BitVec 16) : Statement (.jmp t) := by
  intro k rest hw hk; cases hk
  refine one 0x01 (opc_encI _ _ _ _ (by decide)) rfl (fun ext => ?_) rest
  change decCtl _ ext = _
  rw [decCtl, opc_encI _ _ _ _ (by decide)]
  simp [scopeOf_encI, fA_encI, imm_encI, sL, dZero_zero, need, needOp, needScope, bind, Except.bind, pure, Except.pure]
theorem bra (p : Pred) (t : BitVec 16) : Statement (.bra p t) := by
  intro k rest hw hk; cases hk
  refine one 0x02 (opc_encI _ _ _ _ (by decide)) rfl (fun ext => ?_) rest
  change decCtl _ ext = _
  rw [decCtl, opc_encI _ _ _ _ (by decide)]
  simp [scopeOf_encI, fA_encI, imm_encI, sL, dPrs_ePrs, need, needOp, needScope, bind, Except.bind, pure, Except.pure]
theorem bru (q : Pred) (t : BitVec 16) : Statement (.bru q t) := by
  intro k rest hw hk; cases hk
  refine one 0x03 (opc_encI _ _ _ _ (by decide)) rfl (fun ext => ?_) rest
  change decCtl _ ext = _
  rw [decCtl, opc_encI _ _ _ _ (by decide)]
  simp [scopeOf_encI, fA_encI, imm_encI, sL, dPrs_ePrs, need, needOp, needScope, bind, Except.bind, pure, Except.pure]
theorem jmpc (a : RSrc) : Statement (.jmpc a) := by
  intro k rest hw hk; cases hk
  refine one 0x04 (opc_encT _ _ _ _ _ (by decide)) rfl (fun ext => ?_) rest
  change decCtl _ ext = _
  rw [decCtl, opc_encT _ _ _ _ _ (by decide)]
  have hw : (quadOk a.n) = true := hw
  simp_all [scopeOf_encT, fA_encT, fB_encT, fC_encT, sL, dQs_eRs, dZero_zero, need, needOp, needScope, bind, Except.bind, pure, Except.pure]
theorem call (a : BitVec 6) (t : BitVec 16) : Statement (.call a t) := by
  intro k rest hw hk; cases hk
  refine one 0x05 (opc_encI _ _ _ _ (by decide)) rfl (fun ext => ?_) rest
  change decCtl _ ext = _
  rw [decCtl, opc_encI _ _ _ _ (by decide)]
  have hw : (quadOk a) = true := hw
  simp_all [scopeOf_encI, fA_encI, imm_encI, sL, dQd_eRd, need, needOp, needScope, bind, Except.bind, pure, Except.pure]
theorem callc (a : BitVec 6) (b : RSrc) : Statement (.callc a b) := by
  intro k rest hw hk; cases hk
  refine one 0x06 (opc_encT _ _ _ _ _ (by decide)) rfl (fun ext => ?_) rest
  change decCtl _ ext = _
  rw [decCtl, opc_encT _ _ _ _ _ (by decide)]
  have hw : (quadOk a && quadOk b.n) = true := hw
  simp_all [scopeOf_encT, fA_encT, fB_encT, fC_encT, sL, dQs_eRs, dQd_eRd, dZero_zero, need, needOp, needScope, bind, Except.bind, pure, Except.pure]
theorem ret (a : RSrc) : Statement (.ret a) := by
  intro k rest hw hk; cases hk
  refine one 0x07 (opc_encT _ _ _ _ _ (by decide)) rfl (fun ext => ?_) rest
  change decCtl _ ext = _
  rw [decCtl, opc_encT _ _ _ _ _ (by decide)]
  have hw : (quadOk a.n) = true := hw
  simp_all [scopeOf_encT, fA_encT, fB_encT, fC_encT, sL, dQs_eRs, dZero_zero, need, needOp, needScope, bind, Except.bind, pure, Except.pure]
theorem exit : Statement (.exit) := by
  intro k rest hw hk; cases hk
  exact one 0x08 rfl rfl (fun _ => rfl) rest
theorem bar (e : Scope) : Statement (.bar e) := by
  intro k rest hw hk; cases hk
  refine one 0x09 (opc_encT _ _ _ _ _ (by decide)) rfl (fun ext => ?_) rest
  change decCtl _ ext = _
  rw [decCtl, opc_encT _ _ _ _ _ (by decide)]
  have hw : (e.wide) = true := hw
  simp_all [scopeOf_encT, fA_encT, fB_encT, fC_encT, sGSB, dZero_zero, need, needOp, needScope, bind, Except.bind, pure, Except.pure]
theorem bara (e : Scope) (k : BitVec 4) (n : BitVec 6) : Statement (.bara e k n) := by
  intro k rest hw hk; cases hk
  refine one 0x0A (opc_encI _ _ _ _ (by decide)) rfl (fun ext => ?_) rest
  change decCtl _ ext = _
  rw [decCtl, opc_encI _ _ _ _ (by decide)]
  have hw : (e.wide && decide (n.toNat < 32)) = true := hw
  simp_all [scopeOf_encI, fA_encI, imm_encI, sGSB, dZero_zero, dKn_enc, dBn_enc, need, needOp, needScope, bind, Except.bind, pure, Except.pure]
theorem barw (e : Scope) (k : BitVec 4) : Statement (.barw e k) := by
  intro k rest hw hk; cases hk
  refine one 0x0B (opc_encI _ _ _ _ (by decide)) rfl (fun ext => ?_) rest
  change decCtl _ ext = _
  rw [decCtl, opc_encI _ _ _ _ (by decide)]
  have hw : (e.wide) = true := hw
  simp_all [scopeOf_encI, fA_encI, imm_encI, sGSB, dZero_zero, dK_ext, need, needOp, needScope, bind, Except.bind, pure, Except.pure]
theorem gbar : Statement (.gbar) := by
  intro k rest hw hk; cases hk
  exact one 0x0C rfl rfl (fun _ => rfl) rest
theorem grdbar : Statement (.grdbar) := by
  intro k rest hw hk; cases hk
  exact one 0x0D rfl rfl (fun _ => rfl) rest
theorem sstepCluster : Statement (.sstepCluster) := by
  intro k rest hw hk; cases hk
  exact one 0x0E rfl rfl (fun _ => rfl) rest
theorem sstepDie : Statement (.sstepDie) := by
  intro k rest hw hk; cases hk
  exact one 0x0E rfl rfl (fun _ => rfl) rest
theorem fork (a : BitVec 6) (b : RSrc) : Statement (.fork a b) := by
  intro k rest hw hk; cases hk
  refine one 0x0F (opc_encT _ _ _ _ _ (by decide)) rfl (fun ext => ?_) rest
  change decCtl _ ext = _
  rw [decCtl, opc_encT _ _ _ _ _ (by decide)]
  simp [scopeOf_encT, fA_encT, fB_encT, fC_encT, sB, dRs_eRs, dRd_eRd, dZero_zero, need, needOp, needScope, bind, Except.bind, pure, Except.pure]
theorem wait (e : Scope) (lim : WaitLim) : Statement (.wait e lim) := by
  intro k rest hw hk; cases hk
  refine one 0x10 (opc_encI _ _ _ _ (by decide)) rfl (fun ext => ?_) rest
  change decCtl _ ext = _
  rw [decCtl, opc_encI _ _ _ _ (by decide)]
  simp [scopeOf_encI, fA_encI, imm_encI, sAll, dZero_zero, dWait_enc, need, needOp, needScope, bind, Except.bind, pure, Except.pure]
theorem yield : Statement (.yield) := by
  intro k rest hw hk; cases hk
  exact one 0x11 rfl rfl (fun _ => rfl) rest
theorem trap (e : Scope) (code : BitVec 16) : Statement (.trap e code) := by
  intro k rest hw hk; cases hk
  refine one 0x12 (opc_encI _ _ _ _ (by decide)) rfl (fun ext => ?_) rest
  change decCtl _ ext = _
  rw [decCtl, opc_encI _ _ _ _ (by decide)]
  simp [scopeOf_encI, fA_encI, imm_encI, sAll, dZero_zero, need, needOp, needScope, bind, Except.bind, pure, Except.pure]
theorem loop (a : BitVec 6) (t : BitVec 16) : Statement (.loop a t) := by
  intro k rest hw hk; cases hk
  refine one 0x13 (opc_encI _ _ _ _ (by decide)) rfl (fun ext => ?_) rest
  change decCtl _ ext = _
  rw [decCtl, opc_encI _ _ _ _ (by decide)]
  simp [scopeOf_encI, fA_encI, imm_encI, sL, dRd_eRd, need, needOp, needScope, bind, Except.bind, pure, Except.pure]
theorem hint (o : BitVec 3) (e : Scope) (a : Byte) (b : Byte) (c : Byte) : Statement (.hint o e a b c) := by
  intro k rest hw hk; cases hk
  refine one (56 + o.toNat) (opc_hint o e a b c) rfl (fun ext => ?_) rest
  change decCtl _ ext = _
  rw [decCtl, opc_hint]
  have : o.toNat < 8 := o.isLt
  obtain h | h | h | h | h | h | h | h : o.toNat = 0 ∨ o.toNat = 1 ∨ o.toNat = 2 ∨ o.toNat = 3 ∨ o.toNat = 4 ∨ o.toNat = 5 ∨
    o.toNat = 6 ∨ o.toNat = 7 := by omega
  all_goals rw [h]; exact congrArg Except.ok (hintOf_enc o e a b c)
theorem rdsr (e : Scope) (a : VDst) (r : SReg) (hi : Bool) : Statement (.rdsr e a r hi) := by
  intro k rest hw hk; cases hk
  refine one 0x00 (opc_encI _ _ _ _ (by decide)) rfl (fun ext => ?_) rest
  change decSys _ ext = _
  rw [decSys, opc_encI _ _ _ _ (by decide)]
  simp [scopeOf_encI, fA_encI, imm_encI, sAll, dVd_eVd, dSr_eSr, eSr_bit, need, needOp, needScope, bind, Except.bind, pure, Except.pure]
theorem rdsu (e : Scope) (a : BitVec 6) (r : SReg) (hi : Bool) : Statement (.rdsu e a r hi) := by
  intro k rest hw hk; cases hk
  refine one 0x01 (opc_encI _ _ _ _ (by decide)) rfl (fun ext => ?_) rest
  change decSys _ ext = _
  rw [decSys, opc_encI _ _ _ _ (by decide)]
  have hw : (e.laneOrGroup) = true := hw
  simp_all [scopeOf_encI, fA_encI, imm_encI, sLG, dRd_eRd, dSr_eSr, eSr_bit, need, needOp, needScope, bind, Except.bind, pure, Except.pure]
theorem opreq (e : Scope) (a : BitVec 6) (n : BitVec 7) : Statement (.opreq e a n) := by
  intro k rest hw hk; cases hk
  refine one 0x02 (opc_encI _ _ _ _ (by decide)) rfl (fun ext => ?_) rest
  change decSys _ ext = _
  rw [decSys, opc_encI _ _ _ _ (by decide)]
  have hw : (decide (n.toNat ≤ 64)) = true := hw
  simp_all [scopeOf_encI, fA_encI, imm_encI, sAll, dRd_eRd, dStep_ext, need, needOp, needScope, bind, Except.bind, pure, Except.pure]
theorem mtrq (e : Scope) (a : RSrc) (b : BitVec 6) : Statement (.mtrq e a b) := by
  intro k rest hw hk; cases hk
  refine one 0x03 (opc_encT _ _ _ _ _ (by decide)) rfl (fun ext => ?_) rest
  change decSys _ ext = _
  rw [decSys, opc_encT _ _ _ _ _ (by decide)]
  have hw : (e.laneOrGroup && pairOk a.n) = true := hw
  simp_all [scopeOf_encT, fA_encT, fB_encT, fC_encT, sLG, dRd_eRd, dPs_eRs, dZero_zero, need, needOp, needScope, bind, Except.bind, pure, Except.pure]
theorem msamp (e : Scope) (a : RSrc) (c : BitVec 6) : Statement (.msamp e a c) := by
  intro k rest hw hk; cases hk
  refine one 0x04 (opc_encT _ _ _ _ _ (by decide)) rfl (fun ext => ?_) rest
  change decSys _ ext = _
  rw [decSys, opc_encT _ _ _ _ _ (by decide)]
  have hw : (e.laneOrGroup) = true := hw
  simp_all [scopeOf_encT, fA_encT, fB_encT, fC_encT, sLG, dRs_eRs, dCh_eCh, dZero_zero, need, needOp, needScope, bind, Except.bind, pure, Except.pure]
theorem rpush (e : Scope) (label : BitVec 16) : Statement (.rpush e label) := by
  intro k rest hw hk; cases hk
  refine one 0x05 (opc_encI _ _ _ _ (by decide)) rfl (fun ext => ?_) rest
  change decSys _ ext = _
  rw [decSys, opc_encI _ _ _ _ (by decide)]
  simp [scopeOf_encI, fA_encI, imm_encI, sAll, dZero_zero, need, needOp, needScope, bind, Except.bind, pure, Except.pure]
theorem rpop (e : Scope) : Statement (.rpop e) := by
  intro k rest hw hk; cases hk
  refine one 0x06 (opc_encT _ _ _ _ _ (by decide)) rfl (fun ext => ?_) rest
  change decSys _ ext = _
  rw [decSys, opc_encT _ _ _ _ _ (by decide)]
  simp [scopeOf_encT, fA_encT, fB_encT, fC_encT, sAll, dZero_zero, need, needOp, needScope, bind, Except.bind, pure, Except.pure]
theorem trmark (e : Scope) (v : BitVec 16) : Statement (.trmark e v) := by
  intro k rest hw hk; cases hk
  refine one 0x07 (opc_encI _ _ _ _ (by decide)) rfl (fun ext => ?_) rest
  change decSys _ ext = _
  rw [decSys, opc_encI _ _ _ _ (by decide)]
  simp [scopeOf_encI, fA_encI, imm_encI, sAll, dZero_zero, need, needOp, needScope, bind, Except.bind, pure, Except.pure]
theorem bkpt (e : Scope) (n : BitVec 8) : Statement (.bkpt e n) := by
  intro k rest hw hk; cases hk
  refine one 0x08 (opc_encI _ _ _ _ (by decide)) rfl (fun ext => ?_) rest
  change decSys _ ext = _
  rw [decSys, opc_encI _ _ _ _ (by decide)]
  simp [scopeOf_encI, fA_encI, imm_encI, sAll, dZero_zero, dImm8_ext, need, needOp, needScope, bind, Except.bind, pure, Except.pure]
theorem chkpt (e : Scope) : Statement (.chkpt e) := by
  intro k rest hw hk; cases hk
  refine one 0x09 (opc_encT _ _ _ _ _ (by decide)) rfl (fun ext => ?_) rest
  change decSys _ ext = _
  rw [decSys, opc_encT _ _ _ _ _ (by decide)]
  simp [scopeOf_encT, fA_encT, fB_encT, fC_encT, sAll, dZero_zero, need, needOp, needScope, bind, Except.bind, pure, Except.pure]
theorem dbgstop (e : Scope) : Statement (.dbgstop e) := by
  intro k rest hw hk; cases hk
  refine one 0x0A (opc_encT _ _ _ _ _ (by decide)) rfl (fun ext => ?_) rest
  change decSys _ ext = _
  rw [decSys, opc_encT _ _ _ _ _ (by decide)]
  simp [scopeOf_encT, fA_encT, fB_encT, fC_encT, sAll, dZero_zero, need, needOp, needScope, bind, Except.bind, pure, Except.pure]
theorem trctlStart (e : Scope) : Statement (.trctlStart e) := by
  intro k rest hw hk; cases hk
  refine one 0x0B (opc_encI _ _ _ _ (by decide)) rfl (fun ext => ?_) rest
  change decSys _ ext = _
  rw [decSys, opc_encI _ _ _ _ (by decide)]
  simp [scopeOf_encI, fA_encI, imm_encI, sAll, dZero_zero, need, needOp, needScope, bind, Except.bind, pure, Except.pure]
theorem trctlStop (e : Scope) : Statement (.trctlStop e) := by
  intro k rest hw hk; cases hk
  refine one 0x0B (opc_encI _ _ _ _ (by decide)) rfl (fun ext => ?_) rest
  change decSys _ ext = _
  rw [decSys, opc_encI _ _ _ _ (by decide)]
  simp [scopeOf_encI, fA_encI, imm_encI, sAll, dZero_zero, need, needOp, needScope, bind, Except.bind, pure, Except.pure]
theorem trctlFreeze (e : Scope) : Statement (.trctlFreeze e) := by
  intro k rest hw hk; cases hk
  refine one 0x0B (opc_encI _ _ _ _ (by decide)) rfl (fun ext => ?_) rest
  change decSys _ ext = _
  rw [decSys, opc_encI _ _ _ _ (by decide)]
  simp [scopeOf_encI, fA_encI, imm_encI, sAll, dZero_zero, need, needOp, needScope, bind, Except.bind, pure, Except.pure]
theorem trctlThaw (e : Scope) : Statement (.trctlThaw e) := by
  intro k rest hw hk; cases hk
  refine one 0x0B (opc_encI _ _ _ _ (by decide)) rfl (fun ext => ?_) rest
  change decSys _ ext = _
  rw [decSys, opc_encI _ _ _ _ (by decide)]
  simp [scopeOf_encI, fA_encI, imm_encI, sAll, dZero_zero, need, needOp, needScope, bind, Except.bind, pure, Except.pure]
theorem plwr (a : RSrc) (b : RSrc) (c : RSrc) : Statement (.plwr a b c) := by
  intro k rest hw hk; cases hk
  refine one 0x20 (opc_encT _ _ _ _ _ (by decide)) rfl (fun ext => ?_) rest
  change decSys _ ext = _
  rw [decSys, opc_encT _ _ _ _ _ (by decide)]
  simp [scopeOf_encT, fA_encT, fB_encT, fC_encT, sL, dRs_eRs, need, needOp, needScope, bind, Except.bind, pure, Except.pure]
theorem qtwr (a : RSrc) (b : RSrc) (c : RSrc) : Statement (.qtwr a b c) := by
  intro k rest hw hk; cases hk
  refine one 0x21 (opc_encT _ _ _ _ _ (by decide)) rfl (fun ext => ?_) rest
  change decSys _ ext = _
  rw [decSys, opc_encT _ _ _ _ _ (by decide)]
  simp [scopeOf_encT, fA_encT, fB_encT, fC_encT, sL, dRs_eRs, need, needOp, needScope, bind, Except.bind, pure, Except.pure]
theorem limwr (a : RSrc) (b : RSrc) (c : RSrc) : Statement (.limwr a b c) := by
  intro k rest hw hk; cases hk
  refine one 0x22 (opc_encT _ _ _ _ _ (by decide)) rfl (fun ext => ?_) rest
  change decSys _ ext = _
  rw [decSys, opc_encT _ _ _ _ _ (by decide)]
  simp [scopeOf_encT, fA_encT, fB_encT, fC_encT, sL, dRs_eRs, need, needOp, needScope, bind, Except.bind, pure, Except.pure]
theorem wtwr (a : RSrc) (b : RSrc) (c : RSrc) : Statement (.wtwr a b c) := by
  intro k rest hw hk; cases hk
  refine one 0x23 (opc_encT _ _ _ _ _ (by decide)) rfl (fun ext => ?_) rest
  change decSys _ ext = _
  rw [decSys, opc_encT _ _ _ _ _ (by decide)]
  simp [scopeOf_encT, fA_encT, fB_encT, fC_encT, sL, dRs_eRs, need, needOp, needScope, bind, Except.bind, pure, Except.pure]
theorem srwr (e : Scope) (v : BitVec 2) (hi : Bool) (a : RSrc) : Statement (.srwr e v hi a) := by
  intro k rest hw hk; cases hk
  refine one 0x24 (opc_encI _ _ _ _ (by decide)) rfl (fun ext => ?_) rest
  change decSys _ ext = _
  rw [decSys, opc_encI _ _ _ _ (by decide)]
  have hw : (e.laneOrGroup) = true := hw
  simp_all [scopeOf_encI, fA_encI, imm_encI, sLG, dRs_eRs, dSrv_eSr, eSr_bit, need, needOp, needScope, bind, Except.bind, pure, Except.pure]
theorem saddB64 (e : Scope) (a : BitVec 6) (b : RSrc) (c : RSrc) : Statement (.saddB64 e a b c) := by
  intro k rest hw hk; cases hk
  refine one 0x00 (opc_encT _ _ _ _ _ (by decide)) rfl (fun ext => ?_) rest
  change decUni _ ext = _
  rw [decUni, opc_encT _ _ _ _ _ (by decide)]
  have hw : (e.laneOrGroup) = true := hw
  simp_all [scopeOf_encT, fA_encT, fB_encT, fC_encT, sLG, dRs_eRs, dRd_eRd, need, needOp, needScope, bind, Except.bind, pure, Except.pure]
theorem ssubB64 (e : Scope) (a : BitVec 6) (b : RSrc) (c : RSrc) : Statement (.ssubB64 e a b c) := by
  intro k rest hw hk; cases hk
  refine one 0x01 (opc_encT _ _ _ _ _ (by decide)) rfl (fun ext => ?_) rest
  change decUni _ ext = _
  rw [decUni, opc_encT _ _ _ _ _ (by decide)]
  have hw : (e.laneOrGroup) = true := hw
  simp_all [scopeOf_encT, fA_encT, fB_encT, fC_encT, sLG, dRs_eRs, dRd_eRd, need, needOp, needScope, bind, Except.bind, pure, Except.pure]
theorem smulB64 (e : Scope) (a : BitVec 6) (b : RSrc) (c : RSrc) : Statement (.smulB64 e a b c) := by
  intro k rest hw hk; cases hk
  refine one 0x02 (opc_encT _ _ _ _ _ (by decide)) rfl (fun ext => ?_) rest
  change decUni _ ext = _
  rw [decUni, opc_encT _ _ _ _ _ (by decide)]
  have hw : (e.laneOrGroup) = true := hw
  simp_all [scopeOf_encT, fA_encT, fB_encT, fC_encT, sLG, dRs_eRs, dRd_eRd, need, needOp, needScope, bind, Except.bind, pure, Except.pure]
theorem smulhS64 (e : Scope) (a : BitVec 6) (b : RSrc) (c : RSrc) : Statement (.smulhS64 e a b c) := by
  intro k rest hw hk; cases hk
  refine one 0x03 (opc_encT _ _ _ _ _ (by decide)) rfl (fun ext => ?_) rest
  change decUni _ ext = _
  rw [decUni, opc_encT _ _ _ _ _ (by decide)]
  have hw : (e.laneOrGroup) = true := hw
  simp_all [scopeOf_encT, fA_encT, fB_encT, fC_encT, sLG, dRs_eRs, dRd_eRd, need, needOp, needScope, bind, Except.bind, pure, Except.pure]
theorem smulhN64 (e : Scope) (a : BitVec 6) (b : RSrc) (c : RSrc) : Statement (.smulhN64 e a b c) := by
  intro k rest hw hk; cases hk
  refine one 0x04 (opc_encT _ _ _ _ _ (by decide)) rfl (fun ext => ?_) rest
  change decUni _ ext = _
  rw [decUni, opc_encT _ _ _ _ _ (by decide)]
  have hw : (e.laneOrGroup) = true := hw
  simp_all [scopeOf_encT, fA_encT, fB_encT, fC_encT, sLG, dRs_eRs, dRd_eRd, need, needOp, needScope, bind, Except.bind, pure, Except.pure]
theorem saddiB64 (e : Scope) (a : BitVec 6) (i : BitVec 16) : Statement (.saddiB64 e a i) := by
  intro k rest hw hk; cases hk
  refine one 0x05 (opc_encI _ _ _ _ (by decide)) rfl (fun ext => ?_) rest
  change decUni _ ext = _
  rw [decUni, opc_encI _ _ _ _ (by decide)]
  have hw : (e.laneOrGroup) = true := hw
  simp_all [scopeOf_encI, fA_encI, imm_encI, sLG, dRd_eRd, need, needOp, needScope, bind, Except.bind, pure, Except.pure]
theorem smoviB64 (e : Scope) (a : BitVec 6) (i : BitVec 16) : Statement (.smoviB64 e a i) := by
  intro k rest hw hk; cases hk
  refine one 0x06 (opc_encI _ _ _ _ (by decide)) rfl (fun ext => ?_) rest
  change decUni _ ext = _
  rw [decUni, opc_encI _ _ _ _ (by decide)]
  have hw : (e.laneOrGroup) = true := hw
  simp_all [scopeOf_encI, fA_encI, imm_encI, sLG, dRd_eRd, need, needOp, needScope, bind, Except.bind, pure, Except.pure]
theorem smovlB64 (e : Scope) (a : BitVec 6) (sel : BitVec 2) (lit : Word) : Statement (.smovlB64 e a sel lit) := by
  intro k rest hw hk; cases hk
  refine two 0x07 (opc_encT _ _ _ _ _ (by decide)) rfl ?_ rest
  change decUni _ (.ok _) = _
  rw [decUni, opc_encT _ _ _ _ _ (by decide)]
  have hw : (e.laneOrGroup && decide (sel.toNat < 3)) = true := hw
  simp_all [scopeOf_encT, fA_encT, fB_encT, fC_encT, sLG, dRd_eRd, dZero_zero, dSel_ext, dSel_1, dSel_2, dSel_3, dSel_4, dSel_5, dSel_set, dSel_add, need, needOp, needScope, bind, Except.bind, pure, Except.pure]
theorem sandB64 (e : Scope) (a : BitVec 6) (b : RSrc) (c : RSrc) : Statement (.sandB64 e a b c) := by
  intro k rest hw hk; cases hk
  refine one 0x08 (opc_encT _ _ _ _ _ (by decide)) rfl (fun ext => ?_) rest
  change decUni _ ext = _
  rw [decUni, opc_encT _ _ _ _ _ (by decide)]
  have hw : (e.laneOrGroup) = true := hw
  simp_all [scopeOf_encT, fA_encT, fB_encT, fC_encT, sLG, dRs_eRs, dRd_eRd, need, needOp, needScope, bind, Except.bind, pure, Except.pure]
theorem sorB64 (e : Scope) (a : BitVec 6) (b : RSrc) (c : RSrc) : Statement (.sorB64 e a b c) := by
  intro k rest hw hk; cases hk
  refine one 0x09 (opc_encT _ _ _ _ _ (by decide)) rfl (fun ext => ?_) rest
  change decUni _ ext = _
  rw [decUni, opc_encT _ _ _ _ _ (by decide)]
  have hw : (e.laneOrGroup) = true := hw
  simp_all [scopeOf_encT, fA_encT, fB_encT, fC_encT, sLG, dRs_eRs, dRd_eRd, need, needOp, needScope, bind, Except.bind, pure, Except.pure]
theorem sxorB64 (e : Scope) (a : BitVec 6) (b : RSrc) (c : RSrc) : Statement (.sxorB64 e a b c) := by
  intro k rest hw hk; cases hk
  refine one 0x0A (opc_encT _ _ _ _ _ (by decide)) rfl (fun ext => ?_) rest
  change decUni _ ext = _
  rw [decUni, opc_encT _ _ _ _ _ (by decide)]
  have hw : (e.laneOrGroup) = true := hw
  simp_all [scopeOf_encT, fA_encT, fB_encT, fC_encT, sLG, dRs_eRs, dRd_eRd, need, needOp, needScope, bind, Except.bind, pure, Except.pure]
theorem snotB64 (e : Scope) (a : BitVec 6) (b : RSrc) : Statement (.snotB64 e a b) := by
  intro k rest hw hk; cases hk
  refine one 0x0B (opc_encT _ _ _ _ _ (by decide)) rfl (fun ext => ?_) rest
  change decUni _ ext = _
  rw [decUni, opc_encT _ _ _ _ _ (by decide)]
  have hw : (e.laneOrGroup) = true := hw
  simp_all [scopeOf_encT, fA_encT, fB_encT, fC_encT, sLG, dRs_eRs, dRd_eRd, dZero_zero, need, needOp, needScope, bind, Except.bind, pure, Except.pure]
theorem sshlB64 (e : Scope) (a : BitVec 6) (b : RSrc) (c : RSrc) : Statement (.sshlB64 e a b c) := by
  intro k rest hw hk; cases hk
  refine one 0x0C (opc_encT _ _ _ _ _ (by decide)) rfl (fun ext => ?_) rest
  change decUni _ ext = _
  rw [decUni, opc_encT _ _ _ _ _ (by decide)]
  have hw : (e.laneOrGroup) = true := hw
  simp_all [scopeOf_encT, fA_encT, fB_encT, fC_encT, sLG, dRs_eRs, dRd_eRd, need, needOp, needScope, bind, Except.bind, pure, Except.pure]
theorem sshrN64 (e : Scope) (a : BitVec 6) (b : RSrc) (c : RSrc) : Statement (.sshrN64 e a b c) := by
  intro k rest hw hk; cases hk
  refine one 0x0D (opc_encT _ _ _ _ _ (by decide)) rfl (fun ext => ?_) rest
  change decUni _ ext = _
  rw [decUni, opc_encT _ _ _ _ _ (by decide)]
  have hw : (e.laneOrGroup) = true := hw
  simp_all [scopeOf_encT, fA_encT, fB_encT, fC_encT, sLG, dRs_eRs, dRd_eRd, need, needOp, needScope, bind, Except.bind, pure, Except.pure]
theorem sshrS64 (e : Scope) (a : BitVec 6) (b : RSrc) (c : RSrc) : Statement (.sshrS64 e a b c) := by
  intro k rest hw hk; cases hk
  refine one 0x0E (opc_encT _ _ _ _ _ (by decide)) rfl (fun ext => ?_) rest
  change decUni _ ext = _
  rw [decUni, opc_encT _ _ _ _ _ (by decide)]
  have hw : (e.laneOrGroup) = true := hw
  simp_all [scopeOf_encT, fA_encT, fB_encT, fC_encT, sLG, dRs_eRs, dRd_eRd, need, needOp, needScope, bind, Except.bind, pure, Except.pure]
theorem smovB64 (e : Scope) (a : BitVec 6) (b : RSrc) : Statement (.smovB64 e a b) := by
  intro k rest hw hk; cases hk
  refine one 0x0F (opc_encT _ _ _ _ _ (by decide)) rfl (fun ext => ?_) rest
  change decUni _ ext = _
  rw [decUni, opc_encT _ _ _ _ _ (by decide)]
  have hw : (e.laneOrGroup) = true := hw
  simp_all [scopeOf_encT, fA_encT, fB_encT, fC_encT, sLG, dRs_eRs, dRd_eRd, dZero_zero, need, needOp, needScope, bind, Except.bind, pure, Except.pure]
theorem sminS64 (e : Scope) (a : BitVec 6) (b : RSrc) (c : RSrc) : Statement (.sminS64 e a b c) := by
  intro k rest hw hk; cases hk
  refine one 0x10 (opc_encT _ _ _ _ _ (by decide)) rfl (fun ext => ?_) rest
  change decUni _ ext = _
  rw [decUni, opc_encT _ _ _ _ _ (by decide)]
  have hw : (e.laneOrGroup) = true := hw
  simp_all [scopeOf_encT, fA_encT, fB_encT, fC_encT, sLG, dRs_eRs, dRd_eRd, need, needOp, needScope, bind, Except.bind, pure, Except.pure]
theorem sminN64 (e : Scope) (a : BitVec 6) (b : RSrc) (c : RSrc) : Statement (.sminN64 e a b c) := by
  intro k rest hw hk; cases hk
  refine one 0x11 (opc_encT _ _ _ _ _ (by decide)) rfl (fun ext => ?_) rest
  change decUni _ ext = _
  rw [decUni, opc_encT _ _ _ _ _ (by decide)]
  have hw : (e.laneOrGroup) = true := hw
  simp_all [scopeOf_encT, fA_encT, fB_encT, fC_encT, sLG, dRs_eRs, dRd_eRd, need, needOp, needScope, bind, Except.bind, pure, Except.pure]
theorem smaxS64 (e : Scope) (a : BitVec 6) (b : RSrc) (c : RSrc) : Statement (.smaxS64 e a b c) := by
  intro k rest hw hk; cases hk
  refine one 0x12 (opc_encT _ _ _ _ _ (by decide)) rfl (fun ext => ?_) rest
  change decUni _ ext = _
  rw [decUni, opc_encT _ _ _ _ _ (by decide)]
  have hw : (e.laneOrGroup) = true := hw
  simp_all [scopeOf_encT, fA_encT, fB_encT, fC_encT, sLG, dRs_eRs, dRd_eRd, need, needOp, needScope, bind, Except.bind, pure, Except.pure]
theorem smaxN64 (e : Scope) (a : BitVec 6) (b : RSrc) (c : RSrc) : Statement (.smaxN64 e a b c) := by
  intro k rest hw hk; cases hk
  refine one 0x13 (opc_encT _ _ _ _ _ (by decide)) rfl (fun ext => ?_) rest
  change decUni _ ext = _
  rw [decUni, opc_encT _ _ _ _ _ (by decide)]
  have hw : (e.laneOrGroup) = true := hw
  simp_all [scopeOf_encT, fA_encT, fB_encT, fC_encT, sLG, dRs_eRs, dRd_eRd, need, needOp, needScope, bind, Except.bind, pure, Except.pure]
theorem sclzB64 (e : Scope) (a : BitVec 6) (b : RSrc) : Statement (.sclzB64 e a b) := by
  intro k rest hw hk; cases hk
  refine one 0x14 (opc_encT _ _ _ _ _ (by decide)) rfl (fun ext => ?_) rest
  change decUni _ ext = _
  rw [decUni, opc_encT _ _ _ _ _ (by decide)]
  have hw : (e.laneOrGroup) = true := hw
  simp_all [scopeOf_encT, fA_encT, fB_encT, fC_encT, sLG, dRs_eRs, dRd_eRd, dZero_zero, need, needOp, needScope, bind, Except.bind, pure, Except.pure]
theorem spopcB64 (e : Scope) (a : BitVec 6) (b : RSrc) : Statement (.spopcB64 e a b) := by
  intro k rest hw hk; cases hk
  refine one 0x15 (opc_encT _ _ _ _ _ (by decide)) rfl (fun ext => ?_) rest
  change decUni _ ext = _
  rw [decUni, opc_encT _ _ _ _ _ (by decide)]
  have hw : (e.laneOrGroup) = true := hw
  simp_all [scopeOf_encT, fA_encT, fB_encT, fC_encT, sLG, dRs_eRs, dRd_eRd, dZero_zero, need, needOp, needScope, bind, Except.bind, pure, Except.pure]
theorem sextS32 (e : Scope) (a : BitVec 6) (b : RSrc) : Statement (.sextS32 e a b) := by
  intro k rest hw hk; cases hk
  refine one 0x16 (opc_encT _ _ _ _ _ (by decide)) rfl (fun ext => ?_) rest
  change decUni _ ext = _
  rw [decUni, opc_encT _ _ _ _ _ (by decide)]
  have hw : (e.laneOrGroup) = true := hw
  simp_all [scopeOf_encT, fA_encT, fB_encT, fC_encT, sLG, dRs_eRs, dRd_eRd, dZero_zero, need, needOp, needScope, bind, Except.bind, pure, Except.pure]
theorem sextN32 (e : Scope) (a : BitVec 6) (b : RSrc) : Statement (.sextN32 e a b) := by
  intro k rest hw hk; cases hk
  refine one 0x17 (opc_encT _ _ _ _ _ (by decide)) rfl (fun ext => ?_) rest
  change decUni _ ext = _
  rw [decUni, opc_encT _ _ _ _ _ (by decide)]
  have hw : (e.laneOrGroup) = true := hw
  simp_all [scopeOf_encT, fA_encT, fB_encT, fC_encT, sLG, dRs_eRs, dRd_eRd, dZero_zero, need, needOp, needScope, bind, Except.bind, pure, Except.pure]
theorem sceqB64 (e : Scope) (a : BitVec 3) (b : RSrc) (c : RSrc) : Statement (.sceqB64 e a b c) := by
  intro k rest hw hk; cases hk
  refine one 0x18 (opc_encT _ _ _ _ _ (by decide)) rfl (fun ext => ?_) rest
  change decUni _ ext = _
  rw [decUni, opc_encT _ _ _ _ _ (by decide)]
  have hw : (e.laneOrGroup && pdstOk a) = true := hw
  simp_all [scopeOf_encT, fA_encT, fB_encT, fC_encT, sLG, dRs_eRs, dPrd_ePrd, need, needOp, needScope, bind, Except.bind, pure, Except.pure]
theorem scneB64 (e : Scope) (a : BitVec 3) (b : RSrc) (c : RSrc) : Statement (.scneB64 e a b c) := by
  intro k rest hw hk; cases hk
  refine one 0x19 (opc_encT _ _ _ _ _ (by decide)) rfl (fun ext => ?_) rest
  change decUni _ ext = _
  rw [decUni, opc_encT _ _ _ _ _ (by decide)]
  have hw : (e.laneOrGroup && pdstOk a) = true := hw
  simp_all [scopeOf_encT, fA_encT, fB_encT, fC_encT, sLG, dRs_eRs, dPrd_ePrd, need, needOp, needScope, bind, Except.bind, pure, Except.pure]
theorem scltS64 (e : Scope) (a : BitVec 3) (b : RSrc) (c : RSrc) : Statement (.scltS64 e a b c) := by
  intro k rest hw hk; cases hk
  refine one 0x1A (opc_encT _ _ _ _ _ (by decide)) rfl (fun ext => ?_) rest
  change decUni _ ext = _
  rw [decUni, opc_encT _ _ _ _ _ (by decide)]
  have hw : (e.laneOrGroup && pdstOk a) = true := hw
  simp_all [scopeOf_encT, fA_encT, fB_encT, fC_encT, sLG, dRs_eRs, dPrd_ePrd, need, needOp, needScope, bind, Except.bind, pure, Except.pure]
theorem scltN64 (e : Scope) (a : BitVec 3) (b : RSrc) (c : RSrc) : Statement (.scltN64 e a b c) := by
  intro k rest hw hk; cases hk
  refine one 0x1B (opc_encT _ _ _ _ _ (by decide)) rfl (fun ext => ?_) rest
  change decUni _ ext = _
  rw [decUni, opc_encT _ _ _ _ _ (by decide)]
  have hw : (e.laneOrGroup && pdstOk a) = true := hw
  simp_all [scopeOf_encT, fA_encT, fB_encT, fC_encT, sLG, dRs_eRs, dPrd_ePrd, need, needOp, needScope, bind, Except.bind, pure, Except.pure]
theorem scleS64 (e : Scope) (a : BitVec 3) (b : RSrc) (c : RSrc) : Statement (.scleS64 e a b c) := by
  intro k rest hw hk; cases hk
  refine one 0x1C (opc_encT _ _ _ _ _ (by decide)) rfl (fun ext => ?_) rest
  change decUni _ ext = _
  rw [decUni, opc_encT _ _ _ _ _ (by decide)]
  have hw : (e.laneOrGroup && pdstOk a) = true := hw
  simp_all [scopeOf_encT, fA_encT, fB_encT, fC_encT, sLG, dRs_eRs, dPrd_ePrd, need, needOp, needScope, bind, Except.bind, pure, Except.pure]
theorem scleN64 (e : Scope) (a : BitVec 3) (b : RSrc) (c : RSrc) : Statement (.scleN64 e a b c) := by
  intro k rest hw hk; cases hk
  refine one 0x1D (opc_encT _ _ _ _ _ (by decide)) rfl (fun ext => ?_) rest
  change decUni _ ext = _
  rw [decUni, opc_encT _ _ _ _ _ (by decide)]
  have hw : (e.laneOrGroup && pdstOk a) = true := hw
  simp_all [scopeOf_encT, fA_encT, fB_encT, fC_encT, sLG, dRs_eRs, dPrd_ePrd, need, needOp, needScope, bind, Except.bind, pure, Except.pure]
theorem sselB64 (e : Scope) (a : BitVec 6) (b : RSrc) (c : RSrc) (d : Pred) : Statement (.sselB64 e a b c d) := by
  intro k rest hw hk; cases hk
  refine two 0x1E (opc_encT _ _ _ _ _ (by decide)) rfl ?_ rest
  change decUni _ (.ok _) = _
  rw [decUni, opc_encT _ _ _ _ _ (by decide)]
  have hw : (e.laneOrGroup) = true := hw
  simp_all [scopeOf_encT, fA_encT, fB_encT, fC_encT, mD_encM, mT_encM, mS_encM, mM_encM, mM_rn, mM_rz, mO_encM, sLG, dRs_eRs, dRd_eRd, dPrs_ePrs, modOk_encM, need, needOp, needScope, bind, Except.bind, pure, Except.pure]
theorem qand (e : Scope) (a : BitVec 3) (b : Pred) (c : Pred) : Statement (.qand e a b c) := by
  intro k rest hw hk; cases hk
  refine one 0x20 (opc_encT _ _ _ _ _ (by decide)) rfl (fun ext => ?_) rest
  change decUni _ ext = _
  rw [decUni, opc_encT _ _ _ _ _ (by decide)]
  have hw : (e.laneOrGroup && pdstOk a) = true := hw
  simp_all [scopeOf_encT, fA_encT, fB_encT, fC_encT, sLG, dPrs_ePrs, dPrd_ePrd, need, needOp, needScope, bind, Except.bind, pure, Except.pure]
theorem qor (e : Scope) (a : BitVec 3) (b : Pred) (c : Pred) : Statement (.qor e a b c) := by
  intro k rest hw hk; cases hk
  refine one 0x21 (opc_encT _ _ _ _ _ (by decide)) rfl (fun ext => ?_) rest
  change decUni _ ext = _
  rw [decUni, opc_encT _ _ _ _ _ (by decide)]
  have hw : (e.laneOrGroup && pdstOk a) = true := hw
  simp_all [scopeOf_encT, fA_encT, fB_encT, fC_encT, sLG, dPrs_ePrs, dPrd_ePrd, need, needOp, needScope, bind, Except.bind, pure, Except.pure]
theorem qxor (e : Scope) (a : BitVec 3) (b : Pred) (c : Pred) : Statement (.qxor e a b c) := by
  intro k rest hw hk; cases hk
  refine one 0x22 (opc_encT _ _ _ _ _ (by decide)) rfl (fun ext => ?_) rest
  change decUni _ ext = _
  rw [decUni, opc_encT _ _ _ _ _ (by decide)]
  have hw : (e.laneOrGroup && pdstOk a) = true := hw
  simp_all [scopeOf_encT, fA_encT, fB_encT, fC_encT, sLG, dPrs_ePrs, dPrd_ePrd, need, needOp, needScope, bind, Except.bind, pure, Except.pure]
theorem qnot (e : Scope) (a : BitVec 3) (b : Pred) : Statement (.qnot e a b) := by
  intro k rest hw hk; cases hk
  refine one 0x23 (opc_encT _ _ _ _ _ (by decide)) rfl (fun ext => ?_) rest
  change decUni _ ext = _
  rw [decUni, opc_encT _ _ _ _ _ (by decide)]
  have hw : (e.laneOrGroup && pdstOk a) = true := hw
  simp_all [scopeOf_encT, fA_encT, fB_encT, fC_encT, sLG, dPrs_ePrs, dPrd_ePrd, dZero_zero, need, needOp, needScope, bind, Except.bind, pure, Except.pure]
theorem vaddB32 (e : Scope) (a : VDst) (b : VSrc) (c : VSrc) : Statement (.vaddB32 e a b c) := by
  intro k rest hw hk; cases hk
  refine one 0x00 (opc_encT _ _ _ _ _ (by decide)) rfl (fun ext => ?_) rest
  change decVint _ ext = _
  rw [decVint, opc_encT _ _ _ _ _ (by decide)]
  simp [scopeOf_encT, fA_encT, fB_encT, fC_encT, sAll, dVs_eVs, dVd_eVd, need, needOp, needScope, bind, Except.bind, pure, Except.pure]
theorem vsubB32 (e : Scope) (a : VDst) (b : VSrc) (c : VSrc) : Statement (.vsubB32 e a b c) := by
  intro k rest hw hk; cases hk
  refine one 0x01 (opc_encT _ _ _ _ _ (by decide)) rfl (fun ext => ?_) rest
  change decVint _ ext = _
  rw [decVint, opc_encT _ _ _ _ _ (by decide)]
  simp [scopeOf_encT, fA_encT, fB_encT, fC_encT, sAll, dVs_eVs, dVd_eVd, need, needOp, needScope, bind, Except.bind, pure, Except.pure]
theorem vmulB32 (e : Scope) (a : VDst) (b : VSrc) (c : VSrc) : Statement (.vmulB32 e a b c) := by
  intro k rest hw hk; cases hk
  refine one 0x02 (opc_encT _ _ _ _ _ (by decide)) rfl (fun ext => ?_) rest
  change decVint _ ext = _
  rw [decVint, opc_encT _ _ _ _ _ (by decide)]
  simp [scopeOf_encT, fA_encT, fB_encT, fC_encT, sAll, dVs_eVs, dVd_eVd, need, needOp, needScope, bind, Except.bind, pure, Except.pure]
theorem vmulhS32 (e : Scope) (a : VDst) (b : VSrc) (c : VSrc) : Statement (.vmulhS32 e a b c) := by
  intro k rest hw hk; cases hk
  refine one 0x03 (opc_encT _ _ _ _ _ (by decide)) rfl (fun ext => ?_) rest
  change decVint _ ext = _
  rw [decVint, opc_encT _ _ _ _ _ (by decide)]
  simp [scopeOf_encT, fA_encT, fB_encT, fC_encT, sAll, dVs_eVs, dVd_eVd, need, needOp, needScope, bind, Except.bind, pure, Except.pure]
theorem vmulhN32 (e : Scope) (a : VDst) (b : VSrc) (c : VSrc) : Statement (.vmulhN32 e a b c) := by
  intro k rest hw hk; cases hk
  refine one 0x04 (opc_encT _ _ _ _ _ (by decide)) rfl (fun ext => ?_) rest
  change decVint _ ext = _
  rw [decVint, opc_encT _ _ _ _ _ (by decide)]
  simp [scopeOf_encT, fA_encT, fB_encT, fC_encT, sAll, dVs_eVs, dVd_eVd, need, needOp, needScope, bind, Except.bind, pure, Except.pure]
theorem vaddiB32 (e : Scope) (a : BitVec 6) (i : BitVec 16) : Statement (.vaddiB32 e a i) := by
  intro k rest hw hk; cases hk
  refine one 0x05 (opc_encI _ _ _ _ (by decide)) rfl (fun ext => ?_) rest
  change decVint _ ext = _
  rw [decVint, opc_encI _ _ _ _ (by decide)]
  simp [scopeOf_encI, fA_encI, imm_encI, sAll, dRd_eRd, need, needOp, needScope, bind, Except.bind, pure, Except.pure]
theorem vmoviB32 (e : Scope) (a : VDst) (i : BitVec 16) : Statement (.vmoviB32 e a i) := by
  intro k rest hw hk; cases hk
  refine one 0x06 (opc_encI _ _ _ _ (by decide)) rfl (fun ext => ?_) rest
  change decVint _ ext = _
  rw [decVint, opc_encI _ _ _ _ (by decide)]
  simp [scopeOf_encI, fA_encI, imm_encI, sAll, dVd_eVd, need, needOp, needScope, bind, Except.bind, pure, Except.pure]
theorem vmovlB32 (e : Scope) (a : VDst) (lit : Word) : Statement (.vmovlB32 e a lit) := by
  intro k rest hw hk; cases hk
  refine two 0x07 (opc_encT _ _ _ _ _ (by decide)) rfl ?_ rest
  change decVint _ (.ok _) = _
  rw [decVint, opc_encT _ _ _ _ _ (by decide)]
  simp [scopeOf_encT, fA_encT, fB_encT, fC_encT, sAll, dVd_eVd, dZero_zero, need, needOp, needScope, bind, Except.bind, pure, Except.pure]
theorem vaddsS32 (e : Scope) (a : VDst) (b : VSrc) (c : VSrc) : Statement (.vaddsS32 e a b c) := by
  intro k rest hw hk; cases hk
  refine one 0x08 (opc_encT _ _ _ _ _ (by decide)) rfl (fun ext => ?_) rest
  change decVint _ ext = _
  rw [decVint, opc_encT _ _ _ _ _ (by decide)]
  simp [scopeOf_encT, fA_encT, fB_encT, fC_encT, sAll, dVs_eVs, dVd_eVd, need, needOp, needScope, bind, Except.bind, pure, Except.pure]
theorem vaddsN32 (e : Scope) (a : VDst) (b : VSrc) (c : VSrc) : Statement (.vaddsN32 e a b c) := by
  intro k rest hw hk; cases hk
  refine one 0x09 (opc_encT _ _ _ _ _ (by decide)) rfl (fun ext => ?_) rest
  change decVint _ ext = _
  rw [decVint, opc_encT _ _ _ _ _ (by decide)]
  simp [scopeOf_encT, fA_encT, fB_encT, fC_encT, sAll, dVs_eVs, dVd_eVd, need, needOp, needScope, bind, Except.bind, pure, Except.pure]
theorem vsubsS32 (e : Scope) (a : VDst) (b : VSrc) (c : VSrc) : Statement (.vsubsS32 e a b c) := by
  intro k rest hw hk; cases hk
  refine one 0x0A (opc_encT _ _ _ _ _ (by decide)) rfl (fun ext => ?_) rest
  change decVint _ ext = _
  rw [decVint, opc_encT _ _ _ _ _ (by decide)]
  simp [scopeOf_encT, fA_encT, fB_encT, fC_encT, sAll, dVs_eVs, dVd_eVd, need, needOp, needScope, bind, Except.bind, pure, Except.pure]
theorem vsubsN32 (e : Scope) (a : VDst) (b : VSrc) (c : VSrc) : Statement (.vsubsN32 e a b c) := by
  intro k rest hw hk; cases hk
  refine one 0x0B (opc_encT _ _ _ _ _ (by decide)) rfl (fun ext => ?_) rest
  change decVint _ ext = _
  rw [decVint, opc_encT _ _ _ _ _ (by decide)]
  simp [scopeOf_encT, fA_encT, fB_encT, fC_encT, sAll, dVs_eVs, dVd_eVd, need, needOp, needScope, bind, Except.bind, pure, Except.pure]
theorem vminS32 (e : Scope) (a : VDst) (b : VSrc) (c : VSrc) : Statement (.vminS32 e a b c) := by
  intro k rest hw hk; cases hk
  refine one 0x0C (opc_encT _ _ _ _ _ (by decide)) rfl (fun ext => ?_) rest
  change decVint _ ext = _
  rw [decVint, opc_encT _ _ _ _ _ (by decide)]
  simp [scopeOf_encT, fA_encT, fB_encT, fC_encT, sAll, dVs_eVs, dVd_eVd, need, needOp, needScope, bind, Except.bind, pure, Except.pure]
theorem vminN32 (e : Scope) (a : VDst) (b : VSrc) (c : VSrc) : Statement (.vminN32 e a b c) := by
  intro k rest hw hk; cases hk
  refine one 0x0D (opc_encT _ _ _ _ _ (by decide)) rfl (fun ext => ?_) rest
  change decVint _ ext = _
  rw [decVint, opc_encT _ _ _ _ _ (by decide)]
  simp [scopeOf_encT, fA_encT, fB_encT, fC_encT, sAll, dVs_eVs, dVd_eVd, need, needOp, needScope, bind, Except.bind, pure, Except.pure]
theorem vmaxS32 (e : Scope) (a : VDst) (b : VSrc) (c : VSrc) : Statement (.vmaxS32 e a b c) := by
  intro k rest hw hk; cases hk
  refine one 0x0E (opc_encT _ _ _ _ _ (by decide)) rfl (fun ext => ?_) rest
  change decVint _ ext = _
  rw [decVint, opc_encT _ _ _ _ _ (by decide)]
  simp [scopeOf_encT, fA_encT, fB_encT, fC_encT, sAll, dVs_eVs, dVd_eVd, need, needOp, needScope, bind, Except.bind, pure, Except.pure]
theorem vmaxN32 (e : Scope) (a : VDst) (b : VSrc) (c : VSrc) : Statement (.vmaxN32 e a b c) := by
  intro k rest hw hk; cases hk
  refine one 0x0F (opc_encT _ _ _ _ _ (by decide)) rfl (fun ext => ?_) rest
  change decVint _ ext = _
  rw [decVint, opc_encT _ _ _ _ _ (by decide)]
  simp [scopeOf_encT, fA_encT, fB_encT, fC_encT, sAll, dVs_eVs, dVd_eVd, need, needOp, needScope, bind, Except.bind, pure, Except.pure]
theorem vandB32 (e : Scope) (a : VDst) (b : VSrc) (c : VSrc) : Statement (.vandB32 e a b c) := by
  intro k rest hw hk; cases hk
  refine one 0x10 (opc_encT _ _ _ _ _ (by decide)) rfl (fun ext => ?_) rest
  change decVint _ ext = _
  rw [decVint, opc_encT _ _ _ _ _ (by decide)]
  simp [scopeOf_encT, fA_encT, fB_encT, fC_encT, sAll, dVs_eVs, dVd_eVd, need, needOp, needScope, bind, Except.bind, pure, Except.pure]
theorem vorB32 (e : Scope) (a : VDst) (b : VSrc) (c : VSrc) : Statement (.vorB32 e a b c) := by
  intro k rest hw hk; cases hk
  refine one 0x11 (opc_encT _ _ _ _ _ (by decide)) rfl (fun ext => ?_) rest
  change decVint _ ext = _
  rw [decVint, opc_encT _ _ _ _ _ (by decide)]
  simp [scopeOf_encT, fA_encT, fB_encT, fC_encT, sAll, dVs_eVs, dVd_eVd, need, needOp, needScope, bind, Except.bind, pure, Except.pure]
theorem vxorB32 (e : Scope) (a : VDst) (b : VSrc) (c : VSrc) : Statement (.vxorB32 e a b c) := by
  intro k rest hw hk; cases hk
  refine one 0x12 (opc_encT _ _ _ _ _ (by decide)) rfl (fun ext => ?_) rest
  change decVint _ ext = _
  rw [decVint, opc_encT _ _ _ _ _ (by decide)]
  simp [scopeOf_encT, fA_encT, fB_encT, fC_encT, sAll, dVs_eVs, dVd_eVd, need, needOp, needScope, bind, Except.bind, pure, Except.pure]
theorem vnotB32 (e : Scope) (a : VDst) (b : VSrc) : Statement (.vnotB32 e a b) := by
  intro k rest hw hk; cases hk
  refine one 0x13 (opc_encT _ _ _ _ _ (by decide)) rfl (fun ext => ?_) rest
  change decVint _ ext = _
  rw [decVint, opc_encT _ _ _ _ _ (by decide)]
  simp [scopeOf_encT, fA_encT, fB_encT, fC_encT, sAll, dVs_eVs, dVd_eVd, dZero_zero, need, needOp, needScope, bind, Except.bind, pure, Except.pure]
theorem vshlB32 (e : Scope) (a : VDst) (b : VSrc) (c : VSrc) : Statement (.vshlB32 e a b c) := by
  intro k rest hw hk; cases hk
  refine one 0x14 (opc_encT _ _ _ _ _ (by decide)) rfl (fun ext => ?_) rest
  change decVint _ ext = _
  rw [decVint, opc_encT _ _ _ _ _ (by decide)]
  simp [scopeOf_encT, fA_encT, fB_encT, fC_encT, sAll, dVs_eVs, dVd_eVd, need, needOp, needScope, bind, Except.bind, pure, Except.pure]
theorem vshrN32 (e : Scope) (a : VDst) (b : VSrc) (c : VSrc) : Statement (.vshrN32 e a b c) := by
  intro k rest hw hk; cases hk
  refine one 0x15 (opc_encT _ _ _ _ _ (by decide)) rfl (fun ext => ?_) rest
  change decVint _ ext = _
  rw [decVint, opc_encT _ _ _ _ _ (by decide)]
  simp [scopeOf_encT, fA_encT, fB_encT, fC_encT, sAll, dVs_eVs, dVd_eVd, need, needOp, needScope, bind, Except.bind, pure, Except.pure]
theorem vshrS32 (e : Scope) (a : VDst) (b : VSrc) (c : VSrc) : Statement (.vshrS32 e a b c) := by
  intro k rest hw hk; cases hk
  refine one 0x16 (opc_encT _ _ _ _ _ (by decide)) rfl (fun ext => ?_) rest
  change decVint _ ext = _
  rw [decVint, opc_encT _ _ _ _ _ (by decide)]
  simp [scopeOf_encT, fA_encT, fB_encT, fC_encT, sAll, dVs_eVs, dVd_eVd, need, needOp, needScope, bind, Except.bind, pure, Except.pure]
theorem vmovB32 (e : Scope) (a : VDst) (b : VSrc) : Statement (.vmovB32 e a b) := by
  intro k rest hw hk; cases hk
  refine one 0x17 (opc_encT _ _ _ _ _ (by decide)) rfl (fun ext => ?_) rest
  change decVint _ ext = _
  rw [decVint, opc_encT _ _ _ _ _ (by decide)]
  simp [scopeOf_encT, fA_encT, fB_encT, fC_encT, sAll, dVs_eVs, dVd_eVd, dZero_zero, need, needOp, needScope, bind, Except.bind, pure, Except.pure]
theorem vabsS32 (e : Scope) (a : VDst) (b : VSrc) : Statement (.vabsS32 e a b) := by
  intro k rest hw hk; cases hk
  refine one 0x18 (opc_encT _ _ _ _ _ (by decide)) rfl (fun ext => ?_) rest
  change decVint _ ext = _
  rw [decVint, opc_encT _ _ _ _ _ (by decide)]
  simp [scopeOf_encT, fA_encT, fB_encT, fC_encT, sAll, dVs_eVs, dVd_eVd, dZero_zero, need, needOp, needScope, bind, Except.bind, pure, Except.pure]
theorem vnegS32 (e : Scope) (a : VDst) (b : VSrc) : Statement (.vnegS32 e a b) := by
  intro k rest hw hk; cases hk
  refine one 0x19 (opc_encT _ _ _ _ _ (by decide)) rfl (fun ext => ?_) rest
  change decVint _ ext = _
  rw [decVint, opc_encT _ _ _ _ _ (by decide)]
  simp [scopeOf_encT, fA_encT, fB_encT, fC_encT, sAll, dVs_eVs, dVd_eVd, dZero_zero, need, needOp, needScope, bind, Except.bind, pure, Except.pure]
theorem vpopcB32 (e : Scope) (a : VDst) (b : VSrc) : Statement (.vpopcB32 e a b) := by
  intro k rest hw hk; cases hk
  refine one 0x1A (opc_encT _ _ _ _ _ (by decide)) rfl (fun ext => ?_) rest
  change decVint _ ext = _
  rw [decVint, opc_encT _ _ _ _ _ (by decide)]
  simp [scopeOf_encT, fA_encT, fB_encT, fC_encT, sAll, dVs_eVs, dVd_eVd, dZero_zero, need, needOp, needScope, bind, Except.bind, pure, Except.pure]
theorem vclzB32 (e : Scope) (a : VDst) (b : VSrc) : Statement (.vclzB32 e a b) := by
  intro k rest hw hk; cases hk
  refine one 0x1B (opc_encT _ _ _ _ _ (by decide)) rfl (fun ext => ?_) rest
  change decVint _ ext = _
  rw [decVint, opc_encT _ _ _ _ _ (by decide)]
  simp [scopeOf_encT, fA_encT, fB_encT, fC_encT, sAll, dVs_eVs, dVd_eVd, dZero_zero, need, needOp, needScope, bind, Except.bind, pure, Except.pure]
theorem vbrevB32 (e : Scope) (a : VDst) (b : VSrc) : Statement (.vbrevB32 e a b) := by
  intro k rest hw hk; cases hk
  refine one 0x1C (opc_encT _ _ _ _ _ (by decide)) rfl (fun ext => ?_) rest
  change decVint _ ext = _
  rw [decVint, opc_encT _ _ _ _ _ (by decide)]
  simp [scopeOf_encT, fA_encT, fB_encT, fC_encT, sAll, dVs_eVs, dVd_eVd, dZero_zero, need, needOp, needScope, bind, Except.bind, pure, Except.pure]
theorem vbfxN32 (e : Scope) (a : VDst) (b : VSrc) (c : VSrc) (len : BitVec 6) : Statement (.vbfxN32 e a b c len) := by
  intro k rest hw hk; cases hk
  refine two 0x1D (opc_encT _ _ _ _ _ (by decide)) rfl ?_ rest
  change decVint _ (.ok _) = _
  rw [decVint, opc_encT _ _ _ _ _ (by decide)]
  have hw : (decide (1 ≤ len.toNat && len.toNat ≤ 32)) = true := hw
  simp_all [scopeOf_encT, fA_encT, fB_encT, fC_encT, mD_encM, mT_encM, mS_encM, mM_encM, mM_rn, mM_rz, mO_encM, sAll, dVs_eVs, dVd_eVd, dLen_ext, modOk_encM, need, needOp, needScope, bind, Except.bind, pure, Except.pure]
theorem vbfxS32 (e : Scope) (a : VDst) (b : VSrc) (c : VSrc) (len : BitVec 6) : Statement (.vbfxS32 e a b c len) := by
  intro k rest hw hk; cases hk
  refine two 0x1E (opc_encT _ _ _ _ _ (by decide)) rfl ?_ rest
  change decVint _ (.ok _) = _
  rw [decVint, opc_encT _ _ _ _ _ (by decide)]
  have hw : (decide (1 ≤ len.toNat && len.toNat ≤ 32)) = true := hw
  simp_all [scopeOf_encT, fA_encT, fB_encT, fC_encT, mD_encM, mT_encM, mS_encM, mM_encM, mM_rn, mM_rz, mO_encM, sAll, dVs_eVs, dVd_eVd, dLen_ext, modOk_encM, need, needOp, needScope, bind, Except.bind, pure, Except.pure]
theorem vbfiB32 (e : Scope) (a : BitVec 6) (b : VSrc) (c : VSrc) (len : BitVec 6) : Statement (.vbfiB32 e a b c len) := by
  intro k rest hw hk; cases hk
  refine two 0x1F (opc_encT _ _ _ _ _ (by decide)) rfl ?_ rest
  change decVint _ (.ok _) = _
  rw [decVint, opc_encT _ _ _ _ _ (by decide)]
  have hw : (decide (1 ≤ len.toNat && len.toNat ≤ 32)) = true := hw
  simp_all [scopeOf_encT, fA_encT, fB_encT, fC_encT, mD_encM, mT_encM, mS_encM, mM_encM, mM_rn, mM_rz, mO_encM, sAll, dVs_eVs, dRd_eRd, dLen_ext, modOk_encM, need, needOp, needScope, bind, Except.bind, pure, Except.pure]
theorem vceqB32 (e : Scope) (a : BitVec 3) (b : VSrc) (c : VSrc) : Statement (.vceqB32 e a b c) := by
  intro k rest hw hk; cases hk
  refine one 0x20 (opc_encT _ _ _ _ _ (by decide)) rfl (fun ext => ?_) rest
  change decVint _ ext = _
  rw [decVint, opc_encT _ _ _ _ _ (by decide)]
  have hw : (pdstOk a) = true := hw
  simp_all [scopeOf_encT, fA_encT, fB_encT, fC_encT, sAll, dVs_eVs, dPrd_ePrd, need, needOp, needScope, bind, Except.bind, pure, Except.pure]
theorem vcneB32 (e : Scope) (a : BitVec 3) (b : VSrc) (c : VSrc) : Statement (.vcneB32 e a b c) := by
  intro k rest hw hk; cases hk
  refine one 0x21 (opc_encT _ _ _ _ _ (by decide)) rfl (fun ext => ?_) rest
  change decVint _ ext = _
  rw [decVint, opc_encT _ _ _ _ _ (by decide)]
  have hw : (pdstOk a) = true := hw
  simp_all [scopeOf_encT, fA_encT, fB_encT, fC_encT, sAll, dVs_eVs, dPrd_ePrd, need, needOp, needScope, bind, Except.bind, pure, Except.pure]
theorem vcltS32 (e : Scope) (a : BitVec 3) (b : VSrc) (c : VSrc) : Statement (.vcltS32 e a b c) := by
  intro k rest hw hk; cases hk
  refine one 0x22 (opc_encT _ _ _ _ _ (by decide)) rfl (fun ext => ?_) rest
  change decVint _ ext = _
  rw [decVint, opc_encT _ _ _ _ _ (by decide)]
  have hw : (pdstOk a) = true := hw
  simp_all [scopeOf_encT, fA_encT, fB_encT, fC_encT, sAll, dVs_eVs, dPrd_ePrd, need, needOp, needScope, bind, Except.bind, pure, Except.pure]
theorem vcltN32 (e : Scope) (a : BitVec 3) (b : VSrc) (c : VSrc) : Statement (.vcltN32 e a b c) := by
  intro k rest hw hk; cases hk
  refine one 0x23 (opc_encT _ _ _ _ _ (by decide)) rfl (fun ext => ?_) rest
  change decVint _ ext = _
  rw [decVint, opc_encT _ _ _ _ _ (by decide)]
  have hw : (pdstOk a) = true := hw
  simp_all [scopeOf_encT, fA_encT, fB_encT, fC_encT, sAll, dVs_eVs, dPrd_ePrd, need, needOp, needScope, bind, Except.bind, pure, Except.pure]
theorem vcleS32 (e : Scope) (a : BitVec 3) (b : VSrc) (c : VSrc) : Statement (.vcleS32 e a b c) := by
  intro k rest hw hk; cases hk
  refine one 0x24 (opc_encT _ _ _ _ _ (by decide)) rfl (fun ext => ?_) rest
  change decVint _ ext = _
  rw [decVint, opc_encT _ _ _ _ _ (by decide)]
  have hw : (pdstOk a) = true := hw
  simp_all [scopeOf_encT, fA_encT, fB_encT, fC_encT, sAll, dVs_eVs, dPrd_ePrd, need, needOp, needScope, bind, Except.bind, pure, Except.pure]
theorem vcleN32 (e : Scope) (a : BitVec 3) (b : VSrc) (c : VSrc) : Statement (.vcleN32 e a b c) := by
  intro k rest hw hk; cases hk
  refine one 0x25 (opc_encT _ _ _ _ _ (by decide)) rfl (fun ext => ?_) rest
  change decVint _ ext = _
  rw [decVint, opc_encT _ _ _ _ _ (by decide)]
  have hw : (pdstOk a) = true := hw
  simp_all [scopeOf_encT, fA_encT, fB_encT, fC_encT, sAll, dVs_eVs, dPrd_ePrd, need, needOp, needScope, bind, Except.bind, pure, Except.pure]
theorem vselB32 (e : Scope) (a : VDst) (b : VSrc) (c : VSrc) (d : Pred) : Statement (.vselB32 e a b c d) := by
  intro k rest hw hk; cases hk
  refine two 0x26 (opc_encT _ _ _ _ _ (by decide)) rfl ?_ rest
  change decVint _ (.ok _) = _
  rw [decVint, opc_encT _ _ _ _ _ (by decide)]
  simp [scopeOf_encT, fA_encT, fB_encT, fC_encT, mD_encM, mT_encM, mS_encM, mM_encM, mM_rn, mM_rz, mO_encM, sAll, dVs_eVs, dVd_eVd, dPrs_ePrs, modOk_encM, need, needOp, needScope, bind, Except.bind, pure, Except.pure]
theorem vext (e : Scope) (ty : Ty) (st : Ty) (a : VDst) (b : VSrc) (i : BitVec 8) : Statement (.vext e ty st a b i) := by
  intro k rest hw hk; cases hk
  refine two 0x27 (opc_encT _ _ _ _ _ (by decide)) rfl ?_ rest
  change decVint _ (.ok _) = _
  rw [decVint, opc_encT _ _ _ _ _ (by decide)]
  have hw : (vextOk ty st a i) = true := hw
  simp_all [scopeOf_encT, fA_encT, fB_encT, fC_encT, mD_encM, mT_encM, mS_encM, mM_encM, mM_rn, mM_rz, mO_encM, sAll, dVs_eVs, dVd_eVd, dByte_self, vextOk, modOk_encM, need, needOp, needScope, bind, Except.bind, pure, Except.pure]
theorem pand (e : Scope) (a : BitVec 3) (b : Pred) (c : Pred) : Statement (.pand e a b c) := by
  intro k rest hw hk; cases hk
  refine one 0x28 (opc_encT _ _ _ _ _ (by decide)) rfl (fun ext => ?_) rest
  change decVint _ ext = _
  rw [decVint, opc_encT _ _ _ _ _ (by decide)]
  have hw : (pdstOk a) = true := hw
  simp_all [scopeOf_encT, fA_encT, fB_encT, fC_encT, sAll, dPrs_ePrs, dPrd_ePrd, need, needOp, needScope, bind, Except.bind, pure, Except.pure]
theorem por (e : Scope) (a : BitVec 3) (b : Pred) (c : Pred) : Statement (.por e a b c) := by
  intro k rest hw hk; cases hk
  refine one 0x29 (opc_encT _ _ _ _ _ (by decide)) rfl (fun ext => ?_) rest
  change decVint _ ext = _
  rw [decVint, opc_encT _ _ _ _ _ (by decide)]
  have hw : (pdstOk a) = true := hw
  simp_all [scopeOf_encT, fA_encT, fB_encT, fC_encT, sAll, dPrs_ePrs, dPrd_ePrd, need, needOp, needScope, bind, Except.bind, pure, Except.pure]
theorem pxor (e : Scope) (a : BitVec 3) (b : Pred) (c : Pred) : Statement (.pxor e a b c) := by
  intro k rest hw hk; cases hk
  refine one 0x2A (opc_encT _ _ _ _ _ (by decide)) rfl (fun ext => ?_) rest
  change decVint _ ext = _
  rw [decVint, opc_encT _ _ _ _ _ (by decide)]
  have hw : (pdstOk a) = true := hw
  simp_all [scopeOf_encT, fA_encT, fB_encT, fC_encT, sAll, dPrs_ePrs, dPrd_ePrd, need, needOp, needScope, bind, Except.bind, pure, Except.pure]
theorem pnot (e : Scope) (a : BitVec 3) (b : Pred) : Statement (.pnot e a b) := by
  intro k rest hw hk; cases hk
  refine one 0x2B (opc_encT _ _ _ _ _ (by decide)) rfl (fun ext => ?_) rest
  change decVint _ ext = _
  rw [decVint, opc_encT _ _ _ _ _ (by decide)]
  have hw : (pdstOk a) = true := hw
  simp_all [scopeOf_encT, fA_encT, fB_encT, fC_encT, sAll, dPrs_ePrs, dPrd_ePrd, dZero_zero, need, needOp, needScope, bind, Except.bind, pure, Except.pure]
theorem vbcast (e : Scope) (a : VDst) (b : RSrc) : Statement (.vbcast e a b) := by
  intro k rest hw hk; cases hk
  refine one 0x2C (opc_encT _ _ _ _ _ (by decide)) rfl (fun ext => ?_) rest
  change decVint _ ext = _
  rw [decVint, opc_encT _ _ _ _ _ (by decide)]
  simp [scopeOf_encT, fA_encT, fB_encT, fC_encT, sAll, dVd_eVd, dRs_eRs, dZero_zero, need, needOp, needScope, bind, Except.bind, pure, Except.pure]
theorem vfirst (e : Scope) (a : BitVec 6) (b : VSrc) : Statement (.vfirst e a b) := by
  intro k rest hw hk; cases hk
  refine one 0x2D (opc_encT _ _ _ _ _ (by decide)) rfl (fun ext => ?_) rest
  change decVint _ ext = _
  rw [decVint, opc_encT _ _ _ _ _ (by decide)]
  simp [scopeOf_encT, fA_encT, fB_encT, fC_encT, sAll, dVs_eVs, dRd_eRd, dZero_zero, need, needOp, needScope, bind, Except.bind, pure, Except.pure]
theorem vlane (e : Scope) (a : BitVec 6) (b : VSrc) (c : RSrc) : Statement (.vlane e a b c) := by
  intro k rest hw hk; cases hk
  refine one 0x2E (opc_encT _ _ _ _ _ (by decide)) rfl (fun ext => ?_) rest
  change decVint _ ext = _
  rw [decVint, opc_encT _ _ _ _ _ (by decide)]
  simp [scopeOf_encT, fA_encT, fB_encT, fC_encT, sAll, dVs_eVs, dRs_eRs, dRd_eRd, need, needOp, needScope, bind, Except.bind, pure, Except.pure]
theorem vvote (e : Scope) (a : BitVec 6) (b : Pred) : Statement (.vvote e a b) := by
  intro k rest hw hk; cases hk
  refine one 0x2F (opc_encT _ _ _ _ _ (by decide)) rfl (fun ext => ?_) rest
  change decVint _ ext = _
  rw [decVint, opc_encT _ _ _ _ _ (by decide)]
  simp [scopeOf_encT, fA_encT, fB_encT, fC_encT, sAll, dRd_eRd, dPrs_ePrs, dZero_zero, need, needOp, needScope, bind, Except.bind, pure, Except.pure]
theorem vshflB32 (e : Scope) (a : VDst) (b : VSrc) (c : VSrc) : Statement (.vshflB32 e a b c) := by
  intro k rest hw hk; cases hk
  refine one 0x30 (opc_encT _ _ _ _ _ (by decide)) rfl (fun ext => ?_) rest
  change decVint _ ext = _
  rw [decVint, opc_encT _ _ _ _ _ (by decide)]
  have hw : (e.wide) = true := hw
  simp_all [scopeOf_encT, fA_encT, fB_encT, fC_encT, sGSB, dVs_eVs, dVd_eVd, need, needOp, needScope, bind, Except.bind, pure, Except.pure]
theorem vrsumB32 (e : Scope) (a : VDst) (b : VSrc) : Statement (.vrsumB32 e a b) := by
  intro k rest hw hk; cases hk
  refine one 0x31 (opc_encT _ _ _ _ _ (by decide)) rfl (fun ext => ?_) rest
  change decVint _ ext = _
  rw [decVint, opc_encT _ _ _ _ _ (by decide)]
  have hw : (e.wide) = true := hw
  simp_all [scopeOf_encT, fA_encT, fB_encT, fC_encT, sGSB, dVs_eVs, dVd_eVd, dZero_zero, need, needOp, needScope, bind, Except.bind, pure, Except.pure]
theorem vrminS32 (e : Scope) (a : VDst) (b : VSrc) : Statement (.vrminS32 e a b) := by
  intro k rest hw hk; cases hk
  refine one 0x32 (opc_encT _ _ _ _ _ (by decide)) rfl (fun ext => ?_) rest
  change decVint _ ext = _
  rw [decVint, opc_encT _ _ _ _ _ (by decide)]
  have hw : (e.wide) = true := hw
  simp_all [scopeOf_encT, fA_encT, fB_encT, fC_encT, sGSB, dVs_eVs, dVd_eVd, dZero_zero, need, needOp, needScope, bind, Except.bind, pure, Except.pure]
theorem vrminN32 (e : Scope) (a : VDst) (b : VSrc) : Statement (.vrminN32 e a b) := by
  intro k rest hw hk; cases hk
  refine one 0x33 (opc_encT _ _ _ _ _ (by decide)) rfl (fun ext => ?_) rest
  change decVint _ ext = _
  rw [decVint, opc_encT _ _ _ _ _ (by decide)]
  have hw : (e.wide) = true := hw
  simp_all [scopeOf_encT, fA_encT, fB_encT, fC_encT, sGSB, dVs_eVs, dVd_eVd, dZero_zero, need, needOp, needScope, bind, Except.bind, pure, Except.pure]
theorem vrmaxS32 (e : Scope) (a : VDst) (b : VSrc) : Statement (.vrmaxS32 e a b) := by
  intro k rest hw hk; cases hk
  refine one 0x34 (opc_encT _ _ _ _ _ (by decide)) rfl (fun ext => ?_) rest
  change decVint _ ext = _
  rw [decVint, opc_encT _ _ _ _ _ (by decide)]
  have hw : (e.wide) = true := hw
  simp_all [scopeOf_encT, fA_encT, fB_encT, fC_encT, sGSB, dVs_eVs, dVd_eVd, dZero_zero, need, needOp, needScope, bind, Except.bind, pure, Except.pure]
theorem vrmaxN32 (e : Scope) (a : VDst) (b : VSrc) : Statement (.vrmaxN32 e a b) := by
  intro k rest hw hk; cases hk
  refine one 0x35 (opc_encT _ _ _ _ _ (by decide)) rfl (fun ext => ?_) rest
  change decVint _ ext = _
  rw [decVint, opc_encT _ _ _ _ _ (by decide)]
  have hw : (e.wide) = true := hw
  simp_all [scopeOf_encT, fA_encT, fB_encT, fC_encT, sGSB, dVs_eVs, dVd_eVd, dZero_zero, need, needOp, needScope, bind, Except.bind, pure, Except.pure]
theorem vscanB32 (e : Scope) (a : VDst) (b : VSrc) : Statement (.vscanB32 e a b) := by
  intro k rest hw hk; cases hk
  refine one 0x36 (opc_encT _ _ _ _ _ (by decide)) rfl (fun ext => ?_) rest
  change decVint _ ext = _
  rw [decVint, opc_encT _ _ _ _ _ (by decide)]
  have hw : (e.wide) = true := hw
  simp_all [scopeOf_encT, fA_encT, fB_encT, fC_encT, sGSB, dVs_eVs, dVd_eVd, dZero_zero, need, needOp, needScope, bind, Except.bind, pure, Except.pure]
theorem vrotlB32 (e : Scope) (a : VDst) (b : VSrc) (c : VSrc) : Statement (.vrotlB32 e a b c) := by
  intro k rest hw hk; cases hk
  refine one 0x37 (opc_encT _ _ _ _ _ (by decide)) rfl (fun ext => ?_) rest
  change decVint _ ext = _
  rw [decVint, opc_encT _ _ _ _ _ (by decide)]
  simp [scopeOf_encT, fA_encT, fB_encT, fC_encT, sAll, dVs_eVs, dVd_eVd, need, needOp, needScope, bind, Except.bind, pure, Except.pure]
theorem fadd (e : Scope) (a : VDst) (b : VSrc) (c : VSrc) : Statement (.fadd e a b c) := by
  intro k rest hw hk; cases hk
  refine one 0x00 (opc_encT _ _ _ _ _ (by decide)) rfl (fun ext => ?_) rest
  change decVflt _ ext = _
  rw [decVflt, opc_encT _ _ _ _ _ (by decide)]
  simp [scopeOf_encT, fA_encT, fB_encT, fC_encT, sAll, dVs_eVs, dVd_eVd, need, needOp, needScope, bind, Except.bind, pure, Except.pure]
theorem faddX (e : Scope) (ty : Ty) (m : Rnd) (a : VDst) (b : VSrc) (c : VSrc) : Statement (.faddX e ty m a b c) := by
  intro k rest hw hk; cases hk
  refine two 0x01 (opc_encT _ _ _ _ _ (by decide)) rfl ?_ rest
  change decVflt _ (.ok _) = _
  rw [decVflt, opc_encT _ _ _ _ _ (by decide)]
  have hw : (isF3 ty) = true := hw
  simp_all [scopeOf_encT, fA_encT, fB_encT, fC_encT, mD_encM, mT_encM, mS_encM, mM_encM, mM_rn, mM_rz, mO_encM, sAll, dVs_eVs, dVd_eVd, modOk_encM, need, needOp, needScope, bind, Except.bind, pure, Except.pure]
theorem fsub (e : Scope) (a : VDst) (b : VSrc) (c : VSrc) : Statement (.fsub e a b c) := by
  intro k rest hw hk; cases hk
  refine one 0x02 (opc_encT _ _ _ _ _ (by decide)) rfl (fun ext => ?_) rest
  change decVflt _ ext = _
  rw [decVflt, opc_encT _ _ _ _ _ (by decide)]
  simp [scopeOf_encT, fA_encT, fB_encT, fC_encT, sAll, dVs_eVs, dVd_eVd, need, needOp, needScope, bind, Except.bind, pure, Except.pure]
theorem fsubX (e : Scope) (ty : Ty) (m : Rnd) (a : VDst) (b : VSrc) (c : VSrc) : Statement (.fsubX e ty m a b c) := by
  intro k rest hw hk; cases hk
  refine two 0x03 (opc_encT _ _ _ _ _ (by decide)) rfl ?_ rest
  change decVflt _ (.ok _) = _
  rw [decVflt, opc_encT _ _ _ _ _ (by decide)]
  have hw : (isF3 ty) = true := hw
  simp_all [scopeOf_encT, fA_encT, fB_encT, fC_encT, mD_encM, mT_encM, mS_encM, mM_encM, mM_rn, mM_rz, mO_encM, sAll, dVs_eVs, dVd_eVd, modOk_encM, need, needOp, needScope, bind, Except.bind, pure, Except.pure]
theorem fmul (e : Scope) (a : VDst) (b : VSrc) (c : VSrc) : Statement (.fmul e a b c) := by
  intro k rest hw hk; cases hk
  refine one 0x04 (opc_encT _ _ _ _ _ (by decide)) rfl (fun ext => ?_) rest
  change decVflt _ ext = _
  rw [decVflt, opc_encT _ _ _ _ _ (by decide)]
  simp [scopeOf_encT, fA_encT, fB_encT, fC_encT, sAll, dVs_eVs, dVd_eVd, need, needOp, needScope, bind, Except.bind, pure, Except.pure]
theorem fmulX (e : Scope) (ty : Ty) (m : Rnd) (a : VDst) (b : VSrc) (c : VSrc) : Statement (.fmulX e ty m a b c) := by
  intro k rest hw hk; cases hk
  refine two 0x05 (opc_encT _ _ _ _ _ (by decide)) rfl ?_ rest
  change decVflt _ (.ok _) = _
  rw [decVflt, opc_encT _ _ _ _ _ (by decide)]
  have hw : (isF3 ty) = true := hw
  simp_all [scopeOf_encT, fA_encT, fB_encT, fC_encT, mD_encM, mT_encM, mS_encM, mM_encM, mM_rn, mM_rz, mO_encM, sAll, dVs_eVs, dVd_eVd, modOk_encM, need, needOp, needScope, bind, Except.bind, pure, Except.pure]
theorem ffma (e : Scope) (a : BitVec 6) (b : VSrc) (c : VSrc) : Statement (.ffma e a b c) := by
  intro k rest hw hk; cases hk
  refine one 0x06 (opc_encT _ _ _ _ _ (by decide)) rfl (fun ext => ?_) rest
  change decVflt _ ext = _
  rw [decVflt, opc_encT _ _ _ _ _ (by decide)]
  simp [scopeOf_encT, fA_encT, fB_encT, fC_encT, sAll, dVs_eVs, dRd_eRd, need, needOp, needScope, bind, Except.bind, pure, Except.pure]
theorem ffmaX (e : Scope) (ty : Ty) (m : Rnd) (a : VDst) (b : VSrc) (c : VSrc) (d : VSrc) : Statement (.ffmaX e ty m a b c d) := by
  intro k rest hw hk; cases hk
  refine two 0x07 (opc_encT _ _ _ _ _ (by decide)) rfl ?_ rest
  change decVflt _ (.ok _) = _
  rw [decVflt, opc_encT _ _ _ _ _ (by decide)]
  have hw : (isF3 ty) = true := hw
  simp_all [scopeOf_encT, fA_encT, fB_encT, fC_encT, mD_encM, mT_encM, mS_encM, mM_encM, mM_rn, mM_rz, mO_encM, sAll, dVs_eVs, dVd_eVd, modOk_encM, need, needOp, needScope, bind, Except.bind, pure, Except.pure]
theorem fdiv (e : Scope) (a : VDst) (b : VSrc) (c : VSrc) : Statement (.fdiv e a b c) := by
  intro k rest hw hk; cases hk
  refine one 0x08 (opc_encT _ _ _ _ _ (by decide)) rfl (fun ext => ?_) rest
  change decVflt _ ext = _
  rw [decVflt, opc_encT _ _ _ _ _ (by decide)]
  simp [scopeOf_encT, fA_encT, fB_encT, fC_encT, sAll, dVs_eVs, dVd_eVd, need, needOp, needScope, bind, Except.bind, pure, Except.pure]
theorem fdivX (e : Scope) (ty : Ty) (m : Rnd) (a : VDst) (b : VSrc) (c : VSrc) : Statement (.fdivX e ty m a b c) := by
  intro k rest hw hk; cases hk
  refine two 0x09 (opc_encT _ _ _ _ _ (by decide)) rfl ?_ rest
  change decVflt _ (.ok _) = _
  rw [decVflt, opc_encT _ _ _ _ _ (by decide)]
  have hw : (isF3 ty) = true := hw
  simp_all [scopeOf_encT, fA_encT, fB_encT, fC_encT, mD_encM, mT_encM, mS_encM, mM_encM, mM_rn, mM_rz, mO_encM, sAll, dVs_eVs, dVd_eVd, modOk_encM, need, needOp, needScope, bind, Except.bind, pure, Except.pure]
theorem fsqrt (e : Scope) (a : VDst) (b : VSrc) : Statement (.fsqrt e a b) := by
  intro k rest hw hk; cases hk
  refine one 0x0A (opc_encT _ _ _ _ _ (by decide)) rfl (fun ext => ?_) rest
  change decVflt _ ext = _
  rw [decVflt, opc_encT _ _ _ _ _ (by decide)]
  simp [scopeOf_encT, fA_encT, fB_encT, fC_encT, sAll, dVs_eVs, dVd_eVd, dZero_zero, need, needOp, needScope, bind, Except.bind, pure, Except.pure]
theorem fsqrtX (e : Scope) (ty : Ty) (m : Rnd) (a : VDst) (b : VSrc) : Statement (.fsqrtX e ty m a b) := by
  intro k rest hw hk; cases hk
  refine two 0x0B (opc_encT _ _ _ _ _ (by decide)) rfl ?_ rest
  change decVflt _ (.ok _) = _
  rw [decVflt, opc_encT _ _ _ _ _ (by decide)]
  have hw : (isF3 ty) = true := hw
  simp_all [scopeOf_encT, fA_encT, fB_encT, fC_encT, mD_encM, mT_encM, mS_encM, mM_encM, mM_rn, mM_rz, mO_encM, sAll, dVs_eVs, dVd_eVd, dZero_zero, modOk_encM, need, needOp, needScope, bind, Except.bind, pure, Except.pure]
theorem fmin (e : Scope) (a : VDst) (b : VSrc) (c : VSrc) : Statement (.fmin e a b c) := by
  intro k rest hw hk; cases hk
  refine one 0x0C (opc_encT _ _ _ _ _ (by decide)) rfl (fun ext => ?_) rest
  change decVflt _ ext = _
  rw [decVflt, opc_encT _ _ _ _ _ (by decide)]
  simp [scopeOf_encT, fA_encT, fB_encT, fC_encT, sAll, dVs_eVs, dVd_eVd, need, needOp, needScope, bind, Except.bind, pure, Except.pure]
theorem fmax (e : Scope) (a : VDst) (b : VSrc) (c : VSrc) : Statement (.fmax e a b c) := by
  intro k rest hw hk; cases hk
  refine one 0x0D (opc_encT _ _ _ _ _ (by decide)) rfl (fun ext => ?_) rest
  change decVflt _ ext = _
  rw [decVflt, opc_encT _ _ _ _ _ (by decide)]
  simp [scopeOf_encT, fA_encT, fB_encT, fC_encT, sAll, dVs_eVs, dVd_eVd, need, needOp, needScope, bind, Except.bind, pure, Except.pure]
theorem fabs (e : Scope) (a : VDst) (b : VSrc) : Statement (.fabs e a b) := by
  intro k rest hw hk; cases hk
  refine one 0x0E (opc_encT _ _ _ _ _ (by decide)) rfl (fun ext => ?_) rest
  change decVflt _ ext = _
  rw [decVflt, opc_encT _ _ _ _ _ (by decide)]
  simp [scopeOf_encT, fA_encT, fB_encT, fC_encT, sAll, dVs_eVs, dVd_eVd, dZero_zero, need, needOp, needScope, bind, Except.bind, pure, Except.pure]
theorem fneg (e : Scope) (a : VDst) (b : VSrc) : Statement (.fneg e a b) := by
  intro k rest hw hk; cases hk
  refine one 0x0F (opc_encT _ _ _ _ _ (by decide)) rfl (fun ext => ?_) rest
  change decVflt _ ext = _
  rw [decVflt, opc_encT _ _ _ _ _ (by decide)]
  simp [scopeOf_encT, fA_encT, fB_encT, fC_encT, sAll, dVs_eVs, dVd_eVd, dZero_zero, need, needOp, needScope, bind, Except.bind, pure, Except.pure]
theorem fceq (e : Scope) (a : BitVec 3) (b : VSrc) (c : VSrc) : Statement (.fceq e a b c) := by
  intro k rest hw hk; cases hk
  refine one 0x10 (opc_encT _ _ _ _ _ (by decide)) rfl (fun ext => ?_) rest
  change decVflt _ ext = _
  rw [decVflt, opc_encT _ _ _ _ _ (by decide)]
  have hw : (pdstOk a) = true := hw
  simp_all [scopeOf_encT, fA_encT, fB_encT, fC_encT, sAll, dVs_eVs, dPrd_ePrd, need, needOp, needScope, bind, Except.bind, pure, Except.pure]
theorem fclt (e : Scope) (a : BitVec 3) (b : VSrc) (c : VSrc) : Statement (.fclt e a b c) := by
  intro k rest hw hk; cases hk
  refine one 0x11 (opc_encT _ _ _ _ _ (by decide)) rfl (fun ext => ?_) rest
  change decVflt _ ext = _
  rw [decVflt, opc_encT _ _ _ _ _ (by decide)]
  have hw : (pdstOk a) = true := hw
  simp_all [scopeOf_encT, fA_encT, fB_encT, fC_encT, sAll, dVs_eVs, dPrd_ePrd, need, needOp, needScope, bind, Except.bind, pure, Except.pure]
theorem fcle (e : Scope) (a : BitVec 3) (b : VSrc) (c : VSrc) : Statement (.fcle e a b c) := by
  intro k rest hw hk; cases hk
  refine one 0x12 (opc_encT _ _ _ _ _ (by decide)) rfl (fun ext => ?_) rest
  change decVflt _ ext = _
  rw [decVflt, opc_encT _ _ _ _ _ (by decide)]
  have hw : (pdstOk a) = true := hw
  simp_all [scopeOf_encT, fA_encT, fB_encT, fC_encT, sAll, dVs_eVs, dPrd_ePrd, need, needOp, needScope, bind, Except.bind, pure, Except.pure]
theorem fcun (e : Scope) (a : BitVec 3) (b : VSrc) (c : VSrc) : Statement (.fcun e a b c) := by
  intro k rest hw hk; cases hk
  refine one 0x13 (opc_encT _ _ _ _ _ (by decide)) rfl (fun ext => ?_) rest
  change decVflt _ ext = _
  rw [decVflt, opc_encT _ _ _ _ _ (by decide)]
  have hw : (pdstOk a) = true := hw
  simp_all [scopeOf_encT, fA_encT, fB_encT, fC_encT, sAll, dVs_eVs, dPrd_ePrd, need, needOp, needScope, bind, Except.bind, pure, Except.pure]
theorem fcvt (e : Scope) (ty : Ty) (st : Ty) (m : Rnd) (a : VDst) (b : VSrc) (i : BitVec 8) (j : BitVec 8) : Statement (.fcvt e ty st m a b i j) := by
  intro k rest hw hk; cases hk
  refine two 0x14 (opc_encT _ _ _ _ _ (by decide)) rfl ?_ rest
  change decVflt _ (.ok _) = _
  rw [decVflt, opc_encT _ _ _ _ _ (by decide)]
  have hw : (fcvtOk ty st a i j) = true := hw
  simp_all [scopeOf_encT, fA_encT, fB_encT, fC_encT, mD_encM, mT_encM, mS_encM, mM_encM, mM_rn, mM_rz, mO_encM, sAll, dVs_eVs, dVd_eVd, dByte_self, fcvtOk, modOk_encM, need, needOp, needScope, bind, Except.bind, pure, Except.pure]
theorem fscl (e : Scope) (a : VDst) (b : VSrc) (c : VSrc) : Statement (.fscl e a b c) := by
  intro k rest hw hk; cases hk
  refine one 0x15 (opc_encT _ _ _ _ _ (by decide)) rfl (fun ext => ?_) rest
  change decVflt _ ext = _
  rw [decVflt, opc_encT _ _ _ _ _ (by decide)]
  simp [scopeOf_encT, fA_encT, fB_encT, fC_encT, sAll, dVs_eVs, dVd_eVd, need, needOp, needScope, bind, Except.bind, pure, Except.pure]
theorem fsclX (e : Scope) (m : Rnd) (a : VDst) (b : VSrc) (c : VSrc) : Statement (.fsclX e m a b c) := by
  intro k rest hw hk; cases hk
  refine two 0x16 (opc_encT _ _ _ _ _ (by decide)) rfl ?_ rest
  change decVflt _ (.ok _) = _
  rw [decVflt, opc_encT _ _ _ _ _ (by decide)]
  simp [scopeOf_encT, fA_encT, fB_encT, fC_encT, mD_encM, mT_encM, mS_encM, mM_encM, mM_rn, mM_rz, mO_encM, sAll, dVs_eVs, dVd_eVd, modOk_encM, need, needOp, needScope, bind, Except.bind, pure, Except.pure]
theorem pdot4 (e : Scope) (ty : Ty) (st : Ty) (m : Rnd) (a : VDst) (b : VSrc) (c : VSrc) (d : VSrc) : Statement (.pdot4 e ty st m a b c d) := by
  intro k rest hw hk; cases hk
  refine two 0x18 (opc_encT _ _ _ _ _ (by decide)) rfl ?_ rest
  change decVflt _ (.ok _) = _
  rw [decVflt, opc_encT _ _ _ _ _ (by decide)]
  have hw : (isD4 ty && isD4 st) = true := hw
  simp_all [scopeOf_encT, fA_encT, fB_encT, fC_encT, mD_encM, mT_encM, mS_encM, mM_encM, mM_rn, mM_rz, mO_encM, sAll, dVs_eVs, dVd_eVd, modOk_encM, need, needOp, needScope, bind, Except.bind, pure, Except.pure]
theorem pdot8 (e : Scope) (ty : Ty) (st : Ty) (m : Rnd) (a : VDst) (b : VSrc) (c : VSrc) (d : VSrc) : Statement (.pdot8 e ty st m a b c d) := by
  intro k rest hw hk; cases hk
  refine two 0x19 (opc_encT _ _ _ _ _ (by decide)) rfl ?_ rest
  change decVflt _ (.ok _) = _
  rw [decVflt, opc_encT _ _ _ _ _ (by decide)]
  have hw : (isD8 ty && isD8 st) = true := hw
  simp_all [scopeOf_encT, fA_encT, fB_encT, fC_encT, mD_encM, mT_encM, mS_encM, mM_encM, mM_rn, mM_rz, mO_encM, sAll, dVs_eVs, dVd_eVd, modOk_encM, need, needOp, needScope, bind, Except.bind, pure, Except.pure]
theorem hadd2 (e : Scope) (ty : Ty) (m : Rnd) (a : VDst) (b : VSrc) (c : VSrc) : Statement (.hadd2 e ty m a b c) := by
  intro k rest hw hk; cases hk
  refine two 0x1A (opc_encT _ _ _ _ _ (by decide)) rfl ?_ rest
  change decVflt _ (.ok _) = _
  rw [decVflt, opc_encT _ _ _ _ _ (by decide)]
  have hw : (isH2 ty) = true := hw
  simp_all [scopeOf_encT, fA_encT, fB_encT, fC_encT, mD_encM, mT_encM, mS_encM, mM_encM, mM_rn, mM_rz, mO_encM, sAll, dVs_eVs, dVd_eVd, modOk_encM, need, needOp, needScope, bind, Except.bind, pure, Except.pure]
theorem hmul2 (e : Scope) (ty : Ty) (m : Rnd) (a : VDst) (b : VSrc) (c : VSrc) : Statement (.hmul2 e ty m a b c) := by
  intro k rest hw hk; cases hk
  refine two 0x1B (opc_encT _ _ _ _ _ (by decide)) rfl ?_ rest
  change decVflt _ (.ok _) = _
  rw [decVflt, opc_encT _ _ _ _ _ (by decide)]
  have hw : (isH2 ty) = true := hw
  simp_all [scopeOf_encT, fA_encT, fB_encT, fC_encT, mD_encM, mT_encM, mS_encM, mM_encM, mM_rn, mM_rz, mO_encM, sAll, dVs_eVs, dVd_eVd, modOk_encM, need, needOp, needScope, bind, Except.bind, pure, Except.pure]
theorem hfma2 (e : Scope) (ty : Ty) (m : Rnd) (a : VDst) (b : VSrc) (c : VSrc) (d : VSrc) : Statement (.hfma2 e ty m a b c d) := by
  intro k rest hw hk; cases hk
  refine two 0x1C (opc_encT _ _ _ _ _ (by decide)) rfl ?_ rest
  change decVflt _ (.ok _) = _
  rw [decVflt, opc_encT _ _ _ _ _ (by decide)]
  have hw : (isH2 ty) = true := hw
  simp_all [scopeOf_encT, fA_encT, fB_encT, fC_encT, mD_encM, mT_encM, mS_encM, mM_encM, mM_rn, mM_rz, mO_encM, sAll, dVs_eVs, dVd_eVd, modOk_encM, need, needOp, needScope, bind, Except.bind, pure, Except.pure]
theorem fred (e : Scope) (m : Rnd) (a : VDst) (b : VSrc) (op : BitVec 2) : Statement (.fred e m a b op) := by
  intro k rest hw hk; cases hk
  refine two 0x1D (opc_encT _ _ _ _ _ (by decide)) rfl ?_ rest
  change decVflt _ (.ok _) = _
  rw [decVflt, opc_encT _ _ _ _ _ (by decide)]
  have hw : (e.wide && decide (op.toNat < 3)) = true := hw
  simp_all [scopeOf_encT, fA_encT, fB_encT, fC_encT, mD_encM, mT_encM, mS_encM, mM_encM, mM_rn, mM_rz, mO_encM, sGSB, dVs_eVs, dVd_eVd, dSel_ext, dSel_1, dSel_2, dSel_3, dSel_4, dSel_5, dSel_set, dSel_add, modOk_encM, need, needOp, needScope, bind, Except.bind, pure, Except.pure]
theorem cfadd (e : Scope) (a : BitVec 6) (b : RSrc) (c : VSrc) : Statement (.cfadd e a b c) := by
  intro k rest hw hk; cases hk
  refine one 0x20 (opc_encT _ _ _ _ _ (by decide)) rfl (fun ext => ?_) rest
  change decVflt _ ext = _
  rw [decVflt, opc_encT _ _ _ _ _ (by decide)]
  have hw : (pairOk a && pairOk b.n) = true := hw
  simp_all [scopeOf_encT, fA_encT, fB_encT, fC_encT, sAll, dVs_eVs, dPs_eRs, dPd_eRd, need, needOp, needScope, bind, Except.bind, pure, Except.pure]
theorem cfred (e : Scope) (a : BitVec 6) (b : RSrc) : Statement (.cfred e a b) := by
  intro k rest hw hk; cases hk
  refine one 0x21 (opc_encT _ _ _ _ _ (by decide)) rfl (fun ext => ?_) rest
  change decVflt _ ext = _
  rw [decVflt, opc_encT _ _ _ _ _ (by decide)]
  have hw : (e.wide && pairOk a && pairOk b.n) = true := hw
  simp_all [scopeOf_encT, fA_encT, fB_encT, fC_encT, sGSB, dPs_eRs, dPd_eRd, dZero_zero, need, needOp, needScope, bind, Except.bind, pure, Except.pure]
theorem cfnorm (e : Scope) (a : VDst) (b : VSrc) (c : VSrc) : Statement (.cfnorm e a b c) := by
  intro k rest hw hk; cases hk
  refine one 0x22 (opc_encT _ _ _ _ _ (by decide)) rfl (fun ext => ?_) rest
  change decVflt _ ext = _
  rw [decVflt, opc_encT _ _ _ _ _ (by decide)]
  simp [scopeOf_encT, fA_encT, fB_encT, fC_encT, sAll, dVs_eVs, dVd_eVd, need, needOp, needScope, bind, Except.bind, pure, Except.pure]
theorem cfnormX (e : Scope) (ty : Ty) (m : Rnd) (a : VDst) (b : VSrc) (c : VSrc) : Statement (.cfnormX e ty m a b c) := by
  intro k rest hw hk; cases hk
  refine two 0x23 (opc_encT _ _ _ _ _ (by decide)) rfl ?_ rest
  change decVflt _ (.ok _) = _
  rw [decVflt, opc_encT _ _ _ _ _ (by decide)]
  have hw : (isF3 ty) = true := hw
  simp_all [scopeOf_encT, fA_encT, fB_encT, fC_encT, mD_encM, mT_encM, mS_encM, mM_encM, mM_rn, mM_rz, mO_encM, sAll, dVs_eVs, dVd_eVd, modOk_encM, need, needOp, needScope, bind, Except.bind, pure, Except.pure]
theorem ldS8 (e : Scope) (a : BitVec 6) (b : RSrc) (c : VSrc) : Statement (.ldS8 e a b c) := by
  intro k rest hw hk; cases hk
  refine one 0x00 (opc_encT _ _ _ _ _ (by decide)) rfl (fun ext => ?_) rest
  change decMem _ ext = _
  rw [decMem, opc_encT _ _ _ _ _ (by decide)]
  have hw : (quadOk b.n) = true := hw
  simp_all [scopeOf_encT, fA_encT, fB_encT, fC_encT, sAll, dVs_eVs, dRd_eRd, dQs_eRs, need, needOp, needScope, bind, Except.bind, pure, Except.pure]
theorem ldN8 (e : Scope) (a : BitVec 6) (b : RSrc) (c : VSrc) : Statement (.ldN8 e a b c) := by
  intro k rest hw hk; cases hk
  refine one 0x01 (opc_encT _ _ _ _ _ (by decide)) rfl (fun ext => ?_) rest
  change decMem _ ext = _
  rw [decMem, opc_encT _ _ _ _ _ (by decide)]
  have hw : (quadOk b.n) = true := hw
  simp_all [scopeOf_encT, fA_encT, fB_encT, fC_encT, sAll, dVs_eVs, dRd_eRd, dQs_eRs, need, needOp, needScope, bind, Except.bind, pure, Except.pure]
theorem ldS16 (e : Scope) (a : BitVec 6) (b : RSrc) (c : VSrc) : Statement (.ldS16 e a b c) := by
  intro k rest hw hk; cases hk
  refine one 0x02 (opc_encT _ _ _ _ _ (by decide)) rfl (fun ext => ?_) rest
  change decMem _ ext = _
  rw [decMem, opc_encT _ _ _ _ _ (by decide)]
  have hw : (quadOk b.n) = true := hw
  simp_all [scopeOf_encT, fA_encT, fB_encT, fC_encT, sAll, dVs_eVs, dRd_eRd, dQs_eRs, need, needOp, needScope, bind, Except.bind, pure, Except.pure]
theorem ldN16 (e : Scope) (a : BitVec 6) (b : RSrc) (c : VSrc) : Statement (.ldN16 e a b c) := by
  intro k rest hw hk; cases hk
  refine one 0x03 (opc_encT _ _ _ _ _ (by decide)) rfl (fun ext => ?_) rest
  change decMem _ ext = _
  rw [decMem, opc_encT _ _ _ _ _ (by decide)]
  have hw : (quadOk b.n) = true := hw
  simp_all [scopeOf_encT, fA_encT, fB_encT, fC_encT, sAll, dVs_eVs, dRd_eRd, dQs_eRs, need, needOp, needScope, bind, Except.bind, pure, Except.pure]
theorem ldB32 (e : Scope) (a : BitVec 6) (b : RSrc) (c : VSrc) : Statement (.ldB32 e a b c) := by
  intro k rest hw hk; cases hk
  refine one 0x04 (opc_encT _ _ _ _ _ (by decide)) rfl (fun ext => ?_) rest
  change decMem _ ext = _
  rw [decMem, opc_encT _ _ _ _ _ (by decide)]
  have hw : (quadOk b.n) = true := hw
  simp_all [scopeOf_encT, fA_encT, fB_encT, fC_encT, sAll, dVs_eVs, dRd_eRd, dQs_eRs, need, needOp, needScope, bind, Except.bind, pure, Except.pure]
theorem ldB64 (e : Scope) (a : BitVec 6) (b : RSrc) (c : VSrc) : Statement (.ldB64 e a b c) := by
  intro k rest hw hk; cases hk
  refine one 0x05 (opc_encT _ _ _ _ _ (by decide)) rfl (fun ext => ?_) rest
  change decMem _ ext = _
  rw [decMem, opc_encT _ _ _ _ _ (by decide)]
  have hw : (pairOk a && quadOk b.n) = true := hw
  simp_all [scopeOf_encT, fA_encT, fB_encT, fC_encT, sAll, dVs_eVs, dQs_eRs, dPd_eRd, need, needOp, needScope, bind, Except.bind, pure, Except.pure]
theorem ldB128 (e : Scope) (a : BitVec 6) (b : RSrc) (c : VSrc) : Statement (.ldB128 e a b c) := by
  intro k rest hw hk; cases hk
  refine one 0x06 (opc_encT _ _ _ _ _ (by decide)) rfl (fun ext => ?_) rest
  change decMem _ ext = _
  rw [decMem, opc_encT _ _ _ _ _ (by decide)]
  have hw : (quadOk a && quadOk b.n) = true := hw
  simp_all [scopeOf_encT, fA_encT, fB_encT, fC_encT, sAll, dVs_eVs, dQs_eRs, dQd_eRd, need, needOp, needScope, bind, Except.bind, pure, Except.pure]
theorem ldc (e : Scope) (a : BitVec 6) (b : RSrc) (c : VSrc) : Statement (.ldc e a b c) := by
  intro k rest hw hk; cases hk
  refine one 0x07 (opc_encT _ _ _ _ _ (by decide)) rfl (fun ext => ?_) rest
  change decMem _ ext = _
  rw [decMem, opc_encT _ _ _ _ _ (by decide)]
  have hw : (quadOk a && quadOk b.n) = true := hw
  simp_all [scopeOf_encT, fA_encT, fB_encT, fC_encT, sAll, dVs_eVs, dQs_eRs, dQd_eRd, need, needOp, needScope, bind, Except.bind, pure, Except.pure]
theorem stB8 (e : Scope) (a : VSrc) (b : RSrc) (c : VSrc) : Statement (.stB8 e a b c) := by
  intro k rest hw hk; cases hk
  refine one 0x08 (opc_encT _ _ _ _ _ (by decide)) rfl (fun ext => ?_) rest
  change decMem _ ext = _
  rw [decMem, opc_encT _ _ _ _ _ (by decide)]
  have hw : (quadOk b.n) = true := hw
  simp_all [scopeOf_encT, fA_encT, fB_encT, fC_encT, sAll, dVs_eVs, dQs_eRs, need, needOp, needScope, bind, Except.bind, pure, Except.pure]
theorem stB16 (e : Scope) (a : VSrc) (b : RSrc) (c : VSrc) : Statement (.stB16 e a b c) := by
  intro k rest hw hk; cases hk
  refine one 0x09 (opc_encT _ _ _ _ _ (by decide)) rfl (fun ext => ?_) rest
  change decMem _ ext = _
  rw [decMem, opc_encT _ _ _ _ _ (by decide)]
  have hw : (quadOk b.n) = true := hw
  simp_all [scopeOf_encT, fA_encT, fB_encT, fC_encT, sAll, dVs_eVs, dQs_eRs, need, needOp, needScope, bind, Except.bind, pure, Except.pure]
theorem stB32 (e : Scope) (a : VSrc) (b : RSrc) (c : VSrc) : Statement (.stB32 e a b c) := by
  intro k rest hw hk; cases hk
  refine one 0x0A (opc_encT _ _ _ _ _ (by decide)) rfl (fun ext => ?_) rest
  change decMem _ ext = _
  rw [decMem, opc_encT _ _ _ _ _ (by decide)]
  have hw : (quadOk b.n) = true := hw
  simp_all [scopeOf_encT, fA_encT, fB_encT, fC_encT, sAll, dVs_eVs, dQs_eRs, need, needOp, needScope, bind, Except.bind, pure, Except.pure]
theorem stB64 (e : Scope) (a : RSrc) (b : RSrc) (c : VSrc) : Statement (.stB64 e a b c) := by
  intro k rest hw hk; cases hk
  refine one 0x0B (opc_encT _ _ _ _ _ (by decide)) rfl (fun ext => ?_) rest
  change decMem _ ext = _
  rw [decMem, opc_encT _ _ _ _ _ (by decide)]
  have hw : (pairOk a.n && quadOk b.n) = true := hw
  simp_all [scopeOf_encT, fA_encT, fB_encT, fC_encT, sAll, dVs_eVs, dQs_eRs, dPs_eRs, need, needOp, needScope, bind, Except.bind, pure, Except.pure]
theorem stB128 (e : Scope) (a : RSrc) (b : RSrc) (c : VSrc) : Statement (.stB128 e a b c) := by
  intro k rest hw hk; cases hk
  refine one 0x0C (opc_encT _ _ _ _ _ (by decide)) rfl (fun ext => ?_) rest
  change decMem _ ext = _
  rw [decMem, opc_encT _ _ _ _ _ (by decide)]
  have hw : (quadOk a.n && quadOk b.n) = true := hw
  simp_all [scopeOf_encT, fA_encT, fB_encT, fC_encT, sAll, dVs_eVs, dQs_eRs, need, needOp, needScope, bind, Except.bind, pure, Except.pure]
theorem stc (e : Scope) (a : RSrc) (b : RSrc) (c : VSrc) : Statement (.stc e a b c) := by
  intro k rest hw hk; cases hk
  refine one 0x0D (opc_encT _ _ _ _ _ (by decide)) rfl (fun ext => ?_) rest
  change decMem _ ext = _
  rw [decMem, opc_encT _ _ _ _ _ (by decide)]
  have hw : (quadOk a.n && quadOk b.n) = true := hw
  simp_all [scopeOf_encT, fA_encT, fB_encT, fC_encT, sAll, dVs_eVs, dQs_eRs, need, needOp, needScope, bind, Except.bind, pure, Except.pure]
theorem wldB32 (e : Scope) (a : BitVec 6) (b : VSrc) (c : VSrc) : Statement (.wldB32 e a b c) := by
  intro k rest hw hk; cases hk
  refine one 0x0E (opc_encT _ _ _ _ _ (by decide)) rfl (fun ext => ?_) rest
  change decMem _ ext = _
  rw [decMem, opc_encT _ _ _ _ _ (by decide)]
  simp [scopeOf_encT, fA_encT, fB_encT, fC_encT, sAll, dVs_eVs, dRd_eRd, need, needOp, needScope, bind, Except.bind, pure, Except.pure]
theorem wldB128 (e : Scope) (a : BitVec 6) (b : VSrc) (c : VSrc) : Statement (.wldB128 e a b c) := by
  intro k rest hw hk; cases hk
  refine one 0x0F (opc_encT _ _ _ _ _ (by decide)) rfl (fun ext => ?_) rest
  change decMem _ ext = _
  rw [decMem, opc_encT _ _ _ _ _ (by decide)]
  have hw : (quadOk a) = true := hw
  simp_all [scopeOf_encT, fA_encT, fB_encT, fC_encT, sAll, dVs_eVs, dQd_eRd, need, needOp, needScope, bind, Except.bind, pure, Except.pure]
theorem ldsB32 (e : Scope) (a : BitVec 6) (b : VSrc) : Statement (.ldsB32 e a b) := by
  intro k rest hw hk; cases hk
  refine one 0x10 (opc_encT _ _ _ _ _ (by decide)) rfl (fun ext => ?_) rest
  change decMem _ ext = _
  rw [decMem, opc_encT _ _ _ _ _ (by decide)]
  simp [scopeOf_encT, fA_encT, fB_encT, fC_encT, sAll, dVs_eVs, dRd_eRd, dZero_zero, need, needOp, needScope, bind, Except.bind, pure, Except.pure]
theorem ldsB64 (e : Scope) (a : BitVec 6) (b : VSrc) : Statement (.ldsB64 e a b) := by
  intro k rest hw hk; cases hk
  refine one 0x11 (opc_encT _ _ _ _ _ (by decide)) rfl (fun ext => ?_) rest
  change decMem _ ext = _
  rw [decMem, opc_encT _ _ _ _ _ (by decide)]
  have hw : (pairOk a) = true := hw
  simp_all [scopeOf_encT, fA_encT, fB_encT, fC_encT, sAll, dVs_eVs, dPd_eRd, dZero_zero, need, needOp, needScope, bind, Except.bind, pure, Except.pure]
theorem ldsB128 (e : Scope) (a : BitVec 6) (b : VSrc) : Statement (.ldsB128 e a b) := by
  intro k rest hw hk; cases hk
  refine one 0x12 (opc_encT _ _ _ _ _ (by decide)) rfl (fun ext => ?_) rest
  change decMem _ ext = _
  rw [decMem, opc_encT _ _ _ _ _ (by decide)]
  have hw : (quadOk a) = true := hw
  simp_all [scopeOf_encT, fA_encT, fB_encT, fC_encT, sAll, dVs_eVs, dQd_eRd, dZero_zero, need, needOp, needScope, bind, Except.bind, pure, Except.pure]
theorem stsB32 (e : Scope) (a : VSrc) (b : VSrc) : Statement (.stsB32 e a b) := by
  intro k rest hw hk; cases hk
  refine one 0x13 (opc_encT _ _ _ _ _ (by decide)) rfl (fun ext => ?_) rest
  change decMem _ ext = _
  rw [decMem, opc_encT _ _ _ _ _ (by decide)]
  simp [scopeOf_encT, fA_encT, fB_encT, fC_encT, sAll, dVs_eVs, dZero_zero, need, needOp, needScope, bind, Except.bind, pure, Except.pure]
theorem stsB64 (e : Scope) (a : RSrc) (b : VSrc) : Statement (.stsB64 e a b) := by
  intro k rest hw hk; cases hk
  refine one 0x14 (opc_encT _ _ _ _ _ (by decide)) rfl (fun ext => ?_) rest
  change decMem _ ext = _
  rw [decMem, opc_encT _ _ _ _ _ (by decide)]
  have hw : (pairOk a.n) = true := hw
  simp_all [scopeOf_encT, fA_encT, fB_encT, fC_encT, sAll, dVs_eVs, dPs_eRs, dZero_zero, need, needOp, needScope, bind, Except.bind, pure, Except.pure]
theorem stsB128 (e : Scope) (a : RSrc) (b : VSrc) : Statement (.stsB128 e a b) := by
  intro k rest hw hk; cases hk
  refine one 0x15 (opc_encT _ _ _ _ _ (by decide)) rfl (fun ext => ?_) rest
  change decMem _ ext = _
  rw [decMem, opc_encT _ _ _ _ _ (by decide)]
  have hw : (quadOk a.n) = true := hw
  simp_all [scopeOf_encT, fA_encT, fB_encT, fC_encT, sAll, dVs_eVs, dQs_eRs, dZero_zero, need, needOp, needScope, bind, Except.bind, pure, Except.pure]
theorem put (e : Scope) (a : VSrc) (b : VSrc) (c : VSrc) : Statement (.put e a b c) := by
  intro k rest hw hk; cases hk
  refine one 0x16 (opc_encT _ _ _ _ _ (by decide)) rfl (fun ext => ?_) rest
  change decMem _ ext = _
  rw [decMem, opc_encT _ _ _ _ _ (by decide)]
  simp [scopeOf_encT, fA_encT, fB_encT, fC_encT, sAll, dVs_eVs, need, needOp, needScope, bind, Except.bind, pure, Except.pure]
theorem get (e : Scope) (a : VSrc) (b : VSrc) (c : VSrc) : Statement (.get e a b c) := by
  intro k rest hw hk; cases hk
  refine one 0x17 (opc_encT _ _ _ _ _ (by decide)) rfl (fun ext => ?_) rest
  change decMem _ ext = _
  rw [decMem, opc_encT _ _ _ _ _ (by decide)]
  simp [scopeOf_encT, fA_encT, fB_encT, fC_encT, sAll, dVs_eVs, need, needOp, needScope, bind, Except.bind, pure, Except.pure]
theorem aadd (e : Scope) (ty : Ty) (o : AOrd) (a : BitVec 6) (b : RSrc) (c : VSrc) (d : VSrc) : Statement (.aadd e ty o a b c d) := by
  intro k rest hw hk; cases hk
  refine two 0x18 (opc_encT _ _ _ _ _ (by decide)) rfl ?_ rest
  change decMem _ (.ok _) = _
  rw [decMem, opc_encT _ _ _ _ _ (by decide)]
  have hw : (quadOk b.n && isAadd ty && atomOk ty a d) = true := hw
  simp_all [scopeOf_encT, fA_encT, fB_encT, fC_encT, mD_encM, mT_encM, mS_encM, mM_encM, mM_rn, mM_rz, mO_encM, sAll, dVs_eVs, dRd_eRd, dQs_eRs, modOk_encM, need, needOp, needScope, bind, Except.bind, pure, Except.pure]
theorem amin (e : Scope) (ty : Ty) (o : AOrd) (a : BitVec 6) (b : RSrc) (c : VSrc) (d : VSrc) : Statement (.amin e ty o a b c d) := by
  intro k rest hw hk; cases hk
  refine two 0x19 (opc_encT _ _ _ _ _ (by decide)) rfl ?_ rest
  change decMem _ (.ok _) = _
  rw [decMem, opc_encT _ _ _ _ _ (by decide)]
  have hw : (quadOk b.n && isAmm ty && atomOk ty a d) = true := hw
  simp_all [scopeOf_encT, fA_encT, fB_encT, fC_encT, mD_encM, mT_encM, mS_encM, mM_encM, mM_rn, mM_rz, mO_encM, sAll, dVs_eVs, dRd_eRd, dQs_eRs, modOk_encM, need, needOp, needScope, bind, Except.bind, pure, Except.pure]
theorem amax (e : Scope) (ty : Ty) (o : AOrd) (a : BitVec 6) (b : RSrc) (c : VSrc) (d : VSrc) : Statement (.amax e ty o a b c d) := by
  intro k rest hw hk; cases hk
  refine two 0x1A (opc_encT _ _ _ _ _ (by decide)) rfl ?_ rest
  change decMem _ (.ok _) = _
  rw [decMem, opc_encT _ _ _ _ _ (by decide)]
  have hw : (quadOk b.n && isAmm ty && atomOk ty a d) = true := hw
  simp_all [scopeOf_encT, fA_encT, fB_encT, fC_encT, mD_encM, mT_encM, mS_encM, mM_encM, mM_rn, mM_rz, mO_encM, sAll, dVs_eVs, dRd_eRd, dQs_eRs, modOk_encM, need, needOp, needScope, bind, Except.bind, pure, Except.pure]
theorem aand (e : Scope) (ty : Ty) (o : AOrd) (a : BitVec 6) (b : RSrc) (c : VSrc) (d : VSrc) : Statement (.aand e ty o a b c d) := by
  intro k rest hw hk; cases hk
  refine two 0x1B (opc_encT _ _ _ _ _ (by decide)) rfl ?_ rest
  change decMem _ (.ok _) = _
  rw [decMem, opc_encT _ _ _ _ _ (by decide)]
  have hw : (quadOk b.n && isA2 ty && atomOk ty a d) = true := hw
  simp_all [scopeOf_encT, fA_encT, fB_encT, fC_encT, mD_encM, mT_encM, mS_encM, mM_encM, mM_rn, mM_rz, mO_encM, sAll, dVs_eVs, dRd_eRd, dQs_eRs, modOk_encM, need, needOp, needScope, bind, Except.bind, pure, Except.pure]
theorem aor (e : Scope) (ty : Ty) (o : AOrd) (a : BitVec 6) (b : RSrc) (c : VSrc) (d : VSrc) : Statement (.aor e ty o a b c d) := by
  intro k rest hw hk; cases hk
  refine two 0x1C (opc_encT _ _ _ _ _ (by decide)) rfl ?_ rest
  change decMem _ (.ok _) = _
  rw [decMem, opc_encT _ _ _ _ _ (by decide)]
  have hw : (quadOk b.n && isA2 ty && atomOk ty a d) = true := hw
  simp_all [scopeOf_encT, fA_encT, fB_encT, fC_encT, mD_encM, mT_encM, mS_encM, mM_encM, mM_rn, mM_rz, mO_encM, sAll, dVs_eVs, dRd_eRd, dQs_eRs, modOk_encM, need, needOp, needScope, bind, Except.bind, pure, Except.pure]
theorem axor (e : Scope) (ty : Ty) (o : AOrd) (a : BitVec 6) (b : RSrc) (c : VSrc) (d : VSrc) : Statement (.axor e ty o a b c d) := by
  intro k rest hw hk; cases hk
  refine two 0x1D (opc_encT _ _ _ _ _ (by decide)) rfl ?_ rest
  change decMem _ (.ok _) = _
  rw [decMem, opc_encT _ _ _ _ _ (by decide)]
  have hw : (quadOk b.n && isA2 ty && atomOk ty a d) = true := hw
  simp_all [scopeOf_encT, fA_encT, fB_encT, fC_encT, mD_encM, mT_encM, mS_encM, mM_encM, mM_rn, mM_rz, mO_encM, sAll, dVs_eVs, dRd_eRd, dQs_eRs, modOk_encM, need, needOp, needScope, bind, Except.bind, pure, Except.pure]
theorem axchg (e : Scope) (ty : Ty) (o : AOrd) (a : BitVec 6) (b : RSrc) (c : VSrc) (d : VSrc) : Statement (.axchg e ty o a b c d) := by
  intro k rest hw hk; cases hk
  refine two 0x1E (opc_encT _ _ _ _ _ (by decide)) rfl ?_ rest
  change decMem _ (.ok _) = _
  rw [decMem, opc_encT _ _ _ _ _ (by decide)]
  have hw : (quadOk b.n && isA2 ty && atomOk ty a d) = true := hw
  simp_all [scopeOf_encT, fA_encT, fB_encT, fC_encT, mD_encM, mT_encM, mS_encM, mM_encM, mM_rn, mM_rz, mO_encM, sAll, dVs_eVs, dRd_eRd, dQs_eRs, modOk_encM, need, needOp, needScope, bind, Except.bind, pure, Except.pure]
theorem acas (e : Scope) (ty : Ty) (o : AOrd) (a : BitVec 6) (b : RSrc) (c : VSrc) (d : VSrc) : Statement (.acas e ty o a b c d) := by
  intro k rest hw hk; cases hk
  refine two 0x1F (opc_encT _ _ _ _ _ (by decide)) rfl ?_ rest
  change decMem _ (.ok _) = _
  rw [decMem, opc_encT _ _ _ _ _ (by decide)]
  have hw : (quadOk b.n && isA2 ty && atomOk ty a d) = true := hw
  simp_all [scopeOf_encT, fA_encT, fB_encT, fC_encT, mD_encM, mT_encM, mS_encM, mM_encM, mM_rn, mM_rz, mO_encM, sAll, dVs_eVs, dRd_eRd, dQs_eRs, modOk_encM, need, needOp, needScope, bind, Except.bind, pure, Except.pure]
theorem acquire (e : Scope) : Statement (.acquire e) := by
  intro k rest hw hk; cases hk
  refine one 0x20 (opc_encT _ _ _ _ _ (by decide)) rfl (fun ext => ?_) rest
  change decMem _ ext = _
  rw [decMem, opc_encT _ _ _ _ _ (by decide)]
  simp [scopeOf_encT, fA_encT, fB_encT, fC_encT, sAll, dZero_zero, need, needOp, needScope, bind, Except.bind, pure, Except.pure]
theorem release (e : Scope) : Statement (.release e) := by
  intro k rest hw hk; cases hk
  refine one 0x21 (opc_encT _ _ _ _ _ (by decide)) rfl (fun ext => ?_) rest
  change decMem _ ext = _
  rw [decMem, opc_encT _ _ _ _ _ (by decide)]
  simp [scopeOf_encT, fA_encT, fB_encT, fC_encT, sAll, dZero_zero, need, needOp, needScope, bind, Except.bind, pure, Except.pure]
theorem fence (e : Scope) : Statement (.fence e) := by
  intro k rest hw hk; cases hk
  refine one 0x22 (opc_encT _ _ _ _ _ (by decide)) rfl (fun ext => ?_) rest
  change decMem _ ext = _
  rw [decMem, opc_encT _ _ _ _ _ (by decide)]
  simp [scopeOf_encT, fA_encT, fB_encT, fC_encT, sAll, dZero_zero, need, needOp, needScope, bind, Except.bind, pure, Except.pure]
theorem cbnd (e : Scope) (a : BitVec 6) (b : RSrc) (c : RSrc) : Statement (.cbnd e a b c) := by
  intro k rest hw hk; cases hk
  refine one 0x24 (opc_encT _ _ _ _ _ (by decide)) rfl (fun ext => ?_) rest
  change decMem _ ext = _
  rw [decMem, opc_encT _ _ _ _ _ (by decide)]
  have hw : (quadOk a && quadOk b.n && pairOk c.n) = true := hw
  simp_all [scopeOf_encT, fA_encT, fB_encT, fC_encT, sAll, dQs_eRs, dPs_eRs, dQd_eRd, need, needOp, needScope, bind, Except.bind, pure, Except.pure]
theorem cperm (e : Scope) (a : BitVec 6) (i : BitVec 12) : Statement (.cperm e a i) := by
  intro k rest hw hk; cases hk
  refine one 0x25 (opc_encI _ _ _ _ (by decide)) rfl (fun ext => ?_) rest
  change decMem _ ext = _
  rw [decMem, opc_encI _ _ _ _ (by decide)]
  have hw : (quadOk a) = true := hw
  simp_all [scopeOf_encI, fA_encI, imm_encI, sAll, dQd_eRd, dImm12_ext, need, needOp, needScope, bind, Except.bind, pure, Except.pure]
theorem cadd (e : Scope) (a : BitVec 6) (b : RSrc) (c : RSrc) : Statement (.cadd e a b c) := by
  intro k rest hw hk; cases hk
  refine one 0x26 (opc_encT _ _ _ _ _ (by decide)) rfl (fun ext => ?_) rest
  change decMem _ ext = _
  rw [decMem, opc_encT _ _ _ _ _ (by decide)]
  have hw : (quadOk a && quadOk b.n && pairOk c.n) = true := hw
  simp_all [scopeOf_encT, fA_encT, fB_encT, fC_encT, sAll, dQs_eRs, dPs_eRs, dQd_eRd, need, needOp, needScope, bind, Except.bind, pure, Except.pure]
theorem cset (e : Scope) (a : BitVec 6) (b : RSrc) (c : RSrc) : Statement (.cset e a b c) := by
  intro k rest hw hk; cases hk
  refine one 0x27 (opc_encT _ _ _ _ _ (by decide)) rfl (fun ext => ?_) rest
  change decMem _ ext = _
  rw [decMem, opc_encT _ _ _ _ _ (by decide)]
  have hw : (quadOk a && quadOk b.n && pairOk c.n) = true := hw
  simp_all [scopeOf_encT, fA_encT, fB_encT, fC_encT, sAll, dQs_eRs, dPs_eRs, dQd_eRd, need, needOp, needScope, bind, Except.bind, pure, Except.pure]
theorem cseal (e : Scope) (a : BitVec 6) (b : RSrc) (c : RSrc) : Statement (.cseal e a b c) := by
  intro k rest hw hk; cases hk
  refine one 0x28 (opc_encT _ _ _ _ _ (by decide)) rfl (fun ext => ?_) rest
  change decMem _ ext = _
  rw [decMem, opc_encT _ _ _ _ _ (by decide)]
  have hw : (quadOk a && quadOk b.n && pairOk c.n) = true := hw
  simp_all [scopeOf_encT, fA_encT, fB_encT, fC_encT, sAll, dQs_eRs, dPs_eRs, dQd_eRd, need, needOp, needScope, bind, Except.bind, pure, Except.pure]
theorem cmov (e : Scope) (a : BitVec 6) (b : RSrc) : Statement (.cmov e a b) := by
  intro k rest hw hk; cases hk
  refine one 0x29 (opc_encT _ _ _ _ _ (by decide)) rfl (fun ext => ?_) rest
  change decMem _ ext = _
  rw [decMem, opc_encT _ _ _ _ _ (by decide)]
  have hw : (quadOk a && quadOk b.n) = true := hw
  simp_all [scopeOf_encT, fA_encT, fB_encT, fC_encT, sAll, dQs_eRs, dQd_eRd, dZero_zero, need, needOp, needScope, bind, Except.bind, pure, Except.pure]
theorem cget (e : Scope) (a : VDst) (b : RSrc) (sel : BitVec 3) : Statement (.cget e a b sel) := by
  intro k rest hw hk; cases hk
  refine one 0x2A (opc_encT _ _ _ _ _ (by decide)) rfl (fun ext => ?_) rest
  change decMem _ ext = _
  rw [decMem, opc_encT _ _ _ _ _ (by decide)]
  have hw : (quadOk b.n) = true := hw
  simp_all [scopeOf_encT, fA_encT, fB_encT, fC_encT, sAll, dVd_eVd, dQs_eRs, dSel_ext, dSel_1, dSel_2, dSel_3, dSel_4, dSel_5, dSel_set, dSel_add, need, needOp, needScope, bind, Except.bind, pure, Except.pure]
theorem ctag (e : Scope) (a : BitVec 3) (b : RSrc) (c : VSrc) : Statement (.ctag e a b c) := by
  intro k rest hw hk; cases hk
  refine one 0x2B (opc_encT _ _ _ _ _ (by decide)) rfl (fun ext => ?_) rest
  change decMem _ ext = _
  rw [decMem, opc_encT _ _ _ _ _ (by decide)]
  have hw : (pdstOk a && quadOk b.n) = true := hw
  simp_all [scopeOf_encT, fA_encT, fB_encT, fC_encT, sAll, dVs_eVs, dQs_eRs, dPrd_ePrd, need, needOp, needScope, bind, Except.bind, pure, Except.pure]
theorem cbcast (e : Scope) (a : BitVec 6) (b : RSrc) : Statement (.cbcast e a b) := by
  intro k rest hw hk; cases hk
  refine one 0x2C (opc_encT _ _ _ _ _ (by decide)) rfl (fun ext => ?_) rest
  change decMem _ ext = _
  rw [decMem, opc_encT _ _ _ _ _ (by decide)]
  have hw : (quadOk a && pairOk b.n) = true := hw
  simp_all [scopeOf_encT, fA_encT, fB_encT, fC_encT, sAll, dPs_eRs, dQd_eRd, dZero_zero, need, needOp, needScope, bind, Except.bind, pure, Except.pure]
theorem chbind (e : Scope) (ch : BitVec 6) (b : RSrc) (c : RSrc) : Statement (.chbind e ch b c) := by
  intro k rest hw hk; cases hk
  refine one 0x30 (opc_encT _ _ _ _ _ (by decide)) rfl (fun ext => ?_) rest
  change decMem _ ext = _
  rw [decMem, opc_encT _ _ _ _ _ (by decide)]
  have hw : (e.laneOrGroup) = true := hw
  simp_all [scopeOf_encT, fA_encT, fB_encT, fC_encT, sLG, dRs_eRs, dCh_eCh, need, needOp, needScope, bind, Except.bind, pure, Except.pure]
theorem chfree (e : Scope) (a : BitVec 6) (ch : BitVec 6) : Statement (.chfree e a ch) := by
  intro k rest hw hk; cases hk
  refine one 0x31 (opc_encT _ _ _ _ _ (by decide)) rfl (fun ext => ?_) rest
  change decMem _ ext = _
  rw [decMem, opc_encT _ _ _ _ _ (by decide)]
  have hw : (e.laneOrGroup) = true := hw
  simp_all [scopeOf_encT, fA_encT, fB_encT, fC_encT, sLG, dRd_eRd, dCh_eCh, dZero_zero, need, needOp, needScope, bind, Except.bind, pure, Except.pure]
theorem chstat (e : Scope) (a : BitVec 6) (ch : BitVec 6) : Statement (.chstat e a ch) := by
  intro k rest hw hk; cases hk
  refine one 0x32 (opc_encT _ _ _ _ _ (by decide)) rfl (fun ext => ?_) rest
  change decMem _ ext = _
  rw [decMem, opc_encT _ _ _ _ _ (by decide)]
  have hw : (e.laneOrGroup) = true := hw
  simp_all [scopeOf_encT, fA_encT, fB_encT, fC_encT, sLG, dRd_eRd, dCh_eCh, dZero_zero, need, needOp, needScope, bind, Except.bind, pure, Except.pure]
theorem spanq (e : Scope) (a : BitVec 6) (b : RSrc) (c : VSrc) : Statement (.spanq e a b c) := by
  intro k rest hw hk; cases hk
  refine one 0x34 (opc_encT _ _ _ _ _ (by decide)) rfl (fun ext => ?_) rest
  change decMem _ ext = _
  rw [decMem, opc_encT _ _ _ _ _ (by decide)]
  have hw : (pairOk a && quadOk b.n) = true := hw
  simp_all [scopeOf_encT, fA_encT, fB_encT, fC_encT, sAll, dVs_eVs, dQs_eRs, dPd_eRd, need, needOp, needScope, bind, Except.bind, pure, Except.pure]
theorem cpy (e : Scope) (a : RSrc) (b : RSrc) (c : VSrc) (d : VSrc) : Statement (.cpy e a b c d) := by
  intro k rest hw hk; cases hk
  refine two 0x00 (opc_encT _ _ _ _ _ (by decide)) rfl ?_ rest
  change decAsy _ (.ok _) = _
  rw [decAsy, opc_encT _ _ _ _ _ (by decide)]
  have hw : (quadOk a.n && quadOk b.n) = true := hw
  simp_all [scopeOf_encT, fA_encT, fB_encT, fC_encT, mD_encM, mT_encM, mS_encM, mM_encM, mM_rn, mM_rz, mO_encM, sAll, dVs_eVs, dQs_eRs, modOk_encM, need, needOp, needScope, bind, Except.bind, pure, Except.pure]
theorem cpysIn (e : Scope) (a : VSrc) (b : RSrc) (c : VSrc) (d : VSrc) : Statement (.cpysIn e a b c d) := by
  intro k rest hw hk; cases hk
  refine two 0x01 (opc_encT _ _ _ _ _ (by decide)) rfl ?_ rest
  change decAsy _ (.ok _) = _
  rw [decAsy, opc_encT _ _ _ _ _ (by decide)]
  have hw : (quadOk b.n) = true := hw
  simp_all [scopeOf_encT, fA_encT, fB_encT, fC_encT, mD_encM, mT_encM, mS_encM, mM_encM, mM_rn, mM_rz, mO_encM, sAll, dVs_eVs, dQs_eRs, modOk_encM, need, needOp, needScope, bind, Except.bind, pure, Except.pure]
theorem cpysOut (e : Scope) (a : VSrc) (b : RSrc) (c : VSrc) (d : VSrc) : Statement (.cpysOut e a b c d) := by
  intro k rest hw hk; cases hk
  refine two 0x01 (opc_encT _ _ _ _ _ (by decide)) rfl ?_ rest
  change decAsy _ (.ok _) = _
  rw [decAsy, opc_encT _ _ _ _ _ (by decide)]
  have hw : (quadOk b.n) = true := hw
  simp_all [scopeOf_encT, fA_encT, fB_encT, fC_encT, mD_encM, mT_encM, mS_encM, mM_encM, mM_rn, mM_rz, mO_encM, sAll, dVs_eVs, dQs_eRs, modOk_encM, need, needOp, needScope, bind, Except.bind, pure, Except.pure]
theorem mcast (e : Scope) (a : VSrc) (b : RSrc) (c : VSrc) (d : VSrc) : Statement (.mcast e a b c d) := by
  intro k rest hw hk; cases hk
  refine two 0x02 (opc_encT _ _ _ _ _ (by decide)) rfl ?_ rest
  change decAsy _ (.ok _) = _
  rw [decAsy, opc_encT _ _ _ _ _ (by decide)]
  have hw : (quadOk b.n) = true := hw
  simp_all [scopeOf_encT, fA_encT, fB_encT, fC_encT, mD_encM, mT_encM, mS_encM, mM_encM, mM_rn, mM_rz, mO_encM, sAll, dVs_eVs, dQs_eRs, modOk_encM, need, needOp, needScope, bind, Except.bind, pure, Except.pure]
theorem cpyq (e : Scope) (a : VDst) (b : VSrc) : Statement (.cpyq e a b) := by
  intro k rest hw hk; cases hk
  refine one 0x03 (opc_encT _ _ _ _ _ (by decide)) rfl (fun ext => ?_) rest
  change decAsy _ ext = _
  rw [decAsy, opc_encT _ _ _ _ _ (by decide)]
  simp [scopeOf_encT, fA_encT, fB_encT, fC_encT, sAll, dVs_eVs, dVd_eVd, dZero_zero, need, needOp, needScope, bind, Except.bind, pure, Except.pure]
theorem oclaim (e : Scope) (a : RSrc) (b : RSrc) : Statement (.oclaim e a b) := by
  intro k rest hw hk; cases hk
  refine one 0x08 (opc_encT _ _ _ _ _ (by decide)) rfl (fun ext => ?_) rest
  change decAsy _ ext = _
  rw [decAsy, opc_encT _ _ _ _ _ (by decide)]
  simp [scopeOf_encT, fA_encT, fB_encT, fC_encT, sAll, dRs_eRs, dZero_zero, need, needOp, needScope, bind, Except.bind, pure, Except.pure]
theorem orel (e : Scope) (a : RSrc) (b : RSrc) : Statement (.orel e a b) := by
  intro k rest hw hk; cases hk
  refine one 0x09 (opc_encT _ _ _ _ _ (by decide)) rfl (fun ext => ?_) rest
  change decAsy _ ext = _
  rw [decAsy, opc_encT _ _ _ _ _ (by decide)]
  simp [scopeOf_encT, fA_encT, fB_encT, fC_encT, sAll, dRs_eRs, dZero_zero, need, needOp, needScope, bind, Except.bind, pure, Except.pure]
theorem oload (e : Scope) (o : BitVec 5) (b : RSrc) (c : RSrc) (src : Bool) : Statement (.oload e o b c src) := by
  intro k rest hw hk; cases hk
  refine two 0x0A (opc_encT _ _ _ _ _ (by decide)) rfl ?_ rest
  change decAsy _ (.ok _) = _
  rw [decAsy, opc_encT _ _ _ _ _ (by decide)]
  have hw : (e.laneOrGroup && (src || pairOk b.n)) = true := hw
  simp_all [scopeOf_encT, fA_encT, fB_encT, fC_encT, mD_encM, mT_encM, mS_encM, mM_encM, mM_rn, mM_rz, mO_encM, sLG, dRs_eRs, dBit_eBit, dSel_ext, dSel_1, dSel_2, dSel_3, dSel_4, dSel_5, dSel_set, dSel_add, modOk_encM, need, needOp, needScope, bind, Except.bind, pure, Except.pure]
theorem mfence (e : Scope) : Statement (.mfence e) := by
  intro k rest hw hk; cases hk
  refine one 0x0B (opc_encT _ _ _ _ _ (by decide)) rfl (fun ext => ?_) rest
  change decAsy _ ext = _
  rw [decAsy, opc_encT _ _ _ _ _ (by decide)]
  simp [scopeOf_encT, fA_encT, fB_encT, fC_encT, sAll, dZero_zero, need, needOp, needScope, bind, Except.bind, pure, Except.pure]
theorem mpair (e : Scope) (ty : Ty) (st : Ty) (a : RSrc) (b : RSrc) (place : BitVec 8) (acc : Bool) : Statement (.mpair e ty st a b place acc) := by
  intro k rest hw hk; cases hk
  refine two 0x10 (opc_encT _ _ _ _ _ (by decide)) rfl ?_ rest
  change decAsy _ (.ok _) = _
  rw [decAsy, opc_encT _ _ _ _ _ (by decide)]
  have hw : (e.laneOrGroup && mpairOk ty st) = true := hw
  simp_all [scopeOf_encT, fA_encT, fB_encT, fC_encT, mD_encM, mT_encM, mS_encM, mM_encM, mM_rn, mM_rz, mO_encM, sLG, dRs_eRs, dByte_self, dBit_eBit, modOk_encM, need, needOp, needScope, bind, Except.bind, pure, Except.pure]
theorem accrd (e : Scope) (ty : Ty) (m : Rnd) (v : BitVec 2) (tile : BitVec 4) (c : RSrc) : Statement (.accrd e ty m v tile c) := by
  intro k rest hw hk; cases hk
  refine two 0x11 (opc_encT _ _ _ _ _ (by decide)) rfl ?_ rest
  change decAsy _ (.ok _) = _
  rw [decAsy, opc_encT _ _ _ _ _ (by decide)]
  have hw : (e.laneOrGroup && isAcc ty && (ty != .cf32 || m == .rn)) = true := hw
  simp_all [scopeOf_encT, fA_encT, fB_encT, fC_encT, mD_encM, mT_encM, mS_encM, mM_encM, mM_rn, mM_rz, mO_encM, sLG, dRs_eRs, dSel_ext, dSel_1, dSel_2, dSel_3, dSel_4, dSel_5, dSel_set, dSel_add, modOk_encM, need, needOp, needScope, bind, Except.bind, pure, Except.pure]
theorem accwr (e : Scope) (ty : Ty) (tile : BitVec 4) (v : BitVec 2) (c : RSrc) : Statement (.accwr e ty tile v c) := by
  intro k rest hw hk; cases hk
  refine two 0x12 (opc_encT _ _ _ _ _ (by decide)) rfl ?_ rest
  change decAsy _ (.ok _) = _
  rw [decAsy, opc_encT _ _ _ _ _ (by decide)]
  have hw : (e.laneOrGroup && isAcc ty) = true := hw
  simp_all [scopeOf_encT, fA_encT, fB_encT, fC_encT, mD_encM, mT_encM, mS_encM, mM_encM, mM_rn, mM_rz, mO_encM, sLG, dRs_eRs, dSel_ext, dSel_1, dSel_2, dSel_3, dSel_4, dSel_5, dSel_set, dSel_add, modOk_encM, need, needOp, needScope, bind, Except.bind, pure, Except.pure]
theorem accclr (e : Scope) (tile : BitVec 4) (ver : BitVec 16) : Statement (.accclr e tile ver) := by
  intro k rest hw hk; cases hk
  refine one 0x13 (opc_encI _ _ _ _ (by decide)) rfl (fun ext => ?_) rest
  change decAsy _ ext = _
  rw [decAsy, opc_encI _ _ _ _ (by decide)]
  simp [scopeOf_encI, fA_encI, imm_encI, sAll, dSel_ext, dSel_1, dSel_2, dSel_3, dSel_4, dSel_5, dSel_set, dSel_add, need, needOp, needScope, bind, Except.bind, pure, Except.pure]
theorem accwt (e : Scope) (tile : BitVec 4) (ver : BitVec 16) : Statement (.accwt e tile ver) := by
  intro k rest hw hk; cases hk
  refine one 0x14 (opc_encI _ _ _ _ (by decide)) rfl (fun ext => ?_) rest
  change decAsy _ ext = _
  rw [decAsy, opc_encI _ _ _ _ (by decide)]
  simp [scopeOf_encI, fA_encI, imm_encI, sAll, dSel_ext, dSel_1, dSel_2, dSel_3, dSel_4, dSel_5, dSel_set, dSel_add, need, needOp, needScope, bind, Except.bind, pure, Except.pure]
theorem accver (e : Scope) (a : BitVec 6) (tile : BitVec 4) : Statement (.accver e a tile) := by
  intro k rest hw hk; cases hk
  refine one 0x15 (opc_encT _ _ _ _ _ (by decide)) rfl (fun ext => ?_) rest
  change decAsy _ ext = _
  rw [decAsy, opc_encT _ _ _ _ _ (by decide)]
  have hw : (e.laneOrGroup) = true := hw
  simp_all [scopeOf_encT, fA_encT, fB_encT, fC_encT, sLG, dRd_eRd, dZero_zero, dSel_ext, dSel_1, dSel_2, dSel_3, dSel_4, dSel_5, dSel_set, dSel_add, need, needOp, needScope, bind, Except.bind, pure, Except.pure]
theorem sclwSet (e : Scope) (m : BitVec 3) (b : RSrc) : Statement (.sclwSet e m b) := by
  intro k rest hw hk; cases hk
  refine one 0x18 (opc_encT _ _ _ _ _ (by decide)) rfl (fun ext => ?_) rest
  change decAsy _ ext = _
  rw [decAsy, opc_encT _ _ _ _ _ (by decide)]
  simp [scopeOf_encT, fA_encT, fB_encT, fC_encT, sAll, dRs_eRs, dSel_ext, dSel_1, dSel_2, dSel_3, dSel_4, dSel_5, dSel_set, dSel_add, need, needOp, needScope, bind, Except.bind, pure, Except.pure]
theorem sclwAdd (e : Scope) (m : BitVec 3) (b : RSrc) : Statement (.sclwAdd e m b) := by
  intro k rest hw hk; cases hk
  refine one 0x18 (opc_encT _ _ _ _ _ (by decide)) rfl (fun ext => ?_) rest
  change decAsy _ ext = _
  rw [decAsy, opc_encT _ _ _ _ _ (by decide)]
  simp [scopeOf_encT, fA_encT, fB_encT, fC_encT, sAll, dRs_eRs, dSel_ext, dSel_1, dSel_2, dSel_3, dSel_4, dSel_5, dSel_set, dSel_add, need, needOp, needScope, bind, Except.bind, pure, Except.pure]
theorem sclr (e : Scope) (a : BitVec 6) (m : BitVec 3) : Statement (.sclr e a m) := by
  intro k rest hw hk; cases hk
  refine one 0x19 (opc_encT _ _ _ _ _ (by decide)) rfl (fun ext => ?_) rest
  change decAsy _ ext = _
  rw [decAsy, opc_encT _ _ _ _ _ (by decide)]
  have hw : (e.laneOrGroup) = true := hw
  simp_all [scopeOf_encT, fA_encT, fB_encT, fC_encT, sLG, dRd_eRd, dZero_zero, dSel_ext, dSel_1, dSel_2, dSel_3, dSel_4, dSel_5, dSel_set, dSel_add, need, needOp, needScope, bind, Except.bind, pure, Except.pure]
theorem clauseIssue (core : Nat) : Statement (.clauseIssue core) := fun _ _ _ h => by cases h
theorem rcvHoldTimeout (g : GRef) : Statement (.rcvHoldTimeout g) := fun _ _ _ h => by cases h
theorem timingErrorReplay (r : IRef) : Statement (.timingErrorReplay r) := fun _ _ _ h => by cases h
theorem blockExit (b : Nat) : Statement (.blockExit b) := fun _ _ _ h => by cases h
theorem childGridComplete (grid : Nat) : Statement (.childGridComplete grid) := fun _ _ _ h => by cases h
theorem memoryRequest (op lane : Nat) (cached : Bool) : Statement (.memoryRequest op lane cached) := fun _ _ _ h => by cases h
theorem storeRegister (op lane : Nat) : Statement (.storeRegister op lane) := fun _ _ _ h => by cases h
theorem lossNotice (core word : Nat) : Statement (.lossNotice core word) := fun _ _ _ h => by cases h
theorem atomicPerform (op word : Nat) : Statement (.atomicPerform op word) := fun _ _ _ h => by cases h
theorem loadArrival (op k : Nat) : Statement (.loadArrival op k) := fun _ _ _ h => by cases h
theorem wcDrainTimeout (core line : Nat) : Statement (.wcDrainTimeout core line) := fun _ _ _ h => by cases h
theorem refreshWindowStart : Statement (.refreshWindowStart) := fun _ _ _ h => by cases h
theorem refreshWindowEnd : Statement (.refreshWindowEnd) := fun _ _ _ h => by cases h
theorem windowTransferComplete (op lane : Nat) : Statement (.windowTransferComplete op lane) := fun _ _ _ h => by cases h
theorem copyPart (op lane part : Nat) (cached : Bool) : Statement (.copyPart op lane part cached) := fun _ _ _ h => by cases h
theorem copyComplete (op lane : Nat) : Statement (.copyComplete op lane) := fun _ _ _ h => by cases h
theorem oloadComplete (op : Nat) : Statement (.oloadComplete op) := fun _ _ _ h => by cases h
theorem tileOpStart (core : Nat) : Statement (.tileOpStart core) := fun _ _ _ h => by cases h
theorem mpairRetire (op : Nat) : Statement (.mpairRetire op) := fun _ _ _ h => by cases h
theorem tileOpComplete (op : Nat) : Statement (.tileOpComplete op) := fun _ _ _ h => by cases h
theorem barComplete (g : GRef) : Statement (.barComplete g) := fun _ _ _ h => by cases h
theorem gangBarrierArrival (b : Nat) : Statement (.gangBarrierArrival b) := fun _ _ _ h => by cases h
theorem sstepArrival (b : Nat) : Statement (.sstepArrival b) := fun _ _ _ h => by cases h
theorem spanMoveComplete (span : SpanRef) (data : SpanLoad) (tags : List Nat) : Statement (.spanMoveComplete span data tags) := fun _ _ _ h => by cases h
theorem settleExpiry (span : SpanRef) : Statement (.settleExpiry span) := fun _ _ _ h => by cases h
theorem revokeProceed (rev : Nat) : Statement (.revokeProceed rev) := fun _ _ _ h => by cases h
theorem revocationPoint (rev : Nat) : Statement (.revocationPoint rev) := fun _ _ _ h => by cases h
theorem sweepRegisterScan (g : GRef) : Statement (.sweepRegisterScan g) := fun _ _ _ h => by cases h
theorem sweepComplete (pasid : Nat) : Statement (.sweepComplete pasid) := fun _ _ _ h => by cases h
theorem invalidationComplete (inv : Nat) : Statement (.invalidationComplete inv) := fun _ _ _ h => by cases h
theorem frameScrub (frame : Nat) : Statement (.frameScrub frame) := fun _ _ _ h => by cases h
theorem worldEndComplete (world : Nat) : Statement (.worldEndComplete world) := fun _ _ _ h => by cases h
theorem keyretComplete (world : Nat) : Statement (.keyretComplete world) := fun _ _ _ h => by cases h
theorem pmlimApply (core : Nat) : Statement (.pmlimApply core) := fun _ _ _ h => by cases h
theorem wscopyProceed (id : Nat) : Statement (.wscopyProceed id) := fun _ _ _ h => by cases h
theorem launchRecord (iface : Nat) (rec : BitVec 512) : Statement (.launchRecord iface rec) := fun _ _ _ h => by cases h
theorem blockPlacement (core : Nat) : Statement (.blockPlacement core) := fun _ _ _ h => by cases h
theorem launchComplete (pasid seq : Nat) : Statement (.launchComplete pasid seq) := fun _ _ _ h => by cases h
theorem sliceEnd (die : Nat) : Statement (.sliceEnd die) := fun _ _ _ h => by cases h
theorem blockSave (b : Nat) : Statement (.blockSave b) := fun _ _ _ h => by cases h
theorem blockRestore (b core : Nat) : Statement (.blockRestore b core) := fun _ _ _ h => by cases h
theorem gangReady (die : Nat) : Statement (.gangReady die) := fun _ _ _ h => by cases h
theorem gangDeadline (die : Nat) (othersReady : Bool) : Statement (.gangDeadline die othersReady) := fun _ _ _ h => by cases h
theorem faultRecordPost : Statement (.faultRecordPost) := fun _ _ _ h => by cases h
theorem tick (sensors : List Int) : Statement (.tick sensors) := fun _ _ _ h => by cases h
theorem marginRelax (die : Nat) : Statement (.marginRelax die) := fun _ _ _ h => by cases h
theorem powerCeilingExpiry (die : Nat) : Statement (.powerCeilingExpiry die) := fun _ _ _ h => by cases h
theorem dieRetire (die : Nat) : Statement (.dieRetire die) := fun _ _ _ h => by cases h
theorem chargeReport : Statement (.chargeReport) := fun _ _ _ h => by cases h
theorem stepChangeBegin (die : Nat) : Statement (.stepChangeBegin die) := fun _ _ _ h => by cases h
theorem supplyRampEnd (die : Nat) : Statement (.supplyRampEnd die) := fun _ _ _ h => by cases h
theorem relockEnd (die : Nat) : Statement (.relockEnd die) := fun _ _ _ h => by cases h
theorem supplyLowerEnd (die : Nat) : Statement (.supplyLowerEnd die) := fun _ _ _ h => by cases h
theorem leaseGrant (watts ms : Nat) : Statement (.leaseGrant watts ms) := fun _ _ _ h => by cases h
theorem leaseExpiry : Statement (.leaseExpiry) := fun _ _ _ h => by cases h
theorem meterSample (g : GRef) : Statement (.meterSample g) := fun _ _ _ h => by cases h
theorem meterReadingWrite (world : Nat) : Statement (.meterReadingWrite world) := fun _ _ _ h => by cases h
theorem checkpoint (b : Nat) : Statement (.checkpoint b) := fun _ _ _ h => by cases h
theorem linkPacketReceive (p : LinkPacket) : Statement (.linkPacketReceive p) := fun _ _ _ h => by cases h
theorem fabricPacketArrival (p : FabricPacket) : Statement (.fabricPacketArrival p) := fun _ _ _ h => by cases h
theorem completionTimeout (q : Asked) (n : Nat) : Statement (.completionTimeout q n) := fun _ _ _ h => by cases h
theorem uncorrectableError (place : ErrPlace) : Statement (.uncorrectableError place) := fun _ _ _ h => by cases h
theorem linkCrcError (link : Nat) : Statement (.linkCrcError link) := fun _ _ _ h => by cases h
theorem coreRemap (core : Nat) : Statement (.coreRemap core) := fun _ _ _ h => by cases h
theorem boot (run : BootRun) : Statement (.boot run) := fun _ _ _ h => by cases h
theorem sqt (iface : Nat) (tail : Word) : Statement (.sqt iface tail) := fun _ _ _ h => by cases h
theorem completionPost (iface : Nat) : Statement (.completionPost iface) := fun _ _ _ h => by cases h
theorem cqh (iface : Nat) (v : Word) : Statement (.cqh iface v) := fun _ _ _ h => by cases h
theorem rh (ring : Nat) (v : Word) : Statement (.rh ring v) := fun _ _ _ h => by cases h
theorem trej (fn : Nat) : Statement (.trej fn) := fun _ _ _ h => by cases h
theorem latchedHalfRead (fn off : Nat) : Statement (.latchedHalfRead fn off) := fun _ _ _ h => by cases h
theorem registerWrite (fn off : Nat) (v : DWord) : Statement (.registerWrite fn off v) := fun _ _ _ h => by cases h
theorem ctxnew (q : Cmd) (desc ifc : DWord) : Statement (.ctxnew q desc ifc) := fun _ _ _ h => by cases h
theorem ctxwr (q : Cmd) (iw wt rate capb : DWord) : Statement (.ctxwr q iw wt rate capb) := fun _ _ _ h => by cases h
theorem ctxend (q : Cmd) (pasid : DWord) : Statement (.ctxend q pasid) := fun _ _ _ h => by cases h
theorem revoke (q : Cmd) (obn : DWord) : Statement (.revoke q obn) := fun _ _ _ h => by cases h
theorem invalObject (q : Cmd) (obn : DWord) : Statement (.invalObject q obn) := fun _ _ _ h => by cases h
theorem invalSpan (q : Cmd) (obn span : DWord) : Statement (.invalSpan q obn span) := fun _ _ _ h => by cases h
theorem invalStage2 (q : Cmd) (frame : DWord) : Statement (.invalStage2 q frame) := fun _ _ _ h => by cases h
theorem retry (q : Cmd) (sub : DWord) : Statement (.retry q sub) := fun _ _ _ h => by cases h
theorem dispose (q : Cmd) (sub word : DWord) : Statement (.dispose q sub word) := fun _ _ _ h => by cases h
theorem handler (q : Cmd) (code entry rootLo rootHi : DWord) : Statement (.handler q code entry rootLo rootHi) := fun _ _ _ h => by cases h
theorem wscopy (q : Cmd) (obn off die woff len : DWord) : Statement (.wscopy q obn off die woff len) := fun _ _ _ h => by cases h
theorem partwr (q : Cmd) (die entry : DWord) : Statement (.partwr q die entry) := fun _ _ _ h => by cases h
theorem vacate (q : Cmd) (die mask : DWord) : Statement (.vacate q die mask) := fun _ _ _ h => by cases h
theorem vacateReopen (q : Cmd) (die mask : DWord) : Statement (.vacateReopen q die mask) := fun _ _ _ h => by cases h
theorem keyrel (q : Cmd) (blob : DWord) : Statement (.keyrel q blob) := fun _ _ _ h => by cases h
theorem keyret (q : Cmd) (world slot : DWord) : Statement (.keyret q world slot) := fun _ _ _ h => by cases h
theorem dbgwr (q : Cmd) (desc : DWord) : Statement (.dbgwr q desc) := fun _ _ _ h => by cases h
theorem stopNow (q : Cmd) : Statement (.stopNow q) := fun _ _ _ h => by cases h
theorem stopAt (q : Cmd) (b i n : DWord) : Statement (.stopAt q b i n) := fun _ _ _ h => by cases h
theorem view (q : Cmd) (b i n image : DWord) : Statement (.view q b i n image) := fun _ _ _ h => by cases h
theorem resume (q : Cmd) : Statement (.resume q) := fun _ _ _ h => by cases h
theorem fncfg (q : Cmd) (fn ifcs s2 remap weight : DWord) : Statement (.fncfg q fn ifcs s2 remap weight) := fun _ _ _ h => by cases h
theorem worldnew (q : Cmd) (world p0 p1 p2 p3 : DWord) : Statement (.worldnew q world p0 p1 p2 p3) := fun _ _ _ h => by cases h
theorem worldend (q : Cmd) (world : DWord) : Statement (.worldend q world) := fun _ _ _ h => by cases h
theorem qtrd (q : Cmd) (fn idx : DWord) : Statement (.qtrd q fn idx) := fun _ _ _ h => by cases h
theorem sidebandReadIdentity : Statement (.sidebandReadIdentity) := fun _ _ _ h => by cases h
theorem sidebandReadTelemetry : Statement (.sidebandReadTelemetry) := fun _ _ _ h => by cases h
theorem sidebandReadLogs : Statement (.sidebandReadLogs) := fun _ _ _ h => by cases h
theorem sidebandLeaseFloor (watts : Nat) : Statement (.sidebandLeaseFloor watts) := fun _ _ _ h => by cases h
theorem sidebandRetire (die core : Nat) (wholeDie : Bool) : Statement (.sidebandRetire die core wholeDie) := fun _ _ _ h => by cases h
theorem sidebandReset : Statement (.sidebandReset) := fun _ _ _ h => by cases h
theorem returnToService (die step : Nat) : Statement (.returnToService die step) := fun _ _ _ h => by cases h

end Sys2Proof.Laws.Encodes
end

