-- ==== Sys2Proof/Laws/State.lean ====
section
/-!
SUPPORT. What each named update of the state leaves in each field: the field it changes, and every other as it was.
-/

namespace Sys2Proof.Machine


/-! ### `State.setDie` -/

section
variable (s : State) (d : Nat) (x : Die)
@[simp] theorem State.setDie_dies : (s.setDie d x).dies = tset s.dies d x := rfl
@[simp] theorem State.setDie_agenda : (s.setDie d x).agenda = s.agenda := rfl
@[simp] theorem State.setDie_free : (s.setDie d x).free = s.free := rfl
@[simp] theorem State.setDie_nextId : (s.setDie d x).nextId = s.nextId := rfl
@[simp] theorem State.setDie_cur : (s.setDie d x).cur = s.cur := rfl
@[simp] theorem State.setDie_reft : (s.setDie d x).reft = s.reft := rfl
@[simp] theorem State.setDie_ready : (s.setDie d x).ready = s.ready := rfl
@[simp] theorem State.setDie_boot : (s.setDie d x).boot = s.boot := rfl
@[simp] theorem State.setDie_trust : (s.setDie d x).trust = s.trust := rfl
@[simp] theorem State.setDie_energy : (s.setDie d x).energy = s.energy := rfl
@[simp] theorem State.setDie_cores : (s.setDie d x).cores = s.cores := rfl
@[simp] theorem State.setDie_retired : (s.setDie d x).retired = s.retired := rfl
@[simp] theorem State.setDie_mem : (s.setDie d x).mem = s.mem := rfl
@[simp] theorem State.setDie_worlds : (s.setDie d x).worlds = s.worlds := rfl
@[simp] theorem State.setDie_ctxs : (s.setDie d x).ctxs = s.ctxs := rfl
@[simp] theorem State.setDie_launches : (s.setDie d x).launches = s.launches := rfl
@[simp] theorem State.setDie_grids : (s.setDie d x).grids = s.grids := rfl
@[simp] theorem State.setDie_blocks : (s.setDie d x).blocks = s.blocks := rfl
@[simp] theorem State.setDie_groups : (s.setDie d x).groups = s.groups := rfl
@[simp] theorem State.setDie_ops : (s.setDie d x).ops = s.ops := rfl
@[simp] theorem State.setDie_tops : (s.setDie d x).tops = s.tops := rfl
@[simp] theorem State.setDie_parks : (s.setDie d x).parks = s.parks := rfl
@[simp] theorem State.setDie_revs : (s.setDie d x).revs = s.revs := rfl
@[simp] theorem State.setDie_invals : (s.setDie d x).invals = s.invals := rfl
@[simp] theorem State.setDie_wscopies : (s.setDie d x).wscopies = s.wscopies := rfl
@[simp] theorem State.setDie_vacs : (s.setDie d x).vacs = s.vacs := rfl
@[simp] theorem State.setDie_funcs : (s.setDie d x).funcs = s.funcs := rfl
@[simp] theorem State.setDie_ifaces : (s.setDie d x).ifaces = s.ifaces := rfl
@[simp] theorem State.setDie_rings : (s.setDie d x).rings = s.rings := rfl
@[simp] theorem State.setDie_rr : (s.setDie d x).rr = s.rr := rfl
@[simp] theorem State.setDie_msgs : (s.setDie d x).msgs = s.msgs := rfl
@[simp] theorem State.setDie_dropped : (s.setDie d x).dropped = s.dropped := rfl
@[simp] theorem State.setDie_fqs : (s.setDie d x).fqs = s.fqs := rfl
@[simp] theorem State.setDie_latch : (s.setDie d x).latch = s.latch := rfl
@[simp] theorem State.setDie_reply : (s.setDie d x).reply = s.reply := rfl
@[simp] theorem State.setDie_discards : (s.setDie d x).discards = s.discards := rfl
@[simp] theorem State.setDie_ckpts : (s.setDie d x).ckpts = s.ckpts := rfl
@[simp] theorem State.setDie_views : (s.setDie d x).views = s.views := rfl
@[simp] theorem State.setDie_viewJob : (s.setDie d x).viewJob = s.viewJob := rfl
@[simp] theorem State.setDie_sandbox : (s.setDie d x).sandbox = s.sandbox := rfl
end


/-! ### `State.modDie` -/

section
variable (s : State) (d : Nat) (f : Die → Die)
@[simp] theorem State.modDie_dies : (s.modDie d f).dies = tset s.dies d (f (s.die d)) := rfl
@[simp] theorem State.modDie_agenda : (s.modDie d f).agenda = s.agenda := rfl
@[simp] theorem State.modDie_free : (s.modDie d f).free = s.free := rfl
@[simp] theorem State.modDie_nextId : (s.modDie d f).nextId = s.nextId := rfl
@[simp] theorem State.modDie_cur : (s.modDie d f).cur = s.cur := rfl
@[simp] theorem State.modDie_reft : (s.modDie d f).reft = s.reft := rfl
@[simp] theorem State.modDie_ready : (s.modDie d f).ready = s.ready := rfl
@[simp] theorem State.modDie_boot : (s.modDie d f).boot = s.boot := rfl
@[simp] theorem State.modDie_trust : (s.modDie d f).trust = s.trust := rfl
@[simp] theorem State.modDie_energy : (s.modDie d f).energy = s.energy := rfl
@[simp] theorem State.modDie_cores : (s.modDie d f).cores = s.cores := rfl
@[simp] theorem State.modDie_retired : (s.modDie d f).retired = s.retired := rfl
@[simp] theorem State.modDie_mem : (s.modDie d f).mem = s.mem := rfl
@[simp] theorem State.modDie_worlds : (s.modDie d f).worlds = s.worlds := rfl
@[simp] theorem State.modDie_ctxs : (s.modDie d f).ctxs = s.ctxs := rfl
@[simp] theorem State.modDie_launches : (s.modDie d f).launches = s.launches := rfl
@[simp] theorem State.modDie_grids : (s.modDie d f).grids = s.grids := rfl
@[simp] theorem State.modDie_blocks : (s.modDie d f).blocks = s.blocks := rfl
@[simp] theorem State.modDie_groups : (s.modDie d f).groups = s.groups := rfl
@[simp] theorem State.modDie_ops : (s.modDie d f).ops = s.ops := rfl
@[simp] theorem State.modDie_tops : (s.modDie d f).tops = s.tops := rfl
@[simp] theorem State.modDie_parks : (s.modDie d f).parks = s.parks := rfl
@[simp] theorem State.modDie_revs : (s.modDie d f).revs = s.revs := rfl
@[simp] theorem State.modDie_invals : (s.modDie d f).invals = s.invals := rfl
@[simp] theorem State.modDie_wscopies : (s.modDie d f).wscopies = s.wscopies := rfl
@[simp] theorem State.modDie_vacs : (s.modDie d f).vacs = s.vacs := rfl
@[simp] theorem State.modDie_funcs : (s.modDie d f).funcs = s.funcs := rfl
@[simp] theorem State.modDie_ifaces : (s.modDie d f).ifaces = s.ifaces := rfl
@[simp] theorem State.modDie_rings : (s.modDie d f).rings = s.rings := rfl
@[simp] theorem State.modDie_rr : (s.modDie d f).rr = s.rr := rfl
@[simp] theorem State.modDie_msgs : (s.modDie d f).msgs = s.msgs := rfl
@[simp] theorem State.modDie_dropped : (s.modDie d f).dropped = s.dropped := rfl
@[simp] theorem State.modDie_fqs : (s.modDie d f).fqs = s.fqs := rfl
@[simp] theorem State.modDie_latch : (s.modDie d f).latch = s.latch := rfl
@[simp] theorem State.modDie_reply : (s.modDie d f).reply = s.reply := rfl
@[simp] theorem State.modDie_discards : (s.modDie d f).discards = s.discards := rfl
@[simp] theorem State.modDie_ckpts : (s.modDie d f).ckpts = s.ckpts := rfl
@[simp] theorem State.modDie_views : (s.modDie d f).views = s.views := rfl
@[simp] theorem State.modDie_viewJob : (s.modDie d f).viewJob = s.viewJob := rfl
@[simp] theorem State.modDie_sandbox : (s.modDie d f).sandbox = s.sandbox := rfl
end


/-! ### `State.setCore` -/

section
variable (s : State) (c : Nat) (x : Core)
@[simp] theorem State.setCore_cores : (s.setCore c x).cores = tset s.cores c x := rfl
@[simp] theorem State.setCore_agenda : (s.setCore c x).agenda = s.agenda := rfl
@[simp] theorem State.setCore_free : (s.setCore c x).free = s.free := rfl
@[simp] theorem State.setCore_nextId : (s.setCore c x).nextId = s.nextId := rfl
@[simp] theorem State.setCore_cur : (s.setCore c x).cur = s.cur := rfl
@[simp] theorem State.setCore_reft : (s.setCore c x).reft = s.reft := rfl
@[simp] theorem State.setCore_ready : (s.setCore c x).ready = s.ready := rfl
@[simp] theorem State.setCore_boot : (s.setCore c x).boot = s.boot := rfl
@[simp] theorem State.setCore_trust : (s.setCore c x).trust = s.trust := rfl
@[simp] theorem State.setCore_energy : (s.setCore c x).energy = s.energy := rfl
@[simp] theorem State.setCore_dies : (s.setCore c x).dies = s.dies := rfl
@[simp] theorem State.setCore_retired : (s.setCore c x).retired = s.retired := rfl
@[simp] theorem State.setCore_mem : (s.setCore c x).mem = s.mem := rfl
@[simp] theorem State.setCore_worlds : (s.setCore c x).worlds = s.worlds := rfl
@[simp] theorem State.setCore_ctxs : (s.setCore c x).ctxs = s.ctxs := rfl
@[simp] theorem State.setCore_launches : (s.setCore c x).launches = s.launches := rfl
@[simp] theorem State.setCore_grids : (s.setCore c x).grids = s.grids := rfl
@[simp] theorem State.setCore_blocks : (s.setCore c x).blocks = s.blocks := rfl
@[simp] theorem State.setCore_groups : (s.setCore c x).groups = s.groups := rfl
@[simp] theorem State.setCore_ops : (s.setCore c x).ops = s.ops := rfl
@[simp] theorem State.setCore_tops : (s.setCore c x).tops = s.tops := rfl
@[simp] theorem State.setCore_parks : (s.setCore c x).parks = s.parks := rfl
@[simp] theorem State.setCore_revs : (s.setCore c x).revs = s.revs := rfl
@[simp] theorem State.setCore_invals : (s.setCore c x).invals = s.invals := rfl
@[simp] theorem State.setCore_wscopies : (s.setCore c x).wscopies = s.wscopies := rfl
@[simp] theorem State.setCore_vacs : (s.setCore c x).vacs = s.vacs := rfl
@[simp] theorem State.setCore_funcs : (s.setCore c x).funcs = s.funcs := rfl
@[simp] theorem State.setCore_ifaces : (s.setCore c x).ifaces = s.ifaces := rfl
@[simp] theorem State.setCore_rings : (s.setCore c x).rings = s.rings := rfl
@[simp] theorem State.setCore_rr : (s.setCore c x).rr = s.rr := rfl
@[simp] theorem State.setCore_msgs : (s.setCore c x).msgs = s.msgs := rfl
@[simp] theorem State.setCore_dropped : (s.setCore c x).dropped = s.dropped := rfl
@[simp] theorem State.setCore_fqs : (s.setCore c x).fqs = s.fqs := rfl
@[simp] theorem State.setCore_latch : (s.setCore c x).latch = s.latch := rfl
@[simp] theorem State.setCore_reply : (s.setCore c x).reply = s.reply := rfl
@[simp] theorem State.setCore_discards : (s.setCore c x).discards = s.discards := rfl
@[simp] theorem State.setCore_ckpts : (s.setCore c x).ckpts = s.ckpts := rfl
@[simp] theorem State.setCore_views : (s.setCore c x).views = s.views := rfl
@[simp] theorem State.setCore_viewJob : (s.setCore c x).viewJob = s.viewJob := rfl
@[simp] theorem State.setCore_sandbox : (s.setCore c x).sandbox = s.sandbox := rfl
end


/-! ### `State.modCore` -/

section
variable (s : State) (c : Nat) (f : Core → Core)
@[simp] theorem State.modCore_cores : (s.modCore c f).cores = tset s.cores c (f (s.core c)) := rfl
@[simp] theorem State.modCore_agenda : (s.modCore c f).agenda = s.agenda := rfl
@[simp] theorem State.modCore_free : (s.modCore c f).free = s.free := rfl
@[simp] theorem State.modCore_nextId : (s.modCore c f).nextId = s.nextId := rfl
@[simp] theorem State.modCore_cur : (s.modCore c f).cur = s.cur := rfl
@[simp] theorem State.modCore_reft : (s.modCore c f).reft = s.reft := rfl
@[simp] theorem State.modCore_ready : (s.modCore c f).ready = s.ready := rfl
@[simp] theorem State.modCore_boot : (s.modCore c f).boot = s.boot := rfl
@[simp] theorem State.modCore_trust : (s.modCore c f).trust = s.trust := rfl
@[simp] theorem State.modCore_energy : (s.modCore c f).energy = s.energy := rfl
@[simp] theorem State.modCore_dies : (s.modCore c f).dies = s.dies := rfl
@[simp] theorem State.modCore_retired : (s.modCore c f).retired = s.retired := rfl
@[simp] theorem State.modCore_mem : (s.modCore c f).mem = s.mem := rfl
@[simp] theorem State.modCore_worlds : (s.modCore c f).worlds = s.worlds := rfl
@[simp] theorem State.modCore_ctxs : (s.modCore c f).ctxs = s.ctxs := rfl
@[simp] theorem State.modCore_launches : (s.modCore c f).launches = s.launches := rfl
@[simp] theorem State.modCore_grids : (s.modCore c f).grids = s.grids := rfl
@[simp] theorem State.modCore_blocks : (s.modCore c f).blocks = s.blocks := rfl
@[simp] theorem State.modCore_groups : (s.modCore c f).groups = s.groups := rfl
@[simp] theorem State.modCore_ops : (s.modCore c f).ops = s.ops := rfl
@[simp] theorem State.modCore_tops : (s.modCore c f).tops = s.tops := rfl
@[simp] theorem State.modCore_parks : (s.modCore c f).parks = s.parks := rfl
@[simp] theorem State.modCore_revs : (s.modCore c f).revs = s.revs := rfl
@[simp] theorem State.modCore_invals : (s.modCore c f).invals = s.invals := rfl
@[simp] theorem State.modCore_wscopies : (s.modCore c f).wscopies = s.wscopies := rfl
@[simp] theorem State.modCore_vacs : (s.modCore c f).vacs = s.vacs := rfl
@[simp] theorem State.modCore_funcs : (s.modCore c f).funcs = s.funcs := rfl
@[simp] theorem State.modCore_ifaces : (s.modCore c f).ifaces = s.ifaces := rfl
@[simp] theorem State.modCore_rings : (s.modCore c f).rings = s.rings := rfl
@[simp] theorem State.modCore_rr : (s.modCore c f).rr = s.rr := rfl
@[simp] theorem State.modCore_msgs : (s.modCore c f).msgs = s.msgs := rfl
@[simp] theorem State.modCore_dropped : (s.modCore c f).dropped = s.dropped := rfl
@[simp] theorem State.modCore_fqs : (s.modCore c f).fqs = s.fqs := rfl
@[simp] theorem State.modCore_latch : (s.modCore c f).latch = s.latch := rfl
@[simp] theorem State.modCore_reply : (s.modCore c f).reply = s.reply := rfl
@[simp] theorem State.modCore_discards : (s.modCore c f).discards = s.discards := rfl
@[simp] theorem State.modCore_ckpts : (s.modCore c f).ckpts = s.ckpts := rfl
@[simp] theorem State.modCore_views : (s.modCore c f).views = s.views := rfl
@[simp] theorem State.modCore_viewJob : (s.modCore c f).viewJob = s.viewJob := rfl
@[simp] theorem State.modCore_sandbox : (s.modCore c f).sandbox = s.sandbox := rfl
end


/-! ### `State.modFunc` -/

section
variable (s : State) (k : Nat) (f : Func → Func)
@[simp] theorem State.modFunc_funcs : (s.modFunc k f).funcs = tset s.funcs k (f (s.func k)) := rfl
@[simp] theorem State.modFunc_agenda : (s.modFunc k f).agenda = s.agenda := rfl
@[simp] theorem State.modFunc_free : (s.modFunc k f).free = s.free := rfl
@[simp] theorem State.modFunc_nextId : (s.modFunc k f).nextId = s.nextId := rfl
@[simp] theorem State.modFunc_cur : (s.modFunc k f).cur = s.cur := rfl
@[simp] theorem State.modFunc_reft : (s.modFunc k f).reft = s.reft := rfl
@[simp] theorem State.modFunc_ready : (s.modFunc k f).ready = s.ready := rfl
@[simp] theorem State.modFunc_boot : (s.modFunc k f).boot = s.boot := rfl
@[simp] theorem State.modFunc_trust : (s.modFunc k f).trust = s.trust := rfl
@[simp] theorem State.modFunc_energy : (s.modFunc k f).energy = s.energy := rfl
@[simp] theorem State.modFunc_dies : (s.modFunc k f).dies = s.dies := rfl
@[simp] theorem State.modFunc_cores : (s.modFunc k f).cores = s.cores := rfl
@[simp] theorem State.modFunc_retired : (s.modFunc k f).retired = s.retired := rfl
@[simp] theorem State.modFunc_mem : (s.modFunc k f).mem = s.mem := rfl
@[simp] theorem State.modFunc_worlds : (s.modFunc k f).worlds = s.worlds := rfl
@[simp] theorem State.modFunc_ctxs : (s.modFunc k f).ctxs = s.ctxs := rfl
@[simp] theorem State.modFunc_launches : (s.modFunc k f).launches = s.launches := rfl
@[simp] theorem State.modFunc_grids : (s.modFunc k f).grids = s.grids := rfl
@[simp] theorem State.modFunc_blocks : (s.modFunc k f).blocks = s.blocks := rfl
@[simp] theorem State.modFunc_groups : (s.modFunc k f).groups = s.groups := rfl
@[simp] theorem State.modFunc_ops : (s.modFunc k f).ops = s.ops := rfl
@[simp] theorem State.modFunc_tops : (s.modFunc k f).tops = s.tops := rfl
@[simp] theorem State.modFunc_parks : (s.modFunc k f).parks = s.parks := rfl
@[simp] theorem State.modFunc_revs : (s.modFunc k f).revs = s.revs := rfl
@[simp] theorem State.modFunc_invals : (s.modFunc k f).invals = s.invals := rfl
@[simp] theorem State.modFunc_wscopies : (s.modFunc k f).wscopies = s.wscopies := rfl
@[simp] theorem State.modFunc_vacs : (s.modFunc k f).vacs = s.vacs := rfl
@[simp] theorem State.modFunc_ifaces : (s.modFunc k f).ifaces = s.ifaces := rfl
@[simp] theorem State.modFunc_rings : (s.modFunc k f).rings = s.rings := rfl
@[simp] theorem State.modFunc_rr : (s.modFunc k f).rr = s.rr := rfl
@[simp] theorem State.modFunc_msgs : (s.modFunc k f).msgs = s.msgs := rfl
@[simp] theorem State.modFunc_dropped : (s.modFunc k f).dropped = s.dropped := rfl
@[simp] theorem State.modFunc_fqs : (s.modFunc k f).fqs = s.fqs := rfl
@[simp] theorem State.modFunc_latch : (s.modFunc k f).latch = s.latch := rfl
@[simp] theorem State.modFunc_reply : (s.modFunc k f).reply = s.reply := rfl
@[simp] theorem State.modFunc_discards : (s.modFunc k f).discards = s.discards := rfl
@[simp] theorem State.modFunc_ckpts : (s.modFunc k f).ckpts = s.ckpts := rfl
@[simp] theorem State.modFunc_views : (s.modFunc k f).views = s.views := rfl
@[simp] theorem State.modFunc_viewJob : (s.modFunc k f).viewJob = s.viewJob := rfl
@[simp] theorem State.modFunc_sandbox : (s.modFunc k f).sandbox = s.sandbox := rfl
end


/-! ### `State.modIface` -/

section
variable (s : State) (k : Nat) (f : Iface → Iface)
@[simp] theorem State.modIface_ifaces : (s.modIface k f).ifaces = tset s.ifaces k (f (s.iface k)) := rfl
@[simp] theorem State.modIface_agenda : (s.modIface k f).agenda = s.agenda := rfl
@[simp] theorem State.modIface_free : (s.modIface k f).free = s.free := rfl
@[simp] theorem State.modIface_nextId : (s.modIface k f).nextId = s.nextId := rfl
@[simp] theorem State.modIface_cur : (s.modIface k f).cur = s.cur := rfl
@[simp] theorem State.modIface_reft : (s.modIface k f).reft = s.reft := rfl
@[simp] theorem State.modIface_ready : (s.modIface k f).ready = s.ready := rfl
@[simp] theorem State.modIface_boot : (s.modIface k f).boot = s.boot := rfl
@[simp] theorem State.modIface_trust : (s.modIface k f).trust = s.trust := rfl
@[simp] theorem State.modIface_energy : (s.modIface k f).energy = s.energy := rfl
@[simp] theorem State.modIface_dies : (s.modIface k f).dies = s.dies := rfl
@[simp] theorem State.modIface_cores : (s.modIface k f).cores = s.cores := rfl
@[simp] theorem State.modIface_retired : (s.modIface k f).retired = s.retired := rfl
@[simp] theorem State.modIface_mem : (s.modIface k f).mem = s.mem := rfl
@[simp] theorem State.modIface_worlds : (s.modIface k f).worlds = s.worlds := rfl
@[simp] theorem State.modIface_ctxs : (s.modIface k f).ctxs = s.ctxs := rfl
@[simp] theorem State.modIface_launches : (s.modIface k f).launches = s.launches := rfl
@[simp] theorem State.modIface_grids : (s.modIface k f).grids = s.grids := rfl
@[simp] theorem State.modIface_blocks : (s.modIface k f).blocks = s.blocks := rfl
@[simp] theorem State.modIface_groups : (s.modIface k f).groups = s.groups := rfl
@[simp] theorem State.modIface_ops : (s.modIface k f).ops = s.ops := rfl
@[simp] theorem State.modIface_tops : (s.modIface k f).tops = s.tops := rfl
@[simp] theorem State.modIface_parks : (s.modIface k f).parks = s.parks := rfl
@[simp] theorem State.modIface_revs : (s.modIface k f).revs = s.revs := rfl
@[simp] theorem State.modIface_invals : (s.modIface k f).invals = s.invals := rfl
@[simp] theorem State.modIface_wscopies : (s.modIface k f).wscopies = s.wscopies := rfl
@[simp] theorem State.modIface_vacs : (s.modIface k f).vacs = s.vacs := rfl
@[simp] theorem State.modIface_funcs : (s.modIface k f).funcs = s.funcs := rfl
@[simp] theorem State.modIface_rings : (s.modIface k f).rings = s.rings := rfl
@[simp] theorem State.modIface_rr : (s.modIface k f).rr = s.rr := rfl
@[simp] theorem State.modIface_msgs : (s.modIface k f).msgs = s.msgs := rfl
@[simp] theorem State.modIface_dropped : (s.modIface k f).dropped = s.dropped := rfl
@[simp] theorem State.modIface_fqs : (s.modIface k f).fqs = s.fqs := rfl
@[simp] theorem State.modIface_latch : (s.modIface k f).latch = s.latch := rfl
@[simp] theorem State.modIface_reply : (s.modIface k f).reply = s.reply := rfl
@[simp] theorem State.modIface_discards : (s.modIface k f).discards = s.discards := rfl
@[simp] theorem State.modIface_ckpts : (s.modIface k f).ckpts = s.ckpts := rfl
@[simp] theorem State.modIface_views : (s.modIface k f).views = s.views := rfl
@[simp] theorem State.modIface_viewJob : (s.modIface k f).viewJob = s.viewJob := rfl
@[simp] theorem State.modIface_sandbox : (s.modIface k f).sandbox = s.sandbox := rfl
end


/-! ### `State.modRing` -/

section
variable (s : State) (k : Nat) (f : Ring → Ring)
@[simp] theorem State.modRing_rings : (s.modRing k f).rings = tset s.rings k (f (s.ring k)) := rfl
@[simp] theorem State.modRing_agenda : (s.modRing k f).agenda = s.agenda := rfl
@[simp] theorem State.modRing_free : (s.modRing k f).free = s.free := rfl
@[simp] theorem State.modRing_nextId : (s.modRing k f).nextId = s.nextId := rfl
@[simp] theorem State.modRing_cur : (s.modRing k f).cur = s.cur := rfl
@[simp] theorem State.modRing_reft : (s.modRing k f).reft = s.reft := rfl
@[simp] theorem State.modRing_ready : (s.modRing k f).ready = s.ready := rfl
@[simp] theorem State.modRing_boot : (s.modRing k f).boot = s.boot := rfl
@[simp] theorem State.modRing_trust : (s.modRing k f).trust = s.trust := rfl
@[simp] theorem State.modRing_energy : (s.modRing k f).energy = s.energy := rfl
@[simp] theorem State.modRing_dies : (s.modRing k f).dies = s.dies := rfl
@[simp] theorem State.modRing_cores : (s.modRing k f).cores = s.cores := rfl
@[simp] theorem State.modRing_retired : (s.modRing k f).retired = s.retired := rfl
@[simp] theorem State.modRing_mem : (s.modRing k f).mem = s.mem := rfl
@[simp] theorem State.modRing_worlds : (s.modRing k f).worlds = s.worlds := rfl
@[simp] theorem State.modRing_ctxs : (s.modRing k f).ctxs = s.ctxs := rfl
@[simp] theorem State.modRing_launches : (s.modRing k f).launches = s.launches := rfl
@[simp] theorem State.modRing_grids : (s.modRing k f).grids = s.grids := rfl
@[simp] theorem State.modRing_blocks : (s.modRing k f).blocks = s.blocks := rfl
@[simp] theorem State.modRing_groups : (s.modRing k f).groups = s.groups := rfl
@[simp] theorem State.modRing_ops : (s.modRing k f).ops = s.ops := rfl
@[simp] theorem State.modRing_tops : (s.modRing k f).tops = s.tops := rfl
@[simp] theorem State.modRing_parks : (s.modRing k f).parks = s.parks := rfl
@[simp] theorem State.modRing_revs : (s.modRing k f).revs = s.revs := rfl
@[simp] theorem State.modRing_invals : (s.modRing k f).invals = s.invals := rfl
@[simp] theorem State.modRing_wscopies : (s.modRing k f).wscopies = s.wscopies := rfl
@[simp] theorem State.modRing_vacs : (s.modRing k f).vacs = s.vacs := rfl
@[simp] theorem State.modRing_funcs : (s.modRing k f).funcs = s.funcs := rfl
@[simp] theorem State.modRing_ifaces : (s.modRing k f).ifaces = s.ifaces := rfl
@[simp] theorem State.modRing_rr : (s.modRing k f).rr = s.rr := rfl
@[simp] theorem State.modRing_msgs : (s.modRing k f).msgs = s.msgs := rfl
@[simp] theorem State.modRing_dropped : (s.modRing k f).dropped = s.dropped := rfl
@[simp] theorem State.modRing_fqs : (s.modRing k f).fqs = s.fqs := rfl
@[simp] theorem State.modRing_latch : (s.modRing k f).latch = s.latch := rfl
@[simp] theorem State.modRing_reply : (s.modRing k f).reply = s.reply := rfl
@[simp] theorem State.modRing_discards : (s.modRing k f).discards = s.discards := rfl
@[simp] theorem State.modRing_ckpts : (s.modRing k f).ckpts = s.ckpts := rfl
@[simp] theorem State.modRing_views : (s.modRing k f).views = s.views := rfl
@[simp] theorem State.modRing_viewJob : (s.modRing k f).viewJob = s.viewJob := rfl
@[simp] theorem State.modRing_sandbox : (s.modRing k f).sandbox = s.sandbox := rfl
end


/-! ### `State.modCtx` -/

section
variable (s : State) (k : Nat) (f : Ctx → Ctx)
@[simp] theorem State.modCtx_ctxs : (s.modCtx k f).ctxs = tmod s.ctxs k f := rfl
@[simp] theorem State.modCtx_agenda : (s.modCtx k f).agenda = s.agenda := rfl
@[simp] theorem State.modCtx_free : (s.modCtx k f).free = s.free := rfl
@[simp] theorem State.modCtx_nextId : (s.modCtx k f).nextId = s.nextId := rfl
@[simp] theorem State.modCtx_cur : (s.modCtx k f).cur = s.cur := rfl
@[simp] theorem State.modCtx_reft : (s.modCtx k f).reft = s.reft := rfl
@[simp] theorem State.modCtx_ready : (s.modCtx k f).ready = s.ready := rfl
@[simp] theorem State.modCtx_boot : (s.modCtx k f).boot = s.boot := rfl
@[simp] theorem State.modCtx_trust : (s.modCtx k f).trust = s.trust := rfl
@[simp] theorem State.modCtx_energy : (s.modCtx k f).energy = s.energy := rfl
@[simp] theorem State.modCtx_dies : (s.modCtx k f).dies = s.dies := rfl
@[simp] theorem State.modCtx_cores : (s.modCtx k f).cores = s.cores := rfl
@[simp] theorem State.modCtx_retired : (s.modCtx k f).retired = s.retired := rfl
@[simp] theorem State.modCtx_mem : (s.modCtx k f).mem = s.mem := rfl
@[simp] theorem State.modCtx_worlds : (s.modCtx k f).worlds = s.worlds := rfl
@[simp] theorem State.modCtx_launches : (s.modCtx k f).launches = s.launches := rfl
@[simp] theorem State.modCtx_grids : (s.modCtx k f).grids = s.grids := rfl
@[simp] theorem State.modCtx_blocks : (s.modCtx k f).blocks = s.blocks := rfl
@[simp] theorem State.modCtx_groups : (s.modCtx k f).groups = s.groups := rfl
@[simp] theorem State.modCtx_ops : (s.modCtx k f).ops = s.ops := rfl
@[simp] theorem State.modCtx_tops : (s.modCtx k f).tops = s.tops := rfl
@[simp] theorem State.modCtx_parks : (s.modCtx k f).parks = s.parks := rfl
@[simp] theorem State.modCtx_revs : (s.modCtx k f).revs = s.revs := rfl
@[simp] theorem State.modCtx_invals : (s.modCtx k f).invals = s.invals := rfl
@[simp] theorem State.modCtx_wscopies : (s.modCtx k f).wscopies = s.wscopies := rfl
@[simp] theorem State.modCtx_vacs : (s.modCtx k f).vacs = s.vacs := rfl
@[simp] theorem State.modCtx_funcs : (s.modCtx k f).funcs = s.funcs := rfl
@[simp] theorem State.modCtx_ifaces : (s.modCtx k f).ifaces = s.ifaces := rfl
@[simp] theorem State.modCtx_rings : (s.modCtx k f).rings = s.rings := rfl
@[simp] theorem State.modCtx_rr : (s.modCtx k f).rr = s.rr := rfl
@[simp] theorem State.modCtx_msgs : (s.modCtx k f).msgs = s.msgs := rfl
@[simp] theorem State.modCtx_dropped : (s.modCtx k f).dropped = s.dropped := rfl
@[simp] theorem State.modCtx_fqs : (s.modCtx k f).fqs = s.fqs := rfl
@[simp] theorem State.modCtx_latch : (s.modCtx k f).latch = s.latch := rfl
@[simp] theorem State.modCtx_reply : (s.modCtx k f).reply = s.reply := rfl
@[simp] theorem State.modCtx_discards : (s.modCtx k f).discards = s.discards := rfl
@[simp] theorem State.modCtx_ckpts : (s.modCtx k f).ckpts = s.ckpts := rfl
@[simp] theorem State.modCtx_views : (s.modCtx k f).views = s.views := rfl
@[simp] theorem State.modCtx_viewJob : (s.modCtx k f).viewJob = s.viewJob := rfl
@[simp] theorem State.modCtx_sandbox : (s.modCtx k f).sandbox = s.sandbox := rfl
end


/-! ### `State.modWorld` -/

section
variable (s : State) (k : Nat) (f : World → World)
@[simp] theorem State.modWorld_worlds : (s.modWorld k f).worlds = tmod s.worlds k f := rfl
@[simp] theorem State.modWorld_agenda : (s.modWorld k f).agenda = s.agenda := rfl
@[simp] theorem State.modWorld_free : (s.modWorld k f).free = s.free := rfl
@[simp] theorem State.modWorld_nextId : (s.modWorld k f).nextId = s.nextId := rfl
@[simp] theorem State.modWorld_cur : (s.modWorld k f).cur = s.cur := rfl
@[simp] theorem State.modWorld_reft : (s.modWorld k f).reft = s.reft := rfl
@[simp] theorem State.modWorld_ready : (s.modWorld k f).ready = s.ready := rfl
@[simp] theorem State.modWorld_boot : (s.modWorld k f).boot = s.boot := rfl
@[simp] theorem State.modWorld_trust : (s.modWorld k f).trust = s.trust := rfl
@[simp] theorem State.modWorld_energy : (s.modWorld k f).energy = s.energy := rfl
@[simp] theorem State.modWorld_dies : (s.modWorld k f).dies = s.dies := rfl
@[simp] theorem State.modWorld_cores : (s.modWorld k f).cores = s.cores := rfl
@[simp] theorem State.modWorld_retired : (s.modWorld k f).retired = s.retired := rfl
@[simp] theorem State.modWorld_mem : (s.modWorld k f).mem = s.mem := rfl
@[simp] theorem State.modWorld_ctxs : (s.modWorld k f).ctxs = s.ctxs := rfl
@[simp] theorem State.modWorld_launches : (s.modWorld k f).launches = s.launches := rfl
@[simp] theorem State.modWorld_grids : (s.modWorld k f).grids = s.grids := rfl
@[simp] theorem State.modWorld_blocks : (s.modWorld k f).blocks = s.blocks := rfl
@[simp] theorem State.modWorld_groups : (s.modWorld k f).groups = s.groups := rfl
@[simp] theorem State.modWorld_ops : (s.modWorld k f).ops = s.ops := rfl
@[simp] theorem State.modWorld_tops : (s.modWorld k f).tops = s.tops := rfl
@[simp] theorem State.modWorld_parks : (s.modWorld k f).parks = s.parks := rfl
@[simp] theorem State.modWorld_revs : (s.modWorld k f).revs = s.revs := rfl
@[simp] theorem State.modWorld_invals : (s.modWorld k f).invals = s.invals := rfl
@[simp] theorem State.modWorld_wscopies : (s.modWorld k f).wscopies = s.wscopies := rfl
@[simp] theorem State.modWorld_vacs : (s.modWorld k f).vacs = s.vacs := rfl
@[simp] theorem State.modWorld_funcs : (s.modWorld k f).funcs = s.funcs := rfl
@[simp] theorem State.modWorld_ifaces : (s.modWorld k f).ifaces = s.ifaces := rfl
@[simp] theorem State.modWorld_rings : (s.modWorld k f).rings = s.rings := rfl
@[simp] theorem State.modWorld_rr : (s.modWorld k f).rr = s.rr := rfl
@[simp] theorem State.modWorld_msgs : (s.modWorld k f).msgs = s.msgs := rfl
@[simp] theorem State.modWorld_dropped : (s.modWorld k f).dropped = s.dropped := rfl
@[simp] theorem State.modWorld_fqs : (s.modWorld k f).fqs = s.fqs := rfl
@[simp] theorem State.modWorld_latch : (s.modWorld k f).latch = s.latch := rfl
@[simp] theorem State.modWorld_reply : (s.modWorld k f).reply = s.reply := rfl
@[simp] theorem State.modWorld_discards : (s.modWorld k f).discards = s.discards := rfl
@[simp] theorem State.modWorld_ckpts : (s.modWorld k f).ckpts = s.ckpts := rfl
@[simp] theorem State.modWorld_views : (s.modWorld k f).views = s.views := rfl
@[simp] theorem State.modWorld_viewJob : (s.modWorld k f).viewJob = s.viewJob := rfl
@[simp] theorem State.modWorld_sandbox : (s.modWorld k f).sandbox = s.sandbox := rfl
end


/-! ### `State.modBlock` -/

section
variable (s : State) (k : Nat) (f : Block → Block)
@[simp] theorem State.modBlock_blocks : (s.modBlock k f).blocks = tmod s.blocks k f := rfl
@[simp] theorem State.modBlock_agenda : (s.modBlock k f).agenda = s.agenda := rfl
@[simp] theorem State.modBlock_free : (s.modBlock k f).free = s.free := rfl
@[simp] theorem State.modBlock_nextId : (s.modBlock k f).nextId = s.nextId := rfl
@[simp] theorem State.modBlock_cur : (s.modBlock k f).cur = s.cur := rfl
@[simp] theorem State.modBlock_reft : (s.modBlock k f).reft = s.reft := rfl
@[simp] theorem State.modBlock_ready : (s.modBlock k f).ready = s.ready := rfl
@[simp] theorem State.modBlock_boot : (s.modBlock k f).boot = s.boot := rfl
@[simp] theorem State.modBlock_trust : (s.modBlock k f).trust = s.trust := rfl
@[simp] theorem State.modBlock_energy : (s.modBlock k f).energy = s.energy := rfl
@[simp] theorem State.modBlock_dies : (s.modBlock k f).dies = s.dies := rfl
@[simp] theorem State.modBlock_cores : (s.modBlock k f).cores = s.cores := rfl
@[simp] theorem State.modBlock_retired : (s.modBlock k f).retired = s.retired := rfl
@[simp] theorem State.modBlock_mem : (s.modBlock k f).mem = s.mem := rfl
@[simp] theorem State.modBlock_worlds : (s.modBlock k f).worlds = s.worlds := rfl
@[simp] theorem State.modBlock_ctxs : (s.modBlock k f).ctxs = s.ctxs := rfl
@[simp] theorem State.modBlock_launches : (s.modBlock k f).launches = s.launches := rfl
@[simp] theorem State.modBlock_grids : (s.modBlock k f).grids = s.grids := rfl
@[simp] theorem State.modBlock_groups : (s.modBlock k f).groups = s.groups := rfl
@[simp] theorem State.modBlock_ops : (s.modBlock k f).ops = s.ops := rfl
@[simp] theorem State.modBlock_tops : (s.modBlock k f).tops = s.tops := rfl
@[simp] theorem State.modBlock_parks : (s.modBlock k f).parks = s.parks := rfl
@[simp] theorem State.modBlock_revs : (s.modBlock k f).revs = s.revs := rfl
@[simp] theorem State.modBlock_invals : (s.modBlock k f).invals = s.invals := rfl
@[simp] theorem State.modBlock_wscopies : (s.modBlock k f).wscopies = s.wscopies := rfl
@[simp] theorem State.modBlock_vacs : (s.modBlock k f).vacs = s.vacs := rfl
@[simp] theorem State.modBlock_funcs : (s.modBlock k f).funcs = s.funcs := rfl
@[simp] theorem State.modBlock_ifaces : (s.modBlock k f).ifaces = s.ifaces := rfl
@[simp] theorem State.modBlock_rings : (s.modBlock k f).rings = s.rings := rfl
@[simp] theorem State.modBlock_rr : (s.modBlock k f).rr = s.rr := rfl
@[simp] theorem State.modBlock_msgs : (s.modBlock k f).msgs = s.msgs := rfl
@[simp] theorem State.modBlock_dropped : (s.modBlock k f).dropped = s.dropped := rfl
@[simp] theorem State.modBlock_fqs : (s.modBlock k f).fqs = s.fqs := rfl
@[simp] theorem State.modBlock_latch : (s.modBlock k f).latch = s.latch := rfl
@[simp] theorem State.modBlock_reply : (s.modBlock k f).reply = s.reply := rfl
@[simp] theorem State.modBlock_discards : (s.modBlock k f).discards = s.discards := rfl
@[simp] theorem State.modBlock_ckpts : (s.modBlock k f).ckpts = s.ckpts := rfl
@[simp] theorem State.modBlock_views : (s.modBlock k f).views = s.views := rfl
@[simp] theorem State.modBlock_viewJob : (s.modBlock k f).viewJob = s.viewJob := rfl
@[simp] theorem State.modBlock_sandbox : (s.modBlock k f).sandbox = s.sandbox := rfl
end


/-! ### `State.modOp` -/

section
variable (s : State) (k : Nat) (f : Op → Op)
@[simp] theorem State.modOp_ops : (s.modOp k f).ops = tmod s.ops k f := rfl
@[simp] theorem State.modOp_agenda : (s.modOp k f).agenda = s.agenda := rfl
@[simp] theorem State.modOp_free : (s.modOp k f).free = s.free := rfl
@[simp] theorem State.modOp_nextId : (s.modOp k f).nextId = s.nextId := rfl
@[simp] theorem State.modOp_cur : (s.modOp k f).cur = s.cur := rfl
@[simp] theorem State.modOp_reft : (s.modOp k f).reft = s.reft := rfl
@[simp] theorem State.modOp_ready : (s.modOp k f).ready = s.ready := rfl
@[simp] theorem State.modOp_boot : (s.modOp k f).boot = s.boot := rfl
@[simp] theorem State.modOp_trust : (s.modOp k f).trust = s.trust := rfl
@[simp] theorem State.modOp_energy : (s.modOp k f).energy = s.energy := rfl
@[simp] theorem State.modOp_dies : (s.modOp k f).dies = s.dies := rfl
@[simp] theorem State.modOp_cores : (s.modOp k f).cores = s.cores := rfl
@[simp] theorem State.modOp_retired : (s.modOp k f).retired = s.retired := rfl
@[simp] theorem State.modOp_mem : (s.modOp k f).mem = s.mem := rfl
@[simp] theorem State.modOp_worlds : (s.modOp k f).worlds = s.worlds := rfl
@[simp] theorem State.modOp_ctxs : (s.modOp k f).ctxs = s.ctxs := rfl
@[simp] theorem State.modOp_launches : (s.modOp k f).launches = s.launches := rfl
@[simp] theorem State.modOp_grids : (s.modOp k f).grids = s.grids := rfl
@[simp] theorem State.modOp_blocks : (s.modOp k f).blocks = s.blocks := rfl
@[simp] theorem State.modOp_groups : (s.modOp k f).groups = s.groups := rfl
@[simp] theorem State.modOp_tops : (s.modOp k f).tops = s.tops := rfl
@[simp] theorem State.modOp_parks : (s.modOp k f).parks = s.parks := rfl
@[simp] theorem State.modOp_revs : (s.modOp k f).revs = s.revs := rfl
@[simp] theorem State.modOp_invals : (s.modOp k f).invals = s.invals := rfl
@[simp] theorem State.modOp_wscopies : (s.modOp k f).wscopies = s.wscopies := rfl
@[simp] theorem State.modOp_vacs : (s.modOp k f).vacs = s.vacs := rfl
@[simp] theorem State.modOp_funcs : (s.modOp k f).funcs = s.funcs := rfl
@[simp] theorem State.modOp_ifaces : (s.modOp k f).ifaces = s.ifaces := rfl
@[simp] theorem State.modOp_rings : (s.modOp k f).rings = s.rings := rfl
@[simp] theorem State.modOp_rr : (s.modOp k f).rr = s.rr := rfl
@[simp] theorem State.modOp_msgs : (s.modOp k f).msgs = s.msgs := rfl
@[simp] theorem State.modOp_dropped : (s.modOp k f).dropped = s.dropped := rfl
@[simp] theorem State.modOp_fqs : (s.modOp k f).fqs = s.fqs := rfl
@[simp] theorem State.modOp_latch : (s.modOp k f).latch = s.latch := rfl
@[simp] theorem State.modOp_reply : (s.modOp k f).reply = s.reply := rfl
@[simp] theorem State.modOp_discards : (s.modOp k f).discards = s.discards := rfl
@[simp] theorem State.modOp_ckpts : (s.modOp k f).ckpts = s.ckpts := rfl
@[simp] theorem State.modOp_views : (s.modOp k f).views = s.views := rfl
@[simp] theorem State.modOp_viewJob : (s.modOp k f).viewJob = s.viewJob := rfl
@[simp] theorem State.modOp_sandbox : (s.modOp k f).sandbox = s.sandbox := rfl
end


/-! ### `State.modLaunch` -/

section
variable (s : State) (k : Nat) (f : Launch → Launch)
@[simp] theorem State.modLaunch_launches : (s.modLaunch k f).launches = tmod s.launches k f := rfl
@[simp] theorem State.modLaunch_agenda : (s.modLaunch k f).agenda = s.agenda := rfl
@[simp] theorem State.modLaunch_free : (s.modLaunch k f).free = s.free := rfl
@[simp] theorem State.modLaunch_nextId : (s.modLaunch k f).nextId = s.nextId := rfl
@[simp] theorem State.modLaunch_cur : (s.modLaunch k f).cur = s.cur := rfl
@[simp] theorem State.modLaunch_reft : (s.modLaunch k f).reft = s.reft := rfl
@[simp] theorem State.modLaunch_ready : (s.modLaunch k f).ready = s.ready := rfl
@[simp] theorem State.modLaunch_boot : (s.modLaunch k f).boot = s.boot := rfl
@[simp] theorem State.modLaunch_trust : (s.modLaunch k f).trust = s.trust := rfl
@[simp] theorem State.modLaunch_energy : (s.modLaunch k f).energy = s.energy := rfl
@[simp] theorem State.modLaunch_dies : (s.modLaunch k f).dies = s.dies := rfl
@[simp] theorem State.modLaunch_cores : (s.modLaunch k f).cores = s.cores := rfl
@[simp] theorem State.modLaunch_retired : (s.modLaunch k f).retired = s.retired := rfl
@[simp] theorem State.modLaunch_mem : (s.modLaunch k f).mem = s.mem := rfl
@[simp] theorem State.modLaunch_worlds : (s.modLaunch k f).worlds = s.worlds := rfl
@[simp] theorem State.modLaunch_ctxs : (s.modLaunch k f).ctxs = s.ctxs := rfl
@[simp] theorem State.modLaunch_grids : (s.modLaunch k f).grids = s.grids := rfl
@[simp] theorem State.modLaunch_blocks : (s.modLaunch k f).blocks = s.blocks := rfl
@[simp] theorem State.modLaunch_groups : (s.modLaunch k f).groups = s.groups := rfl
@[simp] theorem State.modLaunch_ops : (s.modLaunch k f).ops = s.ops := rfl
@[simp] theorem State.modLaunch_tops : (s.modLaunch k f).tops = s.tops := rfl
@[simp] theorem State.modLaunch_parks : (s.modLaunch k f).parks = s.parks := rfl
@[simp] theorem State.modLaunch_revs : (s.modLaunch k f).revs = s.revs := rfl
@[simp] theorem State.modLaunch_invals : (s.modLaunch k f).invals = s.invals := rfl
@[simp] theorem State.modLaunch_wscopies : (s.modLaunch k f).wscopies = s.wscopies := rfl
@[simp] theorem State.modLaunch_vacs : (s.modLaunch k f).vacs = s.vacs := rfl
@[simp] theorem State.modLaunch_funcs : (s.modLaunch k f).funcs = s.funcs := rfl
@[simp] theorem State.modLaunch_ifaces : (s.modLaunch k f).ifaces = s.ifaces := rfl
@[simp] theorem State.modLaunch_rings : (s.modLaunch k f).rings = s.rings := rfl
@[simp] theorem State.modLaunch_rr : (s.modLaunch k f).rr = s.rr := rfl
@[simp] theorem State.modLaunch_msgs : (s.modLaunch k f).msgs = s.msgs := rfl
@[simp] theorem State.modLaunch_dropped : (s.modLaunch k f).dropped = s.dropped := rfl
@[simp] theorem State.modLaunch_fqs : (s.modLaunch k f).fqs = s.fqs := rfl
@[simp] theorem State.modLaunch_latch : (s.modLaunch k f).latch = s.latch := rfl
@[simp] theorem State.modLaunch_reply : (s.modLaunch k f).reply = s.reply := rfl
@[simp] theorem State.modLaunch_discards : (s.modLaunch k f).discards = s.discards := rfl
@[simp] theorem State.modLaunch_ckpts : (s.modLaunch k f).ckpts = s.ckpts := rfl
@[simp] theorem State.modLaunch_views : (s.modLaunch k f).views = s.views := rfl
@[simp] theorem State.modLaunch_viewJob : (s.modLaunch k f).viewJob = s.viewJob := rfl
@[simp] theorem State.modLaunch_sandbox : (s.modLaunch k f).sandbox = s.sandbox := rfl
end


/-! ### `State.modGrid` -/

section
variable (s : State) (k : Nat) (f : Grid → Grid)
@[simp] theorem State.modGrid_grids : (s.modGrid k f).grids = tmod s.grids k f := rfl
@[simp] theorem State.modGrid_agenda : (s.modGrid k f).agenda = s.agenda := rfl
@[simp] theorem State.modGrid_free : (s.modGrid k f).free = s.free := rfl
@[simp] theorem State.modGrid_nextId : (s.modGrid k f).nextId = s.nextId := rfl
@[simp] theorem State.modGrid_cur : (s.modGrid k f).cur = s.cur := rfl
@[simp] theorem State.modGrid_reft : (s.modGrid k f).reft = s.reft := rfl
@[simp] theorem State.modGrid_ready : (s.modGrid k f).ready = s.ready := rfl
@[simp] theorem State.modGrid_boot : (s.modGrid k f).boot = s.boot := rfl
@[simp] theorem State.modGrid_trust : (s.modGrid k f).trust = s.trust := rfl
@[simp] theorem State.modGrid_energy : (s.modGrid k f).energy = s.energy := rfl
@[simp] theorem State.modGrid_dies : (s.modGrid k f).dies = s.dies := rfl
@[simp] theorem State.modGrid_cores : (s.modGrid k f).cores = s.cores := rfl
@[simp] theorem State.modGrid_retired : (s.modGrid k f).retired = s.retired := rfl
@[simp] theorem State.modGrid_mem : (s.modGrid k f).mem = s.mem := rfl
@[simp] theorem State.modGrid_worlds : (s.modGrid k f).worlds = s.worlds := rfl
@[simp] theorem State.modGrid_ctxs : (s.modGrid k f).ctxs = s.ctxs := rfl
@[simp] theorem State.modGrid_launches : (s.modGrid k f).launches = s.launches := rfl
@[simp] theorem State.modGrid_blocks : (s.modGrid k f).blocks = s.blocks := rfl
@[simp] theorem State.modGrid_groups : (s.modGrid k f).groups = s.groups := rfl
@[simp] theorem State.modGrid_ops : (s.modGrid k f).ops = s.ops := rfl
@[simp] theorem State.modGrid_tops : (s.modGrid k f).tops = s.tops := rfl
@[simp] theorem State.modGrid_parks : (s.modGrid k f).parks = s.parks := rfl
@[simp] theorem State.modGrid_revs : (s.modGrid k f).revs = s.revs := rfl
@[simp] theorem State.modGrid_invals : (s.modGrid k f).invals = s.invals := rfl
@[simp] theorem State.modGrid_wscopies : (s.modGrid k f).wscopies = s.wscopies := rfl
@[simp] theorem State.modGrid_vacs : (s.modGrid k f).vacs = s.vacs := rfl
@[simp] theorem State.modGrid_funcs : (s.modGrid k f).funcs = s.funcs := rfl
@[simp] theorem State.modGrid_ifaces : (s.modGrid k f).ifaces = s.ifaces := rfl
@[simp] theorem State.modGrid_rings : (s.modGrid k f).rings = s.rings := rfl
@[simp] theorem State.modGrid_rr : (s.modGrid k f).rr = s.rr := rfl
@[simp] theorem State.modGrid_msgs : (s.modGrid k f).msgs = s.msgs := rfl
@[simp] theorem State.modGrid_dropped : (s.modGrid k f).dropped = s.dropped := rfl
@[simp] theorem State.modGrid_fqs : (s.modGrid k f).fqs = s.fqs := rfl
@[simp] theorem State.modGrid_latch : (s.modGrid k f).latch = s.latch := rfl
@[simp] theorem State.modGrid_reply : (s.modGrid k f).reply = s.reply := rfl
@[simp] theorem State.modGrid_discards : (s.modGrid k f).discards = s.discards := rfl
@[simp] theorem State.modGrid_ckpts : (s.modGrid k f).ckpts = s.ckpts := rfl
@[simp] theorem State.modGrid_views : (s.modGrid k f).views = s.views := rfl
@[simp] theorem State.modGrid_viewJob : (s.modGrid k f).viewJob = s.viewJob := rfl
@[simp] theorem State.modGrid_sandbox : (s.modGrid k f).sandbox = s.sandbox := rfl
end


/-! ### `State.modPark` -/

section
variable (s : State) (k : Nat) (f : Park → Park)
@[simp] theorem State.modPark_parks : (s.modPark k f).parks = tmod s.parks k f := rfl
@[simp] theorem State.modPark_agenda : (s.modPark k f).agenda = s.agenda := rfl
@[simp] theorem State.modPark_free : (s.modPark k f).free = s.free := rfl
@[simp] theorem State.modPark_nextId : (s.modPark k f).nextId = s.nextId := rfl
@[simp] theorem State.modPark_cur : (s.modPark k f).cur = s.cur := rfl
@[simp] theorem State.modPark_reft : (s.modPark k f).reft = s.reft := rfl
@[simp] theorem State.modPark_ready : (s.modPark k f).ready = s.ready := rfl
@[simp] theorem State.modPark_boot : (s.modPark k f).boot = s.boot := rfl
@[simp] theorem State.modPark_trust : (s.modPark k f).trust = s.trust := rfl
@[simp] theorem State.modPark_energy : (s.modPark k f).energy = s.energy := rfl
@[simp] theorem State.modPark_dies : (s.modPark k f).dies = s.dies := rfl
@[simp] theorem State.modPark_cores : (s.modPark k f).cores = s.cores := rfl
@[simp] theorem State.modPark_retired : (s.modPark k f).retired = s.retired := rfl
@[simp] theorem State.modPark_mem : (s.modPark k f).mem = s.mem := rfl
@[simp] theorem State.modPark_worlds : (s.modPark k f).worlds = s.worlds := rfl
@[simp] theorem State.modPark_ctxs : (s.modPark k f).ctxs = s.ctxs := rfl
@[simp] theorem State.modPark_launches : (s.modPark k f).launches = s.launches := rfl
@[simp] theorem State.modPark_grids : (s.modPark k f).grids = s.grids := rfl
@[simp] theorem State.modPark_blocks : (s.modPark k f).blocks = s.blocks := rfl
@[simp] theorem State.modPark_groups : (s.modPark k f).groups = s.groups := rfl
@[simp] theorem State.modPark_ops : (s.modPark k f).ops = s.ops := rfl
@[simp] theorem State.modPark_tops : (s.modPark k f).tops = s.tops := rfl
@[simp] theorem State.modPark_revs : (s.modPark k f).revs = s.revs := rfl
@[simp] theorem State.modPark_invals : (s.modPark k f).invals = s.invals := rfl
@[simp] theorem State.modPark_wscopies : (s.modPark k f).wscopies = s.wscopies := rfl
@[simp] theorem State.modPark_vacs : (s.modPark k f).vacs = s.vacs := rfl
@[simp] theorem State.modPark_funcs : (s.modPark k f).funcs = s.funcs := rfl
@[simp] theorem State.modPark_ifaces : (s.modPark k f).ifaces = s.ifaces := rfl
@[simp] theorem State.modPark_rings : (s.modPark k f).rings = s.rings := rfl
@[simp] theorem State.modPark_rr : (s.modPark k f).rr = s.rr := rfl
@[simp] theorem State.modPark_msgs : (s.modPark k f).msgs = s.msgs := rfl
@[simp] theorem State.modPark_dropped : (s.modPark k f).dropped = s.dropped := rfl
@[simp] theorem State.modPark_fqs : (s.modPark k f).fqs = s.fqs := rfl
@[simp] theorem State.modPark_latch : (s.modPark k f).latch = s.latch := rfl
@[simp] theorem State.modPark_reply : (s.modPark k f).reply = s.reply := rfl
@[simp] theorem State.modPark_discards : (s.modPark k f).discards = s.discards := rfl
@[simp] theorem State.modPark_ckpts : (s.modPark k f).ckpts = s.ckpts := rfl
@[simp] theorem State.modPark_views : (s.modPark k f).views = s.views := rfl
@[simp] theorem State.modPark_viewJob : (s.modPark k f).viewJob = s.viewJob := rfl
@[simp] theorem State.modPark_sandbox : (s.modPark k f).sandbox = s.sandbox := rfl
end


/-! ### `State.modGroup` -/

section
variable (s : State) (b g : Nat) (f : Group → Group)
@[simp] theorem State.modGroup_groups : (s.modGroup b g f).groups = tmod s.groups (gkey b g) f := rfl
@[simp] theorem State.modGroup_agenda : (s.modGroup b g f).agenda = s.agenda := rfl
@[simp] theorem State.modGroup_free : (s.modGroup b g f).free = s.free := rfl
@[simp] theorem State.modGroup_nextId : (s.modGroup b g f).nextId = s.nextId := rfl
@[simp] theorem State.modGroup_cur : (s.modGroup b g f).cur = s.cur := rfl
@[simp] theorem State.modGroup_reft : (s.modGroup b g f).reft = s.reft := rfl
@[simp] theorem State.modGroup_ready : (s.modGroup b g f).ready = s.ready := rfl
@[simp] theorem State.modGroup_boot : (s.modGroup b g f).boot = s.boot := rfl
@[simp] theorem State.modGroup_trust : (s.modGroup b g f).trust = s.trust := rfl
@[simp] theorem State.modGroup_energy : (s.modGroup b g f).energy = s.energy := rfl
@[simp] theorem State.modGroup_dies : (s.modGroup b g f).dies = s.dies := rfl
@[simp] theorem State.modGroup_cores : (s.modGroup b g f).cores = s.cores := rfl
@[simp] theorem State.modGroup_retired : (s.modGroup b g f).retired = s.retired := rfl
@[simp] theorem State.modGroup_mem : (s.modGroup b g f).mem = s.mem := rfl
@[simp] theorem State.modGroup_worlds : (s.modGroup b g f).worlds = s.worlds := rfl
@[simp] theorem State.modGroup_ctxs : (s.modGroup b g f).ctxs = s.ctxs := rfl
@[simp] theorem State.modGroup_launches : (s.modGroup b g f).launches = s.launches := rfl
@[simp] theorem State.modGroup_grids : (s.modGroup b g f).grids = s.grids := rfl
@[simp] theorem State.modGroup_blocks : (s.modGroup b g f).blocks = s.blocks := rfl
@[simp] theorem State.modGroup_ops : (s.modGroup b g f).ops = s.ops := rfl
@[simp] theorem State.modGroup_tops : (s.modGroup b g f).tops = s.tops := rfl
@[simp] theorem State.modGroup_parks : (s.modGroup b g f).parks = s.parks := rfl
@[simp] theorem State.modGroup_revs : (s.modGroup b g f).revs = s.revs := rfl
@[simp] theorem State.modGroup_invals : (s.modGroup b g f).invals = s.invals := rfl
@[simp] theorem State.modGroup_wscopies : (s.modGroup b g f).wscopies = s.wscopies := rfl
@[simp] theorem State.modGroup_vacs : (s.modGroup b g f).vacs = s.vacs := rfl
@[simp] theorem State.modGroup_funcs : (s.modGroup b g f).funcs = s.funcs := rfl
@[simp] theorem State.modGroup_ifaces : (s.modGroup b g f).ifaces = s.ifaces := rfl
@[simp] theorem State.modGroup_rings : (s.modGroup b g f).rings = s.rings := rfl
@[simp] theorem State.modGroup_rr : (s.modGroup b g f).rr = s.rr := rfl
@[simp] theorem State.modGroup_msgs : (s.modGroup b g f).msgs = s.msgs := rfl
@[simp] theorem State.modGroup_dropped : (s.modGroup b g f).dropped = s.dropped := rfl
@[simp] theorem State.modGroup_fqs : (s.modGroup b g f).fqs = s.fqs := rfl
@[simp] theorem State.modGroup_latch : (s.modGroup b g f).latch = s.latch := rfl
@[simp] theorem State.modGroup_reply : (s.modGroup b g f).reply = s.reply := rfl
@[simp] theorem State.modGroup_discards : (s.modGroup b g f).discards = s.discards := rfl
@[simp] theorem State.modGroup_ckpts : (s.modGroup b g f).ckpts = s.ckpts := rfl
@[simp] theorem State.modGroup_views : (s.modGroup b g f).views = s.views := rfl
@[simp] theorem State.modGroup_viewJob : (s.modGroup b g f).viewJob = s.viewJob := rfl
@[simp] theorem State.modGroup_sandbox : (s.modGroup b g f).sandbox = s.sandbox := rfl
end

end Sys2Proof.Machine
end

