-- ==== Sys2Proof/Laws/Written.lean ====
section
/-!
SUPPORT. The whole effect of a lane-wise instruction in its register form (R58, R101): which cells and tags it writes, which it
frees, and that nothing else changes.
-/

namespace Sys2Proof.Machine

/-! ### Lane bits -/

theorem getLsbD_laneBit (l i : Nat) (h : l < 64) : (laneBit l).getLsbD i = decide (i = l) := by
  unfold laneBit
  rw [BitVec.getLsbD_ofNat, Nat.testBit_two_pow]
  by_cases e : l = i
  · subst e; simp [h]
  · have : i ≠ l := fun h => e h.symm
    simp [e, this]

theorem mem_lanesOf {m : Lanes} {l : Nat} : l ∈ lanesOf m ↔ m.getLsbD l = true := by
  unfold lanesOf
  split
  · next h => subst h; simp
  · simp only [below, List.mem_filter, List.mem_range]
    exact ⟨fun h => h.2, fun h => ⟨BitVec.lt_of_getLsbD h, h⟩⟩

theorem lanesOf_lt {m : Lanes} {l : Nat} (h : l ∈ lanesOf m) : l < 64 := BitVec.lt_of_getLsbD (mem_lanesOf.mp h)

theorem lanesOf_nodup (m : Lanes) : (lanesOf m).Nodup := by
  unfold lanesOf below
  split
  · exact List.nodup_nil
  · exact (List.nodup_range).filter _

/-! ### One register lane of a group -/

theorem cell_setCell (G : Group) (r l q i : Nat) (x : VCell) :
    (G.setCell r l x).cell q i = if q = r ∧ i = l then some x else G.cell q i := by
  unfold Group.setCell Group.cell tgetD
  by_cases h : q = r
  · subst h; simp only [tget?_tset_self, Option.getD_some]
    by_cases h2 : i = l
    · subst h2; simp
    · simp [h2, tget?_tset_ne]
  · simp [h, tget?_tset_ne]

theorem cell_setVtag (G : Group) (q l r i : Nat) (t : Bool) : (G.setVtag q l t).cell r i = G.cell r i := rfl

theorem cell_freeCell (G : Group) (r l q i : Nat) :
    (G.freeCell r l).cell q i = if q = r ∧ i = l then none else G.cell q i := by
  unfold Group.freeCell Group.cell tgetD
  dsimp only
  by_cases hq : q = r
  · subst hq
    split
    · next he =>
      have h0 : ∀ i, tget? (tdel ((tget? G.v q).getD []) l) i = none := by
        intro i; rw [List.isEmpty_iff.mp he]; rfl
      simp only [tget?_tdel_self, Option.getD_none, true_and]
      split
      · rfl
      · next hi => exact ((tget?_tdel_ne _ hi).symm.trans (h0 i)).symm
    · simp only [tget?_tset_self, Option.getD_some, true_and]
      split
      · next hi => subst hi; simp
      · next hi => exact tget?_tdel_ne _ hi
  · split
    · simp [hq, tget?_tdel_ne]
    · simp [hq, tget?_tset_ne]

theorem vtag_setVtag (G : Group) (q l r i : Nat) (t : Bool) (hl : l < 64) :
    (G.setVtag q l t).vtag r i = if r = q ∧ i = l then t else G.vtag r i := by
  unfold Group.setVtag Group.vtag
  by_cases h : r = q
  · subst h
    simp only [tgetD_tput_self, true_and]
    cases t
    · simp [getLsbD_laneBit _ _ hl]
      by_cases hi : i = l
      · simp [hi]
      · simp [hi]; exact fun h => BitVec.lt_of_getLsbD h
    · simp [getLsbD_laneBit _ _ hl]
      by_cases hi : i = l <;> simp [hi]
  · simp [h, tgetD_tput_ne]

theorem cell_putCell (G : Group) (r l q i : Nat) (x : VCell) :
    (G.putCell r l x).cell q i = if q = r ∧ i = l then some x else G.cell q i := cell_setCell ..
theorem vtag_putCell (G : Group) (r l q i : Nat) (x : VCell) (hl : l < 64) :
    (G.putCell r l x).vtag q i = if q = r / 4 ∧ i = l then false else G.vtag q i := vtag_setVtag _ _ _ _ _ _ hl
theorem cell_freeReg (G : Group) (r l q i : Nat) :
    (G.freeReg r l).cell q i = if q = r ∧ i = l then none else G.cell q i := cell_freeCell ..
theorem vtag_freeReg (G : Group) (r l q i : Nat) (hl : l < 64) :
    (G.freeReg r l).vtag q i = if q = r / 4 ∧ i = l then false else G.vtag q i := vtag_setVtag _ _ _ _ _ _ hl
@[simp] theorem noV_putCell (G : Group) (r l : Nat) (x : VCell) : (G.putCell r l x).noV = G.noV := rfl
@[simp] theorem noV_freeReg (G : Group) (r l : Nat) : (G.freeReg r l).noV = G.noV := by
  unfold Group.freeReg Group.freeCell Group.setVtag Group.noV Group.noPos; rfl
@[simp] theorem noV_dirty (G : Group) (rs : List Nat) : (G.dirty rs).noV = G.noV := rfl
@[simp] theorem cell_dirty (G : Group) (rs : List Nat) (r l : Nat) : (G.dirty rs).cell r l = G.cell r l := rfl
@[simp] theorem vtag_dirty (G : Group) (rs : List Nat) (q l : Nat) : (G.dirty rs).vtag q l = G.vtag q l := rfl

/-! ### Many lanes of a group -/

/-- Freeing one register for some lanes. -/
theorem freeLanes (r : Nat) (ls : List Nat) (hl : ∀ l ∈ ls, l < 64) (G : Group) :
    let H := ls.foldl (fun g l => g.freeReg r l) G
    H.noV = G.noV ∧ (∀ q i, H.cell q i = if q = r ∧ i ∈ ls then none else G.cell q i) ∧
    (∀ q i, H.vtag q i = if q = r / 4 ∧ i ∈ ls then false else G.vtag q i) := by
  induction ls generalizing G with
  | nil => simp
  | cons l ls ih =>
    obtain ⟨h1, h2, h3⟩ := ih (fun l h => hl l (List.mem_cons_of_mem _ h)) (G.freeReg r l)
    simp only [List.foldl_cons]
    refine ⟨h1.trans (noV_freeReg ..), fun q i => ?_, fun q i => ?_⟩
    · rw [h2, cell_freeReg]; by_cases hq : q = r <;> by_cases hi : i ∈ ls <;> by_cases hil : i = l <;> simp_all
    · rw [h3, vtag_freeReg _ _ _ _ _ (hl l (List.mem_cons_self ..))]
      by_cases hq : q = r / 4 <;> by_cases hi : i ∈ ls <;> by_cases hil : i = l <;> simp_all

theorem freeMany (rs ls : List Nat) (hl : ∀ l ∈ ls, l < 64) (G : Group) :
    let H := rs.foldl (fun g r => ls.foldl (fun g l => g.freeReg r l) g) G
    H.noV = G.noV ∧ (∀ q i, H.cell q i = if q ∈ rs ∧ i ∈ ls then none else G.cell q i) ∧
    (∀ q i, H.vtag q i = if (∃ r ∈ rs, r / 4 = q) ∧ i ∈ ls then false else G.vtag q i) := by
  induction rs generalizing G with
  | nil => simp
  | cons r rs ih =>
    obtain ⟨a1, a2, a3⟩ := freeLanes r ls hl G
    obtain ⟨h1, h2, h3⟩ := ih (ls.foldl (fun g l => g.freeReg r l) G)
    simp only [List.foldl_cons]
    refine ⟨h1.trans a1, fun q i => ?_, fun q i => ?_⟩
    · rw [h2, a2]; by_cases hq : q = r <;> by_cases hi : i ∈ ls <;> by_cases hil : q ∈ rs <;> simp_all
    · rw [h3, a3]
      by_cases hi : i ∈ ls
      · by_cases hq : ∃ r ∈ rs, r / 4 = q
        · simp [hi, hq]
        · by_cases hr : r / 4 = q
          · simp [hi, hr]
          · simp [hi, hq, hr, Ne.symm hr]
      · simp [hi]

/-- What the last-use operands of some lanes lose (R58). -/
theorem freeOps_spec (G : Group) (ops : List Opd) (ls : List Nat) (hl : ∀ l ∈ ls, l < 64) :
    (G.freeOps ops ls).noV = G.noV ∧
    (∀ q i, freedV ops q ∧ i ∈ ls → (G.freeOps ops ls).cell q i = none) ∧
    (∀ q i, ¬(freedV ops q ∧ i ∈ ls) → (G.freeOps ops ls).cell q i = G.cell q i) ∧
    (∀ q i, (∃ r, freedV ops r ∧ r / 4 = q) ∧ i ∈ ls → (G.freeOps ops ls).vtag q i = false) ∧
    (∀ q i, ¬((∃ r, freedV ops r ∧ r / 4 = q) ∧ i ∈ ls) → (G.freeOps ops ls).vtag q i = G.vtag q i) := by
  have hm : ∀ r, r ∈ (((ops.filter Opd.last).flatMap Opd.regs).dedup) ↔ freedV ops r := by
    intro r; simp [freedV, and_assoc]
  obtain ⟨h1, h2, h3⟩ := freeMany (((ops.filter Opd.last).flatMap Opd.regs).dedup) ls hl G
  refine ⟨h1, fun q i h => ?_, fun q i h => ?_, fun q i h => ?_, fun q i h => ?_⟩
  · refine (h2 q i).trans ?_; rw [if_pos]; exact ⟨(hm q).mpr h.1, h.2⟩
  · refine (h2 q i).trans ?_; rw [if_neg]; exact fun e => h ⟨(hm q).mp e.1, e.2⟩
  · refine (h3 q i).trans ?_; rw [if_pos]; obtain ⟨⟨r, a, b⟩, c⟩ := h; exact ⟨⟨r, (hm r).mpr a, b⟩, c⟩
  · refine (h3 q i).trans ?_; rw [if_neg]; rintro ⟨⟨r, a, b⟩, c⟩; exact h ⟨⟨r, (hm r).mp a, b⟩, c⟩

/-- Writing one register for some lanes, each once. -/
theorem putLanes (n : Nat) (xs : List (Nat × VCell)) (hl : ∀ x ∈ xs, x.1 < 64) (hn : (xs.map (·.1)).Nodup) (G : Group) :
    let H := xs.foldl (fun G x => G.putCell n x.1 x.2) G
    H.noV = G.noV ∧ (∀ x ∈ xs, H.cell n x.1 = some x.2) ∧
    (∀ q i, ¬(q = n ∧ i ∈ xs.map (·.1)) → H.cell q i = G.cell q i) ∧
    (∀ q i, H.vtag q i = if q = n / 4 ∧ i ∈ xs.map (·.1) then false else G.vtag q i) := by
  induction xs generalizing G with
  | nil => simp
  | cons x xs ih =>
    obtain ⟨h1, h2, h3, h4⟩ := ih (fun l h => hl l (List.mem_cons_of_mem _ h)) (List.nodup_cons.mp hn).2 (G.putCell n x.1 x.2)
    simp only [List.foldl_cons]
    refine ⟨h1.trans (noV_putCell ..), fun y hy => ?_, fun q i hqi => ?_, fun q i => ?_⟩
    · rcases List.mem_cons.mp hy with rfl | hy
      · rw [h3 _ _ (fun h => (List.nodup_cons.mp hn).1 h.2), cell_putCell]; simp
      · exact h2 y hy
    · simp only [List.map_cons, List.mem_cons] at hqi
      rw [h3 _ _ (fun h => hqi ⟨h.1, .inr h.2⟩), cell_putCell, if_neg (fun h => hqi ⟨h.1, .inl h.2⟩)]
    · rw [h4, vtag_putCell _ _ _ _ _ _ (hl x (List.mem_cons_self ..))]
      by_cases hq : q = n / 4 <;> by_cases hi : i ∈ xs.map (·.1) <;> by_cases hil : i = x.1 <;> simp_all

/-! ### One change to each group of a list -/

/-- A change made to the groups of a list of a block, each once. -/
theorem foldl_each {α : Type} (b : Nat) (L : List (Nat × α)) (hn : (L.map (·.1)).Nodup) (f : Nat → α → Group → Group) (s : State) :
    let t := L.foldl (fun s x => s.modGroup b x.1 (f x.1 x.2)) s
    outside s t ∧ (∀ x ∈ L, tget? t.groups (gkey b x.1) = (tget? s.groups (gkey b x.1)).map (f x.1 x.2)) ∧
    (∀ k, (∀ x ∈ L, k ≠ gkey b x.1) → tget? t.groups k = tget? s.groups k) := by
  induction L generalizing s with
  | nil => exact ⟨outside_refl s, by simp, by simp⟩
  | cons x L ih =>
    obtain ⟨h1, h2, h3⟩ := ih (List.nodup_cons.mp hn).2 (s.modGroup b x.1 (f x.1 x.2))
    have hne : ∀ y ∈ L, gkey b x.1 ≠ gkey b y.1 := by
      intro y hy e
      have : x.1 = y.1 := by unfold gkey at e; omega
      exact (List.nodup_cons.mp hn).1 (List.mem_map.mpr ⟨y, hy, this.symm⟩)
    simp only [List.foldl_cons]
    refine ⟨outside_trans (outside_modGroup ..) h1, fun y hy => ?_, fun k hk => ?_⟩
    · rcases List.mem_cons.mp hy with rfl | hy
      · rw [h3 _ (fun z hz => hne z hz)]; simp [State.modGroup]
      · rw [h2 y hy]; congr 1
        simp only [State.modGroup]; exact tget?_tmod_ne _ _ (Ne.symm (hne y hy))
    · rw [h3 k (fun z hz => hk z (List.mem_cons_of_mem _ hz))]
      simp only [State.modGroup]; exact tget?_tmod_ne _ _ (hk x (List.mem_cons_self ..))

/-! ### Register operands -/

theorem mapIdx_const {α β : Type} (h : α → β) (l : List α) : (l.mapIdx fun _ x => h x) = l.map h := by
  rw [List.mapIdx_eq_zipIdx_map]
  exact (List.map_map (f := Prod.fst) (g := h) (l := l.zipIdx)).symm.trans (by rw [List.zipIdx_map_fst])

theorem chanStarts_regs (s : State) (b : Nat) (gs : Takers) (g : Nat) (G : Group) (ops : List Opd) (hr : ∀ o ∈ ops, o.isReg = true) :
    chanStarts s b gs g G ops = ops.map fun _ => none := by
  unfold chanStarts
  rw [← mapIdx_const (fun _ : Opd => (none : Option (Nat × Nat))) ops]
  refine List.ext_getElem (by simp) fun j h1 h2 => ?_
  simp only [List.getElem_mapIdx]
  have h3 := hr _ (List.getElem_mem (by simpa using h1 : j < ops.length))
  split
  · next e => rw [e] at h3; cases h3
  · rfl

theorem chanPops_regs (n : Nat) (ops : List Opd) (hr : ∀ o ∈ ops, o.isReg = true) : chanPops n ops = [] := by
  unfold chanPops
  rw [List.filterMap_eq_nil_iff]
  intro o ho
  have h := hr o ho
  cases o with
  | v x => cases x with
    | reg a l => rfl
    | chan a p => cases h
  | r a k => rfl

theorem opdCells_none (s : State) (b : Nat) (G : Group) (l k n : Nat) (o : Opd) :
    opdCells s b G l k o none n = o.regs.map fun r => (G.cell r l).getD (.val 0#32) := by
  cases o with
  | v s => cases s <;> rfl
  | r s k => rfl

theorem not_isChan_of_isReg {o : Opd} (h : o.isReg = true) : o.isChan = false := by
  cases o with
  | v s => cases s <;> first | rfl | cases h
  | r s k => rfl

/-- Taking register operands frees the last-use ones. -/
theorem consume_regs (s : State) (c : Cur) (ops : List Opd) (hr : ∀ o ∈ ops, o.isReg = true) :
    consume s c ops = (c.act.filter fun x => x.2 != 0#64).foldl (fun s x => s.modGroup c.blk x.1 fun G => G.freeOps ops (lanesOf x.2)) s := by
  rw [List.foldl_filter]
  unfold consume
  congr 1
  funext s x
  obtain ⟨g, m⟩ := x
  by_cases hm : m = 0#64
  · simp [hm]
  · simp only [beq_iff_eq, hm, if_false, bne_iff_ne, ne_eq, not_false_eq_true, if_true]
    cases hg : s.grp? c.blk g with
    | none =>
      simp only [State.modGroup, tmod]; rw [show tget? s.groups (gkey c.blk g) = none from hg]
    | some G =>
      have hc : (ops.all fun o => !o.isChan) = true := List.all_eq_true.mpr fun o ho => by simp [not_isChan_of_isReg (hr o ho)]
      simp only [chanPops_regs _ ops hr, List.foldl_nil, hc, if_true]

theorem readOps_regs (s : State) (c : Cur) (ops : List Opd) (hr : ∀ o ∈ ops, o.isReg = true) :
    readOps s c ops = c.act.filterMap fun x => if x.2 == 0#64 then none else (s.grp? c.blk x.1).map fun G =>
      (x.1, (lanesOf x.2).map fun l => (l, ops.flatMap fun o => o.regs.map fun r => (G.cell r l).getD (.val 0#32))) := by
  unfold readOps
  congr 1
  funext x
  obtain ⟨g, m⟩ := x
  by_cases hm : m = 0#64
  · simp [hm]
  · simp only [beq_iff_eq, hm, if_false]
    cases hg : s.grp? c.blk g with
    | none => rfl
    | some G =>
      simp only [Option.map_some, chanStarts_regs _ _ _ _ _ ops hr, Option.some.injEq, Prod.mk.injEq, true_and]
      have : ∀ l k, (List.zipWith (fun o st => opdCells s c.blk G l k o st (lanesOf m).length) ops (ops.map fun _ => none)).flatten =
          ops.flatMap fun o => o.regs.map fun r => (G.cell r l).getD (.val 0#32) := by
        intro l k
        rw [List.zipWith_map_right]
        simp [opdCells_none, List.zipWith_self, List.flatMap]
      simp only [this]
      exact mapIdx_const _ _

/-- The groups of a lane-wise result, each once, with its lanes' cells. -/
def liveGroups (s : State) (c : Cur) : List (Nat × Lanes × Group) :=
  c.act.filterMap fun x => if x.2 == 0#64 then none else (s.grp? c.blk x.1).map fun G => (x.1, x.2, G)

theorem mem_liveGroups {s : State} {c : Cur} {g : Nat} {m : Lanes} {G : Group} :
    (g, m, G) ∈ liveGroups s c ↔ (g, m) ∈ c.act ∧ m ≠ 0#64 ∧ s.grp? c.blk g = some G := by
  unfold liveGroups
  simp only [List.mem_filterMap]
  constructor
  · rintro ⟨⟨g', m'⟩, h1, h2⟩
    by_cases hm : m' = 0#64
    · simp [hm] at h2
    · simp only [beq_iff_eq, hm, if_false, Option.map_eq_some_iff, Prod.mk.injEq] at h2
      obtain ⟨G', h3, rfl, rfl, rfl⟩ := h2
      exact ⟨h1, hm, h3⟩
  · rintro ⟨h1, h2, h3⟩
    exact ⟨(g, m), h1, by simp [h2, h3]⟩

theorem liveGroups_nodup {s : State} {c : Cur} (h : (c.act.map (·.1)).Nodup) : ((liveGroups s c).map (·.1)).Nodup := by
  unfold liveGroups
  refine List.Nodup.sublist ?_ h
  rw [List.map_filterMap]
  induction c.act with
  | nil => exact List.Sublist.slnil
  | cons x r ih =>
    rw [List.filterMap_cons]
    split
    · exact ih.cons _
    · next y hy =>
      have : y = x.1 := by
        by_cases hm : x.2 = 0#64
        · simp [hm] at hy
        · simp only [beq_iff_eq, hm, if_false, Option.map_map, Option.map_eq_some_iff] at hy
          obtain ⟨G, _, e⟩ := hy; exact e.symm
      rw [this, List.map_cons]; exact ih.cons₂ _

theorem results_regs (F : LaneForm) (s : State) (c : Cur) (hr : ∀ o ∈ F.ops, o.isReg = true) :
    F.results s c = (liveGroups s c).map fun x => (x.1, (lanesOf x.2.1).map fun l =>
      (l, VCell.val (F.f s c x.2.2 l (s.regWords (gkey c.blk x.1) l F.ops)))) := by
  unfold LaneForm.results liveGroups
  rw [readOps_regs s c F.ops hr, List.map_filterMap, List.map_filterMap]
  congr 1
  funext x
  obtain ⟨g, m⟩ := x
  by_cases hm : m = 0#64
  · simp [hm]
  · simp only [beq_iff_eq, hm, if_false]
    cases hg : s.grp? c.blk g with
    | none => rfl
    | some G =>
      have hk : ∀ l r, s.cellAt (gkey c.blk g) r l = G.cell r l := by
        intro l r; unfold State.cellAt; rw [show tget? s.groups (gkey c.blk g) = some G from hg]; rfl
      simp [hg, State.regWords, hk, List.map_flatMap, Function.comp_def]

/-! ### Uniform sources freed (R58) -/

/-- A group after its last-use uniform sources of some registers each are freed. -/
def freeU (us : List (RSrc × Nat)) (G : Group) : Group :=
  (us.filter fun r => r.1.last).foldl (fun G (r : RSrc × Nat) => (List.range r.2).foldl (fun G j => Group.putS G (r.1.n.toNat + j) 0#64) G) G

/-- Register r is freed by one of them. -/
def freedU (us : List (RSrc × Nat)) (r : Nat) : Prop := ∃ x ∈ us, x.1.last = true ∧ ∃ j < x.2, r = x.1.n.toNat + j

theorem putS_range (a k : Nat) (G : Group) :
    let H := (List.range k).foldl (fun G j => Group.putS G (a + j) 0#64) G
    H.noS = G.noS ∧ H.v = G.v ∧ H.vt = G.vt ∧ (∀ r, (∃ j < k, r = a + j) → H.sreg r = 0#64 ∧ H.st.contains (r / 2) = false) ∧
    (∀ r, ¬(∃ j < k, r = a + j) → H.sreg r = G.sreg r) := by
  induction k with
  | zero => simp
  | succ k ih =>
    obtain ⟨h1, h2, h3, h4, h5⟩ := ih
    rw [List.range_succ, List.foldl_append, List.foldl_cons, List.foldl_nil]
    refine ⟨(noS_putS ..).trans h1, h2, h3, ?_, ?_⟩
    · rintro r ⟨j, hj, rfl⟩
      rw [sreg_putS, st_putS]
      by_cases hk : j = k
      · subst hk; simp
      · obtain ⟨h6, h7⟩ := h4 (a + j) ⟨j, by omega, rfl⟩
        rw [h6, h7]; simp
    · intro r hr
      rw [sreg_putS_ne _ _ (fun e => hr ⟨k, by omega, e⟩)]
      exact h5 r fun ⟨j, hj, e⟩ => hr ⟨j, by omega, e⟩

theorem freeU_spec (us : List (RSrc × Nat)) (G : Group) :
    (freeU us G).noS = G.noS ∧ (freeU us G).v = G.v ∧ (freeU us G).vt = G.vt ∧
    (∀ r, freedU us r → (freeU us G).sreg r = 0#64 ∧ (freeU us G).st.contains (r / 2) = false) ∧
    (∀ r, ¬freedU us r → (freeU us G).sreg r = G.sreg r) ∧ (∀ n, G.st.contains n = false → (freeU us G).st.contains n = false) := by
  have hst : ∀ (a k n : Nat) (G : Group), G.st.contains n = false →
      ((List.range k).foldl (fun G j => Group.putS G (a + j) 0#64) G).st.contains n = false := by
    intro a k n G h
    induction k with
    | zero => exact h
    | succ k ih => rw [List.range_succ, List.foldl_append, List.foldl_cons, List.foldl_nil, st_putS, ih]; rfl
  induction us generalizing G with
  | nil => exact ⟨rfl, rfl, rfl, fun r h => by simp [freedU] at h, fun _ _ => rfl, fun _ h => h⟩
  | cons x us ih =>
    have key : ∀ r, freedU (x :: us) r ↔ (x.1.last = true ∧ ∃ j < x.2, r = x.1.n.toNat + j) ∨ freedU us r := by
      intro r; simp [freedU]
    cases hl : x.1.last with
    | false =>
      have e : freeU (x :: us) G = freeU us G := by simp [freeU, hl]
      obtain ⟨h1, h2, h3, h4, h5, h6⟩ := ih G
      rw [e]
      refine ⟨h1, h2, h3, fun r h => h4 r (((key r).mp h).resolve_left fun e => by simp [hl] at e), fun r h => h5 r fun e => h ((key r).mpr (.inr e)), h6⟩
    | true =>
      have e : freeU (x :: us) G = freeU us ((List.range x.2).foldl (fun G j => Group.putS G (x.1.n.toNat + j) 0#64) G) := by simp [freeU, hl]
      obtain ⟨a1, a2, a3, a4, a5⟩ := putS_range x.1.n.toNat x.2 G
      obtain ⟨h1, h2, h3, h4, h5, h6⟩ := ih ((List.range x.2).foldl (fun G j => Group.putS G (x.1.n.toNat + j) 0#64) G)
      rw [e]
      refine ⟨h1.trans a1, h2.trans a2, h3.trans a3, ?_, ?_, fun n h => h6 n (hst _ _ _ _ h)⟩
      · intro r hr
        by_cases hu : freedU us r
        · exact h4 r hu
        · have hx := ((key r).mp hr).resolve_right hu
          exact ⟨(h5 r hu).trans (a4 r hx.2).1, h6 _ (a4 r hx.2).2⟩
      · intro r hr
        rw [h5 r fun e => hr ((key r).mpr (.inr e)), a5 r fun e => hr ((key r).mpr (.inl ⟨hl, e⟩))]

theorem freeS_groups (s : State) (c : Cur) (us : List (RSrc × Nat)) (he : c.empty = false) (k : Nat) :
    tget? (freeS s c us).groups k = if k = gkey c.blk c.lead then (tget? s.groups k).map (freeU us) else tget? s.groups k := by
  unfold freeS; rw [if_neg (by simp [he])]
  simp only [State.modGroup, tget?_tmod]
  split
  · next e => rw [e]; rfl
  · rfl
theorem outside_freeS (s : State) (c : Cur) (us : List (RSrc × Nat)) : outside s (freeS s c us) := by
  unfold freeS; split
  · exact outside_refl s
  · exact outside_modGroup ..

/-! ### The whole effect -/

theorem cellAt_of {s t : State} {k : Nat} {f : Group → Group} (h : tget? t.groups k = (tget? s.groups k).map f) (r l : Nat) :
    t.cellAt k r l = (tget? s.groups k).bind fun G => (f G).cell r l := by
  unfold State.cellAt; rw [h]; cases tget? s.groups k <;> rfl
theorem tagAt_of {s t : State} {k : Nat} {f : Group → Group} (h : tget? t.groups k = (tget? s.groups k).map f) (r l : Nat) :
    t.tagAt k r l = ((tget? s.groups k).map fun G => (f G).vtag r l).getD false := by
  unfold State.tagAt; rw [h]; cases tget? s.groups k <;> rfl

/-- Taking the operands and writing register n of each active lane (R58, R101): cells and tags. `us` are the uniform sources. -/
theorem written_regs (F : LaneForm) (n : BitVec 6) {s : State} {c : Cur} (hs : c.sane) (hd : F.dst = .reg n)
    (hr : ∀ o ∈ F.ops, o.isReg = true) (he : c.empty = false) :
    let u := F.written s c
    outside s u ∧ groupsKept (fun G => { G.noV with s := [], st := [] }) s u ∧
    (∀ g m G l, (g, m, G) ∈ liveGroups s c → l ∈ lanesOf m →
      u.cellAt (gkey c.blk g) n.toNat l = some (.val (F.f s c G l (s.regWords (gkey c.blk g) l F.ops)))) ∧
    (∀ g m G r l, (g, m, G) ∈ liveGroups s c → l ∈ lanesOf m → r ≠ n.toNat → freedV F.ops r → u.cellAt (gkey c.blk g) r l = none) ∧
    (∀ g m G r l, (g, m, G) ∈ liveGroups s c → ¬(l ∈ lanesOf m ∧ (r = n.toNat ∨ freedV F.ops r)) →
      u.cellAt (gkey c.blk g) r l = s.cellAt (gkey c.blk g) r l) ∧
    (∀ g m G r l, (g, m, G) ∈ liveGroups s c → l ∈ lanesOf m → (r = n.toNat ∨ freedV F.ops r) → u.tagAt (gkey c.blk g) (r / 4) l = false) ∧
    (∀ g m G q l, (g, m, G) ∈ liveGroups s c → ¬(l ∈ lanesOf m ∧ ∃ r, (r = n.toNat ∨ freedV F.ops r) ∧ r / 4 = q) →
      u.tagAt (gkey c.blk g) q l = s.tagAt (gkey c.blk g) q l) ∧
    (∀ k, (∀ g m G, (g, m, G) ∈ liveGroups s c → k ≠ gkey c.blk g) → ∀ r l, u.cellAt k r l = s.cellAt k r l ∧ u.tagAt k r l = s.tagAt k r l) ∧
    (∀ r, freedU F.us r → u.sAt (gkey c.blk c.lead) r = 0#64 ∧ u.sTagAt (gkey c.blk c.lead) (r / 2) = false) ∧
    (∀ k r, ¬(k = gkey c.blk c.lead ∧ freedU F.us r) → u.sAt k r = s.sAt k r) := by
  classical
  set A := liveGroups s c with hA
  have hAn : (A.map (·.1)).Nodup := liveGroups_nodup hs.2
  -- taking
  have h1 : consume s c F.ops = A.foldl (fun s x => s.modGroup c.blk x.1 fun G => G.freeOps F.ops (lanesOf x.2.1)) s := by
    rw [consume_regs s c F.ops hr]
    have hB : ∀ L : List (Nat × Lanes), (L.map (·.1)).Nodup →
        ∀ s' : State, (∀ x ∈ L, tget? s'.groups (gkey c.blk x.1) = tget? s.groups (gkey c.blk x.1)) →
        (L.filter fun x => x.2 != 0#64).foldl (fun s x => s.modGroup c.blk x.1 fun G => G.freeOps F.ops (lanesOf x.2)) s' =
          (L.filterMap fun x => if x.2 = 0#64 then none else (s.grp? c.blk x.1).map fun G => (x.1, x.2, G)).foldl
            (fun s (x : Nat × Lanes × Group) => s.modGroup c.blk x.1 fun G => G.freeOps F.ops (lanesOf x.2.1)) s' := by
      intro L
      induction L with
      | nil => intro _ s' _; rfl
      | cons x L ih =>
        intro hn s' hs'
        obtain ⟨g, m⟩ := x
        have hn' := (List.nodup_cons.mp hn).2
        have hnew : ∀ (f : Group → Group), ∀ y ∈ L, tget? (s'.modGroup c.blk g f).groups (gkey c.blk y.1) = tget? s.groups (gkey c.blk y.1) := by
          intro f y hy
          have hne : gkey c.blk y.1 ≠ gkey c.blk g := by
            intro e
            have e2 : y.1 = g := by unfold gkey at e; omega
            exact (List.nodup_cons.mp hn).1 (List.mem_map.mpr ⟨y, hy, e2⟩)
          simp only [State.modGroup]; rw [tget?_tmod_ne _ _ hne]; exact hs' y (List.mem_cons_of_mem _ hy)
        by_cases hm : m = 0#64
        · simp only [List.filter_cons, hm, bne_self_eq_false, Bool.false_eq_true, if_false, List.filterMap_cons, if_true]
          exact ih hn' s' fun y hy => hs' y (List.mem_cons_of_mem _ hy)
        · rw [List.filter_cons, if_pos (by simpa using hm), List.filterMap_cons]
          simp only [hm, if_false, List.foldl_cons]
          cases hg : s.grp? c.blk g with
          | some G => simp only [Option.map_some, List.foldl_cons]; exact ih hn' _ (hnew _)
          | none =>
            simp only [Option.map_none]
            have : s'.modGroup c.blk g (fun G => G.freeOps F.ops (lanesOf m)) = s' := by
              have h0 := hs' (g, m) (List.mem_cons_self ..)
              simp only [State.modGroup, tmod]; rw [h0, show tget? s.groups (gkey c.blk g) = none from hg]
            rw [this]
            exact ih hn' s' fun y hy => hs' y (List.mem_cons_of_mem _ hy)
    have := hB c.act hs.2 s fun _ _ => rfl
    rw [this, hA]; unfold liveGroups; simp only [beq_iff_eq]
  have e1 := foldl_each c.blk (A.map fun x => (x.1, x.2.1)) (by rw [List.map_map]; exact hAn) (fun _ m G => G.freeOps F.ops (lanesOf m)) s
  rw [List.foldl_map] at e1
  rw [← h1] at e1
  obtain ⟨p1, p2, p3⟩ := e1
  have f1 := freeS_groups (consume s c F.ops) c F.us he
  -- writing
  have h2 : F.written s c = (F.results s c).foldl (fun s x => s.modGroup c.blk x.1 fun G =>
      (x.2.foldl (fun G y => G.putCell n.toNat y.1 y.2) G).dirty [n.toNat]) (freeS (consume s c F.ops) c F.us) := by
    unfold LaneForm.written writeCells; rw [hd]
  have hres := results_regs F s c hr
  have hrn : ((F.results s c).map (·.1)).Nodup := by rw [hres, List.map_map]; exact hAn
  obtain ⟨q1, q2, q3⟩ := foldl_each c.blk (F.results s c) hrn
    (fun _ xs G => (xs.foldl (fun G y => G.putCell n.toNat y.1 y.2) G).dirty [n.toNat]) (freeS (consume s c F.ops) c F.us)
  rw [← h2] at q1 q2 q3
  -- one group
  let W (g : Nat) (m : Lanes) (G : Group) : List (Nat × VCell) :=
    (lanesOf m).map fun l => (l, VCell.val (F.f s c G l (s.regWords (gkey c.blk g) l F.ops)))
  let base (g : Nat) (m : Lanes) (G : Group) : Group :=
    if g = c.lead then freeU F.us (G.freeOps F.ops (lanesOf m)) else G.freeOps F.ops (lanesOf m)
  have hS : ∀ g m G, (g, m, G) ∈ A → tget? s.groups (gkey c.blk g) = some G := fun g m G h => (mem_liveGroups.mp h).2.2
  have hG : ∀ g m G, (g, m, G) ∈ A → tget? (F.written s c).groups (gkey c.blk g) =
      some (((W g m G).foldl (fun G y => G.putCell n.toNat y.1 y.2) (base g m G)).dirty [n.toNat]) := by
    intro g m G h
    have hx : (g, W g m G) ∈ F.results s c := by
      rw [hres]; exact List.mem_map.mpr ⟨(g, m, G), h, rfl⟩
    have r1 := q2 _ hx
    have r2 := p2 (g, m) (List.mem_map.mpr ⟨(g, m, G), h, rfl⟩)
    rw [r1, f1, r2, hS g m G h]
    by_cases hlead : g = c.lead
    · simp only [base, hlead, if_true, Option.map_some]
    · have : gkey c.blk g ≠ gkey c.blk c.lead := by unfold gkey; omega
      simp only [base, hlead, this, if_false, Option.map_some]
  have hO : ∀ k, (∀ g m G, (g, m, G) ∈ A → k ≠ gkey c.blk g) → tget? (F.written s c).groups k =
      if k = gkey c.blk c.lead then (tget? s.groups k).map (freeU F.us) else tget? s.groups k := by
    intro k hk
    rw [q3 k (by rw [hres]; intro x hx; obtain ⟨⟨g, m, G⟩, h, rfl⟩ := List.mem_map.mp hx; exact hk g m G h), f1,
      p3 k (by intro x hx; obtain ⟨⟨g, m, G⟩, h, rfl⟩ := List.mem_map.mp hx; exact hk g m G h)]
  have hfree := fun G m => freeOps_spec G F.ops (lanesOf m) fun l h => lanesOf_lt h
  have hU := fun G => freeU_spec F.us G
  have hbase : ∀ g m G, (∀ r l, (base g m G).cell r l = (G.freeOps F.ops (lanesOf m)).cell r l) ∧
      (∀ r l, (base g m G).vtag r l = (G.freeOps F.ops (lanesOf m)).vtag r l) ∧
      ({ (base g m G).noV with s := [], st := [] } : Group) = { G.noV with s := [], st := [] } := by
    intro g m G
    have h0 : ({ (G.freeOps F.ops (lanesOf m)).noV with s := [], st := [] } : Group) = { G.noV with s := [], st := [] } :=
      congrArg (fun G : Group => ({ G with s := [], st := [] } : Group)) (hfree G m).1
    by_cases hlead : g = c.lead
    · simp only [base, hlead, if_true]
      refine ⟨fun r l => ?_, fun q l => ?_, ?_⟩
      · unfold Group.cell; rw [(hU _).2.1]
      · unfold Group.vtag; rw [(hU _).2.2.1]
      · exact (congrArg (fun G : Group => ({ G with v := [], vt := [], vl := [], vDirty := [] } : Group)) (hU (G.freeOps F.ops (lanesOf m))).1).trans h0
    · have hb : base g m G = G.freeOps F.ops (lanesOf m) := if_neg hlead
      rw [hb]; exact ⟨fun _ _ => rfl, fun _ _ => rfl, h0⟩
  have hput := fun g m G => putLanes n.toNat (W g m G)
    (by intro x hx; obtain ⟨l, hl, rfl⟩ := List.mem_map.mp hx; exact lanesOf_lt hl)
    (by rw [List.map_map]; exact (List.map_id _).symm ▸ lanesOf_nodup m) (base g m G)
  have hkeys : ∀ g m G, (W g m G).map (·.1) = lanesOf m := by
    intro g m G; rw [List.map_map]; exact List.map_id _
  have hsreg : ∀ k, (∃ g m G, (g, m, G) ∈ A ∧ k = gkey c.blk g) ∨ (∀ g m G, (g, m, G) ∈ A → k ≠ gkey c.blk g) := by
    intro k; by_cases h : ∃ g m G, (g, m, G) ∈ A ∧ k = gkey c.blk g
    · exact .inl h
    · exact .inr fun g m G h1 h2 => h ⟨g, m, G, h1, h2⟩
  have hps : ∀ (xs : List (Nat × VCell)) (G : Group), (xs.foldl (fun G y => G.putCell n.toNat y.1 y.2) G).s = G.s ∧
      (xs.foldl (fun G y => G.putCell n.toNat y.1 y.2) G).st = G.st := by
    intro xs; induction xs with
    | nil => intro G; exact ⟨rfl, rfl⟩
    | cons x xs ih => intro G; exact ih (G.putCell n.toNat x.1 x.2)
  have hfs : ∀ (ops : List Opd) (ls : List Nat) (G : Group), (G.freeOps ops ls).s = G.s ∧ (G.freeOps ops ls).st = G.st := by
    intro ops ls G
    have := (hfree G 0#64)
    have h0 : ∀ (rs : List Nat) (G : Group), (rs.foldl (fun g r => ls.foldl (fun g l => g.freeReg r l) g) G).s = G.s ∧
        (rs.foldl (fun g r => ls.foldl (fun g l => g.freeReg r l) g) G).st = G.st := by
      intro rs; induction rs with
      | nil => intro G; exact ⟨rfl, rfl⟩
      | cons r rs ih =>
        intro G
        have h1 : ∀ (ls : List Nat) (G : Group), (ls.foldl (fun g l => g.freeReg r l) G).s = G.s ∧ (ls.foldl (fun g l => g.freeReg r l) G).st = G.st := by
          intro ls; induction ls with
          | nil => intro G; exact ⟨rfl, rfl⟩
          | cons l ls ih2 => intro G; exact ih2 (G.freeReg r l)
        exact ⟨(ih _).1.trans (h1 ls G).1, (ih _).2.trans (h1 ls G).2⟩
    exact h0 _ G
  -- the s registers of a key
  have hs1 : ∀ k, ∃ f : Group → Group, tget? (F.written s c).groups k = (tget? s.groups k).map f ∧
      ∀ G, tget? s.groups k = some G → (f G).s = (if k = gkey c.blk c.lead then freeU F.us G else G).s ∧
        (f G).st = (if k = gkey c.blk c.lead then freeU F.us G else G).st := by
    intro k
    rcases hsreg k with ⟨g, m, G, h, rfl⟩ | h
    · refine ⟨fun _ => ((W g m G).foldl (fun G y => G.putCell n.toNat y.1 y.2) (base g m G)).dirty [n.toNat], ?_, ?_⟩
      · rw [hG g m G h, hS g m G h]; rfl
      · intro G' hG'
        have : G' = G := Option.some.inj (hG'.symm.trans (hS g m G h))
        subst this
        have hcong : ∀ H K : Group, H.s = K.s → H.st = K.st → (freeU F.us H).s = (freeU F.us K).s ∧ (freeU F.us H).st = (freeU F.us K).st := by
          intro H K e1 e2
          unfold freeU
          generalize (F.us.filter fun r => r.1.last) = L
          induction L generalizing H K with
          | nil => exact ⟨e1, e2⟩
          | cons x L ih =>
            have h3 : ∀ (k : Nat) (H K : Group), H.s = K.s → H.st = K.st →
                ((List.range k).foldl (fun G j => Group.putS G (x.1.n.toNat + j) 0#64) H).s = ((List.range k).foldl (fun G j => Group.putS G (x.1.n.toNat + j) 0#64) K).s ∧
                ((List.range k).foldl (fun G j => Group.putS G (x.1.n.toNat + j) 0#64) H).st = ((List.range k).foldl (fun G j => Group.putS G (x.1.n.toNat + j) 0#64) K).st := by
              intro k; induction k with
              | zero => intro H K e1 e2; exact ⟨e1, e2⟩
              | succ k ihk =>
                intro H K e1 e2
                rw [List.range_succ, List.foldl_append, List.foldl_append, List.foldl_cons, List.foldl_nil, List.foldl_cons, List.foldl_nil]
                obtain ⟨a, b⟩ := ihk H K e1 e2
                exact ⟨congrArg (fun t => tput t _ 0#64 0#64) a, congrArg (List.filter _) b⟩
            obtain ⟨a, b⟩ := h3 x.2 H K e1 e2
            exact ih _ _ a b
        have e1 : (((W g m G').foldl (fun G y => G.putCell n.toNat y.1 y.2) (base g m G')).dirty [n.toNat]).s = (base g m G').s := (hps _ _).1
        have e2 : (((W g m G').foldl (fun G y => G.putCell n.toNat y.1 y.2) (base g m G')).dirty [n.toNat]).st = (base g m G').st := (hps _ _).2
        rw [e1, e2]
        by_cases hlead : g = c.lead
        · subst hlead; simp only [base, if_true]; exact hcong _ _ (hfs _ _ _).1 (hfs _ _ _).2
        · have : gkey c.blk g ≠ gkey c.blk c.lead := by unfold gkey; omega
          simp only [base, hlead, this, if_false]; exact hfs _ _ _
    · refine ⟨fun G => if k = gkey c.blk c.lead then freeU F.us G else G, ?_, fun G _ => ⟨rfl, rfl⟩⟩
      rw [hO k h]
      by_cases hk : k = gkey c.blk c.lead
      · simp [hk]
      · simp [hk]
  have hnoV : ∀ xs : List (Nat × VCell), ∀ G : Group, (xs.foldl (fun G y => G.putCell n.toNat y.1 y.2) G).noV = G.noV := by
    intro xs; induction xs with
    | nil => intro G; rfl
    | cons x xs ih => intro G; exact (ih _).trans (noV_putCell ..)
  refine ⟨outside_trans p1 (outside_trans (outside_freeS ..) q1), ?_, ?_, ?_, ?_, ?_, ?_, ?_, ?_, ?_⟩
  · intro k
    rcases hsreg k with ⟨g, m, G, h, rfl⟩ | h
    · rw [hG g m G h, hS g m G h]
      exact congrArg some ((congrArg (fun G : Group => ({ G with s := [], st := [] } : Group)) ((noV_dirty _ _).trans (hnoV _ _))).trans (hbase g m G).2.2)
    · rw [hO k h]
      by_cases hk : k = gkey c.blk c.lead
      · rw [if_pos hk, Option.map_map]
        congr 1; funext G
        exact congrArg (fun G : Group => ({ G with v := [], vt := [], vl := [], vDirty := [] } : Group)) (hU G).1
      · rw [if_neg hk]
  · intro g m G l h hl
    unfold State.cellAt; rw [hG g m G h]
    exact (hput g m G).2.1 (l, _) (List.mem_map.mpr ⟨l, hl, rfl⟩)
  · intro g m G r l h hl hrn hf
    unfold State.cellAt; rw [hG g m G h]
    exact ((hput g m G).2.2.1 r l fun e => hrn e.1).trans (((hbase g m G).1 r l).trans ((hfree G m).2.1 r l ⟨hf, hl⟩))
  · intro g m G r l h hn
    unfold State.cellAt; rw [hG g m G h, hS g m G h]
    exact ((hput g m G).2.2.1 r l fun e => hn ⟨hkeys g m G ▸ e.2, .inl e.1⟩).trans
      (((hbase g m G).1 r l).trans ((hfree G m).2.2.1 r l fun e => hn ⟨e.2, .inr e.1⟩))
  · intro g m G r l h hl hf
    unfold State.tagAt; rw [hG g m G h]
    refine ((hput g m G).2.2.2 (r / 4) l).trans ?_
    by_cases hq : r / 4 = n.toNat / 4
    · rw [if_pos ⟨hq, (hkeys g m G).symm ▸ hl⟩]
    · rw [if_neg fun e => hq e.1, (hbase g m G).2.1]
      rcases hf with rfl | hf
      · exact absurd rfl hq
      · exact (hfree G m).2.2.2.1 (r / 4) l ⟨⟨r, hf, rfl⟩, hl⟩
  · intro g m G q l h hn
    unfold State.tagAt; rw [hG g m G h, hS g m G h]
    refine ((hput g m G).2.2.2 q l).trans ?_
    rw [if_neg fun e => hn ⟨hkeys g m G ▸ e.2, n.toNat, .inl rfl, e.1.symm⟩, (hbase g m G).2.1]
    exact (hfree G m).2.2.2.2 q l fun ⟨⟨r, hf, e⟩, hl⟩ => hn ⟨hl, r, .inr hf, e⟩
  · intro k hk r l
    have e : ∃ f : Group → Group, tget? (F.written s c).groups k = (tget? s.groups k).map f ∧ ∀ G, (f G).v = G.v ∧ (f G).vt = G.vt := by
      refine ⟨fun G => if k = gkey c.blk c.lead then freeU F.us G else G, ?_, fun G => ?_⟩
      · rw [hO k hk]; by_cases h : k = gkey c.blk c.lead <;> simp [h]
      · by_cases h : k = gkey c.blk c.lead
        · simp only [h, if_true]; exact ⟨(hU G).2.1, (hU G).2.2.1⟩
        · simp [h]
    obtain ⟨f, e1, e2⟩ := e
    rw [cellAt_of e1, tagAt_of e1]
    unfold State.cellAt State.tagAt Group.cell Group.vtag
    simp only [(e2 _).1, (e2 _).2, and_self]
  · intro r hr'
    obtain ⟨f, e1, e2⟩ := hs1 (gkey c.blk c.lead)
    unfold State.sAt State.sTagAt
    rw [e1]
    cases hg : tget? s.groups (gkey c.blk c.lead) with
    | none => exact ⟨rfl, rfl⟩
    | some G =>
      obtain ⟨e3, e4⟩ := e2 G hg
      rw [if_pos rfl] at e3 e4
      simp only [Option.map_some, Option.getD_some, e4]
      refine ⟨?_, ((hU G).2.2.2.1 r hr').2⟩
      exact (congrArg (fun t => tgetD t r 0#64) e3).trans ((hU G).2.2.2.1 r hr').1
  · intro k r hr'
    obtain ⟨f, e1, e2⟩ := hs1 k
    unfold State.sAt
    rw [e1]
    cases hg : tget? s.groups k with
    | none => rfl
    | some G =>
      simp only [Option.map_some, Option.getD_some]
      refine (congrArg (fun t => tgetD t r 0#64) (e2 G hg).1).trans ?_
      by_cases hk : k = gkey c.blk c.lead
      · rw [if_pos hk]; exact (hU G).2.2.2.2.1 r fun e => hr' ⟨hk, e⟩
      · rw [if_neg hk]; rfl

/-- The whole effect of a lane-wise instruction in its register form. -/
theorem vecDone_of {F : LaneForm} {n : BitVec 6} {s t : State} {c : Cur} (hs : c.sane) (he : c.empty = false) (hd : F.dst = .reg n)
    (hr : ∀ o ∈ F.ops, o.isReg = true) (h : effectIs (F.written s c) t) : vecDone s t c F n.toNat := by
  obtain ⟨w1, w2, w3, w4, w5, w6, w7, w8, w9, w10⟩ := written_regs F n hs hd hr he
  obtain ⟨h0, h1, h2⟩ := h
  have hl : ∀ {g m l G}, (g, m) ∈ c.act → l ∈ lanesOf m → s.grp? c.blk g = some G → (g, m, G) ∈ liveGroups s c := by
    intro g m l G ha hl hG
    refine mem_liveGroups.mpr ⟨ha, fun e => ?_, hG⟩
    rw [mem_lanesOf, e] at hl; simp at hl
  have hne : ∀ {g m}, (g, m) ∈ c.act → ∀ {m'}, (g, m') ∈ c.act → m = m' := by
    intro g m h1 m' h2
    have := List.inj_on_of_nodup_map hs.2 h1 h2 rfl
    exact congrArg Prod.snd this
  have hv : ∀ k r l, t.cellAt k r l = (F.written s c).cellAt k r l := cellAt_noPos h2
  have ht : ∀ k q l, t.tagAt k q l = (F.written s c).tagAt k q l := tagAt_noPos h2
  -- a group that is not there
  have hno : ∀ {g}, s.grp? c.blk g = none → ∀ r l, (F.written s c).cellAt (gkey c.blk g) r l = none ∧ (F.written s c).tagAt (gkey c.blk g) r l = false := by
    intro g hg r l
    have : (tget? (F.written s c).groups (gkey c.blk g)) = none := by
      have := w2 (gkey c.blk g)
      rw [show tget? s.groups (gkey c.blk g) = none from hg] at this
      simpa using this
    unfold State.cellAt State.tagAt; rw [this]; exact ⟨rfl, rfl⟩
  have hno' : ∀ {g}, s.grp? c.blk g = none → ∀ r l, s.cellAt (gkey c.blk g) r l = none ∧ s.tagAt (gkey c.blk g) r l = false := by
    intro g hg r l
    unfold State.cellAt State.tagAt; rw [show tget? s.groups (gkey c.blk g) = none from hg]; exact ⟨rfl, rfl⟩
  refine ⟨h0, outside_trans w1 h1, outside_bytes (outside_trans w1 h1), ?_, ?_, ?_, ?_, ?_, ?_, ?_, ?_⟩
  · refine groupsKept_trans w2 (groupsKept_map (f := Group.noPos) (fun G => { G with v := [], vt := [], vl := [], vDirty := [], s := [], st := [] }) h2)
  · intro g m l G ha hl' hG; rw [hv]; exact w3 g m G l (hl ha hl' hG) hl'
  · intro k r l hn
    rw [hv]
    by_cases hk : ∃ g m G, (g, m, G) ∈ liveGroups s c ∧ k = gkey c.blk g
    · obtain ⟨g, m, G, h3, rfl⟩ := hk
      exact w5 g m G r l h3 fun e => hn ⟨g, m, rfl, (mem_liveGroups.mp h3).1, e.1, e.2⟩
    · exact (w8 k (fun g m G h3 e => hk ⟨g, m, G, h3, e⟩) r l).1
  · intro g m l r ha hl' hr' hf
    rw [hv]
    cases hG : s.grp? c.blk g with
    | some G => exact w4 g m G r l (hl ha hl' hG) hl' hr' hf
    | none => exact (hno hG r l).1
  · intro g m l r ha hl' hr'
    rw [ht]
    cases hG : s.grp? c.blk g with
    | some G => exact w6 g m G r l (hl ha hl' hG) hl' hr'
    | none => exact (hno hG (r / 4) l).2
  · intro k q l hn
    rw [ht]
    by_cases hk : ∃ g m G, (g, m, G) ∈ liveGroups s c ∧ k = gkey c.blk g
    · obtain ⟨g, m, G, h3, rfl⟩ := hk
      exact w7 g m G q l h3 fun ⟨e1, r, e2, e3⟩ => hn ⟨g, m, r, rfl, (mem_liveGroups.mp h3).1, e1, e3, e2⟩
    · exact (w8 k (fun g m G h3 e => hk ⟨g, m, G, h3, e⟩) q l).2
  · rintro k r ⟨x, hx, rfl, hl', j, hj, rfl⟩
    rw [sAt_noPos h2, sTagAt_noPos h2]
    exact w9 _ ⟨x, hx, hl', j, hj, rfl⟩
  · intro k r hn
    rw [sAt_noPos h2]
    exact w10 k r fun ⟨e, x, hx, hl', j, hj, e2⟩ => hn ⟨x, hx, e, hl', j, hj, e2⟩

end Sys2Proof.Machine
end

