-- ==== Sys2Proof/Tests/Slice0.lean ====
section
/-!
SUPPORT. Tests of the model, and a witness for the hypotheses of each statement. The words of the decoding tests are written from the
spec's encoding tables: OPC from the opcode tables in bits 31 to 26, SCOPE, A, B and C below it (Table 3.4), a modifier word as
Table 3.8 lays it out. Expected results come from the spec's worked examples and tables, or from hand calculation from its rules.
-/

namespace Sys2Proof.Tests

open Machine

/-! ### Decoding -/

/-- Words decode in a class to an instruction, all of them. -/
def reads (k : Eng) (ws : List Word) (i : Instr) : Bool :=
  match decodeAt k ws with
  | .ok (j, n) => j == i && n == ws.length
  | .error _ => false

/-- A word by its fields. -/
def word (o e a b c : Nat) : Word := BitVec.ofNat 32 (o * 2 ^ 26 + e * 2 ^ 24 + a * 2 ^ 16 + b * 2 ^ 8 + c)

/-- A modifier word by its fields. -/
def modw (m t s d : Nat) : Word := BitVec.ofNat 32 (m + t * 2 ^ 2 + s * 2 ^ 6 + d * 2 ^ 16)

/-- Words that the spec itself writes out (Tables 4.1, 15.3, 17.2, 17.6, R54, R183 to R190, the notes of its chapters). -/
theorem test_decode_spec_words_uniform_vector :
    reads .uni [0x00040406#32] (.saddB64 .lane 4 ⟨4, false⟩ ⟨6, false⟩) ∧ reads .uni [0x18080064#32] (.smoviB64 .lane 8 100) ∧
    reads .uni [0x1C020100#32, 0x80000000#32] (.smovlB64 .lane 2 1 0x80000000#32) ∧
    reads .uni [0x68020405#32] (.scltS64 .lane 2 ⟨4, false⟩ ⟨5, false⟩) ∧
    reads .vint [0x98030102#32, 0x000C0034#32] (.vselB32 .lane (.reg 3) (.reg 1 false) (.reg 2 false) ⟨4, true⟩) ∧
    reads .vint [0x78070102#32, 0x000C002C#32] (.vbfxS32 .lane (.reg 7) (.reg 1 false) (.reg 2 false) 12) ∧
    reads .vint [0x9C060203#32, 0x000001AC#32] (.vext .lane .s32 .s8 (.reg 6) (.reg 2 false) 3) ∧
    reads .vint [0xB8030809#32] (.vlane .lane 3 (.reg 8 false) ⟨9, false⟩) ∧ reads .vint [0xC6050500#32] (.vrsumB32 .set (.reg 5) (.reg 5 false)) ∧
    reads .vint [0x50054402#32] (.vshlB32 .lane (.reg 5) (.reg 4 true) (.reg 2 false)) ∧
    reads .vflt [0x04050142#32, 0x00000001#32] (.faddX .lane .f32 .rz (.reg 5) (.reg 1 false) (.reg 2 true)) ∧
    reads .vflt [0x10060503#32] (.fmul .lane (.reg 6) (.reg 5 false) (.reg 3 false)) ∧
    reads .vflt [0x50060200#32, 0x0003000C#32] (.fcvt .lane .f8a .f32 .rn (.reg 6) (.reg 2 false) 0 3) ∧
    reads .vflt [0x60070102#32, 0x000300CC#32] (.pdot4 .lane .f8a .f8a .rn (.reg 7) (.reg 1 false) (.reg 2 false) (.reg 3 false)) ∧
    reads .vflt [0x75050600#32, 0x00000000#32] (.fred .group .rn (.reg 5) (.reg 6 false) 0) ∧
    reads .vflt [0x80040409#32] (.cfadd .lane 4 ⟨4, false⟩ (.reg 9 false)) := by decide

theorem test_decode_spec_words_other :
    reads .ctl [0x40003FF0#32] (.wait .lane ⟨0, 15, 7, 7⟩) ∧ reads .ctl [0x26000000#32] (.bar .set) ∧
    reads .ctl [0x3F070600#32] (.fork 7 ⟨6, false⟩) ∧ reads .sys [0x0405008E#32] (.rdsu .lane 5 .eacc true) ∧
    reads .mem [0x10080402#32] (.ldB32 .lane 8 ⟨4, false⟩ (.reg 2 false)) ∧ reads .mem [0x1C080402#32] (.ldc .lane 8 ⟨4, false⟩ (.reg 2 false)) ∧
    reads .mem [0x34080402#32] (.stc .lane ⟨8, false⟩ ⟨4, false⟩ (.reg 2 false)) ∧
    reads .mem [0x60010402#32, 0x00030036#32] (.aadd .lane .b32 .rel 1 ⟨4, false⟩ (.reg 2 false) (.reg 3 false)) ∧
    reads .mem [0x70010402#32, 0x00030035#32] (.aor .lane .b32 .acq 1 ⟨4, false⟩ (.reg 2 false) (.reg 3 false)) ∧
    reads .mem [0x85000000#32] (.release .group) ∧ reads .mem [0x94040143#32] (.cperm .lane 4 0x143) ∧
    reads .mem [0xA8090406#32] (.cget .lane (.reg 9) ⟨4, false⟩ 6) ∧ reads .mem [0xC0830405#32] (.chbind .lane 3 ⟨4, false⟩ ⟨5, false⟩) ∧
    reads .asy [0x040A0402#32, 0x00060001#32] (.cpysOut .lane (.reg 10 false) ⟨4, false⟩ (.reg 2 false) (.reg 6 false)) ∧
    reads .asy [0x20020300#32] (.oclaim .lane ⟨2, false⟩ ⟨3, false⟩) ∧
    reads .asy [0x28030408#32, 0x00000000#32] (.oload .lane 3 ⟨4, false⟩ ⟨8, false⟩ false) ∧
    reads .asy [0x40040611#32, 0x000100CC#32] (.mpair .lane .f8a .f8a ⟨4, false⟩ ⟨6, false⟩ 17 true) ∧
    reads .asy [0x44000206#32, 0x00000001#32] (.accrd .lane .f32 .rz 0 2 ⟨6, false⟩) ∧
    reads .asy [0x48020106#32, 0x0000003C#32] (.accwr .lane .cf32 2 1 ⟨6, false⟩) ∧ reads .asy [0x4C020005#32] (.accclr .lane 2 5) ∧
    reads .asy [0x60020500#32] (.sclwSet .lane 2 ⟨5, false⟩) ∧ reads .asy [0x64070200#32] (.sclr .lane 7 2) := by decide

/-- Table 11.1: CTL. -/
theorem test_decode_ctl :
    reads .ctl [word 0x00 3 0 0 0] (.nop .block) ∧ reads .ctl [word 0x01 0 0 0xFF 0xFE] (.jmp (-2)) ∧ reads .ctl [word 0x02 0 0x0D 0 3] (.bra ⟨5, true⟩ 3) ∧
    reads .ctl [word 0x03 0 2 0 3] (.bru ⟨2, false⟩ 3) ∧ reads .ctl [word 0x04 0 0x48 0 0] (.jmpc ⟨8, true⟩) ∧
    reads .ctl [word 0x05 0 8 0 3] (.call 8 3) ∧ reads .ctl [word 0x06 0 8 12 0] (.callc 8 ⟨12, false⟩) ∧ reads .ctl [word 0x07 0 8 0 0] (.ret ⟨8, false⟩) ∧
    reads .ctl [word 0x08 0 0 0 0] .exit ∧ reads .ctl [word 0x09 1 0 0 0] (.bar .group) ∧ reads .ctl [word 0x0A 1 0 1 0xF5] (.bara .group 5 31) ∧
    reads .ctl [word 0x0B 2 0 0 9] (.barw .set 9) ∧ reads .ctl [word 0x0C 3 0 0 0] .gbar ∧ reads .ctl [word 0x0D 3 0 0 0] .grdbar ∧
    reads .ctl [word 0x0E 3 0 0 0] .sstepCluster ∧ reads .ctl [word 0x0E 3 0 0 1] .sstepDie ∧ reads .ctl [word 0x0F 3 7 6 0] (.fork 7 ⟨6, false⟩) ∧
    reads .ctl [word 0x10 1 0 0x3F 0xF0] (.wait .group ⟨0, 15, 7, 7⟩) ∧ reads .ctl [word 0x11 0 0 0 0] .yield ∧
    reads .ctl [word 0x12 0 0 0x12 0x34] (.trap .lane 0x1234) ∧ reads .ctl [word 0x13 0 9 0xFF 0xFF] (.loop 9 (-1)) ∧
    reads .ctl [word 0x3A 3 1 2 3] (.hint 2 .block 1 2 3) := by decide

/-- Table 11.2: SYS, with the numbers of Table 3.18. -/
theorem test_decode_sys :
    reads .sys [word 0x00 3 7 0 0x0C] (.rdsr .block (.reg 7) .fstep false) ∧ reads .sys [word 0x01 1 7 0 0x83] (.rdsu .group 7 (.lvl 3) true) ∧
    reads .sys [word 0x02 0 7 0 64] (.opreq .lane 7 64) ∧ reads .sys [word 0x03 0 6 7 0] (.mtrq .lane ⟨6, false⟩ 7) ∧
    reads .sys [word 0x04 0 6 0x85 0] (.msamp .lane ⟨6, false⟩ 5) ∧ reads .sys [word 0x05 0 0 1 2] (.rpush .lane 0x102) ∧
    reads .sys [word 0x06 0 0 0 0] (.rpop .lane) ∧ reads .sys [word 0x07 0 0 1 2] (.trmark .lane 0x102) ∧ reads .sys [word 0x08 0 0 0 9] (.bkpt .lane 9) ∧
    reads .sys [word 0x09 0 0 0 0] (.chkpt .lane) ∧ reads .sys [word 0x0A 0 0 0 0] (.dbgstop .lane) ∧ reads .sys [word 0x0B 0 0 0 0] (.trctlStart .lane) ∧
    reads .sys [word 0x0B 0 0 0 1] (.trctlStop .lane) ∧ reads .sys [word 0x0B 0 0 0 2] (.trctlFreeze .lane) ∧ reads .sys [word 0x0B 0 0 0 3] (.trctlThaw .lane) ∧
    reads .sys [word 0x20 0 1 2 3] (.plwr ⟨1, false⟩ ⟨2, false⟩ ⟨3, false⟩) ∧ reads .sys [word 0x21 0 1 2 3] (.qtwr ⟨1, false⟩ ⟨2, false⟩ ⟨3, false⟩) ∧
    reads .sys [word 0x22 0 1 2 3] (.limwr ⟨1, false⟩ ⟨2, false⟩ ⟨3, false⟩) ∧ reads .sys [word 0x23 0 1 2 3] (.wtwr ⟨1, false⟩ ⟨2, false⟩ ⟨3, false⟩) ∧
    reads .sys [word 0x24 1 3 0 0x94] (.srwr .group 2 true ⟨3, false⟩) := by decide

/-- Table 13.1: UNI, forms T, U, I, L and X. -/
theorem test_decode_uni :
    (([(0x00, .saddB64), (0x01, .ssubB64), (0x02, .smulB64), (0x03, .smulhS64), (0x04, .smulhN64), (0x08, .sandB64), (0x09, .sorB64),
        (0x0A, .sxorB64), (0x0C, .sshlB64), (0x0D, .sshrN64), (0x0E, .sshrS64), (0x10, .sminS64), (0x11, .sminN64), (0x12, .smaxS64),
        (0x13, .smaxN64)] : List (Nat × (Scope → BitVec 6 → RSrc → RSrc → Instr))).all fun x =>
      reads .uni [word x.1 1 1 0x42 3] (x.2 .group 1 ⟨2, true⟩ ⟨3, false⟩)) ∧
    (([(0x0B, .snotB64), (0x0F, .smovB64), (0x14, .sclzB64), (0x15, .spopcB64), (0x16, .sextS32), (0x17, .sextN32)] :
        List (Nat × (Scope → BitVec 6 → RSrc → Instr))).all fun x => reads .uni [word x.1 0 1 2 0] (x.2 .lane 1 ⟨2, false⟩)) ∧
    (([(0x18, .sceqB64), (0x19, .scneB64), (0x1A, .scltS64), (0x1B, .scltN64), (0x1C, .scleS64), (0x1D, .scleN64)] :
        List (Nat × (Scope → BitVec 3 → RSrc → RSrc → Instr))).all fun x => reads .uni [word x.1 0 6 2 3] (x.2 .lane 6 ⟨2, false⟩ ⟨3, false⟩)) ∧
    (([(0x20, .qand), (0x21, .qor), (0x22, .qxor)] : List (Nat × (Scope → BitVec 3 → Pred → Pred → Instr))).all fun x =>
      reads .uni [word x.1 0 1 0x0A 7] (x.2 .lane 1 ⟨2, true⟩ ⟨7, false⟩)) ∧
    reads .uni [word 0x23 0 1 2 0] (.qnot .lane 1 ⟨2, false⟩) ∧ reads .uni [word 0x05 0 1 0x80 0] (.saddiB64 .lane 1 0x8000) ∧
    reads .uni [word 0x06 0 1 0 5] (.smoviB64 .lane 1 5) ∧ reads .uni [word 0x07 0 1 2 0, 9] (.smovlB64 .lane 1 2 9) ∧
    reads .uni [word 0x1E 0 1 2 3, modw 0 14 0 0x0C] (.sselB64 .lane 1 ⟨2, false⟩ ⟨3, false⟩ ⟨4, true⟩) := by decide

/-- Table 13.2: VINT. -/
theorem test_decode_vint :
    (([(0x00, .vaddB32), (0x01, .vsubB32), (0x02, .vmulB32), (0x03, .vmulhS32), (0x04, .vmulhN32), (0x08, .vaddsS32), (0x09, .vaddsN32),
        (0x0A, .vsubsS32), (0x0B, .vsubsN32), (0x0C, .vminS32), (0x0D, .vminN32), (0x0E, .vmaxS32), (0x0F, .vmaxN32), (0x10, .vandB32),
        (0x11, .vorB32), (0x12, .vxorB32), (0x14, .vshlB32), (0x15, .vshrN32), (0x16, .vshrS32), (0x37, .vrotlB32), (0x30, .vshflB32)] :
        List (Nat × (Scope → VDst → VSrc → VSrc → Instr))).all fun x =>
      reads .vint [word x.1 2 0x81 0xC2 3] (x.2 .set (.chan 1) (.chan 2 true) (.reg 3 false))) ∧
    (([(0x13, .vnotB32), (0x17, .vmovB32), (0x18, .vabsS32), (0x19, .vnegS32), (0x1A, .vpopcB32), (0x1B, .vclzB32), (0x1C, .vbrevB32),
        (0x31, .vrsumB32), (0x32, .vrminS32), (0x33, .vrminN32), (0x34, .vrmaxS32), (0x35, .vrmaxN32), (0x36, .vscanB32)] :
        List (Nat × (Scope → VDst → VSrc → Instr))).all fun x => reads .vint [word x.1 1 1 0x42 0] (x.2 .group (.reg 1) (.reg 2 true))) ∧
    (([(0x20, .vceqB32), (0x21, .vcneB32), (0x22, .vcltS32), (0x23, .vcltN32), (0x24, .vcleS32), (0x25, .vcleN32)] :
        List (Nat × (Scope → BitVec 3 → VSrc → VSrc → Instr))).all fun x => reads .vint [word x.1 0 6 2 3] (x.2 .lane 6 (.reg 2 false) (.reg 3 false))) ∧
    (([(0x28, .pand), (0x29, .por), (0x2A, .pxor)] : List (Nat × (Scope → BitVec 3 → Pred → Pred → Instr))).all fun x =>
      reads .vint [word x.1 0 1 0x0A 7] (x.2 .lane 1 ⟨2, true⟩ ⟨7, false⟩)) ∧
    reads .vint [word 0x2B 0 1 2 0] (.pnot .lane 1 ⟨2, false⟩) ∧ reads .vint [word 0x05 0 1 0x80 0] (.vaddiB32 .lane 1 0x8000) ∧
    reads .vint [word 0x06 0 1 0 5] (.vmoviB32 .lane (.reg 1) 5) ∧ reads .vint [word 0x07 0 1 0 0, 9] (.vmovlB32 .lane (.reg 1) 9) ∧
    reads .vint [word 0x1D 0 1 2 3, modw 0 12 0 32] (.vbfxN32 .lane (.reg 1) (.reg 2 false) (.reg 3 false) 32) ∧
    reads .vint [word 0x1F 0 1 2 3, modw 0 13 0 1] (.vbfiB32 .lane 1 (.reg 2 false) (.reg 3 false) 1) ∧
    reads .vint [word 0x2C 0 1 2 0] (.vbcast .lane (.reg 1) ⟨2, false⟩) ∧ reads .vint [word 0x2D 0 1 2 0] (.vfirst .lane 1 (.reg 2 false)) ∧
    reads .vint [word 0x2F 0 1 0x0F 0] (.vvote .lane 1 ⟨7, true⟩) := by decide

/-- Table 17.1: VFLT. -/
theorem test_decode_vflt :
    (([(0x00, .fadd), (0x02, .fsub), (0x04, .fmul), (0x08, .fdiv), (0x0C, .fmin), (0x0D, .fmax), (0x15, .fscl), (0x22, .cfnorm)] :
        List (Nat × (Scope → VDst → VSrc → VSrc → Instr))).all fun x => reads .vflt [word x.1 0 1 2 3] (x.2 .lane (.reg 1) (.reg 2 false) (.reg 3 false))) ∧
    (([(0x01, .faddX), (0x03, .fsubX), (0x05, .fmulX), (0x09, .fdivX), (0x23, .cfnormX), (0x1A, .hadd2), (0x1B, .hmul2)] :
        List (Nat × (Scope → Ty → Rnd → VDst → VSrc → VSrc → Instr))).all fun x =>
      reads .vflt [word x.1 0 1 2 3, modw 2 1 0 0] (x.2 .lane .f16 .ru (.reg 1) (.reg 2 false) (.reg 3 false))) ∧
    (([(0x07, .ffmaX), (0x1C, .hfma2)] : List (Nat × (Scope → Ty → Rnd → VDst → VSrc → VSrc → VSrc → Instr))).all fun x =>
      reads .vflt [word x.1 0 1 2 3, modw 3 2 0 4] (x.2 .lane .bf16 .rd (.reg 1) (.reg 2 false) (.reg 3 false) (.reg 4 false))) ∧
    (([(0x0A, .fsqrt), (0x0E, .fabs), (0x0F, .fneg)] : List (Nat × (Scope → VDst → VSrc → Instr))).all fun x =>
      reads .vflt [word x.1 0 1 2 0] (x.2 .lane (.reg 1) (.reg 2 false))) ∧
    (([(0x10, .fceq), (0x11, .fclt), (0x12, .fcle), (0x13, .fcun)] : List (Nat × (Scope → BitVec 3 → VSrc → VSrc → Instr))).all fun x =>
      reads .vflt [word x.1 0 6 2 3] (x.2 .lane 6 (.reg 2 false) (.reg 3 false))) ∧
    reads .vflt [word 0x06 0 1 2 3] (.ffma .lane 1 (.reg 2 false) (.reg 3 false)) ∧
    reads .vflt [word 0x0B 0 1 2 0, modw 1 0 0 0] (.fsqrtX .lane .f32 .rz (.reg 1) (.reg 2 false)) ∧
    reads .vflt [word 0x16 0 1 2 3, modw 1 0 0 0] (.fsclX .lane .rz (.reg 1) (.reg 2 false) (.reg 3 false)) ∧
    reads .vflt [word 0x19 0 1 2 3, modw 0 5 8 4] (.pdot8 .lane .f4 .s4 .rn (.reg 1) (.reg 2 false) (.reg 3 false) (.reg 4 false)) ∧
    reads .vflt [word 0x21 1 4 6 0] (.cfred .group 4 ⟨6, false⟩) := by decide

/-- Table 15.1: MEM. -/
theorem test_decode_mem :
    (([(0x00, .ldS8), (0x01, .ldN8), (0x02, .ldS16), (0x03, .ldN16), (0x04, .ldB32), (0x05, .ldB64), (0x06, .ldB128), (0x07, .ldc), (0x34, .spanq)] :
        List (Nat × (Scope → BitVec 6 → RSrc → VSrc → Instr))).all fun x => reads .mem [word x.1 3 8 0x44 2] (x.2 .block 8 ⟨4, true⟩ (.reg 2 false))) ∧
    (([(0x08, .stB8), (0x09, .stB16), (0x0A, .stB32)] : List (Nat × (Scope → VSrc → RSrc → VSrc → Instr))).all fun x =>
      reads .mem [word x.1 0 1 4 2] (x.2 .lane (.reg 1 false) ⟨4, false⟩ (.reg 2 false))) ∧
    (([(0x0B, .stB64), (0x0C, .stB128), (0x0D, .stc)] : List (Nat × (Scope → RSrc → RSrc → VSrc → Instr))).all fun x =>
      reads .mem [word x.1 0 0x48 4 2] (x.2 .lane ⟨8, true⟩ ⟨4, false⟩ (.reg 2 false))) ∧
    (([(0x0E, .wldB32), (0x0F, .wldB128)] : List (Nat × (Scope → BitVec 6 → VSrc → VSrc → Instr))).all fun x =>
      reads .mem [word x.1 0 8 3 2] (x.2 .lane 8 (.reg 3 false) (.reg 2 false))) ∧
    (([(0x10, .ldsB32), (0x11, .ldsB64), (0x12, .ldsB128)] : List (Nat × (Scope → BitVec 6 → VSrc → Instr))).all fun x =>
      reads .mem [word x.1 0 8 3 0] (x.2 .lane 8 (.reg 3 false))) ∧ reads .mem [word 0x13 0 1 3 0] (.stsB32 .lane (.reg 1 false) (.reg 3 false)) ∧
    (([(0x14, .stsB64), (0x15, .stsB128)] : List (Nat × (Scope → RSrc → VSrc → Instr))).all fun x =>
      reads .mem [word x.1 0 8 3 0] (x.2 .lane ⟨8, false⟩ (.reg 3 false))) ∧
    (([(0x16, .put), (0x17, .get)] : List (Nat × (Scope → VSrc → VSrc → VSrc → Instr))).all fun x =>
      reads .mem [word x.1 0 1 2 3] (x.2 .lane (.reg 1 false) (.reg 2 false) (.reg 3 false))) ∧
    (([(0x18, .aadd), (0x1B, .aand), (0x1C, .aor), (0x1D, .axor), (0x1E, .axchg), (0x1F, .acas)] :
        List (Nat × (Scope → Ty → AOrd → BitVec 6 → RSrc → VSrc → VSrc → Instr))).all fun x =>
      reads .mem [word x.1 0 2 4 3, modw 3 14 0 6] (x.2 .lane .b64 .ar 2 ⟨4, false⟩ (.reg 3 false) (.reg 6 false))) ∧
    (([(0x19, .amin), (0x1A, .amax)] : List (Nat × (Scope → Ty → AOrd → BitVec 6 → RSrc → VSrc → VSrc → Instr))).all fun x =>
      reads .mem [word x.1 0 1 4 3, modw 0 11 0 5] (x.2 .lane .s32 .rlx 1 ⟨4, false⟩ (.reg 3 false) (.reg 5 false))) ∧
    (([(0x20, .acquire), (0x21, .release), (0x22, .fence)] : List (Nat × (Scope → Instr))).all fun x => reads .mem [word x.1 1 0 0 0] (x.2 .group)) ∧
    (([(0x24, .cbnd), (0x26, .cadd), (0x27, .cset), (0x28, .cseal)] : List (Nat × (Scope → BitVec 6 → RSrc → RSrc → Instr))).all fun x =>
      reads .mem [word x.1 0 8 4 2] (x.2 .lane 8 ⟨4, false⟩ ⟨2, false⟩)) ∧ reads .mem [word 0x25 0 4 0x0F 0xFF] (.cperm .lane 4 0xFFF) ∧
    (([(0x29, .cmov), (0x2C, .cbcast)] : List (Nat × (Scope → BitVec 6 → RSrc → Instr))).all fun x => reads .mem [word x.1 0 8 4 0] (x.2 .lane 8 ⟨4, false⟩)) ∧
    reads .mem [word 0x2A 0 0x81 4 7] (.cget .lane (.chan 1) ⟨4, false⟩ 7) ∧ reads .mem [word 0x2B 0 2 4 3] (.ctag .lane 2 ⟨4, false⟩ (.reg 3 false)) ∧
    reads .mem [word 0x30 0 0x83 4 5] (.chbind .lane 3 ⟨4, false⟩ ⟨5, false⟩) ∧ reads .mem [word 0x31 0 2 0x83 0] (.chfree .lane 2 3) ∧
    reads .mem [word 0x32 1 2 0x83 0] (.chstat .group 2 3) := by decide

/-- Tables 15.2 and 17.5: ASY. -/
theorem test_decode_asy :
    reads .asy [word 0x00 0 8 4 2, modw 0 0 0 6] (.cpy .lane ⟨8, false⟩ ⟨4, false⟩ (.reg 2 false) (.reg 6 false)) ∧
    reads .asy [word 0x01 0 1 4 2, modw 0 0 0 6] (.cpysIn .lane (.reg 1 false) ⟨4, false⟩ (.reg 2 false) (.reg 6 false)) ∧
    reads .asy [word 0x02 0 1 4 2, modw 0 0 0 6] (.mcast .lane (.reg 1 false) ⟨4, false⟩ (.reg 2 false) (.reg 6 false)) ∧
    reads .asy [word 0x03 0 1 2 0] (.cpyq .lane (.reg 1) (.reg 2 false)) ∧ reads .asy [word 0x09 0 2 3 0] (.orel .lane ⟨2, false⟩ ⟨3, false⟩) ∧
    reads .asy [word 0x0A 1 31 5 8, modw 0 0 0 1] (.oload .group 31 ⟨5, false⟩ ⟨8, false⟩ true) ∧ reads .asy [word 0x0B 3 0 0 0] (.mfence .block) ∧
    reads .asy [word 0x14 0 2 0 5] (.accwt .lane 2 5) ∧ reads .asy [word 0x15 0 7 15 0] (.accver .lane 7 15) ∧
    reads .asy [word 0x18 0 2 5 1] (.sclwAdd .lane 2 ⟨5, false⟩) := by decide

/-- What the tables do not assign is refused by name (R62, R65 to R69). -/
theorem test_decode_refuses :
    decodeAt .uni [word 0x24 0 0 0 0] = .error .unassigned ∧ decodeAt .ctl [word 0x01 1 0 0 0] = .error .scope ∧
    decodeAt .vint [word 0x1D 0 1 2 3] = .error .form ∧ decodeAt .vint [word 0x1D 0 1 2 3, modw 0 11 0 8] = .error .form ∧
    decodeAt .mem [word 0x04 0 8 5 2] = .error .operand ∧ decodeAt .vint [word 0x00 0 0x41 2 3] = .error .operand ∧
    decodeAt .vint [word 0x1D 0 1 2 3, modw 0 12 0 33] = .error .operand ∧ decodeAt .uni [word 0x18 0 7 2 3] = .error .operand := by decide

/-! ### WellFormed: an ill-formed term for each check -/

theorem smoke_scope_lane_group : (Instr.saddB64 .set 1 ⟨2, false⟩ ⟨3, false⟩).wf = false := by decide
theorem smoke_scope_wide : (Instr.bar .lane).wf = false := by decide
theorem smoke_quad : (Instr.ldB32 .lane 8 ⟨5, false⟩ (.reg 2 false)).wf = false := by decide
theorem smoke_pair : (Instr.cfadd .lane 3 ⟨4, false⟩ (.reg 9 false)).wf = false := by decide
theorem smoke_predicate_destination : (Instr.vceqB32 .lane 7 (.reg 1 false) (.reg 2 false)).wf = false := by decide
theorem smoke_bara_count : (Instr.bara .group 0 32).wf = false := by decide
theorem smoke_opreq_step : (Instr.opreq .lane 1 65).wf = false := by decide
theorem smoke_smovl_selector : (Instr.smovlB64 .lane 1 3 0).wf = false := by decide
theorem smoke_bit_field_length : (Instr.vbfxN32 .lane (.reg 1) (.reg 2 false) (.reg 3 false) 0).wf = false ∧
    (Instr.vbfiB32 .lane 1 (.reg 2 false) (.reg 3 false) 33).wf = false := by decide
theorem smoke_vext_types : (Instr.vext .lane .s8 .s4 (.reg 1) (.reg 2 false) 0).wf = false := by decide
theorem smoke_vext_selector : (Instr.vext .lane .s32 .s8 (.reg 1) (.reg 2 false) 4).wf = false ∧
    (Instr.vext .lane .s8 .s32 (.chan 1) (.reg 2 false) 0).wf = false := by decide
theorem smoke_fcvt_types : (Instr.fcvt .lane .s32 .s8 .rn (.reg 1) (.reg 2 false) 0 0).wf = false ∧
    (Instr.fcvt .lane .f32 .f32 .rn (.reg 1) (.reg 2 false) 0 0).wf = false := by decide
theorem smoke_fcvt_selectors : (Instr.fcvt .lane .f8a .f32 .rn (.reg 1) (.reg 2 false) 0 5).wf = false ∧
    (Instr.fcvt .lane .f8a .f32 .rn (.chan 1) (.reg 2 false) 0 1).wf = false := by decide
theorem smoke_float_type : (Instr.faddX .lane .f8a .rn (.reg 1) (.reg 2 false) (.reg 3 false)).wf = false := by decide
theorem smoke_half_type : (Instr.hadd2 .lane .f32 .rn (.reg 1) (.reg 2 false) (.reg 3 false)).wf = false := by decide
theorem smoke_dot_types : (Instr.pdot4 .lane .f4 .f8a .rn (.reg 1) (.reg 2 false) (.reg 3 false) (.reg 4 false)).wf = false ∧
    (Instr.pdot8 .lane .f4 .s8 .rn (.reg 1) (.reg 2 false) (.reg 3 false) (.reg 4 false)).wf = false := by decide
theorem smoke_fred_op : (Instr.fred .group .rn (.reg 1) (.reg 2 false) 3).wf = false := by decide
theorem smoke_atomic_types : (Instr.aadd .lane .s32 .rlx 1 ⟨4, false⟩ (.reg 2 false) (.reg 3 false)).wf = false ∧
    (Instr.amin .lane .b32 .rlx 1 ⟨4, false⟩ (.reg 2 false) (.reg 3 false)).wf = false ∧
    (Instr.aand .lane .f32 .rlx 1 ⟨4, false⟩ (.reg 2 false) (.reg 3 false)).wf = false := by decide
theorem smoke_atomic_pairs : (Instr.aadd .lane .b64 .rlx 1 ⟨4, false⟩ (.reg 2 false) (.reg 6 false)).wf = false ∧
    (Instr.aadd .lane .b64 .rlx 2 ⟨4, false⟩ (.reg 2 false) (.chan 6 false)).wf = false := by decide
theorem smoke_oload_pair : (Instr.oload .lane 3 ⟨5, false⟩ ⟨8, false⟩ false).wf = false := by decide
theorem smoke_mpair_types : (Instr.mpair .lane .f8a .s8 ⟨4, false⟩ ⟨6, false⟩ 0 false).wf = false := by decide
theorem smoke_accumulator_type : (Instr.accwr .lane .s8 0 0 ⟨6, false⟩).wf = false ∧ (Instr.accrd .lane .cf32 .rz 0 0 ⟨6, false⟩).wf = false := by decide

/-! ### A small machine: one supervisor context, a block of one group on core 0 (block 2, group key 64), a clause in issue -/

/-- The machine with a word of class `e` as the next turn; the words are those of an instruction. -/
def mach (w : Nat) : State := State.reset.withFetchWord 64 w
def m0 : State := { mach 0 with agenda := [] }

/-- The clause in issue, the group, its stream. -/
def clause0 : Clause := oneWordClause 0
def group0 : Group := (m0.grp? 2 0).getD (newGroup Cap.null [] [] 0)
def ref0 : IRef := ⟨2, 0, 0⟩

/-- A word in execution by the stream, at a scope, for the lanes of a mask. -/
def curOf (e : Scope) (m : Lanes) : Cur :=
  { blk := 2, e, arr := [ref0], act := [(0, m)], addr := 0, idx := 1, k := 1, sym := false, eng := .vint, lead := 0 }
def lane0 : Cur := curOf .lane 5#64
def group1 : Cur := curOf .group 5#64
def at' (s : State) (c : Cur) : State := { s with cur := some c }
def mL : State := at' m0 lane0
def mG : State := at' m0 group1

theorem byOne0 : lane0.byOne mL ref0 group0.stream clause0 group0 5#64 :=
  ⟨rfl, rfl, rfl, rfl, rfl, rfl, by decide, by decide, by decide, by decide, by decide, fun l h => absurd h (by simp [ref0])⟩

theorem sane0 : lane0.sane ∧ group1.sane := by unfold Cur.sane; decide

/-! ### Witnesses: the hypotheses of each statement about words -/

theorem witness_UniformArithmetic : ∃ i a srcs f, ∃ (s : State) (c : Cur), ∃ G, uniForm i = some (a, srcs, f) ∧ s.cur = some c ∧ c.empty = false ∧
    s.grp? c.blk c.lead = some G := ⟨.saddB64 .lane 1 ⟨2, true⟩ ⟨3, false⟩, _, _, _, mL, lane0, group0, rfl, rfl, by decide, by decide⟩
theorem witness_UniformPredicates : ∃ i a srcs f, ∃ (s : State) (c : Cur), ∃ G, uniPredForm i = some (a, srcs, f) ∧ s.cur = some c ∧ c.empty = false ∧
    s.grp? c.blk c.lead = some G := ⟨.scltS64 .group 6 ⟨2, true⟩ ⟨3, false⟩, _, _, _, mG, group1, group0, rfl, rfl, by decide, by decide⟩
theorem witness_VectorInteger : ∃ i F, ∃ (s : State) (c : Cur), intForm i = some F ∧ s.cur = some c ∧ c.empty = false ∧ ready? s c F.ops (.v F.dst) false = none :=
  ⟨.vaddB32 .lane (.reg 1) (.reg 2 true) (.reg 3 false), _, mL, lane0, rfl, rfl, by decide, by decide⟩
theorem witness_VectorFloat : ∃ i F, ∃ (s : State) (c : Cur), i.wf = true ∧ fltForm i = some F ∧ s.cur = some c ∧ c.empty = false ∧
    ready? s c F.ops (.v F.dst) false = none :=
  ⟨.fcvt .group .f8a .f32 .rn (.reg 6) (.reg 2 false) 0 4, _, mG, group1, by decide, rfl, rfl, by decide, by decide⟩
theorem witness_VectorFrame : ∃ i F, ∃ (s : State) (c : Cur), ∃ n, i.wf = true ∧ (intForm i = some F ∨ fltForm i = some F) ∧ F.dst = .reg n ∧ (∀ o ∈ F.ops, o.isReg = true) ∧
    s.cur = some c ∧ c.sane ∧ c.empty = false ∧ ready? s c F.ops (.v F.dst) false = none :=
  ⟨.vselB32 .lane (.reg 63) (.reg 2 true) (.reg 3 false) ⟨4, true⟩, _, mL, lane0, 63, by decide, .inl rfl, rfl, by decide, rfl, sane0.1, by decide, by decide⟩
theorem witness_VectorPredicates : ∃ i a ops f, ∃ (s : State) (c : Cur), predForm i = some (a, ops, f) ∧ s.cur = some c ∧ c.sane ∧ c.empty = false ∧
    ready? s c ops .none false = none :=
  ⟨.ctag .lane 6 ⟨60, false⟩ (.reg 3 false), _, _, _, mL, lane0, rfl, rfl, sane0.1, by decide, by decide⟩
theorem witness_CrossLane : ∃ i a ops f, ∃ (s : State) (c : Cur), crossForm i = some (a, ops, f) ∧ s.cur = some c ∧ c.empty = false ∧ ready? s c ops (.v a) false = none ∧
    ∀ e ∈ elemsOf s c ops, e.i < 2048 :=
  ⟨.fred .group .rn (.reg 5) (.reg 6 false) 0, _, _, _, mG, group1, rfl, rfl, by decide, by decide, by decide⟩
theorem witness_VectorToUniform : ∃ i a ops us f, ∃ (s : State) (c : Cur), toUniForm i = some (a, ops, us, f) ∧ s.cur = some c ∧ c.empty = false ∧
    ready? s c ops .none false = none := ⟨.vlane .lane 3 (.reg 8 false) ⟨9, true⟩, _, _, _, _, mL, lane0, rfl, rfl, by decide, by decide⟩
theorem witness_CompensatedFloat : (∃ (a : BitVec 6) (b : RSrc) (v : VSrc) (s : State) (c : Cur), s.cur = some c ∧ c.sane ∧ c.empty = false ∧ ready? s c [.r b 2, .v v] (.r a 2) false = none) ∧
    ∃ (a : BitVec 6) (b : RSrc) (s : State) (c : Cur), s.cur = some c ∧ c.sane ∧ c.empty = false ∧ ready? s c [.r b 2] (.r a 2) false = none ∧
      ∀ x ∈ elemsOf s c [.r b 2], x.i < 2048 :=
  ⟨⟨4, ⟨4, false⟩, .reg 9 false, mL, lane0, rfl, sane0.1, by decide, by decide⟩,
    4, ⟨62, true⟩, mG, group1, rfl, sane0.2, by decide, by decide, by decide⟩

/-- A load of one register that is outstanding for lanes 0 and 2, and the register that refers to its symbol. -/
def load1 : Op :=
  { kind := .load 4 false, blk := 2, gidx := 0, dst := some 4, syms := [9], closed := false
    lanes := [{ req0 0 with n := 4, ph := .sent }, { req0 2 with n := 4, ph := .sent }], wide := none, addr := 0, idx := 1, e := .lane, core := 0
    slot := 0, stride := 0, iv := 0, rc := 0, order := 3 }
def symCur : Cur := { lane0 with sym := true }
def mP : State :=
  { at' m0 symCur with
    ops := [(8, load1)], nextId := 10
    groups := tmod m0.groups 64 fun G => (G.setCell 4 0 (.aff 9 1#32 0#32)).setCell 4 2 (.aff 9 1#32 0#32) }

theorem witness_CompositionExact : (∃ i a ops comp f cells z, compForm i = some (a, ops, comp, f) ∧ cells.length = ops.length ∧ comp cells = some z) ∧
    ∃ i a ops comp f cells z, compForm i = some (a, ops, comp, f) ∧ cells.length = ops.length ∧ comp cells = some z :=
  ⟨⟨.vshlB32 .lane (.reg 5) (.reg 4 false) (.reg 2 false), _, _, _, _, [.aff 9 1 0, .val 31], _, rfl, rfl, rfl⟩,
    .fmul .lane (.reg 5) (.reg 4 false) (.reg 2 false), _, _, _, _, [.aff 9 1 0, .val 0x40400000], _, rfl, rfl, rfl⟩
theorem witness_CompositionIssues : ∃ i a ops comp f, ∃ (s : State) (c : Cur), compForm i = some (a, ops, comp, f) ∧ s.cur = some c ∧ c.empty = false ∧ c.sym = true ∧
    a.isReg = true ∧ pendingOf s c ops ≠ [] ∧ waitedPend s c = false ∧
    (∀ x ∈ pendingOf s c ops, ∃ k o, opOfSym s x.2.2 = some (k, o) ∧ o.closed = false) ∧
    (∀ x ∈ readOps s c ops, ∀ y ∈ x.2, (comp y.2).isSome) ∧ ready? s c ops (.v a) true = none :=
  ⟨.vmulB32 .lane (.reg 5) (.reg 4 true) (.reg 2 false), _, _, _, _, mP, symCur, rfl, rfl, by decide, rfl, rfl, by decide, by decide,
    fun x hx => by
      have : x.2.2 = 9 := by
        have : ∀ x ∈ pendingOf mP symCur (two (.reg 4 true) (.reg 2 false)), x.2.2 = 9 := by decide
        exact this x hx
      rw [this]; exact ⟨8, load1, by decide, rfl⟩,
    by decide, by decide⟩

theorem witness_PlainWords : (∃ i, ∃ (s : State) (c : Cur), plainWord s c i = true ∧ s.cur = some c) ∧ (∃ e lim, ∃ (s : State) (c : Cur), e ≠ .lane ∧ plainWord s c (.wait e lim) = true ∧ s.cur = some c) ∧
    (∃ i, ∃ (s : State) (c : Cur), (intForm i).isSome ∧ s.cur = some c ∧ c.empty = true) ∧
    (∃ (s : State) (c : Cur) (r : IRef) (i : Issuer) (cl : Clause) (G : Group) (m : Lanes), c.byOne s r i cl G m) ∧
    ∃ (s : State) (c : Cur), s.cur = some c ∧ c.arr.Nodup ∧ ∀ r ∈ c.arr, r.gidx < 32 :=
  ⟨⟨.wait .lane ⟨0, 0, 0, 0⟩, mL, lane0, by decide, rfl⟩, ⟨.group, ⟨0, 0, 7, 0⟩, mG, group1, by decide, by decide, rfl⟩,
    ⟨.vmoviB32 .lane (.reg 1) 0, at' m0 (curOf .lane 0#64), curOf .lane 0#64, rfl, rfl, by decide⟩,
    ⟨mL, lane0, ref0, _, _, _, _, byOne0⟩, mL, lane0, rfl, by decide, by decide⟩

theorem witness_ControlTransfers : ∃ ins T, ∃ (s : State) (c : Cur), ∃ r i cl G m l0, transferForm ins = some T ∧ Cur.byOne c s r i cl G m ∧ r.iss = 0 ∧
    ready? s c T.ops T.dst false = none ∧ (∀ l ∈ lanesOf m, ∀ xs, s.opsOf c T.ops r.gidx l = some xs → (T.dest G i cl l xs).isSome) ∧
    (lanesOf m).head? = some l0 :=
  ⟨.call 4 (-2), _, mL, lane0, ref0, group0.stream, clause0, group0, 5#64, 0, rfl, byOne0, rfl, by decide, fun _ _ _ _ => rfl, by decide⟩
theorem witness_ControlTransfers_installed : ∃ ins T, ∃ (s : State) (c : Cur), ∃ r i cl G m, transferForm ins = some T ∧ Cur.byOne c s r i cl G m ∧ T.ops ≠ [] ∧
    ready? s c T.ops T.dst false = none ∧ (∀ l ∈ lanesOf m, ∀ xs, s.opsOf c T.ops r.gidx l = some xs → (T.dest G i cl l xs).isSome) := by
  let s := at' { m0 with groups := tmod m0.groups 64 fun G => (G.putQuad 8 0 group0.stream.code).putQuad 8 2 group0.stream.code } lane0
  refine ⟨.ret ⟨8, true⟩, _, s, lane0, ref0, group0.stream, clause0, (s.grp? 2 0).getD group0, 5#64, rfl, ?_, by decide, by decide, ?_⟩
  · exact ⟨rfl, rfl, rfl, rfl, rfl, rfl, by decide, by decide, by decide, by decide, by decide, fun l h => absurd h (by simp [ref0])⟩
  · intro l hl xs h
    have : ∀ l ∈ lanesOf 5#64, ∀ xs ∈ s.opsOf lane0 [.r ⟨8, true⟩ 4] 0 l,
      (installed (capAt ((s.grp? 2 0).getD group0) l ⟨8, true⟩ xs 0)).isSome := by decide
    exact this l hl xs h
theorem noneAtChannel0 : noneAtChannel mL := by
  intro k K hK x j hj n
  have hg : mL.groups = [(64, group0)] := by rfl
  rw [hg] at hK
  simp only [tget?] at hK
  split at hK
  · cases hK
    cases x with
    | zero => cases hj; exact fun h => nomatch (show Wait.go = Wait.chan n from h)
    | succ l => cases hj
  · cases hK
theorem witness_Exit : ∃ (s : State) (c : Cur) (r : IRef) (i : Issuer) (cl : Clause) (G : Group) (m : Lanes), c.byOne s r i cl G m ∧
    (∀ x ∈ s.ops, x.2.blk = r.blk → ∀ q ∈ x.2.lanes, ∀ code, q.ph ≠ .faulted code) ∧ noneAtChannel s :=
  ⟨mL, lane0, ref0, _, _, _, _, byOne0, fun _ h => absurd h (by simp [mL, at', m0, mach, State.withFetchWord, State.withClause, State.reset]), noneAtChannel0⟩
theorem witness_SoftTrap_wide : ∃ (s : State) (c : Cur), s.cur = some c ∧ c.e ≠ .lane ∧ c.empty = false ∧ c.sane ∧ (unitGroups s c.blk c.lead c.e).Nodup :=
  ⟨mG, group1, rfl, by decide, by decide, sane0.2, by decide⟩
theorem releases0 : releasesNow mG group1 := by unfold releasesNow; decide
theorem witness_ReleasesAndAcquires : (∃ (s : State) (c : Cur), ∃ u p, syncForm s c (.bar .group) = some (u, p) ∧ s.cur = some c ∧ c.empty = false ∧ p) ∧
    (∃ (s : State) (c : Cur), ∃ u p, syncForm s c (.acquire .group) = some (u, p) ∧ s.cur = some c ∧ c.empty = false ∧ p) ∧
    ∃ (s : State) (c : Cur), ∃ u p, syncForm s c (.wait .group ⟨0, 0, 0, 0⟩) = some (u, p) ∧ s.cur = some c ∧ c.empty = false ∧ p :=
  ⟨⟨mG, group1, _, _, rfl, rfl, by decide, releases0⟩, ⟨mG, group1, _, _, rfl, rfl, by decide, by decide⟩,
    mG, group1, _, _, rfl, rfl, by decide, by decide⟩
theorem witness_Barriers : (∃ (k : BitVec 4) (n : BitVec 6) (s : State) (c : Cur), s.cur = some c ∧ c.empty = false ∧ (∃ B, tget? s.blocks c.blk = some B) ∧
    (∀ g ∈ c.live, (arrOf s c.blk g k.toNat).arr = false) ∧ n.toNat + 1 ≤ (gridOfB s c.blk).groups ∧
    ((sbOf s c.blk k.toNat).exp = 0 ∨ (sbOf s c.blk k.toNat).exp = n.toNat + 1) ∧ (sbOf s c.blk k.toNat).cnta + c.live.length ≤ n.toNat + 1 ∧
    releasesNow s c) ∧
    (∃ (k : BitVec 4) (s : State) (c : Cur), s.cur = some c ∧ c.empty = false ∧ atomicsDone s c.blk c.elems = true ∧
      (∀ g ∈ c.live, (arrOf s c.blk g k.toNat).arr = true → (arrOf s c.blk g k.toNat).aph ≠ (sbOf s c.blk k.toNat).ph)) ∧
    (∃ i k, ∃ (s : State) (c : Cur), ∃ B, instForm s c i = some k ∧ s.cur = some c ∧ tget? s.blocks c.blk = some B ∧ releasesNow s c ∧ s.sandbox = none) ∧
    ∃ i k, ∃ (s : State) (c : Cur), ∃ B, instForm s c i = some k ∧ s.cur = some c ∧ tget? s.blocks c.blk = some B ∧ releasesNow s c ∧ s.sandbox.isSome := by
  have h : releasesNow { mG with sandbox := some [] } group1 := by unfold releasesNow; decide
  exact ⟨⟨15, 0, mG, group1, rfl, by decide, ⟨_, rfl⟩, by decide, by decide, by decide, by decide, releases0⟩,
    ⟨15, mG, group1, rfl, by decide, by decide, by decide⟩, ⟨.gbar, _, mG, group1, _, rfl, rfl, rfl, releases0, rfl⟩,
    .sstepDie, _, { mG with sandbox := some [] }, group1, _, rfl, rfl, rfl, h, rfl⟩

/-- The group changed; the context changed. -/
def withG (s : State) (f : Group → Group) : State := { s with groups := tmod s.groups 64 f }
def withC (s : State) (f : Ctx → Ctx) : State := { s with ctxs := tmod s.ctxs 0 f }
def withB (s : State) (f : Block → Block) : State := { s with blocks := tmod s.blocks 2 f }

/-- A launch record: version 1, 8 registers, one block of one group. -/
def rec1 : Nat := 1 + 8 * 2 ^ 15 + 2 ^ 128 + 2 ^ 132 + 2 ^ 138 + 2 ^ 144 + 2 ^ 152 + 2 ^ 160
def mF (n : Nat) : State :=
  at' (withG (withB m0 fun B => { B with spm := B.spm.write 64 (natBytes 64 n) }) fun G => G.putS 6 64#64) (curOf .block 5#64)
set_option maxRecDepth 20000 in
theorem witness_Fork (n : Nat) (hn : n = 0 ∨ n = rec1) : ∃ (b : RSrc) (s : State) (c : Cur) (B B' : Block) (x : Ctx), s.cur = some c ∧ c.empty = false ∧
    tget? s.blocks c.blk = some B ∧ s.sandbox = none ∧ (s.sAt (gkey c.blk c.lead) b.n.toNat).toNat % 64 = 0 ∧
    (s.sAt (gkey c.blk c.lead) b.n.toNat).toNat + 96 ≤ B.spmLen ∧ (s.gridOf B).gngb ≤ 1 ∧ (s.gridOf B).clug ≤ 1 ∧ (s.gridOf B).diec ≤ 1 ∧
    (s.gridOf B).cor = false ∧ (s.gridOf B).depth < 8 ∧ blockReleased s c ∧ tget? (releaseStart s c.blk (blockElems s c.blk)).blocks c.blk = some B' ∧
    ctxOf (releaseStart s c.blk (blockElems s c.blk)) c.blk = some x ∧
    (recordCode (releaseStart s c.blk (blockElems s c.blk)) x
      (leNat ((blockSpm (releaseStart s c.blk (blockElems s c.blk)) c.blk).read 64 64)) true = 0 ↔ n = rec1) := by
  obtain h | h := hn <;> subst h
  · have r : blockReleased (mF 0) (curOf .block 5#64) := by unfold blockReleased; decide
    exact ⟨⟨6, true⟩, mF 0, curOf .block 5#64, _, _, _, rfl, by decide, rfl, rfl, by decide, by decide, by decide, by decide, by decide, by decide,
      by decide, r, rfl, rfl, by decide⟩
  · have r : blockReleased (mF rec1) (curOf .block 5#64) := by unfold blockReleased; decide
    exact ⟨⟨6, true⟩, mF rec1, curOf .block 5#64, _, _, _, rfl, by decide, rfl, rfl, by decide, by decide, by decide, by decide, by decide, by decide,
      by decide, r, rfl, rfl, by decide⟩

/-- A world, a kind 6 channel over a ring, a pair that gives W over 4,096 bytes. -/
def world1 : World :=
  { pol := 0, wm := 0, slots := [], cur := 0, retire := none, sk := 0, sks := [], meter := 0, lastMeter := 0, t0 := 0, snap := [], rseq := 0, reqs := 0
    readings := [], bounded := [], dies := [], ending := none }
def ring6 : Chan := ⟨6, 0, 0, 0x100, 64, none⟩
def mM : State :=
  { withG m0 fun G => { G with chans := [(3, ring6)] }.putSPair 2 (rootCap 1 0 0x1FF 0 4096) with worlds := [(0, world1)] }
def cap1 : Cap := rootCap 1 0 0x1FF 0 4096

theorem witness_SpecialRegisters :
    (∃ (a : VDst) (s : State) (c : Cur) (B : Block), s.cur = some c ∧ c.sane ∧ c.empty = false ∧ tget? s.blocks c.blk = some B ∧ s.sandbox = none ∧
      ready? s c [] (.v a) false = none) ∧
    (∃ (s : State) (c : Cur) (B : Block), s.cur = some c ∧ c.lead ∈ c.live ∧ (s.grp? c.blk c.lead).isSome ∧ tget? s.blocks c.blk = some B ∧ s.sandbox = none) ∧
    (∃ (a : RSrc) (s : State) (c : Cur) (W : World), s.cur = some c ∧ c.empty = false ∧ s.sandbox = none ∧ tget? s.worlds (worldOf s c.blk) = some W ∧
      (c.srcPair s a).tag = true ∧ (c.srcPair s a).sealed = false ∧ holds (c.srcPair s a) Perm.w = true ∧ (c.srcPair s a).base ≤ (c.srcPair s a).cur ∧
      (c.srcPair s a).cur + 4096 ≤ (c.srcPair s a).top ∧ (c.srcPair s a).cur % 64 = 0) ∧
    ∃ (ch : BitVec 6) (s : State) (c : Cur) (G : Group) (x : Chan), s.cur = some c ∧ c.empty = false ∧ s.grp? c.blk c.lead = some G ∧
      tget? G.chans ch.toNat = some x ∧ x.kind = 6 :=
  ⟨⟨.reg 63, mL, lane0, _, rfl, sane0.1, by decide, rfl, rfl, by decide⟩, ⟨mG, group1, _, rfl, by decide, by decide, rfl, rfl⟩,
    ⟨⟨2, true⟩, at' mM lane0, lane0, _, rfl, by decide, rfl, rfl, by decide, by decide, by decide, by decide, by decide, by decide⟩,
    3, at' mM lane0, lane0, _, _, rfl, by decide, rfl, rfl, rfl⟩

/-- A traced context: the capture on, a buffer of one page, breakpoint 255 enabled. -/
def mT : State := withC m0 fun x => { x with cap := .on, dbg := BitVec.ofNat 768 (0x40 + 2 ^ 32 + 2 ^ 511) }
set_option maxRecDepth 20000 in
theorem witness_DebugWords :
    (∃ (s : State) (c : Cur), s.cur = some c ∧ c.live.Nodup ∧ quiet s c.blk) ∧
    (∃ (i : Instr) (f : Ctx → Ctx) (s : State) (c : Cur), capForm i = some f ∧ s.cur = some c ∧ c.empty = false ∧ s.sandbox = none) ∧
    (∃ (s : State) (c : Cur), s.cur = some c ∧ ∀ x, ctxOf s c.blk = some x → x.cap ≠ .on) ∧
    (∃ (s : State) (c : Cur) (g : Nat) (B : Block) (x : Ctx) (G : Group), s.cur = some c ∧ c.e = .lane ∧ c.live = [g] ∧ s.sandbox = none ∧
      tget? s.blocks c.blk = some B ∧ tget? s.ctxs B.pasid = some x ∧ s.grp? c.blk g = some G ∧ traced x G = true ∧ x.cap = .on ∧ dbgField x 47 32 ≠ 0) ∧
    (∃ (i : Instr) (n : Nat) (s : State) (c : Cur) (x : Ctx), stopForm i = some n ∧ s.cur = some c ∧ c.empty = false ∧ s.sandbox = none ∧
      ctxOf s c.blk = some x ∧ x.dbg.getLsbD n = true) := by
  have q : quiet mL 2 := fun x hx => by cases hx; decide
  exact ⟨⟨mL, lane0, rfl, by decide, q⟩, ⟨.trctlFreeze .lane, _, mL, lane0, rfl, rfl, by decide, rfl⟩, ⟨mL, lane0, rfl, fun x hx => (q x hx).1⟩,
    ⟨at' mT lane0, lane0, 0, _, _, _, rfl, rfl, by decide, rfl, rfl, rfl, rfl, by decide, rfl, by decide⟩,
    .bkpt .lane 255, _, at' mT lane0, lane0, _, rfl, rfl, by decide, rfl, rfl, by decide⟩

/-- The sources of a privileged word, in s1 to s3; a context that is not the supervisor's. -/
def mV (x y z : DWord) : State := at' (withG m0 fun G => ((G.putS 1 x).putS 2 y).putS 3 z) lane0
def notSup (s : State) : State := withC s fun x => { x with func := 1 }
set_option maxRecDepth 20000 in
theorem witness_PrivilegedWords :
    (∃ (i : Instr) (f : Nat → Nat → Nat → Option State) (s : State) (cu : Cur) (u : State), privForm s i = some ((⟨1, true⟩, ⟨2, false⟩, ⟨3, false⟩), f) ∧
      s.cur = some cu ∧ cu.empty = false ∧ s.sandbox = none ∧ supervisor s (pasidOf s cu.blk) = true ∧
      f (cu.src s ⟨1, true⟩).toNat (cu.src s ⟨2, false⟩).toNat (cu.src s ⟨3, false⟩).toNat = some u) ∧
    (∃ (s : State) (cu : Cur), s.cur = some cu ∧ cu.empty = false ∧ s.sandbox = none ∧ supervisor s (pasidOf s cu.blk) = true ∧
      (cu.src s ⟨1, true⟩).toNat = 63 ∧ (cu.src s ⟨2, true⟩).toNat = 15 ∧ (cu.src s ⟨3, true⟩).toNat = 0) ∧
    (∃ (s : State) (c : Cur) (r : IRef) (j : Issuer) (cl : Clause) (G : Group) (m : Lanes), c.byOne s r j cl G m ∧ supervisor s (pasidOf s c.blk) = false) ∧
    ∃ (s : State) (c : Cur), s.cur = some c ∧ c.e ≠ .lane ∧ c.empty = false ∧ c.sane ∧ (unitGroups s c.blk c.lead c.e).Nodup ∧
      supervisor s (pasidOf s c.blk) = false :=
  ⟨⟨.wtwr ⟨1, true⟩ ⟨2, false⟩ ⟨3, false⟩, _, mV 23 (64 + 0x40 * 256) 7, lane0, _, rfl, rfl, by decide, rfl, by decide, rfl⟩,
    ⟨mV 63 15 0, lane0, rfl, by decide, rfl, by decide, by decide, by decide, by decide⟩,
    ⟨notSup mL, lane0, ref0, group0.stream, clause0, group0, 5#64,
      ⟨rfl, rfl, rfl, rfl, rfl, rfl, by decide, by decide, by decide, by decide, by decide, fun l h => absurd h (by simp [ref0])⟩, by decide⟩,
    notSup mG, group1, rfl, by decide, by decide, sane0.2, by decide, by decide⟩

/-- v4 to v7 of lanes 0 and 2 hold a capability. -/
def mK : State := withG m0 fun G => (G.putQuad 4 0 cap1).putQuad 4 2 cap1
theorem witness_OperationsIssue :
    (∃ (i : Instr) (F : IssueForm) (s : State) (c : Cur), issueForm s c i = some F ∧ s.cur = some c ∧ c.empty = false ∧ c.sane ∧ s.sandbox = none ∧ c.e = .lane ∧
      (tget? s.blocks c.blk).isSome ∧ (∀ x ∈ s.ops, x.2.order < s.nextId) ∧ heldOps s c = [] ∧ ready? s c F.ops F.dest false = none ∧ F.allowed s c ∧
      noneFaulted F s c ∧ inOrder F s c ∧ F.hold = true) ∧
    (∃ (i : Instr) (F : IssueForm) (s : State) (c : Cur), issueForm s c i = some F ∧ s.cur = some c ∧ c.empty = false ∧ c.sane ∧ s.sandbox = none ∧ c.e ≠ .lane ∧
      F.hold = false ∧ (tget? s.blocks c.blk).isSome ∧ (∀ x ∈ s.ops, x.2.order < s.nextId) ∧ heldOps s c = [] ∧ ready? s c F.ops F.dest false = none ∧
      F.allowed s c ∧ entriesFree F s c ∧ noneFaulted F s c ∧ inOrder F s c) := by
  refine ⟨⟨.ldB32 .lane 8 ⟨4, false⟩ (.reg 2 true), _, at' mK lane0, lane0, rfl, rfl, by decide, sane0.1, rfl, rfl, by decide, by decide, by decide,
      by decide, ?_, (fun _ _ _ h => by cases h), (fun _ => by decide), rfl⟩,
    ⟨.ldsB128 .group 60 (.reg 2 false), _, mG, group1, rfl, rfl, by decide, sane0.2, rfl, by decide, rfl, by decide, by decide, by decide, by decide,
      ?_, by unfold entriesFree; decide, (fun _ _ _ h => by cases h), fun _ => by decide⟩⟩
  · intro x hx G hG y hy
    have : ∀ x ∈ readOps (at' mK lane0) lane0 [.r ⟨4, false⟩ 4, .v (.reg 2 true)], ∀ G ∈ (at' mK lane0).grp? 2 x.1, ∀ y ∈ x.2,
      ((ldForm 4 false 8 1 ⟨4, false⟩ (.reg 2 true)).req G y.1 (y.2.map VCell.word)).isSome := by decide
    exact this x hx G hG y hy
  · intro x hx G hG y hy
    have : ∀ x ∈ readOps mG group1 [.v (.reg 2 false)], ∀ G ∈ mG.grp? 2 x.1, ∀ y ∈ x.2,
      ((ldsForm mG group1 16 60 4 (.reg 2 false)).req G y.1 (y.2.map VCell.word)).isSome := by decide
    exact this x hx G hG y hy
def heldLoad : Op := { load1 with wide := some .group, e := .group, dst := some 8, lanes := [{ req0 0 with n := 4, ph := .xlated }, { req0 2 with n := 4, ph := .done }] }
theorem witness_WideIssueHeld :
    (∃ (i : Instr) (F : IssueForm) (s : State) (c : Cur), issueForm s c i = some F ∧ s.cur = some c ∧ c.empty = false ∧ c.sane ∧ s.sandbox = none ∧ c.e ≠ .lane ∧
      F.hold = true ∧ heldOps s c = [] ∧ ready? s c F.ops F.dest false = none ∧ F.allowed s c ∧ entriesFree F s c ∧ noneFaulted F s c) ∧
    ∃ (i : Instr) (F : IssueForm) (s : State) (c : Cur), issueForm s c i = some F ∧ s.cur = some c ∧ c.empty = false ∧ s.sandbox = none ∧ F.hold = true ∧
      heldOps s c ≠ [] ∧ (s.ops.map (·.1)).Nodup ∧
      ∀ x ∈ heldOps s c, x.2.kind = F.kind ∧ x.2.dst.isSome = F.dst.isSome ∧ ∀ q ∈ x.2.lanes, q.ph.passed = true ∧
        (F.kind = .mcast → ∀ y ∈ q.targets, saveBegun s y = false) := by
  refine ⟨⟨.ldB32 .group 8 ⟨4, false⟩ (.reg 2 true), _, at' mK group1, group1, rfl, rfl, by decide, sane0.2, rfl, by decide, rfl, by decide,
      by decide, ?_, by unfold entriesFree; decide, fun _ _ _ h => by cases h⟩,
    .ldB32 .group 8 ⟨4, false⟩ (.reg 2 true), _, { at' mK group1 with ops := [(8, heldLoad)] }, group1, rfl, rfl, by decide, rfl, rfl, by decide,
      by decide, by decide⟩
  intro x hx G hG y hy
  have : ∀ x ∈ readOps (at' mK group1) group1 [.r ⟨4, false⟩ 4, .v (.reg 2 true)], ∀ G ∈ (at' mK group1).grp? 2 x.1, ∀ y ∈ x.2,
    ((ldForm 4 false 8 1 ⟨4, false⟩ (.reg 2 true)).req G y.1 (y.2.map VCell.word)).isSome := by decide
  exact this x hx G hG y hy
theorem witness_ScratchpadStores : ∃ (i : Instr) (n : Nat) (d : Opd) (w : Nat) (b : VSrc) (s : State) (c : Cur), stsForm i = some (n, d, w, b) ∧ s.cur = some c ∧
    c.empty = false ∧ acquiresPending s c.blk c.elems = false ∧ ready? s c [d, .v b] .none false = none ∧
    ∀ e ∈ (readOps s c [d, .v b]).flatMap fun x => x.2.map fun y => (x.1, y.1, y.2.map VCell.word),
      (e.2.2.getD w 0).toNat % n = 0 ∧ (e.2.2.getD w 0).toNat + n ≤ ((tget? s.blocks c.blk).map (·.spmLen)).getD 0 :=
  ⟨.stsB128 .lane ⟨4, false⟩ (.reg 2 true), _, _, _, _, at' (withG m0 fun G => (G.putWord 2 0 0#32).putWord 2 2 4080#32) lane0, lane0, rfl, rfl, by decide,
    by decide, by decide, by decide⟩
theorem witness_CapabilityWords :
    (∃ (i : Instr) (a : BitVec 6) (ops : List Opd) (us : List (RSrc × Nat)) (f : State → Cur → Group → Nat → List Word → Cap) (s : State) (c : Cur),
      quadForm i = some (a, ops, us, f) ∧ s.cur = some c ∧ c.sane ∧ c.empty = false ∧ ready? s c ops (.r a 4) false = none) ∧
    (∃ (a : VDst) (b : RSrc) (s : State) (c : Cur), s.cur = some c ∧ c.empty = false ∧ ready? s c [.r b 4] (.v a) false = none) ∧
    ∃ (a : VDst) (b : VSrc) (s : State) (c : Cur), s.cur = some c ∧ c.empty = false ∧ ready? s c [.v b] (.v a) false = none :=
  ⟨⟨.cseal .lane 60 ⟨4, true⟩ ⟨2, false⟩, _, _, _, _, at' mK lane0, lane0, rfl, rfl, sane0.1, by decide, by decide⟩,
    ⟨.reg 9, ⟨4, true⟩, at' mK lane0, lane0, rfl, by decide, by decide⟩, .reg 9, .reg 4 true, mL, lane0, rfl, by decide, by decide⟩
theorem witness_DerivationIsMonotone : ∃ op v, (derive cap1 op v).tag = true := ⟨.bnd, 4096, by decide⟩
theorem witness_ChannelWords : ∃ (ch : BitVec 6) (b d : RSrc) (s : State) (c : Cur) (G : Group) (x : Chan), s.cur = some c ∧ c.empty = false ∧
    s.grp? c.blk c.lead = some G ∧ chanOf s c.blk G ch.toNat (c.src s b) (c.src s d) = .ok x :=
  ⟨63, ⟨1, false⟩, ⟨2, false⟩, mV (1 + 4064 * 2 ^ 32) 32 0, lane0, _, ⟨1, 0, 0, 4064, 32, none⟩, rfl, by decide, rfl, rfl⟩
theorem witness_ChannelWords_free : ∃ s : State, noneAtChannel s := ⟨mL, noneAtChannel0⟩

/-- A block with slots and tiles claimed, a place of KIND 2 for another core, and the follower's block. -/
def tile0 : Tile := ⟨[], 0⟩
def mQ : State :=
  { mV 0 0 0 with blocks := tset (tmod m0.blocks 2 fun B => { B with slots := [(0, [])], tiles := [(0, tile0)] }) 3
                    { newBlock 1 0 1 1 0 4096 none 0 0 0 none 0 with slots := [(0, [])], tiles := [(0, tile0)] }
                  grids := tmod m0.grids 1 fun g => { g with gngb := 2 } }
set_option maxRecDepth 20000 in
theorem witness_MatrixWords :
    (∃ (s : State) (c : Cur) (u : State) (p : Prop), blockForm s c (.oclaim .lane ⟨1, true⟩ ⟨2, false⟩) = some (u, p) ∧ s.cur = some c ∧ c.empty = false ∧ p) ∧
    (∃ (s : State) (c : Cur) (u : State) (p : Prop), blockForm s c (.orel .lane ⟨1, true⟩ ⟨2, false⟩) = some (u, p) ∧ s.cur = some c ∧ c.empty = false ∧ p) ∧
    (∃ (s : State) (c : Cur) (u : State) (p : Prop), blockForm s c (.accwt .lane 0 0x8001) = some (u, p) ∧ s.cur = some c ∧ c.empty = false ∧ p) ∧
    (∃ (k : TKind) (us : List RSrc) (p : Prop) (s : State) (c : Cur), queueForm s c (.mpair .lane .f8a .f8a ⟨1, false⟩ ⟨2, false⟩ 33 true) = some (k, us, p) ∧
      s.cur = some c ∧ c.sane ∧ c.empty = false ∧ (s.core (homeOf s c.blk)).tileQ.length < 32 ∧ p) ∧
    (∃ (k : TKind) (us : List RSrc) (p : Prop) (s : State) (c : Cur), queueForm s c (.accwr .lane .f32 0 0 ⟨1, false⟩) = some (k, us, p) ∧ s.cur = some c ∧
      c.sane ∧ c.empty = false ∧ (s.core (homeOf s c.blk)).tileQ.length < 32 ∧ p) ∧
    (∃ (k : TKind) (us : List RSrc) (p : Prop) (s : State) (c : Cur), queueForm s c (.accrd .lane .f32 .rz 0 0 ⟨1, false⟩) = some (k, us, p) ∧ s.cur = some c ∧
      c.sane ∧ c.empty = false ∧ (s.core (homeOf s c.blk)).tileQ.length < 32 ∧ p) ∧
    ∃ (s : State) (c : Cur), s.cur = some c ∧ c.empty = false ∧ ¬readsLeft s c :=
  ⟨⟨mV 1 0x8000 0, lane0, _, _, rfl, rfl, by decide, by decide⟩, ⟨mV 1 0x8000 0, lane0, _, _, rfl, rfl, by decide, by decide⟩,
    ⟨mQ, lane0, _, _, rfl, rfl, by decide, _, rfl, by decide⟩,
    ⟨_, _, _, mQ, lane0, rfl, rfl, sane0.1, by decide, by decide, by decide, by decide, by decide, by decide, by decide, by decide, by decide, by decide, by decide⟩,
    ⟨_, _, _, mQ, lane0, rfl, rfl, sane0.1, by decide, by decide, by decide, by decide, by decide, by decide, by decide, by decide⟩,
    ⟨_, _, _, mQ, lane0, rfl, rfl, sane0.1, by decide, by decide, by decide, by decide, by decide, by decide, by decide, by decide, fun G a as h1 h2 => by
      cases h1; cases h2; decide⟩,
    mQ, lane0, rfl, by decide, fun ⟨_, h, _⟩ => absurd h (by simp [mQ, mV, at', withG, m0, mach, State.withFetchWord, State.withClause, State.reset])⟩


/-! ### Witnesses: the hypotheses of each statement about events -/

/-- A context whose object table has 4 entries at 0x1000; object 1 is valid, of every permission, one span whose table is at 0x2000; the
span is homed here at frame 1, so its offset 0 is host address 2^21. -/
def ctxM : Ctx := { ctxOfDesc 0 with otbase := 0x1000, otlen := 4, spu := 12, iw := 1, wt := 1, level := 1, capb := 1 }
def obj1 (gen swg : Nat) : Nat := 1 + gen * 2 ^ 4 + swg * 2 ^ 8 + 0xFFF * 2 ^ 12 + 2 ^ 24 + 2 * 2 ^ 76
def hbm1 (gen swg : Nat) : Ram := (Ram.empty.write 0x1010 (natBytes 16 (obj1 gen swg))).write 0x2000 (natBytes 8 (1 + 2 ^ 21))
def mB : State :=
  { m0 with ctxs := [(0, ctxM)], worlds := [(0, world1)], mem := { m0.mem with hbm := hbm1 0 15 }, ifaces := [(0, { Iface.reset with pasid := some 0 })] }

/-- The group at its first clause, of one word of the `ctl` class, with nothing in issue; the core's counter for world 0 is 1. -/
def mC : State :=
  { mB with
    mem := { mB.mem with hbm := mB.mem.hbm.write (2 ^ 21) (natBytes 4 (plainHeader .ctl 1).toNat ++ natBytes 4 0x04000000) }
    groups := [(64, newGroup (rootCap 1 0 (Perm.x + Perm.r) 0 (2 ^ 25)) [] [] 0)]
    cores := [(0, { Core.reset 0 with dc := [(0, 1)] })]
    dies := [(0, { Die.reset with restored := true })] }
/-- The same once what happens at its clause boundary has happened: the clause is fetched. -/
def mC1 : State := boundaries mC 0
set_option maxRecDepth 20000 in
theorem witness_IssueEvents :
    (∃ core, ∃ (s : State), ∃ o h ws hdr u i G, (s.die (dieOf core)).inService = true ∧ (s.die (dieOf core)).relocking s.reft = false ∧
      boundaries (noteRestored s (dieOf core)) core = s ∧ offers s core = [o] ∧ 0 < tgetD (s.core core).dc o.world 0 ∧
      (unmarked (offered s core o) core o.world).issuer? o.r = some i ∧
      want (unmarked (offered s core o) core o.world) o.r i = .issue h ws hdr u ∧ u.grp? o.r.blk o.r.gidx = some G ∧ G.issuer? o.r.iss = some i) ∧
    (∃ (g : GRef), ∃ (s : State), ∃ G n, s.grp? g.blk g.gidx = some G ∧ G.hold = some (n, false) ∧ n + 256 ≤ s.cycles (dieOf (homeOf s g.blk))) ∧
    ∃ r, ∃ (s : State), ∃ i c e act cls per, s.issuer? r = some i ∧ i.cl = some c ∧ i.wait = .go ∧ engOf (c.hdr.extractLsb' 4 3).toNat = some e ∧
      c.idx ≠ 0 ∧ c.off < c.words.length ∧ executing s r i (wordScope e (c.words.getD c.off 0#32)) = some act ∧
      classOf e (opc (c.words.getD c.off 0#32)) = some (cls, per) ∧ dieOf (homeOf s r.blk) < 24 :=
  ⟨⟨0, mC1, _, _, _, _, _, _, _, by decide, by decide, rfl, rfl, by decide, rfl, rfl, rfl, rfl⟩,
    ⟨⟨2, 0⟩, { withG m0 (fun G => { G with hold := some (0, false) }) with dies := [(0, { Die.reset with cyc := 256000 })] }, _, _, rfl, rfl, by decide⟩,
    ref0, m0, _, _, _, _, _, _, rfl, rfl, rfl, rfl, by decide, by decide, rfl, rfl, by decide⟩

/-- Where no line is recorded, none is poisoned. -/
theorem soundLine (s : State) (h : s.mem.lines = []) (a n : Nat) : badLine s a n = none := by
  unfold badLine; rw [h]; simp [tget?]
theorem soundLines (s : State) (h : s.mem.lines = []) (f a k : Nat) : guestBad s f a k = none := by
  unfold guestBad; split
  · exact List.findSome?_eq_none_iff.mpr fun x _ => soundLine s h x.1 x.2
  · rfl

/-- Launch records as words; the launch with sequence number 9 pends, without and with its completion. -/
def recL (seq dep : Nat) : BitVec 512 := BitVec.ofNat 512 (rec1 + 2 ^ 64 * seq + 2 ^ 96 * dep)
def launch1 (d : Option (Nat × Nat)) : Launch := { launchOf 0 0 (recL 9 0) none with done := d }
def mH (d : Option (Nat × Nat)) : State := { mB with launches := [(5, launch1 d)], energy := { mB.energy with tick := 2 } }
set_option maxRecDepth 20000 in
theorem witness_LaunchRecords :
    (∃ n, ∃ (s : State), (s.iface n).pasid = none) ∧
    (∃ n, ∃ rec : BitVec 512, ∃ (s : State), ∃ p c, (s.iface n).pasid = some p ∧ tget? s.ctxs p = some c ∧ recordCode s c (rec.toNat) false ≠ 0) ∧
    (∃ n, ∃ rec : BitVec 512, ∃ (s : State), ∃ p c, (s.iface n).pasid = some p ∧ tget? s.ctxs p = some c ∧ recordCode s c (rec.toNat) false = 0 ∧
      (pendingSeq s p (rec.extractLsb' 64 32).toNat).isSome) ∧
    (∃ n, ∃ rec : BitVec 512, ∃ (s : State), ∃ p c d, (s.iface n).pasid = some p ∧ tget? s.ctxs p = some c ∧ recordCode s c (rec.toNat) false = 0 ∧
      pendingSeq s p (rec.extractLsb' 64 32).toNat = none ∧ (rec.extractLsb' 96 32).toNat ≠ 0 ∧ (rec.extractLsb' 96 32) ≠ rec.extractLsb' 64 32 ∧
      pendingSeq s p (rec.extractLsb' 96 32).toNat = some d) ∧
    (∃ n, ∃ rec : BitVec 512, ∃ (s : State), ∃ p c, (s.iface n).pasid = some p ∧ tget? s.ctxs p = some c ∧ recordCode s c (rec.toNat) false = 0 ∧
      pendingSeq s p (rec.extractLsb' 64 32).toNat = none ∧
      ((rec.extractLsb' 96 32) = 0#32 ∨ (rec.extractLsb' 96 32) = rec.extractLsb' 64 32 ∨ pendingSeq s p (rec.extractLsb' 96 32).toNat = none) ∧
      (∀ a k, guestBad s c.func a k = none)) ∧
    ∃ p q, ∃ (s : State), ∃ id l code k, (s.launches.find? fun x => x.2.pasid == p && x.2.seq == q) = some (id, l) ∧ tget? s.launches id = some l ∧
      l.done = some (code, k) ∧ l.posted = none ∧ k + 2 ≤ s.energy.tick :=
  ⟨⟨255, mB, rfl⟩, ⟨0, 0#512, mB, _, _, rfl, rfl, by decide⟩, ⟨0, recL 9 0, mH none, _, _, rfl, rfl, by decide, by decide⟩,
    ⟨0, recL 1 9, mH none, _, _, 5, rfl, rfl, by decide, by decide, by decide, by decide, by decide⟩,
    ⟨0, recL 0xFFFFFFFF 3, mH none, _, _, rfl, rfl, by decide, by decide, .inr (.inr (by decide)), fun a k => soundLines (mH none) rfl 0 a k⟩,
    0, 9, mH (some (0, 0)), 5, _, 0, 0, rfl, rfl, rfl, rfl, by decide⟩

/-- A grid of one block, not yet placed, with nothing on the cores; a block with its group, saved under it. -/
def gridM : Grid := { ((m0.grids.head?.map (·.2)).getD Grid.unit) with placed := 0 }
def mP0 : State := { mB with grids := [(1, gridM)], blocks := [], groups := [], ctxs := [(0, { ctxM with savel := 2 ^ 26 })] }
def mP1 (ph : Phase) : State :=
  { withB mB (fun B => { B with phase := ph }) with groups := tmod m0.groups 64 fun G => { G with stream := { G.stream with cl := none } } }
def mP2 : State := { mP1 .resident with grids := tmod m0.grids 1 fun g => { g with rpl := true } }
set_option maxRecDepth 20000 in
theorem witness_PlacementSaveRestore :
    (∃ core, ∃ (s : State), ∃ p gid g c b k base, core < 1536 ∧ choose s core = some (p, .fresh gid, [(b, k, base)]) ∧ tget? s.grids gid = some g ∧
      tget? s.ctxs g.pasid = some c ∧ g.rpl = false ∧ c.sweep = none) ∧
    (∃ b, ∃ (s : State), ∃ B, tget? s.blocks b = some B ∧ B.phase = .saving ∧ midClause s b = false ∧ unsaved s b = false ∧
      (∀ o ∈ s.ops, o.2.blk ≠ b) ∧ (∀ x ∈ s.cores, x.2.wc = [])) ∧
    (∃ b core, ∃ (s : State), ∃ p c B a k base, core < 1536 ∧ choose s core = some (p, .saved a, [(b, k, base)]) ∧ tget? s.blocks b = some B ∧
      tget? s.ctxs B.pasid = some c ∧ c.sweep = none ∧ B.imgHit = false ∧ imageBad s b = none ∧ (∀ x ∈ s.parks, x.2.dispo = none)) ∧
    ∃ b, ∃ (s : State), ∃ B, tget? s.blocks b = some B ∧ B.phase = .resident ∧ checkpointDue s b B = true ∧ dbgHeld s B.pasid = false ∧
      clauseOpen s b = false ∧ unsaved s b = false ∧ stillMerged (drainBlock s b) b = false :=
  ⟨⟨0, mP0, 0, 1, _, _, _, _, _, by decide, rfl, rfl, rfl, rfl, rfl⟩, ⟨2, mP1 .saving, _, rfl, rfl, by decide, by decide, by decide, by decide⟩,
    ⟨2, 1503, mP1 .saved, 0, _, _, 2, _, _, by decide, rfl, rfl, rfl, rfl, rfl, rfl, by decide⟩,
    2, mP2, _, rfl, rfl, by decide, by decide, by decide, by decide, by decide⟩

/-- A bar of the group whose release is done; a child grid of block 2 that has ended; blocks 2 and 3 at a barrier of their gang. -/
def mBar : State := withG m0 fun G => { G with stream := { G.stream with wait := .rel, closed := true, cl := some { clause0 with words := [word 9 1 0 0 0] } } }
def mFork : State :=
  { withB m0 fun B => { B with forkDst := some (63, [0, 31], 7), phase := .forked (some 7) } with
    grids := tset m0.grids 7 { gridM with parent := some 2, placed := 1, exited := 1 } }
def at2 (k : BarKind) (t : Nat) : State :=
  let B := { newBlock 1 0 0 0 0 4096 none 0 0 0 none 0 with barw := some ⟨k, false, []⟩ }
  { m0 with grids := tmod m0.grids 1 fun g => { g with gngb := 2 }, blocks := [(2, B), (3, { B with bidx := 1, ticket := t })] }
set_option maxRecDepth 20000 in
theorem witness_BlockEnds :
    (∃ b, ∃ (s : State), ∃ B, tget? s.blocks b = some B ∧ B.phase = .draining ∧ drained s b = true ∧ dbgHeld s B.pasid = false ∧ B.serves = none ∧ (∀ x ∈ s.blocks, x.2.barw = none)) ∧
    (∃ gid, ∃ (s : State), ∃ g b B, ∃ a : BitVec 6, ∃ gs, tget? s.grids gid = some g ∧ g.parent = some b ∧ tget? s.blocks b = some B ∧
      B.forkDst = some (a, gs, gid) ∧ B.phase = .forked (some gid) ∧ g.ended = true) ∧
    ∃ g : GRef, ∃ (s : State), ∃ G i c rs, s.grp? g.blk g.gidx = some G ∧ G.div = [] ∧ G.stream = i ∧ i.lanes ≠ 0#64 ∧ i.wait = .rel ∧ i.cl = some c ∧ dbgHeld s (pasidOf s g.blk) = false ∧
      c.hdr.extractLsb' 4 3 = 0#3 ∧ opc (c.words.getD c.off 0#32) = 0x09 ∧
      pointOf s ⟨g.blk, g.gidx, 0⟩ i (scopeOf (c.words.getD c.off 0#32)) = some rs ∧
      let cu := mkCur s ⟨g.blk, g.gidx, 0⟩ rs c .ctl (scopeOf (c.words.getD c.off 0#32)) 1
      cu.empty = false ∧ releasesNow { s with cur := some cu } cu :=
  ⟨⟨2, withB m0 fun B => { B with phase := .draining }, _, rfl, rfl, by decide, by decide, rfl, by decide⟩,
    ⟨7, mFork, _, 2, _, _, _, rfl, rfl, rfl, rfl, rfl, by decide⟩,
    ⟨2, 0⟩, mBar, _, _, _, [⟨2, 0, 0⟩], rfl, by decide, rfl, by decide, rfl, rfl, by decide, by decide, by decide, rfl, by decide, by unfold releasesNow; decide⟩
set_option maxRecDepth 20000 in
theorem witness_DebugStopHolds : ∃ (b : Nat) (s : State) (B : Block), tget? s.blocks b = some B ∧ dbgHeld s B.pasid = true :=
  ⟨2, { m0 with ctxs := tmod m0.ctxs 0 fun c => { c with dbgStop := true } }, _, rfl, by decide⟩
set_option maxRecDepth 20000 in
theorem witness_BarrierArrivals (k : BarKind) (h : k = .gang ∨ k = .die) (full same : Bool) (hf : full = true → same = true) :
    ∃ b, ∃ (s : State), ∃ B, ∃ w : BarWait, ∃ i, tget? s.blocks b = some B ∧ B.barw = some w ∧ w.arrived = false ∧ dbgHeld s B.pasid = false ∧
    ((i = Instr.gangBarrierArrival b ∧ (w.kind = .gang ∨ w.kind = .grid)) ∨
      (i = .sstepArrival b ∧ (w.kind = .cluster ∨ w.kind = .die) ∧ sstepMixed s B w.kind = false ∧
        ∀ o ∈ s.ops, o.2.blk = b → o.2.kind ≠ .put ∧ o.2.kind ≠ .get)) ∧
    ticketOk s B w.kind = same ∧
    ((barMembers (s.modBlock b fun B => { B with barw := some { w with arrived := true } }) B w.kind).all fun x =>
      x.2.barw.any fun v => v.arrived && v.kind == w.kind) = full := by
  let solo (k : BarKind) : State := { at2 k 0 with blocks := (at2 k 0).blocks.take 1 }
  let die1 : State := { at2 .die 0 with blocks := tmod (at2 .die 0).blocks 3 fun B => { B with dieTicket := 1 } }
  obtain h | h := h <;> subst h <;> cases full <;> cases same
  · exact ⟨2, at2 .gang 1, _, _, _, rfl, rfl, rfl, by decide, .inl ⟨rfl, .inl rfl⟩, by decide, by decide⟩
  · exact ⟨2, at2 .gang 0, _, _, _, rfl, rfl, rfl, by decide, .inl ⟨rfl, .inl rfl⟩, by decide, by decide⟩
  · cases hf rfl
  · exact ⟨2, solo .gang, _, _, _, rfl, rfl, rfl, by decide, .inl ⟨rfl, .inl rfl⟩, by decide, by decide⟩
  · exact ⟨2, die1, _, _, _, rfl, rfl, rfl, by decide, .inr ⟨rfl, .inr rfl, by decide, by decide⟩, by decide, by decide⟩
  · exact ⟨2, at2 .die 0, _, _, _, rfl, rfl, rfl, by decide, .inr ⟨rfl, .inr rfl, by decide, by decide⟩, by decide, by decide⟩
  · cases hf rfl
  · exact ⟨2, solo .die, _, _, _, rfl, rfl, rfl, by decide, .inr ⟨rfl, .inr rfl, by decide, by decide⟩, by decide, by decide⟩

/-- One outstanding operation, of lane 0 and lane 63; its request's phase and part. -/
def opM (k : OpKind) (q : LReq) : Op := { load1 with kind := k, lanes := [q] }
def mO (k : OpKind) (q : LReq) : State := { mB with ops := [(8, opM k q)], nextId := 10 }
def reqM (ph : Ph) (n h : Nat) : LReq := { req0 63 with ph, n, data := 0xA5, parts := [(h, n, 0)] }
set_option maxRecDepth 20000 in
theorem witness_StoresAtHome : (∃ op lane, ∃ (s : State), ∃ o q n h n' mt, tget? s.ops op = some o ∧ o.kind = .store n ∧ o.req? lane = some q ∧ q.ph = .xlated ∧
      blockOn s o.blk = true ∧ mayPerform s o q = true ∧ isMerged s o.core op lane = false ∧ q.probe = false ∧ q.parts = [(h, n', mt)] ∧ mt ≠ 1 ∧ mt < 4 ∧
      n' = q.n ∧ 1 ≤ q.n) ∧
    ∃ op lane, ∃ (s : State), ∃ o q h n' mt, tget? s.ops op = some o ∧ o.kind = .storeCap ∧ q.n = 16 ∧ h % 16 = 0 ∧ o.req? lane = some q ∧ q.ph = .xlated ∧
      blockOn s o.blk = true ∧ mayPerform s o q = true ∧ isMerged s o.core op lane = false ∧ q.probe = false ∧ q.parts = [(h, n', mt)] ∧ mt ≠ 1 ∧ mt < 4 ∧ n' = q.n :=
  ⟨⟨8, 63, mO (.store 8) (reqM .xlated 8 (2 ^ 21 + 2 ^ 12 - 4)), _, _, _, _, _, _, rfl, rfl, rfl, rfl, by decide, by decide, by decide, rfl, rfl, by decide,
      by decide, rfl, by decide⟩,
    8, 63, mO .storeCap { reqM .xlated 16 (2 ^ 22 - 16) with tag := true }, _, _, _, _, _, rfl, rfl, rfl, by decide, rfl, rfl, by decide, by decide, by decide,
      rfl, rfl, by decide, by decide, rfl⟩
/-- A line of 62 bytes merged already, and a store of its last byte but one. -/
def mWc : State :=
  { mO (.store 1) { reqM .xlated 1 (2 ^ 21 + 62) with parts := [(2 ^ 21 + 62, 1, 1)] } with
    cores := [(0, { Core.reset 0 with wc := [(2 ^ 15, ⟨0, (List.range 62).map fun i => (i, 7#8), [], []⟩)] })] }
set_option maxRecDepth 20000 in
theorem witness_StoresMerge : ∃ op lane, ∃ (s : State), ∃ o q n h, tget? s.ops op = some o ∧ o.kind = .store n ∧ o.req? lane = some q ∧ q.ph = .xlated ∧
    blockOn s o.blk = true ∧ mayPerform s o q = true ∧ isMerged s o.core op lane = false ∧ q.parts = [(h, q.n, 1)] ∧ 1 ≤ q.n ∧ h % 64 + q.n ≤ 64 ∧
    (((tget? (s.core o.core).wc (h / 64)).map (·.bytes.length)).getD 0) + q.n < 64 :=
  ⟨8, 63, mWc, _, _, _, _, rfl, rfl, rfl, rfl, by decide, by decide, by decide, rfl, by decide, by decide, by decide⟩
set_option maxRecDepth 20000 in
theorem witness_roomy : roomy mB := fun d => by
  have h : ∀ d, mB.die d = Die.reset := fun d => rfl
  rw [h]; decide
set_option maxRecDepth 20000 in
theorem witness_LoadsRead : ∃ op lane, ∃ (s : State), ∃ o q n sg h n' mt, tget? s.ops op = some o ∧ o.kind = .load n sg ∧ o.req? lane = some q ∧ q.ph = .xlated ∧
    blockOn s o.blk = true ∧ mayPerform s o q = true ∧ q.parts = [(h, n', mt)] ∧ mt ≠ 1 ∧ mt < 4 ∧ badLine s h n' = none :=
  ⟨8, 63, mO (.load 1 true) (reqM .xlated 1 (2 ^ 22 - 1)), _, _, _, _, _, _, _, rfl, rfl, rfl, rfl, by decide, by decide, rfl, by decide, by decide, by decide⟩
set_option maxRecDepth 20000 in
theorem witness_AtomicsPerform (k : Nat) (ty : Ty) : ∃ op lane, ∃ (s : State), ∃ o q ord h n mt, tget? s.ops op = some o ∧ o.kind = .atomic k ty ord ∧ ord ≠ .rel ∧ ord ≠ .ar ∧
    o.req? lane = some q ∧ q.parts = [(h, n, mt)] ∧ mt ≠ 1 ∧ mt < 4 ∧ n = q.n ∧ 1 ≤ q.n ∧ atomicsTo s o (h / 4) = [(op, lane)] ∧ mayPerform s o q = true ∧ blockOn s o.blk = true ∧
    (∀ x ∈ s.ops, x.2.order = o.order → x.2.blk = o.blk → ∀ p ∈ x.2.lanes, p.ph ≠ .sent ∧ ∀ k, p.ph ≠ .retry k) ∧ badLine s h q.n = none :=
  ⟨8, 63, mO (.atomic k ty .acq) (reqM .xlated 4 (2 ^ 21)), _, _, _, _, _, _, rfl, rfl, by decide, by decide, rfl, rfl, by decide, by decide, rfl, by decide, rfl, rfl, rfl,
    fun x hx => by simp [mO] at hx; subst hx; simp [opM, reqM], rfl⟩
set_option maxRecDepth 20000 in
theorem witness_LoadsArrive : ∃ op, ∃ (s : State), ∃ o σ G, tget? s.ops op = some o ∧ o.kind.returns = true ∧ arrivable o = true ∧ (∀ q ∈ o.lanes, q.got = []) ∧ o.syms = [σ] ∧
    (s.die (dieOf o.core)).relocking s.reft = false ∧ (∀ q ∈ o.doneLanes, q.vtag = false) ∧ (∀ q ∈ o.lanes, q.probe = false) ∧ (o.lanes.map (·.lane)).Nodup ∧ s.grp? o.blk o.gidx = some G ∧
    ∃ q ∈ o.doneLanes, ∃ r a b, G.cell r q.lane = some (.aff σ a b) :=
  ⟨8, { mO (.load 4 false) (reqM .done 4 (2 ^ 21)) with groups := tmod m0.groups 64 fun G => G.setCell 4 63 (.aff 9 3#32 1#32) }, _, _, _, rfl, rfl, by decide, by decide, rfl, by decide,
    by decide, by decide, by decide, rfl, reqM .done 4 (2 ^ 21), by decide, 4, 3#32, 1#32, by decide⟩

/-- An outstanding reading at offset 0 of the object. -/
def read1 : Reading := ⟨1, 0, cap1, 5, 0, 0, [], [], [], [], 0#512, none⟩
set_option maxRecDepth 20000 in
theorem witness_MemoryEvents :
    (∃ core line, ∃ (s : State), ∃ w, tget? (s.core core).wc line = some w ∧ w.time + 1000 ≤ s.reft ∧ (w.bytes.map (·.1)).Nodup ∧
      (∀ x ∈ s.ops, ∀ q ∈ x.2.lanes, q.probe = false) ∧ (w.tags = [] ∨ s.mem.images = []) ∧ relockWait s core [(64 * line, 64, 1)] = false ∧
      (∀ i ∈ w.tags, i < 4)) ∧
    (∃ s : State, s.reft % 250 = 0) ∧ (∃ s : State, 120 ≤ s.reft % 250 ∧ (∀ d, (s.die d).wsBad = [])) ∧
    (∃ op lane, ∃ (s : State), ∃ o q k r T, tget? s.ops op = some o ∧ o.req? lane = some q ∧ q.probe = false ∧ o.kind = .put ∧ windowTurn s o q = true ∧
      relockWait s o.core [] = false ∧ q.targets = k :: r ∧ tget? s.blocks k = some T) ∧
    (∃ op lane, ∃ (s : State), ∃ o q k r B, tget? s.ops op = some o ∧ o.req? lane = some q ∧ q.probe = false ∧ o.kind = .get ∧ q.targets = k :: r ∧
      relockWait s o.core [] = false ∧ tget? s.blocks o.blk = some B) ∧
    (∃ op lane, ∃ (s : State), ∃ o q, tget? s.ops op = some o ∧ o.req? lane = some q ∧ q.ph = .remote ∧ q.sent + 1000000 ≤ s.reft ∧
      orphanLate s (.op op) lane = none) ∧
    (∃ r, ∃ (s : State), ∃ i n a ks, s.issuer? r = some i ∧ i.wait = .code n a ks ∧ n + 1000000 ≤ s.reft ∧ orphanLate s (.code r.blk r.gidx) r.iss = none) ∧
    (∃ w, ∃ (s : State), ∃ W r rest n ks ps, tget? s.worlds w = some W ∧ W.readings = r :: rest ∧ r.sent = some (n, ks, ps) ∧ n + 1000000 ≤ s.reft ∧
      orphanLate s .meter w = none) ∧
    (∃ k, ∃ (s : State), ∃ w n ks ps, tget? s.wscopies k = some w ∧ w.sent = some (n, ks, ps) ∧ n + 1000000 ≤ s.reft ∧ orphanLate s .wscopy k = none) ∧
    (∃ a n, ∃ (s : State), ∃ x, orphanLate s a n = some x) ∧
    (∃ port queue pasid, ∃ (s : State), ∃ q, tget? s.fqs (fqKey port queue) = some q ∧ (tget? s.ctxs pasid).isSome ∧ q.bound = some pasid ∧ port < 8 ∧ queue < 256) ∧
    (∃ port queue pasid, ∃ (s : State), (tget? s.ctxs pasid = none ∨ (tgetD s.fqs (fqKey port queue) FQueue.reset).bound ≠ some pasid) ∧ port < 8 ∧ queue < 256) ∧
    (∃ op lane, ∃ (s : State), ∃ o q n sg h mt, tget? s.ops op = some o ∧ o.req? lane = some q ∧ q.ph = .remote ∧ o.kind = .load n sg ∧ o.wide = none ∧
      q.parts = [(h, q.n, mt)] ∧ 4 ≤ mt ∧ isOrphan s (.op op) lane = false ∧ relockWait s o.core q.parts = false) ∧
    ∃ pasid, ∃ (s : State), tget? s.ctxs pasid = none :=
  ⟨⟨0, 2 ^ 15, { m0 with reft := 1000, cores := [(0, { Core.reset 0 with wc := [(2 ^ 15, ⟨0, [(0, 7#8), (63, 9#8)], [3], []⟩)] })] }, _, rfl, by decide, by decide,
      by decide, .inr rfl, by decide, by decide⟩,
    ⟨{ m0 with reft := 7750 }, by decide⟩, ⟨{ m0 with reft := 120 }, by decide, fun d => rfl⟩,
    ⟨8, 63, mO .put { reqM .sent 4 0 with x2 := 60, targets := [2] }, _, _, 2, _, _, rfl, rfl, rfl, rfl, rfl, by decide, rfl, rfl⟩,
    ⟨8, 63, mO .get { reqM .sent 4 0 with x := 60, targets := [2] }, _, _, 2, _, _, rfl, rfl, rfl, rfl, rfl, by decide, rfl⟩,
    ⟨8, 63, { mO (.load 4 false) { reqM .remote 4 0 with sent := 5 } with reft := 1000005 }, _, _, rfl, rfl, rfl, by decide, by decide⟩,
    ⟨ref0, { withG m0 (fun G => { G with stream := { G.stream with wait := .code 5 0 0 } }) with reft := 1000005 }, _, _, _, _, rfl, rfl, by decide, by decide⟩,
    ⟨0, { mB with reft := 1000005, worlds := [(0, { world1 with readings := [{ read1 with sent := some (5, 0, []) }] })] }, _, _, _, _, _, _, rfl, rfl, rfl,
      by decide, by decide⟩,
    ⟨9, { mB with reft := 1000005, wscopies := [(9, ⟨⟨0, 1⟩, 0, 1, 0, 23, 0, 64, some (5, 0, [])⟩)] }, _, _, _, _, rfl, rfl, by decide, by decide⟩,
    ⟨.op 8, 63, { mB with reft := 1000005, orphans := [⟨.op 8, 63, some 0, 0, 0, 5⟩] }, _, rfl⟩,
    ⟨7, 255, 0, { mB with fqs := [(fqKey 7 255, { FQueue.reset with bound := some 0 })] }, _, rfl, rfl, rfl, by decide, by decide⟩,
    ⟨0, 0, 0, mB, .inr (by decide), by decide, by decide⟩,
    ⟨8, 63, mO (.load 8 false) { reqM .remote 8 0 with parts := [(0, 8, 4)] }, _, _, _, _, _, _, rfl, rfl, rfl, rfl, rfl, rfl, by decide, by decide, by decide⟩,
    1, mB, rfl⟩

/-- A copy of 68 bytes between the object and the scratchpad at 0xF40 (or, for `cpy`, the object's offset 0xF40), by lane 63. -/
def reqCp (todo : List Nat) : LReq := { reqM .sent 68 0 with parts := [], cap := cap1, cap2 := cap1, x := 0, x2 := 0xF40, todo }
/-- `cpys.out` of the same bytes. -/
def reqOut : LReq := { reqCp [0, 1] with x := 0xF40, x2 := 0 }
/-- An oload by lane 63, of memory or of the scratchpad, with block 127 to read. -/
def reqOl (spm : Bool) (x : Nat) : LReq := { reqM .sent 64 0 with parts := [], cap := cap1, x, tag := spm, todo := [127] }
set_option maxRecDepth 20000 in
theorem due1 (k : OpKind) (q : LReq) (part : Nat) (h : (k = .cpysIn ∨ k = .mcast) ∧ q = { reqCp [0, 1] with targets := [2] } ∧ part = 1 ∨
    (k = .cpy ∧ q = reqCp [0, 1] ∨ k = .cpysOut ∧ q = reqOut) ∧ part = 1 ∨ k = .oload ∧ (∃ t, q = reqOl t 0) ∧ part = 127) :
    partDue (mO k q) 8 63 part false (opM k q) q := by
  rcases h with ⟨h | h, h', h''⟩ | ⟨⟨h, h'⟩ | ⟨h, h'⟩, h''⟩ | ⟨h, ⟨t, h'⟩, h''⟩ <;> (subst h; subst h'; subst h''; try cases t) <;>
    refine ⟨rfl, rfl, rfl, by decide, rfl, rfl, by decide, by decide, by decide, by decide, by decide, by decide, rfl, rfl, fun c hc => ?_⟩ <;>
    (cases hc; decide)
set_option maxRecDepth 20000 in
theorem witness_CopyEvents :
    (∀ k, k = OpKind.cpysIn ∨ k = .mcast → ∃ op lane part cached, ∃ (s u : State), ∃ o q bs tag, partDue s op lane part cached o q ∧ o.kind = k ∧ 64 * part < q.n ∧
      partSource s u o q part cached bs tag) ∧
    (∀ k, k = OpKind.cpy ∨ k = .cpysOut → ∃ op lane part cached, ∃ (s u v : State), ∃ o q bs tag h mt, partDue s op lane part cached o q ∧ o.kind = k ∧ 64 * part < q.n ∧
      partSource s u o q part cached bs tag ∧
      translate u (dieOf o.core) (pasidOf s o.blk) q.cap2 (q.x2 + (partRange o.kind q part).1) (partRange o.kind q part).2 true cached =
        .ok [(h, (partRange o.kind q part).2, mt)] v ∧ h % 16 = (q.x2 + (partRange o.kind q part).1) % 16 ∧
      ∀ c ∈ s.ctxs, c.2.func = 0 ∨ h + (partRange o.kind q part).2 ≤ (s.func c.2.func).s2 ∨ (s.func c.2.func).s2 + 2 ^ 30 ≤ h) ∧
    (∀ spm : Bool, ∃ op lane part cached, ∃ (s u : State), ∃ o q bs tag, partDue s op lane part cached o q ∧ o.kind = .oload ∧ q.tag = spm ∧
      (q.tag = false ∧ memSource s u o q.cap (blockAt o q part) 64 cached bs tag ∨
        q.tag = true ∧ bs = racedWords s o.blk (blockAt o q part) 16 (o.lanes.map fun r => 64 * o.gidx + r.lane) s.free)) ∧
    (∃ op lane, ∃ (s : State), ∃ o q G, tget? s.ops op = some o ∧ o.kind.isCopy = true ∧ o.req? lane = some q ∧ q.ph = .sent ∧ q.todo = [] ∧ o.wide = none ∧
      s.grp? o.blk o.gidx = some G ∧ (∀ c ∈ G.chans, c.2.kind ≠ 4) ∧ G.exited = 0#64) ∧
    ∃ op, ∃ (s : State), ∃ o q B, tget? s.ops op = some o ∧ o.kind = .oload ∧ o.wide = none ∧ (∀ p ∈ o.lanes, p.ph = .done ∧ p.todo = []) ∧
      o.lanes.find? (fun p => decide (p.val ≠ 0)) = some q ∧ tget? s.blocks o.blk = some B ∧ (tget? B.slots o.slot).isSome ∧
      (o.lanes.map (·.lane)).Nodup ∧ 63 ∈ o.lanes.map (·.lane) :=
  ⟨fun k h => by
      obtain h | h := h <;> subst h
      · exact ⟨8, 63, 1, false, mO .cpysIn { reqCp [0, 1] with targets := [2] }, _, _, _, _, _, due1 _ _ _ (.inl ⟨.inl rfl, rfl, rfl⟩), rfl, by decide,
          _, rfl, by decide, rfl, fun _ => rfl⟩
      · exact ⟨8, 63, 1, false, mO .mcast { reqCp [0, 1] with targets := [2] }, _, _, _, _, _, due1 _ _ _ (.inl ⟨.inr rfl, rfl, rfl⟩), rfl, by decide,
          _, rfl, by decide, rfl, fun _ => rfl⟩,
    fun k h => by
      obtain h | h := h <;> subst h
      · exact ⟨8, 63, 1, false, mO .cpy (reqCp [0, 1]), _, _, _, _, _, _, _, _, due1 _ _ _ (.inr (.inl ⟨.inl ⟨rfl, rfl⟩, rfl⟩)), rfl, by decide,
          ⟨_, rfl, by decide, rfl, fun _ => rfl⟩, rfl, by decide, by decide⟩
      · exact ⟨8, 63, 1, false, mO .cpysOut reqOut, _, _, _, _, _, _, _, _, due1 _ _ _ (.inr (.inl ⟨.inr ⟨rfl, rfl⟩, rfl⟩)), rfl, by decide,
          ⟨rfl, rfl, fun _ => rfl⟩, rfl, by decide, by decide⟩,
    fun spm => by
      cases spm
      · exact ⟨8, 63, 127, false, mO .oload (reqOl false 0), _, _, _, _, _, due1 _ _ _ (.inr (.inr ⟨rfl, ⟨_, rfl⟩, rfl⟩)), rfl, rfl,
          .inl ⟨rfl, _, rfl, by decide, rfl, fun _ => rfl⟩⟩
      · exact ⟨8, 63, 127, false, mO .oload (reqOl true 0), mB, _, _, _, fun _ => false, due1 _ _ _ (.inr (.inr ⟨rfl, ⟨_, rfl⟩, rfl⟩)), rfl, rfl, .inr ⟨rfl, rfl⟩⟩,
    ⟨8, 63, mO .mcast (reqCp []), _, _, _, rfl, rfl, rfl, rfl, rfl, rfl, rfl, by decide, by decide⟩,
    8, withB (mO .oload { reqM .done 64 0 with val := 5 }) fun B => { B with slots := [(0, [])] }, _, _, _, rfl, rfl, rfl, by decide, rfl, rfl, rfl, by decide, by decide⟩

/-- A tile operation, running; tile 3 of block 2, and of block 3 on core 1; a queue of core 0. -/
def topM (k : TKind) (run : Bool) : TOp := ⟨k, 2, 0, [(0, 1#64)], run, false, [], 0, 4, []⟩
def pairK : TKind := .mpair 0 1 2 3 0 7 7 true .f8a .f4 3
def mTile (k : TKind) (run : Bool) : State :=
  let B := { newBlock 1 0 0 0 0 4096 none 0 0 0 none 0 with tiles := [(3, ⟨[], 7#16⟩)] }
  { mB with blocks := [(2, B), (3, { B with bidx := 1, home := 1 })], tops := [(8, topM k run)], nextId := 10
            cores := [(0, { Core.reset 0 with tileQ := [8] })], dies := [(0, { Die.reset with cyc := 62000 })] }
set_option maxRecDepth 20000 in
theorem witness_TileEvents :
    (∃ core, ∃ (s : State), ∃ id t, nextTile s core = some (id, t)) ∧
    (∃ id, ∃ (s : State), ∃ t as bs fbs tl e vl vf acc ta tb fol X Y, tget? s.tops id = some t ∧ t.kind = .mpair as bs fbs tl e vl vf acc ta tb fol ∧
      t.running = true ∧ t.unfencedNow s = false ∧ t.sides = [] ∧ t.start + 62 ≤ s.cycles (dieOf (homeOf s t.blk)) ∧ (s.die (dieOf (homeOf s t.blk))).relocking s.reft = false ∧ fol ≠ t.blk ∧ tileOf s t.blk tl = some X ∧
      tileOf s fol tl = some Y) ∧
    (∃ id, ∃ (s : State), ∃ t tl ver X, tget? s.tops id = some t ∧ t.running = true ∧ t.kind = .accclr tl ver ∧ tileOf s t.blk tl = some X ∧
      (s.die (dieOf (homeOf s t.blk))).relocking s.reft = false) ∧
    (∃ id, ∃ (s : State), ∃ t tl ver row col w ty X G, tget? s.tops id = some t ∧ t.running = true ∧ t.unfencedNow s = false ∧
      t.kind = .accwr tl ver row col w ty ∧ (viewOf w).valid = true ∧ tileOf s t.blk tl = some X ∧ s.grp? t.blk t.gidx = some G ∧ viewDirty s t.blk t.gidx w = false ∧
      (∀ r < (viewOf w).rows, ∀ c < (viewOf w).cols, viewWaits G ((viewOf w).at r c) (viewOf w).size = false) ∧
      col + (viewOf w).cols ≤ 64 ∧ (s.die (dieOf (homeOf s t.blk))).relocking s.reft = false) ∧
    ∃ id, ∃ (s : State), ∃ t tl ver row col w ty m X G, tget? s.tops id = some t ∧ t.running = true ∧ t.unfencedNow s = false ∧ t.kind = .accrd tl ver row col w ty m ∧
      (viewOf w).valid = true ∧ tileOf s t.blk tl = some X ∧ s.grp? t.blk t.gidx = some G ∧
      partPend s t = [] ∧ (s.die (dieOf (homeOf s t.blk))).relocking s.reft = false :=
  ⟨⟨0, mTile pairK false, 8, _, rfl⟩,
    ⟨8, mTile pairK true, _, _, _, _, _, _, _, _, _, _, _, _, _, _, rfl, rfl, rfl, rfl, rfl, by decide, by decide, by decide, rfl, rfl⟩,
    ⟨8, mTile (.accclr 3 7) true, _, _, _, _, rfl, rfl, rfl, rfl, by decide⟩,
    ⟨8, mTile (.accwr 3 7 63 63 0#64 .f32) true, _, _, _, _, _, _, _, _, _, rfl, rfl, rfl, rfl, by decide, rfl, rfl, by decide, by decide, by decide, by decide⟩,
    8, mTile (.accrd 3 7 63 63 (256#64) .f32 .rz) true, _, _, _, _, _, _, _, _, _, _, rfl, rfl, rfl, rfl, by decide, rfl, rfl, by decide, by decide⟩

theorem witness_CommandsRefused :
    (∃ i q, ∃ (s : State), pfCmd i = some q ∧ (s.iface q.iface).func ≠ 0) ∧
    ∃ i q, ∃ (s : State), ctxCmd i = some q ∧ (pfCmd i = none ∨ (s.iface q.iface).func = 0) ∧ ((s.iface q.iface).pasid.bind fun p => tget? s.ctxs p) = none :=
  ⟨⟨.qtrd ⟨255, 1⟩ 0 0, _, { m0 with ifaces := [(255, { Iface.reset with func := 63 })] }, rfl, by decide⟩,
    .retry ⟨0, 1⟩ 0, _, m0, rfl, .inl rfl, rfl⟩

def cmd1 : Cmd := ⟨0, 0xFFFFFFFF#32⟩
theorem acts1 : actsOn mB cmd1 0 ctxM := ⟨rfl, rfl⟩
set_option maxRecDepth 20000 in
theorem witness_RevocationEvents :
    (∃ (q : Cmd) (o i g : DWord) (s : State) (p : Nat) (c : Ctx), actsOn s q p c ∧ o.toNat < 2 ^ 28 ∧ i.toNat < 2 ^ 19 ∧ g.toNat < 2 ^ 27) ∧
    (∃ n, ∃ (s : State), ∃ v, tget? s.invals n = some v ∧ inFlight s (v.uses s) = false) ∧
    (∃ (q : Cmd) (o : DWord) (s : State), ∃ p c e, actsOn s q p c ∧ o.toNat < c.otlen ∧ objectEntry s c o.toNat = .ok e ∧ objV e = true ∧
      (objGen e + 1) % 16 = objSwg e) ∧
    (∃ (q : Cmd) (o : DWord) (s : State), ∃ p c e, actsOn s q p c ∧ o.toNat < c.otlen ∧ objectEntry s c o.toNat = .ok e ∧ objV e = true ∧
      (objGen e + 1) % 16 ≠ objSwg e ∧ c.func = 0 ∧ c.otbase % 16 = 0 ∧ s.mem.images = [] ∧
      ∀ w, tget? s.mem.owner ((c.otbase + 16 * o.toNat) / 2 ^ 21) = some w → w = c.world) ∧
    (∃ n, ∃ (s : State), ∃ r c e, tget? s.revs n = some r ∧ r.held = true ∧ tget? s.ctxs r.pasid = some c ∧ objectEntry s c r.obn = .ok e ∧ objV e = true ∧
      (objGen e + 1) % 16 ≠ objSwg e) ∧
    ∀ q : Option Cmd, ∃ n, ∃ (s : State), ∃ r c, tget? s.revs n = some r ∧ r.cmd = q ∧ r.held = false ∧ tget? s.ctxs r.pasid = some c ∧
      inFlight s (fun p q => p == r.pasid && q.cap.obn == r.obn && q.cap.ogen == r.gen) = false :=
  ⟨⟨cmd1, 0xFFFFFFF#64, 0x7FFFF#64, 0x7FFFFFF#64, mB, 0, ctxM, acts1, by decide, by decide, by decide⟩,
    ⟨9, { mB with invals := [(9, ⟨cmd1, 0, 0, some 1, some 0, none⟩)] }, _, rfl, by decide⟩,
    ⟨cmd1, 1, { mB with mem := { mB.mem with hbm := hbm1 15 0 } }, 0, ctxM, obj1 15 0, ⟨rfl, rfl⟩, by decide, by decide, by decide, by decide⟩,
    ⟨cmd1, 1, { mB with mem := { mB.mem with hbm := hbm1 15 15 } }, 0, ctxM, obj1 15 15, ⟨rfl, rfl⟩, by decide, by decide, by decide, by decide, rfl, by decide, rfl, fun w h => by cases h⟩,
    ⟨9, { mB with revs := [(9, ⟨some cmd1, 0, 1, true, 0⟩)] }, _, ctxM, obj1 0 15, rfl, rfl, rfl, by decide, by decide, by decide⟩,
    fun q => ⟨9, { mB with revs := [(9, ⟨q, 0, 1, false, 0⟩)] }, _, ctxM, rfl, rfl, rfl, rfl, rfl⟩⟩

set_option maxRecDepth 20000 in
theorem witness_SweepsAndMoves :
    (∃ g : GRef, ∃ (s : State), ∃ G w, s.grp? g.blk g.gidx = some G ∧ ((tget? s.ctxs (pasidOf s g.blk)).bind (·.sweep)) = some w ∧ gkey g.blk g.gidx ∈ w.groups ∧
      (∀ k ∈ G.issuers, ((G.issuer? k).bind (·.cl)) = none)) ∧
    (∃ p, ∃ (s : State), ∃ c w, tget? s.ctxs p = some c ∧ c.sweep = some w ∧ w.groups = [] ∧ ∃ b B g G, tget? s.blocks b = some B ∧ B.pasid = p ∧
      B.phase.onCore = false ∧ g < 32 ∧ s.grp? b g = some G) ∧
    (∃ (x : SpanRef), ∃ (s : State), ∃ p c o e, (spanSt s (spanKey x.pasid x.obn x.idx)).moving = some p ∧ tget? s.ctxs x.pasid = some c ∧
      objectEntry s c x.obn = .ok o ∧ spanEntry s c o x.idx = .ok e ∧ (p = Config.packageId.toNat ∨
        inFlight s (fun w r => w == x.pasid && r.cap.obn == x.obn && r.inSpan x.idx && r.parts.any fun p => !farPart p) = false) ∧
      ∃ h k, tget? s.parks h = some k ∧ k.pasid = x.pasid ∧ k.code = Code.spanMigrating ∧ recHeld s h = false ∧
        ((waitsOn s h k).any fun r => r.cap.obn == x.obn && r.inSpan x.idx) = true) ∧
    ∃ (x : SpanRef), ∃ (s : State), (spanSt s (spanKey x.pasid x.obn x.idx)).settled ≠ 0 ∧ (spanSt s (spanKey x.pasid x.obn x.idx)).settled ≤ s.reft :=
  ⟨⟨⟨2, 0⟩, { mC with ctxs := [(0, { ctxM with sweep := some ⟨[(1, 0)], [64]⟩ })] }, _, _, rfl, rfl, by decide, by decide⟩,
    ⟨0, { mP1 .saved with ctxs := [(0, { ctxM with sweep := some ⟨[(1, 0)], []⟩ })] }, _, _, rfl, rfl, rfl, 2, _, 0, _, rfl, rfl, by decide, by decide, rfl⟩,
    ⟨⟨0, 1, 0⟩, { mO (.load 4 false) { reqM (.retry 0x80) 4 0 with cap := cap1 } with
        mem := { mB.mem with spans := [(spanKey 0 1 0, ⟨some 3, [], 0⟩)] }, parks := [(0x80, ⟨Code.spanMigrating, 0, .request 8 63, [], [], false, false, none⟩)] }, 3, ctxM, obj1 0 15, 1 + 2 ^ 21, by decide, rfl, by decide,
      by decide, .inr (by decide), 0x80, _, rfl, rfl, rfl, by decide, by decide⟩,
    ⟨0, 1, 0⟩, { mB with reft := 64000000, mem := { mB.mem with spans := [(spanKey 0 1 0, ⟨none, [], 64000000⟩)] } }, by decide, by decide⟩

set_option maxRecDepth 20000 in
theorem witness_TrustEvents :
    (∃ (q : Cmd) (w : DWord) (s : State), (s.iface q.iface).func = 0 ∧ 0 < w.toNat ∧ w.toNat < 64 ∧ tget? s.worlds w.toNat = none ∧
      (∀ f ∈ framesOf s w.toNat, f ∉ s.mem.scrubQ)) ∧
    (∃ (q : Cmd) (w : DWord) (s : State), ∃ W, (s.iface q.iface).func = 0 ∧ 0 < w.toNat ∧ w.toNat < 64 ∧ tget? s.worlds w.toNat = some W ∧ W.ending = none ∧
      (∀ c ∈ s.ctxs, c.2.world ≠ w.toNat) ∧ framesOf s w.toNat ≠ []) ∧
    (∃ w, ∃ (s : State), ∃ W n seq, tget? s.worlds w = some W ∧ W.ending = some (n, seq) ∧ W.retire = none ∧ framesOf s w = []) ∧
    (∃ (q : Cmd) (a : DWord) (s : State), ∃ bs, (s.iface q.iface).func = 0 ∧ guestRead s 0 a.toNat 1792 = .ok bs) ∧
    (∃ (q : Cmd) (w k : DWord) (s : State), ∃ W, (s.iface q.iface).func = 0 ∧ w.toNat < 64 ∧ k.toNat < 2 ∧ tget? s.worlds w.toNat = some W ∧
      W.cur ≠ k.toNat ∧ W.retire = none) ∧
    (∃ w, ∃ (s : State), ∃ W k n seq, tget? s.worlds w = some W ∧ W.retire = some (k, n, seq) ∧ slotUsed s w k = false) ∧
    (∃ f, ∃ (s : State), f ∈ s.mem.scrubQ) ∧ (∃ (p : LinkPacket), ioOfUnit p.unit = none) ∧ (∃ (p : LinkPacket), (ioOfUnit p.unit).isSome ∧ p.ok = false) ∧
    (∃ (p : LinkPacket) (s : State), (ioOfUnit p.unit).isSome ∧ p.ok = true ∧ tget? s.ctxs p.pasid = none) ∧
    (∃ (p : LinkPacket) (s : State), p.ok = true ∧ (tget? s.ctxs p.pasid).isSome) ∧ (∃ (p : Nat) (s : State) (c : Ctx), tget? s.ctxs p = some c) ∧
    ∃ (p : Nat) (s : State), tget? s.ctxs p = none :=
  let w63 (f : World → World) : State := { mB with worlds := [(0, world1), (63, f world1)] }
  ⟨⟨cmd1, 63, mB, rfl, by decide, by decide, by decide, by decide⟩,
    ⟨cmd1, 63, { w63 id with mem := { mB.mem with owner := [(9, 63)] } }, _, rfl, by decide, by decide, rfl, rfl, by decide, by decide⟩,
    ⟨63, w63 fun W => { W with ending := some (0, 1#32) }, _, _, _, rfl, rfl, rfl, by decide⟩, ⟨cmd1, 0x3000, m0, List.replicate 1792 0#8, rfl, by decide⟩,
    ⟨cmd1, 63, 1, w63 id, _, rfl, by decide, by decide, rfl, by decide, rfl⟩, ⟨63, w63 fun W => { W with retire := some (1, 0, 1#32) }, _, _, _, _, rfl, rfl, by decide⟩,
    ⟨9, { mB with mem := { mB.mem with scrubQ := [9] } }, by decide⟩, ⟨⟨11, 0, 0, 0, 0, false⟩, by decide⟩, ⟨⟨1, 0, 0, 0, 0, false⟩, by decide, rfl⟩,
    ⟨⟨23, 0, 1, 0, 0, true⟩, mB, by decide, rfl, rfl⟩, ⟨⟨1, 0, 0, 0, 0, true⟩, mB, rfl, rfl⟩, ⟨0, mB, _, rfl⟩, 2 ^ 20 - 1, mB, rfl⟩

/-- Die 23 with a slice of function 0 that ends now; its quantum entries 0 and 15 name the die; a grid of the context waits. -/
def qEnt (gng : Nat) : Word := BitVec.ofNat 32 (7 + 23 * 2 ^ 16 + gng * 2 ^ 21 + gng * 2 ^ 22)
def mSlice (gng : Nat) : State :=
  { mP0 with reft := 500
             funcs := [(0, { Func.reset with quantum := [(0, qEnt gng), (15, qEnt gng)] })]
             dies := [(23, { Die.reset with ents := [(0, 0, qEnt gng), (0, 15, qEnt gng)], slice := some (0, 0), sliceEnd := 500 })] }
/-- A gang slice at its deadline, and a block that it restored, which stands as it was saved. -/
def mGang (ready : Bool) : State :=
  { mSlice 1 with reft := 256000, dies := tmod (mSlice 1).dies 23 fun D => { D with gangReady := ready }
                  blocks := [(2, { newBlock 1 0 0 0 0 4096 none 0 0 0 none 0 with home := 1535, asSaved := true })] }
def lim : State := { mB with dies := [(23, { Die.reset with pmlim := 0x48#64 + BitVec.ofNat 64 (2 ^ 25) })] }
set_option maxRecDepth 20000 in
theorem witness_SliceEvents :
    (∃ d, ∃ (s : State), ∃ f0 i0 f i w, d < 24 ∧ (s.die d).slice = some (f0, i0) ∧ (s.die d).sliceEnd ≤ s.reft ∧
      (cycleOf (atBoundary s d) d).find? (sliceLive (atBoundary s d) d) = some (f, i, w)) ∧
    (∃ d, ∃ (s : State), restoreDone s d = false) ∧ (∃ d, ∃ (s : State), (s.die d).restored = false ∧ restoreDone s d = true) ∧
    (∃ d, ∃ (s : State), ∃ f i dl, gangSlice s d = some (f, i, dl) ∧ s.reft ≤ dl ∧ restoreDone s d = true ∧
      (∀ x ∈ s.ctxs, x.2.func = f → x.2.gng = true → x.2.desch = false → admits s x.2 d = true → 0 < x.2.level)) ∧
    (∀ ready : Bool, ∃ d, ∃ (s : State), ∃ f i dl, gangSlice s d = some (f, i, dl) ∧ dl ≤ s.reft ∧ (s.die d).gangRuns = false ∧ (s.die d).gangReady = ready ∧
      tgetD (s.func f).misses i 0 ≠ 2 ∧ ∃ b B, tget? s.blocks b = some B ∧ B.asSaved = true ∧ B.phase.onCore = true ∧ dieOf B.home = d) ∧
    (∃ (q : Cmd) (d : DWord) (s : State), (s.iface q.iface).func = 0 ∧ d.toNat < 24) ∧
    (∃ (q : Cmd) (d e : DWord) (s : State), (s.iface q.iface).func = 0 ∧ d.toNat < 24 ∧ partOk e = true ∧
      (∀ b ∈ s.blocks, b.2.phase.onCore = true → dieOf b.2.home ≠ d.toNat)) ∧
    (∃ (q : Cmd) (f i : DWord) (s : State), (s.iface q.iface).func = 0 ∧ f.toNat < 64 ∧ i.toNat < 16) ∧
    (∃ k, ∃ (s : State), k < 1536 ∧ (∀ b ∈ s.blocks, b.2.home = k → b.2.phase.onCore = false)) ∧
    (∃ (q : Cmd) (o x d y n : DWord) (s : State), ∃ p c v, actsOn s q p c ∧ d.toNat < 24 ∧ o.toNat < c.otlen ∧
      y.toNat + n.toNat ≤ ((s.die d.toNat).pmlim.extractLsb' 25 10).toNat * 2 ^ 20 ∧
      capCheck (wscopyCap s c o.toNat) x.toNat n.toNat (Perm.r + Perm.cpy) = .ok v) ∧
    ∃ k, ∃ (s : State), ∃ w c h mt u, tget? s.wscopies k = some w ∧ tget? s.ctxs w.pasid = some c ∧ w.sent = none ∧
      (s.die w.die).relocking s.reft = false ∧ homesStill u [(h, w.len, mt)] = false ∧ (∀ b ∈ s.blocks, b.2.pasid = w.pasid → b.2.phase.onCore = true → dieOf b.2.home ≠ w.die) ∧
      translate { s with wscopies := tdel s.wscopies k } w.die w.pasid (wscopyCap s c w.obn) w.off w.len false true = .ok [(h, w.len, mt)] u ∧
      badLine u h w.len = none :=
  ⟨⟨23, mSlice 0, _, _, 0, 15, qEnt 0, by decide, rfl, by decide, by decide⟩,
    ⟨0, mP1 .saving, by decide⟩, ⟨0, { mB with dies := [(0, { Die.reset with restored := false })] }, by decide, by decide⟩, ⟨23, mSlice 1, _, _, _, rfl, by decide, by decide, by decide⟩,
    fun ready => by
      cases ready
      · exact ⟨23, mGang false, _, _, _, rfl, by decide, by decide, by decide, by decide, 2, _, rfl, rfl, rfl, by decide⟩
      · exact ⟨23, mGang true, _, _, _, rfl, by decide, by decide, by decide, by decide, 2, _, rfl, rfl, rfl, by decide⟩,
    ⟨cmd1, 23, mB, rfl, by decide⟩, ⟨cmd1, 23, BitVec.ofNat 64 (64 * 2 ^ 14), mB, rfl, by decide, by decide, by decide⟩,
    ⟨cmd1, 63, 15, mB, rfl, by decide, by decide⟩, ⟨1535, mB, by decide, by decide⟩,
    ⟨cmd1, 1, 0, 23, 0, 2 ^ 20, lim, 0, ctxM, _, ⟨rfl, rfl⟩, by decide, by decide, by decide, rfl⟩,
    9, { lim with wscopies := [(9, ⟨cmd1, 0, 1, 0, 23, 0, 64, none⟩)] }, _, _, _, _, _, rfl, rfl, rfl, by decide, by decide, by decide, rfl, by decide⟩

/-- A park of lanes 0 and 63 of the group, for a code; a waiting request of operation 8; records that wait in rings 0 and 65. -/
def issG : Issuer := { group0.stream with lanes := 1#64 }
def parkM (code : Nat) (h : Held) : Park := ⟨code, 0, h, [], [], false, false, none⟩
def lanesM : Held := .lanes 2 0 [(0, issG), (63, { issG with lanes := laneBit 63 })]
def mPark (code : Nat) (h : Held) : State := { mC with parks := [(9, parkM code h)] }
def mRing (ks : List Nat) : State := { mB with rings := ks.map fun k => (k, { Ring.reset with rb := 0x4000#64, held := [List.replicate 64 0xEE#8] }) }
theorem disposes1 (s : State) (c : Ctx) (k : Park) (w : DWord) (h : tget? s.parks 9 = some k) (ha : actsOn s cmd1 0 c) (h0 : k.pasid = 0)
    (h1 : k.held.stands = true) (h2 : k.dispo = none) (h3 : toldOf s 9 = true) (h4 : dispoOk k w = true) : disposes s cmd1 9 w k :=
  ⟨0, c, ha, by decide, h, h0, h1, h2, h3, h4⟩
/-- The same, with operation 8, a load by lane 63 that met a fault, deferred to it. -/
def mDefer (q : LReq) : State :=
  { mPark Code.memAlign lanesM with parks := [(9, { parkM Code.memAlign lanesM with defer := [(8, 63)] })], ops := [(8, opM (.load 4 false) q)] }
def unitM : Held := .unit 2 [0] .group
set_option maxRecDepth 20000 in
theorem witness_FaultEvents :
    (∃ (s : State), ∃ k n r rest, ringReady s 65 = false ∧ nextRing s = some (k, n) ∧ (s.ring k).held = r :: rest ∧ ringReady s k = true ∧
      (∀ p, tget? s.parks (recSub r) = some p → p.code ≠ Code.spanMigrating) ∧ k ≤ 1 ∧ r.length = 64) ∧
    (∃ (s : State), ∃ r rest, ringReady s 65 = true ∧ (s.ring 65).held = r :: rest) ∧
    (∃ (q : Cmd) (h : DWord) (s : State), ∃ p c k o l, actsOn s q p c ∧ h.toNat < 2 ^ 32 ∧ tget? s.parks h.toNat = some k ∧ k.pasid = p ∧
      retryable k.code = true ∧ k.held = .request o l ∧ toldOf s h.toNat = true) ∧
    (∀ a : BitVec 2, a ≠ 2#2 → ∀ df : Bool, ∃ (q : Cmd) (h w : DWord) (s : State), ∃ k b g ls B G, w.extractLsb' 0 2 = a ∧ disposes s q h w k ∧ k.held = .lanes b g ls ∧
      ls ≠ [] ∧ (ls.map (·.1)).Nodup ∧ w.extractLsb' 0 2 ≠ 2#2 ∧ defersHere s k b g ls ∧ (k.defer = [] ↔ df = false) ∧ tget? s.blocks b = some B ∧
      B.phase.onCore = true ∧ s.grp? b g = some G ∧ G.stream.runnable = true ∧
      (k.defer = [] ∨ dispoRoom (s.modPark h.toNat fun p => { p with dispo := some w }) b h.toNat w = true)) ∧
    (∃ (q : Cmd) (h w : DWord) (s : State), ∃ k b g ls B G, disposes s q h w k ∧ k.held = .lanes b g ls ∧ w.extractLsb' 0 2 = 2#2 ∧ defersHere s k b g ls ∧
      k.defer ≠ [] ∧ (s.ops.map (·.1)).Nodup ∧ tget? s.blocks b = some B ∧ B.phase.onCore = true ∧ s.grp? b g = some G ∧
      noFaults s k b g (maskOf (ls.map (·.1))) ∧ noneAtChannel s) ∧
    (∀ a : BitVec 2, a ≠ 2#2 → ∃ (q : Cmd) (h w : DWord) (s : State), ∃ k b gs e B, w.extractLsb' 0 2 = a ∧ disposes s q h w k ∧ k.held = .unit b gs e ∧ gs ≠ [] ∧
      gs.Nodup ∧ (∀ g ∈ gs, g < 32) ∧ k.defer = [] ∧ tget? s.blocks b = some B ∧ B.phase.onCore = true ∧ w.extractLsb' 0 2 ≠ 2#2) ∧
    (∃ (q : Cmd) (h w : DWord) (s : State), ∃ k b gs e B, disposes s q h w k ∧ k.held = .unit b gs e ∧ gs ≠ [] ∧ gs.Nodup ∧ (∀ g ∈ gs, g < 32) ∧ k.defer = [] ∧
      tget? s.blocks b = some B ∧ B.phase.onCore = true ∧ w.extractLsb' 0 2 = 2#2 ∧
      (∀ g ∈ gs, ∀ G, s.grp? b g = some G → noFaults s k b g (~~~(G.exited ||| G.parked))) ∧ noneAtChannel s) ∧
    (∃ (q : Cmd) (h w : DWord) (s : State), ∃ k B, disposes s q h w k ∧ tget? s.blocks (k.held.blk s) = some B ∧ B.phase.onCore = false) ∧
    (∃ (q : Cmd) (h : DWord) (s : State), ∃ p c, actsOn s q p c ∧ h.toNat < 2 ^ 32 ∧ tget? s.parks h.toNat = none) ∧
    (∃ (q : Cmd) (h w : DWord) (s : State), ∃ p c k, actsOn s q p c ∧ h.toNat < 2 ^ 32 ∧ tget? s.parks h.toNat = some k ∧ k.pasid = p ∧ k.held.stands = true ∧
      k.dispo = none ∧ toldOf s h.toNat = true ∧ dispoOk k w = false) ∧
    (∀ n : Fin 4, ∃ (q : Cmd) (h : DWord) (s : State), ∃ p c k, actsOn s q p c ∧ h.toNat < 2 ^ 32 ∧ tget? s.parks h.toNat = some k ∧
      [decide (k.pasid ≠ p), !k.held.stands, k.dispo.isSome, !toldOf s h.toNat][n] = true) ∧
    ∃ (q : Cmd) (o e : DWord) (s : State), ∃ p c, actsOn s q p c ∧ o.toNat < 2 ^ 28 ∧ e.toNat < 2 ^ 44 := by
  have h4 : ∀ a : BitVec 2, a ≠ 2#2 → a = 0#2 ∨ a = 1#2 ∨ a = 3#2 := by decide
  have noChan (s : State) (h : s.groups = mC.groups) : noneAtChannel s := by
    intro k K hk x j hj n hw
    rw [h] at hk
    have hm : mC.groups = [(64, newGroup (rootCap 1 0 (Perm.x + Perm.r) 0 (2 ^ 25)) [] [] 0)] := rfl
    rw [hm] at hk
    simp only [tget?] at hk
    split at hk
    · cases hk
      cases x with
      | zero => cases hj; cases hw
      | succ y => simp [Group.issuer?, newGroup, tget?] at hj
    · cases hk
  have hereNo (s : State) (k : Park) (b g : Nat) (ls : List (Nat × Issuer)) (h : k.defer = []) : defersHere s k b g ls :=
    ⟨h ▸ List.nodup_nil, fun d hd => by rw [h] at hd; cases hd⟩
  have here1 (q : LReq) (h : q.lane = 63) : defersHere (mDefer q) { parkM Code.memAlign lanesM with defer := [(8, 63)] } 2 0 [(0, issG), (63, { issG with lanes := laneBit 63 })] :=
    ⟨by decide, fun d hd => by
      obtain rfl : d = (8, 63) := by simpa using hd
      exact ⟨by decide, _, rfl, rfl, rfl, by simp [opM, Op.req?, h]⟩⟩
  have lanes (a : BitVec 2) (v : DWord) (h0 : v.extractLsb' 0 2 = a) (h1 : ∀ d, dispoOk { parkM Code.memAlign lanesM with defer := d } v = true) (h2 : v.extractLsb' 0 2 ≠ 2#2)
      (h3 : dispoRoom ((mDefer (reqM (.faulted Code.memAlign) 4 0)).modPark 9 fun p => { p with dispo := some v }) 2 9 v = true) (df : Bool) :
      ∃ (q : Cmd) (h w : DWord) (s : State), ∃ k b g ls B G, w.extractLsb' 0 2 = a ∧ disposes s q h w k ∧ k.held = .lanes b g ls ∧
      ls ≠ [] ∧ (ls.map (·.1)).Nodup ∧ w.extractLsb' 0 2 ≠ 2#2 ∧ defersHere s k b g ls ∧ (k.defer = [] ↔ df = false) ∧ tget? s.blocks b = some B ∧
      B.phase.onCore = true ∧ s.grp? b g = some G ∧ G.stream.runnable = true ∧
      (k.defer = [] ∨ dispoRoom (s.modPark h.toNat fun p => { p with dispo := some w }) b h.toNat w = true) := by
    cases df
    · exact ⟨cmd1, 9, v, mPark Code.memAlign lanesM, _, 2, 0, _, _, _, h0, disposes1 _ ctxM _ _ rfl ⟨rfl, rfl⟩ rfl rfl rfl rfl (h1 []), rfl, by decide, by decide, h2,
        hereNo _ _ _ _ _ rfl, by decide, rfl, by decide, rfl, by decide, .inl rfl⟩
    · exact ⟨cmd1, 9, v, mDefer (reqM (.faulted Code.memAlign) 4 0), _, 2, 0, _, _, _, h0, disposes1 _ ctxM _ _ rfl ⟨rfl, rfl⟩ rfl rfl rfl rfl (h1 _), rfl, by decide,
        by decide, h2, here1 _ rfl, by decide, rfl, by decide, rfl, by decide, .inr h3⟩
  have unit (a : BitVec 2) (v : DWord) (h0 : v.extractLsb' 0 2 = a) (h1 : dispoOk (parkM Code.memAlign unitM) v = true) (h2 : v.extractLsb' 0 2 ≠ 2#2) :
      ∃ (q : Cmd) (h w : DWord) (s : State), ∃ k b gs e B, w.extractLsb' 0 2 = a ∧ disposes s q h w k ∧ k.held = .unit b gs e ∧ gs ≠ [] ∧
      gs.Nodup ∧ (∀ g ∈ gs, g < 32) ∧ k.defer = [] ∧ tget? s.blocks b = some B ∧ B.phase.onCore = true ∧ w.extractLsb' 0 2 ≠ 2#2 :=
    ⟨cmd1, 9, v, mPark Code.memAlign unitM, _, 2, [0], .group, _, h0, disposes1 _ ctxM _ _ rfl ⟨rfl, rfl⟩ rfl rfl rfl rfl h1, rfl, by decide, by decide, by decide, rfl, rfl,
      by decide, h2⟩
  refine ⟨⟨mRing [1], 1, 1, _, _, by decide, by decide, rfl, by decide, (fun p h => by cases h), by decide, by decide⟩, ⟨mRing [0, 65], _, _, by decide, rfl⟩,
    ⟨cmd1, 9, mPark Code.spanMigrating (.request 8 0), 0, ctxM, _, _, _, ⟨rfl, rfl⟩, by decide, rfl, rfl, by decide, rfl, by decide⟩, fun a ha => ?_,
    ⟨cmd1, 9, 2, mDefer (reqM (.faulted Code.memAlign) 4 0), _, 2, 0, _, _, _, disposes1 _ ctxM _ _ rfl ⟨rfl, rfl⟩ rfl rfl rfl rfl (by decide), rfl, by decide, here1 _ rfl,
      by decide, by decide, rfl, by decide, rfl, fun x hx _ _ r hr _ hd code => by
        obtain rfl : x = (8, opM (.load 4 false) (reqM (.faulted Code.memAlign) 4 0)) := by simpa [mDefer] using hx
        obtain rfl : r = reqM (.faulted Code.memAlign) 4 0 := by simpa [opM] using hr
        exact absurd (by decide) hd, noChan _ rfl⟩, fun a ha => ?_,
    ⟨cmd1, 9, 2, mPark Code.memAlign unitM, _, 2, [0], .group, _, disposes1 _ ctxM _ _ rfl ⟨rfl, rfl⟩ rfl rfl rfl rfl (by decide), rfl, by decide, by decide, by decide, rfl, rfl,
      by decide, by decide, (fun _ _ _ _ x hx => by cases hx), noChan _ rfl⟩,
    ⟨cmd1, 9, 0, withB (mPark Code.memAlign lanesM) fun B => { B with phase := .saved }, _, _, disposes1 _ ctxM _ _ rfl ⟨rfl, rfl⟩ rfl rfl rfl rfl (by decide), rfl, by decide⟩,
    ⟨cmd1, 0xFFFFFFFF, mB, 0, ctxM, acts1, by decide, by decide⟩,
    ⟨cmd1, 9, 0x4#64, mPark Code.memAlign lanesM, 0, ctxM, _, ⟨rfl, rfl⟩, by decide, rfl, rfl, by decide, by decide, by decide, by decide⟩, fun n => ?_,
    cmd1, 0xFFFFFFF#64, 0xFFFFFFFFFFF#64, mB, 0, ctxM, acts1, by decide, by decide⟩
  case refine_3 => exact match n with
    | 0 => ⟨cmd1, 9, { mC with parks := [(9, { parkM Code.memAlign lanesM with pasid := 1 })] }, 0, ctxM, _, ⟨rfl, rfl⟩, by decide, rfl, by decide⟩
    | 1 => ⟨cmd1, 9, mPark Code.spanMigrating (.request 8 0), 0, ctxM, _, ⟨rfl, rfl⟩, by decide, rfl, by decide⟩
    | 2 => ⟨cmd1, 9, { mC with parks := [(9, { parkM Code.memAlign lanesM with dispo := some 0 })] }, 0, ctxM, _, ⟨rfl, rfl⟩, by decide, rfl, by decide⟩
    | 3 => ⟨cmd1, 0xEEEEEEEE, { mC with parks := [(0xEEEEEEEE, parkM Code.memAlign lanesM)], rings := (mRing [0]).rings }, 0, ctxM, _, ⟨rfl, rfl⟩, by decide,
        rfl, by decide⟩
  case refine_1 =>
    obtain h | h | h := h4 a ha <;> subst h
    · exact lanes 0 0 (by decide) (fun _ => rfl) (by decide) (by decide)
    · exact lanes 1 1 (by decide) (fun _ => rfl) (by decide) (by decide)
    · exact lanes 3 (3 + 0xFFFFFFFFFFC * 256) (by decide) (fun _ => rfl) (by decide) (by decide)
  case refine_2 =>
    obtain h | h | h := h4 a ha <;> subst h
    · exact unit 0 0 (by decide) (by decide) (by decide)
    · exact unit 1 1 (by decide) (by decide) (by decide)
    · exact unit 3 (3 + 0xFFFFFFFFFFC * 256) (by decide) (by decide) (by decide)

def mDie (f : Die → Die) (t : Nat) : State := { m0 with reft := t, dies := [(23, f Die.reset)] }
theorem witness_StepEvents :
    (∃ d, ∃ (s : State), ∃ n cause now, (s.die d).want = some (n, cause, now) ∧ (s.die d).chg = none) ∧
    (∃ d, ∃ (s : State), ∃ n cause now, (s.die d).chg = some (.ramp n cause now)) ∧
    (∃ d, ∃ (s : State), ∃ n cause now low, (s.die d).chg = some (.relock n cause now low) ∧ now + 1500 ≤ s.reft) ∧
    (∃ d, ∃ (s : State), ∃ n cause now low, (s.die d).chg = some (.relock n cause now low) ∧ s.reft < now + 1500) ∧
    (∃ d, ∃ (s : State), ∃ now, (s.die d).chg = some (.lower now)) ∧
    (∃ d, ∃ (s : State), (s.die d).margin ≠ 0 ∧ 1000 ≤ (s.die d).quiet) ∧ (∃ d, ∃ (s : State), (s.die d).pceil < 64 ∧ (s.die d).pceilEnd ≤ s.reft) ∧
    ∃ d n, ∃ (s : State), d < 24 ∧ n ≤ 64 ∧ (s.die d).inService = false :=
  ⟨⟨23, mDie (fun D => { D with want := some (64, 2, 0) }) 0, _, _, _, rfl, rfl⟩, ⟨23, mDie (fun D => { D with chg := some (.ramp 64 2 0) }) 0, _, _, _, rfl⟩,
    ⟨23, mDie (fun D => { D with chg := some (.relock 64 2 0 false) }) 1500, _, _, _, _, rfl, by decide⟩,
    ⟨23, mDie (fun D => { D with chg := some (.relock 0 2 0 true) }) 1499, _, _, _, _, rfl, by decide⟩,
    ⟨23, mDie (fun D => { D with chg := some (.lower 0) }) 0, _, rfl⟩, ⟨23, mDie (fun D => { D with margin := 1, quiet := 1000 }) 0, by decide, by decide⟩,
    ⟨23, mDie (fun D => { D with pceil := 63, pceilEnd := 5 }) 5, by decide, by decide⟩,
    23, 64, mDie (fun D => { D with inService := false }) 0, by decide, by decide, by decide⟩

/-- Meter samples of the group into a ring of 4 words at 0x100. -/
def mMeter (d : Option Due) (n : Nat) : State :=
  { withG (withB mC fun B => { B with spm := B.spm.write 0x100 (natBytes 16 (4 * 2 ^ 64 + n)) })
      fun G => { G with chans := [(3, ring6)], msamp := some ⟨1, 3, 0, 0, 0, false, d⟩ } with energy := { m0.energy with tick := 2 } }
set_option maxRecDepth 20000 in
theorem witness_PowerEvents :
    (∃ (s : State), 10000 * (s.energy.tick + 1) ≤ s.reft) ∧
    (∃ (s : State), ∃ p c, 10000 * (s.energy.tick + 1) ≤ s.reft ∧ tget? s.ctxs p = some c ∧ (∀ x ∈ s.energy.prev, x.acct ≠ some p) ∧
      (∀ r ∈ s.energy.reports, r.tick < s.energy.tick → r.c.acct ≠ some p) ∧ ∀ d < 24, partDed (s.die d).part = true → partResp (s.die d).part ≠ p) ∧
    (∃ (s : State), s.reft < 10000 * (s.energy.tick + 1)) ∧
    (∃ (s : State), ∃ r rest p c, s.energy.reports = r :: rest ∧ r.tick = s.energy.tick ∧ r.c.acct = some p ∧ p < 2 ^ 20 ∧ tget? s.ctxs p = some c) ∧
    (∃ (s : State), ∃ w e, s.energy.lease = some (w, e) ∧ e ≤ s.reft) ∧ (∃ d, ∃ (s : State), (s.die d).inService = true ∧ 10000 ≤ (s.die d).derated) ∧
    (∃ g : GRef, ∃ (s : State), ∃ G m ch, s.grp? g.blk g.gidx = some G ∧ G.msamp = some m ∧ m.due = none ∧ m.left = 0 ∧
      tget? G.chans m.chan.toNat = some ch ∧ ch.kind = 6 ∧ (ringCtl s g.blk ch.off).count + 4 ≤ (ringCtl s g.blk ch.off).capy) ∧
    (∃ g : GRef, ∃ (s : State), ∃ G m chan x bad ch, s.grp? g.blk g.gidx = some G ∧ G.msamp = some m ∧ m.due = some ⟨chan, false, x, bad⟩ ∧
      tget? G.chans chan.toNat = some ch ∧ ch.kind = 6 ∧ (ringCtl s g.blk ch.off).count + 4 ≤ (ringCtl s g.blk ch.off).capy) ∧
    (∃ g : GRef, ∃ (s : State), ∃ G m ch, s.grp? g.blk g.gidx = some G ∧ G.msamp = some m ∧ m.due = none ∧ m.left = 0 ∧
      tget? G.chans m.chan.toNat = some ch ∧ ch.kind = 6 ∧ (ringCtl s g.blk ch.off).capy < (ringCtl s g.blk ch.off).count + 4) ∧
    ∃ w, ∃ (s : State), ∃ W r rest h mt u, tget? s.worlds w = some W ∧ W.readings = r :: rest ∧ r.tick + 2 ≤ s.energy.tick ∧ r.sent = none ∧
      translate s 0 r.pasid r.cap r.cap.cur 4096 true true = .ok [(h, 4096, mt)] u ∧ homesStill u [(h, 4096, mt)] = false :=
  ⟨⟨{ m0 with reft := 10000 }, by decide⟩, ⟨{ mB with reft := 10000 }, 0, _, by decide, rfl, by decide, by decide, by decide⟩, ⟨{ m0 with reft := 9999 }, by decide⟩,
    ⟨{ mB with energy := { m0.energy with reports := [⟨0, ⟨0, some 0, 0, 7⟩⟩] } }, _, _, 0, _, rfl, rfl, rfl, by decide, rfl⟩,
    ⟨{ m0 with reft := 7, energy := { m0.energy with lease := some (5400, 7) } }, _, _, rfl, by decide⟩,
    ⟨23, mDie (fun D => { D with derated := 10000 }) 0, by decide, by decide⟩, ⟨⟨2, 0⟩, mMeter none 0, _, _, _, rfl, rfl, rfl, rfl, rfl, rfl, by decide⟩,
    ⟨⟨2, 0⟩, mMeter (some ⟨3, false, -1, true⟩) 0, _, _, 3, _, _, _, rfl, rfl, rfl, rfl, rfl, by decide⟩,
    ⟨⟨2, 0⟩, mMeter none (2 ^ 32), _, _, _, rfl, rfl, rfl, rfl, rfl, rfl, by decide⟩,
    0, { mMeter none 0 with worlds := [(0, { world1 with readings := [read1] })] }, _, _, _, _, _, _, rfl, rfl, by decide, rfl, rfl, by decide⟩

/-- Block 2 of a replayable grid, in interval 5 with 7 retired, and its checkpoint; its context stopped or not. -/
def mDbg (stop : Bool) : State :=
  let B (B : Block) : Block := { B with iv := 5, rc := 7 }
  let s := { withB mB B with grids := tmod m0.grids 1 fun g => { g with rpl := true }, ctxs := [(0, { ctxM with dbgStop := stop })] }
  { s with ckpts := [(2, ⟨B ((tget? s.blocks 2).getD (newBlock 0 0 0 0 0 0 none 0 0 0 none 0)), s.groups, [], [], []⟩)] }
/-- The debug descriptor's Reset column with the largest ILOG, at 0x3000. -/
def withDesc (s : State) : State := { s with mem := { s.mem with hbm := s.mem.hbm.write 0x3000 (natBytes 96 0x70) } }
set_option maxRecDepth 20000 in
theorem witness_DebugEvents :
    (∃ (q : Cmd) (a : DWord) (s : State), ∃ p c bs, (s.iface q.iface).func = 0 ∧ actsOn s q p c ∧ guestRead s 0 a.toNat 96 = .ok bs ∧ dbgOk (leNat bs) = true ∧
      (∀ b ∈ s.blocks, b.2.pasid = p → b.2.phase.onCore = false)) ∧
    (∃ (q : Cmd) (a : DWord) (s : State), ∃ p c bs, (s.iface q.iface).func = 0 ∧ actsOn s q p c ∧ guestRead s 0 a.toNat 96 = .ok bs ∧ dbgOk (leNat bs) = true ∧
      (∃ b ∈ s.blocks, b.2.pasid = p ∧ b.2.phase.onCore = true)) ∧
    (∃ (q : Cmd) (b i n : DWord) (s : State), ∃ p c k B, (s.iface q.iface).func = 0 ∧ actsOn s q p c ∧ b.toNat < 2 ^ 32 ∧ i.toNat < 2 ^ 32 ∧ n.toNat < 2 ^ 32 ∧
      blockNamed s p b.toNat = some (k, B) ∧ c.dbgStop = false ∧ i.toNat = B.iv ∧ n.toNat = B.rc) ∧
    (∃ (q : Cmd) (b i n : DWord) (s : State), ∃ p c k B, (s.iface q.iface).func = 0 ∧ actsOn s q p c ∧ b.toNat < 2 ^ 32 ∧ i.toNat < 2 ^ 32 ∧ n.toNat < 2 ^ 32 ∧
      blockNamed s p b.toNat = some (k, B) ∧ c.dbgStop = false ∧ i.toNat < B.iv) ∧
    (∃ (q : Cmd) (b i n : DWord) (s : State), ∃ p c k B, (s.iface q.iface).func = 0 ∧ actsOn s q p c ∧ b.toNat < 2 ^ 32 ∧ i.toNat < 2 ^ 32 ∧ n.toNat < 2 ^ 32 ∧
      blockNamed s p b.toNat = some (k, B) ∧ c.dbgStop = false ∧ i.toNat = B.iv ∧ n.toNat < B.rc) ∧
    (∃ (q : Cmd) (b i n : DWord) (s : State), ∃ p c k B, (s.iface q.iface).func = 0 ∧ actsOn s q p c ∧ b.toNat < 2 ^ 32 ∧ i.toNat < 2 ^ 32 ∧ n.toNat < 2 ^ 32 ∧
      blockNamed s p b.toNat = some (k, B) ∧ c.dbgStop = false ∧ c.armed = none ∧ i.toNat = B.iv ∧ B.rc < n.toNat) ∧
    (∃ (q : Cmd) (b i n : DWord) (s : State), ∃ p c k B I, (s.iface q.iface).func = 0 ∧ actsOn s q p c ∧ b.toNat < 2 ^ 32 ∧ i.toNat < 2 ^ 32 ∧
      n.toNat < 2 ^ 32 ∧ c.dbgStop = true ∧ s.viewJob = none ∧ blockNamed s p b.toNat = some (k, B) ∧ (s.gridOf B).rpl = true ∧ i.toNat = B.iv ∧
      n.toNat ≤ B.rc ∧ tget? s.ckpts k = some I) ∧
    ∀ stop, ∃ (q : Cmd) (s : State), ∃ p c, (s.iface q.iface).func = 0 ∧ actsOn s q p c ∧ c.dbgStop = stop :=
  ⟨⟨cmd1, 0x3000, withDesc (withB mB fun B => { B with phase := .saved }), 0, ctxM, _, rfl, ⟨rfl, rfl⟩, rfl, by decide, by decide⟩,
    ⟨cmd1, 0x3000, withDesc mB, 0, ctxM, _, rfl, ⟨rfl, rfl⟩, rfl, by decide, by decide⟩,
    ⟨cmd1, 0, 5, 7, mDbg false, 0, _, 2, _, rfl, ⟨rfl, rfl⟩, by decide, by decide, by decide, rfl, rfl, by decide, by decide⟩,
    ⟨cmd1, 0, 4, 0xFFFFFFFF#64, mDbg false, 0, _, 2, _, rfl, ⟨rfl, rfl⟩, by decide, by decide, by decide, rfl, rfl, by decide⟩,
    ⟨cmd1, 0, 5, 6, mDbg false, 0, _, 2, _, rfl, ⟨rfl, rfl⟩, by decide, by decide, by decide, rfl, rfl, by decide, by decide⟩,
    ⟨cmd1, 0, 5, 8, mDbg false, 0, _, 2, _, rfl, ⟨rfl, rfl⟩, by decide, by decide, by decide, rfl, rfl, rfl, by decide, by decide⟩,
    ⟨cmd1, 0, 5, 7, mDbg true, 0, _, 2, _, _, rfl, ⟨rfl, rfl⟩, by decide, by decide, by decide, rfl, rfl, rfl, by decide, by decide, by decide, rfl⟩,
    fun stop => ⟨cmd1, mDbg stop, 0, _, rfl, ⟨rfl, rfl⟩, rfl⟩⟩

/-- The links are trained; interface 255 has a ring at 0x3000 whose first entry is a launch record. -/
def mLinks (f : Iface → Iface) : State :=
  { mB with trust := { m0.trust with links := true }, ifaces := [(255, f { Iface.reset with sqb := 0x3000#64, cqb := 0x5000#64 })]
            mem := { mB.mem with hbm := mB.mem.hbm.write 0x3000 (natBytes 64 (recL 1 0).toNat) } }
/-- The same with another entry at the head: bytes of an entry of the ring. -/
def mEntry (e : Nat) (held : Bool) : State :=
  { mLinks id with mem := { mB.mem with hbm := mB.mem.hbm.write 0x3000 (natBytes 64 e) }, invals := []
                   revs := if held then [(9, ⟨some ⟨255, 0#32⟩, 0, 1, true, 0⟩)] else [] }
set_option maxRecDepth 20000 in
theorem finds1 (e : Nat) (held : Bool) (h : guestRead (mEntry e held) ((mEntry e held).iface 255).func (((mEntry e held).iface 255).sqb.toNat +
    64 * (((mEntry e held).iface 255).sqh.toNat % ((mEntry e held).iface 255).sqn.toNat)) 64 = .ok (natBytes 64 e)) :
    finds (mEntry e held) 255 1 (natBytes 64 e) :=
  have hI : (mEntry e held).iface 255 = { Iface.reset with sqb := 0x3000#64, cqb := 0x5000#64 } := by simp [mEntry, mLinks, State.iface, tgetD, tget?]
  ⟨by decide, rfl, by rw [hI]; decide, by rw [hI]; decide, by rw [hI]; decide, by rw [hI]; decide, by simp [natBytes], h⟩
/-- A completion record that waits, of a launch on which another depends. -/
def mSettle (code : Nat) : State :=
  { mLinks (fun I => { I with held := [7#128] }) with
    launches := [(5, { launch1 none with iface := 255, posted := some (code, 0) }), (6, { launch1 none with dep := some 5 })] }
set_option maxRecDepth 20000 in
theorem witness_RingEvents :
    (∃ n, ∃ (v : Word) (s : State), n < 256 ∧ s.trust.links = true ∧ v = (s.iface n).sqh) ∧
    (∃ n, ∃ (v : Word) (s : State), ∃ bs, n < 256 ∧ s.trust.links = true ∧ v = (s.iface n).sqh + 1#32 ∧ 1 ≤ (s.iface n).sqn.toNat ∧ (s.iface n).full = false ∧
      guestRead s (s.iface n).func ((s.iface n).sqb.toNat + 64 * ((s.iface n).sqh.toNat % (s.iface n).sqn.toNat)) 64 = .ok bs ∧ bs.getD 0 0#8 = 1#8) ∧
    (∃ n, ∃ (v : Word) (s : State), ∃ bs, finds s n v bs ∧ 0x80 ≤ (bs.getD 0 0#8).toNat ∧ cmdHeld s n = true) ∧
    (∃ n, ∃ (v : Word) (s t : State), ∃ bs i, finds s n v bs ∧ 0x80 ≤ (bs.getD 0 0#8).toNat ∧ cmdHeld s n = false ∧
      bits (leNat bs) 63 8 = 0 ∧ bits (leNat bs) 127 96 = 0 ∧ leNat bs / 2 ^ (128 + 64 * cmdWords (leNat bs % 256)) = 0 ∧
      tableCmd ⟨n, BitVec.ofNat 32 (bits (leNat bs) 95 64)⟩ (leNat bs % 256) (fun k => BitVec.ofNat 64 (leNat bs / 2 ^ (128 + 64 * k))) i ∧
      exec i (s.modIface n fun I => { I with sqt := v, sqh := I.sqh + 1#32 }) = .next t) ∧
    (∃ n, ∃ (v : Word) (s : State), ∃ bs, finds s n v bs ∧ cmdHeld s n = false ∧ leNat bs % 256 ≠ 1 ∧ leNat bs % 256 < 0x80) ∧
    (∃ n, ∃ (v : Word) (s : State), ∃ bs, finds s n v bs ∧ cmdHeld s n = false ∧ leNat bs % 256 ≠ 1 ∧ 0x92 < leNat bs % 256) ∧
    (∃ n, ∃ (v : Word) (s : State), ∃ bs, finds s n v bs ∧ cmdHeld s n = false ∧ 0x80 ≤ leNat bs % 256 ∧ leNat bs % 256 ≤ 0x92 ∧ bits (leNat bs) 63 8 ≠ 0) ∧
    (∃ n, ∃ (s : State), ∃ r rest ps, (s.iface n).held = r :: rest ∧ (s.iface n).full = false ∧ (s.iface n).func = 0 ∧
      guestParts s 0 true 2 ((s.iface n).cqb.toNat + 16 * ((s.iface n).cqt.toNat % max (s.iface n).cqn.toNat 1)) 16 = .ok ps ∧
      (∀ l ∈ s.launches, l.2.iface = n → l.2.posted.map (·.2) ≠ some (s.iface n).cqt.toNat)) ∧
    (∀ z : Bool, ∃ code n, decide (code = 0) = z ∧ ∃ (s : State), ∃ r rest ps id l, (s.iface n).held = r :: rest ∧ (s.iface n).full = false ∧
      guestParts s (s.iface n).func true 2 ((s.iface n).cqb.toNat + 16 * ((s.iface n).cqt.toNat % max (s.iface n).cqn.toNat 1)) 16 = .ok ps ∧
      (s.launches.map (·.1)).Nodup ∧ s.launches.find? (fun x => x.2.iface == n && (x.2.posted.map (·.2)) == some (s.iface n).cqt.toNat) = some (id, l) ∧
      l.posted = some (code, (s.iface n).cqt.toNat) ∧ ∃ k d, tget? s.launches k = some d ∧ d.dep = some id ∧ k ≠ id ∧ (tget? s.ctxs d.pasid).isSome ∧
      d.posted = none) ∧
    (∃ n, ∃ (v : Word) (s : State), n < 256 ∧ s.trust.links = true ∧ (s.iface n).cqt - v ≤ (s.iface n).cqn.zeroExtend 32 ∧ (s.iface n).sqh = (s.iface n).sqt) ∧
    (∃ k, ∃ (v : Word) (s : State), k < 66 ∧ s.trust.links = true ∧ (s.ring k).rt - v ≤ (s.ring k).rn.zeroExtend 32) ∧
    ∃ (s : State), s.trust.links = false :=
  ⟨⟨255, 0, mLinks id, by decide, rfl, by decide⟩, ⟨255, 0, mLinks fun I => { I with sqh := 0xFFFFFFFF#32, sqb := (0x3000 - 15 * 64 : Nat) }, _, by decide, rfl, by decide, by decide, by decide, rfl, by decide⟩,
    ⟨255, 1, mEntry 0x82 true, _, finds1 _ _ rfl, by decide, by decide⟩,
    ⟨255, 1, mEntry 0x85 false, _, _, _, finds1 _ _ rfl, by decide, by decide, by decide, by decide, by decide, rfl, rfl⟩,
    ⟨255, 1, mEntry 0x7F false, _, finds1 _ _ rfl, by decide, by decide, by decide⟩,
    ⟨255, 1, mEntry 0x93 false, _, finds1 _ _ rfl, by decide, by decide, by decide⟩,
    ⟨255, 1, mEntry 0x180 false, _, finds1 _ _ rfl, by decide, by decide, by decide, by decide⟩,
    ⟨255, mLinks fun I => { I with held := [7#128], cqt := 0xFFFFFFFF#32 }, _, _, _, rfl, by decide, rfl, rfl, by decide⟩,
    fun z => by
      cases z
      · exact ⟨1, 255, rfl, mSettle 1, _, _, _, 5, _, rfl, by decide, rfl, by decide, rfl, rfl, 6, _, rfl, rfl, by decide, by decide, rfl⟩
      · exact ⟨0, 255, rfl, mSettle 0, _, _, _, 5, _, rfl, by decide, rfl, by decide, rfl, rfl, 6, _, rfl, rfl, by decide, by decide, rfl⟩,
    ⟨255, 0xFFFFFFF0#32, mLinks id, by decide, rfl, by decide, by decide⟩, ⟨65, 0xFFFFFFF0#32, mLinks id, by decide, rfl, by decide⟩, m0, rfl⟩

set_option maxRecDepth 20000 in
theorem witness_RegisterPages :
    (∃ f, ∃ s : State, s.trust.links = true ∧ f ≠ 0) ∧
    (∃ off, ∃ (s : State), ∃ v, s.trust.links = true ∧ wideField s (off / 16 * 16) = some v ∧ off % 16 = 0) ∧
    (∃ off, ∃ (s : State), ∃ v, s.trust.links = true ∧ wideField s (off / 16 * 16) = some v ∧ off % 16 ≠ 0) ∧
    (∀ o < 0x41, o % 8 = 0 → ∃ f off, ∃ (s : State), ∃ n v, s.trust.links = true ∧ (f = 0 → wideField s (off / 16 * 16) = none) ∧ ringAt f off = none ∧
      ifaceAt s f 0x100000 off = some (n, o) ∧ ifaceWord (s.iface n) o = some v) ∧
    (∀ o < 0x29, o % 8 = 0 → ∃ f off, ∃ (s : State), ∃ k v, s.trust.links = true ∧ (f = 0 → wideField s (off / 16 * 16) = none) ∧ ringAt f off = some (k, o) ∧
      ringWord (s.ring k) o = some v) ∧
    (∃ off, ∃ (s : State), s.trust.links = true ∧ off ≠ 0 ∧ off ≠ 0x400190 ∧ wideField s (off / 16 * 16) = none ∧ ringAt 0 off = none ∧
      ifaceAt s 0 0x100000 off = none ∧ off < identityBase) ∧
    (∃ off, ∃ (s : State), s.trust.links = true ∧ off ≠ 0 ∧ off ≠ 0x400190 ∧ wideField s (off / 16 * 16) = none ∧ ringAt 0 off = none ∧
      ifaceAt s 0 0x100000 off = none ∧ identityBase ≤ off) ∧
    (∃ f off, ∃ (s : State), s.trust.links = true ∧ f ≠ 0 ∧ off ≠ 0 ∧ ringAt f off = none ∧ ifaceAt s f 0x100000 off = none) ∧
    (∀ o < 0x41, o % 8 = 0 → ∃ f off, ∃ (s : State), ∃ n, s.trust.links = true ∧ ringAt f off = none ∧ ifaceAt s f 0x100000 off = some (n, o)) ∧
    (∃ v : DWord, ∃ i < 12, v.extractLsb' 0 16 = BitVec.ofNat 16 (16 * 2 ^ i) ∧ v.extractLsb' 16 48 ≠ 0#48) ∧
    (∃ v : DWord, ∀ i < 12, v.extractLsb' 0 16 ≠ BitVec.ofNat 16 (16 * 2 ^ i)) ∧
    (∃ n, ∃ (v : DWord) (s : State), (s.iface n).cqt - v.extractLsb' 0 32 ≤ (s.iface n).cqn.zeroExtend 32 ∧ (s.iface n).sqh = (s.iface n).sqt) ∧
    (∃ k, ∃ (v : DWord) (s : State), (s.ring k).rt - v.extractLsb' 0 32 ≤ (s.ring k).rn.zeroExtend 32) ∧
    (∃ k, ∃ (v : DWord) (s : State), (s.ring k).rn.zeroExtend 32 < (s.ring k).rt - v.extractLsb' 0 32) ∧
    ∀ o < 0x29, o % 8 = 0 → ∃ f off, ∃ (s : State), ∃ k, s.trust.links = true ∧ ringAt f off = some (k, o) := by
  refine ⟨⟨63, mLinks id, rfl, by decide⟩, ⟨0x400180, mLinks id, _, rfl, rfl, by decide⟩, ⟨0x32FFF8, mLinks id, _, rfl, rfl, by decide⟩, fun o ho h8 => ?_,
    fun o ho h8 => ?_, ⟨0x10, mLinks id, rfl, by decide, by decide, by decide, by decide, by decide, by unfold identityBase; omega⟩, ?_,
    ⟨63, 0x140, mLinks id, rfl, by decide, by decide, by decide, by decide⟩,
    fun o ho h8 => ?_, ⟨0xFFFFFFFFFFFF8000, 11, by decide, by decide, by decide⟩, ⟨0x11, by decide⟩, ⟨255, 0xFFFFFFF0, mLinks id, by decide, by decide⟩,
    ⟨65, 0xFFFFFFF0, mLinks id, by decide⟩, ⟨65, 1, mLinks id, by decide⟩, fun o ho h8 => ?_⟩
  case refine_3 =>
    have h1 : identityBase / 16 * 16 ≥ 0x401000 := by unfold identityBase; omega
    have h2 : identityBase ≥ 0x401000 := by unfold identityBase; omega
    refine ⟨identityBase, mLinks id, rfl, by omega, by omega, ?_, ?_, ?_, Nat.le_refl _⟩
    · unfold wideField; rw [if_neg (by omega), if_neg (by omega), if_neg (by omega)]
    · unfold ringAt; rw [if_neg (by omega), if_neg (by omega), if_neg (by omega), if_neg (by omega)]
    · unfold ifaceAt; rw [if_neg (by omega)]
  case refine_1 =>
    refine ⟨0, 0x1FF000 + o, mLinks id, 255, (ifaceWord ((mLinks id).iface 255) o).getD 0, rfl, ?_⟩
    have h : ∀ o < 0x41, o % 8 = 0 → (0 = 0 → wideField (mLinks id) ((0x1FF000 + o) / 16 * 16) = none) ∧ ringAt 0 (0x1FF000 + o) = none ∧
        ifaceAt (mLinks id) 0 0x100000 (0x1FF000 + o) = some (255, o) ∧
        ifaceWord ((mLinks id).iface 255) o = some ((ifaceWord ((mLinks id).iface 255) o).getD 0) := by decide
    exact h o ho h8
  case refine_2 =>
    refine ⟨0, 0x180 + o, mLinks id, 65, (ringWord ((mLinks id).ring 65) o).getD 0, rfl, ?_⟩
    have h : ∀ o < 0x29, o % 8 = 0 → (0 = 0 → wideField (mLinks id) ((0x180 + o) / 16 * 16) = none) ∧ ringAt 0 (0x180 + o) = some (65, o) ∧
        ringWord ((mLinks id).ring 65) o = some ((ringWord ((mLinks id).ring 65) o).getD 0) := by decide
    exact h o ho h8
  case refine_4 =>
    have h : ∀ o < 0x41, o % 8 = 0 → ringAt 0 (0x1FF000 + o) = none ∧ ifaceAt (mLinks id) 0 0x100000 (0x1FF000 + o) = some (255, o) := by decide
    exact ⟨0, 0x1FF000 + o, mLinks id, 255, rfl, h o ho h8⟩
  case refine_5 =>
    have h : ∀ o < 0x29, o % 8 = 0 → ringAt 63 (0x100 + o) = some (64, o) := by decide
    exact ⟨63, 0x100 + o, mLinks id, 64, rfl, h o ho h8⟩

/-- A descriptor of context 2^20 − 1 of world 0 and function 0, at 0x3000. -/
def desc1 : Nat := 2 ^ 20 - 1 + 2 ^ 40 + 2 ^ 48 + 0x1000 * 2 ^ 64 + 4 * 2 ^ 128 + 2 ^ 192 + 2 ^ 64 * 2 ^ 192 * 1
def mNew : State := { mB with mem := { mB.mem with hbm := mB.mem.hbm.write 0x3000 (natBytes 64 desc1) } }
set_option maxRecDepth 20000 in
theorem witness_ContextCommands :
    (∃ (q : Cmd) (a n : DWord) (s : State), ∃ bs, (s.iface q.iface).func = 0 ∧ n.toNat < 256 ∧ guestRead s 0 a.toNat 64 = .ok bs ∧ descOk (leNat bs) = true ∧
      tget? s.ctxs (leNat bs % 2 ^ 20) = none ∧ (s.iface n.toNat).pasid = none ∧ (s.iface n.toNat).func = leNat bs / 2 ^ 26 % 64 ∧
      (tget? s.worlds (leNat bs / 2 ^ 20 % 64)).map (·.ending) = some none) ∧
    (∃ (q : Cmd) (a n : DWord) (s : State), ∃ bs, (s.iface q.iface).func = 0 ∧ n.toNat < 256 ∧ guestRead s 0 a.toNat 64 = .ok bs ∧ descOk (leNat bs) = false) ∧
    (∃ (q : Cmd) (iw wt rate capb : DWord) (s : State), ∃ p c, actsOn s q p c ∧ 1 ≤ iw.toNat ∧ iw.toNat ≤ 255 ∧ 1 ≤ wt.toNat ∧ wt.toNat ≤ 65535 ∧
      rate.toNat < 2 ^ 32 ∧ 1 ≤ capb.toNat ∧ capb.toNat ≤ 2 ^ 62) ∧
    (∃ (q : Cmd) (p : DWord) (s : State), ∃ c, (s.iface q.iface).func = 0 ∧ p.toNat < 2 ^ 20 ∧ tget? s.ctxs p.toNat = some c) ∧
    (∃ (q : Cmd) (f n w : DWord) (s : State), ∃ k p, (s.iface q.iface).func = 0 ∧ f.toNat < 64 ∧ n.toNat < 2 ^ 17 ∧ n.toNat % 256 + n.toNat / 256 ≤ 256 ∧
      1 ≤ w.toNat ∧ w.toNat ≤ 15 ∧ (∀ k, n.toNat % 256 ≤ k → k < n.toNat % 256 + n.toNat / 256 → ∀ p, (s.iface k).pasid = some p →
        (tget? s.ctxs p).map (·.func) = some f.toNat) ∧ n.toNat % 256 ≤ k ∧ k < n.toNat % 256 + n.toNat / 256 ∧ (s.iface k).pasid = some p) ∧
    ∃ (q : Cmd) (f n w : DWord) (s : State), ∃ k p, (s.iface q.iface).func = 0 ∧ f.toNat < 64 ∧ n.toNat < 2 ^ 17 ∧ n.toNat % 256 + n.toNat / 256 ≤ 256 ∧
      1 ≤ w.toNat ∧ w.toNat ≤ 15 ∧ n.toNat % 256 ≤ k ∧ k < n.toNat % 256 + n.toNat / 256 ∧ (s.iface k).pasid = some p ∧
      (tget? s.ctxs p).map (·.func) ≠ some f.toNat :=
  ⟨⟨cmd1, 0x3000, 255, mNew, _, rfl, by decide, rfl, by decide, by decide, by decide, by decide, by decide⟩,
    ⟨cmd1, 0x4000, 255, mNew, _, rfl, by decide, rfl, by decide⟩,
    ⟨cmd1, 255, 65535, 0xFFFFFFFF#64, 0x4000000000000000#64, mB, 0, ctxM, acts1, by decide, by decide, by decide, by decide, by decide, by decide, by decide⟩,
    ⟨cmd1, 0, mB, _, rfl, by decide, rfl⟩, ⟨cmd1, 0, 256 * 256, 15, mB, 0, 0, rfl, by decide, by decide, by decide, by decide, by decide, fun k _ _ p h => by
      by_cases hk : k = 0
      · subst hk; cases h; rfl
      · simp [mB, State.iface, tgetD, tget?, Ne.symm hk, Iface.reset] at h, by decide, by decide, rfl⟩,
    cmd1, 63, 1 * 256, 15, mB, 0, 0, rfl, by decide, by decide, by decide, by decide, by decide, by decide, by decide, rfl, by decide⟩

def img (ok : Bool) : BootImage := ⟨0, ok, 15, 0, 0⟩
set_option maxRecDepth 20000 in
theorem witness_BootAndSideband :
    (∃ (s : State), ∃ a c, s.boot = 0 ∧ s.ready = false ∧ (∀ k < 16, outOfOrder s.trust k = false) ∧ stageOk (completeFuses s.trust) a = true ∧
      stageOk (completeFuses s.trust) c = true ∧ ∃ k < 1536, ∃ p, (s.core k).phys = some p ∧ p < 34 ∧ ∀ j < 32, 32 * clusterOf k + j ≠ k →
        (s.core (32 * clusterOf k + j)).phys ≠ some p) ∧
    (∃ (s : State), ∃ k, s.boot = 0 ∧ s.ready = false ∧ (List.range 16).find? (outOfOrder s.trust) = some k) ∧
    (∃ (s : State), ∃ a, s.boot = 0 ∧ s.ready = false ∧ (∀ k < 16, outOfOrder s.trust k = false) ∧ stageOk (completeFuses s.trust) a = false) ∧
    (∃ k, ∃ (s : State), k < 1536 ∧ (s.core k).remap = true ∧ (∀ b ∈ s.blocks, b.2.home = k → b.2.phase.onCore = false) ∧ (s.core k).wc = []) ∧
    (∃ k, ∃ (s : State), ∃ b B, k < 1536 ∧ (s.core k).remap = true ∧ tget? s.blocks b = some B ∧ B.phase = .resident ∧ B.home = k) ∧
    (∃ d, ∃ (s : State), d < 24 ∧ (s.die d).inService = true) ∧
    ∃ d k n, ∃ (s : State), d < 24 ∧ k < 68 ∧ (List.range 32).find? (fun n => (s.core (32 * (2 * d + k / 34) + n)).phys == some (k % 34)) = some n :=
  ⟨⟨State.reset, img true, img true, rfl, rfl, by decide, by decide, by decide, 1535, by decide, 31, by decide, by decide, by decide⟩,
    ⟨{ State.reset with trust := { State.reset.trust with fuses := [(15 * 64 + 63, 1#2)] } }, 15, rfl, rfl, by decide⟩,
    ⟨State.reset, img false, rfl, rfl, by decide, by decide⟩,
    ⟨1535, { m0 with cores := [(1535, { Core.reset 1535 with remap := true })] }, by decide, rfl, by decide, rfl⟩,
    ⟨0, { m0 with cores := [(0, { Core.reset 0 with remap := true })] }, 2, _, by decide, rfl, rfl, rfl, rfl⟩,
    ⟨23, m0, by decide, rfl⟩, 23, 65, 31, m0, by decide, by decide, by decide⟩

/-! ### Steps -/

/-- A word at group scope, with a diverged lane that has not come to it; the word of `w` in issue, and its turn. -/
def mWait : State :=
  { withG (mach 0x01000000) fun G => { G with stream := { G.stream with lanes := ~~~1#64 }, div := [(0, { group0.stream with lanes := 1#64, cl := none })] } with ctxs := [(0, ctxM)] }
set_option maxRecDepth 20000 in
theorem witness_StepRunsDecoded_fetch : (∃ (s : State), ∃ die pasid k a n x h mt u, ∃ grid : Nat, capCheck (k.setCur a) 0 (4 * n) Perm.x = .ok x ∧
      translate s die pasid k x (4 * n) false true = .ok [(h, 4 * n, mt)] u ∧ badLine u h (4 * n) = none ∧ u.mem.images = [] ∧
      (∀ j < n, tgetD u.mem.stamp ((h + 4 * j) / 4) 0 ≤ grid)) ∧
    ∃ (s : State), ∃ r i h ws hdr u, want s r i = .issue h ws hdr u :=
  ⟨⟨mC, 0, 0, rootCap 1 0 Perm.x 0 (2 ^ 25), 0, 15, _, _, _, _, 1, rfl, rfl, by decide, rfl, by decide⟩,
    mC, ref0, newGroup (rootCap 1 0 (Perm.x + Perm.r) 0 (2 ^ 25)) [] [] 0 |>.stream, _, _, _, _, rfl⟩
set_option maxRecDepth 20000 in
theorem witness_StepRunsDecoded_word (here : Bool) :
    ∃ (s0 : State), ∃ r rest G i c eng, s0.agenda = .word r :: rest ∧
    let s := { s0 with agenda := rest }
    let e := wordScope eng (c.words.getD c.off 0#32)
    let s1 := if replayable s r.blk then takeTurn s r else s
    let s2 := if e ≠ .lane ∧ i.wait = .go then s1.modIssuer r fun i => { i with wait := .rdv e } else s1
    let o := opc ((c.words.drop c.off).headD 0#32)
    s.grp? r.blk r.gidx = some G ∧ s.issuer? r = some i ∧ i.cl = some c ∧ engOf (c.hdr.extractLsb' 4 3).toNat = some eng ∧ G.susp = [] ∧
      i.lanes ≠ 0#64 ∧ c.idx ≠ 0 ∧ mayRun s r.blk = true ∧ inTurn s r = true ∧ (replayable s r.blk = true ∨ G.mayWord r.iss = true) ∧ (∀ x ∈ s.ctxs, x.2.armed = none) ∧
      (pointOf s2 r i e).isSome = here ∧ ∃ ins k, decodeAt eng (c.words.drop c.off) = .ok (ins, k) ∧
      (privileged eng o = true → supervisor s2 (pasidOf s2 r.blk) = true) ∧ (transfers eng o = true → (c.words.drop c.off).length ≤ 1) ∧
      ¬(eng = .ctl ∧ o = 0x10 ∧ c.idx ≠ 1) := by
  cases here
  · exact ⟨mWait, ref0, [], _, _, _, _, rfl, rfl, rfl, rfl, rfl, by decide, by decide, by decide, by decide, by decide, .inr (by decide), by decide, by decide, .nop .group, 1,
      by decide, by decide, by decide, by decide⟩
  · exact ⟨mach 0x01000000, ref0, [], _, _, _, _, rfl, rfl, rfl, rfl, rfl, by decide, by decide, by decide, by decide, by decide, .inr (by decide), by decide, by decide, .nop .group, 1,
      by decide, by decide, by decide, by decide⟩
set_option maxRecDepth 20000 in
theorem witness_StepRunsDecoded_turns : (∃ (s : State), ∃ i rest, s.agenda = .event i :: rest) ∧
    (∃ (s : State), ∃ n rest, s.agenda = .submission n :: rest ∧ takeEntry { s with agenda := rest } n = none) ∧
    (∃ (s : State), ∃ n rest t, s.agenda = .submission n :: rest ∧ takeEntry { s with agenda := rest } n = some t) ∧
    (∃ (s : State), ∃ n rest, s.agenda = .elapse n :: rest) ∧
    ∃ t : State, t.parks = [] ∧ ∀ x ∈ t.groups, x.2.hold = none ∧ ∀ n j e, x.2.issuer? n = some j → j.wait ≠ .rdv e :=
  ⟨⟨{ m0 with agenda := [.event .refreshWindowStart] }, _, _, rfl⟩, ⟨{ m0 with agenda := [.submission 0] }, _, _, rfl, rfl⟩,
    ⟨{ mLinks (fun I => { I with sqt := 1#32 }) with agenda := [.submission 255] }, _, _, _, rfl, rfl⟩, ⟨{ m0 with agenda := [.elapse 7] }, _, _, rfl⟩, { m0 with groups := [] }, rfl, by simp⟩
theorem witness_DecodeEncode : ∃ (i : Instr) (k : Eng), i.wf = true ∧ i.eng = some k := ⟨.vselB32 .block (.reg 63) (.reg 2 true) (.chan 3 true) ⟨4, true⟩, .vint, by decide, rfl⟩
theorem witness_AcceptedWordsAreEncodings : ∃ k ws i n, decodeAt k ws = .ok (i, n) := ⟨.uni, [0x00040406#32], _, _, rfl⟩
set_option maxRecDepth 20000 in
theorem witness_MemoryStaysCanonical : ∃ s t, Memory.wf s = true ∧ step s = .next t := ⟨mach 0, _, by decide, rfl⟩

/-- What a step of a machine leaves, seen through a function. -/
def after {α : Type} (s : State) (f : State → α) : Option α := match step s with
  | .next t => some (f t)
  | _ => none
/-- A machine with a word in issue whose group is changed first. -/
def ran {α : Type} (w : Nat) (g : Group → Group) (f : State → α) : Option α := after (withG (mach w) g) f

/-- The machine with a clause of a class in issue, its words from the first, and its word as the next turn. -/
def machE (e : Eng) (ws : List Word) (g : Group → Group) : State :=
  let s := State.reset.withClause { addr := 0, hdr := plainHeader e ws.length, words := ws, guard := ~~~0#64, idx := 1, off := 0 }
  withG s g
def runs {α : Type} (e : Eng) (ws : List Word) (g : Group → Group) (f : State → α) : Option α := after (machE e ws g) f
def sOf (s : State) (r : Nat) : DWord := s.sAt 64 r
def vOf (s : State) (r l : Nat) : Option VCell := s.cellAt 64 r l

set_option maxRecDepth 20000

/-- R181: 2^64 − 1 + 1 is 0, and a last-use source reads zero afterwards (R58). -/
theorem test_sadd_wraps : runs .uni [word 0 0 1 0x42 3] (fun G => (G.putS 2 0xFFFFFFFFFFFFFFFF#64).putS 3 1#64) (fun s => (sOf s 1, sOf s 2, sOf s 3)) =
    some (0#64, 0#64, 1#64) := by decide
/-- R181: 2^32 − 1 + 2 is 1 in lane 63, and a lane that holds nothing reads zero. -/
theorem test_vadd_wraps : runs .vint [word 0 0 1 1 2] (fun G => (G.setCell 1 63 (.val 0xFFFFFFFF#32)).setCell 2 63 (.val 2#32)) (fun s => (vOf s 1 63, vOf s 1 0)) =
    some (some (.val 1#32), some (.val 0#32)) := by decide
/-- R237: 1 + 2^−24 is a tie, which goes to the even 1. -/
theorem test_fadd_ties_to_even : runs .vflt [word 0 0 5 1 2] (fun G => (G.setCell 1 7 (.val 0x3F800000#32)).setCell 2 7 (.val 0x33800000#32)) (fun s => vOf s 5 7) =
    some (some (.val 0x3F800000#32)) := by decide
/-- R154: a jump goes to its word offset from the clause header; the issuer is at the clause boundary. -/
theorem test_jmp_target : runs .ctl [word 1 0 0 0 4] id (fun s => (s.grp? 2 0).map fun G => (G.stream.code.cur, G.stream.cl.isNone)) = some (some (16, true)) := by decide
/-- R157: every lane that exits is gone from its issuer. -/
theorem test_exit_all : runs .ctl [word 8 0 0 0 0] id (fun s => ((s.grp? 2 0).map fun G => (G.exited, G.stream.lanes), s.nextId)) =
    some (some (0xFFFFFFFFFFFFFFFF#64, 0#64), 3) := by decide
/-- R65, R283, Table 21.2: an opcode with no meaning parks the lanes with code 0x02 in one record. -/
theorem test_illegal_op_parks : runs .uni [word 63 0 0 0 0] id (fun s => ((s.grp? 2 0).map (·.parked), s.parks.map fun p => (p.2.code, p.2.recs.length))) =
    some (some 0xFFFFFFFFFFFFFFFF#64, [(0x02, 1)]) := by decide
/-- R31: an active set that is empty has no effect, and the word retires. -/
theorem test_empty_set : after { machE .vint [word 0 0 1 1 2] (fun G => { G with stream := { G.stream with cl := G.stream.cl.map fun c => { c with guard := 0#64 } } }) with nextId := 3 }
    (fun s => (vOf s 1 0, (s.grp? 2 0).map (·.stream.cl))) = some (none, some none) := by decide
/-- R15: REFT counts nanoseconds; 250 of them end no tick of 10 µs. -/
theorem test_reft_elapses : after { m0 with agenda := [.elapse 250] } (fun s => (s.reft, s.energy.tick)) = some (250, 0) := by decide
/-- R138: at REFT 7,750 ns the window is on bank 31 of every die. -/
theorem test_refresh_bank : after { m0 with reft := 7750, agenda := [.event .refreshWindowStart] } (fun s => ((s.die 0).refresh, (s.die 23).refresh)) =
    some (some 31, some 31) := by decide
/-- R329: a fuse pair above an unblown one stops the boot in state 2. -/
theorem test_fuse_order : after { State.reset with trust := { State.reset.trust with fuses := [(1, 1#2)] }, agenda := [.event (.boot ⟨[], []⟩)] } (fun s => (s.boot, s.trust.bootLog)) =
    some (2, [.fuse 0]) := by decide

end Sys2Proof.Tests
end

section
/-!
PROOFS. What reset leaves, and reads and writes of the register pages (R14, R15, R315, R341, R342, R346, R348): the page that an offset
names, what its register reads, and what a write of it does.
-/

namespace Sys2Proof.Machine

/-! ### Reset (R15, R348) -/

/-- Settles O29: every table is empty at reset, so that each read gives the entry's reset value. -/
theorem resetValues : Obligations.ResetValues := by
  refine ⟨rfl, rfl, rfl, fun _ => ?_, fun _ => ?_, fun _ => ?_, fun _ => ⟨rfl, rfl⟩, fun _ => rfl, fun _ => rfl, fun _ => rfl, Memory.wf_reset⟩
  · exact ⟨rfl, rfl, rfl, rfl, rfl, rfl, rfl, rfl, rfl, rfl, rfl⟩
  · exact ⟨rfl, rfl, rfl, rfl, rfl, rfl⟩
  · exact ⟨rfl, rfl, rfl, rfl, rfl⟩

/-! ### Register pages: where an offset lies (R341, R346) -/

theorem ringAt_lt {f off k o : Nat} (h : ringAt f off = some (k, o)) : k < 66 := by
  unfold ringAt at h
  split_ifs at h <;> cases h <;> omega

theorem ringAt_off {f off : Nat} {x : Nat × Nat} (h : ringAt f off = some x) : 0x100 ≤ off ∧ off < 0x1C0 := by
  unfold ringAt at h
  split_ifs at h <;> omega

theorem ifaceAt_lt {s : State} {f off n o : Nat} (h : ifaceAt s f 0x100000 off = some (n, o)) : n < 256 := by
  unfold ifaceAt at h
  dsimp only at h
  split_ifs at h
  cases h; omega

theorem ifaceAt_off {s : State} {f off : Nat} {x : Nat × Nat} (h : ifaceAt s f 0x100000 off = some x) : 0x100000 ≤ off ∧ off < 0x200000 := by
  unfold ifaceAt at h
  dsimp only at h
  split_ifs at h
  omega

/-- TREJ's page holds no wide field (Table 29.8). -/
theorem wideField_trej (s : State) : wideField s (0x400190 / 16 * 16) = none := rfl

/-! ### Reads -/

/-- The two reads of TREJ by the physical function (Table 29.8). -/
theorem exec_readTrej {i : Instr} {s : State} (hi : i = .trej 0 ∨ i = .latchedHalfRead 0 0x400190) (hl : s.trust.links = true) :
    exec i s = .next (readTrej s) := by
  rcases hi with rfl | rfl
  · simp [execTrej, hl]
  · simp [execLatchedHalfRead, hl]

/-- A read of a wide field: its low half latches the high half, which the next read of the high half gives. -/
theorem read_wide {s : State} {off v : Nat} (hl : s.trust.links = true) (hv : wideField s (off / 16 * 16) = some v) :
    exec (.latchedHalfRead 0 off) s = .next (if off % 16 = 0 then
        { s with reply := natBytes 8 v, latch := tput s.latch 0 (BitVec.ofNat 64 (v / 2 ^ 64)) 0#64 }
      else { s with reply := natBytes 8 (tgetD s.latch 0 0#64).toNat }) := by
  have ho : off ≠ 0x400190 := by
    rintro rfl
    rw [wideField_trej] at hv; cases hv
  simp [execLatchedHalfRead, hl, ho, hv]

/-- The value of an offset that is no half of a wide field. -/
def narrowRead (s : State) (f off : Nat) : Nat :=
  match ringAt f off with
  | some (k, o) => readRing s k o
  | none => match ifaceAt s f 0x100000 off with
    | some (n, o) => readIface s n o
    | none => if off = 0 ∧ s.ready then 1 else if f = 0 ∧ off ≠ 0 then leNat (identityAt off) else 0

theorem read_narrow {s : State} {f off : Nat} (hl : s.trust.links = true) (ho : ¬(f = 0 ∧ off = 0x400190))
    (hw : f = 0 → wideField s (off / 16 * 16) = none) :
    exec (.latchedHalfRead f off) s = .next { s with reply := natBytes 8 (narrowRead s f off) } := by
  have hn : (if f = 0 then wideField s (off / 16 * 16) else none) = none := by
    split
    · exact hw ‹_›
    · rfl
  rw [exec_latchedHalfRead]
  unfold execLatchedHalfRead
  rw [hl, if_neg (by simp), if_neg ho, hn]
  rfl

theorem narrowRead_ring {s : State} {f off k o : Nat} (h : ringAt f off = some (k, o)) : narrowRead s f off = readRing s k o := by
  simp only [narrowRead, h]

theorem narrowRead_iface {s : State} {f off n o : Nat} (hr : ringAt f off = none) (h : ifaceAt s f 0x100000 off = some (n, o)) :
    narrowRead s f off = readIface s n o := by
  simp only [narrowRead, hr, h]

theorem narrowRead_other {s : State} {f off : Nat} (hr : ringAt f off = none) (h : ifaceAt s f 0x100000 off = none) :
    narrowRead s f off = if off = 0 ∧ s.ready then 1 else if f = 0 ∧ off ≠ 0 then leNat (identityAt off) else 0 := by
  simp only [narrowRead, hr, h]

/-- Table 29.6's registers read as the statement's table says. -/
theorem readRing_eq {s : State} {k o v : Nat} (h : ringWord (s.ring k) o = some v) : readRing s k o = v := by
  unfold ringWord at h
  split at h <;> cases h <;> rfl

/-- Table 29.1's registers read as the statement's table says. -/
theorem readIface_eq {s : State} {n o v : Nat} (h : ifaceWord (s.iface n) o = some v) : readIface s n o = v := by
  unfold ifaceWord at h
  split at h <;> cases h <;> rfl

/-! ### Writes -/

theorem write_iface {s : State} {f off n o : Nat} (v : DWord) (hl : s.trust.links = true) (hr : ringAt f off = none)
    (h : ifaceAt s f 0x100000 off = some (n, o)) : exec (.registerWrite f off v) s = .next (writeIface s n o v) := by
  simp [execRegisterWrite, hl, hr, h]

theorem write_ring {s : State} {f off k o : Nat} (v : DWord) (hl : s.trust.links = true) (h : ringAt f off = some (k, o)) :
    exec (.registerWrite f off v) s = .next (writeRing s k o v) := by
  simp [execRegisterWrite, hl, h]

/-- The ring sizes: the powers of two from 16 to 32,768 (Tables 29.1, 29.6). -/
theorem sizeOk_iff (v : DWord) : sizeOk v = true ↔ ∃ i < 12, v.extractLsb' 0 16 = BitVec.ofNat 16 (16 * 2 ^ i) := by
  simp [sizeOk]

@[simp] theorem State.iface_modIface_self (s : State) (n : Nat) (g : Iface → Iface) : (s.modIface n g).iface n = g (s.iface n) := by
  simp [State.iface]

/-- No entry is left to take where the head has come to the tail (R343). -/
theorem takeAll_of_caught_up {s : State} {n : Nat} (m : Nat) (h : (s.iface n).sqh = (s.iface n).sqt) : takeAll m s n = s := by
  cases m with
  | zero => rfl
  | succ m => simp [takeAll, takeEntry, h]

/-- R343: a count of records consumed that is within the ring, where no entry waits to be taken. -/
theorem execCqh_of_caught_up {s : State} {n : Nat} {v : Word} (hn : n < 256) (hl : s.trust.links = true)
    (hv : (s.iface n).cqt - v ≤ (s.iface n).cqn.zeroExtend 32) (h : (s.iface n).sqh = (s.iface n).sqt) :
    execCqh n v s = .next (s.modIface n fun I => { I with cqh := v }) := by
  have hv' : ¬(s.iface n).cqn.zeroExtend 32 < (s.iface n).cqt - v := BitVec.not_lt.mpr hv
  unfold execCqh
  rw [if_neg (by simp only [hl, Bool.not_true, Bool.or_false, Bool.or_eq_true, decide_eq_true_eq, not_or]; exact ⟨by omega, hv'⟩),
    takeAll_of_caught_up]
  simpa using h

/-- R343: the consumer's count of a ring block. -/
theorem execRh_eq {s : State} {k : Nat} (v : Word) (hk : k < 66) (hl : s.trust.links = true) :
    execRh k v s = .next (if (s.ring k).rn.zeroExtend 32 < (s.ring k).rt - v then s else s.modRing k fun R => { R with rh := v }) := by
  unfold execRh
  by_cases h : (s.ring k).rn.zeroExtend 32 < (s.ring k).rt - v
  · rw [if_pos h, if_pos (by simp [h])]
  · rw [if_neg h, if_neg (by simp only [hl, Bool.not_true, Bool.or_false, Bool.or_eq_true, decide_eq_true_eq, not_or]; exact ⟨by omega, h⟩)]

/-- A write whose low 12 bits must be zero. -/
theorem writeIface_base {s : State} {n o : Nat} {v : DWord} (ho : o = 0x00 ∨ o = 0x18) (hv : v.toNat % 4096 ≠ 0) : writeIface s n o v = s := by
  rcases ho with rfl | rfl <;> exact if_neg hv

theorem writeIface_size {s : State} {n o : Nat} {v : DWord} (ho : o = 0x08 ∨ o = 0x20) (hv : sizeOk v = false) : writeIface s n o v = s := by
  rcases ho with rfl | rfl <;> simp [writeIface, hv]

theorem writeIface_readOnly {s : State} {n o : Nat} {v : DWord} (ho : o = 0x10 ∨ o = 0x28 ∨ o = 0x40) : writeIface s n o v = s := by
  rcases ho with rfl | rfl | rfl <;> rfl

theorem writeRing_readOnly {s : State} {k o : Nat} {v : DWord} (ho : o = 0x10 ∨ o = 0x28) : writeRing s k o v = s := by
  rcases ho with rfl | rfl <;> rfl

theorem sizeOk_false {v : DWord} (h : ∀ i < 12, v.extractLsb' 0 16 ≠ BitVec.ofNat 16 (16 * 2 ^ i)) : sizeOk v = false := by
  rw [Bool.eq_false_iff, ne_eq, sizeOk_iff]
  rintro ⟨i, hi, e⟩
  exact h i hi e

/-! ### The statement -/

/-- Settles O58: each access is that of the one register whose page and offset it names, and the registers follow Tables 29.1, 29.6, 29.8. -/
theorem registerPages : Obligations.RegisterPages := by
  refine ⟨?trej, ?trejOther, ?wideLow, ?wideHigh, ?readIface, ?ready, ?readRing, ?identity, ?other, ?writeIface, ?writeRing⟩
  case trej =>
    intro i s hi hl
    refine ⟨_, exec_readTrej hi hl, rfl, fun c hc => ?_, rfl⟩
    obtain ⟨x, -, rfl⟩ := List.mem_map.mp hc
    rfl
  case trejOther =>
    intro f s hl hf
    simp [execTrej, hl, hf]
  case wideLow =>
    intro off s v hl hv ho
    exact ⟨_, (read_wide hl hv).trans (congrArg _ (if_pos ho)), rfl, tgetD_tput_self .., rfl⟩
  case wideHigh =>
    intro off s v hl hv ho
    rw [read_wide hl hv, if_neg ho]
  case readIface =>
    intro f off s n o v hl hw hr hi hv
    have := ifaceAt_off hi
    rw [read_narrow hl (by omega) hw, narrowRead_iface hr hi, readIface_eq hv]
  case ready =>
    intro f s hl
    rw [read_narrow hl (by omega) fun _ => rfl, narrowRead_other (by simp [ringAt]) (by simp [ifaceAt])]
    simp
  case readRing =>
    intro f off s k o v hl hw hr hv
    have := ringAt_off hr
    rw [read_narrow hl (by omega) hw, narrowRead_ring hr, readRing_eq hv]
  case identity =>
    intro off s hl h0 ht hw hr hi
    rw [read_narrow hl (by omega) fun _ => hw, narrowRead_other hr hi, if_neg (by simp [h0]), if_pos ⟨rfl, h0⟩, identityAt, apply_ite leNat]
    rfl
  case other =>
    intro f off s hl hf h0 hr hi
    rw [read_narrow hl (by omega) fun h => absurd h hf, narrowRead_other hr hi, if_neg (by simp [h0]), if_neg (by simp [hf])]
  case writeIface =>
    intro f off v s n o hl hr hi
    rw [write_iface v hl hr hi]
    refine ⟨?_, ?_, ?_, ?_, fun ho hv => ?_, fun ho hv => ?_, ?_, ?_, fun ho => ?_⟩
    · rintro rfl hv; exact congrArg _ (if_pos hv)
    · rintro rfl hv; exact congrArg _ (if_pos hv)
    · rintro j hj rfl hv; rw [← hv]; exact congrArg _ (if_pos ((sizeOk_iff v).mpr ⟨j, hj, hv⟩))
    · rintro j hj rfl hv; rw [← hv]; exact congrArg _ (if_pos ((sizeOk_iff v).mpr ⟨j, hj, hv⟩))
    · rw [writeIface_size ho (sizeOk_false hv)]
    · rw [writeIface_base ho hv]
    · rintro rfl hv h; exact congrArg (fun x => Host.Outcome.next (onward s x)) (execCqh_of_caught_up (ifaceAt_lt hi) hl hv h)
    · rintro rfl; rfl
    · rw [writeIface_readOnly ho]
  case writeRing =>
    intro f off v s k o hl hr
    have hk := ringAt_lt hr
    rw [write_ring v hl hr]
    refine ⟨?_, ?_, ?_, ?_, ?_, ?_, ?_, fun ho => ?_⟩
    · rintro rfl hv; exact congrArg _ (if_pos hv)
    · rintro rfl hv; exact congrArg _ (if_neg hv)
    · rintro j hj rfl hv; rw [← hv]; exact congrArg _ (if_pos ((sizeOk_iff v).mpr ⟨j, hj, hv⟩))
    · rintro rfl hv; exact congrArg _ (if_neg (by simp [sizeOk_false hv]))
    · rintro rfl hv; simp only [writeRing, execRh_eq _ hk hl, if_neg (BitVec.not_lt.mpr hv), onward]
    · rintro rfl hv; simp only [writeRing, execRh_eq _ hk hl, if_pos hv, onward]
    · rintro rfl; rfl
    · rw [writeRing_readOnly ho]

end Sys2Proof.Machine
end

section
/-!
PROOFS. Slices, owners of words and loss notices (R139): what an access to the slices may touch, and what a line that leaves its slice takes with it.
-/

namespace Sys2Proof.Machine

/-! ### `memSide`: what an access at a home may touch (R139, R298) -/

theorem funcs_of_memSide {s t : State} (h : memSide s t) : t.funcs = s.funcs := (congrArg State.funcs h.2.1 :)
theorem scrubQ_of_memSide {s t : State} (h : memSide s t) : t.mem.scrubQ = s.mem.scrubQ := (congrArg Mem.scrubQ h.2.2.1 :)
theorem wc_of_memSide {s t : State} (h : memSide s t) (k : Nat) : (t.core k).wc = (s.core k).wc := (congrArg Core.wc (h.2.2.2.2.1 k) :)

/-! ### `sliceSide`: what an access to the slices may touch (R139) -/

/-- Apart from free values, charges on their way, the owners of words, the slices and the L1s, nothing changes. -/
structure sliceSide (s t : State) : Prop where
  rest : { t with free := s.free, energy := s.energy, dies := s.dies, cores := s.cores, mem := s.mem } = s
  mem : { t.mem with wordOwner := s.mem.wordOwner } = s.mem
  die : ∀ d, { t.die d with llc := [] } = { s.die d with llc := [] }
  core : ∀ k, { t.core k with l1 := [], l1Order := [] } = { s.core k with l1 := [], l1Order := [] }

namespace sliceSide

theorem refl (s : State) : sliceSide s s := ⟨rfl, rfl, fun _ => rfl, fun _ => rfl⟩

theorem trans {s t u : State} (h : sliceSide s t) (h' : sliceSide t u) : sliceSide s u where
  rest := (congrArg (fun x : State => { x with free := s.free, energy := s.energy, dies := s.dies, cores := s.cores, mem := s.mem }) h'.rest :).trans h.rest
  mem := (congrArg (fun m : Mem => { m with wordOwner := s.mem.wordOwner }) h'.mem :).trans h.mem
  die d := (h'.die d).trans (h.die d)
  core k := (h'.core k).trans (h.core k)

theorem ite {p : Prop} [Decidable p] {s t u : State} (ht : sliceSide s t) (hu : sliceSide s u) : sliceSide s (if p then t else u) := by
  split
  · exact ht
  · exact hu

theorem ite_trans_right {p : Prop} [Decidable p] {s t u : State} (ht : sliceSide s t) (hu : sliceSide t u) : sliceSide s (if p then t else u) :=
  ite ht (trans ht hu)

theorem ite_trans_left {p : Prop} [Decidable p] {s t u : State} (ht : sliceSide s t) (hu : sliceSide t u) : sliceSide s (if p then u else t) :=
  ite (trans ht hu) ht

theorem foldl {α : Type} {f : State → α → State} (hf : ∀ s a, sliceSide s (f s a)) (l : List α) (s : State) : sliceSide s (l.foldl f s) := by
  induction l generalizing s with
  | nil => exact refl s
  | cons a r ih => exact trans (hf s a) (ih _)

section
variable {s t : State} (h : sliceSide s t)
include h

theorem blocks : t.blocks = s.blocks := (congrArg State.blocks h.rest :)
theorem groups : t.groups = s.groups := (congrArg State.groups h.rest :)
theorem ops : t.ops = s.ops := (congrArg State.ops h.rest :)
theorem ctxs : t.ctxs = s.ctxs := (congrArg State.ctxs h.rest :)
theorem worlds : t.worlds = s.worlds := (congrArg State.worlds h.rest :)
theorem launches : t.launches = s.launches := (congrArg State.launches h.rest :)
theorem hbm : t.mem.hbm = s.mem.hbm := (congrArg Mem.hbm h.mem :)
theorem images : t.mem.images = s.mem.images := (congrArg Mem.images h.mem :)

theorem bytes : bytesKept s t
  | .hbm a => by simp only [State.byteAt, h.hbm]
  | .spm b a => by simp only [State.byteAt, blockSpm, h.blocks]
  | .ws d a => (congrArg (fun D : Die => cellsGet D.ws a) (h.die d) :)

theorem memSide : memSide s t := by
  refine ⟨(congrArg State.cur h.rest :), (congrArg (fun x : State => { x.rest with ops := s.ops }) h.rest :), ?_,
    fun d => ?_, fun k => ?_, fun b => ?_, fun p => ?_, fun w => ?_, fun l => ?_⟩
  · exact (congrArg (fun m : Mem => { s.mem with owner := m.owner, scrubQ := m.scrubQ, spans := m.spans, freed := m.freed }) h.mem :)
  · exact (congrArg (fun D : Die => { D with povh := 0 }) (h.die d) :)
  · exact h.core k
  · rw [h.blocks]
  · rw [h.ctxs]
  · rw [h.worlds]
  · rw [h.launches]
end

end sliceSide

/-! ### The operations of the slices -/

theorem State.die_modDie (s : State) (d e : Nat) (f : Die → Die) : (s.modDie d f).die e = if e = d then f (s.die d) else s.die e := by
  simp only [State.die, State.modDie_dies, tgetD_tset]

theorem State.core_modCore (s : State) (c k : Nat) (f : Core → Core) : (s.modCore c f).core k = if k = c then f (s.core c) else s.core k := by
  unfold State.core
  rw [State.modCore_cores]
  split
  · next h => subst h; exact tgetD_tset_self ..
  · next h => exact tgetD_tset_ne _ _ _ h

namespace sliceSide

theorem modDie (s : State) (d : Nat) (f : Die → Die) (hf : ∀ D, { f D with llc := [] } = { D with llc := [] }) : sliceSide s (s.modDie d f) :=
  ⟨rfl, rfl, fun e => by
    rw [State.die_modDie]
    split
    · next h => rw [h]; exact hf _
    · rfl, fun _ => rfl⟩

theorem modCore (s : State) (c : Nat) (f : Core → Core) (hf : ∀ C, { f C with l1 := [], l1Order := [] } = { C with l1 := [], l1Order := [] }) :
    sliceSide s (s.modCore c f) :=
  ⟨rfl, rfl, fun _ => rfl, fun e => by
    rw [State.core_modCore]
    split
    · next h => rw [h]; exact hf _
    · rfl⟩

theorem setOwner (s : State) (t : Tab Nat) : sliceSide s { s with mem := { s.mem with wordOwner := t } } := ⟨rfl, rfl, fun _ => rfl, fun _ => rfl⟩

theorem setFree (s : State) (n : Nat) : sliceSide s { s with free := n } := ⟨rfl, rfl, fun _ => rfl, fun _ => rfl⟩

theorem dropL1 (s : State) (core : Nat) (ws : List Nat) : sliceSide s (dropL1 s core ws) := modCore s core _ fun _ => rfl

theorem refreshL1 (s : State) (core : Nat) (ws : List Nat) : sliceSide s (refreshL1 s core ws) := modCore s core _ fun _ => rfl

theorem ownWords (s : State) (core : Nat) (ws : List Nat) : sliceSide s (ownWords s core ws) := trans (setOwner s _) (refreshL1 _ core ws)

end sliceSide

/-- A word loses its owner, which gets a loss notice (R139). -/
def loseOwner (s : State) (w : Nat) : State :=
  match tget? s.mem.wordOwner w with
  | some k =>
    let s := dropL1 s k [w]
    { s with mem := { s.mem with wordOwner := tdel s.mem.wordOwner w } }
  | none => s

theorem llcLeave_eq (s : State) (die l : Nat) : llcLeave s die l =
    ((List.range 16).map (16 * l + ·)).foldl loseOwner (s.modDie die fun D => { D with llc := D.llc.filter (· != l) }) := rfl

namespace sliceSide

theorem loseOwner (s : State) (w : Nat) : sliceSide s (loseOwner s w) := by
  unfold Machine.loseOwner
  split
  · exact trans (dropL1 s _ [w]) (setOwner _ _)
  · exact refl s

theorem llcLeave (s : State) (die l : Nat) : sliceSide s (llcLeave s die l) := by
  rw [llcLeave_eq]
  refine trans ?_ (foldl loseOwner _ _)
  exact modDie s die _ fun _ => rfl

theorem llcAdd (s : State) (die l : Nat) : sliceSide s (llcAdd s die l) := modDie s die _ fun _ => rfl

theorem llcTouch (s : State) (l : Nat) : sliceSide s (llcTouch s l).2.2 := by
  unfold Machine.llcTouch
  dsimp only
  split_ifs
  · exact refl s
  · exact llcAdd ..
  · exact trans (trans (setFree s _) (llcLeave ..)) (llcAdd ..)

theorem llcAccess (s : State) (ls : List Nat) : sliceSide s (llcAccess s ls).2.2 := by
  suffices ∀ a : List Nat × List Nat × State, sliceSide a.2.2 (ls.foldl (fun (miss, out, s) l =>
      let (hit, v, s) := Machine.llcTouch s l
      (if hit then miss else miss ++ [l], out ++ v.toList, s)) a).2.2 from this ([], [], s)
  induction ls with
  | nil => exact fun a => refl a.2.2
  | cons l r ih => exact fun ⟨_, _, t⟩ => trans (llcTouch t l) (ih (_, _, (Machine.llcTouch t l).2.2))

theorem chargeFar (s : State) (die cls n stack : Nat) (acct : Option Nat) (la : Nat) : sliceSide s (chargeFar s die cls n stack acct la) := by
  unfold Machine.chargeFar
  dsimp only
  split_ifs <;> exact ⟨rfl, rfl, fun _ => rfl, fun _ => rfl⟩

theorem chargeLines (s : State) (acct : Option Nat) (la die h n mt : Nat) : sliceSide s (chargeLines s acct la die h n mt) := by
  have h₁ := chargeFar s (homeDie s h) 0x3A (if mt % 4 < 2 then linesOf h n else []).length 0 acct la
  have h₂ := trans h₁ (llcAccess _ (if mt % 4 < 2 then linesOf h n else []))
  unfold Machine.chargeLines
  dsimp only
  generalize Machine.llcAccess _ _ = x at h₂ ⊢
  refine ite h₂ (ite_trans_right ?_ (chargeFar ..))
  refine trans ?_ (foldl (fun t a => ?_) _ _)
  · exact ite_trans_left (trans h₂ (setFree ..)) (chargeFar ..)
  · exact chargeFar ..

/-- Charging an access that is not served by the L1 alone touches the slices and the reports. -/
theorem chargeAccess (s : State) (b core h n : Nat) (far : Bool) (mt : Nat) : sliceSide s (chargeAccess s b core h n false far mt) := by
  cases far
  · exact refl s
  · exact chargeLines ..

end sliceSide

/-! ### A line leaves its slice (R139) -/

theorem wordOwner_dropL1 (s : State) (core : Nat) (ws : List Nat) : (dropL1 s core ws).mem.wordOwner = s.mem.wordOwner := rfl

theorem l1_dropL1_one (s : State) (core w k x : Nat) :
    tget? ((dropL1 s core [w]).core k).l1 x = if k = core ∧ x = w then none else tget? (s.core k).l1 x := by
  unfold dropL1
  rw [State.core_modCore]
  by_cases hk : k = core
  · subst hk
    simp [tget?_tdel]
  · simp [hk]

theorem wordOwner_loseOwner (s : State) (w x : Nat) :
    tget? (loseOwner s w).mem.wordOwner x = if x = w then none else tget? s.mem.wordOwner x := by
  unfold loseOwner
  cases h : tget? s.mem.wordOwner w with
  | some k => exact tget?_tdel ..
  | none =>
    change tget? s.mem.wordOwner x = _
    split
    · next e => rw [e]; exact h
    · rfl

theorem l1_loseOwner (s : State) (w k x : Nat) :
    tget? ((loseOwner s w).core k).l1 x = if x = w ∧ tget? s.mem.wordOwner x = some k then none else tget? (s.core k).l1 x := by
  unfold loseOwner
  cases h : tget? s.mem.wordOwner w with
  | some j =>
    refine (l1_dropL1_one s j w k x).trans ?_
    refine if_congr ⟨?_, ?_⟩ rfl rfl
    · rintro ⟨rfl, rfl⟩; exact ⟨rfl, h⟩
    · rintro ⟨rfl, e⟩; rw [h] at e; exact ⟨(Option.some.inj e).symm, rfl⟩
  | none => exact (if_neg fun e => by rw [e.1, h] at e; cases e.2).symm

theorem wordOwner_foldl_loseOwner (ws : List Nat) (s : State) (x : Nat) :
    tget? (ws.foldl loseOwner s).mem.wordOwner x = if x ∈ ws then none else tget? s.mem.wordOwner x := by
  induction ws generalizing s with
  | nil => simp
  | cons w r ih =>
    rw [List.foldl_cons, ih, wordOwner_loseOwner]
    by_cases h : x ∈ r <;> by_cases e : x = w <;> simp [h, e]

theorem l1_foldl_loseOwner (ws : List Nat) (s : State) (k x : Nat) :
    tget? ((ws.foldl loseOwner s).core k).l1 x = if x ∈ ws ∧ tget? s.mem.wordOwner x = some k then none else tget? (s.core k).l1 x := by
  induction ws generalizing s with
  | nil => simp
  | cons w r ih =>
    rw [List.foldl_cons, ih, wordOwner_loseOwner, l1_loseOwner]
    by_cases e : x = w <;> simp [e]

theorem mem_lineWords {l x : Nat} : x ∈ (List.range 16).map (16 * l + ·) ↔ x / 16 = l := by
  simp only [List.mem_map, List.mem_range]
  constructor
  · rintro ⟨i, hi, rfl⟩; omega
  · rintro rfl; exact ⟨x % 16, by omega, by omega⟩

/-- No word of a line that has left its slice has an owner. -/
theorem wordOwner_llcLeave (s : State) (die l x : Nat) :
    tget? (llcLeave s die l).mem.wordOwner x = if x / 16 = l then none else tget? s.mem.wordOwner x := by
  rw [llcLeave_eq, wordOwner_foldl_loseOwner]
  exact if_congr mem_lineWords rfl rfl

/-- The owners of a line that has left its slice keep no copies of their words of it. -/
theorem l1_llcLeave (s : State) (die l k x : Nat) :
    tget? ((llcLeave s die l).core k).l1 x = if x / 16 = l ∧ tget? s.mem.wordOwner x = some k then none else tget? (s.core k).l1 x := by
  rw [llcLeave_eq, l1_foldl_loseOwner]
  exact if_congr (and_congr mem_lineWords Iff.rfl) rfl rfl

/-! ### Loss notices -/

/-- A loss notice drops one copy, and with the ownership of the word the line. -/
theorem execLossNotice_eq (core word : Nat) (s : State) :
    execLossNotice core word s = .next (if tget? s.mem.wordOwner word = some core then
      llcLeave (dropL1 s core [word]) (homeDie (dropL1 s core [word]) (4 * word)) (word / 16) else dropL1 s core [word]) := by
  simp only [execLossNotice, wordOwner_dropL1, beq_iff_eq]
  split <;> rfl

/-- What a loss notice leaves (R139). -/
theorem lossNotice_drops (core word : Nat) (s : State) :
    ∃ t, exec (.lossNotice core word) s = .next t ∧ bytesKept s t ∧ tget? (t.core core).l1 word = none ∧
    tget? t.mem.wordOwner word ≠ some core ∧
    (tget? s.mem.wordOwner word = some core → ∀ w, w / 16 = word / 16 → tget? t.mem.wordOwner w = none ∧
      ∀ k, tget? s.mem.wordOwner w = some k → tget? (t.core k).l1 w = none) ∧
    (∀ w, w ≠ word → (tget? s.mem.wordOwner word = some core → w / 16 ≠ word / 16) → tget? t.mem.wordOwner w = tget? s.mem.wordOwner w ∧
      ∀ k, tget? (t.core k).l1 w = tget? (s.core k).l1 w) ∧
    memSide s t ∧ { t.mem with wordOwner := s.mem.wordOwner } = s.mem ∧ t.blocks = s.blocks ∧ t.groups = s.groups ∧ t.ops = s.ops := by
  rw [exec_lossNotice, execLossNotice_eq]
  by_cases h : tget? s.mem.wordOwner word = some core
  · rw [if_pos h]
    have hs : sliceSide s _ := (sliceSide.dropL1 s core [word]).trans (.llcLeave _ (homeDie (dropL1 s core [word]) (4 * word)) (word / 16))
    refine ⟨_, rfl, hs.bytes, ?_, ?_, fun _ w hw => ⟨?_, fun k hk => ?_⟩, fun w hw hl => ⟨?_, fun k => ?_⟩,
      hs.memSide, hs.mem, hs.blocks, hs.groups, hs.ops⟩
    · rw [l1_llcLeave, if_pos ⟨rfl, h⟩]
    · rw [wordOwner_llcLeave, if_pos rfl]; simp
    · rw [wordOwner_llcLeave, if_pos hw]
    · rw [l1_llcLeave, if_pos ⟨hw, hk⟩]
    · rw [wordOwner_llcLeave, if_neg (hl h), wordOwner_dropL1]
    · rw [l1_llcLeave, if_neg fun e => hl h e.1, l1_dropL1_one, if_neg fun e => hw e.2]
  · rw [if_neg h]
    have hs : sliceSide s _ := .dropL1 s core [word]
    refine ⟨_, rfl, hs.bytes, ?_, h, fun e => absurd e h, fun w hw _ => ⟨rfl, fun k => ?_⟩, hs.memSide, hs.mem, hs.blocks, hs.groups, hs.ops⟩
    · rw [l1_dropL1_one, if_pos ⟨rfl, rfl⟩]
    · rw [l1_dropL1_one, if_neg fun e => hw e.2]

end Sys2Proof.Machine
end

section
/-!
PROOFS. Writes at a home and write-combining lines (R101, R118, R140, R210): what a write leaves beside HBM, what a tag in transit depends on, and
the drain of a line.
-/

namespace Sys2Proof.Machine

/-! ### Byte storage: the tags after a write (R101) -/

theorem mem_ninsert_iff {l : List Nat} {k x : Nat} : x ∈ ninsert l k ↔ x = k ∨ x ∈ l := by
  induction l with
  | nil => simp [ninsert]
  | cons a r ih =>
    simp only [ninsert]
    split_ifs with h e
    · simp
    · subst e; simp
    · simp only [List.mem_cons, ih]; tauto

theorem mem_granules_iff {a n g : Nat} : g ∈ granules a n ↔ 0 < n ∧ 16 * g < a + n ∧ a < 16 * g + 16 := by
  unfold granules
  split_ifs with h
  · simp [h]
  · simp only [List.mem_map, List.mem_range]
    constructor
    · rintro ⟨i, hi, rfl⟩; omega
    · intro hg; exact ⟨g - a / 16, by omega, by omega⟩

theorem Ram.contains_write (r : Ram) (a : Nat) (bs : List Byte) (g : Nat) :
    (r.write a bs).tags.contains g = (r.tags.contains g && !(granules a bs.length).contains g) := by
  rw [Bool.eq_iff_iff]
  simp only [Ram.write, List.contains_iff_mem, List.mem_filter, Bool.and_eq_true]

theorem Ram.contains_writeCap (r : Ram) (a : Nat) (bs : List Byte) (t : Bool) (g : Nat) :
    (r.writeCap a bs t).tags.contains g = (t && g == a / 16 || (r.write a bs).tags.contains g) := by
  cases t
  · simp [Ram.writeCap]
  · rw [Bool.eq_iff_iff]
    simp only [Ram.writeCap, Bool.true_and, if_true, Bool.or_eq_true, beq_iff_eq, List.contains_iff_mem, mem_ninsert_iff]

theorem granules_one (a : Nat) : granules a 1 = [a / 16] := by simp [granules]

/-- Bytes written one by one at offsets from an address. -/
def Ram.writeEach (r : Ram) (base : Nat) (bs : Tab Byte) : Ram := bs.foldl (fun r x => r.write (base + x.1) [x.2]) r

theorem Ram.get_writeEach (r : Ram) (base : Nat) (bs : Tab Byte) (hn : (bs.map (·.1)).Nodup) (a : Nat) :
    (r.writeEach base bs).get a = (if base ≤ a then tget? bs (a - base) else none).getD (r.get a) := by
  induction bs generalizing r with
  | nil => simp [writeEach]
  | cons x l ih =>
    obtain ⟨hx, hl⟩ := List.nodup_cons.mp hn
    refine (ih _ hl).trans ?_
    rw [Ram.get_write]
    by_cases e : a = base + x.1
    · have hnone : tget? l x.1 = none := by
        by_contra h
        obtain ⟨v, hv⟩ := Option.ne_none_iff_exists'.mp h
        exact hx (List.mem_map_of_mem (f := (·.1)) (tget?_mem hv))
      subst e
      simp [tget?, hnone]
    · have hne : base ≤ a → x.1 ≠ a - base := by omega
      have hout : ¬(base + x.1 ≤ a ∧ a < base + x.1 + [x.2].length) := by simp only [List.length_singleton]; omega
      rw [if_neg hout]
      split
      · next h => simp [tget?, hne h]
      · rfl

theorem Ram.contains_writeEach (r : Ram) (base : Nat) (bs : Tab Byte) (g : Nat) :
    (r.writeEach base bs).tags.contains g = (r.tags.contains g && !bs.any fun x => (base + x.1) / 16 == g) := by
  induction bs generalizing r with
  | nil => simp [writeEach]
  | cons x l ih =>
    refine (ih _).trans ?_
    have hg : (granules (base + x.1) [x.2].length).contains g = ((base + x.1) / 16 == g) := by
      rw [List.length_singleton, granules_one]
      simp only [List.contains_cons, List.contains_nil, Bool.or_false]
      exact Bool.beq_comm
    rw [Ram.contains_write, hg, List.any_cons, Bool.not_or, Bool.and_assoc]

/-! ### What a tag in transit depends on -/

/-- The two states read memory alike, for the same contexts and functions. -/
structure sameReads (s t : State) : Prop where
  ctxs : t.ctxs = s.ctxs
  funcs : t.funcs = s.funcs
  scrubQ : t.mem.scrubQ = s.mem.scrubQ
  byte : ∀ h, physByte t h = physByte s h

namespace sameReads

theorem trans {s t u : State} (h : sameReads s t) (h' : sameReads t u) : sameReads s u :=
  ⟨h'.ctxs.trans h.ctxs, h'.funcs.trans h.funcs, h'.scrubQ.trans h.scrubQ, fun a => (h'.byte a).trans (h.byte a)⟩

section
variable {s t : State} (h : sameReads s t)
include h

theorem physRead (a n : Nat) : physRead t a n = physRead s a n := by simp only [Machine.physRead, h.byte]

theorem stage2 (f g : Nat) : stage2 t f g = stage2 s f g := by
  unfold Machine.stage2 State.func
  rw [h.scrubQ, h.funcs, h.physRead]

theorem guestParts (f : Nat) (w : Bool) (fuel g n : Nat) : guestParts t f w fuel g n = guestParts s f w fuel g n := by
  induction fuel generalizing g n with
  | zero => rfl
  | succ k ih => simp only [Machine.guestParts, h.stage2, ih]

theorem guestRead (f g n : Nat) : guestRead t f g n = guestRead s f g n := by simp only [Machine.guestRead, h.guestParts, h.physRead]

theorem isStale (p : Nat) (k : Cap) : isStale t p k = isStale s p k := by simp only [Machine.isStale, objectEntry, h.ctxs, h.guestRead]

theorem pieceTag (p : Nat) (bs : List Byte) (b : Bool) (need : Nat) : pieceTag t p bs b need = pieceTag s p bs b need := by
  simp only [Machine.pieceTag, staleCheck, h.isStale]

theorem inSaveArea (a : Nat) : inSaveArea t a = inSaveArea s a := by simp only [Machine.inSaveArea, h.ctxs, h.stage2]
end

end sameReads

/-! ### What a write at a home leaves beside HBM (R139, R140) -/

/-- No request is sampled by the probe (R340). -/
def noProbe (s : State) : Prop := ∀ k o, tget? s.ops k = some o → ∀ q ∈ o.lanes, q.probe = false

/-- HBM, the buffers of the cores, contexts, functions and what is scrubbed stay; no image appears, and no request that is sampled. -/
structure aside (s t : State) : Prop where
  hbm : t.mem.hbm = s.mem.hbm
  wc : ∀ k, (t.core k).wc = (s.core k).wc
  ctxs : t.ctxs = s.ctxs
  funcs : t.funcs = s.funcs
  scrubQ : t.mem.scrubQ = s.mem.scrubQ
  images : s.mem.images = [] → t.mem.images = []
  noProbe : noProbe s → noProbe t

/-- HBM replaced. -/
def State.setHbm (s : State) (m : Ram) : State := { s with mem := { s.mem with hbm := m } }

theorem State.core_setHbm (s : State) (m : Ram) (k : Nat) : (s.setHbm m).core k = s.core k := rfl

theorem physByte_setHbm {s : State} (hi : s.mem.images = []) (m : Ram) (a : Nat) : physByte (s.setHbm m) a = m.get a := by
  simp only [physByte, State.setHbm, hi, List.find?_nil]

theorem physByte_of_images {s : State} (hi : s.mem.images = []) (a : Nat) : physByte s a = s.mem.hbm.get a := physByte_setHbm hi s.mem.hbm a

namespace aside

theorem refl (s : State) : aside s s := ⟨rfl, fun _ => rfl, rfl, rfl, rfl, id, id⟩

theorem trans {s t u : State} (h : aside s t) (h' : aside t u) : aside s u :=
  ⟨h'.hbm.trans h.hbm, fun k => (h'.wc k).trans (h.wc k), h'.ctxs.trans h.ctxs, h'.funcs.trans h.funcs, h'.scrubQ.trans h.scrubQ,
    h'.images ∘ h.images, h'.noProbe ∘ h.noProbe⟩

theorem foldl {α : Type} {f : State → α → State} (hf : ∀ s a, aside s (f s a)) (l : List α) (s : State) : aside s (l.foldl f s) := by
  induction l generalizing s with
  | nil => exact refl s
  | cons a r ih => exact (hf s a).trans (ih _)

theorem setHbm {s t : State} (h : aside s t) (m : Ram) : aside (s.setHbm m) (t.setHbm m) :=
  ⟨rfl, h.wc, h.ctxs, h.funcs, h.scrubQ, h.images, h.noProbe⟩

theorem sameReads {s t : State} (h : aside s t) (hi : s.mem.images = []) : sameReads s t :=
  ⟨h.ctxs, h.funcs, h.scrubQ, fun a => by rw [physByte_of_images (h.images hi), physByte_of_images hi, h.hbm]⟩

theorem of_sliceSide {s t : State} (h : sliceSide s t) : aside s t where
  hbm := h.hbm
  wc := wc_of_memSide h.memSide
  ctxs := h.ctxs
  funcs := funcs_of_memSide h.memSide
  scrubQ := scrubQ_of_memSide h.memSide
  images hi := h.images.trans hi
  noProbe hp := by unfold Machine.noProbe; rw [h.ops]; exact hp

/-! What a write notes and stamps. -/

theorem lines (s : State) (x : Tab Line) : aside s { s with mem := { s.mem with lines := x } } := ⟨rfl, fun _ => rfl, rfl, rfl, rfl, id, id⟩

theorem touchLines (s : State) (h n : Nat) : aside s (touchLines s h n) := foldl (fun s _ => lines s _) _ s

theorem sealLines (s : State) (h n : Nat) : aside s (sealLines s h n) := lines s _

theorem stampWords (s : State) (h n : Nat) : aside s (stampWords s h n) := by
  unfold Machine.stampWords
  split
  · exact refl s
  · exact ⟨rfl, fun _ => rfl, rfl, rfl, rfl, id, id⟩

theorem noteEntry (f base : Nat) (s : State) (e : Nat) : aside s (noteEntry f base s e) := by
  unfold Machine.noteEntry
  split
  · exact refl s
  · exact ⟨rfl, fun _ => rfl, rfl, rfl, rfl, id, id⟩

theorem noteTable (h n : Nat) (s : State) (f : Nat × Func) : aside s (noteTable h n s f) := by
  unfold Machine.noteTable
  split
  · exact refl s
  · exact foldl (noteEntry f.1 f.2.s2) _ s

theorem noteTables (s : State) (h n : Nat) : aside s (noteTables s h n) := foldl (noteTable h n) _ s

theorem cutImages (s : State) (h n : Nat) : aside s (cutImages s h n) :=
  ⟨rfl, fun _ => rfl, rfl, rfl, rfl, fun hi => by simp [Machine.cutImages, hi], id⟩

theorem modBlock (s : State) (b : Nat) (f : Block → Block) : aside s (s.modBlock b f) := ⟨rfl, fun _ => rfl, rfl, rfl, rfl, id, id⟩

theorem hitImages (s : State) (h n : Nat) : aside s (hitImages s h n) :=
  (foldl (fun s (m : Nat × Nat × Nat) => modBlock s (m.2.2 % 2 ^ 32) fun B => { B with imgHit := true }) _ s).trans (cutImages _ h n)

/-- What a write does before its bytes are there. -/
theorem beforeWrite (s : State) (h n : Nat) : aside s (Machine.stampWords (Machine.hitImages (Machine.touchLines (Machine.noteTables s h n) h n) h n) h n) :=
  (((noteTables s h n).trans (touchLines ..)).trans (hitImages ..)).trans (stampWords ..)

theorem physWrite (s : State) (h : Nat) (bs : List Byte) : aside (s.setHbm (s.mem.hbm.write h bs)) (physWrite s h bs) := by
  have hp := beforeWrite s h bs.length
  rw [← hp.hbm]
  exact (hp.setHbm _).trans (sealLines ..)

theorem physWriteCap (s : State) (h : Nat) (bs : List Byte) (t : Bool) :
    aside (s.setHbm (s.mem.hbm.writeCap h bs (t && (capOf bs t).wellFormed && !inSaveArea s h))) (physWriteCap s h bs t) := by
  have hp := beforeWrite s h bs.length
  rw [← hp.hbm]
  exact (hp.setHbm _).trans (sealLines ..)

theorem homeWrite (s : State) (core h : Nat) (bs : List Byte) : aside (s.setHbm (s.mem.hbm.write h bs)) (homeWrite s core h bs) :=
  (physWrite s h bs).trans (of_sliceSide (.ownWords ..))

theorem homeWrites (s : State) (core base : Nat) (bs : Tab Byte) :
    aside (s.setHbm (s.mem.hbm.writeEach base bs)) (bs.foldl (fun s (i, x) => Machine.homeWrite s core (base + i) [x]) s) := by
  induction bs generalizing s with
  | nil => exact refl s
  | cons x l ih =>
    have h := homeWrite s core (base + x.1) [x.2]
    have hl := ih (Machine.homeWrite s core (base + x.1) [x.2])
    rw [h.hbm] at hl
    exact (h.setHbm _).trans hl

end aside

/-! ### The tags of a line that drains (R118, R210) -/

/-- The tag that a granule of HBM gets when a capability store in it drains. -/
def capTag (s : State) (p g : Nat) : Bool := pieceTag s p (physRead s (16 * g) 16) true 0 && !inSaveArea s (16 * g)

theorem capTag_of_sameReads {s t : State} (h : sameReads s t) (p g : Nat) : capTag t p g = capTag s p g := by
  simp only [capTag, h.pieceTag, h.inSaveArea, h.physRead]

/-- A granule is written as it stands, with the tag of the capability stored in it. -/
def tagGranule (p core : Nat) (s : State) (g : Nat) : State :=
  ownWords (physWriteCap s (16 * g) (physRead s (16 * g) 16) (pieceTag s p (physRead s (16 * g) 16) true 0)) core (wordsOf (16 * g) 16)

/-- A tag in transit is set on well-formed values only (R99). -/
theorem pieceTag_and_wellFormed (s : State) (p : Nat) (bs : List Byte) (b : Bool) (need : Nat) :
    (pieceTag s p bs b need && (capOf bs (pieceTag s p bs b need)).wellFormed) = pieceTag s p bs b need := by
  have hw : ∀ x, (capOf bs x).wellFormed = (capOf bs true).wellFormed := fun _ => rfl
  rw [hw, Bool.and_eq_left_iff_imp]
  unfold pieceTag
  intro h
  simp only [Bool.and_eq_true] at h
  exact h.1.1.2

/-- HBM with a granule written as it stands. -/
def State.regranule (s : State) (p g : Nat) : Ram := s.mem.hbm.writeCap (16 * g) (physRead s (16 * g) 16) (capTag s p g)

theorem aside.tagGranule (p core : Nat) (s : State) (g : Nat) : aside (s.setHbm (s.regranule p g)) (tagGranule p core s g) := by
  have h := (aside.physWriteCap s (16 * g) (physRead s (16 * g) 16) (pieceTag s p (physRead s (16 * g) 16) true 0)).trans
    (.of_sliceSide (.ownWords _ core (wordsOf (16 * g) 16)))
  rw [pieceTag_and_wellFormed] at h
  exact h

theorem get_regranule {s : State} (hi : s.mem.images = []) (p g a : Nat) : (s.regranule p g).get a = s.mem.hbm.get a := by
  rw [State.regranule, Ram.get_writeCap, Ram.get_write]
  split
  · next h =>
    rw [physRead, List.length_map, List.length_range] at h
    rw [physRead, List.getD_eq_getElem _ _ (by simpa using Nat.sub_lt_left_of_lt_add h.1 h.2), List.getElem_map, List.getElem_range,
      physByte_of_images hi, Nat.add_sub_cancel' h.1]
  · rfl

theorem sameReads_regranule {s : State} (hi : s.mem.images = []) (p g : Nat) : sameReads s (s.setHbm (s.regranule p g)) :=
  ⟨rfl, rfl, rfl, fun a => by rw [physByte_setHbm hi, get_regranule hi, physByte_of_images hi]⟩

theorem contains_regranule (s : State) (p g x : Nat) :
    (s.regranule p g).tags.contains x = if x = g then capTag s p g else s.mem.hbm.tags.contains x := by
  have hg : x ∈ granules (16 * g) (physRead s (16 * g) 16).length ↔ x = g := by
    rw [mem_granules_iff, physRead, List.length_map, List.length_range]; omega
  rw [State.regranule, Ram.contains_writeCap, Ram.contains_write, Nat.mul_div_cancel_left g (by decide)]
  by_cases e : x = g
  · subst e; simp [hg.mpr rfl]
  · simp [e, mt hg.mp e]

/-- The capability stores of a line drain: bytes stay, and their granules get their tags. -/
theorem tagGranules (p core base : Nat) (l : List Nat) (s : State) (hi : s.mem.images = []) :
    ∃ m, aside (s.setHbm m) (l.foldl (fun s i => tagGranule p core s (base + i)) s) ∧ (∀ a, m.get a = s.mem.hbm.get a) ∧
      ∀ g, m.tags.contains g = if base ≤ g ∧ g - base ∈ l then capTag s p g else s.mem.hbm.tags.contains g := by
  induction l generalizing s with
  | nil => exact ⟨s.mem.hbm, .refl s, fun _ => rfl, fun g => by simp⟩
  | cons i r ih =>
    have h := aside.tagGranule p core s (base + i)
    have hr : sameReads s (tagGranule p core s (base + i)) :=
      sameReads.trans (sameReads_regranule hi p _) (h.sameReads hi)
    obtain ⟨m, ha, hb, ht⟩ := ih _ (h.images hi)
    refine ⟨m, (h.setHbm m).trans ha, fun a => ?_, fun g => ?_⟩
    · rw [hb, h.hbm]; exact get_regranule hi ..
    · have hc : (tagGranule p core s (base + i)).mem.hbm.tags.contains g = _ :=
        (congrArg (fun x : Ram => x.tags.contains g) h.hbm).trans (contains_regranule s p _ g)
      rw [ht, hc, capTag_of_sameReads hr]
      by_cases e : g = base + i
      · subst e; simp
      · have : base ≤ g → g - base ≠ i := by omega
        by_cases hg : base ≤ g <;> simp [e, hg, this]

/-! ### The stores of a line that drains are performed (R140) -/

/-- A store with no bytes left in a line is performed. -/
def giveBack (core : Nat) (s : State) (x : Nat × Nat) : State := if isMerged s core x.1 x.2 then s else storeDone s x.1 x.2

theorem probeSample_of_not {s : State} {o : Op} {q : LReq} (hq : q.probe = false) : probeSample s o q = s := by
  unfold probeSample
  split
  · rfl
  · split
    · rfl
    · simp [hq]

theorem req?_mem {o : Op} {lane : Nat} {q : LReq} (h : o.req? lane = some q) : q ∈ o.lanes := List.mem_of_find?_eq_some h

/-- A request's end changes nothing but the operations. -/
theorem dropReq_ops (s : State) (op lane : Nat) : dropReq s op lane = { s with ops := (dropReq s op lane).ops } := by
  unfold dropReq
  split
  · rfl
  · dsimp only
    split <;> rfl

theorem noProbe_dropReq {s : State} (h : noProbe s) (op lane : Nat) : noProbe (dropReq s op lane) := by
  unfold dropReq
  split
  · exact h
  · next o ho =>
    dsimp only
    split
    · intro k o' h'
      rw [tget?_tdel] at h'
      split at h'
      · cases h'
      · exact h k o' h'
    · intro k o' h' q hq
      rw [tget?_tset] at h'
      split at h'
      · cases h'
        exact h op o ho q (List.mem_of_mem_filter hq)
      · exact h k o' h' q hq

theorem aside.dropReq (s : State) (op lane : Nat) : aside s (dropReq s op lane) :=
  have h := dropReq_ops s op lane
  ⟨(congrArg (·.mem.hbm) h :), fun k => (congrArg (fun t : State => (t.core k).wc) h :), (congrArg (·.ctxs) h :), (congrArg (·.funcs) h :),
    (congrArg (·.mem.scrubQ) h :), (congrArg (·.mem.images) h :).trans, fun hp => noProbe_dropReq hp op lane⟩

/-- A store that the probe takes no sample of ends: its request is gone, and its counter falls. -/
theorem storeDone_eq {s : State} {op lane : Nat} {o : Op} (ho : tget? s.ops op = some o) (hp : ∀ q, o.req? lane = some q → q.probe = false) :
    storeDone s op lane = lowerCtr (dropReq s op lane) o.blk o.gidx [lane] o.kind.ctr := by
  unfold storeDone
  rw [ho]
  dsimp only
  cases h : o.req? lane with
  | none => rfl
  | some q => dsimp only; rw [probeSample_of_not (hp q h)]

theorem aside.storeDone {s : State} (h : Machine.noProbe s) (op lane : Nat) : aside s (storeDone s op lane) := by
  cases ho : tget? s.ops op with
  | none => unfold Machine.storeDone; rw [ho]; exact refl s
  | some o =>
    rw [storeDone_eq ho fun q hq => h op o ho q (req?_mem hq)]
    exact (dropReq s op lane).trans ⟨rfl, fun _ => rfl, rfl, rfl, rfl, id, id⟩

theorem aside.giveBacks {s : State} (h : Machine.noProbe s) (core : Nat) (l : List (Nat × Nat)) : aside s (l.foldl (giveBack core) s) := by
  induction l generalizing s with
  | nil => exact refl s
  | cons x r ih =>
    have hx : aside s (giveBack core s x) := by
      unfold giveBack
      split
      · exact refl s
      · exact storeDone h ..
    exact hx.trans (ih (hx.noProbe h))

/-! ### A line of a write-combining buffer drains (R118, R140, R210) -/

/-- The context that a line of a write-combining buffer drains for. -/
def wcPasid (s : State) (w : WcLine) : Nat := ((w.op.findSome? fun x => tget? s.ops x.1).map fun o => pasidOf s o.blk).getD 0

/-- A line leaves its buffer, and the access is charged to the context of its first store. -/
def wcCharged (s : State) (core line : Nat) (w : WcLine) : State :=
  let s := s.modCore core fun c => { c with wc := tdel c.wc line }
  match w.op.head?.bind fun x => tget? s.ops x.1 with
  | some o => chargeAccess s o.blk core (64 * line) 64 false true
  | none => s

/-- A line drains in four steps: it is charged, its bytes and its tags are written, and its stores are performed. -/
theorem drainLine_eq {s : State} {core line : Nat} {w : WcLine} (hw : tget? (s.core core).wc line = some w)
    (hr : relockWait s core [(64 * line, 64, 1)] = false) :
    drainLine s core line = w.op.foldl (giveBack core) (w.tags.foldl (fun u i => tagGranule (wcPasid s w) core u (4 * line + i))
      (w.bytes.foldl (fun s (i, x) => homeWrite s core (64 * line + i) [x]) (wcCharged s core line w))) := by
  unfold drainLine
  rw [hw]
  dsimp only
  rw [if_neg (by rw [hr]; decide)]
  have h16 : ∀ i, 16 * (4 * line + i) = 64 * line + 16 * i := by omega
  simp only [wcCharged, tagGranule, h16, State.modCore_ops]
  cases w.op.head?.bind fun x => tget? s.ops x.1 <;> rfl

theorem aside_wcCharged (s : State) (core line : Nat) (w : WcLine) :
    aside (s.modCore core fun c => { c with wc := tdel c.wc line }) (wcCharged s core line w) := by
  unfold wcCharged
  dsimp only
  split
  · exact .of_sliceSide (.chargeAccess ..)
  · exact .refl _

/-- A line whose bytes are written at its home: it is out of its buffer, and HBM holds them. -/
theorem aside_wcBytes (s : State) (core line : Nat) (w : WcLine) :
    aside ((s.modCore core fun c => { c with wc := tdel c.wc line }).setHbm (s.mem.hbm.writeEach (64 * line) w.bytes))
      (w.bytes.foldl (fun s (i, x) => homeWrite s core (64 * line + i) [x]) (wcCharged s core line w)) := by
  have h := aside_wcCharged s core line w
  have h' := aside.homeWrites (wcCharged s core line w) core (64 * line) w.bytes
  rw [h.hbm] at h'
  exact (h.setHbm _).trans h'

/-- The capability stores of a line drain; the tags they leave are those that a look at them afterwards gives. -/
theorem wcTags (p core base : Nat) (l : List Nat) (u : State) (hi : l = [] ∨ u.mem.images = []) (hp : noProbe u) (ops : List (Nat × Nat)) :
    ∃ m t, t = ops.foldl (giveBack core) (l.foldl (fun u i => tagGranule p core u (base + i)) u) ∧ aside (u.setHbm m) t ∧
      (∀ a, m.get a = u.mem.hbm.get a) ∧
      ∀ g, m.tags.contains g = if base ≤ g ∧ g - base ∈ l then capTag t p g else u.mem.hbm.tags.contains g := by
  rcases hi with rfl | hi
  · exact ⟨u.mem.hbm, _, rfl, aside.giveBacks hp core ops, fun _ => rfl, fun g => by simp⟩
  · obtain ⟨m, ha, hb, ht⟩ := tagGranules p core base l u hi
    have ht' := ha.trans (aside.giveBacks (ha.noProbe hp) core ops)
    have hr : sameReads u (u.setHbm m) := ⟨rfl, rfl, rfl, fun a => by rw [physByte_setHbm hi, hb, physByte_of_images hi]⟩
    refine ⟨m, _, rfl, ht', hb, fun g => ?_⟩
    rw [ht, capTag_of_sameReads (hr.trans (ht'.sameReads hi))]

/-- What the drain of a line leaves: the line leaves its buffer, its bytes and the tags of its capability stores are at the home. -/
theorem wcDrainTimeout_drains (core line : Nat) (s : State) (w : WcLine) (hw : tget? (s.core core).wc line = some w) (ht : w.time + 1000 ≤ s.reft)
    (hn : (w.bytes.map (·.1)).Nodup) (hp : ∀ x ∈ s.ops, ∀ q ∈ x.2.lanes, q.probe = false) (hi : w.tags = [] ∨ s.mem.images = [])
    (hr : relockWait s core [(64 * line, 64, 1)] = false) (_ : ∀ i ∈ w.tags, i < 4) :
    let p := ((w.op.findSome? fun x => tget? s.ops x.1).map fun o => pasidOf s o.blk).getD 0
    ∃ t, exec (.wcDrainTimeout core line) s = .next t ∧ tget? (t.core core).wc line = none ∧
      (∀ a, t.byteAt (.hbm a) = ((if 64 * line ≤ a then tget? w.bytes (a - 64 * line) else none).getD (s.byteAt (.hbm a)))) ∧
      ∀ g, t.mem.hbm.tags.contains g = if 4 * line ≤ g ∧ g - 4 * line ∈ w.tags then
          pieceTag t p (physRead t (16 * g) 16) true 0 && !inSaveArea t (16 * g)
        else s.mem.hbm.tags.contains g && !(w.bytes.any fun x => (64 * line + x.1) / 16 == g) := by
  have hu := aside_wcBytes s core line w
  have hp' : noProbe s := fun k o ho q hq => hp (k, o) (tget?_mem ho) q hq
  obtain ⟨m, t, hd, htag, hget, hcont⟩ := wcTags (wcPasid s w) core (4 * line) w.tags _ (hi.imp_right hu.images) (hu.noProbe hp') w.op
  refine ⟨t, ?_, ?_, fun a => ?_, fun g => ?_⟩
  · rw [exec_wcDrainTimeout, execWcDrainTimeout, hw]
    dsimp only
    rw [if_pos ht, drainLine_eq hw hr, hd]
  · have hwc := ((hu.setHbm m).trans htag).wc core
    rw [hwc, State.core_setHbm, State.core_setHbm, State.core_modCore, if_pos rfl]
    exact tget?_tdel_self ..
  · simp only [State.byteAt, htag.hbm, State.setHbm, hget, hu.hbm]
    exact Ram.get_writeEach _ _ _ hn a
  · rw [htag.hbm]
    refine (hcont g).trans ?_
    rw [hu.hbm]
    exact if_congr Iff.rfl rfl (Ram.contains_writeEach ..)

end Sys2Proof.Machine
end

section
/-!
PROOFS. Refresh windows and window transfers (R133, R138): what changes on the dies, in scratchpads and in a lane's counters.
-/

namespace Sys2Proof.Machine

/-! ### Refresh windows (R138) -/

/-- The bank under refresh on a die. -/
def Die.withRefresh (x : Option Nat) (D : Die) : Die := { D with refresh := x }

/-- A refresh window begins or ends on some dies. -/
def setRefresh (x : Option Nat) (l : List Nat) (s : State) : State := l.foldl (fun s d => s.modDie d (Die.withRefresh x)) s

theorem setRefresh_dies (x : Option Nat) (l : List Nat) (s : State) : setRefresh x l s = { s with dies := (setRefresh x l s).dies } := by
  induction l generalizing s with
  | nil => rfl
  | cons d r ih => exact ih (s.modDie d (Die.withRefresh x))

theorem die_setRefresh (x : Option Nat) (l : List Nat) (s : State) (d : Nat) :
    (setRefresh x l s).die d = if d ∈ l then (s.die d).withRefresh x else s.die d := by
  induction l generalizing s with
  | nil => rfl
  | cons e r ih =>
    refine (ih (s.modDie e (Die.withRefresh x))).trans ?_
    rw [State.die_modDie]
    by_cases h : d = e
    · subst h; simp [Die.withRefresh]
    · simp [h]

theorem wsBad_setRefresh (x : Option Nat) (l : List Nat) (s : State) (d : Nat) : ((setRefresh x l s).die d).wsBad = (s.die d).wsBad := by
  rw [die_setRefresh]
  split <;> rfl

/-- REFT does not move while a window begins. -/
theorem setRefresh_of_reft (l : List Nat) (s : State) :
    l.foldl (fun s d => s.modDie d fun D => { D with refresh := refreshBank s.reft }) s = setRefresh (refreshBank s.reft) l s := by
  induction l generalizing s with
  | nil => rfl
  | cons d r ih => exact ih (s.modDie d _)

/-- A window begins on the dies of the package alone. -/
theorem refreshWindowStart_opens (s : State) (h : s.reft % 250 = 0) : ∃ t, exec .refreshWindowStart s = .next t ∧ { t with dies := s.dies } = s ∧
    (∀ d, 24 ≤ d → t.die d = s.die d) ∧ ∀ d < 24, t.die d = { s.die d with refresh := some (s.reft / 250 % 32) } := by
  have hb : refreshBank s.reft = some (s.reft / 250 % 32) := by simp [refreshBank, h]
  refine ⟨setRefresh (refreshBank s.reft) (List.range 24) s, ?_, ?_, fun d hd => ?_, fun d hd => ?_⟩
  · rw [exec_refreshWindowStart, execRefreshWindowStart, if_neg (by omega), setRefresh_of_reft]
  · exact (congrArg (fun t : State => { t with dies := s.dies }) (setRefresh_dies ..) :)
  · rw [die_setRefresh, if_neg (by simpa using hd)]
  · rw [die_setRefresh, if_pos (by simpa using hd), hb]
    rfl

theorem tget?_map {α β : Type} (t : Tab α) (f : α → β) (k : Nat) : tget? (t.map fun x => (x.1, f x.2)) k = (tget? t k).map f := by
  induction t with
  | nil => rfl
  | cons x r ih =>
    simp only [List.map_cons, tget?]
    split
    · rfl
    · exact ih

theorem wsBadLine_none {s : State} {d : Nat} (h : (s.die d).wsBad = []) (off n : Nat) : wsBadLine s d off n = none := by
  simp [wsBadLine, h]

/-- A read of a weight store without poisoned lines proceeds when its window has ended. -/
theorem wldProceed_eq {s : State} (hb : ∀ d, (s.die d).wsBad = []) {o : Op} {n : Nat} (ho : o.kind = .wld n) :
    wldProceed s o = { o with lanes := o.lanes.map fun q =>
      if q.ph = .sent ∧ q.time / 250 * 250 + 120 ≤ s.reft then { q with ph := .done } else q } := by
  simp only [wldProceed, ho, wsBadLine_none (hb _), Option.isNone_none, Bool.and_true, Bool.and_eq_true, beq_iff_eq, decide_eq_true_eq]

/-- A window ends on the dies of the package, and reads whose time is over are done. -/
theorem refreshWindowEnd_closes (s : State) (h : 120 ≤ s.reft % 250) (hb : ∀ d, (s.die d).wsBad = []) :
    ∃ t, exec .refreshWindowEnd s = .next t ∧ { t with dies := s.dies, ops := s.ops } = s ∧ (∀ d < 24, t.die d = { s.die d with refresh := none }) ∧
      ∀ k o n, tget? s.ops k = some o → o.kind = .wld n →
        tget? t.ops k = some { o with lanes := o.lanes.map fun q =>
          if q.ph = .sent ∧ q.time / 250 * 250 + 120 ≤ s.reft then { q with ph := .done } else q } := by
  have hu := setRefresh_dies none (List.range 24) s
  have hbu : ∀ d, ((setRefresh none (List.range 24) s).die d).wsBad = [] := fun d => (wsBad_setRefresh ..).trans (hb d)
  have hd : ∀ d < 24, (setRefresh none (List.range 24) s).die d = { s.die d with refresh := none } := fun d hd => by
    rw [die_setRefresh, if_pos (by simpa using hd)]
    rfl
  have he : exec .refreshWindowEnd s = .next { setRefresh none (List.range 24) s with
      ops := (setRefresh none (List.range 24) s).ops.map fun x => (x.1, wldProceed (setRefresh none (List.range 24) s) x.2) } := by
    rw [exec_refreshWindowEnd, execRefreshWindowEnd, if_neg (by omega)]
    rfl
  have hops : (setRefresh none (List.range 24) s).ops = s.ops := by rw [hu]
  have hreft : (setRefresh none (List.range 24) s).reft = s.reft := by rw [hu]
  generalize setRefresh none (List.range 24) s = u at hu hbu hd he hops hreft
  refine ⟨_, he, ?_, hd, fun k o n ho hk => ?_⟩
  · exact (congrArg (fun t : State => { t with dies := s.dies, ops := s.ops }) hu :)
  · dsimp only
    rw [tget?_map, hops, ho, Option.map_some, wldProceed_eq hbu hk, hreft]

/-! ### Bytes that others write into a scratchpad (R133, R149) -/

theorem blockSpm_modBlock (s : State) (b : Nat) (f : Block → Block) (hf : ∀ B, (f B).spm = B.spm) (c : Nat) :
    blockSpm (s.modBlock b f) c = blockSpm s c := by
  have h : tget? (s.modBlock b f).blocks c = if c = b then (tget? s.blocks b).map f else tget? s.blocks c := tget?_tmod ..
  unfold blockSpm
  rw [h]
  split
  · next e => subst e; cases tget? s.blocks c <;> simp [hf]
  · rfl

theorem blockSpm_modSpm {s : State} {b : Nat} {B : Block} (hB : tget? s.blocks b = some B) (f : Ram → Ram) (c : Nat) :
    blockSpm (modSpm s b f) c = if c = b then f (blockSpm s b) else blockSpm s c := by
  have h : tget? (modSpm s b f).blocks c = if c = b then (tget? s.blocks b).map (fun B => { B with spm := f B.spm }) else tget? s.blocks c := tget?_tmod ..
  unfold blockSpm
  rw [h]
  split
  · rw [hB]; rfl
  · rfl

/-- The blocks and the free values may change, and nothing else; scratchpads stay. -/
structure logSide (s t : State) : Prop where
  rest : { t with blocks := s.blocks, free := s.free } = s
  spm : ∀ b, blockSpm t b = blockSpm s b

namespace logSide

theorem trans {s t u : State} (h : logSide s t) (h' : logSide t u) : logSide s u :=
  ⟨(congrArg (fun x : State => { x with blocks := s.blocks, free := s.free }) h'.rest :).trans h.rest, fun b => (h'.spm b).trans (h.spm b)⟩

theorem logAdd (s : State) (b : Nat) (e : LogEnt) : logSide s (logAdd s b e) := by
  unfold Machine.logAdd
  split
  · exact ⟨rfl, blockSpm_modBlock s b _ fun _ => rfl⟩
  · exact ⟨rfl, fun _ => rfl⟩

theorem raceRings (s : State) (b x n : Nat) : logSide s (raceRings s b x n) := by
  unfold Machine.raceRings
  dsimp only
  split
  · exact ⟨rfl, fun _ => rfl⟩
  · exact ⟨rfl, blockSpm_modBlock _ b _ fun _ => rfl⟩

section
variable {s t : State} (h : logSide s t)
include h

theorem ops : t.ops = s.ops := (congrArg State.ops h.rest :)
theorem groups : t.groups = s.groups := (congrArg State.groups h.rest :)
theorem fqs : t.fqs = s.fqs := (congrArg State.fqs h.rest :)
theorem discards : t.discards = s.discards := (congrArg State.discards h.rest :)

theorem bytes : bytesKept s t
  | .hbm a => (congrArg (fun x : State => x.mem.hbm.get a) h.rest :)
  | .spm b a => by simp only [State.byteAt, h.spm]
  | .ws d a => (congrArg (fun x : State => cellsGet (x.die d).ws a) h.rest :)
end

end logSide

theorem logSide_spmFrom (s : State) (b x : Nat) (bs : List Byte) : logSide (spmStore s b x bs) (spmFrom s b x bs) :=
  (logSide.logAdd ..).trans (logSide.raceRings ..)

theorem blockSpm_spmFrom {s : State} {b : Nat} {B : Block} (hB : tget? s.blocks b = some B) (x : Nat) (bs : List Byte) (c : Nat) :
    blockSpm (spmFrom s b x bs) c = if c = b then (blockSpm s b).write x bs else blockSpm s c := by
  rw [(logSide_spmFrom ..).spm, spmStore, blockSpm_modSpm hB]

theorem ops_spmFrom (s : State) (b x : Nat) (bs : List Byte) : (spmFrom s b x bs).ops = s.ops := (logSide_spmFrom ..).ops

theorem groups_spmFrom (s : State) (b x : Nat) (bs : List Byte) : (spmFrom s b x bs).groups = s.groups := (logSide_spmFrom ..).groups

/-! ### A lane's request ends -/

theorem req?_dropLane (o : Op) (lane : Nat) : ({ o with lanes := o.lanes.filter fun q => q.lane != lane } : Op).req? lane = none := by
  simp [Op.req?, List.find?_eq_none]

theorem reqGone_dropReq (s : State) (op lane : Nat) : reqGone (dropReq s op lane) op lane := by
  unfold reqGone dropReq
  cases h : tget? s.ops op with
  | none => simp [h]
  | some o =>
    dsimp only
    split
    · simp
    · simpa using req?_dropLane o lane

theorem Ctr.get_sub (c : Ctr) (k x : CK) (n : Nat) : (c.sub k n).get x = if x = k then c.get x - n else c.get x := by
  cases k <;> cases x <;> rfl

theorem Group.ctrs_modCtr (G : Group) (lane l : Nat) (f : Ctr → Ctr) : (G.modCtr lane f).ctrs l = if l = lane then f (G.ctrs lane) else G.ctrs l :=
  tgetD_tput ..

/-- A lane's counter falls by one, and nothing else of the groups changes. -/
theorem ctrFell_lowerCtr {s u : State} (hg : u.groups = s.groups) (b g lane : Nat) (k : CK) : ctrFell s (lowerCtr u b g [lane] k) b g lane k := by
  have h : ∀ q, tget? (lowerCtr u b g [lane] k).groups q =
      if q = gkey b g then (tget? s.groups (gkey b g)).map (fun G => G.modCtr lane fun c => c.sub k 1) else tget? s.groups q := by
    rw [← hg]
    exact fun q => tget?_tmod ..
  refine ⟨fun q => ?_, fun q l x hx => ?_, ?_⟩
  · rw [h]
    split
    · next e => subst e; cases tget? s.groups (gkey b g) <;> rfl
    · rfl
  · rw [h]
    split
    · next e =>
      subst e
      cases tget? s.groups (gkey b g) with
      | none => rfl
      | some G =>
        simp only [Option.map_some, Group.ctrs_modCtr]
        split
        · next e => rw [Ctr.get_sub, if_neg fun hk => hx ⟨rfl, e, hk⟩, e]
        · rfl
    · rfl
  · unfold State.grp?
    rw [h, if_pos rfl]
    cases tget? s.groups (gkey b g) with
    | none => rfl
    | some G => simp only [Option.map_some, Group.ctrs_modCtr, Ctr.get_sub, if_true]

/-- What the end of a request leaves: the request is gone, its counter has fallen, and every byte stays. -/
theorem storeDone_ends {s u : State} {op lane : Nat} {o : Op} {q : LReq} (ho : tget? u.ops op = some o) (hq : o.req? lane = some q) (hp : q.probe = false)
    (hg : u.groups = s.groups) :
    reqGone (storeDone u op lane) op lane ∧ ctrFell s (storeDone u op lane) o.blk o.gidx lane o.kind.ctr ∧ bytesKept u (storeDone u op lane) := by
  have hd := dropReq_ops u op lane
  rw [storeDone_eq ho fun q' hq' => by rw [hq] at hq'; cases hq'; exact hp]
  refine ⟨reqGone_dropReq u op lane, ctrFell_lowerCtr ?_ .., ?_⟩
  · exact (congrArg State.groups hd :).trans hg
  · exact fun a => (congrArg (fun t : State => t.byteAt a) hd :)

/-! ### Window transfers (R133) -/

theorem length_natBytes (n v : Nat) : (natBytes n v).length = n := by simp [natBytes]

theorem getD_natBytes {n v i : Nat} (h : i < n) : (natBytes n v).getD i 0#8 = BitVec.ofNat 8 (v / 256 ^ i) := by
  simp [natBytes, List.getD_eq_getElem?_getD, h]

theorem length_read (m : Ram) (a n : Nat) : (m.read a n).length = n := by simp [Ram.read]

theorem getD_read {m : Ram} {a n i : Nat} (h : i < n) : (m.read a n).getD i 0#8 = m.get (a + i) := by
  simp [Ram.read, List.getD_eq_getElem?_getD, h]

/-- Bytes of another block come into a scratchpad. -/
theorem byteAt_spmFrom {s : State} {b : Nat} {B : Block} (hB : tget? s.blocks b = some B) (x : Nat) (bs : List Byte) (c a : Nat) :
    (spmFrom s b x bs).byteAt (.spm c a) = if c = b ∧ x ≤ a ∧ a < x + bs.length then bs.getD (a - x) 0#8 else s.byteAt (.spm c a) := by
  simp only [State.byteAt, blockSpm_spmFrom hB]
  by_cases h : c = b
  · subst h; simp [Ram.get_write]
  · simp [h]

/-- A put moves its bytes into the target's scratchpad. -/
theorem windowTransferComplete_put (op lane : Nat) (s : State) (o : Op) (q : LReq) (k : Nat) (r : List Nat) (T : Block)
    (ho : tget? s.ops op = some o) (hq : o.req? lane = some q) (hp : q.probe = false) (hk : o.kind = .put) (hw : windowTurn s o q = true)
    (hr : relockWait s o.core [] = false) (ht : q.targets = k :: r) (hT : tget? s.blocks k = some T) :
    ∃ t, exec (.windowTransferComplete op lane) s = .next t ∧ reqGone t op lane ∧ ctrFell s t o.blk o.gidx lane .st ∧
      ∀ b a, t.byteAt (.spm b a) = if b = k ∧ q.x2 ≤ a ∧ a < q.x2 + q.n then BitVec.ofNat 8 (q.data / 256 ^ (a - q.x2)) else s.byteAt (.spm b a) := by
  have he : exec (.windowTransferComplete op lane) s = .next (storeDone (spmFrom s k q.x2 (natBytes q.n q.data)) op lane) := by
    rw [exec_windowTransferComplete, execWindowTransferComplete]
    simp [ho, hq, hr, hk, hw, ht]
  obtain ⟨hgone, hfell, hkept⟩ := storeDone_ends (s := s) (lane := lane) ((congrArg (tget? · op) (ops_spmFrom s k q.x2 (natBytes q.n q.data))).trans ho)
    hq hp (groups_spmFrom ..)
  rw [hk] at hfell
  refine ⟨_, he, hgone, hfell, fun b a => ?_⟩
  rw [hkept, byteAt_spmFrom hT, length_natBytes]
  refine if_ctx_congr Iff.rfl (fun h => getD_natBytes (by omega)) fun _ => rfl

/-- A get moves its bytes into the issuer's scratchpad. -/
theorem windowTransferComplete_get (op lane : Nat) (s : State) (o : Op) (q : LReq) (k : Nat) (r : List Nat) (B : Block)
    (ho : tget? s.ops op = some o) (hq : o.req? lane = some q) (hp : q.probe = false) (hk : o.kind = .get) (ht : q.targets = k :: r)
    (hr : relockWait s o.core [] = false) (hB : tget? s.blocks o.blk = some B) :
    ∃ t, exec (.windowTransferComplete op lane) s = .next t ∧ reqGone t op lane ∧ ctrFell s t o.blk o.gidx lane .ld ∧
      ∀ b a, t.byteAt (.spm b a) = if b = o.blk ∧ q.x ≤ a ∧ a < q.x + q.n then s.byteAt (.spm k (q.x2 + (a - q.x))) else s.byteAt (.spm b a) := by
  have he : exec (.windowTransferComplete op lane) s = .next (storeDone (spmFrom s o.blk q.x ((blockSpm s k).read q.x2 q.n)) op lane) := by
    rw [exec_windowTransferComplete, execWindowTransferComplete]
    simp [ho, hq, hr, hk, ht]
  obtain ⟨hgone, hfell, hkept⟩ := storeDone_ends (s := s) (lane := lane)
    ((congrArg (tget? · op) (ops_spmFrom s o.blk q.x ((blockSpm s k).read q.x2 q.n))).trans ho) hq hp (groups_spmFrom ..)
  rw [hk] at hfell
  refine ⟨_, he, hgone, hfell, fun b a => ?_⟩
  rw [hkept, byteAt_spmFrom hB, length_read]
  refine if_ctx_congr Iff.rfl (fun h => getD_read (by omega)) fun _ => rfl

end Sys2Proof.Machine
end

section
/-!
PROOFS. The completion timeout and packets of the fabric (R7, R113, R344, R345, R347).
-/

namespace Sys2Proof.Machine

/-! ### The completion timeout (R345) -/

/-- A request that nothing waits for any longer has had no completion for 1 ms. -/
theorem completionTimeout_orphan (a : Asked) (n : Nat) (s : State) (x : Orphan) (hx : orphanLate s a n = some x) :
    exec (.completionTimeout a n) s = .next (portEvent { s with orphans := s.orphans.eraseP fun y => y.asked == a && y.n == n } x.pasid) := by
  rw [exec_completionTimeout]
  unfold execCompletionTimeout
  rw [hx]
  rfl

theorem completionTimeout_op (op lane : Nat) (s : State) (o : Op) (q : LReq) (ho : tget? s.ops op = some o) (hq : o.req? lane = some q)
    (hph : q.ph = .remote) (hl : q.sent + 1000000 ≤ s.reft) (hx : orphanLate s (.op op) lane = none) :
    exec (.completionTimeout (.op op) lane) s = .next (portEvent (dropReq s op lane) (some (pasidOf s o.blk))) := by
  rw [exec_completionTimeout]
  unfold execCompletionTimeout
  rw [hx]
  simp only [ho, hq, Option.bind_some, Option.map_some, hph, bne_self_eq_false, Bool.false_or, decide_eq_true_eq, if_neg (Nat.not_lt.mpr hl)]
  rfl

theorem completionTimeout_code (r : IRef) (s : State) (i : Issuer) (n : Nat) (a : Nat) (ks) (hi : s.issuer? r = some i)
    (hw : i.wait = .code n a ks) (hl : n + 1000000 ≤ s.reft) (hx : orphanLate s (.code r.blk r.gidx) r.iss = none) :
    exec (.completionTimeout (.code r.blk r.gidx) r.iss) s =
      .next (portEvent (s.modIssuer r fun i => { i with wait := .go }) (some (pasidOf s r.blk))) := by
  rw [exec_completionTimeout]
  unfold execCompletionTimeout
  rw [hx]
  simp only [hi, Option.map_some, hw, if_neg (Nat.not_lt.mpr hl)]
  rfl

theorem completionTimeout_meter (w : Nat) (s : State) (W : World) (r : Reading) (rest : List Reading) (n : Nat) (ks ps)
    (hW : tget? s.worlds w = some W) (hr : W.readings = r :: rest) (hs : r.sent = some (n, ks, ps)) (hl : n + 1000000 ≤ s.reft)
    (hx : orphanLate s .meter w = none) :
    exec (.completionTimeout .meter w) s =
      .next (portEvent (s.modWorld w fun _ => passDies { W with readings := rest } r.dies) (some r.pasid)) := by
  rw [exec_completionTimeout]
  unfold execCompletionTimeout
  rw [hx]
  simp only [hW, hr, hs, if_neg (Nat.not_lt.mpr hl)]
  rfl

theorem completionTimeout_wscopy (k : Nat) (s : State) (w : WsCopy) (n : Nat) (ks ps) (hw : tget? s.wscopies k = some w)
    (hs : w.sent = some (n, ks, ps)) (hl : n + 1000000 ≤ s.reft) (hx : orphanLate s .wscopy k = none) :
    exec (.completionTimeout .wscopy k) s = .next (reply (portEvent { s with wscopies := tdel s.wscopies k } (some w.pasid)) w.cmd 8 0) := by
  rw [exec_completionTimeout]
  unfold execCompletionTimeout
  rw [hx]
  simp only [hw, hs, if_neg (Nat.not_lt.mpr hl)]
  rfl

/-! ### Packets of the fabric (R7, R344, R347) -/

theorem portThere_iff {port queue : Nat} : portThere port queue = true ↔ port < 8 ∧ queue < 256 := by
  have h : (ioOfPort port).isSome = true ↔ port < 8 := by
    simp only [ioOfPort, List.find?_isSome, List.mem_cons, List.not_mem_nil, or_false, exists_eq_or_imp, exists_eq_left, IoDie.ports,
      List.contains_iff_mem]
    omega
  simp [portThere, h]

theorem exec_element {port queue : Nat} (h : port < 8) (hq : queue < 256) (pasid : Nat) (w : Word) (s : State) :
    exec (.fabricPacketArrival (.element port queue pasid w)) s = .next (elementArrives s port queue pasid w) := by
  simp [execFabricPacketArrival, portThere_iff.mpr ⟨h, hq⟩]

theorem logSide_logAdds (l : List Nat) (e : State → Nat → LogEnt) (s : State) : logSide s (l.foldl (fun s b => logAdd s b (e s b)) s) := by
  induction l generalizing s with
  | nil => exact ⟨rfl, fun _ => rfl⟩
  | cons b r ih => exact (logSide.logAdd s b _).trans (ih _)

theorem element_delivered (port queue pasid : Nat) (w : Word) (s : State) (q : FQueue) (hq : tget? s.fqs (fqKey port queue) = some q)
    (hc : (tget? s.ctxs pasid).isSome) (hb : q.bound = some pasid) (hp : port < 8) (hu : queue < 256) :
    ∃ t, exec (.fabricPacketArrival (.element port queue pasid w)) s = .next t ∧ bytesKept s t ∧ t.discards = s.discards ∧
      tget? t.fqs (fqKey port queue) = some { q with elems := q.elems ++ [w] } := by
  have hD : tgetD s.fqs (fqKey port queue) FQueue.reset = q := by rw [tgetD, hq]; rfl
  rw [exec_element hp hu, elementArrives]
  dsimp only
  rw [hD, if_neg (by simp [Option.isSome_iff_ne_none.mp hc, hb])]
  have hl := logSide_logAdds
  refine ⟨_, rfl, (hl _ _ _).bytes, (hl _ _ _).discards, ?_⟩
  rw [(hl _ _ _).fqs]
  exact tget?_tset_self ..

theorem element_discarded (port queue pasid : Nat) (w : Word) (s : State)
    (h : tget? s.ctxs pasid = none ∨ (tgetD s.fqs (fqKey port queue) FQueue.reset).bound ≠ some pasid) (hp : port < 8) (hu : queue < 256) :
    let q := tgetD s.fqs (fqKey port queue) FQueue.reset
    exec (.fabricPacketArrival (.element port queue pasid w)) s = .next { s with
      discards := s.discards + 1, fqs := tset s.fqs (fqKey port queue) { q with owed := q.owed + 1 } } := by
  intro q
  rw [exec_element hp hu, elementArrives]
  dsimp only
  rw [if_pos (by simpa [Option.isNone_iff_eq_none] using h)]

theorem noPort_nothing (port queue pasid : Nat) (w : Word) (n : Nat) (s : State) (hp : 8 ≤ port) :
    exec (.fabricPacketArrival (.element port queue pasid w)) s = .next s ∧ exec (.fabricPacketArrival (.credit port queue n)) s = .next s := by
  have h : portThere port queue = false := Bool.eq_false_iff.mpr fun e => by have := (portThere_iff.mp e).1; omega
  exact ⟨by simp [execFabricPacketArrival, h], by simp [execFabricPacketArrival, h]⟩

theorem credit_arrives (port queue n : Nat) (s : State) (q : FQueue) (hq : q = tgetD s.fqs (fqKey port queue) FQueue.reset) (hp : port < 8)
    (hu : queue < 256) : exec (.fabricPacketArrival (.credit port queue n)) s =
      .next { s with fqs := tset s.fqs (fqKey port queue) { q with credits := min 64 (q.credits + n) } } := by
  subst hq
  simp [execFabricPacketArrival, portThere_iff.mpr ⟨hp, hu⟩, creditArrives]

theorem route_set (port queue : Nat) (x) (s : State) (q : FQueue) (hq : q = tgetD s.fqs (fqKey port queue) FQueue.reset) (hp : port < 8)
    (hu : queue < 240) : exec (.fabricPacketArrival (.route port queue x)) s =
      .next { s with fqs := tset s.fqs (fqKey port queue) { q with route := x } } := by
  subst hq
  simp [execFabricPacketArrival, portThere_iff.mpr ⟨hp, (by omega : queue < 256)⟩, routeQueue, Nat.not_le.mpr hu]

/-! ### A peer's request for no context (R344) -/

theorem peerAccess_noCtx {s : State} {pasid : Nat} (h : tget? s.ctxs pasid = none) (k : Cap) (x n : Nat) (w : Option Nat) :
    peerAccess s pasid k x n w = .error { s with discards := s.discards + 1, reply := [9#8] } := by
  rw [peerAccess, h]
  rfl

theorem remoteRead_noCtx (pasid : Nat) (k x n) (s : State) (h : tget? s.ctxs pasid = none) :
    exec (.fabricPacketArrival (.remoteRead pasid k x n)) s = .next { s with discards := s.discards + 1, reply := [9#8] } := by
  rw [exec_fabricPacketArrival, execFabricPacketArrival]
  simp only [peerRead, peerAccess_noCtx h]

theorem remoteWrite_noCtx (pasid : Nat) (k x bs tags p) (s : State) (h : tget? s.ctxs pasid = none) :
    exec (.fabricPacketArrival (.remoteWrite pasid k x bs tags p)) s = .next { s with discards := s.discards + 1, reply := [9#8] } := by
  rw [exec_fabricPacketArrival, execFabricPacketArrival]
  simp only [peerWrite, peerAccess_noCtx h]

/-! ### An answer to a load (R113) -/

theorem leNat_map (n : Nat) (f : Nat → Byte) :
    leNat ((List.range (n + 1)).map f) = (f 0).toNat + 256 * leNat ((List.range n).map fun i => f (i + 1)) := by
  rw [List.range_succ_eq_map, List.map_cons, List.map_map]
  rfl

/-- The number that the n low bytes of a number are. -/
theorem leNat_natBytes (n v : Nat) : leNat (natBytes n v) = v % 2 ^ (8 * n) := by
  induction n generalizing v with
  | zero => simp [natBytes, leNat, Nat.mod_one]
  | succ n ih =>
    have hs : ((List.range n).map fun i => BitVec.ofNat 8 (v / 256 ^ (i + 1))) = natBytes n (v / 256) :=
      List.map_congr_left fun i _ => by rw [Nat.pow_succ', Nat.div_div_eq_div_mul]
    rw [natBytes, leNat_map, hs, ih, BitVec.toNat_ofNat, Nat.pow_zero, Nat.div_one, Nat.mul_succ, Nat.add_comm (8 * n), Nat.pow_add, Nat.mod_mul]

section
variable {p : Nat × Nat × Nat} (h : farPart p = true)
include h

theorem chargeParts_far (s : State) (o : Op) : chargeParts s o [p] = s := by simp [chargeParts, h]

theorem badNear_far (s : State) : badNear s [p] = none := by simp [badNear, h]

theorem joinParts_far (s : State) (bs : List Byte) : joinParts s [p] bs = bs.take p.2.1 := by simp [joinParts, h]
end

/-- The value of a load of one span homed elsewhere arrives. -/
theorem response_load (op lane v : Nat) (s : State) (o : Op) (q : LReq) (n : Nat) (sg : Bool) (h mt : Nat) (ho : tget? s.ops op = some o)
    (hq : o.req? lane = some q) (hph : q.ph = .remote) (hk : o.kind = .load n sg) (hw : o.wide = none) (hp : q.parts = [(h, q.n, mt)])
    (hm : 4 ≤ mt) (hx : isOrphan s (.op op) lane = false) (hr : relockWait s o.core q.parts = false) :
    exec (.fabricPacketArrival (.response op lane v false)) s = .next (s.modOp op fun o => o.modReq lane fun r =>
      { r with ph := .done, val := v % 2 ^ (8 * q.n), vtag := false }) := by
  have hf : farPart (h, q.n, mt) = true := decide_eq_true hm
  have hj : leNat (joinParts s q.parts (natBytes q.n v)) = v % 2 ^ (8 * q.n) := by
    rw [hp, joinParts_far hf, List.take_of_length_le (length_natBytes ..).le, leNat_natBytes]
  have hb : badNear s q.parts = none := by rw [hp, badNear_far hf]
  have hc : chargeParts s o q.parts = s := by rw [hp, chargeParts_far hf]
  rw [exec_fabricPacketArrival]
  simp [execFabricPacketArrival, remoteDone, hx, ho, hq, hph, hw, hr, hk, hb, hc, hj, OpKind.isStore, OpKind.isCopy]

/-- Settles O45: each event by the theorem about its own arm. -/
theorem memoryEvents : Obligations.MemoryEvents :=
  ⟨lossNotice_drops, wcDrainTimeout_drains, refreshWindowStart_opens, refreshWindowEnd_closes, windowTransferComplete_put, windowTransferComplete_get,
    completionTimeout_op, completionTimeout_code, completionTimeout_meter, completionTimeout_wscopy, completionTimeout_orphan, element_delivered,
    element_discarded, noPort_nothing, credit_arrives, route_set, response_load, remoteRead_noCtx, remoteWrite_noCtx⟩

end Sys2Proof.Machine
end

section
/-!
PROOFS. Every state has a next state (R35, R282, Table 21.1): a shared operation answers a next state when what it is given does, and so
does each instruction, each event and each turn.
-/

namespace Sys2Proof.Machine

/-- An outcome that is a next state. -/
def Answers (o : Out) : Prop := ∃ t, o = .next t

/-- The same of an outcome that there may be. -/
def MayAnswer (o : Option Out) : Prop := ∀ x, o = some x → Answers x

theorem answers_next (s : State) : Answers (.next s) := ⟨s, rfl⟩
theorem answers_done (cls : Nat) (per : Per) (s : State) : Answers (done cls per s) := ⟨_, rfl⟩
theorem mayAnswer_none : MayAnswer none := fun _ h => nomatch h
theorem mayAnswer_some {o : Out} (h : Answers o) : MayAnswer (some o) := fun _ e => Option.some.inj e ▸ h

theorem answers_ite {p : Prop} [Decidable p] {a b : Out} (ha : Answers a) (hb : Answers b) : Answers (if p then a else b) := by
  split
  · exact ha
  · exact hb

theorem mayAnswer_ite {p : Prop} [Decidable p] {a b : Option Out} (ha : MayAnswer a) (hb : MayAnswer b) : MayAnswer (if p then a else b) := by
  split
  · exact ha
  · exact hb

/-! ### Faults and waits (R35, R284) -/

theorem answers_faultAll (code data : Nat) (s : State) : Answers (faultAll code data s) := by
  unfold faultAll
  split <;> exact answers_next _

theorem answers_faultWord (code data : Nat) (s : State) : Answers (faultWord code data s) := answers_faultAll ..

theorem answers_faultUnit (code data : Nat) (s : State) : Answers (faultUnit code data s) := by
  unfold faultUnit
  split
  · exact answers_next _
  · exact answers_faultAll ..

theorem answers_regLimit (s : State) (gs : List Nat) : Answers (regLimit s gs) := by
  unfold regLimit
  repeat' split
  all_goals exact answers_next _

theorem mayAnswer_ready (s : State) (c : Cur) (ops : List Opd) (d : Dst) (b : Bool) : MayAnswer (ready? s c ops d b) := by
  unfold ready?
  refine mayAnswer_ite (mayAnswer_some (answers_next _)) (mayAnswer_ite (mayAnswer_some (answers_next _)) ?_)
  split
  · exact mayAnswer_some (answers_next _)
  · exact mayAnswer_ite (mayAnswer_some (answers_next _)) (mayAnswer_ite mayAnswer_none (mayAnswer_some (answers_regLimit ..)))

theorem mayAnswer_accHeld (s : State) (c : Cur) (w : DWord) (b : Bool) : MayAnswer (accHeld s c w b) := by
  unfold accHeld
  refine mayAnswer_ite (mayAnswer_some (answers_next _)) (mayAnswer_ite mayAnswer_none ?_)
  split
  · exact mayAnswer_ite (mayAnswer_some (answers_regLimit ..)) mayAnswer_none
  · exact mayAnswer_none

/-! ### The shared shapes of words

A word begins with the word in execution, ends at once for an empty active set (R31), and waits or faults before it reads its operands. -/

/-- Nothing is in execution, or what goes on answers. -/
theorem answers_cur {s : State} {f : Cur → Out} (h : ∀ c, Answers (f c)) : Answers (match s.cur with
    | none => .next s
    | some c => f c) := by
  split
  · exact answers_next _
  · exact h _

/-- The active set is empty, or what goes on answers. -/
theorem answers_unlessEmpty {c : Cur} {s : State} {o : Out} (h : Answers o) : Answers (if c.empty then .next (retire s) else o) :=
  answers_ite (answers_next _) h

/-- An operation that waits or faults before it reads its operands, or goes on. -/
theorem answers_ready {s : State} {c : Cur} {ops : List Opd} {d : Dst} {b : Bool} {o : Out} (h : Answers o) :
    Answers (match ready? s c ops d b with
      | some x => x
      | none => o) := by
  split
  · next e => exact mayAnswer_ready _ _ _ _ _ _ e
  · exact h

theorem answers_laneOpU (cls : Nat) (per : Per) (d : VDst) (ops : List Opd) (us : List (RSrc × Nat)) (f : Group → Nat → List Word → Word)
    (s : State) : Answers (laneOpU cls per d ops us f s) :=
  answers_cur fun _ => answers_unlessEmpty (answers_ready (answers_done ..))

theorem answers_laneOp (cls : Nat) (d : VDst) (ops : List Opd) (f : Group → Nat → List Word → Word) (s : State) :
    Answers (laneOp cls d ops f s) := answers_laneOpU ..

theorem answers_laneOpK (cls : Nat) (d : BitVec 6) (k : Nat) (ops : List Opd) (f : Group → Nat → List Word → List Word) (s : State) :
    Answers (laneOpK cls d k ops f s) :=
  answers_cur fun _ => answers_unlessEmpty (answers_ready (answers_done ..))

theorem answers_predOp (cls : Nat) (d : BitVec 3) (ops : List Opd) (f : Group → Nat → List Word → Bool) (s : State) :
    Answers (predOp cls d ops f s) := answers_cur fun _ => answers_unlessEmpty (answers_ready (answers_done ..))

theorem answers_compOp (cls : Nat) (d : VDst) (ops : List Opd) (comp : List VCell → Option VCell) (f : List Word → Word) (s : State) :
    Answers (compOp cls d ops comp f s) :=
  answers_cur fun _ => answers_unlessEmpty (answers_ite (answers_ready (answers_done ..)) (answers_laneOp ..))

theorem answers_crossOp (cls : Nat) (d : VDst) (ops : List Opd) (f : Nat → List Elem → Elem → Word) (s : State) :
    Answers (crossOp cls d ops f s) := answers_cur fun _ => answers_unlessEmpty (answers_ready (answers_done ..))

theorem answers_reduceOp (cls : Nat) (d : VDst) (b : VSrc) (f : List Elem → Word) (s : State) :
    Answers (reduceOp cls d b f s) := answers_cur fun _ => answers_unlessEmpty (answers_ready (answers_done ..))

theorem answers_toUni (a : BitVec 6) (ops : List Opd) (f : State → Cur → List Elem → Nat → DWord) (free : List (RSrc × Nat)) (s : State) :
    Answers (toUni a ops f free s) := answers_cur fun _ => answers_unlessEmpty (answers_ready (answers_done ..))

theorem answers_quadOp (cls : Nat) (a : BitVec 6) (ops : List Opd) (us : List (RSrc × Nat)) (f : Group → Nat → List Word → Cap) (s : State) :
    Answers (quadOp cls a ops us f s) := answers_cur fun _ => answers_unlessEmpty (answers_ready (answers_done ..))

theorem answers_predLogic (d : BitVec 3) (ps : List Pred) (f : List Lanes → Lanes) (s : State) : Answers (predLogic d ps f s) :=
  answers_cur fun _ => answers_unlessEmpty (answers_done ..)

theorem answers_deriveOp (a : BitVec 6) (b c : RSrc) (f : Cap → Int → Cap) (s : State) : Answers (deriveOp a b c f s) := answers_quadOp ..
theorem answers_arithF (cls : Nat) (op : FOp) (t : Ty) (m : Rnd) (d : VDst) (ops : List Opd) (s : State) : Answers (arithF cls op t m d ops s) :=
  answers_compOp ..
theorem answers_vcmp (r : Rel) (d : BitVec 3) (b c : VSrc) (s : State) : Answers (vcmp r d b c s) := answers_predOp ..
theorem answers_fcmp (r : FRel) (d : BitVec 3) (b c : VSrc) (s : State) : Answers (fcmp r d b c s) := answers_predOp ..

/-- A uniform word looks at its leading group. -/
theorem answers_lead {s : State} {b g : Nat} {f : Group → Out} (h : ∀ G, Answers (f G)) : Answers (match s.grp? b g with
    | none => .next (retire s)
    | some G => f G) := by
  split
  · exact answers_next _
  · exact h _

theorem answers_uniOp (cls : Nat) (d : BitVec 6) (srcs : List RSrc) (f : Group → List DWord → DWord) (s : State) :
    Answers (uniOp cls d srcs f s) := answers_cur fun _ => answers_unlessEmpty (answers_lead fun _ => answers_done ..)

theorem answers_uniPredOp (cls : Nat) (d : BitVec 3) (srcs : List RSrc) (f : Group → List DWord → Bool) (s : State) :
    Answers (uniPredOp cls d srcs f s) := answers_cur fun _ => answers_unlessEmpty (answers_lead fun _ => answers_done ..)

theorem answers_scmp (r : Rel) (d : BitVec 3) (b c : RSrc) (s : State) : Answers (scmp r d b c s) := answers_uniPredOp ..
theorem answers_qLogic (d : BitVec 3) (ps : List Pred) (f : List Bool → Bool) (s : State) : Answers (qLogic d ps f s) := answers_uniPredOp ..

theorem answers_blockOp (cls : Nat) (us : List RSrc) (go : State → Cur → Except Nat State) (s : State) : Answers (blockOp cls us go s) := by
  refine answers_cur fun c => answers_unlessEmpty ?_
  split
  · exact answers_faultWord ..
  · exact answers_done ..

theorem answers_queueOp (cls : Option Nat) (us : List RSrc) (go : State → Cur → Except Nat (TKind × Bool × List Nat)) (s : State) :
    Answers (queueOp cls us go s) := by
  refine answers_cur fun c => answers_unlessEmpty (answers_ite (answers_next _) ?_)
  split
  · exact answers_faultWord ..
  · split <;> exact ⟨_, rfl⟩

theorem answers_transferOp (ops : List Opd) (d : Dst) (go : Issuer → Clause → Group → Nat → List Word → Except (Nat × Nat) (Cap × (Group → Group)))
    (s : State) : Answers (transferOp ops d go s) := by
  refine answers_cur fun c => answers_unlessEmpty (answers_ready ?_)
  split
  · split
    · exact answers_ite (answers_next _) (answers_next _)
    · exact answers_next _
  · exact answers_next _

/-- Elements that fault, or the rest going on. -/
theorem answers_splitFaults {s : State} {c : Cur} {fs : List LFault} {go : State → Cur → Out} (h : ∀ s c, Answers (go s c)) :
    Answers (splitFaults s c fs go) := by
  unfold splitFaults
  dsimp only
  refine answers_ite (h ..) (answers_cur fun c => answers_unlessEmpty (h ..))

theorem answers_releaseThen {go : State → Cur → Out} (h : ∀ s c, Answers (go s c)) (s : State) : Answers (releaseThen go s) :=
  answers_cur fun _ => answers_ite (answers_next _) (answers_ite (h ..) (answers_next _))

theorem answers_acquireOp {go : State → Cur → Out} (h : ∀ s c, Answers (go s c)) (s : State) : Answers (acquireOp go s) :=
  answers_cur fun _ => answers_unlessEmpty (answers_ite (h ..) (answers_next _))
theorem answers_releaseOp {go : State → Cur → Out} (h : ∀ s c, Answers (go s c)) (s : State) : Answers (releaseOp go s) :=
  answers_cur fun _ => answers_unlessEmpty (answers_releaseThen h s)
theorem answers_releaseBlock {go : State → Cur → Out} (h : ∀ s c, Answers (go s c)) (s : State) : Answers (releaseBlock go s) :=
  answers_cur fun _ => answers_ite (answers_next _) (answers_ite (h ..) (answers_next _))

theorem answers_instOp (k : BarKind) (s : State) : Answers (instOp k s) := answers_releaseThen (fun _ _ => answers_next _) s

/-! ### Outstanding operations -/

theorem answers_resumeHeld (I : Issue) (s : State) (c : Cur) (held : List (Nat × Op)) : Answers (resumeHeld I s c held) :=
  answers_ite (answers_next _) (answers_ite (answers_next _) (answers_ite (answers_done ..) (answers_next _)))

theorem answers_issueOp (I : Issue) (build : Group → Nat → List Word → Except (Nat × Nat) LReq) (s : State) : Answers (issueOp I build s) := by
  refine answers_cur fun c => answers_unlessEmpty (answers_ite (answers_resumeHeld ..) (answers_ready (answers_ite ⟨_, rfl⟩
    (answers_ite (answers_next _) (answers_ite (answers_next _) (answers_ite (answers_resumeHeld ..) (answers_done ..))))))) 

theorem answers_loadOp (n : Nat) (sgn : Bool) (a : BitVec 6) (k : Nat) (b : RSrc) (c : VSrc) (s : State) : Answers (loadOp n sgn a k b c s) :=
  answers_issueOp ..

theorem answers_storeOp (n : Nat) (data : Opd) (w : Nat) (b : RSrc) (c : VSrc) (s : State) : Answers (storeOp n data w b c s) := answers_issueOp ..

theorem answers_atomicOp (op : Nat) (cas : Bool) (t : Ty) (o : AOrd) (a : BitVec 6) (b : RSrc) (c d : VSrc) (s : State) :
    Answers (atomicOp op cas t o a b c d s) := answers_ite (answers_next _) (answers_issueOp ..)

theorem answers_windowOp (kind : OpKind) (a b c : VSrc) (s : State) : Answers (windowOp kind a b c s) :=
  answers_cur fun _ => answers_ite (answers_next _) (answers_issueOp ..)

theorem answers_ldsOp (n : Nat) (a : BitVec 6) (k : Nat) (b : VSrc) (s : State) : Answers (ldsOp n a k b s) :=
  answers_cur fun _ => answers_ite (answers_next _) (answers_issueOp ..)

theorem answers_stsOp (n : Nat) (data : Opd) (w : Nat) (b : VSrc) (s : State) : Answers (stsOp n data w b s) :=
  answers_cur fun _ => answers_unlessEmpty (answers_ite (answers_next _) (answers_ready (answers_ite (answers_next _) (answers_done ..))))

theorem answers_wldOp (n : Nat) (a : BitVec 6) (k : Nat) (b c : VSrc) (s : State) : Answers (wldOp n a k b c s) := by
  refine answers_cur fun c => ?_
  dsimp only
  split
  · exact answers_next _
  · exact answers_issueOp ..

/-! ### Control and system words -/

theorem answers_privOp (a b c : RSrc) (go : State → Nat → Nat → Nat → Except Nat State) (s : State) : Answers (privOp a b c go s) := by
  refine answers_cur fun c => answers_ite (answers_faultAll ..) (answers_unlessEmpty ?_)
  split
  · exact answers_faultWord ..
  · exact answers_done ..

theorem answers_labelOp (f : State → Nat → Nat → State) (s : State) : Answers (labelOp f s) := answers_cur fun _ => answers_next _
theorem answers_trctlOp (act : Nat) (s : State) : Answers (trctlOp act s) := answers_cur fun _ => answers_done ..
theorem answers_stopOp (enabled : Ctx → Bool) (s : State) : Answers (stopOp enabled s) := answers_cur fun _ => answers_next _

/-! ### Commands -/

theorem answers_pfCtx (s : State) (q : Cmd) (go : Nat → Ctx → State) : Answers (pfCtx s q go) := answers_ite (answers_next _) (answers_next _)

/-! ### Words and events with more than one way on -/

theorem answers_execBar (e : Scope) (s : State) : Answers (execBar e s) := answers_releaseOp (fun _ _ => answers_done ..) s

theorem answers_execBarComplete (g : GRef) (s : State) : Answers (execBarComplete g s) := by
  unfold execBarComplete
  dsimp only
  repeat' split
  case h_2 => exact answers_execBar ..
  all_goals exact answers_next _

theorem answers_execBara (e : Scope) (k : BitVec 4) (n : BitVec 6) (s : State) : Answers (execBara e k n s) := by
  refine answers_cur fun c => answers_unlessEmpty ?_
  split
  · exact answers_faultUnit ..
  · exact answers_releaseThen (fun _ _ => answers_done ..) s

theorem answers_execBarw (e : Scope) (k : BitVec 4) (s : State) : Answers (execBarw e k s) :=
  answers_cur fun _ => answers_unlessEmpty (answers_ite (answers_acquireOp (fun _ _ => answers_done ..) s) (answers_next _))

theorem answers_execGrdbar (s : State) : Answers (execGrdbar s) :=
  answers_cur fun _ => answers_ite (answers_instOp ..) (answers_faultUnit ..)

theorem answers_execFork (a : BitVec 6) (b : RSrc) (s : State) : Answers (execFork a b s) := by
  refine answers_cur fun c => answers_unlessEmpty ?_
  dsimp only
  split
  · exact answers_faultUnit ..
  · refine answers_releaseBlock (fun s c => ?_) s
    split
    · exact answers_ite (answers_done ..) (answers_done ..)
    · exact answers_next _

theorem answers_execRdsr (e : Scope) (a : VDst) (r : SReg) (hi : Bool) (s : State) : Answers (execRdsr e a r hi s) :=
  answers_cur fun _ => answers_unlessEmpty (answers_ready (answers_done ..))

theorem answers_execCpyq (e : Scope) (a : VDst) (b : VSrc) (s : State) : Answers (execCpyq e a b s) :=
  answers_cur fun _ => answers_unlessEmpty (answers_ready (answers_done ..))

theorem answers_execCfred (e : Scope) (a : BitVec 6) (b : RSrc) (s : State) : Answers (execCfred e a b s) :=
  answers_cur fun _ => answers_unlessEmpty (answers_ready (answers_done ..))

theorem answers_execVbcast (e : Scope) (a : VDst) (b : RSrc) (s : State) : Answers (execVbcast e a b s) := answers_cur fun _ => answers_laneOpU ..

theorem answers_execVext (e : Scope) (ty st : Ty) (a : VDst) (b : VSrc) (i : BitVec 8) (s : State) : Answers (execVext e ty st a b i s) := by
  unfold execVext
  split <;> exact answers_laneOp ..

theorem answers_execFcvt (e : Scope) (ty st : Ty) (m : Rnd) (a : VDst) (b : VSrc) (i j : BitVec 8) (s : State) :
    Answers (execFcvt e ty st m a b i j s) := by
  unfold execFcvt
  split <;> exact answers_laneOp ..

theorem answers_execCbcast (e : Scope) (a : BitVec 6) (b : RSrc) (s : State) : Answers (execCbcast e a b s) := answers_cur fun _ => answers_quadOp ..

theorem answers_execChbind (e : Scope) (ch : BitVec 6) (b c : RSrc) (s : State) : Answers (execChbind e ch b c s) := by
  refine answers_cur fun _ => answers_unlessEmpty (answers_lead fun G => ?_)
  split
  · exact answers_faultWord ..
  · exact answers_done ..

theorem answers_execCpy (e : Scope) (a b : RSrc) (c d : VSrc) (s : State) : Answers (execCpy e a b c d s) := answers_cur fun _ => answers_issueOp ..
theorem answers_execCpysIn (e : Scope) (a : VSrc) (b : RSrc) (c d : VSrc) (s : State) : Answers (execCpysIn e a b c d s) :=
  answers_cur fun _ => answers_issueOp ..
theorem answers_execCpysOut (e : Scope) (a : VSrc) (b : RSrc) (c d : VSrc) (s : State) : Answers (execCpysOut e a b c d s) :=
  answers_cur fun _ => answers_issueOp ..
theorem answers_execMcast (e : Scope) (a : VSrc) (b : RSrc) (c d : VSrc) (s : State) : Answers (execMcast e a b c d s) :=
  answers_cur fun _ => answers_issueOp ..
theorem answers_execOload (o : Scope) (n : BitVec 5) (b c : RSrc) (src : Bool) (s : State) : Answers (execOload o n b c src s) :=
  answers_cur fun _ => answers_issueOp ..

theorem answers_execAccrd (e : Scope) (ty : Ty) (m : Rnd) (v : BitVec 2) (tile : BitVec 4) (c : RSrc) (s : State) :
    Answers (execAccrd e ty m v tile c s) := by
  refine answers_cur fun cu => ?_
  dsimp only
  split
  · exact answers_queueOp ..
  · refine answers_ite (answers_queueOp ..) ?_
    split
    · next h => exact mayAnswer_accHeld _ _ _ _ _ h
    · exact answers_queueOp ..

theorem answers_execAccwr (e : Scope) (ty : Ty) (tile : BitVec 4) (v : BitVec 2) (c : RSrc) (s : State) : Answers (execAccwr e ty tile v c s) := by
  refine answers_cur fun cu => ?_
  dsimp only
  split
  · exact answers_queueOp ..
  · refine answers_ite (answers_queueOp ..) ?_
    cases h : accHeld s cu _ true with
    | none => rw [Option.getD_none]; exact answers_queueOp ..
    | some o => exact mayAnswer_accHeld _ _ _ _ _ h

theorem answers_execAccwt (e : Scope) (tile : BitVec 4) (ver : BitVec 16) (s : State) : Answers (execAccwt e tile ver s) := by
  refine answers_cur fun c => ?_
  split
  · exact answers_ite (answers_next _) (answers_blockOp ..)
  · exact answers_blockOp ..

theorem answers_execOrel (e : Scope) (a b : RSrc) (s : State) : Answers (execOrel e a b s) :=
  answers_cur fun _ => answers_ite (answers_next _) (answers_blockOp ..)

theorem answers_execMfence (e : Scope) (s : State) : Answers (execMfence e s) := answers_ite (answers_next _) (answers_blockOp ..)

theorem answers_execMtrq (e : Scope) (a : RSrc) (b : BitVec 6) (s : State) : Answers (execMtrq e a b s) := by
  refine answers_cur fun c => answers_unlessEmpty ?_
  dsimp only
  split
  · exact answers_faultWord ..
  · exact answers_ite (answers_faultWord ..) (answers_next _)

theorem answers_execMsamp (e : Scope) (a : RSrc) (ch : BitVec 6) (s : State) : Answers (execMsamp e a ch s) := by
  refine answers_cur fun c => answers_unlessEmpty ?_
  split
  · exact answers_next _
  · split
    · exact answers_faultWord ..
    · exact answers_ite (answers_faultWord ..) (answers_done ..)

theorem answers_execTick (ms : List Int) (s : State) : Answers (execTick ms s) := answers_ite (answers_next _) (answers_next _)

theorem answers_execBoot (run : BootRun) (s : State) : Answers (execBoot run s) := by
  refine answers_ite (answers_next _) ?_
  extract_lets t
  split
  · exact answers_next _
  · split
    · exact answers_ite (answers_next _) (answers_ite (answers_next _) (answers_next _))
    · exact answers_next _

/-! ### Every instruction and every event -/

/-- Every arm of the dispatch answers a next state. -/
theorem answers_exec (i : Instr) (s : State) : Answers (exec i s) := by
  cases i
  case ldS8 | ldN8 | ldS16 | ldN16 | ldB32 | ldB64 | ldB128 => dsimp only [exec]; exact answers_loadOp ..
  case ldc | stc | spanq => dsimp only [exec]; exact answers_issueOp ..
  case stB8 | stB16 | stB32 | stB64 | stB128 => dsimp only [exec]; exact answers_storeOp ..
  case wldB32 | wldB128 => dsimp only [exec]; exact answers_wldOp ..
  case ldsB32 | ldsB64 | ldsB128 => dsimp only [exec]; exact answers_ldsOp ..
  case stsB32 | stsB64 | stsB128 => dsimp only [exec]; exact answers_stsOp ..
  case put | get => dsimp only [exec]; exact answers_windowOp ..
  case aadd | amin | amax | aand | aor | axor | axchg | acas => dsimp only [exec]; exact answers_atomicOp ..
  case cbnd | cadd | cset | cseal => dsimp only [exec]; exact answers_deriveOp ..
  case cperm | cmov => dsimp only [exec]; exact answers_quadOp ..
  case cget | vmulhS32 | vmulhN32 | vmoviB32 | vmovlB32 | vaddsS32 | vaddsN32 | vsubsS32 | vsubsN32 | vminS32 | vminN32 | vmaxS32 |
      vmaxN32 | vandB32 | vorB32 | vxorB32 | vshrN32 | vshrS32 | vabsS32 | vpopcB32 | vclzB32 | vbrevB32 | vbfxN32 | vbfxS32 | vbfiB32 |
      vselB32 | vrotlB32 | pdot4 | pdot8 | hadd2 | hmul2 | hfma2 | cfnorm | cfnormX => dsimp only [exec]; exact answers_laneOp ..
  case ctag => dsimp only [exec]; exact answers_predOp ..
  case oclaim | accver | sclwSet | sclwAdd | sclr => dsimp only [exec]; exact answers_blockOp ..
  case mpair | accclr => dsimp only [exec]; exact answers_queueOp ..
  case nop | hint => dsimp only [exec]; exact answers_done ..
  case jmp | bra | bru | jmpc | call | callc | ret | loop => dsimp only [exec]; exact answers_transferOp ..
  case gbar | sstepCluster | sstepDie => dsimp only [exec]; exact answers_instOp ..
  case trap => dsimp only [exec]; exact answers_faultAll ..
  case rpush | rpop | trmark => dsimp only [exec]; exact answers_labelOp ..
  case trctlStart | trctlStop | trctlFreeze | trctlThaw => dsimp only [exec]; exact answers_trctlOp ..
  case bkpt | dbgstop => dsimp only [exec]; exact answers_stopOp ..
  case plwr | qtwr | limwr | wtwr => dsimp only [exec]; exact answers_privOp ..
  case invalObject | invalSpan | invalStage2 | revoke | wscopy | retry | dispose | handler | ctxwr | vacate | vacateReopen | partwr |
      qtrd | worldnew | worldend | keyrel | keyret | ctxnew | ctxend | fncfg => dsimp only [exec]; exact answers_next ..
  case dbgwr | stopNow | stopAt | view | resume => dsimp only [exec]; exact answers_pfCtx ..
  case saddB64 | ssubB64 | smulB64 | smulhS64 | smulhN64 | saddiB64 | smoviB64 | smovlB64 | sandB64 | sorB64 | sxorB64 | snotB64 |
      sshlB64 | sshrN64 | sshrS64 | smovB64 | sminS64 | sminN64 | smaxS64 | smaxN64 | sclzB64 | spopcB64 | sextS32 | sextN32 | sselB64
       => dsimp only [exec]; exact answers_uniOp ..
  case sceqB64 | scneB64 | scltS64 | scltN64 | scleS64 | scleN64 => dsimp only [exec]; exact answers_scmp ..
  case qand | qor | qxor | qnot => dsimp only [exec]; exact answers_qLogic ..
  case vaddB32 | vsubB32 | vmulB32 | vaddiB32 | vnotB32 | vshlB32 | vmovB32 | vnegS32 => dsimp only [exec]; exact answers_compOp ..
  case vceqB32 | vcneB32 | vcltS32 | vcltN32 | vcleS32 | vcleN32 => dsimp only [exec]; exact answers_vcmp ..
  case pand | por | pxor | pnot => dsimp only [exec]; exact answers_predLogic ..
  case vfirst | vlane | vvote => dsimp only [exec]; exact answers_toUni ..
  case vshflB32 | vscanB32 => dsimp only [exec]; exact answers_crossOp ..
  case vrsumB32 | vrminS32 | vrminN32 | vrmaxS32 | vrmaxN32 | fred => dsimp only [exec]; exact answers_reduceOp ..
  case fadd | faddX | fsub | fsubX | fmul | fmulX | ffma | ffmaX | fdiv | fdivX | fsqrt | fsqrtX | fmin | fmax | fabs | fneg | fscl |
      fsclX => dsimp only [exec]; exact answers_arithF ..
  case fceq | fclt | fcle | fcun => dsimp only [exec]; exact answers_fcmp ..
  case cfadd => dsimp only [exec]; exact answers_laneOpK ..
  case meterSample | launchRecord | uncorrectableError | linkCrcError | fabricPacketArrival | registerWrite | latchedHalfRead |
      sidebandReadLogs | sidebandLeaseFloor | sidebandReset => dsimp only [exec]; exact answers_next _
  case chfree | chstat | exit | wait | yield | rdsu | srwr | opreq | chkpt | rcvHoldTimeout | timingErrorReplay | memoryRequest |
      storeRegister | atomicPerform | loadArrival | wcDrainTimeout | windowTransferComplete | copyPart | copyComplete | oloadComplete |
      tileOpStart | mpairRetire | tileOpComplete | gangBarrierArrival | sstepArrival | blockExit | childGridComplete |
      invalidationComplete | sweepRegisterScan | sweepComplete | revokeProceed | revocationPoint | chargeReport | leaseExpiry |
      meterReadingWrite | launchComplete | blockSave | gangReady | gangDeadline | wscopyProceed | worldEndComplete | keyretComplete |
      completionTimeout | checkpoint | clauseIssue | refreshWindowStart | refreshWindowEnd | leaseGrant | blockPlacement | blockRestore |
      pmlimApply | faultRecordPost | frameScrub | sqt | trej | sidebandRetire | lossNotice | spanMoveComplete | settleExpiry |
      powerCeilingExpiry | marginRelax | stepChangeBegin | supplyRampEnd | relockEnd | supplyLowerEnd | returnToService | dieRetire |
      sliceEnd | completionPost | cqh | rh | coreRemap | sidebandReadIdentity | sidebandReadTelemetry | linkPacketReceive =>
    dsimp only [exec, execChfree, execChstat, execExit, execWait, execYield, execRdsu, execSrwr, execOpreq, execChkpt,
        execRcvHoldTimeout, execTimingErrorReplay, execMemoryRequest, execStoreRegister, execAtomicPerform, execLoadArrival,
        execWcDrainTimeout, execWindowTransferComplete, execCopyPart, execCopyComplete, execOloadComplete, execTileOpStart,
        execMpairRetire, execTileOpComplete, execGangBarrierArrival, execSstepArrival, execBlockExit, execChildGridComplete,
        execInvalidationComplete, execSweepRegisterScan, execSweepComplete, execRevokeProceed, execRevocationPoint, execChargeReport,
        execLeaseExpiry, execMeterReadingWrite, execLaunchComplete, execBlockSave, execGangReady, execGangDeadline, execWscopyProceed,
        execWorldEndComplete, execKeyretComplete, execCompletionTimeout, execCheckpoint, execClauseIssue, execRefreshWindowStart,
        execRefreshWindowEnd, execLeaseGrant, execBlockPlacement, execBlockRestore, execPmlimApply, execFaultRecordPost, execFrameScrub,
        execSqt, execTrej, execSidebandRetire, execLossNotice, execSpanMoveComplete, execSettleExpiry, execPowerCeilingExpiry,
        execMarginRelax, execStepChangeBegin, execSupplyRampEnd, execRelockEnd, execSupplyLowerEnd, execReturnToService, execDieRetire,
        execSliceEnd, execCompletionPost, execCqh, execRh, execCoreRemap, execSidebandReadIdentity, execSidebandReadTelemetry,
        execLinkPacketReceive]
    repeat' split
    all_goals exact answers_next _
  case accrd => dsimp only [exec]; exact answers_execAccrd ..
  case accwr => dsimp only [exec]; exact answers_execAccwr ..
  case accwt => dsimp only [exec]; exact answers_execAccwt ..
  case barComplete => dsimp only [exec]; exact answers_execBarComplete ..
  case bara => dsimp only [exec]; exact answers_execBara ..
  case barw => dsimp only [exec]; exact answers_execBarw ..
  case boot => dsimp only [exec]; exact answers_execBoot ..
  case cbcast => dsimp only [exec]; exact answers_execCbcast ..
  case cfred => dsimp only [exec]; exact answers_execCfred ..
  case chbind => dsimp only [exec]; exact answers_execChbind ..
  case cpy => dsimp only [exec]; exact answers_execCpy ..
  case cpyq => dsimp only [exec]; exact answers_execCpyq ..
  case cpysIn => dsimp only [exec]; exact answers_execCpysIn ..
  case cpysOut => dsimp only [exec]; exact answers_execCpysOut ..
  case fcvt => dsimp only [exec]; exact answers_execFcvt ..
  case fork => dsimp only [exec]; exact answers_execFork ..
  case grdbar => dsimp only [exec]; exact answers_execGrdbar ..
  case mcast => dsimp only [exec]; exact answers_execMcast ..
  case mfence => dsimp only [exec]; exact answers_execMfence ..
  case msamp => dsimp only [exec]; exact answers_execMsamp ..
  case mtrq => dsimp only [exec]; exact answers_execMtrq ..
  case oload => dsimp only [exec]; exact answers_execOload ..
  case orel => dsimp only [exec]; exact answers_execOrel ..
  case rdsr => dsimp only [exec]; exact answers_execRdsr ..
  case tick => dsimp only [exec]; exact answers_execTick ..
  case vbcast => dsimp only [exec]; exact answers_execVbcast ..
  case vext => dsimp only [exec]; exact answers_execVext ..
  case bar => dsimp only [exec]; exact answers_execBar ..
  case acquire => dsimp only [exec]; exact answers_acquireOp (fun _ _ => answers_done ..) s
  case release | fence => dsimp only [exec]; exact answers_releaseOp (fun _ _ => answers_done ..) s

/-! ### Turns -/

theorem answers_runAt (s : State) (r : IRef) (rs : List IRef) (c : Clause) (eng : Eng) (e : Scope) : Answers (runAt s r rs c eng e) := by
  unfold runAt
  dsimp only
  split
  · exact answers_ite (answers_faultAll ..) (answers_faultUnit ..)
  · exact answers_exec ..

theorem answers_runWord (r : IRef) (s : State) : Answers (runWord r s) := by
  unfold runWord
  dsimp only
  split
  · split
    · exact answers_next _
    · split
      · exact answers_next _
      · refine answers_ite (answers_next _) ?_
        split
        · exact answers_next _
        · exact answers_runAt ..
  · exact answers_next _

theorem mayAnswer_nextWord (s : State) : MayAnswer (nextWord s) := by
  intro x h
  unfold nextWord at h
  dsimp only at h
  split at h
  · cases h; exact answers_runWord ..
  · obtain ⟨r, -, hr⟩ := List.exists_of_findSome?_eq_some h
    refine mayAnswer_ite mayAnswer_none ?_ _ hr
    split
    · exact mayAnswer_ite (mayAnswer_some (answers_next _)) mayAnswer_none
    · next hne => exact mayAnswer_some (answers_runWord ..)

/-- The first event that changes the state, where every event answers. -/
theorem mayAnswer_firstChange (s : State) (l : List (State → Out)) (h : ∀ f ∈ l, Answers (f s)) : MayAnswer (firstChange s l) := by
  induction l with
  | nil => exact mayAnswer_none
  | cons f r ih =>
    obtain ⟨t, ht⟩ := h f List.mem_cons_self
    unfold firstChange
    rw [ht]
    exact mayAnswer_ite (mayAnswer_some (answers_next _)) (ih fun g hg => h g (List.mem_cons_of_mem _ hg))

/-- Events that answer in every state. -/
def AllAnswer (l : List (State → Out)) : Prop := ∀ f ∈ l, ∀ s, Answers (f s)

theorem allAnswer_nil : AllAnswer [] := fun _ h => nomatch h
theorem allAnswer_one {f : State → Out} (h : ∀ s, Answers (f s)) : AllAnswer [f] := fun _ hg => List.mem_singleton.mp hg ▸ h
theorem allAnswer_append {l m : List (State → Out)} (hl : AllAnswer l) (hm : AllAnswer m) : AllAnswer (l ++ m) := fun f hf =>
  (List.mem_append.mp hf).elim (hl f) (hm f)
theorem allAnswer_flatMap {α : Type} {l : List α} {g : α → List (State → Out)} (h : ∀ a, AllAnswer (g a)) : AllAnswer (l.flatMap g) := fun f hf =>
  have ⟨a, _, ha⟩ := List.mem_flatMap.mp hf
  h a f ha
theorem allAnswer_map {α : Type} {l : List α} {g : α → State → Out} (h : ∀ a s, Answers (g a s)) : AllAnswer (l.map g) := fun _ hf =>
  have ⟨a, _, ha⟩ := List.mem_map.mp hf
  ha ▸ h a
theorem allAnswer_ite {p : Prop} [Decidable p] {l m : List (State → Out)} (hl : AllAnswer l) (hm : AllAnswer m) : AllAnswer (if p then l else m) := by
  split
  · exact hl
  · exact hm

theorem allAnswer_filterMap {α : Type} {l : List α} {g : α → Option (State → Out)} (h : ∀ a f, g a = some f → ∀ s, Answers (f s)) :
    AllAnswer (l.filterMap g) := fun f hf =>
  have ⟨a, _, ha⟩ := List.mem_filterMap.mp hf
  h a f ha

theorem allAnswer_opEvents (s : State) : AllAnswer (opEvents s) := by
  refine allAnswer_flatMap fun x => allAnswer_append (allAnswer_append (allAnswer_flatMap fun q => ?_)
    (allAnswer_ite (allAnswer_map fun i => answers_exec (.loadArrival ..)) allAnswer_nil))
    (allAnswer_ite (allAnswer_one (answers_exec (.oloadComplete ..))) allAnswer_nil)
  split
  · refine allAnswer_ite (allAnswer_one (answers_exec (.memoryRequest ..)))
      (allAnswer_ite (allAnswer_one (answers_exec (.windowTransferComplete ..))) ?_)
    split
    · exact allAnswer_one (answers_exec (.copyPart ..))
    · exact allAnswer_one (answers_exec (.copyComplete ..))
  · refine allAnswer_ite (allAnswer_one (answers_exec (.memoryRequest ..))) (allAnswer_ite (allAnswer_one (answers_exec (.storeRegister ..))) ?_)
    split
    · exact allAnswer_one (answers_exec (.atomicPerform ..))
    · exact allAnswer_nil
  · exact allAnswer_one (answers_exec (.completionTimeout ..))
  · exact allAnswer_nil

theorem allAnswer_remoteEvents (s : State) : AllAnswer (remoteEvents s) := by
  refine allAnswer_append (allAnswer_append (allAnswer_append (allAnswer_flatMap fun x => allAnswer_filterMap fun n f hf => ?_)
    (allAnswer_map fun x => answers_exec (.completionTimeout ..))) (allAnswer_filterMap fun x f hf => ?_)) (allAnswer_filterMap fun x f hf => ?_)
  · split at hf
    · cases hf; exact answers_exec (.completionTimeout ..)
    · cases hf
  · dsimp only at hf
    split at hf
    · cases hf; exact answers_exec (.completionTimeout ..)
    · cases hf
  · dsimp only at hf
    split at hf
    · split at hf
      · cases hf; exact answers_exec (.completionTimeout ..)
      · cases hf
    · cases hf

theorem allAnswer_blockEvents (s : State) : AllAnswer (blockEvents s) := by
  refine allAnswer_append (allAnswer_append (allAnswer_flatMap fun x => allAnswer_ite (allAnswer_ite (allAnswer_one (answers_exec (.mpairRetire ..)))
    (allAnswer_one (answers_exec (.tileOpComplete ..)))) (allAnswer_one (answers_exec (.tileOpStart ..)))) (allAnswer_flatMap fun x => 
      allAnswer_append (allAnswer_append ?_ ?_) (allAnswer_ite (allAnswer_one (answers_exec (.checkpoint ..))) allAnswer_nil)))
      (allAnswer_flatMap fun x => allAnswer_append (allAnswer_ite (allAnswer_one (answers_exec (.rcvHoldTimeout ..))) allAnswer_nil)
        (allAnswer_ite (allAnswer_one (answers_exec (.meterSample ..))) allAnswer_nil))
  · split
    · exact allAnswer_ite allAnswer_nil (allAnswer_append (allAnswer_one (answers_exec (.gangBarrierArrival ..)))
        (allAnswer_one (answers_exec (.sstepArrival ..))))
    · exact allAnswer_nil
  · split
    · exact allAnswer_one (answers_exec (.blockExit ..))
    · exact allAnswer_one (answers_exec (.blockSave ..))
    · exact allAnswer_one (answers_exec (.childGridComplete ..))
    · exact allAnswer_nil

theorem allAnswer_cons {f : State → Out} {l : List (State → Out)} (hf : ∀ s, Answers (f s)) (hl : AllAnswer l) : AllAnswer (f :: l) :=
  allAnswer_append (allAnswer_one hf) hl

theorem allAnswer_hostEvents (s : State) : AllAnswer (hostEvents s) := by
  unfold hostEvents
  repeat' refine allAnswer_append ?_ ?_
  · exact allAnswer_flatMap fun x => allAnswer_ite (allAnswer_one (answers_exec (.launchComplete ..))) allAnswer_nil
  · exact allAnswer_flatMap fun x => allAnswer_cons (answers_exec (.revokeProceed ..)) (allAnswer_one (answers_exec (.revocationPoint ..)))
  · exact allAnswer_map fun x => answers_exec (.invalidationComplete ..)
  · refine allAnswer_flatMap fun x => ?_
    dsimp only
    split
    · exact allAnswer_append (allAnswer_map fun g => answers_exec (.sweepRegisterScan ..)) (allAnswer_one (answers_exec (.sweepComplete ..)))
    · exact allAnswer_nil
  · exact allAnswer_map fun x => answers_exec (.wscopyProceed ..)
  · exact allAnswer_map fun x => answers_exec (.frameScrub ..)
  · exact allAnswer_flatMap fun x => allAnswer_append (allAnswer_append
      (allAnswer_ite (allAnswer_one (answers_exec (.worldEndComplete ..))) allAnswer_nil)
      (allAnswer_ite (allAnswer_one (answers_exec (.keyretComplete ..))) allAnswer_nil))
      (allAnswer_ite allAnswer_nil (allAnswer_one (answers_exec (.meterReadingWrite ..))))
  · exact allAnswer_flatMap fun x => allAnswer_ite allAnswer_nil (allAnswer_one (answers_exec (.completionPost ..)))
  · exact allAnswer_ite (allAnswer_one (answers_exec .faultRecordPost)) allAnswer_nil
  · exact allAnswer_map fun x s => answers_next _

theorem allAnswer_dieEvents (s : State) : AllAnswer (dieEvents s) := by
  unfold dieEvents
  repeat' refine allAnswer_append ?_ ?_
  · refine allAnswer_flatMap fun x => ?_
    dsimp only
    repeat' refine allAnswer_append ?_ ?_
    · split
      · exact allAnswer_one (answers_exec (.supplyRampEnd ..))
      · exact allAnswer_one (answers_exec (.relockEnd ..))
      · exact allAnswer_one (answers_exec (.supplyLowerEnd ..))
      · exact allAnswer_ite (allAnswer_one (answers_exec (.stepChangeBegin ..))) allAnswer_nil
    · exact allAnswer_ite (allAnswer_one (answers_exec (.powerCeilingExpiry ..))) allAnswer_nil
    · exact allAnswer_ite (allAnswer_one (answers_exec (.marginRelax ..))) allAnswer_nil
    · exact allAnswer_ite (allAnswer_one (answers_exec (.dieRetire ..))) allAnswer_nil
    · exact allAnswer_ite allAnswer_nil (allAnswer_cons (answers_exec (.gangReady ..)) (allAnswer_cons (answers_exec (.gangDeadline ..))
        (allAnswer_one (answers_exec (.sliceEnd ..)))))
  · exact allAnswer_flatMap fun x => allAnswer_append (allAnswer_append
      (allAnswer_ite (allAnswer_one (answers_exec (.coreRemap ..))) allAnswer_nil)
      (allAnswer_ite (allAnswer_one (answers_exec (.pmlimApply ..))) allAnswer_nil)) (allAnswer_map fun w => answers_exec (.wcDrainTimeout ..))
  · exact allAnswer_map fun x => answers_exec (.settleExpiry ..)
  · exact allAnswer_ite (allAnswer_one (answers_exec .leaseExpiry)) allAnswer_nil
  · exact allAnswer_ite allAnswer_nil (allAnswer_one (answers_exec .chargeReport))

theorem mayAnswer_placement (s : State) : MayAnswer (placement s) := by
  refine mayAnswer_ite mayAnswer_none fun x h => ?_
  obtain ⟨k, -, hk⟩ := List.exists_of_findSome?_eq_some h
  split at hk
  · cases hk; exact answers_next _
  · exact mayAnswer_ite (mayAnswer_some (answers_next _)) mayAnswer_none _ hk

theorem mayAnswer_nextClause (s : State) : MayAnswer (nextClause s) := by
  intro x h
  obtain ⟨k, -, hk⟩ := List.exists_of_findSome?_eq_some h
  obtain ⟨t, ht⟩ := answers_exec (.clauseIssue k) s
  rw [exec_clauseIssue] at ht
  rw [ht] at hk
  exact mayAnswer_ite (mayAnswer_some (answers_next _)) mayAnswer_none _ hk

theorem answers_turnDefault (s : State) : Answers (turnDefault s) := by
  unfold turnDefault
  split
  · exact answers_next _
  · split
    · next h => exact mayAnswer_nextWord _ _ h
    · split
      · next h =>
        exact mayAnswer_firstChange _ _ (fun f hf => allAnswer_append (allAnswer_append (allAnswer_append (allAnswer_append
          (allAnswer_opEvents s) (allAnswer_remoteEvents s)) (allAnswer_blockEvents s)) (allAnswer_hostEvents s)) (allAnswer_dieEvents s) f hf s) _ h
      · refine answers_ite (answers_execTick ..) ?_
        split
        · next h => exact mayAnswer_placement _ _ h
        · split
          · next h => exact mayAnswer_nextClause _ _ h
          · exact answers_ite (answers_exec .refreshWindowStart s) (answers_ite (answers_exec .refreshWindowEnd s) (answers_next _))

theorem answers_turn (t : Turn) (s : State) : Answers (turn t s) :=
  match t with
  | .event i => answers_exec i s
  | .word r => answers_runWord r s
  | .submission _ => answers_next _
  | .elapse _ => answers_next _

/-- What comes about at the end of a turn leaves a next state a next state. -/
theorem answers_settled {o : Out} (h : Answers o) : Answers (settled o) := by
  obtain ⟨t, rfl⟩ := h
  exact answers_next _

theorem answers_step (s : State) : Answers (step s) := by
  refine answers_settled ?_
  split
  · exact answers_turn ..
  · exact answers_turnDefault s

/-- Settles O34: each arm of the dispatch answers a next state, and so does each way that a turn is chosen. -/
theorem stepNeverStops : Obligations.StepNeverStops := answers_step


end Sys2Proof.Machine
end

section
/-!
PROOFS. Issue of a clause, the end of a hold, and timing-error replay (R26, R50, R53, R275, R276, R296).
-/

namespace Sys2Proof.Machine

/-! ### Charging leaves groups and cores alone (R298 to R300) -/

theorem adjustOver_groups (s : State) (dom : Nat) (amt : Int) : (adjustOver s dom amt).groups = s.groups := by
  unfold adjustOver
  split <;> rfl

theorem adjustOver_cores (s : State) (dom : Nat) (amt : Int) : (adjustOver s dom amt).cores = s.cores := by
  unfold adjustOver
  split <;> rfl

theorem adjust_cores (s : State) (p la : Nat) (amt : Int) : (adjust s p la amt).cores = s.cores := by
  unfold adjust
  dsimp only
  split <;> rfl

theorem applyCharge_groups (s : State) (c : Charge) : (applyCharge s c).groups = s.groups := by
  unfold applyCharge
  split
  · rfl
  · dsimp only
    split
    · exact groups_adjust ..
    · exact adjustOver_groups ..

theorem applyCharge_cores (s : State) (c : Charge) : (applyCharge s c).cores = s.cores := by
  unfold applyCharge
  split
  · rfl
  · dsimp only
    split
    · exact adjust_cores ..
    · exact adjustOver_cores ..

theorem charge_groups (s : State) (die cls n : Nat) (acct : Option Nat) (la : Nat) : (charge s die cls n acct la).groups = s.groups :=
  applyCharge_groups ..

theorem charge_cores (s : State) (die cls n : Nat) (acct : Option Nat) (la : Nat) : (charge s die cls n acct la).cores = s.cores :=
  applyCharge_cores ..

/-! ### One issuer that wants to issue (R53, R275) -/

/-- The one ready world is taken while its counter is above zero. -/
theorem chooseWorld_one {s : State} {core w : Nat} (h : 0 < tgetD (s.core core).dc w 0) : chooseWorld s core [w] =
    some (w, { s.core core with dc := tset (s.core core).dc w (tgetD (s.core core).dc w 0 - 1), ptr := w + 1 }) := by
  have hc : sortBy (fun a b : Nat => decide (a ≤ b)) ([w].filter ((s.core core).ptr ≤ ·)) ++
      sortBy (fun a b : Nat => decide (a ≤ b)) ([w].filter (· < (s.core core).ptr)) = [w] := by
    by_cases hw : (s.core core).ptr ≤ w
    · simp [hw, sortBy, insertBy]
    · simp [hw, Nat.lt_of_not_le hw, sortBy, insertBy]
  unfold chooseWorld
  simp only [hc, List.find?_cons, h, decide_true, Option.map_some]

/-- The one offer is chosen. -/
theorem chooseGroup_one (batch : Option Eng) (o : Offer) : chooseGroup batch [o] = some o := by
  have hl : (if [o].all (·.marked) then [o] else [o].filter fun o => !o.marked) = [o] := by cases h : o.marked <;> simp [h]
  unfold chooseGroup
  simp only [hl]
  by_cases hp : 256 ≤ o.passed
  · simp [hp, oldest]
  · by_cases hb : (o.eng.isSome && o.eng == batch) = true
    · simp [hp, hb, oldest]
    · simp [hp, hb, oldest]

theorem execClauseIssue_one {core : Nat} {s : State} {o : Offer} {i : Issuer} (hs : (s.die (dieOf core)).inService = true)
    (hr : (s.die (dieOf core)).relocking s.reft = false) (hb : boundaries (noteRestored s (dieOf core)) core = s) (ho : offers s core = [o])
    (hd : 0 < tgetD (s.core core).dc o.world 0) (hi : (unmarked (offered s core o) core o.world).issuer? o.r = some i) :
    execClauseIssue core s = .next (doWant (unmarked (offered s core o) core o.world) o.r
      (want (unmarked (offered s core o) core o.world) o.r i)) := by
  unfold execClauseIssue
  simp only [hs, hr, Bool.not_true, Bool.false_and, Bool.or_self, Bool.false_eq_true, if_false, hb, ho]
  rw [show ([o].map (·.world)).dedup = [o.world] from rfl, chooseWorld_one hd]
  dsimp only
  have hf : ([o].filter fun x => x.world == o.world) = [o] := by simp
  rw [hf, chooseGroup_one]
  simp only [List.foldl_cons, List.foldl_nil, bne_self_eq_false, Bool.or_self, Bool.false_eq_true, if_false]
  split
  · next j hj =>
    obtain rfl : j = i := Option.some.inj (hj.symm.trans hi)
    rfl
  · next hj => exact absurd (hj.symm.trans hi) (by simp)

@[simp] theorem grp?_modGroup_self (s : State) (b g : Nat) (f : Group → Group) : (s.modGroup b g f).grp? b g = (s.grp? b g).map f := by
  simp [State.grp?, State.modGroup]

@[simp] theorem issuer?_setIssuer_self (G : Group) (k : Nat) (i : Issuer) : (G.setIssuer k i).issuer? k = some i := by
  cases k <;> simp [Group.setIssuer, Group.issuer?]

/-- A change to the issuer that a group has. -/
theorem grp?_modIssuer {s : State} {r : IRef} {G : Group} {i : Issuer} (hG : s.grp? r.blk r.gidx = some G) (hi : G.issuer? r.iss = some i)
    (f : Issuer → Issuer) : (s.modIssuer r f).grp? r.blk r.gidx = some (G.setIssuer r.iss (f i)) := by
  simp [State.modIssuer, hG, hi]

theorem grp?_takeTurn {s : State} {r : IRef} {G : Group} (hG : s.grp? r.blk r.gidx = some G) : (takeTurn s r).grp? r.blk r.gidx =
    some { G with turn := r.iss + 1, yielded := G.yielded.filter fun y => y == 4225 || y % 65 != r.iss } := by
  have h : (s.modGroup r.blk r.gidx fun G => { G with
      turn := r.iss + 1, yielded := G.yielded.filter fun y => y == 4225 || y % 65 != r.iss }).grp? r.blk r.gidx = _ := grp?_modGroup_self ..
  exact h.trans (by rw [hG]; rfl)

theorem grp?_of_groups {s t : State} (h : t.groups = s.groups) (b g : Nat) : t.grp? b g = s.grp? b g := by
  unfold State.grp?
  rw [h]

theorem core_of_cores {s t : State} (h : t.cores = s.cores) (k : Nat) : t.core k = s.core k := by
  unfold State.core
  rw [h]

/-- An acquire drops copies from an L1 and leaves the deficit counters (R141, R275). -/
theorem dc_acquireCore (s : State) (core k : Nat) : ((acquireCore s core).core k).dc = (s.core k).dc := by
  unfold acquireCore
  rw [State.core_modCore]
  split
  · next h => rw [h]
  · rfl

/-- A clause at its first word, before it is charged: its issuer holds the group's turn, and the stream's buffer is empty (R23, R28). -/
def clauseBegun (s : State) (r : IRef) (guard : Lanes) (ws : List Word) (hdr : Word) : State :=
  let u := (takeTurn s r).modIssuer r fun i => { i with cl := some ⟨i.code.cur, hdr, ws, guard &&& i.lanes, 1, 0⟩ }
  if r.iss = 0 then u.modGroup r.blk r.gidx fun G => { G with hold := none, stream := { G.stream with buf := [] } } else u

/-- A clause that begins is charged with its words (R298); a gate on copies acquires (Table 9.7). -/
theorem startClause_eq {s : State} {r : IRef} {G : Group} (h : Header) (ws : List Word) (hdr : Word) (hG : s.grp? r.blk r.gidx = some G) :
    startClause s r h ws hdr =
      let v := clauseBegun s r (guardLanes G h) ws hdr
      let x := acctOf v r.blk
      let die := dieOf (homeOf v r.blk)
      let t := charge (charge v die 0x00 1 x.1 x.2) die 0x01 ws.length x.1 x.2
      if (clauseLims h ws .cp).isSome && t.sandbox.isNone then acquireCore t (homeOf t r.blk) else t := by
  unfold startClause clauseBegun guardLanes
  rw [hG]
  cases h.eng with
  | none => rfl
  | some e => cases e <;> rfl

theorem clauseBegun_cores (s : State) (r : IRef) (guard : Lanes) (ws : List Word) (hdr : Word) :
    (clauseBegun s r guard ws hdr).cores = s.cores := by
  unfold clauseBegun
  dsimp only
  split <;> rfl

theorem grp?_clauseBegun {s : State} {r : IRef} {G : Group} {i : Issuer} (guard : Lanes) (ws : List Word) (hdr : Word)
    (hG : s.grp? r.blk r.gidx = some G) (hi : G.issuer? r.iss = some i) :
    ∃ H, (clauseBegun s r guard ws hdr).grp? r.blk r.gidx = some H ∧ H.turn = r.iss + 1 ∧ H.issuer? r.iss = some { i with
      cl := some ⟨i.code.cur, hdr, ws, guard &&& i.lanes, 1, 0⟩, buf := if r.iss = 0 then [] else i.buf } := by
  have hu := grp?_modIssuer (grp?_takeTurn hG) hi fun i => { i with cl := some ⟨i.code.cur, hdr, ws, guard &&& i.lanes, 1, 0⟩ }
  unfold clauseBegun
  obtain ⟨b, g, k⟩ := r
  cases k with
  | zero => exact ⟨_, (grp?_modGroup_self ..).trans (congrArg (Option.map _) hu), rfl, rfl⟩
  | succ l => exact ⟨_, hu, rfl, issuer?_setIssuer_self ..⟩

/-- A clause put in issue: the group's turn, the issuer at its first word, and the deficit counters (R28, R50). -/
theorem startClause_spec {s : State} {r : IRef} {G : Group} {i : Issuer} (h : Header) (ws : List Word) (hdr : Word)
    (hG : s.grp? r.blk r.gidx = some G) (hi : G.issuer? r.iss = some i) :
    (∃ H, (startClause s r h ws hdr).grp? r.blk r.gidx = some H ∧ H.turn = r.iss + 1 ∧ H.issuer? r.iss = some { i with
      cl := some ⟨i.code.cur, hdr, ws, guardLanes G h &&& i.lanes, 1, 0⟩, buf := if r.iss = 0 then [] else i.buf }) ∧
    ∀ k, ((startClause s r h ws hdr).core k).dc = (s.core k).dc := by
  obtain ⟨H, h1, h2, h3⟩ := grp?_clauseBegun (guardLanes G h) ws hdr hG hi
  have hg : ∀ v d n a la, (charge (charge v d 0 1 a la) d 1 n a la).groups = v.groups := fun _ _ _ _ _ => by rw [charge_groups, charge_groups]
  have hc : ∀ v d n a la, (charge (charge v d 0 1 a la) d 1 n a la).cores = v.cores := fun _ _ _ _ _ => by rw [charge_cores, charge_cores]
  have hdc : ∀ (t : State) k, t.cores = (clauseBegun s r (guardLanes G h) ws hdr).cores → (t.core k).dc = (s.core k).dc := fun t k ht =>
    congrArg Core.dc (core_of_cores (ht.trans (clauseBegun_cores ..)) k)
  rw [startClause_eq h ws hdr hG]
  dsimp only
  split
  · exact ⟨⟨H, (grp?_of_groups (hg ..) ..).trans h1, h2, h3⟩, fun k => (dc_acquireCore ..).trans (hdc _ k (hc ..))⟩
  · exact ⟨⟨H, (grp?_of_groups (hg ..) ..).trans h1, h2, h3⟩, fun k => hdc _ k (hc ..)⟩

theorem cores_foldl {α : Type} (l : List α) (f : State → α → State) (h : ∀ s a, (f s a).cores = s.cores) (s : State) :
    (l.foldl f s).cores = s.cores := by
  induction l generalizing s with
  | nil => rfl
  | cons a r ih => exact (ih _).trans (h s a)

/-- The counter of the world that was chosen has fallen by one. -/
theorem dc_unmarked_offered (s : State) (core : Nat) (o : Offer) :
    tgetD ((unmarked (offered s core o) core o.world).core core).dc o.world 0 = tgetD (s.core core).dc o.world 0 - 1 := by
  have h : (unmarked (offered s core o) core o.world).cores = (offered s core o).cores := by
    unfold unmarked
    refine cores_foldl _ _ (fun s b => ?_) _
    exact cores_foldl _ _ (by intros; rfl) _
  rw [core_of_cores h]
  simp [offered, State.core, State.setCore]

/-- Where one issuer wants to issue, its clause is in issue. -/
theorem clauseIssue_one (core : Nat) (s : State) (o : Offer) (h : Header) (ws : List Word) (hdr : Word) (u : State) (i : Issuer) (G : Group)
    (hs : (s.die (dieOf core)).inService = true) (hr : (s.die (dieOf core)).relocking s.reft = false)
    (hb : boundaries (noteRestored s (dieOf core)) core = s) (ho : offers s core = [o]) (hd : 0 < tgetD (s.core core).dc o.world 0)
    (hi : (unmarked (offered s core o) core o.world).issuer? o.r = some i)
    (hw : want (unmarked (offered s core o) core o.world) o.r i = .issue h ws hdr u) (hG : u.grp? o.r.blk o.r.gidx = some G)
    (hj : G.issuer? o.r.iss = some i) :
    ∃ t H, exec (.clauseIssue core) s = .next t ∧ t.grp? o.r.blk o.r.gidx = some H ∧ H.turn = o.r.iss + 1 ∧
      H.issuer? o.r.iss = some { i with
          cl := some ⟨i.code.cur, hdr, ws, guardLanes G h &&& i.lanes, 1, 0⟩, buf := if o.r.iss = 0 then [] else i.buf } ∧
      tgetD (t.core core).dc o.world 0 = tgetD (s.core core).dc o.world 0 - 1 := by
  obtain ⟨⟨H, h1, h2, h3⟩, h4⟩ := startClause_spec (s := { u with cores := (unmarked (offered s core o) core o.world).cores }) h ws hdr hG hj
  refine ⟨_, H, ?_, h1, h2, h3, ?_⟩
  · rw [exec_clauseIssue, execClauseIssue_one hs hr hb ho hd hi, hw]
    rfl
  · rw [h4]
    exact dc_unmarked_offered s core o

/-! ### The end of a hold (R26) -/

theorem rcvHoldTimeout_ends (g : GRef) (s : State) (G : Group) (n : Nat) (hG : s.grp? g.blk g.gidx = some G) (hh : G.hold = some (n, false))
    (hn : n + 256 ≤ s.cycles (dieOf (homeOf s g.blk))) :
    exec (.rcvHoldTimeout g) s = .next ((if s.sandbox = none ∧ replayable s g.blk = true then s.modBlock g.blk fun B =>
        { B with log := B.log ++ [.hold (rcOf s g.blk) g.gidx] } else s).modGroup g.blk g.gidx fun G => { G with hold := some (n, true) }) := by
  rw [exec_rcvHoldTimeout]
  unfold execRcvHoldTimeout
  simp only [hG, hh, if_pos hn, logAdd, Bool.and_eq_true, Option.isNone_iff_eq_none]

/-! ### Timing-error replay (R296) -/

/-- What the attempts at die d leave as it was: all but the charges of the present tick and the die's overhead, which does not fall. -/
structure attempted (d : Nat) (s t : State) : Prop where
  rest : { t with free := s.free, energy := s.energy, dies := s.dies } = s
  energy : t.energy = { s.energy with now := t.energy.now }
  others : ∀ k, k ≠ d → t.die k = s.die k
  die : t.die d = { s.die d with povh := (t.die d).povh }
  rises : (s.die d).povh ≤ (t.die d).povh

namespace attempted

theorem refl (d : Nat) (s : State) : attempted d s s := ⟨rfl, rfl, fun _ _ => rfl, rfl, le_rfl⟩

theorem trans {d : Nat} {s t u : State} (h : attempted d s t) (h' : attempted d t u) : attempted d s u where
  rest := (congrArg (fun x : State => { x with free := s.free, energy := s.energy, dies := s.dies }) h'.rest).trans h.rest
  energy := by rw [h'.energy, h.energy]
  others k hk := (h'.others k hk).trans (h.others k hk)
  die := by rw [h'.die, h.die]
  rises := h.rises.trans h'.rises

theorem foldl {α : Type} {d : Nat} {f : State → α → State} (hf : ∀ s a, attempted d s (f s a)) (l : List α) (s : State) :
    attempted d s (l.foldl f s) := by
  induction l generalizing s with
  | nil => exact refl d s
  | cons a r ih => exact trans (hf s a) (ih _)

end attempted

/-- Classes whose events are charged in the die's own domain (R302). -/
theorem domainOf_die {die cls : Nat} (h : cls < 0x3C) (stack : Nat) : domainOf die cls stack = die := by
  unfold domainOf
  rw [if_neg (by omega), if_neg (by omega)]

/-- A charge to the overhead of a die's partition (R300). -/
theorem charge_overhead {d cls : Nat} (hd : d < 24) (hc : cls < 0x3C) (s : State) (n : Nat) : attempted d s (charge s d cls n none 0) ∧
    ((charge s d cls n none 0).die d).povh = (s.die d).povh + ((weight s d (s.die d).step cls * n : Nat) : Int) := by
  unfold charge applyCharge
  simp only [domainOf_die hc, if_neg (show ¬(0x3C ≤ cls ∧ cls ≤ 0x3F) by omega)]
  split
  · next h => simpa [h] using attempted.refl d s
  · unfold adjustOver
    rw [if_pos hd]
    refine ⟨⟨rfl, rfl, fun k hk => ?_, ?_, ?_⟩, ?_⟩
    · rw [State.die_modDie, if_neg hk]; rfl
    · rw [State.die_modDie, if_pos rfl]; rfl
    · rw [State.die_modDie, if_pos rfl]
      exact Int.le_add_of_nonneg_right (Int.natCast_nonneg _)
    · rw [State.die_modDie, if_pos rfl]; rfl

/-- Every class of an instruction lies in its die's domain. -/
theorem classOf_lt {e : Eng} {o cls : Nat} {per : Per} (h : classOf e o = some (cls, per)) : cls < 0x3C := by
  revert h
  unfold classOf
  dsimp only
  split
  all_goals repeat' split
  all_goals rintro ⟨⟩
  all_goals decide

theorem attempted_free {d : Nat} (s : State) (n : Nat) : attempted d s { s with free := n } := ⟨rfl, rfl, fun _ _ => rfl, rfl, le_rfl⟩

/-- What an attempt is charged beside the event of its class: the passes of a scratchpad word, and the banks. -/
def attemptRest (s : State) (die b : Nat) (act : List (Nat × Lanes)) (e : Eng) (w : Word) : State :=
  let t := if e = .mem then charge s die 0x38 (attemptPasses s b act w) none 0 else s
  charge { t with free := t.free + 1 } die 0x02 (Config.bankEvents t.free) none 0

theorem attemptRest_overhead {d : Nat} (hd : d < 24) (s : State) (b : Nat) (act : List (Nat × Lanes)) (e : Eng) (w : Word) :
    attempted d s (attemptRest s d b act e w) := by
  refine attempted.trans ?_ (attempted.trans (attempted_free _ _) (charge_overhead hd (by decide) _ _).1)
  split
  · exact (charge_overhead hd (by decide) _ _).1
  · exact attempted.refl d s

theorem chargeAttempt_eq (s : State) (d b : Nat) (act : List (Nat × Lanes)) (e : Eng) (w : Word) : chargeAttempt s d b act e w =
    if (act.map fun x => (lanesOf x.2).length).sum = 0 then s
    else match classOf e (opc w) with
      | some x => attemptRest (charge s d x.1 (if x.2 = .lane then (act.map fun x => (lanesOf x.2).length).sum else 1) none 0) d b act e w
      | none => attemptRest s d b act e w := by
  unfold chargeAttempt attemptRest
  cases classOf e (opc w) <;> rfl

/-- One attempt: its class's event and the rest, all to the overhead. -/
theorem chargeAttempt_overhead {d : Nat} (hd : d < 24) (s : State) (b : Nat) (act : List (Nat × Lanes)) (e : Eng) (w : Word) :
    attempted d s (chargeAttempt s d b act e w) ∧
    ∀ cls per, classOf e (opc w) = some (cls, per) →
      let lanes := (act.map fun x => (lanesOf x.2).length).sum
      (s.die d).povh + ((weight s d (s.die d).step cls * (if lanes = 0 then 0 else if per = .lane then lanes else 1) : Nat) : Int) ≤
        ((chargeAttempt s d b act e w).die d).povh := by
  rw [chargeAttempt_eq]
  generalize (act.map fun x => (lanesOf x.2).length).sum = n
  by_cases h0 : n = 0
  · rw [if_pos h0]
    exact ⟨attempted.refl d s, fun cls per _ => by simp [h0]⟩
  rw [if_neg h0]
  cases hc : classOf e (opc w) with
  | none => exact ⟨attemptRest_overhead hd .., fun _ _ h => nomatch h⟩
  | some x =>
    obtain ⟨cls, per⟩ := x
    obtain ⟨h1, h2⟩ := charge_overhead hd (classOf_lt hc) s (if per = .lane then n else 1)
    have h3 := attemptRest_overhead hd (charge s d cls (if per = .lane then n else 1) none 0) b act e w
    refine ⟨h1.trans h3, ?_⟩
    rintro _ _ ⟨⟩
    dsimp only
    rw [if_neg h0, ← h2]
    exact h3.rises

/-- The first instruction among words that there are is at the first of them. -/
theorem instrWords_cons (e : Eng) (w : Word) (l : List Word) : ∃ r, instrWords e (w :: l) = w :: r := by
  cases l with
  | nil => exact ⟨[], rfl⟩
  | cons x r => exact ⟨_, rfl⟩

/-- At most four instructions are attempted, the one at the position first. -/
theorem attempts_spec {e : Eng} {sc : Scope} {w : Word} (l : List Word) (k : Nat) (h : wordScope e w = sc) :
    ∃ r, ((instrWords e (w :: l)).take (1 + k % 4)).takeWhile (fun w => wordScope e w == sc) = w :: r ∧ r.length + 1 ≤ 4 := by
  obtain ⟨r, hr⟩ := instrWords_cons e w l
  refine ⟨(r.take (k % 4)).takeWhile fun w => wordScope e w == sc, ?_, ?_⟩
  · rw [hr, Nat.add_comm, List.take_succ_cons, List.takeWhile_cons_of_pos (by simpa using h)]
  · have h1 := (List.takeWhile_sublist (l := r.take (k % 4)) fun w => wordScope e w == sc).length_le
    have h2 := List.length_take_le (k % 4) r
    omega

/-- A replayed instruction is charged to the overhead, and its attempts are counted. -/
theorem timingErrorReplay_charges (r : IRef) (s : State) (i : Issuer) (c : Clause) (e : Eng) (act : List (Nat × Lanes)) (cls : Nat) (per : Per)
    (hi : s.issuer? r = some i) (hc : i.cl = some c) (he : engOf (c.hdr.extractLsb' 4 3).toNat = some e) (h0 : c.idx ≠ 0)
    (hl : c.off < c.words.length) (ha : executing s r i (wordScope e (c.words.getD c.off 0#32)) = some act)
    (hk : classOf e (opc (c.words.getD c.off 0#32)) = some (cls, per)) :
    let lanes := (act.map fun x => (lanesOf x.2).length).sum
    let n := if lanes = 0 then 0 else if per = .lane then lanes else 1
    let d := dieOf (homeOf s r.blk)
    d < 24 →
    ∃ t m, exec (.timingErrorReplay r) s = .next t ∧ 1 ≤ m ∧ m ≤ 4 ∧ { t with free := s.free, energy := s.energy, dies := s.dies } = s ∧
      t.energy = { s.energy with now := t.energy.now } ∧ (∀ k, k ≠ d → t.die k = s.die k) ∧
      t.die d = { s.die d with povh := (t.die d).povh, replays := (s.die d).replays + m } ∧
      (s.die d).povh + ((weight s d (s.die d).step cls * n : Nat) : Int) ≤ (t.die d).povh := by
  intro lanes n d hd
  have hw : c.words.drop c.off = c.words.getD c.off 0#32 :: c.words.drop (c.off + 1) := by
    rw [List.drop_eq_getElem_cons hl, List.getD_eq_getElem _ _ hl]
  obtain ⟨ws, hws, h4⟩ := attempts_spec (sc := wordScope e (c.words.getD c.off 0#32)) (c.words.drop (c.off + 1)) (Config.freeNat s.free) rfl
  let s0 : State := { s with free := s.free + 1 }
  let f := fun s w => chargeAttempt s d r.blk act e w
  let u := (c.words.getD c.off 0#32 :: ws).foldl f s0
  obtain ⟨h1, h2⟩ := chargeAttempt_overhead hd s0 r.blk act e (c.words.getD c.off 0#32)
  have h3 : attempted d (f s0 (c.words.getD c.off 0#32)) u := attempted.foldl (fun s w => (chargeAttempt_overhead hd s r.blk act e w).1) ws _
  have hu : attempted d s u := (attempted_free s _).trans (h1.trans h3)
  have hdie : ∀ k, (u.modDie d fun D => { D with replays := D.replays + (ws.length + 1) }).die k =
      if k = d then { u.die d with replays := (u.die d).replays + (ws.length + 1) } else u.die k := fun k => State.die_modDie ..
  refine ⟨u.modDie d fun D => { D with replays := D.replays + (ws.length + 1) }, ws.length + 1, ?_, by omega, h4, hu.rest, hu.energy, fun k hk => ?_, ?_, ?_⟩
  · rw [exec_timingErrorReplay]
    unfold execTimingErrorReplay
    simp only [hi, hc, he, ha, if_neg h0]
    rw [hw]
    simp only [State.draw, hws]
    rfl
  · rw [hdie, if_neg hk, hu.others k hk]
  · rw [hdie, if_pos rfl, hu.die]
  · rw [hdie, if_pos rfl]
    exact (h2 cls per hk).trans h3.rises

/-- Settles O36: the four clauses by the theorems about the choice, the hold, the lanes that execute, and the attempts. -/
theorem issueEvents : Obligations.IssueEvents :=
  ⟨clauseIssue_one, rcvHoldTimeout_ends,
    fun r s i c _ hc hw => by simp [executing, hw, Issuer.guarded, hc],
    timingErrorReplay_charges⟩

end Sys2Proof.Machine
end

section
/-!
PROOFS. Launch records and the completion of launches (R266, R267, R269, R271, R303, R338).
-/

namespace Sys2Proof.Machine

/-! ### What a read of guest-physical space depends on (R112) -/

section
variable {s t : State} (hm : t.mem = s.mem) (hf : t.funcs = s.funcs)
include hm hf

theorem stage2_of_mem (f g : Nat) : stage2 t f g = stage2 s f g := by
  unfold stage2 physRead physByte State.func
  rw [hm, hf]

theorem guestParts_of_mem (f : Nat) (w : Bool) (fuel g n : Nat) : guestParts t f w fuel g n = guestParts s f w fuel g n := by
  induction fuel generalizing g n with
  | zero => rfl
  | succ k ih => simp only [guestParts, stage2_of_mem hm hf, ih]

theorem guestRead_of_mem (f g n : Nat) : guestRead t f g n = guestRead s f g n := by
  unfold guestRead physRead physByte
  rw [guestParts_of_mem hm hf, hm]

theorem guestBad_of_mem (f g n : Nat) : guestBad t f g n = guestBad s f g n := by
  unfold guestBad badLine
  rw [guestParts_of_mem hm hf, hm]

/-- A code root depends on the function, and on the place and length of the object table (R103). -/
theorem codeRoot_of_mem {c d : Ctx} (h1 : d.func = c.func) (h2 : d.otbase = c.otbase) (h3 : d.otlen = c.otlen) (obn entry : Nat) :
    codeRoot t d obn entry = codeRoot s c obn entry := by
  unfold codeRoot formRoot objectEntry
  simp only [guestRead_of_mem hm hf, h1, h2, h3]

end

/-! ### Fields of a record -/

theorem bits_extractLsb' {w : Nat} (x : BitVec w) (lo n : Nat) : (x.extractLsb' lo n).toNat = x.toNat / 2 ^ lo % 2 ^ n := by
  rw [BitVec.extractLsb'_toNat, Nat.shiftRight_eq_div_pow]

section
variable (rec : BitVec 512)

theorem seq_rec : LRec.seq rec.toNat = (rec.extractLsb' 64 32).toNat := (bits_extractLsb' ..).symm
theorem dep_rec : LRec.dep rec.toNat = (rec.extractLsb' 96 32).toNat := (bits_extractLsb' ..).symm
theorem pri_rec : LRec.pri rec.toNat = (rec.extractLsb' 8 2).toNat := (bits_extractLsb' ..).symm

end

/-! ### Records refused, rejected and accepted -/

theorem launchRecord_refused (n : Nat) (rec : BitVec 512) (s : State) (h : (s.iface n).pasid = none) :
    exec (.launchRecord n rec) s = .next (post s n (rec.extractLsb' 64 32) 9 0) := by
  rw [exec_launchRecord]
  unfold execLaunchRecord launchRecord
  simp only [h, seq_rec, BitVec.ofNat_toNat, BitVec.setWidth_eq]

section
variable {n : Nat} {rec : BitVec 512} {s : State} {p : Nat} {c : Ctx} (hp : (s.iface n).pasid = some p) (hc : tget? s.ctxs p = some c)
include hp hc

theorem launchRecord_rejected (h : recordCode s c rec.toNat false ≠ 0) :
    exec (.launchRecord n rec) s = .next (post s n (rec.extractLsb' 64 32) (recordCode s c rec.toNat false) 0) := by
  rw [exec_launchRecord]
  unfold execLaunchRecord launchRecord
  simp only [hp, hc, if_pos h, seq_rec, BitVec.ofNat_toNat, BitVec.setWidth_eq]

theorem launchRecord_inUse (h : recordCode s c rec.toNat false = 0) (hs : (pendingSeq s p (rec.extractLsb' 64 32).toNat).isSome) :
    exec (.launchRecord n rec) s = .next (post s n (rec.extractLsb' 64 32) 1 0) := by
  rw [exec_launchRecord]
  unfold execLaunchRecord launchRecord
  simp only [hp, hc, h, ne_eq, not_true_eq_false, if_false, seq_rec, hs, if_true, BitVec.ofNat_toNat, BitVec.setWidth_eq]

/-- An accepted record makes a launch, which waits or is ready; the capture of its context is OFF. -/
theorem launchRecord_accepted (h : recordCode s c rec.toNat false = 0) (hs : pendingSeq s p (rec.extractLsb' 64 32).toNat = none) {dep : Option Nat}
    (hd : (if (rec.extractLsb' 96 32).toNat = 0 ∨ (rec.extractLsb' 96 32).toNat = (rec.extractLsb' 64 32).toNat then none
      else pendingSeq s p (rec.extractLsb' 96 32).toNat) = dep) :
    let t := { s with launches := tset s.launches s.nextId (launchOf p n rec dep), nextId := s.nextId + 1 }.modCtx p fun c => { c with cap := .off }
    exec (.launchRecord n rec) s = .next (if dep.isNone then makeReady t s.nextId else t) := by
  rw [exec_launchRecord]
  unfold execLaunchRecord launchRecord
  simp only [hp, hc, h, ne_eq, not_true_eq_false, if_false, seq_rec, dep_rec, pri_rec, hs, Option.isSome_none, Bool.false_eq_true, hd]
  rfl

theorem launchRecord_waits {d : Nat} (h : recordCode s c rec.toNat false = 0) (hs : pendingSeq s p (rec.extractLsb' 64 32).toNat = none)
    (h0 : (rec.extractLsb' 96 32).toNat ≠ 0) (hne : rec.extractLsb' 96 32 ≠ rec.extractLsb' 64 32)
    (hd : pendingSeq s p (rec.extractLsb' 96 32).toNat = some d) :
    exec (.launchRecord n rec) s =
      .next ({ s with launches := tset s.launches s.nextId (launchOf p n rec (some d)), nextId := s.nextId + 1 }.modCtx p fun c => { c with cap := .off }) := by
  refine (launchRecord_accepted hp hc h hs (dep := some d) ?_).trans rfl
  rw [if_neg fun e => e.elim h0 fun e => hne (BitVec.eq_of_toNat_eq e), hd]

end

/-! ### A launch becomes ready (R267) -/

/-- The grid that a record describes, with its roots and views as they are read. -/
theorem makeReady_eq {s : State} {id : Nat} {l : Launch} {c : Ctx} (hl : tget? s.launches id = some l) (hc : tget? s.ctxs l.pasid = some c)
    (hb : ∀ a k, guestBad s c.func a k = none) : ∃ roots views, roots.length = LRec.nroot l.record.toNat ∧
      makeReady s id = { s with
        grids := tset s.grids s.nextId (gridOfRec l.record.toNat id l.pasid none 0 (LRec.pri l.record.toNat) 0
          (codeRoot s c (LRec.code l.record.toNat) (LRec.entry l.record.toNat)) roots views)
        nextId := s.nextId + 1 }.modLaunch id fun l => { l with dep := none, grid := some s.nextId } := by
  have ho : ∀ o, objectBad s c o = none := fun o => by unfold objectBad; rw [hb, ite_self]
  have hf : ∀ l : List Nat, l.filterMap (fun _ => (none : Option Nat)) = [] := fun l => List.filterMap_eq_nil_iff.mpr fun _ _ => rfl
  unfold makeReady
  simp only [hl, hc, hb, ho, hf, Option.toList_none, List.append_nil, Option.isSome_none, Bool.false_eq_true, if_false]
  refine ⟨_, _, ?_, rfl⟩
  simp only [List.length_map, List.length_range]

theorem launchRecord_ready (n : Nat) (rec : BitVec 512) (s : State) (p : Nat) (c : Ctx) (hp : (s.iface n).pasid = some p)
    (hc : tget? s.ctxs p = some c) (h : recordCode s c rec.toNat false = 0) (hs : pendingSeq s p (rec.extractLsb' 64 32).toNat = none)
    (hd : rec.extractLsb' 96 32 = 0#32 ∨ rec.extractLsb' 96 32 = rec.extractLsb' 64 32 ∨ pendingSeq s p (rec.extractLsb' 96 32).toNat = none)
    (hb : ∀ a k, guestBad s c.func a k = none) :
    ∃ t g, exec (.launchRecord n rec) s = .next t ∧
      { t with launches := [], grids := [], nextId := 0 } =
        { (s.modCtx p fun c => { c with cap := .off }) with launches := [], grids := [], nextId := 0 } ∧
      tget? t.launches s.nextId = some { launchOf p n rec none with grid := some (s.nextId + 1) } ∧ tget? t.grids (s.nextId + 1) = some g ∧
      g.launch = s.nextId ∧ g.pasid = p ∧ g.parent = none ∧ g.placed = 0 ∧ g.exited = 0 ∧ g.code = codeRoot s c (rec.extractLsb' 256 28).toNat
        (rec.extractLsb' 320 44).toNat ∧
      g.setg = (rec.extractLsb' 128 4).toNat ∧ g.setn = (rec.extractLsb' 132 6).toNat ∧ g.gngb = (rec.extractLsb' 138 5).toNat ∧
      g.clug = (rec.extractLsb' 144 8).toNat ∧ g.diec = (rec.extractLsb' 152 8).toNat ∧ g.grdd = (rec.extractLsb' 160 32).toNat ∧
      g.regs = (rec.extractLsb' 15 7).toNat ∧ g.spm = (rec.extractLsb' 32 32).toNat ∧ g.roots.length = (rec.extractLsb' 11 4).toNat := by
  have hdep : (if (rec.extractLsb' 96 32).toNat = 0 ∨ (rec.extractLsb' 96 32).toNat = (rec.extractLsb' 64 32).toNat then none
      else pendingSeq s p (rec.extractLsb' 96 32).toNat) = none := by
    split
    · rfl
    · next hn =>
      rcases hd with h0 | h1 | h2
      · exact absurd (.inl (by rw [h0]; rfl)) hn
      · exact absurd (.inr (by rw [h1])) hn
      · exact h2
  let u := { s with launches := tset s.launches s.nextId (launchOf p n rec none), nextId := s.nextId + 1 }.modCtx p fun c => { c with cap := .off }
  have hl : tget? u.launches s.nextId = some (launchOf p n rec none) := tget?_tset_self ..
  have hu : tget? u.ctxs (launchOf p n rec none).pasid = some { c with cap := .off } := (tget?_tmod_self ..).trans (by rw [hc]; rfl)
  obtain ⟨roots, views, hr, hm⟩ := makeReady_eq hl hu fun a k => (guestBad_of_mem (s := s) (t := u) rfl rfl c.func a k).trans (hb a k)
  refine ⟨_, _, (launchRecord_accepted hp hc h hs hdep).trans (congrArg _ hm), rfl, ?_, tget?_tset_self .., rfl, rfl, rfl, rfl, rfl, ?_, ?_, ?_, ?_,
    ?_, ?_, ?_, ?_, ?_, ?_⟩
  · exact (tget?_tmod_self ..).trans (congrArg _ hl)
  · refine (codeRoot_of_mem (s := s) (c := c) rfl rfl rfl rfl rfl ..).trans ?_
    exact congrArg₂ (codeRoot s c) (bits_extractLsb' ..).symm (bits_extractLsb' ..).symm
  case' refine_11 => refine hr.trans ?_
  all_goals exact (bits_extractLsb' ..).symm

/-! ### Completion (R269, R303) -/

/-- A record without a launch that has ended is found as well by the search for one that has. -/
theorem find?_ended {L : Tab Launch} {f g : Nat × Launch → Bool} {x : Nat × Launch} (h : L.find? f = some x) (hg : g x = true) :
    (L.find? fun y => f y && g y) = some x := by
  obtain ⟨hx, as, bs, rfl, hn⟩ := List.find?_eq_some_iff_append.mp h
  exact List.find?_eq_some_iff_append.mpr ⟨by simp [hx, hg], as, bs, rfl, fun y hy => by simp [show f y = false by simpa using hn y hy]⟩

theorem launchComplete_posts (p q : Nat) (s : State) (id : Nat) (l : Launch) (code k : Nat)
    (hf : (s.launches.find? fun x => x.2.pasid == p && x.2.seq == q) = some (id, l)) (hl : tget? s.launches id = some l)
    (hd : l.done = some (code, k)) (hn : l.posted = none) (hk : k + 2 ≤ s.energy.tick) :
    let I := s.iface l.iface
    exec (.launchComplete p q) s = .next ((post { s with grids := s.grids.filter fun g => g.2.launch != id } l.iface (BitVec.ofNat 32 l.seq) code
      (intBits 64 l.energy)).modLaunch id fun l => { l with posted := some (code, (I.cqt.toNat + I.held.length) % 2 ^ 32) }) := by
  have hf' := find?_ended (g := fun x => x.2.done.isSome && x.2.posted.isNone) hf (by simp [hd, hn])
  rw [exec_launchComplete]
  unfold execLaunchComplete
  simp only [Bool.and_assoc] at hf' ⊢
  simp only [hf', hd, if_neg (show ¬s.energy.tick < k + 2 by omega)]
  unfold endLaunch
  simp only [hl, hn]
  rfl

/-- Settles O37: a record by what its context and its codes say, a completion by its launch. -/
theorem launchRecords : Obligations.LaunchRecords :=
  ⟨launchRecord_refused, fun _ _ _ _ _ hp hc h => launchRecord_rejected hp hc h, fun _ _ _ _ _ hp hc h hs => launchRecord_inUse hp hc h hs,
    fun _ _ _ _ _ _ hp hc h hs h0 hne hd => launchRecord_waits hp hc h hs h0 hne hd, launchRecord_ready, launchComplete_posts⟩

end Sys2Proof.Machine
end

section
/-!
PROOFS. The ends of blocks and grids, and a bar that goes on (R39, R40, R158, R161, R336).
-/

namespace Sys2Proof.Machine

/-! ### What goes with a block -/

/-- A table without the entries whose keys fail a test. -/
theorem tget?_filter {α : Type} (t : Tab α) (p : Nat → Bool) (k : Nat) : tget? (t.filter fun x => p x.1) k = if p k then tget? t k else none := by
  induction t with
  | nil => exact (ite_self _).symm
  | cons x r ih =>
    rw [List.filter_cons]
    by_cases hk : x.1 = k
    · subst hk
      cases hp : p x.1
      · simpa [hp] using ih
      · simp [tget?]
    · cases hp : p x.1 <;> simpa [tget?, hk, hp] using ih

/-- Completed VACATEs post their records; nothing else of the state changes. -/
theorem settleVacs_eq (s : State) : ∃ V I, settleVacs s = { s with vacs := V, ifaces := I } := by
  have h (l : List Vac) : ∀ u : State, ∃ I, (l.foldl (fun s v => post s v.cmd.iface v.cmd.seq 0 0) u) = { u with ifaces := I } := by
    induction l with
    | nil => exact fun u => ⟨u.ifaces, rfl⟩
    | cons v r ih => exact fun u => (ih _).imp fun I hI => hI
  obtain ⟨I, hI⟩ := h _ _
  exact ⟨_, I, hI⟩

/-! ### Block exit (R158) -/

/-- A grid counts one more exit; the launch of a host grid that has ended by it awaits its corrections (R303). -/
def exitCounted (s : State) (gid : Nat) : State :=
  let u := s.modGrid gid fun g => { g with exited := g.exited + 1 }
  match tget? u.grids gid with
  | some g => if g.ended && g.parent.isNone then u.modLaunch g.launch fun l => { l with done := some (0, u.energy.tick) } else u
  | none => u

theorem exitCounted_eq (s : State) (gid : Nat) :
    ∃ L, exitCounted s gid = { s.modGrid gid fun g => { g with exited := g.exited + 1 } with launches := L } := by
  unfold exitCounted
  dsimp only
  split
  · split
    · exact ⟨_, rfl⟩
    · exact ⟨s.launches, rfl⟩
  · exact ⟨s.launches, rfl⟩

/-- No barrier completes where no block waits at one. -/
theorem completeBars_none (s : State) (B : Block) (hw : ∀ x ∈ s.blocks, x.2.barw = none) (ks : List BarKind) :
    (ks.foldl (fun s k => if (barMembers s B k).isEmpty then s else completeBar s B k) s) = s := by
  induction ks with
  | nil => rfl
  | cons k r ih =>
    have h : (if (barMembers s B k).isEmpty then s else completeBar s B k) = s := by
      unfold completeBar
      cases hm : barMembers s B k with
      | nil => rfl
      | cons x l =>
        have hx : x ∈ s.blocks := List.mem_of_mem_filter (show x ∈ barMembers s B k by rw [hm]; exact List.mem_cons_self)
        simp [hw x hx]
    rw [List.foldl_cons, h, ih]

theorem blockExit_ends (b : Nat) (s : State) (B : Block) (hb : tget? s.blocks b = some B) (hp : B.phase = .draining) (hd : drained s b = true)
    (hh : dbgHeld s B.pasid = false) (hs : B.serves = none) (hw : ∀ x ∈ s.blocks, x.2.barw = none) :
    ∃ t, exec (.blockExit b) s = .next t ∧ tget? t.blocks b = none ∧ (∀ k, k / 32 = b → tget? t.groups k = none) ∧
      (∀ k, k / 32 ≠ b → tget? t.groups k = tget? s.groups k) ∧ (∀ k, k ≠ b → tget? t.blocks k = tget? s.blocks k) ∧ t.mem.hbm = s.mem.hbm ∧
      (tget? t.grids B.grid).map (·.exited) = (tget? s.grids B.grid).map (·.exited + 1) := by
  obtain ⟨V, I, hv⟩ := settleVacs_eq (removeBlock s b)
  obtain ⟨L, hc⟩ := exitCounted_eq (settleVacs (removeBlock s b)) B.grid
  rw [hv] at hc
  have hB : ∀ x ∈ (exitCounted (settleVacs (removeBlock s b)) B.grid).blocks, x.2.barw = none := by
    rw [hv, hc]; exact fun x hx => hw x (mem_tdel hx)
  have hG (k : Nat) : tget? (removeBlock s b).groups k = if k / 32 != b then tget? s.groups k else none := tget?_filter _ (fun k => k / 32 != b) k
  refine ⟨exitCounted (settleVacs (removeBlock s b)) B.grid, ?_, ?_⟩
  · rw [exec_blockExit]
    unfold execBlockExit
    simp only [hb, hp, hd, hh, hs]
    exact congrArg Host.Outcome.next (completeBars_none _ B hB _)
  · rw [hv, hc]
    refine ⟨tget?_tdel_self .., fun k hk => (hG k).trans (by simp [hk]), fun k hk => (hG k).trans (by simp [hk]), fun k hk => tget?_tdel_ne _ hk, rfl, ?_⟩
    exact (congrArg _ (tget?_tmod ..)).trans (by rw [if_pos rfl, Option.map_map]; rfl)

/-! ### The end of a child grid (R39, R40) -/

/-- Status 0 in a register of groups of a block: what the groups of a fork then hold. -/
theorem groups_statusZero (s : State) (b r : Nat) (gs : List Nat) (k : Nat) :
    tget? (gs.foldl (fun s g => s.modGroup b g fun G => G.setS r 0#64) s).groups k =
      if k ∈ gs.map (gkey b) then (tget? s.groups k).map fun G => G.setS r 0#64 else tget? s.groups k :=
  foldl_modGroup_groups s b gs _ (setS_idem r 0#64) k

/-- Changing groups one by one changes nothing but groups. -/
theorem foldl_modGroup_eq (s : State) (b : Nat) (f : Group → Group) (gs : List Nat) :
    ∃ H, gs.foldl (fun s g => s.modGroup b g f) s = { s with groups := H } := by
  induction gs generalizing s with
  | nil => exact ⟨s.groups, rfl⟩
  | cons g r ih => exact (ih (s.modGroup b g f)).imp fun H h => h

theorem childGridComplete_resumes (gid : Nat) (s : State) (g : Grid) (b : Nat) (B : Block) (a : BitVec 6) (gs : List Nat) (hg : tget? s.grids gid = some g)
    (hp : g.parent = some b) (hb : tget? s.blocks b = some B) (hf : B.forkDst = some (a, gs, gid)) (hph : B.phase = .forked (some gid)) (he : g.ended = true) :
    ∃ t, exec (.childGridComplete gid) s = .next t ∧ t.grids = tdel s.grids gid ∧
      tget? t.blocks b = some { B with forkDst := none, phase := .saved, since := s.nextId } ∧
      (∀ k ∈ gs, k < 32 → (s.grp? b k).isSome → t.sAt (gkey b k) a.toNat = 0#64) ∧
      (∀ k r, r ≠ a.toNat → t.sAt k r = s.sAt k r) ∧ t.mem = s.mem := by
  let u := gs.foldl (fun s k => s.modGroup b k fun G => G.setS a.toNat 0#64) s
  obtain ⟨H, hu⟩ : ∃ H, u = { s with groups := H } := foldl_modGroup_eq ..
  have hk (k : Nat) : tget? u.groups k = if k ∈ gs.map (gkey b) then (tget? s.groups k).map fun G => G.setS a.toNat 0#64 else tget? s.groups k :=
    groups_statusZero ..
  let t := { u.modBlock b (fun B => { B with forkDst := none, phase := .saved, since := u.nextId }) with grids := tdel u.grids gid, nextId := u.nextId + 1 }
  have hS (k r : Nat) : t.sAt k r = ((tget? u.groups k).map fun G => G.sreg r).getD 0#64 := rfl
  refine ⟨t, ?_, by unfold t; rw [hu], ?_, fun k hm _ hi => ?_, fun k r hr => ?_, ?_⟩
  · rw [exec_childGridComplete]
    unfold execChildGridComplete
    simp only [hg, hp, hb, hf, he, hph, bne_self_eq_false, Bool.not_true, Bool.or_self, Bool.false_eq_true, if_false]
    rfl
  · refine (tget?_tmod ..).trans ?_
    rw [if_pos rfl, hu]
    exact congrArg _ hb
  · obtain ⟨G, hG⟩ := Option.isSome_iff_exists.mp hi
    rw [hS, hk, if_pos (List.mem_map_of_mem hm), show tget? s.groups (gkey b k) = some G from hG]
    exact sreg_setS_self ..
  · rw [hS, hk]
    unfold State.sAt
    split
    · cases tget? s.groups k with
      | none => rfl
      | some G => exact sreg_setS_ne _ _ hr
    · rfl
  · unfold t; rw [hu]; rfl

/-! ### A bar goes on (R161) -/

/-- A release with nothing left to release goes on at once. -/
theorem releaseOp_now {s : State} {c : Cur} (hc : s.cur = some c) (he : c.empty = false) (hr : releasesNow s c) (go : State → Cur → Out) :
    releaseOp go s = go (releaseStart s c.blk c.elems) c := by
  obtain ⟨hf, hd⟩ := hr
  unfold releaseOp releaseThen
  simp only [hc, he, hf, hd]
  rfl

theorem barComplete_goesOn (g : GRef) (s : State) (G : Group) (i : Issuer) (c : Clause) (rs : List IRef) (hG : s.grp? g.blk g.gidx = some G) (hv : G.div = [])
    (hs : G.stream = i) (hl : i.lanes ≠ 0#64) (hw : i.wait = .rel) (hc : i.cl = some c) (hd : dbgHeld s (pasidOf s g.blk) = false)
    (hh : c.hdr.extractLsb' 4 3 = 0#3) (ho : opc (c.words.getD c.off 0#32) = 0x09)
    (hp : pointOf s ⟨g.blk, g.gidx, 0⟩ i (scopeOf (c.words.getD c.off 0#32)) = some rs) :
    let cu := mkCur s ⟨g.blk, g.gidx, 0⟩ rs c .ctl (scopeOf (c.words.getD c.off 0#32)) 1
    let u := { s with cur := some cu }
    cu.empty = false → releasesNow u cu →
    ∃ t, exec (.barComplete g) s = .next t ∧ effectIs (acquireNow (releaseStart u cu.blk cu.elems) cu) t := by
  intro cu u he hr
  have hi : G.issuers = [0] := by unfold Group.issuers; simp [hs, hv, hl]
  have h0 : G.issuer? 0 = some i := congrArg some hs
  have hr0 : s.issuer? ⟨g.blk, g.gidx, 0⟩ = some i := by unfold State.issuer?; rw [hG]; exact h0
  have hx : exec (.barComplete g) s = execBar (scopeOf (c.words.getD c.off 0#32)) u := by
    rw [exec_barComplete]
    unfold execBarComplete
    simp only [hG, hd, hi, List.find?_cons, h0, hw, hc, hh, ho, beq_self_eq_true, Bool.and_self, hr0, hp]
    rfl
  rw [hx]
  unfold execBar
  rw [releaseOp_now (c := cu) rfl he hr]
  exact done_effect 0x09 .issue _

/-- Settles O39: each event by the theorem about it; a debug stop is the first thing that each looks at. -/
theorem blockEnds : Obligations.BlockEnds := by
  refine ⟨blockExit_ends, childGridComplete_resumes, barComplete_goesOn, fun b s B hb hd => ?_, fun g s hd => ?_⟩
  · rw [exec_blockExit]
    unfold execBlockExit
    simp [hb, hd]
  · rw [exec_barComplete]
    unfold execBarComplete
    cases s.grp? g.blk g.gidx with
    | none => rfl
    | some G => simp [hd]

end Sys2Proof.Machine
end

section
/-!
PROOFS. What writes of the device, drained lines and arriving values leave of a block: the number of its interval, and for writes of the device
the groups (R140, R196, R333, R338, R340).
-/

namespace Sys2Proof.Machine

/-- Every block keeps the number of its interval (R333). -/
structure ivKept (s t : State) : Prop where
  at_block : ∀ b, (tget? t.blocks b).map (·.iv) = (tget? s.blocks b).map (·.iv)

/-- The groups stay, and every block keeps the number of its interval. -/
structure quiet (s t : State) : Prop where
  groups : t.groups = s.groups
  iv : ivKept s t

theorem ivKept.refl (s : State) : ivKept s s := ⟨fun _ => rfl⟩

theorem ivKept.trans {s t u : State} (h : ivKept s t) (h' : ivKept t u) : ivKept s u := ⟨fun b => (h'.at_block b).trans (h.at_block b)⟩

theorem ivKept.of_blocks {s t : State} (h : t.blocks = s.blocks) : ivKept s t := ⟨fun b => by rw [h]⟩

theorem ivKept.foldl {α : Type} {f : State → α → State} (hf : ∀ s a, ivKept s (f s a)) (l : List α) (s : State) : ivKept s (l.foldl f s) := by
  induction l generalizing s with
  | nil => exact .refl _
  | cons a r ih => exact (hf s a).trans (ih _)

theorem adjustOver_blocks (s : State) (dom : Nat) (amt : Int) : (adjustOver s dom amt).blocks = s.blocks := by
  unfold adjustOver
  split <;> rfl

theorem adjust_blocks (s : State) (p la : Nat) (amt : Int) : (adjust s p la amt).blocks = s.blocks := by
  unfold adjust
  dsimp only
  split <;> rfl

theorem applyCharge_blocks (s : State) (c : Charge) : (applyCharge s c).blocks = s.blocks := by
  unfold applyCharge
  split
  · rfl
  · dsimp only
    split
    · exact adjust_blocks ..
    · exact adjustOver_blocks ..

theorem charge_blocks (s : State) (die cls n : Nat) (acct : Option Nat) (la : Nat) : (charge s die cls n acct la).blocks = s.blocks :=
  applyCharge_blocks ..

/-- A frame that a world claims: only the owners of frames change (R323). -/
theorem claimFrame_eq {s t : State} {w h : Nat} (e : claimFrame s w h = .ok t) : ∃ O, t = { s with mem := { s.mem with owner := O } } := by
  unfold claimFrame at e
  dsimp only at e
  split at e
  · split at e
    · exact ⟨s.mem.owner, (Except.ok.inj e).symm⟩
    · cases e
  · exact ⟨_, (Except.ok.inj e).symm⟩

theorem claimParts_eq {s t : State} {w : Nat} {ps : List (Nat × Nat)} (e : claimParts s w ps = some t) :
    ∃ O, t = { s with mem := { s.mem with owner := O } } := by
  induction ps generalizing s with
  | nil => exact ⟨s.mem.owner, (Option.some.inj e).symm⟩
  | cons p r ih =>
    unfold claimParts at e
    split at e
    · next u hu =>
      obtain ⟨O, rfl⟩ := claimFrame_eq hu
      obtain ⟨P, rfl⟩ := ih e
      exact ⟨P, rfl⟩
    · cases e

namespace quiet

theorem refl (s : State) : quiet s s := ⟨rfl, .refl s⟩

theorem trans {s t u : State} (h : quiet s t) (h' : quiet t u) : quiet s u := ⟨h'.groups.trans h.groups, h.iv.trans h'.iv⟩

theorem of_eq {s t : State} (hg : t.groups = s.groups) (hb : t.blocks = s.blocks) : quiet s t := ⟨hg, .of_blocks hb⟩

theorem of_sliceSide {s t : State} (h : sliceSide s t) : quiet s t := of_eq h.groups h.blocks

theorem foldl {α : Type} {f : State → α → State} (hf : ∀ s a, quiet s (f s a)) (l : List α) (s : State) : quiet s (l.foldl f s) := by
  induction l generalizing s with
  | nil => exact refl s
  | cons a r ih => exact (hf s a).trans (ih _)

theorem modBlock (s : State) (b : Nat) (f : Block → Block) (hf : ∀ B, (f B).iv = B.iv) : quiet s (s.modBlock b f) := by
  refine ⟨rfl, ⟨fun k => ?_⟩⟩
  rw [State.modBlock, tget?_tmod]
  split
  · next h => rw [h, Option.map_map]; exact congrArg (Option.map · _) (funext hf)
  · rfl

theorem modCtx (s : State) (p : Nat) (f : Ctx → Ctx) : quiet s (s.modCtx p f) := of_eq rfl rfl

/-! Writes of the device to memory (R291, R319, R323). -/

theorem noteTables (s : State) (h n : Nat) : quiet s (noteTables s h n) := by
  refine foldl (fun t f => ?_) _ s
  unfold noteTable
  split
  · exact refl t
  · refine foldl (fun t e => ?_) _ t
    unfold noteEntry
    split <;> exact of_eq rfl rfl

theorem setMem (s : State) (m : Mem) : quiet s { s with mem := m } := of_eq rfl rfl

theorem touchLines (s : State) (h n : Nat) : quiet s (touchLines s h n) := foldl (fun t _ => setMem t _) _ s

theorem hitImages (s : State) (h n : Nat) : quiet s (hitImages s h n) :=
  (foldl (fun t (m : Nat × Nat × Nat) => modBlock t (m.2.2 % 2 ^ 32) (fun B => { B with imgHit := true }) fun _ => rfl) _ s).trans
    (setMem _ _)

/-- What a write does before its bytes are there. -/
theorem beforeWrite (s : State) (h n : Nat) : quiet s (stampWords (Machine.hitImages (Machine.touchLines (Machine.noteTables s h n) h n) h n) h n) := by
  have hb := ((noteTables s h n).trans (touchLines _ h n)).trans (hitImages _ h n)
  unfold stampWords
  split
  · exact hb
  · exact hb.trans (setMem ..)

theorem physWrite (s : State) (h : Nat) (bs : List Byte) : quiet s (physWrite s h bs) := (beforeWrite s h bs.length).trans (of_eq rfl rfl)

theorem physWriteCap (s : State) (h : Nat) (bs : List Byte) (t : Bool) : quiet s (physWriteCap s h bs t) :=
  (beforeWrite s h bs.length).trans (of_eq rfl rfl)

theorem homeWrite (s : State) (core h : Nat) (bs : List Byte) : quiet s (homeWrite s core h bs) :=
  (physWrite s h bs).trans (of_sliceSide (.ownWords ..))

theorem writeParts (s : State) (ps : List (Nat × Nat)) (bs : List Byte) : quiet s (writeParts s ps bs) := by
  induction ps generalizing s bs with
  | nil => exact refl s
  | cons p r ih => exact (physWrite ..).trans (ih ..)

theorem charge (s : State) (die cls n : Nat) (acct : Option Nat) (la : Nat) : quiet s (charge s die cls n acct la) :=
  of_eq (charge_groups ..) (charge_blocks ..)

theorem claimParts {s t : State} {w : Nat} {ps : List (Nat × Nat)} (e : Machine.claimParts s w ps = some t) : quiet s t := by
  obtain ⟨O, rfl⟩ := claimParts_eq e
  exact of_eq rfl rfl

theorem devWrite (s : State) (world : Option Nat) (func g : Nat) (bs : List Byte) : quiet s (devWrite s world func g bs) := by
  unfold Machine.devWrite
  split
  · exact refl s
  · dsimp only
    split
    · exact refl s
    · next u hu =>
      have h : quiet s u := by
        cases world with
        | none => exact Option.some.inj hu ▸ refl s
        | some w => exact claimParts hu
      exact (h.trans (writeParts ..)).trans (of_eq rfl rfl)

theorem probeSample (s : State) (o : Op) (q : LReq) : quiet s (probeSample s o q) := by
  unfold Machine.probeSample
  split
  · exact refl s
  · split
    · exact refl s
    · dsimp only
      split
      · exact refl s
      · exact ((trans (of_eq rfl rfl : quiet s { s with free := s.free + 7 }) (devWrite ..)).trans (charge ..)).trans (modCtx ..)

theorem traceRec (s : State) (b g kind val : Nat) : quiet s (traceRec s b g kind val) := by
  unfold Machine.traceRec
  split
  · exact refl s
  · split
    · exact refl s
    · dsimp only
      split
      · exact refl s
      · exact (devWrite ..).trans (modCtx ..)

end quiet

/-! ### Drained lines and arriving values keep the numbers of intervals (R140, R196) -/

theorem ivKept_logAdd (s : State) (b : Nat) (e : LogEnt) : ivKept s (logAdd s b e) := by
  unfold logAdd
  split
  · exact (quiet.modBlock s b (fun B => { B with log := B.log ++ [e] }) fun _ => rfl).iv
  · exact .refl _

theorem ivKept_storeDone (s : State) (op lane : Nat) : ivKept s (storeDone s op lane) := by
  have hd (u : State) (b g : Nat) (k : CK) : ivKept u (lowerCtr (dropReq u op lane) b g [lane] k) :=
    .of_blocks (congrArg State.blocks (dropReq_ops u op lane) :)
  unfold storeDone
  split
  · exact .refl _
  · dsimp only
    split
    · exact (quiet.probeSample ..).iv.trans (hd ..)
    · exact hd ..

theorem ivKept_giveBack (core : Nat) (s : State) (x : Nat × Nat) : ivKept s (giveBack core s x) := by
  unfold giveBack
  split
  · exact .refl _
  · exact ivKept_storeDone ..

theorem ivKept_wcCharged (s : State) (core line : Nat) (w : WcLine) : ivKept s (wcCharged s core line w) := by
  have h : quiet (s.modCore core fun c => { c with wc := tdel c.wc line }) (wcCharged s core line w) := by
    unfold wcCharged
    dsimp only
    split
    · exact .of_sliceSide (.chargeAccess ..)
    · exact .refl _
  exact ⟨fun b => h.iv.at_block b⟩

theorem ivKept_drainLine (s : State) (core line : Nat) : ivKept s (drainLine s core line) := by
  cases hw : tget? (s.core core).wc line with
  | none => unfold drainLine; rw [hw]; exact .refl s
  | some w =>
    cases hr : relockWait s core [(64 * line, 64, 1)] with
    | true => unfold drainLine; rw [hw]; dsimp only; rw [if_pos hr]; exact .refl s
    | false =>
      rw [drainLine_eq hw hr]
      refine ((ivKept_wcCharged s core line w).trans ?_).trans ((ivKept.foldl (fun u g => ?_) _ _).trans (ivKept.foldl (ivKept_giveBack core) _ _))
      · exact ivKept.foldl (fun _ _ => (quiet.homeWrite ..).iv) _ _
      · exact ((quiet.physWriteCap ..).trans (quiet.of_sliceSide (.ownWords ..))).iv

theorem ivKept_drainBlock (s : State) (b : Nat) : ivKept s (drainBlock s b) := by
  refine ivKept.foldl (fun u x => ivKept.foldl (fun v y => ?_) _ u) _ s
  dsimp only
  split
  · exact ivKept_drainLine ..
  · exact .refl _

theorem ivKept_finishLoad (s : State) (k : Nat) : ivKept s (finishLoad s k) := by
  unfold finishLoad
  split
  · exact .refl _
  · next o ho =>
    have hl (u : State) (o : Op) : ivKept u (logArrival u o) := by
      unfold logArrival
      split
      · exact .refl _
      · exact ivKept.foldl (fun _ _ => ivKept_logAdd ..) _ u
    dsimp only
    have h1 (ls : List LReq) (u : State) : ivKept u (ls.foldl (fun s q => probeSample s o q) u) :=
      ivKept.foldl (fun _ _ => (quiet.probeSample ..).iv) ls u
    have h2 (u : State) (ls : List Nat) : ivKept u (lowerCtr u o.blk o.gidx ls o.kind.ctr) := .of_blocks rfl
    split
    · exact (((h1 _ s).trans (h2 ..)).trans (hl ..)).trans (.of_blocks rfl)
    · exact (((h1 _ s).trans (h2 ..)).trans (hl ..)).trans (.of_blocks rfl)

theorem ivKept_deliverReg (s : State) (k j : Nat) : ivKept s (deliverReg s k j) := by
  unfold deliverReg
  split
  · exact .refl _
  · split
    · exact .refl _
    · exact ivKept.trans (quiet.charge ..).iv (.of_blocks rfl)

theorem ivKept_arrive (s : State) (k j : Nat) : ivKept s (arrive s k j) := by
  unfold arrive
  split
  · exact .refl _
  · split_ifs
    · exact .refl _
    · exact ivKept_finishLoad ..
    · extract_lets tagged js own u v
      have hu : ivKept s u := ivKept.foldl (fun _ _ => ivKept_deliverReg ..) js s
      have hv : ivKept s v := by
        refine hu.trans ?_
        unfold v
        split <;> exact .of_blocks rfl
      split
      · split
        · exact hv.trans (ivKept_finishLoad ..)
        · exact hv
      · exact hv

theorem ivKept_deliverLoads (s : State) (b : Nat) : ivKept s (deliverLoads s b) := by
  refine ivKept.foldl (fun u x => ?_) _ s
  dsimp only
  split
  · exact ivKept.foldl (fun _ _ => ivKept_arrive ..) _ u
  · exact .refl _

end Sys2Proof.Machine
end

section
/-!
PROOFS. Saves and checkpoints (R290, R291, R333, R336).
-/

namespace Sys2Proof.Machine

/-! ### The slot of an image (R291) -/

/-- Groups, blocks and the bytes of HBM stay, and no tag of HBM appears. -/
structure imageSide (s t : State) : Prop where
  groups : t.groups = s.groups
  blocks : t.blocks = s.blocks
  bytes : t.mem.hbm.bytes = s.mem.hbm.bytes
  tags : ∀ g, g ∈ t.mem.hbm.tags → g ∈ s.mem.hbm.tags

theorem sliceSide_chargeSave (s : State) (b core : Nat) : sliceSide s (chargeSave s b core) := by
  unfold chargeSave
  dsimp only
  split
  · exact .refl s
  · exact sliceSide.trans (.setFree s _) (.chargeFar ..)

namespace imageSide

theorem of_eq {s t : State} (hg : t.groups = s.groups) (hb : t.blocks = s.blocks) (hm : t.mem.hbm = s.mem.hbm) : imageSide s t :=
  ⟨hg, hb, by rw [hm], fun _ => by rw [hm]; exact id⟩

theorem refl (s : State) : imageSide s s := of_eq rfl rfl rfl

theorem trans {s t u : State} (h : imageSide s t) (h' : imageSide t u) : imageSide s u :=
  ⟨h'.groups.trans h.groups, h'.blocks.trans h.blocks, h'.bytes.trans h.bytes, fun g hg => h.tags g (h'.tags g hg)⟩

theorem foldl {α : Type} {f : State → α → State} (hf : ∀ s a, imageSide s (f s a)) (l : List α) (s : State) : imageSide s (l.foldl f s) := by
  induction l generalizing s with
  | nil => exact refl s
  | cons a r ih => exact (hf s a).trans (ih _)

theorem of_sliceSide {s t : State} (h : sliceSide s t) : imageSide s t := of_eq h.groups h.blocks h.hbm

theorem noteTables (s : State) (h n : Nat) : imageSide s (noteTables s h n) := by
  refine foldl (fun t f => ?_) _ s
  unfold noteTable
  split
  · exact refl t
  · refine foldl (fun t e => ?_) _ t
    unfold noteEntry
    split
    · exact refl t
    · exact of_eq rfl rfl rfl

theorem setImages (s : State) (l : List (Nat × Nat × Nat)) : imageSide s { s with mem := { s.mem with images := l } } := ⟨rfl, rfl, rfl, fun _ => id⟩

theorem cutImages (s : State) (h n : Nat) : imageSide s (cutImages s h n) := setImages ..

theorem wipeLines (s : State) (h n : Nat) : imageSide s (wipeLines s h n) := ⟨rfl, rfl, rfl, fun _ hg => List.mem_of_mem_filter hg⟩

theorem wipeImage (s : State) (h n : Nat) : imageSide s (Machine.wipeLines (Machine.cutImages (Machine.noteTables s h n) h n) h n) :=
  ((noteTables s h n).trans (cutImages ..)).trans (wipeLines ..)

theorem claimParts (s : State) (w : Nat) (ps : List (Nat × Nat)) : imageSide s ((Machine.claimParts s w ps).getD s) := by
  cases h : Machine.claimParts s w ps with
  | none => exact refl s
  | some t =>
    obtain ⟨O, rfl⟩ := claimParts_eq h
    exact of_eq rfl rfl rfl

theorem placeImage (s : State) (b : Nat) (B : Block) (slot : Option Nat) : imageSide s (placeImage s b B slot) := by
  -- whatever parts stage 2 gives: to compute them, the kernel would count through the length of the image
  obtain ⟨parts, hp⟩ : ∃ p : Ctx → Nat → Except Nat (List (Nat × Nat)), ∀ c a,
      guestParts s c.func true (blockIsz s B / 2 ^ 21 + 2) (c.saveb + a) (blockIsz s B) = p c a := ⟨_, fun _ _ => rfl⟩
  unfold Machine.placeImage
  simp only [hp]
  cases tget? s.ctxs B.pasid with
  | none => exact refl s
  | some c =>
    cases slot with
    | none => exact refl s
    | some a =>
      dsimp only
      cases parts c a with
      | error e => exact refl s
      | ok ps =>
        refine trans ?_ (setImages ..)
        refine trans ?_ (foldl (fun _ _ => wipeImage ..) _ _)
        exact trans (of_eq rfl rfl rfl : imageSide s s.fresh.2) (claimParts ..)

theorem chargeSave (s : State) (b core : Nat) : imageSide s (chargeSave s b core) := of_sliceSide (sliceSide_chargeSave ..)

theorem dropArmed (s : State) (b : Nat) (B : Block) : imageSide s (dropArmed s b B) := by
  unfold Machine.dropArmed
  split
  · split
    · exact of_eq rfl rfl rfl
    · exact refl s
  · exact refl s

theorem settleVacs (s : State) : imageSide s (settleVacs s) := by
  obtain ⟨V, I, h⟩ := settleVacs_eq s
  rw [h]
  exact of_eq rfl rfl rfl

end imageSide

/-! ### Checkpoints (R333, R336) -/

/-- A checkpoint's state before the interval begins: performed loads have completed, the checkpoint is traced and charged. -/
def checkpointBegun (s : State) (b : Nat) (B : Block) : State :=
  let u := traceRec (deliverLoads (drainBlock s b) b) b 0 4 0
  chargeSave (if (tget? s.ckpts b).isNone then u else dropArmed u b B) b B.home

theorem checkpointBegun_groups (s : State) (b : Nat) (B : Block) : (checkpointBegun s b B).groups = (deliverLoads (drainBlock s b) b).groups := by
  refine (imageSide.chargeSave ..).groups.trans (Eq.trans ?_ (quiet.traceRec (deliverLoads (drainBlock s b) b) b 0 4 0).groups)
  split
  · rfl
  · exact (imageSide.dropArmed ..).groups

theorem ivKept_checkpointBegun (s : State) (b : Nat) (B : Block) : ivKept s (checkpointBegun s b B) := by
  refine ((ivKept_drainBlock s b).trans ((ivKept_deliverLoads _ b).trans (quiet.traceRec _ b 0 4 0).iv)).trans (ivKept.of_blocks ?_)
  refine (imageSide.chargeSave ..).blocks.trans ?_
  split
  · rfl
  · exact (imageSide.dropArmed ..).blocks

/-- The log that an interval begins with: the elements that the block's fabric queues hold. -/
def queueLog (s : State) (b : Nat) : List LogEnt :=
  let keys := ((s.groupsOf b).flatMap fun g => ((s.grp? b g).map fun G =>
    (G.chans.filter fun c => c.2.kind == 5).map fun c => fqKey c.2.slot c.2.rlen).getD []).dedup
  keys.flatMap fun k => ((tgetD s.fqs k FQueue.reset).elems.map fun w => LogEnt.elem 0 k w)

/-- A block as it begins an interval. -/
def Block.begin (first : Bool) (log : List LogEnt) (B : Block) : Block :=
  { B with iv := if first then B.iv else (B.iv + 1) % 2 ^ 32, rc := 0, chk := false, log, logOut := 0 }

/-- A block's image is held, and stands in the slot of its checkpoints. -/
def imageKept (s : State) (b : Nat) (B : Block) : State :=
  let t := placeImage s (2 ^ 32 - 2) B B.slot1
  { t with ckpts := tset t.ckpts b (imageOf t b B) }

theorem checkpoint_eq {b : Nat} {s : State} {B T : Block} (hb : tget? s.blocks b = some B) (hp : B.phase = .resident)
    (hd : checkpointDue s b B = true) (hh : dbgHeld s B.pasid = false) (hc : clauseOpen s b = false) (hu : unsaved s b = false)
    (hm : stillMerged (drainBlock s b) b = false) :
    let w := (checkpointBegun s b B).modBlock b (Block.begin (tget? s.ckpts b).isNone (queueLog (checkpointBegun s b B) b))
    tget? w.blocks b = some T → exec (.checkpoint b) s = .next (imageKept w b T) := by
  intro w hT
  rw [exec_checkpoint]
  unfold execCheckpoint
  simp only [hb, hp, hd, hh, hc, hu, hm, bne_self_eq_false, Bool.not_true, Bool.or_self, Bool.false_eq_true, if_false]
  unfold w checkpointBegun queueLog Block.begin at hT
  simp only at hT
  simp only [hT]
  rfl

theorem checkpoint_taken (b : Nat) (s : State) (B : Block) (hb : tget? s.blocks b = some B) (hp : B.phase = .resident)
    (hd : checkpointDue s b B = true) (hh : dbgHeld s B.pasid = false) (hc : clauseOpen s b = false) (hu : unsaved s b = false)
    (hm : stillMerged (drainBlock s b) b = false) :
    let u := deliverLoads (drainBlock s b) b
    ∃ t T img, exec (.checkpoint b) s = .next t ∧ tget? t.blocks b = some T ∧ T.rc = 0 ∧ T.chk = false ∧
      T.iv = (if (tget? s.ckpts b).isNone then B.iv else (B.iv + 1) % 2 ^ 32) ∧ tget? t.ckpts b = some img ∧ img.blk = T ∧
      t.groups = u.groups ∧ img.groups = u.groups.filter fun g => g.1 / 32 == b := by
  intro u
  obtain ⟨V, hV, hiv⟩ : ∃ V, tget? (checkpointBegun s b B).blocks b = some V ∧ V.iv = B.iv := by
    have h := (ivKept_checkpointBegun s b B).at_block b
    rw [hb] at h
    exact Option.map_eq_some_iff.mp h
  let f := Block.begin (tget? s.ckpts b).isNone (queueLog (checkpointBegun s b B) b)
  let w := (checkpointBegun s b B).modBlock b f
  have hx : tget? w.blocks b = some (f V) := (tget?_tmod_self ..).trans (congrArg _ hV)
  have hi : imageSide w (placeImage w (2 ^ 32 - 2) (f V) (f V).slot1) := .placeImage ..
  have hg := hi.groups.trans (checkpointBegun_groups s b B)
  refine ⟨imageKept w b (f V), f V, _, checkpoint_eq hb hp hd hh hc hu hm hx, ?_, rfl, rfl, ?_, tget?_tset_self .., rfl, hg, congrArg (List.filter _) hg⟩
  · exact (congrArg (tget? · b) hi.blocks).trans hx
  · exact congrArg (fun n => if (tget? s.ckpts b).isNone then n else (n + 1) % 2 ^ 32) hiv

/-! ### Saves (R290) -/

theorem foldl_of_mem {α β : Type} {f : β → α → β} {b : β} {l : List α} (h : ∀ a ∈ l, f b a = b) : l.foldl f b = b := by
  induction l with
  | nil => rfl
  | cons a r ih =>
    rw [List.foldl_cons, h a List.mem_cons_self]
    exact ih fun x hx => h x (List.mem_cons_of_mem a hx)

theorem drainBlock_of_wc {s : State} (h : ∀ x ∈ s.cores, x.2.wc = []) (b : Nat) : drainBlock s b = s :=
  foldl_of_mem fun x hx => by simp only [h x hx, List.foldl_nil]

theorem stillMerged_of_wc {s : State} (h : ∀ x ∈ s.cores, x.2.wc = []) (b : Nat) : stillMerged s b = false :=
  List.any_eq_false.mpr fun x hx => by simp only [h x hx, List.any_nil, Bool.false_eq_true, not_false_eq_true]

theorem deliverLoads_of_ops {s : State} {b : Nat} (h : ∀ o ∈ s.ops, o.2.blk ≠ b) : deliverLoads s b = s :=
  foldl_of_mem fun x hx => by simp only [beq_eq_false_iff_ne.mpr (h x hx), Bool.false_and, Bool.false_eq_true, if_false]

theorem unbuffered_idem (i : Issuer) : i.unbuffered.unbuffered = i.unbuffered := by
  unfold Issuer.unbuffered
  cases i.wait <;> rfl

theorem mapIssuers_idem {f : Issuer → Issuer} (hf : ∀ i, f (f i) = f i) (G : Group) : (G.mapIssuers f).mapIssuers f = G.mapIssuers f := by
  simp only [Group.mapIssuers, hf, List.map_map, Function.comp_def]

theorem mem_groupsOf {s : State} {b k : Nat} {G : Group} (h : tget? s.groups k = some G) : k ∈ (s.groupsOf b).map (gkey b) ↔ k / 32 = b := by
  simp only [State.groupsOf, gkey, List.mem_map, List.mem_filter, beq_iff_eq]
  constructor
  · rintro ⟨_, ⟨x, ⟨_, hx⟩, rfl⟩, rfl⟩
    omega
  · exact fun hk => ⟨k % 32, ⟨(k, G), ⟨tget?_mem h, hk⟩, rfl⟩, by omega⟩

/-- What an idempotent change to every group of a block leaves in each. -/
theorem groups_ofBlock (s t : State) (h : t.groups = s.groups) (b : Nat) (f : Group → Group) (hf : ∀ G, f (f G) = f G) (k : Nat) :
    tget? ((s.groupsOf b).foldl (fun s g => s.modGroup b g f) t).groups k = (tget? s.groups k).map fun G => if k / 32 = b then f G else G := by
  rw [foldl_modGroup_groups _ _ _ _ hf, h]
  cases hk : tget? s.groups k with
  | none => exact ite_self _
  | some G =>
    rw [if_congr (mem_groupsOf hk) rfl rfl, Option.map_some, Option.map_some]
    split <;> rfl

/-- What a block's save leaves on its core: its requests off the package are given up, its queues and its buffers are empty. -/
def leftCore (s : State) (b : Nat) (B : Block) : State :=
  let s : State := { s with
    orphans := s.orphans ++ farRequests s b (fun k => k.isLoad || k == .spanq) ++ farFetches s b
    ops := s.ops.map fun (k, o) => (k, if o.blk == b then { o with lanes := o.lanes.map (LReq.recorded o.kind) } else o)
    tops := s.tops.map fun (k, t) => (k, if t.blk == b then { t with running := false } else t) }
  let s := dropHandles s b
  let mine := (s.tops.filter fun t => t.2.blk == b).map (·.1)
  let s := s.modCore B.home fun C => { C with tileQ := C.tileQ.filter fun k => !mine.contains k }
  let s := s.modCore B.home fun C => { C with symQ := C.symQ.filter fun r => r.blk != b }
  (s.groupsOf b).foldl (fun s g => s.modGroup b g fun G => G.mapIssuers Issuer.unbuffered) s

theorem leftCore_eq (s : State) (b : Nat) (B : Block) : ∃ u : State, u.blocks = s.blocks ∧ u.mem = s.mem ∧ u.groups = s.groups ∧
    leftCore s b B = (s.groupsOf b).foldl (fun s g => s.modGroup b g fun G => G.mapIssuers Issuer.unbuffered) u := by
  refine ⟨_, ?_, ?_, ?_, rfl⟩
  all_goals rfl

/-- A block stands saved, or waits for the child grid that it has forked. -/
def saveEnded (s : State) (b : Nat) (B : Block) : State :=
  { s.modBlock b (fun T => { T with
      phase := match B.forkDst with
        | some (_, _, child) => .forked (some child)
        | none => .saved
      imgHit := false, asSaved := false, since := s.nextId }) with nextId := s.nextId + 1 }

theorem saveEnded_mem (s : State) (b : Nat) (B : Block) : (saveEnded s b B).mem = s.mem := rfl
theorem saveEnded_groups (s : State) (b : Nat) (B : Block) : (saveEnded s b B).groups = s.groups := rfl

theorem tget?_saveEnded {s : State} {b : Nat} {T : Block} (h : tget? s.blocks b = some T) (B : Block) : tget? (saveEnded s b B).blocks b = some { T with
    phase := match B.forkDst with
      | some (_, _, child) => .forked (some child)
      | none => .saved
    imgHit := false, asSaved := false, since := s.nextId } :=
  (tget?_tmod_self ..).trans (by rw [h]; rfl)

theorem blockSave_eq {b : Nat} {s : State} {B : Block} (hb : tget? s.blocks b = some B) (hp : B.phase = .saving) (hm : midClause s b = false)
    (hu : unsaved s b = false) (ho : ∀ o ∈ s.ops, o.2.blk ≠ b) (hw : ∀ x ∈ s.cores, x.2.wc = []) :
    exec (.blockSave b) s = .next (settleVacs (saveEnded (chargeSave (placeImage (leftCore s b B) b B B.slot0) b B.home) b B)) := by
  rw [exec_blockSave]
  unfold execBlockSave
  simp only [hb, hp, hm, hu, drainBlock_of_wc hw, stillMerged_of_wc hw, deliverLoads_of_ops ho, bne_self_eq_false, Bool.or_self, Bool.false_eq_true, if_false]
  rfl

theorem blockSave_saves (b : Nat) (s : State) (B : Block) (hb : tget? s.blocks b = some B) (hp : B.phase = .saving) (hmid : midClause s b = false)
    (hu : unsaved s b = false) (ho : ∀ o ∈ s.ops, o.2.blk ≠ b) (hw : ∀ x ∈ s.cores, x.2.wc = []) :
    ∃ t n, exec (.blockSave b) s = .next t ∧ t.mem.hbm.bytes = s.mem.hbm.bytes ∧ (∀ h, t.mem.hbm.tag h = true → s.mem.hbm.tag h = true) ∧
      (∀ k, tget? t.groups k = (tget? s.groups k).map fun G => if k / 32 = b then G.mapIssuers Issuer.unbuffered else G) ∧
      (∀ k r l, t.cellAt k r l = s.cellAt k r l) ∧
      tget? t.blocks b = some { B with imgHit := false, asSaved := false, since := n, phase := match B.forkDst with
        | some (_, _, child) => .forked (some child)
        | none => .saved } := by
  obtain ⟨u, hub, hum, hug, hl⟩ := leftCore_eq s b B
  obtain ⟨H, hH⟩ := foldl_modGroup_eq u b (fun G => G.mapIssuers Issuer.unbuffered) (s.groupsOf b)
  let v := chargeSave (placeImage (leftCore s b B) b B B.slot0) b B.home
  have hv : imageSide (leftCore s b B) v := (imageSide.placeImage ..).trans (.chargeSave ..)
  have hm : (leftCore s b B).mem = s.mem := by rw [hl, hH]; exact hum
  have hbl : v.blocks = s.blocks := hv.blocks.trans (by rw [hl, hH]; exact hub)
  have ht := imageSide.settleVacs (saveEnded v b B)
  have hx := ht.bytes
  have htag := ht.tags
  rw [saveEnded_mem] at hx htag
  have hgt (k : Nat) : tget? (settleVacs (saveEnded v b B)).groups k =
      (tget? s.groups k).map fun G => if k / 32 = b then G.mapIssuers Issuer.unbuffered else G := by
    rw [ht.groups, saveEnded_groups, hv.groups, hl, groups_ofBlock s u hug b _ (mapIssuers_idem unbuffered_idem)]
  refine ⟨settleVacs (saveEnded v b B), v.nextId, blockSave_eq hb hp hmid hu ho hw, ?_, fun h hh => ?_, hgt, fun k r l => ?_, ?_⟩
  · rw [hx, hv.bytes, hm]
  · have hx := hv.tags _ (htag _ (List.contains_iff_mem.mp hh))
    rw [hm] at hx
    exact List.contains_iff_mem.mpr hx
  · unfold State.cellAt
    rw [hgt]
    cases tget? s.groups k with
    | none => rfl
    | some G => dsimp only [Option.map_some, Option.bind_some]; split <;> rfl
  · rw [ht.blocks]
    exact tget?_saveEnded (by rw [hbl, hb]) B

end Sys2Proof.Machine
end

section
/-!
PROOFS. Placement and restore of blocks (R20, R40, R141, R268, R273, R290).
-/

namespace Sys2Proof.Machine

/-! ### Debug descriptors come into force (R331) -/

theorem tget?_mapKey {α : Type} (t : Tab α) (f : Nat → α → α) (k : Nat) : tget? (t.map fun x => (x.1, f x.1 x.2)) k = (tget? t k).map (f k) := by
  induction t with
  | nil => rfl
  | cons x r ih =>
    simp only [List.map_cons, tget?]
    split
    · next h => subst h; rfl
    · exact ih

/-- The state a ready item is placed in: its context's descriptor may have come into force, and nothing else has changed. -/
def placeFrom (s : State) (p : Nat) : State :=
  if s.blocks.any fun b => b.2.pasid == p && b.2.phase.onCore then s else newDebug s fun q _ => q == p

theorem placeFrom_eq (s : State) (p : Nat) : ∃ X, placeFrom s p = { s with ctxs := X } ∧
    ∀ q c, tget? s.ctxs q = some c → ∃ d, tget? X q = some d ∧ d.sweep = c.sweep := by
  unfold placeFrom
  split
  · exact ⟨s.ctxs, rfl, fun q c h => ⟨c, h, rfl⟩⟩
  · refine ⟨_, rfl, fun q c h => ?_⟩
    have hm := tget?_mapKey s.ctxs (fun q c => match c.newDbg with
      | some v => if q == p then { c with dbg := v, newDbg := none } else c
      | none => c) q
    rw [h] at hm
    refine ⟨_, hm, ?_⟩
    dsimp only
    split
    · split <;> rfl
    · rfl

/-! ### A block comes to a core (R125, R141, R275) -/

/-- A core that a block of a context comes to: the split is in force, the world is entered, and the core has acquired. -/
def coreEntered (s : State) (core : Nat) (c : Ctx) : State := acquireCore (enterWorld (setSplit s core c.spu) core c) core

theorem coreEntered_eq (s : State) (core : Nat) (c : Ctx) : ∃ C, coreEntered s core c = { s with cores := C } := by
  unfold coreEntered acquireCore enterWorld setSplit
  dsimp only
  split <;> split <;> exact ⟨_, rfl⟩

/-- A core that has acquired holds copies of its own words alone. -/
theorem l1_coreEntered (s : State) (core : Nat) (c : Ctx) : ∀ x ∈ ((coreEntered s core c).core core).l1, tget? s.mem.wordOwner x.1 = some core := by
  obtain ⟨C, hC⟩ : ∃ C, enterWorld (setSplit s core c.spu) core c = { s with cores := C } := by
    unfold enterWorld setSplit
    dsimp only
    split <;> split <;> exact ⟨_, rfl⟩
  unfold coreEntered
  rw [hC]
  unfold acquireCore
  rw [State.core_modCore, if_pos rfl]
  exact fun x hx => beq_iff_eq.mp (List.mem_filter.mp hx).2

/-! ### Restore (R290) -/

theorem cellAt_modGroup (s : State) (b g : Nat) (f : Group → Group) (hf : ∀ G r l, (f G).cell r l = G.cell r l) (k r l : Nat) :
    (s.modGroup b g f).cellAt k r l = s.cellAt k r l := by
  unfold State.cellAt State.modGroup
  rw [tget?_tmod]
  split
  · next h =>
    rw [h]
    cases tget? s.groups (gkey b g) with
    | none => rfl
    | some G => exact hf G r l
  · rfl

/-- Groups of a block start again on its core, one after another. -/
def groupsResumed (s : State) (b : Nat) (gs : List Nat) : State :=
  gs.foldl (fun s g => { s.modGroup b g (fun G => { G with since := s.nextId, passed := 0, hold := none }) with nextId := s.nextId + 1 }) s

theorem groupsResumed_eq (s : State) (b : Nat) (gs : List Nat) : ∃ H n, groupsResumed s b gs = { s with groups := H, nextId := n } := by
  induction gs generalizing s with
  | nil => exact ⟨s.groups, s.nextId, rfl⟩
  | cons g r ih =>
    obtain ⟨H, n, h⟩ := ih { s.modGroup b g (fun G => { G with since := s.nextId, passed := 0, hold := none }) with nextId := s.nextId + 1 }
    exact ⟨H, n, h⟩

theorem groupsResumed_blocks (s : State) (b : Nat) (gs : List Nat) : (groupsResumed s b gs).blocks = s.blocks := by
  obtain ⟨H, n, h⟩ := groupsResumed_eq s b gs
  rw [h]

theorem groupsResumed_mem (s : State) (b : Nat) (gs : List Nat) : (groupsResumed s b gs).mem = s.mem := by
  obtain ⟨H, n, h⟩ := groupsResumed_eq s b gs
  rw [h]

theorem groupsResumed_parks (s : State) (b : Nat) (gs : List Nat) : (groupsResumed s b gs).parks = s.parks := by
  obtain ⟨H, n, h⟩ := groupsResumed_eq s b gs
  rw [h]

theorem cellAt_groupsResumed (s : State) (b : Nat) (gs : List Nat) (k r l : Nat) : (groupsResumed s b gs).cellAt k r l = s.cellAt k r l := by
  induction gs generalizing s with
  | nil => rfl
  | cons g gs ih =>
    refine (ih _).trans ?_
    exact cellAt_modGroup s b g (fun G => { G with since := s.nextId, passed := 0, hold := none }) (fun _ _ _ => rfl) k r l

/-- A block stands on its core again. -/
def Block.restored (s : State) (b core base : Nat) (fold : Bool) (B : Block) : Block :=
  { B with home := core, foldTo := none, core := if fold then B.core else core, base := if fold then B.base else base
           phase := if blockEnded s b then .draining else .resident, imgHit := false
           asSaved := gangHeld s (dieOf core), cyc0 := (s.die (dieOf core)).cyc }

/-- What the restore of a block does on a core that it has come to: its operations go on there, its groups start again, its tile operations
are queued. -/
def restoredAt (s : State) (b core base : Nat) (fold : Bool) : State :=
  let s := s.modBlock b (Block.restored s b core base fold)
  let s : State := { s with ops := s.ops.map fun (k, o) => (k, if o.blk == b then { o with core } else o) }
  let s := groupsResumed s b (s.groupsOf b)
  let q := sortBy (fun x y : Nat × TOp => decide (x.2.order ≤ y.2.order)) (s.tops.filter fun t => t.2.blk == b)
  s.modCore core fun C => { C with tileQ := C.tileQ ++ q.map (·.1) }

section
variable (s : State) (b core base : Nat) (fold : Bool)

theorem restoredAt_blocks : (restoredAt s b core base fold).blocks = tmod s.blocks b (Block.restored s b core base fold) := groupsResumed_blocks ..
theorem restoredAt_mem : (restoredAt s b core base fold).mem = s.mem := groupsResumed_mem ..
theorem restoredAt_parks : (restoredAt s b core base fold).parks = s.parks := groupsResumed_parks ..

theorem cellAt_restoredAt (k r l : Nat) : (restoredAt s b core base fold).cellAt k r l = s.cellAt k r l := cellAt_groupsResumed ..

end

theorem restoreBlock_eq {s : State} {b core base : Nat} {fold : Bool} {B : Block} {c : Ctx} (hb : tget? s.blocks b = some B)
    (hc : tget? s.ctxs B.pasid = some c) (hs : c.sweep = none) (hh : B.imgHit = false) (hi : imageBad s b = none)
    (hp : ∀ x ∈ s.parks, x.2.dispo = none) :
    restoreBlock s b core base fold = chargeSave (restoredAt (coreEntered s core c) b core base fold) b core := by
  let u := restoredAt (coreEntered s core c) b core base fold
  have hn : (u.parks.filter fun p => p.2.held.stands && p.2.held.blk u == b && p.2.dispo.isSome) = [] := by
    obtain ⟨C, hC⟩ := coreEntered_eq s core c
    have hk : u.parks = s.parks := (restoredAt_parks ..).trans (by rw [hC])
    exact List.filter_eq_nil_iff.mpr fun y hy => by simp [hp y (hk ▸ hy)]
  have hr : restoreBlock s b core base fold = chargeSave ((u.parks.filter fun p => p.2.held.stands && p.2.held.blk u == b && p.2.dispo.isSome).foldl
      (fun s (h, _) => settleDispo s h) u) b core := by
    unfold restoreBlock
    simp only [hb, hc, hs, hh, hi]
    rfl
  rw [hr, hn]
  rfl

theorem restoreBlock_spec {s : State} {b core base : Nat} {fold : Bool} {B : Block} {c : Ctx} (hb : tget? s.blocks b = some B)
    (hc : tget? s.ctxs B.pasid = some c) (hs : c.sweep = none) (hh : B.imgHit = false) (hi : imageBad s b = none)
    (hp : ∀ x ∈ s.parks, x.2.dispo = none) :
    tget? (restoreBlock s b core base fold).blocks b = some (B.restored (coreEntered s core c) b core base fold) ∧
      (restoreBlock s b core base fold).mem.hbm = s.mem.hbm ∧ ∀ k r l, (restoreBlock s b core base fold).cellAt k r l = s.cellAt k r l := by
  obtain ⟨C, hC⟩ := coreEntered_eq s core c
  rw [restoreBlock_eq hb hc hs hh hi hp]
  have hv := sliceSide_chargeSave (restoredAt (coreEntered s core c) b core base fold) b core
  refine ⟨?_, ?_, fun k r l => ?_⟩
  · rw [hv.blocks, restoredAt_blocks, tget?_tmod_self, hC, hb]
    rfl
  · rw [hv.hbm, restoredAt_mem, hC]
  · unfold State.cellAt
    rw [hv.groups]
    exact (cellAt_restoredAt ..).trans (by rw [hC]; rfl)

theorem blockRestore_restores (b core : Nat) (s : State) (p : Nat) (c : Ctx) (B : Block) (a k base : Nat) (hcore : core < 1536)
    (hch : choose s core = some (p, .saved a, [(b, k, base)])) (hb : tget? s.blocks b = some B) (hc : tget? s.ctxs B.pasid = some c)
    (hs : c.sweep = none) (hh : B.imgHit = false) (hi : imageBad s b = none) (hp : ∀ x ∈ s.parks, x.2.dispo = none) :
    ∃ t T, exec (.blockRestore b core) s = .next t ∧ tget? t.blocks b = some T ∧ T.home = k ∧ (T.phase = .resident ∨ T.phase = .draining) ∧
      T.spm = B.spm ∧ T.slots = B.slots ∧ T.tiles = B.tiles ∧ T.sbs = B.sbs ∧ T.rc = B.rc ∧ T.foldTo = none ∧ t.mem.hbm = s.mem.hbm ∧
      ∀ r l, ∀ g < 32, t.cellAt (gkey b g) r l = s.cellAt (gkey b g) r l := by
  obtain ⟨X, hX, hx⟩ := placeFrom_eq s p
  obtain ⟨d, hd, hds⟩ := hx B.pasid c hc
  let u := placeFrom s p
  have hu : u = { s with ctxs := X } := hX
  let fold := ((tget? u.blocks a).bind (·.foldTo)).isSome
  have he : exec (.blockRestore b core) s = .next (restoreBlock u b k base fold) := by
    rw [exec_blockRestore]
    unfold execBlockRestore
    simp only [if_neg (show ¬24 * 64 ≤ core by omega), hch, List.any_cons, beq_self_eq_true, Bool.true_or, if_true]
    rfl
  obtain ⟨hB, hm, hcell⟩ := restoreBlock_spec (s := u) (core := k) (base := base) (fold := fold) (by rw [hu]; exact hb) (by rw [hu]; exact hd)
    (hds.trans hs) hh (by rw [hu]; exact hi) (by rw [hu]; exact hp)
  refine ⟨_, _, he, hB, rfl, ?_, rfl, rfl, rfl, rfl, rfl, rfl, ?_, fun r l g _ => ?_⟩
  · unfold Block.restored
    dsimp only
    split
    · exact .inr rfl
    · exact .inl rfl
  · rw [hm, hu]
  · rw [hcell, hu]
    rfl

/-! ### Placement (R20, R40, R141, R268, R273) -/

/-- The groups of a new block, one after another at the grid's entry (R268). -/
def groupsStarted (code : Cap) (roots : List Cap) (views : List DWord) (s : State) (id n : Nat) : State :=
  (List.range n).foldl (fun s k =>
    { s with groups := tset s.groups (gkey id k) (newGroup code roots views (s.nextId + k)), nextId := s.nextId + 1 }) s

section
variable (code : Cap) (roots : List Cap) (views : List DWord) (s : State) (id : Nat)

theorem groupsStarted_succ (n : Nat) : groupsStarted code roots views s id (n + 1) =
    let u := groupsStarted code roots views s id n
    { u with groups := tset u.groups (gkey id n) (newGroup code roots views (u.nextId + n)), nextId := u.nextId + 1 } := by
  unfold groupsStarted
  rw [List.range_succ, List.foldl_append]
  rfl

theorem groupsStarted_eq (n : Nat) : ∃ H m, groupsStarted code roots views s id n = { s with groups := H, nextId := m } := by
  induction n with
  | zero => exact ⟨s.groups, s.nextId, rfl⟩
  | succ n ih =>
    obtain ⟨H, m, h⟩ := ih
    rw [groupsStarted_succ, h]
    exact ⟨_, _, rfl⟩

theorem grp?_groupsStarted {j n : Nat} (hj : j < n) : ∃ m, (groupsStarted code roots views s id n).grp? id j = some (newGroup code roots views m) := by
  induction n with
  | zero => omega
  | succ n ih =>
    rw [groupsStarted_succ]
    by_cases h : j = n
    · subst h
      exact ⟨_, tget?_tset_self ..⟩
    · obtain ⟨m, hm⟩ := ih (by omega)
      refine ⟨m, (tget?_tset_ne _ _ ?_).trans hm⟩
      unfold gkey
      omega

end

/-- No root is stale while no sweep is in progress (R118). -/
theorem map_sweepCheck {s : State} {p : Nat} {c : Ctx} (hc : tget? s.ctxs p = some c) (hs : c.sweep = none) (l : List Cap) :
    l.map (sweepCheck s p) = l := by
  have h : sweepCheck s p = id := by
    funext k
    unfold sweepCheck
    simp [hc, hs]
  rw [h, List.map_id]

theorem dispatchBlock_eq {s : State} {gid : Nat} {g : Grid} {c d : Ctx} {bidx core base tk dt : Nat} (hd : tget? s.ctxs g.pasid = some d)
    (hs : d.sweep = none) (hr : g.rpl = false) : ∃ a m cyc0, dispatchBlock s gid g c bidx core base tk dt =
      sweepJoin (groupsStarted g.code g.roots g.views { coreEntered s core c with
        blocks := tset s.blocks s.nextId { newBlock gid g.pasid bidx core base g.spm none tk dt a none m with cyc0 }
        nextId := s.nextId + 2 } s.nextId g.groups) s.nextId := by
  obtain ⟨C, hC⟩ := coreEntered_eq s core c
  rw [hC]
  unfold coreEntered at hC
  unfold dispatchBlock
  simp only [hC, State.fresh, hr, map_sweepCheck (s := { s with cores := C }) hd hs g.roots, Bool.false_eq_true, if_false]
  exact ⟨_, _, _, rfl⟩

theorem dispatchBlock_spec {s : State} {gid : Nat} {g : Grid} {c d : Ctx} {bidx core base tk dt : Nat} (hd : tget? s.ctxs g.pasid = some d)
    (hs : d.sweep = none) (hr : g.rpl = false) :
    let t := dispatchBlock s gid g c bidx core base tk dt
    ∃ B, tget? t.blocks s.nextId = some B ∧ B.grid = gid ∧ B.bidx = bidx ∧ B.home = core ∧ B.core = core ∧ B.base = base ∧ B.phase = .resident ∧
      B.spm = Ram.empty ∧ B.spmLen = spmRound g.spm ∧ B.serves = none ∧
      (∀ j < g.groups, ∃ n, t.grp? s.nextId j = some (newGroup g.code g.roots g.views n)) ∧
      (∀ x ∈ (t.core core).l1, tget? t.mem.wordOwner x.1 = some core) ∧ t.grids = s.grids := by
  obtain ⟨a, m, cyc0, ht⟩ := dispatchBlock_eq (gid := gid) (c := c) (bidx := bidx) (core := core) (base := base) (tk := tk) (dt := dt) hd hs hr
  obtain ⟨C, hC⟩ := coreEntered_eq s core c
  have hl := l1_coreEntered s core c
  rw [hC] at hl ht
  intro t
  let w : State := { s with
    cores := C
    blocks := tset s.blocks s.nextId { newBlock gid g.pasid bidx core base g.spm none tk dt a none m with cyc0 }
    nextId := s.nextId + 2 }
  obtain ⟨H, n, hH⟩ := groupsStarted_eq g.code g.roots g.views w s.nextId g.groups
  have htw : t = sweepJoin (groupsStarted g.code g.roots g.views w s.nextId g.groups) s.nextId := ht
  have hb : t.blocks = w.blocks := by rw [htw, hH]; rfl
  refine ⟨_, (congrArg (tget? · s.nextId) hb).trans (tget?_tset_self ..), rfl, rfl, rfl, rfl, rfl, rfl, rfl, rfl, rfl, fun j hj => ?_, ?_, ?_⟩
  · rw [htw]
    exact grp?_groupsStarted g.code g.roots g.views w s.nextId hj
  · rw [htw, hH]
    exact hl
  · rw [htw, hH]
    rfl

theorem drawTicket_eq (s : State) (l : List Nat) : ∃ k, drawTicket s l = (k, { s with free := s.free + 1 }) := ⟨_, rfl⟩

theorem blockPlacement_places (core : Nat) (s : State) (p gid : Nat) (g : Grid) (c : Ctx) (b k base : Nat) (hcore : core < 1536)
    (hch : choose s core = some (p, .fresh gid, [(b, k, base)])) (hg : tget? s.grids gid = some g) (hc : tget? s.ctxs g.pasid = some c)
    (hr : g.rpl = false) (hs : c.sweep = none) :
    ∃ t B, exec (.blockPlacement core) s = .next t ∧ tget? t.blocks s.nextId = some B ∧ B.grid = gid ∧ B.bidx = b ∧ B.home = k ∧ B.core = k ∧
      B.base = base ∧ B.phase = .resident ∧ B.spm = Ram.empty ∧ B.spmLen = spmRound g.spm ∧ B.serves = none ∧
      (∀ j < g.groups, j < 32 → ∃ n, t.grp? s.nextId j = some (newGroup g.code g.roots g.views n)) ∧
      (∀ x ∈ (t.core k).l1, tget? t.mem.wordOwner x.1 = some k) ∧ (tget? t.grids gid).map (·.placed) = some (g.placed + 1) := by
  obtain ⟨X, hX, hx⟩ := placeFrom_eq s p
  obtain ⟨d, hd, hds⟩ := hx g.pasid c hc
  have he : exec (.blockPlacement core) s = .next (dispatch (placeFrom s p) gid [(b, k, base)]) := by
    rw [exec_blockPlacement]
    unfold execBlockPlacement
    simp only [if_neg (show ¬24 * 64 ≤ core by omega), hch]
    rfl
  have hdisp : ∃ t tk dt, dispatch (placeFrom s p) gid [(b, k, base)] = t.modGrid gid (fun g => { g with placed := g.placed + 1 }) ∧
      t = dispatchBlock { s with ctxs := X, free := s.free + 2 } gid g d b k base tk dt := by
    rw [hX]
    unfold dispatch
    simp only [hg, hd, List.map_cons, List.map_nil, (List.nodup_singleton _).dedup, List.foldl_cons, List.foldl_nil, List.filter_cons, List.filter_nil,
      beq_self_eq_true, if_true, List.length_singleton]
    exact ⟨_, _, _, rfl, rfl⟩
  obtain ⟨t, tk, dt, ht, hte⟩ := hdisp
  obtain ⟨B, hB, h1, h2, h3, h4, h5, h6, h7, h8, h9, hG, hL, hgr⟩ := dispatchBlock_spec (s := { s with ctxs := X, free := s.free + 2 })
    (gid := gid) (c := d) (bidx := b) (core := k) (base := base) (tk := tk) (dt := dt) hd (hds.trans hs) hr
  rw [← hte] at hB hG hL hgr
  refine ⟨_, B, he.trans (congrArg _ ht), hB, h1, h2, h3, h4, h5, h6, h7, h8, h9, fun j hj _ => hG j hj, hL, ?_⟩
  refine (congrArg _ (tget?_tmod_self ..)).trans ?_
  rw [hgr, hg]
  rfl

/-- Settles O38: each event by the theorem about it; a debug stop is among the first things that a checkpoint looks at. -/
theorem placementSaveRestore : Obligations.PlacementSaveRestore := by
  refine ⟨fun core s p gid g c b k base hcore hch hg hc hr hs => blockPlacement_places core s p gid g c b k base hcore hch hg hc hr hs,
    blockSave_saves, blockRestore_restores, fun b s B hb hp hd hh hc hu hm => checkpoint_taken b s B hb hp hd hh hc hu hm, fun b s B hb hd => ?_⟩
  rw [exec_checkpoint]
  unfold execCheckpoint
  simp [hb, hd]

end Sys2Proof.Machine
end

section
/-!
PROOFS. How words retire: the counterexample to the count of RC (R332).
-/

namespace Sys2Proof.Machine

/-! ### RC where the groups stand out of order -/

/-- A word in execution at block scope by the stream of group 0 of block 0. -/
def wordOfBlock : Cur :=
  { blk := 0, e := .block, arr := [⟨0, 0, 0⟩], act := [], addr := 0, idx := 1, k := 1, sym := false, eng := .ctl, lead := 0 }

/-- Block 0 with two groups, which the table of groups lists out of the order of their keys: `tset` finds an entry in a rising table alone, and
lists group 0 a second time as its issuer moves on. -/
def groupsOutOfOrder : State :=
  { State.reset with
    blocks := [(0, newBlock 0 0 0 0 0 0 none 0 0 0 none 0)]
    groups := [(1, newGroup Cap.null [] [] 0), (0, newGroup Cap.null [] [] 0)]
    cur := some wordOfBlock }

/-- The unit of the issue has two groups. -/
theorem unitGroups_groupsOutOfOrder : unitGroups groupsOutOfOrder 0 0 .block = [1, 0] := rfl

/-- The model counts the unit's groups after the issuers have moved on, and finds three. -/
theorem rc_nop_groupsOutOfOrder : ∃ t, exec (.nop .block) groupsOutOfOrder = .next t ∧ (tget? t.blocks 0).map Block.rc = some 3 := ⟨_, rfl, rfl⟩

/-- Refutes O11, in the clause on how a word retires: where the table of groups is not in the order of its keys, the entry of the group whose
issuer moves on is listed twice, and RC rises by three for the two groups of the unit. The statement asks nothing of the state's tables. -/
theorem not_plainWords : ¬ Obligations.PlainWords := by
  rintro ⟨_, _, _, hr⟩
  obtain ⟨t, ht, h⟩ := hr .block groupsOutOfOrder wordOfBlock rfl
  obtain ⟨_, _, hrc⟩ := h (by decide) (by decide)
  obtain ⟨u, hu, h3⟩ := rc_nop_groupsOutOfOrder
  cases ht.symm.trans hu
  have h2 : (tget? t.blocks 0).map Block.rc = some 2 := hrc
  exact absurd (h3.symm.trans h2) (by decide)

end Sys2Proof.Machine
end

section
/-!
PROOFS. Traps at a wider scope: the counterexample to the unit that a handle holds (R35, R160).
-/

namespace Sys2Proof.Machine

/-! ### A trap at block scope where the groups stand out of order -/

/-- A trap in execution at block scope by the stream of group 0 of block 0, with lane 0 active. -/
def trapOfBlock : Cur := { wordOfBlock with act := [(0, 1#64)] }

/-- The groups of block 0 listed out of the order of their keys, and the trap in execution. -/
def trapOutOfOrder : State := { groupsOutOfOrder with cur := some trapOfBlock }

/-- The groups that the handle of a wide fault holds. -/
def Held.groups : Held → List Nat
  | .unit _ gs _ => gs
  | _ => []

/-- The unit of the trap has two groups. -/
theorem unitGroups_trapOutOfOrder : unitGroups trapOutOfOrder 0 0 .block = [1, 0] := rfl

/-- The model lists the unit's groups after its issuers were set waiting, and the handle holds three. -/
theorem held_trapOutOfOrder :
    ∃ t, exec (.trap .block 0#16) trapOutOfOrder = .next t ∧ (tget? t.parks trapOutOfOrder.nextId).map (·.held.groups) = some [0, 1, 0] :=
  ⟨_, rfl, rfl⟩

/-- Refutes O15, in the clause on a wider scope: where the table of groups is not in the order of its keys, the entry of the group whose issuer
is set waiting is listed twice, and the handle holds group 0 twice. The statement asks nothing of the state's tables but that the unit's groups
differ before the word. -/
theorem not_softTrap : ¬ Obligations.SoftTrap := by
  rintro ⟨_, hw⟩
  have hsane : trapOfBlock.sane := ⟨by decide, by decide⟩
  have hnodup : (unitGroups trapOutOfOrder 0 0 .block).Nodup := by rw [unitGroups_trapOutOfOrder]; decide
  obtain ⟨t, ht, ⟨_, hout, _⟩, _⟩ := hw .block 0#16 trapOutOfOrder trapOfBlock rfl (by decide) rfl hsane hnodup
  obtain ⟨u, hu, h3⟩ := held_trapOutOfOrder
  cases ht.symm.trans hu
  have hparks := congrArg (fun x => (tget? x.parks trapOutOfOrder.nextId).map (·.held.groups)) hout.1
  have h3 := hparks.symm.trans h3
  have h2 := (show some [1, 0] = some [0, 1, 0] from h3)
  exact absurd h2 (by decide)

end Sys2Proof.Machine
end

section
/-!
PROOFS. Control transfers (R24, R154 to R157): what a transfer writes in its lanes, where each lane goes, and what stays.
-/

namespace Sys2Proof.Machine

/-! ### Groups that differ in vector registers alone -/

/-- The groups differ in nothing but vector registers, their tags and what `mfence` looks at (R147). -/
def Group.sameButV (G H : Group) : Prop := ∃ v vt vl d, H = { G with v := v, vt := vt, vl := vl, vDirty := d }

namespace Group.sameButV

theorem refl (G : Group) : G.sameButV G := ⟨G.v, G.vt, G.vl, G.vDirty, rfl⟩

theorem trans {G H K : Group} (h : G.sameButV H) (h' : H.sameButV K) : G.sameButV K := by
  obtain ⟨_, _, _, _, rfl⟩ := h
  obtain ⟨v, vt, vl, d, rfl⟩ := h'
  exact ⟨v, vt, vl, d, rfl⟩

theorem foldl {α : Type} {f : Group → α → Group} (l : List α) (hf : ∀ a ∈ l, ∀ K : Group, K.sameButV (f K a)) (G : Group) :
    G.sameButV (l.foldl f G) := by
  induction l generalizing G with
  | nil => exact refl G
  | cons a l ih => exact (hf a (.head _) G).trans (ih (fun b hb => hf b (.tail _ hb)) _)

theorem setVtag (G : Group) (q l : Nat) (t : Bool) : G.sameButV (G.setVtag q l t) := ⟨_, _, _, _, rfl⟩

theorem freeReg (G : Group) (r l : Nat) : G.sameButV (G.freeReg r l) := ⟨_, _, _, _, rfl⟩

theorem putWord (G : Group) (r l : Nat) (w : Word) : G.sameButV (G.putWord r l w) := ⟨_, _, _, _, rfl⟩

theorem putQuad (G : Group) (r l : Nat) (k : Cap) : G.sameButV (G.putQuad r l k) :=
  (foldl _ (fun _ _ K => putWord K _ _ _) _).trans (setVtag ..)

theorem dirty (G : Group) (rs : List Nat) : G.sameButV (G.dirty rs) := ⟨_, _, _, _, rfl⟩

theorem freeOps (G : Group) (ops : List Opd) (ls : List Nat) : G.sameButV (G.freeOps ops ls) :=
  foldl _ (fun _ _ K => foldl _ (fun _ _ K => freeReg K _ _) K) G

theorem stream {G H : Group} (h : G.sameButV H) : H.stream = G.stream := by
  obtain ⟨_, _, _, _, rfl⟩ := h
  rfl

theorem div {G H : Group} (h : G.sameButV H) : H.div = G.div := by
  obtain ⟨_, _, _, _, rfl⟩ := h
  rfl

theorem bare {G H : Group} (h : G.sameButV H) :
    { H.noIss with v := [], vt := [], vl := [], vDirty := [] } = { G.noIss with v := [], vt := [], vl := [], vDirty := [] } := by
  obtain ⟨_, _, _, _, rfl⟩ := h
  rfl

end Group.sameButV

/-! ### One lane of a group's vector registers -/

/-- The groups agree in the vector registers and tags of lane l. -/
def Group.sameLane (G H : Group) (l : Nat) : Prop := (∀ q, H.cell q l = G.cell q l) ∧ ∀ n, H.vtag n l = G.vtag n l

/-- A change of lane l in the registers rs and their quads' tags, and of no other vector register or part of a group. -/
structure writesLane (rs : List Nat) (l : Nat) (f : Group → Group) : Prop where
  same : ∀ K : Group, K.sameButV (f K)
  cell : ∀ K q i, ¬(i = l ∧ q ∈ rs) → (f K).cell q i = K.cell q i
  vtag : ∀ K n i, ¬(i = l ∧ ∃ q, q / 4 = n ∧ q ∈ rs) → (f K).vtag n i = K.vtag n i

theorem writesLane_id (rs : List Nat) (l : Nat) : writesLane rs l id := ⟨Group.sameButV.refl, fun _ _ _ _ => rfl, fun _ _ _ _ => rfl⟩

theorem writesLane_putWord (a l : Nat) (w : Word) (hl : l < 64) (rs : List Nat) (ha : a ∈ rs) : writesLane rs l fun K => K.putWord a l w where
  same K := .putWord K a l w
  cell K q i h := by
    refine (cell_putCell K a l q i _).trans (if_neg ?_)
    rintro ⟨rfl, rfl⟩
    exact h ⟨rfl, ha⟩
  vtag K n i h := by
    refine (vtag_putCell K a l n i _ hl).trans (if_neg ?_)
    rintro ⟨rfl, rfl⟩
    exact h ⟨rfl, a, rfl, ha⟩

theorem writesLane.comp {rs : List Nat} {l : Nat} {f g : Group → Group} (hf : writesLane rs l f) (hg : writesLane rs l g) :
    writesLane rs l fun K => g (f K) where
  same K := (hf.same K).trans (hg.same _)
  cell K q i h := (hg.cell _ q i h).trans (hf.cell K q i h)
  vtag K n i h := (hg.vtag _ n i h).trans (hf.vtag K n i h)

/-- A quad's registers. -/
def quadRegs (a : Nat) : List Nat := (List.range 4).map (a + ·)

theorem putQuad_eq (K : Group) (a l : Nat) (k : Cap) : K.putQuad a l k =
    ((((K.putWord (a + 0) l (k.bits.extractLsb' 0 32)).putWord (a + 1) l (k.bits.extractLsb' 32 32)).putWord (a + 2) l
      (k.bits.extractLsb' 64 32)).putWord (a + 3) l (k.bits.extractLsb' 96 32)).setVtag (a / 4) l k.tag := rfl

theorem writesLane_putQuad (a l : Nat) (k : Cap) (hl : l < 64) : writesLane (quadRegs a) l fun K => K.putQuad a l k := by
  have hw (j : Nat) (hj : j < 4) : writesLane (quadRegs a) l fun K => K.putWord (a + j) l (k.bits.extractLsb' (32 * j) 32) :=
    writesLane_putWord _ _ _ hl _ (List.mem_map.mpr ⟨j, List.mem_range.mpr hj, rfl⟩)
  have ht : writesLane (quadRegs a) l fun K => K.setVtag (a / 4) l k.tag := by
    refine ⟨fun K => .setVtag .., fun K q i _ => rfl, fun K n i h => (vtag_setVtag K _ l n i _ hl).trans (if_neg ?_)⟩
    rintro ⟨rfl, rfl⟩
    exact h ⟨rfl, a, rfl, List.mem_map.mpr ⟨0, by decide, rfl⟩⟩
  exact ((((hw 0 (by decide)).comp (hw 1 (by decide))).comp (hw 2 (by decide))).comp (hw 3 (by decide))).comp ht

/-- A quad written holds the capability (R100). -/
theorem quadIs_putQuad (K : Group) (a l : Nat) (k : Cap) (hl : l < 64) : (K.putQuad a l k).quadIs a l k := by
  rw [putQuad_eq]
  refine ⟨fun j hj => ?_, (vtag_setVtag _ _ _ _ _ _ hl).trans (if_pos ⟨rfl, rfl⟩)⟩
  simp only [cell_setVtag, Group.putWord, cell_putCell]
  interval_cases j <;> simp

theorem quadIs_of_sameLane {G H : Group} {l : Nat} (h : G.sameLane H l) {a : Nat} {k : Cap} (hq : G.quadIs a l k) : H.quadIs a l k :=
  ⟨fun j hj => (h.1 _).trans (hq.1 j hj), (h.2 _).trans hq.2⟩

/-- Changes of several lanes, each once: a lane's registers are as its own change leaves them, and the others as before. -/
theorem foldl_writesLane {rs : List Nat} {f : Nat → Group → Group} (ls : List Nat) (hn : ls.Nodup) (hf : ∀ l ∈ ls, writesLane rs l (f l)) (G : Group) :
    (∀ l ∈ ls, ∃ K, G.sameLane K l ∧ (f l K).sameLane (ls.foldl (fun K l => f l K) G) l) ∧ ∀ l ∉ ls, G.sameLane (ls.foldl (fun K l => f l K) G) l := by
  induction ls generalizing G with
  | nil => exact ⟨fun l h => absurd h List.not_mem_nil, fun l _ => ⟨fun _ => rfl, fun _ => rfl⟩⟩
  | cons a ls ih =>
    obtain ⟨ha, hn⟩ := List.nodup_cons.mp hn
    obtain ⟨hin, hout⟩ := ih hn (fun l h => hf l (.tail _ h)) (f a G)
    have hfa := hf a (.head _)
    have hother (l : Nat) (h : l ≠ a) : G.sameLane (f a G) l :=
      ⟨fun q => hfa.cell G q l fun e => h e.1, fun n => hfa.vtag G n l fun e => h e.1⟩
    refine ⟨fun l hl => ?_, fun l hl => ?_⟩
    · rcases List.mem_cons.mp hl with rfl | hl
      · exact ⟨G, ⟨fun _ => rfl, fun _ => rfl⟩, hout l ha⟩
      · obtain ⟨K, hK, hH⟩ := hin l hl
        have hne : l ≠ a := fun e => ha (e ▸ hl)
        exact ⟨K, ⟨fun q => (hK.1 q).trans ((hother l hne).1 q), fun n => (hK.2 n).trans ((hother l hne).2 n)⟩, hH⟩
    · have hne : l ≠ a := fun e => hl (e ▸ .head _)
      have h := hout l fun e => hl (.tail _ e)
      exact ⟨fun q => (h.1 q).trans ((hother l hne).1 q), fun n => (h.2 n).trans ((hother l hne).2 n)⟩

/-! ### Lanes and their next clauses (R24) -/

theorem getLsbD_maskOf (ls : List Nat) (hl : ∀ l ∈ ls, l < 64) (i : Nat) : (maskOf ls).getLsbD i = decide (i ∈ ls) := by
  suffices h : ∀ m : Lanes, (ls.foldl (fun m i => m ||| laneBit i) m).getLsbD i = (m.getLsbD i || decide (i ∈ ls)) by
    exact (h 0#64).trans (by simp)
  induction ls with
  | nil => simp
  | cons a ls ih =>
    intro m
    rw [List.foldl_cons, ih (fun l h => hl l (.tail _ h)), BitVec.getLsbD_or, getLsbD_laneBit a i (hl a (.head _)), Bool.or_assoc]
    simp

/-- A lane at a clause boundary, with the capability it goes on with. -/
def Issuer.goesOn (j : Issuer) (l : Nat) (k : Cap) : Prop := j.cl = none ∧ j.wait = .go ∧ j.lanes.getLsbD l = true ∧ j.code = k

theorem tget?_foldl_tset {α : Type} (f : Nat → α) (ls : List Nat) (t : Tab α) (x : Nat) :
    tget? (ls.foldl (fun t x => tset t x (f x)) t) x = if x ∈ ls then some (f x) else tget? t x := by
  induction ls generalizing t with
  | nil => simp
  | cons a ls ih =>
    rw [List.foldl_cons, ih, tget?_tset]
    by_cases h : x ∈ ls
    · simp [h]
    · by_cases e : x = a <;> simp [h, e]

/-- Where the lanes of the stream stand after it spread: with the lowest active lane's code capability in the stream, with another alone. -/
theorem spread_stream (G : Group) (i : Issuer) (m : Lanes) (next : Nat → Cap) {l0 : Nat} {r : List Nat} (hm : lanesOf m = l0 :: r) {l : Nat}
    (hl : l ∈ lanesOf i.lanes) :
    ((G.spread 0 i m next).stream.lanes.getLsbD l = true ↔ next l = next l0) ∧
      ∃ j, (G.spread 0 i m next).laneIssuer l = some j ∧ j.goesOn l (next l) ∧ ((G.spread 0 i m next).stream.lanes.getLsbD l = false → j.lanes = laneBit l) := by
  have hlt := lanesOf_lt hl
  have hs : (G.spread 0 i m next).stream = { lanes := maskOf ((lanesOf i.lanes).filter fun x => next x == next l0), code := next l0, cl := none, wait := .go } := by
    simp only [Group.spread, hm]
  have hd : (G.spread 0 i m next).div = ((lanesOf i.lanes).filter fun x => next x != next l0).foldl
      (fun t x => tset t x { lanes := laneBit x, code := next x, cl := none, wait := .go }) G.div := by
    simp only [Group.spread, hm]
  have hb : (G.spread 0 i m next).stream.lanes.getLsbD l = decide (next l = next l0) := by
    rw [hs]
    refine (getLsbD_maskOf _ (fun x hx => lanesOf_lt (List.mem_of_mem_filter hx)) l).trans ?_
    simp [hl]
  refine ⟨by rw [hb]; exact decide_eq_true_iff, ?_⟩
  by_cases h : next l = next l0
  · refine ⟨_, by rw [Group.laneIssuer, Group.issuerOf, hb, if_pos (decide_eq_true h)]; rfl, ⟨?_, ?_, ?_, ?_⟩, fun hf => ?_⟩
    · rw [hs]
    · rw [hs]
    · rw [hb]; exact decide_eq_true h
    · rw [hs]; exact h.symm
    · rw [hb] at hf; exact absurd h (of_decide_eq_false hf)
  · have hg : tget? (G.spread 0 i m next).div l = some { lanes := laneBit l, code := next l, cl := none, wait := .go } := by
      rw [hd, tget?_foldl_tset]
      exact if_pos (List.mem_filter.mpr ⟨hl, by simp [h]⟩)
    refine ⟨{ lanes := laneBit l, code := next l, cl := none, wait := .go }, ?_, ⟨rfl, rfl, ?_, rfl⟩, fun _ => rfl⟩
    · rw [Group.laneIssuer, Group.issuerOf, hb, if_neg (by simp [h])]
      exact hg
    · simp [getLsbD_laneBit l l hlt]

/-- A lane that stood alone stands alone. -/
theorem spread_alone (G : Group) (l : Nat) (i : Issuer) (m : Lanes) (next : Nat → Cap) (hi : i.lanes = laneBit l) (hl : l < 64)
    (hs : G.stream.lanes.getLsbD l = false) :
    ∃ j, (G.spread (l + 1) i m next).laneIssuer l = some j ∧ j.goesOn l (next l) := by
  have he : G.spread (l + 1) i m next = { G with div := tset G.div l { lanes := i.lanes, code := next l, cl := none, wait := .go, buf := i.buf } } := by
    unfold Group.spread
    split
    · contradiction
    · next h => cases h; rfl
    · contradiction
  rw [he]
  refine ⟨{ lanes := i.lanes, code := next l, cl := none, wait := .go, buf := i.buf }, ?_, rfl, rfl, ?_, rfl⟩
  · simp only [Group.laneIssuer, Group.issuerOf, hs]
    exact tget?_tset_self ..
  · simp [hi, getLsbD_laneBit l l hl]

end Sys2Proof.Machine
end

section
/-!
PROOFS. O12 and O13: a transfer of each form, and the lanes of its issuer after it.
-/

namespace Sys2Proof.Machine

/-! ### A transfer without a fault -/

/-- The words that a lane's register operands hold. -/
def Group.wordsOf (G : Group) (ops : List Opd) (l : Nat) : List Word :=
  (ops.flatMap fun o => o.regs.map fun r => (G.cell r l).getD (.val 0#32)).map VCell.word

namespace Cur.byOne

variable {c : Cur} {s : State} {r : IRef} {i : Issuer} {cl : Clause} {G : Group} {m : Lanes}

theorem issuer (h : c.byOne s r i cl G m) : s.issuer? r = some i := by
  rw [State.issuer?, h.grp]
  exact h.iss

theorem readOps (h : c.byOne s r i cl G m) {ops : List Opd} (hr : ∀ o ∈ ops, o.isReg = true) :
    readOps s c ops = [(r.gidx, (lanesOf m).map fun l => (l, ops.flatMap fun o => o.regs.map fun r => (G.cell r l).getD (.val 0#32)))] := by
  have hm : (m == 0#64) = false := beq_false_of_ne h.nz
  rw [readOps_regs s c ops hr, h.act, h.blk]
  simp only [List.filterMap_cons, List.filterMap_nil, hm, h.grp, Option.map_some, Bool.false_eq_true, if_false]

theorem opsOf (h : c.byOne s r i cl G m) {ops : List Opd} (hr : ∀ o ∈ ops, o.isReg = true) (l : Nat) :
    s.opsOf c ops r.gidx l = if l ∈ lanesOf m then some (G.wordsOf ops l) else none := by
  have hlk (ls : List Nat) : tget? (ls.map fun l => (l, ops.flatMap fun o => o.regs.map fun r => (G.cell r l).getD (.val 0#32))) l =
      if l ∈ ls then some (ops.flatMap fun o => o.regs.map fun r => (G.cell r l).getD (.val 0#32)) else none := by
    induction ls with
    | nil => rfl
    | cons a ls ih =>
      rw [List.map_cons, tget?, ih]
      by_cases e : a = l
      · subst e; simp
      · simp [e, Ne.symm e]
  rw [State.opsOf, h.readOps hr]
  simp only [tget?, if_true, Option.bind_some, hlk, Group.wordsOf]
  split <;> rfl

theorem consume (h : c.byOne s r i cl G m) {ops : List Opd} (hr : ∀ o ∈ ops, o.isReg = true) :
    consume s c ops = s.modGroup r.blk r.gidx fun K => K.freeOps ops (lanesOf m) := by
  have hm : (m != 0#64) = true := bne_iff_ne.mpr h.nz
  rw [consume_regs s c ops hr, h.act, h.blk]
  simp only [List.filter_cons, List.filter_nil, hm, if_true, List.foldl_cons, List.foldl_nil]

theorem empty (h : c.byOne s r i cl G m) : c.empty = false := by
  have hm : (m == 0#64) = false := beq_false_of_ne h.nz
  simp [Cur.empty, h.act, hm]

/-- A diverged issuer's active lanes are its one lane. -/
theorem alone (h : c.byOne s r i cl G m) {l : Nat} (hl : r.iss = l + 1) : lanesOf m = [l] ∧ lanesOf i.lanes = [l] := by
  obtain ⟨hi, hlt, -⟩ := h.own l hl
  have key (x : Lanes) (hx : x ≠ 0#64) (hs : ∀ j, x.getLsbD j = true → j = l) : lanesOf x = [l] := by
    have hmem : ∀ j ∈ lanesOf x, j = l := fun j hj => hs j (mem_lanesOf.mp hj)
    have hne : lanesOf x ≠ [] := by
      intro he
      apply hx
      apply BitVec.eq_of_getLsbD_eq
      intro j hj
      have : j ∉ lanesOf x := by rw [he]; exact List.not_mem_nil
      rw [mem_lanesOf] at this
      simpa using this
    have hn := lanesOf_nodup x
    match hlx : lanesOf x with
    | [] => exact absurd hlx hne
    | [a] => rw [hmem a (hlx ▸ .head _)]
    | a :: b :: t =>
      rw [hlx] at hmem hn
      have : a = b := (hmem a (.head _)).trans (hmem b (.tail _ (.head _))).symm
      exact absurd (this ▸ .head _) (List.nodup_cons.mp hn).1
  have hsub : ∀ j, m.getLsbD j = true → i.lanes.getLsbD j = true := by
    intro j hj
    have h2 : (m &&& i.lanes).getLsbD j = true := by rw [h.sub]; exact hj
    rw [BitVec.getLsbD_and] at h2
    exact (Bool.and_eq_true_iff.mp h2).2
  have hbit : ∀ j, i.lanes.getLsbD j = true → j = l := by
    intro j hj
    rw [hi, getLsbD_laneBit l j hlt] at hj
    exact of_decide_eq_true hj
  refine ⟨key m h.nz fun j hj => hbit j (hsub j hj), key i.lanes (fun e => h.nz ?_) hbit⟩
  rw [← h.sub, e, BitVec.and_zero]

end Cur.byOne

/-- Where a lane of the issuer goes on: an active lane at its own place, another past the clause. -/
def nextCode (i : Issuer) (cl : Clause) (m : Lanes) (k : Nat → Cap) (l : Nat) : Cap := if l ∈ lanesOf m then k l else i.code.setCur cl.fall

/-- The issuer's group after a transfer: operands freed, each active lane's writes made, and its lanes spread. -/
def Group.transferred (G : Group) (r : IRef) (i : Issuer) (cl : Clause) (m : Lanes) (ops : List Opd) (d : Dst) (f : Nat → Group → Group)
    (k : Nat → Cap) : Group :=
  (((lanesOf m).foldl (fun K l => f l K) (G.freeOps ops (lanesOf m))).dirty d.regs).spread r.iss i m (nextCode i cl m k)

theorem find?_beq_self (ls : List Nat) (l : Nat) : ls.find? (fun x => x == l) = if l ∈ ls then some l else none := by
  induction ls with
  | nil => rfl
  | cons a ls ih =>
    rw [List.find?_cons, ih]
    by_cases e : a = l
    · simp [e]
    · simp [beq_false_of_ne e, Ne.symm e]

theorem outside_passed {s u : State} (h : outside s u) (b n : Nat) : outside s { bumpRc u b n with cur := none } :=
  outside_trans h (outside_modBlock u b (fun B => { B with rc := min (B.rc + n) (2 ^ 32 - 1) }) fun _ => rfl)

/-- A transfer that meets no fault and waits for nothing. -/
theorem transferOp_ok {c : Cur} {s : State} {r : IRef} {i : Issuer} {cl : Clause} {G : Group} {m : Lanes} (h : c.byOne s r i cl G m) {ops : List Opd}
    (hr : ∀ o ∈ ops, o.isReg = true) {d : Dst} (hrdy : ready? s c ops d false = none)
    {go : Issuer → Clause → Group → Nat → List Word → Except (Nat × Nat) (Cap × (Group → Group))} {f : Nat → Group → Group} {k : Nat → Cap}
    (hgo : ∀ l ∈ lanesOf m, go i cl G l (G.wordsOf ops l) = .ok (k l, f l)) :
    ∃ t, transferOp ops d go s = .next t ∧ t.cur = none ∧ outside s t ∧ othersKept (gkey r.blk r.gidx) s t ∧
      t.grp? r.blk r.gidx = some (G.transferred r i cl m ops d f k) := by
  have hres : (readOps s c ops).flatMap (fun (g, ls) => ls.map fun (l, xs) => (g, l, go i cl G l (xs.map VCell.word))) =
      (lanesOf m).map fun l => (r.gidx, l, .ok (k l, f l)) := by
    rw [h.readOps hr]
    simp only [List.flatMap_cons, List.flatMap_nil, List.append_nil, List.map_map]
    exact List.map_congr_left fun l hl => by simp only [Function.comp]; rw [← hgo l hl]; rfl
  have hact : ((c.act.find? fun a => a.1 == r.gidx).map (·.2)).getD 0#64 = m := by simp [h.act]
  refine ⟨{ bumpRc ((chargeWord 0x08 .issue (consume s c ops)).modGroup r.blk r.gidx fun K =>
    (((lanesOf m).foldl (fun K l => f l K) K).dirty d.regs).spread r.iss i m (nextCode i cl m k)) r.blk 1 with cur := none }, ?_, rfl, ?_, ?_, ?_⟩
  · unfold transferOp
    simp only [h.cur, h.empty, hrdy, h.arr, List.headD_cons, h.issuer, h.at', h.grp, hres, Bool.false_eq_true, if_false]
    simp only [List.filterMap_map, Function.comp_def, List.filterMap_none, List.isEmpty_nil, Bool.not_true, Bool.false_eq_true, if_false, List.foldl_map,
      List.find?_map, find?_beq_self, hact]
    refine congrArg (fun K => Host.Outcome.next { bumpRc ((chargeWord 0x08 .issue (consume s c ops)).modGroup r.blk r.gidx K) r.blk 1 with cur := none })
      (funext fun K => ?_)
    refine congrArg (Group.spread _ r.iss i m) (funext fun l => ?_)
    by_cases hl : l ∈ lanesOf m
    · simp only [nextCode, hl, if_true, Option.map_some]
    · simp only [nextCode, hl, if_false, Option.map_none]
  · refine outside_passed ?_ r.blk 1
    rw [h.consume hr]
    exact outside_trans (outside_trans (outside_modGroup ..) (outside_chargeWord ..)) (outside_modGroup ..)
  · intro j hj
    refine (tget?_tmod_ne _ _ hj).trans ?_
    rw [groups_chargeWord, h.consume hr]
    exact tget?_tmod_ne _ _ hj
  · refine (tget?_tmod_self ..).trans ?_
    rw [groups_chargeWord, h.consume hr]
    simp only [State.modGroup, tget?_tmod_self]
    rw [show tget? s.groups (gkey r.blk r.gidx) = some G from h.grp]
    rfl

end Sys2Proof.Machine
end

section
/-!
PROOFS. O12 and O13: the eight transfers.
-/

namespace Sys2Proof

open Machine

/-! ### What a transfer writes in a lane -/

/-- A transfer's writes in lane l: its link, or its counter. -/
def Transfer.write (T : Transfer) (link : Cap) (xs : List Word) (l : Nat) (K : Group) : Group :=
  if T.link then K.putQuad T.d l link else match T.words xs with
    | [] => K
    | w :: _ => K.putWord T.d l w

/-- A transfer's operands are registers, and its writes fall on its destination. -/
structure Transfer.wellMade (T : Transfer) : Prop where
  regs : ∀ o ∈ T.ops, o.isReg = true
  lane : ∀ link xs l, l < 64 → writesLane T.dst.regs l (T.write link xs l)
  words : ∀ link xs l K j w, (T.words xs)[j]? = some w → (T.write link xs l K).cell (T.d + j) l = some (.val w)
  tags : ∀ link xs l K n, l < 64 → (∃ q ∈ T.dst.regs, q / 4 = n) → ¬(T.link = true ∧ n = T.d / 4) → (T.write link xs l K).vtag n l = false

/-- A transfer that writes nothing. -/
theorem Transfer.wellMade.silent {T : Transfer} (hr : ∀ o ∈ T.ops, o.isReg = true) (hd : T.dst = .none) (hl : T.link = false) (hw : T.words = fun _ => []) :
    T.wellMade := by
  have he : ∀ link xs l, T.write link xs l = id := by
    intro link xs l
    funext K
    simp [Transfer.write, hl, hw]
  refine ⟨hr, fun link xs l _ => ?_, fun link xs l K j w h => ?_, fun link xs l K n _ h => ?_⟩
  · rw [he]; exact writesLane_id ..
  · rw [hw] at h; cases h
  · rw [hd] at h; obtain ⟨q, hq, -⟩ := h; cases hq

/-- A call. -/
theorem Transfer.wellMade.link {T : Transfer} {a : BitVec 6} (hr : ∀ o ∈ T.ops, o.isReg = true) (hd : T.dst = .r a 4) (ha : T.d = a.toNat)
    (hl : T.link = true) (hw : T.words = fun _ => []) : T.wellMade := by
  have he : ∀ link xs l, T.write link xs l = fun K => K.putQuad a.toNat l link := by
    intro link xs l
    funext K
    simp [Transfer.write, hl, ha]
  refine ⟨hr, fun link xs l h => ?_, fun link xs l K j w h => ?_, fun link xs l K n hlt h hn => ?_⟩
  · rw [he, hd]; exact writesLane_putQuad _ _ _ h
  · rw [hw] at h; cases h
  · rw [he]
    rw [hd] at h
    obtain ⟨q, hq, hqn⟩ := h
    have hna : n ≠ a.toNat / 4 := fun e => hn ⟨hl, e.trans (by rw [ha])⟩
    obtain ⟨j, hj, rfl⟩ := List.mem_map.mp hq
    have hj := List.mem_range.mp hj
    simp only [putQuad_eq, Group.putWord, vtag_setVtag _ _ _ _ _ _ hlt, vtag_putCell _ _ _ _ _ _ hlt, hna, if_false, and_true]
    subst hqn
    interval_cases j <;> simp

/-- A counter. -/
theorem Transfer.wellMade.count {T : Transfer} {a : BitVec 6} {f : List Word → Word} (hr : ∀ o ∈ T.ops, o.isReg = true) (hd : T.dst = .r a 1)
    (ha : T.d = a.toNat) (hl : T.link = false) (hw : T.words = fun xs => [f xs]) : T.wellMade := by
  have he : ∀ link xs l, T.write link xs l = fun K => K.putWord a.toNat l (f xs) := by
    intro link xs l
    funext K
    simp [Transfer.write, hl, hw, ha]
  have hregs : T.dst.regs = [a.toNat] := by rw [hd]; simp [Dst.regs]
  refine ⟨hr, fun link xs l h => ?_, fun link xs l K j w h => ?_, fun link xs l K n hlt h _ => ?_⟩
  · rw [he, hregs]; exact writesLane_putWord _ _ _ h _ (.head _)
  · rw [hw] at h
    match j, h with
    | 0, h =>
      cases h
      rw [he, ha]
      exact (cell_putCell ..).trans (if_pos ⟨rfl, rfl⟩)
  · rw [hregs] at h
    obtain ⟨q, hq, rfl⟩ := h
    rw [List.mem_singleton.mp hq, he]
    exact (vtag_putCell _ _ _ _ _ _ hlt).trans (if_pos ⟨rfl, rfl⟩)

theorem transferForm_wellMade {ins : Instr} {T : Transfer} (h : transferForm ins = some T) : T.wellMade := by
  unfold transferForm at h
  split at h <;> cases h
  · exact .silent (fun _ h => nomatch h) rfl rfl rfl
  · exact .silent (fun _ h => nomatch h) rfl rfl rfl
  · exact .silent (fun _ h => nomatch h) rfl rfl rfl
  · exact .silent (by simp [Opd.isReg]) rfl rfl rfl
  · exact .silent (by simp [Opd.isReg]) rfl rfl rfl
  · exact .link (fun _ h => nomatch h) rfl rfl rfl rfl
  · exact .link (by simp [Opd.isReg]) rfl rfl rfl rfl
  · exact .count (by simp [Opd.isReg]) rfl rfl rfl rfl

/-! ### Where a transfer goes -/

theorem installCode_of {k k' : Cap} (h : installed k = some k') : installCode k = .ok k' := by
  unfold installed at h
  split at h
  · next hk =>
    cases h
    obtain ⟨h1, h2, h3, h4, h5⟩ := hk
    unfold installCode
    rw [if_neg (by simp [h1]), if_neg (by simp [h2]), if_neg (by simp [h3]), if_neg (by omega)]
  · cases h

theorem target_eq (cl : Clause) (t : BitVec 16) : target cl t = targetOf cl t := rfl

theorem fall_eq (cl : Clause) : cl.fall = fallOf cl := rfl

theorem linkCap_eq (s : State) (b : Nat) (i : Issuer) (cl : Clause) : linkCap s b i (fallOf cl) = linkOf s b i cl := rfl

/-- A transfer's instruction is the transfer, with the capability that R154 and R155 name for each lane. -/
theorem exec_transfer {ins : Instr} {T : Transfer} (hT : transferForm ins = some T) {s : State} {c : Cur} (hc : s.cur = some c) (G : Group) (i : Issuer)
    (cl : Clause) : ∃ go, exec ins s = transferOp T.ops T.dst go s ∧
      ∀ l xs k, T.dest G i cl l xs = some k → go i cl G l xs = .ok (k, T.write (linkOf s c.blk i cl) xs l) := by
  unfold transferForm at hT
  have hb : curBlk s = c.blk := by simp [curBlk, hc]
  split at hT <;> cases hT
  case h_1 => exact ⟨_, exec_jmp s, fun l xs k hk => by cases hk; rfl⟩
  case h_2 => exact ⟨_, exec_bra s, fun l xs k hk => by cases hk; rfl⟩
  case h_3 => exact ⟨_, exec_bru s, fun l xs k hk => by cases hk; rfl⟩
  case h_4 => exact ⟨_, exec_jmpc s, fun l xs k hk => by simp only [installCode_of hk]; rfl⟩
  case h_5 => exact ⟨_, exec_ret s, fun l xs k hk => by simp only [installCode_of hk]; rfl⟩
  case h_6 =>
    refine ⟨_, exec_call s, fun l xs k hk => ?_⟩
    simp only [target_eq, fall_eq, hb, linkCap_eq, Option.some.inj hk]
    exact congrArg (fun f => Except.ok (k, f)) (funext fun K => by rw [Transfer.write, if_pos rfl])
  case h_7 =>
    refine ⟨_, exec_callc s, fun l xs k hk => ?_⟩
    simp only [installCode_of hk, fall_eq, hb, linkCap_eq, Except.map]
    exact congrArg (fun f => Except.ok (k, f)) (funext fun K => by rw [Transfer.write, if_pos rfl])
  case h_8 =>
    refine ⟨_, exec_loop s, fun l xs k hk => ?_⟩
    simp only [List.headD_eq_head?_getD, List.head?_eq_getElem?, ← List.getD_eq_getElem?_getD, target_eq, fall_eq]
    cases hk
    rfl

/-! ### The issuer's group after a transfer -/

/-- Spreading moves issuers and nothing else of a group. -/
theorem spread_eq (K : Group) (x : Nat) (i : Issuer) (m : Lanes) (next : Nat → Cap) :
    K.spread x i m next = { K with stream := (K.spread x i m next).stream, div := (K.spread x i m next).div } := by
  unfold Group.spread
  split <;> rfl

theorem cell_spread (K : Group) (x : Nat) (i : Issuer) (m : Lanes) (next : Nat → Cap) (q l : Nat) : (K.spread x i m next).cell q l = K.cell q l := by
  rw [spread_eq]; rfl

theorem vtag_spread (K : Group) (x : Nat) (i : Issuer) (m : Lanes) (next : Nat → Cap) (q l : Nat) : (K.spread x i m next).vtag q l = K.vtag q l := by
  rw [spread_eq]; rfl

theorem noIss_spread (K : Group) (x : Nat) (i : Issuer) (m : Lanes) (next : Nat → Cap) : (K.spread x i m next).noIss = K.noIss := by
  rw [spread_eq]; rfl

section
variable {c : Cur} {s : State} {r : IRef} {i : Issuer} {cl : Clause} {G : Group} {m : Lanes}

/-- Each lane of the issuer goes on at its next clause. -/
theorem spread_lane (h : c.byOne s r i cl G m) {K : Group} (hK : G.sameButV K) (next : Nat → Cap) {l : Nat} (hl : l ∈ lanesOf i.lanes) :
    ∃ j, (K.spread r.iss i m next).laneIssuer l = some j ∧ j.goesOn l (next l) := by
  match hx : r.iss with
  | 0 =>
    match hm : lanesOf m with
    | [] =>
      exact absurd (BitVec.eq_of_getLsbD_eq fun j _ => by
        have : j ∉ lanesOf m := by rw [hm]; exact List.not_mem_nil
        rw [mem_lanesOf] at this
        simpa using this) h.nz
    | _ :: _ =>
      obtain ⟨-, j, hj, hgo, -⟩ := spread_stream K i m next hm hl
      exact ⟨j, hj, hgo⟩
  | x + 1 =>
    obtain ⟨hi, hlt, hs⟩ := h.own x hx
    rw [(h.alone hx).2, List.mem_singleton] at hl
    subst hl
    exact spread_alone K l i m next hi hlt (by rw [hK.stream]; exact hs)

/-- A transfer of R154 or R155 without a fault: its group is K with the lanes spread, where K differs from the group before in what the transfer
frees and writes. -/
theorem transfer_moves {ins : Instr} {T : Transfer} (hT : transferForm ins = some T) (h : c.byOne s r i cl G m)
    (hrdy : ready? s c T.ops T.dst false = none) (hd : ∀ l ∈ lanesOf m, ∀ xs, s.opsOf c T.ops r.gidx l = some xs → (T.dest G i cl l xs).isSome) :
    ∃ t k K, exec ins s = .next t ∧ t.cur = none ∧ outside s t ∧ othersKept (gkey r.blk r.gidx) s t ∧
      t.grp? r.blk r.gidx = some (K.spread r.iss i m (nextCode i cl m k)) ∧ G.sameButV K ∧
      (∀ l ∈ lanesOf m, T.dest G i cl l (G.wordsOf T.ops l) = some (k l)) ∧
      (∀ l ∈ lanesOf m, ∃ L, (G.freeOps T.ops (lanesOf m)).sameLane L l ∧ (T.write (linkOf s r.blk i cl) (G.wordsOf T.ops l) l L).sameLane K l) ∧
      ∀ l ∉ lanesOf m, (G.freeOps T.ops (lanesOf m)).sameLane K l := by
  have hw := transferForm_wellMade hT
  obtain ⟨go, he, hgo⟩ := exec_transfer hT h.cur G i cl
  have hk : ∀ l ∈ lanesOf m, T.dest G i cl l (G.wordsOf T.ops l) = some ((T.dest G i cl l (G.wordsOf T.ops l)).getD Cap.null) := by
    intro l hl
    obtain ⟨k, hk⟩ := Option.isSome_iff_exists.mp (hd l hl _ ((h.opsOf hw.regs l).trans (if_pos hl)))
    rw [hk]
    rfl
  have hlane : ∀ l ∈ lanesOf m, writesLane T.dst.regs l (T.write (linkOf s r.blk i cl) (G.wordsOf T.ops l) l) :=
    fun l hl => hw.lane _ _ l (lanesOf_lt hl)
  obtain ⟨t, ht, hcur, hout, hoth, hg⟩ := transferOp_ok (k := fun l => (T.dest G i cl l (G.wordsOf T.ops l)).getD Cap.null)
    (f := fun l => T.write (linkOf s r.blk i cl) (G.wordsOf T.ops l) l) h hw.regs hrdy
    fun l hl => (hgo l _ _ (hk l hl)).trans (by rw [h.blk])
  obtain ⟨hin, hnot⟩ := foldl_writesLane (lanesOf m) (lanesOf_nodup m) hlane (G.freeOps T.ops (lanesOf m))
  refine ⟨t, _, _, he.trans ht, hcur, hout, hoth, hg, ?_, hk, hin, hnot⟩
  exact ((Group.sameButV.freeOps ..).trans (.foldl _ (fun l hl => (hlane l hl).same) _)).trans (.dirty ..)

end

/-- Settles O13: the next capabilities decide who stays with the lowest active lane. -/
theorem streamSpreads : Obligations.StreamSpreads := by
  unfold Obligations.StreamSpreads
  intro ins T s c r i cl G m l0 hT h h0 hrdy hd hl0
  obtain ⟨t, k, K, ht, -, -, -, hg, hK, -⟩ := transfer_moves hT h hrdy hd
  obtain ⟨rest, hm⟩ : ∃ rest, lanesOf m = l0 :: rest := by
    cases hx : lanesOf m with
    | nil => rw [hx] at hl0; cases hl0
    | cons a rest => rw [hx] at hl0; cases hl0; exact ⟨rest, rfl⟩
  have hmem : l0 ∈ lanesOf i.lanes := by
    have hin : m.getLsbD l0 = true := mem_lanesOf.mp (hm ▸ .head _)
    rw [← h.sub, BitVec.getLsbD_and] at hin
    exact mem_lanesOf.mpr (Bool.and_eq_true_iff.mp hin).2
  rw [h0] at hg
  obtain ⟨hs0, j0, hj0, ⟨-, -, -, hc0⟩, -⟩ := spread_stream K i m (nextCode i cl m k) hm hmem
  refine ⟨t, _, j0, ht, hg, hs0.mpr rfl, hj0, fun l hl => ?_⟩
  obtain ⟨hs, j, hj, ⟨-, -, -, hc⟩, hlone⟩ := spread_stream K i m (nextCode i cl m k) hm hl
  exact ⟨j, hj, by rw [hc, hc0]; exact hs, hlone⟩

/-- Settles O12. -/
theorem controlTransfers : Obligations.ControlTransfers := by
  unfold Obligations.ControlTransfers
  intro ins T s c r i cl G m hT h hrdy hd
  have hw := transferForm_wellMade hT
  obtain ⟨t, k, K, ht, hcur, hout, hoth, hg, hK, hk, hin, hnot⟩ := transfer_moves hT h hrdy hd
  obtain ⟨-, hf1, hf2, hf3, hf4⟩ := freeOps_spec G T.ops (lanesOf m) fun l hl => lanesOf_lt hl
  have hx (l : Nat) (hl : l ∈ lanesOf m) (xs : List Word) (hxs : s.opsOf c T.ops r.gidx l = some xs) : xs = G.wordsOf T.ops l := by
    rw [h.opsOf hw.regs, if_pos hl] at hxs
    exact (Option.some.inj hxs).symm
  have hnone (l : Nat) (hl : l ∉ lanesOf m) : s.opsOf c T.ops r.gidx l = none := (h.opsOf hw.regs l).trans (if_neg hl)
  refine ⟨t, _, ht, hcur, hg, hout, hoth, ?_, fun l hl => ?_, fun l hl hlm => ?_, fun l hl xs hxs => ?_, fun q l hq => ?_, fun n l hn => ?_, fun q l hl hq => ?_⟩
  · rw [noIss_spread]
    exact hK.bare
  · obtain ⟨j, hj, hcl, hwt, hb, hc⟩ := spread_lane h hK (nextCode i cl m k) hl
    refine ⟨j, hj, hcl, hwt, hb, fun xs hxs => ?_⟩
    by_cases hlm : l ∈ lanesOf m
    · rw [hx l hlm xs hxs, hk l hlm, hc, nextCode, if_pos hlm]
    · rw [hnone l hlm] at hxs; cases hxs
  · obtain ⟨j, hj, -, -, -, hc⟩ := spread_lane h hK (nextCode i cl m k) hl
    refine ⟨j, hj, ?_⟩
    rw [hc, nextCode, if_neg hlm]
    rfl
  · obtain ⟨L, -, hLK⟩ := hin l hl
    rw [hx l hl xs hxs]
    refine ⟨fun j w hj => ?_, fun hlink => ?_⟩
    · rw [cell_spread, hLK.1]
      exact hw.words _ _ _ _ _ _ hj
    · refine quadIs_of_sameLane ⟨fun q => cell_spread .., fun n => vtag_spread ..⟩ (quadIs_of_sameLane hLK ?_)
      rw [Transfer.write, if_pos hlink]
      exact quadIs_putQuad _ _ _ _ (lanesOf_lt hl)
  · rw [cell_spread]
    by_cases hl : l ∈ lanesOf m
    · obtain ⟨L, hL, hLK⟩ := hin l hl
      rw [hLK.1, (hw.lane _ _ l (lanesOf_lt hl)).cell L q l fun e => hq ⟨hl, .inl e.2⟩, hL.1]
      exact hf2 q l fun e => hq ⟨hl, .inr e.1⟩
    · rw [(hnot l hl).1]
      exact hf2 q l fun e => hl e.2
  · rw [vtag_spread]
    by_cases hl : l ∈ lanesOf m
    · obtain ⟨L, hL, hLK⟩ := hin l hl
      rw [hLK.2, (hw.lane _ _ l (lanesOf_lt hl)).vtag L n l fun ⟨_, q, hqn, hqr⟩ => hn ⟨hl, q, hqn, .inl hqr⟩, hL.2]
      exact hf4 n l fun ⟨⟨q, hqf, hqn⟩, _⟩ => hn ⟨hl, q, hqn, .inr hqf⟩
    · rw [(hnot l hl).2]
      exact hf4 n l fun e => hl e.2
  · rw [vtag_spread]
    obtain ⟨L, hL, hLK⟩ := hin l hl
    rw [hLK.2]
    by_cases hd : ∃ x ∈ T.dst.regs, x / 4 = q / 4
    · refine hw.tags _ _ l L (q / 4) (lanesOf_lt hl) hd ?_
      rintro ⟨hlink, hqd⟩
      rcases hq with ⟨-, hno⟩ | ⟨-, -, hno⟩
      · rw [hlink] at hno; cases hno
      · exact hno ⟨hlink, hqd⟩
    · rw [(hw.lane _ _ l (lanesOf_lt hl)).vtag L (q / 4) l fun ⟨_, x, hxq, hxr⟩ => hd ⟨x, hxr, hxq⟩, hL.2]
      rcases hq with ⟨hqd, -⟩ | ⟨-, hqf, -⟩
      · exact absurd ⟨q, hqd, rfl⟩ hd
      · exact hf3 (q / 4) l ⟨⟨q, hqf, rfl⟩, hl⟩

end Sys2Proof
end

section
/-!
PROOFS. O33: fetches, turns, and what comes about at the end of a turn (R22, R31, R44, R45, R49, R65).
-/

namespace Sys2Proof.Machine

/-! ### What charging and passing time leave (R298, R307) -/

/-- Nothing but meters, dies and energy accounts differs, and no byte of a weight store. -/
structure metered (s t : State) : Prop where
  rest : { t with reft := s.reft, energy := s.energy, dies := s.dies, ctxs := s.ctxs, worlds := s.worlds, launches := s.launches } = s
  reft : t.reft = s.reft
  ws : ∀ d, (t.die d).ws = (s.die d).ws

namespace metered

theorem refl (s : State) : metered s s := ⟨rfl, rfl, fun _ => rfl⟩

theorem trans {s t u : State} (h : metered s t) (h' : metered t u) : metered s u where
  rest := (congrArg (fun x : State =>
    { x with reft := s.reft, energy := s.energy, dies := s.dies, ctxs := s.ctxs, worlds := s.worlds, launches := s.launches }) h'.rest :).trans h.rest
  reft := h'.reft.trans h.reft
  ws d := (h'.ws d).trans (h.ws d)

theorem foldl {α : Type} {f : State → α → State} (hf : ∀ s a, metered s (f s a)) (l : List α) (s : State) : metered s (l.foldl f s) := by
  induction l generalizing s with
  | nil => exact refl s
  | cons a r ih => exact (hf s a).trans (ih _)

theorem groups {s t : State} (h : metered s t) : t.groups = s.groups := (congrArg State.groups h.rest :)

theorem blocks {s t : State} (h : metered s t) : t.blocks = s.blocks := (congrArg State.blocks h.rest :)

theorem mem {s t : State} (h : metered s t) : t.mem = s.mem := (congrArg State.mem h.rest :)

theorem cur {s t : State} (h : metered s t) : t.cur = s.cur := (congrArg State.cur h.rest :)

theorem sandbox {s t : State} (h : metered s t) : t.sandbox = s.sandbox := (congrArg State.sandbox h.rest :)

theorem bytes {s t : State} (h : metered s t) : bytesKept s t
  | .hbm a => by simp only [State.byteAt, h.mem]
  | .spm b a => by simp only [State.byteAt, blockSpm, h.blocks]
  | .ws d a => by simp only [State.byteAt, h.ws]

theorem adjust (s : State) (p la : Nat) (amt : Int) : metered s (adjust s p la amt) := by
  unfold Machine.adjust
  dsimp only
  split <;> exact ⟨rfl, rfl, fun _ => rfl⟩

theorem adjustOver (s : State) (dom : Nat) (amt : Int) : metered s (adjustOver s dom amt) := by
  unfold Machine.adjustOver
  split
  · refine ⟨rfl, rfl, fun d => ?_⟩
    rw [State.die_modDie]
    split
    · next h => rw [h]
    · rfl
  · exact ⟨rfl, rfl, fun _ => rfl⟩

theorem setEnergy (s : State) (e : Energy) : metered s { s with energy := e } := ⟨rfl, rfl, fun _ => rfl⟩

theorem modWorld (s : State) (w : Nat) (f : World → World) : metered s (s.modWorld w f) := ⟨rfl, rfl, fun _ => rfl⟩

theorem applyCharge (s : State) (c : Charge) : metered s (applyCharge s c) := by
  unfold Machine.applyCharge
  split
  · exact refl s
  · dsimp only
    split
    · exact (setEnergy s _).trans ((modWorld _ _ _).trans (adjust ..))
    · exact (setEnergy s _).trans (adjustOver ..)

theorem charge (s : State) (die cls n : Nat) (acct : Option Nat) (la : Nat) : metered s (charge s die cls n acct la) := applyCharge ..

end metered

/-- A die as time advances. -/
theorem ws_relocked (D : Die) (d now : Nat) : (D.relocked d now).ws = D.ws := by
  unfold Die.relocked Die.record
  split
  · dsimp only
    split_ifs <;> rfl
  · rfl

theorem tgetD_foldl_tset {α : Type} (f : α → Nat → α) (z : α) (g : α → β) (hg : ∀ x d, g (f x d) = g x) (l : List Nat) (t : Tab α) (k : Nat) :
    g (tgetD (l.foldl (fun t d => tset t d (f (tgetD t d z) d)) t) k z) = g (tgetD t k z) := by
  induction l generalizing t with
  | nil => rfl
  | cons d l ih =>
    rw [List.foldl_cons, ih, tgetD_tset]
    split
    · next h => rw [h, hg]
    · rfl

/-- A die after some time. -/
def Die.elapsed (now ns : Nat) (x : Die) (d : Nat) : Die :=
  Die.relocked { x with cyc := x.cyc + stepMHz x.countStep * (ns - x.relockPart now ns), refresh := refreshBank (now + ns) } d (now + ns)

theorem elapse_eq (s : State) (ns : Nat) : elapse s ns = { s with
    reft := s.reft + ns
    dies := (List.range 24).foldl (fun t d => tset t d (Die.elapsed s.reft ns (tgetD t d Die.reset) d)) s.dies } := rfl

theorem ws_elapse (s : State) (ns d : Nat) : ((elapse s ns).die d).ws = (s.die d).ws := by
  rw [elapse_eq]
  unfold State.die
  dsimp only
  generalize List.range 24 = l
  exact tgetD_foldl_tset (Die.elapsed s.reft ns) Die.reset Die.ws (fun x d => ws_relocked _ d _) l s.dies d

/-- Time that passes moves REFT, the dies' clocks and the accounts. -/
theorem passTime_passes (s : State) (ns : Nat) : metered (elapse s ns) (passTime s ns) := by
  unfold passTime
  dsimp only
  refine metered.foldl (fun t b => ?_) _ _
  split
  · exact .refl t
  · exact .charge ..

theorem step_elapse (s : State) (n : Nat) (rest : List Turn) (h : s.agenda = .elapse n :: rest) :
    ∃ t, step s = .next (settle t) ∧ t.reft = s.reft + n ∧ bytesKept s t ∧ t.groups = s.groups := by
  have hp := passTime_passes { s with agenda := rest } n
  refine ⟨passTime { s with agenda := rest } n, by unfold step; rw [h]; rfl, hp.reft, fun a => (hp.bytes a).trans ?_, hp.groups⟩
  cases a with
  | hbm a => rfl
  | spm b a => rfl
  | ws d a => exact congrArg (cellsGet · a) (ws_elapse { s with agenda := rest } n d)

end Sys2Proof.Machine
end

section
/-!
PROOFS. O33: a fetch, what an issuer wants to issue, and a turn of a word (R22, R31, R44, R45, R49, R65).
-/

namespace Sys2Proof.Machine

/-! ### Fetches (R44, R45) -/

theorem leNat_word (s : State) (hi : s.mem.images = []) (a : Nat) : leNat (physRead s a 4) =
    (s.byteAt (.hbm a)).toNat + 2 ^ 8 * (s.byteAt (.hbm (a + 1))).toNat + 2 ^ 16 * (s.byteAt (.hbm (a + 2))).toNat +
      2 ^ 24 * (s.byteAt (.hbm (a + 3))).toNat := by
  have h : physRead s a 4 = [s.byteAt (.hbm (a + 0)), s.byteAt (.hbm (a + 1)), s.byteAt (.hbm (a + 2)), s.byteAt (.hbm (a + 3))] := by
    simp only [physRead, physByte_of_images hi]
    rfl
  rw [h]
  simp only [leNat, List.foldr_cons, List.foldr_nil, Nat.add_zero]
  omega

theorem foldl_codeWord (grid : Nat) (l : List Nat) (u : State) (hl : ∀ a ∈ l, tgetD u.mem.stamp (a / 4) 0 ≤ grid) (acc : List Word) :
    l.foldl (fun (acc : List Word × State) h => let (w, s) := codeWord acc.2 h grid; (acc.1 ++ [w], s)) (acc, u) =
      (acc ++ l.map fun a => BitVec.ofNat 32 (leNat (physRead u a 4)), u) := by
  induction l generalizing acc with
  | nil => simp
  | cons a l ih =>
    have ha : codeWord u a grid = (BitVec.ofNat 32 (leNat (physRead u a 4)), u) := by
      rw [codeWord, if_pos (hl a (.head _))]
    rw [List.foldl_cons, ha]
    dsimp only
    rw [ih (fun b hb => hl b (.tail _ hb))]
    simp

/-- A fetch gives the little-endian words of memory. -/
theorem fetchWords_bytes (s : State) (die pasid grid : Nat) (k : Cap) (a n x h mt : Nat) (u : State)
    (hc : capCheck (k.setCur a) 0 (4 * n) Perm.x = .ok x) (ht : translate s die pasid k x (4 * n) false true = .ok [(h, 4 * n, mt)] u)
    (hb : badLine u h (4 * n) = none) (hi : u.mem.images = []) (hs : ∀ j < n, tgetD u.mem.stamp ((h + 4 * j) / 4) 0 ≤ grid) :
    fetchWords s die pasid grid k a n = .ok ((List.range n).map fun j => BitVec.ofNat 32
      ((u.byteAt (.hbm (h + 4 * j))).toNat + 2 ^ 8 * (u.byteAt (.hbm (h + 4 * j + 1))).toNat + 2 ^ 16 * (u.byteAt (.hbm (h + 4 * j + 2))).toNat +
        2 ^ 24 * (u.byteAt (.hbm (h + 4 * j + 3))).toNat)) u := by
  have hhost : ([(h, 4 * n, mt)] : List (Nat × Nat × Nat)).flatMap (fun (h, m, _) => (List.range (m / 4)).map fun i => h + 4 * i) =
      (List.range n).map fun i => h + 4 * i := by
    simp
  unfold fetchWords
  simp only [hc, ht, List.findSome?_cons, List.findSome?_nil, hb, hhost]
  rw [foldl_codeWord grid _ u ?_ []]
  · simp only [List.nil_append, List.map_map, Function.comp_def, leNat_word u hi]
  · intro b hb
    obtain ⟨j, hj, rfl⟩ := List.mem_map.mp hb
    exact hs j (List.mem_range.mp hj)

/-! ### What an issuer wants to issue (R49) -/

/-- The sizes of the parts of an access add up to no more than the access. -/
theorem translateGo_sizes (die : Nat) (c : Ctx) (pasid : Nat) (k : Cap) (write cached : Bool) (fuel x n : Nat) (far : Option Nat)
    (acc : List (Nat × Nat × Nat)) (s : State) {ps : List (Nat × Nat × Nat)} {u : State}
    (h : translateGo die c pasid k write cached fuel x n far acc s = .ok ps u) : (ps.map (·.2.1)).sum ≤ (acc.map (·.2.1)).sum + n := by
  induction fuel generalizing x n far acc s with
  | zero =>
    cases far
    · unfold translateGo at h
      cases h
      simp
    · unfold translateGo at h
      cases h
  | succ fuel ih =>
    unfold translateGo at h
    split at h
    · cases far <;> cases h
      simp
    · split at h
      · cases h
      · have := ih _ _ _ _ _ h
        simp only [List.map_cons, List.sum_cons] at this
        omega
      · split at h
        · cases h
        · have := ih _ _ _ _ _ h
          simp only [List.map_cons, List.sum_cons] at this
          omega

theorem translate_sizes {s : State} {die pasid : Nat} {k : Cap} {x n : Nat} {write cached : Bool} {ps : List (Nat × Nat × Nat)} {u : State}
    (h : translate s die pasid k x n write cached = .ok ps u) : (ps.map (·.2.1)).sum ≤ n := by
  unfold translate at h
  split at h
  · cases h
  · split at h
    · cases h
    · have := translateGo_sizes _ _ _ _ _ _ _ _ _ _ _ _ h
      simpa using this

theorem codeWords_length (grid : Nat) (l : List Nat) (acc : List Word × State) :
    (l.foldl (fun (acc : List Word × State) h => let (w, s) := codeWord acc.2 h grid; (acc.1 ++ [w], s)) acc).1.length = acc.1.length + l.length := by
  induction l generalizing acc with
  | nil => rfl
  | cons a l ih =>
    rw [List.foldl_cons, ih]
    simp [Nat.add_assoc, Nat.add_comm]

/-- A fetch of n words gives no more than n. -/
theorem fetchWords_length {s : State} {die pasid grid : Nat} {k : Cap} {a n : Nat} {ws : List Word} {u : State}
    (h : fetchWords s die pasid grid k a n = .ok ws u) : ws.length ≤ n := by
  unfold fetchWords at h
  split at h
  · cases h
  · split at h
    · cases h
    · cases h
    · next ps s' htr =>
      split at h
      · cases h
      · cases h
        rw [codeWords_length, List.length_nil, Nat.zero_add, List.length_flatMap]
        have hs := translate_sizes htr
        have hle : ∀ l : List (Nat × Nat × Nat), 4 * (l.map fun p => ((List.range (p.2.1 / 4)).map fun i => p.1 + 4 * i).length).sum ≤ (l.map (·.2.1)).sum := by
          intro l
          induction l with
          | nil => simp
          | cons p l ih =>
            simp only [List.map_cons, List.sum_cons, List.length_map, List.length_range] at ih ⊢
            omega
        exact Nat.le_of_mul_le_mul_left ((hle ps).trans hs) (by decide)

/-- A gate gives back the clause it was shown. -/
theorem gate_issue {s : State} {r : IRef} {i : Issuer} {h h' : Header} {ws ws' : List Word} {hdr hdr' : Word} {s' u : State}
    (hg : gate s r i h ws hdr s' = .issue h' ws' hdr' u) : h' = h ∧ ws' = ws ∧ hdr' = hdr := by
  unfold gate at hg
  split at hg
  · cases hg
  · dsimp only at hg
    split_ifs at hg <;> cases hg <;> exact ⟨rfl, rfl, rfl⟩

/-- What an issuer wants to issue has a legal header, and comes from its buffer or from a fetch of CNT words. -/
theorem want_issue {s : State} {r : IRef} {i : Issuer} {h : Header} {ws : List Word} {hdr : Word} {u : State} (hw : want s r i = .issue h ws hdr u) :
    h = decodeHeader hdr ∧ h.legal = true ∧ (i.buffered = some (hdr, ws) ∨ ws.length ≤ h.cnt) := by
  unfold want at hw
  split at hw
  · next hdr' ws' hb =>
    dsimp only at hw
    split at hw
    · next hl =>
      obtain ⟨rfl, rfl, rfl⟩ := gate_issue hw
      exact ⟨rfl, hl, .inl hb⟩
    · cases hw
  · dsimp only at hw
    split at hw
    · cases hw
    · cases hw
    · cases hw
    · split at hw
      · cases hw
      · cases hw
      · cases hw
      · next hf =>
        split at hw
        · next hl =>
          obtain ⟨rfl, rfl, rfl⟩ := gate_issue hw
          refine ⟨rfl, hl, .inr ?_⟩
          have := fetchWords_length hf
          rw [List.length_drop]
          omega
        · cases hw

end Sys2Proof.Machine
end

section
/-!
PROOFS. O33: a turn of a word, and the end of a turn (R22, R26, R31, R65).
-/

namespace Sys2Proof.Machine

/-! ### A word's checks (R65) -/

theorem checkWord_ok {eng : Eng} {ws : List Word} {idx : Nat} {super : Bool} {ins : Instr} {k : Nat} (hd : decodeAt eng ws = .ok (ins, k))
    (hp : privileged eng (opc (ws.headD 0#32)) = true → super = true) (ht : transfers eng (opc (ws.headD 0#32)) = true → ws.length ≤ 1)
    (hw : ¬(eng = .ctl ∧ opc (ws.headD 0#32) = 0x10 ∧ idx ≠ 1)) : checkWord eng ws idx super = .ok (ins, k) := by
  unfold checkWord
  simp only [hd]
  have h1 : ¬(privileged eng (opc (ws.headD 0#32)) && !super) = true := by
    rw [Bool.and_eq_true, Bool.not_eq_true']
    rintro ⟨ha, hb⟩
    rw [hp ha] at hb
    cases hb
  have h2 : ¬((transfers eng (opc (ws.headD 0#32)) && decide (1 < ws.length)) || (eng == .ctl && opc (ws.headD 0#32) == 0x10 && idx != 1)) = true := by
    rw [Bool.or_eq_true, Bool.and_eq_true, decide_eq_true_iff, Bool.and_eq_true, Bool.and_eq_true, beq_iff_eq, beq_iff_eq, bne_iff_ne]
    rintro (⟨ha, hb⟩ | ⟨⟨ha, hb⟩, hc⟩)
    · have := ht ha
      omega
    · exact hw ⟨ha, hb, hc⟩
  rw [if_neg h1, if_neg h2]

/-- The groups alone may differ. -/
def groupsOnly (s t : State) : Prop := { t with groups := s.groups } = s

namespace groupsOnly

theorem refl (s : State) : groupsOnly s s := rfl

theorem trans {s t u : State} (h : groupsOnly s t) (h' : groupsOnly t u) : groupsOnly s u :=
  (congrArg (fun x : State => { x with groups := s.groups }) h' :).trans h

theorem foldl {α : Type} {f : State → α → State} (l : List α) (hf : ∀ s a, groupsOnly s (f s a)) (s : State) : groupsOnly s (l.foldl f s) := by
  induction l generalizing s with
  | nil => exact refl s
  | cons a l ih => exact (hf s a).trans (ih _)

theorem modGroup (s : State) (b g : Nat) (f : Group → Group) : groupsOnly s (s.modGroup b g f) := rfl

theorem modIssuer (s : State) (r : IRef) (f : Issuer → Issuer) : groupsOnly s (s.modIssuer r f) := rfl

theorem closeAt (s : State) (rs : List IRef) : groupsOnly s (closeAt s rs) := foldl rs (fun s r => modIssuer s r _) s

theorem eq {s t : State} (h : groupsOnly s t) : t = { s with groups := t.groups } := by
  rw [← h]

theorem supervisor {s t : State} (h : groupsOnly s t) (p : Nat) : supervisor t p = supervisor s p := by
  rw [h.eq]; rfl

theorem pasidOf {s t : State} (h : groupsOnly s t) (b : Nat) : pasidOf t b = pasidOf s b := by
  rw [h.eq]; rfl

theorem replayable {s t : State} (h : groupsOnly s t) (b : Nat) : replayable t b = replayable s b := by
  rw [h.eq]; rfl

end groupsOnly

/-! ### A turn of a word (R22, R31) -/

/-- The state as an issuer's word is come to: in a replayable block it takes the turn, and at a wide scope it arrives. -/
def atWord (s : State) (r : IRef) (i : Issuer) (e : Scope) : State :=
  let s1 := if replayable s r.blk then takeTurn s r else s
  if e ≠ .lane ∧ i.wait = .go then s1.modIssuer r fun i => { i with wait := .rdv e } else s1

section
variable {s : State} {r : IRef} {G : Group} {i : Issuer} {c : Clause} {eng : Eng} (hG : s.grp? r.blk r.gidx = some G) (hi : s.issuer? r = some i)
  (hc : i.cl = some c) (he : engOf (c.hdr.extractLsb' 4 3).toNat = some eng) (hsusp : G.susp = []) (hl : i.lanes ≠ 0#64) (hx : c.idx ≠ 0)
  (hrun : mayRun s r.blk = true) (hturn : inTurn s r = true) (hword : replayable s r.blk = true ∨ G.mayWord r.iss = true)
include hG hi hc he hsusp hl hx hrun hturn hword

theorem runWord_at {o : Option (List IRef)} {e : Scope} (hsc : wordScope eng (c.words.getD c.off 0#32) = e) (ho : pointOf (atWord s r i e) r i e = o) :
    runWord r s = match o with
      | none => .next (atWord s r i e)
      | some rs => runAt (if e = .lane then atWord s r i e else closeAt (atWord s r i e) rs) r rs c eng e := by
  have hgo : (!G.susp.isEmpty || i.lanes == 0#64 || c.idx == 0 || !mayRun s r.blk || !inTurn s r || !(replayable s r.blk || G.mayWord r.iss)) = false := by
    rw [hrun, hturn, hsusp, beq_false_of_ne hl, beq_false_of_ne hx]
    rcases hword with h | h <;> simp [h]
  have hs2 : (if e != .lane && i.wait == .go then (if replayable s r.blk then takeTurn s r else s).modIssuer r fun i => { i with wait := .rdv e }
      else if replayable s r.blk then takeTurn s r else s) = atWord s r i e := by
    unfold atWord
    dsimp only
    congr 1
    simp
  unfold runWord
  simp only [hG, hi, hc, he, hgo, Bool.false_eq_true, if_false, hsc, hs2, ho]
  cases o with
  | none => rfl
  | some rs => simp only [beq_iff_eq]

end

theorem runAt_decoded {t : State} {r : IRef} {rs : List IRef} {c : Clause} {eng : Eng} {e : Scope} {ins : Instr} {k : Nat}
    (hd : decodeAt eng (c.words.drop c.off) = .ok (ins, k))
    (hp : privileged eng (opc ((c.words.drop c.off).headD 0#32)) = true → supervisor t (pasidOf t r.blk) = true)
    (ht : transfers eng (opc ((c.words.drop c.off).headD 0#32)) = true → (c.words.drop c.off).length ≤ 1)
    (hw : ¬(eng = .ctl ∧ opc ((c.words.drop c.off).headD 0#32) = 0x10 ∧ c.idx ≠ 1)) :
    runAt t r rs c eng e = exec ins { t with cur := some (mkCur t r rs c eng e k) } := by
  have hk := checkWord_ok hd hp ht hw
  unfold pasidOf at hk
  simp only [runAt, hk]

/-! ### The end of a turn (R26, R31) -/

/-- What the close of instances and the end of holds may touch: these two marks of the groups. -/
structure settling (s t : State) : Prop where
  only : groupsOnly s t
  keys : ∀ x ∈ t.groups, ∃ y ∈ s.groups, y.1 = x.1
  kept : groupsKept (fun G => { G.noPos with hold := none }) s t

namespace settling

theorem refl (s : State) : settling s s := ⟨.refl s, fun x hx => ⟨x, hx, rfl⟩, groupsKept_refl _ s⟩

theorem trans {s t u : State} (h : settling s t) (h' : settling t u) : settling s u where
  only := h.only.trans h'.only
  keys x hx := by
    obtain ⟨y, hy, hyx⟩ := h'.keys x hx
    obtain ⟨z, hz, hzy⟩ := h.keys y hy
    exact ⟨z, hz, hzy.trans hyx⟩
  kept := groupsKept_trans h.kept h'.kept

theorem foldl {α : Type} {f : State → α → State} (l : List α) (hf : ∀ s a, settling s (f s a)) (s : State) : settling s (l.foldl f s) := by
  induction l generalizing s with
  | nil => exact refl s
  | cons a l ih => exact (hf s a).trans (ih _)

theorem modGroup (s : State) (b g : Nat) (f : Group → Group)
    (hf : ∀ G, ({ (f G).noPos with hold := none } : Group) = { G.noPos with hold := none }) : settling s (s.modGroup b g f) where
  only := .modGroup s b g f
  keys x hx := by
    unfold State.modGroup tmod at hx
    dsimp only at hx
    split at hx
    · next v hv =>
      rcases mem_tset hx with rfl | hx
      · exact ⟨_, tget?_mem hv, rfl⟩
      · exact ⟨x, hx, rfl⟩
    · exact ⟨x, hx, rfl⟩
  kept := groupsKept_modGroup _ s b g f hf

theorem closed (s : State) (r : IRef) : settling s (s.modIssuer r fun i => { i with closed := true }) := by
  refine modGroup s _ _ _ fun G => ?_
  split
  · next i hi =>
    rw [noPos_setIssuer G r.iss _ fun h => ?_]
    rw [h] at hi
    cases hi
    exact ⟨rfl, rfl⟩
  · rfl

theorem endHold (s : State) (b g : Nat) : settling s (s.modGroup b g Group.endHold) := by
  refine modGroup s b g _ fun G => ?_
  unfold Group.endHold
  split
  · split <;> rfl
  · rfl

theorem closePoint (s : State) (r : IRef) : settling s (closePoint s r) := by
  unfold Machine.closePoint
  split
  · split
    · split
      · exact refl s
      · split
        · exact foldl _ closed s
        · exact refl s
    · exact refl s
  · exact refl s

end settling

/-- The instances of a group close, and its hold ends. -/
def settleGroup (s : State) (x : Nat × Group) : State :=
  x.2.issuers.foldl (fun s n => closePoint s ⟨x.1 / 32, x.1 % 32, n⟩)
    (if x.2.hold.isSome then s.modGroup (x.1 / 32) (x.1 % 32) Group.endHold else s)

theorem settleGroup_settling (s : State) (x : Nat × Group) : settling s (settleGroup s x) := by
  refine settling.trans ?_ (.foldl _ (fun s n => .closePoint s _) _)
  split
  · exact .endHold ..
  · exact .refl s

/-- Where nothing is parked, logged or aimed at, the end of a turn is that of the groups. -/
theorem settle_quiet {t : State} (hp : t.parks = []) (hg : ∀ x ∈ t.groups, replayable t (x.1 / 32) = false) (hb : ∀ x ∈ t.blocks, replayable t x.1 = false)
    (ha : ∀ x ∈ t.ctxs, x.2.armed = none) : settle t = t.groups.foldl settleGroup t := by
  have h := settling.foldl t.groups settleGroup_settling t
  have hu := h.only.eq
  have hw : wakeWaits (t.groups.foldl settleGroup t) = t.groups.foldl settleGroup t := by
    unfold wakeWaits
    rw [List.filter_eq_nil_iff.mpr fun x hx => ?_, List.foldl_nil]
    obtain ⟨y, hy, hyx⟩ := h.keys x hx
    rw [h.only.replayable, ← hyx, hg y hy]
    exact Bool.false_ne_true
  have hl : writeLogs (t.groups.foldl settleGroup t) = t.groups.foldl settleGroup t := by
    unfold writeLogs
    rw [List.filter_eq_nil_iff.mpr fun x hx => ?_, List.foldl_nil, ite_self]
    rw [hu] at hx
    rw [h.only.replayable, hb x hx, Bool.false_and]
    exact Bool.false_ne_true
  have hs : stopAtTargets (t.groups.foldl settleGroup t) = t.groups.foldl settleGroup t := by
    unfold stopAtTargets
    rw [if_pos (List.all_eq_true.mpr fun x hx => ?_)]
    rw [hu] at hx
    rw [ha x hx]
    rfl
  have hparks : (t.groups.foldl settleGroup t).parks = [] := by rw [hu]; exact hp
  have he : settle t = stopAtTargets (writeLogs (wakeWaits (((t.groups.foldl settleGroup t).parks.filter fun p => p.2.dispo.isSome).foldl
      (fun s (h, _) => settleDispo s h) (t.groups.foldl settleGroup t)))) := by
    unfold settle
    rw [hp]
    rfl
  rw [he, hparks, List.filter_nil, List.foldl_nil, hw, hl, hs]

theorem settleGroup_idle {t : State} (h : ∀ x ∈ t.groups, x.2.hold = none ∧ ∀ n j e, x.2.issuer? n = some j → j.wait ≠ .rdv e) {x : Nat × Group}
    (hx : x ∈ t.groups) : settleGroup t x = t := by
  have hc : ∀ n, closePoint t ⟨x.1 / 32, x.1 % 32, n⟩ = t := by
    intro n
    unfold closePoint
    split
    · next i hi =>
      obtain ⟨G, hG, hi⟩ := Option.bind_eq_some_iff.mp hi
      split
      · next e hw => exact absurd hw ((h _ (tget?_mem hG)).2 n i e hi)
      · rfl
    · rfl
  unfold settleGroup
  rw [(h x hx).1]
  simp only [Option.isSome_none, Bool.false_eq_true, if_false]
  exact foldl_of_mem fun n _ => hc n

theorem settle_idle {t : State} (h : ∀ x ∈ t.groups, x.2.hold = none ∧ ∀ n j e, x.2.issuer? n = some j → j.wait ≠ .rdv e) :
    t.groups.foldl settleGroup t = t :=
  foldl_of_mem fun _ hx => settleGroup_idle h hx

/-- Settles O33: fetches, what issuers want, the turns, and the end of a turn. -/
theorem stepRunsDecoded : Obligations.StepRunsDecoded := by
  refine ⟨fun s die pasid grid k a n x h mt u hc ht hb hi hs => fetchWords_bytes s die pasid grid k a n x h mt u hc ht hb hi hs,
    fun s r i h ws hdr u hw => want_issue hw, ?_, fun s i rest h => by unfold step; rw [h]; rfl,
    fun s n rest h => ⟨fun hn => ?_, fun t ht => ?_⟩, step_elapse, fun t hp hg hb ha => ?_⟩
  · intro s0 r rest G i c eng ins k ha s e s1 s2 o hG hi hc he hsusp hl hx hrun hturn hword
    have hstep : step s0 = settled (runWord r s) := by unfold step; rw [ha]; rfl
    refine ⟨fun hnone => ?_, ?_⟩
    · rw [hstep, runWord_at hG hi hc he hsusp hl hx hrun hturn hword rfl (o := none) hnone]
      rfl
    · intro rs hrs hd hp ht hw s3
      have h3 : groupsOnly s2 (if e = .lane then s2 else closeAt s2 rs) := by
        split
        · exact .refl s2
        · exact .closeAt s2 rs
      rw [hstep, runWord_at hG hi hc he hsusp hl hx hrun hturn hword rfl (o := some rs) hrs]
      refine congrArg settled (runAt_decoded hd (fun hpr => ?_) ht hw)
      have := hp hpr
      rw [← h3.supervisor, ← h3.pasidOf] at this
      exact this
  · unfold step
    rw [h]
    simp only [turn, hn]
    rfl
  · unfold step
    rw [h]
    simp only [turn, ht]
    rfl
  · have h := settling.foldl t.groups settleGroup_settling t
    rw [settle_quiet hp hg hb ha]
    exact ⟨by rw [h.only.eq], h.kept, settle_idle⟩

end Sys2Proof.Machine
end

section
/-!
PROOFS. What comes about beside the word in execution, drained lines, translated requests and performed loads among it, leaves that word and a
view's re-execution as they are (R40, R113, R140, R145); the child grid of a fork (R38, R39, R166).
-/

namespace Sys2Proof.Machine

/-- The word in execution and a view's re-execution stay. -/
structure wordKept (s t : State) : Prop where
  cur : t.cur = s.cur
  sandbox : t.sandbox = s.sandbox

namespace wordKept

theorem refl (s : State) : wordKept s s := ⟨rfl, rfl⟩

theorem trans {s t u : State} (h : wordKept s t) (h' : wordKept t u) : wordKept s u := ⟨h'.cur.trans h.cur, h'.sandbox.trans h.sandbox⟩

theorem foldl {α : Type} {f : State → α → State} (hf : ∀ s a, wordKept s (f s a)) (l : List α) (s : State) : wordKept s (l.foldl f s) := by
  induction l generalizing s with
  | nil => exact refl s
  | cons a r ih => exact (hf s a).trans (ih _)

theorem foldl_snd {α β : Type} {f : β × State → α → β × State} (hf : ∀ a x, wordKept a.2 (f a x).2) (l : List α) (a : β × State) :
    wordKept a.2 (l.foldl f a).2 := by
  induction l generalizing a with
  | nil => exact refl a.2
  | cons x r ih => exact (hf a x).trans (ih _)

theorem ite {p : Prop} [Decidable p] {s t u : State} (ht : wordKept s t) (hu : wordKept s u) : wordKept s (if p then t else u) := by
  split
  · exact ht
  · exact hu

theorem of_sliceSide {s t : State} (h : sliceSide s t) : wordKept s t := ⟨(congrArg State.cur h.rest :), (congrArg State.sandbox h.rest :)⟩

theorem of_metered {s t : State} (h : metered s t) : wordKept s t := ⟨h.cur, h.sandbox⟩

theorem charge (s : State) (die cls n : Nat) (acct : Option Nat) (la : Nat) : wordKept s (charge s die cls n acct la) := of_metered (.charge ..)

theorem modOp (s : State) (k : Nat) (f : Op → Op) : wordKept s (s.modOp k f) := ⟨rfl, rfl⟩
theorem modCtx (s : State) (p : Nat) (f : Ctx → Ctx) : wordKept s (s.modCtx p f) := ⟨rfl, rfl⟩
theorem modBlock (s : State) (b : Nat) (f : Block → Block) : wordKept s (s.modBlock b f) := ⟨rfl, rfl⟩

/-! Writes to memory (R139, R291, R323). -/

theorem noteTables (s : State) (h n : Nat) : wordKept s (noteTables s h n) := by
  refine foldl (fun t f => ?_) _ s
  unfold noteTable
  split
  · exact refl t
  · refine foldl (fun t e => ?_) _ t
    unfold noteEntry
    split <;> exact ⟨rfl, rfl⟩

theorem setMem (s : State) (m : Mem) : wordKept s { s with mem := m } := ⟨rfl, rfl⟩

theorem touchLines (s : State) (h n : Nat) : wordKept s (touchLines s h n) := foldl (fun t _ => setMem t _) _ s

theorem hitImages (s : State) (h n : Nat) : wordKept s (hitImages s h n) :=
  trans (foldl (fun t (m : Nat × Nat × Nat) => modBlock t (m.2.2 % 2 ^ 32) fun B => { B with imgHit := true }) _ s) ⟨rfl, rfl⟩

theorem beforeWrite (s : State) (h n : Nat) :
    wordKept s (stampWords (Machine.hitImages (Machine.touchLines (Machine.noteTables s h n) h n) h n) h n) := by
  have hb := ((noteTables s h n).trans (touchLines _ h n)).trans (hitImages _ h n)
  unfold stampWords
  exact ite hb (hb.trans ⟨rfl, rfl⟩)

theorem physWrite (s : State) (h : Nat) (bs : List Byte) : wordKept s (physWrite s h bs) := (beforeWrite s h bs.length).trans ⟨rfl, rfl⟩

theorem physWriteCap (s : State) (h : Nat) (bs : List Byte) (t : Bool) : wordKept s (physWriteCap s h bs t) :=
  (beforeWrite s h bs.length).trans ⟨rfl, rfl⟩

theorem ownWords (s : State) (core : Nat) (ws : List Nat) : wordKept s (ownWords s core ws) := of_sliceSide (.ownWords ..)

theorem homeWrite (s : State) (core h : Nat) (bs : List Byte) : wordKept s (homeWrite s core h bs) := (physWrite ..).trans (ownWords ..)

theorem writeParts (s : State) (ps : List (Nat × Nat)) (bs : List Byte) : wordKept s (writeParts s ps bs) := by
  induction ps generalizing s bs with
  | nil => exact refl s
  | cons p r ih => exact (physWrite ..).trans (ih ..)

theorem claimParts {s t : State} {w : Nat} {ps : List (Nat × Nat)} (e : Machine.claimParts s w ps = some t) : wordKept s t := by
  obtain ⟨O, rfl⟩ := claimParts_eq e
  exact ⟨rfl, rfl⟩

theorem devWrite (s : State) (world : Option Nat) (func g : Nat) (bs : List Byte) : wordKept s (devWrite s world func g bs) := by
  unfold Machine.devWrite
  split
  · exact refl s
  · dsimp only
    split
    · exact refl s
    · next u hu =>
      have h : wordKept s u := by
        cases world with
        | none => exact Option.some.inj hu ▸ refl s
        | some w => exact claimParts hu
      exact (h.trans (writeParts ..)).trans ⟨rfl, rfl⟩

/-! Drained lines (R140). -/

theorem probeSample (s : State) (o : Op) (q : LReq) : wordKept s (probeSample s o q) := by
  unfold Machine.probeSample
  split
  · exact refl s
  · split
    · exact refl s
    · dsimp only
      split
      · exact refl s
      · exact ((trans (⟨rfl, rfl⟩ : wordKept s { s with free := s.free + 7 }) (devWrite ..)).trans (charge ..)).trans (modCtx ..)

theorem dropReq (s : State) (op lane : Nat) : wordKept s (dropReq s op lane) :=
  ⟨(congrArg State.cur (dropReq_ops s op lane) :), (congrArg State.sandbox (dropReq_ops s op lane) :)⟩

theorem storeDone (s : State) (op lane : Nat) : wordKept s (storeDone s op lane) := by
  have hd (u : State) (b g : Nat) (k : CK) : wordKept u (lowerCtr (Machine.dropReq u op lane) b g [lane] k) :=
    (dropReq u op lane).trans ⟨rfl, rfl⟩
  unfold Machine.storeDone
  split
  · exact refl s
  · dsimp only
    split
    · exact (probeSample ..).trans (hd ..)
    · exact hd ..

theorem chargeAccess (s : State) (b core h n : Nat) (l1 far : Bool) (mt : Nat) : wordKept s (chargeAccess s b core h n l1 far mt) := by
  unfold Machine.chargeAccess
  dsimp only
  have h1 : wordKept s (if l1 then Machine.charge s (dieOf core) 0x39 ((h + n - 1) / 32 - h / 32 + 1) (acctOf s b).1 (acctOf s b).2 else s) :=
    ite (charge ..) (refl s)
  exact ite (h1.trans (of_sliceSide (.chargeLines ..))) h1

theorem wcCharged (s : State) (core line : Nat) (w : WcLine) : wordKept s (wcCharged s core line w) := by
  unfold Machine.wcCharged
  dsimp only
  have h : wordKept s (s.modCore core fun c => { c with wc := tdel c.wc line }) := ⟨rfl, rfl⟩
  split
  · exact h.trans (chargeAccess ..)
  · exact h

theorem drainLine (s : State) (core line : Nat) : wordKept s (drainLine s core line) := by
  cases hw : tget? (s.core core).wc line with
  | none => unfold Machine.drainLine; rw [hw]; exact refl s
  | some w =>
    cases hr : relockWait s core [(64 * line, 64, 1)] with
    | true => unfold Machine.drainLine; rw [hw]; dsimp only; rw [if_pos hr]; exact refl s
    | false =>
      rw [drainLine_eq hw hr]
      refine (((wcCharged s core line w).trans (foldl (fun _ _ => homeWrite ..) _ _)).trans
        (foldl (fun u i => ?_) _ _)).trans (foldl (fun u x => ?_) _ _)
      · exact (physWriteCap ..).trans (ownWords ..)
      · exact ite (refl u) (storeDone ..)

/-! Stopped contexts and raised faults (R198, R207, R279, R322). -/

theorem beginSave (s : State) (b : Nat) : wordKept s (beginSave s b) := by
  unfold Machine.beginSave
  dsimp only
  split
  · exact modBlock ..
  · exact (modBlock ..).trans (foldl (fun u _ => modBlock u _ _) _ _)

theorem stopCtx (s : State) (p : Nat) : wordKept s (stopCtx s p) := (modCtx ..).trans (foldl (fun _ _ => beginSave ..) _ _)

theorem integrity (s : State) (kind unit core : Nat) (p : Option Nat) (addr : Nat) : wordKept s (integrity s kind unit core p addr) := by
  unfold Machine.integrity
  cases p with
  | none => exact ⟨rfl, rfl⟩
  | some p => exact (stopCtx s p).trans ⟨rfl, rfl⟩

theorem lineEvent (s : State) (l p : Nat) : wordKept s (lineEvent s l p) := by
  unfold Machine.lineEvent
  exact trans (setMem s _) (integrity ..)

theorem logAdd (s : State) (b : Nat) (e : LogEnt) : wordKept s (logAdd s b e) := ite (modBlock ..) (refl s)

theorem deliver (s : State) (b h : Nat) (p : Park) : wordKept s (deliver s b h p) := ite ⟨rfl, rfl⟩ (ite ⟨rfl, rfl⟩ ⟨rfl, rfl⟩)

theorem reportExited (s : State) (b g : Nat) (m : Lanes) : wordKept s (reportExited s b g m) := by
  refine foldl (fun u x => ?_) _ s
  refine ite (refl u) (foldl (fun v code => ?_) _ u)
  have hf : wordKept v v.fresh.2 := ⟨rfl, rfl⟩
  have hd (ls : List Nat) : wordKept v (lowerCtr (ls.foldl (fun t l => Machine.dropReq t x.1 l) v.fresh.2) b g ls x.2.kind.ctr) :=
    (hf.trans (foldl (fun t l => dropReq t x.1 l) ls _)).trans ⟨rfl, rfl⟩
  exact (hd _).trans (deliver ..)

theorem raiseHit (s : State) (hit : Hit) (code : Nat) : wordKept s (raiseHit s hit code) := by
  have hm (u : State) (b k : Nat) (e : LogEnt) (f : Op → Op) : wordKept u ((Machine.logAdd u b e).modOp k f) := (logAdd ..).trans (modOp ..)
  unfold Machine.raiseHit
  split
  · unfold raiseRetry
    split
    · exact refl s
    · have hf : wordKept s s.fresh.2 := ⟨rfl, rfl⟩
      exact (hf.trans (foldl (fun _ _ => foldl (fun _ _ => hm ..) _ _) _ _)).trans (deliver ..)
  · exact foldl (fun _ _ => (foldl (fun _ _ => hm ..) _ _).trans (reportExited ..)) _ _

theorem faultIssue (s : State) (k : Nat) (o : Op) (lane code x : Nat) (now : Op → LReq → Option (Nat × Nat)) :
    wordKept s (faultIssue s k o lane code x now) := raiseHit ..

/-! Translated requests and performed loads (R113, R140, R199). -/

theorem tlbFill (s : State) (die : Nat) (c : Ctx) (p : Nat) (k : Cap) (x h : Nat) (w : Bool) : wordKept s (tlbFill s die c p k x h w) := by
  have hn (f g h : Nat) : wordKept s (noteMap s f g h) := ite (refl s) ⟨rfl, rfl⟩
  unfold Machine.tlbFill
  dsimp only
  split
  · exact (hn ..).trans ⟨rfl, rfl⟩
  · exact (hn ..).trans ⟨rfl, rfl⟩

end wordKept

/-- The state that a translation leaves. -/
def TrAll.state : TrAll → State
  | .ok _ s | .remote _ _ s | .fault _ s => s

namespace wordKept

theorem translateGo {die : Nat} {c : Ctx} {p : Nat} {k : Cap} {write cached : Bool} (fuel x n : Nat) (far : Option Nat)
    (acc : List (Nat × Nat × Nat)) (s : State) : wordKept s (translateGo die c p k write cached fuel x n far acc s).state := by
  induction fuel generalizing x n far acc s with
  | zero =>
    cases far <;> exact refl s
  | succ fuel ih =>
    unfold Machine.translateGo
    split
    · cases far <;> exact refl s
    · split
      · exact refl s
      · exact ih ..
      · split
        · exact refl s
        · next u hu =>
          obtain ⟨O, rfl⟩ := claimFrame_eq hu
          exact trans ((setMem s _).trans (tlbFill ..)) (ih ..)

theorem translate (s : State) (die p : Nat) (k : Cap) (x n : Nat) (write cached : Bool) :
    wordKept s (translate s die p k x n write cached).state := by
  unfold Machine.translate
  split
  · exact refl s
  · split
    · exact refl s
    · exact translateGo ..

theorem sendFar (s : State) (k lane : Nat) : wordKept s (sendFar s k lane) := by
  unfold Machine.sendFar
  split
  · exact refl s
  · have hc (o : Op) : wordKept s (chargeFab s o) :=
      ite (refl s) (trans (⟨rfl, rfl⟩ : wordKept s { s with free := s.free + 1 }) (of_sliceSide (.chargeFar ..)))
    exact (hc _).trans (modOp ..)

theorem passParts (s : State) (k lane : Nat) (o : Op) (q : LReq) (parts : List (Nat × Nat × Nat)) (cached : Bool) :
    wordKept s (passParts s k lane o q parts cached) := by
  unfold Machine.passParts
  dsimp only
  refine ite ((modOp ..).trans (faultIssue ..)) ?_
  exact ite (((modOp ..).trans (modOp ..)).trans (sendFar ..)) ((modOp ..).trans (modOp ..))

theorem translateReq (s : State) (k lane : Nat) (cached : Bool) : wordKept s (translateReq s k lane cached) := by
  unfold Machine.translateReq
  split
  · exact refl s
  · next o _ =>
    split
    · next q c _ _ =>
      dsimp only
      split
      · split
        · exact lineEvent ..
        · split
          · exact faultIssue ..
          · exact sendFar ..
          · exact modOp ..
      · have ht := translate s (dieOf o.core) (pasidOf s o.blk) q.cap q.x q.n o.kind.isWrite cached
        split
        · next e => rw [e] at ht; exact ht.trans (faultIssue ..)
        · next e => rw [e] at ht; exact ht.trans (passParts ..)
        · next e => rw [e] at ht; exact ht.trans (passParts ..)
    · exact refl s

theorem l1Read (s : State) (core h n : Nat) (use : Bool) : wordKept s (l1Read s core h n use).2 := ⟨rfl, rfl⟩

theorem performLoad (s : State) (k lane : Nat) (cached : Bool) : wordKept s (performLoad s k lane cached) := by
  unfold Machine.performLoad
  split
  · exact refl s
  · next o _ =>
    split
    · exact refl s
    · next q _ =>
      dsimp only
      refine ite (sendFar ..) ?_
      split
      · exact lineEvent ..
      · refine trans (trans ?_ (foldl_snd (fun a p => ?_) q.parts _)) (modOp ..)
        · exact foldl (fun u p => ite (foldl (fun _ _ => drainLine ..) _ _) (refl u)) q.parts s
        · split
          · exact trans (chargeAccess ..) (l1Read ..)
          · exact chargeAccess a.2 o.blk o.core p.1 p.2.1 false true p.2.2

theorem attempt (s : State) (k lane : Nat) (cached : Bool) : wordKept s (attempt s k lane cached) := by
  unfold Machine.attempt
  dsimp only
  generalize hu : (if (((tget? s.ops k).bind fun o => o.req? lane).map (·.ph)) == some Ph.sent then Machine.translateReq s k lane cached else s) = u
  have h : wordKept s u := hu ▸ ite (translateReq ..) (refl s)
  split
  · exact h
  · split
    · exact ite (h.trans (performLoad ..)) h
    · exact h

theorem releaseStart (s : State) (b : Nat) (els : List (Nat × Nat)) : wordKept s (releaseStart s b els) :=
  trans (foldl (fun u _ => ite (attempt ..) (refl u)) _ s) (foldl (fun _ _ => drainLine ..) _ _)

end wordKept

end Sys2Proof.Machine
end

section
/-!
PROOFS. fork: the record's code, or the child grid and the save of the block (R19, R38 to R40, R166).
-/

namespace Sys2Proof.Machine

/-- What is read of a block beside its retired count, where nothing outside the groups has changed. -/
theorem outside_block {α : Type} {s t : State} (h : outside s t) {f : Block → α} (hf : ∀ B, f B.noRc = f B) (b : Nat) :
    (tget? t.blocks b).map f = (tget? s.blocks b).map f := by
  obtain ⟨-, hb, -⟩ := h
  have h := congrArg (Option.map f) (hb b)
  simpa only [Option.map_map, Function.comp_def, hf] using h

theorem outside_ops {s t : State} (h : outside s t) : t.ops = s.ops := (congrArg State.ops h.1 : t.rest.ops = s.rest.ops)

/-- Whether a release is done depends on the operations alone. -/
theorem released_of_ops {s t : State} (h : t.ops = s.ops) (b : Nat) (els : List (Nat × Nat)) : released t b els = released s b els := by
  unfold released
  rw [h]

theorem outside_putUni (s : State) (c : Cur) (r : BitVec 6) (v : DWord) : outside s (putUni s c r v) :=
  foldl_outside c.live _ (fun s g => outside_modGroup s c.blk g _) s

theorem forkFault_none {s : State} {b off : Nat} {B : Block} (hB : tget? s.blocks b = some B) (ha : off % 64 = 0) (hl : off + 96 ≤ B.spmLen)
    (hg : (s.gridOf B).gngb ≤ 1) (hc : (s.gridOf B).clug ≤ 1) (hd : (s.gridOf B).diec ≤ 1) (hr : (s.gridOf B).cor = false)
    (h8 : (s.gridOf B).depth < 8) : forkFault s b off = none := by
  unfold forkFault gridOfB
  rw [hB]
  have h : ¬ (1 < (s.gridOf B).gngb ∨ 1 < (s.gridOf B).clug ∨ 1 < (s.gridOf B).diec ∨ (s.gridOf B).cor = true) := by
    simp only [hr, Bool.false_eq_true, or_false]
    omega
  simp only [Option.map_some, Option.getD_some, ha, ne_eq, not_true_eq_false, if_false, if_neg (Nat.not_lt.2 hl), if_neg h,
    if_neg (Nat.not_le.2 h8)]

/-- A fork whose checks pass and whose block's release is done goes on from the state that the release leaves (R40). -/
theorem releaseBlock_now {s : State} {c : Cur} (hc : s.cur = some c) (hr : blockReleased s c) (go : State → Cur → Out) :
    releaseBlock go s = go (releaseStart s c.blk (Sys2Proof.blockElems s c.blk)) c := by
  obtain ⟨hbad, hrel⟩ := hr
  unfold Sys2Proof.blockElems at hbad hrel ⊢
  unfold releaseBlock
  simp only [hc, hbad, hrel, List.isEmpty_nil, Bool.not_true, Bool.false_eq_true, if_false, if_true]

/-- A block that has forked: its child's number is kept with the destination, and its save begins (R39, R166). -/
def Block.forking (c : Cur) (a : BitVec 6) (gid : Nat) (B : Block) : Block :=
  { B with forks := B.forks + 1, forkDst := some (a, c.live, gid), phase := .saving }

/-- The child grid is there, and its parent block has forked. -/
def forked (u : State) (c : Cur) (a : BitVec 6) (k : Grid) : State :=
  { u with grids := tset u.grids u.nextId k, nextId := u.nextId + 1 }.modBlock c.blk (Block.forking c a u.nextId)

theorem forked_self (u : State) (c : Cur) (a : BitVec 6) (k : Grid) :
    tget? (forked u c a k).blocks c.blk = (tget? u.blocks c.blk).map (Block.forking c a u.nextId) := by
  rw [forked, State.modBlock, tget?_tmod, if_pos rfl]

theorem forked_other (u : State) {c : Cur} (a : BitVec 6) (k : Grid) {y : Nat} (h : y ≠ c.blk) :
    tget? (forked u c a k).blocks y = tget? u.blocks y := by
  rw [forked, State.modBlock, tget?_tmod, if_neg h]

/-- Registers freed by last use change nothing but the groups, by which alone they are freed. -/
theorem freeS_eq (c : Cur) (us : List (RSrc × Nat)) : ∃ F : Tab Group → Tab Group, ∀ w : State,
    freeS w c us = { w with groups := F w.groups } := by
  unfold freeS
  split
  · exact ⟨id, fun _ => rfl⟩
  · exact ⟨fun T => tmod T (gkey c.blk c.lead) _, fun _ => rfl⟩

/-- A block without what a fork changes of it: its children, its save and the folds of its grid. -/
def Block.noFork (B : Block) : Block := { B.noRc with forks := 0, forkDst := none, phase := .resident, foldTo := none }

theorem forked_effect {u t : State} {c : Cur} {a : BitVec 6} {k : Grid} (us : List (RSrc × Nat)) (h : outside (forked u c a k) t) :
    outsideBut Block.noFork { freeS u c us with grids := tset u.grids u.nextId k, nextId := u.nextId + 1 } t := by
  obtain ⟨F, hF⟩ := freeS_eq c us
  have hb (y : Nat) : (tget? (forked u c a k).blocks y).map Block.noFork = (tget? u.blocks y).map Block.noFork := by
    by_cases e : y = c.blk
    · rw [e, forked_self, Option.map_map]; rfl
    · rw [forked_other u a k e]
  rw [hF]
  exact ⟨h.1, fun y => (outside_block h (fun _ => rfl) y).trans (hb y), h.2.2⟩

theorem execFork_eq {a : BitVec 6} {b : RSrc} {s : State} {c : Cur} {B' : Block} {x : Ctx} (hc : s.cur = some c) (he : c.empty = false)
    (hf : forkFault s c.blk (c.src s b).toNat = none) (hr : blockReleased s c) (hs : s.sandbox = none) {u : State}
    (hu : releaseStart s c.blk (Sys2Proof.blockElems s c.blk) = u) (hB : tget? u.blocks c.blk = some B') (hx : ctxOf u c.blk = some x) :
    exec (.fork a b) s =
      let code := recordCode u x (leNat ((blockSpm u c.blk).read (c.src s b).toNat 64)) true
      if code ≠ 0 then done 0x09 .issue (putUni (freeS u c [(b, 1)]) c a (BitVec.ofNat 64 code))
      else done 0x09 .issue (freeS (forked u c a (childGrid u c.blk (c.src s b).toNat B')) c [(b, 1)]) := by
  have hsu : u.sandbox.isSome = false := by rw [← hu, (wordKept.releaseStart ..).sandbox, hs]; rfl
  dsimp only [exec]
  unfold execFork
  simp only [hc, he, hf, Bool.false_eq_true, if_false]
  rw [releaseBlock_now hc hr, hu]
  simp only [hB, hx, hsu, Bool.false_eq_true, or_false]
  rfl

/-- Settles O18: the release leaves the word in execution as it is; then the fork's own steps are read off. -/
theorem fork : Obligations.Fork := by
  intro a b s c B B' x hc he hB hs off g ha hl hg hcl hd hr h8 hrel u hB' hx code
  have hE := execFork_eq hc he (forkFault_none hB ha hl hg hcl hd hr h8) hrel hs (a := a) (b := b) rfl hB' hx
  obtain ⟨-, hrel'⟩ := hrel
  by_cases h0 : code = 0
  · have hE' : exec (.fork a b) s = done 0x09 .issue (freeS (forked u c a (childGrid u c.blk off B')) c [(b, 1)]) := by
      rw [hE]; exact if_neg (not_not_intro h0)
    generalize hX : freeS (forked u c a (childGrid u c.blk off B')) c [(b, 1)] = X at hE'
    have hFX : outside (forked u c a (childGrid u c.blk off B')) X := hX ▸ outside_freeS ..
    obtain ⟨hcur, hout, hpos⟩ := effectIs_done 0x09 .issue X
    have hFt := outside_trans hFX hout
    have hself : ∀ {α : Type} {f : Block → α}, (∀ B, f B.noRc = f B) →
        (tget? (retire (chargeWord 0x09 .issue X)).blocks c.blk).map f = some (f (Block.forking c a u.nextId B')) := fun hf => by
      rw [outside_block hFt hf, forked_self, hB']; rfl
    refine ⟨_, hE', (released_of_ops (outside_ops hFt) ..).trans hrel', fun h => absurd h0 h, fun _ => ?_⟩
    refine ⟨⟨hcur, forked_effect _ hFt, ?_⟩, rfl, rfl, rfl, rfl, rfl, rfl, ?_, ?_, ?_, fun y hy => ?_⟩
    · obtain ⟨F, hF⟩ := freeS_eq c [(b, 1)]
      exact groupsKept_trans (groupsKept_of_eq (by rw [← hX, hF, hF]; rfl)) hpos
    · exact hself fun _ => rfl
    · exact hself fun _ => rfl
    · exact hself fun _ => rfl
    · rw [outside_block hFt fun _ => rfl, forked_other u a _ hy]
  · have hE' : exec (.fork a b) s = done 0x09 .issue (putUni (freeS u c [(b, 1)]) c a (BitVec.ofNat 64 code)) := by
      rw [hE]; exact if_pos h0
    refine ⟨_, hE', ?_, fun _ => effectIs_done .., fun h => absurd h h0⟩
    have ho := outside_trans (outside_trans (outside_freeS u c [(b, 1)]) (outside_putUni _ c a (BitVec.ofNat 64 code))) (outside_done 0x09 .issue _)
    exact (released_of_ops (outside_ops ho) ..).trans hrel'

end Sys2Proof.Machine
end

section
/-!
PROOFS. The functions of Table 13.3 in the words of the statements: products, saturation, minimum and maximum, shifts, counts of bits, fields
(R181, R184).
-/

namespace Sys2Proof.Machine

theorem mul_eq_ofNat {n : Nat} (x y : BitVec n) : x * y = BitVec.ofNat n (x.toNat * y.toNat) := by
  rw [BitVec.ofNat_mul, BitVec.ofNat_toNat, BitVec.ofNat_toNat, BitVec.setWidth_eq, BitVec.setWidth_eq]

theorem mulhN_eq {n : Nat} (x y : BitVec n) : mulhN x y = (BitVec.ofNat (n + n) (x.toNat * y.toNat)).extractLsb' n n := by
  apply BitVec.eq_of_toNat_eq
  rw [mulhN, BitVec.extractLsb'_toNat, BitVec.toNat_ofNat, BitVec.toNat_ofNat, Nat.shiftRight_eq_div_pow, Nat.pow_add,
    Nat.mod_mul_right_div_self, Nat.mod_mod]

/-- The high part of an integer's low bits is the low part of its quotient. -/
theorem emod_mul_self_ediv (z : Int) {a : Int} (h : 0 < a) : z % (a * a) / a = z / a % a := by
  rw [Int.emod_def z, ← Int.ediv_ediv_of_nonneg h.le, sub_eq_add_neg, Int.mul_assoc, ← Int.mul_neg,
    Int.add_mul_ediv_left _ _ h.ne', Int.emod_def (z / a), sub_eq_add_neg]

theorem mulhS_eq {n : Nat} (x y : BitVec n) : mulhS x y = (BitVec.ofInt (n + n) (x.toInt * y.toInt)).extractLsb' n n := by
  have hp : (0 : Int) < (2 ^ n : Nat) := by positivity
  apply BitVec.eq_of_toNat_eq
  rw [mulhS, BitVec.extractLsb'_toNat, BitVec.toNat_ofInt, BitVec.toNat_ofInt, Nat.shiftRight_eq_div_pow, Nat.pow_add]
  have h := emod_mul_self_ediv (x.toInt * y.toInt) hp
  rw [← Int.natCast_mul] at h
  obtain ⟨k, hk⟩ := Int.eq_ofNat_of_zero_le (Int.emod_nonneg (x.toInt * y.toInt) (b := (2 ^ n * 2 ^ n : Nat)) (by positivity))
  rw [hk] at h ⊢
  rw [← h, ← Int.natCast_ediv, Int.toNat_natCast, Int.toNat_natCast, Nat.mod_eq_of_lt]
  exact Nat.div_lt_of_lt_mul (by zify; rw [← hk]; exact Int.emod_lt_of_pos _ (by positivity))

theorem clampInt_eq {lo hi : Int} (h : lo ≤ hi) (x : Int) : clampInt lo hi x = clampTo lo hi x := by
  unfold clampInt clampTo
  split <;> [skip; split] <;> omega

theorem satS_eq (x : Int) : satS x = BitVec.ofInt 32 (clampTo (-2 ^ 31) (2 ^ 31 - 1) x) := congrArg _ (clampInt_eq (by decide) x)

theorem satN_eq (x : Int) : satN x = BitVec.ofInt 32 (clampTo 0 (2 ^ 32 - 1) x) := congrArg _ (clampInt_eq (by decide) x)

theorem minS_eq {n : Nat} (x y : BitVec n) : minS x y = BitVec.ofInt n (min x.toInt y.toInt) := by
  unfold minS
  split
  · next h => rw [min_eq_right (BitVec.slt_iff_toInt_lt.mp h).le, BitVec.ofInt_toInt]
  · next h => rw [min_eq_left (not_lt.mp fun h' => h (BitVec.slt_iff_toInt_lt.mpr h')), BitVec.ofInt_toInt]

theorem maxS_eq {n : Nat} (x y : BitVec n) : maxS x y = BitVec.ofInt n (max x.toInt y.toInt) := by
  unfold maxS
  split
  · next h => rw [max_eq_right (BitVec.slt_iff_toInt_lt.mp h).le, BitVec.ofInt_toInt]
  · next h => rw [max_eq_left (not_lt.mp fun h' => h (BitVec.slt_iff_toInt_lt.mpr h')), BitVec.ofInt_toInt]

theorem minN_eq {n : Nat} (x y : BitVec n) : minN x y = BitVec.ofNat n (min x.toNat y.toNat) := by
  unfold minN
  split
  · next h => rw [min_eq_right (BitVec.ult_iff_lt.mp h).le, BitVec.ofNat_toNat, BitVec.setWidth_eq]
  · next h => rw [min_eq_left (not_lt.mp fun h' => h (BitVec.ult_iff_lt.mpr h')), BitVec.ofNat_toNat, BitVec.setWidth_eq]

theorem maxN_eq {n : Nat} (x y : BitVec n) : maxN x y = BitVec.ofNat n (max x.toNat y.toNat) := by
  unfold maxN
  split
  · next h => rw [max_eq_right (BitVec.ult_iff_lt.mp h).le, BitVec.ofNat_toNat, BitVec.setWidth_eq]
  · next h => rw [max_eq_left (not_lt.mp fun h' => h (BitVec.ult_iff_lt.mpr h')), BitVec.ofNat_toNat, BitVec.setWidth_eq]

theorem shl_eq {n : Nat} (k : Nat) (x y : BitVec n) : shl k x y = x <<< (y.toNat % 2 ^ k) := by
  apply BitVec.eq_of_toNat_eq
  rw [shl, count, BitVec.toNat_shiftLeft, BitVec.toNat_ofNat, Nat.shiftLeft_eq]

theorem shrN_eq {n : Nat} (k : Nat) (x y : BitVec n) : shrN k x y = x >>> (y.toNat % 2 ^ k) := by
  apply BitVec.eq_of_toNat_eq
  rw [shrN, count, BitVec.toNat_ushiftRight, BitVec.toNat_ofNat, Nat.shiftRight_eq_div_pow,
    Nat.mod_eq_of_lt (Nat.lt_of_le_of_lt (Nat.div_le_self ..) x.isLt)]

/-- A signed value of n bits shifted right by n - 1 or more is its sign. -/
theorem ediv_pow_of_le {z : Int} {n c : Nat} (h1 : -2 ^ n ≤ z) (h2 : z < 2 ^ n) (h : n ≤ c) : z / (2 ^ c : Nat) = if z < 0 then -1 else 0 := by
  have hc : (2 : Int) ^ n ≤ (2 ^ c : Nat) := by exact_mod_cast Nat.pow_le_pow_right (by decide) h
  split
  · next hz => exact Int.ediv_eq_neg_one_of_neg_of_le hz (by omega)
  · next hz => exact Int.ediv_eq_zero_of_lt (by omega) (by omega)

theorem shrS_eq {n : Nat} (k : Nat) (x y : BitVec (n + 1)) : shrS k x y = x.sshiftRight (y.toNat % 2 ^ k) := by
  have h1 : -2 ^ n ≤ x.toInt := BitVec.le_toInt x
  have h2 : x.toInt < 2 ^ n := BitVec.toInt_lt
  rw [shrS, count, BitVec.sshiftRight, Int.shiftRight_eq_div_pow, Nat.add_sub_cancel]
  rcases Nat.le_total (y.toNat % 2 ^ k) n with h | h
  · rw [min_eq_left h]
  · rw [min_eq_right h, ediv_pow_of_le h1 h2 le_rfl, ediv_pow_of_le h1 h2 h]

theorem rotl_eq (x y : Word) : rotl x y = (x <<< (y.toNat % 32)) ||| (x >>> (32 - y.toNat % 32)) := by
  rw [rotl, BitVec.rotateLeft_def, Nat.mod_mod]

theorem absS_eq (x : Word) : absS x = BitVec.ofNat 32 x.toInt.natAbs := by
  apply BitVec.eq_of_toNat_eq
  have hx := x.isLt
  rw [absS, BitVec.toInt_eq_msb_cond]
  split
  · rw [BitVec.toNat_neg, BitVec.toNat_ofNat]
    congr 1
    omega
  · rw [Int.natAbs_natCast, BitVec.ofNat_toNat, BitVec.setWidth_eq]

theorem neg_eq_ofInt {n : Nat} (x : BitVec n) : -x = BitVec.ofInt n (-x.toInt) := by rw [BitVec.ofInt_neg, BitVec.ofInt_toInt]

theorem popc_eq {n : Nat} (x : BitVec n) : popc x = (List.range n).countP fun i => x.getLsbD i := by
  rw [popc, below, List.countP_eq_length_filter]

/-- One place above the highest set bit below m. -/
theorem foldl_below_log2 (x m : Nat) : ((List.range m).filter x.testBit).foldl (fun _ i => i + 1) 0 =
    if x % 2 ^ m = 0 then 0 else (x % 2 ^ m).log2 + 1 := by
  induction m with
  | zero => simp [Nat.mod_one]
  | succ m ih =>
    rw [List.range_succ, List.filter_append, List.foldl_append, ih, Nat.mod_pow_succ]
    have hd := Nat.testBit_eq_decide_div_mod_eq (x := x) (i := m)
    cases hb : x.testBit m with
    | false =>
      have h0 : x / 2 ^ m % 2 = 0 := by simpa [hb] using hd
      simp [hb, h0]
    | true =>
      have h1 : x / 2 ^ m % 2 = 1 := by simpa [hb] using hd
      have hlt : x % 2 ^ m < 2 ^ m := Nat.mod_lt _ (by positivity)
      have hl : (x % 2 ^ m + 2 ^ m).log2 = m := (Nat.log2_eq_iff (by omega)).mpr ⟨by omega, by rw [Nat.pow_succ]; omega⟩
      simp [hb, h1, hl]

theorem clz_eq {n : Nat} (x : BitVec (n + 1)) : clz x = if x = 0 then n + 1 else n - x.toNat.log2 := by
  have h := foldl_below_log2 x.toNat (n + 1)
  rw [Nat.mod_eq_of_lt x.isLt] at h
  rw [clz, below, show (fun i => x.getLsbD i) = x.toNat.testBit from rfl, h]
  by_cases hx : x = 0
  · rw [if_pos hx, if_pos (by rw [hx]; rfl), Nat.sub_zero]
  · rw [if_neg hx, if_neg fun e : x.toNat = 0 => hx (BitVec.eq_of_toNat_eq e), Nat.add_sub_add_right]

/-- The bits of a word below m in reverse are the m highest of the word reversed. -/
theorem foldl_reverse {n : Nat} (x : BitVec n) (m : Nat) (h : m ≤ n) :
    ((List.range m).filter fun i => x.getLsbD i).foldl (fun a i => a + 2 ^ (n - 1 - i)) 0 =
      x.reverse.toNat / 2 ^ (n - m) * 2 ^ (n - m) := by
  induction m with
  | zero => rw [Nat.sub_zero, Nat.div_eq_of_lt x.reverse.isLt]; simp
  | succ m ih =>
    have hk : n - m = n - (m + 1) + 1 := by omega
    have hb : x.reverse.toNat.testBit (n - (m + 1)) = x.getLsbD m := by
      have hr : x.reverse.getLsbD (n - (m + 1)) = x.getLsbD m := by
        rw [BitVec.getLsbD_reverse, BitVec.getMsbD]
        have : n - 1 - (n - (m + 1)) = m := by omega
        rw [this, decide_eq_true (by omega), Bool.true_and]
      exact hr
    rw [List.range_succ, List.filter_append, List.foldl_append, ih (by omega), hk, Nat.pow_succ']
    have hd := Nat.testBit_eq_decide_div_mod_eq (x := x.reverse.toNat) (i := n - (m + 1))
    have hdiv : x.reverse.toNat / 2 ^ (n - (m + 1)) =
        2 * (x.reverse.toNat / (2 * 2 ^ (n - (m + 1)))) + x.reverse.toNat / 2 ^ (n - (m + 1)) % 2 := by
      rw [Nat.mul_comm 2 (2 ^ (n - (m + 1))), ← Nat.div_div_eq_div_mul]
      omega
    have he : n - 1 - m = n - (m + 1) := by omega
    rw [hb] at hd
    cases hx : x.getLsbD m with
    | false =>
      have h0 : x.reverse.toNat / 2 ^ (n - (m + 1)) % 2 = 0 := by simpa [hx] using hd
      rw [hdiv, h0]
      simp only [hx, List.filter_cons, List.filter_nil, List.foldl_nil, Bool.false_eq_true, if_false]
      ring
    | true =>
      have h1 : x.reverse.toNat / 2 ^ (n - (m + 1)) % 2 = 1 := by simpa [hx] using hd
      rw [hdiv, h1]
      simp only [hx, List.filter_cons, List.filter_nil, List.foldl_cons, List.foldl_nil, if_true, he]
      ring

theorem brev_eq (x : Word) : brev x = x.reverse := by
  rw [brev, below, foldl_reverse x 32 le_rfl, Nat.sub_self, pow_zero, Nat.div_one, Nat.mul_one, BitVec.ofNat_toNat, BitVec.setWidth_eq]

theorem bfx_eq_ofNat (x c : Word) (len : Nat) : bfx x c len false = BitVec.ofNat 32 (x.toNat / 2 ^ (c.toNat % 64) % 2 ^ len) := by
  rw [← BitVec.ofInt_natCast]
  rfl

theorem bfx_eq_ofInt (x c : Word) (len : Nat) :
    bfx x c len true = BitVec.ofInt 32 (BitVec.ofInt len (x.toInt / 2 ^ (c.toNat % 64))).toInt := by
  have hh : (((2 ^ len : Nat) : Int) + 1) / 2 = (2 ^ (len - 1) : Nat) := by
    cases len with
    | zero => rfl
    | succ k => rw [Nat.add_sub_cancel, Nat.pow_succ]; omega
  rw [BitVec.toInt_ofInt, Int.bmod, hh]
  unfold bfx
  simp only [if_true, Bool.true_and, decide_eq_true_eq, Nat.cast_pow, Nat.cast_ofNat]
  split
  · next h => rw [if_neg (not_lt.mpr h)]
  · next h => rw [if_pos (not_le.mp h)]

theorem bfi_eq (d x c : Word) (len : Nat) : bfi d x c len = BitVec.ofFnLE fun i : Fin 32 =>
    if c.toNat % 64 ≤ i ∧ i < c.toNat % 64 + len then x.getLsbD (i - c.toNat % 64) else d.getLsbD i := by
  apply BitVec.eq_of_getLsbD_eq
  intro i hi
  rw [BitVec.getLsbD_ofFnLE, dif_pos hi]
  unfold bfi
  simp only [BitVec.getLsbD_or, BitVec.getLsbD_and, BitVec.getLsbD_not, BitVec.getLsbD_ofNat, Nat.testBit_mul_two_pow, Nat.testBit_two_pow_sub_one]
  by_cases h1 : c.toNat % 64 ≤ i
  · by_cases h2 : i < c.toNat % 64 + len
    · have h3 : i - c.toNat % 64 < len := by omega
      simp [h1, h2, h3, hi, BitVec.getLsbD]
    · have h3 : ¬ i - c.toNat % 64 < len := by omega
      simp [h1, h2, h3, hi]
  · simp [h1, hi]

end Sys2Proof.Machine
end

section
/-!
PROOFS. Every vector integer instruction in its form: the operation that it is, with the result in the words of the statement (R181 to R186).
-/

namespace Sys2Proof.Machine

section
variable {s : State} {c : Cur} {d : VDst} {ops : List Opd} {f : List Word → Word}

theorem laneOp_form (cls : Nat) (g : List Word → Word) (h : ∀ xs, g xs = f xs) (hc : s.cur = some c) (he : c.empty = false)
    (hr : ready? s c ops (.v d) false = none) :
    ∃ t, laneOp cls d ops (fun _ _ xs => g xs) s = .next t ∧ effectIs ((LaneForm.of d ops f).written s c) t := by
  obtain rfl : g = f := funext h
  exact laneOp_done cls d ops _ hc he hr

theorem compOp_form (cls : Nat) (comp : List VCell → Option VCell) (g : List Word → Word) (h : ∀ xs, g xs = f xs) (hc : s.cur = some c)
    (he : c.empty = false) (hr : ready? s c ops (.v d) false = none) :
    ∃ t, compOp cls d ops comp g s = .next t ∧ effectIs ((LaneForm.of d ops f).written s c) t := by
  obtain rfl : g = f := funext h
  exact compOp_done cls d ops comp g hc he hr

end

/-- The shared source of vbcast is the low word of the uniform register. -/
theorem vbcast_done {e : Scope} {a : VDst} {b : RSrc} {s : State} {c : Cur} (hc : s.cur = some c) (he : c.empty = false)
    (hr : ready? s c [] (.v a) false = none) : ∃ t, execVbcast e a b s = .next t ∧
      effectIs ((LaneForm.mk a [] [(b, 1)] fun s c _ _ _ => (s.sAt (gkey c.blk c.lead) b.n.toNat).setWidth 32).written s c) t := by
  obtain ⟨t, h1, h2⟩ := laneOpU_done 0x14 .lane a [] [(b, 1)] (fun _ _ _ => (c.src s b).extractLsb' 0 32) hc he hr
  refine ⟨t, ?_, ?_⟩
  · rw [execVbcast, hc]
    exact h1
  · have hw : (c.src s b).extractLsb' 0 32 = (s.sAt (gkey c.blk c.lead) b.n.toNat).setWidth 32 := by
      rw [BitVec.setWidth_eq_extractLsb' (by decide)]
      rfl
    rw [hw] at h2
    exact h2

theorem intForm_done (i : Instr) (F : LaneForm) (s : State) (c : Cur) (hF : intForm i = some F) (hc : s.cur = some c) (he : c.empty = false)
    (hr : ready? s c F.ops (.v F.dst) false = none) : ∃ t, exec i s = .next t ∧ effectIs (F.written s c) t := by
  unfold intForm at hF
  split at hF <;> cases hF <;> dsimp only [exec]
  · exact compOp_form 0x14 _ _ (fun _ => rfl) hc he hr
  · exact compOp_form 0x14 _ _ (fun _ => rfl) hc he hr
  · exact compOp_form 0x15 _ _ (fun _ => mul_eq_ofNat ..) hc he hr
  · exact laneOp_form 0x15 _ (fun _ => mulhS_eq ..) hc he hr
  · exact laneOp_form 0x15 _ (fun _ => mulhN_eq ..) hc he hr
  · exact compOp_form 0x14 _ _ (fun _ => rfl) hc he hr
  · exact laneOp_form 0x14 _ (fun _ => rfl) hc he hr
  · exact laneOp_form 0x14 _ (fun _ => rfl) hc he hr
  · exact laneOp_form 0x14 _ (fun _ => satS_eq ..) hc he hr
  · exact laneOp_form 0x14 _ (fun _ => satN_eq ..) hc he hr
  · exact laneOp_form 0x14 _ (fun _ => satS_eq ..) hc he hr
  · exact laneOp_form 0x14 _ (fun _ => satN_eq ..) hc he hr
  · exact laneOp_form 0x14 _ (fun _ => minS_eq ..) hc he hr
  · exact laneOp_form 0x14 _ (fun _ => minN_eq ..) hc he hr
  · exact laneOp_form 0x14 _ (fun _ => maxS_eq ..) hc he hr
  · exact laneOp_form 0x14 _ (fun _ => maxN_eq ..) hc he hr
  · exact laneOp_form 0x14 _ (fun _ => rfl) hc he hr
  · exact laneOp_form 0x14 _ (fun _ => rfl) hc he hr
  · exact laneOp_form 0x14 _ (fun _ => rfl) hc he hr
  · exact compOp_form 0x14 _ _ (fun _ => rfl) hc he hr
  · exact compOp_form 0x14 _ _ (fun _ => shl_eq ..) hc he hr
  · exact laneOp_form 0x14 _ (fun _ => shrN_eq ..) hc he hr
  · exact laneOp_form 0x14 _ (fun _ => shrS_eq ..) hc he hr
  · exact laneOp_form 0x14 _ (fun _ => rotl_eq ..) hc he hr
  · exact compOp_form 0x14 _ _ (fun _ => rfl) hc he hr
  · exact laneOp_form 0x14 _ (fun _ => absS_eq ..) hc he hr
  · exact compOp_form 0x14 _ _ (fun _ => neg_eq_ofInt ..) hc he hr
  · exact laneOp_form 0x14 _ (fun _ => congrArg _ (popc_eq ..)) hc he hr
  · exact laneOp_form 0x14 _ (fun _ => congrArg _ (clz_eq ..)) hc he hr
  · exact laneOp_form 0x14 _ (fun _ => brev_eq ..) hc he hr
  · exact laneOp_form 0x14 _ (fun _ => bfx_eq_ofNat ..) hc he hr
  · exact laneOp_form 0x14 _ (fun _ => bfx_eq_ofInt ..) hc he hr
  · exact laneOp_form 0x14 _ (fun _ => bfi_eq ..) hc he hr
  · exact laneOp_done 0x14 _ _ _ hc he hr
  · exact vbcast_done hc he hr

end Sys2Proof.Machine
end

section
/-!
PROOFS. The functions of Table 17.1 in the words of the statements: operands and results in a format, packed elements, sums of products
(R77, R93, R236 to R245).
-/

namespace Sys2Proof.Machine

/-! ### Operands and results in a format (R238) -/

theorem fval_f32 (w : Word) : fval .f32 w = F32 w := congrArg (decodeF fp32) (Nat.mod_eq_of_lt w.isLt)

theorem abs_eq_ofNat (x : Word) : x &&& 0x7FFFFFFF#32 = BitVec.ofNat 32 (x.toNat % 2 ^ 31) := by
  apply BitVec.eq_of_toNat_eq
  rw [BitVec.toNat_and, BitVec.toNat_ofNat, BitVec.toNat_ofNat, Nat.mod_eq_of_lt (a := x.toNat % 2 ^ 31) (by omega)]
  exact Nat.and_two_pow_sub_one_eq_mod x.toNat 31

/-- Adding the sign bit turns it over. -/
theorem xor_signBit (x : Word) : x ^^^ 0x80000000#32 = x + 0x80000000#32 := by
  have hadd : ∀ y : Word, y.getLsbD 31 = false → y ^^^ 0x80000000#32 = y + 0x80000000#32 := by
    intro y hy
    have hbit (i : Nat) (hi : i < 32) : (0x80000000#32).getLsbD i = decide (i = 31) := by
      rw [show (0x80000000#32) = BitVec.twoPow 32 31 from rfl, BitVec.getLsbD_twoPow]
      grind
    have h0 : y &&& 0x80000000#32 = 0#32 := BitVec.eq_of_getLsbD_eq fun i hi => by
      rw [BitVec.getLsbD_and, hbit i hi]
      by_cases h : i = 31
      · rw [h, hy]; rfl
      · simp [h]
    rw [BitVec.add_eq_or_of_and_eq_zero _ _ h0]
    refine BitVec.eq_of_getLsbD_eq fun i hi => ?_
    rw [BitVec.getLsbD_xor, BitVec.getLsbD_or, hbit i hi]
    by_cases h : i = 31
    · rw [h, hy]; rfl
    · simp [h]
  cases hx : x.getLsbD 31 with
  | false => exact hadd x hx
  | true =>
    have hy := hadd (x ^^^ 0x80000000#32) (by rw [BitVec.getLsbD_xor, hx]; rfl)
    rw [BitVec.xor_assoc, BitVec.xor_self, BitVec.xor_zero] at hy
    conv_rhs => rw [hy]
    rw [BitVec.add_assoc]
    exact (BitVec.add_zero _).symm

theorem neg_eq_ofNat (x : Word) : x ^^^ 0x80000000#32 = BitVec.ofNat 32 (x.toNat + 2 ^ 31) := by
  rw [xor_signBit, BitVec.ofNat_add, BitVec.ofNat_toNat, BitVec.setWidth_eq]
  rfl

/-! ### Packed elements (R77, R93, R240, R243) -/

theorem dotRound_eq (n : Nat) (ta tb : Ty) (m : Rnd) (xs : List Word) :
    dotRound (packed ta n (w0 xs)) (packed tb n (w1 xs)) (d32 (w2 xs)) m = dotOf n ta tb m xs := by
  rw [dotRound, packed, packed, List.zipWith_map, List.zipWith_self]
  rfl

theorem intOf_signed {t : Ty} (h : isSigned t = true) (code : Nat) : intOf t code = (BitVec.ofNat t.width code).toInt := by
  have hm : (BitVec.ofNat t.width code).msb = bit (code % 2 ^ t.width) (t.width - 1) := by
    rw [BitVec.msb_eq_getLsbD_last, ← BitVec.toNat_ofNat, BitVec.getLsbD, Nat.testBit_eq_decide_div_mod_eq]
    rfl
  unfold intOf
  dsimp only
  rw [h, Bool.true_and, ← hm, BitVec.toInt_eq_msb_cond, BitVec.toNat_ofNat]

theorem placeScalar_eq (t : Ty) (code : Nat) : placeScalar t code = scalarOf t code := by
  unfold placeScalar scalarOf
  split
  · next h => rw [intOf_signed h]; rfl
  · rfl

/-- The bits of a number of which w bits at p are replaced. -/
theorem testBit_replaced (x p w y k : Nat) : (x - x / 2 ^ p % 2 ^ w * 2 ^ p + y % 2 ^ w * 2 ^ p).testBit k =
    if p ≤ k ∧ k < p + w then y.testBit (k - p) else x.testBit k := by
  have hx : x - x / 2 ^ p % 2 ^ w * 2 ^ p + y % 2 ^ w * 2 ^ p = 2 ^ p * (2 ^ w * (x / 2 ^ p / 2 ^ w) + y % 2 ^ w) + x % 2 ^ p := by
    have h1 := Nat.div_add_mod x (2 ^ p)
    have h2 := Nat.div_add_mod (x / 2 ^ p) (2 ^ w)
    generalize x % 2 ^ p = lo at *
    generalize x / 2 ^ p / 2 ^ w = hi at *
    generalize y % 2 ^ w = z
    generalize x / 2 ^ p % 2 ^ w = e at *
    rw [← h1, ← h2, Nat.mul_add, Nat.mul_add, Nat.mul_comm e, Nat.mul_comm z]
    omega
  rw [hx, Nat.testBit_two_pow_mul_add _ (Nat.mod_lt _ (by positivity)), Nat.testBit_two_pow_mul_add _ (Nat.mod_lt _ (by positivity))]
  by_cases h1 : k < p
  · rw [if_pos h1, Nat.testBit_mod_two_pow, decide_eq_true h1, Bool.true_and, if_neg (by omega)]
  · rw [if_neg h1]
    by_cases h2 : k - p < w
    · rw [if_pos h2, Nat.testBit_mod_two_pow, decide_eq_true h2, Bool.true_and, if_pos (by omega)]
    · rw [if_neg h2, if_neg (by omega), Nat.testBit_div_two_pow, Nat.testBit_div_two_pow]
      congr 1
      omega

theorem putElem_eq (d : Word) (w i code : Nat) : putElem d w i code = elemInto d w i code := by
  apply BitVec.eq_of_getLsbD_eq
  intro k hk
  rw [elemInto, BitVec.getLsbD_ofFnLE, dif_pos hk, putElem, elemOf, BitVec.getLsbD_ofNat, decide_eq_true hk, Bool.true_and, testBit_replaced]
  rfl

/-- A code of a format has no more bits than the format. -/
theorem roundF_lt {F : Fmt} (hn : F.nan < 2 ^ F.width) (hm : F.maxCode < 2 ^ (F.e + F.m)) (mode : Rnd) (x : XR) : roundF F mode x < 2 ^ F.width := by
  have hw : 2 ^ F.width = 2 ^ (F.e + F.m) + 2 ^ (F.e + F.m) := by rw [Fmt.width, Nat.add_assoc, Nat.add_comm 1, Nat.pow_succ]; omega
  have hs (b : Bool) : signBit F b ≤ 2 ^ (F.e + F.m) := by cases b <;> simp [signBit]
  have hi : (2 ^ F.e - 1) * 2 ^ F.m < 2 ^ (F.e + F.m) := by
    rw [Nat.pow_add]
    exact Nat.mul_lt_mul_of_pos_right (Nat.sub_lt (by positivity) (by decide)) (by positivity)
  have hov (b : Bool) : overflowCode F mode b < 2 ^ F.width := by
    have := hs b
    unfold overflowCode
    cases F.hasInf <;> cases mode <;> cases b <;> simp <;> omega
  unfold roundF
  split
  · exact hn
  · next b => have := hs b; split <;> omega
  · next b _ => have := hs b; omega
  · next b n d _ =>
    have := hs b
    have hmag (mag : Nat) : (if mag > F.maxCode then overflowCode F mode b else signBit F b + mag) < 2 ^ F.width := by
      split
      · exact hov b
      · omega
    exact hmag _

theorem half2_eq {op : FOp} {t : Ty} {m : Rnd} (xs : List Word) (h : ∀ ys, (applyF op t m ys).toNat < 2 ^ 16) :
    half2 op t m xs = halves (applyF op t m) xs := by
  have hl (w : Word) : w &&& 0xFFFF#32 = lowHalf w := by
    apply BitVec.eq_of_toNat_eq
    rw [BitVec.toNat_and, lowHalf, BitVec.toNat_ofNat, BitVec.toNat_ofNat, Nat.mod_eq_of_lt (a := w.toNat % 2 ^ 16) (by omega)]
    exact Nat.and_two_pow_sub_one_eq_mod w.toNat 16
  have hh (w : Word) : w >>> 16 = highHalf w := by
    apply BitVec.eq_of_toNat_eq
    rw [BitVec.toNat_ushiftRight, highHalf, BitVec.toNat_ofNat, Nat.shiftRight_eq_div_pow, Nat.mod_eq_of_lt]
    exact Nat.lt_of_le_of_lt (Nat.div_le_self ..) w.isLt
  have hlo := h (xs.map lowHalf)
  unfold half2 halves
  simp only [hl, hh]
  generalize applyF op t m (xs.map lowHalf) = lo at *
  generalize applyF op t m (xs.map highHalf) = hi
  apply BitVec.eq_of_toNat_eq
  rw [BitVec.toNat_or, BitVec.toNat_shiftLeft, BitVec.toNat_ofNat, Nat.shiftLeft_eq]
  have hdisj : lo.toNat ||| hi.toNat * 2 ^ 16 % 2 ^ 32 = lo.toNat + hi.toNat * 2 ^ 16 % 2 ^ 32 := by
    have he : hi.toNat * 2 ^ 16 % 2 ^ 32 = (hi.toNat % 2 ^ 16) <<< 16 := by rw [Nat.shiftLeft_eq]; omega
    rw [he, Nat.or_comm, ← Nat.shiftLeft_add_eq_or_of_lt hlo, Nat.add_comm]
  rw [hdisj]
  omega

end Sys2Proof.Machine
end

section
/-!
PROOFS. Every instruction of Table 17.1 and vext in its form, and the frame of the lane-wise instructions in their register forms (R31, R58, R101,
R181, R236).
-/

namespace Sys2Proof.Machine

/-- A 16-bit result has 16 bits. -/
theorem toFty_lt {t : Ty} (h : isH2 t = true) (m : Rnd) (x : XR) : (toFty t m x).toNat < 2 ^ 16 := by
  refine Nat.lt_of_le_of_lt ((BitVec.toNat_ofNat ..).trans_le (Nat.mod_le ..)) ?_
  cases t <;> simp only [isH2, Bool.false_eq_true] at h
  · exact roundF_lt (F := fp16) (by decide) (by decide) m x
  · exact roundF_lt (F := bf16) (by decide) (by decide) m x

theorem Fty_f32 : Fty .f32 = F32 := funext fval_f32

theorem scl_eq (m : Rnd) (xs : List Word) :
    applyF .scl .f32 m xs = toF32 m ((F32 (xs.getD 0 0)).scale (clampTo (-512) 512 (xs.getD 1 0).toInt)) := by
  show fput .f32 m ((fval .f32 (xs.getD 0 0)).scale (sclShift (xs.getD 1 0))) = _
  rw [fval_f32, sclShift, clampInt_eq (by decide)]
  rfl

theorem getD_drop_one (xs : List Word) : (xs.drop 1).getD 0 0 = w1 xs := by
  rw [List.getD_eq_getElem?_getD, List.getElem?_drop]
  rfl

/-- vext's and fcvt's word, from the old destination and the source. -/
theorem vext_eq (t st : Ty) (i : Nat) (d x : Word) : vext t st i d x =
    (let v := if st.narrowInt then x.toNat / 2 ^ (st.width * i) % 2 ^ st.width else x.toNat
      if st.narrowInt then scalarOf t (convert t st .rn v)
      else if t.narrowInt then elemInto d t.width i (convert t st .rn v) else BitVec.ofNat 32 (convert t st .rn v)) := by
  unfold vext
  cases st.narrowInt <;> cases t.narrowInt <;> simp only [placeScalar_eq, putElem_eq, if_true, Bool.false_eq_true, if_false] <;> rfl

theorem fcvtW_eq (t st : Ty) (m : Rnd) (i : Nat) (j : BitVec 8) (d x : Word) : fcvtW t st m i j.toNat d x =
    (let v := if st.width < 32 then x.toNat / 2 ^ (st.width * i) % 2 ^ st.width else x.toNat
      if j = 0 then scalarOf t (convert t st m v) else elemInto d t.width (j.toNat - 1) (convert t st m v)) := by
  unfold fcvtW
  have hj : (j.toNat = 0) = (j = 0) := propext ⟨fun h => BitVec.eq_of_toNat_eq h, fun h => h ▸ rfl⟩
  simp only [hj, placeScalar_eq, putElem_eq]
  rfl

section
variable {s : State} {c : Cur}

theorem vext_done {e : Scope} {ty st : Ty} {a : VDst} {b : VSrc} {i : BitVec 8} {f : List Word → Word → Word}
    (hf : ∀ xs old, f xs old = vext ty st i.toNat old (xs.getD 0 0)) (hc : s.cur = some c) (he : c.empty = false)
    (hr : ready? s c (convForm a ty b f).ops (.v (convForm a ty b f).dst) false = none) :
    ∃ t, execVext e ty st a b i s = .next t ∧ effectIs ((convForm a ty b f).written s c) t := by
  have hone (xs : List Word) : vext ty st i.toNat 0#32 (w0 xs) = f xs 0 := (hf xs 0).symm
  have htwo (xs : List Word) : vext ty st i.toNat (w0 xs) (w1 xs) = f (xs.drop 1) (xs.getD 0 0) := by rw [hf, getD_drop_one]; rfl
  cases a with
  | chan ch => exact laneOp_form 0x14 _ hone hc he hr
  | reg r =>
    unfold execVext
    unfold convForm at hr ⊢
    cases hn : ty.narrowInt with
    | true => rw [hn] at hr; exact laneOp_form 0x14 _ htwo hc he hr
    | false => rw [hn] at hr; exact laneOp_form 0x14 _ hone hc he hr

theorem fcvt_done {e : Scope} {ty st : Ty} {m : Rnd} {a : VDst} {b : VSrc} {i j : BitVec 8} {f : List Word → Word → Word}
    (hw : fcvtOk ty st a i j = true) (hf : ∀ xs old, f xs old = fcvtW ty st m i.toNat j.toNat old (xs.getD 0 0)) (hc : s.cur = some c) (he : c.empty = false)
    (hr : ready? s c (cvtForm a j b f).ops (.v (cvtForm a j b f).dst) false = none) :
    ∃ t, execFcvt e ty st m a b i j s = .next t ∧ effectIs ((cvtForm a j b f).written s c) t := by
  have hone (h : j = 0) (xs : List Word) : fcvtW ty st m i.toNat 0 0#32 (w0 xs) = f xs 0 := by rw [hf, h]; rfl
  have htwo (xs : List Word) : fcvtW ty st m i.toNat j.toNat (w0 xs) (w1 xs) = f (xs.drop 1) (xs.getD 0 0) := by rw [hf, getD_drop_one]; rfl
  cases a with
  | chan ch =>
    have hj : j = 0 := by
      simp only [fcvtOk, fcvtFields, VDst.isReg, Bool.or_false, Bool.and_eq_true, beq_iff_eq] at hw
      exact hw.2.2
    exact laneOp_form 0x18 _ (hone hj) hc he hr
  | reg r =>
    unfold execFcvt
    unfold cvtForm at hr ⊢
    by_cases hj : j = 0
    · have hb : (j == 0#8) = true := by rw [hj]; rfl
      simp only [if_pos hj, hb] at hr ⊢
      exact laneOp_form 0x18 _ (hone hj) hc he hr
    · have hb : (j == 0#8) = false := beq_eq_false_iff_ne.mpr hj
      simp only [if_neg hj, hb] at hr ⊢
      exact laneOp_form 0x18 _ htwo hc he hr

theorem arithF_form {d : VDst} {ops : List Opd} {f : List Word → Word} (cls : Nat) (op : FOp) (t : Ty) (m : Rnd) (h : ∀ xs, applyF op t m xs = f xs)
    (hc : s.cur = some c) (he : c.empty = false) (hr : ready? s c ops (.v d) false = none) :
    ∃ u, arithF cls op t m d ops s = .next u ∧ effectIs ((LaneForm.of d ops f).written s c) u := compOp_form cls _ _ h hc he hr

end

theorem fltForm_done (i : Instr) (F : LaneForm) (s : State) (c : Cur) (hw : i.wf = true) (hF : fltForm i = some F) (hc : s.cur = some c)
    (he : c.empty = false) (hr : ready? s c F.ops (.v F.dst) false = none) : ∃ t, exec i s = .next t ∧ effectIs (F.written s c) t := by
  unfold fltForm at hF
  split at hF <;> cases hF <;> dsimp only [exec] <;> simp only [Instr.wf] at hw
  · exact arithF_form 0x18 .add .f32 .rn (fun _ => by rw [← Fty_f32]; rfl) hc he hr
  · exact arithF_form 0x18 .add _ _ (fun _ => rfl) hc he hr
  · exact arithF_form 0x18 .sub .f32 .rn (fun _ => by rw [← Fty_f32]; rfl) hc he hr
  · exact arithF_form 0x18 .sub _ _ (fun _ => rfl) hc he hr
  · exact arithF_form 0x18 .mul .f32 .rn (fun _ => by rw [← Fty_f32]; rfl) hc he hr
  · exact arithF_form 0x18 .mul _ _ (fun _ => rfl) hc he hr
  · exact arithF_form 0x19 .fma .f32 .rn (fun _ => by rw [← Fty_f32]; rfl) hc he hr
  · exact arithF_form 0x19 .fma _ _ (fun _ => rfl) hc he hr
  · exact arithF_form 0x1A .div .f32 .rn (fun _ => by rw [← Fty_f32]; rfl) hc he hr
  · exact arithF_form 0x1A .div _ _ (fun _ => rfl) hc he hr
  · exact arithF_form 0x1A .sqrt .f32 .rn (fun _ => by rw [← Fty_f32]; rfl) hc he hr
  · exact arithF_form 0x1A .sqrt _ _ (fun _ => rfl) hc he hr
  · exact arithF_form 0x18 .min .f32 .rn (fun _ => rfl) hc he hr
  · exact arithF_form 0x18 .max .f32 .rn (fun _ => rfl) hc he hr
  · exact arithF_form 0x18 .abs .f32 .rn (fun _ => abs_eq_ofNat ..) hc he hr
  · exact arithF_form 0x18 .neg .f32 .rn (fun _ => neg_eq_ofNat ..) hc he hr
  · exact arithF_form 0x18 .scl .f32 .rn (scl_eq _) hc he hr
  · exact arithF_form 0x18 .scl .f32 _ (scl_eq _) hc he hr
  · exact laneOp_form 0x1B _ (dotRound_eq 4 _ _ _) hc he hr
  · exact laneOp_form 0x1B _ (dotRound_eq 8 _ _ _) hc he hr
  · exact laneOp_form 0x1C _ (fun xs => half2_eq (op := .add) xs fun _ => toFty_lt hw _ _) hc he hr
  · exact laneOp_form 0x1C _ (fun xs => half2_eq (op := .mul) xs fun _ => toFty_lt hw _ _) hc he hr
  · exact laneOp_form 0x1C _ (fun xs => half2_eq (op := .fma) xs fun _ => toFty_lt hw _ _) hc he hr
  · exact vext_done (fun _ _ => (vext_eq ..).symm) hc he hr
  · exact fcvt_done hw (fun _ _ => (fcvtW_eq ..).symm) hc he hr
  · exact laneOp_form 0x1D _ (fun _ => rfl) hc he hr
  · exact laneOp_form 0x1D _ (fun _ => rfl) hc he hr

/-- Settles O5: each form's effect, read off lane by lane by `vecDone_of`. -/
theorem vectorFrame : Obligations.VectorFrame := by
  intro i F s c n hw hF hd hreg hc hs he hr
  have h : ∃ t, exec i s = .next t ∧ effectIs (F.written s c) t := by
    rcases hF with hF | hF
    · exact intForm_done i F s c hF hc he hr
    · exact fltForm_done i F s c hw hF hc he hr
  obtain ⟨t, ht, heff⟩ := h
  exact ⟨t, ht, vecDone_of hs he hd hreg heff⟩

end Sys2Proof.Machine
end

section
/-!
PROOFS. The checks of an issue in the words of the statements: capability operands, the check at the core, a lane's request (R97, R105, R205 to
R210, R214, R226 to R229, R252).
-/

namespace Sys2Proof.Machine

theorem has_eq_holds {need : Nat} (h : need < 2 ^ 12) (k : Cap) : k.has need = Sys2Proof.holds k need := by
  rw [Bool.eq_iff_iff]
  unfold Cap.has Sys2Proof.holds
  rw [beq_iff_eq, List.all_eq_true]
  have hp (i : Nat) (hi : i < 12) : k.perm.testBit i = k.bits.getLsbD (106 + i) := by
    rw [Cap.perm, Cap.n, bits, Nat.testBit_mod_two_pow, decide_eq_true hi, Bool.true_and, Nat.testBit_div_two_pow, BitVec.getLsbD, Nat.add_comm]
  constructor
  · intro e i hi
    have hb := congrArg (Nat.testBit · i) e
    simp only [Nat.testBit_and, hp i (List.mem_range.mp hi)] at hb
    cases hn : need.testBit i with
    | false => rfl
    | true => rw [hn, Bool.true_and] at hb; rw [hb]; rfl
  · intro e
    apply Nat.eq_of_testBit_eq
    intro i
    rw [Nat.testBit_and]
    cases hn : need.testBit i with
    | false => rfl
    | true =>
      have hi : i < 12 := by
        by_contra hge
        have := Nat.testBit_lt_two_pow (x := need) (i := i) (Nat.lt_of_lt_of_le h (Nat.pow_le_pow_right (by decide) (Nat.not_lt.mp hge)))
        rw [hn] at this
        cases this
      have := e i (List.mem_range.mpr hi)
      rw [hn, Bool.not_true, Bool.false_or] at this
      rw [hp i hi, this]; rfl

theorem sealed_eq (k : Cap) : k.sealed = k.bits.getLsbD 115 := by
  rw [Cap.sealed, has_eq_holds (by decide)]
  have h (i : Nat) : Nat.testBit 512 i = decide (9 = i) := Nat.testBit_two_pow (n := 9)
  simp [Sys2Proof.holds, Perm.sealBit, List.range, List.range.loop, h]

/-- An access that R105 allows passes the check at the core. -/
theorem capCheck_ok {k : Cap} {d : Int} {n need x : Nat} (hn : need < 2 ^ 12) (h : accessOff k d n need = some x) : capCheck k d n need = .ok x := by
  unfold accessOff at h
  split at h
  · next hc =>
    obtain ⟨ht, hs, hp, hb, he⟩ := hc
    obtain rfl := Option.some.inj h
    unfold capCheck
    rw [ht, sealed_eq, hs, has_eq_holds hn, hp]
    simp only [Bool.not_true, Bool.false_eq_true, if_false]
    rw [if_neg (by omega)]
  · cases h

theorem capReq_ok {l : Nat} {k : Cap} {d : Int} {n need : Nat} {q : LReq} (hn : need < 2 ^ 12) (h : objReq l k d n need = some q) :
    capReq l k d n need = .ok q := by
  unfold objReq at h
  obtain ⟨x, hx, rfl⟩ := Option.map_eq_some_iff.mp h
  unfold capReq
  rw [capCheck_ok hn hx]

theorem toNat_append_add {m n : Nat} (x : BitVec m) (y : BitVec n) : (x ++ y).toNat = x.toNat * 2 ^ n + y.toNat := by
  rw [BitVec.toNat_append, ← Nat.shiftLeft_add_eq_or_of_lt y.isLt, Nat.shiftLeft_eq]

theorem append_four (a b c d : Word) :
    d ++ c ++ b ++ a = BitVec.ofNat 128 (a.toNat + (b.toNat * 2 ^ 32 + (c.toNat * 2 ^ 64 + d.toNat * 2 ^ 96))) := by
  apply BitVec.eq_of_toNat_eq
  have ha := a.isLt
  have hb := b.isLt
  have hc := c.isLt
  have hd := d.isLt
  rw [toNat_append_add, toNat_append_add, toNat_append_add, BitVec.toNat_ofNat]
  omega

theorem sum_four (f : Nat → Nat) : ((List.range 4).map f).sum = f 0 + (f 1 + (f 2 + f 3)) := rfl

theorem quadOf_eq (G : Group) (l : Nat) (b : RSrc) (xs : List Word) (i : Nat) : capAt G l b xs i = quadOf G l b xs i := by
  unfold capAt quadOf wordsCap
  rw [sum_four, append_four, Nat.mul_zero, Nat.pow_zero, Nat.mul_one]
  rfl

end Sys2Proof.Machine
end

section
/-!
PROOFS. Every instruction whose wide issue waits for translation, as an issue: its kind, operands and destination, and the request that it
builds for a lane whose checks pass (R205 to R210, R214, R226 to R229, R252).
-/

namespace Sys2Proof

open Machine

/-- What an instruction of a form does at issue. -/
def IssueForm.issue (F : IssueForm) (cls : Nat) (per : Per) : Issue :=
  { cls, per, kind := F.kind, dst := F.dst, ops := F.ops, us := F.us, hold := F.hold, slot := F.slot, stride := F.stride }

/-- A lane's request is built where its checks pass. -/
def IssueForm.builtBy (F : IssueForm) (build : Group → Nat → List Word → Except (Nat × Nat) LReq) : Prop :=
  ∀ G l xs q, F.req G l xs = some q → build G l xs = .ok q

/-- An instruction issues as a form says. -/
def IssueForm.runsAs (F : IssueForm) (s : State) (o : Out) : Prop :=
  ∃ cls per build, o = issueOp (F.issue cls per) build s ∧ F.builtBy build

end Sys2Proof

namespace Sys2Proof.Machine

section
variable {s : State} {c : Cur}

theorem bind_ok {ε α β : Type} {m : Except ε α} {f : α → Except ε β} {x : α} (h : m = .ok x) : (m >>= f) = f x := by rw [h]; rfl

/-! ### Loads, stores and the span query -/

theorem ldForm_runs (n : Nat) (sgn : Bool) (a : BitVec 6) (k : Nat) (b : RSrc) (d : VSrc) :
    (ldForm n sgn a k b d).runsAs s (loadOp n sgn a k b d s) := by
  refine ⟨0x20, .lane, _, rfl, fun G l xs q h => ?_⟩
  rw [quadOf_eq]
  exact capReq_ok (by decide) h

theorem ldc_runs (e : Scope) (a : BitVec 6) (b : RSrc) (d : VSrc) {F : IssueForm} (hF : issueForm s c (.ldc e a b d) = some F) :
    F.runsAs s (execLdc e a b d s) := by
  cases hF
  refine ⟨0x20, .lane, _, rfl, fun G l xs q h => ?_⟩
  obtain ⟨hq, hx⟩ := Option.filter_eq_some_iff.mp h
  rw [quadOf_eq]
  exact (bind_ok (capReq_ok (by decide) hq)).trans (if_neg (not_not_intro (beq_iff_eq.mp hx)))

theorem stForm_runs (n : Nat) (a : Opd) (w : Nat) (b : RSrc) (d : VSrc) : (stForm n a w b d).runsAs s (storeOp n a w b d s) := by
  refine ⟨0x21, .lane, _, rfl, fun G l xs q h => ?_⟩
  obtain ⟨p, hp, rfl⟩ := Option.map_eq_some_iff.mp h
  rw [quadOf_eq, show 2 ^ (8 * n) = 256 ^ n by rw [Nat.pow_mul]]
  exact bind_ok (capReq_ok (by decide) hp)

theorem stc_runs (e : Scope) (a b : RSrc) (d : VSrc) {F : IssueForm} (hF : issueForm s c (.stc e a b d) = some F) :
    F.runsAs s (execStc e a b d s) := by
  cases hF
  refine ⟨0x21, .lane, _, rfl, fun G l xs q h => ?_⟩
  obtain ⟨p, hp, rfl⟩ := Option.map_eq_some_iff.mp h
  obtain ⟨hq, hx⟩ := Option.filter_eq_some_iff.mp hp
  rw [Bool.and_eq_true] at hx
  obtain ⟨hx, hg⟩ := hx
  have hneed : (if (quadOf G l a xs 0).tag then Perm.w + Perm.sc else Perm.w) < 2 ^ 12 := by split <;> decide
  have hglb : ¬ ((quadOf G l a xs 0).tag && !(quadOf G l a xs 0).has Perm.glb) = true := by
    rw [has_eq_holds (by decide)]
    cases ht : (quadOf G l a xs 0).tag <;> simp_all
  rw [quadOf_eq, quadOf_eq]
  exact ((bind_ok (capReq_ok hneed hq)).trans (if_neg (not_not_intro (beq_iff_eq.mp hx)))).trans (if_neg hglb)

theorem spanq_runs (e : Scope) (a : BitVec 6) (b : RSrc) (d : VSrc) {F : IssueForm} (hF : issueForm s c (.spanq e a b d) = some F) :
    F.runsAs s (execSpanq e a b d s) := by
  cases hF
  refine ⟨0x20, .lane, _, rfl, fun G l xs q h => ?_⟩
  rw [quadOf_eq]
  exact capReq_ok (by decide) h

/-! ### Atomics -/

/-- An atomic that releases meets no operation of its lanes that a fault ended, or goes on with what it has issued. -/
theorem atForm_runs (op : Nat) (ty : Ty) (o : AOrd) (a : BitVec 6) (b : RSrc) (d x : VSrc) (hc : s.cur = some c)
    (hn : noneFaulted (atForm op ty o a b d x) s c ∨ heldOps s c ≠ []) :
    (atForm op ty o a b d x).runsAs s (atomicOp op (op == 7) ty o a b d x s) := by
  have hbad : ((o == .rel || o == .ar) && (heldOps s c).isEmpty && !(faultedOf s c.blk c.elems fun _ => true).isEmpty) = false := by
    rcases hn with hn | hn
    · have h := hn op ty o rfl
      cases o <;> simp_all
    · simp [hn]
  have hw : (if (op == 7) = true then (if ty = .b64 then 2 else 1) else 0) = if op = 7 then (if ty = .b64 then 2 else 1) else 0 := by
    simp only [beq_iff_eq]
  have ho : (if (op == 7) = true then [Opd.old a (if ty = .b64 then 2 else 1)] else []) =
      if op = 7 then [Opd.r ⟨a, false⟩ (if ty = .b64 then 2 else 1)] else [] := by
    simp only [beq_iff_eq]
    rfl
  unfold atomicOp
  simp only [hc, hbad, Bool.false_eq_true, if_false, List.isEmpty_nil, Bool.not_true, hw, ho]
  refine ⟨0x22, .lane, _, rfl, fun G l xs q h => ?_⟩
  obtain ⟨p, hp, rfl⟩ := Option.map_eq_some_iff.mp h
  obtain ⟨hq, hx⟩ := Option.filter_eq_some_iff.mp hp
  rw [quadOf_eq]
  exact (bind_ok (capReq_ok (by decide) hq)).trans (if_neg (not_not_intro (beq_iff_eq.mp hx)))

/-! ### Copies -/

theorem partsOf_eq (n : Nat) : partsOf n = List.range ((n + 63) / 64) := rfl

theorem spmCheck_ok {b x n align : Nat} (ha : x % align = 0) (hl : x + n ≤ ((tget? s.blocks b).map (·.spmLen)).getD 0) :
    spmCheck s b x n align = .ok () := by
  unfold spmCheck
  rw [if_neg (not_not_intro ha), if_neg (Nat.not_lt.mpr hl)]

theorem cpy_runs (e : Scope) (a b : RSrc) (d x : VSrc) {F : IssueForm} (hF : issueForm s c (.cpy e a b d x) = some F) (hc : s.cur = some c) :
    F.runsAs s (execCpy e a b d x s) := by
  cases hF
  unfold execCpy
  rw [hc]
  refine ⟨0x29, .lane, _, rfl, fun G l xs q h => ?_⟩
  dsimp only [cpyReq] at h
  split at h
  · next y z hy hz =>
    split at h
    · next hk =>
      obtain ⟨h1, h2, hobn, hwin⟩ := hk
      obtain rfl := Option.some.inj h
      rw [quadOf_eq, quadOf_eq]
      refine ((if_neg (not_or.mpr ⟨Nat.not_lt.mpr h1, Nat.not_lt.mpr h2⟩)).trans (if_neg hobn)).trans ?_
      refine ((bind_ok (capCheck_ok (by decide) hy)).trans (bind_ok (capCheck_ok (by decide) hz))).trans ?_
      exact if_neg fun hb => Nat.not_lt.mpr (hwin hb.1) hb.2
    · cases h
  · cases h

theorem cpysIn_runs (e : Scope) (a : VSrc) (b : RSrc) (d x : VSrc) {F : IssueForm} (hF : issueForm s c (.cpysIn e a b d x) = some F)
    (hc : s.cur = some c) : F.runsAs s (execCpysIn e a b d x s) := by
  cases hF
  unfold execCpysIn
  rw [hc]
  refine ⟨0x29, .lane, _, rfl, fun G l xs q h => ?_⟩
  dsimp only [cpysReq] at h
  split at h
  · next hk =>
    obtain ⟨ho, hn, h4, hl⟩ := hk
    obtain ⟨y, hy, rfl⟩ := Option.map_eq_some_iff.mp h
    rw [quadOf_eq]
    refine ((if_neg (not_or.mpr ⟨not_not_intro ho, not_not_intro hn⟩)).trans (if_neg (Nat.not_lt.mpr h4))).trans ?_
    exact (bind_ok (spmCheck_ok ho hl)).trans (bind_ok (capCheck_ok (by decide) hy))
  · cases h

theorem cpysOut_runs (e : Scope) (a : VSrc) (b : RSrc) (d x : VSrc) {F : IssueForm} (hF : issueForm s c (.cpysOut e a b d x) = some F)
    (hc : s.cur = some c) : F.runsAs s (execCpysOut e a b d x s) := by
  cases hF
  unfold execCpysOut
  rw [hc]
  refine ⟨0x29, .lane, _, rfl, fun G l xs q h => ?_⟩
  dsimp only [cpysReq] at h
  split at h
  · next hk =>
    obtain ⟨ho, hn, h4, hl⟩ := hk
    obtain ⟨y, hy, rfl⟩ := Option.map_eq_some_iff.mp h
    rw [quadOf_eq]
    refine ((if_neg (not_or.mpr ⟨not_not_intro ho, not_not_intro hn⟩)).trans (if_neg (Nat.not_lt.mpr h4))).trans ?_
    exact (bind_ok (spmCheck_ok ho hl)).trans (bind_ok (capCheck_ok (by decide) hy))
  · cases h

/-- A mask of ranks below 16. -/
theorem ranks_eq {m : Nat} (h : m < 2 ^ 16) : (below 32 fun r => bit m r) = (List.range 16).filter fun r => m.testBit r := by
  have hb (r : Nat) : bit m r = m.testBit r := by rw [Nat.testBit_eq_decide_div_mod_eq]; rfl
  have h32 : List.range 32 = List.range 16 ++ (List.range 16).map (16 + ·) := by rw [← List.range_add]
  have hnil : ((List.range 16).map (16 + ·)).filter (fun r => m.testBit r) = [] := by
    refine List.filter_eq_nil_iff.mpr fun r hr => ?_
    obtain ⟨k, -, rfl⟩ := List.mem_map.mp hr
    rw [Nat.testBit_lt_two_pow (Nat.lt_of_lt_of_le h (Nat.pow_le_pow_right (by decide) (Nat.le_add_right ..)))]
    decide
  rw [below, h32, List.filter_append, funext hb, hnil, List.append_nil]

theorem mcast_runs (e : Scope) (a : VSrc) (b : RSrc) (d x : VSrc) {F : IssueForm} (hF : issueForm s c (.mcast e a b d x) = some F)
    (hc : s.cur = some c) : F.runsAs s (execMcast e a b d x s) := by
  cases hF
  unfold execMcast
  rw [hc]
  refine ⟨0x29, .lane, _, rfl, fun G l xs q h => ?_⟩
  dsimp only [mcastReq] at h
  split at h
  · next hk =>
    obtain ⟨hm, hm0, hr, hlen, hsave, hsame, ho, hn, h4, h64, hl⟩ := hk
    obtain ⟨y, hy, rfl⟩ := Option.map_eq_some_iff.mp h
    have hranks : (below 32 fun r => bit (xs.getD 6 0#32).toNat r) = _ := ranks_eq hm
    rw [quadOf_eq]
    dsimp only
    rw [hranks]
    refine ((if_neg ?_).trans ((if_neg ?_).trans ((if_neg ?_).trans (if_neg ?_)))).trans (bind_ok (capCheck_ok (by decide) hy))
    · rintro (h | h | h | h | h)
      · exact h (Nat.div_eq_of_lt hm)
      · exact hm0 h
      · obtain ⟨r, hm, hle⟩ := List.any_eq_true.mp h
        exact Nat.not_lt.mpr (of_decide_eq_true hle) (hr r hm)
      · exact h hlen
      · obtain ⟨t, hm, ht⟩ := List.any_eq_true.mp h
        exact Bool.false_ne_true ((hsave t hm).symm.trans ht)
    · rintro h
      obtain ⟨t, hm, ht⟩ := List.any_eq_true.mp h
      obtain ⟨h1, h2⟩ := hsame t hm
      simp only [sameTicket, h1, h2, beq_self_eq_true, Bool.and_self, Bool.not_true, Bool.false_eq_true] at ht
    · exact not_or.mpr ⟨not_not_intro ho, not_not_intro hn⟩
    · rintro (h | h | h)
      · exact Nat.not_lt.mpr h4 h
      · exact Nat.not_lt.mpr h64 h
      · obtain ⟨t, hm, ht⟩ := List.any_eq_true.mp h
        exact Nat.not_lt.mpr (hl t hm) (of_decide_eq_true ht)
  · cases h

theorem oload_runs (e : Scope) (o : BitVec 5) (b d : RSrc) (src : Bool) {F : IssueForm} (hF : issueForm s c (.oload e o b d src) = some F)
    (hh : F.hold = true) (hc : s.cur = some c) : F.runsAs s (execOload e o b d src s) := by
  cases hF
  obtain rfl : src = false := by cases src <;> simp_all [oloadForm]
  unfold execOload
  rw [hc]
  refine ⟨0x2D, .issue, _, rfl, fun G l xs q h => ?_⟩
  dsimp only [oloadForm] at h
  simp only [Bool.false_eq_true, if_false] at h
  split at h
  · next k y hstart =>
    split at h
    · next hk =>
      obtain ⟨hs64, hs128, hsmax, hslot⟩ := hk
      split at hstart
      · next hcur =>
        obtain ⟨y', hy, he⟩ := Option.map_eq_some_iff.mp hstart
        obtain ⟨rfl, rfl⟩ := Prod.mk.inj he
        have hsrc : c.src s d = s.sAt (gkey c.blk c.lead) d.n.toNat := rfl
        have hd : ¬ ((c.src s d).toNat % 2 ^ 32 % 64 ≠ 0 ∨ (c.src s d).toNat % 2 ^ 32 < 128 ∨ 2 ^ 26 < (c.src s d).toNat % 2 ^ 32) := by
          rw [hsrc]; omega
        have hsl : ¬ (tget? (((tget? s.blocks c.blk).map (·.slots)).getD []) o.toNat).isNone = true := by
          cases hB : tget? s.blocks c.blk with
          | none => rw [hB] at hslot; cases hslot
          | some B => simpa [hB, Option.isSome_iff_ne_none] using hslot
        have hck : capCheck (c.srcPair s b) 0 (63 * ((c.src s d).toNat % 2 ^ 32) + 128) Perm.r = .ok y' := capCheck_ok (by decide) hy
        simp only [Bool.false_eq_true, if_false, hcur, ne_eq, not_true_eq_false, hck, Except.bind, if_neg hd, if_neg hsl]
        rw [← Option.some.inj h]
        by_cases hl : c.elems.head?.map (·.2) = some l
        · rw [if_pos hl, if_pos hl.symm, if_pos hl.symm]; rfl
        · rw [if_neg hl, if_neg (Ne.symm hl), if_neg (Ne.symm hl)]; rfl
      · cases hstart
    · cases h
  · cases h

/-- An instruction of a form whose wide issue waits for translation issues as the form says. -/
theorem issueForm_runs {i : Instr} {F : IssueForm} (hi : issueForm s c i = some F) (hh : F.hold = true) (hc : s.cur = some c)
    (hn : noneFaulted F s c ∨ heldOps s c ≠ []) : F.runsAs s (exec i s) := by
  have hF := hi
  unfold issueForm at hF
  split at hF <;> dsimp only [exec]
  · cases hF; exact ldForm_runs ..
  · cases hF; exact ldForm_runs ..
  · cases hF; exact ldForm_runs ..
  · cases hF; exact ldForm_runs ..
  · cases hF; exact ldForm_runs ..
  · cases hF; exact ldForm_runs ..
  · cases hF; exact ldForm_runs ..
  · exact ldc_runs _ _ _ _ hi
  · cases hF; exact stForm_runs ..
  · cases hF; exact stForm_runs ..
  · cases hF; exact stForm_runs ..
  · cases hF; exact stForm_runs ..
  · cases hF; exact stForm_runs ..
  · exact stc_runs _ _ _ _ hi
  · cases hF; cases hh
  · cases hF; cases hh
  · cases hF; cases hh
  · cases hF; cases hh
  · cases hF; cases hh
  · cases hF; cases hh
  · cases hF; cases hh
  · cases hF; exact atForm_runs _ _ _ _ _ _ _ hc hn
  · cases hF; exact atForm_runs _ _ _ _ _ _ _ hc hn
  · cases hF; exact atForm_runs _ _ _ _ _ _ _ hc hn
  · cases hF; exact atForm_runs _ _ _ _ _ _ _ hc hn
  · cases hF; exact atForm_runs _ _ _ _ _ _ _ hc hn
  · cases hF; exact atForm_runs _ _ _ _ _ _ _ hc hn
  · cases hF; exact atForm_runs _ _ _ _ _ _ _ hc hn
  · cases hF; exact atForm_runs _ _ _ _ _ _ _ hc hn
  · exact spanq_runs _ _ _ _ hi
  · exact cpy_runs _ _ _ _ _ hi hc
  · exact cpysIn_runs _ _ _ _ _ hi hc
  · exact cpysOut_runs _ _ _ _ _ hi hc
  · exact mcast_runs _ _ _ _ _ hi hc
  · exact oload_runs _ _ _ _ _ hi hh hc
  · cases hF

end

end Sys2Proof.Machine
end

section
/-!
PROOFS. Operations that a wide scope holds: how they are made, and how the issuers wait at the word (R35, R198, R207, R340).
-/

namespace Sys2Proof.Machine

/-! ### Issuers that wait -/

theorem issuer?_setIssuer_ne (G : Group) {k j : Nat} (i : Issuer) (h : j ≠ k) : (G.setIssuer k i).issuer? j = G.issuer? j := by
  cases k with
  | zero => cases j with
    | zero => exact absurd rfl h
    | succ j => rfl
  | succ k => cases j with
    | zero => rfl
    | succ j => exact tget?_tset_ne _ _ fun e => h (congrArg (· + 1) e)

theorem issuer?_modIssuer (s : State) (r x : IRef) (f : Issuer → Issuer) :
    (s.modIssuer r f).issuer? x = (s.issuer? x).map f ∨ (x ≠ r ∧ (s.modIssuer r f).issuer? x = s.issuer? x) := by
  unfold State.issuer? State.modIssuer State.grp? State.modGroup
  rw [tget?_tmod]
  by_cases hk : gkey x.blk x.gidx = gkey r.blk r.gidx
  · rw [if_pos hk, hk]
    cases hG : tget? s.groups (gkey r.blk r.gidx) with
    | none => exact .inl rfl
    | some G =>
      simp only [Option.map_some, Option.bind_some]
      by_cases hi : x.iss = r.iss
      · left
        rw [hi]
        cases hj : G.issuer? r.iss with
        | none => exact hj
        | some j => exact issuer?_setIssuer_self ..
      · right
        refine ⟨fun e => hi (congrArg IRef.iss e), ?_⟩
        cases hj : G.issuer? r.iss with
        | none => rfl
        | some j => exact issuer?_setIssuer_ne _ _ hi
  · rw [if_neg hk]
    exact .inr ⟨fun e => hk (by rw [e]), rfl⟩

/-- Where doing a thing twice is doing it once, every issuer of a list has it done. -/
theorem issuer?_foldl_modIssuer {f : Issuer → Issuer} (hf : ∀ i, f (f i) = f i) (l : List IRef) (s : State) (x : IRef) :
    (l.foldl (fun s r => s.modIssuer r f) s).issuer? x = (s.issuer? x).map f ∨
      (x ∉ l ∧ (l.foldl (fun s r => s.modIssuer r f) s).issuer? x = s.issuer? x) := by
  induction l generalizing s with
  | nil => exact .inr ⟨List.not_mem_nil, rfl⟩
  | cons r l ih =>
    have hff : ((s.issuer? x).map f).map f = (s.issuer? x).map f := by rw [Option.map_map]; exact congrArg (Option.map · _) (funext hf)
    rcases ih (s.modIssuer r f) with h | ⟨hl, h⟩ <;> rcases issuer?_modIssuer s r x f with h' | ⟨hr, h'⟩
    · exact .inl (h.trans (by rw [h', hff]))
    · exact .inl (h.trans (by rw [h']))
    · exact .inl (h.trans h')
    · exact .inr ⟨fun hm => (List.mem_cons.mp hm).elim hr hl, h.trans h'⟩

/-- The issuers of the word wait at it; nothing else changes. -/
theorem block_spec {s : State} {c : Cur} (w : Wait) (hc : s.cur = some c) :
    (block w s).cur = none ∧ outside s (block w s) ∧ groupsKept Group.noPos s (block w s) ∧
      ∀ r ∈ c.arr, ∀ j, s.issuer? r = some j → (block w s).issuer? r = some { j with wait := w } := by
  unfold block
  rw [hc]
  dsimp only
  have ho := foldl_outside c.arr (fun s r => s.modIssuer r fun i => { i with wait := w }) (fun _ _ => outside_modIssuer ..) s
  have hg := foldl_groupsKept c.arr (fun s r => s.modIssuer r fun i => { i with wait := w })
    (fun _ _ => noPos_modIssuer _ _ _ fun _ => ⟨rfl, rfl⟩) s
  refine ⟨rfl, outside_trans ho ⟨rfl, fun _ => rfl, fun _ => rfl, fun _ => rfl, fun _ => rfl⟩, groupsKept_trans hg (groupsKept_of_eq rfl), ?_⟩
  intro r hr j hj
  rcases issuer?_foldl_modIssuer (f := fun i => { i with wait := w }) (fun _ => rfl) c.arr s r with h | ⟨hn, -⟩
  · exact h.trans (by rw [hj]; rfl)
  · exact absurd hr hn

/-! ### Making operations -/

/-- Requests and operations without what probing records of them (R340). -/
def LReq.bare (q : LReq) : LReq := { q with probe := false }
def Op.bare (o : Op) : Op := { o with lanes := o.lanes.map LReq.bare }

/-- The tables of operations agree but for what probing records. -/
def sameOps (T U : Tab Op) : Prop := T.map (fun x => (x.1, x.2.bare)) = U.map fun x => (x.1, x.2.bare)

theorem map_tset {α β : Type} (f : α → β) (T : Tab α) (k : Nat) (v : α) :
    (tset T k v).map (fun x => (x.1, f x.2)) = tset (T.map fun x => (x.1, f x.2)) k (f v) := by
  induction T with
  | nil => rfl
  | cons x r ih =>
    simp only [tset, List.map_cons]
    split
    · rfl
    · split
      · rfl
      · rw [List.map_cons, ih]

theorem sameOps.tset {T U : Tab Op} (h : sameOps T U) (k : Nat) {o p : Op} (ho : o.bare = p.bare) : sameOps (tset T k o) (tset U k p) := by
  unfold sameOps at *
  rw [map_tset Op.bare, map_tset Op.bare, h, ho]

/-- Contexts differ in their counts of probed requests alone. -/
def sameCtxs (C D : Tab Ctx) : Prop := ∀ p, (tget? D p).map (fun x => { x with probes := [] }) = (tget? C p).map fun x => { x with probes := [] }

/-- Probing marks requests and counts them, and does nothing else (R340). -/
theorem probeMark_spec (s : State) (b core : Nat) (k : OpKind) (q : LReq) :
    (probeMark s b core k q).1.bare = q.bare ∧ ∃ C, (probeMark s b core k q).2 = { s with ctxs := C } ∧ sameCtxs s.ctxs C := by
  unfold probeMark
  split
  · exact ⟨rfl, s.ctxs, rfl, fun _ => rfl⟩
  · dsimp only
    split
    · refine ⟨rfl, _, rfl, fun p => ?_⟩
      rw [tget?_tmod]
      split
      · next h => rw [h, Option.map_map]; rfl
      · rfl
    · exact ⟨rfl, s.ctxs, rfl, fun _ => rfl⟩

theorem sameCtxs.trans {C D E : Tab Ctx} (h : sameCtxs C D) (h' : sameCtxs D E) : sameCtxs C E := fun p => (h' p).trans (h p)

/-- One request of an issue is taken: probed, or answered from a view's log. -/
def takeReq (I : Issue) (c : Cur) (core g : Nat) (a : List LReq × State) (q : LReq) : List LReq × State :=
  let q : LReq := { q with time := a.2.reft }
  let r := if I.kind.probeKind = 6 then (q, a.2) else probeMark a.2 c.blk core I.kind q
  let r := replayReq r.2 (rcOf r.2 c.blk) g I.kind r.1
  (a.1 ++ [r.1], r.2)

theorem takeReq_spec (I : Issue) (c : Cur) (core g : Nat) (a : List LReq × State) (q : LReq) (hs : a.2.sandbox = none) :
    (takeReq I c core g a q).1.map LReq.bare = (a.1 ++ [({ q with time := a.2.reft } : LReq)]).map LReq.bare ∧
      ∃ C, (takeReq I c core g a q).2 = { a.2 with ctxs := C } ∧ sameCtxs a.2.ctxs C := by
  have hreplay (u : State) (rc : Nat) (p : LReq) (hu : u.sandbox = none) : replayReq u rc g I.kind p = (p, u) := by
    unfold replayReq
    rw [hu]
  unfold takeReq
  dsimp only
  split
  · rw [hreplay _ _ _ hs]
    exact ⟨rfl, a.2.ctxs, rfl, fun _ => rfl⟩
  · obtain ⟨h1, C, h2, h3⟩ := probeMark_spec a.2 c.blk core I.kind { q with time := a.2.reft }
    rw [hreplay _ _ _ (by rw [h2]; exact hs)]
    refine ⟨?_, C, h2, h3⟩
    rw [List.map_append, List.map_append, List.map_cons, h1]
    rfl

theorem takeReqs_spec (I : Issue) (c : Cur) (core g : Nat) (qs : List LReq) (a : List LReq × State) (hs : a.2.sandbox = none) :
    (qs.foldl (takeReq I c core g) a).1.map LReq.bare = (a.1 ++ qs.map fun q => ({ q with time := a.2.reft } : LReq)).map LReq.bare ∧
      ∃ C, (qs.foldl (takeReq I c core g) a).2 = { a.2 with ctxs := C } ∧ sameCtxs a.2.ctxs C := by
  induction qs generalizing a with
  | nil => exact ⟨by simp, a.2.ctxs, rfl, fun _ => rfl⟩
  | cons q r ih =>
    obtain ⟨h1, C, h2, h3⟩ := takeReq_spec I c core g a q hs
    obtain ⟨h4, D, h5, h6⟩ := ih (takeReq I c core g a q) (by rw [h2]; exact hs)
    refine ⟨?_, D, ?_, ?_⟩
    · rw [List.foldl_cons, h4, List.map_append, h1, h2, ← List.map_append, List.append_assoc]
      rfl
    · rw [List.foldl_cons, h5, h2]
    · rw [h2] at h6
      exact h3.trans h6

end Sys2Proof.Machine
end

section
/-!
PROOFS. A wide issue that is held: every lane's checks pass, an operation is made for each group, and nothing else changes but that the issuers
wait (R35, R191, R198, R207).
-/

namespace Sys2Proof

open Machine

/-- A lane's request, where the group is there and its checks pass. -/
def IssueForm.reqOf (F : IssueForm) (s : State) (c : Cur) (g : Nat) (y : Nat × List VCell) : Option LReq :=
  (s.grp? c.blk g).bind fun G => F.req G y.1 (y.2.map VCell.word)

/-- The requests of an issue by group. -/
def IssueForm.requests (F : IssueForm) (s : State) (c : Cur) : List (Nat × List LReq) :=
  (readOps s c F.ops).map fun x => (x.1, x.2.filterMap (F.reqOf s c x.1))

end Sys2Proof

namespace Sys2Proof.Machine

/-! ### The operations -/

/-- The destination registers of an issue. -/
def Issue.count (I : Issue) : Nat := match I.dst with | some (_, k) => k | none => 0

/-- The operation of a group of an issue. -/
def Issue.opOf (I : Issue) (s : State) (c : Cur) (wide : Option Scope) (order id g : Nat) (lanes : List LReq) : Op :=
  { kind := I.kind, blk := c.blk, gidx := g, dst := I.dst.map (·.1)
    syms := (List.range I.count).map (id + 1 + ·), closed := false, lanes, wide
    addr := c.addr, idx := c.idx, e := c.e, core := homeOf s c.blk, slot := I.slot, stride := I.stride
    iv := ((blockOf s c.blk).map (·.iv)).getD 0, rc := ((blockOf s c.blk).map (·.rc)).getD 0, order }

/-- One operation of an issue is made. -/
def makeOp (I : Issue) (s : State) (c : Cur) (wide : Option Scope) (order : Nat) (a : List Nat × State) (x : Nat × List LReq) : List Nat × State :=
  let r := x.2.foldl (takeReq I c (homeOf s c.blk) x.1) ([], { a.2 with nextId := a.2.nextId + 1 })
  (a.1 ++ [a.2.nextId], { r.2 with
    nextId := r.2.nextId + I.count
    ops := tset r.2.ops a.2.nextId { I.opOf s c wide order a.2.nextId x.1 r.1 with
      syms := (List.range I.count).map (r.2.nextId + ·) } })

theorem createOps_eq (I : Issue) (s : State) (c : Cur) (reqs : List (Nat × List LReq)) (hold : Bool) :
    createOps I s c reqs hold =
      reqs.foldl (makeOp I s c (if hold then some c.e else none) s.nextId) ([], { s with nextId := s.nextId + 1 }) := rfl

/-- A state in which some operations of an issue have been made: identifiers below n are taken, and T holds the operations. -/
structure making (s : State) (n : Nat) (T : Tab Op) (u : State) : Prop where
  eq : ∃ C U, u = { s with nextId := n, ops := U, ctxs := C } ∧ sameCtxs s.ctxs C ∧ sameOps U T

/-- A request at its time of issue. -/
def LReq.at (q : LReq) (now : Nat) : LReq := { q with time := now }

section
variable {I : Issue} {s : State} {c : Cur} {wide : Option Scope} {order : Nat}

theorem makeOp_making (hs : s.sandbox = none) {n : Nat} {T : Tab Op} {a : List Nat × State} (h : making s n T a.2) (x : Nat × List LReq) :
    making s (n + 1 + I.count) (tset T n (I.opOf s c wide order n x.1 (x.2.map (·.at s.reft)))) (makeOp I s c wide order a x).2 := by
  obtain ⟨ids, u⟩ := a
  obtain ⟨C, U, rfl, hC, hU⟩ := h.eq
  obtain ⟨h1, D, h2, h3⟩ := takeReqs_spec I c (homeOf s c.blk) x.1 x.2
    ([], { { s with nextId := n, ops := U, ctxs := C } with nextId := n + 1 }) hs
  generalize hr : x.2.foldl (takeReq I c (homeOf s c.blk) x.1) ([], { { s with nextId := n, ops := U, ctxs := C } with nextId := n + 1 }) = r
    at h1 h2
  refine ⟨D, tset U n (I.opOf s c wide order n x.1 r.1), ?_, hC.trans h3, hU.tset n ?_⟩
  · unfold makeOp
    dsimp only at hr ⊢
    rw [hr, h2]
    rfl
  · unfold Op.bare
    dsimp only [Issue.opOf]
    rw [h1]
    rfl

theorem makeOps_making (hs : s.sandbox = none) (reqs : List (Nat × List LReq)) {n : Nat} {T : Tab Op} {a : List Nat × State} (h : making s n T a.2) :
    making s (n + reqs.length * (I.count + 1))
      ((reqs.mapIdx fun j x => (n + j * (I.count + 1), I.opOf s c wide order (n + j * (I.count + 1)) x.1 (x.2.map (·.at s.reft)))).foldl
        (fun T x => tset T x.1 x.2) T) (reqs.foldl (makeOp I s c wide order) a).2 := by
  induction reqs generalizing n T a with
  | nil => simpa using h
  | cons x r ih =>
    have hn (j : Nat) : n + 1 + I.count + j * (I.count + 1) = n + (j + 1) * (I.count + 1) := by rw [Nat.add_mul]; omega
    have h' := ih (makeOp_making (I := I) (c := c) (wide := wide) (order := order) hs h x)
    simp only [hn] at h'
    rw [List.mapIdx_cons, List.foldl_cons, List.foldl_cons, List.length_cons, Nat.zero_mul, Nat.add_zero]
    exact h'

/-- The operations of an issue are made; nothing changes beside but the counts of probed requests. -/
theorem createOps_making (hs : s.sandbox = none) (reqs : List (Nat × List LReq)) (hold : Bool) :
    making s (s.nextId + 1 + reqs.length * (I.count + 1))
      ((reqs.mapIdx fun j x => (s.nextId + 1 + j * (I.count + 1), I.opOf s c (if hold then some c.e else none) s.nextId
        (s.nextId + 1 + j * (I.count + 1)) x.1 (x.2.map (·.at s.reft)))).foldl (fun T x => tset T x.1 x.2) s.ops)
      (createOps I s c reqs hold).2 := by
  rw [createOps_eq]
  exact makeOps_making hs reqs ⟨s.ctxs, s.ops, rfl, fun _ => rfl, rfl⟩

end

/-! ### The issue is held -/

section
variable {F : IssueForm} {s : State} {c : Cur} {cls : Nat} {per : Per} {build : Group → Nat → List Word → Except (Nat × Nat) LReq}

theorem mem_readOps {ops : List Opd} {x : Nat × List (Nat × List VCell)} (h : x ∈ readOps s c ops) : ∃ G, s.grp? c.blk x.1 = some G := by
  obtain ⟨⟨g, m⟩, -, hm⟩ := List.mem_filterMap.mp h
  dsimp only at hm
  split at hm
  · cases hm
  · obtain ⟨G, hG, rfl⟩ := Option.map_eq_some_iff.mp hm
    exact ⟨G, hG⟩

/-- What is built for a lane. -/
def builtOf (s : State) (c : Cur) (build : Group → Nat → List Word → Except (Nat × Nat) LReq) (g : Nat) (y : Nat × List VCell) :
    Except (Nat × Nat) LReq :=
  match s.grp? c.blk g with
  | some G => build G y.1 (y.2.map VCell.word)
  | none => .error (0, 0)

theorem builtOf_ok (hb : F.builtBy build) (ha : F.allowed s c) {x : Nat × List (Nat × List VCell)} (hx : x ∈ readOps s c F.ops)
    {y : Nat × List VCell} (hy : y ∈ x.2) : ∃ q, F.reqOf s c x.1 y = some q ∧ builtOf s c build x.1 y = .ok q := by
  obtain ⟨G, hG⟩ := mem_readOps hx
  obtain ⟨q, hq⟩ := Option.isSome_iff_exists.mp (ha x hx G hG y hy)
  refine ⟨q, ?_, ?_⟩
  · rw [IssueForm.reqOf, hG]; exact hq
  · rw [builtOf, hG]; exact hb G _ _ q hq

/-- What is built for the lanes of an issue, and the faults among it. -/
def builtAll (s : State) (c : Cur) (ops : List Opd) (build : Group → Nat → List Word → Except (Nat × Nat) LReq) :
    List (Nat × List (Nat × Except (Nat × Nat) LReq)) :=
  (readOps s c ops).map fun x => (x.1, x.2.map fun y => (y.1, builtOf s c build x.1 y))

def faultsOf (B : List (Nat × List (Nat × Except (Nat × Nat) LReq))) : List LFault :=
  B.flatMap fun x => x.2.filterMap fun y => match y.2 with
    | .error (code, d) => some ⟨x.1, y.1, code, d⟩
    | .ok _ => none

def reqsOf (B : List (Nat × List (Nat × Except (Nat × Nat) LReq))) : List (Nat × List LReq) :=
  B.map fun x => (x.1, x.2.filterMap fun y => match y.2 with
    | .ok q => some q
    | .error _ => none)

theorem faultsOf_built (hb : F.builtBy build) (ha : F.allowed s c) : faultsOf (builtAll s c F.ops build) = [] := by
  refine List.flatMap_eq_nil_iff.mpr fun x hx => List.filterMap_eq_nil_iff.mpr fun y hy => ?_
  obtain ⟨x', hx', rfl⟩ := List.mem_map.mp hx
  obtain ⟨y', hy', rfl⟩ := List.mem_map.mp hy
  obtain ⟨q, -, hq⟩ := builtOf_ok hb ha hx' hy'
  dsimp only
  rw [hq]

theorem reqsOf_built (hb : F.builtBy build) (ha : F.allowed s c) : reqsOf (builtAll s c F.ops build) = F.requests s c := by
  unfold reqsOf builtAll IssueForm.requests
  rw [List.map_map]
  refine List.map_congr_left fun x hx => congrArg (Prod.mk x.1) ?_
  rw [List.filterMap_map]
  refine List.filterMap_congr fun y hy => ?_
  obtain ⟨q, hq, hq'⟩ := builtOf_ok hb ha hx hy
  dsimp only [Function.comp]
  rw [hq, hq']

/-- Asking for symbol entries changes nothing but a core's queue (R193). -/
theorem asked_eq (s : State) (c : Cur) : ∃ C, asked s c = { s with cores := C } := by
  unfold asked symAsk
  rw [if_neg Bool.false_ne_true]
  split
  · exact ⟨_, rfl⟩
  · exact ⟨s.cores, rfl⟩

theorem issue_d : (F.issue cls per).d = F.dest := by
  unfold Issue.d IssueForm.dest IssueForm.issue
  cases F.dst <;> rfl

/-- A wide issue whose checks pass is held. -/
theorem issueOp_held (hb : F.builtBy build) (hc : s.cur = some c) (he : c.empty = false) (hs : s.sandbox = none) (hw : c.e ≠ .lane)
    (hh : F.hold = true) (hheld : heldOps s c = []) (hr : ready? s c F.ops F.dest false = none) (ha : F.allowed s c) (hf : entriesFree F s c) :
    issueOp (F.issue cls per) build s =
      .next (block .xlate (createOps (F.issue cls per) (asked s c) c (F.requests s c) true).2) := by
  have hr' : ready? s c (F.issue cls per).ops (F.issue cls per).d false = none := by rw [issue_d]; exact hr
  have hwide : (c.e != .lane) = true := bne_iff_ne.mpr hw
  have hask : (asked s c).sandbox = none := by
    obtain ⟨C, hC⟩ := asked_eq s c
    rw [hC]; exact hs
  have hhold : ((F.issue cls per).hold && c.e != .lane && (asked s c).sandbox.isNone) = true := by
    rw [hwide, hask]; exact (Bool.and_true _).trans ((Bool.and_true _).trans hh)
  have hroom : symRoom s (homeOf s c.blk) (asker c) ((F.requests s c).map fun x => (c.blk, x.1, F.count)) = true := by
    rw [IssueForm.requests, List.map_map]
    exact hf
  have hbuilt := reqsOf_built hb ha
  unfold issueOp
  simp only [hc, he, hheld, hr', List.isEmpty_nil, Bool.not_true, Bool.false_eq_true, if_false]
  refine (if_neg ?_).trans ((if_neg ?_).trans ((if_pos ?_).trans ?_))
  · show ¬ (!(faultsOf (builtAll s c F.ops build)).isEmpty) = true
    rw [faultsOf_built hb ha]
    decide
  · show ¬ ((c.e != .lane) && !symRoom s (homeOf s c.blk) (asker c) ((reqsOf (builtAll s c F.ops build)).map fun x => (c.blk, x.1, F.count))) = true
    rw [hbuilt, hroom, hwide]
    decide
  · exact hhold
  · show (.next (block .xlate (createOps (F.issue cls per) (asked s c) c (reqsOf (builtAll s c F.ops build))
      ((F.issue cls per).hold && c.e != .lane && (asked s c).sandbox.isNone)).2) : Out) = _
    rw [hbuilt, hhold]

theorem mapIdx_map {α β γ : Type} (l : List α) (f : α → β) (g : Nat → β → γ) : (l.map f).mapIdx g = l.mapIdx fun i x => g i (f x) :=
  List.ext_getElem (by simp) (by simp)

/-- The operations of an issue are those of its form. -/
theorem made_eq (u : State) (hu : ∃ C, u = { s with cores := C }) (wide : Option Scope) :
    ((F.requests s c).mapIdx fun j x => (u.nextId + 1 + j * ((F.issue cls per).count + 1), (F.issue cls per).opOf u c wide u.nextId
      (u.nextId + 1 + j * ((F.issue cls per).count + 1)) x.1 (x.2.map (·.at u.reft)))) = F.made s c wide := by
  obtain ⟨C, rfl⟩ := hu
  unfold IssueForm.requests IssueForm.made
  rw [mapIdx_map]
  refine congrArg (List.mapIdx · _) (funext fun j => funext fun x => congrArg (Prod.mk _) ?_)
  have hl : (x.2.filterMap (F.reqOf s c x.1)).map (·.at s.reft) =
      x.2.filterMap fun y => ((s.grp? c.blk x.1).bind fun G => F.req G y.1 (y.2.map VCell.word)).map fun q => { q with time := s.reft } :=
    List.map_filterMap
  have hs' : (List.range (F.issue cls per).count).map (s.nextId + 1 + j * ((F.issue cls per).count + 1) + 1 + ·) =
      (List.range F.count).map (s.nextId + 2 + j * (F.count + 1) + ·) := by
    refine List.map_congr_left fun i _ => ?_
    show s.nextId + 1 + j * (F.count + 1) + 1 + i = s.nextId + 2 + j * (F.count + 1) + i
    omega
  dsimp only [Issue.opOf]
  rw [hl, hs']
  rfl

/-- A state with another table of operations. -/
def State.withOps (s : State) (T : Tab Op) : State := { s with ops := T }

/-- A held issue: its operations are outstanding, under the word's scope, and its issuers wait for translation. -/
theorem wideIssue_held {i : Instr} (hi : issueForm s c i = some F) (hc : s.cur = some c) (he : c.empty = false) (hs : s.sandbox = none)
    (hw : c.e ≠ .lane) (hh : F.hold = true) (hheld : heldOps s c = []) (hr : ready? s c F.ops F.dest false = none) (ha : F.allowed s c)
    (hf : entriesFree F s c) (hn : noneFaulted F s c) :
    ∃ t, exec i s = .next t ∧ issuedIs { asked s c with
        ops := (F.made s c (some c.e)).foldl (fun T x => tset T x.1 x.2) s.ops
        nextId := s.nextId + 1 + (readOps s c F.ops).length * (F.count + 1) } t ∧
      ∀ r ∈ c.arr, ∀ j, s.issuer? r = some j → t.issuer? r = some { j with wait := .xlate } := by
  obtain ⟨cls, per, build, hex, hb⟩ := issueForm_runs hi hh hc (.inl hn)
  refine ⟨_, hex.trans (issueOp_held hb hc he hs hw hh hheld hr ha hf), ?_⟩
  obtain ⟨C, hC⟩ := asked_eq s c
  have hmaking := createOps_making (I := F.issue cls per) (c := c) (s := asked s c) (by rw [hC]; exact hs) (F.requests s c) true
  rw [made_eq (asked s c) ⟨C, hC⟩] at hmaking
  obtain ⟨D, U, hv, hD, hU⟩ := hmaking.eq
  generalize (createOps (F.issue cls per) (asked s c) c (F.requests s c) true).2 = v at hv ⊢
  have hlen : (F.requests s c).length = (readOps s c F.ops).length := List.length_map ..
  obtain ⟨h0, hout, hpos, hwait⟩ := block_spec (s := v) (c := c) .xlate (by rw [hv, hC]; exact hc)
  obtain ⟨hrest, hblocks, hctxs, hworlds, hlaunches⟩ := hout
  rw [hC, hlen] at hv
  rw [hC] at hU hD ⊢
  generalize block .xlate v = t at *
  subst hv
  have hops : t.ops = U := (congrArg State.ops hrest :)
  have hbare : t.ops.map (fun x => (x.1, x.2.bare)) = _ := hops ▸ hU
  refine ⟨⟨h0, ?_, hpos, hblocks, fun p => ?_, hworlds, hlaunches⟩, fun r hr j hj => hwait r hr j hj⟩
  · rw [hrest]
    exact congrArg (State.withOps (State.rest { s with cores := C, nextId := s.nextId + 1 + (readOps s c F.ops).length * (F.count + 1) })) hbare
  · have h1 := congrArg (Option.map fun x : Ctx => { x with probes := [] }) (hctxs p)
    have h2 := congrArg (Option.map Ctx.noMeter) (hD p)
    simp only [Option.map_map] at h1 h2 ⊢
    exact h1.trans h2

end

end Sys2Proof.Machine
end

section
/-!
PROOFS. A held issue whose requests have all passed translation takes effect as a whole (R101, R191, R198, R207).
-/

namespace Sys2Proof.Machine

/-! ### Tables and groups -/

theorem tset_tset {α : Type} (T : Tab α) (k : Nat) (v w : α) : tset (tset T k v) k w = tset T k w := by
  induction T with
  | nil => simp [tset]
  | cons x r ih =>
    obtain ⟨a, y⟩ := x
    simp only [tset]
    by_cases h1 : k < a
    · simp [h1, tset]
    · by_cases h2 : k = a
      · simp [h2, tset]
      · simp [h1, h2, tset, ih]

theorem tmod_tmod {α : Type} (T : Tab α) (k : Nat) (f g : α → α) : tmod (tmod T k f) k g = tmod T k fun x => g (f x) := by
  unfold tmod
  cases h : tget? T k with
  | none => simp only [h]
  | some v => simp only [tget?_tset_self, tset_tset]

theorem tmod_of_some {α : Type} {T : Tab α} {k : Nat} {v : α} (h : tget? T k = some v) (f : α → α) : tmod T k f = tset T k (f v) := by
  unfold tmod
  rw [h]

theorem putCell_dirty (G : Group) (rs : List Nat) (r l : Nat) (x : VCell) : (G.dirty rs).putCell r l x = (G.putCell r l x).dirty rs := rfl

theorem foldl_dirty {α : Type} {P : Group → α → Group} (hP : ∀ G a rs, P (G.dirty rs) a = (P G a).dirty rs) (l : List α) (G : Group) (rs : List Nat) :
    l.foldl P (G.dirty rs) = (l.foldl P G).dirty rs := by
  induction l generalizing G with
  | nil => rfl
  | cons a r ih => rw [List.foldl_cons, hP, ih, List.foldl_cons]

theorem dirty_dirty (G : Group) (rs ts : List Nat) : (G.dirty rs).dirty ts = G.dirty (rs ++ ts) := by
  unfold Group.dirty
  rw [List.foldl_append]

/-- Registers marked one by one as they are written are marked at the end. -/
theorem foldl_dirty_each {α : Type} {P : Group → α → Group} (hP : ∀ G a rs, P (G.dirty rs) a = (P G a).dirty rs) (e : α → Nat) (l : List α) (G : Group) :
    l.foldl (fun G a => (P G a).dirty [e a]) G = (l.foldl P G).dirty (l.map e) := by
  induction l generalizing G with
  | nil => rfl
  | cons a r ih => rw [List.foldl_cons, ih, foldl_dirty hP, dirty_dirty, List.foldl_cons]; rfl

/-! ### The issue takes effect -/

/-- An operation once its issue has taken effect: a copy that has passed translation starts. -/
def Op.begun (o : Op) : Op :=
  { o with wide := none
           lanes := if o.kind.isMem then o.lanes else o.lanes.map fun q => if q.ph = .xlated then { q with ph := .sent, parts := [] } else q }

/-- One operation of an issue takes effect. -/
def commitOne (s : State) (k : Nat) : State :=
  match tget? s.ops k with
  | none => s
  | some o =>
    if s.sandbox.isSome && (o.kind.ctr == .st || o.kind == .get) then { s with ops := tdel s.ops k } else
      let ls := o.lanes.map (·.lane)
      let s := raiseCtr s o.blk o.gidx ls o.kind.ctr
      let s := s.modOp k fun o =>
        { o with wide := none
                 lanes := if o.kind.isMem then o.lanes else o.lanes.map fun q =>
                   if q.ph == .xlated then { q with ph := .sent, parts := [] } else q }
      match o.dst with
      | some d =>
        let rs := o.syms.mapIdx fun j σ => (d.toNat + j, σ)
        s.modGroup o.blk o.gidx fun G =>
          let G := (rs.foldl (fun G (r, σ) => ls.foldl (fun G l => G.putCell r l (.aff σ 1#32 0#32)) G) G).dirty (rs.map (·.1))
          if o.kind.bringsTag then ls.foldl (fun G l => G.awaitTag (d.toNat / 4) l) G else G
      | none => s

theorem commitOps_eq (I : Issue) (s : State) (c : Cur) (ids : List Nat) :
    commitOps I s c ids = done I.cls I.per (ids.foldl commitOne (chargeLds (freeS (consume s c I.ops) c I.us) I ids)) := rfl

theorem mapIdx_eq_range {α β : Type} (l : List α) (x : α) (f : Nat → α → β) : l.mapIdx f = (List.range l.length).map fun j => f j (l.getD j x) :=
  List.ext_getElem (by simp) fun j h₁ h₂ => by
    have h : j < l.length := by simpa using h₁
    simp [h]

theorem bringsTag_iff (k : OpKind) : k.bringsTag = true ↔ k = .loadCap ∨ k = .lds 16 := by
  constructor
  · intro h
    unfold OpKind.bringsTag at h
    split at h
    · exact .inl rfl
    · exact .inr rfl
    · cases h
  · rintro (rfl | rfl) <;> rfl

/-- The lanes of an issue hold a symbol in a register. -/
def putSym (ls : List Nat) (G : Group) (r σ : Nat) : Group := ls.foldl (fun G l => G.putCell r l (.aff σ 1#32 0#32)) G

theorem putSym_dirty (ls : List Nat) (G : Group) (r σ : Nat) (rs : List Nat) : putSym ls (G.dirty rs) r σ = (putSym ls G r σ).dirty rs :=
  foldl_dirty (fun G l rs => putCell_dirty G rs r l _) ls G rs

/-- The destination registers hold the symbols of an issue: written and then marked, or each marked as it is written. -/
theorem putSyms_eq (ls syms : List Nat) (d : Nat) (G : Group) :
    ((syms.mapIdx fun j σ => (d + j, σ)).foldl (fun G x => putSym ls G x.1 x.2) G).dirty ((syms.mapIdx fun j σ => (d + j, σ)).map (·.1)) =
      (List.range syms.length).foldl (fun G j => (putSym ls G (d + j) (syms.getD j 0)).dirty [d + j]) G := by
  rw [foldl_dirty_each (fun G j rs => putSym_dirty ls G (d + j) _ rs), mapIdx_eq_range syms 0, List.foldl_map, List.map_map]
  rfl

/-- A counter rises by one. -/
theorem raise_one (k : CK) : (fun x : Ctr => x.add k 1) = fun x => match k with
    | .ld => { x with ld := x.ld + 1 }
    | .st => { x with st := x.st + 1 }
    | .cp => { x with cp := x.cp + 1 }
    | .tl => { x with tl := x.tl + 1 } := by
  cases k <;> rfl

theorem begun_eq (o : Op) :
    { o with wide := none
             lanes := if o.kind.isMem then o.lanes else o.lanes.map fun q => if q.ph == .xlated then { q with ph := .sent, parts := [] } else q } =
      o.begun := by
  unfold Op.begun
  simp only [beq_iff_eq]

/-- Outside a view an operation takes effect by being marked. -/
theorem commitOne_eq {u : State} {k : Nat} {o : Op} (hs : u.sandbox = none) (h : tget? u.ops k = some o) :
    commitOne u k = marked { u with ops := tset u.ops k o.begun } o := by
  have hview : ¬ (u.sandbox.isSome && (o.kind.ctr == .st || o.kind == .get)) = true := by simp [hs]
  unfold commitOne marked raiseCtr State.modOp State.modGroup
  simp only [h, if_neg hview, raise_one, tmod_of_some h, begun_eq, bringsTag_iff]
  cases o.dst with
  | none => rfl
  | some d =>
    have hsyms := putSyms_eq (o.lanes.map (·.lane)) o.syms d.toNat
    unfold putSym at hsyms
    simp only [tmod_tmod, hsyms] <;> rfl

end Sys2Proof.Machine
end

section
/-!
PROOFS. A held issue whose requests have all passed goes on: nothing waits and nothing has faulted, so its operations take effect one after
another (R35, R198, R207).
-/

namespace Sys2Proof.Machine

/-! ### The sources are taken: outstanding operations stay -/

/-- The same outstanding operations, and in a view or not as before. -/
def opsKept (s t : State) : Prop := t.ops = s.ops ∧ t.sandbox = s.sandbox

theorem opsKept.refl (s : State) : opsKept s s := ⟨rfl, rfl⟩

theorem opsKept.trans {s t u : State} (h : opsKept s t) (h' : opsKept t u) : opsKept s u := ⟨h'.1.trans h.1, h'.2.trans h.2⟩

theorem opsKept_foldl {α : Type} {f : State → α → State} (hf : ∀ s a, opsKept s (f s a)) (l : List α) (s : State) : opsKept s (l.foldl f s) := by
  induction l generalizing s with
  | nil => exact .refl s
  | cons a r ih => exact (hf s a).trans (ih (f s a))

theorem opsKept_chanPop (s : State) (b : Nat) (ch : Chan) (n : Nat) : opsKept s (chanPop s b ch n) := by
  unfold chanPop
  split
  · exact .refl s
  · split
    · exact ⟨rfl, rfl⟩
    · split
      · exact ⟨rfl, rfl⟩
      · exact .refl s

theorem opsKept_chanPops (b : Nat) (chans : Tab Chan) (pops : List (Nat × Nat)) (s : State) :
    opsKept s (pops.foldl (fun s x => match tget? chans x.1 with
      | some y => chanPop s b y x.2
      | none => s) s) := by
  refine opsKept_foldl (fun s x => ?_) pops s
  split
  · exact opsKept_chanPop ..
  · exact .refl s

theorem opsKept_consume (s : State) (c : Cur) (ops : List Opd) : opsKept s (consume s c ops) := by
  refine opsKept_foldl (fun s a => ?_) _ s
  obtain ⟨g, m⟩ := a
  dsimp only
  split
  · exact .refl s
  · split
    · exact .refl s
    · next G _ =>
      refine (opsKept_chanPops c.blk G.chans (chanPops (lanesOf m).length ops) s).trans ?_
      split <;> exact ⟨rfl, rfl⟩

theorem opsKept_freeS (s : State) (c : Cur) (us : List (RSrc × Nat)) : opsKept s (freeS s c us) := by
  unfold freeS
  split
  · exact .refl s
  · exact ⟨rfl, rfl⟩

/-! ### The operations take effect -/

/-- A state where an operation of an issue has begun, and its lanes are marked. -/
def begin (u : State) (x : Nat × Op) : State := marked { u with ops := tset u.ops x.1 x.2.begun } x.2

theorem commit_each (held : List (Nat × Op)) {u : State} (hs : u.sandbox = none) (hnd : (held.map (·.1)).Nodup)
    (h : ∀ x ∈ held, tget? u.ops x.1 = some x.2) : (held.map (·.1)).foldl commitOne u = held.foldl begin u := by
  induction held generalizing u with
  | nil => rfl
  | cons x r ih =>
    obtain ⟨hx, hr⟩ := List.nodup_cons.mp hnd
    rw [List.map_cons, List.foldl_cons, List.foldl_cons, commitOne_eq hs (h x (List.mem_cons_self ..))]
    refine ih hs hr fun y hy => ?_
    have hne : y.1 ≠ x.1 := fun e => hx (List.mem_map.mpr ⟨y, hy, e⟩)
    exact (tget?_tset_ne _ _ hne).trans (h y (List.mem_cons_of_mem _ hy))

theorem tget?_of_mem {α : Type} {T : Tab α} (hnd : (T.map (·.1)).Nodup) {x : Nat × α} (h : x ∈ T) : tget? T x.1 = some x.2 := by
  induction T with
  | nil => cases h
  | cons y r ih =>
    obtain ⟨hy, hr⟩ := List.nodup_cons.mp hnd
    obtain ⟨a, v⟩ := y
    unfold tget?
    rcases List.mem_cons.mp h with rfl | h
    · exact if_pos rfl
    · exact (if_neg fun e => hy (List.mem_map.mpr ⟨x, h, e.symm⟩)).trans (ih hr h)

/-! ### A held issue goes on -/

section
variable {F : IssueForm} {s : State} {c : Cur} {cls : Nat} {per : Per}

/-- No wide issue that waits for translation reads the scratchpad or the weight store at issue. -/
theorem chargeLds_hold {i : Instr} (hi : issueForm s c i = some F) (hh : F.hold = true) (u : State) (ids : List Nat) :
    chargeLds u (F.issue cls per) ids = u := by
  unfold issueForm at hi
  split at hi <;> cases hi <;> simp only [ldForm, stForm, atForm, wldForm, ldsForm, winForm, oloadForm, Bool.false_eq_true] at hh <;> rfl

/-- Every request of a held issue has passed translation, and no target of a copy has begun its save. -/
def allPassed (F : IssueForm) (s : State) (c : Cur) : Prop :=
  ∀ x ∈ heldOps s c, x.2.kind = F.kind ∧ ∀ q ∈ x.2.lanes, q.ph.passed = true ∧ (F.kind = .mcast → ∀ y ∈ q.targets, saveBegun s y = false)

theorem resumeHeld_passed (h : allPassed F s c) (I : Issue) : resumeHeld I s c (heldOps s c) = commitOps I s c ((heldOps s c).map (·.1)) := by
  unfold resumeHeld
  dsimp only
  rw [if_neg, if_neg, if_pos]
  · exact List.all_eq_true.mpr fun x hx => List.all_eq_true.mpr fun q hq => ((h x hx).2 q hq).1
  · rw [List.flatMap_eq_nil_iff.mpr fun x hx => List.filterMap_eq_nil_iff.mpr fun q hq => ?_]
    · decide
    obtain ⟨hkind, hlanes⟩ := h x hx
    obtain ⟨hpass, htargets⟩ := hlanes q hq
    split
    · next e => rw [e] at hpass; cases hpass
    · refine if_neg fun hb => ?_
      obtain ⟨hm, y, hy, hsave⟩ := (Bool.and_eq_true_iff.mp hb).imp beq_iff_eq.mp List.any_eq_true.mp
      rw [htargets (hkind ▸ hm) y hy] at hsave
      cases hsave
  · intro hb
    obtain ⟨x, hx, hb⟩ := List.any_eq_true.mp hb
    obtain ⟨q, hq, hb⟩ := List.any_eq_true.mp hb
    have hpass := ((h x hx).2 q hq).1
    rcases (Bool.or_eq_true_iff.mp hb).imp beq_iff_eq.mp beq_iff_eq.mp with e | e <;> rw [e] at hpass <;> cases hpass

/-- A held issue goes on once every request has passed: its operations begin, one after another. -/
theorem issueOp_passed (build : Group → Nat → List Word → Except (Nat × Nat) LReq) {i : Instr} (hi : issueForm s c i = some F)
    (hc : s.cur = some c) (he : c.empty = false) (hs : s.sandbox = none) (hh : F.hold = true) (hheld : heldOps s c ≠ [])
    (hnd : (s.ops.map (·.1)).Nodup) (h : allPassed F s c) :
    issueOp (F.issue cls per) build s = done cls per ((heldOps s c).foldl begin (freeS (consume s c F.ops) c F.us)) := by
  have hresume : issueOp (F.issue cls per) build s = resumeHeld (F.issue cls per) s c (heldOps s c) := by
    unfold issueOp
    simp [hc, he, hheld]
  obtain ⟨hops, hsand⟩ := (opsKept_consume s c F.ops).trans (opsKept_freeS _ c F.us)
  have hget : ∀ x ∈ heldOps s c, tget? (freeS (consume s c F.ops) c F.us).ops x.1 = some x.2 := by
    intro x hx
    rw [hops]
    exact tget?_of_mem hnd (List.mem_of_mem_filter hx)
  have hkeys : ((heldOps s c).map (·.1)).Nodup := hnd.sublist ((List.filter_sublist ..).map _)
  rw [hresume, resumeHeld_passed h, commitOps_eq, chargeLds_hold hi hh]
  exact congrArg (done cls per) (commit_each _ (hsand.trans hs) hkeys hget)

end

/-- Settles O23: a wide issue first makes its operations and waits (`wideIssue_held`); once all have passed they begin (`issueOp_passed`). -/
theorem wideIssueHeld : Obligations.WideIssueHeld := by
  unfold Obligations.WideIssueHeld
  refine ⟨fun i F s c hi hc he _ hs hw hh hheld hr ha hf hn => wideIssue_held hi hc he hs hw hh hheld hr ha hf hn, ?_⟩
  intro i F s c hi hc he hs hh hheld hnd h
  obtain ⟨cls, per, build, hex, -⟩ := issueForm_runs hi hh hc (.inr hheld)
  have hpassed : allPassed F s c := fun x hx => ⟨(h x hx).1, (h x hx).2.2⟩
  exact ⟨_, hex.trans (issueOp_passed build hi hc he hs hh hheld hnd hpassed), effectIs_done cls per _⟩

end Sys2Proof.Machine
end

section
/-!
PROOFS. Decoding what the encoder writes, and what each role of a field and each part of a modifier word accepts (R48, R55 to R63, R150, R203).
-/

namespace Sys2Proof

/-! ### What the encoder writes decodes -/

open Laws.Encodes in
/-- The decoder's law for each constructor (Laws/PerInstr). -/
theorem decodeAt_encode (i : Instr) : Laws.Encodes.Statement i := by
  cases i
  exacts [
    nop _, jmp _, bra _ _, bru _ _, jmpc _, call _ _, callc _ _, ret _, exit, bar _, bara _ _ _, barw _ _, gbar, grdbar, sstepCluster,
    sstepDie, fork _ _, wait _ _, yield, trap _ _, loop _ _, hint _ _ _ _ _, rdsr _ _ _ _, rdsu _ _ _ _, opreq _ _ _, mtrq _ _ _, msamp _ _ _,
    rpush _ _, rpop _, trmark _ _, bkpt _ _, chkpt _, dbgstop _, trctlStart _, trctlStop _, trctlFreeze _, trctlThaw _, plwr _ _ _, qtwr _ _ _,
    limwr _ _ _, wtwr _ _ _, srwr _ _ _ _, saddB64 _ _ _ _, ssubB64 _ _ _ _, smulB64 _ _ _ _, smulhS64 _ _ _ _, smulhN64 _ _ _ _,
    saddiB64 _ _ _, smoviB64 _ _ _, smovlB64 _ _ _ _, sandB64 _ _ _ _, sorB64 _ _ _ _, sxorB64 _ _ _ _, snotB64 _ _ _, sshlB64 _ _ _ _,
    sshrN64 _ _ _ _, sshrS64 _ _ _ _, smovB64 _ _ _, sminS64 _ _ _ _, sminN64 _ _ _ _, smaxS64 _ _ _ _, smaxN64 _ _ _ _, sclzB64 _ _ _,
    spopcB64 _ _ _, sextS32 _ _ _, sextN32 _ _ _, sceqB64 _ _ _ _, scneB64 _ _ _ _, scltS64 _ _ _ _, scltN64 _ _ _ _, scleS64 _ _ _ _,
    scleN64 _ _ _ _, sselB64 _ _ _ _ _, qand _ _ _ _, qor _ _ _ _, qxor _ _ _ _, qnot _ _ _, vaddB32 _ _ _ _, vsubB32 _ _ _ _, vmulB32 _ _ _ _,
    vmulhS32 _ _ _ _, vmulhN32 _ _ _ _, vaddiB32 _ _ _, vmoviB32 _ _ _, vmovlB32 _ _ _, vaddsS32 _ _ _ _, vaddsN32 _ _ _ _, vsubsS32 _ _ _ _,
    vsubsN32 _ _ _ _, vminS32 _ _ _ _, vminN32 _ _ _ _, vmaxS32 _ _ _ _, vmaxN32 _ _ _ _, vandB32 _ _ _ _, vorB32 _ _ _ _, vxorB32 _ _ _ _,
    vnotB32 _ _ _, vshlB32 _ _ _ _, vshrN32 _ _ _ _, vshrS32 _ _ _ _, vmovB32 _ _ _, vabsS32 _ _ _, vnegS32 _ _ _, vpopcB32 _ _ _,
    vclzB32 _ _ _, vbrevB32 _ _ _, vbfxN32 _ _ _ _ _, vbfxS32 _ _ _ _ _, vbfiB32 _ _ _ _ _, vceqB32 _ _ _ _, vcneB32 _ _ _ _, vcltS32 _ _ _ _,
    vcltN32 _ _ _ _, vcleS32 _ _ _ _, vcleN32 _ _ _ _, vselB32 _ _ _ _ _, vext _ _ _ _ _ _, pand _ _ _ _, por _ _ _ _, pxor _ _ _ _,
    pnot _ _ _, vbcast _ _ _, vfirst _ _ _, vlane _ _ _ _, vvote _ _ _, vshflB32 _ _ _ _, vrsumB32 _ _ _, vrminS32 _ _ _, vrminN32 _ _ _,
    vrmaxS32 _ _ _, vrmaxN32 _ _ _, vscanB32 _ _ _, vrotlB32 _ _ _ _, fadd _ _ _ _, faddX _ _ _ _ _ _, fsub _ _ _ _, fsubX _ _ _ _ _ _,
    fmul _ _ _ _, fmulX _ _ _ _ _ _, ffma _ _ _ _, ffmaX _ _ _ _ _ _ _, fdiv _ _ _ _, fdivX _ _ _ _ _ _, fsqrt _ _ _, fsqrtX _ _ _ _ _,
    fmin _ _ _ _, fmax _ _ _ _, fabs _ _ _, fneg _ _ _, fceq _ _ _ _, fclt _ _ _ _, fcle _ _ _ _, fcun _ _ _ _, fcvt _ _ _ _ _ _ _ _,
    fscl _ _ _ _, fsclX _ _ _ _ _, pdot4 _ _ _ _ _ _ _ _, pdot8 _ _ _ _ _ _ _ _, hadd2 _ _ _ _ _ _, hmul2 _ _ _ _ _ _, hfma2 _ _ _ _ _ _ _,
    fred _ _ _ _ _, cfadd _ _ _ _, cfred _ _ _, cfnorm _ _ _ _, cfnormX _ _ _ _ _ _, ldS8 _ _ _ _, ldN8 _ _ _ _, ldS16 _ _ _ _, ldN16 _ _ _ _,
    ldB32 _ _ _ _, ldB64 _ _ _ _, ldB128 _ _ _ _, ldc _ _ _ _, stB8 _ _ _ _, stB16 _ _ _ _, stB32 _ _ _ _, stB64 _ _ _ _, stB128 _ _ _ _,
    stc _ _ _ _, wldB32 _ _ _ _, wldB128 _ _ _ _, ldsB32 _ _ _, ldsB64 _ _ _, ldsB128 _ _ _, stsB32 _ _ _, stsB64 _ _ _, stsB128 _ _ _,
    put _ _ _ _, get _ _ _ _, aadd _ _ _ _ _ _ _, amin _ _ _ _ _ _ _, amax _ _ _ _ _ _ _, aand _ _ _ _ _ _ _, aor _ _ _ _ _ _ _,
    axor _ _ _ _ _ _ _, axchg _ _ _ _ _ _ _, acas _ _ _ _ _ _ _, acquire _, release _, fence _, cbnd _ _ _ _, cperm _ _ _, cadd _ _ _ _,
    cset _ _ _ _, cseal _ _ _ _, cmov _ _ _, cget _ _ _ _, ctag _ _ _ _, cbcast _ _ _, chbind _ _ _ _, chfree _ _ _, chstat _ _ _,
    spanq _ _ _ _, cpy _ _ _ _ _, cpysIn _ _ _ _ _, cpysOut _ _ _ _ _, mcast _ _ _ _ _, cpyq _ _ _, oclaim _ _ _, orel _ _ _, oload _ _ _ _ _,
    mfence _, mpair _ _ _ _ _ _ _, accrd _ _ _ _ _ _, accwr _ _ _ _ _, accclr _ _ _, accwt _ _ _, accver _ _ _, sclwSet _ _ _, sclwAdd _ _ _,
    sclr _ _ _, clauseIssue _, rcvHoldTimeout _, timingErrorReplay _, blockExit _, childGridComplete _, memoryRequest _ _ _, storeRegister _ _,
    lossNotice _ _, atomicPerform _ _, loadArrival _ _, wcDrainTimeout _ _, refreshWindowStart, refreshWindowEnd, windowTransferComplete _ _,
    copyPart _ _ _ _, copyComplete _ _, oloadComplete _, tileOpStart _, mpairRetire _, tileOpComplete _, barComplete _, gangBarrierArrival _,
    sstepArrival _, spanMoveComplete _ _ _, settleExpiry _, revokeProceed _, revocationPoint _, sweepRegisterScan _, sweepComplete _,
    invalidationComplete _, frameScrub _, worldEndComplete _, keyretComplete _, pmlimApply _, wscopyProceed _, launchRecord _ _,
    blockPlacement _, launchComplete _ _, sliceEnd _, blockSave _, blockRestore _ _, gangReady _, gangDeadline _ _, faultRecordPost, tick _,
    marginRelax _, powerCeilingExpiry _, dieRetire _, chargeReport, stepChangeBegin _, supplyRampEnd _, relockEnd _, supplyLowerEnd _,
    leaseGrant _ _, leaseExpiry, meterSample _, meterReadingWrite _, checkpoint _, linkPacketReceive _, fabricPacketArrival _,
    completionTimeout _ _, uncorrectableError _, linkCrcError _, coreRemap _, boot _, sqt _ _, completionPost _, cqh _ _, rh _ _, trej _,
    latchedHalfRead _ _, registerWrite _ _ _, ctxnew _ _ _, ctxwr _ _ _ _ _, ctxend _ _, revoke _ _, invalObject _ _, invalSpan _ _ _,
    invalStage2 _ _, retry _ _, dispose _ _ _, handler _ _ _ _ _, wscopy _ _ _ _ _ _, partwr _ _ _, vacate _ _ _, vacateReopen _ _ _,
    keyrel _ _, keyret _ _ _, dbgwr _ _, stopNow _, stopAt _ _ _ _, view _ _ _ _ _, resume _, fncfg _ _ _ _ _ _, worldnew _ _ _ _ _ _,
    worldend _ _, qtrd _ _ _, sidebandReadIdentity, sidebandReadTelemetry, sidebandReadLogs, sidebandLeaseFloor _, sidebandRetire _ _ _,
    sidebandReset, returnToService _ _]

/-- Settles O31, by the decoder's law for each constructor. -/
theorem decodeEncode : Obligations.DecodeEncode := fun i k rest => decodeAt_encode i k rest

/-- Settles O30: the decoder runs on each written-out word. -/
theorem decodeSamples : Obligations.DecodeSamples := by
  refine ⟨rfl, rfl, rfl, rfl, rfl, rfl, rfl, rfl, rfl, rfl, rfl, rfl⟩

/-! ### Words from their fields (Tables 3.4, 3.8) -/

/-- Neighbouring bits of a word, joined. -/
theorem ex_join {n : Nat} (x : BitVec n) (lo mid : Nat) {k j : Nat} (h : mid = lo + j) :
    x.extractLsb' mid k ++ x.extractLsb' lo j = x.extractLsb' lo (k + j) := BitVec.extractLsb'_append_extractLsb'_eq_extractLsb' h

theorem eScope_scopeOf (w : Word) : eScope (scopeOf w) = w.extractLsb' 24 2 := by
  have key : ∀ x : BitVec 2, eScope (match x.toNat with | 0 => .lane | 1 => .group | 2 => .set | _ => .block) = x := by decide
  exact key (w.extractLsb' 24 2)

theorem eTy_tyOf (x : BitVec 4) : eTy (tyOf x) = x := by revert x; decide

theorem eRnd_mM (x : Word) : eRnd (mM x) = x.extractLsb' 0 2 := by
  have key : ∀ x : BitVec 2, eRnd (match x.toNat with | 0 => .rn | 1 => .rz | 2 => .ru | _ => .rd) = x := by decide
  exact key (x.extractLsb' 0 2)

theorem eOrd_mO (x : Word) : eOrd (mO x) = x.extractLsb' 0 2 := by
  have key : ∀ x : BitVec 2, eOrd (match x.toNat with | 0 => .rlx | 1 => .acq | 2 => .rel | _ => .ar) = x := by decide
  exact key (x.extractLsb' 0 2)

theorem encT_fields (w : Word) : encT (opc w) (scopeOf w) (fA w) (fB w) (fC w) = w := by
  rw [encT, eScope_scopeOf, opc, fA, fB, fC, BitVec.ofNat_toNat, BitVec.setWidth_eq, ex_join _ 24 26 (by decide), ex_join _ 16 24 (by decide),
    ex_join _ 8 16 (by decide), ex_join _ 0 8 (by decide)]
  exact ex_self w

theorem encI_fields (w : Word) : encI (opc w) (scopeOf w) (fA w) (imm w) = w := by
  rw [encI, eScope_scopeOf, opc, fA, imm, BitVec.ofNat_toNat, BitVec.setWidth_eq, ex_join _ 24 26 (by decide), ex_join _ 16 24 (by decide),
    ex_join _ 0 16 (by decide)]
  exact ex_self w

section
variable {w x : Word} {o : Nat} {e : Scope} {a b c d : Byte} {i : BitVec 16} {m : BitVec 2} {t s : BitVec 4}

theorem encT_eq_iff (h : o < 64) : encT o e a b c = w ↔ opc w = o ∧ scopeOf w = e ∧ fA w = a ∧ fB w = b ∧ fC w = c := by
  constructor
  · rintro rfl
    exact ⟨opc_encT _ _ _ _ _ h, scopeOf_encT .., fA_encT .., fB_encT .., fC_encT ..⟩
  · rintro ⟨rfl, rfl, rfl, rfl, rfl⟩
    exact encT_fields w

theorem encI_eq_iff (h : o < 64) : encI o e a i = w ↔ opc w = o ∧ scopeOf w = e ∧ fA w = a ∧ imm w = i := by
  constructor
  · rintro rfl
    exact ⟨opc_encI _ _ _ _ h, scopeOf_encI .., fA_encI .., imm_encI ..⟩
  · rintro ⟨rfl, rfl, rfl, rfl⟩
    exact encI_fields w

theorem encM_eq_iff : encM m t s d = x ↔
    x.extractLsb' 24 8 = 0#8 ∧ mD x = d ∧ x.extractLsb' 10 6 = 0#6 ∧ x.extractLsb' 6 4 = s ∧ x.extractLsb' 2 4 = t ∧ x.extractLsb' 0 2 = m := by
  constructor
  · rintro rfl
    exact ⟨encM_top .., mD_encM .., encM_res .., encM_st .., encM_ty .., encM_mode ..⟩
  · rintro ⟨h24, rfl, h10, rfl, rfl, rfl⟩
    rw [encM, mD, ← h24, ← h10, ex_join _ 16 24 (by decide), ex_join _ 10 16 (by decide), ex_join _ 6 10 (by decide), ex_join _ 2 6 (by decide),
      ex_join _ 0 2 (by decide)]
    exact ex_self x

theorem type_eq_iff (u : Ty) : x.extractLsb' 2 4 = eTy u ↔ mT x = u :=
  ⟨fun h => by rw [mT, h, tyOf_eTy], fun h => by rw [← h, mT, eTy_tyOf]⟩

theorem stype_eq_iff (u : Ty) : x.extractLsb' 6 4 = eTy u ↔ mS x = u :=
  ⟨fun h => by rw [mS, h, tyOf_eTy], fun h => by rw [← h, mS, eTy_tyOf]⟩

theorem mode_eq_iff (u : Rnd) : x.extractLsb' 0 2 = eRnd u ↔ mM x = u := by
  rw [← eRnd_mM]
  cases mM x <;> cases u <;> decide

theorem order_eq_iff (u : AOrd) : x.extractLsb' 0 2 = eOrd u ↔ mO x = u := by
  rw [← eOrd_mO]
  cases mO x <;> cases u <;> decide

end

/-! ### What a decoder accepts -/

/-- Whatever a decoder accepts satisfies P. -/
def Accepts {α : Type} (m : Dec α) (P : α → Prop) : Prop := ∀ x, m = .ok x → P x

section
variable {α β : Type} {P : α → Prop}

theorem accepts_ok (a : α) : Accepts (.ok a) P ↔ P a := ⟨fun h => h a rfl, fun h _ e => by cases e; exact h⟩
theorem accepts_pure (a : α) : Accepts (pure a) P ↔ P a := accepts_ok a
/-- The word that may follow. -/
theorem accepts_ext {ext : Dec Word} {P : Word → Prop} : Accepts ext P ↔ ∀ x, ext = .ok x → P x := .rfl

theorem accepts_error (e : DecErr) : Accepts (.error e) P := fun _ h => by cases h

/-- A step of the decoder goes on with what the step before it accepts. -/
theorem accepts_bind (m : Dec β) (f : β → Dec α) : Accepts (m >>= f) P ↔ Accepts m fun y => Accepts (f y) P := by
  cases m with
  | error e => exact ⟨fun _ _ h => (by cases h), fun _ _ h => (by cases h)⟩
  | ok y => exact (accepts_ok (P := fun y => Accepts (f y) P) y).symm

theorem accepts_need {P : Unit → Prop} (b : Bool) : Accepts (need b) P ↔ (b = true → P ()) := by
  cases b <;> simp [need, accepts_ok, accepts_error]
theorem accepts_needOp {P : Unit → Prop} (b : Bool) : Accepts (needOp b) P ↔ (b = true → P ()) := by
  cases b <;> simp [needOp, accepts_ok, accepts_error]
theorem accepts_needScope {P : Unit → Prop} (b : Bool) : Accepts (needScope b) P ↔ (b = true → P ()) := by
  cases b <;> simp [needScope, accepts_ok, accepts_error]

end

/-! ### Scopes, modifier words and roles: what each accepts is what the encoder writes for it -/

section
variable {w x : Word} {b : Byte} {i : BitVec 16}

theorem accepts_sAll {P : Scope → Prop} : Accepts (sAll w) P ↔ P (scopeOf w) := accepts_ok _
theorem accepts_sLG {P : Scope → Prop} : Accepts (sLG w) P ↔ ((scopeOf w).laneOrGroup = true → P (scopeOf w)) := by
  rw [sLG, accepts_bind, accepts_needScope]; simp only [accepts_pure]
theorem accepts_sGSB {P : Scope → Prop} : Accepts (sGSB w) P ↔ ((scopeOf w).wide = true → P (scopeOf w)) := by
  rw [sGSB, accepts_bind, accepts_needScope]; simp only [accepts_pure]
theorem accepts_sL {P : Unit → Prop} : Accepts (sL w) P ↔ (scopeOf w = .lane → P ()) := by rw [sL, accepts_needScope, beq_iff_eq]
theorem accepts_sB {P : Unit → Prop} : Accepts (sB w) P ↔ (scopeOf w = .block → P ()) := by rw [sB, accepts_needScope, beq_iff_eq]

theorem accepts_modOk {P : Unit → Prop} (mode st d : Bool) : Accepts (modOk x mode st d) P ↔
    (x.extractLsb' 10 6 = 0#6 → x.extractLsb' 24 8 = 0#8 → (mode = true ∨ x.extractLsb' 0 2 = 0#2) → (st = true ∨ x.extractLsb' 6 4 = 0#4) →
      (d = true ∨ mD x = 0#8) → P ()) := by
  rw [modOk, accepts_need]
  simp only [Bool.and_eq_true, Bool.or_eq_true, beq_iff_eq, and_imp]
  rfl

/-- A role whose decoder inverts its encoder accepts exactly what the encoder writes. -/
theorem accepts_role {α : Type} {P : α → Prop} {n : Nat} {f : BitVec n} {dec : BitVec n → Dec α} {enc : α → BitVec n}
    (fwd : ∀ a, dec (enc a) = .ok a) (back : ∀ f, Accepts (dec f) fun a => enc a = f) : Accepts (dec f) P ↔ ∀ a, f = enc a → P a := by
  constructor
  · rintro h a rfl
    exact h a (fwd a)
  · exact fun h a ha => h a (back f a ha).symm

theorem eBool_getLsbD {n : Nat} (x : BitVec n) (k : Nat) : eBool (x.getLsbD k) = x.extractLsb' k 1 := by
  refine BitVec.eq_of_getLsbD_eq fun i hi => ?_
  obtain rfl : i = 0 := by omega
  rw [BitVec.getLsbD_extractLsb']
  cases x.getLsbD k <;> rfl

theorem byte_fields : ∀ b : Byte, eBool (b.getLsbD 7) ++ eBool (b.getLsbD 6) ++ b.extractLsb' 0 6 = b := by decide

theorem accepts_dVs {P : VSrc → Prop} : Accepts (dVs b) P ↔ ∀ v, b = eVs v → P v := by
  refine accepts_role dVs_eVs fun b => (accepts_ok _).mpr ?_
  have h := byte_fields b
  cases h7 : b.getLsbD 7 <;> rw [h7] at h <;> exact h

theorem accepts_dVd {P : VDst → Prop} : Accepts (dVd b) P ↔ ∀ v, b = eVd v → P v := by
  refine accepts_role dVd_eVd fun b => ?_
  rw [dVd, accepts_bind, accepts_needOp, accepts_pure, Bool.not_eq_true']
  intro h6
  have h := byte_fields b
  rw [h6] at h
  cases h7 : b.getLsbD 7 <;> rw [h7] at h <;> exact h

theorem accepts_dRs {P : RSrc → Prop} : Accepts (dRs b) P ↔ ∀ r, b = eRs r → P r := by
  refine accepts_role dRs_eRs fun b => ?_
  rw [dRs, accepts_bind, accepts_needOp, accepts_pure, Bool.not_eq_true']
  intro h7
  have h := byte_fields b
  rw [h7] at h
  exact h

theorem accepts_dRd {P : BitVec 6 → Prop} : Accepts (dRd b) P ↔ ∀ r, b = eRd r → P r := by
  refine accepts_role dRd_eRd fun b => ?_
  rw [dRd, accepts_bind, accepts_needOp, accepts_pure, Bool.and_eq_true, Bool.not_eq_true', Bool.not_eq_true']
  rintro ⟨h7, h6⟩
  have h := byte_fields b
  rw [h7, h6] at h
  exact h

theorem accepts_dCh {P : BitVec 6 → Prop} : Accepts (dCh b) P ↔ ∀ c, b = eCh c → P c := by
  refine accepts_role dCh_eCh fun b => ?_
  rw [dCh, accepts_bind, accepts_needOp, accepts_pure, Bool.and_eq_true, Bool.not_eq_true']
  rintro ⟨h7, h6⟩
  have h := byte_fields b
  rw [h7, h6] at h
  exact h

theorem accepts_dQs {P : RSrc → Prop} : Accepts (dQs b) P ↔ ∀ r, b = eRs r → quadOk r.n = true → P r := by
  simp only [dQs, accepts_bind, accepts_dRs, accepts_needOp, accepts_pure]
theorem accepts_dPs {P : RSrc → Prop} : Accepts (dPs b) P ↔ ∀ r, b = eRs r → pairOk r.n = true → P r := by
  simp only [dPs, accepts_bind, accepts_dRs, accepts_needOp, accepts_pure]
theorem accepts_dQd {P : BitVec 6 → Prop} : Accepts (dQd b) P ↔ ∀ r, b = eRd r → quadOk r = true → P r := by
  simp only [dQd, accepts_bind, accepts_dRd, accepts_needOp, accepts_pure]
theorem accepts_dPd {P : BitVec 6 → Prop} : Accepts (dPd b) P ↔ ∀ r, b = eRd r → pairOk r = true → P r := by
  simp only [dPd, accepts_bind, accepts_dRd, accepts_needOp, accepts_pure]

theorem accepts_dPrs {P : Pred → Prop} : Accepts (dPrs b) P ↔ ∀ p, b = ePrs p → P p := by
  have key : ∀ b : Byte, b.extractLsb' 4 4 = 0#4 → ePrs ⟨b.extractLsb' 0 3, b.getLsbD 3⟩ = b := by decide
  refine accepts_role dPrs_ePrs fun b => ?_
  rw [dPrs, accepts_bind, accepts_needOp, accepts_pure, beq_iff_eq]
  exact key b

theorem accepts_dPrd {P : BitVec 3 → Prop} : Accepts (dPrd b) P ↔ ∀ p, b = ePrd p → pdstOk p = true → P p := by
  have key : ∀ b : Byte, b.extractLsb' 3 5 = 0#5 → ePrd (b.extractLsb' 0 3) = b := by decide
  constructor
  · rintro h p rfl hp
    exact h p (dPrd_ePrd p hp)
  · intro h
    rw [dPrd, accepts_bind, accepts_needOp, accepts_pure, Bool.and_eq_true, beq_iff_eq]
    exact fun ⟨h0, hp⟩ => h _ (key b h0).symm hp

theorem accepts_dByte {P : BitVec 8 → Prop} : Accepts (dByte b) P ↔ P b := accepts_ok b
theorem accepts_dZero {P : Unit → Prop} : Accepts (dZero b) P ↔ (b = 0#8 → P ()) := by rw [dZero, accepts_needOp, beq_iff_eq]

/-- A number below 2 to the n is what its n low bits are extended to. -/
theorem zeroExtend_setWidth {k n : Nat} (b : BitVec k) (h : b.toNat < 2 ^ n) : (b.setWidth n).setWidth k = b := by
  apply BitVec.eq_of_toNat_eq
  rw [BitVec.toNat_setWidth, BitVec.toNat_setWidth, Nat.mod_eq_of_lt h, Nat.mod_eq_of_lt b.isLt]

theorem accepts_dSel {n m : Nat} {P : BitVec n → Prop} (hn : n ≤ 8) (hm : m ≤ 2 ^ n) :
    Accepts (dSel n m b) P ↔ ∀ v : BitVec n, b = v.setWidth 8 → v.toNat < m → P v := by
  constructor
  · rintro h v rfl hv
    exact h v (dSel_ext n m v hn hv)
  · intro h
    rw [dSel, accepts_bind, accepts_needOp, accepts_pure, decide_eq_true_iff]
    intro hb
    have hlt : b.toNat < 2 ^ n := Nat.lt_of_lt_of_le hb hm
    refine h _ (zeroExtend_setWidth b hlt).symm ?_
    rwa [BitVec.toNat_setWidth, Nat.mod_eq_of_lt hlt]

theorem accepts_dBit {P : Bool → Prop} : Accepts (dBit b) P ↔ ∀ v, b = eBit v → P v := by
  have key : ∀ b : Byte, b.toNat < 2 → eBit (b.getLsbD 0) = b := by decide
  refine accepts_role dBit_eBit fun b => ?_
  rw [dBit, accepts_bind, accepts_needOp, accepts_pure, decide_eq_true_iff]
  exact key b

theorem accepts_dLen {P : BitVec 6 → Prop} : Accepts (dLen b) P ↔ ∀ v : BitVec 6, b = v.setWidth 8 → 1 ≤ v.toNat → v.toNat ≤ 32 → P v := by
  constructor
  · rintro h v rfl h1 h2
    exact h v (dLen_ext v (by rw [decide_eq_true h1, decide_eq_true h2]; rfl))
  · intro h
    rw [dLen, accepts_bind, accepts_needOp, accepts_pure, Bool.and_eq_true, decide_eq_true_iff, decide_eq_true_iff]
    rintro ⟨h1, h2⟩
    have hv : (b.setWidth 6).toNat = b.toNat := by rw [BitVec.toNat_setWidth]; omega
    exact h _ (zeroExtend_setWidth b (by omega)).symm (by rw [hv]; exact h1) (by rw [hv]; exact h2)

/-! ### Immediates (R150, R203) -/

/-- The bits of a 16-bit immediate above the n lowest are zero: the n lowest bits give it. -/
theorem imm_low {n k : Nat} (hnk : 16 = n + k) (i : BitVec 16) (h : i.extractLsb' n k = 0#k) : (i.extractLsb' 0 n).setWidth 16 = i := by
  have hi : i.toNat < 2 ^ n * 2 ^ k := by rw [← Nat.pow_add, ← hnk]; exact i.isLt
  have h0 : i.toNat / 2 ^ n % 2 ^ k = 0 := by
    rw [← Nat.shiftRight_eq_div_pow, ← BitVec.extractLsb'_toNat, h, BitVec.toNat_ofNat, Nat.zero_mod]
  rw [Nat.mod_eq_of_lt (Nat.div_lt_of_lt_mul hi), Nat.div_eq_zero_iff] at h0
  rw [← BitVec.setWidth_eq_extractLsb' (by omega)]
  exact zeroExtend_setWidth i (h0.resolve_left (by positivity))

theorem accepts_dImm12 {P : BitVec 12 → Prop} : Accepts (dImm12 i) P ↔ ∀ v : BitVec 12, i = v.setWidth 16 → P v := by
  refine accepts_role dImm12_ext fun i => ?_
  rw [dImm12, accepts_bind, accepts_need, accepts_pure, beq_iff_eq]
  exact imm_low (by decide) i

theorem accepts_dImm8 {P : BitVec 8 → Prop} : Accepts (dImm8 i) P ↔ ∀ v : BitVec 8, i = v.setWidth 16 → P v := by
  refine accepts_role dImm8_ext fun i => ?_
  rw [dImm8, accepts_bind, accepts_need, accepts_pure, beq_iff_eq]
  exact imm_low (by decide) i

theorem accepts_dK {P : BitVec 4 → Prop} : Accepts (dK i) P ↔ ∀ v : BitVec 4, i = v.setWidth 16 → P v := by
  refine accepts_role dK_ext fun i => ?_
  rw [dK, accepts_bind, accepts_need, accepts_pure, beq_iff_eq]
  exact imm_low (by decide) i

theorem accepts_dStep {P : BitVec 7 → Prop} : Accepts (dStep i) P ↔ ∀ v : BitVec 7, i = v.setWidth 16 → v.toNat ≤ 64 → P v := by
  constructor
  · rintro h v rfl hv
    exact h v (dStep_ext v (decide_eq_true hv))
  · intro h
    rw [dStep, accepts_bind, accepts_need, accepts_pure, decide_eq_true_iff]
    intro hi
    have hv : i.extractLsb' 0 7 = i.setWidth 7 := (BitVec.setWidth_eq_extractLsb' (by decide)).symm
    refine h _ ?_ ?_ <;> rw [hv]
    · exact (zeroExtend_setWidth i (by omega)).symm
    · rw [BitVec.toNat_setWidth]; omega

/-- `bara` reads two fields of one immediate. -/
theorem accepts_dKn {P : BitVec 4 → Prop} : Accepts (dKn i) P ↔ P (i.extractLsb' 0 4) := accepts_ok _
theorem accepts_dBn {P : BitVec 6 → Prop} : Accepts (dBn i) P ↔ ∀ n, 0#6 ++ n ++ i.extractLsb' 0 4 = i → n.toNat < 32 → P n := by
  constructor
  · intro h n hi hn
    exact h n (by rw [← hi]; exact dBn_enc _ n (decide_eq_true hn))
  · intro h
    rw [dBn, accepts_bind, accepts_need, accepts_pure, Bool.and_eq_true, beq_iff_eq, decide_eq_true_iff]
    rintro ⟨h10, hn⟩
    refine h _ ?_ hn
    rw [← h10, ex_join _ 4 10 (by decide), ex_join _ 0 4 (by decide)]
    exact ex_self i

theorem accepts_dWait {P : WaitLim → Prop} : Accepts (dWait i) P ↔ ∀ v : WaitLim, i = 0#2 ++ v.t ++ v.c ++ v.s ++ v.l → P v := by
  refine accepts_role dWait_enc fun i => ?_
  rw [dWait, accepts_bind, accepts_need, accepts_pure, beq_iff_eq]
  intro h
  rw [← h, ex_join _ 11 14 (by decide), ex_join _ 8 11 (by decide), ex_join _ 4 8 (by decide), ex_join _ 0 4 (by decide)]
  exact ex_self i

theorem sregNum_sregOf : ∀ n : BitVec 7, ∀ r ∈ sregOf n, sregNum r = n := by decide

theorem accepts_dSr {P : SReg → Prop} : Accepts (dSr i) P ↔ ∀ r, eSr r (i.getLsbD 7) = i → P r := by
  constructor
  · intro h r hi
    exact h r (by rw [← hi]; exact dSr_eSr r _)
  · intro h
    rw [dSr, accepts_bind, accepts_need, beq_iff_eq]
    intro h8
    cases hr : sregOf (i.extractLsb' 0 7) with
    | none => exact accepts_error _
    | some r =>
      refine (accepts_pure _).mpr (h r ?_)
      rw [eSr, sregNum_sregOf _ r hr, eBool_getLsbD, ← h8, ex_join _ 7 8 (by decide), ex_join _ 0 7 (by decide)]
      exact ex_self i

theorem accepts_dSrv {P : BitVec 2 → Prop} : Accepts (dSrv i) P ↔ ∀ v, eSr (.view v) (i.getLsbD 7) = i → P v := by
  rw [dSrv, accepts_bind, accepts_dSr]
  constructor
  · intro h v hi
    exact (accepts_pure _).mp (h (.view v) hi)
  · intro h r hi
    cases r with
    | view v => exact (accepts_pure _).mpr (h v hi)
    | _ => exact accepts_error _

end

end Sys2Proof
end

section
/-!
PROOFS. Every word that a class accepts is the encoding of the instruction it decodes to (R57, R62, R63, R203).
-/

namespace Sys2Proof

/-! ### The classes -/

/-- The words are w alone, or w and the word after it. -/
def WordsAre (w : Word) (ext : Dec Word) : List Word → Prop
  | [v] => v = w
  | [v, x] => v = w ∧ .ok x = ext
  | _ => False

/-- An instruction of class k that is well formed, of the length that the opcode of w gives, and encoded in w and the word after it. -/
def EncodedAs (k : Eng) (w : Word) (ext : Dec Word) (i : Instr) : Prop :=
  i.wf = true ∧ i.eng = some k ∧ (if isLong k (opc w) then 2 else 1) = (encode i).length ∧ WordsAre w ext (encode i)

/-! An arm of the decoder reads one field after another. What each step accepts is what the encoder writes for the value that it reads, so the
fields put together again are the word itself, and the checks of the arm are those of a well-formed instruction. -/

section
variable (w : Word) (ext : Dec Word)

theorem accepts_decUni : Accepts (decUni w ext) (EncodedAs .uni w ext) := by
  unfold decUni
  generalize ho : opc w = o
  split
  case h_36 => exact accepts_error _
  all_goals
    simp only [accepts_bind, accepts_pure, accepts_ext, accepts_sLG, accepts_modOk, accepts_need, beq_iff_eq, accepts_dRd, accepts_dRs, accepts_dPrd,
      accepts_dPrs, accepts_dSel, accepts_dZero, Bool.false_eq_true, false_or, true_or, forall_const, Nat.reduceLeDiff, Nat.reducePow]
    intros
    refine ⟨?_, rfl, by rw [ho]; rfl, ?_⟩
    · simp only [Instr.wf, *, Bool.and_true, decide_true]
    · whnf
      simp only [encT_eq_iff, encI_eq_iff, Except.ok.injEq, encM_eq_iff, type_eq_iff, Nat.reduceLT, BitVec.truncate_eq_setWidth,
        and_true, *]

theorem accepts_decVint : Accepts (decVint w ext) (EncodedAs .vint w ext) := by
  unfold decVint
  generalize ho : opc w = o
  split
  case h_57 => exact accepts_error _
  all_goals
    simp only [accepts_bind, accepts_pure, accepts_ext, accepts_sAll, accepts_sGSB, accepts_modOk, accepts_need, accepts_needOp, beq_iff_eq,
      accepts_dRd, accepts_dRs, accepts_dPrd, accepts_dPrs, accepts_dVd, accepts_dVs, accepts_dByte, accepts_dLen, accepts_dZero, Bool.false_eq_true,
      false_or, true_or, forall_const]
    intros
    refine ⟨?_, rfl, by rw [ho]; rfl, ?_⟩
    · simp only [Instr.wf, vextOk, *, Bool.and_true, decide_true]
    · whnf
      simp only [encT_eq_iff, encI_eq_iff, Except.ok.injEq, encM_eq_iff, type_eq_iff, stype_eq_iff, Nat.reduceLT,
        BitVec.truncate_eq_setWidth, and_true, *]

theorem accepts_decVflt : Accepts (decVflt w ext) (EncodedAs .vflt w ext) := by
  unfold decVflt
  generalize ho : opc w = o
  split
  case h_34 => exact accepts_error _
  all_goals
    simp only [accepts_bind, accepts_pure, accepts_ext, accepts_sAll, accepts_sGSB, accepts_modOk, accepts_need, accepts_needOp, beq_iff_eq,
      accepts_dRd, accepts_dPd, accepts_dPs, accepts_dPrd, accepts_dVd, accepts_dVs, accepts_dByte, accepts_dSel, accepts_dZero, Bool.false_eq_true,
      false_or, true_or, forall_const, Nat.reduceLeDiff, Nat.reducePow]
    intros
    refine ⟨?_, rfl, by rw [ho]; rfl, ?_⟩
    · simp only [Instr.wf, fcvtOk, *, Bool.and_true, decide_true]
    · whnf
      simp only [encT_eq_iff, Except.ok.injEq, encM_eq_iff, type_eq_iff, stype_eq_iff, mode_eq_iff, Nat.reduceLT,
        BitVec.truncate_eq_setWidth, and_true, *]

theorem accepts_decMem : Accepts (decMem w ext) (EncodedAs .mem w ext) := by
  unfold decMem
  generalize ho : opc w = o
  split
  case h_49 => exact accepts_error _
  all_goals
    simp only [accepts_bind, accepts_pure, accepts_ext, accepts_sAll, accepts_sLG, accepts_modOk, accepts_need, accepts_needOp, accepts_dRd,
      accepts_dRs, accepts_dPd, accepts_dPs, accepts_dQd, accepts_dQs, accepts_dPrd, accepts_dVd, accepts_dVs, accepts_dCh, accepts_dSel,
      accepts_dImm12, accepts_dZero, Bool.false_eq_true, false_or, true_or, forall_const, Nat.reduceLeDiff, Nat.reducePow]
    intros
    refine ⟨?_, rfl, by rw [ho]; rfl, ?_⟩
    · simp only [Instr.wf, *, Bool.and_true]
    · whnf
      simp only [encT_eq_iff, encI_eq_iff, Except.ok.injEq, encM_eq_iff, type_eq_iff, order_eq_iff, Nat.reduceLT,
        BitVec.truncate_eq_setWidth, and_true, *]

theorem accepts_decSys : Accepts (decSys w ext) (EncodedAs .sys w ext) := by
  unfold decSys
  generalize ho : opc w = o
  split
  case h_18 => exact accepts_error _
  -- `trctl` is four instructions, by its immediate.
  case h_12 =>
    simp only [accepts_bind, accepts_pure, accepts_sAll, accepts_need, accepts_dZero, decide_eq_true_iff]
    intro hi ha
    split <;> [skip; split <;> [skip; split]]
    all_goals
      simp only [beq_iff_eq] at *
      refine ⟨rfl, rfl, by rw [ho]; rfl, ?_⟩
      whnf
      simp only [encI_eq_iff, Nat.reduceLT, true_and, *]
    exact BitVec.eq_of_toNat_eq (by bv_omega)
  all_goals
    simp only [accepts_bind, accepts_pure, accepts_sAll, accepts_sLG, accepts_sL, accepts_dRd, accepts_dRs, accepts_dPs, accepts_dVd, accepts_dCh,
      accepts_dSr, accepts_dSrv, accepts_dStep, accepts_dImm8, accepts_dZero]
    intros
    refine ⟨?_, rfl, by rw [ho]; rfl, ?_⟩
    · simp only [Instr.wf, *, Bool.and_true, decide_true]
    · whnf
      simp only [encT_eq_iff, encI_eq_iff, Nat.reduceLT, BitVec.truncate_eq_setWidth, and_true, true_and]
      simp only [*, and_true]

theorem accepts_decAsy : Accepts (decAsy w ext) (EncodedAs .asy w ext) := by
  unfold decAsy
  generalize ho : opc w = o
  split
  case h_17 => exact accepts_error _
  -- `cpys` is two instructions, by its mode.
  case h_2 =>
    simp only [accepts_bind, accepts_pure, accepts_ext, accepts_sAll, accepts_modOk, accepts_need, Bool.or_eq_true, beq_iff_eq, accepts_dQs,
      accepts_dVs, Bool.false_eq_true, false_or, true_or, forall_const]
    intro x hx h10 h24 hs hm ht a ha b hb hq c hc d hd
    have hrn := mode_eq_iff (x := x) .rn
    have hrz := mode_eq_iff (x := x) .rz
    have hT : encT 0x01 (scopeOf w) (eVs a) (eRs b) (eVs c) = w := (encT_eq_iff (by decide)).mpr ⟨ho, rfl, ha, hb, hc⟩
    rcases hm with hm | hm <;> rw [hm] at hrn hrz ⊢
    · exact ⟨hq, rfl, by rw [ho]; rfl, hT, hx ▸ congrArg _ (encM_eq_iff.mpr ⟨h24, hd, h10, hs, (type_eq_iff _).mpr ht, hrn.mpr rfl⟩)⟩
    · exact ⟨hq, rfl, by rw [ho]; rfl, hT, hx ▸ congrArg _ (encM_eq_iff.mpr ⟨h24, hd, h10, hs, (type_eq_iff _).mpr ht, hrz.mpr rfl⟩)⟩
  -- `sclw` is two instructions, by its selector.
  case h_15 =>
    simp only [accepts_bind, accepts_pure, accepts_sAll, accepts_dRs, accepts_dSel, Nat.reduceLeDiff, Nat.reducePow]
    intro m hm _ b hb k hk _
    have hbit : ∀ k : BitVec 1, k = 0#1 ∨ k = 1#1 := by decide
    rcases hbit k with rfl | rfl
    all_goals exact ⟨rfl, rfl, by rw [ho]; rfl, (encT_eq_iff (by decide)).mpr ⟨ho, rfl, hm, hb, hk⟩⟩
  all_goals
    simp only [accepts_bind, accepts_pure, accepts_ext, accepts_sAll, accepts_sLG, accepts_modOk, accepts_need, accepts_needOp, beq_iff_eq,
      accepts_dRd, accepts_dRs, accepts_dQs, accepts_dVd, accepts_dVs, accepts_dByte, accepts_dBit, accepts_dSel, accepts_dZero, Bool.false_eq_true,
      false_or, true_or, forall_const, Nat.reduceLeDiff, Nat.reducePow]
    intros
    refine ⟨?_, rfl, by rw [ho]; rfl, ?_⟩
    · simp only [Instr.wf, *, Bool.and_true]
    · whnf
      simp only [encT_eq_iff, encI_eq_iff, Except.ok.injEq, encM_eq_iff, type_eq_iff, stype_eq_iff, mode_eq_iff, Nat.reduceLT,
        BitVec.truncate_eq_setWidth, and_true, *]

/-- The opcodes 0x38 to 0x3F of CTL are the hints (R69). -/
theorem hintOf_encodedAs (h : 56 ≤ opc w) : EncodedAs .ctl w ext (hintOf w) := by
  have h7 : 7#3 = w.extractLsb' 29 3 := by
    have hw := w.isLt
    apply BitVec.eq_of_toNat_eq
    rw [opc, BitVec.extractLsb'_toNat, Nat.shiftRight_eq_div_pow] at h
    rw [BitVec.extractLsb'_toNat, Nat.shiftRight_eq_div_pow]
    simp only [BitVec.toNat_ofNat]
    omega
  refine ⟨rfl, rfl, rfl, ?_⟩
  change 7#3 ++ _ ++ _ ++ _ ++ _ ++ _ = w
  rw [h7, eScope_scopeOf, fA, fB, fC, ex_join _ 26 29 (by decide), ex_join _ 24 26 (by decide), ex_join _ 16 24 (by decide),
    ex_join _ 8 16 (by decide), ex_join _ 0 8 (by decide)]
  exact ex_self w

theorem accepts_decCtl : Accepts (decCtl w ext) (EncodedAs .ctl w ext) := by
  unfold decCtl
  generalize ho : opc w = o
  split
  case h_29 => exact accepts_error _
  -- `sstep` is two instructions, by its immediate.
  case h_15 =>
    simp only [accepts_bind, accepts_pure, accepts_sB, accepts_need, accepts_dZero, decide_eq_true_iff]
    intro he hi ha
    split
    all_goals
      refine ⟨rfl, rfl, by rw [ho]; rfl, ?_⟩
      whnf
      simp_all only [encI_eq_iff, Nat.reduceLT, true_and, beq_iff_eq]
    bv_omega
  case h_21 | h_22 | h_23 | h_24 | h_25 | h_26 | h_27 | h_28 => exact (accepts_pure _).mpr (hintOf_encodedAs w ext (by omega))
  all_goals
    simp only [accepts_bind, accepts_pure, accepts_sAll, accepts_sGSB, accepts_sL, accepts_sB, accepts_dRd, accepts_dRs, accepts_dQd, accepts_dQs,
      accepts_dPrs, accepts_dKn, accepts_dBn, accepts_dK, accepts_dWait, accepts_dZero]
    intros
    refine ⟨?_, rfl, by rw [ho]; rfl, ?_⟩
    · simp only [Instr.wf, *, Bool.and_true, decide_true]
    · whnf
      simp only [encT_eq_iff, encI_eq_iff, Nat.reduceLT, BitVec.truncate_eq_setWidth, and_true, true_and]
      simp only [*, and_true]

theorem accepts_decodeWord (k : Eng) : Accepts (decodeWord k w ext) (EncodedAs k w ext) := by
  cases k with
  | ctl => exact accepts_decCtl w ext
  | sys => exact accepts_decSys w ext
  | uni => exact accepts_decUni w ext
  | vint => exact accepts_decVint w ext
  | vflt => exact accepts_decVflt w ext
  | mem => exact accepts_decMem w ext
  | asy => exact accepts_decAsy w ext
end

/-- Settles O32: an arm of the decoder accepts only fields that the encoder writes, so the words are put together from them again. -/
theorem acceptedWordsAreEncodings : Obligations.AcceptedWordsAreEncodings := by
  intro k ws i n h
  cases ws with
  | nil => cases h
  | cons w rest =>
    suffices hacc : Accepts (decodeAt k (w :: rest)) fun p => p.1.wf = true ∧ p.1.eng = some k ∧ p.2 = (encode p.1).length ∧
        (w :: rest).take p.2 = encode p.1 from hacc _ h
    unfold decodeAt
    rw [accepts_bind]
    intro j hj
    obtain ⟨hwf, heng, hlen, hwords⟩ := accepts_decodeWord w _ k j hj
    refine (accepts_pure _).mpr ⟨hwf, heng, hlen, ?_⟩
    dsimp only
    rw [hlen]
    unfold WordsAre at hwords
    split at hwords
    · next v he => rw [he, hwords]; rfl
    · next v x he =>
      obtain ⟨rfl, hx⟩ := hwords
      cases rest with
      | nil => cases hx
      | cons y r => cases hx; rw [he]; rfl
    · exact hwords.elim

end Sys2Proof
end

section
/-!
PROOFS. The uniform instructions of Table 13.1 and the lane-wise integer instructions in their forms (R58, R181 to R187).
-/

namespace Sys2Proof.Machine

section
variable {s : State} {c : Cur} {G : Group} {srcs : List RSrc}

/-- The sources as the leading group holds them. -/
def leadSrcs (s : State) (c : Cur) (srcs : List RSrc) : List DWord := srcs.map fun r => s.sAt (gkey c.blk c.lead) r.n.toNat

theorem uniOp_form {d : BitVec 6} {v : DWord} (cls : Nat) (g : Group → List DWord → DWord) (h : g G (leadSrcs s c srcs) = v) (hc : s.cur = some c)
    (he : c.empty = false) (hG : s.grp? c.blk c.lead = some G) : ∃ t, uniOp cls d srcs g s = .next t ∧ uniDone s t c srcs d.toNat v :=
  h ▸ uniOp_done cls d srcs g hc he hG

theorem uniPredOp_form {d : BitVec 3} {v : Bool} (cls : Nat) (g : Group → List DWord → Bool) (h : g G (leadSrcs s c srcs) = v) (hc : s.cur = some c)
    (he : c.empty = false) (hG : s.grp? c.blk c.lead = some G) : ∃ t, uniPredOp cls d srcs g s = .next t ∧ uniPredDone s t c srcs d.toNat v :=
  h ▸ uniPredOp_done cls d srcs g hc he hG

end

theorem signExtend_eq_ofInt {n m : Nat} (x : BitVec n) : x.signExtend m = BitVec.ofInt m x.toInt := rfl

theorem zeroExtend_eq_ofNat {n m : Nat} (x : BitVec n) : x.zeroExtend m = BitVec.ofNat m x.toNat := (BitVec.ofNat_toNat m x).symm

theorem low32_eq (x : DWord) : x.extractLsb' 0 32 = x.setWidth 32 := (BitVec.setWidth_eq_extractLsb' (by decide)).symm

/-- `smovl` by its selector. -/
theorem movl_eq (sel : BitVec 2) (lit : Word) (x : DWord) :
    (if sel == 0#2 then lit.signExtend 64 else if sel == 1#2 then lit.zeroExtend 64 else lit ++ x.extractLsb' 0 32) =
      if sel = 0 then BitVec.ofInt 64 lit.toInt else if sel = 1 then BitVec.ofNat 64 lit.toNat
      else BitVec.ofNat 64 (x.toNat % 2 ^ 32 + 2 ^ 32 * lit.toNat) := by
  have hhi : lit ++ x.extractLsb' 0 32 = BitVec.ofNat 64 (x.toNat % 2 ^ 32 + 2 ^ 32 * lit.toNat) := by
    apply BitVec.eq_of_toNat_eq
    have hl := lit.isLt
    have hx := Nat.mod_lt x.toNat (y := 2 ^ 32) (by decide)
    rw [low32_eq, BitVec.toNat_append, BitVec.toNat_setWidth, Nat.shiftLeft_eq, BitVec.toNat_ofNat,
      ← Nat.shiftLeft_eq, ← Nat.shiftLeft_add_eq_or_of_lt hx, Nat.shiftLeft_eq]
    omega
  simp only [beq_iff_eq, signExtend_eq_ofInt, zeroExtend_eq_ofNat, hhi]
  rfl

theorem sextS_eq (x : DWord) : (x.extractLsb' 0 32).signExtend 64 = BitVec.ofInt 64 (x.setWidth 32).toInt := by rw [low32_eq, signExtend_eq_ofInt]

theorem sextN_eq (x : DWord) : (x.extractLsb' 0 32).zeroExtend 64 = BitVec.ofNat 64 (x.toNat % 2 ^ 32) := by
  rw [low32_eq, zeroExtend_eq_ofNat, BitVec.toNat_setWidth]

/-- Settles O1: each instruction as the shared operation, its function in the words of the statement. -/
theorem uniformArithmetic : Obligations.UniformArithmetic := by
  intro i a srcs f s c G hF hc he hG
  unfold uniForm at hF
  split at hF <;> cases hF <;> dsimp only [exec]
  · exact uniOp_form 0x10 _ rfl hc he hG
  · exact uniOp_form 0x10 _ rfl hc he hG
  · exact uniOp_form 0x11 _ (mul_eq_ofNat ..) hc he hG
  · exact uniOp_form 0x11 _ (mulhS_eq ..) hc he hG
  · exact uniOp_form 0x11 _ (mulhN_eq ..) hc he hG
  · exact uniOp_form 0x10 _ rfl hc he hG
  · exact uniOp_form 0x10 _ rfl hc he hG
  · exact uniOp_form 0x10 _ (movl_eq ..) hc he hG
  · exact uniOp_form 0x10 _ rfl hc he hG
  · exact uniOp_form 0x10 _ rfl hc he hG
  · exact uniOp_form 0x10 _ rfl hc he hG
  · exact uniOp_form 0x10 _ rfl hc he hG
  · exact uniOp_form 0x10 _ (shl_eq ..) hc he hG
  · exact uniOp_form 0x10 _ (shrN_eq ..) hc he hG
  · exact uniOp_form 0x10 _ (shrS_eq ..) hc he hG
  · exact uniOp_form 0x10 _ rfl hc he hG
  · exact uniOp_form 0x10 _ (minS_eq ..) hc he hG
  · exact uniOp_form 0x10 _ (minN_eq ..) hc he hG
  · exact uniOp_form 0x10 _ (maxS_eq ..) hc he hG
  · exact uniOp_form 0x10 _ (maxN_eq ..) hc he hG
  · exact uniOp_form 0x10 _ (congrArg _ (clz_eq ..)) hc he hG
  · exact uniOp_form 0x10 _ (congrArg _ (popc_eq ..)) hc he hG
  · exact uniOp_form 0x10 _ (sextS_eq ..) hc he hG
  · exact uniOp_form 0x10 _ (sextN_eq ..) hc he hG
  · exact uniOp_form 0x10 _ rfl hc he hG

section
variable {n : Nat} (x y : BitVec n)

theorem holds_eq : Rel.eq.holds x y = decide (x = y) := rfl
theorem holds_ne : Rel.ne.holds x y = decide (x ≠ y) := (decide_not ..).symm
theorem holds_ltS : Rel.ltS.holds x y = decide (x.toInt < y.toInt) := rfl
theorem holds_ltN : Rel.ltN.holds x y = decide (x.toNat < y.toNat) := rfl
theorem holds_leS : Rel.leS.holds x y = decide (x.toInt ≤ y.toInt) := rfl
theorem holds_leN : Rel.leN.holds x y = decide (x.toNat ≤ y.toNat) := rfl

end

section
variable {s : State} {c : Cur} {G : Group} {d : BitVec 3} {v : Bool}

theorem scmp_form (r : Rel) (x y : RSrc) (h : r.holds (s.sAt (gkey c.blk c.lead) x.n.toNat) (s.sAt (gkey c.blk c.lead) y.n.toNat) = v)
    (hc : s.cur = some c) (he : c.empty = false) (hG : s.grp? c.blk c.lead = some G) :
    ∃ t, scmp r d x y s = .next t ∧ uniPredDone s t c [x, y] d.toNat v :=
  uniPredOp_form 0x10 (fun _ xs => r.holds (xs.getD 0 0#64) (xs.getD 1 0#64)) h hc he hG

theorem qLogic_form (ps : List Pred) (g : List Bool → Bool) (h : g (ps.map G.qpred) = v) (hc : s.cur = some c) (he : c.empty = false)
    (hG : s.grp? c.blk c.lead = some G) : ∃ t, qLogic d ps g s = .next t ∧ uniPredDone s t c [] d.toNat v :=
  uniPredOp_form 0x12 (fun G _ => g (ps.map G.qpred)) h hc he hG

end

/-- Settles O2: each compare and each logic instruction as the shared operation. -/
theorem uniformPredicates : Obligations.UniformPredicates := by
  intro i a srcs f s c G hF hc he hG
  unfold uniPredForm at hF
  split at hF <;> cases hF <;> dsimp only [exec]
  · exact scmp_form .eq _ _ (holds_eq ..) hc he hG
  · exact scmp_form .ne _ _ (holds_ne ..) hc he hG
  · exact scmp_form .ltS _ _ (holds_ltS ..) hc he hG
  · exact scmp_form .ltN _ _ (holds_ltN ..) hc he hG
  · exact scmp_form .leS _ _ (holds_leS ..) hc he hG
  · exact scmp_form .leN _ _ (holds_leN ..) hc he hG
  · exact qLogic_form _ _ rfl hc he hG
  · exact qLogic_form _ _ rfl hc he hG
  · exact qLogic_form _ _ rfl hc he hG
  · exact qLogic_form _ _ rfl hc he hG

/-- Settles O3, by each instruction in its form. -/
theorem vectorInteger : Obligations.VectorInteger := intForm_done

end Sys2Proof.Machine
end

section
/-!
PROOFS. Privileged words at a wider scope: the counterexample to the unit that a handle holds (R67, R160, R176).
-/

namespace Sys2Proof.Machine

/-- A `plwr` with s0 as each source. -/
def writeFromS0 : Instr := .plwr ⟨0, false⟩ ⟨0, false⟩ ⟨0, false⟩

/-- The context of the trap is not the supervisor's: no context is in the state. -/
theorem supervisor_trapOutOfOrder : supervisor trapOutOfOrder (pasidOf trapOutOfOrder 0) = false := by decide

/-- PRIV_OP at block scope lists the unit's groups after its issuers were set waiting, as `trap` does: the handle holds three. -/
theorem held_writeFromS0 :
    ∃ t, exec writeFromS0 trapOutOfOrder = .next t ∧ (tget? t.parks trapOutOfOrder.nextId).map (·.held.groups) = some [0, 1, 0] :=
  ⟨_, rfl, rfl⟩

/-- Refutes O21, in the clause on a wider scope: where the table of groups is not in the order of its keys, the handle of PRIV_OP holds
group 0 twice, as that of `trap` does in `not_softTrap`. The statement asks of the state's tables only that the unit's groups differ
before the word. -/
theorem not_privilegedWords : ¬ Obligations.PrivilegedWords := by
  rintro ⟨_, _, _, hw⟩
  have hsane : trapOfBlock.sane := ⟨by decide, by decide⟩
  have hnodup : (unitGroups trapOutOfOrder 0 0 .block).Nodup := by rw [unitGroups_trapOutOfOrder]; decide
  obtain ⟨t, ht, ⟨_, hout, _⟩, _⟩ := hw writeFromS0 _ trapOutOfOrder trapOfBlock rfl rfl (by decide) rfl hsane hnodup supervisor_trapOutOfOrder
  obtain ⟨u, hu, hthree⟩ := held_writeFromS0
  cases ht.symm.trans hu
  have hparks := congrArg (fun x => (tget? x.parks trapOutOfOrder.nextId).map (·.held.groups)) hout.1
  have htwo : some [1, 0] = some [0, 1, 0] := hparks.symm.trans hthree
  exact absurd htwo (by decide)

end Sys2Proof.Machine
end

section
/-!
PROOFS. Releases, acquires and barriers: drained lines, translated requests and performed loads leave every block at its home (R35, R140), so
the acquire after a release is that core's (R145, R161, R216).
-/

namespace Sys2Proof.Machine

/-! ### A block's home while others' requests come about (R113, R140, R198, R322) -/

/-- Every block keeps the core it is at home on. -/
structure homeKept (s t : State) : Prop where
  at_block : ∀ b, homeOf t b = homeOf s b

namespace homeKept

theorem refl (s : State) : homeKept s s := ⟨fun _ => rfl⟩

theorem trans {s t u : State} (h : homeKept s t) (h' : homeKept t u) : homeKept s u := ⟨fun b => (h'.at_block b).trans (h.at_block b)⟩

theorem of_blocks {s t : State} (h : t.blocks = s.blocks) : homeKept s t := ⟨fun b => by unfold homeOf; rw [h]⟩

theorem foldl {α : Type} {f : State → α → State} (hf : ∀ s a, homeKept s (f s a)) (l : List α) (s : State) : homeKept s (l.foldl f s) := by
  induction l generalizing s with
  | nil => exact refl s
  | cons a r ih => exact (hf s a).trans (ih _)

theorem foldl_snd {α β : Type} {f : β × State → α → β × State} (hf : ∀ a x, homeKept a.2 (f a x).2) (l : List α) (a : β × State) :
    homeKept a.2 (l.foldl f a).2 := by
  induction l generalizing a with
  | nil => exact refl a.2
  | cons x r ih => exact (hf a x).trans (ih _)

theorem ite {p : Prop} [Decidable p] {s t u : State} (ht : homeKept s t) (hu : homeKept s u) : homeKept s (if p then t else u) := by
  split
  · exact ht
  · exact hu

theorem modBlock (s : State) (b : Nat) {f : Block → Block} (hf : ∀ B, (f B).home = B.home) : homeKept s (s.modBlock b f) := by
  refine ⟨fun k => ?_⟩
  unfold homeOf State.modBlock
  rw [tget?_tmod]
  split
  · next h => rw [h, Option.map_map]; exact congrArg (Option.getD · 0) (congrArg (Option.map · _) (funext hf))
  · rfl

theorem of_sliceSide {s t : State} (h : sliceSide s t) : homeKept s t := of_blocks h.blocks

theorem charge (s : State) (die cls n : Nat) (acct : Option Nat) (la : Nat) : homeKept s (charge s die cls n acct la) := of_blocks (charge_blocks ..)

theorem modOp (s : State) (k : Nat) (f : Op → Op) : homeKept s (s.modOp k f) := of_blocks rfl
theorem modCtx (s : State) (p : Nat) (f : Ctx → Ctx) : homeKept s (s.modCtx p f) := of_blocks rfl

/-! Writes to memory (R139, R291, R323). -/

theorem noteTables (s : State) (h n : Nat) : homeKept s (noteTables s h n) := by
  refine foldl (fun t f => ?_) _ s
  unfold noteTable
  split
  · exact refl t
  · refine foldl (fun t e => ?_) _ t
    unfold noteEntry
    split <;> exact of_blocks rfl

theorem setMem (s : State) (m : Mem) : homeKept s { s with mem := m } := of_blocks rfl

theorem touchLines (s : State) (h n : Nat) : homeKept s (touchLines s h n) := foldl (fun t _ => setMem t _) _ s

theorem hitImages (s : State) (h n : Nat) : homeKept s (hitImages s h n) :=
  trans (foldl (fun t (m : Nat × Nat × Nat) => modBlock t (m.2.2 % 2 ^ 32) (f := fun B => { B with imgHit := true }) fun _ => rfl) _ s)
    (of_blocks rfl)

theorem beforeWrite (s : State) (h n : Nat) :
    homeKept s (stampWords (Machine.hitImages (Machine.touchLines (Machine.noteTables s h n) h n) h n) h n) := by
  have hb := ((noteTables s h n).trans (touchLines _ h n)).trans (hitImages _ h n)
  unfold stampWords
  exact ite hb (hb.trans (of_blocks rfl))

theorem physWrite (s : State) (h : Nat) (bs : List Byte) : homeKept s (physWrite s h bs) := (beforeWrite s h bs.length).trans (of_blocks rfl)

theorem physWriteCap (s : State) (h : Nat) (bs : List Byte) (t : Bool) : homeKept s (physWriteCap s h bs t) :=
  (beforeWrite s h bs.length).trans (of_blocks rfl)

theorem ownWords (s : State) (core : Nat) (ws : List Nat) : homeKept s (ownWords s core ws) := of_sliceSide (.ownWords ..)

theorem homeWrite (s : State) (core h : Nat) (bs : List Byte) : homeKept s (homeWrite s core h bs) := (physWrite ..).trans (ownWords ..)

theorem writeParts (s : State) (ps : List (Nat × Nat)) (bs : List Byte) : homeKept s (writeParts s ps bs) := by
  induction ps generalizing s bs with
  | nil => exact refl s
  | cons p r ih => exact (physWrite ..).trans (ih ..)

theorem claimParts {s t : State} {w : Nat} {ps : List (Nat × Nat)} (e : Machine.claimParts s w ps = some t) : homeKept s t := by
  obtain ⟨O, rfl⟩ := claimParts_eq e
  exact of_blocks rfl

theorem devWrite (s : State) (world : Option Nat) (func g : Nat) (bs : List Byte) : homeKept s (devWrite s world func g bs) := by
  unfold Machine.devWrite
  split
  · exact refl s
  · dsimp only
    split
    · exact refl s
    · next u hu =>
      have h : homeKept s u := by
        cases world with
        | none => exact Option.some.inj hu ▸ refl s
        | some w => exact claimParts hu
      exact (h.trans (writeParts ..)).trans (of_blocks rfl)

/-! Drained lines (R140). -/

theorem probeSample (s : State) (o : Op) (q : LReq) : homeKept s (probeSample s o q) := by
  unfold Machine.probeSample
  split
  · exact refl s
  · split
    · exact refl s
    · dsimp only
      split
      · exact refl s
      · exact ((trans (of_blocks rfl : homeKept s { s with free := s.free + 7 }) (devWrite ..)).trans (charge ..)).trans (modCtx ..)

theorem dropReq (s : State) (op lane : Nat) : homeKept s (dropReq s op lane) :=
  of_blocks (congrArg State.blocks (dropReq_ops s op lane) :)

theorem storeDone (s : State) (op lane : Nat) : homeKept s (storeDone s op lane) := by
  have hd (u : State) (b g : Nat) (k : CK) : homeKept u (lowerCtr (Machine.dropReq u op lane) b g [lane] k) :=
    (dropReq u op lane).trans (of_blocks rfl)
  unfold Machine.storeDone
  split
  · exact refl s
  · dsimp only
    split
    · exact (probeSample ..).trans (hd ..)
    · exact hd ..

theorem chargeAccess (s : State) (b core h n : Nat) (l1 far : Bool) (mt : Nat) : homeKept s (chargeAccess s b core h n l1 far mt) := by
  unfold Machine.chargeAccess
  dsimp only
  have h1 : homeKept s (if l1 then Machine.charge s (dieOf core) 0x39 ((h + n - 1) / 32 - h / 32 + 1) (acctOf s b).1 (acctOf s b).2 else s) :=
    ite (charge ..) (refl s)
  exact ite (h1.trans (of_sliceSide (.chargeLines ..))) h1

theorem wcCharged (s : State) (core line : Nat) (w : WcLine) : homeKept s (wcCharged s core line w) := by
  unfold Machine.wcCharged
  dsimp only
  have h : homeKept s (s.modCore core fun c => { c with wc := tdel c.wc line }) := of_blocks rfl
  split
  · exact h.trans (chargeAccess ..)
  · exact h

theorem drainLine (s : State) (core line : Nat) : homeKept s (drainLine s core line) := by
  cases hw : tget? (s.core core).wc line with
  | none => unfold Machine.drainLine; rw [hw]; exact refl s
  | some w =>
    cases hr : relockWait s core [(64 * line, 64, 1)] with
    | true => unfold Machine.drainLine; rw [hw]; dsimp only; rw [if_pos hr]; exact refl s
    | false =>
      rw [drainLine_eq hw hr]
      refine (((wcCharged s core line w).trans (foldl (fun _ _ => homeWrite ..) _ _)).trans
        (foldl (fun u i => ?_) _ _)).trans (foldl (fun u x => ?_) _ _)
      · exact (physWriteCap ..).trans (ownWords ..)
      · exact ite (refl u) (storeDone ..)

/-! Stopped contexts and raised faults (R198, R207, R279, R322). -/

/-- A save begins with a new phase, at the same home (R290). -/
theorem phase_home (B : Block) :
    (if B.phase == .resident || B.phase == .draining then { B with phase := .saving } else B).home = B.home := by
  split <;> rfl

theorem beginSave (s : State) (b : Nat) : homeKept s (beginSave s b) := by
  unfold Machine.beginSave
  dsimp only
  split
  · exact modBlock s b phase_home
  · refine (modBlock s b phase_home).trans (foldl (fun u (x : Nat × Block) => ?_) _ _)
    exact modBlock u x.1 (f := fun T => { T with foldTo := none }) fun _ => rfl

theorem stopCtx (s : State) (p : Nat) : homeKept s (stopCtx s p) := (modCtx ..).trans (foldl (fun _ _ => beginSave ..) _ _)

theorem integrity (s : State) (kind unit core : Nat) (p : Option Nat) (addr : Nat) : homeKept s (integrity s kind unit core p addr) := by
  unfold Machine.integrity
  cases p with
  | none => exact of_blocks rfl
  | some p => exact (stopCtx s p).trans (of_blocks rfl)

theorem lineEvent (s : State) (l p : Nat) : homeKept s (lineEvent s l p) := by
  unfold Machine.lineEvent
  exact trans (setMem s _) (integrity ..)

theorem logAdd (s : State) (b : Nat) (e : LogEnt) : homeKept s (logAdd s b e) := ite (modBlock s b fun _ => rfl) (refl s)

theorem deliver (s : State) (b h : Nat) (p : Park) : homeKept s (deliver s b h p) := ite (of_blocks rfl) (ite (of_blocks rfl) (of_blocks rfl))

theorem reportExited (s : State) (b g : Nat) (m : Lanes) : homeKept s (reportExited s b g m) := by
  refine foldl (fun u x => ?_) _ s
  refine ite (refl u) (foldl (fun v code => ?_) _ u)
  have hf : homeKept v v.fresh.2 := of_blocks rfl
  have hd (ls : List Nat) : homeKept v (lowerCtr (ls.foldl (fun t l => Machine.dropReq t x.1 l) v.fresh.2) b g ls x.2.kind.ctr) :=
    (hf.trans (foldl (fun t l => dropReq t x.1 l) ls _)).trans (of_blocks rfl)
  exact (hd _).trans (deliver ..)

theorem raiseHit (s : State) (hit : Hit) (code : Nat) : homeKept s (raiseHit s hit code) := by
  have hm (u : State) (b k : Nat) (e : LogEnt) (f : Op → Op) : homeKept u ((Machine.logAdd u b e).modOp k f) := (logAdd ..).trans (modOp ..)
  unfold Machine.raiseHit
  split
  · unfold raiseRetry
    split
    · exact refl s
    · have hf : homeKept s s.fresh.2 := of_blocks rfl
      exact (hf.trans (foldl (fun _ _ => foldl (fun _ _ => hm ..) _ _) _ _)).trans (deliver ..)
  · exact foldl (fun _ _ => (foldl (fun _ _ => hm ..) _ _).trans (reportExited ..)) _ _

theorem faultIssue (s : State) (k : Nat) (o : Op) (lane code x : Nat) (now : Op → LReq → Option (Nat × Nat)) :
    homeKept s (faultIssue s k o lane code x now) := raiseHit ..

/-! Translated requests and performed loads (R113, R140, R199). -/

theorem tlbFill (s : State) (die : Nat) (c : Ctx) (p : Nat) (k : Cap) (x h : Nat) (w : Bool) : homeKept s (tlbFill s die c p k x h w) := by
  have hn (f g h : Nat) : homeKept s (noteMap s f g h) := ite (refl s) (of_blocks rfl)
  unfold Machine.tlbFill
  dsimp only
  split
  · exact (hn ..).trans (of_blocks rfl)
  · exact (hn ..).trans (of_blocks rfl)

theorem translateGo {die : Nat} {c : Ctx} {p : Nat} {k : Cap} {write cached : Bool} (fuel x n : Nat) (far : Option Nat)
    (acc : List (Nat × Nat × Nat)) (s : State) : homeKept s (translateGo die c p k write cached fuel x n far acc s).state := by
  induction fuel generalizing x n far acc s with
  | zero =>
    cases far <;> exact refl s
  | succ fuel ih =>
    unfold Machine.translateGo
    split
    · cases far <;> exact refl s
    · split
      · exact refl s
      · exact ih ..
      · split
        · exact refl s
        · next u hu =>
          obtain ⟨O, rfl⟩ := claimFrame_eq hu
          exact trans ((setMem s _).trans (tlbFill ..)) (ih ..)

theorem translate (s : State) (die p : Nat) (k : Cap) (x n : Nat) (write cached : Bool) :
    homeKept s (translate s die p k x n write cached).state := by
  unfold Machine.translate
  split
  · exact refl s
  · split
    · exact refl s
    · exact translateGo ..

theorem sendFar (s : State) (k lane : Nat) : homeKept s (sendFar s k lane) := by
  unfold Machine.sendFar
  split
  · exact refl s
  · have hc (o : Op) : homeKept s (chargeFab s o) :=
      ite (refl s) (trans (of_blocks rfl : homeKept s { s with free := s.free + 1 }) (of_sliceSide (.chargeFar ..)))
    exact (hc _).trans (modOp ..)

theorem passParts (s : State) (k lane : Nat) (o : Op) (q : LReq) (parts : List (Nat × Nat × Nat)) (cached : Bool) :
    homeKept s (passParts s k lane o q parts cached) := by
  unfold Machine.passParts
  dsimp only
  refine ite ((modOp ..).trans (faultIssue ..)) ?_
  exact ite (((modOp ..).trans (modOp ..)).trans (sendFar ..)) ((modOp ..).trans (modOp ..))

theorem translateReq (s : State) (k lane : Nat) (cached : Bool) : homeKept s (translateReq s k lane cached) := by
  unfold Machine.translateReq
  split
  · exact refl s
  · next o _ =>
    split
    · next q c _ _ =>
      dsimp only
      split
      · split
        · exact lineEvent ..
        · split
          · exact faultIssue ..
          · exact sendFar ..
          · exact modOp ..
      · have ht := translate s (dieOf o.core) (pasidOf s o.blk) q.cap q.x q.n o.kind.isWrite cached
        split
        · next e => rw [e] at ht; exact ht.trans (faultIssue ..)
        · next e => rw [e] at ht; exact ht.trans (passParts ..)
        · next e => rw [e] at ht; exact ht.trans (passParts ..)
    · exact refl s

theorem l1Read (s : State) (core h n : Nat) (use : Bool) : homeKept s (l1Read s core h n use).2 := of_blocks rfl

theorem performLoad (s : State) (k lane : Nat) (cached : Bool) : homeKept s (performLoad s k lane cached) := by
  unfold Machine.performLoad
  split
  · exact refl s
  · next o _ =>
    split
    · exact refl s
    · next q _ =>
      dsimp only
      refine ite (sendFar ..) ?_
      split
      · exact lineEvent ..
      · refine trans (trans ?_ (foldl_snd (fun a p => ?_) q.parts _)) (modOp ..)
        · exact foldl (fun u p => ite (foldl (fun _ _ => drainLine ..) _ _) (refl u)) q.parts s
        · split
          · exact trans (chargeAccess ..) (l1Read ..)
          · exact chargeAccess a.2 o.blk o.core p.1 p.2.1 false true p.2.2

theorem attempt (s : State) (k lane : Nat) (cached : Bool) : homeKept s (attempt s k lane cached) := by
  unfold Machine.attempt
  dsimp only
  generalize hu : (if (((tget? s.ops k).bind fun o => o.req? lane).map (·.ph)) == some Ph.sent then Machine.translateReq s k lane cached else s) = u
  have h : homeKept s u := hu ▸ ite (translateReq ..) (refl s)
  split
  · exact h
  · split
    · exact ite (h.trans (performLoad ..)) h
    · exact h

theorem releaseStart (s : State) (b : Nat) (els : List (Nat × Nat)) : homeKept s (releaseStart s b els) :=
  trans (foldl (fun u _ => ite (attempt ..) (refl u)) _ s) (foldl (fun _ _ => drainLine ..) _ _)

end homeKept
/-! ### The word goes on (R54, R141, R145, R161, R216) -/

/-- After an acquire of a core its L1 holds only copies of words that the core owns (R145). -/
theorem l1_acquireCore (s : State) (core : Nat) : ∀ x ∈ ((acquireCore s core).core core).l1, tget? s.mem.wordOwner x.1 = some core := by
  unfold acquireCore
  rw [State.core_modCore, if_pos rfl]
  exact fun x hx => beq_iff_eq.mp (List.mem_filter.mp hx).2

theorem l1_acquireNow {s u : State} {c : Cur} (he : c.empty = false) (h : homeKept s u) :
    ∀ x ∈ ((acquireNow u c).core (homeOf s c.blk)).l1, tget? (acquireNow u c).mem.wordOwner x.1 = some (homeOf s c.blk) := by
  unfold acquireNow
  rw [if_neg (by simp [he]), ← h.at_block c.blk]
  exact l1_acquireCore u _

theorem released_acquireNow (s : State) (c : Cur) (b : Nat) (els : List (Nat × Nat)) : released (acquireNow s c) b els = released s b els := by
  unfold acquireNow
  split <;> rfl

/-- What the words of `syncForm` leave: of the state `u`, the core's L1 where they acquire, and the operations where they release. -/
structure syncDone (s : State) (c : Cur) (i : Instr) (u : State) : Prop where
  exec : ∃ t, exec i s = .next t ∧ effectIs u t
  l1 : (∀ e, i ≠ .release e) → ∀ x ∈ (u.core (homeOf s c.blk)).l1, tget? u.mem.wordOwner x.1 = some (homeOf s c.blk)
  done : (∀ e, i ≠ .acquire e) → (∀ e l, i ≠ .wait e l) → released u c.blk c.elems = true

/-- A release and then an acquire. -/
theorem syncDone_releaseAcquire {s : State} {c : Cur} {i : Instr} {cls : Nat} (hc : s.cur = some c) (he : c.empty = false) (hr : releasesNow s c)
    (hx : Machine.exec i s = releaseOp (fun s c => Machine.done cls .issue (acquireNow s c)) s) :
    syncDone s c i (acquireNow (releaseStart s c.blk c.elems) c) where
  exec := by rw [hx, releaseOp_now hc he hr]; exact done_effect cls .issue _
  l1 := fun _ => l1_acquireNow he (.releaseStart ..)
  done := fun _ _ => (released_acquireNow ..).trans hr.2

theorem syncDone_release {s : State} {c : Cur} {e : Scope} (hc : s.cur = some c) (he : c.empty = false) (hr : releasesNow s c) :
    syncDone s c (.release e) (releaseStart s c.blk c.elems) where
  exec := by rw [exec_release, execRelease, releaseOp_now hc he hr]; exact done_effect 0x26 .issue _
  l1 := fun h => absurd rfl (h e)
  done := fun _ _ => hr.2

theorem syncDone_acquire {s : State} {c : Cur} {e : Scope} (hc : s.cur = some c) (he : c.empty = false) (ha : atomicsDone s c.blk c.elems = true) :
    syncDone s c (.acquire e) (acquireNow s c) where
  exec := by
    rw [exec_acquire]
    unfold execAcquire acquireOp
    simp only [hc, he, ha, Bool.false_eq_true, if_false, if_true]
    exact done_effect 0x26 .issue _
  l1 := fun _ => l1_acquireNow he (.refl s)
  done := fun h => absurd rfl (h e)

theorem syncDone_wait {s : State} {c : Cur} {e : Scope} {lim : WaitLim} (hc : s.cur = some c) (he : c.empty = false)
    (hl : e ≠ .lane ∧ lim.c ≠ 7) (hw : waiting s c lim = []) : syncDone s c (.wait e lim) (acquireNow s c) where
  exec := by
    rw [exec_wait]
    unfold execWait
    simp only [hc, hw, List.isEmpty_nil, true_or, or_true, if_true]
    rw [if_pos (c := e ≠ .lane ∧ lim.c ≠ 7#3) hl]
    exact done_effect 0x08 .issue _
  l1 := fun _ => l1_acquireNow he (.refl s)
  done := fun _ h => absurd rfl (h e lim)

theorem syncForm_done {i : Instr} {s u : State} {c : Cur} {p : Prop} (h : syncForm s c i = some (u, p)) (hc : s.cur = some c)
    (he : c.empty = false) (hp : p) : syncDone s c i u := by
  unfold syncForm at h
  split at h
  case h_1 => cases h; exact syncDone_releaseAcquire hc he hp (exec_bar s)
  case h_2 => cases h; exact syncDone_releaseAcquire hc he hp (exec_fence s)
  case h_3 => cases h; exact syncDone_release hc he hp
  case h_4 => cases h; exact syncDone_acquire hc he hp
  case h_5 =>
    split at h
    · next hl => cases h; exact syncDone_wait hc he hl hp
    · cases h
  case h_6 => cases h

/-- Settles O16: what is outside the groups, L1 and the operations among it, is as the form says, word by word. -/
theorem releasesAndAcquires : Obligations.ReleasesAndAcquires := by
  intro i s c u p h hc he hp
  obtain ⟨⟨t, ht, heff⟩, hl1, hdone⟩ := syncForm_done h hc he hp
  obtain ⟨_, ⟨hrest, _⟩, _⟩ := id heff
  have hcores : t.cores = u.cores := (congrArg State.cores hrest :)
  have hmem : t.mem = u.mem := (congrArg State.mem hrest :)
  have hops : t.ops = u.ops := (congrArg State.ops hrest :)
  refine ⟨t, ht, heff, fun hi => ?_, fun ha hw => ?_⟩
  · unfold State.core
    rw [hcores, hmem]
    exact hl1 hi
  · unfold released
    rw [hops]
    exact hdone ha hw

end Sys2Proof.Machine
end

section
/-!
PROOFS. Scratchpad stores: the accounts of a store's passes, the bytes that its elements write, and what is kept beside them (R52, R128, R129,
R212).
-/

namespace Sys2Proof.Machine

/-! ### Frames but for a part of the blocks -/

theorem outsideBut_refl (f : Block → Block) (s : State) : outsideBut f s s := ⟨rfl, fun _ => rfl, fun _ => rfl, fun _ => rfl, fun _ => rfl⟩

theorem outsideBut_trans {f : Block → Block} {s t u : State} (h : outsideBut f s t) (h' : outsideBut f t u) : outsideBut f s u := by
  obtain ⟨hr, hb, hc, hw, hl⟩ := h
  obtain ⟨hr', hb', hc', hw', hl'⟩ := h'
  exact ⟨hr'.trans hr, fun b => (hb' b).trans (hb b), fun p => (hc' p).trans (hc p), fun w => (hw' w).trans (hw w), fun l => (hl' l).trans (hl l)⟩

theorem outsideBut_of_outside (f : Block → Block) {s t : State} (h : outside s t) : outsideBut (fun B => f B.noRc) s t := by
  obtain ⟨hr, hb, hc, hw, hl⟩ := h
  refine ⟨hr, fun b => ?_, hc, hw, hl⟩
  have := congrArg (Option.map f) (hb b)
  simpa [Option.map_map, Function.comp_def] using this

theorem outsideBut_modBlock (f : Block → Block) (s : State) (b : Nat) (g : Block → Block) (hg : ∀ B, f (g B) = f B) :
    outsideBut f s (s.modBlock b g) := by
  refine ⟨rfl, fun k => ?_, fun _ => rfl, fun _ => rfl, fun _ => rfl⟩
  simp only [State.modBlock, tget?_tmod]
  split
  · next h => rw [h, Option.map_map]; exact congrArg (Option.map · _) (funext hg)
  · rfl

/-! ### What a scratchpad store keeps with its bytes (R147, R149) -/

/-- A block without its retired count, the unfenced stores and the raced words of its rings. -/
def Block.noDirty (B : Block) : Block := { B.noRc with spmDirty := [], ringDirty := [] }

/-- A group without its positions and its lanes' counters. -/
def Group.noCtr (G : Group) : Group := { G.noPos with ctr := [] }

/-- The same state but for positions, counters, accounts, unfenced stores and raced words. -/
structure besideStore (u t : State) : Prop where
  out : outsideBut Block.noDirty u t
  groups : groupsKept Group.noCtr u t

namespace besideStore

theorem refl (s : State) : besideStore s s := ⟨outsideBut_refl _ s, groupsKept_refl _ s⟩

theorem trans {s t u : State} (h : besideStore s t) (h' : besideStore t u) : besideStore s u :=
  ⟨outsideBut_trans h.out h'.out, groupsKept_trans h.groups h'.groups⟩

theorem of_effectIs {s t : State} (h : effectIs s t) : besideStore s t := by
  obtain ⟨_, hout, hgroups⟩ := h
  exact ⟨outsideBut_of_outside (fun B => { B with spmDirty := [], ringDirty := [] }) hout, groupsKept_map (fun G => { G with ctr := [] }) hgroups⟩

theorem foldl {α : Type} {f : State → α → State} (hf : ∀ s a, besideStore s (f s a)) (l : List α) (s : State) : besideStore s (l.foldl f s) := by
  induction l generalizing s with
  | nil => exact refl s
  | cons a r ih => exact (hf s a).trans (ih _)

theorem modBlock (s : State) (b : Nat) (f : Block → Block) (hf : ∀ B, (f B).noDirty = B.noDirty) : besideStore s (s.modBlock b f) :=
  ⟨outsideBut_modBlock _ s b f hf, groupsKept_refl _ s⟩

theorem modGroup (s : State) (b g : Nat) (f : Group → Group) (hf : ∀ G, (f G).noCtr = G.noCtr) : besideStore s (s.modGroup b g f) :=
  ⟨⟨rfl, fun _ => rfl, fun _ => rfl, fun _ => rfl, fun _ => rfl⟩, groupsKept_modGroup _ s b g f hf⟩

theorem raiseCtr (s : State) (b g l : Nat) (k : CK) : besideStore s (raiseCtr s b g [l] k) := modGroup s b g _ fun _ => rfl

theorem lowerCtr (s : State) (b g l : Nat) (k : CK) : besideStore s (lowerCtr s b g [l] k) := modGroup s b g _ fun _ => rfl

theorem spmUnfenced (s : State) (b g l x n : Nat) : besideStore s (spmUnfenced s b g l x n) := modBlock s b _ fun _ => rfl

theorem raceRings (s : State) (b x n : Nat) : besideStore s (raceRings s b x n) := by
  unfold Machine.raceRings
  dsimp only
  split
  · exact refl s
  · refine trans ?_ (modBlock { s with free := _ } b _ fun _ => rfl)
    exact ⟨⟨rfl, fun _ => rfl, fun _ => rfl, fun _ => rfl, fun _ => rfl⟩, fun _ => rfl⟩

/-- A write to a scratchpad sees nothing of what is kept beside it. -/
theorem modSpm {u t : State} (h : besideStore u t) (b : Nat) (f : Ram → Ram) : besideStore (modSpm u b f) (modSpm t b f) := by
  obtain ⟨⟨hr, hb, hc, hw, hl⟩, hg⟩ := h
  refine ⟨⟨hr, fun k => ?_, hc, hw, hl⟩, hg⟩
  have hk (s : State) : (tget? (Machine.modSpm s b f).blocks k).map Block.noDirty =
      ((tget? s.blocks k).map Block.noDirty).map fun B => if k = b then { B with spm := f B.spm } else B := by
    unfold Machine.modSpm State.modBlock
    rw [tget?_tmod]
    split
    · next h => rw [h]; cases tget? s.blocks b <;> rfl
    · cases tget? s.blocks k <;> rfl
  rw [hk, hk, hb]

theorem blockSpm {u t : State} (h : besideStore u t) (b : Nat) : blockSpm t b = blockSpm u b := by
  obtain ⟨⟨_, hb, _⟩, _⟩ := h
  have hs (s : State) : Machine.blockSpm s b = (((tget? s.blocks b).map Block.noDirty).map (·.spm)).getD Ram.empty := by
    unfold Machine.blockSpm
    rw [Option.map_map]
    rfl
  rw [hs, hs, hb]

theorem bytes {u t : State} (h : besideStore u t) : bytesKept u t := by
  have hmem : t.mem = u.mem := rest_mem h.out.1
  have hdies : t.dies = u.dies := (congrArg State.dies h.out.1 :)
  intro p
  cases p with
  | hbm a => simp only [State.byteAt, hmem]
  | spm b a => simp only [State.byteAt, h.blockSpm b]
  | ws d a => simp only [State.byteAt, State.die, hdies]

end besideStore

/-! ### Bytes outside an element stay -/

theorem byteAt_modSpm (s : State) (b : Nat) (f : Ram → Ram) (p : Place) (h : ∀ x, p = .spm b x → ∀ r : Ram, (f r).get x = r.get x) :
    (modSpm s b f).byteAt p = s.byteAt p := by
  cases p with
  | hbm a => rfl
  | ws d a => rfl
  | spm c x =>
    cases hB : tget? s.blocks b with
    | none =>
      have hk : tget? (modSpm s b f).blocks c = tget? s.blocks c := by
        unfold modSpm State.modBlock
        rw [tget?_tmod]
        split
        · next e => rw [hB, e, hB]; rfl
        · rfl
      simp only [State.byteAt, blockSpm, hk]
    | some B =>
      simp only [State.byteAt, blockSpm_modSpm hB]
      split
      · next e => subst e; exact h x rfl _
      · rfl

/-! ### Taken operands (R149, R151) -/

/-- A channel gives elements of it to the lanes of a group. -/
def popOne (chans : Tab Chan) (b : Nat) (s : State) (y : Nat × Nat) : State :=
  match tget? chans y.1 with
  | some ch => chanPop s b ch y.2
  | none => s

/-- The operands of the active lanes of a group are taken. -/
def takeOne (c : Cur) (ops : List Opd) (s : State) (a : Nat × Lanes) : State :=
  if a.2 == 0#64 then s
  else match s.grp? c.blk a.1 with
    | none => s
    | some G =>
      let u := (chanPops (lanesOf a.2).length ops).foldl (popOne G.chans c.blk) s
      State.modGroup (if ops.all fun o => !o.isChan then u else acquireCore u (homeOf u c.blk)) c.blk a.1 fun G => G.freeOps ops (lanesOf a.2)

theorem consume_eq (s : State) (c : Cur) (ops : List Opd) : consume s c ops = c.act.foldl (takeOne c ops) s := rfl

/-- What popped elements, acquires and freed registers keep, taken operands keep. -/
theorem consume_keeps {R : State → State → Prop} (refl : ∀ s, R s s) (trans : ∀ {s t u}, R s t → R t u → R s u) (c : Cur) (ops : List Opd)
    (pop : ∀ s ch n, R s (chanPop s c.blk ch n)) (acquire : ∀ s k, R s (acquireCore s k))
    (free : ∀ s g ls, R s (s.modGroup c.blk g fun G => G.freeOps ops ls)) (s : State) : R s (consume s c ops) := by
  have foldl {α : Type} {f : State → α → State} (hf : ∀ s a, R s (f s a)) (l : List α) (s : State) : R s (l.foldl f s) := by
    induction l generalizing s with
    | nil => exact refl s
    | cons a r ih => exact trans (hf s a) (ih _)
  refine foldl (fun u a => ?_) c.act s
  change R u (takeOne c ops u a)
  unfold takeOne
  split
  · exact refl u
  · split
    · exact refl u
    · next G _ =>
      have hpop (v : State) (y : Nat × Nat) : R v (popOne G.chans c.blk v y) := by
        unfold popOne
        split
        · exact pop ..
        · exact refl v
      have hpops := foldl hpop (chanPops (lanesOf a.2).length ops) u
      dsimp only
      refine trans ?_ (free _ a.1 _)
      split
      · exact hpops
      · exact trans hpops (acquire ..)

/-! ### Accounts and taken operands (R128, R298) -/

/-- The state with the accounts, the operations and the identifiers of another. -/
def withTables (x s : State) : State :=
  { s with energy := x.energy, ctxs := x.ctxs, worlds := x.worlds, launches := x.launches, ops := x.ops, nextId := x.nextId }

theorem applyCharge_accounts (s : State) (d p la n : Nat) : applyCharge s ⟨d, some p, la, n⟩ = withTables (applyCharge s ⟨d, some p, la, n⟩) s := by
  unfold applyCharge adjust
  split
  · rfl
  · dsimp only
    split <;> rfl

/-- The passes of an access are charged to its block's context, and none are charged without a block (R128). -/
theorem spmPasses_accounts (n : Nat) (ops : List Opd) (w : Nat) {s : State} {c : Cur} (hc : s.cur = some c)
    (hb : (tget? s.blocks c.blk).isSome ∨ (readOps s c ops).flatMap (fun x => x.2.map fun y => (x.1, y.1, y.2.map VCell.word)) = []) :
    spmPasses n ops w s = withTables (spmPasses n ops w s) s ∧ outside s (spmPasses n ops w s) := by
  unfold spmPasses
  rw [hc]
  dsimp only
  unfold chargePasses acctOf
  cases hB : tget? s.blocks c.blk with
  | some B =>
    dsimp only
    split
    · exact ⟨rfl, outside_refl s⟩
    · exact ⟨applyCharge_accounts .., outside_charge ..⟩
  | none =>
    have he := hb.resolve_left (by simp [hB])
    have hz : (readOps s c ops).flatMap (fun x => x.2.map fun y => (64 * x.1 + y.1, (y.2.map VCell.word |>.getD w 0#32).toNat)) = [] := by
      simpa [List.flatMap_eq_nil_iff] using he
    dsimp only
    split
    · exact ⟨rfl, outside_refl s⟩
    · rw [hz]
      exact ⟨rfl, outside_refl s⟩

theorem chanPop_withTables (x s : State) (b : Nat) (ch : Chan) (n : Nat) : chanPop (withTables x s) b ch n = withTables x (chanPop s b ch n) := by
  have hring : chanRing (withTables x s) b ch = chanRing s b ch := rfl
  unfold chanPop
  rw [hring]
  split
  · rfl
  · split
    · rfl
    · split <;> rfl

theorem popOne_withTables (chans : Tab Chan) (b : Nat) (x s : State) (y : Nat × Nat) :
    popOne chans b (withTables x s) y = withTables x (popOne chans b s y) := by
  unfold popOne
  split
  · exact chanPop_withTables ..
  · rfl

theorem takeOne_withTables (c : Cur) (ops : List Opd) (x s : State) (a : Nat × Lanes) :
    takeOne c ops (withTables x s) a = withTables x (takeOne c ops s a) := by
  have hgrp : (withTables x s).grp? c.blk a.1 = s.grp? c.blk a.1 := rfl
  unfold takeOne
  rw [hgrp]
  split_ifs
  · rfl
  · split
    · rfl
    · rw [List.foldl_hom (withTables x) fun u y => popOne_withTables _ _ x u y]
      rfl
  · split
    · rfl
    · rw [List.foldl_hom (withTables x) fun u y => popOne_withTables _ _ x u y]
      rfl

/-- Taking the operands sees nothing of accounts and operations. -/
theorem consume_withTables (x s : State) (c : Cur) (ops : List Opd) : consume (withTables x s) c ops = withTables x (consume s c ops) := by
  rw [consume_eq, consume_eq]
  exact List.foldl_hom (withTables x) fun u a => takeOne_withTables c ops x u a

/-- Accounts that moved before the operands were taken make no difference to what is taken. -/
theorem besideStore_consume {s t : State} (ha : t = withTables t s) (h : outside s t) (c : Cur) (ops : List Opd) :
    besideStore (consume s c ops) (consume t c ops) := by
  have hs : consume s c ops = withTables s (consume s c ops) := consume_withTables s s c ops
  have ht : consume t c ops = withTables t (consume s c ops) := (congrArg (consume · c ops) ha).trans (consume_withTables t s c ops)
  obtain ⟨hrest, _, hctxs, hworlds, hlaunches⟩ := h
  have hops : t.ops = s.ops := (congrArg State.ops hrest :)
  have hid : t.nextId = s.nextId := (congrArg State.nextId hrest :)
  rw [hs, ht]
  refine ⟨⟨?_, fun _ => rfl, hctxs, hworlds, hlaunches⟩, fun _ => rfl⟩
  unfold withTables State.rest
  dsimp only
  rw [hops, hid]

/-! ### Counters (R52) -/

/-- Each lane's counters of each group. -/
def ctrsAt (s : State) (k l : Nat) : Option Ctr := (tget? s.groups k).map fun G => G.ctrs l

theorem ctrsAt_of_groupsKept {f : Group → Group} (hf : ∀ G l, (f G).ctrs l = G.ctrs l) {s t : State} (h : groupsKept f s t) (k l : Nat) :
    ctrsAt t k l = ctrsAt s k l := by
  have := congrArg (Option.map fun G => Group.ctrs G l) (h k)
  rw [Option.map_map, Option.map_map] at this
  simpa only [ctrsAt, Function.comp_def, hf] using this

theorem ctrsAt_modCtr (s : State) (b g lane k l : Nat) (f : Ctr → Ctr) :
    ctrsAt (s.modGroup b g fun G => G.modCtr lane f) k l =
      if k = gkey b g ∧ l = lane then (ctrsAt s k l).map f else ctrsAt s k l := by
  unfold ctrsAt State.modGroup
  rw [tget?_tmod]
  by_cases hk : k = gkey b g
  · subst hk
    rw [if_pos rfl, Option.map_map, Function.comp_def]
    simp only [Group.ctrs_modCtr, true_and]
    split
    · next hl => subst hl; rw [Option.map_map]; rfl
    · rfl
  · rw [if_neg hk, if_neg fun h => hk h.1]

theorem groups_chanPop (s : State) (b : Nat) (ch : Chan) (n : Nat) : (chanPop s b ch n).groups = s.groups := by
  unfold chanPop
  split_ifs
  · rfl
  · rfl
  · split <;> rfl

/-- Taking the operands changes no more of the groups than vector registers. -/
theorem groupsKept_consume (s : State) (c : Cur) (ops : List Opd) : groupsKept Group.noV s (consume s c ops) := by
  refine consume_keeps (groupsKept_refl _) groupsKept_trans c ops (fun u ch n => groupsKept_of_eq (groups_chanPop ..))
    (fun u k => groupsKept_of_eq rfl) (fun u g ls => groupsKept_modGroup _ _ _ _ _ fun G => ?_) s
  obtain ⟨_, _, _, _, h⟩ := Group.sameButV.freeOps G ops ls
  rw [h]
  rfl

/-! ### The elements of a store (R129, R212) -/

/-- The active elements in ascending order, each with its data and offset words. -/
def storeElems (s : State) (c : Cur) (ops : List Opd) : List (Nat × Nat × List Word) :=
  (readOps s c ops).flatMap fun x => x.2.map fun y => (x.1, y.1, y.2.map VCell.word)

/-- How an element is written, and what is kept beside its bytes: the store is unfenced, it may race a ring, and the lane's ST falls. -/
def storeOne (b n w : Nat) (f : Nat × Nat × List Word → Ram → Ram) (s : State) (e : Nat × Nat × List Word) : State :=
  let x := (e.2.2.getD w 0#32).toNat
  modSpm (lowerCtr (raceRings (spmUnfenced s b e.1 e.2.1 x n) b x n) b e.1 [e.2.1] .st) b (f e)

/-- ST rises for an element's lane. -/
def storeBegun (b : Nat) (s : State) (e : Nat × Nat × List Word) : State := raiseCtr s b e.1 [e.2.1] .st

/-- The tag that an element's data bears: that of the quad of its data operand (R101). -/
def storeTag (s : State) (c : Cur) (d : Opd) (e : Nat × Nat × List Word) : Bool :=
  match d with
  | .r r _ => ((s.grp? c.blk e.1).map fun G => G.vtag (r.n.toNat / 4) e.2.1).getD false
  | _ => false

/-- The bytes of an element, with the tag of a 16-byte store. -/
def storeBytes (s : State) (c : Cur) (n : Nat) (d : Opd) (w : Nat) (e : Nat × Nat × List Word) (m : Ram) : Ram :=
  let v := leWords (e.2.2.take w)
  if n = 16 then
    m.writeCap (e.2.2.getD w 0).toNat (natBytes 16 v) (sweepCheck s (pasidOf s c.blk) ⟨BitVec.ofNat 128 v, storeTag s c d e⟩).tag
  else m.write (e.2.2.getD w 0).toNat (natBytes n v)

theorem get_storeBytes (s : State) (c : Cur) (n : Nat) (d : Opd) (w : Nat) (e : Nat × Nat × List Word) (m : Ram) (x : Nat)
    (h : ∀ j < n, x ≠ (e.2.2.getD w 0).toNat + j) : (storeBytes s c n d w e m).get x = m.get x := by
  have hx : ¬((e.2.2.getD w 0).toNat ≤ x ∧ x < (e.2.2.getD w 0).toNat + n) := fun ⟨hlo, hhi⟩ =>
    h (x - (e.2.2.getD w 0).toNat) (by omega) (by omega)
  unfold storeBytes
  dsimp only
  split
  · next hn => subst hn; rw [Ram.get_writeCap, Ram.get_write, length_natBytes, if_neg hx]
  · rw [Ram.get_write, length_natBytes, if_neg hx]

theorem besideStore_storeOne {u t : State} (h : besideStore u t) (b n w : Nat) (f : Nat × Nat × List Word → Ram → Ram)
    (e : Nat × Nat × List Word) : besideStore (modSpm u b (f e)) (storeOne b n w f t e) :=
  besideStore.modSpm (((h.trans (.spmUnfenced ..)).trans (.raceRings ..)).trans (.lowerCtr ..)) b (f e)

theorem besideStore_stored {u t : State} (h : besideStore u t) (b n w : Nat) (f : Nat × Nat × List Word → Ram → Ram)
    (els : List (Nat × Nat × List Word)) : besideStore (els.foldl (fun u e => modSpm u b (f e)) u) (els.foldl (storeOne b n w f) t) := by
  induction els generalizing u t with
  | nil => exact h
  | cons e r ih => exact ih (besideStore_storeOne h b n w f e)

theorem byteAt_stored (b n w : Nat) (f : Nat × Nat × List Word → Ram → Ram)
    (hf : ∀ e m x, (∀ j < n, x ≠ (e.2.2.getD w 0#32).toNat + j) → (f e m).get x = m.get x) (p : Place) (els : List (Nat × Nat × List Word))
    (u : State) (hp : ∀ e ∈ els, ∀ j < n, p ≠ .spm b ((e.2.2.getD w 0#32).toNat + j)) :
    (els.foldl (fun u e => modSpm u b (f e)) u).byteAt p = u.byteAt p := by
  induction els generalizing u with
  | nil => rfl
  | cons e r ih =>
    obtain ⟨he, hr⟩ := List.forall_mem_cons.mp hp
    refine (ih _ hr).trans (byteAt_modSpm u b (f e) p fun x hx m => hf e m x fun j hj hxj => ?_)
    exact he j hj (hx.trans (congrArg _ hxj))

/-! ST rises by the number of a lane's elements, and falls by it again. -/

/-- An element of lane l of the group with a key. -/
def ofLane (b k l : Nat) (e : Nat × Nat × List Word) : Bool := decide (k = gkey b e.1 ∧ l = e.2.1)

theorem ctrsAt_begun (b k l : Nat) (els : List (Nat × Nat × List Word)) (s : State) :
    ctrsAt (els.foldl (storeBegun b) s) k l = (ctrsAt s k l).map fun x => x.add .st (els.countP (ofLane b k l)) := by
  induction els generalizing s with
  | nil => simp [Ctr.add]
  | cons e r ih =>
    have he : ctrsAt (storeBegun b s e) k l = if k = gkey b e.1 ∧ l = e.2.1 then (ctrsAt s k l).map fun x => x.add .st 1 else ctrsAt s k l :=
      ctrsAt_modCtr s b e.1 e.2.1 k l fun x => x.add .st 1
    rw [List.foldl_cons, ih, he, List.countP_cons]
    unfold ofLane
    split
    · next h => rw [Option.map_map]; simp [h, Ctr.add, Function.comp_def, Nat.add_assoc, Nat.add_comm 1]
    · next h => simp [h]

theorem ctrsAt_storeOne (b n w : Nat) (f : Nat × Nat × List Word → Ram → Ram) (s : State) (e : Nat × Nat × List Word) (k l : Nat) :
    ctrsAt (storeOne b n w f s e) k l = if k = gkey b e.1 ∧ l = e.2.1 then (ctrsAt s k l).map fun x => x.sub .st 1 else ctrsAt s k l := by
  let u := raceRings (spmUnfenced s b e.1 e.2.1 (e.2.2.getD w 0#32).toNat n) b (e.2.2.getD w 0#32).toNat n
  have hg : u.groups = s.groups := (logSide.raceRings ..).groups
  refine (ctrsAt_modCtr u b e.1 e.2.1 k l fun x => x.sub .st 1 : ctrsAt (storeOne b n w f s e) k l = _).trans ?_
  unfold ctrsAt
  rw [hg]

theorem ctrsAt_stored (b n w : Nat) (f : Nat × Nat × List Word → Ram → Ram) (k l : Nat) (els : List (Nat × Nat × List Word)) (s : State) :
    ctrsAt (els.foldl (storeOne b n w f) s) k l = (ctrsAt s k l).map fun x => x.sub .st (els.countP (ofLane b k l)) := by
  induction els generalizing s with
  | nil => simp [Ctr.sub]
  | cons e r ih =>
    rw [List.foldl_cons, ih, ctrsAt_storeOne, List.countP_cons]
    unfold ofLane
    split
    · next h => rw [Option.map_map]; simp [h, Ctr.sub, Function.comp_def, Nat.sub_sub, Nat.add_comm]
    · next h => simp [h]

/-! ### The stores -/

/-- The state that a store's elements leave, before its word is charged and retired. -/
def storesMade (n : Nat) (d : Opd) (w : Nat) (b : VSrc) (s : State) (c : Cur) : State :=
  let ops := [d, .v b]
  (storeElems s c ops).foldl (storeOne c.blk n w (storeBytes s c n d w))
    ((storeElems s c ops).foldl (storeBegun c.blk) (consume (spmPasses n ops w s) c ops))

theorem stsOp_eq {n w : Nat} {d : Opd} {b : VSrc} {s : State} {c : Cur} (hc : s.cur = some c) (he : c.empty = false)
    (ha : acquiresPending s c.blk c.elems = false) (hr : ready? s c [d, .v b] .none false = none)
    (hok : ∀ e ∈ storeElems s c [d, .v b], (e.2.2.getD w 0).toNat % n = 0 ∧
      (e.2.2.getD w 0).toNat + n ≤ ((tget? s.blocks c.blk).map (·.spmLen)).getD 0) :
    stsOp n d w b s = done 0x24 .lane (storesMade n d w b s c) := by
  have hpass : ∀ e ∈ storeElems s c [d, .v b], spmCheck s c.blk (e.2.2.getD w 0#32).toNat n n = .ok () := fun e hm => by
    obtain ⟨halign, hin⟩ := hok e hm
    exact (if_neg (not_not_intro halign)).trans (if_neg (Nat.not_lt.mpr hin))
  unfold stsOp
  simp only [hc, he, ha, hr, Bool.false_eq_true, if_false]
  rw [if_neg]
  · refine congrArg (done 0x24 .lane) (List.foldl_ext _ _ _ fun u e _ => ?_)
    unfold storeOne storeBytes
    dsimp only
    split
    · unfold storeTag
      cases d with
      | v => rfl
      | r r k => cases s.grp? c.blk e.1 <;> rfl
    · rfl
  · rw [Bool.not_eq_true', Bool.not_eq_false, List.isEmpty_iff, List.filterMap_eq_nil_iff]
    intro e hm
    rw [hpass e hm]

theorem besideStore_storesMade {n w : Nat} {d : Opd} {b : VSrc} {s : State} {c : Cur} (hc : s.cur = some c)
    (hb : (tget? s.blocks c.blk).isSome ∨ storeElems s c [d, .v b] = []) :
    besideStore ((storeElems s c [d, .v b]).foldl (fun u e => modSpm u c.blk (storeBytes s c n d w e)) (consume s c [d, .v b]))
      (storesMade n d w b s c) := by
  obtain ⟨hacc, hout⟩ := spmPasses_accounts n [d, .v b] w hc hb
  refine besideStore_stored ((besideStore_consume hacc hout c _).trans ?_) ..
  exact besideStore.foldl (fun _ _ => .raiseCtr ..) _ _

/-- Every counter is as before (R52). -/
theorem ctrsAt_storesMade {n w : Nat} {d : Opd} {b : VSrc} {s : State} {c : Cur} (hc : s.cur = some c)
    (hb : (tget? s.blocks c.blk).isSome ∨ storeElems s c [d, .v b] = []) (k l : Nat) :
    ctrsAt (storesMade n d w b s c) k l = ctrsAt s k l := by
  obtain ⟨hacc, _⟩ := spmPasses_accounts n [d, .v b] w hc hb
  have hgroups : (spmPasses n [d, .v b] w s).groups = s.groups := (congrArg State.groups hacc :)
  unfold storesMade
  rw [ctrsAt_stored, ctrsAt_begun, ctrsAt_of_groupsKept (f := Group.noV) (fun _ _ => rfl) (groupsKept_consume _ c _), Option.map_map]
  unfold ctrsAt
  rw [hgroups]
  refine (congrArg (Option.map · _) (funext fun x => ?_)).trans Option.map_id'
  simp [Ctr.add, Ctr.sub]

/-- The stores of `stsForm` are the shared store, each with its width and its data operand. -/
theorem exec_stsForm {i : Instr} {n w : Nat} {d : Opd} {b : VSrc} (h : stsForm i = some (n, d, w, b)) (s : State) : exec i s = stsOp n d w b s := by
  unfold stsForm at h
  split at h
  case h_4 => cases h
  all_goals cases h; rfl

/-- Settles O24: beside the bytes of its elements, written in their order, a store leaves what `besideStore` leaves out, and ST as it was. -/
theorem scratchpadStores : Obligations.ScratchpadStores := by
  intro i n d w b s c hi hc he ha hr els hok tag u0
  have hels : els = storeElems s c [d, .v b] := rfl
  have hn : 0 < n := by
    unfold stsForm at hi
    split at hi
    case h_4 => cases hi
    all_goals cases hi; decide
  have hb : (tget? s.blocks c.blk).isSome ∨ storeElems s c [d, .v b] = [] := by
    by_cases he : els = []
    · exact .inr he
    · obtain ⟨e, hm⟩ := List.exists_mem_of_ne_nil _ he
      obtain ⟨_, hin⟩ := hok e hm
      cases hB : tget? s.blocks c.blk with
      | some B => exact .inl rfl
      | none => rw [hB] at hin; exact absurd hin (by simp; omega)
  obtain ⟨t, ht, heff⟩ := done_effect 0x24 .lane (storesMade n d w b s c)
  have hbeside := (besideStore_storesMade (n := n) (w := w) hc hb).trans (.of_effectIs heff)
  refine ⟨t, by rw [exec_stsForm hi, stsOp_eq hc he ha hr hok, ht], ⟨heff.1, hbeside.out, hbeside.groups⟩, fun k l => ?_, fun p hp => ?_⟩
  · obtain ⟨_, _, hgroups⟩ := heff
    exact (ctrsAt_of_groupsKept (f := Group.noPos) (fun _ _ => rfl) hgroups k l).trans (ctrsAt_storesMade hc hb k l)
  · refine (hbeside.bytes p).trans (byteAt_stored c.blk n w _ (fun e m x => get_storeBytes s c n d w e m x) p _ _ hp)

end Sys2Proof.Machine
end

section
/-!
PROOFS. Every instruction that issues an operation, as an issue of its form at lane scope and where translation is not waited for: the weight
store, the scratchpad, windows and `oload` from the scratchpad among them (R205 to R214, R226 to R230, R252).
-/

namespace Sys2Proof

open Machine

/-- Every request of a form is as yet untranslated, and a read of the weight store touches no poisoned line. -/
structure IssueForm.fresh (F : IssueForm) (s : State) (c : Cur) : Prop where
  ph : ∀ G l xs q, F.req G l xs = some q → q.ph ≠ .xlated
  whole : ∀ n, F.kind = .wld n → ∀ G l xs q, F.req G l xs = some q →
    wsBadLine s (dieOf (homeOf s c.blk)) ((wsWindow s c.blk).1 + q.x) q.n = none

/-- An instruction issues as a form says, but that reads of poisoned lines of the weight store are looked for at its end (R322). -/
def IssueForm.issuesAs (F : IssueForm) (s : State) (o : Out) : Prop :=
  ∃ cls per build, F.builtBy build ∧ ∀ t, issueOp (F.issue cls per) build s = .next t → o = .next t ∨ o = .next (wsCheck t s.nextId)

end Sys2Proof

namespace Sys2Proof.Machine

section
variable {s : State} {c : Cur}

theorem issuesAs_of_runsAs {F : IssueForm} {o : Out} (h : F.runsAs s o) : F.issuesAs s o := by
  obtain ⟨cls, per, build, ho, hb⟩ := h
  exact ⟨cls, per, build, hb, fun t ht => .inl (ho.trans ht)⟩

/-! ### Requests of the forms -/

theorem fresh_of_ph {F : IssueForm} (hk : ∀ n, F.kind ≠ .wld n) (h : ∀ G l xs q, F.req G l xs = some q → q.ph ≠ .xlated) : F.fresh s c :=
  ⟨h, fun n hn => absurd hn (hk n)⟩

theorem objReq_ph {l : Nat} {k : Cap} {d : Int} {n need : Nat} {q : LReq} (h : objReq l k d n need = some q) : q.ph = .sent := by
  obtain ⟨x, _, rfl⟩ := Option.map_eq_some_iff.mp h
  rfl

theorem ldForm_fresh (n : Nat) (sgn : Bool) (a : BitVec 6) (k : Nat) (b : RSrc) (d : VSrc) : (ldForm n sgn a k b d).fresh s c :=
  fresh_of_ph (by rintro m ⟨⟩) fun G l xs q h => by rw [objReq_ph h]; decide

theorem stForm_fresh (n : Nat) (a : Opd) (w : Nat) (b : RSrc) (d : VSrc) : (stForm n a w b d).fresh s c :=
  fresh_of_ph (by rintro m ⟨⟩) fun G l xs q h => by
    obtain ⟨p, hp, rfl⟩ := Option.map_eq_some_iff.mp h
    rw [objReq_ph hp]; decide

theorem atForm_fresh (op : Nat) (ty : Ty) (o : AOrd) (a : BitVec 6) (b : RSrc) (d x : VSrc) : (atForm op ty o a b d x).fresh s c :=
  fresh_of_ph (by rintro m ⟨⟩) fun G l xs q h => by
    obtain ⟨p, hp, rfl⟩ := Option.map_eq_some_iff.mp h
    rw [objReq_ph (Option.filter_eq_some_iff.mp hp).1]; decide

theorem wldForm_fresh (n : Nat) (a : BitVec 6) (k : Nat) (b d : VSrc) : (wldForm s c n a k b d).fresh s c := by
  refine ⟨fun G l xs q h => ?_, fun m _ G l xs q h => ?_⟩ <;> dsimp only [wldForm] at h <;> split at h
  · obtain rfl := Option.some.inj h
    dsimp only
    split <;> decide
  · cases h
  · next hk =>
    obtain ⟨_, _, hwhole⟩ := hk
    obtain rfl := Option.some.inj h
    exact hwhole
  · cases h

theorem ldsForm_fresh (n : Nat) (a : BitVec 6) (k : Nat) (b : VSrc) : (ldsForm s c n a k b).fresh s c :=
  fresh_of_ph (by rintro m ⟨⟩) fun G l xs q h => by
    dsimp only [ldsForm] at h
    split at h
    · obtain rfl := Option.some.inj h; rintro ⟨⟩
    · cases h

theorem winForm_fresh (kind : OpKind) (hk : ∀ n, kind ≠ .wld n) (a b d : VSrc) : (winForm s c kind a b d).fresh s c :=
  fresh_of_ph hk fun G l xs q h => by
    dsimp only [winForm] at h
    split at h
    · split at h
      · obtain rfl := Option.some.inj h; rintro ⟨⟩
      · cases h
    · cases h

theorem cpyReq_ph {a b : RSrc} {G : Group} {l : Nat} {xs : List Word} {q : LReq} (h : cpyReq s c a b G l xs = some q) : q.ph = .sent := by
  dsimp only [cpyReq] at h
  split at h
  · split at h
    · obtain rfl := Option.some.inj h; rfl
    · cases h
  · cases h

theorem cpysReq_ph {into : Bool} {b : RSrc} {G : Group} {l : Nat} {xs : List Word} {q : LReq} (h : cpysReq s c into b G l xs = some q) :
    q.ph = .sent := by
  dsimp only [cpysReq] at h
  split at h
  · obtain ⟨y, _, rfl⟩ := Option.map_eq_some_iff.mp h
    cases into <;> rfl
  · cases h

theorem mcastReq_ph {b : RSrc} {G : Group} {l : Nat} {xs : List Word} {q : LReq} (h : mcastReq s c b G l xs = some q) : q.ph = .sent := by
  dsimp only [mcastReq] at h
  split at h
  · obtain ⟨y, _, rfl⟩ := Option.map_eq_some_iff.mp h
    rfl
  · cases h

theorem oloadForm_fresh (o : BitVec 5) (b d : RSrc) (src : Bool) : (oloadForm s c o b d src).fresh s c :=
  fresh_of_ph (by rintro m ⟨⟩) fun G l xs q h => by
    dsimp only [oloadForm] at h
    split at h
    · split at h
      · obtain rfl := Option.some.inj h
        split <;> rintro ⟨⟩
      · cases h
    · cases h

/-- The requests of every instruction that issues an operation. -/
theorem issueForm_fresh {i : Instr} {F : IssueForm} (hi : issueForm s c i = some F) : F.fresh s c := by
  unfold issueForm at hi
  split at hi
  case h_36 => cases hi
  all_goals cases hi
  case h_1 | h_2 | h_3 | h_4 | h_5 | h_6 | h_7 => exact ldForm_fresh ..
  case h_8 => exact fresh_of_ph (by rintro m ⟨⟩) fun G l xs q h => by rw [objReq_ph (Option.filter_eq_some_iff.mp h).1]; decide
  case h_9 | h_10 | h_11 | h_12 | h_13 => exact stForm_fresh ..
  case h_14 =>
    refine fresh_of_ph (by rintro m ⟨⟩) fun G l xs q h => ?_
    obtain ⟨p, hp, rfl⟩ := Option.map_eq_some_iff.mp h
    rw [objReq_ph (Option.filter_eq_some_iff.mp hp).1]; decide
  case h_15 | h_16 => exact wldForm_fresh ..
  case h_17 | h_18 | h_19 => exact ldsForm_fresh ..
  case h_20 | h_21 => exact winForm_fresh _ (by rintro m ⟨⟩) ..
  case h_22 | h_23 | h_24 | h_25 | h_26 | h_27 | h_28 | h_29 => exact atForm_fresh ..
  case h_30 => exact fresh_of_ph (by rintro m ⟨⟩) fun G l xs q h => by rw [objReq_ph h]; decide
  case h_31 => exact fresh_of_ph (by rintro m ⟨⟩) fun G l xs q h => by rw [cpyReq_ph h]; decide
  case h_32 | h_33 => exact fresh_of_ph (by rintro m ⟨⟩) fun G l xs q h => by rw [cpysReq_ph h]; decide
  case h_34 => exact fresh_of_ph (by rintro m ⟨⟩) fun G l xs q h => by rw [mcastReq_ph h]; decide
  case h_35 => exact oloadForm_fresh ..

/-! ### The forms that no scope holds -/

theorem bits_toNat (w : Word) (lo : Nat) (h : lo ≤ 31) : bits w.toNat 31 lo = w.toNat / 2 ^ lo := by
  have hw : w.toNat < 2 ^ lo * 2 ^ (31 + 1 - lo) := by rw [← Nat.pow_add, show lo + (31 + 1 - lo) = 32 by omega]; exact w.isLt
  exact Nat.mod_eq_of_lt (Nat.div_lt_of_lt_mul hw)

theorem ldsForm_runs (n : Nat) (a : BitVec 6) (k : Nat) (b : VSrc) (hc : s.cur = some c) (hp : acquiresPending s c.blk c.elems = false) :
    (ldsForm s c n a k b).runsAs s (ldsOp n a k b s) := by
  unfold ldsOp
  simp only [hc, hp, Bool.false_eq_true, if_false]
  refine ⟨0x24, .lane, _, rfl, fun G l xs q h => ?_⟩
  dsimp only [ldsForm] at h
  split at h
  · next hk =>
    obtain rfl := Option.some.inj h
    exact bind_ok (spmCheck_ok hk.1 hk.2)
  · cases h

theorem winForm_runs (kind : OpKind) (a b d : VSrc) (hc : s.cur = some c) (hp : acquiresPending s c.blk c.elems = false) :
    (winForm s c kind a b d).runsAs s (windowOp kind a b d s) := by
  unfold windowOp
  simp only [hc, hp, Bool.false_eq_true, if_false]
  refine ⟨0x25, .lane, _, rfl, fun G l xs q h => ?_⟩
  dsimp only [winForm] at h
  split at h
  · next t ht =>
    split at h
    · next hk =>
      obtain ⟨hoff, hloc, hl4, ho4, hn4, hmin, hmax⟩ := hk
      obtain rfl := Option.some.inj h
      have hbits : bits (xs.getD 0 0#32).toNat 19 0 = (xs.getD 0 0#32).toNat % 2 ^ 20 := by
        unfold bits
        rw [Nat.pow_zero, Nat.div_one]
      have hcheck : windowCheck s c.blk (xs.getD 0 0#32).toNat (xs.getD 1 0#32).toNat (xs.getD 2 0#32).toNat = .ok t := by
        have hplace : windowTarget s c.blk (bits (xs.getD 0 0#32).toNat 31 24) (bits (xs.getD 0 0#32).toNat 23 20) = .ok t := by
          rw [bits_toNat _ 24 (by decide)]
          exact ht
        unfold windowCheck
        rw [hplace, hbits]
        exact if_neg (not_or.mpr ⟨Nat.not_lt.mpr hoff, Nat.not_lt.mpr hloc⟩)
      rw [hbits]
      refine (bind_ok hcheck).trans ((if_neg ?_).trans (if_neg ?_))
      · exact not_or.mpr ⟨not_not_intro hl4, not_or.mpr ⟨not_not_intro ho4, not_not_intro hn4⟩⟩
      · exact not_or.mpr ⟨Nat.not_lt.mpr hmin, Nat.not_lt.mpr hmax⟩
    · cases h
  · cases h

theorem oloadSrc_runs (e : Scope) (o : BitVec 5) (b d : RSrc) (hc : s.cur = some c) :
    (oloadForm s c o b d true).runsAs s (execOload e o b d true s) := by
  unfold execOload
  rw [hc]
  refine ⟨0x2D, .issue, _, rfl, fun G l xs q h => ?_⟩
  dsimp only [oloadForm] at h
  simp only [if_true] at h
  split at h
  · next k y hstart =>
    split at h
    · next hk =>
      obtain ⟨hs64, hs128, hsmax, hslot⟩ := hk
      split at hstart
      · next hx =>
        obtain ⟨hx64, hlen⟩ := hx
        obtain ⟨rfl, rfl⟩ := Prod.mk.inj (Option.some.inj hstart)
        have hsrc (r : RSrc) : c.src s r = s.sAt (gkey c.blk c.lead) r.n.toNat := rfl
        have hd : ¬ ((c.src s d).toNat % 2 ^ 32 % 64 ≠ 0 ∨ (c.src s d).toNat % 2 ^ 32 < 128 ∨ 2 ^ 26 < (c.src s d).toNat % 2 ^ 32) := by
          rw [hsrc]; omega
        have hsl : ¬ (tget? (((tget? s.blocks c.blk).map (·.slots)).getD []) o.toNat).isNone = true := by
          cases hB : tget? s.blocks c.blk with
          | none => rw [hB] at hslot; cases hslot
          | some B => simpa [hB, Option.isSome_iff_ne_none] using hslot
        have hcheck : spmCheck s c.blk ((c.src s b).toNat % 2 ^ 32) (63 * ((c.src s d).toNat % 2 ^ 32) + 128) 1 = .ok () :=
          spmCheck_ok (Nat.mod_one _) hlen
        have hx : (c.src s b).toNat % 2 ^ 32 % 64 = 0 := hx64
        simp only [if_true, hx, ne_eq, not_true_eq_false, if_false, hcheck, Except.bind, if_neg hd, if_neg hsl]
        rw [← Option.some.inj h]
        by_cases hl : c.elems.head?.map (·.2) = some l
        · rw [if_pos hl, if_pos hl.symm, if_pos hl.symm]; rfl
        · rw [if_neg hl, if_neg (Ne.symm hl), if_neg (Ne.symm hl)]; rfl
      · cases hstart
    · cases h
  · cases h

/-- What a read of the weight store builds for a lane (R211). -/
def wldBuilt (s : State) (c : Cur) (n : Nat) (_ : Group) (l : Nat) (xs : List Word) : Except (Nat × Nat) LReq :=
  let y := (xs.getD 0 0#32).toNat + (xs.getD 1 0#32).toNat
  let win := wsWindow s c.blk
  let die := dieOf (homeOf s c.blk)
  if y % n ≠ 0 then .error (Code.spmAlign, 0)
  else if win.2 < y + n then .error (Code.wsBounds, 0)
  else
    .ok { req0 l with x := y, n, ph := if (s.die die).refresh == some (wsBank (win.1 + y)) then .sent else .done
                      val := leNat (wsRead s die (worldOf s c.blk) (win.1 + y) n) }

theorem wldForm_builtBy (n : Nat) (a : BitVec 6) (k : Nat) (b d : VSrc) : (wldForm s c n a k b d).builtBy (wldBuilt s c n) := by
  intro G l xs q h
  dsimp only [wldForm] at h
  split at h
  · next hk =>
    obtain ⟨halign, hin, _⟩ := hk
    obtain rfl := Option.some.inj h
    refine ((if_neg (not_not_intro halign)).trans (if_neg (Nat.not_lt.mpr hin))).trans ?_
    simp only [beq_iff_eq]
    rfl
  · cases h

theorem wldForm_issues (n : Nat) (a : BitVec 6) (k : Nat) (b d : VSrc) (hc : s.cur = some c) :
    (wldForm s c n a k b d).issuesAs s (wldOp n a k b d s) := by
  refine ⟨0x23, .lane, wldBuilt s c n, wldForm_builtBy n a k b d, fun t ht => .inr ?_⟩
  unfold wldOp
  rw [hc]
  exact congrArg (fun o : Out => match o with
    | .next t => Host.Outcome.next (wsCheck t s.nextId)
    | o => o) ht

/-- Every instruction of a form issues as the form says. -/
theorem issueForm_issues {i : Instr} {F : IssueForm} (hi : issueForm s c i = some F) (hc : s.cur = some c) (hn : noneFaulted F s c)
    (ho : inOrder F s c) : F.issuesAs s (exec i s) := by
  by_cases hh : F.hold = true
  · exact issuesAs_of_runsAs (issueForm_runs hi hh hc (.inl hn))
  unfold issueForm at hi
  split at hi
  case h_36 => cases hi
  all_goals cases hi
  case h_15 | h_16 => exact wldForm_issues _ _ _ _ _ hc
  case h_17 | h_18 | h_19 => exact issuesAs_of_runsAs (ldsForm_runs _ _ _ _ hc (ho (.inr (.inr ⟨_, rfl⟩))))
  case h_20 => exact issuesAs_of_runsAs (winForm_runs _ _ _ _ hc (ho (.inl rfl)))
  case h_21 => exact issuesAs_of_runsAs (winForm_runs _ _ _ _ hc (ho (.inr (.inl rfl))))
  case h_35 e o b d src =>
    cases src with
    | true => exact issuesAs_of_runsAs (oloadSrc_runs e o b d hc)
    | false => exact absurd rfl hh
  all_goals exact absurd rfl hh

end

end Sys2Proof.Machine
end

section
/-!
PROOFS. Operations that issue at once: the operations are made, the sources taken, and each group's lanes are marked, one operation after another
(R52, R101, R191, R193, R205).
-/

namespace Sys2Proof.Machine

/-! ### New identifiers are above those made before them -/

/-- An entry of a table with smaller keys alone before it. -/
def placedAs {α : Type} (T : Tab α) (k : Nat) (v : α) : Prop := ∃ A B, T = A ++ (k, v) :: B ∧ ∀ x ∈ A, x.1 < k

section
variable {α : Type} {T : Tab α} {k : Nat} {v : α}

theorem placedAs_tset_self (T : Tab α) (k : Nat) (v : α) : placedAs (tset T k v) k v := by
  induction T with
  | nil => exact ⟨[], [], rfl, nofun⟩
  | cons x r ih =>
    obtain ⟨a, y⟩ := x
    unfold tset
    split
    · exact ⟨[], _, rfl, nofun⟩
    · split
      · exact ⟨[], _, rfl, nofun⟩
      · next hlt hne =>
        obtain ⟨A, B, hr, hA⟩ := ih
        refine ⟨(a, y) :: A, B, by rw [hr]; rfl, fun x hx => ?_⟩
        rcases List.mem_cons.mp hx with rfl | hx
        · show a < k
          omega
        · exact hA x hx

theorem tset_append {A : Tab α} (hA : ∀ x ∈ A, x.1 < k) (T : Tab α) (v : α) : tset (A ++ T) k v = A ++ tset T k v := by
  induction A with
  | nil => rfl
  | cons x r ih =>
    obtain ⟨hx, hr⟩ := List.forall_mem_cons.mp hA
    obtain ⟨a, y⟩ := x
    have ha : a < k := hx
    show (if k < a then _ else if k = a then _ else (a, y) :: tset (r ++ T) k v) = (a, y) :: (r ++ tset T k v)
    rw [if_neg (by omega), if_neg (by omega), ih hr]

/-- A new entry with a larger key comes after the old ones. -/
theorem placedAs_tset (h : placedAs T k v) {j : Nat} (hj : k < j) (w : α) : placedAs (tset T j w) k v := by
  obtain ⟨A, B, rfl, hA⟩ := h
  have hA' : ∀ x ∈ A ++ [(k, v)], x.1 < j := by
    intro x hx
    rcases List.mem_append.mp hx with hx | hx
    · exact (hA x hx).trans hj
    · rw [List.mem_singleton.mp hx]; exact hj
  refine ⟨A, tset B j w, ?_, hA⟩
  have := tset_append hA' B w
  simpa only [List.append_assoc, List.singleton_append] using this

theorem tget?_of_placedAs (h : placedAs T k v) : tget? T k = some v := by
  obtain ⟨A, B, rfl, hA⟩ := h
  induction A with
  | nil => exact if_pos rfl
  | cons x r ih =>
    obtain ⟨hx, hr⟩ := List.forall_mem_cons.mp hA
    exact (if_neg (Nat.ne_of_lt hx)).trans (ih hr)

/-- Setting such an entry to what it is changes nothing. -/
theorem tset_of_placedAs (h : placedAs T k v) : tset T k v = T := by
  obtain ⟨A, B, rfl, hA⟩ := h
  rw [tset_append hA]
  unfold tset
  rw [if_neg (Nat.lt_irrefl k), if_pos rfl]

theorem placedAs_foldl (h : placedAs T k v) {M : List (Nat × α)} (hM : ∀ x ∈ M, k < x.1) :
    placedAs (M.foldl (fun T x => tset T x.1 x.2) T) k v := by
  induction M generalizing T with
  | nil => exact h
  | cons x r ih =>
    obtain ⟨hx, hr⟩ := List.forall_mem_cons.mp hM
    exact ih (placedAs_tset h hx x.2) hr

theorem placedAs_foldl_tset {M : List (Nat × α)} (hM : M.Pairwise fun x y => x.1 < y.1) (T : Tab α) :
    ∀ x ∈ M, placedAs (M.foldl (fun T x => tset T x.1 x.2) T) x.1 x.2 := by
  induction M generalizing T with
  | nil => exact nofun
  | cons y r ih =>
    obtain ⟨hy, hr⟩ := List.pairwise_cons.mp hM
    intro x hx
    rcases List.mem_cons.mp hx with rfl | hx
    · exact placedAs_foldl (placedAs_tset_self T x.1 x.2) hy
    · exact ih hr _ x hx

end

/-- What probing records is no part of an entry's place. -/
theorem placedAs_of_sameOps {U T : Tab Op} {k : Nat} {o : Op} (h : sameOps U T) (hT : placedAs T k o) : ∃ p, placedAs U k p ∧ p.bare = o.bare := by
  obtain ⟨A, B, rfl, hA⟩ := hT
  unfold sameOps at h
  rw [List.map_append, List.map_cons] at h
  obtain ⟨A', R, rfl, hA', hR⟩ := List.map_eq_append_iff.mp h
  obtain ⟨x, B', rfl, hx, -⟩ := List.map_eq_cons_iff.mp hR
  obtain ⟨hk, hb⟩ := Prod.mk.inj hx
  obtain rfl : x.1 = k := hk
  refine ⟨x.2, ⟨A', B', rfl, fun y hy => ?_⟩, hb⟩
  have hm : (y.1, y.2.bare) ∈ A.map fun x => (x.1, x.2.bare) := hA' ▸ List.mem_map_of_mem hy
  obtain ⟨z, hz, he⟩ := List.mem_map.mp hm
  rw [← (Prod.mk.inj he).1]
  exact hA z hz

/-! ### Marking lanes -/

/-- Marking the lanes of an operation changes groups alone, and sees nothing else. -/
theorem marked_groups {u w : State} (o : Op) (h : u.groups = w.groups) : marked u o = { u with groups := (marked w o).groups } := by
  unfold marked State.modGroup
  dsimp only
  rw [h]

theorem foldl_marked_groups (M : List (Nat × Op)) {u w : State} (h : u.groups = w.groups) :
    M.foldl (fun u x => marked u x.2) u = { u with groups := (M.foldl (fun u x => marked u x.2) w).groups } := by
  induction M generalizing u w with
  | nil => show u = { u with groups := w.groups }; rw [← h]
  | cons x r ih =>
    rw [List.foldl_cons, List.foldl_cons, ih (u := marked u x.2) (w := marked w x.2) (by rw [marked_groups x.2 h]), marked_groups x.2 h]

/-- Marking sees nothing of what probing records. -/
theorem marked_of_bare (u : State) {o p : Op} (h : p.bare = o.bare) : marked u p = marked u o := by
  have hl : p.lanes.map (·.lane) = o.lanes.map (·.lane) := by
    have := congrArg (fun o : Op => o.lanes.map (·.lane)) h
    simpa only [Op.bare, List.map_map, Function.comp_def, LReq.bare] using this
  have hkind : p.kind = o.kind := (congrArg Op.kind h :)
  have hblk : p.blk = o.blk := (congrArg Op.blk h :)
  have hgidx : p.gidx = o.gidx := (congrArg Op.gidx h :)
  have hdst : p.dst = o.dst := (congrArg Op.dst h :)
  have hsyms : p.syms = o.syms := (congrArg Op.syms h :)
  unfold marked
  rw [hl, hkind, hblk, hgidx, hdst, hsyms]

/-- An operation that begins at its issue: under no scope, with no request translated beforehand. -/
def Op.untouched (o : Op) : Prop := o.wide = none ∧ ∀ q ∈ o.lanes, q.ph ≠ .xlated

theorem begun_of_untouched {o : Op} (h : o.untouched) : o.begun = o := by
  obtain ⟨hw, hl⟩ := h
  have hmap : (o.lanes.map fun q => if q.ph = .xlated then { q with ph := .sent, parts := [] } else q) = o.lanes :=
    (List.map_congr_left fun q hq => if_neg (hl q hq)).trans (List.map_id' o.lanes)
  unfold Op.begun
  rw [hmap, ite_self, ← hw]

theorem untouched_of_bare {o p : Op} (h : p.bare = o.bare) (ho : o.untouched) : p.untouched := by
  obtain ⟨hw, hl⟩ := ho
  refine ⟨(congrArg Op.wide h : p.bare.wide = o.bare.wide).trans hw, fun q hq => ?_⟩
  have hm : q.bare ∈ p.bare.lanes := List.mem_map_of_mem hq
  rw [h] at hm
  obtain ⟨r, hr, he⟩ := List.mem_map.mp hm
  rw [show q.ph = r.ph from (congrArg LReq.ph he).symm]
  exact hl r hr

/-- The operations of an issue take effect at once: their lanes are marked, and the table of operations stays. -/
theorem commit_made {M : List (Nat × Op)} {T : Tab Op} {w : State} (hs : w.sandbox = none) (hU : sameOps w.ops T)
    (hM : ∀ x ∈ M, placedAs T x.1 x.2 ∧ x.2.untouched) : (M.map (·.1)).foldl commitOne w = M.foldl (fun u x => marked u x.2) w := by
  induction M generalizing w with
  | nil => rfl
  | cons x r ih =>
    obtain ⟨⟨hx, hu⟩, hr⟩ := List.forall_mem_cons.mp hM
    obtain ⟨p, hp, hb⟩ := placedAs_of_sameOps hU hx
    have hone : commitOne w x.1 = marked w x.2 := by
      rw [commitOne_eq hs (tget?_of_placedAs hp), begun_of_untouched (untouched_of_bare hb hu), tset_of_placedAs hp]
      exact marked_of_bare w hb
    rw [List.map_cons, List.foldl_cons, List.foldl_cons, hone]
    exact ih hs hU hr

end Sys2Proof.Machine
end

section
/-!
PROOFS. The issue of loads, stores, atomics, window transfers, copies, fills and `spanq`: what it leaves of its block, its core and its dies,
and the state it makes (R52, R105, R191, R193, R205 to R215, R226 to R230, R252).
-/

namespace Sys2Proof.Machine

/-! ### Taken sources leave blocks, weight windows and dies -/

/-- Blocks keep their homes, cores their windows of the weight store, and dies are as before. -/
structure windowsKept (s t : State) : Prop where
  home : ∀ b, (tget? t.blocks b).map (·.home) = (tget? s.blocks b).map (·.home)
  pmlim : ∀ k, (t.core k).pmlim = (s.core k).pmlim
  dies : t.dies = s.dies

namespace windowsKept

theorem refl (s : State) : windowsKept s s := ⟨fun _ => rfl, fun _ => rfl, rfl⟩

theorem trans {s t u : State} (h : windowsKept s t) (h' : windowsKept t u) : windowsKept s u :=
  ⟨fun b => (h'.home b).trans (h.home b), fun k => (h'.pmlim k).trans (h.pmlim k), h'.dies.trans h.dies⟩

theorem of_eq {s t : State} (hb : t.blocks = s.blocks) (hc : t.cores = s.cores) (hd : t.dies = s.dies) : windowsKept s t :=
  ⟨fun b => by rw [hb], fun k => by unfold State.core; rw [hc], hd⟩

theorem modCore (s : State) (k : Nat) (f : Core → Core) (hf : ∀ C, (f C).pmlim = C.pmlim) : windowsKept s (s.modCore k f) := by
  refine ⟨fun _ => rfl, fun j => ?_, rfl⟩
  rw [State.core_modCore]
  split
  · next h => rw [hf, h]
  · rfl

theorem modSpm (s : State) (b : Nat) (f : Ram → Ram) : windowsKept s (modSpm s b f) := by
  refine ⟨fun c => ?_, fun _ => rfl, rfl⟩
  unfold Machine.modSpm State.modBlock
  rw [tget?_tmod]
  split
  · next h => rw [h, Option.map_map]; rfl
  · rfl

theorem chanPop (s : State) (b : Nat) (ch : Chan) (n : Nat) : windowsKept s (chanPop s b ch n) := by
  unfold Machine.chanPop
  split_ifs
  · exact refl s
  · exact of_eq rfl rfl rfl
  · split
    · exact modSpm ..
    · exact refl s

theorem consume (s : State) (c : Cur) (ops : List Opd) : windowsKept s (consume s c ops) :=
  consume_keeps refl trans c ops (fun _ _ _ => chanPop ..) (fun _ _ => modCore _ _ _ fun _ => rfl) (fun _ _ _ => of_eq rfl rfl rfl) s

theorem freeS (s : State) (c : Cur) (us : List (RSrc × Nat)) : windowsKept s (freeS s c us) := by
  unfold Machine.freeS
  split
  · exact refl s
  · exact of_eq rfl rfl rfl

theorem asked (s : State) (c : Cur) : windowsKept s (asked s c) := by
  unfold Sys2Proof.asked symAsk
  rw [if_neg Bool.false_ne_true]
  split
  · exact modCore _ _ _ fun _ => rfl
  · exact refl s

theorem homeOf {s t : State} (h : windowsKept s t) (b : Nat) : homeOf t b = homeOf s b := congrArg (Option.getD · 0) (h.home b)

theorem wsWindow {s t : State} (h : windowsKept s t) (b : Nat) : wsWindow t b = wsWindow s b := by
  unfold Machine.wsWindow
  rw [h.homeOf, h.pmlim]

theorem wsBadLine {s t : State} (h : windowsKept s t) (die x n : Nat) : wsBadLine t die x n = wsBadLine s die x n := by
  unfold Machine.wsBadLine State.die
  rw [h.dies]

theorem isSome {s t : State} (h : windowsKept s t) (b : Nat) : (tget? t.blocks b).isSome = (tget? s.blocks b).isSome := by
  have := congrArg Option.isSome (h.home b)
  simpa using this

/-- What charges and retired words leave of a state keeps the windows. -/
theorem of_outside {s t : State} (h : outside s t) : windowsKept s t := by
  obtain ⟨hrest, hblocks, _⟩ := h
  refine ⟨fun b => ?_, fun k => ?_, (congrArg State.dies hrest :)⟩
  · have := congrArg (Option.map Block.home) (hblocks b)
    rwa [Option.map_map, Option.map_map] at this
  · unfold State.core
    rw [show t.cores = s.cores from (congrArg State.cores hrest :)]

end windowsKept

/-! ### Charges of an issue (R128, R298) -/

/-- What a read charges at issue moves accounts alone. -/
theorem chargeLds_outside (I : Issue) {s : State} {ids : List Nat} (h : ∀ k ∈ ids, ∀ o, tget? s.ops k = some o → (tget? s.blocks o.blk).isSome) :
    outside s (chargeLds s I ids) ∧ (chargeLds s I ids).groups = s.groups := by
  have hfirst {o : Op} {r : List Op} (e : ids.filterMap (fun k => tget? s.ops k) = o :: r) : ∃ p, acctOf s o.blk = (some p, (acctOf s o.blk).2) := by
    obtain ⟨k, hk, ho⟩ := List.mem_filterMap.mp (e ▸ List.mem_cons_self : o ∈ ids.filterMap fun k => tget? s.ops k)
    obtain ⟨B, hB⟩ := Option.isSome_iff_exists.mp (h k hk o ho)
    unfold acctOf
    rw [hB]
    exact ⟨B.pasid, rfl⟩
  unfold chargeLds
  split
  · dsimp only
    split
    · next o r e =>
      obtain ⟨p, hp⟩ := hfirst e
      unfold chargePasses
      rw [hp]
      dsimp only
      split
      · exact ⟨outside_refl s, rfl⟩
      · exact ⟨outside_charge .., charge_groups ..⟩
    · exact ⟨outside_refl s, rfl⟩
  · dsimp only
    split
    · next o r e =>
      obtain ⟨p, hp⟩ := hfirst e
      rw [hp]
      exact ⟨outside_charge .., charge_groups ..⟩
    · exact ⟨outside_refl s, rfl⟩
  · exact ⟨outside_refl s, rfl⟩

/-! ### The issue -/

section
variable {F : IssueForm} {s : State} {c : Cur} {cls : Nat} {per : Per} {build : Group → Nat → List Word → Except (Nat × Nat) LReq}

/-- An issue that no scope holds takes effect as soon as its operations are made. -/
theorem issueOp_now (hb : F.builtBy build) (hc : s.cur = some c) (he : c.empty = false) (hnow : c.e = .lane ∨ F.hold = false)
    (hheld : heldOps s c = []) (hr : ready? s c F.ops F.dest false = none) (ha : F.allowed s c) (hf : c.e ≠ .lane → entriesFree F s c) :
    issueOp (F.issue cls per) build s =
      commitOps (F.issue cls per) (createOps (F.issue cls per) (asked s c) c (F.requests s c) false).2 c
        (createOps (F.issue cls per) (asked s c) c (F.requests s c) false).1 := by
  have hr' : ready? s c (F.issue cls per).ops (F.issue cls per).d false = none := by rw [issue_d]; exact hr
  have hheld' : ((F.issue cls per).hold && c.e != .lane) = false := by
    rcases hnow with h | h
    · rw [h]; exact Bool.and_false _
    · exact (congrArg (· && (c.e != .lane)) h).trans (Bool.false_and _)
  have hroom : (c.e != .lane && !symRoom s (homeOf s c.blk) (asker c) ((F.requests s c).map fun x => (c.blk, x.1, F.count))) = false := by
    by_cases hw : c.e = .lane
    · rw [hw]; rfl
    · have h := hf hw
      unfold entriesFree at h
      rw [IssueForm.requests, List.map_map]
      simp only [Function.comp_def, h, Bool.not_true, Bool.and_false]
  have hbuilt := reqsOf_built hb ha
  unfold issueOp
  simp only [hc, he, hheld, hr', List.isEmpty_nil, Bool.not_true, Bool.false_eq_true, if_false, hheld', Bool.false_and]
  refine (if_neg ?_).trans ((if_neg ?_).trans ?_)
  · show ¬ (!(faultsOf (builtAll s c F.ops build)).isEmpty) = true
    rw [faultsOf_built hb ha]
    decide
  · show ¬ (c.e != .lane && !symRoom s (homeOf s c.blk) (asker c) ((reqsOf (builtAll s c F.ops build)).map fun x => (c.blk, x.1, F.count))) = true
    rw [hbuilt, hroom]
    decide
  · show commitOps (F.issue cls per) (createOps (F.issue cls per) (asked s c) c (reqsOf (builtAll s c F.ops build)) false).2 c
      (createOps (F.issue cls per) (asked s c) c (reqsOf (builtAll s c F.ops build)) false).1 = _
    rw [hbuilt]

/-- The identifiers of an issue's operations follow one another. -/
theorem makeOps_ids {I : Issue} {wide : Option Scope} {order : Nat} (hs : s.sandbox = none) (reqs : List (Nat × List LReq)) {n : Nat} {T : Tab Op}
    {a : List Nat × State} (h : making s n T a.2) :
    (reqs.foldl (makeOp I s c wide order) a).1 = a.1 ++ reqs.mapIdx fun j _ => n + j * (I.count + 1) := by
  induction reqs generalizing n T a with
  | nil => simp
  | cons x r ih =>
    have hid : a.2.nextId = n := by
      obtain ⟨C, U, hu, _⟩ := h.eq
      rw [hu]
    have hn (j : Nat) : n + 1 + I.count + j * (I.count + 1) = n + (j + 1) * (I.count + 1) := by rw [Nat.add_mul]; omega
    rw [List.foldl_cons, ih (makeOp_making (I := I) (c := c) (wide := wide) (order := order) hs h x), List.mapIdx_cons]
    simp only [hn, Nat.zero_mul, Nat.add_zero]
    show a.1 ++ [a.2.nextId] ++ _ = _
    rw [hid, List.append_assoc]
    rfl

theorem createOps_ids (I : Issue) (hs : s.sandbox = none) (reqs : List (Nat × List LReq)) (hold : Bool) :
    (createOps I s c reqs hold).1 = reqs.mapIdx fun j _ => s.nextId + 1 + j * (I.count + 1) := by
  rw [createOps_eq]
  exact (makeOps_ids hs reqs ⟨s.ctxs, s.ops, rfl, fun _ => rfl, rfl⟩).trans (List.nil_append _)

/-! ### The operations of an issue -/

theorem made_ids (wide : Option Scope) :
    (F.made s c wide).map (·.1) = (F.requests s c).mapIdx fun j _ => s.nextId + 1 + j * (F.count + 1) := by
  unfold IssueForm.made IssueForm.requests
  rw [mapIdx_map]
  exact List.ext_getElem (by simp) (by simp)

theorem made_rising (wide : Option Scope) : (F.made s c wide).Pairwise fun x y => x.1 < y.1 := by
  unfold IssueForm.made
  refine List.pairwise_iff_getElem.mpr fun i j hi hj hij => ?_
  rw [List.getElem_mapIdx, List.getElem_mapIdx]
  have : i * (F.count + 1) < j * (F.count + 1) := Nat.mul_lt_mul_of_pos_right hij (Nat.succ_pos _)
  dsimp only
  omega

/-- What an operation of an issue is, but for its group, registers and requests; each request is one of the form's. -/
theorem mem_made {wide : Option Scope} {x : Nat × Op} (h : x ∈ F.made s c wide) :
    x.2.kind = F.kind ∧ x.2.blk = c.blk ∧ x.2.core = homeOf s c.blk ∧ x.2.wide = wide ∧
      ∀ q ∈ x.2.lanes, ∃ G l xs p, F.req G l xs = some p ∧ q = { p with time := s.reft } := by
  unfold IssueForm.made at h
  obtain ⟨j, hj, rfl⟩ := List.mem_mapIdx.mp h
  refine ⟨rfl, rfl, rfl, rfl, fun q hq => ?_⟩
  obtain ⟨y, _, hy⟩ := List.mem_filterMap.mp hq
  obtain ⟨p, hp, rfl⟩ := Option.map_eq_some_iff.mp hy
  obtain ⟨G, _, hreq⟩ := Option.bind_eq_some_iff.mp hp
  exact ⟨G, _, _, p, hreq, rfl⟩

theorem made_untouched (hF : F.fresh s c) {x : Nat × Op} (h : x ∈ F.made s c none) : x.2.untouched := by
  obtain ⟨_, _, _, hw, hl⟩ := mem_made h
  refine ⟨hw, fun q hq => ?_⟩
  obtain ⟨G, l, xs, p, hp, rfl⟩ := hl q hq
  exact hF.ph G l xs p hp

theorem mem_foldl_tset {α : Type} {M : List (Nat × α)} {T : Tab α} {x : Nat × α} (h : x ∈ M.foldl (fun T x => tset T x.1 x.2) T) : x ∈ M ∨ x ∈ T := by
  induction M generalizing T with
  | nil => exact .inr h
  | cons y r ih =>
    rcases ih h with h | h
    · exact .inl (List.mem_cons_of_mem _ h)
    · rcases mem_tset h with rfl | h
      · exact .inl (List.mem_cons_self ..)
      · exact .inr h

/-- The table of operations after an issue. -/
def issued (F : IssueForm) (s : State) (c : Cur) : Tab Op := (F.made s c none).foldl (fun T x => tset T x.1 x.2) s.ops

/-- Every read of the weight store that has a poisoned line was issued before (R322). -/
theorem wsCheck_issued (hF : F.fresh s c) (hold : ∀ x ∈ s.ops, x.2.order < s.nextId) {t : State} (hops : sameOps t.ops (issued F s c))
    (hw : windowsKept s t) : wsCheck t s.nextId = t := by
  unfold wsCheck
  refine List.foldlRecOn (motive := fun u : State => u = t) t.ops _ rfl fun u hu x hx => ?_
  subst hu
  have hm : (x.1, x.2.bare) ∈ (issued F s c).map fun x => (x.1, x.2.bare) := hops ▸ List.mem_map_of_mem hx
  obtain ⟨y, hy, he⟩ := List.mem_map.mp hm
  have hb : y.2.bare = x.2.bare := (Prod.mk.inj he).2
  obtain ⟨k, o⟩ := x
  dsimp only at hb ⊢
  split
  · next n hk =>
    rcases mem_foldl_tset hy with hy | hy
    · split
      · rfl
      · obtain ⟨hkind, hblk, hcore, _, hlanes⟩ := mem_made hy
        have hkind' : o.kind = F.kind := (congrArg Op.kind hb : y.2.bare.kind = o.bare.kind).symm.trans hkind
        have hblk' : o.blk = c.blk := (congrArg Op.blk hb : y.2.bare.blk = o.bare.blk).symm.trans hblk
        have hcore' : o.core = homeOf s c.blk := (congrArg Op.core hb : y.2.bare.core = o.bare.core).symm.trans hcore
        refine List.foldlRecOn (motive := fun v : State => v = u) o.lanes _ rfl fun v hv q hq => ?_
        have hq' : q.bare ∈ y.2.bare.lanes := hb ▸ List.mem_map_of_mem hq
        obtain ⟨r, hr, hrq⟩ := List.mem_map.mp hq'
        obtain ⟨G, l, xs, p, hp, rfl⟩ := hlanes r hr
        have hx : q.x = p.x := (congrArg LReq.x hrq).symm
        have hn : q.n = p.n := (congrArg LReq.n hrq).symm
        have hwhole := hF.whole n (hkind' ▸ hk) G l xs p hp
        have hnone : wsBadLine v (dieOf o.core) ((wsWindow u o.blk).1 + q.x) q.n = none := by
          rw [hv, hw.wsBadLine, hw.wsWindow, hblk', hcore', hx, hn]
          exact hwhole
        rw [hnone]
        exact hv
    · have horder : o.order = y.2.order := (congrArg Op.order hb).symm
      rw [if_pos (horder ▸ hold y hy)]
  · rfl

end

end Sys2Proof.Machine
end

section
/-!
PROOFS. An instruction that issues an operation leaves the state of its form: made operations, taken sources, charges and marked lanes put
together (R52, R105, R191, R205 to R215, R226 to R230, R252).
-/

namespace Sys2Proof.Machine

/-- The table of operations without what probing records of it (R340). -/
def bareOps (T : Tab Op) : Tab Op := T.map fun x => (x.1, x.2.bare)

def Ctx.noProbes (x : Ctx) : Ctx := { x.noMeter with probes := [] }

/-- A state that an issue leaves before its word is charged and retired, against the one that a statement gives: accounts and what probing
records differ. -/
structure sameIssue (u f : State) : Prop where
  rest : { f.rest with ops := bareOps f.ops } = { u.rest with ops := bareOps u.ops }
  groups : f.groups = u.groups
  blocks : ∀ b, (tget? f.blocks b).map Block.noRc = (tget? u.blocks b).map Block.noRc
  ctxs : ∀ p, (tget? f.ctxs p).map Ctx.noProbes = (tget? u.ctxs p).map Ctx.noProbes
  worlds : ∀ w, (tget? f.worlds w).map World.noMeter = (tget? u.worlds w).map World.noMeter
  launches : ∀ l, (tget? f.launches l).map Launch.noEnergy = (tget? u.launches l).map Launch.noEnergy

theorem issuedIs_of_sameIssue {u f t : State} (h : sameIssue u f) (ht : effectIs f t) : issuedIs u t := by
  obtain ⟨hcur, ⟨hrest, hblocks, hctxs, hworlds, hlaunches⟩, hgroups⟩ := ht
  refine ⟨hcur, ?_, fun k => (hgroups k).trans (by rw [h.groups]), fun b => (hblocks b).trans (h.blocks b), fun p => ?_,
    fun w => (hworlds w).trans (h.worlds w), fun l => (hlaunches l).trans (h.launches l)⟩
  · exact (congrArg (fun x : State => { x with ops := bareOps x.ops }) hrest).trans h.rest
  · have hp := congrArg (Option.map fun x : Ctx => { x with probes := [] }) (hctxs p)
    rw [Option.map_map, Option.map_map] at hp
    exact hp.trans (h.ctxs p)

section
variable {F : IssueForm} {s : State} {c : Cur} {cls : Nat} {per : Per}

/-- The state whose sources an issue has taken. -/
def sourcesTaken (F : IssueForm) (s : State) (c : Cur) : State := freeS (consume (asked s c) c F.ops) c F.us

theorem windowsKept_sourcesTaken (F : IssueForm) (s : State) (c : Cur) : windowsKept s (sourcesTaken F s c) :=
  ((windowsKept.asked s c).trans (.consume _ c F.ops)).trans (.freeS _ c F.us)

theorem freeS_withTables (x s : State) (c : Cur) (us : List (RSrc × Nat)) : freeS (withTables x s) c us = withTables x (freeS s c us) := by
  unfold freeS
  split <;> rfl

theorem sourcesTaken_withTables (x : State) (F : IssueForm) (s : State) (c : Cur) :
    freeS (consume (withTables x (asked s c)) c F.ops) c F.us = withTables x (sourcesTaken F s c) := by
  rw [consume_withTables, freeS_withTables]
  rfl

/-- Accounts and operations stay while the sources are taken. -/
theorem sourcesTaken_tables (F : IssueForm) (s : State) (c : Cur) : sourcesTaken F s c = withTables (asked s c) (sourcesTaken F s c) :=
  sourcesTaken_withTables (asked s c) F s c

theorem sourcesTaken_bytes (hr : ∀ o ∈ F.ops, o.isReg = true) : bytesKept s (sourcesTaken F s c) := by
  obtain ⟨C, hC⟩ := asked_eq s c
  have hasked : bytesKept s (asked s c) := fun p => by rw [hC]; cases p <;> rfl
  have htaken : outside (asked s c) (sourcesTaken F s c) := by
    unfold sourcesTaken
    rw [consume_regs _ c F.ops hr]
    exact outside_trans (foldl_outside _ _ (fun _ _ => outside_modGroup ..) _) (outside_freeS ..)
  exact fun p => (outside_bytes htaken p).trans (hasked p)

/-- What an issue makes: its operations outstanding, its identifiers taken. -/
theorem createOps_issued (hs : s.sandbox = none) : ∃ C U,
    (createOps (F.issue cls per) (asked s c) c (F.requests s c) false).2 =
      { asked s c with nextId := s.nextId + 1 + (readOps s c F.ops).length * (F.count + 1), ops := U, ctxs := C } ∧
    (createOps (F.issue cls per) (asked s c) c (F.requests s c) false).1 = (F.made s c none).map (·.1) ∧
    sameCtxs (asked s c).ctxs C ∧ sameOps U (issued F s c) := by
  obtain ⟨D, hD⟩ := asked_eq s c
  have hs' : (asked s c).sandbox = none := by rw [hD]; exact hs
  have hmaking := createOps_making (I := F.issue cls per) (c := c) hs' (F.requests s c) false
  simp only [Bool.false_eq_true, if_false] at hmaking
  rw [made_eq (asked s c) ⟨D, hD⟩ none] at hmaking
  obtain ⟨C, U, hv, hC, hU⟩ := hmaking.eq
  have hlen : (F.requests s c).length = (readOps s c F.ops).length := List.length_map ..
  refine ⟨C, U, ?_, ?_, hC, by rw [hD] at hU; exact hU⟩
  · rw [hv, hlen, hD]
    rfl
  · rw [createOps_ids _ hs', made_ids, hD]
    rfl

/-- Accounts and what probing records make no difference to an issue: b has the accounts and operations of a, and w has moved accounts. -/
theorem sameIssue_charged {a b v w : State} {T U : Tab Op} {C : Tab Ctx} {n : Nat} (hb : b = withTables a b)
    (hv : v = { a with nextId := n, ops := U, ctxs := C }) (hC : sameCtxs a.ctxs C) (hU : sameOps U T)
    (hout : outside (withTables v b) w) (G : Tab Group) :
    sameIssue { b with ops := T, nextId := n, groups := G } { w with groups := G } := by
  obtain ⟨hrest, hblocks, hctxs, hworlds, hlaunches⟩ := hout
  have hbctxs : b.ctxs = a.ctxs := (congrArg State.ctxs hb :)
  have hbworlds : b.worlds = a.worlds := (congrArg State.worlds hb :)
  have hblaunches : b.launches = a.launches := (congrArg State.launches hb :)
  subst hv
  refine ⟨?_, rfl, hblocks, fun p => ?_, fun k => ?_, fun k => ?_⟩
  · refine (congrArg (fun x : State => { x with ops := bareOps x.ops }) hrest).trans ?_
    exact congrArg (fun X => ({ b.rest with nextId := n, ops := X } : State)) hU
  · have hmeter := congrArg (Option.map fun x : Ctx => { x with probes := [] }) (hctxs p)
    have hprobes := congrArg (Option.map Ctx.noMeter) (hC p)
    rw [Option.map_map, Option.map_map] at hmeter hprobes
    exact hmeter.trans (hprobes.trans (congrArg (fun X : Tab Ctx => (tget? X p).map Ctx.noProbes) hbctxs.symm))
  · exact (hworlds k).trans (congrArg (fun X : Tab World => (tget? X k).map World.noMeter) hbworlds.symm)
  · exact (hlaunches k).trans (congrArg (fun X : Tab Launch => (tget? X k).map Launch.noEnergy) hblaunches.symm)

/-- The issue takes effect: what it leaves before its word is charged and retired. -/
theorem commitOps_issued (hF : F.fresh s c) (hs : s.sandbox = none) (hB : (tget? s.blocks c.blk).isSome) :
    ∃ f, commitOps (F.issue cls per) (createOps (F.issue cls per) (asked s c) c (F.requests s c) false).2 c
        (createOps (F.issue cls per) (asked s c) c (F.requests s c) false).1 = done cls per f ∧
      sameIssue ((F.made s c none).foldl (fun u x => marked u x.2) { sourcesTaken F s c with
        ops := issued F s c, nextId := s.nextId + 1 + (readOps s c F.ops).length * (F.count + 1) }) f ∧
      sameOps f.ops (issued F s c) ∧ windowsKept s f ∧ bytesKept (sourcesTaken F s c) f := by
  obtain ⟨C, U, hv, hids, hC, hU⟩ := createOps_issued (F := F) (c := c) (cls := cls) (per := per) hs
  rw [hv, hids, commitOps_eq]
  generalize hv' : ({ asked s c with
    nextId := s.nextId + 1 + (readOps s c F.ops).length * (F.count + 1), ops := U, ctxs := C } : State) = v
  have htables : v = withTables v (asked s c) := by rw [← hv']; rfl
  have htaken : freeS (consume v c F.ops) c F.us = withTables v (sourcesTaken F s c) :=
    (congrArg (fun x => freeS (consume x c F.ops) c F.us) htables).trans (sourcesTaken_withTables v F s c)
  have hplaced : ∀ x ∈ F.made s c none, placedAs (issued F s c) x.1 x.2 := placedAs_foldl_tset (made_rising none) s.ops
  have hkept := windowsKept_sourcesTaken F s c
  have hblock : ∀ k ∈ (F.made s c none).map (·.1), ∀ o, tget? (withTables v (sourcesTaken F s c)).ops k = some o →
      (tget? (withTables v (sourcesTaken F s c)).blocks o.blk).isSome := by
    intro k hk o ho
    obtain ⟨x, hx, rfl⟩ := List.mem_map.mp hk
    obtain ⟨p, hp, hb⟩ := placedAs_of_sameOps hU (hplaced x hx)
    have hops : (withTables v (sourcesTaken F s c)).ops = U := by rw [← hv']; rfl
    obtain rfl : p = o := Option.some.inj ((tget?_of_placedAs hp).symm.trans (hops ▸ ho))
    obtain ⟨_, hblk, _⟩ := mem_made hx
    rw [show p.blk = c.blk from (congrArg Op.blk hb : p.bare.blk = x.2.bare.blk).trans hblk]
    exact (hkept.isSome c.blk).trans hB
  obtain ⟨hout, hgroups⟩ := chargeLds_outside (F.issue cls per) hblock
  have hsand : (sourcesTaken F s c).sandbox = none := by
    obtain ⟨D, hD⟩ := asked_eq s c
    obtain ⟨_, h⟩ := (opsKept_consume (asked s c) c F.ops).trans (opsKept_freeS _ c F.us)
    rw [show (sourcesTaken F s c).sandbox = (asked s c).sandbox from h, hD]
    exact hs
  rw [show freeS (consume v c (F.issue cls per).ops) c (F.issue cls per).us = withTables v (sourcesTaken F s c) from htaken]
  generalize chargeLds (withTables v (sourcesTaken F s c)) (F.issue cls per) ((F.made s c none).map (·.1)) = w at hout hgroups ⊢
  have hwops : w.ops = U := (congrArg State.ops hout.1 :).trans (by rw [← hv']; rfl)
  have hwsand : w.sandbox = none := (congrArg State.sandbox hout.1 :).trans hsand
  rw [commit_made hwsand (by rw [hwops]; exact hU) fun x hx => ⟨hplaced x hx, made_untouched hF hx⟩]
  generalize hu : ({ sourcesTaken F s c with
    ops := issued F s c, nextId := s.nextId + 1 + (readOps s c F.ops).length * (F.count + 1) } : State) = u
  have hug : w.groups = u.groups := hgroups.trans (by rw [← hu]; rfl)
  have hfw := foldl_marked_groups (F.made s c none) hug
  have hfu := foldl_marked_groups (F.made s c none) (u := u) (w := u) rfl
  generalize (F.made s c none).foldl (fun u x => marked u x.2) w = f at hfw ⊢
  generalize hG : ((F.made s c none).foldl (fun u x => marked u x.2) u).groups = G at hfw hfu
  rw [hfu]
  refine ⟨f, rfl, ?_, by rw [hfw, hwops]; exact hU, ?_, fun p => ?_⟩
  · rw [hfw, ← hu]
    exact sameIssue_charged (sourcesTaken_tables F s c) hv'.symm hC hU hout G
  · rw [hfw]
    have htables : windowsKept (sourcesTaken F s c) (withTables v (sourcesTaken F s c)) := .of_eq rfl rfl rfl
    exact ((hkept.trans htables).trans (.of_outside hout)).trans (.of_eq rfl rfl rfl)
  · rw [hfw]
    exact outside_bytes hout p

end

/-- Settles O22: the word issues as its form says (`issueForm_issues`), its operations take effect at once (`commitOps_issued`), and no read of a
poisoned line is among them (`wsCheck_issued`). -/
theorem operationsIssue : Obligations.OperationsIssue := by
  intro i F s c hi hc he _ hs hnow hB hold hheld hr ha hf hn ho
  have hF := issueForm_fresh hi
  obtain ⟨cls, per, build, hb, hex⟩ := issueForm_issues hi hc hn ho
  obtain ⟨f, hf', hsame, hops, hkept, hbytes⟩ := commitOps_issued (cls := cls) (per := per) hF hs hB
  obtain ⟨t, ht, heff⟩ := done_effect cls per f
  have hissue : issueOp (F.issue cls per) build s = .next t := (issueOp_now hb hc he hnow hheld hr ha hf).trans (hf'.trans ht)
  obtain ⟨_, hout, _⟩ := id heff
  have htops : t.ops = f.ops := (congrArg State.ops hout.1 :)
  have hcheck : wsCheck t s.nextId = t := wsCheck_issued hF hold (htops ▸ hops) (hkept.trans (.of_outside hout))
  have hexec : exec i s = .next t := (hex t hissue).elim id fun h => by rw [h, hcheck]
  refine ⟨t, hexec, fun hreg p => ?_, issuedIs_of_sameIssue hsame heff⟩
  exact (outside_bytes hout p).trans ((hbytes p).trans (sourcesTaken_bytes hreg p))

end Sys2Proof.Machine
end

section
/-!
PROOFS. The cross-lane instructions: the fixed tree of a reduction (R94), folds over the active set (R190), and each instruction as the shared
operation (R189, R190, R244).
-/

namespace Sys2Proof.Machine

/-! ### The fixed tree (R94) -/

section
variable {α : Type} (f : α → α → α)

/-- A node over its two children, each of which may be absent. -/
def joinNodes : Option α → Option α → Option α
  | some x, some y => some (f x y)
  | some x, none => some x
  | none, y => y

theorem joinNodes_none (x : Option α) : joinNodes f x none = x := by cases x <;> rfl

theorem treeNode_succ (leaf : Nat → Option α) (k i : Nat) :
    treeNode f leaf (k + 1) i = joinNodes f (treeNode f leaf k (2 * i)) (treeNode f leaf k (2 * i + 1)) := by
  rw [treeNode]
  cases treeNode f leaf k (2 * i) <;> cases treeNode f leaf k (2 * i + 1) <;> rfl

/-- The tree over the lowest nodes is the tree over the leaves, one level higher. -/
theorem treeNode_treeNode_one (leaf : Nat → Option α) (k i : Nat) : treeNode f (treeNode f leaf 1) k i = treeNode f leaf (k + 1) i := by
  induction k generalizing i with
  | zero => rfl
  | succ k ih => rw [treeNode_succ, ih, ih, ← treeNode_succ]

theorem treeLevel_cons_cons (x y : Option α) (r : List (Option α)) : treeLevel f (x :: y :: r) = joinNodes f x y :: treeLevel f r := by
  cases x <;> cases y <;> rfl

theorem getD_treeLevel : ∀ (l : List (Option α)) (i : Nat),
    (treeLevel f l).getD i none = joinNodes f (l.getD (2 * i) none) (l.getD (2 * i + 1) none)
  | [], _ => rfl
  | [none], 0 => rfl
  | [some _], 0 => rfl
  | [none], _ + 1 => rfl
  | [some _], _ + 1 => rfl
  | x :: y :: r, 0 => by rw [treeLevel_cons_cons]; rfl
  | x :: y :: r, i + 1 => by rw [treeLevel_cons_cons, List.getD_cons_succ, getD_treeLevel r i]; rfl

theorem treeRoot_eq_treeNode (n : Nat) (l : List (Option α)) : treeRoot f n l = treeNode f (fun i => l.getD i none) n 0 := by
  induction n generalizing l with
  | zero => cases l <;> rfl
  | succ n ih =>
    have hlevel : (fun i => (treeLevel f l).getD i none) = treeNode f (fun i => l.getD i none) 1 :=
      funext fun i => (getD_treeLevel f l i).trans (treeNode_succ f (fun i => l.getD i none) 0 i).symm
    rw [treeRoot, ih, hlevel, treeNode_treeNode_one]

end

/-- One more than the highest element index: the number of leaves. -/
def leafCount (es : List Elem) : Nat := es.foldl (fun k e => max k e.i) 0 + 1

theorem lt_leafCount {es : List Elem} {e : Elem} (h : e ∈ es) : e.i < leafCount es := by
  have hmax (k : Nat) : k ≤ es.foldl (fun k e => max k e.i) k ∧ ∀ e ∈ es, e.i ≤ es.foldl (fun k e => max k e.i) k := by
    clear h
    induction es generalizing k with
    | nil => exact ⟨le_rfl, by simp⟩
    | cons a r ih =>
      obtain ⟨hk, hr⟩ := ih (max k a.i)
      exact ⟨(le_max_left ..).trans hk, List.forall_mem_cons.mpr ⟨(le_max_right ..).trans hk, hr⟩⟩
  exact Nat.lt_succ_of_le ((hmax 0).2 e h)

/-- A leaf is its element's value, absent where no element has its index. -/
theorem getD_leaves {α : Type} (v : Elem → α) (es : List Elem) (i : Nat) :
    (leaves (leafCount es) (es.map fun e => (e.i, v e))).getD i none = (es.find? fun x => x.i == i).map v := by
  have hfind : ((es.map fun e => (e.i, v e)).find? fun e => e.1 == i).map (·.2) = (es.find? fun x => x.i == i).map v := by
    rw [List.find?_map, Option.map_map]
    rfl
  by_cases hi : i < leafCount es
  · simp [leaves, List.getD_eq_getElem?_getD, List.getElem?_range hi, ← hfind]
  · have hnone : (es.find? fun x => x.i == i) = none := List.find?_eq_none.mpr fun e he => by
      have := lt_leafCount he
      simp only [beq_iff_eq]
      omega
    rw [hnone]
    exact List.getD_eq_default _ _ (by simpa [leaves] using hi)

theorem treeRoot_leaves {α : Type} (f : α → α → α) (v : Elem → α) (n : Nat) (es : List Elem) :
    treeRoot f n (leaves (leafCount es) (es.map fun e => (e.i, v e))) = treeNode f (fun k => (es.find? fun x => x.i == k).map v) n 0 := by
  rw [treeRoot_eq_treeNode]
  congr 1
  exact funext (getD_leaves v es)

theorem fredOp_eq (op : BitVec 2) (m : Rnd) : fredOp op m =
    fun x y => if op = 0 then toF32 m ((F32 x).add m (F32 y)) else BitVec.ofNat 32 (minmaxF fp32 (op == 2) x.toNat y.toNat) := by
  funext x y
  simp only [fredOp, beq_iff_eq]
  rfl

/-- `fred` over the active set. -/
theorem fredRoot_eq (m : Rnd) (op : BitVec 2) (es : List Elem) :
    (treeRoot (fredOp op m) 11 (leaves (leafCount es) (es.map fun e => (e.i, w0 e.xs)))).getD 0#32 =
      (treeNode (fun x y => if op = 0 then toF32 m ((F32 x).add m (F32 y)) else BitVec.ofNat 32 (minmaxF fp32 (op == 2) x.toNat y.toNat))
        (fun k => (es.find? fun x => x.i == k).map fun x => x.xs.getD 0 0) 11 0).getD 0 := by
  rw [treeRoot_leaves, fredOp_eq]
  rfl

/-! ### Folds over the active set (R190) -/

theorem foldElems_sum (es : List Elem) : foldElems (· + ·) es = BitVec.ofNat 32 (es.map fun x => (x.xs.getD 0 0).toNat).sum := by
  have hfold (r : List Elem) (w : Word) : r.foldl (fun acc x => acc + w0 x.xs) w = w + BitVec.ofNat 32 (r.map fun x => (x.xs.getD 0 0).toNat).sum := by
    induction r generalizing w with
    | nil => simp
    | cons e r ih =>
      rw [List.foldl_cons, ih, List.map_cons, List.sum_cons, BitVec.ofNat_add, BitVec.ofNat_toNat, BitVec.setWidth_eq, BitVec.add_assoc]
      rfl
  cases es with
  | nil => rfl
  | cons e r =>
    rw [foldElems, hfold, List.map_cons, List.sum_cons, BitVec.ofNat_add, BitVec.ofNat_toNat, BitVec.setWidth_eq]
    rfl

/-- A fold seen as numbers. -/
theorem foldElems_cons {α : Type} {f : Word → Word → Word} {op : α → α → α} (v : Word → α) (h : ∀ x y, v (f x y) = op (v x) (v y)) (e : Elem)
    (r : List Elem) : v (foldElems f (e :: r)) = (r.map fun x => v (x.xs.getD 0 0)).foldl op (v (e.xs.getD 0 0)) := by
  rw [List.foldl_map]
  exact (List.foldl_hom v fun x y => (h x _).symm).symm

theorem toInt_minS {n : Nat} (x y : BitVec n) : (minS x y).toInt = min x.toInt y.toInt := by
  rcases min_choice x.toInt y.toInt with h | h <;> rw [minS_eq, h, BitVec.ofInt_toInt]

theorem toInt_maxS {n : Nat} (x y : BitVec n) : (maxS x y).toInt = max x.toInt y.toInt := by
  rcases max_choice x.toInt y.toInt with h | h <;> rw [maxS_eq, h, BitVec.ofInt_toInt]

theorem toNat_minN {n : Nat} (x y : BitVec n) : (minN x y).toNat = min x.toNat y.toNat := by
  rcases min_choice x.toNat y.toNat with h | h <;> rw [minN_eq, h, BitVec.ofNat_toNat, BitVec.setWidth_eq]

theorem toNat_maxN {n : Nat} (x y : BitVec n) : (maxN x y).toNat = max x.toNat y.toNat := by
  rcases max_choice x.toNat y.toNat with h | h <;> rw [maxN_eq, h, BitVec.ofNat_toNat, BitVec.setWidth_eq]

theorem foldElems_minS (es : List Elem) : foldElems minS es = BitVec.ofInt 32 ((es.map fun x => (x.xs.getD 0 0).toInt).min?.getD 0) := by
  cases es with
  | nil => rfl
  | cons e r => rw [List.map_cons, List.min?_cons', Option.getD_some, ← foldElems_cons BitVec.toInt toInt_minS, BitVec.ofInt_toInt]

theorem foldElems_maxS (es : List Elem) : foldElems maxS es = BitVec.ofInt 32 ((es.map fun x => (x.xs.getD 0 0).toInt).max?.getD 0) := by
  cases es with
  | nil => rfl
  | cons e r => rw [List.map_cons, List.max?_cons', Option.getD_some, ← foldElems_cons BitVec.toInt toInt_maxS, BitVec.ofInt_toInt]

theorem foldElems_minN (es : List Elem) : foldElems minN es = BitVec.ofNat 32 ((es.map fun x => (x.xs.getD 0 0).toNat).min?.getD 0) := by
  cases es with
  | nil => rfl
  | cons e r =>
    rw [List.map_cons, List.min?_cons', Option.getD_some, ← foldElems_cons BitVec.toNat toNat_minN, BitVec.ofNat_toNat, BitVec.setWidth_eq]

theorem foldElems_maxN (es : List Elem) : foldElems maxN es = BitVec.ofNat 32 ((es.map fun x => (x.xs.getD 0 0).toNat).max?.getD 0) := by
  cases es with
  | nil => rfl
  | cons e r =>
    rw [List.map_cons, List.max?_cons', Option.getD_some, ← foldElems_cons BitVec.toNat toNat_maxN, BitVec.ofNat_toNat, BitVec.setWidth_eq]

/-! ### The shared operations -/

section
variable {s : State} {c : Cur} {d : VDst} {f : Nat → List Elem → Elem → Word}

theorem crossOp_form {ops : List Opd} (cls : Nat) (g : Nat → List Elem → Elem → Word) (h : ∀ n es e, g n es e = f n es e) (hc : s.cur = some c)
    (he : c.empty = false) (hr : ready? s c ops (.v d) false = none) :
    ∃ t, crossOp cls d ops g s = .next t ∧ effectIs (writeCells (consume s c ops) c.blk d (crossResults s c ops (f (ecount s c)))) t := by
  obtain rfl : g = f := funext fun n => funext fun es => funext (h n es)
  unfold crossOp
  rw [hc]
  simp only [he, hr]
  exact done_effect cls .lane _

/-- A reduction is a cross-lane instruction with the same result in each element. -/
theorem reduceOp_form {b : VSrc} (cls : Nat) (g : List Elem → Word) (h : ∀ n es e, g es = f n es e) (hc : s.cur = some c) (he : c.empty = false)
    (hr : ready? s c [.v b] (.v d) false = none) :
    ∃ t, reduceOp cls d b g s = .next t ∧ effectIs (writeCells (consume s c [.v b]) c.blk d (crossResults s c [.v b] (f (ecount s c)))) t :=
  crossOp_form cls (fun _ es _ => g es) h hc he hr

end

/-- Settles O7: each instruction as the shared operation, its function of the active set in the words of the statement. -/
theorem crossLane : Obligations.CrossLane := by
  intro i a ops f s c hF hc he hr _
  unfold crossForm at hF
  split at hF <;> cases hF <;> dsimp only [exec]
  · exact crossOp_form 0x16 _ (fun _ _ _ => rfl) hc he hr
  · exact reduceOp_form 0x16 _ (fun _ es _ => foldElems_sum es) hc he hr
  · exact reduceOp_form 0x16 _ (fun _ es _ => foldElems_minS es) hc he hr
  · exact reduceOp_form 0x16 _ (fun _ es _ => foldElems_minN es) hc he hr
  · exact reduceOp_form 0x16 _ (fun _ es _ => foldElems_maxS es) hc he hr
  · exact reduceOp_form 0x16 _ (fun _ es _ => foldElems_maxN es) hc he hr
  · exact crossOp_form 0x16 _ (fun _ es _ => foldElems_sum _) hc he hr
  · exact reduceOp_form 0x16 _ (fun _ es _ => fredRoot_eq _ _ es) hc he hr

end Sys2Proof.Machine
end

section
/-!
PROOFS. The groups and lanes that operands are read for, each once (R31, R59, R94).
-/

namespace Sys2Proof.Machine

section
variable {s : State} {c : Cur}

/-- Operands are read for every active lane of every group that is there. -/
theorem readOps_lanes (s : State) (c : Cur) (ops : List Opd) :
    (readOps s c ops).map (fun x => (x.1, x.2.map (·.1))) = (liveGroups s c).map fun x => (x.1, lanesOf x.2.1) := by
  unfold readOps liveGroups
  rw [List.map_filterMap, List.map_filterMap]
  congr 1
  funext ⟨g, m⟩
  dsimp only
  split
  · rfl
  · cases s.grp? c.blk g with
    | none => rfl
    | some G => exact congrArg (fun ls => some (g, ls)) (List.ext_getElem (by simp) (by simp))

theorem readOps_groups (s : State) (c : Cur) (ops : List Opd) : (readOps s c ops).map (·.1) = (liveGroups s c).map (·.1) := by
  simpa [Function.comp_def] using congrArg (List.map (·.1)) (readOps_lanes s c ops)

theorem readOps_nodup (hs : c.sane) (ops : List Opd) : ((readOps s c ops).map (·.1)).Nodup := by
  rw [readOps_groups]
  exact liveGroups_nodup hs.2

theorem lanes_of_mem_readOps {ops : List Opd} {x : Nat × List (Nat × List VCell)} (h : x ∈ readOps s c ops) :
    ∃ m G, (x.1, m, G) ∈ liveGroups s c ∧ x.2.map (·.1) = lanesOf m := by
  have hx : (x.1, x.2.map (·.1)) ∈ (liveGroups s c).map fun x => (x.1, lanesOf x.2.1) :=
    readOps_lanes s c ops ▸ List.mem_map_of_mem (f := fun x : Nat × List (Nat × List VCell) => (x.1, x.2.map (·.1))) h
  obtain ⟨⟨g, m, G⟩, hG, he⟩ := List.mem_map.mp hx
  obtain ⟨rfl, hl⟩ := Prod.mk.inj he
  exact ⟨m, G, hG, hl.symm⟩

theorem tget?_readOps (hs : c.sane) (ops : List Opd) {g : Nat} {m : Lanes} {G : Group} (h : (g, m, G) ∈ liveGroups s c) :
    ∃ ls, tget? (readOps s c ops) g = some ls ∧ ls.map (·.1) = lanesOf m := by
  have hg : (g, lanesOf m) ∈ (readOps s c ops).map fun x => (x.1, x.2.map (·.1)) :=
    readOps_lanes s c ops ▸ List.mem_map_of_mem (f := fun x : Nat × Lanes × Group => (x.1, lanesOf x.2.1)) h
  obtain ⟨x, hx, he⟩ := List.mem_map.mp hg
  obtain ⟨rfl, hl⟩ := Prod.mk.inj he
  exact ⟨x.2, tget?_of_mem (readOps_nodup hs ops) hx, hl⟩

/-- A lane's operand words stand among those that are read. -/
theorem opsOf_eq_some {ops : List Opd} {g l : Nat} {xs : List Word} (h : s.opsOf c ops g l = some xs) :
    ∃ ls cells, tget? (readOps s c ops) g = some ls ∧ (l, cells) ∈ ls ∧ cells.map VCell.word = xs := by
  obtain ⟨cells, hcells, rfl⟩ := Option.map_eq_some_iff.mp h
  obtain ⟨ls, hls, hl⟩ := Option.bind_eq_some_iff.mp hcells
  exact ⟨ls, cells, hls, tget?_mem hl, rfl⟩

/-- Of the entries of a table laid out one after another, those of one key. -/
theorem filter_flatMap_key {β γ : Type} (mk : Nat → β → γ) (key : γ → Nat) (hk : ∀ g y, key (mk g y) = g) {T : Tab (List β)}
    (hn : (T.map (·.1)).Nodup) (g : Nat) :
    (T.flatMap fun x => x.2.map (mk x.1)).filter (fun e => key e == g) = ((tget? T g).getD []).map (mk g) := by
  induction T with
  | nil => rfl
  | cons x T ih =>
    obtain ⟨hx, hn⟩ := List.nodup_cons.mp hn
    rw [List.flatMap_cons, List.filter_append, ih hn, List.filter_map, tget?]
    by_cases h : x.1 = g
    · have hT : tget? T g = none := by
        cases hT : tget? T g with
        | none => rfl
        | some v => exact absurd (List.mem_map.mpr ⟨_, tget?_mem hT, h.symm⟩) hx
      subst h
      simp [Function.comp_def, hk, hT]
    · simp [Function.comp_def, hk, h]

/-- The elements of one group. -/
theorem elemsOf_filter (hs : c.sane) (ops : List Opd) (g : Nat) : (elemsOf s c ops).filter (fun e => e.g == g) =
    ((tget? (readOps s c ops) g).getD []).map fun y => ⟨eidx s c g y.1, g, y.1, y.2.map VCell.word⟩ :=
  filter_flatMap_key (fun g (y : Nat × List VCell) => (⟨eidx s c g y.1, g, y.1, y.2.map VCell.word⟩ : Elem)) Elem.g (fun _ _ => rfl)
    (readOps_nodup hs ops) g

end

end Sys2Proof.Machine
end

section
/-!
PROOFS. CF32 words (R92, R94, R245): a pair of registers written in each active lane, its tags (R101), and what stays.
-/

namespace Sys2Proof.Machine

/-! ### The pairs of one group -/

/-- A CF32 value written in registers a and a + 1 of a lane. -/
def Group.putCF (G : Group) (a l : Nat) (x : CF) : Group := (G.putWord a l x.s).putWord (a + 1) l x.c

theorem cell_putCF (G : Group) (a l q i : Nat) (x : CF) : (G.putCF a l x).cell q i =
    if q = a + 1 ∧ i = l then some (.val x.c) else if q = a ∧ i = l then some (.val x.s) else G.cell q i := by
  rw [Group.putCF, Group.putWord, cell_putCell, Group.putWord, cell_putCell]

theorem vtag_putCF (G : Group) (a q i : Nat) {l : Nat} (x : CF) (hl : l < 64) : (G.putCF a l x).vtag q i =
    (G.vtag q i && !(decide (q = a / 4 ∨ q = (a + 1) / 4) && decide (i = l))) := by
  rw [Group.putCF, Group.putWord, vtag_putCell _ _ _ _ _ _ hl, Group.putWord, vtag_putCell _ _ _ _ _ _ hl]
  by_cases hi : i = l
  · by_cases h0 : q = a / 4 <;> by_cases h1 : q = (a + 1) / 4 <;> simp [hi, h0, h1]
  · simp [hi]

/-- Writing the pairs of some lanes, each once. -/
theorem foldl_putCF (a : Nat) (xs : List (Nat × CF)) (hl : ∀ x ∈ xs, x.1 < 64) (hn : (xs.map (·.1)).Nodup) (G : Group) :
    let H := xs.foldl (fun G x => G.putCF a x.1 x.2) G
    H.noV = G.noV ∧ (∀ x ∈ xs, H.cell a x.1 = some (.val x.2.s) ∧ H.cell (a + 1) x.1 = some (.val x.2.c)) ∧
    (∀ q i, ¬((q = a ∨ q = a + 1) ∧ i ∈ xs.map (·.1)) → H.cell q i = G.cell q i) ∧
    (∀ q i, H.vtag q i = (G.vtag q i && !(decide (q = a / 4 ∨ q = (a + 1) / 4) && decide (i ∈ xs.map (·.1))))) := by
  induction xs generalizing G with
  | nil => simp
  | cons x xs ih =>
    obtain ⟨hx, hn⟩ := List.nodup_cons.mp hn
    obtain ⟨hrest, hin, hout, htag⟩ := ih (fun y hy => hl y (.tail _ hy)) hn (G.putCF a x.1 x.2)
    simp only [List.foldl_cons, List.map_cons, List.mem_cons] at *
    refine ⟨hrest, ?_, fun q i h => ?_, fun q i => ?_⟩
    · rintro y (rfl | hy)
      · rw [hout _ _ fun h => hx h.2, hout _ _ fun h => hx h.2, cell_putCF, cell_putCF]
        simp
      · exact hin y hy
    · rw [hout q i fun e => h ⟨e.1, .inr e.2⟩, cell_putCF, if_neg fun e => h ⟨.inr e.1, .inl e.2⟩, if_neg fun e => h ⟨.inl e.1, .inl e.2⟩]
    · rw [htag, vtag_putCF _ _ _ _ _ (hl x (.inl rfl)), Bool.and_assoc, ← Bool.not_or, ← Bool.and_or_distrib_left, ← Bool.decide_or]

/-! ### The pairs of the unit -/

/-- A group that is there after a change that keeps the groups was there before it. -/
theorem group_of_kept {f : Group → Group} {s t : State} (h : groupsKept f s t) {k : Nat} {G : Group} (hG : tget? t.groups k = some G) :
    ∃ K, tget? s.groups k = some K := by
  have hk := h k
  rw [hG, Option.map_some, eq_comm, Option.map_eq_some_iff] at hk
  exact hk.imp fun _ => And.left

/-- The results name groups of the unit once each: every group that is there and has an active lane, with those lanes. -/
structure perLane (s : State) (c : Cur) (res : List (Nat × List (Nat × CF))) : Prop where
  nodup : (res.map (·.1)).Nodup
  live : ∀ g m G, (g, m, G) ∈ liveGroups s c → g ∈ res.map (·.1)
  lanes : ∀ x ∈ res, ∃ m, (x.1, m) ∈ c.act ∧ ∀ G, s.grp? c.blk x.1 = some G → x.2.map (·.1) = lanesOf m

/-- CF32 values written in the pair at register a of the lanes that the results name. -/
def writePairs (u : State) (b a : Nat) (res : List (Nat × List (Nat × CF))) : State :=
  res.foldl (fun s x => s.modGroup b x.1 fun G => (x.2.foldl (fun G y => G.putCF a y.1 y.2) G).dirty [a, a + 1]) u

theorem writeRegs_two (u : State) (b : Nat) (a : BitVec 6) (res : List (Nat × List (Nat × CF))) :
    writeRegs u b a 2 (res.map fun x => (x.1, x.2.map fun y => (y.1, [y.2.s, y.2.c]))) = writePairs u b a.toNat res := by
  unfold writeRegs writePairs
  simp only [List.foldl_map]
  rfl

/-- Lane l of the group with key k is in the active set. -/
def activeAt (c : Cur) (k l : Nat) : Prop := ∃ g m, (g, m) ∈ c.act ∧ k = gkey c.blk g ∧ l ∈ lanesOf m

theorem any_act_iff (c : Cur) (k l : Nat) :
    (c.act.any fun x => k == gkey c.blk x.1 && (lanesOf x.2).contains l) = true ↔ activeAt c k l := by
  simp [activeAt, List.any_eq_true]

section
variable {s u t : State} {c : Cur} {a : Nat} {res : List (Nat × List (Nat × CF))}

/-- In a group that is there, the lanes of its result are its active ones. -/
theorem perLane.mem_lanes (h : perLane s c res) (hs : c.sane) {x : Nat × List (Nat × CF)} (hx : x ∈ res) {G : Group}
    (hG : s.grp? c.blk x.1 = some G) : ∃ m, x.2.map (·.1) = lanesOf m ∧ ∀ l, activeAt c (gkey c.blk x.1) l ↔ l ∈ x.2.map (·.1) := by
  obtain ⟨m, hm, hl⟩ := h.lanes x hx
  rw [hl G hG]
  refine ⟨m, rfl, fun l => ⟨?_, fun h => ⟨x.1, m, hm, rfl, h⟩⟩⟩
  rintro ⟨g, m', ha, hk, h⟩
  obtain rfl : g = x.1 := by
    unfold gkey at hk
    omega
  obtain rfl : m' = m := congrArg Prod.snd (List.inj_on_of_nodup_map hs.2 ha hm rfl)
  exact h

/-- One group after the pairs are written. -/
theorem writePairs_group (h : perLane s c res) (hs : c.sane) (hu : groupsKept Group.noV s u) (k : Nat) (G : Group) (hG : tget? u.groups k = some G) :
    ∃ H, tget? (writePairs u c.blk a res).groups k = some H ∧ H.noV = G.noV ∧
      (∀ r l, ¬((r = a ∨ r = a + 1) ∧ activeAt c k l) → H.cell r l = G.cell r l) ∧
      (∀ q l, H.vtag q l = (G.vtag q l && !(decide (q = a / 4 ∨ q = (a + 1) / 4) &&
        c.act.any fun x => k == gkey c.blk x.1 && (lanesOf x.2).contains l))) ∧
      ∀ x ∈ res, k = gkey c.blk x.1 → ∀ y ∈ x.2, H.cell a y.1 = some (.val y.2.s) ∧ H.cell (a + 1) y.1 = some (.val y.2.c) := by
  obtain ⟨-, hin, hout⟩ := foldl_each c.blk res h.nodup
    (fun _ ys G => (ys.foldl (fun G y => G.putCF a y.1 y.2) G).dirty [a, a + 1]) u
  obtain ⟨K, hK⟩ := group_of_kept hu hG
  by_cases hk : ∃ x ∈ res, k = gkey c.blk x.1
  · obtain ⟨x, hx, rfl⟩ := hk
    obtain ⟨m, hm, hact⟩ := h.mem_lanes hs hx hK
    obtain ⟨hrest, hput, hcell, htag⟩ := foldl_putCF a x.2
      (fun y hy => lanesOf_lt (m := m) (hm ▸ List.mem_map_of_mem hy)) (hm ▸ lanesOf_nodup m) G
    have hH : tget? (writePairs u c.blk a res).groups (gkey c.blk x.1) = some ((x.2.foldl (fun G y => G.putCF a y.1 y.2) G).dirty [a, a + 1]) :=
      (hin x hx).trans (by rw [hG]; rfl)
    refine ⟨_, hH, hrest, fun r l hn => hcell r l fun e => hn ⟨e.1, (hact l).mpr e.2⟩, fun q l => ?_, ?_⟩
    · refine (htag q l).trans ?_
      congr 3
      rw [Bool.eq_iff_iff, decide_eq_true_iff, any_act_iff, hact]
    · intro z hz hzk y hy
      obtain rfl : z = x := List.inj_on_of_nodup_map h.nodup hz hx (by unfold gkey at hzk; omega)
      exact hput y hy
  · have hno (l : Nat) : ¬activeAt c k l := by
      rintro ⟨g, m, ha, rfl, hl⟩
      have hm : m ≠ 0#64 := by
        rintro rfl
        simp [lanesOf] at hl
      obtain ⟨x, hx, rfl⟩ := List.mem_map.mp (h.live g m K (mem_liveGroups.mpr ⟨ha, hm, hK⟩))
      exact hk ⟨x, hx, rfl⟩
    refine ⟨G, (hout k fun x hx e => hk ⟨x, hx, e⟩).trans hG, rfl, fun _ _ _ => rfl, fun q l => ?_, fun x hx e => absurd ⟨x, hx, e⟩ hk⟩
    rw [Bool.eq_false_iff.mpr (mt (any_act_iff c k l).mp (hno l)), Bool.and_false, Bool.not_false, Bool.and_true]

/-- A group that is not there is not made. -/
theorem writePairs_noGroup (h : perLane s c res) {k : Nat} (hk : tget? u.groups k = none) : tget? (writePairs u c.blk a res).groups k = none := by
  obtain ⟨-, hin, hout⟩ := foldl_each c.blk res h.nodup
    (fun _ ys G => (ys.foldl (fun G y => G.putCF a y.1 y.2) G).dirty [a, a + 1]) u
  by_cases hx : ∃ x ∈ res, k = gkey c.blk x.1
  · obtain ⟨x, hx, rfl⟩ := hx
    exact (hin x hx).trans (by rw [hk]; rfl)
  · exact (hout k fun x hm e => hx ⟨x, hm, e⟩).trans hk

theorem writePairs_kept (h : perLane s c res) (hs : c.sane) (hu : groupsKept Group.noV s u) :
    outside u (writePairs u c.blk a res) ∧ groupsKept Group.noV u (writePairs u c.blk a res) := by
  refine ⟨foldl_outside _ _ (fun s x => outside_modGroup ..) _, fun k => ?_⟩
  cases hk : tget? u.groups k with
  | none => rw [writePairs_noGroup h hk]
  | some G =>
    obtain ⟨H, hH, hrest, -⟩ := writePairs_group (a := a) h hs hu k G hk
    rw [hH, Option.map_some, Option.map_some, hrest]

theorem writePairs_others {a : BitVec 6} (h : perLane s c res) (hs : c.sane) (hu : groupsKept Group.noV s u) :
    othersOfPair u (writePairs u c.blk a.toNat res) c a := by
  constructor
  · intro k r l hn
    have hn' : ¬((r = a.toNat ∨ r = a.toNat + 1) ∧ activeAt c k l) := hn
    cases hk : tget? u.groups k with
    | none => rw [State.cellAt, State.cellAt, writePairs_noGroup h hk, hk]
    | some G =>
      obtain ⟨H, hH, -, hcell, -⟩ := writePairs_group (a := a.toNat) h hs hu k G hk
      rw [State.cellAt, State.cellAt, hH, hk]
      exact hcell r l hn'
  · intro k q l
    cases hk : tget? u.groups k with
    | none =>
      rw [State.tagAt, State.tagAt, writePairs_noGroup h hk, hk]
      rfl
    | some G =>
      obtain ⟨H, hH, -, -, htag, -⟩ := writePairs_group (a := a.toNat) h hs hu k G hk
      rw [State.tagAt, State.tagAt, hH, hk]
      exact htag q l

theorem writePairs_cell (h : perLane s c res) (hs : c.sane) (hu : groupsKept Group.noV s u) {g l : Nat} {G : Group} (hG : s.grp? c.blk g = some G)
    {ys : List (Nat × CF)} {r : CF} (hg : (g, ys) ∈ res) (hl : (l, r) ∈ ys) :
    (writePairs u c.blk a res).cellAt (gkey c.blk g) a l = some (.val r.s) ∧
      (writePairs u c.blk a res).cellAt (gkey c.blk g) (a + 1) l = some (.val r.c) := by
  obtain ⟨K, hK⟩ := group_of_kept (fun k => (hu k).symm) hG
  obtain ⟨H, hH, -, -, -, hput⟩ := writePairs_group (a := a) h hs hu _ K hK
  rw [State.cellAt, State.cellAt, hH]
  exact hput _ hg rfl _ hl

end

theorem othersOfPair_noPos {u v t : State} {c : Cur} {a : BitVec 6} (h : othersOfPair u v c a) (ht : groupsKept Group.noPos v t) :
    othersOfPair u t c a :=
  ⟨fun k r l hn => (cellAt_noPos ht k r l).trans (h.1 k r l hn), fun k q l => (tagAt_noPos ht k q l).trans (h.2 k q l)⟩

section
variable {s : State} {c : Cur} {ops : List Opd} {res : List (Nat × List (Nat × CF))}

/-- A word that takes its operands and writes a pair in each active lane. -/
theorem pairs_done (cls : Nat) (a : BitVec 6) (h : perLane s c res) (hs : c.sane) :
    ∃ t, done cls .lane (writeRegs (consume s c ops) c.blk a 2 (res.map fun x => (x.1, x.2.map fun y => (y.1, [y.2.s, y.2.c])))) = .next t ∧
      t.cur = none ∧ outside (consume s c ops) t ∧ groupsKept Group.noV (consume s c ops) t ∧ othersOfPair (consume s c ops) t c a ∧
      ∀ g ys l r G, (g, ys) ∈ res → (l, r) ∈ ys → s.grp? c.blk g = some G →
        t.cellAt (gkey c.blk g) a.toNat l = some (.val r.s) ∧ t.cellAt (gkey c.blk g) (a.toNat + 1) l = some (.val r.c) := by
  have hu := groupsKept_consume s c ops
  obtain ⟨hout, hkept⟩ := writePairs_kept (a := a.toNat) h hs hu
  obtain ⟨t, ht, hcur, hout', hpos⟩ := done_effect cls .lane (writePairs (consume s c ops) c.blk a.toNat res)
  rw [writeRegs_two]
  refine ⟨t, ht, hcur, outside_trans hout hout', ?_, othersOfPair_noPos (writePairs_others h hs hu) hpos, fun g ys l r G hg hl hG => ?_⟩
  · exact groupsKept_trans hkept (groupsKept_map (f := Group.noPos) (fun G => { G with v := [], vt := [], vl := [], vDirty := [] }) hpos)
  · rw [cellAt_noPos hpos, cellAt_noPos hpos]
    exact writePairs_cell h hs hu hG hg hl

/-! ### cfadd -/

/-- A value for each lane that operands are read for. -/
def laneValues (s : State) (c : Cur) (ops : List Opd) (f : List Word → CF) : List (Nat × List (Nat × CF)) :=
  (readOps s c ops).map fun x => (x.1, x.2.map fun y => (y.1, f (y.2.map VCell.word)))

theorem perLane_laneValues (hs : c.sane) (f : List Word → CF) : perLane s c (laneValues s c ops f) := by
  have hkeys : (laneValues s c ops f).map (·.1) = (readOps s c ops).map (·.1) := by
    rw [laneValues, List.map_map]
    rfl
  refine ⟨hkeys ▸ readOps_nodup hs ops, fun g m G h => ?_, fun x hx => ?_⟩
  · rw [hkeys, readOps_groups]
    exact List.mem_map_of_mem (f := (·.1)) h
  · obtain ⟨y, hy, rfl⟩ := List.mem_map.mp hx
    obtain ⟨m, G, hG, hl⟩ := lanes_of_mem_readOps hy
    refine ⟨m, (mem_liveGroups.mp hG).1, fun _ _ => ?_⟩
    rw [← hl, List.map_map]
    rfl

/-- A word whose result is a CF32 value of each lane's own words. -/
theorem laneOpK_pairs (cls : Nat) (a : BitVec 6) (f : List Word → CF) (hc : s.cur = some c) (he : c.empty = false)
    (hr : ready? s c ops (.r a 2) false = none) :
    laneOpK cls a 2 ops (fun _ _ xs => [(f xs).s, (f xs).c]) s = done cls .lane (writeRegs (consume s c ops) c.blk a 2
      ((laneValues s c ops f).map fun x => (x.1, x.2.map fun y => (y.1, [y.2.s, y.2.c])))) := by
  unfold laneOpK laneValues
  rw [hc, List.map_map]
  simp only [he, hr, Bool.false_eq_true, if_false]
  congr 2
  refine List.map_congr_left fun x hx => ?_
  obtain ⟨G, hG⟩ := mem_readOps hx
  simp [hG]

theorem mem_laneValues (f : List Word → CF) {g l : Nat} {xs : List Word} (h : s.opsOf c ops g l = some xs) :
    ∃ ys, (g, ys) ∈ laneValues s c ops f ∧ (l, f xs) ∈ ys := by
  obtain ⟨ls, cells, hls, hl, rfl⟩ := opsOf_eq_some h
  exact ⟨_, List.mem_map_of_mem (tget?_mem hls), List.mem_map_of_mem (f := fun y : Nat × List VCell => (y.1, f (y.2.map VCell.word))) hl⟩

/-- A lane whose operands are read is in a group that is there. -/
theorem grp?_of_opsOf {g l : Nat} {xs : List Word} (h : s.opsOf c ops g l = some xs) : ∃ G, s.grp? c.blk g = some G := by
  obtain ⟨ls, cells, hls, -⟩ := opsOf_eq_some h
  exact mem_readOps (tget?_mem hls)

/-- CfAdd of the pair in the first two words and the value in the third. -/
def cfAddOf (xs : List Word) : CF := cfAdd ⟨w0 xs, w1 xs⟩ (w2 xs)

theorem exec_cfadd_pairs (e : Scope) (a : BitVec 6) (b : RSrc) (v : VSrc) :
    exec (.cfadd e a b v) s = laneOpK 0x1D a 2 [.r b 2, .v v] (fun _ _ xs => [(cfAddOf xs).s, (cfAddOf xs).c]) s := rfl

theorem cfAddWord : CfAddWord := by
  intro e a b v s c hc hs he hr
  obtain ⟨t, ht, hcur, hout, hkept, hothers, hcell⟩ := pairs_done (ops := [.r b 2, .v v]) 0x1D a (perLane_laneValues hs cfAddOf) hs
  have hexec : exec (.cfadd e a b v) s = .next t := (exec_cfadd_pairs ..).trans ((laneOpK_pairs 0x1D a cfAddOf hc he hr).trans ht)
  refine ⟨t, hexec, hcur, hout, hkept, fun g l x y z hx => ?_, hothers⟩
  obtain ⟨G, hG⟩ := grp?_of_opsOf hx
  obtain ⟨ys, hg, hy⟩ := mem_laneValues cfAddOf hx
  exact hcell g ys l _ G hg hy hG

/-! ### cfred -/

/-- The same value for each active element. -/
def unitValue (s : State) (c : Cur) (ops : List Opd) (r : CF) : List (Nat × List (Nat × CF)) :=
  c.live.map fun g => (g, ((elemsOf s c ops).filter fun e => e.g == g).map fun e => (e.l, r))

theorem unitValue_eq (hs : c.sane) (r : CF) :
    unitValue s c ops r = c.live.map fun g => (g, ((tget? (readOps s c ops) g).getD []).map fun y => (y.1, r)) := by
  unfold unitValue
  simp only [elemsOf_filter hs, List.map_map]
  rfl

theorem mem_live {g : Nat} : g ∈ c.live ↔ ∃ m, (g, m) ∈ c.act ∧ m ≠ 0#64 := by simp [Cur.live]

theorem perLane_unitValue (hs : c.sane) (r : CF) : perLane s c (unitValue s c ops r) := by
  rw [unitValue_eq hs]
  have hkeys : (c.live.map fun g => (g, ((tget? (readOps s c ops) g).getD []).map fun y => (y.1, r))).map (·.1) = c.live := by simp [Function.comp_def]
  refine ⟨?_, fun g m G h => ?_, fun x hx => ?_⟩
  · rw [hkeys]
    exact hs.2.sublist (List.filter_sublist.map _)
  · rw [hkeys, mem_live]
    obtain ⟨ha, hm, -⟩ := mem_liveGroups.mp h
    exact ⟨m, ha, hm⟩
  · obtain ⟨g, hg, rfl⟩ := List.mem_map.mp hx
    obtain ⟨m, ha, hm⟩ := mem_live.mp hg
    refine ⟨m, ha, fun G hG => ?_⟩
    obtain ⟨ls, hls, hl⟩ := tget?_readOps hs ops (mem_liveGroups.mpr ⟨ha, hm, hG⟩)
    rw [hls, ← hl, List.map_map]
    rfl

theorem mem_unitValue (hs : c.sane) (r : CF) {g l : Nat} {xs : List Word} (h : s.opsOf c ops g l = some xs) :
    ∃ ys, (g, ys) ∈ unitValue s c ops r ∧ (l, r) ∈ ys := by
  obtain ⟨ls, cells, hls, hl, -⟩ := opsOf_eq_some h
  obtain ⟨m, G, hG, -⟩ := lanes_of_mem_readOps (tget?_mem hls)
  obtain ⟨ha, hm, -⟩ := mem_liveGroups.mp hG
  rw [unitValue_eq hs]
  refine ⟨_, List.mem_map_of_mem (mem_live.mpr ⟨m, ha, hm⟩), ?_⟩
  rw [hls]
  exact List.mem_map_of_mem (f := fun y : Nat × List VCell => (y.1, r)) hl

/-- CfMerge over the fixed tree of some elements (R94). -/
def cfTree (es : List Elem) : CF :=
  (treeNode cfMerge (fun k => (es.find? fun x => x.i == k).map fun x => CF.mk (x.xs.getD 0 0) (x.xs.getD 1 0)) 11 0).getD ⟨0, 0⟩

theorem treeRoot_cfMerge (es : List Elem) :
    (treeRoot cfMerge 11 (leaves (leafCount es) (es.map fun e => (e.i, CF.mk (w0 e.xs) (w1 e.xs))))).getD ⟨0#32, 0#32⟩ = cfTree es := by
  rw [treeRoot_leaves]
  rfl

theorem execCfred_eq (e : Scope) (a : BitVec 6) (b : RSrc) (hc : s.cur = some c) (he : c.empty = false)
    (hr : ready? s c [.r b 2] (.r a 2) false = none) :
    execCfred e a b s = done 0x16 .lane (writeRegs (consume s c [.r b 2]) c.blk a 2
      ((unitValue s c [.r b 2] (cfTree (elemsOf s c [.r b 2]))).map fun x => (x.1, x.2.map fun y => (y.1, [y.2.s, y.2.c])))) := by
  have hroot := treeRoot_cfMerge (elemsOf s c [.r b 2])
  unfold leafCount at hroot
  unfold execCfred unitValue
  rw [hc]
  simp only [he, hr, Bool.false_eq_true, if_false, hroot, List.map_map, Function.comp_def]

theorem cfRedWord : CfRedWord := by
  intro e a b s c hc hs he hr _
  obtain ⟨t, ht, hcur, hout, hkept, hothers, hcell⟩ := pairs_done (ops := [.r b 2]) 0x16 a (perLane_unitValue hs (cfTree (elemsOf s c [.r b 2]))) hs
  refine ⟨t, (execCfred_eq e a b hc he hr).trans ht, hcur, hout, hkept, hothers, fun g l xs hx => ?_⟩
  obtain ⟨G, hG⟩ := grp?_of_opsOf hx
  obtain ⟨ys, hg, hy⟩ := mem_unitValue hs (cfTree (elemsOf s c [.r b 2])) hx
  exact hcell g ys l _ G hg hy hG

end

/-- Settles O9: both words write a pair in each active lane (`pairs_done`), `cfadd` the lane's own value, `cfred` the tree's. -/
theorem compensatedFloat : Obligations.CompensatedFloat := ⟨cfAddWord, cfRedWord⟩

end Sys2Proof.Machine
end

section
/-!
PROOFS. Which parts of the state its canonical form speaks of (R100, R126, R136): what writes no storage keeps it. Charges, faults, the ends of
lanes, and translation.
-/

namespace Sys2Proof.Machine

/-! ### The storages -/

/-- The canonical form of HBM, the weight stores and the scratchpads, by themselves. -/
def storagesWf (m : Ram) (ds : Tab Die) (bs : Tab Block) : Bool :=
  m.wf && ds.all (fun d => cellsWf d.2.ws) && bs.all (fun b => b.2.spm.wf)

/-- An update of a state's other parts leaves its form. -/
@[simp] theorem Memory.wf_mk {agenda free nextId cur reft ready boot trust energy dies cores retired mem worlds ctxs launches grids
    blocks groups ops orphans tops parks revs invals wscopies vacs funcs ifaces rings rr msgs dropped fqs latch reply discards ckpts views
    viewJob sandbox} :
    Memory.wf ⟨agenda, free, nextId, cur, reft, ready, boot, trust, energy, dies, cores, retired, mem, worlds, ctxs, launches, grids,
      blocks, groups, ops, orphans, tops, parks, revs, invals, wscopies, vacs, funcs, ifaces, rings, rr, msgs, dropped, fqs, latch, reply,
      discards, ckpts, views, viewJob, sandbox⟩ = storagesWf mem.hbm dies blocks := rfl

@[simp] theorem storagesWf_self (s : State) : storagesWf s.mem.hbm s.dies s.blocks = Memory.wf s := rfl

variable {s : State}

@[simp] theorem Memory.wf_ite {p : Prop} [Decidable p] {a b : State} (ha : Memory.wf a = true) (hb : Memory.wf b = true) :
    Memory.wf (if p then a else b) = true := by
  split
  · exact ha
  · exact hb

@[simp] theorem State.fresh_eq : s.fresh = (s.nextId, { s with nextId := s.nextId + 1 }) := rfl
@[simp] theorem State.draw_eq : s.draw = (Config.freeNat s.free, { s with free := s.free + 1 }) := rfl
@[simp] theorem State.drawRandom_eq : s.drawRandom = (Config.random s.free, { s with free := s.free + 1 }) := rfl

@[simp] theorem Memory.wf_setCore (c : Nat) (x : Core) (hs : Memory.wf s = true) : Memory.wf (State.setCore s c x) = true := by
  simp [State.setCore, hs]

@[simp] theorem Memory.wf_modCore (c : Nat) (f : Core → Core) (hs : Memory.wf s = true) : Memory.wf (State.modCore s c f) = true := by
  simp [State.modCore, hs]

@[simp] theorem Memory.wf_modFunc (f : Nat) (g : Func → Func) (hs : Memory.wf s = true) : Memory.wf (State.modFunc s f g) = true := by
  simp [State.modFunc, hs]

@[simp] theorem Memory.wf_modIface (n : Nat) (g : Iface → Iface) (hs : Memory.wf s = true) : Memory.wf (State.modIface s n g) = true := by
  simp [State.modIface, hs]

@[simp] theorem Memory.wf_modRing (n : Nat) (g : Ring → Ring) (hs : Memory.wf s = true) : Memory.wf (State.modRing s n g) = true := by
  simp [State.modRing, hs]

@[simp] theorem Memory.wf_modCtx (p : Nat) (f : Ctx → Ctx) (hs : Memory.wf s = true) : Memory.wf (State.modCtx s p f) = true := by
  simp [State.modCtx, hs]

@[simp] theorem Memory.wf_modWorld (w : Nat) (f : World → World) (hs : Memory.wf s = true) : Memory.wf (State.modWorld s w f) = true := by
  simp [State.modWorld, hs]

@[simp] theorem Memory.wf_modOp (o : Nat) (f : Op → Op) (hs : Memory.wf s = true) : Memory.wf (State.modOp s o f) = true := by
  simp [State.modOp, hs]

@[simp] theorem Memory.wf_modLaunch (l : Nat) (f : Launch → Launch) (hs : Memory.wf s = true) :
    Memory.wf (State.modLaunch s l f) = true := by simp [State.modLaunch, hs]

@[simp] theorem Memory.wf_modGrid (g : Nat) (f : Grid → Grid) (hs : Memory.wf s = true) : Memory.wf (State.modGrid s g f) = true := by
  simp [State.modGrid, hs]

@[simp] theorem Memory.wf_modPark (h : Nat) (f : Park → Park) (hs : Memory.wf s = true) : Memory.wf (State.modPark s h f) = true := by
  simp [State.modPark, hs]

@[simp] theorem Memory.wf_modGroup (b g : Nat) (f : Group → Group) (hs : Memory.wf s = true) :
    Memory.wf (State.modGroup s b g f) = true := by simp [State.modGroup, hs]

@[simp] theorem Memory.wf_raiseCtr (b g : Nat) (ls : List Nat) (k : CK) (hs : Memory.wf s = true) :
    Memory.wf (raiseCtr s b g ls k) = true := by simp [raiseCtr, hs]

@[simp] theorem Memory.wf_lowerCtr (b g : Nat) (ls : List Nat) (k : CK) (hs : Memory.wf s = true) :
    Memory.wf (lowerCtr s b g ls k) = true := by simp [lowerCtr, hs]

@[simp] theorem Memory.wf_modIssuer (r : IRef) (f : Issuer → Issuer) (hs : Memory.wf s = true) :
    Memory.wf (State.modIssuer s r f) = true := by simp [State.modIssuer, hs]

@[simp] theorem Memory.wf_bumpRc (b n : Nat) (hs : Memory.wf s = true) : Memory.wf (bumpRc s b n) = true := by
  simp [bumpRc, hs, Memory.wf_modBlock]

@[simp] theorem Memory.wf_retire (hs : Memory.wf s = true) : Memory.wf (retire s) = true := by
  grind [retire, Memory.wf_modIssuer, Memory.wf_bumpRc, Memory.wf_mk, storagesWf_self, Memory.wf_foldl]

@[simp] theorem Memory.wf_block (w : Wait) (hs : Memory.wf s = true) : Memory.wf (block w s) = true := by
  unfold block
  dsimp only
  repeat' split
  all_goals simp +contextual [hs, Memory.wf_foldl]

@[simp] theorem Memory.wf_adjust (acct launch : Nat) (amt : Int) (hs : Memory.wf s = true) :
    Memory.wf (adjust s acct launch amt) = true := by
  grind [adjust, Memory.wf_modCtx, Memory.wf_modWorld, Memory.wf_modLaunch, Memory.wf_mk, storagesWf_self]

@[simp] theorem Memory.wf_adjustOver (dom : Nat) (amt : Int) (hs : Memory.wf s = true) : Memory.wf (adjustOver s dom amt) = true := by
  simp [adjustOver, hs, Memory.wf_modDie]

@[simp] theorem Memory.wf_applyCharge (c : Charge) (hs : Memory.wf s = true) : Memory.wf (applyCharge s c) = true := by
  unfold applyCharge
  repeat' split
  all_goals simp [hs]

@[simp] theorem Memory.wf_charge (die cls n : Nat) (acct : Option Nat) (launch : Nat) (hs : Memory.wf s = true) :
    Memory.wf (charge s die cls n acct launch) = true := by simp [charge, hs]

@[simp] theorem Memory.wf_chargeFar (die cls n stack : Nat) (acct : Option Nat) (launch : Nat) (hs : Memory.wf s = true) :
    Memory.wf (chargeFar s die cls n stack acct launch) = true := by simp [chargeFar, hs]

@[simp] theorem Memory.wf_chargeWord (cls : Nat) (per : Per) (hs : Memory.wf s = true) : Memory.wf (chargeWord cls per s) = true := by
  unfold chargeWord
  dsimp only
  repeat' split
  all_goals simp [hs]

/-- What a die's weight store is does not depend on its clock. -/
theorem Die.relocked_ws (d : Die) (die now : Nat) : (d.relocked die now).ws = d.ws := by
  unfold Die.relocked
  repeat' split
  all_goals rfl

/-- Entries whose weight stores are those of entries, or of a reset die, keep a table of dies in canonical form. -/
theorem diesWf_tset {ds : Tab Die} {d : Nat} {x : Die} (h : ∀ y ∈ ds, cellsWf y.2.ws = true) (hx : x.ws = (tgetD ds d Die.reset).ws) :
    ∀ y ∈ tset ds d x, cellsWf y.2.ws = true := by
  intro y hy
  rcases mem_tset hy with rfl | hy
  · rw [hx]
    unfold tgetD
    cases e : tget? ds d with
    | none => rfl
    | some D => exact h _ (tget?_mem e)
  · exact h y hy

theorem diesWf_foldl {l : List Nat} {f : Tab Die → Nat → Die} (hf : ∀ ds d, (f ds d).ws = (tgetD ds d Die.reset).ws) {ds : Tab Die}
    (h : ∀ y ∈ ds, cellsWf y.2.ws = true) : ∀ y ∈ l.foldl (fun t d => tset t d (f t d)) ds, cellsWf y.2.ws = true := by
  induction l generalizing ds with
  | nil => exact h
  | cons d r ih => exact ih (diesWf_tset h (hf ds d))

@[simp] theorem Memory.wf_elapse (ns : Nat) (hs : Memory.wf s = true) : Memory.wf (elapse s ns) = true := by
  obtain ⟨hm, hd, hb⟩ := Memory.wf_iff.mp hs
  unfold elapse
  rw [Memory.wf_iff]
  refine ⟨hm, ?_, hb⟩
  dsimp only
  refine diesWf_foldl ?_ hd
  intro ds d
  exact Die.relocked_ws ..

@[simp] theorem Memory.wf_toRing (ring : Nat) (recs : List (BitVec 512)) (hs : Memory.wf s = true) :
    Memory.wf (toRing s ring recs) = true := by simp [toRing, hs]

@[simp] theorem Memory.wf_deliver (b h : Nat) (p : Park) (hs : Memory.wf s = true) : Memory.wf (deliver s b h p) = true := by
  unfold deliver
  split <;> simp [hs]

@[simp] theorem Memory.wf_parkMany (b g : Nat) (ks : List (Nat × Lanes)) (code data : Nat) (late : Option Late) (headless : Bool) (hs : Memory.wf s = true) :
    Memory.wf (parkMany s b g ks code data late headless) = true := by
  unfold parkMany
  split <;> simp [hs]

@[simp] theorem Memory.wf_parkLanes (r : IRef) (m : Lanes) (code data : Nat) (late : Option Late) (headless : Bool) (hs : Memory.wf s = true) :
    Memory.wf (parkLanes s r m code data late headless) = true := by simp [parkLanes, hs]

@[simp] theorem Memory.wf_suspendUnit (b : Nat) (gs : List Nat) (e : Scope) (code : Nat) (rs : List FaultRec) (hs : Memory.wf s = true) :
    Memory.wf (suspendUnit s b gs e code rs) = true := by
  grind [suspendUnit, Memory.wf_modGroup, Memory.wf_deliver, State.fresh, Memory.wf_mk, storagesWf_self, Memory.wf_foldl]

@[simp] theorem Memory.wf_chargeFault (els : List (Nat × Nat)) (hs : Memory.wf s = true) : Memory.wf (chargeFault els s) = true := by
  unfold chargeFault
  repeat' split
  all_goals simp [hs]

@[simp] theorem Memory.wf_wideFault (c : Cur) (fs : List LFault) (time : Option Nat) (hs : Memory.wf s = true) :
    Memory.wf (wideFault s c fs time) = true := by
  unfold wideFault
  split
  · exact hs
  · exact Memory.wf_of_eq (Memory.wf_suspendUnit _ _ _ _ _ (Memory.wf_foldl _ _ (fun _ _ h => Memory.wf_modIssuer _ _ h) _ hs)) rfl rfl rfl

@[simp] theorem Memory.wf_raiseFault (fs : List LFault) (hs : Memory.wf s = true) : Memory.wf (raiseFault fs s) = true := by
  unfold raiseFault
  dsimp only
  repeat' split
  all_goals simp +contextual [hs, Memory.wf_foldl]

@[simp] theorem Memory.wf_dropReq (op lane : Nat) (hs : Memory.wf s = true) : Memory.wf (dropReq s op lane) = true := by
  unfold dropReq
  split <;> simp [hs]

@[simp] theorem Memory.wf_chargeSymr (b n : Nat) (hs : Memory.wf s = true) : Memory.wf (chargeSymr s b n) = true := by simp [chargeSymr, hs]

@[simp] theorem Memory.wf_zeroReq (op lane : Nat) (hs : Memory.wf s = true) : Memory.wf (zeroReq s op lane) = true := by
  grind [zeroReq, Memory.wf_chargeSymr, Memory.wf_modGroup, Memory.wf_dropReq, Memory.wf_mk, storagesWf_self, Memory.wf_foldl]

@[simp] theorem Memory.wf_faultWaiting (r : IRef) (code : Nat) (hit : Nat → Bool) (hs : Memory.wf s = true) :
    Memory.wf (faultWaiting s r code hit) = true := by
  unfold faultWaiting
  repeat' split
  all_goals simp [hs]

@[simp] theorem Memory.wf_chanPeerGone (peer : Nat) (off : Option Nat) (hs : Memory.wf s = true) :
    Memory.wf (chanPeerGone s peer off) = true := by
  unfold chanPeerGone
  refine Memory.wf_foldl _ _ (fun s x hs => ?_) _ hs
  dsimp only
  split
  · exact hs
  · refine Memory.wf_foldl _ _ (fun s iss hs => ?_) _ hs
    repeat' split
    all_goals simp [hs]

@[simp] theorem Memory.wf_endGroup (b g : Nat) (hs : Memory.wf s = true) : Memory.wf (endGroup s b g) = true := by
  unfold endGroup
  dsimp only
  repeat' split
  all_goals simp +contextual [hs, Memory.wf_foldl]

@[simp] theorem Memory.wf_reportExited (b g : Nat) (m : Lanes) (hs : Memory.wf s = true) : Memory.wf (reportExited s b g m) = true := by
  grind [reportExited, Memory.wf_lowerCtr, Memory.wf_dropReq, Memory.wf_deliver, State.fresh, Memory.wf_mk, storagesWf_self,
    Memory.wf_foldl]

@[simp] theorem Memory.wf_exitLanes (b g : Nat) (m : Lanes) (hs : Memory.wf s = true) : Memory.wf (exitLanes s b g m) = true := by
  grind [exitLanes, Memory.wf_modGroup, Memory.wf_reportExited, Memory.wf_endGroup, Memory.wf_modBlock, Memory.wf_chanPeerGone,
    Memory.wf_mk, storagesWf_self]

@[simp] theorem Memory.wf_resumeLanes (b g : Nat) (ls : List (Nat × Issuer)) (f : Issuer → Issuer) (hs : Memory.wf s = true) :
    Memory.wf (resumeLanes s b g ls f) = true := by simp [resumeLanes, hs]

/-- Groups hold no storage. -/
@[simp] theorem Memory.wf_modGroups (gs : List Nat) (b : Nat) (f : Nat → Group → Group) (hs : Memory.wf s = true) :
    Memory.wf (gs.foldl (fun s g => s.modGroup b g (f g)) s) = true := Memory.wf_foldl _ _ (fun _ _ h => Memory.wf_modGroup _ _ _ h) _ hs

@[simp] theorem Memory.wf_applyDispo (h : Nat) (w : DWord) (hs : Memory.wf s = true) : Memory.wf (applyDispo s h w) = true := by
  unfold applyDispo
  split
  · exact hs
  · dsimp only
    split
    · grind [Memory.wf_exitLanes, Memory.wf_resumeLanes, Memory.wf_mk, storagesWf_self, Memory.wf_foldl, Memory.wf_zeroReq,
          Memory.wf_raiseCtr, Memory.wf_modOp]
    · repeat' refine Memory.wf_ite ?_ ?_
      · refine Memory.wf_foldl _ _ (fun s g hs => ?_) _ (by simp [hs])
        split <;> simp [hs]
      all_goals simp [hs]
    · simp [hs]

@[simp] theorem Memory.wf_cutImages (h n : Nat) (hs : Memory.wf s = true) : Memory.wf (cutImages s h n) = true := by simp [cutImages, hs]

@[simp] theorem Memory.wf_noteTable (h n : Nat) (f : Nat × Func) (hs : Memory.wf s = true) : Memory.wf (noteTable h n s f) = true := by
  grind [noteTable, Memory.wf_noteEntry, Memory.wf_mk, storagesWf_self, Memory.wf_foldl]

@[simp] theorem Memory.wf_setSpan (k : Nat) (x : SpanSt) (hs : Memory.wf s = true) : Memory.wf (setSpan s k x) = true := by
  simp [setSpan, hs]

@[simp] theorem Memory.wf_noteMap (func g h : Nat) (hs : Memory.wf s = true) : Memory.wf (noteMap s func g h) = true := by
  simp [noteMap, hs]

@[simp] theorem Memory.wf_tlbFill (die : Nat) (c : Ctx) (pasid : Nat) (k : Cap) (x h : Nat) (w : Bool) (hs : Memory.wf s = true) :
    Memory.wf (tlbFill s die c pasid k x h w) = true := by
  unfold tlbFill
  split <;> simp [hs, Memory.wf_modDie]

@[simp] theorem Memory.wf_noteMoving (pasid : Nat) (k : Cap) (x n : Nat) (write : Bool) (hs : Memory.wf s = true) :
    Memory.wf (noteMoving s pasid k x n write) = true := by
  grind [noteMoving, Memory.wf_setSpan, Memory.wf_mk, storagesWf_self, Memory.wf_foldl]

@[simp] theorem Memory.wf_parkLate (b : Nat) (ws : List (Nat × Nat × Nat)) (hs : Memory.wf s = true) :
    Memory.wf (parkLate s b ws) = true := by
  grind [parkLate, Memory.wf_parkMany, Memory.wf_lowerCtr, Memory.wf_mk, storagesWf_self, Memory.wf_foldl]

@[simp] theorem Memory.wf_closeAt (rs : List IRef) (hs : Memory.wf s = true) : Memory.wf (closeAt s rs) = true :=
  Memory.wf_foldl _ _ (fun _ _ h => Memory.wf_modIssuer _ _ h) _ hs

end Sys2Proof.Machine
end

section
/-!
PROOFS. What keeps the canonical form of memory: faults and interrupts, code fetches, L1 and the LLC, write-combining lines, and memory
accesses by what they are translated to (R100, R126, R139, R140, R207).
-/

namespace Sys2Proof.Machine

variable {s : State}

@[simp] theorem Memory.wf_beginSave (b : Nat) (hs : Memory.wf s = true) : Memory.wf (beginSave s b) = true := by
  grind [beginSave, Memory.wf_modBlock, Memory.wf_mk, storagesWf_self, Memory.wf_foldl]

@[simp] theorem Memory.wf_stopCtx (pasid : Nat) (hs : Memory.wf s = true) : Memory.wf (stopCtx s pasid) = true := by
  unfold stopCtx
  simp +contextual [hs, Memory.wf_foldl]

@[simp] theorem Memory.wf_integrity (kind unit core : Nat) (pasid : Option Nat) (addr : Nat) (hs : Memory.wf s = true) :
    Memory.wf (integrity s kind unit core pasid addr) = true := by
  unfold integrity
  split <;> simp [hs]

@[simp] theorem Memory.wf_lineEvent (l pasid : Nat) (hs : Memory.wf s = true) : Memory.wf (lineEvent s l pasid) = true := by
  simp [lineEvent, hs]

@[simp] theorem Memory.wf_refreshL1 (core : Nat) (ws : List Nat) (hs : Memory.wf s = true) : Memory.wf (refreshL1 s core ws) = true := by
  simp [refreshL1, hs]

@[simp] theorem Memory.wf_acquireCore (core : Nat) (hs : Memory.wf s = true) : Memory.wf (acquireCore s core) = true := by
  simp [acquireCore, hs]

/-! ### Translation and code fetches -/

theorem Memory.wf_translateGo (die : Nat) (c : Ctx) (pasid : Nat) (k : Cap) (write cached : Bool) (fuel x n : Nat) (far : Option Nat)
    (acc : List (Nat × Nat × Nat)) (hs : Memory.wf s = true) :
    Memory.wf (translateGo die c pasid k write cached fuel x n far acc s).state = true := by
  induction fuel generalizing x n far acc s with
  | zero => cases far <;> exact hs
  | succ fuel ih =>
    unfold translateGo
    split
    · cases far <;> exact hs
    · split
      · exact hs
      · exact ih _ _ _ _ hs
      · split
        · exact hs
        · next e => exact ih _ _ _ _ (Memory.wf_tlbFill _ _ _ _ _ _ _ (Memory.wf_claimFrame _ _ hs e))

theorem Memory.wf_translate (die pasid : Nat) (k : Cap) (x n : Nat) (write cached : Bool) (hs : Memory.wf s = true) :
    Memory.wf (translate s die pasid k x n write cached).state = true := by
  unfold translate
  split
  · exact hs
  · split
    · exact hs
    · exact Memory.wf_translateGo _ _ _ _ _ _ _ _ _ _ _ hs

theorem Memory.wf_translate_ok {t : State} {ps : List (Nat × Nat × Nat)} {die pasid : Nat} {k : Cap} {x n : Nat} {write cached : Bool}
    (e : translate s die pasid k x n write cached = .ok ps t) (hs : Memory.wf s = true) : Memory.wf t = true := by
  have h := Memory.wf_translate die pasid k x n write cached hs
  rwa [e] at h

theorem Memory.wf_translate_remote {t : State} {p : Nat} {ps : List (Nat × Nat × Nat)} {die pasid : Nat} {k : Cap} {x n : Nat}
    {write cached : Bool} (e : translate s die pasid k x n write cached = .remote p ps t) (hs : Memory.wf s = true) : Memory.wf t = true := by
  have h := Memory.wf_translate die pasid k x n write cached hs
  rwa [e] at h

theorem Memory.wf_translate_fault {t : State} {code : Nat} {die pasid : Nat} {k : Cap} {x n : Nat} {write cached : Bool}
    (e : translate s die pasid k x n write cached = .fault code t) (hs : Memory.wf s = true) : Memory.wf t = true := by
  have h := Memory.wf_translate die pasid k x n write cached hs
  rwa [e] at h

@[simp] theorem Memory.wf_codeWord (h grid : Nat) (hs : Memory.wf s = true) : Memory.wf (codeWord s h grid).2 = true := by
  unfold codeWord
  split
  · exact hs
  · simp [hs]

/-- The state that a code fetch leaves, where it gives one. -/
def Fetch.state? : Fetch → Option State
  | .ok _ t => some t
  | .fault _ t => some t
  | _ => none

theorem Memory.wf_fetchWords {t : State} {die pasid grid : Nat} {k : Cap} {a n : Nat} (hs : Memory.wf s = true)
    (e : (fetchWords s die pasid grid k a n).state? = some t) : Memory.wf t = true := by
  unfold fetchWords at e
  split at e
  · cases e; exact hs
  · split at e
    · next h => cases e; exact Memory.wf_translate_fault h hs
    · cases e
    · next h =>
      split at e
      · cases e
      · cases e
        exact List.foldlRecOn _ _ (motive := fun acc : List Word × State => Memory.wf acc.2 = true) (Memory.wf_translate_ok h hs)
          fun acc ha x _ => Memory.wf_codeWord _ _ ha

/-! ### Accesses -/

@[simp] theorem Memory.wf_l1Read (core h n : Nat) (use : Bool) (hs : Memory.wf s = true) : Memory.wf (l1Read s core h n use).2 = true :=
  Memory.wf_modCore _ _ (Memory.wf_refreshL1 _ _ (Memory.wf_modCore _ _ (Memory.wf_free _ hs)))

@[simp] theorem Memory.wf_llcAccess (ls : List Nat) (hs : Memory.wf s = true) : Memory.wf (llcAccess s ls).2.2 = true :=
  List.foldlRecOn ls _ (motive := fun acc : List Nat × List Nat × State => Memory.wf acc.2.2 = true) hs
    fun _ ha l _ => Memory.wf_llcTouch l ha

@[simp] theorem Memory.wf_chargeLines (acct : Option Nat) (la die h n mt : Nat) (hs : Memory.wf s = true) :
    Memory.wf (chargeLines s acct la die h n mt) = true := by
  unfold chargeLines
  dsimp only
  generalize (if mt % 4 < 2 then linesOf h n else []) = lines
  have hl : Memory.wf (llcAccess (chargeFar s (homeDie s h) 0x3A lines.length 0 acct la) lines).2.2 = true := by simp [hs]
  grind [Memory.wf_chargeFar, Memory.wf_mk, storagesWf_self, Memory.wf_foldl]

@[simp] theorem Memory.wf_chargeAccess (b core h n : Nat) (l1 far : Bool) (mt : Nat) (hs : Memory.wf s = true) :
    Memory.wf (chargeAccess s b core h n l1 far mt) = true := by
  unfold chargeAccess
  repeat' split
  all_goals simp [hs]

@[simp] theorem Memory.wf_probeSample (o : Op) (q : LReq) (hs : Memory.wf s = true) : Memory.wf (probeSample s o q) = true := by
  grind [probeSample, Memory.wf_devWrite, Memory.wf_charge, Memory.wf_modCtx, Memory.wf_mk, storagesWf_self]

@[simp] theorem Memory.wf_storeDone (op lane : Nat) (hs : Memory.wf s = true) : Memory.wf (storeDone s op lane) = true := by
  grind [storeDone, Memory.wf_probeSample, Memory.wf_lowerCtr, Memory.wf_dropReq, Memory.wf_mk, storagesWf_self]

@[simp] theorem Memory.wf_drainLine (core line : Nat) (hs : Memory.wf s = true) : Memory.wf (drainLine s core line) = true := by
  grind [drainLine, Memory.wf_modCore, Memory.wf_chargeAccess, Memory.wf_homeWrite, Memory.wf_ownWords, Memory.wf_physWriteCap,
    Memory.wf_storeDone, Memory.wf_mk, storagesWf_self, Memory.wf_foldl]

@[simp] theorem Memory.wf_mergeWc (core h : Nat) (bs : List Byte) (who : Nat × Nat) (tag : Bool) (hs : Memory.wf s = true) :
    Memory.wf (mergeWc s core h bs who tag) = true := by grind [mergeWc, Memory.wf_modCore, Memory.wf_mk, storagesWf_self, Memory.wf_foldl]

@[simp] theorem Memory.wf_chargeFab' (acct : Option Nat) (la die : Nat) (hs : Memory.wf s = true) :
    Memory.wf (chargeFab' s acct la die) = true := by simp [chargeFab', hs]

@[simp] theorem Memory.wf_chargeFlits (b core : Nat) (hs : Memory.wf s = true) : Memory.wf (chargeFlits s b core) = true := by
  simp [chargeFlits, hs]

@[simp] theorem Memory.wf_chargeFab (o : Op) (hs : Memory.wf s = true) : Memory.wf (chargeFab s o) = true := by simp [chargeFab, hs]

@[simp] theorem Memory.wf_raiseRetry (hit : Hit) (code : Nat) (hs : Memory.wf s = true) : Memory.wf (raiseRetry s hit code) = true := by
  unfold raiseRetry
  split
  · exact hs
  · refine Memory.wf_deliver _ _ _ (Memory.wf_foldl _ _ (fun s x hs => ?_) _ (by simp [hs]))
    exact Memory.wf_foldl _ _ (fun s l hs => Memory.wf_modOp _ _ (Memory.wf_logAdd _ _ hs)) _ hs

@[simp] theorem Memory.wf_raiseLate (hit : Hit) (code : Nat) (hs : Memory.wf s = true) : Memory.wf (raiseLate s hit code) = true := by
  grind [raiseLate, Memory.wf_modOp, Memory.wf_logAdd, Memory.wf_reportExited, Memory.wf_mk, storagesWf_self, Memory.wf_foldl]

@[simp] theorem Memory.wf_raiseHit (hit : Hit) (code : Nat) (hs : Memory.wf s = true) : Memory.wf (raiseHit s hit code) = true := by
  simp [raiseHit, hs]

@[simp] theorem Memory.wf_faultReq (k : Nat) (o : Op) (lane code x : Nat) (hs : Memory.wf s = true) :
    Memory.wf (faultReq s k o lane code x) = true := by simp [faultReq, hs]

@[simp] theorem Memory.wf_faultIssue (k : Nat) (o : Op) (lane code x : Nat) (now : Op → LReq → Option (Nat × Nat)) (hs : Memory.wf s = true) :
    Memory.wf (faultIssue s k o lane code x now) = true := by simp [faultIssue, hs]

@[simp] theorem Memory.wf_sendFar (k lane : Nat) (hs : Memory.wf s = true) : Memory.wf (sendFar s k lane) = true := by
  unfold sendFar
  split <;> simp [hs]

@[simp] theorem Memory.wf_passParts (k lane : Nat) (o : Op) (q : LReq) (parts : List (Nat × Nat × Nat)) (cached : Bool) (hs : Memory.wf s = true) :
    Memory.wf (passParts s k lane o q parts cached) = true := by
  grind [passParts, Memory.wf_modOp, Memory.wf_faultIssue, Memory.wf_sendFar, Memory.wf_mk, storagesWf_self]

@[simp] theorem Memory.wf_translateReq (k lane : Nat) (cached : Bool) (hs : Memory.wf s = true) :
    Memory.wf (translateReq s k lane cached) = true := by
  unfold translateReq
  split
  · exact hs
  · split
    · dsimp only
      split
      · repeat' split
        all_goals simp [hs]
      · split
        · next h => simp [Memory.wf_translate_fault h hs]
        · next h => simp [Memory.wf_translate_remote h hs]
        · next h => simp [Memory.wf_translate_ok h hs]
    · exact hs

/-- Lines of a core that drain. -/
@[simp] theorem Memory.wf_drainLines (core : Nat) (ls : List Nat) (hs : Memory.wf s = true) :
    Memory.wf (ls.foldl (fun s l => drainLine s core l) s) = true := Memory.wf_foldl _ _ (fun _ _ h => Memory.wf_drainLine _ _ h) _ hs

@[simp] theorem Memory.wf_performLoad (k lane : Nat) (cached : Bool) (hs : Memory.wf s = true) :
    Memory.wf (performLoad s k lane cached) = true := by
  unfold performLoad
  split
  · exact hs
  · split
    · exact hs
    · dsimp only
      split
      · simp [hs]
      · split
        · simp [hs]
        · refine Memory.wf_modOp _ _ (List.foldlRecOn _ _ (motive := fun acc : List Byte × State => Memory.wf acc.2 = true) ?_ ?_)
          · refine Memory.wf_foldl _ _ (fun s p hs => ?_) _ hs
            split <;> simp [hs]
          · intro acc ha p _
            split <;> simp [ha]

@[simp] theorem Memory.wf_placeStore (k : Nat) (o : Op) (q : LReq) (ps : List (Nat × Nat × Nat)) (bs : List Byte) (hs : Memory.wf s = true) :
    Memory.wf (placeStore s k o q ps bs) = true := by
  induction ps generalizing s bs with
  | nil => exact hs
  | cons p r ih =>
    obtain ⟨h, n, mt⟩ := p
    refine ih _ ?_
    grind [Memory.wf_mergeWc, Memory.wf_chargeAccess, Memory.wf_ownWords, Memory.wf_physWriteCap, Memory.wf_homeWrite]

@[simp] theorem Memory.wf_performStore (k lane : Nat) (hs : Memory.wf s = true) : Memory.wf (performStore s k lane) = true := by
  unfold performStore
  split
  · exact hs
  · split
    · exact hs
    · dsimp only
      split
      · simp [hs]
      · split
        · simp [hs]
        · refine Memory.wf_foldl _ _ (fun s l hs => ?_) _ (by simp [hs])
          repeat' split
          all_goals simp [hs]

@[simp] theorem Memory.wf_performAtomic (k lane : Nat) (hs : Memory.wf s = true) : Memory.wf (performAtomic s k lane) = true := by
  unfold performAtomic
  split
  · exact hs
  · split
    · split
      · split
        · simp [hs]
        · split
          · simp [hs]
          · dsimp only
            have hd : ∀ o : Op, ∀ (h n mt : Nat), Memory.wf (if mt = 1 then (linesOf h n).foldl (fun s l => drainLine s o.core l) s else s) = true :=
              fun _ _ _ _ => Memory.wf_ite (Memory.wf_drainLines _ _ hs) hs
            refine Memory.wf_ite (Memory.wf_acquireCore _ ?_) ?_ <;>
              exact Memory.wf_modOp _ _ (Memory.wf_dropL1 _ _ (Memory.wf_homeWrite _ _ _ (Memory.wf_chargeAccess _ _ _ _ _ _ _ (hd ..))))
      · exact hs
    · exact hs

@[simp] theorem Memory.wf_attempt (k lane : Nat) (cached : Bool) (hs : Memory.wf s = true) :
    Memory.wf (attempt s k lane cached) = true := by
  unfold attempt
  dsimp only
  repeat' split
  all_goals simp [hs]

@[simp] theorem Memory.wf_releaseStart (b : Nat) (els : List (Nat × Nat)) (hs : Memory.wf s = true) :
    Memory.wf (releaseStart s b els) = true := by
  grind [releaseStart, Memory.wf_attempt, Memory.wf_drainLine, Memory.wf_mk, storagesWf_self, Memory.wf_foldl]

@[simp] theorem Memory.wf_parkReleasing (b : Nat) (ws : List (Nat × Nat × Nat)) (hs : Memory.wf s = true) :
    Memory.wf (parkReleasing s b ws) = true := by simp [parkReleasing, hs]

@[simp] theorem Memory.wf_acquireNow (c : Cur) (hs : Memory.wf s = true) : Memory.wf (acquireNow s c) = true := by simp [acquireNow, hs]

@[simp] theorem Memory.wf_logArrival (o : Op) (hs : Memory.wf s = true) : Memory.wf (logArrival s o) = true := by
  grind [logArrival, Memory.wf_logAdd, Memory.wf_mk, storagesWf_self, Memory.wf_foldl]

@[simp] theorem Memory.wf_finishLoad (k : Nat) (hs : Memory.wf s = true) : Memory.wf (finishLoad s k) = true := by
  grind [finishLoad, Memory.wf_probeSample, Memory.wf_logArrival, Memory.wf_lowerCtr, Memory.wf_mk, storagesWf_self, Memory.wf_foldl]

@[simp] theorem Memory.wf_deliverReg (k j : Nat) (hs : Memory.wf s = true) : Memory.wf (deliverReg s k j) = true := by
  grind [deliverReg, Memory.wf_chargeSymr, Memory.wf_modGroup, Memory.wf_modOp, Memory.wf_mk, storagesWf_self]

@[simp] theorem Memory.wf_arrive (k j : Nat) (hs : Memory.wf s = true) : Memory.wf (arrive s k j) = true := by
  grind [arrive, Memory.wf_finishLoad, Memory.wf_deliverReg, Memory.wf_modGroup, Memory.wf_mk, storagesWf_self, Memory.wf_foldl]

end Sys2Proof.Machine
end

section
/-!
PROOFS. What keeps the canonical form of memory: outcomes, the shared shapes of words, outstanding operations, releases, copies, operand
blocks and the tile queue.
-/

namespace Sys2Proof.Machine

variable {s : State}

/-! ### Outcomes -/

/-- A next state of an outcome is in canonical form. -/
def Keeps (o : Out) : Prop := ∀ t, o = .next t → Memory.wf t = true

/-- The same of an outcome that there may be. -/
def MayKeep (o : Option Out) : Prop := ∀ x, o = some x → Keeps x

@[simp] theorem keeps_next : Keeps (.next s) ↔ Memory.wf s = true := ⟨fun h => h s rfl, fun h _ e => Host.Outcome.next.inj e ▸ h⟩
@[simp] theorem mayKeep_none : MayKeep none := fun _ h => nomatch h
@[simp] theorem mayKeep_some {o : Out} : MayKeep (some o) ↔ Keeps o := ⟨fun h => h o rfl, fun h _ e => Option.some.inj e ▸ h⟩

theorem keeps_done (cls : Nat) (per : Per) (hs : Memory.wf s = true) : Keeps (done cls per s) :=
  keeps_next.mpr (Memory.wf_retire (Memory.wf_chargeWord cls per hs))

theorem keeps_ite {p : Prop} [Decidable p] {a b : Out} (ha : Keeps a) (hb : Keeps b) : Keeps (if p then a else b) := by
  split
  · exact ha
  · exact hb

theorem mayKeep_ite {p : Prop} [Decidable p] {a b : Option Out} (ha : MayKeep a) (hb : MayKeep b) : MayKeep (if p then a else b) := by
  split
  · exact ha
  · exact hb

/-! ### Faults and waits of words -/

theorem keeps_faultAll (code data : Nat) (hs : Memory.wf s = true) : Keeps (faultAll code data s) := by
  unfold faultAll
  split <;> simp [hs]

theorem keeps_faultWord (code data : Nat) (hs : Memory.wf s = true) : Keeps (faultWord code data s) :=
  keeps_faultAll _ _ (Memory.wf_chargeFault _ hs)

theorem keeps_faultUnit (code data : Nat) (hs : Memory.wf s = true) : Keeps (faultUnit code data s) := by
  unfold faultUnit
  split
  · simpa using hs
  · exact keeps_faultAll _ _ (by simp [hs])

theorem keeps_faultUnitWord (code data : Nat) (hs : Memory.wf s = true) : Keeps (faultUnitWord code data s) :=
  keeps_faultUnit _ _ (Memory.wf_chargeFault _ hs)

theorem keeps_faultSome (fs : List LFault) (hs : Memory.wf s = true) : Keeps (faultSome fs s) := by simp [faultSome, hs]

theorem Memory.wf_modIssuers (rs : List IRef) (f : Issuer → Issuer) (hs : Memory.wf s = true) :
    Memory.wf (rs.foldl (fun s r => s.modIssuer r f) s) = true := Memory.wf_foldl _ _ (fun _ _ h => Memory.wf_modIssuer _ _ h) _ hs

theorem keeps_regLimit (gs : List Nat) (hs : Memory.wf s = true) : Keeps (regLimit s gs) := by
  unfold regLimit
  split
  · simpa using hs
  · dsimp only
    split
    · exact keeps_next.mpr (Memory.wf_of_eq (Memory.wf_suspendUnit _ _ _ _ _ (Memory.wf_modIssuers _ _ (Memory.wf_chargeFault _ hs))) rfl rfl rfl)
    · exact keeps_next.mpr (Memory.wf_of_eq (Memory.wf_suspendUnit _ _ _ _ _ (Memory.wf_modIssuers _ _ (Memory.wf_chargeFault _ hs))) rfl rfl rfl)
    · exact keeps_next.mpr (Memory.wf_of_eq (Memory.wf_wideFault _ _ _ (Memory.wf_chargeFault _ hs)) rfl rfl rfl)

theorem keeps_blockPend (b : Nat) (ws : List (Nat × Nat × Nat)) (hs : Memory.wf s = true) : Keeps (blockPend s b ws) := by
  simp [blockPend, hs]

theorem mayKeep_ready (c : Cur) (ops : List Opd) (d : Dst) (b : Bool) (hs : Memory.wf s = true) : MayKeep (ready? s c ops d b) := by
  unfold ready?
  refine mayKeep_ite (mayKeep_some.mpr (keeps_next.mpr (Memory.wf_retire (Memory.wf_raiseFault _ (Memory.wf_chargeFault _ hs)))))
    (mayKeep_ite (mayKeep_some.mpr (keeps_blockPend _ _ hs)) ?_)
  split
  · simp [hs]
  · exact mayKeep_ite (mayKeep_some.mpr (keeps_next.mpr (Memory.wf_block _ (Memory.wf_parkLate _ _ (Memory.wf_releaseStart _ _ hs)))))
      (mayKeep_ite mayKeep_none (mayKeep_some.mpr (keeps_regLimit _ hs)))

@[simp] theorem Memory.wf_consume (c : Cur) (ops : List Opd) (hs : Memory.wf s = true) : Memory.wf (consume s c ops) = true := by
  grind [consume, Memory.wf_chanPop, Memory.wf_acquireCore, Memory.wf_modGroup, Memory.wf_mk, storagesWf_self, Memory.wf_foldl]

@[simp] theorem Memory.wf_writeCells (b : Nat) (d : VDst) (res : List (Nat × List (Nat × VCell))) (hs : Memory.wf s = true) :
    Memory.wf (writeCells s b d res) = true := by
  grind [writeCells, Memory.wf_modGroup, Memory.wf_chanSend, Memory.wf_mk, storagesWf_self, Memory.wf_foldl]

@[simp] theorem Memory.wf_writeRegs (b : Nat) (r : BitVec 6) (k : Nat) (res : List (Nat × List (Nat × List Word))) (hs : Memory.wf s = true) :
    Memory.wf (writeRegs s b r k res) = true := by
  unfold writeRegs
  simp +contextual [hs, Memory.wf_foldl]

@[simp] theorem Memory.wf_freeS (c : Cur) (rs : List (RSrc × Nat)) (hs : Memory.wf s = true) : Memory.wf (freeS s c rs) = true := by
  simp [freeS, hs]

/-! ### The shared shapes of words -/

/-- Nothing is in execution, or what goes on keeps the form. -/
theorem keeps_cur {f : Cur → Out} (hs : Memory.wf s = true) (h : ∀ c, Keeps (f c)) : Keeps (match s.cur with
    | none => .next s
    | some c => f c) := by
  split
  · simpa using hs
  · exact h _

/-- The active set is empty, or what goes on keeps the form. -/
theorem keeps_unlessEmpty {c : Cur} {o : Out} (hs : Memory.wf s = true) (h : Keeps o) : Keeps (if c.empty then .next (retire s) else o) :=
  keeps_ite (by simp [hs]) h

/-- A word that waits or faults before it reads its operands, or goes on. -/
theorem keeps_ready {c : Cur} {ops : List Opd} {d : Dst} {b : Bool} {o : Out} (hs : Memory.wf s = true) (h : Keeps o) :
    Keeps (match ready? s c ops d b with
      | some x => x
      | none => o) := by
  split
  · next e => exact mayKeep_ready _ _ _ _ hs _ e
  · exact h

theorem keeps_laneOpU (cls : Nat) (per : Per) (d : VDst) (ops : List Opd) (us : List (RSrc × Nat)) (f : Group → Nat → List Word → Word)
    (hs : Memory.wf s = true) : Keeps (laneOpU cls per d ops us f s) :=
  keeps_cur hs fun _ => keeps_unlessEmpty hs (keeps_ready hs (keeps_done _ _
    (Memory.wf_writeCells _ _ _ (Memory.wf_freeS _ _ (Memory.wf_consume _ _ hs)))))

theorem keeps_laneOp (cls : Nat) (d : VDst) (ops : List Opd) (f : Group → Nat → List Word → Word) (hs : Memory.wf s = true) :
    Keeps (laneOp cls d ops f s) := keeps_laneOpU _ _ _ _ _ _ hs

theorem keeps_laneOpK (cls : Nat) (d : BitVec 6) (k : Nat) (ops : List Opd) (f : Group → Nat → List Word → List Word) (hs : Memory.wf s = true) :
    Keeps (laneOpK cls d k ops f s) :=
  keeps_cur hs fun _ => keeps_unlessEmpty hs (keeps_ready hs (keeps_done _ _ (by simp [hs])))

theorem keeps_predOp (cls : Nat) (d : BitVec 3) (ops : List Opd) (f : Group → Nat → List Word → Bool) (hs : Memory.wf s = true) :
    Keeps (predOp cls d ops f s) :=
  keeps_cur hs fun _ => keeps_unlessEmpty hs (keeps_ready hs (keeps_done _ _
    (Memory.wf_foldl _ _ (fun _ _ h => Memory.wf_modGroup _ _ _ h) _ (by simp [hs]))))

theorem keeps_compOp (cls : Nat) (d : VDst) (ops : List Opd) (comp : List VCell → Option VCell) (f : List Word → Word)
    (hs : Memory.wf s = true) : Keeps (compOp cls d ops comp f s) :=
  keeps_cur hs fun _ => keeps_unlessEmpty hs (keeps_ite (keeps_ready hs (keeps_done _ _ (by simp [hs]))) (keeps_laneOp _ _ _ _ hs))

/-- A uniform word looks at its leading group. -/
theorem keeps_lead {b g : Nat} {f : Group → Out} (hs : Memory.wf s = true) (h : ∀ G, Keeps (f G)) : Keeps (match s.grp? b g with
    | none => .next (retire s)
    | some G => f G) := by
  split
  · simp [hs]
  · exact h _

@[simp] theorem Memory.wf_putUni (c : Cur) (r : BitVec 6) (v : DWord) (hs : Memory.wf s = true) : Memory.wf (putUni s c r v) = true := by
  simp [putUni, hs]

theorem keeps_uniOp (cls : Nat) (d : BitVec 6) (srcs : List RSrc) (f : Group → List DWord → DWord) (hs : Memory.wf s = true) :
    Keeps (uniOp cls d srcs f s) :=
  keeps_cur hs fun _ => keeps_unlessEmpty hs (keeps_lead hs fun _ => keeps_done _ _ (by simp [hs]))

theorem keeps_uniPredOp (cls : Nat) (d : BitVec 3) (srcs : List RSrc) (f : Group → List DWord → Bool) (hs : Memory.wf s = true) :
    Keeps (uniPredOp cls d srcs f s) :=
  keeps_cur hs fun _ => keeps_unlessEmpty hs (keeps_lead hs fun _ => keeps_done _ _ (by simp [hs]))

/-- Elements that fault, or the rest going on. -/
theorem keeps_splitFaults {c : Cur} {fs : List LFault} {go : State → Cur → Out} (hs : Memory.wf s = true)
    (h : ∀ s c, Memory.wf s = true → Keeps (go s c)) : Keeps (splitFaults s c fs go) := by
  have hf := Memory.wf_raiseFault fs (Memory.wf_chargeFault (fs.map fun f => (f.g, f.l)) hs)
  exact keeps_ite (h _ _ hs) (keeps_cur hf fun c => keeps_unlessEmpty hf (h _ _ hf))

@[simp] theorem Memory.wf_symAsk (core : Nat) (r : IRef) (waits : Bool) (hs : Memory.wf s = true) :
    Memory.wf (symAsk s core r waits) = true := by
  unfold symAsk
  split <;> simp [hs]

/-! ### Outstanding operations -/

@[simp] theorem Memory.wf_probeMark (b core : Nat) (k : OpKind) (q : LReq) (hs : Memory.wf s = true) :
    Memory.wf (probeMark s b core k q).2 = true := by
  unfold probeMark
  dsimp only
  repeat' split
  all_goals simp [hs]

@[simp] theorem Memory.wf_diverge (hs : Memory.wf s = true) : Memory.wf (diverge s) = true := by simp [diverge, hs]

@[simp] theorem Memory.wf_logged (b kind lane addr v : Nat) (hs : Memory.wf s = true) : Memory.wf (logged s b kind lane addr v).2 = true := by
  unfold logged
  repeat' split
  all_goals simp [hs, Memory.wf_logAdd]

@[simp] theorem Memory.wf_replayReq (rc g : Nat) (k : OpKind) (q : LReq) (hs : Memory.wf s = true) :
    Memory.wf (replayReq s rc g k q).2 = true := by
  unfold replayReq
  repeat' split
  all_goals simp [hs]

@[simp] theorem Memory.wf_createOps (I : Issue) (c : Cur) (reqs : List (Nat × List LReq)) (hold : Bool) (hs : Memory.wf s = true) :
    Memory.wf (createOps I s c reqs hold).2 = true := by
  refine List.foldlRecOn reqs _ (motive := fun acc : List Nat × State => Memory.wf acc.2 = true) (by simp [hs]) ?_
  rintro ⟨ids, u⟩ hu ⟨g, qs⟩ -
  have hq : ∀ v : State, Memory.wf v = true → ∀ l : List LReq, Memory.wf (l.foldl (fun (x : List LReq × State) q =>
      let q := { q with time := x.2.reft }
      let y := if I.kind.probeKind = 6 then (q, x.2) else probeMark x.2 c.blk (homeOf s.fresh.2 c.blk) I.kind q
      let z := replayReq y.2 (rcOf y.2 c.blk) g I.kind y.1
      (x.1 ++ [z.1], z.2)) ([], v)).2 = true := by
    intro v hv l
    refine List.foldlRecOn l _ (motive := fun acc : List LReq × State => Memory.wf acc.2 = true) hv fun acc ha q _ => ?_
    dsimp only
    split <;> simp [ha]
  simpa using hq _ (by simpa using hu) qs

@[simp] theorem Memory.wf_chargePasses (b n : Nat) (els : List (Nat × Nat)) (hs : Memory.wf s = true) :
    Memory.wf (chargePasses s b n els) = true := by simp [chargePasses, hs]

@[simp] theorem Memory.wf_chargeLds (I : Issue) (ids : List Nat) (hs : Memory.wf s = true) : Memory.wf (chargeLds s I ids) = true := by
  unfold chargeLds
  dsimp only
  repeat' split
  all_goals simp [hs]

/-- The marks that an operation leaves at its issue: its counter, and its destination. -/
theorem keeps_commitOps (I : Issue) (c : Cur) (ids : List Nat) (hs : Memory.wf s = true) : Keeps (commitOps I s c ids) := by
  refine keeps_done _ _ (Memory.wf_foldl _ _ (fun u k hu => ?_) _ (Memory.wf_chargeLds _ _ (Memory.wf_freeS _ _ (Memory.wf_consume _ _ hs))))
  split
  · exact hu
  · refine Memory.wf_ite (Memory.wf_of_eq hu rfl rfl rfl) ?_
    have h := fun (o : Op) (f : Op → Op) => Memory.wf_modOp k f (Memory.wf_raiseCtr o.blk o.gidx (o.lanes.map (·.lane)) o.kind.ctr hu)
    split
    · exact Memory.wf_modGroup _ _ _ (h _ _)
    · exact h _ _

theorem keeps_resumeHeld (I : Issue) (c : Cur) (held : List (Nat × Op)) (hs : Memory.wf s = true) : Keeps (resumeHeld I s c held) :=
  keeps_ite (by simp [hs]) (keeps_ite (by simp [hs]) (keeps_ite (keeps_commitOps _ _ _ hs) (by simp [hs])))

theorem keeps_issueOp (I : Issue) (build : Group → Nat → List Word → Except (Nat × Nat) LReq) (hs : Memory.wf s = true) :
    Keeps (issueOp I build s) := by
  refine keeps_cur hs fun c => keeps_unlessEmpty hs (keeps_ite (keeps_resumeHeld _ _ _ hs) (keeps_ready hs (keeps_ite (keeps_faultSome _ hs) ?_)))
  have hc := fun core me (reqs : List (Nat × List LReq)) hold =>
    Memory.wf_createOps I c reqs hold (Memory.wf_symAsk core me false hs)
  exact keeps_ite (by simp [hs]) (keeps_ite (keeps_next.mpr (Memory.wf_block _ (hc ..)))
    (keeps_ite (keeps_resumeHeld _ _ _ (hc ..)) (keeps_commitOps _ _ _ (hc ..))))

@[simp] theorem Memory.wf_spmUnfenced (b g l x n : Nat) (hs : Memory.wf s = true) : Memory.wf (spmUnfenced s b g l x n) = true := by
  simp [spmUnfenced, hs, Memory.wf_modBlock]

theorem keeps_loadOp (n : Nat) (sgn : Bool) (a : BitVec 6) (k : Nat) (b : RSrc) (c : VSrc) (hs : Memory.wf s = true) :
    Keeps (loadOp n sgn a k b c s) := keeps_issueOp _ _ hs

theorem keeps_storeOp (n : Nat) (data : Opd) (w : Nat) (b : RSrc) (c : VSrc) (hs : Memory.wf s = true) : Keeps (storeOp n data w b c s) :=
  keeps_issueOp _ _ hs

@[simp] theorem Memory.wf_wsEvent (die line pasid : Nat) (hs : Memory.wf s = true) : Memory.wf (wsEvent s die line pasid) = true := by
  simp [wsEvent, hs]

@[simp] theorem Memory.wf_wsCheck (from_ : Nat) (hs : Memory.wf s = true) : Memory.wf (wsCheck s from_) = true := by
  grind [wsCheck, Memory.wf_wsEvent, Memory.wf_modOp, Memory.wf_mk, storagesWf_self, Memory.wf_foldl]

theorem keeps_wldOp (n : Nat) (a : BitVec 6) (k : Nat) (b c : VSrc) (hs : Memory.wf s = true) : Keeps (wldOp n a k b c s) := by
  refine keeps_cur hs fun cu => ?_
  dsimp only
  split
  · next h => exact keeps_next.mpr (Memory.wf_wsCheck _ (keeps_issueOp _ _ hs _ h))
  · exact keeps_issueOp _ _ hs

@[simp] theorem Memory.wf_spmPasses (n : Nat) (ops : List Opd) (at_ : Nat) (hs : Memory.wf s = true) :
    Memory.wf (spmPasses n ops at_ s) = true := by
  unfold spmPasses
  split <;> simp [hs]

theorem keeps_ldsOp (n : Nat) (a : BitVec 6) (k : Nat) (b : VSrc) (hs : Memory.wf s = true) : Keeps (ldsOp n a k b s) :=
  keeps_cur hs fun _ => keeps_ite (by simp [hs]) (keeps_issueOp _ _ hs)

theorem keeps_stsOp (n : Nat) (data : Opd) (w : Nat) (b : VSrc) (hs : Memory.wf s = true) : Keeps (stsOp n data w b s) := by
  refine keeps_cur hs fun c => keeps_unlessEmpty hs (keeps_ite (by simp [hs]) (keeps_ready hs (keeps_ite (keeps_faultSome _ hs) (keeps_done _ _ ?_))))
  refine Memory.wf_foldl _ _ (fun u x hu => ?_) _
    (Memory.wf_foldl _ _ (fun u x hu => Memory.wf_raiseCtr _ _ _ _ hu) _ (Memory.wf_consume _ _ (Memory.wf_spmPasses _ _ _ hs)))
  have h := fun g l x m => Memory.wf_lowerCtr c.blk g [l] .st (Memory.wf_raceRings c.blk x m (Memory.wf_spmUnfenced c.blk g l x m hu))
  exact Memory.wf_ite (Memory.wf_spmStoreCap _ _ _ _ (h ..)) (Memory.wf_spmStore _ _ _ (h ..))

theorem keeps_windowOp (kind : OpKind) (a b c : VSrc) (hs : Memory.wf s = true) : Keeps (windowOp kind a b c s) :=
  keeps_cur hs fun _ => keeps_ite (by simp [hs]) (keeps_issueOp _ _ hs)

theorem keeps_atomicOp (op : Nat) (cas : Bool) (t : Ty) (o : AOrd) (a : BitVec 6) (b : RSrc) (c d : VSrc) (hs : Memory.wf s = true) :
    Keeps (atomicOp op cas t o a b c d s) := keeps_ite (by simp [hs]) (keeps_issueOp _ _ hs)

/-! ### Releases and acquires -/

theorem keeps_releaseThen {go : State → Cur → Out} (hs : Memory.wf s = true) (h : ∀ s c, Memory.wf s = true → Keeps (go s c)) :
    Keeps (releaseThen go s) :=
  keeps_cur hs fun c =>
    have hr := Memory.wf_releaseStart c.blk c.elems hs
    keeps_ite (keeps_next.mpr (Memory.wf_block _ (Memory.wf_parkLate _ _ hr))) (keeps_ite (h _ _ hr) (keeps_next.mpr (Memory.wf_block _ hr)))

theorem keeps_acquireOp {go : State → Cur → Out} (hs : Memory.wf s = true) (h : ∀ s c, Memory.wf s = true → Keeps (go s c)) :
    Keeps (acquireOp go s) :=
  keeps_cur hs fun c => keeps_unlessEmpty hs (keeps_ite (h _ _ (Memory.wf_acquireNow c hs)) (keeps_next.mpr (Memory.wf_block _ hs)))

theorem keeps_releaseOp {go : State → Cur → Out} (hs : Memory.wf s = true) (h : ∀ s c, Memory.wf s = true → Keeps (go s c)) :
    Keeps (releaseOp go s) := keeps_cur hs fun _ => keeps_unlessEmpty hs (keeps_releaseThen hs h)

theorem keeps_releaseBlock {go : State → Cur → Out} (hs : Memory.wf s = true) (h : ∀ s c, Memory.wf s = true → Keeps (go s c)) :
    Keeps (releaseBlock go s) :=
  keeps_cur hs fun c =>
    have hr := Memory.wf_releaseStart c.blk ((s.groupsOf c.blk).flatMap fun g => (List.range 64).map fun l => (g, l)) hs
    keeps_ite (keeps_next.mpr (Memory.wf_block _ (Memory.wf_parkLate _ _ hr))) (keeps_ite (h _ _ hr) (keeps_next.mpr (Memory.wf_block _ hr)))

/-! ### Capabilities and channels -/

theorem keeps_quadOp (cls : Nat) (a : BitVec 6) (ops : List Opd) (us : List (RSrc × Nat)) (f : Group → Nat → List Word → Cap)
    (hs : Memory.wf s = true) : Keeps (quadOp cls a ops us f s) :=
  keeps_cur hs fun _ => keeps_unlessEmpty hs (keeps_ready hs (keeps_done _ _
    (Memory.wf_foldl _ _ (fun _ _ h => Memory.wf_modGroup _ _ _ h) _ (Memory.wf_freeS _ _ (Memory.wf_consume _ _ hs)))))

theorem keeps_deriveOp (a : BitVec 6) (b c : RSrc) (f : Cap → Int → Cap) (hs : Memory.wf s = true) : Keeps (deriveOp a b c f s) :=
  keeps_quadOp _ _ _ _ _ hs

@[simp] theorem Memory.wf_faultWaiters (b g c code : Nat) (hs : Memory.wf s = true) : Memory.wf (faultWaiters s b g c code) = true := by
  grind [faultWaiters, Memory.wf_faultWaiting, Memory.wf_mk, storagesWf_self, Memory.wf_foldl]

@[simp] theorem Memory.wf_freeChan (b g c : Nat) (hs : Memory.wf s = true) : Memory.wf (freeChan s b g c).2 = true := by
  unfold freeChan
  split
  · exact hs
  · have h := fun ch : Chan => Memory.wf_ite (p := ch.kind = 5) (Memory.wf_of_eq
        (t := { s.modGroup b g fun G => { G with chans := tdel G.chans c } with fqs := tmod s.fqs (fqKey ch.slot ch.rlen) FQueue.unbind })
        hs rfl rfl rfl) (Memory.wf_modGroup b g (fun G => { G with chans := tdel G.chans c }) hs)
    exact Memory.wf_ite (Memory.wf_chanPeerGone _ _ (Memory.wf_faultWaiters _ _ _ _ (h _))) (Memory.wf_faultWaiters _ _ _ _ (h _))

@[simp] theorem Memory.wf_clearRaces (b off rlen : Nat) (hs : Memory.wf s = true) : Memory.wf (clearRaces s b off rlen) = true := by
  simp [clearRaces, hs, Memory.wf_modBlock]

@[simp] theorem Memory.wf_copyWrite (h : Nat) (bs : List Byte) (tag : Bool) (hs : Memory.wf s = true) :
    Memory.wf (copyWrite s h bs tag) = true := by simp [copyWrite, hs, Memory.wf_physWriteCap, Memory.wf_physWrite]

@[simp] theorem Memory.wf_writePieces (parts : List (Nat × Nat × Nat)) (x : Nat) (ps : List Piece) (hs : Memory.wf s = true) :
    Memory.wf (writePieces s parts x ps) = true := by
  grind [writePieces, Memory.wf_copyWrite, Memory.wf_mk, storagesWf_self, Memory.wf_foldl]

@[simp] theorem Memory.wf_waitRemote (k lane part : Nat) (f : LReq → LReq) (hs : Memory.wf s = true) :
    Memory.wf (waitRemote s k lane part f) = true := by
  unfold waitRemote
  split <;> simp [hs]

@[simp] theorem Memory.wf_chargePart (b x m : Nat) (hs : Memory.wf s = true) : Memory.wf (chargePart s b x m) = true := by
  simp [chargePart, hs]

@[simp] theorem Memory.wf_chargeParts (o : Op) (parts : List (Nat × Nat × Nat)) (hs : Memory.wf s = true) :
    Memory.wf (chargeParts s o parts) = true := by
  grind [chargeParts, Memory.wf_chargeAccess, Memory.wf_mk, storagesWf_self, Memory.wf_foldl]

@[simp] theorem Memory.wf_finishPart (k : Nat) (o : Op) (lane part : Nat) (hs : Memory.wf s = true) :
    Memory.wf (finishPart s k o lane part) = true := by simp [finishPart, hs]

@[simp] theorem Memory.wf_landPart (k lane dst : Nat) (parts : List (Nat × Nat × Nat)) (ps : List Piece) (hs : Memory.wf s = true) :
    Memory.wf (landPart s k lane dst parts ps) = true := by
  unfold landPart
  repeat' split
  all_goals simp [hs]

/-- The pieces that a copy puts into the scratchpads of some blocks. -/
theorem Memory.wf_putPieces (ts : List Nat) (ps : List Piece) (hs : Memory.wf s = true) : Memory.wf (ts.foldl (fun s t => ps.foldl (fun s p =>
    if p.tag then raceRings (logAdd (spmStoreCap s t p.off p.bs true) t (.bytes (rcOf s t) p.off p.bs true)) t p.off 16
    else spmFrom s t p.off p.bs) s) s) = true :=
  Memory.wf_foldl _ _ (fun _ _ h => Memory.wf_foldl _ _ (fun _ _ h => Memory.wf_ite
    (Memory.wf_raceRings _ _ _ (Memory.wf_logAdd _ _ (Memory.wf_spmStoreCap _ _ _ _ h))) (Memory.wf_spmFrom _ _ _ h)) _ h) _ hs

@[simp] theorem Memory.wf_placePart (k : Nat) (o : Op) (q : LReq) (part : Nat) (bs : List Byte) (tagOf : Nat → Bool) (cached : Bool)
    (hs : Memory.wf s = true) : Memory.wf (placePart s k o q part bs tagOf cached) = true := by
  unfold placePart
  dsimp only
  split
  · exact Memory.wf_finishPart _ _ _ _ (Memory.wf_putPieces _ _ (Memory.wf_ite (Memory.wf_chargePart _ _ _ hs) hs))
  · exact Memory.wf_finishPart _ _ _ _ (Memory.wf_putPieces _ _ (Memory.wf_ite (Memory.wf_chargePart _ _ _ hs) hs))
  · split
    · next h => simp [Memory.wf_translate_fault h hs]
    · next h => simp [Memory.wf_translate_remote h hs]
    · next h => exact Memory.wf_finishPart _ _ _ _ (Memory.wf_landPart _ _ _ _ _ (Memory.wf_chargeParts _ _ (Memory.wf_translate_ok h hs)))

@[simp] theorem Memory.wf_gotSource (k : Nat) (o : Op) (q : LReq) (part : Nat) (bs : List Byte) (tagOf : Nat → Bool) (cached : Bool) (hs : Memory.wf s = true) :
    Memory.wf (gotSource s k o q part bs tagOf cached) = true := by
  unfold gotSource
  dsimp only
  split <;> simp [hs]

@[simp] theorem Memory.wf_performPart (k : Nat) (o : Op) (q : LReq) (part : Nat) (cached : Bool) (hs : Memory.wf s = true) :
    Memory.wf (performPart s k o q part cached) = true := by
  unfold performPart
  dsimp only
  split
  · simp [hs]
  · split
    · split <;> simp [hs]
    · split
      · next h => simp [Memory.wf_translate_fault h hs]
      · next h => simp [Memory.wf_translate_remote h hs]
      · next h =>
        split <;> simp [Memory.wf_translate_ok h hs]

/-! ### Copies -/

@[simp] theorem Memory.wf_translateAll (o : Op) (m : Nat) (cached : Bool) (l : List (Cap × Nat × Bool)) (far : Bool) (hs : Memory.wf s = true) :
    Memory.wf (translateAll s o m cached l far).2.2 = true := by
  induction l generalizing s far with
  | nil => exact hs
  | cons a r ih =>
    obtain ⟨k, x, w⟩ := a
    unfold translateAll
    split
    · next h => exact Memory.wf_translate_fault h hs
    · next h =>
      split
      · exact ih _ (Memory.wf_translate_remote h hs)
      · exact Memory.wf_translate_remote h hs
    · next h => exact ih _ (Memory.wf_translate_ok h hs)

@[simp] theorem Memory.wf_notePart (k lane part n : Nat) (hs : Memory.wf s = true) : Memory.wf (notePart s k lane part n) = true := by
  simp [notePart, hs]

@[simp] theorem Memory.wf_translatePart (k : Nat) (o : Op) (q : LReq) (part : Nat) (cached : Bool) (hs : Memory.wf s = true) :
    Memory.wf (translatePart s k o q part cached) = true := by
  have h := Memory.wf_translateAll o (partRange o.kind q part).2 cached (partAccesses o q part) false hs
  unfold translatePart
  split <;> (next e => rw [e] at h; simp [h])

@[simp] theorem Memory.wf_postTicket (o : Op) (t : Word) (hs : Memory.wf s = true) : Memory.wf (postTicket s o t) = true := by
  unfold postTicket
  split <;> simp [hs, Memory.wf_ringPost, Memory.wf_logAdd]

/-! ### Operand blocks and the tile queue -/

theorem keeps_blockOp (cls : Nat) (us : List RSrc) (go : State → Cur → Except Nat State) (hs : Memory.wf s = true)
    (h : ∀ c t, go s c = .ok t → Memory.wf t = true) : Keeps (blockOp cls us go s) := by
  refine keeps_cur hs fun c => keeps_unlessEmpty hs ?_
  split
  · exact keeps_faultWord _ _ hs
  · next e => exact keeps_done _ _ (Memory.wf_freeS _ _ (h _ _ e))

@[simp] theorem Memory.wf_landBlock (k : Nat) (o : Op) (lane p : Nat) (bs : List Byte) (hs : Memory.wf s = true) :
    Memory.wf (landBlock s k o lane p bs) = true := by simp [landBlock, hs]

@[simp] theorem Memory.wf_loadBlock (k : Nat) (o : Op) (q : LReq) (p : Nat) (cached : Bool) (hs : Memory.wf s = true) :
    Memory.wf (loadBlock s k o q p cached) = true := by
  unfold loadBlock
  dsimp only
  split
  · exact Memory.wf_landBlock _ _ _ _ _ (Memory.wf_free _ (Memory.wf_chargePart _ _ _ hs))
  · split
    · next h => simp [Memory.wf_translate_fault h hs]
    · next h => simp [Memory.wf_translate_remote h hs]
    · next h =>
      have ht := Memory.wf_translate_ok h hs
      split
      · simp [ht]
      · split <;> simp [ht]

@[simp] theorem Memory.wf_fillSlot (k : Nat) (o : Op) (hs : Memory.wf s = true) : Memory.wf (fillSlot s k o) = true := by
  grind [fillSlot, Memory.wf_modBlock, Memory.wf_lowerCtr, State.fresh, Memory.wf_mk, storagesWf_self]

@[simp] theorem Memory.wf_enqueue (c : Cur) (kind : TKind) (unfenced : Bool) (sides us : List Nat) (hs : Memory.wf s = true) :
    Memory.wf (enqueue s c kind unfenced sides us) = true := by
  grind [enqueue, Memory.wf_raiseCtr, Memory.wf_modCore, State.fresh, Memory.wf_mk, storagesWf_self, Memory.wf_foldl]

theorem keeps_queueOp (cls : Option Nat) (us : List RSrc) (go : State → Cur → Except Nat (TKind × Bool × List Nat)) (hs : Memory.wf s = true) :
    Keeps (queueOp cls us go s) := by
  refine keeps_cur hs fun c => keeps_unlessEmpty hs (keeps_ite (by simp [hs]) ?_)
  split
  · exact keeps_faultWord _ _ hs
  · have h := fun k u x r y => Memory.wf_freeS c y (Memory.wf_enqueue c k u x r hs)
    split
    · exact keeps_done _ _ (h ..)
    · exact keeps_next.mpr (Memory.wf_retire (h ..))

theorem mayKeep_accHeld (c : Cur) (w : DWord) (b : Bool) (hs : Memory.wf s = true) : MayKeep (accHeld s c w b) := by
  unfold accHeld
  refine mayKeep_ite (mayKeep_some.mpr (keeps_blockPend _ _ hs)) (mayKeep_ite mayKeep_none ?_)
  split
  · exact mayKeep_ite (mayKeep_some.mpr (keeps_regLimit _ hs)) mayKeep_none
  · exact mayKeep_none

@[simp] theorem Memory.wf_putScl (b : Nat) (m : BitVec 3) (v : Int) (hs : Memory.wf s = true) : Memory.wf (putScl s b m v) = true := by
  simp [putScl, hs, Memory.wf_modBlock]

@[simp] theorem Memory.wf_putTile (b t : Nat) (f : Tab DWord → Tab DWord) (hs : Memory.wf s = true) :
    Memory.wf (putTile s b t f) = true := by simp [putTile, hs, Memory.wf_modBlock]

@[simp] theorem Memory.wf_endTop (id : Nat) (t : TOp) (hs : Memory.wf s = true) : Memory.wf (endTop s id t) = true := by
  grind [endTop, Memory.wf_lowerCtr, Memory.wf_modCore, Memory.wf_mk, storagesWf_self, Memory.wf_foldl]

@[simp] theorem Memory.wf_retirePair (id : Nat) (t : TOp) (hs : Memory.wf s = true) : Memory.wf (retirePair s id t) = true := by
  grind [retirePair, Memory.wf_putTile, Memory.wf_charge, Memory.wf_modCore, Memory.wf_endTop, Memory.wf_mk, storagesWf_self,
    Memory.wf_foldl]

@[simp] theorem Memory.wf_finishAcc (id : Nat) (t : TOp) (hs : Memory.wf s = true) : Memory.wf (finishAcc s id t) = true := by
  unfold finishAcc
  dsimp only
  repeat' split
  all_goals simp [hs]

end Sys2Proof.Machine
end

section
/-!
PROOFS. What keeps the canonical form of memory: launches, the dispatch of blocks, control and system words, and the issue of clauses.
-/

namespace Sys2Proof.Machine

variable {s : State}

@[simp] theorem Memory.wf_post (iface : Nat) (seq : Word) (code result : Nat) (hs : Memory.wf s = true) :
    Memory.wf (post s iface seq code result) = true := by simp [post, hs]

/-! ### Launches and blocks -/

@[simp] theorem Memory.wf_addGrid (g : Grid) (hs : Memory.wf s = true) : Memory.wf (addGrid s g).2 = true := by simp [addGrid, hs]

@[simp] theorem Memory.wf_makeReady (id : Nat) (hs : Memory.wf s = true) : Memory.wf (makeReady s id) = true := by
  unfold makeReady
  split
  · exact hs
  · split
    · exact hs
    · dsimp only
      refine Memory.wf_modLaunch _ _ (Memory.wf_addGrid _ ?_)
      split <;> simp [hs]

@[simp] theorem Memory.wf_endLaunch (id code : Nat) (hs : Memory.wf s = true) : Memory.wf (endLaunch s id code) = true := by
  unfold endLaunch
  repeat' split
  all_goals simp [hs]

@[simp] theorem Memory.wf_settleLaunch (id code : Nat) (hs : Memory.wf s = true) : Memory.wf (settleLaunch s id code) = true := by
  grind [settleLaunch, Memory.wf_makeReady, Memory.wf_endLaunch, Memory.wf_modLaunch, Memory.wf_mk, storagesWf_self, Memory.wf_foldl]

@[simp] theorem Memory.wf_drawTicket (avoid : List Nat) (hs : Memory.wf s = true) : Memory.wf (drawTicket s avoid).2 = true := by
  simp [drawTicket, hs]

@[simp] theorem Memory.wf_noteRestored (d : Nat) (hs : Memory.wf s = true) : Memory.wf (noteRestored s d) = true := by
  simp [noteRestored, hs, Memory.wf_modDie]

@[simp] theorem Memory.wf_setSplit (core spu : Nat) (hs : Memory.wf s = true) : Memory.wf (setSplit s core spu) = true := by
  simp [setSplit, hs]

@[simp] theorem Memory.wf_enterWorld (core : Nat) (c : Ctx) (hs : Memory.wf s = true) : Memory.wf (enterWorld s core c) = true := by
  simp [enterWorld, hs]

@[simp] theorem Memory.wf_sweepJoin (b : Nat) (hs : Memory.wf s = true) : Memory.wf (sweepJoin s b) = true := by simp [sweepJoin, hs]

theorem storagesWf_setBlock {m : Ram} {ds : Tab Die} {bs : Tab Block} (k : Nat) {B : Block} (hB : B.spm.wf = true)
    (h : storagesWf m ds bs = true) : storagesWf m ds (tset bs k B) = true := by
  simp only [storagesWf, Bool.and_eq_true, List.all_eq_true] at h ⊢
  exact ⟨h.1, fun x hx => (mem_tset hx).elim (fun e => e ▸ hB) (h.2 x)⟩

@[simp] theorem Memory.wf_dispatchBlock (gid : Nat) (g : Grid) (c : Ctx) (bidx core base ticket dieTicket : Nat) (hs : Memory.wf s = true) :
    Memory.wf (dispatchBlock s gid g c bidx core base ticket dieTicket) = true := by
  have hp := Memory.wf_acquireCore core (Memory.wf_enterWorld core c (Memory.wf_setSplit core c.spu hs))
  unfold dispatchBlock
  dsimp only
  refine Memory.wf_sweepJoin _ (Memory.wf_foldl _ _ (fun u k hu => ?_) _ (Memory.wf_ite (Memory.wf_modBlock _ _ (fun _ h => h) ?_) ?_))
  · simp [hu]
  all_goals
    rw [Memory.wf_mk]
    exact storagesWf_setBlock _ Ram.wf_empty hp

@[simp] theorem Memory.wf_dispatch (gid : Nat) (plan : Plan) (hs : Memory.wf s = true) : Memory.wf (dispatch s gid plan) = true := by
  unfold dispatch
  split
  · exact hs
  · split
    · exact hs
    · refine Memory.wf_modGrid _ _ (Memory.wf_foldl _ _ (fun s u hs => ?_) _ hs)
      refine Memory.wf_foldl _ _ (fun s x hs => ?_) _ (by simp [hs])
      exact Memory.wf_foldl _ _ (fun s x hs => Memory.wf_dispatchBlock _ _ _ _ _ _ _ _ hs) _ (by simp [hs])

/-- A handler block's scratchpad begins with its records. -/
theorem recordsSpm_wf (l : List (BitVec 512)) (f : BitVec 512 → List Byte) (m : Ram) (hm : m.wf = true) :
    ((l.mapIdx fun i r => (i, r)).foldl (fun (m : Ram) (i, r) => m.write (0x100 + 64 * i) (f r)) m).wf = true :=
  List.foldlRecOn _ _ (motive := fun m : Ram => m.wf = true) hm fun _ h _ _ => Ram.wf_write _ _ h

@[simp] theorem Memory.wf_dispatchHandler (pasid h core : Nat) (hs : Memory.wf s = true) : Memory.wf (dispatchHandler s pasid h core) = true := by
  unfold dispatchHandler
  split
  · split
    · exact hs
    · dsimp only
      refine Memory.wf_sweepJoin _ ?_
      rw [Memory.wf_mk]
      refine storagesWf_setBlock _ (recordsSpm_wf _ _ _ (Ram.wf_write _ _ Ram.wf_empty)) ?_
      simp only [State.fresh_eq, storagesWf_self]
      exact Memory.wf_drawTicket _ (Memory.wf_drawTicket _
        (Memory.wf_acquireCore core (Memory.wf_enterWorld core _ (Memory.wf_setSplit core _ (Memory.wf_addGrid _ hs)))))
  · exact hs

@[simp] theorem Memory.wf_putSb (b k : Nat) (x : SB) (hs : Memory.wf s = true) : Memory.wf (putSb s b k x) = true := by
  simp [putSb, hs, Memory.wf_modBlock]

@[simp] theorem Memory.wf_putArr (b g k : Nat) (x : Arr) (hs : Memory.wf s = true) : Memory.wf (putArr s b g k x) = true := by
  simp [putArr, hs]

@[simp] theorem Memory.wf_arriveSb (c : Cur) (k n : Nat) (hs : Memory.wf s = true) : Memory.wf (arriveSb s c k n) = true := by
  grind [arriveSb, Memory.wf_putArr, Memory.wf_putSb, Memory.wf_mk, storagesWf_self, Memory.wf_foldl]

@[simp] theorem Memory.wf_leaveBar (b : Nat) (hs : Memory.wf s = true) : Memory.wf (leaveBar s b) = true := by
  grind [leaveBar, Memory.wf_modGroup, Memory.wf_modBlock, Memory.wf_logAdd, Memory.wf_bumpRc, Memory.wf_acquireCore, Memory.wf_mk,
    storagesWf_self, Memory.wf_foldl]

/-! ### Control and system words -/

theorem keeps_instOp (k : BarKind) (hs : Memory.wf s = true) : Keeps (instOp k s) :=
  keeps_releaseThen hs fun _ c hs => keeps_next.mpr
    (have h := Memory.wf_block .inst (Memory.wf_modBlock c.blk (fun B => { B with barw := some ⟨k, false, c.act⟩ }) (fun _ h => h)
      (Memory.wf_chargeWord 0x09 .issue hs))
    Memory.wf_ite (Memory.wf_leaveBar _ h) h)

@[simp] theorem Memory.wf_sample (c : Cur) (r : SReg) (hi : Bool) (hs : Memory.wf s = true) : Memory.wf (sample s c r hi) = true := by
  unfold sample
  exact Memory.wf_ite hs (Memory.wf_ite (Memory.wf_modGroups _ _ _ (Memory.wf_logged _ _ _ _ _ hs))
    (Memory.wf_foldl _ _ (fun _ _ h => Memory.wf_modGroup _ _ _ h) _ hs))

@[simp] theorem Memory.wf_requestReading (c : Cur) (k : Cap) (hs : Memory.wf s = true) : Memory.wf (requestReading s c k).2 = true := by
  unfold requestReading
  dsimp only
  repeat' split
  all_goals simp [hs]

@[simp] theorem Memory.wf_traceRec (b g kind val : Nat) (hs : Memory.wf s = true) : Memory.wf (traceRec s b g kind val) = true := by
  unfold traceRec
  dsimp only
  repeat' split
  all_goals simp [hs, Memory.wf_devWrite]

@[simp] theorem Memory.wf_traceGroup (b g kind val : Nat) (hs : Memory.wf s = true) : Memory.wf (traceGroup s b g kind val) = true := by
  unfold traceGroup
  split <;> simp [hs]

@[simp] theorem Memory.wf_capture (pasid act : Nat) (hs : Memory.wf s = true) : Memory.wf (capture s pasid act) = true := by
  simp [capture, hs]

@[simp] theorem Memory.wf_filterPush (b : Nat) (label : BitVec 16) (hs : Memory.wf s = true) : Memory.wf (filterPush s b label) = true := by
  unfold filterPush
  repeat' split
  all_goals simp [hs]

theorem keeps_labelOp {f : State → Nat → Nat → State} (hs : Memory.wf s = true)
    (h : ∀ s b g, Memory.wf s = true → Memory.wf (f s b g) = true) : Keeps (labelOp f s) :=
  keeps_cur hs fun _ => keeps_next.mpr (Memory.wf_foldl _ _ (fun _ _ hu => h _ _ _ hu) _ (Memory.wf_retire (Memory.wf_chargeWord _ _ hs)))

theorem keeps_trctlOp (act : Nat) (hs : Memory.wf s = true) : Keeps (trctlOp act s) :=
  keeps_cur hs fun _ => keeps_done _ _ (Memory.wf_ite (Memory.wf_capture _ _ hs) hs)

@[simp] theorem Memory.wf_debugStop (pasid : Nat) (hs : Memory.wf s = true) : Memory.wf (debugStop s pasid) = true := by
  unfold debugStop
  simp +contextual [hs, Memory.wf_foldl]

theorem keeps_stopOp (enabled : Ctx → Bool) (hs : Memory.wf s = true) : Keeps (stopOp enabled s) :=
  keeps_cur hs fun _ => keeps_next.mpr (have h := Memory.wf_retire (Memory.wf_chargeWord 0x0C .issue hs)
    Memory.wf_ite (Memory.wf_debugStop _ h) h)

theorem keeps_privOp (a b c : RSrc) {go : State → Nat → Nat → Nat → Except Nat State} (hs : Memory.wf s = true)
    (h : ∀ x y z t, go s x y z = .ok t → Memory.wf t = true) : Keeps (privOp a b c go s) := by
  refine keeps_cur hs fun cu => keeps_ite (keeps_faultAll _ _ hs) (keeps_unlessEmpty hs ?_)
  split
  · exact keeps_faultWord _ _ hs
  · next e => exact keeps_done _ _ (Memory.wf_freeS _ _ (Memory.wf_ite hs (h _ _ _ _ e)))

theorem Memory.wf_plwrGo {t : State} {x y z : Nat} (hs : Memory.wf s = true) (e : plwrGo s x y z = .ok t) : Memory.wf t = true := by
  unfold plwrGo at e
  split at e
  · cases e
  · split at e
    · cases e
    · cases e; simp [hs]

theorem Memory.wf_qtwrGo {t : State} {x y z : Nat} (hs : Memory.wf s = true) (e : qtwrGo s x y z = .ok t) : Memory.wf t = true := by
  unfold qtwrGo at e
  split at e
  · cases e
  · cases e
    exact Memory.wf_ite (by simp [hs]) (Memory.wf_ite (by simp [hs]) (by simp [hs]))

theorem Memory.wf_limwrGo {t : State} {x y z : Nat} (hs : Memory.wf s = true) (e : limwrGo s x y z = .ok t) : Memory.wf t = true := by
  unfold limwrGo at e
  dsimp only at e
  split at e
  · cases e
  · cases e; exact Memory.wf_modDie _ _ (fun _ h => h) hs

theorem Memory.wf_wtwrGo {t : State} {x y z : Nat} (hs : Memory.wf s = true) (e : wtwrGo s x y z = .ok t) : Memory.wf t = true := by
  unfold wtwrGo at e
  split at e
  · cases e
  · cases e; exact Memory.wf_modDie _ _ (fun _ h => h) hs

/-! ### The Carder -/

/-- The state that a look at a clause leaves, where it gives one. -/
def Want.state? : Want → Option State
  | .issue _ _ _ t => some t
  | .fault _ _ t => some t
  | .wait _ _ _ t => some t
  | _ => none

theorem Memory.wf_gate {s' t : State} {r : IRef} {i : Issuer} {h : Header} {ws : List Word} {hdr : Word} (hs : Memory.wf s' = true)
    (e : (gate s r i h ws hdr s').state? = some t) : Memory.wf t = true := by
  unfold gate at e
  split at e
  · cases e; exact hs
  · dsimp only at e
    split at e
    · cases e; exact hs
    · split at e
      · cases e
      · repeat' split at e
        all_goals (cases e; exact hs)

theorem Memory.wf_want {t : State} {r : IRef} {i : Issuer} (hs : Memory.wf s = true) (e : (want s r i).state? = some t) : Memory.wf t = true := by
  unfold want at e
  dsimp only at e
  split at e
  · split at e
    · exact Memory.wf_gate hs e
    · cases e; exact hs
  · split at e
    · next h => cases e; exact Memory.wf_fetchWords hs (by rw [h]; rfl)
    · cases e
    · cases e
    · next h =>
      have h1 := Memory.wf_fetchWords hs (congrArg Fetch.state? h)
      split at e
      · next h => cases e; exact Memory.wf_fetchWords h1 (congrArg Fetch.state? h)
      · cases e
      · cases e
      · next h =>
        have h2 := Memory.wf_fetchWords h1 (congrArg Fetch.state? h)
        split at e
        · exact Memory.wf_gate h2 e
        · cases e; exact h2

@[simp] theorem Memory.wf_regate (r : IRef) (hs : Memory.wf s = true) : Memory.wf (regate s r) = true := by
  unfold regate
  split
  · exact hs
  · split
    · exact hs
    · dsimp only
      split
      · next h => simp [Memory.wf_want hs (congrArg Want.state? h)]
      · next h => simp [Memory.wf_want hs (congrArg Want.state? h)]
      all_goals simp [hs]

@[simp] theorem Memory.wf_takeTurn (r : IRef) (hs : Memory.wf s = true) : Memory.wf (takeTurn s r) = true := by
  simp [takeTurn, hs, Memory.wf_modBlock]

@[simp] theorem Memory.wf_splitUnit (b : Nat) (gs : List Nat) (e : Scope) (l : List (Nat × Nat × Scope × Nat × Lanes × Cap)) (hs : Memory.wf s = true) :
    Memory.wf (splitUnit s b gs e l) = true := by simp [splitUnit, hs]

@[simp] theorem Memory.wf_scopeSplit (b : Nat) (hs : Memory.wf s = true) : Memory.wf (scopeSplit s b) = true := by
  unfold scopeSplit
  dsimp only
  repeat' split
  all_goals simp [hs]

@[simp] theorem Memory.wf_parkGates (b g : Nat) (hs : Memory.wf s = true) : Memory.wf (parkGates s b g) = true := by
  unfold parkGates
  split
  · exact hs
  · refine Memory.wf_foldl _ _ (fun s k hs => ?_) _ hs
    repeat' split
    all_goals simp [hs]

@[simp] theorem Memory.wf_beginHold (b g : Nat) (hs : Memory.wf s = true) : Memory.wf (beginHold s b g) = true := by simp [beginHold, hs]

@[simp] theorem Memory.wf_groupBoundaries (b g : Nat) (hs : Memory.wf s = true) : Memory.wf (groupBoundaries s b g) = true := by
  grind [groupBoundaries, Memory.wf_modGroup, Memory.wf_regate, Memory.wf_beginHold, Memory.wf_parkGates, Memory.wf_mk, storagesWf_self,
    Memory.wf_foldl]

@[simp] theorem Memory.wf_boundaries (core : Nat) (hs : Memory.wf s = true) : Memory.wf (boundaries s core) = true := by
  grind [boundaries, Memory.wf_scopeSplit, Memory.wf_groupBoundaries, Memory.wf_mk, storagesWf_self, Memory.wf_foldl]

@[simp] theorem Memory.wf_startClause (r : IRef) (h : Header) (ws : List Word) (hdr : Word) (hs : Memory.wf s = true) :
    Memory.wf (startClause s r h ws hdr) = true := by
  grind [startClause, Memory.wf_takeTurn, Memory.wf_modIssuer, Memory.wf_modGroup, Memory.wf_charge, Memory.wf_acquireCore, Memory.wf_mk,
    storagesWf_self]

@[simp] theorem Memory.wf_fetchFault (r : IRef) (code : Nat) (headless : Bool) (hs : Memory.wf s = true) :
    Memory.wf (fetchFault s r code headless) = true := by
  unfold fetchFault
  dsimp only
  repeat' split
  all_goals simp [hs]

@[simp] theorem Memory.wf_doWant (r : IRef) (w : Want) (hs : Memory.wf s = true) (hw : ∀ t, w.state? = some t → Memory.wf t = true) :
    Memory.wf (doWant s r w) = true := by
  unfold doWant
  split
  · exact Memory.wf_startClause _ _ _ _ (Memory.wf_of_eq (hw _ rfl) rfl rfl rfl)
  · exact Memory.wf_fetchFault _ _ _ (Memory.wf_takeTurn _ (Memory.wf_of_eq (hw _ rfl) rfl rfl rfl))
  · exact Memory.wf_lineEvent _ _ hs
  · exact hs

@[simp] theorem Memory.wf_chargeAttempt (die b : Nat) (act : List (Nat × Lanes)) (e : Eng) (w : Word) (hs : Memory.wf s = true) :
    Memory.wf (chargeAttempt s die b act e w) = true := by grind [chargeAttempt, Memory.wf_charge, Memory.wf_mk, storagesWf_self]

end Sys2Proof.Machine
end

section
/-!
PROOFS. What keeps the canonical form of memory: the ends of operations, barriers and blocks, sweeps and moves, energy, saves and
restores, slices and weight copies (R119, R136, R137, R287).
-/

namespace Sys2Proof.Machine

variable {s : State}

@[simp] theorem Memory.wf_probePart (k : Nat) (o : Op) (q : LReq) (x part : Nat) {go : State → State}
    (hgo : ∀ s, Memory.wf s = true → Memory.wf (go s) = true) (hs : Memory.wf s = true) : Memory.wf (probePart s k o q x part go) = true := by
  have hp : ∀ {u : State} (r : LReq), Memory.wf u = true → Memory.wf (probeSample (u.modOp k fun o => o.modReq q.lane fun q =>
      { q with marks := q.marks.filter fun m => m.1 != part }) o r) = true := fun r hu => Memory.wf_probeSample _ _ (Memory.wf_modOp _ _ hu)
  unfold probePart
  cases q.marks.find? fun m => m.1 == part with
  | none =>
    have hm := hgo _ (Memory.wf_modOp k (fun o' => o'.modReq q.lane fun q' =>
      { q' with marks := (part, (probeMark s o.blk o.core o.kind q).1.probe) :: q'.marks }) (Memory.wf_probeMark o.blk o.core o.kind q hs))
    dsimp only
    split
    · exact Memory.wf_ite hm (hp _ hm)
    · exact hm
  | some m =>
    dsimp only
    split
    · exact Memory.wf_ite (hgo _ hs) (hp _ (hgo _ hs))
    · exact hgo _ hs

@[simp] theorem Memory.wf_startTile (id : Nat) (t : TOp) (hs : Memory.wf s = true) : Memory.wf (startTile s id t) = true := by
  unfold startTile
  simp +contextual [hs, Memory.wf_foldl]

@[simp] theorem Memory.wf_completeBar (B : Block) (k : BarKind) (hs : Memory.wf s = true) : Memory.wf (completeBar s B k) = true := by
  unfold completeBar
  dsimp only
  repeat' split
  all_goals simp +contextual [hs, Memory.wf_foldl]

@[simp] theorem Memory.wf_arriveBar (b : Nat) (B : Block) (w : BarWait) (hs : Memory.wf s = true) :
    Memory.wf (arriveBar s b B w) = true := by
  unfold arriveBar
  repeat' split
  all_goals simp [hs, Memory.wf_modBlock]

@[simp] theorem Memory.wf_sstepMix (b : Nat) (w : BarWait) (hs : Memory.wf s = true) : Memory.wf (sstepMix s b w) = true := by
  grind [sstepMix, Memory.wf_modGroup, Memory.wf_modBlock, Memory.wf_suspendUnit, Memory.wf_mk, storagesWf_self, Memory.wf_foldl]

@[simp] theorem Memory.wf_settleDispo (h : Nat) (hs : Memory.wf s = true) : Memory.wf (settleDispo s h) = true := by
  unfold settleDispo
  dsimp only
  repeat' split
  all_goals simp [hs, Memory.wf_logAdd]

@[simp] theorem Memory.wf_disposeOf (h : Nat) (w : DWord) (hs : Memory.wf s = true) : Memory.wf (disposeOf s h w) = true := by
  unfold disposeOf
  dsimp only
  repeat' split
  all_goals simp [hs, Memory.wf_logAdd]

@[simp] theorem Memory.wf_handlerDispo (h : Nat) (w : DWord) (hs : Memory.wf s = true) : Memory.wf (handlerDispo s h w) = true := by
  unfold handlerDispo
  repeat' split
  all_goals simp [hs]

@[simp] theorem Memory.wf_removeBlock (b : Nat) (hs : Memory.wf s = true) : Memory.wf (removeBlock s b) = true := by
  obtain ⟨hm, hd, hb⟩ := Memory.wf_iff.mp hs
  exact Memory.wf_iff.mpr ⟨hm, hd, fun x hx => hb x (mem_tdel hx)⟩

@[simp] theorem Memory.wf_settleVacs (hs : Memory.wf s = true) : Memory.wf (settleVacs s) = true := by
  unfold settleVacs
  simp +contextual [hs, Memory.wf_foldl]

@[simp] theorem Memory.wf_reply (q : Cmd) (code result : Nat) (hs : Memory.wf s = true) : Memory.wf (reply s q code result) = true := by
  simp [reply, hs]

@[simp] theorem Memory.wf_tlbDrop (f : TlbEnt → Bool) (hs : Memory.wf s = true) : Memory.wf (tlbDrop s f) = true :=
  Memory.wf_mapDies _ (fun _ => rfl) hs

@[simp] theorem Memory.wf_beginInval (v : Inval) (hs : Memory.wf s = true) : Memory.wf (beginInval s v) = true := by simp [beginInval, hs]

@[simp] theorem Memory.wf_queueFrame (fr : Nat) (hs : Memory.wf s = true) : Memory.wf (queueFrame s fr) = true := by simp [queueFrame, hs]

@[simp] theorem Memory.wf_freeFrame (func g : Nat) (hs : Memory.wf s = true) : Memory.wf (freeFrame s func g) = true := by
  grind [freeFrame, Memory.wf_queueFrame, Memory.wf_mk, storagesWf_self, Memory.wf_foldl]

@[simp] theorem Memory.wf_forgetSpans (pasid : Nat) (f : Nat → Nat → Bool) (hs : Memory.wf s = true) :
    Memory.wf (forgetSpans s pasid f) = true := by simp [forgetSpans, hs]

@[simp] theorem Memory.wf_startSweep (pasid : Nat) (hs : Memory.wf s = true) : Memory.wf (startSweep s pasid) = true := by
  simp [startSweep, hs]

@[simp] theorem Memory.wf_scanGroup (pasid b g : Nat) (hs : Memory.wf s = true) : Memory.wf (scanGroup s pasid b g) = true := by
  simp [scanGroup, hs]

@[simp] theorem Memory.wf_scanSpm (pasid b : Nat) (hs : Memory.wf s = true) : Memory.wf (scanSpm s pasid b) = true :=
  Memory.wf_modBlock _ _ (fun _ h => Ram.wf_keepTags _ h) hs

@[simp] theorem Memory.wf_scanImages (pasid : Nat) (hs : Memory.wf s = true) : Memory.wf (scanImages s pasid) = true := by
  simp [scanImages, hs]

@[simp] theorem Memory.wf_scanGrids (pasid : Nat) (hs : Memory.wf s = true) : Memory.wf (scanGrids s pasid) = true := by
  simp [scanGrids, hs]

@[simp] theorem Memory.wf_setSwg (c : Ctx) (gens : Tab Nat) (hs : Memory.wf s = true) : Memory.wf (setSwg s c gens) = true := by
  grind [setSwg, Memory.wf_devWrite, Memory.wf_mk, storagesWf_self, Memory.wf_foldl]

@[simp] theorem Memory.wf_advanceGen (pasid : Nat) (c : Ctx) (obn o gen : Nat) (hs : Memory.wf s = true) :
    Memory.wf (advanceGen s pasid c obn o gen) = true := by
  grind [advanceGen, Memory.wf_modCtx, Memory.wf_devWrite, Memory.wf_forgetSpans, Memory.wf_mk, storagesWf_self]

@[simp] theorem Memory.wf_peerRevoke (pasid obn gen : Nat) (hs : Memory.wf s = true) : Memory.wf (peerRevoke s pasid obn gen) = true := by
  unfold peerRevoke
  dsimp only
  repeat' split
  all_goals simp [hs]

@[simp] theorem Memory.wf_reissue (h : Nat) (hs : Memory.wf s = true) : Memory.wf (reissue s h) = true := by
  unfold reissue
  repeat' split
  all_goals simp [hs]

@[simp] theorem Memory.wf_retryMoved (pasid obn span : Nat) (hs : Memory.wf s = true) : Memory.wf (retryMoved s pasid obn span) = true := by
  grind [retryMoved, Memory.wf_reissue, Memory.wf_mk, storagesWf_self, Memory.wf_foldl]

@[simp] theorem Memory.wf_retryPosted (h : Nat) (hs : Memory.wf s = true) : Memory.wf (retryPosted s h) = true := by
  unfold retryPosted
  split <;> simp [hs]

@[simp] theorem Memory.wf_dropFrame (fr : Nat) (hs : Memory.wf s = true) : Memory.wf (dropFrame s fr) = true := by simp [dropFrame, hs]

@[simp] theorem Memory.wf_fillSpan (pasid world func gfr : Nat) (data : List (Nat × Byte)) (tags : List Nat) (hs : Memory.wf s = true) :
    Memory.wf (fillSpan s pasid world func gfr data tags) = true := by
  unfold fillSpan
  dsimp only
  refine Memory.wf_foldl _ _ (fun s x hs => ?_) _ (Memory.wf_foldl _ _ (fun s x hs => ?_) _ (Memory.wf_foldl _ _ (fun s x hs => ?_) _ hs))
  · split
    · exact Memory.wf_physWriteCap _ _ _ hs
    · exact hs
  · split
    · exact Memory.wf_physWrite _ _ hs
    · exact hs
  · split
    · next h => 
      have hd := Memory.wf_dropFrame (h / 2 ^ 21) hs
      exact Memory.wf_mem _ (Ram.wf_clear _ _ (Memory.wf_iff.mp hd).1) hd
    · exact hs

@[simp] theorem Memory.wf_correctDom (d : Nat) (hs : Memory.wf s = true) : Memory.wf (correctDom s d) = true := by
  grind [correctDom, Memory.wf_adjustOver, Memory.wf_modLaunch, Memory.wf_adjust, Memory.wf_mk, storagesWf_self, Memory.wf_foldl]

@[simp] theorem Memory.wf_noteBounded (hs : Memory.wf s = true) : Memory.wf (noteBounded s) = true := by
  unfold noteBounded
  simp +contextual [hs, Memory.wf_foldl]

@[simp] theorem Memory.wf_correctReadings (hs : Memory.wf s = true) : Memory.wf (correctReadings s) = true := by simp [correctReadings, hs]

@[simp] theorem Memory.wf_postSample (b g : Nat) (chan : BitVec 6) (start : Int) (bounded : Bool) (drops : Nat) (hs : Memory.wf s = true) :
    Memory.wf (postSample s b g chan start bounded drops).2 = true := by
  have hc := Memory.wf_charge (dieOf (homeOf s b)) 0x38 1 none 0 hs
  unfold postSample
  dsimp only
  split
  · split
    · exact hc
    · exact Memory.wf_logAdd _ _ (Memory.wf_ringPost _ _ _ hc)
  · exact hc

@[simp] theorem Memory.wf_emitSample (b g : Nat) (hs : Memory.wf s = true) : Memory.wf (emitSample s b g) = true := by
  unfold emitSample
  split
  · exact hs
  · split
    · simp [hs]
    · split <;> simp [hs]

@[simp] theorem Memory.wf_sampleTick (hs : Memory.wf s = true) : Memory.wf (sampleTick s) = true := by
  grind [sampleTick, Memory.wf_emitSample, Memory.wf_modGroup, Memory.wf_mk, storagesWf_self, Memory.wf_foldl]

@[simp] theorem Memory.wf_applyReport (r : Report) (hs : Memory.wf s = true) : Memory.wf (applyReport s r) = true := by
  unfold applyReport
  repeat' split
  all_goals simp [hs]

@[simp] theorem Memory.wf_oldReports (hs : Memory.wf s = true) : Memory.wf (oldReports s) = true := by
  unfold oldReports
  simp +contextual [hs, Memory.wf_foldl]

@[simp] theorem Die.request_ws (d : Die) (t : Nat) (cause : Cause) (now : Nat) : (d.request t cause now).ws = d.ws := by
  unfold Die.request
  split <;> rfl

@[simp] theorem Die.enforce_ws (d : Die) (cause now : Nat) : (d.enforce cause now).ws = d.ws := by
  unfold Die.enforce
  split <;> simp

@[simp] theorem Memory.wf_leaseChanged (hs : Memory.wf s = true) : Memory.wf (leaseChanged s) = true :=
  Memory.wf_foldl _ _ (fun _ _ hs => Memory.wf_dieOther _ _ (fun D => by simp) hs) _ hs

@[simp] theorem Memory.wf_beginSaves (f : Nat → Block → Bool) (hs : Memory.wf s = true) : Memory.wf (beginSaves s f) = true := by
  unfold beginSaves
  simp +contextual [hs, Memory.wf_foldl]

@[simp] theorem Memory.wf_saveWith (f : Nat → Block → Bool) (hs : Memory.wf s = true) : Memory.wf (saveWith s f) = true := by
  simp [saveWith, hs]

@[simp] theorem Memory.wf_leaveSlice (die : Nat) (hs : Memory.wf s = true) : Memory.wf (leaveSlice s die) = true := by
  unfold leaveSlice
  simp +contextual [hs, Memory.wf_llcLeave, Memory.wf_foldl]

@[simp] theorem Memory.wf_chargeLeak (d : Nat) (hs : Memory.wf s = true) : Memory.wf (chargeLeak s d).2 = true := by
  unfold chargeLeak
  dsimp only
  repeat' split
  all_goals simp [hs]

@[simp] theorem Memory.wf_chargeStatic (hs : Memory.wf s = true) : Memory.wf (chargeStatic s).2 = true := by
  unfold chargeStatic
  refine List.foldlRecOn _ _ (motive := fun x : List Nat × State => Memory.wf x.2 = true) hs fun x h d _ => ?_
  dsimp only
  split <;> simp [h]

theorem Memory.wf_setDie (d : Nat) {D : Die} (hD : D.ws = (s.die d).ws) (hs : Memory.wf s = true) : Memory.wf (s.setDie d D) = true := by
  have h := Memory.wf_modDie d (fun D' => { D with ws := D'.ws }) (fun _ h => h) hs
  rwa [State.modDie, ← hD] at h

@[simp] theorem Memory.wf_tickDie (d : Nat) (m : Int) (drop : Bool) (hs : Memory.wf s = true) : Memory.wf (tickDie s d m drop) = true := by
  unfold tickDie
  dsimp only
  refine Memory.wf_ite (Memory.wf_integrity _ _ _ _ _ (Memory.wf_setDie _ ?_ hs)) (Memory.wf_setDie _ ?_ hs)
  all_goals simp [apply_ite Die.ws]

@[simp] theorem Memory.wf_passTime (ns : Nat) (hs : Memory.wf s = true) : Memory.wf (passTime s ns) = true := by
  grind [passTime, Memory.wf_elapse, Memory.wf_charge, Memory.wf_mk, storagesWf_self, Memory.wf_foldl]

@[simp] theorem Memory.wf_meterFault (r : Reading) (code : Nat) (hs : Memory.wf s = true) : Memory.wf (meterFault s r code) = true := by
  simp [meterFault, hs]

@[simp] theorem Memory.wf_readingDone (world : Nat) (W : World) (r : Reading) (rest : List Reading) (hs : Memory.wf s = true) :
    Memory.wf (readingDone s world W r rest) = true := by simp [readingDone, hs]

@[simp] theorem Memory.wf_writeReading (world : Nat) (W : World) (r : Reading) (parts : List (Nat × Nat × Nat)) (hs : Memory.wf s = true) :
    Memory.wf (writeReading s world W r parts) = true := by
  unfold writeReading
  refine List.foldlRecOn _ _ (motive := fun x : State × List Byte => Memory.wf x.1 = true) ?_ fun x h p _ => ?_
  · exact Memory.wf_foldl _ _ (fun s p hs => by split <;> simp [hs]) _ hs
  · dsimp only
    split <;> simp [h]

@[simp] theorem Memory.wf_launchRecord (iface : Nat) (rec : BitVec 512) (hs : Memory.wf s = true) :
    Memory.wf (launchRecord iface rec s) = true := by
  unfold launchRecord
  dsimp only
  repeat' split
  all_goals simp [hs]

@[simp] theorem Memory.wf_drainBlock (b : Nat) (hs : Memory.wf s = true) : Memory.wf (drainBlock s b) = true := by
  grind [drainBlock, Memory.wf_drainLine, Memory.wf_mk, storagesWf_self, Memory.wf_foldl]

@[simp] theorem Memory.wf_deliverLoads (b : Nat) (hs : Memory.wf s = true) : Memory.wf (deliverLoads s b) = true := by
  grind [deliverLoads, Memory.wf_arrive, Memory.wf_mk, storagesWf_self, Memory.wf_foldl]

@[simp] theorem Memory.wf_dropHandles (b : Nat) (hs : Memory.wf s = true) : Memory.wf (dropHandles s b) = true := by simp [dropHandles, hs]

@[simp] theorem Memory.wf_wipeLines (h n : Nat) (hs : Memory.wf s = true) : Memory.wf (wipeLines s h n) = true :=
  Memory.wf_mem _ (Ram.wf_keepTags _ (Memory.wf_iff.mp hs).1) hs

theorem Memory.wf_claimParts_getD (w : Nat) (ps : List (Nat × Nat)) (hs : Memory.wf s = true) :
    Memory.wf ((claimParts s w ps).getD s) = true := by
  cases h : claimParts s w ps with
  | none => exact hs
  | some t => exact Memory.wf_claimParts w ps hs h

/-- The lines that an image is written to, forgotten and without tags. -/
theorem Memory.wf_wipeParts (ps : List (Nat × Nat)) (hs : Memory.wf s = true) :
    Memory.wf (ps.foldl (fun s (h, n) => wipeLines (cutImages (noteTables s h n) h n) h n) s) = true :=
  Memory.wf_foldl _ _ (fun _ _ hs => Memory.wf_wipeLines _ _ (Memory.wf_cutImages _ _ (Memory.wf_noteTables _ _ hs))) _ hs

@[simp] theorem Memory.wf_placeImage (b : Nat) (B : Block) (slot : Option Nat) (hs : Memory.wf s = true) :
    Memory.wf (placeImage s b B slot) = true := by
  -- whatever parts stage 2 gives: to compute them, the kernel would count through the length of the image
  obtain ⟨parts, hp⟩ : ∃ p : Ctx → Nat → Except Nat (List (Nat × Nat)), ∀ c a,
      guestParts s c.func true (blockIsz s B / 2 ^ 21 + 2) (c.saveb + a) (blockIsz s B) = p c a := ⟨_, fun _ _ => rfl⟩
  unfold placeImage
  simp only [hp]
  split
  · split
    · simp only [State.fresh_eq, Memory.wf_mk, storagesWf_self]
      exact Memory.wf_wipeParts _ (Memory.wf_claimParts_getD _ _ hs)
    · exact hs
  · exact hs

@[simp] theorem Memory.wf_chargeSave (b core : Nat) (hs : Memory.wf s = true) : Memory.wf (chargeSave s b core) = true := by
  simp [chargeSave, hs]

/-- Words written into an empty scratchpad leave it in canonical form. -/
theorem Ram.wf_writes (l : List Nat) (a : Nat → Nat) (f : Nat → List Byte) {m : Ram} (hm : m.wf = true) :
    (l.foldl (fun (m : Ram) i => m.write (a i) (f i)) m).wf = true :=
  List.foldlRecOn _ _ (motive := fun m : Ram => m.wf = true) hm fun _ h _ _ => Ram.wf_write _ _ h

@[simp] theorem Memory.wf_spoil (b : Nat) (hs : Memory.wf s = true) : Memory.wf (spoil s b) = true := by
  unfold spoil
  rw [Memory.wf_mk, storagesWf_self]
  refine Memory.wf_modBlock _ _ (fun B _ => Ram.wf_writes _ _ _ Ram.wf_empty) ?_
  refine Memory.wf_foldl _ _ (fun s x hs => ?_) _ hs
  exact Memory.wf_modGroup _ _ _ hs

@[simp] theorem Memory.wf_restoreBlock (b core base : Nat) (fold : Bool) (hs : Memory.wf s = true) :
    Memory.wf (restoreBlock s b core base fold) = true := by
  unfold restoreBlock
  split
  · exact hs
  · split
    · exact hs
    · next c _ =>
      split
      · exact Memory.wf_lineEvent _ _ hs
      · have hc := Memory.wf_acquireCore core (Memory.wf_enterWorld core c (Memory.wf_setSplit core c.spu hs))
        have ho : ∀ {u : State} (os : Tab Op), Memory.wf u = true → Memory.wf { u with ops := os } = true :=
          fun _ hu => Memory.wf_of_eq hu rfl rfl rfl
        dsimp only
        refine Memory.wf_chargeSave _ _ (Memory.wf_foldl _ _ (fun s x hs => Memory.wf_settleDispo _ hs) _
          (Memory.wf_ite (Memory.wf_scanSpm _ _ (Memory.wf_sweepJoin _ ?_)) ?_))
        all_goals
          refine Memory.wf_modCore _ _ (Memory.wf_foldl _ _ (fun s x hs => ?_) _
            (ho _ (Memory.wf_modBlock _ _ (fun _ h => h) (Memory.wf_ite (Memory.wf_spoil _ hc) hc))))
          simp [hs]

@[simp] theorem Memory.wf_restorePlan (plan : Plan) (fold : Bool) (hs : Memory.wf s = true) :
    Memory.wf (restorePlan s plan fold) = true := by
  unfold restorePlan
  simp +contextual [hs, Memory.wf_foldl]

@[simp] theorem Memory.wf_yieldDry (core : Nat) (hs : Memory.wf s = true) : Memory.wf (yieldDry s core) = true := by
  unfold yieldDry
  dsimp only
  repeat' split
  all_goals simp [hs]

@[simp] theorem Memory.wf_newDebug (f : Nat → Ctx → Bool) (hs : Memory.wf s = true) : Memory.wf (newDebug s f) = true := by
  simp [newDebug, hs]

@[simp] theorem Memory.wf_place (core pasid : Nat) (r : Ready) (plan : Plan) (hs : Memory.wf s = true) :
    Memory.wf (place s core pasid r plan) = true := by
  unfold place
  repeat' split
  all_goals simp [hs]

@[simp] theorem Memory.wf_nextSlice (d : Nat) (hs : Memory.wf s = true) : Memory.wf (nextSlice s d) = true := by
  unfold nextSlice
  dsimp only
  have h : Memory.wf ((newDebug s fun _ c => inPartitions s c d).modDie d
      fun D => { D with ents := entriesOf (newDebug s fun _ c => inPartitions s c d) d }) = true :=
    Memory.wf_modDie _ _ (fun _ h => h) (Memory.wf_newDebug _ hs)
  split
  · exact Memory.wf_modDie _ _ (fun _ h => h) h
  · exact Memory.wf_saveWith _ (Memory.wf_modDie _ _ (fun _ h => h) h)

@[simp] theorem Memory.wf_discard (f : Nat → Bool) (hs : Memory.wf s = true) : Memory.wf (discard s f) = true := by
  grind [discard, Memory.wf_drainBlock, Memory.wf_removeBlock, Memory.wf_settleVacs, Memory.wf_mk, storagesWf_self, Memory.wf_foldl]

@[simp] theorem Memory.wf_endAll (f : Nat → Bool) (code : Nat) (hs : Memory.wf s = true) : Memory.wf (endAll s f code) = true := by
  grind [endAll, Memory.wf_modLaunch, Memory.wf_endLaunch, Memory.wf_mk, storagesWf_self, Memory.wf_foldl]

@[simp] theorem Memory.wf_deschedule (f : Nat) (hs : Memory.wf s = true) : Memory.wf (deschedule s f) = true := by simp [deschedule, hs]

@[simp] theorem Memory.wf_backToImage (b : Nat) (B : Block) (hs : Memory.wf s = true) : Memory.wf (backToImage s b B) = true := by
  simp [backToImage, hs, Memory.wf_modBlock]

@[simp] theorem Memory.wf_vacate (q : Cmd) (d : Nat) (mask : DWord) (hs : Memory.wf s = true) : Memory.wf (vacate q d mask s) = true := by
  grind [vacate, Memory.wf_modCore, Memory.wf_beginSaves, Memory.wf_saveWith, Memory.wf_modBlock, Memory.wf_settleVacs, Memory.wf_mk,
    storagesWf_self, Memory.wf_foldl]

@[simp] theorem Memory.wf_wscopyStore (w : WsCopy) (world : Nat) (bs : List Byte) (hs : Memory.wf s = true) :
    Memory.wf (wscopyStore s w world bs) = true :=
  Memory.wf_reply _ _ _ (Memory.wf_modDie _ _ (fun _ hD => cellsWf_cellsWrite _ _ hD) hs)

@[simp] theorem Memory.wf_wscopyCharge (w : WsCopy) (parts : List (Nat × Nat × Nat)) (hs : Memory.wf s = true) :
    Memory.wf (wscopyCharge s w parts) = true := by
  grind [wscopyCharge, Memory.wf_chargeLines, Memory.wf_mk, storagesWf_self, Memory.wf_foldl]

@[simp] theorem Memory.wf_interrupt (func idx : Nat) (hs : Memory.wf s = true) : Memory.wf (interrupt s func idx) = true := by
  simp [interrupt, hs]

@[simp] theorem Memory.wf_ringWrite (k : Nat) (hs : Memory.wf s = true) : Memory.wf (ringWrite s k) = true := by
  grind [ringWrite, Memory.wf_devWrite, Memory.wf_modRing, Memory.wf_retryPosted, Memory.wf_interrupt, Memory.wf_mk, storagesWf_self]

end Sys2Proof.Machine
end

section
/-!
PROOFS. What keeps the canonical form of memory: world ends, what other packages ask and answer, and debug stops.
-/

namespace Sys2Proof.Machine

variable {s : State}

@[simp] theorem Memory.wf_closeAccount (w n : Nat) (hs : Memory.wf s = true) : Memory.wf (closeAccount s w n) = true := by
  simp [closeAccount, hs]

@[simp] theorem Memory.wf_poisonLine (l : Nat) (hs : Memory.wf s = true) : Memory.wf (poisonLine s l) = true := by simp [poisonLine, hs]

@[simp] theorem Memory.wf_writeNear (core : Nat) (ps : List (Nat × Nat × Nat)) (bs : List Byte) (hs : Memory.wf s = true) :
    Memory.wf (writeNear s core ps bs) = true := by
  induction ps generalizing s bs with
  | nil => exact hs
  | cons p r ih => exact ih _ (Memory.wf_ite hs (Memory.wf_homeWrite _ _ _ hs))

@[simp] theorem Memory.wf_copyAnswer (k : Nat) (o : Op) (q : LReq) (value : Nat) (hs : Memory.wf s = true) :
    Memory.wf (copyAnswer s k o q value) = true := by
  grind [copyAnswer, Memory.wf_modOp, Memory.wf_lineEvent, Memory.wf_chargeParts, Memory.wf_gotSource, Memory.wf_finishPart,
    Memory.wf_landPart, Memory.wf_mk, storagesWf_self]

@[simp] theorem Memory.wf_orphanDone (a : Asked) (n : Nat) (hs : Memory.wf s = true) : Memory.wf (orphanDone s a n) = true := by
  simp [orphanDone, hs]

@[simp] theorem Memory.wf_remoteDone (k lane value : Nat) (tag : Bool) (hs : Memory.wf s = true) :
    Memory.wf (remoteDone s k lane value tag) = true := by
  unfold remoteDone
  refine Memory.wf_ite (Memory.wf_orphanDone _ _ hs) ?_
  split
  · exact hs
  · split
    · exact hs
    · next o _ q _ =>
      dsimp only
      refine Memory.wf_ite hs (Memory.wf_ite (Memory.wf_modOp _ _ hs) (Memory.wf_ite hs (Memory.wf_ite ?_ (Memory.wf_ite ?_ (Memory.wf_ite ?_ ?_)))))
      · exact Memory.wf_storeDone _ _ (Memory.wf_writeNear _ _ _ (Memory.wf_chargeParts _ _ hs))
      · split
        · exact Memory.wf_lineEvent _ _ (Memory.wf_modOp _ _ hs)
        · exact Memory.wf_probePart _ _ _ _ _ (fun s hs => Memory.wf_landBlock _ _ _ _ _ (Memory.wf_chargeParts _ _ hs)) hs
      · exact Memory.wf_probePart _ _ _ _ _ (fun s hs => Memory.wf_copyAnswer _ _ _ _ hs) hs
      · split
        · exact Memory.wf_ite (Memory.wf_acquireCore _ (Memory.wf_modOp _ _ hs)) (Memory.wf_modOp _ _ hs)
        · split
          · exact Memory.wf_lineEvent _ _ (Memory.wf_modOp _ _ hs)
          · exact Memory.wf_modOp _ _ (Memory.wf_chargeParts _ _ hs)

@[simp] theorem Memory.wf_remotePassed (k lane : Nat) (hs : Memory.wf s = true) : Memory.wf (remotePassed s k lane) = true := by
  unfold remotePassed
  repeat' split
  all_goals simp [hs]

@[simp] theorem Memory.wf_remoteFault (k lane code : Nat) (hs : Memory.wf s = true) : Memory.wf (remoteFault s k lane code) = true := by
  unfold remoteFault
  repeat' split
  all_goals simp [hs]

@[simp] theorem Memory.wf_codeArrives (r : IRef) (ws : List Word) (hs : Memory.wf s = true) : Memory.wf (codeArrives s r ws) = true := by
  unfold codeArrives
  dsimp only
  repeat' split
  all_goals simp [hs]

@[simp] theorem Memory.wf_codeFails (r : IRef) (code : Nat) (hs : Memory.wf s = true) : Memory.wf (codeFails s r code) = true := by
  grind [codeFails, Memory.wf_orphanDone, Memory.wf_noteMoving, Memory.wf_fetchFault, Memory.wf_modIssuer, Memory.wf_mk, storagesWf_self]

@[simp] theorem Memory.wf_meterAnswer (world code : Nat) (hs : Memory.wf s = true) : Memory.wf (meterAnswer s world code) = true := by
  unfold meterAnswer
  repeat' split
  all_goals simp [hs]

@[simp] theorem Memory.wf_wscopyAnswer (id code : Nat) (data : List Byte) (hs : Memory.wf s = true) :
    Memory.wf (wscopyAnswer s id code data) = true := by
  unfold wscopyAnswer
  repeat' split
  all_goals simp [hs]

@[simp] theorem Memory.wf_answer (code : Nat) (bs : List Byte) (hs : Memory.wf s = true) : Memory.wf (answer s code bs) = true := by
  simp [answer, hs]

/-- The state that an access of another package leaves, with its answer or without one. -/
def peerState : Except State (List (Nat × Nat × Nat) × State) → State
  | .error t => t
  | .ok (_, t) => t

@[simp] theorem Memory.wf_peerAccess (pasid : Nat) (k : Cap) (x n : Nat) (write : Option Nat) (hs : Memory.wf s = true) :
    Memory.wf (peerState (peerAccess s pasid k x n write)) = true := by
  unfold peerAccess
  split
  · exact Memory.wf_answer _ _ (Memory.wf_of_eq hs rfl rfl rfl)
  · split
    · exact Memory.wf_answer _ _ (Memory.wf_translate_fault ‹_› hs)
    · exact Memory.wf_answer _ _ (Memory.wf_translate_remote ‹_› hs)
    · next h =>
      have ht := Memory.wf_translate_ok h hs
      split
      · exact hs
      · dsimp only
        split
        · exact Memory.wf_answer _ _ (Memory.wf_foldl _ _ (fun s x hs => Memory.wf_setSpan _ _ hs) _ ht)
        · exact ht

theorem Memory.wf_peerAccess_error {pasid : Nat} {k : Cap} {x n : Nat} {write : Option Nat} {t : State}
    (h : peerAccess s pasid k x n write = .error t) (hs : Memory.wf s = true) : Memory.wf t = true := by
  simpa only [h, peerState] using Memory.wf_peerAccess pasid k x n write hs

theorem Memory.wf_peerAccess_ok {pasid : Nat} {k : Cap} {x n : Nat} {write : Option Nat} {ps : List (Nat × Nat × Nat)} {t : State}
    (h : peerAccess s pasid k x n write = .ok (ps, t)) (hs : Memory.wf s = true) : Memory.wf t = true := by
  simpa only [h, peerState] using Memory.wf_peerAccess pasid k x n write hs

@[simp] theorem Memory.wf_peerRead (pasid : Nat) (k : Cap) (x n : Nat) (hs : Memory.wf s = true) : Memory.wf (peerRead s pasid k x n) = true := by
  unfold peerRead
  split
  · next h => exact Memory.wf_peerAccess_error h hs
  · next h =>
    have ht := Memory.wf_peerAccess_ok h hs
    split
    · exact Memory.wf_of_eq (Memory.wf_lineEvent _ _ ht) rfl rfl rfl
    · exact Memory.wf_answer _ _ ht

@[simp] theorem Memory.wf_peerWrite (pasid : Nat) (k : Cap) (x : Nat) (data : List Byte) (tags : List Nat) (peer : Nat) (hs : Memory.wf s = true) :
    Memory.wf (peerWrite s pasid k x data tags peer) = true := by
  unfold peerWrite
  split
  · next h => exact Memory.wf_peerAccess_error h hs
  · next h => exact Memory.wf_answer _ _ (Memory.wf_writePieces _ _ _ (Memory.wf_peerAccess_ok h hs))

@[simp] theorem Memory.wf_peerAtomic (pasid : Nat) (k : Cap) (x op : Nat) (ty : Ty) (data cmp peer : Nat) (hs : Memory.wf s = true) :
    Memory.wf (peerAtomic s pasid k x op ty data cmp peer) = true := by
  unfold peerAtomic
  dsimp only
  split
  · next h => exact Memory.wf_peerAccess_error h hs
  · next h =>
    have ht := Memory.wf_peerAccess_ok h hs
    split
    · exact Memory.wf_of_eq (Memory.wf_lineEvent _ _ ht) rfl rfl rfl
    · exact Memory.wf_answer _ _ (Memory.wf_copyWrite _ _ _ ht)
  · next h => exact Memory.wf_peerAccess_ok h hs

@[simp] theorem Memory.wf_peerQuery (pasid : Nat) (k : Cap) (x : Nat) (hs : Memory.wf s = true) :
    Memory.wf (peerQuery s pasid k x) = true := by
  unfold peerQuery
  repeat' split
  all_goals simp [hs]

@[simp] theorem Memory.wf_elementArrives (port queue pasid : Nat) (w : Word) (hs : Memory.wf s = true) :
    Memory.wf (elementArrives s port queue pasid w) = true := by
  unfold elementArrives
  dsimp only
  repeat' split
  all_goals simp +contextual [hs, Memory.wf_logAdd, Memory.wf_foldl]

@[simp] theorem Memory.wf_creditArrives (port queue n : Nat) (hs : Memory.wf s = true) :
    Memory.wf (creditArrives s port queue n) = true := by simp [creditArrives, hs]

@[simp] theorem Memory.wf_routeQueue (port queue : Nat) (route : Option (Nat × Nat × Nat)) (hs : Memory.wf s = true) :
    Memory.wf (routeQueue s port queue route) = true := by simp [routeQueue, hs]

@[simp] theorem Memory.wf_timedOut (pasid : Option Nat) (hs : Memory.wf s = true) : Memory.wf (timedOut s pasid) = true := by
  simp [timedOut, hs]

@[simp] theorem Memory.wf_dropArmed (b : Nat) (B : Block) (hs : Memory.wf s = true) : Memory.wf (dropArmed s b B) = true := by
  unfold dropArmed
  repeat' split
  all_goals simp [hs]

@[simp] theorem Memory.wf_stopAtTarget (b : Nat) (hs : Memory.wf s = true) : Memory.wf (stopAtTarget s b) = true := by
  grind [stopAtTarget, Memory.wf_reply, Memory.wf_debugStop, Memory.wf_modCtx, Memory.wf_mk, storagesWf_self]

@[simp] theorem Memory.wf_endCtx (p : Nat) (c : Ctx) (hs : Memory.wf s = true) : Memory.wf (endCtx s p c) = true := by
  grind [endCtx, Memory.wf_endAll, Memory.wf_discard, Memory.wf_reply, Memory.wf_queueFrame, Memory.wf_tlbDrop, Memory.wf_modWorld,
    Memory.wf_mk, storagesWf_self, Memory.wf_foldl]

end Sys2Proof.Machine
end

section
/-!
PROOFS. Every event of memory, blocks, dies, worlds and commands keeps the canonical form of memory.
-/

namespace Sys2Proof.Machine

variable {s : State}

theorem keeps_execClauseIssue (core : Nat) (hs : Memory.wf s = true) : Keeps (execClauseIssue core s) := by
  have hb := Memory.wf_boundaries core (Memory.wf_noteRestored (dieOf core) hs)
  unfold execClauseIssue
  refine keeps_ite (keeps_next.mpr hs) ?_
  dsimp only
  split
  · exact keeps_next.mpr hb
  · split
    · exact keeps_next.mpr hb
    · have hf := fun (x : Core) (l : List Offer) (f : Offer → Group → Group) =>
        Memory.wf_foldl l (fun s x => s.modGroup x.r.blk x.r.gidx (f x)) (fun _ _ h => Memory.wf_modGroup _ _ _ h) _ (Memory.wf_setCore core x hb)
      have hy := fun (bs : List (Nat × Block)) x l f => Memory.wf_foldl bs
        (fun s b => (s.groupsOf b.1).foldl (fun s g => s.modGroup b.1 g fun G => { G with yielded := G.yielded.filter (· != 4225) }) s)
        (fun _ _ h => Memory.wf_foldl _ _ (fun _ _ h => Memory.wf_modGroup _ _ _ h) _ h) _ (hf x l f)
      split
      · exact keeps_next.mpr (Memory.wf_doWant _ _ (hy _ _ _ _) fun _ e => Memory.wf_want (hy _ _ _ _) e)
      · exact keeps_next.mpr (hy _ _ _ _)

theorem keeps_execRcvHoldTimeout (g : GRef) (hs : Memory.wf s = true) : Keeps (execRcvHoldTimeout g s) := by
  unfold execRcvHoldTimeout
  repeat' split
  all_goals simp [hs, Memory.wf_logAdd]

theorem keeps_execTimingErrorReplay (r : IRef) (hs : Memory.wf s = true) : Keeps (execTimingErrorReplay r s) := by
  unfold execTimingErrorReplay
  split
  · exact keeps_next.mpr hs
  · split
    · exact keeps_next.mpr hs
    · split
      · exact keeps_next.mpr hs
      · dsimp only
        split
        · exact keeps_next.mpr hs
        · exact keeps_ite (keeps_next.mpr hs) (keeps_next.mpr (Memory.wf_modDie _ _ (fun _ h => h)
            (Memory.wf_foldl _ _ (fun _ _ h => Memory.wf_chargeAttempt _ _ _ _ _ h) _ (Memory.wf_free _ hs))))

theorem keeps_execMemoryRequest (op lane : Nat) (cached : Bool) (hs : Memory.wf s = true) : Keeps (execMemoryRequest op lane cached s) := by
  unfold execMemoryRequest
  split <;> simp [hs]

theorem keeps_execStoreRegister (op lane : Nat) (hs : Memory.wf s = true) : Keeps (execStoreRegister op lane s) := by
  unfold execStoreRegister
  repeat' split
  all_goals simp [hs]

theorem keeps_execLossNotice (core word : Nat) (hs : Memory.wf s = true) : Keeps (execLossNotice core word s) := by
  unfold execLossNotice
  dsimp only
  split <;> simp [hs, Memory.wf_dropL1, Memory.wf_llcLeave]

theorem keeps_execAtomicPerform (op word : Nat) (hs : Memory.wf s = true) : Keeps (execAtomicPerform op word s) := by
  grind [execAtomicPerform, Memory.wf_releaseStart, Memory.wf_parkReleasing, Memory.wf_performAtomic, Memory.wf_mk, storagesWf_self,
    Memory.wf_foldl, keeps_next]

theorem keeps_execLoadArrival (op k : Nat) (hs : Memory.wf s = true) : Keeps (execLoadArrival op k s) := by
  unfold execLoadArrival
  repeat' split
  all_goals simp [hs]

theorem keeps_execWcDrainTimeout (core line : Nat) (hs : Memory.wf s = true) : Keeps (execWcDrainTimeout core line s) := by
  unfold execWcDrainTimeout
  repeat' split
  all_goals simp [hs]

theorem keeps_execRefreshWindowStart (hs : Memory.wf s = true) : Keeps (execRefreshWindowStart s) := by
  grind [execRefreshWindowStart, Memory.wf_modDie, Memory.wf_mk, storagesWf_self, Memory.wf_foldl, keeps_next]

theorem keeps_execRefreshWindowEnd (hs : Memory.wf s = true) : Keeps (execRefreshWindowEnd s) := by
  unfold execRefreshWindowEnd
  dsimp only
  repeat' split
  all_goals simp +contextual [hs, Memory.wf_modDie, Memory.wf_foldl]

theorem keeps_execWindowTransferComplete (op lane : Nat) (hs : Memory.wf s = true) : Keeps (execWindowTransferComplete op lane s) := by
  unfold execWindowTransferComplete
  repeat' split
  all_goals simp [hs, Memory.wf_spmFrom]

theorem keeps_execCopyPart (op lane part : Nat) (cached : Bool) (hs : Memory.wf s = true) : Keeps (execCopyPart op lane part cached s) := by
  unfold execCopyPart
  dsimp only
  repeat' split
  all_goals simp +contextual [hs]

theorem keeps_execCopyComplete (op lane : Nat) (hs : Memory.wf s = true) : Keeps (execCopyComplete op lane s) := by
  grind [execCopyComplete, Memory.wf_postTicket, Memory.wf_logAdd, Memory.wf_lowerCtr, Memory.wf_dropReq, Memory.wf_reportExited,
    Memory.wf_mk, storagesWf_self, keeps_next]

theorem keeps_execOloadComplete (op : Nat) (hs : Memory.wf s = true) : Keeps (execOloadComplete op s) := by
  unfold execOloadComplete
  repeat' split
  all_goals simp [hs, Memory.wf_logAdd]

theorem keeps_execTileOpStart (core : Nat) (hs : Memory.wf s = true) : Keeps (execTileOpStart core s) := by
  unfold execTileOpStart
  split <;> simp [hs]

theorem keeps_execMpairRetire (op : Nat) (hs : Memory.wf s = true) : Keeps (execMpairRetire op s) := by
  unfold execMpairRetire
  dsimp only
  repeat' split
  all_goals simp [hs]

theorem keeps_execTileOpComplete (op : Nat) (hs : Memory.wf s = true) : Keeps (execTileOpComplete op s) := by
  unfold execTileOpComplete
  repeat' split
  all_goals simp [hs]

theorem keeps_execBar (e : Scope) (hs : Memory.wf s = true) : Keeps (execBar e s) :=
  keeps_releaseOp hs fun _ _ hs => keeps_done _ _ (Memory.wf_acquireNow _ hs)

theorem keeps_execBarComplete (g : GRef) (hs : Memory.wf s = true) : Keeps (execBarComplete g s) := by
  have hc : ∀ c, Memory.wf { s with cur := c } = true := fun _ => hs
  unfold execBarComplete
  dsimp only
  repeat' split
  case h_2 => exact keeps_execBar _ (hc _)
  all_goals exact keeps_next.mpr hs

theorem keeps_execGangBarrierArrival (b : Nat) (hs : Memory.wf s = true) : Keeps (execGangBarrierArrival b s) := by
  unfold execGangBarrierArrival
  repeat' split
  all_goals simp [hs]

theorem keeps_execSstepArrival (b : Nat) (hs : Memory.wf s = true) : Keeps (execSstepArrival b s) := by
  unfold execSstepArrival
  repeat' split
  all_goals simp [hs]

theorem keeps_execBlockExit (b : Nat) (hs : Memory.wf s = true) : Keeps (execBlockExit b s) := by
  grind [execBlockExit, Memory.wf_settleVacs, Memory.wf_removeBlock, Memory.wf_handlerDispo, Memory.wf_modGrid, Memory.wf_modLaunch,
    Memory.wf_completeBar, Memory.wf_mk, storagesWf_self, Memory.wf_foldl, keeps_next]

theorem keeps_execChildGridComplete (grid : Nat) (hs : Memory.wf s = true) : Keeps (execChildGridComplete grid s) := by
  unfold execChildGridComplete
  split
  · exact keeps_next.mpr hs
  · split
    · exact keeps_next.mpr hs
    · split
      · exact keeps_next.mpr (Memory.wf_of_eq hs rfl rfl rfl)
      · split
        · refine keeps_ite (keeps_next.mpr hs) (keeps_next.mpr ?_)
          rw [Memory.wf_mk, storagesWf_self]
          exact Memory.wf_modBlock _ _ (fun _ h => h) (Memory.wf_foldl _ _ (fun _ _ h => Memory.wf_modGroup _ _ _ h) _ hs)
        · exact keeps_next.mpr hs

/-! ### Commands -/

theorem keeps_pfOnly (q : Cmd) {go : State} (hs : Memory.wf s = true) (hgo : Memory.wf go = true) : Keeps (pfOnly s q go) :=
  keeps_next.mpr (Memory.wf_ite hgo (Memory.wf_reply _ _ _ hs))

theorem keeps_ownCtx (q : Cmd) {go : Nat → Ctx → State} (hs : Memory.wf s = true) (hgo : ∀ p c, Memory.wf (go p c) = true) :
    Keeps (ownCtx s q go) := by
  refine keeps_next.mpr ?_
  split
  · split
    · exact hgo _ _
    · exact Memory.wf_reply _ _ _ hs
  · exact Memory.wf_reply _ _ _ hs

theorem keeps_execInvalObject (q : Cmd) (obn : DWord) (hs : Memory.wf s = true) : Keeps (execInvalObject q obn s) := by
  grind [execInvalObject, keeps_ownCtx, Memory.wf_reply, Memory.wf_beginInval, Memory.wf_mk, storagesWf_self, keeps_next]

theorem keeps_execInvalSpan (q : Cmd) (obn span : DWord) (hs : Memory.wf s = true) : Keeps (execInvalSpan q obn span s) := by
  grind [execInvalSpan, keeps_ownCtx, Memory.wf_reply, Memory.wf_beginInval, Memory.wf_mk, storagesWf_self, keeps_next]

theorem keeps_execInvalStage2 (q : Cmd) (frame : DWord) (hs : Memory.wf s = true) : Keeps (execInvalStage2 q frame s) := by
  grind [execInvalStage2, keeps_ownCtx, Memory.wf_reply, Memory.wf_beginInval, Memory.wf_mk, storagesWf_self, keeps_next]

theorem keeps_execInvalidationComplete (inv : Nat) (hs : Memory.wf s = true) : Keeps (execInvalidationComplete inv s) := by
  grind [execInvalidationComplete, Memory.wf_tlbDrop, Memory.wf_freeFrame, Memory.wf_forgetSpans, Memory.wf_reply, Memory.wf_mk,
    storagesWf_self, keeps_next]

theorem keeps_execSweepRegisterScan (g : GRef) (hs : Memory.wf s = true) : Keeps (execSweepRegisterScan g s) := by
  unfold execSweepRegisterScan
  dsimp only
  repeat' split
  all_goals simp [hs]

theorem keeps_execSweepComplete (pasid : Nat) (hs : Memory.wf s = true) : Keeps (execSweepComplete pasid s) := by
  grind [execSweepComplete, Memory.wf_scanImages, Memory.wf_scanGrids, Memory.wf_scanMemory, Memory.wf_scanSpm, Memory.wf_scanGroup,
    Memory.wf_modCtx, Memory.wf_setSwg, Memory.wf_mk, storagesWf_self, Memory.wf_foldl, keeps_next]

theorem keeps_execRevoke (q : Cmd) (obn : DWord) (hs : Memory.wf s = true) : Keeps (execRevoke q obn s) := by
  grind [execRevoke, keeps_ownCtx, Memory.wf_reply, Memory.wf_startSweep, Memory.wf_advanceGen, State.fresh, Memory.wf_mk, storagesWf_self,
    keeps_next]

theorem keeps_execRevokeProceed (rev : Nat) (hs : Memory.wf s = true) : Keeps (execRevokeProceed rev s) := by
  unfold execRevokeProceed
  repeat' split
  all_goals simp [hs]

theorem keeps_execRevocationPoint (rev : Nat) (hs : Memory.wf s = true) : Keeps (execRevocationPoint rev s) := by
  grind [execRevocationPoint, Memory.wf_tlbDrop, Memory.wf_startSweep, Memory.wf_reply, Memory.wf_mk, storagesWf_self, keeps_next]

theorem keeps_execSpanMoveComplete (span : SpanRef) (data : SpanLoad) (tags : List Nat) (hs : Memory.wf s = true) :
    Keeps (execSpanMoveComplete span data tags s) := by
  grind [execSpanMoveComplete, Memory.wf_fillSpan, Memory.wf_devWrite, Memory.wf_tlbDrop, Memory.wf_retryMoved, Memory.wf_setSpan,
    Memory.wf_mk, storagesWf_self, keeps_next]

theorem keeps_execSettleExpiry (span : SpanRef) (hs : Memory.wf s = true) : Keeps (execSettleExpiry span s) := by
  unfold execSettleExpiry
  dsimp only
  split <;> simp [hs]

theorem keeps_execChargeReport (hs : Memory.wf s = true) : Keeps (execChargeReport s) := by
  unfold execChargeReport
  split <;> simp [hs]

theorem keeps_execLeaseGrant (watts ms : Nat) (hs : Memory.wf s = true) : Keeps (execLeaseGrant watts ms s) := by
  unfold execLeaseGrant
  split <;> simp [hs]

theorem keeps_execLeaseExpiry (hs : Memory.wf s = true) : Keeps (execLeaseExpiry s) := by
  unfold execLeaseExpiry
  repeat' split
  all_goals simp [hs]

theorem keeps_execPowerCeilingExpiry (die : Nat) (hs : Memory.wf s = true) : Keeps (execPowerCeilingExpiry die s) := by
  unfold execPowerCeilingExpiry
  dsimp only
  split <;> simp [hs, Memory.wf_setDie]

theorem keeps_execMarginRelax (die : Nat) (hs : Memory.wf s = true) : Keeps (execMarginRelax die s) := by
  unfold execMarginRelax
  dsimp only
  split <;> simp [hs, Memory.wf_setDie]

theorem keeps_execStepChangeBegin (die : Nat) (hs : Memory.wf s = true) : Keeps (execStepChangeBegin die s) := by
  unfold execStepChangeBegin
  dsimp only
  repeat' split
  all_goals simp [hs, Memory.wf_setDie]

theorem keeps_execSupplyRampEnd (die : Nat) (hs : Memory.wf s = true) : Keeps (execSupplyRampEnd die s) := by
  unfold execSupplyRampEnd
  dsimp only
  split <;> simp [hs, Memory.wf_setDie]

@[simp] theorem Die.record_ws (d : Die) (die n cause t : Nat) : (d.record die n cause t).ws = d.ws := rfl

theorem keeps_execRelockEnd (die : Nat) (hs : Memory.wf s = true) : Keeps (execRelockEnd die s) := by
  unfold execRelockEnd
  dsimp only
  split
  · exact keeps_ite (keeps_next.mpr (Memory.wf_setDie _ (Die.relocked_ws ..) hs)) (keeps_next.mpr hs)
  · exact keeps_next.mpr hs

theorem keeps_execSupplyLowerEnd (die : Nat) (hs : Memory.wf s = true) : Keeps (execSupplyLowerEnd die s) := by
  unfold execSupplyLowerEnd
  dsimp only
  split <;> simp [hs, Memory.wf_setDie]

theorem keeps_execReturnToService (die step : Nat) (hs : Memory.wf s = true) : Keeps (execReturnToService die step s) :=
  keeps_ite (keeps_next.mpr hs) (keeps_next.mpr (Memory.wf_setDie _ (by simp) hs))

theorem keeps_execDieRetire (die : Nat) (hs : Memory.wf s = true) : Keeps (execDieRetire die s) := by
  grind [execDieRetire, Memory.wf_leaveSlice, Memory.wf_setDie, Memory.wf_integrity, Memory.wf_saveWith, Memory.wf_mk, storagesWf_self,
    keeps_next]

theorem keeps_execTick (ms : List Int) (hs : Memory.wf s = true) : Keeps (execTick ms s) := by
  have ho := Memory.wf_oldReports hs
  have hr : ∀ {u : State} (e : Energy), Memory.wf u = true → Memory.wf { u with energy := e } = true := fun _ hu => hu
  refine keeps_ite (keeps_next.mpr hs) (keeps_next.mpr ?_)
  rw [Memory.wf_mk, storagesWf_self]
  refine Memory.wf_foldl _ _ (fun _ _ h => Memory.wf_tickDie _ _ _ h) _ (hr _ (Memory.wf_chargeStatic (Memory.wf_ite ho ?_)))
  exact Memory.wf_foldl _ _ (fun _ _ h => Memory.wf_correctDom _ h) _ (Memory.wf_sampleTick (Memory.wf_correctReadings (Memory.wf_noteBounded ho)))

theorem keeps_execMeterSample (g : GRef) (hs : Memory.wf s = true) : Keeps (execMeterSample g s) := by simp [execMeterSample, hs]

theorem keeps_execMeterReadingWrite (world : Nat) (hs : Memory.wf s = true) : Keeps (execMeterReadingWrite world s) := by
  unfold execMeterReadingWrite
  split
  · exact keeps_next.mpr hs
  · split
    · exact keeps_next.mpr hs
    · refine keeps_ite (keeps_next.mpr hs) ?_
      split
      · next h => exact keeps_next.mpr (Memory.wf_meterFault _ _ (Memory.wf_modWorld _ _ (Memory.wf_translate_fault h hs)))
      · next h => exact keeps_next.mpr (Memory.wf_modWorld _ _ (Memory.wf_translate_remote h hs))
      · next h =>
        exact keeps_ite (keeps_next.mpr hs)
          (keeps_next.mpr (Memory.wf_readingDone _ _ _ _ (Memory.wf_writeReading _ _ _ _ (Memory.wf_translate_ok h hs))))

theorem keeps_execLaunchRecord (iface : Nat) (rec : BitVec 512) (hs : Memory.wf s = true) : Keeps (execLaunchRecord iface rec s) := by
  simp [execLaunchRecord, hs]

theorem keeps_execLaunchComplete (pasid seq : Nat) (hs : Memory.wf s = true) : Keeps (execLaunchComplete pasid seq s) := by
  unfold execLaunchComplete
  repeat' split
  all_goals simp [hs]

theorem keeps_execBlockSave (b : Nat) (hs : Memory.wf s = true) : Keeps (execBlockSave b s) := by
  grind [execBlockSave, Memory.wf_drainBlock, Memory.wf_deliverLoads, Memory.wf_dropHandles, Memory.wf_modCore, Memory.wf_modGroup,
    Memory.wf_chargeSave, Memory.wf_placeImage, Memory.wf_settleVacs, Memory.wf_modBlock, Memory.wf_mk, storagesWf_self, Memory.wf_foldl,
    keeps_next]

theorem keeps_execBlockPlacement (core : Nat) (hs : Memory.wf s = true) : Keeps (execBlockPlacement core s) := by
  unfold execBlockPlacement
  repeat' split
  all_goals simp [hs]

theorem keeps_execBlockRestore (b core : Nat) (hs : Memory.wf s = true) : Keeps (execBlockRestore b core s) := by
  unfold execBlockRestore
  repeat' split
  all_goals simp [hs]

theorem keeps_execSliceEnd (die : Nat) (hs : Memory.wf s = true) : Keeps (execSliceEnd die s) := by simp [execSliceEnd, hs]

theorem keeps_execGangReady (die : Nat) (hs : Memory.wf s = true) : Keeps (execGangReady die s) := by
  unfold execGangReady
  dsimp only
  repeat' split
  all_goals simp [hs, Memory.wf_modDie]

theorem keeps_execGangDeadline (die : Nat) (othersReady : Bool) (hs : Memory.wf s = true) : Keeps (execGangDeadline die othersReady s) := by
  grind [execGangDeadline, Memory.wf_modFunc, Memory.wf_setDie, Memory.wf_modBlock, Memory.wf_backToImage, Memory.wf_nextSlice,
    Memory.wf_deschedule, Memory.wf_mk, storagesWf_self, Memory.wf_foldl, keeps_next]

theorem keeps_execVacate (q : Cmd) (die mask : DWord) (hs : Memory.wf s = true) : Keeps (execVacate q die mask s) :=
  keeps_pfOnly _ hs (Memory.wf_ite (Memory.wf_vacate _ _ _ hs) (Memory.wf_reply _ _ _ hs))

theorem keeps_execVacateReopen (q : Cmd) (die mask : DWord) (hs : Memory.wf s = true) : Keeps (execVacateReopen q die mask s) :=
  keeps_pfOnly _ hs (Memory.wf_ite (Memory.wf_reply _ _ _ (Memory.wf_foldl _ _ (fun _ _ h => Memory.wf_modCore _ _ h) _ hs))
    (Memory.wf_reply _ _ _ hs))

theorem keeps_execPartwr (q : Cmd) (die entry : DWord) (hs : Memory.wf s = true) : Keeps (execPartwr q die entry s) := by
  refine keeps_pfOnly _ hs (Memory.wf_ite (Memory.wf_reply _ _ _ hs) (Memory.wf_ite (Memory.wf_reply _ _ _ hs)
    (Memory.wf_reply _ _ _ (Memory.wf_setDie _ ?_ hs))))
  split <;> simp

theorem keeps_execQtrd (q : Cmd) (fn idx : DWord) (hs : Memory.wf s = true) : Keeps (execQtrd q fn idx s) :=
  keeps_pfOnly _ hs (Memory.wf_ite (Memory.wf_reply _ _ _ hs) (Memory.wf_reply _ _ _ hs))

theorem keeps_execPmlimApply (core : Nat) (hs : Memory.wf s = true) : Keeps (execPmlimApply core s) := by
  unfold execPmlimApply
  split <;> simp [hs]

theorem keeps_execWscopy (q : Cmd) (obn off die woff len : DWord) (hs : Memory.wf s = true) :
    Keeps (execWscopy q obn off die woff len s) := by
  grind [execWscopy, keeps_ownCtx, Memory.wf_reply, State.fresh, Memory.wf_mk, storagesWf_self, keeps_next]

theorem keeps_execWscopyProceed (id : Nat) (hs : Memory.wf s = true) : Keeps (execWscopyProceed id s) := by
  unfold execWscopyProceed
  split
  · exact keeps_next.mpr hs
  · have h0 : ∀ w, Memory.wf { s with wscopies := w } = true := fun _ => hs
    dsimp only
    split
    · exact keeps_next.mpr (Memory.wf_reply _ _ _ (h0 _))
    · refine keeps_ite (keeps_next.mpr hs) ?_
      split
      · exact keeps_ite (keeps_next.mpr hs) (keeps_next.mpr (Memory.wf_reply _ _ _ (h0 _)))
      · next h => exact keeps_next.mpr (Memory.wf_of_eq (Memory.wf_chargeFab' _ _ _ (Memory.wf_translate_remote h (h0 _))) rfl rfl rfl)
      · next h =>
        have ht := Memory.wf_translate_ok h (h0 _)
        refine keeps_ite (keeps_next.mpr hs) ?_
        split
        · exact keeps_next.mpr (Memory.wf_reply _ _ _ (Memory.wf_lineEvent _ _ ht))
        · exact keeps_next.mpr (Memory.wf_wscopyStore _ _ _ (Memory.wf_wscopyCharge _ _ ht))

theorem keeps_execFaultRecordPost (hs : Memory.wf s = true) : Keeps (execFaultRecordPost s) := by
  unfold execFaultRecordPost
  repeat' split
  all_goals simp [hs]

theorem keeps_execRetry (q : Cmd) (sub : DWord) (hs : Memory.wf s = true) : Keeps (execRetry q sub s) := by
  grind [execRetry, keeps_ownCtx, Memory.wf_reply, Memory.wf_reissue, Memory.wf_mk, storagesWf_self, keeps_next]

theorem keeps_execDispose (q : Cmd) (sub word : DWord) (hs : Memory.wf s = true) : Keeps (execDispose q sub word s) := by
  grind [execDispose, keeps_ownCtx, Memory.wf_reply, Memory.wf_disposeOf, Memory.wf_mk, storagesWf_self, keeps_next]

theorem keeps_execHandler (q : Cmd) (code entry rootLo rootHi : DWord) (hs : Memory.wf s = true) :
    Keeps (execHandler q code entry rootLo rootHi s) := by
  grind [execHandler, keeps_ownCtx, Memory.wf_reply, Memory.wf_modCtx, Memory.wf_mk, storagesWf_self, keeps_next]

theorem keeps_execWorldnew (q : Cmd) (world p0 p1 p2 p3 : DWord) (hs : Memory.wf s = true) : Keeps (execWorldnew q world p0 p1 p2 p3 s) :=
  have h0 : ∀ w, Memory.wf { s with worlds := w } = true := fun _ => hs
  keeps_pfOnly _ hs (Memory.wf_ite (Memory.wf_reply _ _ _ hs) (Memory.wf_ite (Memory.wf_reply _ _ _ hs) (Memory.wf_reply _ _ _ (h0 _))))

theorem keeps_execWorldend (q : Cmd) (world : DWord) (hs : Memory.wf s = true) : Keeps (execWorldend q world s) := by
  refine keeps_pfOnly _ hs (Memory.wf_ite (Memory.wf_reply _ _ _ hs) ?_)
  split
  · exact Memory.wf_reply _ _ _ hs
  · exact Memory.wf_ite (Memory.wf_reply _ _ _ hs) (Memory.wf_modWorld _ _ (Memory.wf_foldl _ _ (fun _ _ h => Memory.wf_queueFrame _ h) _ hs))

theorem keeps_execWorldEndComplete (world : Nat) (hs : Memory.wf s = true) : Keeps (execWorldEndComplete world s) := by
  have h0 : ∀ n w, Memory.wf { s with nextId := n, worlds := w } = true := fun _ _ => hs
  unfold execWorldEndComplete
  split
  · exact keeps_next.mpr hs
  · split
    · exact keeps_next.mpr hs
    · refine keeps_ite (keeps_next.mpr hs) (keeps_next.mpr (Memory.wf_post _ _ _ _ ?_))
      have hc := Memory.wf_closeAccount world s.nextId (h0 (s.nextId + 1) (tdel s.worlds world))
      split
      · exact Memory.wf_post _ _ _ _ hc
      · exact hc

theorem keeps_execKeyrel (q : Cmd) (blob : DWord) (hs : Memory.wf s = true) : Keeps (execKeyrel q blob s) := by
  refine keeps_pfOnly _ hs ?_
  split
  · exact Memory.wf_reply _ _ _ hs
  · split
    · exact Memory.wf_reply _ _ _ hs
    · exact Memory.wf_reply _ _ _ (Memory.wf_modWorld _ _ hs)

theorem keeps_execKeyret (q : Cmd) (world slot : DWord) (hs : Memory.wf s = true) : Keeps (execKeyret q world slot s) := by
  refine keeps_pfOnly _ hs (Memory.wf_ite (Memory.wf_reply _ _ _ hs) ?_)
  split
  · exact Memory.wf_reply _ _ _ hs
  · exact Memory.wf_ite (Memory.wf_reply _ _ _ hs) (Memory.wf_modWorld _ _ hs)

theorem keeps_execKeyretComplete (world : Nat) (hs : Memory.wf s = true) : Keeps (execKeyretComplete world s) := by
  unfold execKeyretComplete
  repeat' split
  all_goals simp [hs]

theorem keeps_execFrameScrub (frame : Nat) (hs : Memory.wf s = true) : Keeps (execFrameScrub frame s) := fun _ h => Memory.wf_frameScrub _ hs h

theorem keeps_execLinkPacketReceive (p : LinkPacket) (hs : Memory.wf s = true) : Keeps (execLinkPacketReceive p s) := by
  unfold execLinkPacketReceive
  repeat' split
  all_goals simp [hs]

theorem keeps_execUncorrectableError (place : ErrPlace) (hs : Memory.wf s = true) : Keeps (execUncorrectableError place s) := by
  refine keeps_next.mpr ?_
  cases place with
  | regs core p => exact Memory.wf_modCore _ _ (Memory.wf_integrity _ _ _ _ _ hs)
  | near core p => exact Memory.wf_integrity _ _ _ _ _ hs
  | llc h p => exact Memory.wf_integrity _ _ _ _ _ (Memory.wf_poisonLine _ hs)
  | ws d off p => exact Memory.wf_integrity _ _ _ _ _ (Memory.wf_modDie _ _ (fun _ h => h) hs)
  | hbm h p => exact Memory.wf_integrity _ _ _ _ _ (Memory.wf_poisonLine _ hs)
  | badMac h => exact Memory.wf_mem _ (Memory.wf_iff.mp hs).1 hs
  | corrected => exact hs

theorem keeps_execLinkCrcError (a0 : Nat) (hs : Memory.wf s = true) : Keeps (execLinkCrcError a0 s) := by simp [execLinkCrcError, hs]

theorem keeps_execFabricPacketArrival (p : FabricPacket) (hs : Memory.wf s = true) : Keeps (execFabricPacketArrival p s) := by
  refine keeps_next.mpr ?_
  cases p with
  | remoteTranslate pasid cap x n writer =>
    dsimp only
    split
    · next h => exact Memory.wf_peerAccess_error h hs
    · next h => exact Memory.wf_answer _ _ (Memory.wf_peerAccess_ok h hs)
  | revoke pasid obn gen => exact Memory.wf_ite (Memory.wf_peerRevoke _ _ _ hs) hs
  | element port queue pasid w => exact Memory.wf_ite (Memory.wf_elementArrives _ _ _ _ hs) hs
  | credit port queue n => exact Memory.wf_ite (Memory.wf_creditArrives _ _ _ hs) hs
  | route port queue route => exact Memory.wf_ite (Memory.wf_routeQueue _ _ _ hs) hs
  | response op lane v t => exact Memory.wf_remoteDone _ _ _ _ hs
  | translated op lane => exact Memory.wf_remotePassed _ _ hs
  | fault op lane code => exact Memory.wf_remoteFault _ _ _ hs
  | code r ws => exact Memory.wf_codeArrives _ _ hs
  | codeFault r code => exact Memory.wf_codeFails _ _ hs
  | meter world code => exact Memory.wf_meterAnswer _ _ hs
  | wscopy id code data => exact Memory.wf_wscopyAnswer _ _ _ hs
  | remoteRead pasid cap x n => exact Memory.wf_peerRead _ _ _ _ hs
  | remoteWrite pasid cap x data tags peer => exact Memory.wf_peerWrite _ _ _ _ _ _ hs
  | remoteAtomic pasid cap x op ty data cmp peer => exact Memory.wf_peerAtomic _ _ _ _ _ _ _ _ hs
  | remoteQuery pasid cap x => exact Memory.wf_peerQuery _ _ _ hs

theorem keeps_execCompletionTimeout (q : Asked) (n : Nat) (hs : Memory.wf s = true) : Keeps (execCompletionTimeout q n s) := by
  unfold execCompletionTimeout
  split
  · exact keeps_next.mpr (Memory.wf_timedOut _ (Memory.wf_orphanDone _ _ hs))
  · refine keeps_next.mpr ?_
    cases q with
    | op k =>
      dsimp only
      split
      · exact Memory.wf_ite hs (Memory.wf_timedOut _ (Memory.wf_dropReq _ _ hs))
      · exact hs
    | code b g =>
      dsimp only
      split
      · exact Memory.wf_ite hs (Memory.wf_timedOut _ (Memory.wf_modIssuer _ _ hs))
      · exact hs
    | wscopy =>
      dsimp only
      split
      · split
        · exact Memory.wf_ite hs (Memory.wf_reply _ _ _ (Memory.wf_timedOut _ (Memory.wf_of_eq hs rfl rfl rfl)))
        · exact hs
      · exact hs
    | meter =>
      dsimp only
      split
      · exact hs
      · split
        · split
          · exact Memory.wf_ite hs (Memory.wf_timedOut _ (Memory.wf_modWorld _ _ hs))
          · exact hs
        · exact hs

theorem keeps_execCheckpoint (b : Nat) (hs : Memory.wf s = true) : Keeps (execCheckpoint b s) := by
  unfold execCheckpoint
  split
  · exact keeps_next.mpr hs
  · next B _ =>
    refine keeps_ite (keeps_next.mpr hs) ?_
    have hd := Memory.wf_traceRec b 0 4 0 (Memory.wf_deliverLoads b (Memory.wf_drainBlock b hs))
    have hb := fun (f : Block → Block) hf =>
      Memory.wf_modBlock b f hf (Memory.wf_chargeSave b B.home (Memory.wf_ite (p := (tget? s.ckpts b).isNone) hd (Memory.wf_dropArmed b B hd)))
    dsimp only
    split
    · rw [keeps_next, Memory.wf_mk, storagesWf_self]
      exact Memory.wf_placeImage _ _ _ (hb _ fun _ h => h)
    · exact keeps_next.mpr (hb _ fun _ h => h)

theorem keeps_pfCtx (q : Cmd) {go : Nat → Ctx → State} (hs : Memory.wf s = true) (hgo : ∀ p c, Memory.wf (go p c) = true) :
    Keeps (pfCtx s q go) := keeps_ite (keeps_ownCtx _ hs hgo) (keeps_next.mpr (Memory.wf_reply _ _ _ hs))

theorem keeps_execDbgwr (q : Cmd) (desc : DWord) (hs : Memory.wf s = true) : Keeps (execDbgwr q desc s) := by
  grind [execDbgwr, keeps_pfCtx, Memory.wf_reply, Memory.wf_modCtx, Memory.wf_mk, storagesWf_self, keeps_next]

theorem keeps_execStopNow (q : Cmd) (hs : Memory.wf s = true) : Keeps (execStopNow q s) := by
  grind [execStopNow, keeps_pfCtx, Memory.wf_reply, Memory.wf_debugStop, Memory.wf_mk, storagesWf_self, keeps_next]

theorem keeps_execStopAt (q : Cmd) (b i n : DWord) (hs : Memory.wf s = true) : Keeps (execStopAt q b i n s) := by
  grind [execStopAt, keeps_pfCtx, Memory.wf_reply, Memory.wf_debugStop, Memory.wf_modCtx, Memory.wf_mk, storagesWf_self, keeps_next]

theorem keeps_execView (q : Cmd) (b i n image : DWord) (hs : Memory.wf s = true) : Keeps (execView q b i n image s) := by
  grind [execView, keeps_pfCtx, Memory.wf_reply, Memory.wf_mk, storagesWf_self, keeps_next]

theorem keeps_execResume (q : Cmd) (hs : Memory.wf s = true) : Keeps (execResume q s) := by
  grind [execResume, keeps_pfCtx, Memory.wf_reply, Memory.wf_modCtx, Memory.wf_mk, storagesWf_self, keeps_next]

theorem keeps_execCtxnew (q : Cmd) (desc ifc : DWord) (hs : Memory.wf s = true) : Keeps (execCtxnew q desc ifc s) := by
  have hr := fun c v => Memory.wf_reply q c v hs
  have hc : ∀ c, Memory.wf { s with ctxs := c } = true := fun _ => hs
  refine keeps_pfOnly _ hs (Memory.wf_ite (hr _ _) ?_)
  split
  · exact hr _ _
  · exact Memory.wf_ite (hr _ _) (Memory.wf_ite (hr _ _) (Memory.wf_reply _ _ _ (Memory.wf_modIface _ _ (hc _))))

theorem keeps_execCtxwr (q : Cmd) (iw wt rate capb : DWord) (hs : Memory.wf s = true) : Keeps (execCtxwr q iw wt rate capb s) := by
  grind [execCtxwr, keeps_ownCtx, Memory.wf_reply, Memory.wf_modCtx, Memory.wf_mk, storagesWf_self, keeps_next]

theorem keeps_execCtxend (q : Cmd) (pasid : DWord) (hs : Memory.wf s = true) : Keeps (execCtxend q pasid s) := by
  refine keeps_pfOnly _ hs (Memory.wf_ite (Memory.wf_reply _ _ _ hs) ?_)
  split
  · exact Memory.wf_reply _ _ _ hs
  · exact Memory.wf_reply _ _ _ (Memory.wf_endCtx _ _ hs)

theorem keeps_execFncfg (q : Cmd) (fn ifcs s2 remap weight : DWord) (hs : Memory.wf s = true) :
    Keeps (execFncfg q fn ifcs s2 remap weight s) :=
  have hr := fun c v => Memory.wf_reply q c v hs
  keeps_pfOnly _ hs (Memory.wf_ite (hr _ _) (Memory.wf_ite (hr _ _)
    (Memory.wf_reply _ _ _ (Memory.wf_modFunc _ _ (Memory.wf_foldl _ _ (fun _ _ h => Memory.wf_modIface _ _ h) _ hs)))))

end Sys2Proof.Machine
end

section
/-!
PROOFS. Submission entries, registers of the interfaces, the boot and the sideband keep the canonical form of memory.
-/

namespace Sys2Proof.Machine

variable {s : State}

/-! ### Submission entries -/

@[simp] theorem Memory.wf_onward {o : Out} (hs : Memory.wf s = true) (ho : Keeps o) : Memory.wf (onward s o) = true := by
  unfold onward
  split
  · exact ho _ rfl
  · exact hs

@[simp] theorem Memory.wf_command (q : Cmd) (code : Nat) (w : Nat → DWord) (hs : Memory.wf s = true) : Memory.wf (command s q code w) = true := by
  unfold command
  refine Memory.wf_onward hs ?_
  have hr := Memory.wf_reply q 1 0 hs
  split
  case h_1 => exact keeps_execCtxnew _ _ _ hs
  case h_2 => exact keeps_execCtxwr _ _ _ _ _ hs
  case h_3 => exact keeps_execCtxend _ _ hs
  case h_4 => exact keeps_execRevoke _ _ hs
  case h_5 =>
    exact keeps_ite (keeps_execInvalObject _ _ hs) (keeps_ite (keeps_execInvalSpan _ _ _ hs)
      (keeps_ite (keeps_execInvalStage2 _ _ hs) (keeps_ownCtx _ hs fun _ _ => hr)))
  case h_6 => exact keeps_execRetry _ _ hs
  case h_7 => exact keeps_execDispose _ _ _ hs
  case h_8 => exact keeps_execHandler _ _ _ _ _ hs
  case h_9 => exact keeps_execWscopy _ _ _ _ _ _ hs
  case h_10 => exact keeps_execPartwr _ _ _ hs
  case h_11 => exact keeps_ite (keeps_execVacate _ _ _ hs) (keeps_ite (keeps_execVacateReopen _ _ _ hs) (keeps_pfOnly _ hs hr))
  case h_12 => exact keeps_execKeyrel _ _ hs
  case h_13 => exact keeps_execKeyret _ _ _ hs
  case h_14 => exact keeps_execDbgwr _ _ hs
  case h_15 =>
    exact keeps_ite (keeps_execStopNow _ hs) (keeps_ite (keeps_execStopAt _ _ _ _ hs) (keeps_ite (keeps_execView _ _ _ _ _ hs)
      (keeps_ite (keeps_execResume _ hs) (keeps_pfCtx _ hs fun _ _ => hr))))
  case h_16 => exact keeps_execFncfg _ _ _ _ _ _ hs
  case h_17 => exact keeps_execWorldnew _ _ _ _ _ _ hs
  case h_18 => exact keeps_execWorldend _ _ hs
  case h_19 => exact keeps_execQtrd _ _ _ hs

@[simp] theorem Memory.wf_submit (iface : Nat) (bs : List Byte) (hs : Memory.wf s = true) : Memory.wf (submit s iface bs) = true := by
  unfold submit
  dsimp only
  repeat' split
  all_goals simp [hs]

theorem Memory.wf_takeEntry {t : State} {iface : Nat} (hs : Memory.wf s = true) (h : takeEntry s iface = some t) : Memory.wf t = true := by
  unfold takeEntry at h
  dsimp only at h
  split at h
  · cases h
  · split at h
    · cases h
    · split at h
      · cases h
      · cases h
        exact Memory.wf_submit _ _ (Memory.wf_modIface _ _ hs)

@[simp] theorem Memory.wf_takeAll (n iface : Nat) (hs : Memory.wf s = true) : Memory.wf (takeAll n s iface) = true := by
  induction n generalizing s with
  | zero => exact hs
  | succ n ih =>
    unfold takeAll
    split
    · next h => exact ih (Memory.wf_takeEntry hs h)
    · exact hs

theorem keeps_execSqt (iface : Nat) (tail : Word) (hs : Memory.wf s = true) : Keeps (execSqt iface tail s) := by
  unfold execSqt
  split <;> simp [hs]

theorem keeps_execCompletionPost (iface : Nat) (hs : Memory.wf s = true) : Keeps (execCompletionPost iface s) := by
  grind [execCompletionPost, Memory.wf_devWrite, Memory.wf_modIface, Memory.wf_settleLaunch, Memory.wf_interrupt, Memory.wf_mk,
    storagesWf_self, keeps_next]

theorem keeps_execCqh (iface : Nat) (v : Word) (hs : Memory.wf s = true) : Keeps (execCqh iface v s) := by
  unfold execCqh
  dsimp only
  split <;> simp [hs]

theorem keeps_execRh (ring : Nat) (v : Word) (hs : Memory.wf s = true) : Keeps (execRh ring v s) := by
  unfold execRh
  dsimp only
  split <;> simp [hs]

@[simp] theorem Memory.wf_writeRing (k off : Nat) (v : DWord) (hs : Memory.wf s = true) : Memory.wf (writeRing s k off v) = true := by
  unfold writeRing
  split
  case h_3 => exact Memory.wf_onward hs (keeps_execRh _ _ hs)
  all_goals simp [hs]

@[simp] theorem Memory.wf_writeIface (n off : Nat) (v : DWord) (hs : Memory.wf s = true) : Memory.wf (writeIface s n off v) = true := by
  unfold writeIface
  split
  case h_5 => exact Memory.wf_onward hs (keeps_execCqh _ _ hs)
  all_goals simp [hs]

theorem keeps_execRegisterWrite (fn off : Nat) (v : DWord) (hs : Memory.wf s = true) : Keeps (execRegisterWrite fn off v s) := by
  grind [execRegisterWrite, Memory.wf_writeRing, Memory.wf_writeIface, Memory.wf_onward, keeps_execSqt, Memory.wf_mk, storagesWf_self,
    keeps_next]

@[simp] theorem Memory.wf_readTrej (hs : Memory.wf s = true) : Memory.wf (readTrej s) = true := by simp [readTrej, hs]

theorem keeps_execTrej (fn : Nat) (hs : Memory.wf s = true) : Keeps (execTrej fn s) := by
  unfold execTrej
  repeat' split
  all_goals simp [hs]

theorem keeps_execLatchedHalfRead (fn off : Nat) (hs : Memory.wf s = true) : Keeps (execLatchedHalfRead fn off s) := by
  unfold execLatchedHalfRead
  repeat' split
  all_goals simp [hs]

@[simp] theorem Memory.wf_bootStop (step : Nat) (f : BootFault) (hs : Memory.wf s = true) : Memory.wf (bootStop s step f) = true := by
  simp [bootStop, hs]

@[simp] theorem Memory.wf_bootDie (d : Nat) (hs : Memory.wf s = true) : Memory.wf (bootDie s d) = true := by
  simp [bootDie, hs, Memory.wf_modDie]

@[simp] theorem Memory.wf_bootMem (hs : Memory.wf s = true) : Memory.wf (bootMem s) = true := Memory.wf_mem _ Ram.wf_empty hs

@[simp] theorem Memory.wf_bootWorld (hs : Memory.wf s = true) : Memory.wf (bootWorld s) = true := by simp [bootWorld, hs]

@[simp] theorem Memory.wf_retirePhys (cluster p : Nat) (hs : Memory.wf s = true) : Memory.wf (retirePhys s cluster p) = true := by
  unfold retirePhys
  split <;> simp [hs]

theorem Memory.wf_trust (x : Trust) (hs : Memory.wf s = true) : Memory.wf { s with trust := x } = true := Memory.wf_of_eq hs rfl rfl rfl

theorem Memory.wf_bootSteps (l : List Nat) (hs : Memory.wf s = true) : Memory.wf (l.foldl bootDie s) = true :=
  Memory.wf_foldl l _ (fun _ d h => Memory.wf_bootDie d h) s hs

theorem Memory.wf_factory (l : List Nat) (hs : Memory.wf s = true) :
    Memory.wf (l.foldl (fun s d => s.modDie d fun D => { D with factory := true }) s) = true :=
  Memory.wf_foldl l _ (fun _ d h => Memory.wf_modDie d (fun D => { D with factory := true }) (fun _ h => h) h) s hs

theorem Memory.wf_retirePhysAll (l : List Nat) (hs : Memory.wf s = true) :
    Memory.wf (l.foldl (fun s x => retirePhys s (x / 34) (x % 34)) s) = true :=
  Memory.wf_foldl l _ (fun _ _ h => Memory.wf_retirePhys _ _ h) s hs

theorem keeps_execBoot (run : BootRun) (hs : Memory.wf s = true) : Keeps (execBoot run s) := by
  unfold execBoot
  refine keeps_ite (keeps_next.mpr hs) ?_
  extract_lets t
  split
  · exact keeps_next.mpr (Memory.wf_bootStop _ _ hs)
  · next s1 _ _ =>
    have h1 : Memory.wf s1 = true := Memory.wf_trust _ hs
    split
    · refine keeps_ite (keeps_next.mpr (Memory.wf_bootStop _ _ h1)) ?_
      extract_lets s2 s3 s4 s5 t6 s6 s7
      have h2 : Memory.wf s2 = true := Memory.wf_trust _ h1
      have h3 : Memory.wf s3 = true := Memory.wf_bootSteps _ (Memory.wf_bootMem h2)
      have h4 : Memory.wf s4 = true := Memory.wf_factory _ h3
      have h5 : Memory.wf s5 = true := Memory.wf_trust _ h4
      have h6 : Memory.wf s6 = true := Memory.wf_trust _ h5
      have h7 : Memory.wf s7 = true := Memory.wf_retirePhysAll _ h6
      refine keeps_ite (keeps_next.mpr (Memory.wf_bootStop _ _ h5)) (keeps_next.mpr ?_)
      exact Memory.wf_of_eq (Memory.wf_bootWorld h7) rfl rfl rfl
    · exact keeps_next.mpr (Memory.wf_bootStop _ _ h1)

theorem keeps_execCoreRemap (core : Nat) (hs : Memory.wf s = true) : Keeps (execCoreRemap core s) := by
  grind [execCoreRemap, Memory.wf_saveWith, Memory.wf_drainLine, Memory.wf_setCore, Memory.wf_modCore, Memory.wf_integrity, Memory.wf_mk,
    storagesWf_self, Memory.wf_foldl, keeps_next]

theorem keeps_execSidebandReadIdentity (hs : Memory.wf s = true) : Keeps (execSidebandReadIdentity s) := by
  simp [execSidebandReadIdentity, hs]

theorem keeps_execSidebandReadTelemetry (hs : Memory.wf s = true) : Keeps (execSidebandReadTelemetry s) := by
  simp [execSidebandReadTelemetry, hs]

theorem keeps_execSidebandReadLogs (hs : Memory.wf s = true) : Keeps (execSidebandReadLogs s) := by simp [execSidebandReadLogs, hs]

theorem keeps_execSidebandLeaseFloor (watts : Nat) (hs : Memory.wf s = true) : Keeps (execSidebandLeaseFloor watts s) := by
  simp [execSidebandLeaseFloor, hs]

theorem keeps_execSidebandRetire (die core : Nat) (wholeDie : Bool) (hs : Memory.wf s = true) :
    Keeps (execSidebandRetire die core wholeDie s) := by
  grind [execSidebandRetire, Memory.wf_integrity, Memory.wf_saveWith, Memory.wf_leaveSlice, Memory.wf_modDie, Memory.wf_retirePhys,
    Memory.wf_mk, storagesWf_self, keeps_next]

theorem keeps_execSidebandReset (s : State) : Keeps (execSidebandReset s) := keeps_next.mpr Memory.wf_reset

end Sys2Proof.Machine
end

section
/-!
PROOFS. Every word keeps the canonical form of memory, and with the events every arm of the dispatch.
-/

namespace Sys2Proof.Machine

variable {s : State}

/-! ### More shapes of words -/

theorem keeps_crossOp (cls : Nat) (d : VDst) (ops : List Opd) (f : Nat → List Elem → Elem → Word) (hs : Memory.wf s = true) :
    Keeps (crossOp cls d ops f s) :=
  keeps_cur hs fun _ => keeps_unlessEmpty hs (keeps_ready hs (keeps_done _ _ (Memory.wf_writeCells _ _ _ (Memory.wf_consume _ _ hs))))

theorem keeps_reduceOp (cls : Nat) (d : VDst) (b : VSrc) (f : List Elem → Word) (hs : Memory.wf s = true) : Keeps (reduceOp cls d b f s) :=
  keeps_cur hs fun _ => keeps_unlessEmpty hs (keeps_ready hs (keeps_done _ _ (Memory.wf_writeCells _ _ _ (Memory.wf_consume _ _ hs))))

theorem keeps_toUni (a : BitVec 6) (ops : List Opd) (f : State → Cur → List Elem → Nat → DWord) (free : List (RSrc × Nat))
    (hs : Memory.wf s = true) : Keeps (toUni a ops f free s) :=
  keeps_cur hs fun _ => keeps_unlessEmpty hs (keeps_ready hs (keeps_done _ _
    (Memory.wf_foldl _ _ (fun _ _ h => Memory.wf_modGroup _ _ _ h) _ (Memory.wf_freeS _ _ (Memory.wf_consume _ _ hs)))))

theorem keeps_predLogic (d : BitVec 3) (ps : List Pred) (f : List Lanes → Lanes) (hs : Memory.wf s = true) : Keeps (predLogic d ps f s) :=
  keeps_cur hs fun _ => keeps_unlessEmpty hs (keeps_done _ _ (Memory.wf_foldl _ _ (fun _ _ h => Memory.wf_modGroup _ _ _ h) _ hs))

theorem keeps_arithF (cls : Nat) (op : FOp) (t : Ty) (m : Rnd) (d : VDst) (ops : List Opd) (hs : Memory.wf s = true) :
    Keeps (arithF cls op t m d ops s) := keeps_compOp _ _ _ _ _ hs

theorem keeps_vcmp (r : Rel) (d : BitVec 3) (b c : VSrc) (hs : Memory.wf s = true) : Keeps (vcmp r d b c s) := keeps_predOp _ _ _ _ hs
theorem keeps_fcmp (r : FRel) (d : BitVec 3) (b c : VSrc) (hs : Memory.wf s = true) : Keeps (fcmp r d b c s) := keeps_predOp _ _ _ _ hs
theorem keeps_scmp (r : Rel) (d : BitVec 3) (b c : RSrc) (hs : Memory.wf s = true) : Keeps (scmp r d b c s) := keeps_uniPredOp _ _ _ _ hs
theorem keeps_qLogic (d : BitVec 3) (ps : List Pred) (f : List Bool → Bool) (hs : Memory.wf s = true) : Keeps (qLogic d ps f s) :=
  keeps_uniPredOp _ _ _ _ hs

theorem keeps_transferOp (ops : List Opd) (d : Dst)
    (go : Issuer → Clause → Group → Nat → List Word → Except (Nat × Nat) (Cap × (Group → Group))) (hs : Memory.wf s = true) :
    Keeps (transferOp ops d go s) := by
  refine keeps_cur hs fun c => keeps_unlessEmpty hs (keeps_ready hs ?_)
  split
  · split
    · refine keeps_ite (keeps_faultSome _ hs) (keeps_next.mpr ?_)
      rw [Memory.wf_mk, storagesWf_self]
      exact Memory.wf_bumpRc _ _ (Memory.wf_modGroup _ _ _ (Memory.wf_chargeWord _ _ (Memory.wf_consume _ _ hs)))
    · exact keeps_next.mpr hs
  · exact keeps_next.mpr hs

/-! ### Words of their own shape -/

theorem keeps_execBara (e : Scope) (k : BitVec 4) (n : BitVec 6) (hs : Memory.wf s = true) : Keeps (execBara e k n s) := by
  refine keeps_cur hs fun c => keeps_unlessEmpty hs ?_
  split
  · exact keeps_faultUnitWord _ _ hs
  · exact keeps_releaseThen hs fun _ _ hs => keeps_done _ _ (Memory.wf_arriveSb _ _ _ hs)

theorem keeps_execBarw (e : Scope) (k : BitVec 4) (hs : Memory.wf s = true) : Keeps (execBarw e k s) :=
  keeps_cur hs fun _ => keeps_unlessEmpty hs (keeps_ite
    (keeps_acquireOp hs fun _ _ hs => keeps_done _ _ (Memory.wf_foldl _ _ (fun _ _ h => Memory.wf_putArr _ _ _ _ h) _ hs))
    (keeps_next.mpr (Memory.wf_block _ hs)))

theorem keeps_execGrdbar (hs : Memory.wf s = true) : Keeps (execGrdbar s) :=
  keeps_cur hs fun _ => keeps_ite (keeps_instOp _ hs) (keeps_faultUnitWord _ _ hs)

theorem keeps_execFork (a : BitVec 6) (b : RSrc) (hs : Memory.wf s = true) : Keeps (execFork a b s) := by
  refine keeps_cur hs fun c => keeps_unlessEmpty hs ?_
  dsimp only
  split
  · exact keeps_faultUnitWord _ _ hs
  · refine keeps_releaseBlock hs fun s c hs => ?_
    split
    · exact keeps_ite (keeps_done _ _ (Memory.wf_putUni _ _ _ (Memory.wf_freeS _ _ hs)))
        (keeps_done _ _ (Memory.wf_freeS _ _ (Memory.wf_modBlock _ _ (fun _ h => h) (Memory.wf_addGrid _ hs))))
    · exact keeps_next.mpr hs

theorem keeps_execRdsr (e : Scope) (a : VDst) (r : SReg) (hi : Bool) (hs : Memory.wf s = true) : Keeps (execRdsr e a r hi s) :=
  keeps_cur hs fun _ => keeps_unlessEmpty hs (keeps_ready hs (keeps_done _ _ (Memory.wf_writeCells _ _ _ (Memory.wf_sample _ _ _ hs))))

theorem keeps_execRdsu (e : Scope) (a : BitVec 6) (r : SReg) (hi : Bool) (hs : Memory.wf s = true) : Keeps (execRdsu e a r hi s) :=
  keeps_cur hs fun _ => keeps_unlessEmpty hs (keeps_done _ _ (Memory.wf_putUni _ _ _ (Memory.wf_sample _ _ _ hs)))

theorem keeps_execSrwr (e : Scope) (k : BitVec 2) (hi : Bool) (a : RSrc) (hs : Memory.wf s = true) : Keeps (execSrwr e k hi a s) :=
  keeps_cur hs fun _ => keeps_unlessEmpty hs (keeps_done _ _
    (Memory.wf_foldl _ _ (fun _ _ h => Memory.wf_modGroup _ _ _ h) _ (Memory.wf_freeS _ _ hs)))

theorem keeps_execCpyq (e : Scope) (a : VDst) (b : VSrc) (hs : Memory.wf s = true) : Keeps (execCpyq e a b s) :=
  keeps_cur hs fun _ => keeps_unlessEmpty hs (keeps_ready hs (keeps_done _ _ (Memory.wf_writeCells _ _ _ (Memory.wf_consume _ _ hs))))

theorem keeps_execCfred (e : Scope) (a : BitVec 6) (b : RSrc) (hs : Memory.wf s = true) : Keeps (execCfred e a b s) :=
  keeps_cur hs fun _ => keeps_unlessEmpty hs (keeps_ready hs (keeps_done _ _ (Memory.wf_writeRegs _ _ _ _ (Memory.wf_consume _ _ hs))))

theorem keeps_execVbcast (e : Scope) (a : VDst) (b : RSrc) (hs : Memory.wf s = true) : Keeps (execVbcast e a b s) :=
  keeps_cur hs fun _ => keeps_laneOpU _ _ _ _ _ _ hs

theorem keeps_execVext (e : Scope) (ty st : Ty) (a : VDst) (b : VSrc) (i : BitVec 8) (hs : Memory.wf s = true) :
    Keeps (execVext e ty st a b i s) := by
  unfold execVext
  split <;> exact keeps_laneOp _ _ _ _ hs

theorem keeps_execFcvt (e : Scope) (ty st : Ty) (m : Rnd) (a : VDst) (b : VSrc) (i j : BitVec 8) (hs : Memory.wf s = true) :
    Keeps (execFcvt e ty st m a b i j s) := by
  unfold execFcvt
  split <;> exact keeps_laneOp _ _ _ _ hs

theorem keeps_execCbcast (e : Scope) (a : BitVec 6) (b : RSrc) (hs : Memory.wf s = true) : Keeps (execCbcast e a b s) :=
  keeps_cur hs fun _ => keeps_quadOp _ _ _ _ _ hs

/-- A new binding of a channel: nothing of it for another block's ring, the queue of a port, or an empty ring in the scratchpad. -/
theorem Memory.wf_bindChan (x : Chan) (b : Nat) (fqs : Tab FQueue) (hs : Memory.wf s = true) :
    Memory.wf (if x.kind = 2 then s else if x.kind = 5 then { s with fqs := fqs }
      else putRingCtl (clearRaces s b x.off x.rlen) b x.off ⟨0, 0, (x.rlen - 16) / 4, 0⟩) = true :=
  Memory.wf_ite hs (Memory.wf_ite (Memory.wf_of_eq hs rfl rfl rfl) (Memory.wf_putRingCtl _ _ _ (Memory.wf_clearRaces _ _ _ hs)))

theorem keeps_execChbind (e : Scope) (ch : BitVec 6) (b c : RSrc) (hs : Memory.wf s = true) : Keeps (execChbind e ch b c s) := by
  refine keeps_cur hs fun cu => keeps_unlessEmpty hs (keeps_lead hs fun G => ?_)
  split
  · exact keeps_faultWord _ _ hs
  · exact keeps_done _ _ (Memory.wf_bindChan _ _ _ (Memory.wf_modGroup _ _ _ (Memory.wf_freeChan _ _ _ (Memory.wf_freeS _ _ hs))))

theorem keeps_execChfree (e : Scope) (a ch : BitVec 6) (hs : Memory.wf s = true) : Keeps (execChfree e a ch s) :=
  keeps_cur hs fun _ => keeps_unlessEmpty hs (keeps_done _ _ (Memory.wf_putUni _ _ _ (Memory.wf_freeChan _ _ _ hs)))

theorem keeps_execChstat (e : Scope) (a ch : BitVec 6) (hs : Memory.wf s = true) : Keeps (execChstat e a ch s) := by
  refine keeps_cur hs fun c => keeps_unlessEmpty hs ?_
  dsimp only
  split
  · exact keeps_done _ _ (Memory.wf_putUni _ _ _ (Memory.wf_logged _ _ _ _ _ hs))
  · exact keeps_done _ _ (Memory.wf_putUni _ _ _ hs)

theorem keeps_execCpy (e : Scope) (a b : RSrc) (c d : VSrc) (hs : Memory.wf s = true) : Keeps (execCpy e a b c d s) :=
  keeps_cur hs fun _ => keeps_issueOp _ _ hs
theorem keeps_execCpysIn (e : Scope) (a : VSrc) (b : RSrc) (c d : VSrc) (hs : Memory.wf s = true) : Keeps (execCpysIn e a b c d s) :=
  keeps_cur hs fun _ => keeps_issueOp _ _ hs
theorem keeps_execCpysOut (e : Scope) (a : VSrc) (b : RSrc) (c d : VSrc) (hs : Memory.wf s = true) : Keeps (execCpysOut e a b c d s) :=
  keeps_cur hs fun _ => keeps_issueOp _ _ hs
theorem keeps_execMcast (e : Scope) (a : VSrc) (b : RSrc) (c d : VSrc) (hs : Memory.wf s = true) : Keeps (execMcast e a b c d s) :=
  keeps_cur hs fun _ => keeps_issueOp _ _ hs
theorem keeps_execOload (e : Scope) (o : BitVec 5) (b c : RSrc) (src : Bool) (hs : Memory.wf s = true) : Keeps (execOload e o b c src s) :=
  keeps_cur hs fun _ => keeps_issueOp _ _ hs

theorem keeps_execOclaim (e : Scope) (a b : RSrc) (hs : Memory.wf s = true) : Keeps (execOclaim e a b s) :=
  keeps_blockOp _ _ _ hs fun c t h => by
    dsimp only at h
    split at h
    · cases h
    · cases h
      exact Memory.wf_modBlock _ _ (fun _ h => h) hs

theorem keeps_execOrel (e : Scope) (a b : RSrc) (hs : Memory.wf s = true) : Keeps (execOrel e a b s) :=
  keeps_cur hs fun _ => keeps_ite (keeps_next.mpr (Memory.wf_block _ hs)) (keeps_blockOp _ _ _ hs fun c t h => by
    cases h
    exact Memory.wf_modBlock _ _ (fun _ h => h) hs)

theorem keeps_execMfence (e : Scope) (hs : Memory.wf s = true) : Keeps (execMfence e s) :=
  keeps_ite (keeps_next.mpr (Memory.wf_block _ hs)) (keeps_blockOp _ _ _ hs fun c t h => by
    cases h
    refine Memory.wf_modBlock _ _ (fun _ h => h) ?_
    rw [Memory.wf_mk, storagesWf_self]
    exact Memory.wf_foldl _ _ (fun _ _ h => Memory.wf_modGroup _ _ _ h) _ hs)

theorem keeps_execAccwt (e : Scope) (tile : BitVec 4) (ver : BitVec 16) (hs : Memory.wf s = true) : Keeps (execAccwt e tile ver s) := by
  refine keeps_cur hs fun c => ?_
  split
  · exact keeps_ite (keeps_next.mpr (Memory.wf_block _ hs)) (keeps_blockOp _ _ _ hs fun c t h => by cases h; exact hs)
  · exact keeps_blockOp _ _ _ hs fun c t h => by cases h

theorem keeps_execAccver (e : Scope) (a : BitVec 6) (tile : BitVec 4) (hs : Memory.wf s = true) : Keeps (execAccver e a tile s) :=
  keeps_blockOp _ _ _ hs fun c t h => by
    split at h
    · cases h
      exact Memory.wf_putUni _ _ _ hs
    · cases h

theorem keeps_execSclwSet (e : Scope) (m : BitVec 3) (b : RSrc) (hs : Memory.wf s = true) : Keeps (execSclwSet e m b s) :=
  keeps_blockOp _ _ _ hs fun c t h => by cases h; exact Memory.wf_putScl _ _ _ hs
theorem keeps_execSclwAdd (e : Scope) (m : BitVec 3) (b : RSrc) (hs : Memory.wf s = true) : Keeps (execSclwAdd e m b s) :=
  keeps_blockOp _ _ _ hs fun c t h => by cases h; exact Memory.wf_putScl _ _ _ hs
theorem keeps_execSclr (e : Scope) (a : BitVec 6) (m : BitVec 3) (hs : Memory.wf s = true) : Keeps (execSclr e a m s) :=
  keeps_blockOp _ _ _ hs fun c t h => by cases h; exact Memory.wf_putUni _ _ _ hs

theorem keeps_execAccrd (e : Scope) (ty : Ty) (m : Rnd) (v : BitVec 2) (tile : BitVec 4) (c : RSrc) (hs : Memory.wf s = true) :
    Keeps (execAccrd e ty m v tile c s) := by
  refine keeps_cur hs fun cu => ?_
  dsimp only
  split
  · exact keeps_queueOp _ _ _ hs
  · refine keeps_ite (keeps_queueOp _ _ _ hs) ?_
    split
    · next h => exact mayKeep_accHeld _ _ _ hs _ h
    · exact keeps_queueOp _ _ _ (Memory.wf_modGroup _ _ _ (Memory.wf_free _ hs))

theorem keeps_execAccwr (e : Scope) (ty : Ty) (tile : BitVec 4) (v : BitVec 2) (c : RSrc) (hs : Memory.wf s = true) :
    Keeps (execAccwr e ty tile v c s) := by
  refine keeps_cur hs fun cu => ?_
  dsimp only
  split
  · exact keeps_queueOp _ _ _ hs
  · refine keeps_ite (keeps_queueOp _ _ _ hs) ?_
    cases h : accHeld s cu _ true with
    | none => rw [Option.getD_none]; exact keeps_queueOp _ _ _ hs
    | some o => exact mayKeep_accHeld _ _ _ hs _ h

theorem keeps_execMtrq (e : Scope) (a : RSrc) (b : BitVec 6) (hs : Memory.wf s = true) : Keeps (execMtrq e a b s) := by
  have hc := Memory.wf_chargeWord 0x0B .issue hs
  refine keeps_cur hs fun c => keeps_unlessEmpty hs ?_
  dsimp only
  split
  · exact keeps_faultWord _ _ hs
  · exact keeps_ite (keeps_faultWord _ _ hs) (keeps_next.mpr (Memory.wf_retire (Memory.wf_putUni _ _ _ (Memory.wf_freeS _ _
      (Memory.wf_logged _ _ _ _ _ (Memory.wf_ite hc (Memory.wf_requestReading _ _ hc)))))))

theorem keeps_execMsamp (e : Scope) (a : RSrc) (ch : BitVec 6) (hs : Memory.wf s = true) : Keeps (execMsamp e a ch s) := by
  refine keeps_cur hs fun c => keeps_unlessEmpty hs ?_
  split
  · exact keeps_next.mpr hs
  · split
    · exact keeps_faultWord _ _ hs
    · exact keeps_ite (keeps_faultWord _ _ hs) (keeps_done _ _ (Memory.wf_modGroup _ _ _ (Memory.wf_freeS _ _ hs)))

theorem opreq_ws (d : Die) (may : Bool) (n now : Nat) : (opreq d may n now).2.ws = d.ws := by
  unfold opreq
  dsimp only
  repeat' split
  all_goals simp

theorem logAdd_dies (s : State) (b : Nat) (e : LogEnt) : (logAdd s b e).dies = s.dies := by
  unfold logAdd
  split <;> rfl

theorem logged_dies (s : State) (b kind lane addr v : Nat) : (logged s b kind lane addr v).2.dies = s.dies := by
  unfold logged
  split
  · exact logAdd_dies ..
  · split
    · split <;> rfl
    · rfl

theorem keeps_execOpreq (e : Scope) (a : BitVec 6) (n : BitVec 7) (hs : Memory.wf s = true) : Keeps (execOpreq e a n s) := by
  unfold execOpreq
  refine keeps_cur hs fun c => keeps_unlessEmpty hs ?_
  have hl := fun b (k : Nat) l x v => Memory.wf_logged b k l x v hs
  have hd : ∀ b (k : Nat) l x v d may m now, Memory.wf ((logged s b k l x v).2.setDie d (opreq (s.die d) may m now).2) = true := by
    intro b k l x v d may m now
    refine Memory.wf_setDie d ?_ (hl ..)
    rw [opreq_ws, State.die, State.die, logged_dies]
  exact keeps_done _ _ (Memory.wf_putUni _ _ _ (Memory.wf_ite (hl ..) (hd ..)))

theorem keeps_execExit (hs : Memory.wf s = true) : Keeps (execExit s) := by
  refine keeps_cur hs fun c => keeps_unlessEmpty hs ?_
  split
  · exact keeps_next.mpr hs
  · refine keeps_next.mpr (Memory.wf_exitLanes _ _ _ ?_)
    rw [Memory.wf_mk, storagesWf_self]
    exact Memory.wf_bumpRc _ _ (Memory.wf_modIssuer _ _ (Memory.wf_modGroup _ _ _ (Memory.wf_chargeWord _ _ hs)))

theorem keeps_execWait (e : Scope) (lim : WaitLim) (hs : Memory.wf s = true) : Keeps (execWait e lim s) :=
  keeps_cur hs fun _ => keeps_ite (keeps_done _ _ (Memory.wf_ite (Memory.wf_acquireNow _ hs) hs))
    (keeps_next.mpr (Memory.wf_block _ (Memory.wf_parkLate _ _ hs)))

theorem keeps_execYield (hs : Memory.wf s = true) : Keeps (execYield s) := by
  refine keeps_cur hs fun c => ?_
  split
  · exact keeps_done _ _ (Memory.wf_ite hs (Memory.wf_modGroup _ _ _ hs))
  · exact keeps_next.mpr hs

theorem keeps_execChkpt (e : Scope) (hs : Memory.wf s = true) : Keeps (execChkpt e s) :=
  have h := Memory.wf_retire (Memory.wf_chargeWord 0x0C .issue hs)
  keeps_cur hs fun _ => keeps_next.mpr (Memory.wf_ite (Memory.wf_modBlock _ _ (fun _ h => h) h) h)

theorem keeps_execRpush (e : Scope) (l : BitVec 16) (hs : Memory.wf s = true) : Keeps (execRpush e l s) :=
  keeps_labelOp hs fun s b g hs => by
    split
    · exact hs
    · exact Memory.wf_ite (Memory.wf_traceGroup _ _ _ _ (Memory.wf_filterPush _ _ (Memory.wf_modGroup _ _ _ hs))) (Memory.wf_modGroup _ _ _ hs)

theorem keeps_execRpop (e : Scope) (hs : Memory.wf s = true) : Keeps (execRpop e s) :=
  keeps_labelOp hs fun s b g hs => by
    split
    · exact hs
    · refine Memory.wf_ite (Memory.wf_modGroup _ _ _ hs) ?_
      split
      · exact hs
      · exact Memory.wf_modGroup _ _ _ (Memory.wf_traceGroup _ _ _ _ hs)

theorem keeps_execTrmark (e : Scope) (v : BitVec 16) (hs : Memory.wf s = true) : Keeps (execTrmark e v s) :=
  keeps_labelOp hs fun _ _ _ hs => Memory.wf_traceGroup _ _ _ _ hs

/-! ### Every instruction and every event -/

/-- Every arm of the dispatch keeps the canonical form. -/
theorem keeps_exec (i : Instr) (hs : Memory.wf s = true) : Keeps (exec i s) := by
  cases i
  case ldS8 | ldN8 | ldS16 | ldN16 | ldB32 | ldB64 | ldB128 => dsimp only [exec]; exact keeps_loadOp _ _ _ _ _ _ hs
  case ldc | stc | spanq => dsimp only [exec]; exact keeps_issueOp _ _ hs
  case stB8 | stB16 | stB32 | stB64 | stB128 => dsimp only [exec]; exact keeps_storeOp _ _ _ _ _ hs
  case wldB32 | wldB128 => dsimp only [exec]; exact keeps_wldOp _ _ _ _ _ hs
  case ldsB32 | ldsB64 | ldsB128 => dsimp only [exec]; exact keeps_ldsOp _ _ _ _ hs
  case stsB32 | stsB64 | stsB128 => dsimp only [exec]; exact keeps_stsOp _ _ _ _ hs
  case put | get => dsimp only [exec]; exact keeps_windowOp _ _ _ _ hs
  case aadd | amin | amax | aand | aor | axor | axchg | acas => dsimp only [exec]; exact keeps_atomicOp _ _ _ _ _ _ _ _ hs
  case cbnd | cadd | cset | cseal => dsimp only [exec]; exact keeps_deriveOp _ _ _ _ hs
  case cperm | cmov => dsimp only [exec]; exact keeps_quadOp _ _ _ _ _ hs
  case cget | vmulhS32 | vmulhN32 | vmoviB32 | vmovlB32 | vaddsS32 | vaddsN32 | vsubsS32 | vsubsN32 | vminS32 | vminN32 | vmaxS32 |
      vmaxN32 | vandB32 | vorB32 | vxorB32 | vshrN32 | vshrS32 | vabsS32 | vpopcB32 | vclzB32 | vbrevB32 | vbfxN32 | vbfxS32 | vbfiB32 |
      vselB32 | vrotlB32 | pdot4 | pdot8 | hadd2 | hmul2 | hfma2 | cfnorm | cfnormX => dsimp only [exec]; exact keeps_laneOp _ _ _ _ hs
  case ctag => dsimp only [exec]; exact keeps_predOp _ _ _ _ hs
  case mpair | accclr => dsimp only [exec]; exact keeps_queueOp _ _ _ hs
  case nop | hint => dsimp only [exec]; exact keeps_done _ _ hs
  case jmp | bra | bru | jmpc | call | callc | ret | loop => dsimp only [exec]; exact keeps_transferOp _ _ _ hs
  case gbar | sstepCluster | sstepDie => dsimp only [exec]; exact keeps_instOp _ hs
  case trctlStart | trctlStop | trctlFreeze | trctlThaw => dsimp only [exec]; exact keeps_trctlOp _ hs
  case bkpt | dbgstop => dsimp only [exec]; exact keeps_stopOp _ hs
  case saddB64 | ssubB64 | smulB64 | smulhS64 | smulhN64 | saddiB64 | smoviB64 | smovlB64 | sandB64 | sorB64 | sxorB64 | snotB64 |
      sshlB64 | sshrN64 | sshrS64 | smovB64 | sminS64 | sminN64 | smaxS64 | smaxN64 | sclzB64 | spopcB64 | sextS32 | sextN32 | sselB64 =>
    dsimp only [exec]; exact keeps_uniOp _ _ _ _ hs
  case sceqB64 | scneB64 | scltS64 | scltN64 | scleS64 | scleN64 => dsimp only [exec]; exact keeps_scmp _ _ _ _ hs
  case qand | qor | qxor | qnot => dsimp only [exec]; exact keeps_qLogic _ _ _ hs
  case vaddB32 | vsubB32 | vmulB32 | vaddiB32 | vnotB32 | vshlB32 | vmovB32 | vnegS32 =>
    dsimp only [exec]; exact keeps_compOp _ _ _ _ _ hs
  case vceqB32 | vcneB32 | vcltS32 | vcltN32 | vcleS32 | vcleN32 => dsimp only [exec]; exact keeps_vcmp _ _ _ _ hs
  case pand | por | pxor | pnot => dsimp only [exec]; exact keeps_predLogic _ _ _ hs
  case vfirst | vlane | vvote => dsimp only [exec]; exact keeps_toUni _ _ _ _ hs
  case vshflB32 | vscanB32 => dsimp only [exec]; exact keeps_crossOp _ _ _ _ hs
  case vrsumB32 | vrminS32 | vrminN32 | vrmaxS32 | vrmaxN32 | fred => dsimp only [exec]; exact keeps_reduceOp _ _ _ _ hs
  case fadd | faddX | fsub | fsubX | fmul | fmulX | ffma | ffmaX | fdiv | fdivX | fsqrt | fsqrtX | fmin | fmax | fabs | fneg | fscl |
      fsclX => dsimp only [exec]; exact keeps_arithF _ _ _ _ _ _ hs
  case fceq | fclt | fcle | fcun => dsimp only [exec]; exact keeps_fcmp _ _ _ _ hs
  case cfadd => dsimp only [exec]; exact keeps_laneOpK _ _ _ _ _ hs
  case trap => exact keeps_faultAll _ _ (Memory.wf_chargeWord _ _ hs)
  case plwr => exact keeps_privOp _ _ _ hs fun _ _ _ _ h => Memory.wf_plwrGo hs h
  case qtwr => exact keeps_privOp _ _ _ hs fun _ _ _ _ h => Memory.wf_qtwrGo hs h
  case limwr => exact keeps_privOp _ _ _ hs fun _ _ _ _ h => Memory.wf_limwrGo hs h
  case wtwr => exact keeps_privOp _ _ _ hs fun _ _ _ _ h => Memory.wf_wtwrGo hs h
  case acquire => exact keeps_acquireOp hs fun _ _ hs => keeps_done _ _ hs
  case release => exact keeps_releaseOp hs fun _ _ hs => keeps_done _ _ hs
  case fence => exact keeps_releaseOp hs fun _ _ hs => keeps_done _ _ (Memory.wf_acquireNow _ hs)
  case exit => exact keeps_execExit hs
  case bar e => exact keeps_execBar e hs
  case bara e _ _ => exact keeps_execBara e _ _ hs
  case barw e _ => exact keeps_execBarw e _ hs
  case grdbar => exact keeps_execGrdbar hs
  case fork => exact keeps_execFork _ _ hs
  case wait e _ => exact keeps_execWait e _ hs
  case yield => exact keeps_execYield hs
  case rdsr e _ _ _ => exact keeps_execRdsr e _ _ _ hs
  case rdsu e _ _ _ => exact keeps_execRdsu e _ _ _ hs
  case opreq e _ _ => exact keeps_execOpreq e _ _ hs
  case mtrq e _ _ => exact keeps_execMtrq e _ _ hs
  case msamp e _ _ => exact keeps_execMsamp e _ _ hs
  case rpush e _ => exact keeps_execRpush e _ hs
  case rpop e => exact keeps_execRpop e hs
  case trmark e _ => exact keeps_execTrmark e _ hs
  case chkpt e => exact keeps_execChkpt e hs
  case srwr e _ _ _ => exact keeps_execSrwr e _ _ _ hs
  case vext e _ _ _ _ _ => exact keeps_execVext e _ _ _ _ _ hs
  case vbcast e _ _ => exact keeps_execVbcast e _ _ hs
  case fcvt e _ _ _ _ _ _ _ => exact keeps_execFcvt e _ _ _ _ _ _ _ hs
  case cfred e _ _ => exact keeps_execCfred e _ _ hs
  case cbcast e _ _ => exact keeps_execCbcast e _ _ hs
  case chbind e _ _ _ => exact keeps_execChbind e _ _ _ hs
  case chfree e _ _ => exact keeps_execChfree e _ _ hs
  case chstat e _ _ => exact keeps_execChstat e _ _ hs
  case cpy e _ _ _ _ => exact keeps_execCpy e _ _ _ _ hs
  case cpysIn e _ _ _ _ => exact keeps_execCpysIn e _ _ _ _ hs
  case cpysOut e _ _ _ _ => exact keeps_execCpysOut e _ _ _ _ hs
  case mcast e _ _ _ _ => exact keeps_execMcast e _ _ _ _ hs
  case cpyq e _ _ => exact keeps_execCpyq e _ _ hs
  case oclaim e _ _ => exact keeps_execOclaim e _ _ hs
  case orel e _ _ => exact keeps_execOrel e _ _ hs
  case oload e _ _ _ _ => exact keeps_execOload e _ _ _ _ hs
  case mfence e => exact keeps_execMfence e hs
  case accrd e _ _ _ _ _ => exact keeps_execAccrd e _ _ _ _ _ hs
  case accwr e _ _ _ _ => exact keeps_execAccwr e _ _ _ _ hs
  case accwt e _ _ => exact keeps_execAccwt e _ _ hs
  case accver e _ _ => exact keeps_execAccver e _ _ hs
  case sclwSet e _ _ => exact keeps_execSclwSet e _ _ hs
  case sclwAdd e _ _ => exact keeps_execSclwAdd e _ _ hs
  case sclr e _ _ => exact keeps_execSclr e _ _ hs
  case clauseIssue => exact keeps_execClauseIssue _ hs
  case rcvHoldTimeout => exact keeps_execRcvHoldTimeout _ hs
  case timingErrorReplay => exact keeps_execTimingErrorReplay _ hs
  case blockExit => exact keeps_execBlockExit _ hs
  case childGridComplete => exact keeps_execChildGridComplete _ hs
  case memoryRequest => exact keeps_execMemoryRequest _ _ _ hs
  case storeRegister => exact keeps_execStoreRegister _ _ hs
  case lossNotice => exact keeps_execLossNotice _ _ hs
  case atomicPerform => exact keeps_execAtomicPerform _ _ hs
  case loadArrival => exact keeps_execLoadArrival _ _ hs
  case wcDrainTimeout => exact keeps_execWcDrainTimeout _ _ hs
  case refreshWindowStart => exact keeps_execRefreshWindowStart hs
  case refreshWindowEnd => exact keeps_execRefreshWindowEnd hs
  case windowTransferComplete => exact keeps_execWindowTransferComplete _ _ hs
  case copyPart => exact keeps_execCopyPart _ _ _ _ hs
  case copyComplete => exact keeps_execCopyComplete _ _ hs
  case oloadComplete => exact keeps_execOloadComplete _ hs
  case tileOpStart => exact keeps_execTileOpStart _ hs
  case mpairRetire => exact keeps_execMpairRetire _ hs
  case tileOpComplete => exact keeps_execTileOpComplete _ hs
  case barComplete => exact keeps_execBarComplete _ hs
  case gangBarrierArrival => exact keeps_execGangBarrierArrival _ hs
  case sstepArrival => exact keeps_execSstepArrival _ hs
  case spanMoveComplete => exact keeps_execSpanMoveComplete _ _ _ hs
  case settleExpiry => exact keeps_execSettleExpiry _ hs
  case revokeProceed => exact keeps_execRevokeProceed _ hs
  case revocationPoint => exact keeps_execRevocationPoint _ hs
  case sweepRegisterScan => exact keeps_execSweepRegisterScan _ hs
  case sweepComplete => exact keeps_execSweepComplete _ hs
  case invalidationComplete => exact keeps_execInvalidationComplete _ hs
  case frameScrub => exact keeps_execFrameScrub _ hs
  case worldEndComplete => exact keeps_execWorldEndComplete _ hs
  case keyretComplete => exact keeps_execKeyretComplete _ hs
  case pmlimApply => exact keeps_execPmlimApply _ hs
  case wscopyProceed => exact keeps_execWscopyProceed _ hs
  case launchRecord => exact keeps_execLaunchRecord _ _ hs
  case blockPlacement => exact keeps_execBlockPlacement _ hs
  case launchComplete => exact keeps_execLaunchComplete _ _ hs
  case sliceEnd => exact keeps_execSliceEnd _ hs
  case blockSave => exact keeps_execBlockSave _ hs
  case blockRestore => exact keeps_execBlockRestore _ _ hs
  case gangReady => exact keeps_execGangReady _ hs
  case gangDeadline => exact keeps_execGangDeadline _ _ hs
  case faultRecordPost => exact keeps_execFaultRecordPost hs
  case tick => exact keeps_execTick _ hs
  case marginRelax => exact keeps_execMarginRelax _ hs
  case powerCeilingExpiry => exact keeps_execPowerCeilingExpiry _ hs
  case dieRetire => exact keeps_execDieRetire _ hs
  case chargeReport => exact keeps_execChargeReport hs
  case stepChangeBegin => exact keeps_execStepChangeBegin _ hs
  case supplyRampEnd => exact keeps_execSupplyRampEnd _ hs
  case relockEnd => exact keeps_execRelockEnd _ hs
  case supplyLowerEnd => exact keeps_execSupplyLowerEnd _ hs
  case leaseGrant => exact keeps_execLeaseGrant _ _ hs
  case leaseExpiry => exact keeps_execLeaseExpiry hs
  case meterSample => exact keeps_execMeterSample _ hs
  case meterReadingWrite => exact keeps_execMeterReadingWrite _ hs
  case checkpoint => exact keeps_execCheckpoint _ hs
  case linkPacketReceive => exact keeps_execLinkPacketReceive _ hs
  case fabricPacketArrival => exact keeps_execFabricPacketArrival _ hs
  case completionTimeout => exact keeps_execCompletionTimeout _ _ hs
  case uncorrectableError => exact keeps_execUncorrectableError _ hs
  case linkCrcError n => exact keeps_execLinkCrcError n hs
  case coreRemap => exact keeps_execCoreRemap _ hs
  case boot => exact keeps_execBoot _ hs
  case sqt => exact keeps_execSqt _ _ hs
  case completionPost => exact keeps_execCompletionPost _ hs
  case cqh => exact keeps_execCqh _ _ hs
  case rh => exact keeps_execRh _ _ hs
  case trej => exact keeps_execTrej _ hs
  case latchedHalfRead => exact keeps_execLatchedHalfRead _ _ hs
  case registerWrite => exact keeps_execRegisterWrite _ _ _ hs
  case ctxnew => exact keeps_execCtxnew _ _ _ hs
  case ctxwr => exact keeps_execCtxwr _ _ _ _ _ hs
  case ctxend => exact keeps_execCtxend _ _ hs
  case revoke => exact keeps_execRevoke _ _ hs
  case invalObject => exact keeps_execInvalObject _ _ hs
  case invalSpan => exact keeps_execInvalSpan _ _ _ hs
  case invalStage2 => exact keeps_execInvalStage2 _ _ hs
  case retry => exact keeps_execRetry _ _ hs
  case dispose => exact keeps_execDispose _ _ _ hs
  case handler => exact keeps_execHandler _ _ _ _ _ hs
  case wscopy => exact keeps_execWscopy _ _ _ _ _ _ hs
  case partwr => exact keeps_execPartwr _ _ _ hs
  case vacate => exact keeps_execVacate _ _ _ hs
  case vacateReopen => exact keeps_execVacateReopen _ _ _ hs
  case keyrel => exact keeps_execKeyrel _ _ hs
  case keyret => exact keeps_execKeyret _ _ _ hs
  case dbgwr => exact keeps_execDbgwr _ _ hs
  case stopNow => exact keeps_execStopNow _ hs
  case stopAt => exact keeps_execStopAt _ _ _ _ hs
  case view => exact keeps_execView _ _ _ _ _ hs
  case resume => exact keeps_execResume _ hs
  case fncfg => exact keeps_execFncfg _ _ _ _ _ _ hs
  case worldnew => exact keeps_execWorldnew _ _ _ _ _ _ hs
  case worldend => exact keeps_execWorldend _ _ hs
  case qtrd => exact keeps_execQtrd _ _ _ hs
  case sidebandReadIdentity => exact keeps_execSidebandReadIdentity hs
  case sidebandReadTelemetry => exact keeps_execSidebandReadTelemetry hs
  case sidebandReadLogs => exact keeps_execSidebandReadLogs hs
  case sidebandLeaseFloor => exact keeps_execSidebandLeaseFloor _ hs
  case sidebandRetire => exact keeps_execSidebandRetire _ _ _ hs
  case sidebandReset => exact keeps_execSidebandReset s
  case returnToService => exact keeps_execReturnToService _ _ hs

end Sys2Proof.Machine
end

section
/-!
PROOFS. What comes about at the end of a turn keeps the canonical form of memory.
-/

namespace Sys2Proof.Machine

variable {s : State}

@[simp] theorem Memory.wf_closePoint (r : IRef) (hs : Memory.wf s = true) : Memory.wf (closePoint s r) = true := by
  unfold closePoint
  repeat' split
  all_goals simp [hs]

@[simp] theorem Memory.wf_drainParked (p : Park) (hs : Memory.wf s = true) : Memory.wf (drainParked s p) = true := by
  grind [drainParked, Memory.wf_drainLine, Memory.wf_mk, storagesWf_self, Memory.wf_foldl]

@[simp] theorem Memory.wf_wakeWait (r : IRef) (hs : Memory.wf s = true) : Memory.wf (wakeWait s r) = true := by
  unfold wakeWait
  dsimp only
  repeat' split
  all_goals simp [hs]

@[simp] theorem Memory.wf_wakeWaits (hs : Memory.wf s = true) : Memory.wf (wakeWaits s) = true := by
  grind [wakeWaits, Memory.wf_wakeWait, Memory.wf_mk, storagesWf_self, Memory.wf_foldl]

@[simp] theorem Memory.wf_writeLog (b : Nat) (hs : Memory.wf s = true) : Memory.wf (writeLog s b) = true := by
  unfold writeLog
  split <;> simp [hs, Memory.wf_devWrite, Memory.wf_modBlock]

@[simp] theorem Memory.wf_writeLogs (hs : Memory.wf s = true) : Memory.wf (writeLogs s) = true := by
  unfold writeLogs
  dsimp only
  repeat' split
  all_goals simp +contextual [hs, Memory.wf_foldl]

@[simp] theorem Memory.wf_stopAtTargets (hs : Memory.wf s = true) : Memory.wf (stopAtTargets s) = true := by
  unfold stopAtTargets
  dsimp only
  repeat' split
  all_goals simp +contextual [hs, Memory.wf_foldl]

@[simp] theorem Memory.wf_settle (hs : Memory.wf s = true) : Memory.wf (settle s) = true := by
  grind [settle, Memory.wf_drainParked, Memory.wf_modGroup, Memory.wf_closePoint, Memory.wf_settleDispo, Memory.wf_stopAtTargets,
    Memory.wf_writeLogs, Memory.wf_wakeWaits, Memory.wf_mk, storagesWf_self, Memory.wf_foldl]

end Sys2Proof.Machine
end

section
/-!
PROOFS. Memory stays in canonical form (R100, R126, R137): views, words, the events of a default turn, and every step.
-/

namespace Sys2Proof.Machine

variable {s : State}

/-! ### Views, words and turns -/

@[simp] theorem Memory.wf_keepCharges (t : State) (hs : Memory.wf s = true) : Memory.wf (keepCharges s t) = true := hs

@[simp] theorem Memory.wf_endView (j : ViewJob) (status : Nat) (hs : Memory.wf s = true) : Memory.wf (endView s j status) = true := by
  unfold endView
  extract_lets f n
  -- stage 2's search takes as many steps as the image is long: however many, it writes nothing
  generalize n / 2 ^ 21 + 2 = m
  refine Memory.wf_reply _ _ _ ?_
  rw [Memory.wf_mk]
  exact hs

/-- A step of a view keeps nothing of its re-execution but the charges. -/
@[simp] theorem Memory.wf_viewStep (j : ViewJob) (hs : Memory.wf s = true) : Memory.wf (viewStep s j) = true := by
  unfold viewStep
  refine Memory.wf_ite (Memory.wf_endView _ _ hs) ?_
  dsimp only
  split
  · exact Memory.wf_endView _ _ hs
  · refine Memory.wf_ite (Memory.wf_endView _ _ (Memory.wf_keepCharges _ hs)) ?_
    rw [Memory.wf_mk, storagesWf_self]
    exact Memory.wf_keepCharges _ hs

theorem Memory.wf_takeEntry_getD (iface : Nat) (hs : Memory.wf s = true) : Memory.wf ((takeEntry s iface).getD s) = true := by
  cases h : takeEntry s iface with
  | none => exact hs
  | some t => exact Memory.wf_takeEntry hs h

theorem keeps_runAt (r : IRef) (rs : List IRef) (c : Clause) (eng : Eng) (e : Scope) (hs : Memory.wf s = true) : Keeps (runAt s r rs c eng e) := by
  have hc : ∀ x, Memory.wf { s with cur := x } = true := fun _ => hs
  unfold runAt
  dsimp only
  split
  · exact keeps_ite (keeps_faultAll _ _ (hc _)) (keeps_faultUnit _ _ (hc _))
  · exact keeps_exec _ (hc _)

theorem keeps_runWord (r : IRef) (hs : Memory.wf s = true) : Keeps (runWord r s) := by
  unfold runWord
  dsimp only
  split
  · split
    · exact keeps_next.mpr hs
    · split
      · exact keeps_next.mpr hs
      · refine keeps_ite (keeps_next.mpr hs) ?_
        have ht := Memory.wf_ite (p := replayable s r.blk = true) (Memory.wf_takeTurn r hs) hs
        have hm := fun (p : Prop) [Decidable p] (f : Issuer → Issuer) => Memory.wf_ite (p := p) (Memory.wf_modIssuer r f ht) ht
        split
        · exact keeps_next.mpr (hm _ _)
        · exact keeps_runAt _ _ _ _ _ (Memory.wf_ite (hm _ _) (Memory.wf_closeAt _ (hm _ _)))
  · exact keeps_next.mpr hs

theorem mayKeep_nextWord (hs : Memory.wf s = true) : MayKeep (nextWord s) := by
  intro x h
  unfold nextWord at h
  dsimp only at h
  split at h
  · cases h; exact keeps_runWord _ hs
  · obtain ⟨r, -, hr⟩ := List.exists_of_findSome?_eq_some h
    refine mayKeep_ite mayKeep_none ?_ _ hr
    split
    · next t ht => exact mayKeep_ite (mayKeep_some.mpr (keeps_next.mpr (keeps_runWord _ hs _ ht))) mayKeep_none
    · exact mayKeep_some.mpr (keeps_runWord _ hs)

/-! ### The events of a default turn -/

/-- An event that keeps the canonical form wherever it takes place. -/
def EventKeeps (f : State → Out) : Prop := ∀ s, Memory.wf s = true → Keeps (f s)

theorem eventKeeps_exec (i : Instr) : EventKeeps (exec i) := fun _ hs => keeps_exec i hs

/-- The first event that changes the state, of events that keep the form. -/
theorem mayKeep_firstChange {l : List (State → Out)} (hl : ∀ f ∈ l, EventKeeps f) (hs : Memory.wf s = true) : MayKeep (firstChange s l) := by
  induction l with
  | nil => exact mayKeep_none
  | cons f r ih =>
    have hf := hl f List.mem_cons_self s hs
    unfold firstChange
    split
    · next t ht => exact mayKeep_ite (mayKeep_some.mpr (keeps_next.mpr (hf t ht))) (ih fun g hg => hl g (List.mem_cons_of_mem _ hg))
    · exact mayKeep_some.mpr hf

/-- Events that keep the form, all of them. -/
def AllKeep (l : List (State → Out)) : Prop := ∀ f ∈ l, EventKeeps f

theorem allKeep_nil : AllKeep [] := List.forall_mem_nil _
theorem allKeep_cons {f : State → Out} {l : List (State → Out)} (hf : EventKeeps f) (hl : AllKeep l) : AllKeep (f :: l) :=
  List.forall_mem_cons.mpr ⟨hf, hl⟩
theorem allKeep_arm (i : Instr) : AllKeep [exec i] := allKeep_cons (eventKeeps_exec i) allKeep_nil
theorem allKeep_append {l m : List (State → Out)} (hl : AllKeep l) (hm : AllKeep m) : AllKeep (l ++ m) := List.forall_mem_append.mpr ⟨hl, hm⟩
theorem allKeep_flatMap {α : Type} {l : List α} {g : α → List (State → Out)} (h : ∀ a, AllKeep (g a)) : AllKeep (l.flatMap g) := fun f hf =>
  have ⟨a, _, ha⟩ := List.mem_flatMap.mp hf
  h a f ha
theorem allKeep_map {α : Type} {l : List α} {g : α → State → Out} (h : ∀ a, EventKeeps (g a)) : AllKeep (l.map g) :=
  List.forall_mem_map.mpr fun a _ => h a
theorem allKeep_filterMap {α : Type} {l : List α} {g : α → Option (State → Out)} (h : ∀ a f, g a = some f → EventKeeps f) :
    AllKeep (l.filterMap g) := fun f hf =>
  have ⟨a, _, ha⟩ := List.mem_filterMap.mp hf
  h a f ha
theorem allKeep_ite {p : Prop} [Decidable p] {l m : List (State → Out)} (hl : AllKeep l) (hm : AllKeep m) : AllKeep (if p then l else m) := by
  split
  · exact hl
  · exact hm

/-- An event where a condition holds, and none elsewhere. -/
theorem allKeep_when {p : Prop} [Decidable p] (i : Instr) : AllKeep (if p then [exec i] else []) := allKeep_ite (allKeep_arm i) allKeep_nil

theorem allKeep_opEvents (s : State) : AllKeep (opEvents s) := by
  refine allKeep_flatMap fun x => allKeep_append (allKeep_append (allKeep_flatMap fun q => ?_)
    (allKeep_ite (allKeep_map fun i => eventKeeps_exec (.loadArrival ..)) allKeep_nil)) (allKeep_when (.oloadComplete ..))
  split
  · refine allKeep_ite (allKeep_arm (.memoryRequest ..)) (allKeep_ite (allKeep_arm (.windowTransferComplete ..)) ?_)
    split
    · exact allKeep_arm (.copyPart ..)
    · exact allKeep_arm (.copyComplete ..)
  · refine allKeep_ite (allKeep_arm (.memoryRequest ..)) (allKeep_ite (allKeep_arm (.storeRegister ..)) ?_)
    split
    · exact allKeep_arm (.atomicPerform ..)
    · exact allKeep_nil
  · exact allKeep_arm (.completionTimeout ..)
  · exact allKeep_nil

theorem allKeep_remoteEvents (s : State) : AllKeep (remoteEvents s) := by
  have ht : ∀ q n, EventKeeps (execCompletionTimeout q n) := fun q n => eventKeeps_exec (.completionTimeout q n)
  refine allKeep_append (allKeep_append (allKeep_append (allKeep_flatMap fun x => allKeep_filterMap fun n f hf => ?_)
    (allKeep_map fun x => ht _ _)) (allKeep_filterMap fun x f hf => ?_)) (allKeep_filterMap fun x f hf => ?_)
  · split at hf
    · cases hf; exact ht _ _
    · cases hf
  · dsimp only at hf
    split at hf
    · cases hf; exact ht _ _
    · cases hf
  · dsimp only at hf
    split at hf
    · split at hf
      · cases hf; exact ht _ _
      · cases hf
    · cases hf

theorem allKeep_blockEvents (s : State) : AllKeep (blockEvents s) := by
  refine allKeep_append (allKeep_append (allKeep_flatMap fun x => allKeep_ite (allKeep_ite (allKeep_arm (.mpairRetire ..))
    (allKeep_arm (.tileOpComplete ..))) (allKeep_arm (.tileOpStart ..))) (allKeep_flatMap fun x =>
      allKeep_append (allKeep_append ?_ ?_) (allKeep_when (.checkpoint ..))))
      (allKeep_flatMap fun x => allKeep_append (allKeep_when (.rcvHoldTimeout ..)) (allKeep_when (.meterSample ..)))
  · split
    · exact allKeep_ite allKeep_nil (allKeep_cons (eventKeeps_exec (.gangBarrierArrival ..)) (allKeep_arm (.sstepArrival ..)))
    · exact allKeep_nil
  · split
    · exact allKeep_arm (.blockExit ..)
    · exact allKeep_arm (.blockSave ..)
    · exact allKeep_arm (.childGridComplete ..)
    · exact allKeep_nil

theorem allKeep_hostEvents (s : State) : AllKeep (hostEvents s) := by
  unfold hostEvents
  repeat' refine allKeep_append ?_ ?_
  · exact allKeep_flatMap fun x => allKeep_when (.launchComplete ..)
  · exact allKeep_flatMap fun x => allKeep_cons (eventKeeps_exec (.revokeProceed ..)) (allKeep_arm (.revocationPoint ..))
  · exact allKeep_map fun x => eventKeeps_exec (.invalidationComplete ..)
  · refine allKeep_flatMap fun x => ?_
    dsimp only
    split
    · exact allKeep_append (allKeep_map fun g => eventKeeps_exec (.sweepRegisterScan ..)) (allKeep_arm (.sweepComplete ..))
    · exact allKeep_nil
  · exact allKeep_map fun x => eventKeeps_exec (.wscopyProceed ..)
  · exact allKeep_map fun x => eventKeeps_exec (.frameScrub ..)
  · exact allKeep_flatMap fun x => allKeep_append (allKeep_append (allKeep_when (.worldEndComplete ..)) (allKeep_when (.keyretComplete ..)))
      (allKeep_ite allKeep_nil (allKeep_arm (.meterReadingWrite ..)))
  · exact allKeep_flatMap fun x => allKeep_ite allKeep_nil (allKeep_arm (.completionPost ..))
  · exact allKeep_when .faultRecordPost
  · exact allKeep_map fun x s hs => keeps_next.mpr (Memory.wf_takeEntry_getD _ hs)

theorem allKeep_dieEvents (s : State) : AllKeep (dieEvents s) := by
  unfold dieEvents
  repeat' refine allKeep_append ?_ ?_
  · refine allKeep_flatMap fun x => ?_
    dsimp only
    repeat' refine allKeep_append ?_ ?_
    · split
      · exact allKeep_arm (.supplyRampEnd ..)
      · exact allKeep_arm (.relockEnd ..)
      · exact allKeep_arm (.supplyLowerEnd ..)
      · exact allKeep_when (.stepChangeBegin ..)
    · exact allKeep_when (.powerCeilingExpiry ..)
    · exact allKeep_when (.marginRelax ..)
    · exact allKeep_when (.dieRetire ..)
    · exact allKeep_ite allKeep_nil (allKeep_cons (eventKeeps_exec (.gangReady ..)) (allKeep_cons (eventKeeps_exec (.gangDeadline ..))
        (allKeep_arm (.sliceEnd ..))))
  · exact allKeep_flatMap fun x => allKeep_append (allKeep_append (allKeep_when (.coreRemap ..)) (allKeep_when (.pmlimApply ..)))
      (allKeep_map fun w => eventKeeps_exec (.wcDrainTimeout ..))
  · exact allKeep_map fun x => eventKeeps_exec (.settleExpiry ..)
  · exact allKeep_when .leaseExpiry
  · exact allKeep_ite allKeep_nil (allKeep_arm .chargeReport)

/-! ### The default turn, and every step -/

theorem mayKeep_placement (hs : Memory.wf s = true) : MayKeep (placement s) := by
  refine mayKeep_ite mayKeep_none fun x h => ?_
  obtain ⟨k, -, hk⟩ := List.exists_of_findSome?_eq_some h
  split at hk
  · cases hk; exact keeps_next.mpr (Memory.wf_place _ _ _ _ hs)
  · exact mayKeep_ite (mayKeep_some.mpr (keeps_next.mpr (Memory.wf_yieldDry _ hs))) mayKeep_none _ hk

theorem mayKeep_nextClause (hs : Memory.wf s = true) : MayKeep (nextClause s) := by
  intro x h
  obtain ⟨k, -, hk⟩ := List.exists_of_findSome?_eq_some h
  have hc := keeps_execClauseIssue k hs
  split at hk
  · next t ht => exact mayKeep_ite (mayKeep_some.mpr (keeps_next.mpr (Memory.wf_passTime _ (hc t ht)))) mayKeep_none _ hk
  · cases hk; exact hc

theorem keeps_turnDefault (hs : Memory.wf s = true) : Keeps (turnDefault s) := by
  unfold turnDefault
  split
  · exact keeps_next.mpr (Memory.wf_viewStep _ hs)
  · split
    · next h => exact mayKeep_nextWord hs _ h
    · split
      · next h =>
        exact mayKeep_firstChange (allKeep_append (allKeep_append (allKeep_append (allKeep_append (allKeep_opEvents s)
          (allKeep_remoteEvents s)) (allKeep_blockEvents s)) (allKeep_hostEvents s)) (allKeep_dieEvents s)) hs _ h
      · refine keeps_ite (keeps_execTick _ hs) ?_
        split
        · next h => exact mayKeep_placement hs _ h
        · split
          · next h => exact mayKeep_nextClause hs _ h
          · exact keeps_ite (keeps_exec .refreshWindowStart hs) (keeps_ite (keeps_exec .refreshWindowEnd hs)
              (keeps_next.mpr (Memory.wf_passTime _ hs)))

theorem keeps_turn (t : Turn) (hs : Memory.wf s = true) : Keeps (turn t s) :=
  match t with
  | .event i => keeps_exec i hs
  | .word r => keeps_runWord r hs
  | .submission k => keeps_next.mpr (Memory.wf_takeEntry_getD k hs)
  | .elapse ns => keeps_next.mpr (Memory.wf_passTime ns hs)

/-- What comes about at the end of a turn keeps the form. -/
theorem keeps_settled {o : Out} (h : Keeps o) : Keeps (settled o) := by
  unfold settled
  split
  · exact keeps_next.mpr (Memory.wf_settle (h _ rfl))
  · exact h

theorem keeps_step (hs : Memory.wf s = true) : Keeps (step s) := by
  refine keeps_settled ?_
  split
  · exact keeps_turn _ (Memory.wf_of_eq hs rfl rfl rfl)
  · exact keeps_turnDefault hs

/-- Settles O35: every operation that writes HBM, a weight store or a scratchpad leaves it in canonical form, and every turn, with what
comes about at its end, is made of such operations. -/
theorem memoryStaysCanonical : Obligations.MemoryStaysCanonical := fun _ t hs h => keeps_step hs t h

end Sys2Proof.Machine
end

section
/-!
PROOFS. Derivation of capabilities (R98, R99, R102): what a field's replacement leaves of the others, and that no derivation gives
authority.
-/

namespace Sys2Proof.Machine

/-! ### Fields of a capability (Table 7.1) -/

/-- A number is its bits above a field, the field, and its bits below. -/
theorem field_split (n hi lo : Nat) (h : lo ≤ hi) :
    n = 2 ^ lo * (2 ^ (hi + 1 - lo) * (n / 2 ^ (hi + 1)) + Sys2Proof.bits n hi lo) + n % 2 ^ lo := by
  have hp : 2 ^ (hi + 1) = 2 ^ lo * 2 ^ (hi + 1 - lo) := by rw [← pow_add]; congr 1; omega
  rw [hp, ← Nat.div_div_eq_div_mul, Sys2Proof.bits, Nat.div_add_mod, Nat.div_add_mod]

/-- The replaced number, by the same parts. -/
theorem Cap.set_n {c : Cap} {hi lo : Nat} (v : Nat) (h : lo ≤ hi) (hh : hi < 128) :
    (c.set hi lo v).n = 2 ^ lo * (2 ^ (hi + 1 - lo) * (c.n / 2 ^ (hi + 1)) + v % 2 ^ (hi + 1 - lo)) + c.n % 2 ^ lo := by
  have hs := field_split c.n hi lo h
  have hw : Sys2Proof.bits c.n hi lo < 2 ^ (hi + 1 - lo) := Nat.mod_lt _ (by positivity)
  have hv : v % 2 ^ (hi + 1 - lo) < 2 ^ (hi + 1 - lo) := Nat.mod_lt _ (by positivity)
  have hlow : c.n % 2 ^ lo < 2 ^ lo := Nat.mod_lt _ (by positivity)
  have hA : c.n / 2 ^ (hi + 1) < 2 ^ (128 - (hi + 1)) := by
    rw [Nat.div_lt_iff_lt_mul (by positivity), ← pow_add]
    exact lt_of_lt_of_eq c.bits.isLt (by congr 1; omega)
  have hsum : c.n - field hi lo (Sys2Proof.bits c.n hi lo) + field hi lo v =
      2 ^ lo * (2 ^ (hi + 1 - lo) * (c.n / 2 ^ (hi + 1)) + v % 2 ^ (hi + 1 - lo)) + c.n % 2 ^ lo := by
    unfold field
    rw [Nat.mod_eq_of_lt hw]
    nth_rw 1 [hs]
    rw [Nat.mul_add, Nat.mul_add, Nat.mul_comm (Sys2Proof.bits c.n hi lo), Nat.mul_comm (v % _)]
    omega
  have hlt : 2 ^ lo * (2 ^ (hi + 1 - lo) * (c.n / 2 ^ (hi + 1)) + v % 2 ^ (hi + 1 - lo)) + c.n % 2 ^ lo < 2 ^ 128 := by
    have h1 : 2 ^ (hi + 1 - lo) * (c.n / 2 ^ (hi + 1)) + v % 2 ^ (hi + 1 - lo) + 1 ≤ 2 ^ (hi + 1 - lo) * 2 ^ (128 - (hi + 1)) := by
      calc _ ≤ 2 ^ (hi + 1 - lo) * (c.n / 2 ^ (hi + 1)) + 2 ^ (hi + 1 - lo) := by omega
        _ = 2 ^ (hi + 1 - lo) * (c.n / 2 ^ (hi + 1) + 1) := by ring
        _ ≤ _ := Nat.mul_le_mul_left _ hA
    calc _ < 2 ^ lo * (2 ^ (hi + 1 - lo) * (c.n / 2 ^ (hi + 1)) + v % 2 ^ (hi + 1 - lo) + 1) := by rw [Nat.mul_add _ _ 1]; omega
      _ ≤ 2 ^ lo * (2 ^ (hi + 1 - lo) * 2 ^ (128 - (hi + 1))) := Nat.mul_le_mul_left _ h1
      _ = 2 ^ 128 := by rw [← pow_add, ← pow_add]; congr 1; omega
  unfold Cap.set Cap.n at *
  rw [hsum, BitVec.toNat_ofNat, Nat.mod_eq_of_lt hlt]

/-- Bit by bit: the field is the value's, every other bit the source's. -/
theorem Cap.set_getLsbD {c : Cap} {hi lo : Nat} (v i : Nat) (h : lo ≤ hi) (hh : hi < 128) :
    (c.set hi lo v).bits.getLsbD i = if lo ≤ i ∧ i ≤ hi then v.testBit (i - lo) else c.bits.getLsbD i := by
  have hlow : c.n % 2 ^ lo < 2 ^ lo := Nat.mod_lt _ (by positivity)
  have hv : v % 2 ^ (hi + 1 - lo) < 2 ^ (hi + 1 - lo) := Nat.mod_lt _ (by positivity)
  show (c.set hi lo v).n.testBit i = _
  have hc : c.bits.getLsbD i = c.n.testBit i := rfl
  rw [Cap.set_n v h hh, Nat.testBit_two_pow_mul_add _ hlow, hc]
  by_cases h1 : i < lo
  · rw [if_pos h1, if_neg (by omega), Nat.testBit_mod_two_pow, decide_eq_true h1, Bool.true_and]
  · rw [if_neg h1, Nat.testBit_two_pow_mul_add _ hv]
    by_cases h2 : i ≤ hi
    · rw [if_pos (by omega), if_pos (by omega), Nat.testBit_mod_two_pow, decide_eq_true (by omega), Bool.true_and]
    · rw [if_neg (by omega), if_neg (by omega), Nat.testBit_div_two_pow]
      congr 1
      omega

theorem testBit_bits (n hi lo i : Nat) : (Sys2Proof.bits n hi lo).testBit i = (decide (i < hi + 1 - lo) && n.testBit (lo + i)) := by
  rw [Sys2Proof.bits, Nat.testBit_mod_two_pow, Nat.testBit_div_two_pow, Nat.add_comm i]

/-- The field that was replaced. -/
theorem Cap.bits_set_same {c : Cap} {hi lo : Nat} (v : Nat) (h : lo ≤ hi) (hh : hi < 128) :
    Sys2Proof.bits (c.set hi lo v).n hi lo = v % 2 ^ (hi + 1 - lo) := by
  refine Nat.eq_of_testBit_eq fun i => ?_
  have hb : (c.set hi lo v).n.testBit (lo + i) = (c.set hi lo v).bits.getLsbD (lo + i) := rfl
  rw [testBit_bits, Nat.testBit_mod_two_pow, hb, Cap.set_getLsbD v _ h hh, Nat.add_sub_cancel_left]
  by_cases hi' : i < hi + 1 - lo
  · rw [if_pos (by omega)]
  · simp [hi']

/-- A field that shares no bit with the one replaced. -/
theorem Cap.bits_set_other {c : Cap} {hi lo : Nat} (v hi' lo' : Nat) (h : lo ≤ hi) (hh : hi < 128) (hd : hi' < lo ∨ hi < lo') :
    Sys2Proof.bits (c.set hi lo v).n hi' lo' = Sys2Proof.bits c.n hi' lo' := by
  refine Nat.eq_of_testBit_eq fun i => ?_
  have hb : (c.set hi lo v).n.testBit (lo' + i) = (c.set hi lo v).bits.getLsbD (lo' + i) := rfl
  rw [testBit_bits, testBit_bits, hb, Cap.set_getLsbD v _ h hh]
  by_cases hi'' : i < hi' + 1 - lo'
  · rw [if_neg (by omega)]
    rfl
  · simp [hi'']

/-! ### Bounds of a derived capability -/

theorem boundExp_some {top e : Nat} (h : boundExp top = some e) : e ≤ 30 ∧ cdiv top (2 ^ e) ≤ 16383 := by
  have hm := List.mem_of_find?_eq_some h
  have hp := List.find?_some h
  exact ⟨by have := List.mem_range.mp hm; omega, by simpa using hp⟩

/-- Ceiling division of a number that is not negative. -/
theorem icdiv_natCast (n : Nat) {d : Nat} (hd : 0 < d) : icdiv (n : Int) d = (cdiv n d : Nat) := by
  have hq : cdiv n d = (n + d - 1) / d := rfl
  have hdm := Nat.div_add_mod (n + d - 1) d
  have hm := Nat.mod_lt (n + d - 1) hd
  rw [← hq] at hdm
  have hle : (n : Int) ≤ d * (cdiv n d : Nat) := by
    rw [← Int.natCast_mul]
    omega
  have hlt : (d : Int) * (cdiv n d : Nat) < n + d := by
    rw [← Int.natCast_mul]
    omega
  have hdiv : (-(n : Int)) / d = -(cdiv n d : Nat) := by
    refine (Int.ediv_eq_iff_of_pos (by omega)).mpr ⟨?_, ?_⟩
    · rw [Int.neg_mul, Int.mul_comm]
      omega
    · rw [Int.neg_mul, Int.mul_comm]
      omega
  rw [icdiv, hdiv, neg_neg]

/-! ### Authority (R98, R102) -/

/-- A capability that holds no authority but the seal that another lacks. -/
def Cap.within (k j : Cap) : Prop :=
  j.wellFormed = true ∧ j.obn = k.obn ∧ j.ogen = k.ogen ∧ k.base ≤ j.base ∧ j.top ≤ k.top ∧
    ∀ i < 12, i ≠ 9 → j.bits.getLsbD (106 + i) = true → k.bits.getLsbD (106 + i) = true

theorem Cap.wellFormed_iff {c : Cap} : c.wellFormed = true ↔
    c.bexp ≤ 30 ∧ c.blo ≤ c.bhi ∧ Sys2Proof.bits c.n 127 122 = 0 ∧ Sys2Proof.bits c.perm 11 10 = 0 := by
  simp [Cap.wellFormed, and_assoc]

/-- Fields of equal bits are equal. -/
theorem bits_congr {m n hi lo : Nat} (h : ∀ i, lo ≤ i → i ≤ hi → m.testBit i = n.testBit i) : Sys2Proof.bits m hi lo = Sys2Proof.bits n hi lo := by
  refine Nat.eq_of_testBit_eq fun i => ?_
  rw [testBit_bits, testBit_bits]
  by_cases hi' : i < hi + 1 - lo
  · rw [h _ (by omega) (by omega)]
  · simp [hi']

/-- A capability within another: narrower bounds, permissions of the other but for the seal, and the other's object and reserved bits. -/
theorem Cap.within_of_bits {k j : Cap} (hk : k.wellFormed = true) (hexp : j.bexp ≤ 30) (hord : j.blo ≤ j.bhi) (hbase : k.base ≤ j.base)
    (htop : j.top ≤ k.top) (hsame : ∀ i, 78 ≤ i → ¬(106 ≤ i ∧ i ≤ 117) → j.bits.getLsbD i = k.bits.getLsbD i)
    (hperm : ∀ i < 12, i ≠ 9 → j.bits.getLsbD (106 + i) = true → k.bits.getLsbD (106 + i) = true) : k.within j := by
  obtain ⟨-, -, hhigh, hzero⟩ := Cap.wellFormed_iff.mp hk
  refine ⟨Cap.wellFormed_iff.mpr ⟨hexp, hord, ?_, ?_⟩, ?_, ?_, hbase, htop, hperm⟩
  · exact (bits_congr fun i _ _ => hsame i (by omega) (by omega)).trans hhigh
  · refine Nat.eq_of_testBit_eq fun i => ?_
    have hz := congrArg (Nat.testBit · i) hzero
    simp only [Cap.perm, testBit_bits, Nat.zero_testBit, Bool.and_eq_false_imp, decide_eq_true_eq] at hz ⊢
    intro hi hi'
    have hj := hperm (10 + i) (by omega) (by omega)
    exact Bool.eq_false_iff.mpr fun h => Bool.eq_false_iff.mp (hz hi hi') (hj h)
  · exact bits_congr fun i _ _ => hsame i (by omega) (by omega)
  · exact bits_congr fun i _ _ => hsame i (by omega) (by omega)

/-- A capability that differs in its address and its permissions alone. -/
theorem Cap.within_of_bounds {k j : Cap} (hk : k.wellFormed = true)
    (hsame : ∀ i, 44 ≤ i → ¬(106 ≤ i ∧ i ≤ 117) → j.bits.getLsbD i = k.bits.getLsbD i)
    (hperm : ∀ i < 12, i ≠ 9 → j.bits.getLsbD (106 + i) = true → k.bits.getLsbD (106 + i) = true) : k.within j := by
  obtain ⟨hexp, hord, -, -⟩ := Cap.wellFormed_iff.mp hk
  have he : j.bexp = k.bexp := bits_congr fun i _ _ => hsame i (by omega) (by omega)
  have hl : j.blo = k.blo := bits_congr fun i _ _ => hsame i (by omega) (by omega)
  have hh : j.bhi = k.bhi := bits_congr fun i _ _ => hsame i (by omega) (by omega)
  refine Cap.within_of_bits hk (he ▸ hexp) (by rw [hl, hh]; exact hord) ?_ ?_ (fun i hi => hsame i (by omega)) hperm
  · exact le_of_eq (by rw [Cap.base, Cap.base, he, hl])
  · exact le_of_eq (by rw [Cap.top, Cap.top, he, hh])

/-- Another address (ADD and SET of R102). -/
theorem Cap.within_setAddress {k : Cap} (hk : k.wellFormed = true) (v : Nat) (t : Bool) : k.within { k.set 43 0 v with tag := t } := by
  have hb : ∀ i, 44 ≤ i → (k.set 43 0 v).bits.getLsbD i = k.bits.getLsbD i := fun i hi => by
    rw [Cap.set_getLsbD v i (by omega) (by omega), if_neg (by omega)]
  exact Cap.within_of_bounds hk (fun i hi _ => hb i hi) fun i _ _ h => by rwa [← hb (106 + i) (by omega)]

/-- Other permissions, of which the source holds each but the seal (PERM and SEAL of R102). -/
theorem Cap.within_setPerm {k : Cap} (hk : k.wellFormed = true) {p : Nat} (hp : ∀ i < 12, i ≠ 9 → p.testBit i = true → k.perm.testBit i = true)
    (t : Bool) : k.within { k.set 117 106 p with tag := t } := by
  refine Cap.within_of_bounds hk (fun i _ hi => ?_) fun i hi h9 h => ?_
  · exact (Cap.set_getLsbD p i (by omega) (by omega)).trans (if_neg hi)
  · have hj : p.testBit i = true := by
      have := (Cap.set_getLsbD (c := k) p (106 + i) (by omega) (by omega)).symm.trans h
      rwa [if_pos (by omega), Nat.add_sub_cancel_left] at this
    have hk' := hp i hi h9 hj
    rw [Cap.perm, testBit_bits, Bool.and_eq_true] at hk'
    exact hk'.2

/-- Other bounds (BND of R102), which lie inside the source's and fit their fields. -/
theorem Cap.within_setBounds {k : Cap} (hk : k.wellFormed = true) {e l h : Nat} (he : e ≤ 30) (hl : l ≤ h) (hh : h ≤ 16383)
    (hbase : k.base ≤ l * 2 ^ e) (htop : h * 2 ^ e ≤ k.top) (t : Bool) :
    k.within { ((k.set 49 44 e).set 63 50 l).set 77 64 h with tag := t } := by
  have hexp : (((k.set 49 44 e).set 63 50 l).set 77 64 h).bexp = e := by
    rw [Cap.bexp, Cap.bits_set_other _ _ _ (by omega) (by omega) (by omega), Cap.bits_set_other _ _ _ (by omega) (by omega) (by omega),
      Cap.bits_set_same _ (by omega) (by omega), Nat.mod_eq_of_lt (by omega)]
  have hlo : (((k.set 49 44 e).set 63 50 l).set 77 64 h).blo = l := by
    rw [Cap.blo, Cap.bits_set_other _ _ _ (by omega) (by omega) (by omega), Cap.bits_set_same _ (by omega) (by omega),
      Nat.mod_eq_of_lt (by omega)]
  have hhi : (((k.set 49 44 e).set 63 50 l).set 77 64 h).bhi = h := by
    rw [Cap.bhi, Cap.bits_set_same _ (by omega) (by omega), Nat.mod_eq_of_lt (by omega)]
  have hsame : ∀ i, 78 ≤ i → (((k.set 49 44 e).set 63 50 l).set 77 64 h).bits.getLsbD i = k.bits.getLsbD i := fun i hi => by
    rw [Cap.set_getLsbD _ _ (by omega) (by omega), if_neg (by omega), Cap.set_getLsbD _ _ (by omega) (by omega), if_neg (by omega),
      Cap.set_getLsbD _ _ (by omega) (by omega), if_neg (by omega)]
  refine Cap.within_of_bits hk (le_of_eq_of_le hexp he) ?_ ?_ ?_ (fun i hi _ => hsame i hi) fun i _ _ h => by
    rwa [← hsame (106 + i) (by omega)]
  · exact (le_of_eq_of_le hlo hl).trans_eq hhi.symm
  · show k.base ≤ Cap.blo (((k.set 49 44 e).set 63 50 l).set 77 64 h) * 2 ^ Cap.bexp (((k.set 49 44 e).set 63 50 l).set 77 64 h)
    rwa [hlo, hexp]
  · show Cap.bhi (((k.set 49 44 e).set 63 50 l).set 77 64 h) * 2 ^ Cap.bexp (((k.set 49 44 e).set 63 50 l).set 77 64 h) ≤ k.top
    rwa [hhi, hexp]

/-- What every derivation's tag asks of its source. -/
def Cap.source (k : Cap) : Prop := k.tag = true ∧ k.wellFormed = true ∧ k.sealed = false

theorem Cap.source_iff {k : Cap} : (k.tag && k.wellFormed && !k.sealed) = true ↔ k.source := by simp [Cap.source, and_assoc]

/-- BND rounds the bounds outwards, and its tag asks that they still lie inside the source's. -/
theorem derive_bnd_within {k : Cap} {v : Int} (h : (derive k .bnd v).tag = true) : k.source ∧ k.within (derive k .bnd v) := by
  cases hb : boundExp ((k.cur : Int) + v).toNat with
  | none => simp [derive, hb] at h
  | some e =>
    obtain ⟨he, hfit⟩ := boundExp_some hb
    simp only [derive, hb, Bool.and_eq_true, decide_eq_true_eq, ← Cap.source_iff] at h ⊢
    obtain ⟨⟨⟨⟨hsrc, hv⟩, -⟩, hbase⟩, htop⟩ := h
    refine ⟨by simpa using hsrc, ?_⟩
    have hn : (k.cur : Int) + v = (((k.cur : Int) + v).toNat : Nat) := (Int.toNat_of_nonneg (by omega)).symm
    have hle : k.cur ≤ ((k.cur : Int) + v).toNat := by omega
    generalize ((k.cur : Int) + v).toNat = n at hn hle hfit
    rw [hn] at htop ⊢
    rw [icdiv_natCast n (by positivity)] at htop ⊢
    have hbhi : intBits 14 (cdiv n (2 ^ e) : Nat) = cdiv n (2 ^ e) := by
      unfold intBits
      omega
    rw [hbhi]
    refine Cap.within_setBounds hsrc.1.2 he ?_ hfit hbase (by exact_mod_cast htop) _
    exact (Nat.div_le_div_right hle).trans (Nat.div_le_div_right (Nat.le_sub_one_of_lt (Nat.lt_add_of_pos_right (by positivity))))

/-- R102: a tagged result's source is one that the tag asks for, and the result lies within it. -/
theorem derive_within {k : Cap} {op : DOpc} {v : Int} (h : (derive k op v).tag = true) : k.source ∧ k.within (derive k op v) := by
  cases op with
  | bnd => exact derive_bnd_within h
  | perm =>
    have hs := Cap.source_iff.mp h
    refine ⟨hs, Cap.within_setPerm hs.2.1 (fun i _ _ hi => ?_) _⟩
    rw [Nat.testBit_and, Nat.testBit_and] at hi
    simp only [Bool.and_eq_true] at hi
    exact hi.1.1
  | add =>
    simp only [derive, Bool.and_eq_true] at h
    have hs := Cap.source_iff.mp (by simpa using h.1.1)
    exact ⟨hs, Cap.within_setAddress hs.2.1 _ _⟩
  | set =>
    simp only [derive, Bool.and_eq_true] at h
    have hs := Cap.source_iff.mp (by simpa using h.1.1)
    exact ⟨hs, Cap.within_setAddress hs.2.1 _ _⟩
  | sealOp =>
    have hs := Cap.source_iff.mp h
    refine ⟨hs, Cap.within_setPerm hs.2.1 (fun i _ h9 hi => ?_) _⟩
    have h512 : Nat.testBit Perm.sealBit i = false := by
      rw [show Perm.sealBit = 2 ^ 9 from rfl, Nat.testBit_two_pow]
      exact decide_eq_false (by omega)
    rwa [Nat.testBit_or, h512, Bool.or_false] at hi

/-- Settles O25: a tagged result has a source that the tag asks for, and each derivation narrows it (`derive_within`). -/
theorem derivationIsMonotone : Obligations.DerivationIsMonotone := by
  intro k op v h
  obtain ⟨⟨htag, hk, hseal⟩, hwithin⟩ := derive_within h
  exact ⟨htag, hk, hseal, hwithin⟩

end Sys2Proof.Machine
end

section
/-!
PROOFS. Requests that are performed at a home (R139, R144, R209, R215): what each part of a performance may touch, and what it leaves of owners,
copies and tags.
-/

namespace Sys2Proof.Machine

/-! ### `memSide`, part by part -/

theorem memSide_refl (s : State) : memSide s s := (sliceSide.refl s).memSide

theorem memSide_trans {s t u : State} (h : memSide s t) (h' : memSide t u) : memSide s u := by
  obtain ⟨hcur, hrest, hmem, hdie, hcore, hblk, hctx, hworld, hlaunch⟩ := h
  obtain ⟨hcur', hrest', hmem', hdie', hcore', hblk', hctx', hworld', hlaunch'⟩ := h'
  exact ⟨hcur'.trans hcur,
    (congrArg (fun x : State => { x with mem := s.mem, dies := s.dies, cores := s.cores, ops := s.ops }) hrest' :).trans hrest,
    (congrArg (fun m : Mem => { m with
      hbm := s.mem.hbm, lines := s.mem.lines, wordOwner := s.mem.wordOwner, images := s.mem.images, maps := s.mem.maps, stamp := s.mem.stamp })
      hmem' :).trans hmem,
    fun d => (hdie' d).trans (hdie d), fun k => (hcore' k).trans (hcore k), fun b => (hblk' b).trans (hblk b), fun p => (hctx' p).trans (hctx p),
    fun w => (hworld' w).trans (hworld w), fun l => (hlaunch' l).trans (hlaunch l)⟩

theorem memSide_of_outside {s t : State} (h : outside s t) (hc : t.cur = s.cur) (hb : t.blocks = s.blocks) : memSide s t := by
  obtain ⟨hrest, -, hctx, hworld, hlaunch⟩ := h
  have hd : t.dies = s.dies := rest_dies hrest
  have hk : t.cores = s.cores := (congrArg State.cores hrest :)
  refine ⟨hc, ?_, ?_, fun d => ?_, fun k => ?_, fun b => ?_, hctx, hworld, hlaunch⟩
  · rw [hrest]; rfl
  · rw [rest_mem hrest]
  · simp only [State.die, hd]
  · simp only [State.core, hk]
  · rw [hb]

theorem memSide_ops {s t : State} (h : t = { s with ops := t.ops }) : memSide s t := by
  rw [h]
  exact ⟨rfl, rfl, rfl, fun _ => rfl, fun _ => rfl, fun _ => rfl, fun _ => rfl, fun _ => rfl, fun _ => rfl⟩

theorem memSide_modGroup (s : State) (b g : Nat) (f : Group → Group) : memSide s (s.modGroup b g f) :=
  ⟨rfl, rfl, rfl, fun _ => rfl, fun _ => rfl, fun _ => rfl, fun _ => rfl, fun _ => rfl, fun _ => rfl⟩

theorem memSide_energy (s : State) (e : Energy) : memSide s { s with energy := e } :=
  ⟨rfl, rfl, rfl, fun _ => rfl, fun _ => rfl, fun _ => rfl, fun _ => rfl, fun _ => rfl, fun _ => rfl⟩

theorem memSide_adjustOver (s : State) (dom : Nat) (amt : Int) : memSide s (adjustOver s dom amt) := by
  unfold adjustOver
  split
  · refine ⟨rfl, rfl, rfl, fun d => ?_, fun _ => rfl, fun _ => rfl, fun _ => rfl, fun _ => rfl, fun _ => rfl⟩
    rw [State.die_modDie]
    split
    · next h => rw [h]
    · rfl
  · exact memSide_energy ..

theorem memSide_applyCharge (s : State) (c : Charge) : memSide s (applyCharge s c) := by
  obtain ⟨dom, acct, la, amt⟩ := c
  cases acct with
  | some p => exact memSide_of_outside (outside_applyCharge ..) (metered.applyCharge ..).cur (metered.applyCharge ..).blocks
  | none =>
    unfold applyCharge
    split
    · exact memSide_refl s
    · exact memSide_trans (memSide_energy s _) (memSide_adjustOver ..)

theorem memSide_charge (s : State) (die cls n : Nat) (acct : Option Nat) (la : Nat) : memSide s (charge s die cls n acct la) :=
  memSide_applyCharge ..

theorem memSide_dropReq (s : State) (op lane : Nat) : memSide s (dropReq s op lane) := memSide_ops (dropReq_ops s op lane)

theorem memSide_lowerCtr (s : State) (b g : Nat) (ls : List Nat) (k : CK) : memSide s (lowerCtr s b g ls k) := memSide_modGroup ..

theorem memSide_modOp (s : State) (k : Nat) (f : Op → Op) : memSide s (s.modOp k f) := memSide_ops rfl

/-! ### What a write touches beside HBM's bytes -/

/-- Only blocks' marks of lost images and what memory notes of its lines differ. -/
structure writeSide (s t : State) : Prop where
  rest : { t with blocks := s.blocks, mem := s.mem } = s
  mem : { t.mem with hbm := s.mem.hbm, lines := s.mem.lines, images := s.mem.images, maps := s.mem.maps, stamp := s.mem.stamp } = s.mem
  blk : ∀ b, (tget? t.blocks b).map (fun B => { B with imgHit := false }) = (tget? s.blocks b).map fun B => { B with imgHit := false }

namespace writeSide

theorem refl (s : State) : writeSide s s := ⟨rfl, rfl, fun _ => rfl⟩

theorem trans {s t u : State} (h : writeSide s t) (h' : writeSide t u) : writeSide s u where
  rest := (congrArg (fun x : State => { x with blocks := s.blocks, mem := s.mem }) h'.rest :).trans h.rest
  mem := (congrArg (fun m : Mem =>
    { m with hbm := s.mem.hbm, lines := s.mem.lines, images := s.mem.images, maps := s.mem.maps, stamp := s.mem.stamp }) h'.mem :).trans h.mem
  blk b := (h'.blk b).trans (h.blk b)

theorem foldl {α : Type} {f : State → α → State} (hf : ∀ s a, writeSide s (f s a)) (l : List α) (s : State) : writeSide s (l.foldl f s) := by
  induction l generalizing s with
  | nil => exact refl s
  | cons a r ih => exact (hf s a).trans (ih _)

section
variable {s t : State} (h : writeSide s t)
include h

theorem ops : t.ops = s.ops := (congrArg State.ops h.rest :)
theorem groups : t.groups = s.groups := (congrArg State.groups h.rest :)
theorem dies : t.dies = s.dies := (congrArg State.dies h.rest :)
theorem cores : t.cores = s.cores := (congrArg State.cores h.rest :)
theorem wordOwner : t.mem.wordOwner = s.mem.wordOwner := (congrArg Mem.wordOwner h.mem :)

theorem memSide : memSide s t := by
  have hd := h.dies
  have hk := h.cores
  refine ⟨(congrArg State.cur h.rest :), (congrArg (fun x : State => { x.rest with cores := s.cores, dies := s.dies, ops := s.ops }) h.rest :), ?_,
    fun d => ?_, fun k => ?_, h.blk,
    fun p => ?_, fun w => ?_, fun l => ?_⟩
  · exact (congrArg (fun m : Mem => { m with wordOwner := s.mem.wordOwner }) h.mem :)
  · simp only [State.die, hd]
  · simp only [State.core, hk]
  · exact (congrArg (fun x : State => (tget? x.ctxs p).map Ctx.noMeter) h.rest :)
  · exact (congrArg (fun x : State => (tget? x.worlds w).map World.noMeter) h.rest :)
  · exact (congrArg (fun x : State => (tget? x.launches l).map Launch.noEnergy) h.rest :)

theorem spm (b : Nat) : blockSpm t b = blockSpm s b := by
  have hb : (tget? t.blocks b).map Block.spm = (tget? s.blocks b).map Block.spm := by
    simpa only [Option.map_map, Function.comp_def] using congrArg (Option.map Block.spm) (h.blk b)
  unfold blockSpm
  rw [hb]
end

theorem setMaps (s : State) (x : Tab (List Nat)) : writeSide s { s with mem := { s.mem with maps := x } } := ⟨rfl, rfl, fun _ => rfl⟩

theorem setLines (s : State) (x : Tab Line) : writeSide s { s with mem := { s.mem with lines := x } } := ⟨rfl, rfl, fun _ => rfl⟩

theorem setHbm (s : State) (m : Ram) : writeSide s { s with mem := { s.mem with hbm := m } } := ⟨rfl, rfl, fun _ => rfl⟩

theorem noteEntry (f base : Nat) (s : State) (e : Nat) : writeSide s (noteEntry f base s e) := by
  unfold Machine.noteEntry
  split
  · exact refl s
  · exact setMaps ..

theorem noteTable (h n : Nat) (s : State) (f : Nat × Func) : writeSide s (noteTable h n s f) := by
  unfold Machine.noteTable
  split
  · exact refl s
  · exact foldl (noteEntry f.1 f.2.s2) _ s

theorem noteTables (s : State) (h n : Nat) : writeSide s (noteTables s h n) := foldl (noteTable h n) _ s

theorem touchLines (s : State) (h n : Nat) : writeSide s (touchLines s h n) := foldl (fun s _ => setLines s _) _ s

theorem markBlock (s : State) (b : Nat) : writeSide s (s.modBlock b fun B => { B with imgHit := true }) := by
  refine ⟨rfl, rfl, fun c => ?_⟩
  simp only [State.modBlock, tget?_tmod]
  split
  · next e => subst e; cases tget? s.blocks c <;> rfl
  · rfl

theorem hitImages (s : State) (h n : Nat) : writeSide s (hitImages s h n) :=
  (foldl (fun s (m : Nat × Nat × Nat) => markBlock s (m.2.2 % 2 ^ 32)) _ s).trans ⟨rfl, rfl, fun _ => rfl⟩

theorem stampWords (s : State) (h n : Nat) : writeSide s (stampWords s h n) := by
  unfold Machine.stampWords
  split
  · exact refl s
  · exact ⟨rfl, rfl, fun _ => rfl⟩

theorem beforeWrite (s : State) (h n : Nat) :
    writeSide s (Machine.stampWords (Machine.hitImages (Machine.touchLines (Machine.noteTables s h n) h n) h n) h n) :=
  (((noteTables s h n).trans (touchLines ..)).trans (hitImages ..)).trans (stampWords ..)

theorem physWrite (s : State) (h : Nat) (bs : List Byte) : writeSide s (physWrite s h bs) :=
  ((beforeWrite s h bs.length).trans (setHbm _ _)).trans (setLines ..)

theorem physWriteCap (s : State) (h : Nat) (bs : List Byte) (t : Bool) : writeSide s (physWriteCap s h bs t) :=
  ((beforeWrite s h bs.length).trans (setHbm _ _)).trans (setLines ..)

end writeSide

/-! ### Reads of memory across an access to the slices -/

theorem sameReads_of_sliceSide {s t : State} (h : sliceSide s t) : sameReads s t :=
  ⟨h.ctxs, funcs_of_memSide h.memSide, scrubQ_of_memSide h.memSide, fun a => by simp only [physByte, h.images, h.hbm]⟩

theorem homeWord_of_sameReads {s t : State} (h : sameReads s t) (w : Nat) : homeWord t w = homeWord s w := by
  simp only [homeWord, h.physRead]

/-! ### Owners and copies of the words of an access (R135, R139) -/

theorem mem_pairOf {v w : Nat} : w ∈ pairOf v ↔ w / 2 = v / 2 := by
  simp only [pairOf, List.mem_cons, List.not_mem_nil, or_false]
  omega

theorem tget?_refresh (f : Nat → Word × Bool) (ws : List Nat) (t : Tab (Word × Bool)) (x : Nat) :
    tget? (ws.foldl (fun t w => if (tget? t w).isSome then tset t w (f w) else t) t) x =
      if x ∈ ws then (tget? t x).map (fun _ => f x) else tget? t x := by
  induction ws generalizing t with
  | nil => rfl
  | cons a r ih =>
    have ha : tget? (if (tget? t a).isSome then tset t a (f a) else t) x = if x = a then (tget? t x).map (fun _ => f x) else tget? t x := by
      by_cases e : x = a
      · subst e
        cases h : tget? t x <;> simp [h]
      · rw [if_neg e]
        split
        · rw [tget?_tset_ne _ _ e]
        · rfl
    rw [List.foldl_cons, ih, ha]
    by_cases e : x = a
    · subst e
      simp [Option.map_map, Function.comp_def]
    · simp [e]

/-- The copies that a core has of some words, and of those beside them in their aligned 8 bytes, are the home's. -/
theorem l1_refreshL1 (s : State) (core : Nat) (ws : List Nat) (k x : Nat) : tget? ((refreshL1 s core ws).core k).l1 x =
    if k = core ∧ ∃ v ∈ ws, x / 2 = v / 2 then (tget? (s.core k).l1 x).map fun _ => (homeWord s x, tget? s.mem.wordOwner x == some core)
    else tget? (s.core k).l1 x := by
  unfold refreshL1
  rw [State.core_modCore]
  have hx : x ∈ ws.flatMap pairOf ↔ ∃ v ∈ ws, x / 2 = v / 2 := by simp only [List.mem_flatMap, mem_pairOf]
  by_cases hk : k = core
  · subst hk
    rw [if_pos rfl]
    refine (tget?_refresh (fun w => (homeWord s w, tget? s.mem.wordOwner w == some k)) _ _ x).trans ?_
    simp only [hx, true_and]
  · simp [hk]

theorem wordOwner_ownWords (s : State) (core : Nat) (ws : List Nat) (w : Nat) :
    tget? (ownWords s core ws).mem.wordOwner w = if w ∈ ws then some core else tget? s.mem.wordOwner w :=
  tget?_foldl_tset (fun _ => core) ws _ w

theorem l1_ownWords_mem {s : State} {core : Nat} {ws : List Nat} {w : Nat} {x : Word × Bool} (hw : w ∈ ws)
    (hx : tget? ((ownWords s core ws).core core).l1 w = some x) : x = (homeWord s w, true) := by
  have hown : tget? (ws.foldl (fun t w => tset t w core) s.mem.wordOwner) w = some core := by
    rw [tget?_foldl_tset (fun _ => core), if_pos hw]
  unfold ownWords at hx
  rw [l1_refreshL1, if_pos ⟨rfl, w, hw, rfl⟩] at hx
  obtain ⟨-, -, rfl⟩ := Option.map_eq_some_iff.mp hx
  rw [hown, beq_self_eq_true]
  rfl

theorem l1_ownWords_other {s : State} {core k w : Nat} {ws : List Nat} (h : ¬(k = core ∧ ∃ v ∈ ws, w / 2 = v / 2)) :
    tget? ((ownWords s core ws).core k).l1 w = tget? (s.core k).l1 w := by
  unfold ownWords
  rw [l1_refreshL1, if_neg h]
  rfl

/-! ### An access that takes no line out (R139) -/

/-- No owner and no copy changes. -/
def ownersKept (s t : State) : Prop := t.mem.wordOwner = s.mem.wordOwner ∧ t.cores = s.cores

theorem ownersKept_trans {s t u : State} (h : ownersKept s t) (h' : ownersKept t u) : ownersKept s u := ⟨h'.1.trans h.1, h'.2.trans h.2⟩

theorem core_of_ownersKept {s t : State} (h : ownersKept s t) (k : Nat) : t.core k = s.core k := by simp only [State.core, h.2]

theorem length_ninsert (l : List Nat) (k : Nat) : (ninsert l k).length ≤ l.length + 1 := by
  induction l with
  | nil => simp [ninsert]
  | cons a r ih =>
    simp only [ninsert]
    split_ifs
    · simp
    · simp
    · simpa using ih

/-- A slice with room takes a line in and none out. -/
theorem llcTouch_roomy {s : State} (l : Nat) (h : ∀ d, (s.die d).llc.length < llcLines) :
    ownersKept s (llcTouch s l).2.2 ∧ ∀ d, ((llcTouch s l).2.2.die d).llc.length ≤ (s.die d).llc.length + 1 := by
  unfold llcTouch
  dsimp only
  split_ifs with h1 h2
  · exact ⟨⟨rfl, rfl⟩, fun d => by dsimp only; omega⟩
  · refine ⟨⟨rfl, rfl⟩, fun d => ?_⟩
    simp only [llcAdd, State.die_modDie]
    split
    · next e => rw [e]; exact length_ninsert ..
    · omega
  · exact absurd (h _) h2

theorem llcAccess_roomy (s : State) (ls : List Nat) (h : ∀ d, (s.die d).llc.length + ls.length ≤ llcLines) : ownersKept s (llcAccess s ls).2.2 := by
  suffices ∀ a : List Nat × List Nat × State, (∀ d, (a.2.2.die d).llc.length + ls.length ≤ llcLines) →
      ownersKept a.2.2 (ls.foldl (fun (miss, out, s) l =>
        let (hit, v, s) := llcTouch s l
        (if hit then miss else miss ++ [l], out ++ v.toList, s)) a).2.2 from this ([], [], s) h
  clear h
  induction ls with
  | nil => exact fun a _ => ⟨rfl, rfl⟩
  | cons l r ih =>
    rintro ⟨miss, out, t⟩ h
    simp only [List.length_cons] at h
    obtain ⟨hk, hl⟩ := llcTouch_roomy l fun d => show (t.die d).llc.length < llcLines by have := h d; omega
    refine ownersKept_trans hk (ih (_, _, (llcTouch t l).2.2) fun d => ?_)
    have := h d
    have := hl d
    dsimp only
    omega

theorem chargeFar_energy (s : State) (die cls n stack : Nat) (acct : Option Nat) (la : Nat) :
    { chargeFar s die cls n stack acct la with energy := s.energy } = s := by
  unfold chargeFar
  dsimp only
  split_ifs <;> rfl

theorem ownersKept_chargeFar (s : State) (die cls n stack : Nat) (acct : Option Nat) (la : Nat) : ownersKept s (chargeFar s die cls n stack acct la) :=
  ⟨(congrArg (fun t : State => t.mem.wordOwner) (chargeFar_energy ..) :), (congrArg State.cores (chargeFar_energy ..) :)⟩

theorem dies_chargeFar (s : State) (die cls n stack : Nat) (acct : Option Nat) (la : Nat) : (chargeFar s die cls n stack acct la).dies = s.dies :=
  (congrArg State.dies (chargeFar_energy ..) :)

theorem ownersKept_foldl {α : Type} {f : State → α → State} (hf : ∀ s a, ownersKept s (f s a)) (l : List α) (s : State) : ownersKept s (l.foldl f s) := by
  induction l generalizing s with
  | nil => exact ⟨rfl, rfl⟩
  | cons a r ih => exact ownersKept_trans (hf s a) (ih _)

theorem length_linesOf {h n : Nat} (hn : n ≤ 16) : (linesOf h n).length ≤ 2 := by
  unfold linesOf
  split
  · simp
  · simp only [List.length_map, List.length_range]; omega

theorem ownersKept_ite {p : Prop} [Decidable p] {s t u : State} (ht : ownersKept s t) (hu : ownersKept t u) : ownersKept s (if p then t else u) := by
  split
  · exact ht
  · exact ownersKept_trans ht hu

/-- Where every slice has room for two lines more, charging an access of at most 16 bytes takes no line out. -/
theorem ownersKept_chargeLines {s : State} (hr : roomy s) (acct : Option Nat) (la die h : Nat) {n : Nat} (hn : n ≤ 16) (mt : Nat) :
    ownersKept s (chargeLines s acct la die h n mt) := by
  have hlen : (if mt % 4 < 2 then linesOf h n else []).length ≤ 2 := by
    split
    · exact length_linesOf hn
    · simp
  unfold chargeLines
  dsimp only
  generalize (if mt % 4 < 2 then linesOf h n else []) = ls at hlen ⊢
  have h1 := ownersKept_chargeFar s (homeDie s h) 0x3A ls.length 0 acct la
  have h2 := llcAccess_roomy (chargeFar s (homeDie s h) 0x3A ls.length 0 acct la) ls fun d => by
    have := hr d
    simp only [State.die, dies_chargeFar] at this ⊢
    omega
  have h3 := ownersKept_trans h1 h2
  generalize llcAccess _ _ = x at h3 ⊢
  refine ownersKept_trans h3 (ownersKept_ite ⟨rfl, rfl⟩ (ownersKept_ite ?_ (ownersKept_chargeFar ..)))
  refine ownersKept_trans ?_ (ownersKept_foldl (fun t a => ownersKept_chargeFar ..) _ _)
  split
  · exact ownersKept_trans (t := { x.2.2 with free := x.2.2.free + 1 + x.2.1.length }) ⟨rfl, rfl⟩ (ownersKept_chargeFar ..)
  · exact ⟨rfl, rfl⟩

end Sys2Proof.Machine
end

section
/-!
PROOFS. Stores that are performed (R139, R140, R209, R210): bytes placed at a home, and bytes that merge in a core's buffer.
-/

namespace Sys2Proof.Machine

/-! ### Bytes placed at a home -/

/-- Bytes are written at their home for a core, charged to a block: as a capability store, or not. -/
def placedAt (s : State) (b core h mt : Nat) (bs : List Byte) (cap : Bool) : State :=
  let u := chargeAccess s b core h bs.length false true mt
  ownWords (if cap then physWriteCap u h bs true else physWrite u h bs) core (wordsOf h bs.length)

section
variable (s : State) (b core h mt : Nat) (bs : List Byte) (cap : Bool)

theorem writeSide_written (u : State) : writeSide u (if cap then physWriteCap u h bs true else physWrite u h bs) := by
  split
  · exact .physWriteCap ..
  · exact .physWrite ..

theorem memSide_placedAt : memSide s (placedAt s b core h mt bs cap) :=
  memSide_trans (sliceSide.chargeAccess s b core h bs.length true mt).memSide
    (memSide_trans (writeSide_written h bs cap _).memSide (sliceSide.ownWords _ core _).memSide)

theorem ops_placedAt : (placedAt s b core h mt bs cap).ops = s.ops :=
  (sliceSide.ownWords _ core _).ops.trans ((writeSide_written h bs cap _).ops.trans (sliceSide.chargeAccess s b core h bs.length true mt).ops)

theorem groups_placedAt : (placedAt s b core h mt bs cap).groups = s.groups :=
  (sliceSide.ownWords _ core _).groups.trans
    ((writeSide_written h bs cap _).groups.trans (sliceSide.chargeAccess s b core h bs.length true mt).groups)

theorem byteAt_spm_placedAt (k a : Nat) : (placedAt s b core h mt bs cap).byteAt (.spm k a) = s.byteAt (.spm k a) := by
  refine ((sliceSide.ownWords _ core _).bytes _).trans (.trans ?_ ((sliceSide.chargeAccess s b core h bs.length true mt).bytes _))
  simp only [State.byteAt, (writeSide_written h bs cap _).spm]

theorem byteAt_ws_placedAt (d a : Nat) : (placedAt s b core h mt bs cap).byteAt (.ws d a) = s.byteAt (.ws d a) := by
  refine ((sliceSide.ownWords _ core _).bytes _).trans (.trans ?_ ((sliceSide.chargeAccess s b core h bs.length true mt).bytes _))
  simp only [State.byteAt, State.die, (writeSide_written h bs cap _).dies]

/-- HBM after bytes are placed: a capability store sets the tag of a well-formed value outside save areas. -/
theorem hbm_placedAt : (placedAt s b core h mt bs cap).mem.hbm =
    s.mem.hbm.writeCap h bs (cap && (capOf bs true).wellFormed && !inSaveArea s h) := by
  have hu := sliceSide.chargeAccess s b core h bs.length true mt
  refine (sliceSide.ownWords _ core _).hbm.trans ?_
  rw [← hu.hbm, ← (sameReads_of_sliceSide hu).inSaveArea]
  cases cap
  · exact (aside.physWrite _ h bs).hbm
  · exact (aside.physWriteCap _ h bs true).hbm

theorem wordOwner_placedAt {w : Nat} (hw : w ∈ wordsOf h bs.length) : tget? (placedAt s b core h mt bs cap).mem.wordOwner w = some core := by
  unfold placedAt
  rw [wordOwner_ownWords, if_pos hw]

/-- The writer's copies of the words written are the home's. -/
theorem l1_placedAt {w : Nat} {x : Word × Bool} (hw : w ∈ wordsOf h bs.length) (hx : tget? ((placedAt s b core h mt bs cap).core core).l1 w = some x) :
    x = (homeWord (placedAt s b core h mt bs cap) w, true) := by
  have h := l1_ownWords_mem hw hx
  rw [h]
  unfold placedAt
  dsimp only
  rw [homeWord_of_sameReads (sameReads_of_sliceSide (sliceSide.ownWords ..))]

section
variable (hr : roomy s) (hn : bs.length ≤ 16)
include hr hn

theorem ownersKept_written : ownersKept s (if cap then physWriteCap (chargeAccess s b core h bs.length false true mt) h bs true
    else physWrite (chargeAccess s b core h bs.length false true mt) h bs) :=
  ownersKept_trans (t := chargeAccess s b core h bs.length false true mt) (ownersKept_chargeLines hr _ _ _ _ hn mt)
    ⟨(writeSide_written h bs cap _).wordOwner, (writeSide_written h bs cap _).cores⟩

theorem wordOwner_placedAt_other {w : Nat} (hw : w ∉ wordsOf h bs.length) :
    tget? (placedAt s b core h mt bs cap).mem.wordOwner w = tget? s.mem.wordOwner w := by
  unfold placedAt
  rw [wordOwner_ownWords, if_neg hw, (ownersKept_written s b core h mt bs cap hr hn).1]

theorem l1_placedAt_other {k w : Nat} (hw : ¬(k = core ∧ ∃ v ∈ wordsOf h bs.length, w / 2 = v / 2)) :
    tget? ((placedAt s b core h mt bs cap).core k).l1 w = tget? (s.core k).l1 w := by
  unfold placedAt
  rw [l1_ownWords_other hw, core_of_ownersKept (ownersKept_written s b core h mt bs cap hr hn)]
end
end

/-! ### HBM with bytes placed in it -/

theorem byteAt_of_writeCap {s t : State} {h : Nat} {bs : List Byte} {v : Bool} (ht : t.mem.hbm = s.mem.hbm.writeCap h bs v) (a : Nat) :
    t.byteAt (.hbm a) = hbmWith s h bs a := by
  simp only [State.byteAt, ht, Ram.get_writeCap, Ram.get_write, hbmWith]

theorem tagsAfter_of_writeCap {s t : State} {h : Nat} {bs : List Byte} {v : Bool} (ht : t.mem.hbm = s.mem.hbm.writeCap h bs v) (hn : 1 ≤ bs.length) :
    tagsAfter s t h bs.length v := by
  intro g
  have hg : (granules h bs.length).contains g = (decide (16 * g < h + bs.length) && decide (h < 16 * g + 16)) := by
    rw [Bool.eq_iff_iff]
    simp only [List.contains_iff_mem, mem_granules_iff, Bool.and_eq_true, decide_eq_true_eq]
    exact ⟨And.right, fun e => ⟨hn, e⟩⟩
  rw [ht, Ram.contains_writeCap, Ram.contains_write, hg]
  cases v
  · simp
  · by_cases e : g = h / 16 <;> simp [e]

/-! ### A store is done -/

/-- The end of a store that the probe takes no sample of changes operations and groups only. -/
theorem storeDone_side {s : State} {op lane : Nat} {o : Op} {q : LReq} (ho : tget? s.ops op = some o) (hq : o.req? lane = some q)
    (hp : q.probe = false) : storeDone s op lane = { s with ops := (dropReq s op lane).ops, groups := (storeDone s op lane).groups } := by
  rw [storeDone_eq ho fun q' hq' => by rw [hq] at hq'; cases hq'; exact hp]
  exact (congrArg (fun t : State => { t with groups := (lowerCtr (dropReq s op lane) o.blk o.gidx [lane] o.kind.ctr).groups }) (dropReq_ops s op lane) :)

theorem memSide_storeDone {s : State} {op lane : Nat} {o : Op} {q : LReq} (ho : tget? s.ops op = some o) (hq : o.req? lane = some q)
    (hp : q.probe = false) : memSide s (storeDone s op lane) := by
  rw [storeDone_eq ho fun q' hq' => by rw [hq] at hq'; cases hq'; exact hp]
  exact memSide_trans (memSide_dropReq ..) (memSide_lowerCtr ..)

theorem req?_filter_ne (o : Op) {lane l : Nat} (h : l ≠ lane) : ({ o with lanes := o.lanes.filter fun q => q.lane != lane } : Op).req? l = o.req? l := by
  simp only [Op.req?, List.find?_filter]
  refine congrArg (fun p => o.lanes.find? p) (funext fun q => ?_)
  by_cases e : q.lane = l
  · simp [e, h]
  · simp [e]

theorem otherReqs_dropReq (s : State) (op lane : Nat) : otherReqs s (dropReq s op lane) op lane := by
  unfold dropReq
  cases ho : tget? s.ops op with
  | none => exact ⟨fun _ _ => rfl, fun _ _ => rfl⟩
  | some o =>
    dsimp only
    split
    · next he =>
      refine ⟨fun k hk => tget?_tdel_ne _ hk, fun l hl => ?_⟩
      rw [tget?_tdel_self, ho, Option.bind_none, Option.bind_some, ← req?_filter_ne o hl, List.isEmpty_iff.mp he]
      rfl
    · refine ⟨fun k hk => tget?_tset_ne _ _ hk, fun l hl => ?_⟩
      rw [tget?_tset_self, ho, Option.bind_some, Option.bind_some, req?_filter_ne o hl]

/-! ### A store at a home -/

/-- A store of one part that is not write-combining is placed at its home, and done. -/
theorem performStore_home {s : State} {op lane : Nat} {o : Op} {q : LReq} {h mt : Nat} (ho : tget? s.ops op = some o) (hq : o.req? lane = some q)
    (hparts : q.parts = [(h, q.n, mt)]) (hmt : mt ≠ 1) (hmt4 : mt < 4) :
    performStore s op lane = storeDone (placedAt s o.blk o.core h mt (natBytes q.n q.data) (q.tag && o.kind == .storeCap)) op lane := by
  have hlen := length_natBytes q.n q.data
  unfold performStore
  rw [ho]
  dsimp only
  rw [hq]
  dsimp only
  rw [hparts]
  have hfar : [(h, q.n, mt)].any farPart = false := by simp [farPart, hmt4]
  have hall : ([(h, q.n, mt)].all fun p => decide (p.2.2 ≠ 1)) = true := by simp [hmt]
  rw [hfar, if_neg Bool.false_ne_true, hall, if_pos rfl]
  simp only [placeStore, if_neg hmt, List.take_of_length_le hlen.le, placedAt, homeWrite, hlen]
  cases q.tag && o.kind == .storeCap <;> rfl

theorem isStore_ctr {k : OpKind} (h : k.isStore = true) : k.ctr = .st := by
  cases k with
  | store n => rfl
  | storeCap => rfl
  | _ => exact absurd h Bool.false_ne_true

/-- A translated store that may be performed is. -/
theorem execStoreRegister_performs {s : State} {op lane : Nat} {o : Op} {q : LReq} (ho : tget? s.ops op = some o) (hk : o.kind.isStore = true)
    (hq : o.req? lane = some q) (hph : q.ph = .xlated) (hon : blockOn s o.blk = true) (hmay : mayPerform s o q = true)
    (hm : isMerged s o.core op lane = false) : exec (.storeRegister op lane) s = .next (performStore s op lane) := by
  have hc : (o.kind.isStore && q.ph == .xlated && blockOn s o.blk && mayPerform s o q && !isMerged s o.core op lane) = true := by
    rw [hk, hph, hon, hmay, hm]; rfl
  rw [exec_storeRegister, execStoreRegister, ho]
  dsimp only
  rw [hq]
  dsimp only
  rw [if_pos hc]

/-- The capability that a capability store places is its operand. -/
theorem capOf_natBytes {n : Nat} (hn : n = 16) (v : Nat) (t : Bool) : capOf (natBytes n v) t = ⟨BitVec.ofNat 128 v, t⟩ := by
  subst hn
  unfold capOf
  rw [leNat_natBytes]
  congr 1
  exact BitVec.eq_of_toNat_eq (by simp)

theorem storesAtHome : StoresAtHome := by
  intro op lane s o q h n' mt ho hkind hq hph hon hmay hm hprobe hparts hmt hmt4 hn' hn tag
  subst hn'
  have hstore : o.kind.isStore = true := by
    rcases hkind with ⟨m, hk⟩ | ⟨hk, -, -⟩ <;> rw [hk] <;> rfl
  let bs := natBytes q.n q.data
  let cap := q.tag && o.kind == .storeCap
  let u := placedAt s o.blk o.core h mt bs cap
  have hlen : bs.length = q.n := length_natBytes ..
  have htag : (cap && (capOf bs true).wellFormed && !inSaveArea s h) = tag := by
    rcases hkind with ⟨m, hk⟩ | ⟨hk, hn16, -⟩
    · have hne : (o.kind == .storeCap) = false := by rw [hk]; rfl
      simp [cap, tag, hne]
    · simp [cap, tag, hk, bs, capOf_natBytes hn16]
  have hhbm : u.mem.hbm = s.mem.hbm.writeCap h bs tag := htag ▸ hbm_placedAt s o.blk o.core h mt bs cap
  have hu : tget? u.ops op = some o := by rw [ops_placedAt, ho]
  have hd := storeDone_side hu hq hprobe
  have hmem : (storeDone u op lane).mem = u.mem := (congrArg State.mem hd :)
  have hcore : ∀ k, (storeDone u op lane).core k = u.core k := fun k => (congrArg (fun t : State => t.core k) hd :)
  have hword : ∀ w, homeWord (storeDone u op lane) w = homeWord u w := fun w => by simp only [homeWord, physRead, physByte, hmem]
  have hhbm' : (storeDone u op lane).mem.hbm = s.mem.hbm.writeCap h bs tag := by rw [hmem, hhbm]
  obtain ⟨hgone, hctr, hbytes⟩ := storeDone_ends hu hq hprobe (groups_placedAt s o.blk o.core h mt bs cap)
  rw [isStore_ctr hstore] at hctr
  refine ⟨storeDone u op lane, ?_, ?_, byteAt_of_writeCap hhbm', fun b a => ?_, fun d a => ?_, hlen ▸ tagsAfter_of_writeCap hhbm' (hlen ▸ hn),
    fun w hw => ?_, hgone, ?_, hctr, fun w hw x hx => ?_, fun hr h16 => ⟨fun w hw => ?_, fun k w hw => ?_⟩⟩
  · rw [execStoreRegister_performs ho hstore hq hph hon hmay hm, performStore_home ho hq hparts hmt hmt4]
  · exact memSide_trans (memSide_placedAt ..) (memSide_storeDone hu hq hprobe)
  · exact (hbytes _).trans (byteAt_spm_placedAt ..)
  · exact (hbytes _).trans (byteAt_ws_placedAt ..)
  · rw [hmem]; exact wordOwner_placedAt s o.blk o.core h mt bs cap (hlen ▸ hw)
  · have hreqs := otherReqs_dropReq u op lane
    rw [otherReqs, ops_placedAt] at hreqs
    rw [hd]
    exact hreqs
  · rw [hword]
    exact l1_placedAt s o.blk o.core h mt bs cap (hlen ▸ hw) (hcore _ ▸ hx)
  · rw [hmem]; exact wordOwner_placedAt_other s o.blk o.core h mt bs cap hr (hlen ▸ h16) (hlen ▸ hw)
  · rw [hcore]; exact l1_placedAt_other s o.blk o.core h mt bs cap hr (hlen ▸ h16) (hlen ▸ hw)

/-! ### Bytes that merge in a buffer (R140, R210) -/

/-- A line takes a byte of a store. -/
def WcLine.add (w : WcLine) (who : Nat × Nat) (i : Nat) (x : Byte) : WcLine :=
  { w with bytes := tset w.bytes i x, op := if w.op.contains who then w.op else w.op ++ [who], tags := w.tags.filter (· != i / 16) }

/-- A line of a core's buffer, or the empty one that a store would begin. -/
def wcLine (s : State) (core line : Nat) : WcLine := (tget? (s.core core).wc line).getD ⟨s.reft, [], [], []⟩

/-- A byte of a store merges in a core's buffer. -/
def mergeByte (core : Nat) (who : Nat × Nat) (s : State) (p : Nat × Byte) : State :=
  s.modCore core fun c => { c with wc := tset c.wc (p.1 / 64) (((tget? c.wc (p.1 / 64)).getD ⟨s.reft, [], [], []⟩).add who (p.1 % 64) p.2) }

theorem mergeWc_eq (s : State) (core h : Nat) (bs : List Byte) (who : Nat × Nat) :
    mergeWc s core h bs who false = (bs.mapIdx fun i x => (h + i, x)).foldl (mergeByte core who) s := rfl

/-- Only one line of one core's buffer differs. -/
structure lineSide (core line : Nat) (s t : State) : Prop where
  rest : { t with cores := s.cores } = s
  other : ∀ k, k ≠ core → t.core k = s.core k
  kept : { t.core core with wc := [] } = { s.core core with wc := [] }
  lines : ∀ l, l ≠ line → tget? (t.core core).wc l = tget? (s.core core).wc l

theorem lineSide.refl (core line : Nat) (s : State) : lineSide core line s s := ⟨rfl, fun _ _ => rfl, rfl, fun _ _ => rfl⟩

theorem lineSide.trans {core line : Nat} {s t u : State} (h : lineSide core line s t) (h' : lineSide core line t u) : lineSide core line s u where
  rest := (congrArg (fun x : State => { x with cores := s.cores }) h'.rest :).trans h.rest
  other k hk := (h'.other k hk).trans (h.other k hk)
  kept := h'.kept.trans h.kept
  lines l hl := (h'.lines l hl).trans (h.lines l hl)

theorem mergeByte_side {core line a : Nat} (ha : a / 64 = line) (who : Nat × Nat) (s : State) (x : Byte) :
    lineSide core line s (mergeByte core who s (a, x)) := by
  refine ⟨rfl, fun k hk => ?_, ?_, fun l hl => ?_⟩
  · rw [mergeByte, State.core_modCore, if_neg hk]
  · rw [mergeByte, State.core_modCore, if_pos rfl]
  · rw [mergeByte, State.core_modCore, if_pos rfl]
    exact tget?_tset_ne _ _ (by dsimp only; omega)

theorem tget?_mergeByte {core line a : Nat} (ha : a / 64 = line) (who : Nat × Nat) (s : State) (x : Byte) :
    tget? ((mergeByte core who s (a, x)).core core).wc line = some ((wcLine s core line).add who (a % 64) x) := by
  subst ha
  rw [mergeByte, State.core_modCore, if_pos rfl]
  exact tget?_tset_self ..

/-- The bytes that a table holds after n bytes are set from an index on. -/
def setBytes (old : Tab Byte) (base n : Nat) (f : Nat → Byte) : Tab Byte := (List.range n).foldl (fun t i => tset t (base + i) (f i)) old

theorem tget?_setBytes (old : Tab Byte) (base n : Nat) (f : Nat → Byte) (i : Nat) :
    tget? (setBytes old base n f) i = if base ≤ i ∧ i < base + n then some (f (i - base)) else tget? old i := by
  induction n with
  | zero => rw [if_neg (by omega)]; rfl
  | succ n ih =>
    have hs : setBytes old base (n + 1) f = tset (setBytes old base n f) (base + n) (f n) := by
      simp [setBytes, List.range_succ]
    rw [hs, tget?_tset, ih]
    by_cases e : i = base + n
    · subst e
      simp
    · rw [if_neg e]
      exact if_congr (by omega) rfl rfl

theorem length_tset_le {α : Type} (t : Tab α) (k : Nat) (v : α) : (tset t k v).length ≤ t.length + 1 := by
  induction t with
  | nil => simp [tset]
  | cons a r ih =>
    obtain ⟨a, w⟩ := a
    simp only [tset]
    split_ifs
    · simp
    · simp
    · simpa using ih

theorem length_setBytes (old : Tab Byte) (base n : Nat) (f : Nat → Byte) : (setBytes old base n f).length ≤ old.length + n := by
  induction n with
  | zero => exact le_rfl
  | succ n ih =>
    have hs : setBytes old base (n + 1) f = tset (setBytes old base n f) (base + n) (f n) := by
      simp [setBytes, List.range_succ]
    rw [hs]
    exact (length_tset_le ..).trans (by omega)

/-- The first n bytes of a store within a line merge: the line holds them, and is the store's. -/
theorem mergeBytes (s : State) (core h : Nat) (who : Nat × Nat) (f : Nat → Byte) (n : Nat) (hn : h % 64 + n ≤ 64) :
    let t := ((List.range n).map fun i => (h + i, f i)).foldl (mergeByte core who) s
    lineSide core (h / 64) s t ∧ (wcLine t core (h / 64)).bytes = setBytes (wcLine s core (h / 64)).bytes (h % 64) n f ∧
      (1 ≤ n → (tget? (t.core core).wc (h / 64)).isSome ∧ who ∈ (wcLine t core (h / 64)).op) := by
  induction n with
  | zero => exact ⟨.refl .., rfl, fun h => absurd h (by omega)⟩
  | succ n ih =>
    obtain ⟨hside, hbytes, -⟩ := ih (by omega)
    rw [List.range_succ, List.map_append, List.foldl_append]
    generalize ((List.range n).map fun i => (h + i, f i)).foldl (mergeByte core who) s = u at hside hbytes ⊢
    have hline : (h + n) / 64 = h / 64 := by omega
    have hoff : (h + n) % 64 = h % 64 + n := by omega
    have hget := tget?_mergeByte (core := core) hline who u (f n)
    rw [hoff] at hget
    simp only [List.map_cons, List.map_nil, List.foldl_cons, List.foldl_nil]
    have hw : wcLine (mergeByte core who u (h + n, f n)) core (h / 64) = (wcLine u core (h / 64)).add who (h % 64 + n) (f n) := by
      rw [wcLine, hget, Option.getD_some]
    refine ⟨hside.trans (mergeByte_side hline who u (f n)), ?_, fun _ => ⟨by rw [hget]; rfl, ?_⟩⟩
    · rw [hw, WcLine.add]
      dsimp only
      rw [hbytes]
      simp [setBytes, List.range_succ]
    · rw [hw, WcLine.add]
      dsimp only
      split
      · next hc => exact List.contains_iff_mem.mp hc
      · simp

theorem mapIdx_natBytes (n v h : Nat) : ((natBytes n v).mapIdx fun i x => (h + i, x)) = (List.range n).map fun i => (h + i, BitVec.ofNat 8 (v / 256 ^ i)) := by
  refine List.ext_getElem (by simp [natBytes]) fun i h1 h2 => ?_
  simp [natBytes]

/-- A line that a store leaves short of its 64 bytes stays in the buffer. -/
def drainIfFull (core : Nat) (s : State) (l : Nat) : State :=
  match tget? (s.core core).wc l with
  | some w => if w.bytes.length = 64 then drainLine s core l else s
  | none => s

theorem linesOf_one {h n : Nat} (hn : 1 ≤ n) (hl : h % 64 + n ≤ 64) : linesOf h n = [h / 64] := by
  have hz : (h + n - 1) / 64 - h / 64 + 1 = 1 := by omega
  rw [linesOf, if_neg (by omega), hz]
  simp

theorem req?_lane {o : Op} {lane : Nat} {q : LReq} (h : o.req? lane = some q) : q.lane = lane := by
  simpa using List.find?_some h

/-- A store of one write-combining part merges its bytes, and drains the line it fills. -/
theorem performStore_merges {s : State} {op lane : Nat} {o : Op} {q : LReq} {h m : Nat} (ho : tget? s.ops op = some o) (hk : o.kind = .store m)
    (hq : o.req? lane = some q) (hparts : q.parts = [(h, q.n, 1)]) (hn : 1 ≤ q.n) (hl : h % 64 + q.n ≤ 64) :
    performStore s op lane =
      drainIfFull o.core (((List.range q.n).map fun i => (h + i, BitVec.ofNat 8 (q.data / 256 ^ i))).foldl (mergeByte o.core (op, lane)) s) (h / 64) := by
  have hlen := length_natBytes q.n q.data
  have hcap : (q.tag && o.kind == .storeCap) = false := by rw [hk]; exact Bool.and_false _
  unfold performStore
  rw [ho]
  dsimp only
  rw [hq]
  dsimp only
  rw [hparts]
  have hfar : [(h, q.n, 1)].any farPart = false := rfl
  have hall : ([(h, q.n, 1)].all fun p => decide (p.2.2 ≠ 1)) = false := rfl
  have hmerge : placeStore s op o q [(h, q.n, 1)] (natBytes q.n q.data) =
      ((List.range q.n).map fun i => (h + i, BitVec.ofNat 8 (q.data / 256 ^ i))).foldl (mergeByte o.core (op, lane)) s := by
    simp only [placeStore, if_true, hcap, req?_lane hq, List.take_of_length_le hlen.le, mergeWc_eq, mapIdx_natBytes]
  rw [hfar, if_neg Bool.false_ne_true, hall, if_neg Bool.false_ne_true, hmerge]
  have hlines : ([(h, q.n, 1)].filter fun p => decide (p.2.2 = 1)).flatMap (fun x => linesOf x.1 x.2.1) = [h / 64] := by
    simp [linesOf_one hn hl]
  exact congrArg (List.foldl (drainIfFull o.core) _) hlines

theorem storesMerge : StoresMerge := by
  intro op lane s o q n h ho hk hq hph hon hmay hm hparts hn hl hfull old
  obtain ⟨hside, hbytes, hsome⟩ := mergeBytes s o.core h (op, lane) (fun i => BitVec.ofNat 8 (q.data / 256 ^ i)) q.n hl
  have hperf := performStore_merges ho hk hq hparts hn hl
  generalize ((List.range q.n).map fun i => (h + i, BitVec.ofNat 8 (q.data / 256 ^ i))).foldl (mergeByte o.core (op, lane)) s = t
    at hside hbytes hsome hperf
  obtain ⟨hin, hmem⟩ := hsome hn
  obtain ⟨w, hw⟩ := Option.isSome_iff_exists.mp hin
  have hold : (wcLine s o.core (h / 64)).bytes = old := by
    unfold wcLine old
    cases tget? (s.core o.core).wc (h / 64) <;> rfl
  have hline : wcLine t o.core (h / 64) = w := by rw [wcLine, hw, Option.getD_some]
  rw [hline, hold] at hbytes
  rw [hline] at hmem
  have hlen : w.bytes.length < 64 := by
    have := length_setBytes old (h % 64) q.n fun i => BitVec.ofNat 8 (q.data / 256 ^ i)
    rw [← hbytes] at this
    have hold : old.length = ((tget? (s.core o.core).wc (h / 64)).map (·.bytes.length)).getD 0 := by
      unfold old
      cases tget? (s.core o.core).wc (h / 64) <;> rfl
    omega
  refine ⟨t, w, ?_, hside.rest, hside.other, hside.kept, hw, hmem, hside.lines, fun i => ?_⟩
  · rw [execStoreRegister_performs ho (by rw [hk]; rfl) hq hph hon hmay hm, hperf, drainIfFull, hw]
    dsimp only
    rw [if_neg hlen.ne]
  · rw [hbytes, tget?_setBytes]

/-- Settles O41: a store of a span homed here is placed at its home, and one to a write-combining span merges in the core's buffer. -/
theorem storesRegister : Obligations.StoresRegister := ⟨storesAtHome, storesMerge⟩

end Sys2Proof.Machine
end

section
/-!
PROOFS. Loads and atomics that are performed (R113, R135, R144, R208, R214, R215): what a read changes, what a fill leaves in the L1, and the word
that an atomic replaces.
-/

namespace Sys2Proof.Machine

/-! ### What a read may touch -/

/-- What a read touches: accounts, the slices with the owners of words, and the L1s. -/
structure readSide (s t : State) : Prop where
  side : memSide s t
  mem : { t.mem with wordOwner := s.mem.wordOwner } = s.mem
  blocks : t.blocks = s.blocks
  groups : t.groups = s.groups
  ops : t.ops = s.ops
  bytes : bytesKept s t

namespace readSide

theorem trans {s t u : State} (h : readSide s t) (h' : readSide t u) : readSide s u where
  side := memSide_trans h.side h'.side
  mem := (congrArg (fun m : Mem => { m with wordOwner := s.mem.wordOwner }) h'.mem :).trans h.mem
  blocks := h'.blocks.trans h.blocks
  groups := h'.groups.trans h.groups
  ops := h'.ops.trans h.ops
  bytes a := (h'.bytes a).trans (h.bytes a)

theorem of_sliceSide {s t : State} (h : sliceSide s t) : readSide s t := ⟨h.memSide, h.mem, h.blocks, h.groups, h.ops, h.bytes⟩

theorem charge (s : State) (die cls n : Nat) (acct : Option Nat) (la : Nat) : readSide s (charge s die cls n acct la) := by
  have h := metered.charge s die cls n acct la
  exact ⟨memSide_charge .., by rw [h.mem], h.blocks, h.groups, (congrArg State.ops h.rest :), h.bytes⟩

theorem chargeLines (s : State) (acct : Option Nat) (la die h n mt : Nat) : readSide s (chargeLines s acct la die h n mt) :=
  of_sliceSide (.chargeLines ..)

section
variable {s t : State} (h : readSide s t)
include h

theorem physByte (a : Nat) : physByte t a = physByte s a := by
  have hi : t.mem.images = s.mem.images := (congrArg Mem.images h.mem :)
  have hb : t.mem.hbm = s.mem.hbm := (congrArg Mem.hbm h.mem :)
  simp only [Machine.physByte, hi, hb]

theorem physRead (a n : Nat) : physRead t a n = physRead s a n := by simp only [Machine.physRead, h.physByte]

theorem homeWord (w : Nat) : homeWord t w = homeWord s w := by simp only [Machine.homeWord, h.physRead]
end

end readSide

/-! ### A charge takes no line out -/

theorem llc_applyCharge (s : State) (c : Charge) (d : Nat) : ((applyCharge s c).die d).llc = (s.die d).llc := by
  have hadj : ∀ (u : State) p la amt, (adjust u p la amt).dies = u.dies := fun u p la amt => rest_dies (outside_adjust u p la amt).1
  unfold applyCharge
  split
  · rfl
  · dsimp only
    split
    · simp only [State.die, hadj]
      rfl
    · unfold adjustOver
      split
      · rw [State.die_modDie]
        split
        · next h => rw [h]; rfl
        · rfl
      · rfl

theorem ownersKept_applyCharge (s : State) (c : Charge) : ownersKept s (applyCharge s c) :=
  have h := metered.applyCharge s c
  ⟨by rw [h.mem], (congrArg State.cores h.rest :)⟩

theorem roomy_charge {s : State} (hr : roomy s) (die cls n : Nat) (acct : Option Nat) (la : Nat) : roomy (charge s die cls n acct la) :=
  fun d => by rw [charge, llc_applyCharge]; exact hr d

/-! ### A fill of the L1 (R135) -/

theorem mem_l1Block (w k : Nat) : w ∈ l1Block w k := by
  have := Nat.sub_le w (k % (w % 8 + 1))
  simp only [l1Block, List.mem_map, List.mem_range]
  exact ⟨w - (w - k % (w % 8 + 1)), by omega, by omega⟩

/-- The block of a fill, as the core's order of blocks names it. -/
theorem l1Block_head (w k : Nat) : ∃ b, ((l1Block w k).head?.map fun x => (x, (l1Block w k).length)) = some b ∧ inL1Block w b = true := by
  have := Nat.sub_le w (k % (w % 8 + 1))
  refine ⟨(w - k % (w % 8 + 1), (l1Block w k).length), ?_, ?_⟩
  · simp [l1Block, List.range_succ_eq_map]
  · simp only [inL1Block, l1Block, List.length_map, List.length_range, Bool.and_eq_true, decide_eq_true_eq]
    omega

theorem l1Split_keeps (l1 : Tab (Word × Bool)) (room : Nat) (rest kept : List (Nat × Nat)) : ∀ b ∈ kept, b ∈ (l1Split l1 room kept rest).1 := by
  induction rest generalizing kept with
  | nil => exact fun _ h => h
  | cons a r ih =>
    intro b hb
    unfold l1Split
    split
    · exact ih _ b (List.mem_append_left _ hb)
    · exact hb

/-- A word of a block that is used stays in the L1. -/
theorem l1_l1Use (c : Core) {used : List (Nat × Nat)} {b : Nat × Nat} {w : Nat} (hb : b ∈ used) (hw : inL1Block w b = true) :
    tget? (l1Use c used).l1 w = tget? c.l1 w := by
  unfold l1Use
  dsimp only
  split
  · rfl
  · generalize (c.l1Order.filter fun b => !used.contains b && c.l1.any fun e => inL1Block e.1 b) = rest
    have hk := l1Split_keeps c.l1 c.l1Room rest used b hb
    generalize l1Split c.l1 c.l1Room used rest = x at hk ⊢
    refine (tget?_filter c.l1 (fun k => x.1.any (inL1Block k) || !x.2.any (inL1Block k)) w).trans (if_pos ?_)
    rw [List.any_eq_true.mpr ⟨b, hk, hw⟩, Bool.true_or]

theorem l1Use_side (c : Core) (used : List (Nat × Nat)) : { l1Use c used with l1 := [], l1Order := [] } = { c with l1 := [], l1Order := [] } := by
  unfold l1Use
  dsimp only
  split <;> rfl

/-- The words that a load which uses no copy fills the L1 with, block by block. -/
def fillOf (s : State) (h n : Nat) : List (List Nat) := (wordsOf h n).mapIdx fun i w => l1Block w (Config.freeNat (s.free + i))

/-- A core's L1 takes in the words of some blocks. -/
def filled (s : State) (core : Nat) (ws : List Nat) : State :=
  refreshL1 (s.modCore core fun c =>
    { c with l1 := ws.foldl (fun t w => tset t w (homeWord s w, tget? s.mem.wordOwner w == some core)) c.l1 }) core ws

theorem l1Read_bytes (s : State) (core h n : Nat) :
    (l1Read s core h n false).1 = (List.range n).map fun i => (homeWord s ((h + i) / 4)).extractLsb' (8 * ((h + i) % 4)) 8 := rfl

theorem sliceSide_filled (s : State) (core : Nat) (ws : List Nat) : sliceSide s (filled s core ws) := by
  refine sliceSide.trans ?_ (sliceSide.refreshL1 _ core ws)
  exact sliceSide.modCore s core _ fun _ => rfl

theorem l1Read_state (s : State) (core h n : Nat) : ∃ hits, (l1Read s core h n false).2 =
    (filled { s with free := s.free + (wordsOf h n).length } core (fillOf s h n).flatten).modCore core fun c =>
      l1Use c (((fillOf s h n).filterMap fun ws => ws.head?.map fun w => (w, ws.length)) ++ hits) := by
  have hmiss : ((wordsOf h n).filter fun w => !(false && l1Hit s core h n w)) = wordsOf h n := by simp
  unfold l1Read
  dsimp only
  rw [hmiss]
  exact ⟨_, rfl⟩

theorem sliceSide_l1Read (s : State) (core h n : Nat) : sliceSide s (l1Read s core h n false).2 := by
  obtain ⟨hits, he⟩ := l1Read_state s core h n
  rw [he]
  refine ((sliceSide.setFree s (s.free + (wordsOf h n).length)).trans (sliceSide_filled _ core (fillOf s h n).flatten)).trans ?_
  exact sliceSide.modCore _ core _ fun c => l1Use_side c _

theorem l1_filled {s : State} {core w : Nat} {ws : List Nat} (hw : w ∈ ws) :
    (tget? ((filled s core ws).core core).l1 w).map (·.1) = some (homeWord s w) := by
  have hset := tget?_foldl_tset (fun w => (homeWord s w, tget? s.mem.wordOwner w == some core)) ws (s.core core).l1 w
  rw [if_pos hw] at hset
  rw [filled, l1_refreshL1, if_pos ⟨rfl, w, hw, rfl⟩, State.core_modCore, if_pos rfl]
  dsimp only
  rw [hset]
  rfl

/-- What a load of normal memory reads is in its core's L1 then. -/
theorem l1_l1Read {s : State} {core h n w : Nat} (hw : w ∈ wordsOf h n) :
    (tget? ((l1Read s core h n false).2.core core).l1 w).map (·.1) = some (homeWord s w) := by
  obtain ⟨hits, he⟩ := l1Read_state s core h n
  obtain ⟨i, hi, hget⟩ := List.getElem_of_mem hw
  have hblock : l1Block w (Config.freeNat (s.free + i)) ∈ fillOf s h n :=
    List.mem_iff_getElem.mpr ⟨i, by simpa [fillOf] using hi, by simp [fillOf, hget]⟩
  obtain ⟨b, hb, hin⟩ := l1Block_head w (Config.freeNat (s.free + i))
  have hflat : w ∈ (fillOf s h n).flatten := List.mem_flatten.mpr ⟨_, hblock, mem_l1Block ..⟩
  rw [he, State.core_modCore, if_pos rfl, l1_l1Use _ (List.mem_append_left _ (List.mem_filterMap.mpr ⟨_, hblock, hb⟩)) hin]
  exact l1_filled hflat

/-- A byte of a home word is the byte at its address. -/
theorem extract_homeWord (s : State) (a : Nat) : (homeWord s (a / 4)).extractLsb' (8 * (a % 4)) 8 = physByte s a := by
  have hb : ∀ j < 4, (homeWord s (a / 4)).extractLsb' (8 * j) 8 = physByte s (4 * (a / 4) + j) := by
    intro j hj
    have h0 := (physByte s (4 * (a / 4) + 0)).isLt
    have h1 := (physByte s (4 * (a / 4) + 1)).isLt
    have h2 := (physByte s (4 * (a / 4) + 2)).isLt
    have h3 := (physByte s (4 * (a / 4) + 3)).isLt
    refine BitVec.eq_of_toNat_eq ?_
    simp only [homeWord, physRead, List.range_succ, List.range_zero, List.nil_append, List.cons_append, List.map_cons, List.map_nil, leNat,
      List.foldr_cons, List.foldr_nil, BitVec.extractLsb'_toNat, BitVec.toNat_ofNat, Nat.shiftRight_eq_div_pow]
    interval_cases j <;> omega
  rw [hb _ (Nat.mod_lt _ (by decide))]
  congr 1
  omega

theorem l1Read_physRead (s : State) (core h n : Nat) : (l1Read s core h n false).1 = physRead s h n := by
  rw [l1Read_bytes, physRead]
  exact List.map_congr_left fun i _ => extract_homeWord s (h + i)

/-! ### A load at a home -/

/-- A load that is performed here and uses no copy: charged, and where the span is normal memory its words fill the L1. -/
def readAt (s : State) (b core h n mt : Nat) : State :=
  if mt = 0 then (l1Read (chargeAccess s b core h n true true) core h n false).2 else chargeAccess s b core h n false true mt

theorem readSide_charged (s : State) (b core h n : Nat) : readSide s (chargeAccess s b core h n true true) :=
  (readSide.charge ..).trans (.chargeLines ..)

theorem readSide_readAt (s : State) (b core h n mt : Nat) : readSide s (readAt s b core h n mt) := by
  unfold readAt
  split
  · exact (readSide_charged s b core h n).trans (.of_sliceSide (sliceSide_l1Read ..))
  · exact .chargeLines ..

theorem l1_readAt {s : State} {b core h n mt w : Nat} (hmt : mt = 0) (hw : w ∈ wordsOf h n) :
    (tget? ((readAt s b core h n mt).core core).l1 w).map (·.1) = some (homeWord s w) := by
  rw [readAt, if_pos hmt, l1_l1Read hw, (readSide_charged s b core h n).homeWord]

theorem wordOwner_readAt {s : State} (hr : roomy s) (b core h mt : Nat) {n : Nat} (hn : n ≤ 16) :
    (readAt s b core h n mt).mem.wordOwner = s.mem.wordOwner := by
  have hl1 : (l1Read (chargeAccess s b core h n true true) core h n false).2.mem.wordOwner = (chargeAccess s b core h n true true).mem.wordOwner := by
    obtain ⟨hits, he⟩ := l1Read_state (chargeAccess s b core h n true true) core h n
    rw [he]
    rfl
  unfold readAt
  split
  · rw [hl1]
    exact (ownersKept_trans (ownersKept_applyCharge s _) (ownersKept_chargeLines (roomy_charge hr _ _ _ _ _) _ _ _ _ hn _)).1
  · exact (ownersKept_chargeLines hr _ _ _ _ hn mt).1

/-- A request is done, with a value that is no capability. -/
def LReq.doneWith (v : Nat) (q : LReq) : LReq := { q with ph := .done, val := v, vtag := false }

theorem performLoad_home {s : State} {op lane : Nat} {o : Op} {q : LReq} {m h n mt : Nat} {sg : Bool} (ho : tget? s.ops op = some o)
    (hk : o.kind = .load m sg) (hq : o.req? lane = some q) (hparts : q.parts = [(h, n, mt)]) (hmt : mt ≠ 1) (hmt4 : mt < 4)
    (hbad : badLine s h n = none) : performLoad s op lane false =
      (readAt s o.blk o.core h n mt).modOp op fun o => o.modReq lane (LReq.doneWith (leNat (physRead s h n))) := by
  have hfar : [(h, n, mt)].any farPart = false := by simp [farPart, hmt4]
  have hb : ([(h, n, mt)].findSome? fun x => badLine s x.1 x.2.1) = none := by simp [hbad]
  have hstale : ∀ t p v, (staleCheck t p ⟨v, false⟩).tag = false := fun t p v => by simp [staleCheck]
  unfold performLoad
  rw [ho]
  dsimp only
  rw [hq]
  dsimp only
  rw [hparts, hfar, if_neg Bool.false_ne_true, hb]
  simp only [List.foldl_cons, List.foldl_nil, if_neg hmt, Bool.false_and, Bool.not_false, List.nil_append, hk, hstale, readAt]
  split
  · rw [l1Read_physRead, (readSide_charged s o.blk o.core h n).physRead]
    rfl
  · rfl

theorem req?_modReq (o : Op) (lane : Nat) (f : LReq → LReq) (hf : ∀ q, (f q).lane = q.lane) (l : Nat) :
    (o.modReq lane f).req? l = if l = lane then (o.req? lane).map f else o.req? l := by
  have hp : ∀ q : LReq, ((if q.lane == lane then f q else q).lane == l) = (q.lane == l) := fun q => by split <;> simp [hf]
  simp only [Op.req?, Op.modReq, List.find?_map, Function.comp_def, hp]
  split
  · next e =>
    subst e
    cases hq : o.lanes.find? fun q => q.lane == l with
    | none => rfl
    | some q =>
      have : q.lane = l := by simpa using List.find?_some hq
      simp [this]
  · next e =>
    cases hq : o.lanes.find? fun q => q.lane == l with
    | none => rfl
    | some q =>
      have : q.lane = l := by simpa using List.find?_some hq
      simp [this, e]

/-- A request of one lane changes, and no other. -/
theorem otherReqs_modOp (s : State) (op lane : Nat) (f : LReq → LReq) (hf : ∀ q, (f q).lane = q.lane) :
    otherReqs s (s.modOp op fun o => o.modReq lane f) op lane := by
  refine ⟨fun k hk => tget?_tmod_ne _ _ hk, fun l hl => ?_⟩
  simp only [State.modOp, tget?_tmod_self]
  cases tget? s.ops op with
  | none => rfl
  | some o => simp [req?_modReq o lane f hf, hl]

theorem req?_modOp {s : State} {op lane : Nat} {o : Op} {q : LReq} (ho : tget? s.ops op = some o) (hq : o.req? lane = some q) (f : LReq → LReq)
    (hf : ∀ q, (f q).lane = q.lane) : (tget? (s.modOp op fun o => o.modReq lane f).ops op).bind (·.req? lane) = some (f q) := by
  simp [State.modOp, ho, req?_modReq o lane f hf, hq]

/-- A translated load that may be performed is. -/
theorem execMemoryRequest_performs {s : State} {op lane : Nat} {o : Op} {q : LReq} (ho : tget? s.ops op = some o) (hk : o.kind.isLoad = true)
    (hq : o.req? lane = some q) (hph : q.ph = .xlated) (hon : blockOn s o.blk = true) (hmay : mayPerform s o q = true) :
    exec (.memoryRequest op lane false) s = .next (performLoad s op lane false) := by
  have hc : ((o.kind.isMem || o.kind == .spanq) && blockOn s o.blk) = true := by simp [OpKind.isMem, hk, hon]
  have hp : (some Ph.xlated == some Ph.sent) = false := rfl
  have ha : (Ph.xlated == Ph.xlated && o.kind.isLoad && mayPerform s o q) = true := by rw [hk, hmay]; rfl
  rw [exec_memoryRequest, execMemoryRequest, ho]
  dsimp only
  rw [if_pos hc, attempt]
  simp only [ho, Option.bind_some, hq, Option.map_some, hph, hp, if_neg Bool.false_ne_true, ha, if_true]

/-- Settles O42: a load that is performed reads its bytes at the home, fills the L1 where the span is normal memory, and changes nothing else. -/
theorem loadsRead : Obligations.LoadsRead := by
  intro op lane s o q n sg h n' mt ho hk hq hph hon hmay hparts hmt hmt4 hbad
  have hu := readSide_readAt s o.blk o.core h n' mt
  have hou : tget? (readAt s o.blk o.core h n' mt).ops op = some o := by rw [hu.ops, ho]
  have hreqs := otherReqs_modOp (readAt s o.blk o.core h n' mt) op lane (LReq.doneWith (leNat (physRead s h n'))) fun _ => rfl
  rw [otherReqs, hu.ops] at hreqs
  refine ⟨_, (execMemoryRequest_performs ho (by rw [hk]; rfl) hq hph hon hmay).trans
    (congrArg Host.Outcome.next (performLoad_home ho hk hq hparts hmt hmt4 hbad)), memSide_trans hu.side (memSide_modOp ..), fun a => hu.bytes a, ?_⟩
  have hm := hu.mem
  exact ⟨(congrArg Mem.hbm hm :), (congrArg Mem.lines hm :), (congrArg Mem.images hm :), (congrArg Mem.stamp hm :), (congrArg Mem.maps hm :),
    hu.blocks, hu.groups, hreqs, req?_modOp hou hq _ fun _ => rfl, fun h0 w hw => l1_readAt h0 hw, fun hr h16 => wordOwner_readAt hr _ _ _ _ h16⟩

end Sys2Proof.Machine
end

section
/-!
PROOFS. An atomic that is performed (R101, R214, R215): its word is placed at the home, its core keeps no copy, and an acquire part leaves only the
words that the core owns.
-/

namespace Sys2Proof.Machine

/-! ### The operation -/

theorem atomicNew_eq_atomicResult (k : Nat) (ty : Ty) (old d cmp : Nat) : atomicNew k ty old d cmp = atomicResult k ty old d cmp := by
  unfold atomicNew atomicResult
  simp only [BitVec.slt, decide_eq_true_eq]

/-! ### Copies that go -/

theorem tget?_foldl_tdel {α : Type} (ws : List Nat) (t : Tab α) (x : Nat) : tget? (ws.foldl tdel t) x = if x ∈ ws then none else tget? t x := by
  induction ws generalizing t with
  | nil => simp
  | cons a r ih =>
    rw [List.foldl_cons, ih, tget?_tdel]
    by_cases h : x ∈ r <;> by_cases e : x = a <;> simp [h, e]

theorem l1_dropL1 {s : State} {core w : Nat} {ws : List Nat} (hw : w ∈ ws) : tget? ((dropL1 s core ws).core core).l1 w = none := by
  unfold dropL1
  rw [State.core_modCore, if_pos rfl]
  exact (tget?_foldl_tdel ..).trans (if_pos hw)

theorem sliceSide_acquireCore (s : State) (core : Nat) : sliceSide s (acquireCore s core) := sliceSide.modCore s core _ fun _ => rfl

/-- After an acquire a core has copies of its own words only (R145). -/
theorem l1_acquireCore_owned (s : State) (core : Nat) : ∀ x ∈ ((acquireCore s core).core core).l1, tget? s.mem.wordOwner x.1 = some core := by
  intro x hx
  rw [acquireCore, State.core_modCore, if_pos rfl] at hx
  simpa using (List.mem_filter.mp hx).2

theorem l1_acquireCore_none {s : State} {core w : Nat} (h : tget? (s.core core).l1 w = none) :
    tget? ((acquireCore s core).core core).l1 w = none := by
  rw [acquireCore, State.core_modCore, if_pos rfl]
  refine (tget?_filter (s.core core).l1 (fun k => tget? s.mem.wordOwner k == some core) w).trans ?_
  rw [h, ite_self]

/-- The acquire part of an atomic, where it has one. -/
def acquirePart (acq : Bool) (s : State) (core : Nat) : State := if acq then acquireCore s core else s

theorem sliceSide_acquirePart (acq : Bool) (s : State) (core : Nat) : sliceSide s (acquirePart acq s core) := by
  cases acq
  · exact .refl s
  · exact sliceSide_acquireCore s core

theorem wordOwner_acquirePart (acq : Bool) (s : State) (core : Nat) : (acquirePart acq s core).mem.wordOwner = s.mem.wordOwner := by
  cases acq <;> rfl

theorem l1_acquirePart_none (acq : Bool) {s : State} {core w : Nat} (h : tget? (s.core core).l1 w = none) :
    tget? ((acquirePart acq s core).core core).l1 w = none := by
  cases acq
  · exact h
  · exact l1_acquireCore_none h

/-! ### An atomic at a home -/

/-- What an atomic leaves before its acquire part: the word placed, no copy of it with its core, and the value that was there. -/
def replacedAt (s : State) (op lane : Nat) (o : Op) (q : LReq) (h mt new : Nat) : State :=
  (dropL1 (placedAt s o.blk o.core h mt (natBytes q.n new) false) o.core (wordsOf h q.n)).modOp op fun o =>
    o.modReq lane fun q' => { q' with ph := .done, val := leNat (physRead s h q.n) }

theorem performAtomic_home {s : State} {op lane : Nat} {o : Op} {q : LReq} {k h n mt : Nat} {ty : Ty} {ord : AOrd} (ho : tget? s.ops op = some o)
    (hk : o.kind = .atomic k ty ord) (hq : o.req? lane = some q) (hparts : q.parts = [(h, n, mt)]) (hmt : mt ≠ 1) (hmt4 : mt < 4)
    (hbad : badLine s h q.n = none) : performAtomic s op lane =
      acquirePart (decide (ord = .acq ∨ ord = .ar))
        (replacedAt s op lane o q h mt (atomicNew k ty (leNat (physRead s h q.n)) q.data q.data2)) o.core := by
  have hlen := length_natBytes q.n (atomicNew k ty (leNat (physRead s h q.n)) q.data q.data2)
  have hfar : ¬4 ≤ mt := by omega
  unfold performAtomic
  rw [ho]
  dsimp only
  rw [hq, hk]
  dsimp only
  rw [hparts]
  dsimp only
  rw [if_neg hfar, hbad]
  simp only [if_neg hmt, replacedAt, placedAt, homeWrite, hlen, acquirePart, decide_eq_true_eq, Bool.false_eq_true, if_false]

theorem parkReleasing_nil (s : State) (b : Nat) : parkReleasing s b [] = s := rfl

/-- The one atomic of its issue to a word, without a release part, is performed once the issue is translated. -/
theorem execAtomicPerform_one {s : State} {op lane w : Nat} {o : Op} {q : LReq} {k : Nat} {ty : Ty} {ord : AOrd} (ho : tget? s.ops op = some o)
    (hk : o.kind = .atomic k ty ord) (hrel : ord ≠ .rel) (har : ord ≠ .ar) (hq : o.req? lane = some q) (hone : atomicsTo s o w = [(op, lane)])
    (hmay : mayPerform s o q = true) (hon : blockOn s o.blk = true)
    (hsent : ∀ x ∈ s.ops, x.2.order = o.order → x.2.blk = o.blk → ∀ p ∈ x.2.lanes, p.ph ≠ .sent ∧ ∀ k, p.ph ≠ .retry k) :
    exec (.atomicPerform op w) s = .next (performAtomic s op lane) := by
  have hnorel : (ord == .rel || ord == .ar) = false := by simp [hrel, har]
  have hready : ((tget? s.ops op).bind fun x => (x.req? lane).map fun q => (x, q)) = some (o, q) := by simp [ho, hq]
  rw [exec_atomicPerform, execAtomicPerform, ho]
  dsimp only
  rw [hk]
  dsimp only
  rw [hone, hnorel]
  simp only [Bool.false_and, Bool.false_eq_true, if_false, parkReleasing_nil, List.all_cons, List.all_nil, Bool.and_true, hready, hmay, hon,
    List.isEmpty_nil, Bool.not_true, Bool.or_false, Bool.false_or, List.foldl_cons, List.foldl_nil]
  refine if_neg fun hc => ?_
  simp only [List.any_eq_true, Bool.and_eq_true, beq_iff_eq] at hc
  obtain ⟨x, hx, ⟨hord, hblk⟩, p, hp, hph⟩ := hc
  obtain ⟨hns, hnr⟩ := hsent x hx hord hblk p hp
  split at hph
  · next e => exact hns e
  · next n e => exact hnr n e
  · exact Bool.false_ne_true hph

section
variable (s : State) (op lane : Nat) (o : Op) (q : LReq) (h mt new : Nat)

theorem memSide_replacedAt : memSide s (replacedAt s op lane o q h mt new) :=
  memSide_trans (memSide_placedAt ..) (memSide_trans (sliceSide.dropL1 ..).memSide (memSide_modOp ..))

theorem hbm_replacedAt : (replacedAt s op lane o q h mt new).mem.hbm = s.mem.hbm.writeCap h (natBytes q.n new) false :=
  hbm_placedAt s o.blk o.core h mt (natBytes q.n new) false

theorem groups_replacedAt : (replacedAt s op lane o q h mt new).groups = s.groups := groups_placedAt s o.blk o.core h mt (natBytes q.n new) false

theorem byteAt_spm_replacedAt (b a : Nat) : (replacedAt s op lane o q h mt new).byteAt (.spm b a) = s.byteAt (.spm b a) :=
  byteAt_spm_placedAt s o.blk o.core h mt (natBytes q.n new) false b a

theorem byteAt_ws_replacedAt (d a : Nat) : (replacedAt s op lane o q h mt new).byteAt (.ws d a) = s.byteAt (.ws d a) :=
  byteAt_ws_placedAt s o.blk o.core h mt (natBytes q.n new) false d a

theorem otherReqs_replacedAt : otherReqs s (replacedAt s op lane o q h mt new) op lane := by
  have hreqs := otherReqs_modOp (dropL1 (placedAt s o.blk o.core h mt (natBytes q.n new) false) o.core (wordsOf h q.n)) op lane
    (fun q' => { q' with ph := .done, val := leNat (physRead s h q.n) }) fun _ => rfl
  have hops : (dropL1 (placedAt s o.blk o.core h mt (natBytes q.n new) false) o.core (wordsOf h q.n)).ops = s.ops := ops_placedAt ..
  rw [otherReqs, hops] at hreqs
  exact hreqs

variable {op lane o q} in
theorem req?_replacedAt (ho : tget? s.ops op = some o) (hq : o.req? lane = some q) :
    (tget? (replacedAt s op lane o q h mt new).ops op).bind (·.req? lane) = some { q with ph := .done, val := leNat (physRead s h q.n) } := by
  have hops : (dropL1 (placedAt s o.blk o.core h mt (natBytes q.n new) false) o.core (wordsOf h q.n)).ops = s.ops := ops_placedAt ..
  exact req?_modOp (hops ▸ ho) hq _ fun _ => rfl

variable {q h} {w : Nat}

theorem wordOwner_replacedAt (hw : w ∈ wordsOf h q.n) : tget? (replacedAt s op lane o q h mt new).mem.wordOwner w = some o.core :=
  wordOwner_placedAt s o.blk o.core h mt (natBytes q.n new) false ((length_natBytes q.n new).symm ▸ hw)

theorem l1_replacedAt (hw : w ∈ wordsOf h q.n) : tget? ((replacedAt s op lane o q h mt new).core o.core).l1 w = none := l1_dropL1 hw

theorem wordOwner_replacedAt_other (hr : roomy s) (hn : q.n ≤ 16) (hw : w ∉ wordsOf h q.n) :
    tget? (replacedAt s op lane o q h mt new).mem.wordOwner w = tget? s.mem.wordOwner w :=
  wordOwner_placedAt_other s o.blk o.core h mt (natBytes q.n new) false hr ((length_natBytes q.n new).symm ▸ hn) ((length_natBytes q.n new).symm ▸ hw)
end

/-- Settles O43: an atomic replaces its word and returns what was there, its core keeps no copy, and an acquire part follows. -/
theorem atomicsPerform : Obligations.AtomicsPerform := by
  intro op lane s o q k ty ord h n mt ho hk hrel har hq hparts hmt hmt4 hn hn1 hone hmay hon hsent hbad old
  let new := atomicNew k ty old q.data q.data2
  let u := replacedAt s op lane o q h mt new
  have ha := sliceSide_acquirePart (decide (ord = .acq ∨ ord = .ar)) u o.core
  have hown := wordOwner_acquirePart (decide (ord = .acq ∨ ord = .ar)) u o.core
  have hhbm := ha.hbm.trans (hbm_replacedAt s op lane o q h mt new)
  have hlen := length_natBytes q.n new
  have htags := tagsAfter_of_writeCap hhbm (hlen.symm ▸ hn1)
  rw [hlen] at htags
  have hreqs := otherReqs_replacedAt s op lane o q h mt new
  rw [otherReqs, ← ha.ops] at hreqs
  rw [← atomicNew_eq_atomicResult]
  refine ⟨_, (execAtomicPerform_one ho hk hrel har hq hone hmay hon hsent).trans
      (congrArg Host.Outcome.next (performAtomic_home ho hk hq hparts hmt hmt4 hbad)),
    byteAt_of_writeCap hhbm, fun b a => (ha.bytes _).trans (byteAt_spm_replacedAt ..), fun d a => (ha.bytes _).trans (byteAt_ws_replacedAt ..),
    ha.groups.trans (groups_replacedAt ..), memSide_trans (memSide_replacedAt ..) ha.memSide,
    htags, hreqs, ?_, fun w hw => ⟨?_, l1_acquirePart_none _ (l1_replacedAt s op lane o mt new hw)⟩,
    fun hacq x hx => ?_, fun hr h16 w hw => ?_⟩
  · rw [ha.ops]
    exact req?_replacedAt s h mt new ho hq
  · rw [hown]
    exact wordOwner_replacedAt s op lane o mt new hw
  · rw [hown]
    rw [acquirePart, if_pos (by simp [hacq])] at hx
    exact l1_acquireCore_owned _ _ x hx
  · rw [hown]
    exact wordOwner_replacedAt_other s op lane o mt new hr h16 hw

end Sys2Proof.Machine
end

section
/-!
PROOFS. The register scan of a sweep: the counterexample to the quads that await a load's tag (R119, R196).
-/

namespace Sys2Proof.Machine

/-! ### A scan where a quad is listed twice -/

/-- A context whose sweep has yet to visit group 0 of block 0. It has no objects, so that every capability is stale. -/
def sweptCtx : Ctx := { ctxOfDesc 0 with otlen := 0, sweep := some ⟨[], [0]⟩ }

/-- A group whose table of set tags lists quad 0 twice, first for no lane and then for lane 0, where the quad awaits a load's tag. -/
def quadTwice : Group := { newGroup Cap.null [] [] 0 with vt := [(0, 0#64), (0, 1#64)], vl := [(0, 1#64)] }

/-- The group stands in the block, and its context is swept. -/
def scannedTwice : State := { State.reset with ctxs := [(0, sweptCtx)], groups := [(0, quadTwice)] }

/-- The tag of lane 0's quad 0 reads as clear: the first entry of the quad counts. -/
theorem vtag_quadTwice : quadTwice.vtag 0 0 = false := rfl

/-- The model goes through every entry of the table, and clears the mark with the tag that the second one lists. -/
theorem scan_scannedTwice : ∃ t, exec (.sweepRegisterScan ⟨0, 0⟩) scannedTwice = .next t ∧ (t.grp? 0 0).map (·.vl) = some [] :=
  ⟨_, rfl, rfl⟩

/-- Refutes O50, in the clause on the register scan: where a group's table of set tags lists a quad twice, a tag that reads as clear is cleared
with the second entry, and with it the mark that the quad awaits a load's tag. The statement asks nothing of the group's tables. -/
theorem not_sweepsAndMoves : ¬ Obligations.SweepsAndMoves := by
  rintro ⟨hscan, _⟩
  obtain ⟨t, H, ht, _, _, hH, ⟨_, _, hmarks⟩, _⟩ := hscan ⟨0, 0⟩ scannedTwice quadTwice ⟨[], [0]⟩ rfl rfl (by decide) (by decide)
  obtain ⟨u, hu, hvl⟩ := scan_scannedTwice
  cases ht.symm.trans hu
  have hnone : H.vl = [] := by simpa [hH] using hvl
  have hmark := hmarks 0 0 vtag_quadTwice
  rw [hnone] at hmark
  exact absurd hmark (by decide)

end Sys2Proof.Machine
end

section
/-!
PROOFS. Invalidations and revocations (R115, R117): what an invalidation's end takes out of the caches, and a generation advanced in an object's
entry.
-/

namespace Sys2Proof.Machine

/-! ### Commands on the context of their interface (R343) -/

theorem ownCtx_of_actsOn {s : State} {q : Cmd} {p : Nat} {c : Ctx} (h : actsOn s q p c) (go : Nat → Ctx → State) :
    ownCtx s q go = .next (go p c) := by
  obtain ⟨hp, hc⟩ := h
  unfold ownCtx
  rw [hp]
  dsimp only
  rw [hc]

theorem completed_reply {s u : State} (h : u.ifaces = s.ifaces) (q : Cmd) (code result : Nat) : completed s (reply u q code result) q code result := by
  unfold completed reply post
  rw [State.iface_modIface_self]
  simp only [State.iface, h]

theorem bytesKept_trans {s t u : State} (h : bytesKept s t) (h' : bytesKept t u) : bytesKept s u := fun a => (h' a).trans (h a)

/-- What keeps HBM, the blocks and the dies keeps every byte. -/
theorem bytesKept_of_eq {s t : State} (hh : t.mem.hbm = s.mem.hbm) (hb : t.blocks = s.blocks) (hd : t.dies = s.dies) : bytesKept s t
  | .hbm a => by simp only [State.byteAt, hh]
  | .spm b a => by simp only [State.byteAt, blockSpm, hb]
  | .ws d a => by simp only [State.byteAt, State.die, hd]

/-! ### Cached translations that go -/

theorem ws_tlbDrop (s : State) (f : TlbEnt → Bool) (d : Nat) : ((tlbDrop s f).die d).ws = (s.die d).ws := by
  have h := tget?_map s.dies (fun D : Die => { D with tlb := D.tlb.filter fun t => !f t }) d
  simp only [State.die, tlbDrop, tgetD]
  rw [h]
  cases tget? s.dies d <;> rfl

theorem bytesKept_tlbDrop (s : State) (f : TlbEnt → Bool) : bytesKept s (tlbDrop s f)
  | .hbm _ => rfl
  | .spm _ _ => rfl
  | .ws d a => by simp only [State.byteAt, ws_tlbDrop]

theorem noneCached_of_dies {s t : State} {f : TlbEnt → Bool} (h : t.dies = (tlbDrop s f).dies) : noneCached t f := by
  intro d hd e he
  rw [h] at hd
  obtain ⟨x, -, rfl⟩ := List.mem_map.mp hd
  simpa using (List.mem_filter.mp he).2

/-! ### What memory notes of frames and spans (R121, R327) -/

/-- Only what memory notes beside HBM's bytes and tags differs. -/
structure notesSide (s t : State) : Prop where
  rest : { t with mem := s.mem } = s
  hbm : t.mem.hbm = s.mem.hbm

namespace notesSide

theorem refl (s : State) : notesSide s s := ⟨rfl, rfl⟩

theorem trans {s t u : State} (h : notesSide s t) (h' : notesSide t u) : notesSide s u :=
  ⟨(congrArg (fun x : State => { x with mem := s.mem }) h'.rest :).trans h.rest, h'.hbm.trans h.hbm⟩

theorem foldl {α : Type} {f : State → α → State} (hf : ∀ s a, notesSide s (f s a)) (l : List α) (s : State) : notesSide s (l.foldl f s) := by
  induction l generalizing s with
  | nil => exact refl s
  | cons a r ih => exact (hf s a).trans (ih _)

theorem queueFrame (s : State) (fr : Nat) : notesSide s (queueFrame s fr) := by
  unfold Machine.queueFrame
  split
  · exact refl s
  · exact ⟨rfl, rfl⟩

theorem freeFrame (s : State) (func g : Nat) : notesSide s (freeFrame s func g) := by
  unfold Machine.freeFrame
  dsimp only
  generalize List.partition _ _ = x
  refine trans (t := { s with mem := { s.mem with maps := tput s.mem.maps (func * 2 ^ 27 + g) x.1 [] } }) ⟨rfl, rfl⟩ ?_
  refine foldl (f := fun s h => if frameMapped s h then s else Machine.queueFrame s h) (fun t h => ?_) x.2 _
  split
  · exact refl t
  · exact queueFrame t h

theorem forgetSpans (s : State) (p : Nat) (f : Nat → Nat → Bool) : notesSide s (forgetSpans s p f) := ⟨rfl, rfl⟩

section
variable {s t : State} (h : notesSide s t)
include h

theorem invals : t.invals = s.invals := (congrArg State.invals h.rest :)
theorem revs : t.revs = s.revs := (congrArg State.revs h.rest :)
theorem dies : t.dies = s.dies := (congrArg State.dies h.rest :)
theorem ifaces : t.ifaces = s.ifaces := (congrArg State.ifaces h.rest :)
theorem groups : t.groups = s.groups := (congrArg State.groups h.rest :)
theorem bytes : bytesKept s t := bytesKept_of_eq h.hbm (congrArg State.blocks h.rest :) h.dies
end

end notesSide

/-- What an invalidation notes as it ends: a guest frame's host frames are free, and a span that is gone has no history. -/
def invalNotes (v : Inval) (s : State) : State :=
  let s := match v.frame with
    | some g => freeFrame s v.func g
    | none => s
  match v.obn, tget? s.ctxs v.pasid with
  | some o, some c => forgetSpans s v.pasid fun o' i => o' == o && (v.span.isNone || v.span == some i) && !spanThere s c o i
  | _, _ => s

theorem notesSide_invalNotes (v : Inval) (s : State) : notesSide s (invalNotes v s) := by
  have hf : notesSide s (match v.frame with
    | some g => freeFrame s v.func g
    | none => s) := by
    split
    · exact .freeFrame ..
    · exact .refl s
  unfold invalNotes
  dsimp only
  split
  · exact hf.trans (.forgetSpans ..)
  · exact hf

/-- An invalidation ends once no request that it names is under way. -/
theorem invalidationComplete_ends (n : Nat) (s : State) (v : Inval) (hv : tget? s.invals n = some v) (hf : inFlight s (v.uses s) = false) :
    ∃ t, exec (.invalidationComplete n) s = .next t ∧ tget? t.invals n = none ∧ noneCached t v.hits ∧ completed s t v.cmd 0 0 ∧ bytesKept s t ∧
      t.groups = s.groups := by
  have hn := notesSide_invalNotes v (tlbDrop { s with invals := tdel s.invals n } v.hits)
  refine ⟨reply (invalNotes v (tlbDrop { s with invals := tdel s.invals n } v.hits)) v.cmd 0 0, ?_, ?_, ?_, completed_reply hn.ifaces .., ?_, hn.groups⟩
  · rw [exec_invalidationComplete, execInvalidationComplete, hv]
    dsimp only
    rw [if_neg (by rw [hf]; decide)]
    rfl
  · exact (congrArg (fun x => tget? x n) hn.invals).trans (tget?_tdel_self ..)
  · exact noneCached_of_dies hn.dies
  · exact bytesKept_trans (t := tlbDrop { s with invals := tdel s.invals n } v.hits) (bytesKept_tlbDrop { s with invals := tdel s.invals n } v.hits) hn.bytes

/-! ### Sweeps that start -/

theorem sweep_startSweep {s : State} {p : Nat} {c : Ctx} (hc : tget? s.ctxs p = some c) : ((tget? (startSweep s p).ctxs p).bind (·.sweep)).isSome := by
  simp [startSweep, State.modCtx, hc]

/-! ### Writes of the device (R286) -/

/-- A write of the device touches memory, the owners of its frames and the marks of blocks only. -/
structure devSide (s t : State) : Prop where
  rest : { t with blocks := s.blocks, mem := s.mem } = s

theorem writeSide_writeParts (s : State) (ps : List (Nat × Nat)) (bs : List Byte) : writeSide s (writeParts s ps bs) := by
  induction ps generalizing s bs with
  | nil => exact .refl s
  | cons p r ih => exact (writeSide.physWrite ..).trans (ih ..)

theorem devSide_devWrite (s : State) (world : Option Nat) (f g : Nat) (bs : List Byte) : devSide s (devWrite s world f g bs) := by
  unfold devWrite
  split
  · exact ⟨rfl⟩
  · next ps _ =>
    dsimp only
    split
    · exact ⟨rfl⟩
    · next u hu =>
      have hc : { u with blocks := s.blocks, mem := s.mem } = s := by
        cases world with
        | none => cases hu; rfl
        | some w => obtain ⟨O, rfl⟩ := claimParts_eq hu; rfl
      exact ⟨(congrArg (fun x : State => { x with blocks := s.blocks, mem := s.mem }) (writeSide_writeParts u ps bs).rest :).trans hc⟩

/-- The generation of an object advances: no revocation and no interface changes. -/
theorem advanceGen_keeps (s : State) (p : Nat) (c : Ctx) (obn o gen : Nat) :
    (advanceGen s p c obn o gen).revs = s.revs ∧ (advanceGen s p c obn o gen).ifaces = s.ifaces := by
  have hd := (devSide_devWrite (s.modCtx p fun c => { c with sweep := c.sweep.map fun w =>
    if (tget? w.gens obn).isSome then w else { w with gens := tset w.gens obn (objGen o) } }) (some c.world) c.func (c.otbase + 16 * obn)
    (natBytes 16 (setField o 7 4 gen))).rest
  exact ⟨(congrArg State.revs hd :), (congrArg State.ifaces hd :)⟩

/-! ### An object's entry in host-physical memory (R98, R112) -/

/-- A range within a frame is one part. -/
theorem guestParts_one {s : State} {f h g n m : Nat} {w : Bool} (h2 : stage2 s f g = .ok (h, true)) (hn : 0 < n) (hg : g % 2 ^ 21 + n ≤ 2 ^ 21) :
    guestParts s f w (m + 2) g n = .ok [(h, n)] := by
  have hmin : min n (2 ^ 21 - g % 2 ^ 21) = n := Nat.min_eq_left (by omega)
  rw [guestParts, if_neg (by omega), h2]
  dsimp only [Bind.bind, Except.bind]
  rw [hmin, Nat.sub_self, guestParts]
  simp [pure, Except.pure]

/-- The physical function's guest-physical space is host-physical. -/
theorem stage2_func0 {s : State} {g : Nat} {x : Nat × Bool} (h : stage2 s 0 g = .ok x) : stage2 s 0 g = .ok (g, true) := by
  unfold stage2 at h ⊢
  rw [if_pos rfl] at h ⊢
  split at h
  · cases h
  · split at h
    · cases h
    · rw [if_neg ‹_›, if_neg ‹_›]

theorem stage2_func0_of_scrubQ {s t : State} (h : t.mem.scrubQ = s.mem.scrubQ) (g : Nat) : stage2 t 0 g = stage2 s 0 g := by
  unfold stage2
  rw [if_pos rfl, if_pos rfl, h]

theorem guestRead_one {s : State} {f h g n : Nat} (h2 : stage2 s f g = .ok (h, true)) (hn : 0 < n) (hg : g % 2 ^ 21 + n ≤ 2 ^ 21) :
    guestRead s f g n = .ok (physRead s h n) := by
  unfold guestRead
  generalize n / 2 ^ 21 = m
  rw [guestParts_one h2 hn hg]
  simp [Bind.bind, Except.bind, pure, Except.pure]

theorem guestRead_error {s : State} {f g n k : Nat} (h2 : stage2 s f g = .error k) (hn : 0 < n) : guestRead s f g n = .error k := by
  unfold guestRead
  generalize n / 2 ^ 21 = m
  rw [guestParts, if_neg (by omega), h2]
  rfl

/-- An object's entry that is there, in a table of the physical function. -/
theorem objectEntry_func0 {s : State} {c : Ctx} {obn e : Nat} (hf : c.func = 0) (ha : c.otbase % 16 = 0) (h : objectEntry s c obn = .ok e) :
    stage2 s 0 (c.otbase + 16 * obn) = .ok (c.otbase + 16 * obn, true) ∧ e = leNat (physRead s (c.otbase + 16 * obn) 16) := by
  have h2 : stage2 s 0 (c.otbase + 16 * obn) = .ok (c.otbase + 16 * obn, true) := by
    cases hs : stage2 s 0 (c.otbase + 16 * obn) with
    | ok x => exact hs.symm.trans (stage2_func0 hs)
    | error k =>
      rw [objectEntry, hf, guestRead_error hs (by decide)] at h
      have h : (Except.error k : Except Nat Nat) = .ok e := h
      cases h
  refine ⟨h2, ?_⟩
  rw [objectEntry, hf, guestRead_one h2 (by decide) (by omega)] at h
  exact (Except.ok.inj h).symm

theorem objectEntry_of_stage2 {s : State} {c : Ctx} {obn : Nat} (hf : c.func = 0) (ha : c.otbase % 16 = 0)
    (h2 : stage2 s 0 (c.otbase + 16 * obn) = .ok (c.otbase + 16 * obn, true)) :
    objectEntry s c obn = .ok (leNat (physRead s (c.otbase + 16 * obn) 16)) := by
  rw [objectEntry, hf, guestRead_one h2 (by decide) (by omega)]
  rfl

theorem leNat_lt (bs : List Byte) : leNat bs < 256 ^ bs.length := by
  induction bs with
  | nil => decide
  | cons b r ih =>
    have hb := b.isLt
    have hc : leNat (b :: r) = b.toNat + 256 * leNat r := rfl
    rw [hc, List.length_cons, pow_succ]
    omega

/-- The entry with another generation is a value of 16 bytes. -/
theorem setField_gen_lt {e v : Nat} (he : e < 2 ^ 128) : setField e 7 4 v < 2 ^ 128 := by
  simp only [setField, field, Sys2Proof.bits]
  omega

/-- What the device writes within a frame for a world that may own it stands in HBM, and memory is read the same way as before. -/
theorem devWrite_placed {s : State} {w g : Nat} {bs : List Byte} (h2 : stage2 s 0 g = .ok (g, true)) (hn : 0 < bs.length)
    (hg : g % 2 ^ 21 + bs.length ≤ 2 ^ 21) (ho : ∀ x, tget? s.mem.owner (g / 2 ^ 21) = some x → x = w) :
    (devWrite s (some w) 0 g bs).mem.hbm = s.mem.hbm.write g bs ∧ (devWrite s (some w) 0 g bs).mem.scrubQ = s.mem.scrubQ ∧
      (s.mem.images = [] → (devWrite s (some w) 0 g bs).mem.images = []) := by
  have hclaim : ∃ O, claimParts s w [(g, bs.length)] = some { s with mem := { s.mem with owner := O } } := by
    simp only [claimParts, claimFrame]
    cases hx : tget? s.mem.owner (g / 2 ^ 21) with
    | some x => simp only [if_pos (ho x hx)]; exact ⟨s.mem.owner, rfl⟩
    | none => exact ⟨_, rfl⟩
  obtain ⟨O, hO⟩ := hclaim
  have ha := aside.physWrite { s with mem := { s.mem with owner := O } } g bs
  unfold devWrite
  generalize bs.length / 2 ^ 21 = m
  rw [guestParts_one h2 hn hg]
  dsimp only
  rw [hO]
  simp only [writeParts, List.take_length]
  exact ⟨ha.hbm, ha.scrubQ, ha.images⟩

/-- The generation of an object of the physical function advances: its entry holds the next one, and no other byte changes. -/
theorem advanceGen_entry {s : State} {p gen obn e : Nat} {c : Ctx} (hf : c.func = 0) (ha : c.otbase % 16 = 0) (hi : s.mem.images = [])
    (he : objectEntry s c obn = .ok e) (ho : ∀ x, tget? s.mem.owner ((c.otbase + 16 * obn) / 2 ^ 21) = some x → x = c.world) :
    objectEntry (advanceGen s p c obn e gen) c obn = .ok (setField e 7 4 gen) ∧
      ∀ a, ¬(c.otbase + 16 * obn ≤ a ∧ a < c.otbase + 16 * obn + 16) → (advanceGen s p c obn e gen).byteAt (.hbm a) = s.byteAt (.hbm a) := by
  obtain ⟨h2, hval⟩ := objectEntry_func0 hf ha he
  have hlt : e < 2 ^ 128 := by
    rw [hval]
    exact (leNat_lt _).trans_le (by simp [physRead])
  let u := s.modCtx p fun c => { c with sweep := c.sweep.map fun w =>
    if (tget? w.gens obn).isSome then w else { w with gens := tset w.gens obn (objGen e) } }
  let bs := natBytes 16 (setField e 7 4 gen)
  have hlen : bs.length = 16 := length_natBytes ..
  have hu : stage2 u 0 (c.otbase + 16 * obn) = .ok (c.otbase + 16 * obn, true) := h2
  obtain ⟨hhbm, hscrub, himg⟩ := devWrite_placed (bs := bs) hu (by omega) (by omega) ho
  have heq : advanceGen s p c obn e gen = forgetSpans (devWrite u (some c.world) 0 (c.otbase + 16 * obn) bs) p fun o' _ => o' == obn := by
    rw [advanceGen, hf]
  have hhbm' : (advanceGen s p c obn e gen).mem.hbm = s.mem.hbm.write (c.otbase + 16 * obn) bs := by rw [heq]; exact hhbm
  have himg' : (advanceGen s p c obn e gen).mem.images = [] := by rw [heq]; exact himg hi
  have hscrub' : (advanceGen s p c obn e gen).mem.scrubQ = s.mem.scrubQ := by rw [heq]; exact hscrub
  refine ⟨?_, fun a hna => ?_⟩
  · rw [objectEntry_of_stage2 hf ha ((stage2_func0_of_scrubQ hscrub' _).trans h2)]
    have hread : physRead (advanceGen s p c obn e gen) (c.otbase + 16 * obn) 16 = bs := by
      refine List.ext_getElem (by simp [physRead, hlen]) fun i h1 h2 => ?_
      rw [hlen] at h2
      simp only [physRead, List.getElem_map, List.getElem_range, physByte_of_images himg', hhbm', Ram.get_write, hlen]
      rw [if_pos (by omega), Nat.add_sub_cancel_left, List.getD_eq_getElem]
    rw [hread, leNat_natBytes, Nat.mod_eq_of_lt (setField_gen_lt hlt)]
  · simp only [State.byteAt, hhbm', Ram.get_write, hlen]
    rw [if_neg hna]

/-! ### Revocations (R117) -/

/-- Settles O49: each command and each event by what it begins, drops or writes. -/
theorem revocationEvents : Obligations.RevocationEvents := by
  refine ⟨fun q o s p c ha ho => ?_, fun q o i s p c ha ho hi => ?_, fun q g s p c ha hg => ?_, invalidationComplete_ends,
    fun q o s p c e ha ho he hv hswg => ?_, fun q o s p c e ha ho he hv hswg hf hb hi hown => ?_, fun n s r c e hr hh hc he hv hswg => ?_,
    fun n s r c hr hh hc hf => ?_⟩
  · rw [exec_invalObject, execInvalObject, ownCtx_of_actsOn ha, if_neg (by omega)]
    rfl
  · rw [exec_invalSpan, execInvalSpan, ownCtx_of_actsOn ha, if_neg (by omega)]
    rfl
  · rw [exec_invalStage2, execInvalStage2, ownCtx_of_actsOn ha, if_neg (by omega)]
    rfl
  · refine ⟨startSweep { s with nextId := s.nextId + 1, revs := tset s.revs s.nextId ⟨some q, p, o.toNat, true, objGen e⟩ } p, ?_,
      tget?_tset_self .., fun _ => rfl, sweep_startSweep ha.2, rfl⟩
    rw [exec_revoke, execRevoke, ownCtx_of_actsOn ha, if_neg (by omega), he]
    dsimp only [State.fresh]
    rw [hv, if_pos hswg]
    rfl
  · let u : State := { s with nextId := s.nextId + 1, revs := tset s.revs s.nextId ⟨some q, p, o.toNat, false, objGen e⟩ }
    have hk := advanceGen_keeps u p c o.toNat e ((objGen e + 1) % 16)
    have hen := advanceGen_entry (s := u) (p := p) (gen := (objGen e + 1) % 16) hf hb hi he hown
    refine ⟨advanceGen u p c o.toNat e ((objGen e + 1) % 16), ?_, ?_, hk.2, hen⟩
    · rw [exec_revoke, execRevoke, ownCtx_of_actsOn ha, if_neg (by omega), he]
      dsimp only [State.fresh]
      rw [hv, if_neg hswg]
      rfl
    · rw [hk.1]
      exact tget?_tset_self ..
  · let u : State := { s with revs := tset s.revs n { r with held := false, gen := objGen e } }
    refine ⟨advanceGen u r.pasid c r.obn e ((objGen e + 1) % 16), ?_, ?_⟩
    · have hne : (objV e && (objGen e + 1) % 16 == objSwg e) = false := by rw [hv]; simpa using hswg
      rw [exec_revokeProceed, execRevokeProceed, hr]
      dsimp only
      rw [hh, hc]
      dsimp only
      rw [he]
      dsimp only
      rw [hne]
      rfl
    · rw [(advanceGen_keeps u r.pasid c r.obn e _).1]
      exact tget?_tset_self ..
  · let u : State := tlbDrop { s with revs := tdel s.revs n } fun t => t.pasid == r.pasid && t.obn == r.obn
    have hdrop : bytesKept s u := bytesKept_tlbDrop { s with revs := tdel s.revs n } _
    have he : exec (.revocationPoint n) s = .next (startSweep (match r.cmd with | some q => reply u q 0 0 | none => u) r.pasid) := by
      rw [exec_revocationPoint, execRevocationPoint, hr]
      exact (if_neg (by rw [hh, hf]; decide)).trans rfl
    refine ⟨_, he, ?_⟩
    cases r.cmd with
    | some q => exact ⟨tget?_tdel_self .., noneCached_of_dies rfl, completed_reply (u := u) rfl q 0 0, sweep_startSweep hc, hdrop⟩
    | none => exact ⟨tget?_tdel_self .., noneCached_of_dies rfl, rfl, sweep_startSweep hc, hdrop⟩

end Sys2Proof.Machine
end
